-- ==== Sys2Proof/Word.lean ====
section
/-! DEFINITION. The bit-vector types of the OZN-4880 (R3 to R6) and their plainest views. -/
namespace Sys2Proof

/-- A 32-bit scalar register, lane word element or memory word (R4, R73). -/
abbrev Word := BitVec 32
/-- A 64-bit value: an address or a register pair (R6). -/
abbrev Dword := BitVec 64
/-- One byte (R4). -/
abbrev Byte := BitVec 8
/-- A 96-bit lane mask; bit `l` stands for lane `l` (R74). -/
abbrev Mask := BitVec 96
/-- The number of a scalar register `s0` to `s63` (R74). -/
abbrev SReg := BitVec 6
/-- The 9-bit field that names a vector register (R82, kind V). -/
abbrev VReg := BitVec 9
/-- The number of a predicate `p0` to `p7` (R82, kind P). -/
abbrev PReg := BitVec 3
/-- The number of an accumulator tile `acc0` to `acc15` (R82, kind A). -/
abbrev Tile := BitVec 4
/-- The number of a drain element register `e0` to `e15` (R92). -/
abbrev EReg := BitVec 4

end Sys2Proof
end

