-- ==== Sys2Proof/Config.lean ====
section
/-! DEFINITION. What an implementation fixes and the spec leaves open: constants without a value that any proof
could use, and the fixed sizes of the part. -/
namespace Sys2Proof

/-- The value that special function `f` (its class `0x0A` function code) of the part returns for an FP32 operand
under a flush mode, before the bound of R144 is imposed (UNSTATED by the spec; assumption log 1). -/
opaque Config.sfu (f : Nat) (x : Word) (flush : Bool) : Word
/-- The table value of drain operation `op` for an FP32 operand, before the bound of R268 is imposed (log 1). -/
opaque Config.drainTable (op : Nat) (x : Word) : Word
/-- A byte of a snapshot's opaque divergence block, by draw (R117, R353; log 2). -/
opaque Config.divergenceByte (draw : Nat) : Byte
/-- The hash function SHA-512 over bytes (R21, R393; log 3). -/
opaque Config.sha512 (bytes : List Byte) : BitVec 512
/-- Ed25519 verification of a signature over a digest with a key (R21, R393; log 3). -/
opaque Config.ed25519Verify (key : BitVec 256) (digest sig : BitVec 512) : Bool
/-- Ed25519 signing with the module's identity key (R393; log 3). -/
opaque Config.identitySign (digest : BitVec 512) : BitVec 512
/-- The public half of the identity key (R393; log 3). -/
opaque Config.identityKey : BitVec 256
/-- The vendor key and the key that signed code is checked against (R23, R393; log 3). -/
opaque Config.vendorKey : BitVec 256
opaque Config.codeKey : BitVec 256
/-- Firmware image `n` (Beryl cores 0 to 7, Jasper 8) as stored, and its signature (R393; log 3). -/
opaque Config.firmwareImage (n : Nat) : List Byte
opaque Config.firmwareSig (n : Nat) : BitVec 512
/-- The fuse security version (R393; log 3). -/
opaque Config.fuseVersion : Word
/-- The current and temperature histograms of a lifetime record, by draw (R379; log 4). -/
opaque Config.histogram (draw : Nat) : List Word
/-- The bytes of a lifetime record that holds given counts and histograms (R379; log 4). -/
opaque Config.lifePayload (counts : List Nat) (histograms : List Word) : List Byte
/-- The size of a lifetime segment, as a power of two, before it is brought into the range of R280 (log 4). -/
opaque Config.lifeSize : Nat

/-- How many accepted records beyond its durable ones a segment keeps over a loss of power or a reset, by draw, before it is
brought into range (R288; log 6). -/
opaque Config.surviving (draw : Nat) : Nat

/-- The clocks that a hit in the second-level TLB adds to a suspension, by draw, before they are brought within the bound of R114
(log 77). -/
opaque Config.secondLevel (draw : Nat) : Nat
/-- How many entries a ring of the array ECC log or of the vertical-bus log holds beyond one (R376; log 104). -/
opaque Config.logEntries : Nat
/-- Whether the access filter of an untrusted core grants an address: its firmware memory or a window of its function (R54;
log 78). -/
opaque Config.granted (agent pa : Nat) : Bool

/-- Compute stacks, cores per stack, lanes per group (R11). -/
def Config.stackCount : Nat := 48
def Config.coresPerStack : Nat := 16
def Config.coreCount : Nat := 768
def Config.laneCount : Nat := 96
/-- Garnet contexts of a stack's pool (R15). -/
def Config.poolContexts : Nat := 128
/-- Bytes of HBM behind one stack (R194). -/
def Config.stackBytes : Nat := 0xC00000000
/-- First addresses and sizes of the populated ranges (R36). -/
def Config.hbmBytes : Nat := 0x24000000000
def Config.capBase : Nat := 0x100000000000
def Config.capBytes : Nat := 0x20000000000
def Config.flashBase : Nat := 0x200000000000
def Config.flashBytes : Nat := 0x200000000000
def Config.privBase : Nat := 0x00FF000000000000
def Config.privBytes : Nat := 0x0001000000000000
/-- The PCIe window of the host's physical map (R387). -/
def Config.pcieBase : Nat := 0x00FE000000000000
def Config.pcieBytes : Nat := 0x10000000000
/-- What a byte of memory that nothing has written reads as (log 5: DESIGN CHOICE, the spec gives none). -/
def Config.unwritten : Byte := 0

end Sys2Proof
end

