-- ==== Sys2Proof/Syntax.lean ====
section
/-! DEFINITION. The abstract syntax: operand forms, and `Instr`, one constructor for each row of the
opcode table (R75 to R93 for the three encoded streams; the device's own steps and host requests after them). -/
namespace Sys2Proof

/-- Signed scalar comparison conditions (R76), and the integer lane conditions (R87). -/
inductive Cond where
  | eq | ne | lt | le | gt | ge
deriving DecidableEq, Repr

/-- Unsigned scalar comparison conditions (R76). -/
inductive UCond where
  | lt | le | gt | ge
deriving DecidableEq, Repr

/-- Floating comparison conditions (R88). -/
inductive FCond where
  | eq | ne | lt | le | gt | ge | un | or
deriving DecidableEq, Repr

/-- The integer type codes 0 to 7 (R86). -/
inductive IntTy where
  | s32 | z32 | s16 | z16 | s8 | z8 | s64 | z64
deriving DecidableEq, Repr

/-- Rounding modes (R88, R136). -/
inductive Rnd where
  | rne | rz | rp | rm
deriving DecidableEq, Repr

/-- The element types `0x01` to `0x0E` that `CVT` and layouts name (R27). -/
inductive ElemTy where
  | s8 | z8 | s16 | z16 | s32 | z32 | s64 | z64 | f32 | bf16 | f16 | e4m3 | e5m2 | e2m1
deriving DecidableEq, Repr

/-- The address space of a memory instruction (R89). -/
inductive Space where
  | glob | sp | cw
deriving DecidableEq, Repr

/-- Ordering of a memory access (R89). -/
inductive Ord4 where
  | plain | acq | rel | ar
deriving DecidableEq, Repr

/-- Scope of an ordered access, fence or cache operation (R89). -/
inductive Scope where
  | grp | team | clu | dev | sys
deriving DecidableEq, Repr

/-- Atomicity flag (R89). -/
inductive Atomicity where
  | four | w8 | w16
deriving DecidableEq, Repr

/-- Type field of an atomic: an integer type or `.f32` (R89). -/
inductive AtomTy where
  | int (t : IntTy)
  | f32
deriving DecidableEq, Repr

/-- Atomic operations (R89). -/
inductive AtomOp where
  | add | min | max | and | or | xor | exch | cas
deriving DecidableEq, Repr

/-- `SHFL` modes (R177). -/
inductive ShflMode where
  | idx | up | down | xor
deriving DecidableEq, Repr

/-- `GRED` operations (R180). -/
inductive GredOp where
  | add | min | max | and | or | xor
deriving DecidableEq, Repr

/-- Operand formats of the matrix engine (R91). -/
inductive MmaFmt where
  | e4m3 | e5m2 | e2m1 | bf16 | f16 | s8
deriving DecidableEq, Repr

/-- Paths of `WAITK` and the in-flight counters (R78, R111). -/
inductive KPath where
  | l1 | st | col | spad | flash | acc
deriving DecidableEq, Repr

/-- The operation of `XRED` (R91). -/
inductive XOp where
  | max | sum | pair
deriving DecidableEq, Repr

/-- Special registers that `SRD` reads, the cycle counter apart (R95). -/
inductive SpecialReg where
  | encrev | coreid | gpos | clusterid | ejth | rjto | deadlanes | deadm0 | deadm1 | deadm2
  | role | gang | sigval | fpflags | fpmode | tcause | tval0 | tval1 | tspc | tlpc
deriving DecidableEq, Repr

/-- The trap registers that `SWR` writes (R95). -/
inductive TrapReg where
  | tcause | tval0 | tval1 | tspc | tlpc
deriving DecidableEq, Repr

/-- The fields every lane word carries beside its operands (R80, R81, R83). -/
structure LaneHdr where
  /-- predicate select -/
  pred : PReg
  /-- predicate negate -/
  neg : Bool
  /-- minimum distance -/
  dist : BitVec 3
  /-- wait mask, bit `n` for `f n` -/
  wait : BitVec 12
  /-- completion flag, `0xF` for none -/
  setf : BitVec 4
deriving DecidableEq, Repr

/-- The `b` operand of a lane instruction: a vector register or imm17 (R84). -/
inductive VSrc where
  | reg (v : VReg)
  | imm (i : BitVec 17)
deriving DecidableEq, Repr

/-- Base of a memory address: a scalar pair or a vector pair (R89). -/
inductive MBase where
  | scal (s : SReg)
  | vec (v : VReg)
deriving DecidableEq, Repr

/-- Index of a memory address with its scale code (R89, R82 kind X). -/
inductive MIdx where
  | none
  | lane (scale : BitVec 3)
  | reg (v : VReg) (scale : BitVec 3)
deriving DecidableEq, Repr

/-- Destination field of a gang instruction: drain enable, program slot and tile (R91). -/
structure TileDrain where
  drain : Bool
  slot : BitVec 4
  tile : Tile
deriving DecidableEq, Repr

/-- The `b` operand of a drain operation: an element register or an FP32 word (R265). -/
inductive DSrc where
  | reg (e : EReg)
  | imm (w : Word)
deriving DecidableEq, Repr

/-- Types of `DROW`, `DCOL` and `DLD` (R266). -/
inductive DMemTy where
  | f32 | bf16 | f16
deriving DecidableEq, Repr

/-- Forms of `DAMAX` (R266). -/
inductive DMaxTy where
  | e4m3 | e2m1 | f32
deriving DecidableEq, Repr

/-- Conversion targets of `DCVT` (R266). -/
inductive DCvtTy where
  | s8 | s32 | bf16 | f16 | e4m3 | e5m2 | e2m1
deriving DecidableEq, Repr

/-- Store types of `DST` (R266). -/
inductive DStTy where
  | s8 | s32 | f32 | bf16 | f16 | e4m3 | e5m2 | e2m1
deriving DecidableEq, Repr

/-- Conditions of `DSEL` (R266). -/
inductive DSelCond where
  | gt | ge | ne | un
deriving DecidableEq, Repr

/-- The operations of a hart's atomics (R387: the profile RVA23). -/
inductive HartAmo where
  | swap | add | and | or | xor | min | max | minu | maxu
deriving DecidableEq, Repr

/-- How the host die reaches memory (R387): an access of 8 bytes, a store of `n` bytes, an atomic of `n` bytes, a compare and swap, a
load-reserved and a store-conditional. -/
inductive HartOp where
  | load | store (v : Dword) | swap (v : Dword) | add (v : Dword)
  | storeN (n : Nat) (v : Dword) | amo (op : HartAmo) (n : Nat) (v : Dword) | cas (n : Nat) (old new : Dword)
  | lr (n : Nat) | sc (n : Nat) (v : Dword)
deriving DecidableEq, Repr

/-- How a hart comes to an address (R387): its number, the frame of its root table where it translates, whether it is in user mode, and
its `SUM` and `MXR` bits. -/
structure HartVia where
  hart : Nat
  root : Option Nat
  user : Bool
  sum : Bool
  mxr : Bool
deriving DecidableEq, Repr

/-- An access of a hart (R387): how it comes to the address, and what it does there. -/
structure HartReq where
  via : HartVia
  op : HartOp
deriving DecidableEq, Repr

/-- Who makes an inbound request of the PCIe port (R391): the requester, and the PASID of its prefix, 0 for none. -/
structure PcieVia where
  dev : Nat
  pasid : Nat
deriving DecidableEq, Repr

/-- The peer that a port connects to (R392): its number, and whether it offers the AI Full profile. -/
structure Peer where
  name : Nat
  aiFull : Bool
deriving DecidableEq, Repr

/-- The instructions and steps of the OZN-4880, one constructor for each row of the opcode table. -/
inductive Instr where
  /-- `ADD` (R152) -/
  | add (d a b : SReg)
  /-- `SUB` (R152) -/
  | sub (d a b : SReg)
  /-- `MUL` (R152) -/
  | mul (d a b : SReg)
  /-- `MULH` (R152) -/
  | mulh (d a b : SReg)
  /-- `MULH.z32` (R152) -/
  | mulhZ32 (d a b : SReg)
  /-- `DIVS` (R152) -/
  | divs (d a b : SReg)
  /-- `AND` (R152) -/
  | and (d a b : SReg)
  /-- `OR` (R152) -/
  | or (d a b : SReg)
  /-- `XOR` (R152) -/
  | xor (d a b : SReg)
  /-- `ANDN` (R152) -/
  | andn (d a b : SReg)
  /-- `SHL` (R152) -/
  | shl (d a b : SReg)
  /-- `SHR` (R152) -/
  | shr (d a b : SReg)
  /-- `SRA` (R152) -/
  | sra (d a b : SReg)
  /-- `MIN` (R152) -/
  | min (d a b : SReg)
  /-- `MAX` (R152) -/
  | max (d a b : SReg)
  /-- `MIN.z32` (R152) -/
  | minZ32 (d a b : SReg)
  /-- `MAX.z32` (R152) -/
  | maxZ32 (d a b : SReg)
  /-- `SEL` (R152) -/
  | sel (d a b : SReg)
  /-- `CMP.cc`, signed (R152) -/
  | cmp (cc : Cond) (d a b : SReg)
  /-- `CMP.cc.z32` (R152) -/
  | cmpZ32 (cc : UCond) (d a b : SReg)
  /-- `ADD.z64` over pairs (R152) -/
  | addZ64 (d a b : SReg)
  /-- `SUB.z64` over pairs (R152) -/
  | subZ64 (d a b : SReg)
  /-- `ADDI` (R152) -/
  | addi (d a : SReg) (imm : BitVec 14)
  /-- `ANDI` (R152) -/
  | andi (d a : SReg) (imm : BitVec 14)
  /-- `ORI` (R152) -/
  | ori (d a : SReg) (imm : BitVec 14)
  /-- `XORI` (R152) -/
  | xori (d a : SReg) (imm : BitVec 14)
  /-- `SHLI` (R152) -/
  | shli (d a : SReg) (n : BitVec 5)
  /-- `SHRI` (R152) -/
  | shri (d a : SReg) (n : BitVec 5)
  /-- `SRAI` (R152) -/
  | srai (d a : SReg) (n : BitVec 5)
  /-- `MOVI` (R153) -/
  | movi (d : SReg) (imm : BitVec 20)
  /-- `MOVHI` (R153) -/
  | movhi (d : SReg) (imm : BitVec 12)
  /-- `BR.nz` (R155) -/
  | brNz (a : SReg) (off : BitVec 14)
  /-- `BR.z` (R155) -/
  | brZ (a : SReg) (off : BitVec 14)
  /-- `BRD` (R118, R119) -/
  | brd (p : PReg) (neg : Bool) (tag : BitVec 2) (live : BitVec 6) (off : BitVec 14)
  /-- `JMP` (R155) -/
  | jmp (off : BitVec 26)
  /-- `CALL` (R155) -/
  | call (off : BitVec 26)
  /-- `JMPI` (R155) -/
  | jmpi (a : SReg)
  /-- `JMPV` (R129) -/
  | jmpv (tag : BitVec 2) (v : VReg)
  /-- `CALLV` (R129) -/
  | callv (tag : BitVec 2) (v : VReg)
  /-- `RJOIN` (R126) -/
  | rjoin (tag : BitVec 2)
  /-- `LRUN` (R157) -/
  | lrun (idx : BitVec 26)
  /-- `LJMP` (R158) -/
  | ljmp (idx : BitVec 26)
  /-- `LOOPH` (R159) -/
  | looph (off : BitVec 14)
  /-- `MAND` over triples (R154) -/
  | mand (d a b : SReg)
  /-- `MOR` over triples (R154) -/
  | mor (d a b : SReg)
  /-- `MXOR` over triples (R154) -/
  | mxor (d a b : SReg)
  /-- `MNOT` (R154) -/
  | mnot (d a : SReg)
  /-- `MPOP` (R154) -/
  | mpop (d a : SReg)
  /-- `MFIRST` (R154) -/
  | mfirst (d a : SReg)
  /-- `SLD` (R161) -/
  | sld (d a : SReg) (off : BitVec 14)
  /-- `SLD.z64` (R161) -/
  | sldZ64 (d a : SReg) (off : BitVec 14)
  /-- `SST` (R161) -/
  | sst (d a : SReg) (off : BitVec 14)
  /-- `SST.z64` (R161) -/
  | sstZ64 (d a : SReg) (off : BitVec 14)
  /-- `SARG` (R162) -/
  | sarg (d : SReg) (off : BitVec 14)
  /-- `SARG.z64` (R162) -/
  | sargZ64 (d : SReg) (off : BitVec 14)
  /-- `WAITF` (R163) -/
  | waitf (mask : BitVec 12)
  /-- `WAITK` (R163) -/
  | waitk (k : KPath) (s : SReg)
  /-- `SRD` of a register other than the cycle counter (R164) -/
  | srd (d : SReg) (r : SpecialReg)
  /-- `SRD` of `cyclo` (R164) -/
  | srdCyclo (d : SReg)
  /-- `SRD` of `cychi` (R164) -/
  | srdCychi (d : SReg)
  /-- `SWR ejth` (R164) -/
  | swrEjth (a : SReg)
  /-- `SWR rjto` (R164) -/
  | swrRjto (a : SReg)
  /-- `SWR fpflags` (R141) -/
  | swrFpflags (a : SReg)
  /-- `SWR` of a trap register (R95) -/
  | swrTrapState (r : TrapReg) (a : SReg)
  /-- `SIGCHK` (R165) -/
  | sigchk (i : BitVec 14)
  /-- `TRAP` (R346) -/
  | trap (n : BitVec 14)
  /-- `SVC` (R346) -/
  | svc (n : BitVec 14)
  /-- `BKPT` (R346) -/
  | bkpt (n : BitVec 14)
  /-- `NOP` and hints (R79) -/
  | nop (hint : BitVec 26)
  /-- `IADD` (R169) -/
  | iadd (h : LaneHdr) (t : IntTy) (sat : Bool) (vd va : VReg) (b : VSrc)
  /-- `ISUB` (R169) -/
  | isub (h : LaneHdr) (t : IntTy) (sat : Bool) (vd va : VReg) (b : VSrc)
  /-- `IMUL` (R169) -/
  | imul (h : LaneHdr) (t : IntTy) (sat : Bool) (vd va : VReg) (b : VSrc)
  /-- `IMAD` (R169) -/
  | imad (h : LaneHdr) (t : IntTy) (sat : Bool) (vd va : VReg) (b : VSrc) (vc : VReg)
  /-- `IMULH` (R169) -/
  | imulh (h : LaneHdr) (t : IntTy) (vd va : VReg) (b : VSrc)
  /-- `IABS` (R169) -/
  | iabs (h : LaneHdr) (t : IntTy) (sat : Bool) (vd va : VReg)
  /-- `IMIN` (R169) -/
  | imin (h : LaneHdr) (t : IntTy) (vd va : VReg) (b : VSrc)
  /-- `IMAX` (R169) -/
  | imax (h : LaneHdr) (t : IntTy) (vd va : VReg) (b : VSrc)
  /-- lane `AND` (R170) -/
  | laneAnd (h : LaneHdr) (t : IntTy) (vd va : VReg) (b : VSrc)
  /-- lane `OR` (R170) -/
  | laneOr (h : LaneHdr) (t : IntTy) (vd va : VReg) (b : VSrc)
  /-- lane `XOR` (R170) -/
  | laneXor (h : LaneHdr) (t : IntTy) (vd va : VReg) (b : VSrc)
  /-- `NOT` (R170) -/
  | not (h : LaneHdr) (t : IntTy) (vd va : VReg)
  /-- lane `SHL` (R170) -/
  | laneShl (h : LaneHdr) (t : IntTy) (vd va : VReg) (b : VSrc)
  /-- lane `SHR` (R170) -/
  | laneShr (h : LaneHdr) (t : IntTy) (vd va : VReg) (b : VSrc)
  /-- lane `SRA` (R170) -/
  | laneSra (h : LaneHdr) (t : IntTy) (vd va : VReg) (b : VSrc)
  /-- lane `ROT` (R170) -/
  | rot (h : LaneHdr) (t : IntTy) (vd va : VReg) (b : VSrc)
  /-- `POPC` (R170) -/
  | popc (h : LaneHdr) (t : IntTy) (vd va : VReg)
  /-- `CLZ` (R170) -/
  | clz (h : LaneHdr) (t : IntTy) (vd va : VReg)
  /-- `BREV` (R170) -/
  | brev (h : LaneHdr) (t : IntTy) (vd va : VReg)
  /-- `BFX`; `width` holds the width less one (R171) -/
  | bfx (h : LaneHdr) (t : IntTy) (vd va : VReg) (pos width : BitVec 5)
  /-- `BFI`; `width` holds the width less one (R171) -/
  | bfi (h : LaneHdr) (t : IntTy) (vd va : VReg) (pos width : BitVec 5)
  /-- lane `SEL` (R172) -/
  | laneSel (h : LaneHdr) (t : IntTy) (vd va : VReg) (b : VSrc) (pk : PReg)
  /-- `MOV` (R172) -/
  | mov (h : LaneHdr) (t : IntTy) (vd : VReg) (a : VSrc)
  /-- `MOVS` (R172) -/
  | movs (h : LaneHdr) (t : IntTy) (vd : VReg) (sn : SReg)
  /-- `LEA` (R173) -/
  | lea (h : LaneHdr) (vd : VReg) (base : MBase) (idx : MIdx) (off : BitVec 12)
  /-- `ISET.cc` (R175) -/
  | iset (h : LaneHdr) (cc : Cond) (t : IntTy) (pd : PReg) (va : VReg) (b : VSrc)
  /-- `SHFL` (R177) -/
  | shfl (h : LaneHdr) (m : ShflMode) (t : IntTy) (vd va : VReg) (b : VSrc)
  /-- `VOTE.any` (R178) -/
  | voteAny (h : LaneHdr) (pd pa : PReg)
  /-- `VOTE.all` (R178) -/
  | voteAll (h : LaneHdr) (pd pa : PReg)
  /-- `VOTE.ballot` (R179) -/
  | voteBallot (h : LaneHdr) (sn : SReg) (pa : PReg)
  /-- `GRED` (R180) -/
  | gred (h : LaneHdr) (op : GredOp) (t : IntTy) (vd va : VReg)
  /-- `FADD` (R184) -/
  | fadd (h : LaneHdr) (m : Rnd) (vd va : VReg) (b : VSrc)
  /-- `FSUB` (R184) -/
  | fsub (h : LaneHdr) (m : Rnd) (vd va : VReg) (b : VSrc)
  /-- `FMUL` (R184) -/
  | fmul (h : LaneHdr) (m : Rnd) (vd va : VReg) (b : VSrc)
  /-- `FFMA` (R184, R185) -/
  | ffma (h : LaneHdr) (m : Rnd) (vd va : VReg) (b : VSrc) (vc : VReg)
  /-- `FMIN` (R185) -/
  | fmin (h : LaneHdr) (vd va : VReg) (b : VSrc)
  /-- `FMAX` (R185) -/
  | fmax (h : LaneHdr) (vd va : VReg) (b : VSrc)
  /-- `FABS` (R184, R185) -/
  | fabs (h : LaneHdr) (vd va : VReg)
  /-- `FNEG` (R184, R185) -/
  | fneg (h : LaneHdr) (vd va : VReg)
  /-- `FCLASS` (R184, R185) -/
  | fclass (h : LaneHdr) (vd va : VReg)
  /-- `FSCALE` (R185) -/
  | fscale (h : LaneHdr) (m : Rnd) (vd va : VReg) (b : VSrc)
  /-- `FRND` (R185) -/
  | frnd (h : LaneHdr) (m : Rnd) (vd va : VReg)
  /-- `FDIV` (R185) -/
  | fdiv (h : LaneHdr) (m : Rnd) (vd va : VReg) (b : VSrc)
  /-- `FSQRT` (R185) -/
  | fsqrt (h : LaneHdr) (m : Rnd) (vd va : VReg)
  /-- `FSET.cc` (R186) -/
  | fset (h : LaneHdr) (cc : FCond) (pd : PReg) (va : VReg) (b : VSrc)
  /-- `RCP` (R187) -/
  | rcp (h : LaneHdr) (vd va : VReg)
  /-- `RSQ` (R187) -/
  | rsq (h : LaneHdr) (vd va : VReg)
  /-- `EX2` (R187) -/
  | ex2 (h : LaneHdr) (vd va : VReg)
  /-- `LG2` (R187) -/
  | lg2 (h : LaneHdr) (vd va : VReg)
  /-- `SIN` (R187) -/
  | sin (h : LaneHdr) (vd va : VReg)
  /-- `COS` (R187) -/
  | cos (h : LaneHdr) (vd va : VReg)
  /-- `TANH` (R187) -/
  | tanh (h : LaneHdr) (vd va : VReg)
  /-- `ERF` (R187) -/
  | erf (h : LaneHdr) (vd va : VReg)
  /-- A special function of group `g`, request `r`, completes (R188) -/
  | specialFunctionComplete (g r : Nat)
  /-- `H2ADD`; `bf` selects `.bf16` (R190) -/
  | h2add (h : LaneHdr) (m : Rnd) (bf : Bool) (vd va : VReg) (b : VSrc)
  /-- `H2MUL`; `bf` selects `.bf16` (R190) -/
  | h2mul (h : LaneHdr) (m : Rnd) (bf : Bool) (vd va : VReg) (b : VSrc)
  /-- `H2FMA` (R190) -/
  | h2fma (h : LaneHdr) (m : Rnd) (bf : Bool) (vd va : VReg) (b : VSrc) (vc : VReg)
  /-- `CVT.d.s` (R191, R192) -/
  | cvt (h : LaneHdr) (m : Rnd) (sat : Bool) (dt st : ElemTy) (vd va : VReg)
  /-- `LD` (R216) -/
  | ld (h : LaneHdr) (t : IntTy) (spa : Space) (acq : Bool) (sc : Scope) (w : Atomicity) (base : MBase) (idx : MIdx) (off : BitVec 12) (vd : VReg)
  /-- `ST` (R217) -/
  | st (h : LaneHdr) (t : IntTy) (spa : Space) (rel : Bool) (sc : Scope) (w : Atomicity) (base : MBase) (idx : MIdx) (off : BitVec 12) (vc : VReg)
  /-- `ATOM` (R220) -/
  | atom (h : LaneHdr) (op : AtomOp) (t : AtomTy) (spa : Space) (ord : Ord4) (sc : Scope) (w : Atomicity) (base : MBase) (idx : MIdx) (off : BitVec 8) (vd vc : VReg)
  /-- `RED` (R220) -/
  | red (h : LaneHdr) (op : AtomOp) (t : AtomTy) (spa : Space) (rel : Bool) (sc : Scope) (w : Atomicity) (base : MBase) (idx : MIdx) (off : BitVec 8) (vc : VReg)
  /-- Request `r` of group `g` returns (R228) -/
  | memoryRequestReturn (g r : Nat)
  /-- `FENCE` (R223) -/
  | fence (h : LaneHdr) (sc : Scope)
  /-- `CLN` (R224) -/
  | cln (h : LaneHdr) (sc : Scope)
  /-- `INV` (R224) -/
  | inv (h : LaneHdr) (sc : Scope)
  /-- `PREF` (R225) -/
  | pref (h : LaneHdr) (base : MBase) (idx : MIdx) (off : BitVec 12)
  /-- `LKLN` (R226) -/
  | lkln (h : LaneHdr) (base : MBase) (idx : MIdx) (off : BitVec 12)
  /-- `ULLN` (R226) -/
  | ulln (h : LaneHdr) (base : MBase) (idx : MIdx) (off : BitVec 12)
  /-- `CPYC` (R232, R233) -/
  | cpyc (h : LaneHdr) (dst src : SReg) (dr sr : Byte)
  /-- `CPYX` (R236) -/
  | cpyx (h : LaneHdr) (dst : SReg) (vx : VReg) (tab : SReg) (rc : Byte)
  /-- `JOB` (R239) -/
  | job (h : LaneHdr) (card : SReg)
  /-- `TASKDEF` (R244) -/
  | taskdef (h : LaneHdr) (card cnt : SReg) (t : Byte)
  /-- `TASKWAIT` (R244) -/
  | taskwait (h : LaneHdr) (t : Byte)
  /-- Submission `sub` of stack `st` starts (R240, R241) -/
  | submissionStart (st sub : Nat)
  /-- Submission `sub` of stack `st` completes (R241) -/
  | jobComplete (st sub : Nat)
  /-- The next tile of submission `sub` arrives (R310) -/
  | tileArrival (st sub : Nat)
  /-- `GANGSET` (R246) -/
  | gangset (h : LaneHdr) (s : SReg)
  /-- `MMA` (R252) -/
  | mma (h : LaneHdr) (fmt : MmaFmt) (td : TileDrain) (a b sc : SReg) (ra rb : Byte)
  /-- `MMAZ` (R252) -/
  | mmaz (h : LaneHdr) (fmt : MmaFmt) (td : TileDrain) (a b sc : SReg) (ra rb : Byte)
  /-- `MDRAIN` (R271) -/
  | mdrain (h : LaneHdr) (slot : BitVec 4) (tile : Tile) (sc : SReg)
  /-- The sequencer of core `c` finishes one K-block (R253) -/
  | matrixStep (c : Nat)
  /-- The oldest fired instruction of core `c` completes (R253) -/
  | matrixComplete (c : Nat)
  /-- `SCLD` (R258) -/
  | scld (h : LaneHdr) (a cnt : SReg) (off : BitVec 14)
  /-- `DRLD` (R262) -/
  | drld (h : LaneHdr) (a : SReg) (n : BitVec 7) (slot : BitVec 4)
  /-- `TKPASS` (R257) -/
  | tkpass (h : LaneHdr) (t : Tile)
  /-- `TKTAKE` (R257) -/
  | tktake (h : LaneHdr) (t : Tile)
  /-- `ACCRD` (R259) -/
  | accrd (h : LaneHdr) (vd : VReg) (t : Tile) (vx : VReg)
  /-- `ACCWR` (R259) -/
  | accwr (h : LaneHdr) (t : Tile) (vx vs : VReg)
  /-- The drain unit of core `c` checks and enters its next segment (R263, R273) -/
  | drainSegment (c : Nat)
  /-- The drain of core `c` completes (R276) -/
  | drainComplete (c : Nat)
  /-- `DADD` (R266) -/
  | dadd (d a : EReg) (b : DSrc)
  /-- `DMUL` (R266) -/
  | dmul (d a : EReg) (b : DSrc)
  /-- `DFMA` (R266) -/
  | dfma (d a : EReg) (b : DSrc) (c : EReg)
  /-- `DMIN` (R266) -/
  | dmin (d a : EReg) (b : DSrc)
  /-- `DMAX` (R266) -/
  | dmax (d a : EReg) (b : DSrc)
  /-- `DCLAMP` (R266) -/
  | dclamp (d a : EReg) (b : DSrc) (c : EReg)
  /-- `DROW` (R266) -/
  | drow (t : DMemTy) (d : EReg) (p : SReg)
  /-- `DCOL` (R266) -/
  | dcol (t : DMemTy) (d : EReg) (p : SReg)
  /-- `DSCL` (R266) -/
  | dscl (d a : EReg) (n : BitVec 9)
  /-- `DGELU` (R268) -/
  | dgelu (d a : EReg)
  /-- `DSILU` (R268) -/
  | dsilu (d a : EReg)
  /-- `DTANH` (R268) -/
  | dtanh (d a : EReg)
  /-- `DSIG` (R268) -/
  | dsig (d a : EReg)
  /-- `DRELU` (R266) -/
  | drelu (d a : EReg)
  /-- `DAMAX` (R267) -/
  | damax (t : DMaxTy) (d a : EReg)
  /-- `DQ8` (R267) -/
  | dq8 (d a b : EReg)
  /-- `DQ4` (R267) -/
  | dq4 (d a b : EReg)
  /-- `DCVT` (R266) -/
  | dcvt (sat : Bool) (t : DCvtTy) (d a : EReg)
  /-- `DSEL` (R266) -/
  | dsel (cc : DSelCond) (d a b c : EReg)
  /-- `DST` (R269) -/
  | dst (t : DStTy) (a : EReg) (p m : SReg)
  /-- `DSTS` (R269) -/
  | dsts (a : EReg) (p m : SReg)
  /-- `DEND` (R276) -/
  | dend (zero : Bool)
  /-- `DMOV` (R266) -/
  | dmov (d : EReg) (a : DSrc)
  /-- `DLD` (R266) -/
  | dld (t : DMemTy) (d : EReg) (p m : SReg)
  /-- `BARI` (R312) -/
  | bari (h : LaneHdr) (o n : SReg)
  /-- `ARRIVE` (R313) -/
  | arrive (h : LaneHdr) (o : SReg)
  /-- `BWAIT` (R315) -/
  | bwait (h : LaneHdr) (o : SReg)
  /-- `EXPECT` (R314) -/
  | expect (h : LaneHdr) (o n : SReg)
  /-- `ROLESET` (R318) -/
  | roleset (h : LaneHdr) (k : BitVec 2)
  /-- `XRED` (R320) -/
  | xred (h : LaneHdr) (op : XOp) (s : SReg) (vb : VReg)
  /-- The oldest incomplete round of collective `c` completes (R320) -/
  | xredRoundComplete (c : Nat)
  /-- `XWAIT` (R322) -/
  | xwait (h : LaneHdr) (s : SReg)
  /-- The oldest incomplete round of collective `c` times out (R323) -/
  | collectiveTimeout (c : Nat)
  /-- `APPEND` (R285) -/
  | append (h : LaneHdr) (g a n : SReg)
  /-- `APFENCE` (R287) -/
  | apfence (h : LaneHdr) (d g : SReg)
  /-- `SEAL` (R289) -/
  | seal (h : LaneHdr) (g : SReg)
  /-- The next record of the segment named `seg` becomes durable (R288) -/
  | recordDurable (seg : Nat)
  /-- Jasper answers request `r` of group `g` with a stall token (R279) -/
  | stallToken (g r : Nat)
  /-- Jasper signals that the pages of request `r` are free (R279) -/
  | stallRelease (g r : Nat)
  /-- The storage timeout of request `r` expires (R279) -/
  | storageTimeout (g r : Nat)
  /-- launch packet at the head of queue `q` (R47) -/
  | launch (q : Nat)
  /-- copy packet at the head of queue `q` (R51) -/
  | copy (q : Nat)
  /-- task packet at the head of queue `q` (R51) -/
  | task (q : Nat)
  /-- barrier packet at the head of queue `q` (R51) -/
  | barrier (q : Nat)
  /-- invalidation request at the head of queue `q` (R51, R209) -/
  | invalidateTranslations (q : Nat)
  /-- prefault request at the head of queue `q` (R212) -/
  | prefault (q : Nat)
  /-- demotion request at the head of queue `q` (R212) -/
  | demote (q : Nat)
  /-- prefetch request at the head of queue `q` (R212) -/
  | prefetchToHbm (q : Nat)
  /-- skip conditional at the head of queue `q` (R50) -/
  | conditionalSkip (q : Nat)
  /-- jump conditional at the head of queue `q` (R50) -/
  | conditionalJump (q : Nat)
  /-- repeat conditional at the head of queue `q` (R50) -/
  | conditionalRepeat (q : Nat)
  /-- the timeout of the repeat conditional at the head of queue `q` expires (R50) -/
  | repeatTimeout (q : Nat)
  /-- a watched line was written (R41) -/
  | lineWatchFire (line : Nat)
  /-- packet `idx` of queue `q` completes (R45) -/
  | packetComplete (q idx : Nat)
  /-- core 1 feeds one item of launch `l` (R48) -/
  | itemFeed (l : Nat)
  /-- the pool's decision on the `BRD` of path `p` of group `g` (R121) -/
  | ejectionDecision (g p : Nat)
  /-- Garnet context `g` is recalled (R124) -/
  | laneRecall (g : Nat)
  /-- the rejoin timer of slot `t` of group `g` expires (R127) -/
  | rejoinTimeout (g t : Nat)
  /-- a vector line is fetched from the image (R112) -/
  | registerLineFetch (g line : Nat)
  /-- a walker of stack `st` finishes the oldest walk (R206) -/
  | translationWalk (st : Nat)
  /-- core 2 promotes the 64 KiB block at index `blk` (R210) -/
  | promoteBlock (blk : Nat)
  /-- core 3 drains the oldest record of stack `st` (R341) -/
  | trapQueueDrain (st : Nat)
  /-- a waiting record of stack `st` is written (R341) -/
  | trapRecordWrite (st : Nat)
  /-- core 1 writes the completion record of launch `l` (R384) -/
  | launchComplete (l : Nat)
  /-- the stop notice of cluster `cl` (R351) -/
  | stopNotice (cl : Nat)
  /-- saving of cluster `cl` starts (R354) -/
  | saveStart (cl : Nat)
  /-- all areas of cluster `cl` are written (R358) -/
  | saveComplete (cl : Nat)
  /-- cluster `cl` is restored (R357) -/
  | resumeRestore (cl : Nat)
  /-- an uncorrectable error strikes the codeword at `pa` (R372, R374) -/
  | framePoison (pa : Nat)
  /-- a parity mismatch of group `grp` on a column's vertical channel, in lane `lane`: `tries` up to 3 is the retry that passes; beyond
  that none does, and it says what ECC finds where no spare is free (R375) -/
  | parityRetry (core grp lane pa tries : Nat)
  /-- stack `st` is degraded (R378) -/
  | stackDegrade (st : Nat)
  /-- core 6 appends the lifetime record of stack `st` (R379) -/
  | lifetimeRecord (st : Nat)
  /-- core 6 sets the issue gate (R394) -/
  | powerGate (k : Nat)
  /-- an Ultra Ethernet port fails (R392) -/
  | portFailure (port : Nat)
  /-- a host-die hart accesses an address, which it translates where it has a root table (R387) -/
  | hartAccess (req : HartReq) (addr : Nat)
  /-- an inbound PCIe request of a requester, with its PASID prefix or 0 (R391) -/
  | pcieInboundRequest (via : PcieVia) (addr : Nat) (wr : Option (Nat × Dword))
  /-- Jasper can no longer place the records of a segment (R282) -/
  | segmentFailure (seg : Nat)
  /-- storage of group `g` suffers an uncorrectable error: kind 0 a vector word, 2 a word of a tile,
  3 a byte of the scale memory, any other a scalar register, a predicate or fixed state (R370, R371) -/
  | uncorrectableStorageError (g kind idx : Nat)
  /-- an instruction-buffer miss of one stream (R103) -/
  | instructionFetchMiss (g p : Nat) (lane : Bool)
  /-- a peer offers its transport profile (R392) -/
  | connectionSetup (port : Nat) (peer : Peer)
  /-- `RET` (R155) -/
  | ret
  /-- `EXIT` (R160) -/
  | exit
  /-- `SNAP` (R166) -/
  | snap
  /-- `ERET` (R347) -/
  | eret
  /-- `YIELD` (R348) -/
  | yield
  /-- `LEND`, the canonical run end (R157) -/
  | lend
  /-- core 1 searches a rectangle for a waiting cluster (R62) -/
  | placementSearch
  /-- core 2 answers a placement request (R55, R64) -/
  | placementRequest
  /-- core 1 decides a pre-emption (R350) -/
  | preemptDecision
  /-- the junction reaches 95 degrees (R395) -/
  | thermalThrottle
  /-- the junction reaches 110 degrees (R395) -/
  | thermalShutdown
  /-- power is lost (R288) -/
  | powerLoss
  /-- power-on reset (R396) -/
  | coldReset
  /-- warm reset (R396) -/
  | warmReset
  /-- host request `0x01` (R38) -/
  | registerQueue
  /-- host request `0x02` (R388) -/
  | freeQueue
  /-- host request `0x03` (R42) -/
  | resetQueue
  /-- host request `0x04` (R342) -/
  | recordReply
  /-- host request `0x05` (R389) -/
  | createSegment
  /-- host request `0x05` with the attach bit (R389) -/
  | attachSegment
  /-- host request `0x06` (R290) -/
  | freeSegment
  /-- host request `0x07` (R389) -/
  | hostAppend
  /-- host request `0x08` (R389) -/
  | hostSeal
  /-- host request `0x09` (R319) -/
  | createCollective
  /-- host request `0x0A` (R372) -/
  | registerBlockTable
  /-- host request `0x0A`, unregistering (R389) -/
  | unregisterBlockTable
  /-- host request `0x0B` (R279) -/
  | setStorageTimeout
  /-- host request `0x0C` (R210) -/
  | setPromotionPool
  /-- host request `0x0D` (R343) -/
  | killLaunch
  /-- host request `0x0E` (R385) -/
  | teardownPasid
  /-- host request `0x0F` (R393) -/
  | attestationReport
  /-- host request `0x10` (R379) -/
  | openLifetimeSegment
  /-- host request `0x11` (R387) -/
  | registerProcess
  /-- host request `0x12` (R389) -/
  | listKeptSegments
  /-- orderly shutdown: lifetime records are written (R379) -/
  | orderlyShutdown
deriving DecidableEq, Repr

end Sys2Proof
end

