-- ==== Sys2Proof/WellFormed.lean ====
section
/-! DEFINITION. Which instructions the encodings admit (R74, R81 to R93, R174, R193, R221, R229, R245, R260, R277,
R291, R324), as a decidable test. -/
namespace Sys2Proof

/-- An even register, as a pair requires (R74). -/
def pairOk (s : SReg) : Bool := s.toNat % 2 = 0
/-- A triple base: `n` mod 3 = 1 (R74). -/
def tripleOk (s : SReg) : Bool := s.toNat % 3 = 1
/-- A register block: even and at most 58 (R28). -/
def blockOk (s : SReg) : Bool := s.toNat % 2 = 0 && s.toNat ≤ 58

/-- A vector register `v0` to `v383` (R82). -/
def vregOk (v : VReg) : Bool := v.toNat < 384
/-- A 64-bit type (R86, codes 6 and 7). -/
def IntTy.wide : IntTy → Bool
  | .s64 | .z64 => true
  | _ => false
/-- A vector operand of a type: even for the 64-bit types (R82). -/
def vregTy (t : IntTy) (v : VReg) : Bool := vregOk v && (!t.wide || v.toNat % 2 = 0)
/-- The immediate of a packed type leaves the bits above its element zero (R84). -/
def immTy (t : IntTy) (i : BitVec 17) : Bool :=
  match t with
  | .s16 | .z16 => i.toNat < 2 ^ 16
  | .s8 | .z8 => i.toNat < 2 ^ 8
  | _ => true
/-- The `b` operand of a typed integer instruction. -/
def srcTy (t : IntTy) : VSrc → Bool
  | .reg v => vregTy t v
  | .imm i => immTy t i
/-- The `b` operand of an FP32 instruction. -/
def srcF : VSrc → Bool
  | .reg v => vregOk v
  | .imm _ => true
/-- The `b` operand of a packed 16-bit float (R84). -/
def srcH : VSrc → Bool
  | .reg v => vregOk v
  | .imm i => i.toNat < 2 ^ 16

/-- Classes that may not name a completion flag hold `0xF` (R83). -/
def hdrFixed (h : LaneHdr) : Bool := h.setf = 15
/-- Classes that may name a completion flag (R83). -/
def hdrAsync (h : LaneHdr) : Bool := h.setf.toNat < 12 || h.setf = 15
/-- Whole-group classes: unpredicated (R81). -/
def hdrGroup (h : LaneHdr) : Bool := hdrAsync h && h.pred = 0 && !h.neg

/-- A code of the 32-bit or 64-bit integer types (R174). -/
def IntTy.full : IntTy → Bool
  | .s32 | .z32 | .s64 | .z64 => true
  | _ => false
/-- A signed code (R174). -/
def IntTy.sgn : IntTy → Bool
  | .s32 | .s16 | .s8 | .s64 => true
  | _ => false
/-- A single 32-bit element (R174). -/
def IntTy.one32 : IntTy → Bool
  | .s32 | .z32 => true
  | _ => false

/-- The base of a memory address (R89). -/
def baseOk : MBase → Bool
  | .scal s => pairOk s
  | .vec v => vregOk v && v.toNat % 2 = 0
/-- The index of a memory address (R89). -/
def idxOk : MIdx → Bool
  | .none => true
  | .lane sc => sc.toNat ≤ 4
  | .reg v sc => vregOk v && sc.toNat ≤ 4

/-- Type and atomicity of a load or store with its register (R89, R214, R229). -/
def ldstOk (t : IntTy) (w : Atomicity) (v : VReg) : Bool :=
  match w with
  | .four => vregTy t v
  | .w8 => t.wide && vregTy t v
  | .w16 => t = .z32 && vregOk v && v.toNat % 4 = 0
/-- Type, atomicity and operation of an atomic with its registers (R220, R221). -/
def atomOk (op : AtomOp) (t : AtomTy) (w : Atomicity) (v : VReg) : Bool :=
  match t, w with
  | .int .s32, .four | .int .z32, .four => vregOk v && (op ≠ .cas || v.toNat < 384)
  | .int .s64, .w8 | .int .z64, .w8 => vregOk v && v.toNat % 2 = 0
  | .f32, .four => vregOk v && (op = .add || op = .min || op = .max)
  | .int .z32, .w16 => (op = .exch || op = .cas) && vregOk v && v.toNat % 4 = 0
  | _, _ => false
/-- The data register of a `cas` leaves room for the new value (R220). -/
def casRoom (op : AtomOp) (w : Atomicity) (v : VReg) : Bool :=
  if op = .cas then
    match w with
    | .four => v.toNat + 1 < 384
    | .w8 => v.toNat + 3 < 384
    | .w16 => v.toNat + 7 < 384
  else true
/-- A plain access holds scope 0 (R89). -/
def scopeOk (ordered : Bool) (sc : Scope) : Bool := ordered || sc = .grp

/-- The drain field of a gang instruction: no slot without a drain (R260). -/
def tdOk (td : TileDrain) : Bool := td.drain || td.slot = 0

/-- A 64-bit element type (R191). -/
def ElemTy.wide : ElemTy → Bool
  | .s64 | .z64 => true
  | _ => false
/-- A `CVT` operand register (R191). -/
def vregEl (t : ElemTy) (v : VReg) : Bool := vregOk v && (!t.wide || v.toNat % 2 = 0)

/-- The header of `LEND` (R157). -/
def lendHdr : LaneHdr := { pred := 0, neg := true, dist := 0, wait := 0, setf := 15 }

/-- The instructions that an encoding admits; every step of the device that has no encoding is admitted. DESIGN CHOICE: an odd `vb` of a
64-bit `SHFL`, which is one word there, is illegal by R82, where R174 names the operands that carry a value (log 113). -/
def Instr.wf : Instr → Bool
  | .addZ64 d a b | .subZ64 d a b => pairOk d && pairOk a && pairOk b
  | .mand d a b | .mor d a b | .mxor d a b => tripleOk d && tripleOk a && tripleOk b
  | .mnot d a => tripleOk d && tripleOk a
  | .mpop _ a | .mfirst _ a => tripleOk a
  | .jmpv _ v | .callv _ v => vregOk v
  | .sld _ a _ | .sst _ a _ => pairOk a
  | .sldZ64 d a _ | .sstZ64 d a _ => pairOk d && pairOk a
  | .sarg _ off => off.toNat % 4 = 0 && off.toNat ≤ 4092
  | .sargZ64 d off => pairOk d && off.toNat % 8 = 0 && off.toNat ≤ 4088
  | .iadd h t _ vd va b | .isub h t _ vd va b | .imul h t _ vd va b =>
    hdrFixed h && vregTy t vd && vregTy t va && srcTy t b
  | .imad h t _ vd va b vc => hdrFixed h && vregTy t vd && vregTy t va && srcTy t b && vregTy t vc
  | .imulh h t vd va b | .imin h t vd va b | .imax h t vd va b | .laneAnd h t vd va b | .laneOr h t vd va b
  | .laneXor h t vd va b | .laneShl h t vd va b | .laneShr h t vd va b | .laneSra h t vd va b
  | .rot h t vd va b => hdrFixed h && vregTy t vd && vregTy t va && srcTy t b
  | .iabs h t _ vd va => hdrFixed h && t.sgn && vregTy t vd && vregTy t va
  | .not h t vd va | .popc h t vd va | .clz h t vd va | .brev h t vd va =>
    hdrFixed h && vregTy t vd && vregTy t va
  | .bfx h t vd va _ _ | .bfi h t vd va _ _ => hdrFixed h && t.one32 && vregOk vd && vregOk va
  | .laneSel h t vd va b _ => hdrFixed h && vregTy t vd && vregTy t va && srcTy t b
  | .mov h t vd a => hdrFixed h && vregTy t vd && srcTy t a &&
      !(h = lendHdr && t = .s32 && vd = 0 && a = .reg 0)
  | .movs h t vd sn => hdrFixed h && vregTy t vd && (!t.wide || pairOk sn)
  | .lea h vd base idx _ => hdrFixed h && vregTy .z64 vd && baseOk base && idxOk idx
  | .iset h _ t pd va b => hdrFixed h && t.full && pd ≠ 0 && vregTy t va && srcTy t b
  | .shfl h _ t vd va b => hdrFixed h && t.full && vregTy t vd && vregTy t va && srcTy t b
  | .voteAny h pd _ | .voteAll h pd _ => hdrFixed h && pd ≠ 0
  | .voteBallot h sn _ => hdrFixed h && tripleOk sn
  | .gred h _ t vd va => hdrFixed h && t.full && vregTy t vd && vregTy t va
  | .fadd h _ vd va b | .fsub h _ vd va b | .fmul h _ vd va b | .fscale h _ vd va b | .fdiv h _ vd va b =>
    hdrFixed h && vregOk vd && vregOk va && srcF b
  | .ffma h _ vd va b vc => hdrFixed h && vregOk vd && vregOk va && srcF b && vregOk vc
  | .fmin h vd va b | .fmax h vd va b => hdrFixed h && vregOk vd && vregOk va && srcF b
  | .fabs h vd va | .fneg h vd va | .fclass h vd va => hdrFixed h && vregOk vd && vregOk va
  | .frnd h _ vd va | .fsqrt h _ vd va => hdrFixed h && vregOk vd && vregOk va
  | .fset h _ pd va b => hdrFixed h && pd ≠ 0 && vregOk va && srcF b
  | .rcp h vd va | .rsq h vd va | .ex2 h vd va | .lg2 h vd va | .sin h vd va | .cos h vd va | .tanh h vd va
  | .erf h vd va => hdrAsync h && vregOk vd && vregOk va
  | .h2add h _ _ vd va b | .h2mul h _ _ vd va b => hdrFixed h && vregOk vd && vregOk va && srcH b
  | .h2fma h _ _ vd va b vc => hdrFixed h && vregOk vd && vregOk va && srcH b && vregOk vc
  | .cvt h _ _ dt sy vd va => hdrFixed h && dt ≠ sy && vregEl dt vd && vregEl sy va
  | .ld h t _ acq sc w base idx _ vd =>
    hdrAsync h && scopeOk acq sc && ldstOk t w vd && baseOk base && idxOk idx
  | .st h t _ rel sc w base idx _ vc =>
    hdrAsync h && scopeOk rel sc && ldstOk t w vc && baseOk base && idxOk idx
  | .atom h op t _ ord sc w base idx _ vd vc =>
    hdrAsync h && scopeOk (ord ≠ .plain) sc && atomOk op t w vd && atomOk op t w vc && casRoom op w vc &&
      baseOk base && idxOk idx
  | .red h op t _ rel sc w base idx _ vc =>
    hdrAsync h && scopeOk rel sc && op ≠ .exch && op ≠ .cas && atomOk op t w vc && baseOk base && idxOk idx
  | .fence h _ | .cln h _ | .inv h _ => hdrGroup h
  | .pref h base idx _ | .lkln h base idx _ | .ulln h base idx _ => hdrAsync h && baseOk base && idxOk idx
  | .cpyc h db sb _ _ => hdrGroup h && blockOk db && blockOk sb
  | .cpyx h db vx tab _ => hdrGroup h && blockOk db && vregOk vx && pairOk tab
  | .job h card => hdrGroup h && pairOk card
  | .taskdef h card _ _ => hdrGroup h && pairOk card
  | .taskwait h _ | .gangset h _ | .tkpass h _ | .tktake h _ | .roleset h _ | .xwait h _ => hdrGroup h
  | .mma h _ td a b sc _ _ | .mmaz h _ td a b sc _ _ =>
    hdrGroup h && tdOk td && blockOk a && blockOk b && pairOk sc
  | .mdrain h _ _ sc => hdrGroup h && pairOk sc
  | .scld h a _ _ => hdrGroup h && pairOk a
  | .drld h a n _ => hdrGroup h && pairOk a && 1 ≤ n.toNat && n.toNat ≤ 64
  | .accrd h vd _ vx => hdrGroup h && vregOk vd && vregOk vx
  | .accwr h _ vx vs => hdrGroup h && vregOk vx && vregOk vs
  | .bari h _ _ | .expect h _ _ => hdrGroup h
  | .arrive h _ | .bwait h _ => hdrGroup h
  | .xred h op _ vb => hdrGroup h && vregOk vb && (op ≠ .pair || vb.toNat % 2 = 0)
  | .append h g a _ => hdrGroup h && pairOk g && pairOk a
  | .apfence h d g => hdrGroup h && pairOk d && pairOk g
  | .seal h g => hdrGroup h && pairOk g
  | .drow _ _ p | .dcol _ _ p => pairOk p
  | .dld _ _ p _ | .dst _ _ p _ | .dsts _ p _ => pairOk p
  | _ => true

/-- `v` with its following registers lies below the kernel's register count (R82, R214). -/
def vBelow (regs n : Nat) (v : VReg) : Bool := v.toNat + n ≤ regs
/-- How many registers a value of a type occupies. -/
def IntTy.span (t : IntTy) : Nat := if t.wide then 2 else 1
/-- How many registers an access of a type and atomicity names (R214). -/
def accSpan (t : IntTy) (w : Atomicity) : Nat :=
  match w with
  | .w16 => 4
  | _ => t.span
/-- How many registers an atomic operand names (R214, R221). -/
def AtomTy.span (t : AtomTy) (w : Atomicity) : Nat :=
  match t with
  | .int t => accSpan t w
  | .f32 => 1
/-- The source operand lies below the register count. -/
def srcBelow (regs n : Nat) : VSrc → Bool
  | .reg v => vBelow regs n v
  | .imm _ => true
/-- The base lies below the register count. -/
def baseBelow (regs : Nat) : MBase → Bool
  | .vec v => vBelow regs 2 v
  | .scal _ => true
/-- The index lies below the register count. -/
def idxBelow (regs : Nat) : MIdx → Bool
  | .reg v _ => vBelow regs 1 v
  | _ => true

/-- Every vector register that an instruction names lies below the kernel's register count (R82); a word that
breaks this is illegal (R94). -/
def Instr.wfFor (regs : Nat) : Instr → Bool
  | .jmpv _ v | .callv _ v => vBelow regs 1 v
  | .iadd _ t _ vd va b | .isub _ t _ vd va b | .imul _ t _ vd va b | .imulh _ t vd va b | .imin _ t vd va b
  | .imax _ t vd va b | .laneAnd _ t vd va b | .laneOr _ t vd va b | .laneXor _ t vd va b | .laneShl _ t vd va b
  | .laneShr _ t vd va b | .laneSra _ t vd va b | .rot _ t vd va b | .laneSel _ t vd va b _ =>
    vBelow regs t.span vd && vBelow regs t.span va && srcBelow regs t.span b
  | .shfl _ _ t vd va b => vBelow regs t.span vd && vBelow regs t.span va && srcBelow regs 1 b
  | .imad _ t _ vd va b vc =>
    vBelow regs t.span vd && vBelow regs t.span va && srcBelow regs t.span b && vBelow regs t.span vc
  | .iabs _ t _ vd va | .not _ t vd va | .popc _ t vd va | .clz _ t vd va | .brev _ t vd va
  | .bfx _ t vd va _ _ | .bfi _ t vd va _ _ | .gred _ _ t vd va =>
    vBelow regs t.span vd && vBelow regs t.span va
  | .mov _ t vd a => vBelow regs t.span vd && srcBelow regs t.span a
  | .movs _ t vd _ => vBelow regs t.span vd
  | .lea _ vd base idx _ => vBelow regs 2 vd && baseBelow regs base && idxBelow regs idx
  | .iset _ _ t _ va b => vBelow regs t.span va && srcBelow regs t.span b
  | .fadd _ _ vd va b | .fsub _ _ vd va b | .fmul _ _ vd va b | .fscale _ _ vd va b | .fdiv _ _ vd va b
  | .fmin _ vd va b | .fmax _ vd va b | .h2add _ _ _ vd va b | .h2mul _ _ _ vd va b =>
    vBelow regs 1 vd && vBelow regs 1 va && srcBelow regs 1 b
  | .ffma _ _ vd va b vc | .h2fma _ _ _ vd va b vc =>
    vBelow regs 1 vd && vBelow regs 1 va && srcBelow regs 1 b && vBelow regs 1 vc
  | .fabs _ vd va | .fneg _ vd va | .fclass _ vd va | .frnd _ _ vd va | .fsqrt _ _ vd va | .rcp _ vd va
  | .rsq _ vd va | .ex2 _ vd va | .lg2 _ vd va | .sin _ vd va | .cos _ vd va | .tanh _ vd va
  | .erf _ vd va => vBelow regs 1 vd && vBelow regs 1 va
  | .fset _ _ _ va b => vBelow regs 1 va && srcBelow regs 1 b
  | .cvt _ _ _ dt sy vd va =>
    vBelow regs (if dt.wide then 2 else 1) vd && vBelow regs (if sy.wide then 2 else 1) va
  | .ld _ t _ _ _ w base idx _ v | .st _ t _ _ _ w base idx _ v =>
    vBelow regs (accSpan t w) v && baseBelow regs base && idxBelow regs idx
  | .atom _ op t _ _ _ w base idx _ vd vc =>
    vBelow regs (t.span w) vd && vBelow regs (if op = .cas then 2 * t.span w else t.span w) vc &&
      baseBelow regs base && idxBelow regs idx
  | .red _ _ t _ _ _ w base idx _ vc => vBelow regs (t.span w) vc && baseBelow regs base && idxBelow regs idx
  | .pref _ base idx _ | .lkln _ base idx _ | .ulln _ base idx _ => baseBelow regs base && idxBelow regs idx
  | .cpyx _ _ vx _ _ => vBelow regs 1 vx
  | .accrd _ vd _ vx => vBelow regs 1 vd && vBelow regs 1 vx
  | .accwr _ _ vx vs => vBelow regs 1 vx && vBelow regs 1 vs
  | .xred _ op _ vb => vBelow regs (if op = .pair then 2 else 1) vb
  | _ => true

end Sys2Proof
end

