-- ==== Sys2Proof/Decode.lean ====
section
/-! DEFINITION. Decoding of the three encoded streams and the encoder of each (R73 to R93). A word is an instruction
exactly when its parsed form is well formed and encodes to the word again, so every reserved or zero-marked field
is checked by the encoding tables themselves (R94). -/
namespace Sys2Proof

/-! ### Scalar words -/

/-- The fields of a scalar word in the R form (R73); the other forms join them. -/
structure SFields where
  op : BitVec 6
  d : BitVec 6
  a : BitVec 6
  b : BitVec 6
  fn : BitVec 8
deriving DecidableEq, Repr

/-- Cut a scalar word into fields (R73). -/
def sUnpack (w : Word) : SFields :=
  { op := w.extractLsb' 26 6, d := w.extractLsb' 20 6, a := w.extractLsb' 14 6, b := w.extractLsb' 8 6,
    fn := w.extractLsb' 0 8 }
/-- Join the fields of a scalar word (R73). -/
def sPack (f : SFields) : Word := f.op ++ f.d ++ f.a ++ f.b ++ f.fn
/-- imm14, bits [13:0] (R73, form I). -/
def sImm (f : SFields) : BitVec 14 := f.b ++ f.fn
/-- The J form's field, bits [25:0]. -/
def sJ (f : SFields) : BitVec 26 := f.d ++ f.a ++ f.b ++ f.fn
/-- Fields of an I-form word. -/
def sI (op d a : BitVec 6) (imm : BitVec 14) : SFields :=
  { op := op, d := d, a := a, b := imm.extractLsb' 8 6, fn := imm.extractLsb' 0 8 }
/-- Fields of a J-form word. -/
def sJf (op : BitVec 6) (x : BitVec 26) : SFields :=
  { op := op, d := x.extractLsb' 20 6, a := x.extractLsb' 14 6, b := x.extractLsb' 8 6, fn := x.extractLsb' 0 8 }

def condCode : Cond → BitVec 3
  | .eq => 0 | .ne => 1 | .lt => 2 | .le => 3 | .gt => 4 | .ge => 5
def condOf (c : BitVec 3) : Option Cond :=
  if c = 0 then some .eq else if c = 1 then some .ne else if c = 2 then some .lt else if c = 3 then some .le
  else if c = 4 then some .gt else if c = 5 then some .ge else none
def ucondCode : UCond → BitVec 2
  | .lt => 0 | .le => 1 | .gt => 2 | .ge => 3
def ucondOf (c : BitVec 2) : UCond :=
  if c = 0 then .lt else if c = 1 then .le else if c = 2 then .gt else .ge
/-- `WAITK` path codes (R78). -/
def kpathCode : KPath → BitVec 3
  | .l1 => 0 | .st => 1 | .col => 2 | .spad => 3 | .flash => 4 | .acc => 5
def kpathOf (c : BitVec 3) : Option KPath :=
  if c = 0 then some .l1 else if c = 1 then some .st else if c = 2 then some .col else if c = 3 then some .spad
  else if c = 4 then some .flash else if c = 5 then some .acc else none
/-- Numbers of the special registers (R95). -/
def specialCode : SpecialReg → BitVec 14
  | .encrev => 0 | .coreid => 1 | .gpos => 2 | .clusterid => 3 | .ejth => 0x10 | .rjto => 0x11
  | .deadlanes => 0x12 | .deadm0 => 0x13 | .deadm1 => 0x14 | .deadm2 => 0x15 | .role => 0x20 | .gang => 0x21
  | .sigval => 0x22 | .fpflags => 0x30 | .fpmode => 0x31 | .tcause => 0x100 | .tval0 => 0x101 | .tval1 => 0x102
  | .tspc => 0x103 | .tlpc => 0x104
def specialOf (c : BitVec 14) : Option SpecialReg :=
  if c = 0 then some .encrev else if c = 1 then some .coreid else if c = 2 then some .gpos
  else if c = 3 then some .clusterid else if c = 0x10 then some .ejth else if c = 0x11 then some .rjto
  else if c = 0x12 then some .deadlanes else if c = 0x13 then some .deadm0 else if c = 0x14 then some .deadm1
  else if c = 0x15 then some .deadm2 else if c = 0x20 then some .role else if c = 0x21 then some .gang
  else if c = 0x22 then some .sigval else if c = 0x30 then some .fpflags else if c = 0x31 then some .fpmode
  else if c = 0x100 then some .tcause else if c = 0x101 then some .tval0 else if c = 0x102 then some .tval1
  else if c = 0x103 then some .tspc else if c = 0x104 then some .tlpc else none
def trapRegCode : TrapReg → BitVec 14
  | .tcause => 0x100 | .tval0 => 0x101 | .tval1 => 0x102 | .tspc => 0x103 | .tlpc => 0x104
def trapRegOf (c : BitVec 14) : Option TrapReg :=
  if c = 0x100 then some .tcause else if c = 0x101 then some .tval0 else if c = 0x102 then some .tval1
  else if c = 0x103 then some .tspc else if c = 0x104 then some .tlpc else none

/-- Opcode `0x01` (R76). -/
def parseArith (f : SFields) : Option Instr :=
  let d := f.d; let a := f.a; let b := f.b
  if f.fn = 0x00 then some (.add d a b) else if f.fn = 0x01 then some (.sub d a b)
  else if f.fn = 0x02 then some (.mul d a b) else if f.fn = 0x03 then some (.mulh d a b)
  else if f.fn = 0x04 then some (.mulhZ32 d a b) else if f.fn = 0x05 then some (.divs d a b)
  else if f.fn = 0x08 then some (.and d a b) else if f.fn = 0x09 then some (.or d a b)
  else if f.fn = 0x0A then some (.xor d a b) else if f.fn = 0x0B then some (.andn d a b)
  else if f.fn = 0x10 then some (.shl d a b) else if f.fn = 0x11 then some (.shr d a b)
  else if f.fn = 0x12 then some (.sra d a b) else if f.fn = 0x18 then some (.min d a b)
  else if f.fn = 0x19 then some (.max d a b) else if f.fn = 0x1A then some (.minZ32 d a b)
  else if f.fn = 0x1B then some (.maxZ32 d a b) else if f.fn = 0x1C then some (.sel d a b)
  else if f.fn = 0x30 then some (.addZ64 d a b) else if f.fn = 0x31 then some (.subZ64 d a b)
  else if f.fn.extractLsb' 3 5 = 0x04 then (condOf (f.fn.extractLsb' 0 3)).map (fun cc => .cmp cc d a b)
  else if f.fn.extractLsb' 2 6 = 0x0A then some (.cmpZ32 (ucondOf (f.fn.extractLsb' 0 2)) d a b)
  else none

/-- Opcode `0x20` (R77). -/
def parseMask (f : SFields) : Option Instr :=
  if f.fn = 0 then some (.mand f.d f.a f.b) else if f.fn = 1 then some (.mor f.d f.a f.b)
  else if f.fn = 2 then some (.mxor f.d f.a f.b) else if f.fn = 3 then some (.mnot f.d f.a)
  else if f.fn = 4 then some (.mpop f.d f.a) else if f.fn = 5 then some (.mfirst f.d f.a) else none

/-- `SRD` (R95, R164). -/
def parseSrd (f : SFields) : Option Instr :=
  if sImm f = 4 then some (.srdCyclo f.d) else if sImm f = 5 then some (.srdCychi f.d)
  else (specialOf (sImm f)).map (.srd f.d)
/-- `SWR` (R95, R164). -/
def parseSwr (f : SFields) : Option Instr :=
  if sImm f = 0x10 then some (.swrEjth f.a) else if sImm f = 0x11 then some (.swrRjto f.a)
  else if sImm f = 0x30 then some (.swrFpflags f.a) else (trapRegOf (sImm f)).map (fun r => .swrTrapState r f.a)

/-- The scalar opcode map (R75), fields not yet checked. DESIGN CHOICE: a `BRD` whose offset field holds −8,192 is an instruction, as R78
calls the whole field a signed offset, where R118 speaks of 8,191 words back (log 111). -/
def parseScalar (f : SFields) : Option Instr :=
  if f.op = 0x01 then parseArith f
  else if f.op = 0x02 then some (.addi f.d f.a (sImm f)) else if f.op = 0x03 then some (.andi f.d f.a (sImm f))
  else if f.op = 0x04 then some (.ori f.d f.a (sImm f)) else if f.op = 0x05 then some (.xori f.d f.a (sImm f))
  else if f.op = 0x06 then some (.shli f.d f.a ((sImm f).extractLsb' 0 5))
  else if f.op = 0x07 then some (.shri f.d f.a ((sImm f).extractLsb' 0 5))
  else if f.op = 0x08 then some (.srai f.d f.a ((sImm f).extractLsb' 0 5))
  else if f.op = 0x09 then some (.movi f.d (f.a ++ f.b ++ f.fn))
  else if f.op = 0x0A then some (.movhi f.d ((sImm f).extractLsb' 0 12))
  else if f.op = 0x10 then some (.brNz f.a (sImm f)) else if f.op = 0x11 then some (.brZ f.a (sImm f))
  else if f.op = 0x12 then
    some (.brd (f.d.extractLsb' 3 3) (f.d.getLsbD 2) (f.d.extractLsb' 0 2) f.a (sImm f))
  else if f.op = 0x13 then some (.jmp (sJ f)) else if f.op = 0x14 then some (.call (sJ f))
  else if f.op = 0x15 then some (.jmpi f.a)
  else if f.op = 0x16 then some (.jmpv (f.d.extractLsb' 0 2) ((sImm f).extractLsb' 5 9))
  else if f.op = 0x17 then some (.callv (f.d.extractLsb' 0 2) ((sImm f).extractLsb' 5 9))
  else if f.op = 0x18 then some .ret
  else if f.op = 0x19 then some (.rjoin (f.fn.extractLsb' 0 2))
  else if f.op = 0x1A then some (.lrun (sJ f)) else if f.op = 0x1B then some (.ljmp (sJ f))
  else if f.op = 0x1C then some (.looph (sImm f)) else if f.op = 0x1D then some .exit
  else if f.op = 0x20 then parseMask f
  else if f.op = 0x24 then some (.sld f.d f.a (sImm f)) else if f.op = 0x25 then some (.sldZ64 f.d f.a (sImm f))
  else if f.op = 0x26 then some (.sst f.d f.a (sImm f)) else if f.op = 0x27 then some (.sstZ64 f.d f.a (sImm f))
  else if f.op = 0x28 then some (.sarg f.d (sImm f)) else if f.op = 0x29 then some (.sargZ64 f.d (sImm f))
  else if f.op = 0x2C then some (.waitf (sJ f |>.extractLsb' 14 12))
  else if f.op = 0x2D then
    (kpathOf ((sImm f).extractLsb' 11 3)).map (fun k => .waitk k ((sImm f).extractLsb' 5 6))
  else if f.op = 0x30 then parseSrd f else if f.op = 0x31 then parseSwr f
  else if f.op = 0x34 then some (.sigchk (sImm f)) else if f.op = 0x35 then some .snap
  else if f.op = 0x38 then some (.trap (sImm f)) else if f.op = 0x39 then some (.svc (sImm f))
  else if f.op = 0x3A then some (.bkpt (sImm f)) else if f.op = 0x3B then some .eret
  else if f.op = 0x3C then some .yield else if f.op = 0x3E then some (.nop (sJ f))
  else none

/-- The fields of an R-form arithmetic word. -/
def sR (d a b : BitVec 6) (fn : BitVec 8) : SFields := { op := 0x01, d := d, a := a, b := b, fn := fn }
/-- The fields of a mask word. -/
def sM (d a b : BitVec 6) (fn : BitVec 8) : SFields := { op := 0x20, d := d, a := a, b := b, fn := fn }
/-- Bit [0] of a 1-bit field. -/
def bit1 (b : Bool) : BitVec 1 := if b then 1 else 0

/-- The fields that encode a scalar instruction (R73 to R79). -/
def scalarFields : Instr → Option SFields
  | .add d a b => some (sR d a b 0x00) | .sub d a b => some (sR d a b 0x01)
  | .mul d a b => some (sR d a b 0x02) | .mulh d a b => some (sR d a b 0x03)
  | .mulhZ32 d a b => some (sR d a b 0x04) | .divs d a b => some (sR d a b 0x05)
  | .and d a b => some (sR d a b 0x08) | .or d a b => some (sR d a b 0x09)
  | .xor d a b => some (sR d a b 0x0A) | .andn d a b => some (sR d a b 0x0B)
  | .shl d a b => some (sR d a b 0x10) | .shr d a b => some (sR d a b 0x11)
  | .sra d a b => some (sR d a b 0x12) | .min d a b => some (sR d a b 0x18)
  | .max d a b => some (sR d a b 0x19) | .minZ32 d a b => some (sR d a b 0x1A)
  | .maxZ32 d a b => some (sR d a b 0x1B) | .sel d a b => some (sR d a b 0x1C)
  | .cmp cc d a b => some (sR d a b ((0x04 : BitVec 5) ++ condCode cc))
  | .cmpZ32 cc d a b => some (sR d a b ((0x0A : BitVec 6) ++ ucondCode cc))
  | .addZ64 d a b => some (sR d a b 0x30) | .subZ64 d a b => some (sR d a b 0x31)
  | .addi d a i => some (sI 0x02 d a i) | .andi d a i => some (sI 0x03 d a i)
  | .ori d a i => some (sI 0x04 d a i) | .xori d a i => some (sI 0x05 d a i)
  | .shli d a n => some (sI 0x06 d a ((0 : BitVec 9) ++ n)) | .shri d a n => some (sI 0x07 d a ((0 : BitVec 9) ++ n))
  | .srai d a n => some (sI 0x08 d a ((0 : BitVec 9) ++ n))
  | .movi d i => some (sI 0x09 d (i.extractLsb' 14 6) (i.extractLsb' 0 14))
  | .movhi d i => some (sI 0x0A d 0 ((0 : BitVec 2) ++ i))
  | .brNz a o => some (sI 0x10 0 a o) | .brZ a o => some (sI 0x11 0 a o)
  | .brd p n t l o => some (sI 0x12 (p ++ bit1 n ++ t) l o)
  | .jmp o => some (sJf 0x13 o) | .call o => some (sJf 0x14 o)
  | .jmpi a => some (sI 0x15 0 a 0)
  | .jmpv t v => some (sI 0x16 ((0 : BitVec 4) ++ t) 0 (v ++ (0 : BitVec 5)))
  | .callv t v => some (sI 0x17 ((0 : BitVec 4) ++ t) 0 (v ++ (0 : BitVec 5)))
  | .ret => some (sI 0x18 0 0 0)
  | .rjoin t => some (sI 0x19 0 0 ((0 : BitVec 12) ++ t))
  | .lrun i => some (sJf 0x1A i) | .ljmp i => some (sJf 0x1B i)
  | .looph o => some (sI 0x1C 0 0 o) | .exit => some (sI 0x1D 0 0 0)
  | .mand d a b => some (sM d a b 0) | .mor d a b => some (sM d a b 1) | .mxor d a b => some (sM d a b 2)
  | .mnot d a => some (sM d a 0 3) | .mpop d a => some (sM d a 0 4) | .mfirst d a => some (sM d a 0 5)
  | .sld d a o => some (sI 0x24 d a o) | .sldZ64 d a o => some (sI 0x25 d a o)
  | .sst d a o => some (sI 0x26 d a o) | .sstZ64 d a o => some (sI 0x27 d a o)
  | .sarg d o => some (sI 0x28 d 0 o) | .sargZ64 d o => some (sI 0x29 d 0 o)
  | .waitf m => some (sJf 0x2C (m ++ (0 : BitVec 14)))
  | .waitk k r => some (sI 0x2D 0 0 (kpathCode k ++ r ++ (0 : BitVec 5)))
  | .srd d r => some (sI 0x30 d 0 (specialCode r))
  | .srdCyclo d => some (sI 0x30 d 0 4) | .srdCychi d => some (sI 0x30 d 0 5)
  | .swrEjth a => some (sI 0x31 0 a 0x10) | .swrRjto a => some (sI 0x31 0 a 0x11)
  | .swrFpflags a => some (sI 0x31 0 a 0x30) | .swrTrapState r a => some (sI 0x31 0 a (trapRegCode r))
  | .sigchk i => some (sI 0x34 0 0 i) | .snap => some (sI 0x35 0 0 0)
  | .trap n => some (sI 0x38 0 0 n) | .svc n => some (sI 0x39 0 0 n) | .bkpt n => some (sI 0x3A 0 0 n)
  | .eret => some (sI 0x3B 0 0 0) | .yield => some (sI 0x3C 0 0 0) | .nop n => some (sJf 0x3E n)
  | _ => none

/-- The scalar word of an instruction of the scalar stream. -/
def encodeScalar (i : Instr) : Option Word := (scalarFields i).map sPack

/-- Decode a scalar word; none where it is not an instruction (R94). -/
def decodeScalar (w : Word) : Option Instr :=
  match parseScalar (sUnpack w) with
  | some i => if i.wf ∧ encodeScalar i = some w then some i else none
  | none => none

/-! ### Lane words -/

/-- The fields of a lane word (R80). -/
structure LFields where
  major : Byte
  fn : Byte
  vd : BitVec 9
  va : BitVec 9
  vb : BitVec 9
  vc : BitVec 9
  pred : BitVec 3
  neg : Bool
  ty : BitVec 4
  dist : BitVec 3
  wait : BitVec 12
  setf : BitVec 4
  imm : BitVec 17
deriving DecidableEq, Repr

/-- Cut a lane word into fields (R80). -/
def lUnpack (w : BitVec 96) : LFields :=
  { major := w.extractLsb' 88 8, fn := w.extractLsb' 80 8, vd := w.extractLsb' 71 9, va := w.extractLsb' 62 9,
    vb := w.extractLsb' 53 9, vc := w.extractLsb' 44 9, pred := w.extractLsb' 41 3, neg := w.getLsbD 40,
    ty := w.extractLsb' 36 4, dist := w.extractLsb' 33 3, wait := w.extractLsb' 21 12,
    setf := w.extractLsb' 17 4, imm := w.extractLsb' 0 17 }
/-- Join the fields of a lane word (R80). -/
def lPack (f : LFields) : BitVec 96 :=
  f.major ++ f.fn ++ f.vd ++ f.va ++ f.vb ++ f.vc ++ f.pred ++ bit1 f.neg ++ f.ty ++ f.dist ++ f.wait ++ f.setf ++
    f.imm
/-- The header part of the fields. -/
def lHdr (f : LFields) : LaneHdr :=
  { pred := f.pred, neg := f.neg, dist := f.dist, wait := f.wait, setf := f.setf }
/-- Fields with a given header, class and function, every operand field zero. -/
def lBase (h : LaneHdr) (major fn : Byte) : LFields :=
  { major := major, fn := fn, vd := 0, va := 0, vb := 0, vc := 0, pred := h.pred, neg := h.neg, ty := 0,
    dist := h.dist, wait := h.wait, setf := h.setf, imm := 0 }

def intTyCode : IntTy → BitVec 3
  | .s32 => 0 | .z32 => 1 | .s16 => 2 | .z16 => 3 | .s8 => 4 | .z8 => 5 | .s64 => 6 | .z64 => 7
def intTyOf (c : BitVec 3) : IntTy :=
  if c = 0 then .s32 else if c = 1 then .z32 else if c = 2 then .s16 else if c = 3 then .z16
  else if c = 4 then .s8 else if c = 5 then .z8 else if c = 6 then .s64 else .z64
def rndCode : Rnd → BitVec 2
  | .rne => 0 | .rz => 1 | .rp => 2 | .rm => 3
def rndOf (c : BitVec 2) : Rnd := if c = 0 then .rne else if c = 1 then .rz else if c = 2 then .rp else .rm
def elCode : ElemTy → BitVec 4
  | .s8 => 1 | .z8 => 2 | .s16 => 3 | .z16 => 4 | .s32 => 5 | .z32 => 6 | .s64 => 7 | .z64 => 8 | .f32 => 9
  | .bf16 => 10 | .f16 => 11 | .e4m3 => 12 | .e5m2 => 13 | .e2m1 => 14
def elOf (c : BitVec 4) : Option ElemTy :=
  if c = 1 then some .s8 else if c = 2 then some .z8 else if c = 3 then some .s16 else if c = 4 then some .z16
  else if c = 5 then some .s32 else if c = 6 then some .z32 else if c = 7 then some .s64 else if c = 8 then some .z64
  else if c = 9 then some .f32 else if c = 10 then some .bf16 else if c = 11 then some .f16
  else if c = 12 then some .e4m3 else if c = 13 then some .e5m2 else if c = 14 then some .e2m1 else none
def fcondCode : FCond → BitVec 3
  | .eq => 0 | .ne => 1 | .lt => 2 | .le => 3 | .gt => 4 | .ge => 5 | .un => 6 | .or => 7
def fcondOf (c : BitVec 3) : FCond :=
  if c = 0 then .eq else if c = 1 then .ne else if c = 2 then .lt else if c = 3 then .le else if c = 4 then .gt
  else if c = 5 then .ge else if c = 6 then .un else .or
def spaceCode : Space → BitVec 2
  | .glob => 0 | .sp => 1 | .cw => 2
def spaceOf (c : BitVec 2) : Option Space :=
  if c = 0 then some .glob else if c = 1 then some .sp else if c = 2 then some .cw else none
def ordCode : Ord4 → BitVec 2
  | .plain => 0 | .acq => 1 | .rel => 2 | .ar => 3
def ordOf (c : BitVec 2) : Ord4 := if c = 0 then .plain else if c = 1 then .acq else if c = 2 then .rel else .ar
def scopeCode : Scope → BitVec 3
  | .grp => 0 | .team => 1 | .clu => 2 | .dev => 3 | .sys => 4
def scopeOf (c : BitVec 3) : Option Scope :=
  if c = 0 then some .grp else if c = 1 then some .team else if c = 2 then some .clu else if c = 3 then some .dev
  else if c = 4 then some .sys else none
def atmCode : Atomicity → BitVec 2
  | .four => 0 | .w8 => 1 | .w16 => 2
def atmOf (c : BitVec 2) : Option Atomicity :=
  if c = 0 then some .four else if c = 1 then some .w8 else if c = 2 then some .w16 else none
def atomOpCode : AtomOp → BitVec 4
  | .add => 0 | .min => 1 | .max => 2 | .and => 3 | .or => 4 | .xor => 5 | .exch => 6 | .cas => 7
def atomOpOf (c : BitVec 4) : Option AtomOp :=
  if c = 0 then some .add else if c = 1 then some .min else if c = 2 then some .max else if c = 3 then some .and
  else if c = 4 then some .or else if c = 5 then some .xor else if c = 6 then some .exch
  else if c = 7 then some .cas else none
def atomTyCode : AtomTy → BitVec 4
  | .int t => (0 : BitVec 1) ++ intTyCode t
  | .f32 => 8
def atomTyOf (c : BitVec 4) : Option AtomTy :=
  if c = 8 then some .f32 else if c.getLsbD 3 then none else some (.int (intTyOf (c.extractLsb' 0 3)))
def fmtCode : MmaFmt → BitVec 4
  | .e4m3 => 0 | .e5m2 => 1 | .e2m1 => 2 | .bf16 => 3 | .f16 => 4 | .s8 => 5
def fmtOf (c : BitVec 4) : Option MmaFmt :=
  if c = 0 then some .e4m3 else if c = 1 then some .e5m2 else if c = 2 then some .e2m1 else if c = 3 then some .bf16
  else if c = 4 then some .f16 else if c = 5 then some .s8 else none
def shflCode : ShflMode → BitVec 2
  | .idx => 0 | .up => 1 | .down => 2 | .xor => 3
def shflOf (c : BitVec 2) : ShflMode := if c = 0 then .idx else if c = 1 then .up else if c = 2 then .down else .xor
def gredCode : GredOp → Byte
  | .add => 0x10 | .min => 0x11 | .max => 0x12 | .and => 0x13 | .or => 0x14 | .xor => 0x15
def gredOf (c : Byte) : Option GredOp :=
  if c = 0x10 then some .add else if c = 0x11 then some .min else if c = 0x12 then some .max
  else if c = 0x13 then some .and else if c = 0x14 then some .or else if c = 0x15 then some .xor else none
def xopCode : XOp → BitVec 17
  | .max => 0 | .sum => 1 | .pair => 2
def xopOf (c : BitVec 17) : Option XOp :=
  if c = 0 then some .max else if c = 1 then some .sum else if c = 2 then some .pair else none

/-- The 9-bit field of a scalar, predicate or tile operand (R82). -/
def fS (s : SReg) : BitVec 9 := (0 : BitVec 3) ++ s
def fP (p : PReg) : BitVec 9 := (0 : BitVec 6) ++ p
def fA (t : Tile) : BitVec 9 := (0 : BitVec 5) ++ t
def gS (v : BitVec 9) : SReg := v.extractLsb' 0 6
def gP (v : BitVec 9) : PReg := v.extractLsb' 0 3
def gA (v : BitVec 9) : Tile := v.extractLsb' 0 4

/-- The function with bit [7] cleared, and the `b` operand that bit [7] selects (R84). -/
def fn7 (f : LFields) : BitVec 7 := f.fn.extractLsb' 0 7
def srcOf (f : LFields) : VSrc := if f.fn.getLsbD 7 then .imm f.imm else .reg f.vb
/-- Write the `b` operand and bit [7] of the function (R84). -/
def withSrc (f : LFields) (b : VSrc) : LFields :=
  match b with
  | .reg v => { f with vb := v }
  | .imm i => { f with imm := i, fn := (1 : BitVec 1) ++ fn7 f }

/-- The index operand from `vb` and the scale code (R82, R89). -/
def idxOf (vb : BitVec 9) (sc : BitVec 3) : MIdx :=
  if sc = 7 then .none else if vb = 0x1FF then .lane sc else .reg vb sc
def idxVb : MIdx → BitVec 9
  | .none => 0 | .lane _ => 0x1FF | .reg v _ => v
def idxScale : MIdx → BitVec 3
  | .none => 7 | .lane sc => sc | .reg _ sc => sc
def baseOf (vec : Bool) (va : BitVec 9) : MBase := if vec then .vec va else .scal (gS va)
def baseVa : MBase → BitVec 9
  | .scal s => fS s | .vec v => v
def baseVec : MBase → Bool
  | .scal _ => false | .vec _ => true

/-- The function byte of classes `0x10` to `0x13` (R89). -/
def memFn (spa : Space) (vec : Bool) (o : Ord4) (sc : Scope) : Byte :=
  spaceCode spa ++ bit1 vec ++ ordCode o ++ scopeCode sc
/-- imm17 of `LD` and `ST` (R89). -/
def ldstImm (w : Atomicity) (idx : MIdx) (off : BitVec 12) : BitVec 17 := atmCode w ++ idxScale idx ++ off
/-- imm17 of `ATOM` and `RED` (R89). -/
def atomImm (w : Atomicity) (idx : MIdx) (op : AtomOp) (off : BitVec 8) : BitVec 17 :=
  atmCode w ++ idxScale idx ++ atomOpCode op ++ off
/-- imm17 of `LEA`, `PREF`, `LKLN`, `ULLN` (R90, R173). -/
def leaImm (vec : Bool) (idx : MIdx) (off : BitVec 12) : BitVec 17 := (0 : BitVec 1) ++ bit1 vec ++ idxScale idx ++ off

/-- Class `0x01` (R86). -/
def parseInt (f : LFields) : Option Instr :=
  let h := lHdr f; let t := intTyOf (f.ty.extractLsb' 0 3); let sat := f.ty.getLsbD 3; let b := srcOf f
  let c := fn7 f
  if c = 0x00 then some (.iadd h t sat f.vd f.va b) else if c = 0x01 then some (.isub h t sat f.vd f.va b)
  else if c = 0x02 then some (.imul h t sat f.vd f.va b)
  else if c = 0x03 then some (.imad h t sat f.vd f.va b f.vc)
  else if c = 0x04 then some (.imulh h t f.vd f.va b) else if c = 0x05 then some (.iabs h t sat f.vd f.va)
  else if c = 0x06 then some (.imin h t f.vd f.va b) else if c = 0x07 then some (.imax h t f.vd f.va b)
  else if c = 0x08 then some (.laneAnd h t f.vd f.va b) else if c = 0x09 then some (.laneOr h t f.vd f.va b)
  else if c = 0x0A then some (.laneXor h t f.vd f.va b) else if c = 0x0B then some (.not h t f.vd f.va)
  else if c = 0x10 then some (.laneShl h t f.vd f.va b) else if c = 0x11 then some (.laneShr h t f.vd f.va b)
  else if c = 0x12 then some (.laneSra h t f.vd f.va b) else if c = 0x13 then some (.rot h t f.vd f.va b)
  else if c = 0x18 then some (.popc h t f.vd f.va) else if c = 0x19 then some (.clz h t f.vd f.va)
  else if c = 0x1A then some (.brev h t f.vd f.va)
  else if c = 0x1B then some (.bfx h t f.vd f.va (f.imm.extractLsb' 5 5) (f.imm.extractLsb' 0 5))
  else if c = 0x1C then some (.bfi h t f.vd f.va (f.imm.extractLsb' 5 5) (f.imm.extractLsb' 0 5))
  else if c = 0x20 then some (.laneSel h t f.vd f.va b (gP f.vc))
  else if c = 0x21 then
    if f.fn.getLsbD 7 then some (.mov h t f.vd (.imm f.imm))
    else if f = lBase lendHdr 0x01 0x21 then some .lend
    else some (.mov h t f.vd (.reg f.va))
  else if c = 0x22 then some (.movs h t f.vd (gS f.va))
  else if c = 0x23 then
    some (.lea h f.vd (baseOf (f.imm.getLsbD 15) f.va) (idxOf f.vb (f.imm.extractLsb' 12 3)) (f.imm.extractLsb' 0 12))
  else none

/-- Classes `0x02` and `0x04` (R87). -/
def parseExch (f : LFields) : Option Instr :=
  let h := lHdr f; let t := intTyOf (f.ty.extractLsb' 0 3); let c := fn7 f
  if f.major = 0x02 then
    (condOf (f.fn.extractLsb' 0 3)).map (fun cc => .iset h cc t (gP f.vd) f.va (srcOf f))
  else if c.extractLsb' 2 5 = 0 then some (.shfl h (shflOf (c.extractLsb' 0 2)) t f.vd f.va (srcOf f))
  else if f.fn = 0x08 then some (.voteAny h (gP f.vd) (gP f.va))
  else if f.fn = 0x09 then some (.voteAll h (gP f.vd) (gP f.va))
  else if f.fn = 0x0A then some (.voteBallot h (gS f.vd) (gP f.va))
  else (gredOf f.fn).map (fun op => .gred h op t f.vd f.va)

/-- Classes `0x08` to `0x0C` (R88). -/
def parseFloat (f : LFields) : Option Instr :=
  let h := lHdr f; let m := rndOf (f.ty.extractLsb' 2 2); let b := srcOf f; let c := fn7 f
  if f.major = 0x08 then
    if c = 0x00 then some (.fadd h m f.vd f.va b) else if c = 0x01 then some (.fsub h m f.vd f.va b)
    else if c = 0x02 then some (.fmul h m f.vd f.va b) else if c = 0x03 then some (.ffma h m f.vd f.va b f.vc)
    else if c = 0x04 then some (.fmin h f.vd f.va b) else if c = 0x05 then some (.fmax h f.vd f.va b)
    else if c = 0x06 then some (.fabs h f.vd f.va) else if c = 0x07 then some (.fneg h f.vd f.va)
    else if c = 0x08 then some (.fclass h f.vd f.va) else if c = 0x09 then some (.fscale h m f.vd f.va b)
    else if c = 0x0A then some (.frnd h m f.vd f.va) else if c = 0x0B then some (.fdiv h m f.vd f.va b)
    else if c = 0x0C then some (.fsqrt h m f.vd f.va) else none
  else if f.major = 0x09 then some (.fset h (fcondOf (f.fn.extractLsb' 0 3)) (gP f.vd) f.va b)
  else if f.major = 0x0A then
    if f.fn = 0 then some (.rcp h f.vd f.va) else if f.fn = 1 then some (.rsq h f.vd f.va)
    else if f.fn = 2 then some (.ex2 h f.vd f.va) else if f.fn = 3 then some (.lg2 h f.vd f.va)
    else if f.fn = 4 then some (.sin h f.vd f.va) else if f.fn = 5 then some (.cos h f.vd f.va)
    else if f.fn = 6 then some (.tanh h f.vd f.va) else if f.fn = 7 then some (.erf h f.vd f.va) else none
  else if f.major = 0x0B then
    if c = 0 then some (.h2add h m (f.ty.getLsbD 0) f.vd f.va b)
    else if c = 1 then some (.h2mul h m (f.ty.getLsbD 0) f.vd f.va b)
    else if c = 2 then some (.h2fma h m (f.ty.getLsbD 0) f.vd f.va b f.vc) else none
  else
    match elOf (f.fn.extractLsb' 4 4), elOf (f.fn.extractLsb' 0 4) with
    | some dt, some sy => some (.cvt h m (f.ty.getLsbD 1) dt sy f.vd f.va)
    | _, _ => none

/-- Classes `0x10` to `0x14` (R89, R90). -/
def parseMem (f : LFields) : Option Instr :=
  let h := lHdr f
  if f.major = 0x14 then
    let base := baseOf (f.imm.getLsbD 15) f.va
    let idx := idxOf f.vb (f.imm.extractLsb' 12 3)
    let off := f.imm.extractLsb' 0 12
    if f.fn = 3 then some (.pref h base idx off) else if f.fn = 4 then some (.lkln h base idx off)
    else if f.fn = 5 then some (.ulln h base idx off)
    else match scopeOf (f.ty.extractLsb' 0 3) with
      | some sc =>
        if f.fn = 0 then some (.fence h sc) else if f.fn = 1 then some (.cln h sc)
        else if f.fn = 2 then some (.inv h sc) else none
      | none => none
  else
    match spaceOf (f.fn.extractLsb' 6 2), scopeOf (f.fn.extractLsb' 0 3), atmOf (f.imm.extractLsb' 15 2) with
    | some spa, some sc, some w =>
      let base := baseOf (f.fn.getLsbD 5) f.va
      let o := ordOf (f.fn.extractLsb' 3 2)
      let idx := idxOf f.vb (f.imm.extractLsb' 12 3)
      if f.major = 0x10 then
        some (.ld h (intTyOf (f.ty.extractLsb' 0 3)) spa (o = .acq) sc w base idx (f.imm.extractLsb' 0 12) f.vd)
      else if f.major = 0x11 then
        some (.st h (intTyOf (f.ty.extractLsb' 0 3)) spa (o = .rel) sc w base idx (f.imm.extractLsb' 0 12) f.vc)
      else
        match atomOpOf (f.imm.extractLsb' 8 4), atomTyOf f.ty with
        | some op, some t =>
          if f.major = 0x12 then
            some (.atom h op t spa o sc w base idx (f.imm.extractLsb' 0 8) f.vd f.vc)
          else some (.red h op t spa (o = .rel) sc w base idx (f.imm.extractLsb' 0 8) f.vc)
        | _, _ => none
    | _, _, _ => none

/-- The tile and drain field (R91). -/
def tdOf (v : BitVec 9) : TileDrain :=
  { drain := v.getLsbD 8, slot := v.extractLsb' 4 4, tile := v.extractLsb' 0 4 }
def tdField (td : TileDrain) : BitVec 9 := bit1 td.drain ++ td.slot ++ td.tile

/-- Classes `0x18` to `0x1B` (R91). -/
def parseWhole (f : LFields) : Option Instr :=
  let h := lHdr f
  let lo := f.imm.extractLsb' 0 8
  let hi := f.imm.extractLsb' 8 8
  if f.major = 0x18 then
    if f.fn = 0 then some (.cpyc h (gS f.va) (gS f.vb) hi lo)
    else if f.fn = 1 then some (.cpyx h (gS f.va) f.vb (gS f.vc) lo)
    else if f.fn = 2 then some (.job h (gS f.va)) else if f.fn = 3 then some (.taskdef h (gS f.va) (gS f.vb) lo)
    else if f.fn = 4 then some (.taskwait h lo) else none
  else if f.major = 0x19 then
    if f.fn = 0 then some (.gangset h (gS f.va))
    else if f.fn = 1 then
      (fmtOf f.ty).map (fun m => .mma h m (tdOf f.vd) (gS f.va) (gS f.vb) (gS f.vc) hi lo)
    else if f.fn = 2 then
      (fmtOf f.ty).map (fun m => .mmaz h m (tdOf f.vd) (gS f.va) (gS f.vb) (gS f.vc) hi lo)
    else if f.fn = 3 then some (.mdrain h (f.vd.extractLsb' 4 4) (gA f.vd) (gS f.vc))
    else if f.fn = 4 then some (.scld h (gS f.va) (gS f.vb) (f.imm.extractLsb' 0 14))
    else if f.fn = 5 then some (.drld h (gS f.va) (f.imm.extractLsb' 4 7) (f.imm.extractLsb' 0 4))
    else if f.fn = 6 then some (.tkpass h (gA f.vd)) else if f.fn = 7 then some (.tktake h (gA f.vd))
    else if f.fn = 8 then some (.accrd h f.vd (gA f.va) f.vb)
    else if f.fn = 9 then some (.accwr h (gA f.va) f.vb f.vc) else none
  else if f.major = 0x1A then
    if f.fn = 0 then some (.bari h (gS f.va) (gS f.vb)) else if f.fn = 1 then some (.arrive h (gS f.va))
    else if f.fn = 2 then some (.bwait h (gS f.va)) else if f.fn = 3 then some (.expect h (gS f.va) (gS f.vb))
    else if f.fn = 4 then some (.roleset h (f.imm.extractLsb' 0 2))
    else if f.fn = 5 then (xopOf f.imm).map (fun op => .xred h op (gS f.va) f.vb)
    else if f.fn = 6 then some (.xwait h (gS f.va)) else none
  else
    if f.fn = 0 then some (.append h (gS f.va) (gS f.vb) (gS f.vc))
    else if f.fn = 1 then some (.apfence h (gS f.vd) (gS f.va))
    else if f.fn = 2 then some (.seal h (gS f.va)) else none

/-- The lane major opcode map (R85). -/
def parseLane (f : LFields) : Option Instr :=
  if f.major = 0x01 then parseInt f
  else if f.major = 0x02 ∨ f.major = 0x04 then parseExch f
  else if f.major = 0x08 ∨ f.major = 0x09 ∨ f.major = 0x0A ∨ f.major = 0x0B ∨ f.major = 0x0C then parseFloat f
  else if f.major = 0x10 ∨ f.major = 0x11 ∨ f.major = 0x12 ∨ f.major = 0x13 ∨ f.major = 0x14 then parseMem f
  else if f.major = 0x18 ∨ f.major = 0x19 ∨ f.major = 0x1A ∨ f.major = 0x1B then parseWhole f
  else none

/-- Fields of a class `0x01` word: function, type, `.sat`, `vd`, `va` (R86). -/
def lInt (h : LaneHdr) (fn : Byte) (t : IntTy) (sat : Bool) (vd va : VReg) : LFields :=
  { lBase h 0x01 fn with ty := bit1 sat ++ intTyCode t, vd := vd, va := va }
/-- Fields of a float word: class, function, rounding, `vd`, `va` (R88). -/
def lFlt (h : LaneHdr) (major fn : Byte) (m : Rnd) (vd va : VReg) : LFields :=
  { lBase h major fn with ty := rndCode m ++ (0 : BitVec 2), vd := vd, va := va }
/-- Fields of a packed 16-bit float word (R88). -/
def lH2 (h : LaneHdr) (fn : Byte) (m : Rnd) (bf : Bool) (vd va : VReg) : LFields :=
  { lBase h 0x0B fn with ty := rndCode m ++ (0 : BitVec 1) ++ bit1 bf, vd := vd, va := va }
/-- Fields of an addressed word of class `0x14` (R90). -/
def lAddr (h : LaneHdr) (fn : Byte) (base : MBase) (idx : MIdx) (off : BitVec 12) : LFields :=
  { lBase h 0x14 fn with va := baseVa base, vb := idxVb idx, imm := leaImm (baseVec base) idx off }
/-- Fields of an `MMA` or `MMAZ` (R252). -/
def lMma (h : LaneHdr) (fn : Byte) (m : MmaFmt) (td : TileDrain) (a b sc : SReg) (ra rb : Byte) : LFields :=
  { lBase h 0x19 fn with ty := fmtCode m, vd := tdField td, va := fS a, vb := fS b, vc := fS sc,
                         imm := (0 : BitVec 1) ++ ra ++ rb }
/-- A byte in the low bits of imm17. -/
def imm8 (b : Byte) : BitVec 17 := (0 : BitVec 9) ++ b

/-- The fields that encode a lane instruction (R80 to R91). -/
def laneFields : Instr → Option LFields
  | .iadd h t sat vd va b => some (withSrc (lInt h 0x00 t sat vd va) b)
  | .isub h t sat vd va b => some (withSrc (lInt h 0x01 t sat vd va) b)
  | .imul h t sat vd va b => some (withSrc (lInt h 0x02 t sat vd va) b)
  | .imad h t sat vd va b vc => some (withSrc { lInt h 0x03 t sat vd va with vc := vc } b)
  | .imulh h t vd va b => some (withSrc (lInt h 0x04 t false vd va) b)
  | .iabs h t sat vd va => some (lInt h 0x05 t sat vd va)
  | .imin h t vd va b => some (withSrc (lInt h 0x06 t false vd va) b)
  | .imax h t vd va b => some (withSrc (lInt h 0x07 t false vd va) b)
  | .laneAnd h t vd va b => some (withSrc (lInt h 0x08 t false vd va) b)
  | .laneOr h t vd va b => some (withSrc (lInt h 0x09 t false vd va) b)
  | .laneXor h t vd va b => some (withSrc (lInt h 0x0A t false vd va) b)
  | .not h t vd va => some (lInt h 0x0B t false vd va)
  | .laneShl h t vd va b => some (withSrc (lInt h 0x10 t false vd va) b)
  | .laneShr h t vd va b => some (withSrc (lInt h 0x11 t false vd va) b)
  | .laneSra h t vd va b => some (withSrc (lInt h 0x12 t false vd va) b)
  | .rot h t vd va b => some (withSrc (lInt h 0x13 t false vd va) b)
  | .popc h t vd va => some (lInt h 0x18 t false vd va)
  | .clz h t vd va => some (lInt h 0x19 t false vd va)
  | .brev h t vd va => some (lInt h 0x1A t false vd va)
  | .bfx h t vd va p n => some { lInt h 0x1B t false vd va with imm := (0 : BitVec 7) ++ p ++ n }
  | .bfi h t vd va p n => some { lInt h 0x1C t false vd va with imm := (0 : BitVec 7) ++ p ++ n }
  | .laneSel h t vd va b pk => some (withSrc { lInt h 0x20 t false vd va with vc := fP pk } b)
  | .mov h t vd (.reg a) => some (lInt h 0x21 t false vd a)
  | .mov h t vd (.imm i) => some { lInt h 0xA1 t false vd 0 with imm := i }
  | .lend => some (lBase lendHdr 0x01 0x21)
  | .movs h t vd sn => some (lInt h 0x22 t false vd (fS sn))
  | .lea h vd base idx off =>
    some { lInt h 0x23 .z64 false vd (baseVa base) with vb := idxVb idx, imm := leaImm (baseVec base) idx off }
  | .iset h cc t pd va b =>
    some (withSrc { lBase h 0x02 ((0 : BitVec 5) ++ condCode cc) with
      ty := (0 : BitVec 1) ++ intTyCode t, vd := fP pd, va := va } b)
  | .shfl h m t vd va b =>
    some (withSrc { lBase h 0x04 ((0 : BitVec 6) ++ shflCode m) with
      ty := (0 : BitVec 1) ++ intTyCode t, vd := vd, va := va } b)
  | .voteAny h pd pa => some { lBase h 0x04 0x08 with vd := fP pd, va := fP pa }
  | .voteAll h pd pa => some { lBase h 0x04 0x09 with vd := fP pd, va := fP pa }
  | .voteBallot h sn pa => some { lBase h 0x04 0x0A with vd := fS sn, va := fP pa }
  | .gred h op t vd va =>
    some { lBase h 0x04 (gredCode op) with ty := (0 : BitVec 1) ++ intTyCode t, vd := vd, va := va }
  | .fadd h m vd va b => some (withSrc (lFlt h 0x08 0x00 m vd va) b)
  | .fsub h m vd va b => some (withSrc (lFlt h 0x08 0x01 m vd va) b)
  | .fmul h m vd va b => some (withSrc (lFlt h 0x08 0x02 m vd va) b)
  | .ffma h m vd va b vc => some (withSrc { lFlt h 0x08 0x03 m vd va with vc := vc } b)
  | .fmin h vd va b => some (withSrc (lFlt h 0x08 0x04 .rne vd va) b)
  | .fmax h vd va b => some (withSrc (lFlt h 0x08 0x05 .rne vd va) b)
  | .fabs h vd va => some (lFlt h 0x08 0x06 .rne vd va)
  | .fneg h vd va => some (lFlt h 0x08 0x07 .rne vd va)
  | .fclass h vd va => some (lFlt h 0x08 0x08 .rne vd va)
  | .fscale h m vd va b => some (withSrc (lFlt h 0x08 0x09 m vd va) b)
  | .frnd h m vd va => some (lFlt h 0x08 0x0A m vd va)
  | .fdiv h m vd va b => some (withSrc (lFlt h 0x08 0x0B m vd va) b)
  | .fsqrt h m vd va => some (lFlt h 0x08 0x0C m vd va)
  | .fset h cc pd va b => some (withSrc (lFlt h 0x09 ((0 : BitVec 5) ++ fcondCode cc) .rne (fP pd) va) b)
  | .rcp h vd va => some (lFlt h 0x0A 0 .rne vd va)
  | .rsq h vd va => some (lFlt h 0x0A 1 .rne vd va)
  | .ex2 h vd va => some (lFlt h 0x0A 2 .rne vd va)
  | .lg2 h vd va => some (lFlt h 0x0A 3 .rne vd va)
  | .sin h vd va => some (lFlt h 0x0A 4 .rne vd va)
  | .cos h vd va => some (lFlt h 0x0A 5 .rne vd va)
  | .tanh h vd va => some (lFlt h 0x0A 6 .rne vd va)
  | .erf h vd va => some (lFlt h 0x0A 7 .rne vd va)
  | .h2add h m bf vd va b => some (withSrc (lH2 h 0 m bf vd va) b)
  | .h2mul h m bf vd va b => some (withSrc (lH2 h 1 m bf vd va) b)
  | .h2fma h m bf vd va b vc => some (withSrc { lH2 h 2 m bf vd va with vc := vc } b)
  | .cvt h m sat dt sy vd va =>
    some { lBase h 0x0C (elCode dt ++ elCode sy) with
      ty := rndCode m ++ bit1 sat ++ (0 : BitVec 1), vd := vd, va := va }
  | .ld h t spa acq sc w base idx off vd =>
    some { lBase h 0x10 (memFn spa (baseVec base) (if acq then .acq else .plain) sc) with
      ty := (0 : BitVec 1) ++ intTyCode t, vd := vd, va := baseVa base, vb := idxVb idx, imm := ldstImm w idx off }
  | .st h t spa rel sc w base idx off vc =>
    some { lBase h 0x11 (memFn spa (baseVec base) (if rel then .rel else .plain) sc) with
      ty := (0 : BitVec 1) ++ intTyCode t, va := baseVa base, vb := idxVb idx, vc := vc, imm := ldstImm w idx off }
  | .atom h op t spa o sc w base idx off vd vc =>
    some { lBase h 0x12 (memFn spa (baseVec base) o sc) with
      ty := atomTyCode t, vd := vd, va := baseVa base, vb := idxVb idx, vc := vc, imm := atomImm w idx op off }
  | .red h op t spa rel sc w base idx off vc =>
    some { lBase h 0x13 (memFn spa (baseVec base) (if rel then .rel else .plain) sc) with
      ty := atomTyCode t, va := baseVa base, vb := idxVb idx, vc := vc, imm := atomImm w idx op off }
  | .fence h sc => some { lBase h 0x14 0 with ty := (0 : BitVec 1) ++ scopeCode sc }
  | .cln h sc => some { lBase h 0x14 1 with ty := (0 : BitVec 1) ++ scopeCode sc }
  | .inv h sc => some { lBase h 0x14 2 with ty := (0 : BitVec 1) ++ scopeCode sc }
  | .pref h base idx off => some (lAddr h 3 base idx off)
  | .lkln h base idx off => some (lAddr h 4 base idx off)
  | .ulln h base idx off => some (lAddr h 5 base idx off)
  | .cpyc h db sb dr sr =>
    some { lBase h 0x18 0 with va := fS db, vb := fS sb, imm := (0 : BitVec 1) ++ dr ++ sr }
  | .cpyx h db vx tab rc => some { lBase h 0x18 1 with va := fS db, vb := vx, vc := fS tab, imm := imm8 rc }
  | .job h card => some { lBase h 0x18 2 with va := fS card }
  | .taskdef h card cnt t => some { lBase h 0x18 3 with va := fS card, vb := fS cnt, imm := imm8 t }
  | .taskwait h t => some { lBase h 0x18 4 with imm := imm8 t }
  | .gangset h g => some { lBase h 0x19 0 with va := fS g }
  | .mma h m td a b sc ra rb => some (lMma h 1 m td a b sc ra rb)
  | .mmaz h m td a b sc ra rb => some (lMma h 2 m td a b sc ra rb)
  | .mdrain h slot tile sc =>
    some { lBase h 0x19 3 with vd := tdField { drain := true, slot := slot, tile := tile }, vc := fS sc }
  | .scld h a cnt off => some { lBase h 0x19 4 with va := fS a, vb := fS cnt, imm := (0 : BitVec 3) ++ off }
  | .drld h a n slot => some { lBase h 0x19 5 with va := fS a, imm := (0 : BitVec 6) ++ n ++ slot }
  | .tkpass h t => some { lBase h 0x19 6 with vd := fA t }
  | .tktake h t => some { lBase h 0x19 7 with vd := fA t }
  | .accrd h vd t vx => some { lBase h 0x19 8 with vd := vd, va := fA t, vb := vx }
  | .accwr h t vx vs => some { lBase h 0x19 9 with va := fA t, vb := vx, vc := vs }
  | .bari h o n => some { lBase h 0x1A 0 with va := fS o, vb := fS n }
  | .arrive h o => some { lBase h 0x1A 1 with va := fS o }
  | .bwait h o => some { lBase h 0x1A 2 with va := fS o }
  | .expect h o n => some { lBase h 0x1A 3 with va := fS o, vb := fS n }
  | .roleset h k => some { lBase h 0x1A 4 with imm := (0 : BitVec 15) ++ k }
  | .xred h op g vb => some { lBase h 0x1A 5 with va := fS g, vb := vb, imm := xopCode op }
  | .xwait h g => some { lBase h 0x1A 6 with va := fS g }
  | .append h g a n => some { lBase h 0x1B 0 with va := fS g, vb := fS a, vc := fS n }
  | .apfence h d g => some { lBase h 0x1B 1 with vd := fS d, va := fS g }
  | .seal h g => some { lBase h 0x1B 2 with va := fS g }
  | _ => none

/-- The lane word of an instruction of the lane stream. -/
def encodeLane (i : Instr) : Option (BitVec 96) := (laneFields i).map lPack

/-- Decode a lane word; none where it is not an instruction (R94). -/
def decodeLane (w : BitVec 96) : Option Instr :=
  match parseLane (lUnpack w) with
  | some i => if i.wf ∧ encodeLane i = some w then some i else none
  | none => none

/-! ### Drain words -/

/-- The fields of a drain word (R92). -/
structure DFields where
  op : BitVec 6
  d : BitVec 4
  a : BitVec 4
  b : BitVec 4
  c : BitVec 4
  ty : BitVec 5
  ext : BitVec 37
deriving DecidableEq, Repr

def dUnpack (w : Dword) : DFields :=
  { op := w.extractLsb' 58 6, d := w.extractLsb' 54 4, a := w.extractLsb' 50 4, b := w.extractLsb' 46 4,
    c := w.extractLsb' 42 4, ty := w.extractLsb' 37 5, ext := w.extractLsb' 0 37 }
def dPack (f : DFields) : Dword := f.op ++ f.d ++ f.a ++ f.b ++ f.c ++ f.ty ++ f.ext
/-- Fields of a drain word with the named registers (R92). -/
def dBase (op : BitVec 6) (d a b c : BitVec 4) : DFields :=
  { op := op, d := d, a := a, b := b, c := c, ty := 0, ext := 0 }
/-- The `b` or immediate operand (R265). -/
def dSrcOf (f : DFields) : DSrc := if f.ty.getLsbD 4 then .imm (f.ext.extractLsb' 0 32) else .reg f.b
def dWith (f : DFields) (b : DSrc) : DFields :=
  match b with
  | .reg e => { f with b := e }
  | .imm w => { f with ty := 0x10, ext := (0 : BitVec 5) ++ w }
def dMemCode : DMemTy → BitVec 5
  | .f32 => 9 | .bf16 => 10 | .f16 => 11
def dMemOf (c : BitVec 5) : Option DMemTy :=
  if c = 9 then some .f32 else if c = 10 then some .bf16 else if c = 11 then some .f16 else none
def dMaxCode : DMaxTy → BitVec 5
  | .e4m3 => 0 | .e2m1 => 1 | .f32 => 2
def dMaxOf (c : BitVec 5) : Option DMaxTy :=
  if c = 0 then some .e4m3 else if c = 1 then some .e2m1 else if c = 2 then some .f32 else none
def dCvtCode : DCvtTy → BitVec 4
  | .s8 => 1 | .s32 => 5 | .bf16 => 10 | .f16 => 11 | .e4m3 => 12 | .e5m2 => 13 | .e2m1 => 14
def dCvtOf (c : BitVec 4) : Option DCvtTy :=
  if c = 1 then some .s8 else if c = 5 then some .s32 else if c = 10 then some .bf16 else if c = 11 then some .f16
  else if c = 12 then some .e4m3 else if c = 13 then some .e5m2 else if c = 14 then some .e2m1 else none
def dStCode : DStTy → BitVec 5
  | .s8 => 1 | .s32 => 5 | .f32 => 9 | .bf16 => 10 | .f16 => 11 | .e4m3 => 12 | .e5m2 => 13 | .e2m1 => 14
def dStOf (c : BitVec 5) : Option DStTy :=
  if c = 1 then some .s8 else if c = 5 then some .s32 else if c = 9 then some .f32 else if c = 10 then some .bf16
  else if c = 11 then some .f16 else if c = 12 then some .e4m3 else if c = 13 then some .e5m2
  else if c = 14 then some .e2m1 else none
def dSelCode : DSelCond → BitVec 5
  | .gt => 0 | .ge => 1 | .ne => 2 | .un => 3
def dSelOf (c : BitVec 5) : Option DSelCond :=
  if c = 0 then some .gt else if c = 1 then some .ge else if c = 2 then some .ne else if c = 3 then some .un else none
/-- The scalar registers named by the extension: base [36:31], stride [30:25] (R266). -/
def extP (f : DFields) : SReg := f.ext.extractLsb' 31 6
def extM (f : DFields) : SReg := f.ext.extractLsb' 25 6
def ext1 (p : SReg) : BitVec 37 := p ++ (0 : BitVec 31)
def ext2 (p m : SReg) : BitVec 37 := p ++ m ++ (0 : BitVec 25)

/-- The drain operations (R93, R266). -/
def parseDrain (f : DFields) : Option Instr :=
  let d := f.d; let a := f.a; let b := dSrcOf f
  if f.op = 0x01 then some (.dadd d a b) else if f.op = 0x02 then some (.dmul d a b)
  else if f.op = 0x03 then some (.dfma d a b f.c) else if f.op = 0x04 then some (.dmin d a b)
  else if f.op = 0x05 then some (.dmax d a b) else if f.op = 0x06 then some (.dclamp d a b f.c)
  else if f.op = 0x07 then (dMemOf f.ty).map (fun t => .drow t d (extP f))
  else if f.op = 0x08 then (dMemOf f.ty).map (fun t => .dcol t d (extP f))
  else if f.op = 0x09 then some (.dscl d a (f.ext.extractLsb' 0 9))
  else if f.op = 0x0A then some (.dgelu d a) else if f.op = 0x0B then some (.dsilu d a)
  else if f.op = 0x0C then some (.dtanh d a) else if f.op = 0x0D then some (.dsig d a)
  else if f.op = 0x0E then some (.drelu d a)
  else if f.op = 0x0F then (dMaxOf f.ty).map (fun t => .damax t d a)
  else if f.op = 0x10 then some (.dq8 d a f.b) else if f.op = 0x11 then some (.dq4 d a f.b)
  else if f.op = 0x12 then (dCvtOf (f.ty.extractLsb' 0 4)).map (fun t => .dcvt (f.ty.getLsbD 4) t d a)
  else if f.op = 0x13 then (dSelOf f.ty).map (fun cc => .dsel cc d a f.b f.c)
  else if f.op = 0x14 then (dStOf f.ty).map (fun t => .dst t a (extP f) (extM f))
  else if f.op = 0x15 then some (.dsts a (extP f) (extM f))
  else if f.op = 0x16 then some (.dend (f.ty.getLsbD 0))
  else if f.op = 0x17 then
    some (.dmov d (if f.ty.getLsbD 4 then .imm (f.ext.extractLsb' 0 32) else .reg a))
  else if f.op = 0x18 then (dMemOf f.ty).map (fun t => .dld t d (extP f) (extM f))
  else none

/-- The fields that encode a drain operation (R92, R93, R265, R266). -/
def drainFields : Instr → Option DFields
  | .dadd d a b => some (dWith (dBase 0x01 d a 0 0) b)
  | .dmul d a b => some (dWith (dBase 0x02 d a 0 0) b)
  | .dfma d a b c => some (dWith (dBase 0x03 d a 0 c) b)
  | .dmin d a b => some (dWith (dBase 0x04 d a 0 0) b)
  | .dmax d a b => some (dWith (dBase 0x05 d a 0 0) b)
  | .dclamp d a b c => some (dWith (dBase 0x06 d a 0 c) b)
  | .drow t d p => some { dBase 0x07 d 0 0 0 with ty := dMemCode t, ext := ext1 p }
  | .dcol t d p => some { dBase 0x08 d 0 0 0 with ty := dMemCode t, ext := ext1 p }
  | .dscl d a n => some { dBase 0x09 d a 0 0 with ext := (0 : BitVec 28) ++ n }
  | .dgelu d a => some (dBase 0x0A d a 0 0)
  | .dsilu d a => some (dBase 0x0B d a 0 0)
  | .dtanh d a => some (dBase 0x0C d a 0 0)
  | .dsig d a => some (dBase 0x0D d a 0 0)
  | .drelu d a => some (dBase 0x0E d a 0 0)
  | .damax t d a => some { dBase 0x0F d a 0 0 with ty := dMaxCode t }
  | .dq8 d a b => some (dBase 0x10 d a b 0)
  | .dq4 d a b => some (dBase 0x11 d a b 0)
  | .dcvt sat t d a => some { dBase 0x12 d a 0 0 with ty := bit1 sat ++ dCvtCode t }
  | .dsel cc d a b c => some { dBase 0x13 d a b c with ty := dSelCode cc }
  | .dst t a p m => some { dBase 0x14 0 a 0 0 with ty := dStCode t, ext := ext2 p m }
  | .dsts a p m => some { dBase 0x15 0 a 0 0 with ext := ext2 p m }
  | .dend z => some { dBase 0x16 0 0 0 0 with ty := (0 : BitVec 4) ++ bit1 z }
  | .dmov d (.reg a) => some (dBase 0x17 d a 0 0)
  | .dmov d (.imm w) => some { dBase 0x17 d 0 0 0 with ty := 0x10, ext := (0 : BitVec 5) ++ w }
  | .dld t d p m => some { dBase 0x18 d 0 0 0 with ty := dMemCode t, ext := ext2 p m }
  | _ => none

/-- The drain word of an operation of the drain unit. -/
def encodeDrain (i : Instr) : Option Dword := (drainFields i).map dPack

/-- Decode a drain word; none where it is not an operation (R93, R277). -/
def decodeDrain (w : Dword) : Option Instr :=
  match parseDrain (dUnpack w) with
  | some i => if i.wf ∧ encodeDrain i = some w then some i else none
  | none => none

/-! ### Bytes and tables -/

/-- The first `n` bytes of a list as a little-endian number (R6); missing bytes read as zero. -/
def leNat : Nat → List Byte → Nat
  | 0, _ => 0
  | n + 1, [] => 0 * n
  | n + 1, b :: t => b.toNat + 256 * leNat n t
/-- The `n` bytes of a number, lowest first (R6). -/
def leBytes : Nat → Nat → List Byte
  | 0, _ => []
  | n + 1, x => BitVec.ofNat 8 x :: leBytes n (x / 256)

/-- Decode the scalar word at the head of a byte list. -/
def decodeScalarBytes (bs : List Byte) : Option Instr := decodeScalar (BitVec.ofNat 32 (leNat 4 bs))
/-- Decode the lane word at the head of a byte list: three little-endian words, low bits first (R80). -/
def decodeLaneBytes (bs : List Byte) : Option Instr := decodeLane (BitVec.ofNat 96 (leNat 12 bs))
/-- Decode the drain word at the head of a byte list. -/
def decodeDrainBytes (bs : List Byte) : Option Instr := decodeDrain (BitVec.ofNat 64 (leNat 8 bs))

/-- What the decoder reads from an instruction numbered as the opcode table numbers it: up to 32 bits a scalar
word, up to 64 a drain word, up to 96 a lane word; nothing longer is an instruction. -/
def decodeTableWord (nbits w : Nat) : Option Instr :=
  if nbits ≤ 32 then decodeScalarBytes (leBytes 4 w)
  else if nbits ≤ 64 then decodeDrainBytes (leBytes 8 w)
  else if nbits ≤ 96 then decodeLaneBytes (leBytes 12 w)
  else none

end Sys2Proof
end

