-- ==== Sys2Proof/Machine/State.lean ====
section
/-! DEFINITION. The state of the module as plain data, the reasons a step can stop, and the state after reset. -/
namespace Sys2Proof.Machine

/-- A sparse table: pairs of key and value, keys strictly rising. -/
abbrev Tab (α : Type) := List (Nat × α)

/-- A cached 4-byte word: value, dirty bit (R196) and poison bit (R370). -/
structure CWord where
  val : Word
  dirty : Bool
  poison : Bool
deriving DecidableEq, Repr

/-- A leaf held by a TLB (R206): tag, first address, size as a power of two, frame address, permissions. -/
structure TlbEnt where
  pasid : Nat
  va : Nat
  lg : Nat
  pa : Nat
  r : Bool
  w : Bool
  x : Bool
  u : Bool
  dirty : Bool
  /-- its page is one of the flash tier, read from a pool block since (R37, R210) -/
  flash : Bool := false
deriving DecidableEq, Repr

/-- A walk in flight or queued (R206): PASID, virtual page, requesting core and group. -/
structure Walk where
  pasid : Nat
  vpn : Nat
  core : Nat
  grp : Nat
deriving DecidableEq, Repr

/-- Where a byte of an access lies: a physical address, or an offset in a core's scratchpad (R195, R202). -/
inductive Loc where
  | phys (pa : Nat)
  | spad (core off : Nat)
deriving DecidableEq, Repr

/-- One unit of one lane's access of a memory instruction that has passed its checks (R204, R214, R220): lane,
register offset, bytes, place, virtual address (0 for a scratchpad), data and `cas` new value as little-endian
numbers. -/
structure LaneAcc where
  lane : Nat
  reg : Nat
  n : Nat
  loc : Loc
  va : Nat
  data : Nat
  new : Nat
deriving DecidableEq, Repr

/-- The class of a lane memory request. -/
inductive MemKind where
  | ld | st | atom | red
deriving DecidableEq, Repr

/-- What an outstanding instruction of variable latency still has to do (R109, R111, R228). -/
inductive ReqKind where
  /-- classes `0x10` to `0x13` (R216 to R220) -/
  | mem (k : MemKind) (op : AtomOp) (t : AtomTy) (w : Atomicity) (ord : Ord4) (sc : Scope)
      (dst : VReg) (accs : List LaneAcc)
  /-- `SLD`, `SARG` (R161, R162) -/
  | sload (d : SReg) (dbl : Bool) (loc : Loc)
  /-- `SST` (R161) -/
  | sstore (dbl : Bool) (loc : Loc) (data : Nat)
  /-- class `0x0A`: the clock in which it has completed (R188) and its destination; its results are among the pending ones -/
  | sfu (done : Nat) (d : VReg)
  | fence (sc : Scope)
  | cln (sc : Scope)
  | inv (sc : Scope)
  /-- `PREF` with its physical lines (R225) -/
  | pref (lines : List Nat)
  /-- `LKLN` or `ULLN` with its physical lines (R226) -/
  | lock (on : Bool) (lines : List Nat)
  /-- waits on submission `sub` of stack `st` (R233, R236, R239) -/
  | job (st sub : Nat)
  /-- a `CPYC` whose copy has not formed: its number (R233) -/
  | cpyc (k : Nat)
  | taskwait (st task : Nat)
  /-- member of gang entry `e`, and whether it drains (R247, R270) -/
  | gang (e : Nat) (drain : Bool)
  | tktake (t : Nat)
  | tkpass (t : Nat)
  /-- `SCLD`: scale-memory offset and source places of its words (R258) -/
  | scld (off : Nat) (src : List Loc)
  /-- `SCLD` that has read its words, with their poison, and has still to write them (R258) -/
  | scldRead (off : Nat) (words : List (Nat × Bool))
  /-- `ACCRD`: destination and element index of each lane (R259) -/
  | accrd (d : VReg) (t : Nat) (xs : Tab Nat)
  /-- `ACCWR`: element index and word in lane order (R259) -/
  | accwr (t : Nat) (xs : List (Nat × Word))
  /-- `BWAIT` registered at a barrier object for a phase, 65,536 once that phase has completed; `own`: it waits on an entry of its
  group's arrival table; `lost`, `broken`: how it ended, both where its registration came in the clock of the object's invalidation
  (R315, R317, R382) -/
  | bwait (core off win phase : Nat) (own lost broken : Bool)
  /-- `XRED` round `k` of collective `c` (R320) -/
  | xred (c k : Nat)
  /-- `XWAIT` on rounds below `k` (R322) -/
  | xwait (c k : Nat)
  /-- `APPEND`: segment name, sequence number, source places of its words (R285) -/
  | append (seg sq : Nat) (src : List Loc)
  /-- `APFENCE`: segment name, last sequence number of the group's appends, destination pair (R287) -/
  | apfence (seg sq : Nat) (d : SReg)
  | seal (seg : Nat)
deriving DecidableEq, Repr

/-- A request outstanding in a group: its number, its counter, its completion flag, the floating flags it has
raised, whether its ordering actions are done, and its stall state (R110, R111, R279). -/
structure Req where
  id : Nat
  path : Option KPath
  flag : BitVec 4
  kind : ReqKind
  fp : Byte
  /-- the `lpc` of the lane word, or the `spc` of a scalar word -/
  pc : Word
  /-- the path that issued it -/
  by_ : Nat
  /-- held by a stall token of Jasper -/
  stalled : Bool
  /-- clock, plus one, from which its storage timeout runs; 0 before the first stall token -/
  stallAt : Nat
  /-- the virtual address that the load names -/
  addr : Dword
  /-- its storage timeout has expired and the trap has been taken -/
  late : Bool
  /-- the clock in which it issued -/
  at_ : Nat := 0
deriving DecidableEq, Repr

/-- A fixed-latency write not yet visible (R108, R109): the clock of visibility and the destination. -/
inductive PendDst where
  | vec (key : Nat) (v : Word)
  | pred (p : Nat) (lane : Nat) (v : Bool)
  /-- a scalar register; the mask registers are those of a path (R150, R179) -/
  | scal (s : SReg) (v : Word) (path : Nat)
deriving DecidableEq, Repr

/-- One fixed-latency result with its beat's visibility clock (R108), and its poison bit. -/
structure Pend where
  at_ : Nat
  dst : PendDst
  poison : Bool
deriving DecidableEq, Repr

/-- An entry of the reconvergence stack (R128). -/
inductive StackEnt where
  | reconv (mask : Mask) (tag : BitVec 2)
  | pending (spc lpc : Word) (mask : Mask) (tag : BitVec 2) (sig : Word)
deriving DecidableEq, Repr

/-- What a path waits for at an instruction already taken. -/
inductive Hold where
  | free
  /-- after `LJMP`, until the run's first word has issued (R158) -/
  | ljmp
  /-- waits at `RJOIN #t` (R126) -/
  | rjoin (t : BitVec 2)
  /-- held at a `SNAP` (R166) -/
  | snap
  /-- a `LOOPH` that waits for the item queue (R159) -/
  | looph
  /-- a `BRD` that awaits the Garnet pool's decision (R121) -/
  | eject (tk nt : Mask) (tag : BitVec 2) (live : BitVec 6) (off : BitVec 14)
deriving DecidableEq, Repr

/-- One path of a group: an entry of the split table (R116, R150, R159, R164, R364). -/
structure Path where
  id : Nat
  spc : Word
  lpc : Word
  /-- the run at `lpc` is being issued -/
  running : Bool
  /-- the runs that wait behind it (R101) -/
  queue : List Word
  mask : Mask
  owned : Mask
  tags : BitVec 4
  stack : List StackEnt
  hungry : Mask
  done : Mask
  cychi : Option Word
  sig : Word
  hold : Hold
  /-- clock of the first beat of its previous lane word, plus one; 0 for none (R106) -/
  tPrev : Nat
  /-- the clock before which its scalar stream does not issue again: the scalar port's next clock (R104), or the end of the
  16 clocks of a `YIELD` (R348) -/
  idle : Nat
  /-- the clock before which neither of its streams issues: 8 clocks after an `ERET` (R347) -/
  wake : Nat := 0
  /-- serial number of its last issue: the round robin of R105 takes the lowest -/
  age : Nat
  /-- made by a recall and not issued since: lanes recalled at the same place share it (R124) -/
  recalled : Bool
  /-- an instruction-fetch miss stalls its scalar stream, its lane stream (R103) -/
  missS : Bool
  missL : Bool
  /-- the scalar words and the lane words that its buffer slot holds ahead of issue: offset in the section and word (R103) -/
  heldS : List (Nat × BitVec 96) := []
  heldL : List (Nat × BitVec 96) := []
  /-- the clock in which it asked the Garnet pool, and the `BRD` word that asked (R121, R365) -/
  askAt : Nat := 0
  askWord : BitVec 96 := 0
deriving DecidableEq, Repr

/-- A trap or fault as its cause fixes it (R334, R335, R337, R340). -/
structure TrapInfo where
  code : Nat
  cls : Nat
  src : Nat
  val0 : Word
  val1 : Word
  tspc : Word
  tlpc : Word
  addr : Dword
  lane : Nat
  aux : Dword
  ir : BitVec 96
  /-- the path that raised it -/
  path : Nat
deriving DecidableEq, Repr

/-- A 64-byte trap record (R340). -/
structure TrapRec where
  info : TrapInfo
  pasid : Nat
  core : Nat
  slot : Nat
  teamIdx : Nat
  tag : Nat
  /-- group and team that the record concerns, for delivery of the reply -/
  grp : Nat
  team : Nat
  /-- the launch that it concerns (R343) -/
  launch : Option Nat := none
deriving DecidableEq, Repr

/-- Why a whole group issues nothing (R113, R208, R342, R343, R351). -/
inductive Susp where
  | run
  /-- a translation walk is queued for it -/
  | walk
  /-- a class 1 or 3 record with this reply tag is waiting to be written or pending -/
  | record (tag : Nat)
  /-- halted by a class 2 event or a kill -/
  | halted
deriving DecidableEq, Repr

/-- The handler context of a group (R337 to R339). -/
structure HandlerCtx where
  path : Nat
  queue : List Word
  running : Bool
  depth : Nat
  /-- the rejoin slot of a `rejoin_overdue` that the handler serves, else 4 -/
  slot : Nat
  /-- the path was held after an `LJMP` whose run's first word had not issued (R158) -/
  ljmp : Bool := false
deriving DecidableEq, Repr

/-- A trap that is due on a path while a handler runs (R339). -/
structure DueTrap where
  path : Nat
  info : TrapInfo
deriving DecidableEq, Repr

/-- A recall entry of the divergence block, oldest first (R124). -/
structure RecallEnt where
  spc : Word
  lpc : Word
  queue : List Word
  running : Bool
  mask : Mask
  tag : BitVec 2
  tags : BitVec 4
  sig : Word
  /-- held after an `LJMP` whose run's first word had not issued (R158) -/
  ljmp : Bool := false
  /-- the trap that its path takes once it is one (R123) -/
  trap : Option TrapInfo := none
deriving DecidableEq, Repr

/-- One rejoin slot of a group (R117, R126, R160): lanes ejected, lanes returned, the tag sets of returned lanes'
ejecting paths, the point after the `RJOIN`, and its timer: start clock plus one, or 0 (R127), with the time-out that `rjto` gave when
it started (R164). -/
structure RjSlot where
  rjm : Mask
  returned : Mask
  rtags : BitVec 4
  rspc : Word
  rlpc : Word
  timer : Nat
  limit : Nat := 0
deriving DecidableEq, Repr

/-- The extra state of a Garnet context (R122): the group it serves, the lane, the ejecting tag and tag set, the
live set, the registers written. -/
structure Garnet where
  parent : Nat
  lane : Nat
  tag : BitVec 2
  tags : BitVec 4
  live : BitVec 384
  written : BitVec 384
  /-- the group's `fpflags` as they stood at the ejection (R164) -/
  fp0 : Byte
  /-- the group's requests below this number were issued before the ejection, which releases them (R125) -/
  since : Nat := 0
deriving DecidableEq, Repr

/-- One entry of the arrival table (R315): window offset, phase, and whether the phase has completed. -/
structure Arrival where
  off : Nat
  phase : Nat
  passed : Bool
  /-- a `BWAIT` on it has completed while its image was sealed (R356) -/
  spent : Bool := false
deriving DecidableEq, Repr

/-- A walk's outcome kept for the instruction that re-issues: page and fault code (R207). -/
structure Walked where
  pasid : Nat
  vpn : Nat
  code : Nat
deriving DecidableEq, Repr

/-- A resident, pre-empted or Garnet group of 96 lanes (R58, R116, R353). -/
structure Group where
  team : Nat
  idx : Nat
  core : Nat
  part : Nat
  place : Nat
  resident : Bool
  retired : Bool
  sreg : Tab Word
  spoison : List Nat
  /-- vector words keyed by register × 96 + lane -/
  vreg : Tab Word
  vpoison : List Nat
  /-- predicates `p1` to `p7` as masks -/
  pred : Tab Mask
  flags : BitVec 12
  /-- the outstanding last owner of each flag (R110) -/
  owner : Tab Nat
  /-- requests whose counters have not fallen: number, path, completed (R111) -/
  outq : List (Nat × KPath × Bool)
  reqs : List Req
  pend : List Pend
  /-- lines held by the register cache, bit register × 3 + beat (R112) -/
  lines : BitVec 1152
  ejth : Word
  rjto : Word
  role : Word
  gang : Word
  fpflags : Byte
  dead : Mask
  tcause : Word
  tval0 : Word
  tval1 : Word
  tspc : Word
  tlpc : Word
  handler : Option HandlerCtx
  due : List DueTrap
  paths : List Path
  slots : List RjSlot
  recalls : List RecallEnt
  ncpyc : Nat
  arrivals : List Arrival
  target : Option Nat
  /-- last append of this group to each segment (R287) -/
  appends : Tab Nat
  walked : Option Walked
  susp : Susp
  garnet : Option Garnet
  /-- issue age on the scalar port: larger is younger (R105) -/
  age : Nat
  /-- clock at which its rejoin timers were paused (R127) -/
  pausedAt : Nat
  /-- issue ages on the two lane ports (R105) -/
  ageA : Nat := 0
  ageB : Nat := 0
  /-- the clock before which the fetch of both streams is suspended for an instruction that may fault (R113, R114) -/
  quiet : Nat := 0
  /-- sticky flags of fixed-latency results, each with the clock in which they are set (R182) -/
  fpDue : List (Nat × Byte) := []
  /-- for each line of the register cache that it holds, the serial number of its last use (R112) -/
  lineUse : Tab Nat := []
  /-- the frames of its context image, counted down in its column's private part (R64, R70, R194) -/
  image : Option Nat := none
  /-- the flags that were set at the end of the previous clock (R106) -/
  seen : BitVec 12 := 0
  /-- lines of the register cache that issued instructions name whose results are not all written (R112): the instruction's serial
  number, the clock by which its fixed-latency results are written, and the lines -/
  named : List (Nat × Nat × List Nat) := []
  /-- the reply that its sealed image has taken, with its record (R353, R356) -/
  reply : Option (TrapRec × Word) := none
deriving DecidableEq, Repr

/-- A kernel descriptor with its sections located (R24, R397); addresses are virtual. -/
structure Kernel where
  scalarEntry : Nat
  laneEntry : Nat
  trapOff : Option Nat
  regs : Nat
  groups : Nat
  width : Nat
  height : Nat
  teamsPerCore : Nat
  flags : Byte
  spad : Nat
  args : Nat
  ib : Nat
  ejth : Nat
  preload : Nat
  snapBytes : Nat
  drainOff : Nat
  liveOff : Nat
  liveCount : Nat
  sigOff : Nat
  scalarBase : Nat
  scalarSize : Nat
  laneBase : Nat
  laneSize : Nat
  drainBase : Nat
  drainSize : Nat
  layoutBase : Nat
  layoutSize : Nat
  liveBase : Nat
  liveSize : Nat
  sigBase : Nat
  sigSize : Nat
deriving DecidableEq, Repr

/-- A snapshot kept beside its bytes: the divergence state that the opaque block stands for (R117, R367). -/
structure SnapGroup where
  grp : Nat
  paths : List Path
  slots : List RjSlot
  recalls : List RecallEnt
  target : Option Nat
  /-- its poisoned vector words and scalar registers (R370, R371) -/
  vpoison : List Nat := []
  spoison : List Nat := []
deriving DecidableEq, Repr

/-- What one half of a team's snapshot area stands for besides its bytes: the half, its divergence blocks, and the barrier
objects of the partition with their owners (R308, R367). -/
structure TeamSnap where
  half : Nat
  groups : List SnapGroup
  bars : List (Nat × Nat)
  /-- poisoned words of the partition (R371) -/
  poison : List Nat := []
deriving DecidableEq, Repr

/-- A tensor view (R26, R28 to R30): base space and address, element type, strides, extents, codes. -/
structure View where
  /-- 0 global, 1 cluster window, 2 own partition (R230) -/
  space : Nat
  base : Nat
  team : Nat
  ty : Nat
  rank : Nat
  swz : Nat
  inter : Nat
  ragged : Bool
  zfill : Bool
  bdim : Nat
  ldim : Nat
  strides : List Int
  extents : List Nat
  fill : Word
  /-- lengths of the ragged shape record -/
  lens : List Nat
  /-- box extents, 0 for the whole extent (R26) -/
  box : List Nat := []
deriving DecidableEq, Repr

/-- One independent copy of a submission: source, destination, owning group, its `CPYC`, arrival target, done. -/
structure Slice where
  dst : View
  src : View
  grp : Nat
  ir : BitVec 96
  target : Option Nat
  arrived : Bool
  /-- positions written so far (R233) -/
  pos : Nat := 0
  /-- the two register blocks as its `CPYC` read them (R233, R354) -/
  blocks : List Word := []
deriving DecidableEq, Repr

/-- A team (R58, R66, R233, R368). -/
structure Team where
  cluster : Nat
  idx : Nat
  core : Nat
  slot : Nat
  spadOff : Nat
  groups : List Nat
  formed : Nat
  rollbacks : Nat
  halted : Bool
  exited : Bool
  /-- its first class 2 record is written or latched (R341) -/
  fatal : Bool
  /-- slices of collective copies not yet formed: number of the copy, request, slice (R233) -/
  slices : List (Nat × Nat × Slice)
  snaps : List TeamSnap
  /-- a rollback is under way: the group and path of its `SIGCHK` (R368) -/
  rolling : Option (Nat × Nat)
  /-- its save area, from the decision to pre-empt it until it is restored: core of the column, first frame and frames (R350, R354) -/
  save : Option (Nat × Nat × Nat) := none
deriving DecidableEq, Repr

/-- Where a cluster stands between decision and residence (R358). -/
inductive ClState where
  | waiting | requested | resident | stopping | saving | out | restoring | gone
deriving DecidableEq, Repr

/-- A cluster (R58, R62, R358). -/
structure Cluster where
  launch : Nat
  index : Nat
  ox : Nat
  oy : Nat
  state : ClState
  teams : List Nat
  /-- order of placement or resumption, and its clock -/
  placed : Nat
  since : Nat
deriving DecidableEq, Repr

/-- A work item in a core's queue: its eight words and its stamp (R31, R32). -/
structure Item where
  words : List Word
  stamp : Int
deriving DecidableEq, Repr

/-- A launch (R46 to R48, R383). -/
structure Launch where
  queue : Nat
  pkt : Nat
  pasid : Nat
  cls : Nat
  kern : Kernel
  grid : Nat
  nextCluster : Nat
  argAddr : Nat
  itemAddr : Nat
  itemCount : Nat
  itemNext : Nat
  feedDepth : Nat
  /-- items returned by a pre-emption with kept ages (R355) -/
  kept : List (List Word × Nat)
  feedEnded : Bool
  itemFault : Bool
  recAddr : Nat
  snapAddr : Nat
  delivered : Nat
  discarded : Nat
  undelivered : Nat
  tags : List Word
  deadLanes : Nat
  cause : Word
  unrecorded : Nat
  killed : Bool
  silent : Bool
  finished : Bool
deriving DecidableEq, Repr

/-- State of a queue (R42). -/
inductive QState where
  | active | waiting | error | closing
deriving DecidableEq, Repr

/-- A packet that has started and not completed (R45). -/
structure Packet where
  idx : Nat
  sigAddr : Nat
  sigVal : Dword
  sigOp : Nat
  intr : Bool
  effectsDone : Bool
  /-- a barrier packet: done once every earlier packet has completed (R51) -/
  bar : Bool
  /-- an accepted invalidation that is still to be carried out: base and length (R40, R51) -/
  inval : Option (Nat × Nat) := none
deriving DecidableEq, Repr

/-- A registered queue (R38, R39, R42). -/
structure Queue where
  pasid : Nat
  ring : Nat
  lg : Nat
  cls : Nat
  vector : Nat
  hart : Nat
  tailAddr : Nat
  tailPa : Nat
  statusAddr : Nat
  tail : BitVec 32
  head : BitVec 32
  state : QState
  /-- packets still to be consumed without effect (R50) -/
  skip : Nat
  running : List Packet
  /-- line awaited by the wait watch -/
  watch : Option Nat
  /-- clock, plus one, at which the repeat conditional at its head began to wait; 0 for none (R50) -/
  since : Nat
  /-- serial number of its last parsed packet: the round robin of R52 takes the lowest -/
  served : Nat
deriving DecidableEq, Repr

/-- One block of a `CPYX`: its rank, its address or none for a hole, cold, arrived (R236). -/
structure GBlock where
  k : Nat
  addr : Option Nat
  cold : Bool
  arrived : Bool
  /-- its frames as they stood at issue, by page: the stream reads them whatever becomes of the table (R237) -/
  frames : List (Option Nat) := []
  /-- elements moved so far (R236) -/
  pos : Nat := 0
deriving DecidableEq, Repr

/-- The work of a submission (R238). -/
inductive Work where
  | bytes (src dst len : Nat)
  | fill (dst len : Nat) (pat : Dword)
  | none
  | slices (ss : List Slice)
  /-- a tensor copy whose records are still to be read: source and destination record addresses, then base and
  extents of source and destination (R238) -/
  | tensor (srec drec sbase dbase : Nat) (sext dext : List Nat)
  | gather (dst : View) (rows rowBytes : Nat) (target : Option Nat) (bs : List GBlock)
  /-- a job that its records, read when it was issued, end with a status (R30, R34, R238) -/
  | refused (code : Nat)
deriving DecidableEq, Repr

/-- A widened footprint part: space 0 global or 1 scratchpad, core, first and last byte, written (R34, R240). -/
structure Foot where
  spad : Bool
  core : Nat
  lo : Nat
  hi : Nat
  wr : Bool
deriving DecidableEq, Repr

/-- A submission of a stack's task scheduler (R240, R241). -/
structure Sub where
  id : Nat
  pasid : Nat
  work : Work
  foot : List Foot
  /-- submitting groups with their request numbers; 0 request for none -/
  by_ : List (Nat × Nat)
  team : Option Nat
  /-- the task whose card this is -/
  task : Option Nat
  /-- task counted down at completion (R33) -/
  count : Option Nat
  cardFlag : Option (Nat × Nat × Nat)
  status : Option Nat
  packet : Option (Nat × Nat)
  started : Bool
  error : Nat
  suspended : Option Nat
  pins : List Nat
  ir : BitVec 96
  /-- regions of its card: base, length, written (R33) -/
  regions : List (Nat × Nat × Bool)
  /-- the fields that a record of its fault takes from the group that issued it (R340, R242) -/
  from_ : Option TrapRec := none
deriving DecidableEq, Repr

/-- State of a named task (R243). -/
inductive TaskState where
  | open | defined | running | done
deriving DecidableEq, Repr

/-- A task slot (R243): PASID, number, counts, stored card, definer. -/
structure TaskSlot where
  pasid : Nat
  num : Nat
  v : Int
  c : Int
  card : Option Sub
  state : TaskState
  packet : Option (Nat × Nat)
deriving DecidableEq, Repr

/-- A tile token (R256). -/
inductive Token where
  | m (team n : Nat)
  | p (team grp n : Nat)
  | v (team grp : Nat)
deriving DecidableEq, Repr

/-- A tile's drain extent (R264). -/
structure Extent where
  m : Nat
  n : Nat
  pad : List Nat
deriving DecidableEq, Repr

/-- The drain unit while a drain runs (R263, R273): the entry, the next segment, the word being run, the element
registers keyed by register × 64 + lane. -/
structure DrainRun where
  ent : Nat
  row : Nat
  seg : Nat
  inSeg : Bool
  pc : Nat
  e : Tab Word
  zeroAfter : Bool
  finished : Bool
  fp : Byte
  /-- reply tag of a replayable fault that suspends it -/
  suspended : Option Nat
  /-- its partial-drain restart record, 0 for none (R273 to R275) -/
  restart : Dword := 0
deriving DecidableEq, Repr

/-- A gang instruction in the latch, the sequencer or stopped (R247, R252, R253). -/
structure GangEnt where
  id : Nat
  team : Nat
  gang : Word
  word : BitVec 96
  regs : Tab Word
  /-- members that have joined, with their request numbers -/
  members : List (Nat × Nat)
  zero : Bool
  accum : Bool
  fmt : MmaFmt
  td : TileDrain
  a : Option View
  b : Option View
  sa : Word
  sb : Word
  fired : Bool
  begun : Bool
  kb : Nat
  rowsDone : Nat
  stepsDone : Bool
  fp : Byte
  sigma : Word
  prog : List Dword
  m : Nat
  n : Nat
  pad : List Nat
  stop : Option (Nat × Nat)
  /-- its drain as it stood when its team was saved (R275, R357) -/
  saved : Option DrainRun
  /-- `invalid` and `overflow` of forming `sigma` (R147, R265) -/
  sigFp : Byte := 0
  /-- its place in the order of firing on its core; 0 before it fires (R253) -/
  firedAt : Nat := 0
deriving DecidableEq, Repr

/-- Lifetime counters of a stack (R333, R379). -/
structure Life where
  corrected : Nat
  uncorrectable : Nat
  retries : Nat
  swaps : Nat
  deadLanes : Nat
  mismatches : Nat
  rollbacks : Nat
  degraded : Nat
  retired : Nat
  remapped : Nat
  storageWaits : Nat
deriving DecidableEq, Repr

/-- One compute core with its column (R12, R13, R56, R66, R196, R206, R247, R251, R256, R261, R375). -/
structure Core where
  pasid : Nat
  lastPasid : Nat
  tlb : List TlbEnt
  l1 : Tab CWord
  col : Tab CWord
  locks : List (Nat × Nat)
  spad : Tab Byte
  /-- poisoned words of the scratchpad, copied there by an engine (R371) -/
  spadPoison : List Nat
  /-- poisoned words of its tiles and bytes of its scale memory (R371) -/
  accPoison : List Nat := []
  scalePoison : List Nat := []
  units : Nat
  /-- scratchpad offsets of valid barrier objects, with the owning team -/
  bars : List (Nat × Nat)
  acc : Tab Word
  tokens : Tab Token
  extents : Tab Extent
  scale : Tab Byte
  /-- drain programs: team, slot, words -/
  progs : List (Nat × Nat × List Dword)
  latch : List GangEnt
  seq : List GangEnt
  drain : Option DrainRun
  items : List Item
  swaps : List (Nat × Nat)
  noSpare : Bool
  /-- lines in its column cache that the tile fetch unit pins: line, gang entry, last K-block that uses it (R255) -/
  pins : List (Nat × Nat × Nat) := []
  /-- gang entries fired on it since reset (R253) -/
  fires : Nat := 0
  /-- home lines of its column that its column cache holds (R195, R196) -/
  homes : List Nat := []
  /-- lines of its column cache and of its L1, the least recently used first (R196) -/
  colUse : List Nat := []
  l1Use : List Nat := []
  /-- its ports and pipes: for each unit of `portKey` and `pipeKey`, the clock of its last first beat plus one (R104), and for the
  core-wide pipes the serial number of each partition's last grant (R105) -/
  ports : Tab Nat := []
  /-- reads of the register cache's banks in the clocks to come: clock and bank (R106, R107) -/
  bankReads : List (Nat × Nat) := []
  /-- for each barrier object that a request reached: the clock of the last, and its place among R309's steps -/
  barSeen : Tab (Nat × Nat) := []
  /-- barrier objects that step 2 of R309 looks at, with the clock at whose end it does -/
  barDue : Tab Nat := []
  /-- line reads that it and the engines of its stack have made of lower-tier blocks: block and clock, as the controllers count
  them (R210) -/
  tierReads : List (Nat × Nat) := []
deriving DecidableEq, Repr

/-- The three copies of one word of a stack's row-remap table (R377). -/
structure RowCopies where
  a : Word
  b : Word
  c : Word
deriving DecidableEq, Repr

/-- One compute stack's shared parts (R15, R206, R240, R243, R341, R378, R379). -/
structure Stack where
  tlb : List TlbEnt
  walks : List Walk
  subs : List Sub
  tasks : List TaskSlot
  trapQ : List TrapRec
  waitQ : List TrapRec
  fatal : List TrapRec
  pending : List TrapRec
  degraded : Bool
  life : Life
  poolMib : Nat
  /-- its lifetime segments by key, oldest first (R379) -/
  lifeSegs : List Nat
  /-- non-leaf entries of its second-level TLB, oldest first (R206): PASID, level of the table they name, the address bits above that
  table's reach, and the table's frame -/
  nonLeaf : List (Nat × Nat × Nat × Nat) := []
  /-- PASIDs whose last team on the stack has exited while a job of theirs was submitted (R243) -/
  leaving : List Nat := []
  /-- the clock of its last lifetime record (R379) -/
  lifeAt : Nat := 0
  /-- its row-remap table, three copies of each word that is not zero (R377), and the row retirements that its lifetime records hold
  (R378) -/
  remap : Tab RowCopies := []
  rowsKept : Tab Word := []
  /-- for each Garnet core of the pool, the last clock in which a context issued there and how many did (R11, R15, R123) -/
  garnetUse : Tab (Nat × Nat) := []
deriving DecidableEq, Repr

/-- A registered process (R35, R387). -/
structure Proc where
  root : Nat
  asid : Nat
  closing : Bool
deriving DecidableEq, Repr

/-- A flash-tier segment, durable (R280 to R283). -/
structure Segment where
  z : Nat
  pa : Nat
  state : Nat
  next : Nat
  durable : Nat
  tail : Nat
  sealedLen : Nat
  bytes : Tab Byte
  /-- end offset of each record by sequence number -/
  ends : Tab Nat
  /-- records whose payload is still to be read -/
  unread : List Nat
  sealing : Bool
  attach : Option (Nat × Nat)
deriving DecidableEq, Repr

/-- A round of a collective (R320): number, operation, this module's request, contributions by member. -/
structure Round where
  k : Nat
  op : Nat
  /-- the clock in which this module's contribution left -/
  left : Option Nat
  grp : Nat
  req : Nat
  parts : List (Nat × Nat × Tab Word)
deriving DecidableEq, Repr

/-- A collective of this module (R319). -/
structure Collective where
  pasid : Nat
  members : Nat
  me : Nat
  tree : Bool
  result : Nat
  timeout : Nat
  key : Dword
  table : Nat
  failed : Bool
  issued : Nat
  completed : Nat
  rounds : List Round
  /-- the port that it uses, none once no port reaches its peer (R392) -/
  port : Option Nat
deriving DecidableEq, Repr

/-- A placement that core 1 has asked core 2 for (R55, R64). -/
structure PlaceReq where
  cluster : Nat
  ox : Nat
  oy : Nat
deriving DecidableEq, Repr

/-- What a saved team keeps while its cluster is out (R354). -/
structure SavedTeam where
  team : Nat
  tiles : Tab (Tab Word)
  tokens : Tab Token
  extents : Tab Extent
  scale : Tab Byte
  progs : List (Nat × List Dword)
  spad : Tab Byte
  poison : List Nat
  bars : List (Nat × Nat)
  gangs : List GangEnt
  /-- poisoned words of its tiles, by tile, and bytes of its scale memory (R371) -/
  tilePoison : Tab (List Nat) := []
  scalePoison : List Nat := []
deriving DecidableEq, Repr

/-- The three copies of a containment record (R377). The record lists every frame of the stacks in `wholes` (R378); a copy names the
frames on which it differs from that. -/
structure Copies where
  a : List Nat
  b : List Nat
  c : List Nat
  wholes : List Nat := []
deriving DecidableEq, Repr

/-- An entry of the array ECC log (R376): stack, column, physical address, codeword, clock, and the position of the byte that was corrected,
none for an uncorrectable codeword. -/
structure ArrayEnt where
  stack : Nat
  column : Nat
  pa : Nat
  codeword : Nat
  clock : Nat
  byte : Option Nat
deriving DecidableEq, Repr

/-- An entry of the vertical-bus log (R376): stack, column, physical address, beat, clock, parity group, retry count, and any swap, as
lane and spare. -/
structure BusEnt where
  stack : Nat
  column : Nat
  pa : Nat
  beat : Nat
  clock : Nat
  group : Nat
  retries : Nat
  swap : Option (Nat × Nat)
deriving DecidableEq, Repr

/-- An answer that core 2 owes the host driver, in request order: ready, or held until a record is durable, a segment
sealed, or a PASID torn down (R385, R388, R389). -/
inductive ReplyDue where
  | ready (m : BitVec 512)
  | durable (seg sq : Nat) (m : BitVec 512)
  | sealing (seg : Nat) (m : BitVec 512)
  | closed (pasid : Nat) (m : BitVec 512)
deriving DecidableEq, Repr

/-- A notice to the host driver: a poisoned entry of a registered table by PASID, table and entry, or a degraded stack
(R372, R378). -/
inductive Notice where
  | entry (pasid table idx : Nat)
  | stack (st : Nat)
deriving DecidableEq, Repr

/-- Who moves next (the schedule of the module's agents, as plain data). -/
inductive Turn where
  /-- path `p` of group `g` issues from its scalar or its lane stream (R101, R105) -/
  | issue (g p : Nat) (lane : Bool)
  /-- an operation or event of the table -/
  | event (i : Instr)
  /-- the drain unit of core `c` runs its next word (R263) -/
  | drainWord (c : Nat)
  /-- request `r` of group `g` performs its `k`-th remaining access (R297) -/
  | perform (g r k : Nat)
  /-- the `k`-th pending fixed-latency result of group `g` is written early (R109) -/
  | land (g k : Nat)
  /-- the column cache of core `c` evicts the line at physical address 128 × `line` (R196) -/
  | evict (c line : Nat)
  /-- the L1 of core `c` drops a line -/
  | dropL1 (c line : Nat)
  /-- the register cache evicts a line of group `g` (R112) -/
  | evictReg (g line : Nat)
  /-- a stream of path `p` of group `g` meets an instruction-fetch miss (R103) -/
  | missFetch (g p : Nat) (lane : Bool)
  /-- submission `sub` of stack `st` performs its next part -/
  | engine (st sub : Nat)
  /-- `n` clocks pass -/
  | elapse (n : Nat)
  /-- the boot sequence runs (R393) -/
  | boot
  /-- the host driver sends a message to core 2 (R388) -/
  | hostMsg (m : BitVec 512)
  /-- core 2 answers a request whose code is not one of R388's -/
  | hostOther
  /-- the host driver takes the oldest reply -/
  | hostTake
  /-- another member's contribution to a round arrives (R320) -/
  | contribute (c member k op : Nat) (v : Tab Word)
  /-- firmware of an untrusted core attempts a direct access (R54) -/
  | filtered (beryl pa : Nat)
  /-- a buffer slot takes a word ahead of issue (R103) -/
  | fetchAhead (g p : Nat) (lane : Bool)
  /-- the tile fetch unit of core `c` fetches a line of K-block `kb` of gang entry `ent` ahead (R255) -/
  | tileFetch (c ent kb : Nat)
  /-- of the walks in flight of stack `st`, the `k`-th is the next to end (R206) -/
  | walkOrder (st k : Nat)
  /-- an agent sends a message on its channel to another, or takes the oldest (R53): Beryl cores 0 to 7, Jasper 8 -/
  | mailSend (src dst : Nat) (m : BitVec 512)
  | mailTake (src dst : Nat)
  /-- a cache of the host die takes the line of an address that a hart has loaded, and a snoop removes one (R37, R307) -/
  | hostFill (via : HartVia) (addr : Nat)
  | snoop (line : Nat)
  /-- ECC corrects a byte of a codeword in line (R374, R376) -/
  | corrected (pa byte : Nat)
  /-- core 2 applies the events of a sealed group to its image (R356) -/
  | imageSync (g : Nat)
  /-- the IOMMU of the PCIe port holds a root table for a requester and a PASID (R391) -/
  | iommuContext (dev pasid root : Nat)
  /-- a row of a stack is retired to another (R377, R378), its word is read, or one copy of the word errs -/
  | rowRemap (st row : Nat) (w : Word)
  | rowRead (st row : Nat)
  | rowError (st row copy : Nat) (w : Word)
  /-- a storage error in one copy of the poison record or of the retired-frame list changes whether it lists a frame (R377) -/
  | copyError (retired : Bool) (copy frame : Nat)
deriving DecidableEq, Repr

/-- A step stops with a fault. -/
inductive Fault where
  /-- Raised by `step` when power has been removed (R288, R395) and no power-on reset is due.
  Safe: the spec gives a module without power no step. -/
  | noPower
deriving DecidableEq, Repr

/-- A step is refused. -/
inductive Refusal where
  /-- Raised by an arm of `exec` whose instruction has no meaning yet. Safe: nothing is claimed of it. -/
  | notModelled (mnemonic : String)
deriving DecidableEq, Repr

/-- The whole module. -/
structure State where
  /-- clocks since the last reset: every core's cycle counter (R95, R396) -/
  clock : Nat
  /-- memory behind the home slices: HBM, capacity tier and device-private frames (R36) -/
  mem : List Host.Cell
  /-- poisoned 32-byte codewords by physical address div 32 (R370, R374) -/
  poison : List Nat
  /-- poison record of frames, and the retired-frame list (R372, R373, R377) -/
  poisonFrames : Copies
  retiredFrames : Copies
  /-- promotion directory: block of a lower tier to pool block of HBM, oldest first (R210) -/
  promoted : List (Nat × Nat)
  segments : Tab Segment
  procs : Tab Proc
  queues : Tab Queue
  launches : Tab Launch
  clusters : Tab Cluster
  teams : Tab Team
  groups : Tab Group
  saved : List SavedTeam
  cores : Tab Core
  stks : Tab Stack
  collectives : Tab Collective
  placeReqs : List PlaceReq
  /-- cores freed by a pre-emption, offered first to the launch whose wait caused it (R52) -/
  offers : List (Nat × List Nat)
  /-- registered block page tables: PASID and address (R372) -/
  blockTables : List (Nat × Nat)
  /-- notices to the host driver (R372, R378) -/
  notices : List Notice
  hostIn : List (BitVec 512)
  hostOut : List (BitVec 512)
  /-- answers not yet given, in request order -/
  hostWait : List ReplyDue
  /-- MSI writes to interrupt files: hart and identity (R390) -/
  msi : List (Nat × Nat)
  /-- core 3's memory of drained records, 64 bytes each (R340, R341) -/
  drained : List (BitVec 512)
  /-- accesses reported by the filter: core and address (R54) -/
  filtered : List (Nat × Nat)
  /-- the mailbox channels between Beryl cores and with Jasper, the oldest message first (R53), by 16 × sender + receiver -/
  mail : Tab (List (BitVec 512)) := []
  /-- lines that the caches of the host die hold: line and contents (R307) -/
  hostCache : Tab Nat := []
  /-- the rings of the array ECC log and of the vertical-bus log, the oldest entry first (R376) -/
  arrayLog : List ArrayEnt := []
  busLog : List BusEnt := []
  /-- the last access fault or page fault that each hart has taken: RISC-V cause and address (R387) -/
  hartFaults : Tab (Nat × Nat) := []
  /-- the 64-byte granule that each hart's load-reserved holds (R387) -/
  hartRes : Tab Nat := []
  /-- the root tables that the IOMMU of the PCIe port holds, by 2^20 × requester + PASID, 0 for no prefix (R391) -/
  iommu : Tab Nat := []
  /-- inbound requests completed as Unsupported Requests: requester and address (R391) -/
  pcieUr : List (Nat × Nat) := []
  storageTimeout : Nat
  gate : Nat
  powered : Bool
  /-- boot steps of R393 completed, 0 to 6 -/
  boot : Nat
  bootFailed : Bool
  measure : BitVec 512
  portsDown : List Nat
  /-- the peer module at the other end of each port with an accepted connection (R392) -/
  peers : Tab Nat
  /-- the path and group whose instruction is being executed, and its raw word -/
  cur : Nat
  curPath : Nat
  ir : BitVec 96
  /-- the core whose drain unit runs the word being executed -/
  drainCore : Nat
  agenda : List Turn
  /-- MODEL ONLY: next fresh number for groups, requests, submissions, entries -/
  fresh : Nat
  /-- MODEL ONLY: counter of free values drawn (Config) -/
  draws : Nat
deriving DecidableEq, Repr

/-- The module right after reset, before step 1 of the boot sequence (R393, R396): memory lists nothing, nothing is
registered or placed, every cycle counter is zero, the default pool is 2 GiB per stack (R210) and the default
storage timeout is 100,000,000 clocks (R279). Cores and stacks are listed when first touched; `coreOf` and
`stackOf` of Mem give the reset value of one that is not listed. -/
def State.reset : State :=
  { clock := 0, mem := [], poison := [], poisonFrames := ⟨[], [], [], []⟩, retiredFrames := ⟨[], [], [], []⟩, promoted := [], segments := [], procs := [],
    queues := [], launches := [], clusters := [], teams := [], groups := [], saved := [], cores := [], stks := [],
    collectives := [], placeReqs := [], offers := [], blockTables := [], notices := [], hostIn := [], hostOut := [], hostWait := [],
    msi := [], drained := [], filtered := [], mail := [], hostCache := [], storageTimeout := 100000000, gate := 0,
    powered := true, boot := 0, bootFailed := false, measure := 0, portsDown := [], peers := [], cur := 0,
    curPath := 0, ir := 0, drainCore := 0, agenda := [], fresh := 1, draws := 0 }

end Sys2Proof.Machine
end

