-- ==== Sys2Proof/Machine/Tab.lean ====
section
/-! DEFINITION. Sparse tables: lookup, insertion and removal that keep keys strictly rising, and the word and
byte views in which an unlisted key reads as zero. -/
namespace Sys2Proof.Machine

variable {α : Type}

/-- The entry at key `k`, if any. -/
def tabFind : Tab α → Nat → Option α
  | [], _ => none
  | (j, v) :: t, k => if k < j then none else if k = j then some v else tabFind t k

/-- The table with `v` at key `k`. -/
def tabPut : Tab α → Nat → α → Tab α
  | [], k, v => [(k, v)]
  | (j, u) :: t, k, v =>
    if k < j then (k, v) :: (j, u) :: t else if k = j then (k, v) :: t else (j, u) :: tabPut t k v

/-- The table without key `k`. -/
def tabDel : Tab α → Nat → Tab α
  | [], _ => []
  | (j, u) :: t, k => if k < j then (j, u) :: t else if k = j then t else (j, u) :: tabDel t k

/-- The keys strictly rise. -/
def tabSorted : Tab α → Bool
  | [] => true
  | [_] => true
  | (j, _) :: (k, v) :: t => decide (j < k) && tabSorted ((k, v) :: t)

/-- The value at `k`, or `d` where none is listed. -/
def tabGet (d : α) (t : Tab α) (k : Nat) : α := (tabFind t k).getD d

/-- Put `v` at `k`, removing the entry where `v` is what an unlisted key reads as. -/
def tabSet [DecidableEq α] (d : α) (t : Tab α) (k : Nat) (v : α) : Tab α :=
  if v = d then tabDel t k else tabPut t k v

/-- Apply `f` to the entry at `k`, if any. -/
def tabMod (t : Tab α) (k : Nat) (f : α → α) : Tab α :=
  match tabFind t k with
  | some v => tabPut t k (f v)
  | none => t

/-- No entry equals the default. -/
def tabNoDefault [DecidableEq α] (d : α) (t : Tab α) : Bool := t.all (fun e => decide (e.2 ≠ d))

/-- Canonical form: keys strictly rise and no entry equals the default. -/
def tabWf [DecidableEq α] (d : α) (t : Tab α) : Bool := tabSorted t && tabNoDefault d t

/-- Insert into a strictly rising list of numbers. -/
def setIns : List Nat → Nat → List Nat
  | [], k => [k]
  | j :: t, k => if k < j then k :: j :: t else if k = j then j :: t else j :: setIns t k

/-- Remove from a strictly rising list of numbers. -/
def setDel (t : List Nat) (k : Nat) : List Nat := t.filter (· ≠ k)

end Sys2Proof.Machine
end

