-- ==== Sys2Proof/Machine/Mem.lean ====
section
/-! DEFINITION. Memory behind the home slices: canonical byte cells, little-endian numbers, the physical map (R36,
R194), caches by word (R195 to R201), and the scratchpads (R202). -/
namespace Sys2Proof.Machine

/-- The canonical form of memory: addresses strictly rising, no entry equal to an unwritten byte. -/
def memWf (m : List Host.Cell) : Bool := tabWf Config.unwritten m

/-- The byte at a physical address behind its home slice. -/
def memByte (m : List Host.Cell) (a : Nat) : Byte := tabGet Config.unwritten m a
/-- Memory with one byte written. -/
def memPut (m : List Host.Cell) (a : Nat) (v : Byte) : List Host.Cell := tabSet Config.unwritten m a v

/-- `n` bytes from `a`, as a little-endian number (R6). -/
def bytesNat (f : Nat → Byte) : Nat → Nat → Nat
  | 0, _ => 0
  | n + 1, a => (f a).toNat + 256 * bytesNat f n (a + 1)

/-- Write `n` bytes of a number from `a` (R6). -/
def memWrite : Nat → List Host.Cell → Nat → Nat → List Host.Cell
  | 0, m, _, _ => m
  | n + 1, m, a, x => memWrite n (memPut m a (BitVec.ofNat 8 x)) (a + 1) (x / 256)

/-! ### The physical map -/

/-- Tiers of the physical map (R36). -/
inductive Tier where
  | hbm | cap | flash | priv | none
deriving DecidableEq, Repr

/-- The tier of a physical address (R36). -/
def tierOf (pa : Nat) : Tier :=
  if pa < Config.hbmBytes then .hbm
  else if Config.capBase ≤ pa ∧ pa < Config.capBase + Config.capBytes then .cap
  else if Config.flashBase ≤ pa ∧ pa < Config.flashBase + Config.flashBytes then .flash
  else if Config.privBase ≤ pa ∧ pa < Config.privBase + Config.privBytes then .priv
  else .none

/-- The stack and core whose column is the home of an HBM address (R194). -/
def homeCore (pa : Nat) : Nat := pa / Config.stackBytes * 16 + pa / 4096 % 16
/-- Where the home slice of an address lies (R194, R195): a core's column, a controller slice, or the read path of a flash stack. -/
inductive HomeSlice where
  | column (core : Nat)
  | controller (n : Nat)
  | flashStack (n : Nat)
deriving DecidableEq, Repr
/-- The home slice of a physical address; a device-private address names an HBM frame (R194). -/
def homeSlice (pa : Nat) : Option HomeSlice :=
  match tierOf pa with
  | .hbm => some (.column (homeCore pa))
  | .cap => some (.controller ((pa - Config.capBase) / 4096 % 16))
  | .flash => some (.flashStack ((pa - Config.flashBase) / 4096 % 8))
  | .priv => if pa - Config.privBase < Config.hbmBytes then some (.column (homeCore (pa - Config.privBase))) else none
  | .none => none
/-- Whether an address is a home line of a core's column (R195). -/
def isHome (core pa : Nat) : Bool := decide (pa < Config.hbmBytes) && homeCore pa = core

/-! ### Records of the module -/

/-- A core that nothing has touched since reset. -/
def coreZero : Core :=
  { pasid := 0, lastPasid := 0, tlb := [], l1 := [], col := [], locks := [], spad := [], spadPoison := [], units := 0, bars := [],
    acc := [], tokens := [], extents := [], scale := [], progs := [], latch := [], seq := [], drain := none,
    items := [], swaps := [], noSpare := false }
/-- Lifetime counters at zero. -/
def lifeZero : Life :=
  { corrected := 0, uncorrectable := 0, retries := 0, swaps := 0, deadLanes := 0, mismatches := 0, rollbacks := 0,
    degraded := 0, retired := 0, remapped := 0, storageWaits := 0 }
/-- A stack that nothing has touched since reset; the default pool is 2 GiB (R210). -/
def stackZero : Stack :=
  { tlb := [], walks := [], subs := [], tasks := [], trapQ := [], waitQ := [], fatal := [], pending := [],
    degraded := false, life := lifeZero, poolMib := 2048, lifeSegs := [] }

def coreOf (s : State) (c : Nat) : Core := tabGet coreZero s.cores c
def stackOf (s : State) (k : Nat) : Stack := tabGet stackZero s.stks k
def setCore (s : State) (c : Nat) (k : Core) : State := { s with cores := tabPut s.cores c k }
def modCore (s : State) (c : Nat) (f : Core → Core) : State := setCore s c (f (coreOf s c))
def setStack (s : State) (k : Nat) (x : Stack) : State := { s with stks := tabPut s.stks k x }
def modStack (s : State) (k : Nat) (f : Stack → Stack) : State := setStack s k (f (stackOf s k))
def setGroup (s : State) (g : Nat) (x : Group) : State := { s with groups := tabPut s.groups g x }
def modGroup (s : State) (g : Nat) (f : Group → Group) : State := { s with groups := tabMod s.groups g f }
def modTeam (s : State) (t : Nat) (f : Team → Team) : State := { s with teams := tabMod s.teams t f }
def modLaunch (s : State) (l : Nat) (f : Launch → Launch) : State := { s with launches := tabMod s.launches l f }
def modQueue (s : State) (q : Nat) (f : Queue → Queue) : State := { s with queues := tabMod s.queues q f }
def modCluster (s : State) (c : Nat) (f : Cluster → Cluster) : State :=
  { s with clusters := tabMod s.clusters c f }
/-- The stack of a core (R12). -/
def stackNo (core : Nat) : Nat := core / 16

/-! ### Segments of the flash tier -/

/-- The segment whose frames hold a physical address (R280). -/
def segAt (s : State) (pa : Nat) : Option (Nat × Segment) :=
  s.segments.find? (fun e => decide (e.2.pa ≤ pa) && decide (pa < e.2.pa + 2 ^ e.2.z))

/-- A byte of a segment's header (R281). -/
def segHeaderByte (g : Segment) (off : Nat) : Byte :=
  let field := fun (lo n : Nat) => if lo ≤ off ∧ off < lo + 4 then BitVec.ofNat 8 (n / 256 ^ (off - lo)) else 0
  let field8 := fun (lo n : Nat) => if lo ≤ off ∧ off < lo + 8 then BitVec.ofNat 8 (n / 256 ^ (off - lo)) else 0
  if off < 4 then field 0 g.state else if off < 8 then field 4 g.z else if off < 16 then field8 8 g.next
  else if off < 24 then field8 16 g.durable else if off < 32 then field8 24 g.tail
  else if off < 40 then field8 32 g.sealedLen else 0

/-- A byte as a load of the flash tier sees it (R282). -/
def flashByte (s : State) (pa : Nat) : Byte :=
  match segAt s pa with
  | some (_, g) =>
    let off := pa - g.pa
    if off < 128 then segHeaderByte g off
    else if g.state = 2 ∧ off < g.sealedLen then tabGet 0 g.bytes off else 0
  | none => memByte s.mem pa

/-- Where the bytes of a block of a lower tier lie: in the pool block of HBM while promoted (R210). -/
def redirect (s : State) (pa : Nat) : Nat :=
  match s.promoted.find? (fun e => e.1 = pa / 65536) with
  | some (_, h) => h * 65536 + pa % 65536
  | none => pa

/-- The device-private range names HBM frames (R194). -/
def privAlias (pa : Nat) : Nat := if tierOf pa = .priv then pa - Config.privBase else pa

/-- A byte at the home slice of an address. -/
def homeByte (s : State) (pa : Nat) : Byte :=
  if tierOf pa = .flash ∧ redirect s pa = pa then flashByte s pa else memByte s.mem (privAlias (redirect s pa))
/-- Write a byte at the home slice, which ends the reservations of harts on its granule (R387); flash is never written this way (R37). -/
def homePut (s : State) (pa : Nat) (v : Byte) : State :=
  if tierOf pa = .flash then s
  else { s with mem := memPut s.mem (privAlias (redirect s pa)) v, hartRes := s.hartRes.filter (fun e => decide (e.2 ≠ pa / 64)) }
/-- Whether the codeword of an address is poisoned (R374); every frame of a degraded stack reads as poison (R378). -/
def homePoison (s : State) (pa : Nat) : Bool :=
  let a := privAlias (redirect s pa)
  decide (a / 32 ∈ s.poison) || (decide (a < Config.hbmBytes) && (stackOf s (a / Config.stackBytes)).degraded)

/-- A word at the home slice. -/
def homeWord (s : State) (wa : Nat) : Word := BitVec.ofNat 32 (bytesNat (homeByte s) 4 (4 * wa))
/-- Write a word at the home slice. -/
def homeWordPut (s : State) (wa : Nat) (v : Word) : State :=
  let s := homePut s (4 * wa) (v.extractLsb' 0 8)
  let s := homePut s (4 * wa + 1) (v.extractLsb' 8 8)
  let s := homePut s (4 * wa + 2) (v.extractLsb' 16 8)
  homePut s (4 * wa + 3) (v.extractLsb' 24 8)
def homeNat (s : State) (n pa : Nat) : Nat := bytesNat (homeByte s) n pa
/-- Write `n` bytes at home slices. -/
def homeWrite : Nat → State → Nat → Nat → State
  | 0, s, _, _ => s
  | n + 1, s, a, x => homeWrite n (homePut s a (BitVec.ofNat 8 x)) (a + 1) (x / 256)

/-- A cache of the host die holds a line that has since been written at its home slice, whose snoop has not completed (R307). -/
def hostStale (s : State) : Bool := s.hostCache.any (fun e => decide (e.2 ≠ homeNat s 128 (128 * e.1)))
/-- A snoop removes a line from the caches of the host die (R307). -/
def snoopLine (s : State) (line : Nat) : State := { s with hostCache := tabDel s.hostCache line }

/-! ### Column caches and L1s, by word -/

/-- The cached word of a table at a word address. -/
def cfind (t : Tab CWord) (wa : Nat) : Option CWord := tabFind t wa
/-- Whether a cache holds a line: any of its words is valid. -/
def hasLine (t : Tab CWord) (line : Nat) : Bool := t.any (fun e => decide (e.1 / 32 = line))
/-- The lines that a cache holds. -/
def linesIn (t : Tab CWord) : List Nat := t.foldl (fun ls e => setIns ls (e.1 / 32)) []
/-- A line becomes the most recently used. -/
def touch (l : List Nat) (line : Nat) : List Nat := l.filter (fun x => decide (x ≠ line)) ++ [line]

/-- Remove the poison of a codeword that a clean write covers whole (R373). -/
def clearPoison (s : State) (cw : Nat) : State := { s with poison := setDel s.poison cw }
/-- The codeword of a physical address (R374). -/
def codeword (s : State) (pa : Nat) : Nat := privAlias (redirect s pa) / 32

/-- `n` bytes have been written clean from the places that `f` gives: the codewords that they cover whole lose their poison (R373). -/
def freshCodewords (s : State) (n : Nat) (f : Nat → Option Nat) : State :=
  (List.range (n / 32)).foldl (fun t i => match f (32 * i) with
    | some pa => if pa % 32 = 0 then clearPoison t (codeword t pa) else t
    | none => t) s

/-- A codeword of an address becomes poisoned (R371, R374). -/
def markPoison (s : State) (pa : Nat) : State := { s with poison := setIns s.poison (codeword s pa) }

/-- Write back every dirty word of one line of a core's column cache as one event (R197); a codeword all of whose
words are written clean loses its poison (R373), and one that a poisoned word reaches is poisoned (R371). -/
def writeBackLine (s : State) (c line : Nat) : State :=
  let dirty := fun (k : Core) (wa : Nat) => match cfind k.col wa with
    | some w => w.dirty && !w.poison
    | none => false
  let s := (List.range 4).foldl (fun s q =>
    if (List.range 8).all (fun i => dirty (coreOf s c) (line * 32 + q * 8 + i)) then
      clearPoison s (codeword s (line * 128 + q * 32))
    else s) s
  (List.range 32).foldl (fun s i =>
    let wa := line * 32 + i
    match cfind (coreOf s c).col wa with
    | some w =>
      if w.dirty then
        modCore (homeWordPut (if w.poison then markPoison s (4 * wa) else s) wa w.val) c (fun k => { k with col := tabPut k.col wa { w with dirty := false } })
      else s
    | none => s) s
/-- Evict one line: write back, then drop (R196). -/
def evictLine (s : State) (c line : Nat) : State :=
  modCore (writeBackLine s c line) c (fun k => { k with
    col := k.col.filter (fun e => e.1 / 32 ≠ line), homes := setDel k.homes line,
    colUse := k.colUse.filter (fun x => decide (x ≠ line)) })

/-- The sets of a column cache: what the scratchpad leaves of 16 MiB, in sets of 16 ways of 128 bytes (R13, R66, R227). -/
def colSets (k : Core) : Nat := 256 * (32 - k.units)
/-- A line that is never a victim: locked by `LKLN`, or pinned by the tile fetch unit (R196, R226, R255). -/
def lineHeld (k : Core) (line : Nat) : Bool :=
  k.locks.any (fun e => decide (e.1 = line) && decide (e.2 ≠ 0)) || k.pins.any (fun p => decide (p.1 = line))
/-- The lines that have a way of a column cache: remote lines with a valid word, home lines (R195), and locked lines, which stay
allocated where their words are invalidated (R224). -/
def colLines (k : Core) : List Nat := ((k.locks.filter (fun e => decide (e.2 ≠ 0))).map (fun e => e.1)).foldl setIns (k.homes.foldl setIns (linesIn k.col))
/-- The lines that a column cache holds in the set of a line. -/
def setLines (k : Core) (line : Nat) : List Nat := (colLines k).filter (fun x => x % colSets k = line % colSets k)
/-- The victim of a line's set: the least recently used line that is not held (R196). -/
def colVictim (k : Core) (line : Nat) : Option Nat :=
  (k.colUse ++ setLines k line).find? (fun x => decide (x ∈ setLines k line) && !lineHeld k x)
/-- A line that a column cache is about to hold becomes the most recently used of its set, and where it is not there and the set's
16 ways are taken, the victim leaves (R13, R196). DESIGN CHOICE: a home line takes a way where its own core's groups reach it
(log 102). -/
def colRoom (s : State) (c line : Nat) : State :=
  let k := coreOf s c
  let s := if decide (line ∈ setLines k line) || decide ((setLines k line).length < 16) then s
    else match colVictim k line with
      | some v => evictLine s c v
      | none => s
  modCore s c (fun k => { k with
    colUse := touch k.colUse line, homes := if isHome c (line * 128) then setIns k.homes line else k.homes })
/-- A line that a column cache reads becomes the most recently used (R196). -/
def colTouch (s : State) (c line : Nat) : State :=
  if isHome c (line * 128) then colRoom s c line else modCore s c (fun k => { k with colUse := touch k.colUse line })
/-- The least recently used lines leave the sets that hold more than their 16 ways, as a change of the split can leave them (R13,
R66, R227). -/
def colTrim (s : State) (c : Nat) : State :=
  (colLines (coreOf s c)).foldl (fun s x =>
    let k := coreOf s c
    if 16 < (setLines k x).length then
      match colVictim k x with
      | some v => evictLine s c v
      | none => s
    else s) s
/-- A line that an L1 is about to hold, or that it reads: its 256 KiB are 2,048 lines, of which the least recently used leaves
(R11, R196; log 76). -/
def l1Room (s : State) (c line : Nat) : State :=
  modCore s c (fun k =>
    let l1 := if hasLine k.l1 line || decide ((linesIn k.l1).length < 2048) then k.l1
      else match (k.l1Use ++ linesIn k.l1).find? (hasLine k.l1) with
        | some v => k.l1.filter (fun e => e.1 / 32 ≠ v)
        | none => k.l1
    { k with l1 := l1, l1Use := touch (k.l1Use.filter (fun x => hasLine l1 x)) line })

/-- A line read of a lower-tier block is counted by its controller; counts older than 2^20 clocks no longer matter (R210). -/
def noteRead (s : State) (c pa : Nat) : State :=
  if tierOf pa = .cap ∨ tierOf pa = .flash then
    modCore s c (fun k => { k with
      tierReads := k.tierReads.filter (fun e => decide (s.clock < e.2 + 2 ^ 20)) ++ [(pa / 65536, s.clock)] })
  else s
/-- Fill the words of a line that a column cache lacks, from the home slice (R197): a merging fill. -/
def colFill (s : State) (c line : Nat) : State :=
  if isHome c (line * 128) then colRoom s c line else
  (List.range 32).foldl (fun s i =>
    let wa := line * 32 + i
    match cfind (coreOf s c).col wa with
    | some _ => s
    | none =>
      modCore s c (fun k => { k with
        col := tabPut k.col wa { val := homeWord s wa, dirty := false, poison := homePoison s (4 * wa) } })) (colRoom (noteRead s c (line * 128)) c line)

/-- A word as the column cache of a core holds it after a fill: home lines are memory itself (R195). -/
def colWord (s : State) (c wa : Nat) : CWord :=
  if isHome c (4 * wa) then { val := homeWord s wa, dirty := false, poison := homePoison s (4 * wa) }
  else match cfind (coreOf s c).col wa with
    | some w => w
    | none => { val := homeWord s wa, dirty := false, poison := homePoison s (4 * wa) }

/-- Update a core's L1 where it holds the line (R198). -/
def l1Update (s : State) (c wa : Nat) (v : Word) (poison : Bool) : State :=
  if hasLine (coreOf s c).l1 (wa / 32) then
    modCore s c (fun k => { k with l1 := tabPut k.l1 wa { val := v, dirty := false, poison := poison } })
  else s

/-- Write a word in the column cache of a core: dirty there, or at the home slice for a home line; the L1 copy
follows (R196 to R198). `poison`: bytes that the write does not replace are poisoned (R371). -/
def colPut (s : State) (c wa : Nat) (v : Word) (poison : Bool) : State :=
  let s := colRoom s c (wa / 32)
  let s :=
    if isHome c (4 * wa) then homeWordPut s wa v
    else modCore s c (fun k => { k with col := tabPut k.col wa { val := v, dirty := true, poison := poison } })
  l1Update s c wa v (poison || (isHome c (4 * wa) && homePoison s (4 * wa)))

/-- A word with `n` bytes from byte `off` replaced by the low bytes of `x`. -/
def wordMerge (old : Word) (off n x : Nat) : Word :=
  let o := old.toNat
  let lo := o % 256 ^ off
  let hi := o / 256 ^ (off + n)
  BitVec.ofNat 32 (lo + 256 ^ off * (x % 256 ^ n) + 256 ^ (off + n) * hi)

/-- Update a copy that a cache holds of a line written at its home: the word is left valid and clean (R219), and poisoned where the
home slice still is (R371). -/
def copyMerge (t : Tab CWord) (wa off n x : Nat) (home : Word) (poison : Bool) : Tab CWord :=
  if hasLine t (wa / 32) then
    let old := match cfind t wa with
      | some w => w.val
      | none => home
    tabPut t wa { val := wordMerge old off n x, dirty := false, poison := poison }
  else t

/-- Write bytes of one word at the home slice and into the copies of the issuing core (R219). -/
def homeStoreWord (s : State) (c wa off n x : Nat) : State :=
  let s := homeWordPut s wa (wordMerge (homeWord s wa) off n x)
  let h := homeWord s wa
  let p := homePoison s (4 * wa)
  modCore s c (fun k => { k with col := copyMerge k.col wa off n x h p, l1 := copyMerge k.l1 wa off n x h p })

/-- The lines of a core's column cache that hold dirty words. -/
def dirtyLines (k : Core) : List Nat :=
  (k.col.filter (fun e => e.2.dirty)).foldl (fun ls e => setIns ls (e.1 / 32)) []

/-- The clean of a column cache: every dirty remote word goes to its home slice (R200). -/
def cleanCore (s : State) (c : Nat) : State := (dirtyLines (coreOf s c)).foldl (fun s l => writeBackLine s c l) s
/-- The invalidate of a core: remote clean words of the column cache and every line of the L1 (R200, R224). -/
def invalCore (s : State) (c : Nat) : State :=
  modCore s c (fun k => { k with col := k.col.filter (fun e => e.2.dirty), l1 := [] })

/-! ### Scratchpads -/

def spadByte (s : State) (c off : Nat) : Byte := tabGet 0 (coreOf s c).spad off
def spadPut (s : State) (c off : Nat) (v : Byte) : State := modCore s c (fun k => { k with spad := tabSet 0 k.spad off v })
def spadPoisoned (s : State) (c off : Nat) : Bool := off / 4 ∈ (coreOf s c).spadPoison
def spadNat (s : State) (c n off : Nat) : Nat := bytesNat (spadByte s c) n off
def spadBytes : Nat → State → Nat → Nat → Nat → State
  | 0, s, _, _, _ => s
  | n + 1, s, c, off, x => spadBytes n (spadPut s c off (BitVec.ofNat 8 x)) c (off + 1) (x / 256)
/-- The words that `n` bytes from an offset of a scratchpad cover whole lose their poison: a clean write clears it (R370, R371). -/
def spadFresh (s : State) (c off n : Nat) : State :=
  modCore s c (fun k => { k with spadPoison := k.spadPoison.filter (fun w => !(decide (off ≤ 4 * w) && decide (4 * w + 4 ≤ off + n))) })
/-- Write `n` bytes in a scratchpad, lowest first. -/
def spadWrite (n : Nat) (s : State) (c off x : Nat) : State := spadBytes n (spadFresh s c off n) c off x

end Sys2Proof.Machine
end

