-- ==== Sys2Proof/Machine/Num.lean ====
section
/-! DEFINITION. Number formats and their arithmetic, exactly and then rounded once (R132 to R143, R146, R183 to R186,
R190 to R192, R220, R265). -/
namespace Sys2Proof.Machine

/-! ### Sticky flags (R140) -/

def fInvalid : Byte := 0x01
def fDivZero : Byte := 0x02
def fOverflow : Byte := 0x04
def fUnderflow : Byte := 0x08
def fInexact : Byte := 0x10
def fRange : Byte := 0x20
def fSat : Byte := 0x40
def fScalePoison : Byte := 0x80

/-! ### Exact values -/

/-- A dyadic number (-1)^neg × m × 2^e; zero when `m` is zero, and then still signed. -/
structure Dyadic where
  neg : Bool
  m : Nat
  e : Int
deriving DecidableEq, Repr

/-- What the bits of a float denote (R133): a NaN with its signalling mark, an infinity, or a number. -/
inductive Val where
  | nan (sig : Bool)
  | inf (neg : Bool)
  | num (d : Dyadic)
deriving DecidableEq, Repr

/-- How a format ends at the top (R133). -/
inductive TopKind where
  | ieee | e4m3 | plain
deriving DecidableEq, Repr

/-- A float format: exponent width, fraction width, bias, top (R133). -/
structure Fmt where
  ew : Nat
  mw : Nat
  bias : Nat
  top : TopKind
deriving DecidableEq, Repr

def fmtF32 : Fmt := { ew := 8, mw := 23, bias := 127, top := .ieee }
def fmtBf16 : Fmt := { ew := 8, mw := 7, bias := 127, top := .ieee }
def fmtF16 : Fmt := { ew := 5, mw := 10, bias := 15, top := .ieee }
def fmtE4m3 : Fmt := { ew := 4, mw := 3, bias := 7, top := .e4m3 }
def fmtE5m2 : Fmt := { ew := 5, mw := 2, bias := 15, top := .ieee }
def fmtE2m1 : Fmt := { ew := 2, mw := 1, bias := 1, top := .plain }

/-- The magnitude code of the largest finite value (R133). -/
def maxCode (f : Fmt) : Nat :=
  match f.top with
  | .ieee => (2 ^ f.ew - 1) * 2 ^ f.mw - 1
  | .e4m3 => 2 ^ (f.ew + f.mw) - 2
  | .plain => 2 ^ (f.ew + f.mw) - 1
/-- The sign bit's weight. -/
def signBit (f : Fmt) : Nat := 2 ^ (f.ew + f.mw)
/-- The code of positive infinity of an IEEE-shaped format. -/
def infCode (f : Fmt) : Nat := (2 ^ f.ew - 1) * 2 ^ f.mw
/-- The canonical NaN (R133). -/
def nanCode (f : Fmt) : Nat :=
  match f.top with
  | .ieee => infCode f + 2 ^ (f.mw - 1)
  | .e4m3 => 2 ^ (f.ew + f.mw) - 1
  | .plain => 0
/-- The exponent of the unit of the smallest subnormal. -/
def minExp (f : Fmt) : Int := 1 - (f.bias : Int) - (f.mw : Int)

/-- The value of the low bits of a code in a format (R133). The NaNs of E4M3 and E5M2 are quiet. -/
def valOf (f : Fmt) (x : Nat) : Val :=
  let neg := decide (x / signBit f % 2 = 1)
  let c := x % signBit f
  let ex := c / 2 ^ f.mw
  let fr := c % 2 ^ f.mw
  if f.top = .ieee ∧ ex = 2 ^ f.ew - 1 then
    if fr = 0 then .inf neg else .nan (decide (fr < 2 ^ (f.mw - 1)) && decide (f ≠ fmtE5m2))
  else if f.top = .e4m3 ∧ c = 2 ^ (f.ew + f.mw) - 1 then .nan false
  else if ex = 0 then .num { neg := neg, m := fr, e := minExp f }
  else .num { neg := neg, m := fr + 2 ^ f.mw, e := minExp f + (ex : Int) - 1 }

/-! ### Rounding (R136, R137) -/

/-- A magnitude with a mark that a positive remainder below one unit was dropped. -/
structure Mag where
  m : Nat
  e : Int
  sticky : Bool
deriving DecidableEq, Repr

/-- Whether rounding moves the magnitude up: mode, sign, oddness, comparison of the remainder with a half
(`rem` twice the remainder against `unit`), and whether anything was dropped. -/
def roundUp (md : Rnd) (neg odd : Bool) (rem2 unit : Nat) (sticky : Bool) : Bool :=
  let some_ := decide (0 < rem2) || sticky
  match md with
  | .rne => decide (unit < rem2) || (rem2 = unit && (sticky || odd))
  | .rz => false
  | .rp => !neg && some_
  | .rm => neg && some_

/-- A magnitude rounded to an integer multiple of 2^`se`: the multiple, and whether the value changed. -/
def roundAt (md : Rnd) (neg : Bool) (x : Mag) (se : Int) : Nat × Bool :=
  if x.e < se then
    let k := (se - x.e).toNat
    let q := x.m / 2 ^ k
    let r := x.m % 2 ^ k
    let up := roundUp md neg (q % 2 = 1) (2 * r) (2 ^ k) x.sticky
    (if up then q + 1 else q, decide (0 < r) || x.sticky)
  else
    let q := x.m * 2 ^ (x.e - se).toNat
    let up := roundUp md neg (q % 2 = 1) 0 1 x.sticky
    (if up then q + 1 else q, x.sticky)

/-- The outcome of `RoundTo` before an overflow is resolved: magnitude code, overflow, inexact, tiny. -/
structure Rounded where
  code : Nat
  ovf : Bool
  inexact : Bool
  tiny : Bool
deriving DecidableEq, Repr

/-- Rounding a magnitude to a format with the exponent range unbounded below (R136). -/
def roundMag (f : Fmt) (md : Rnd) (neg : Bool) (x : Mag) : Rounded :=
  if x.m = 0 ∧ !x.sticky then { code := 0, ovf := false, inexact := false, tiny := false }
  else
    let top : Int := x.e + (Nat.log2 x.m : Int)
    let lowest := minExp f
    let se := if x.m = 0 then lowest else max (top - (f.mw : Int)) lowest
    let (q, ix) := roundAt md neg x se
    let code := (se - lowest).toNat * 2 ^ f.mw + q
    { code := code, ovf := decide (maxCode f < code), inexact := ix,
      tiny := x.m = 0 || decide (top < 1 - (f.bias : Int)) }

/-- Whether an overflow under a mode gives an infinity (R137). -/
def overInf (md : Rnd) (neg : Bool) : Bool :=
  match md with
  | .rne => true
  | .rz => false
  | .rp => !neg
  | .rm => neg

/-- The flags of a rounding (R137). -/
def roundFlags (r : Rounded) : Byte :=
  if r.ovf then fOverflow ||| fInexact
  else (if r.inexact then fInexact else 0) ||| (if r.inexact && r.tiny then fUnderflow else 0)

/-- A code with its sign. -/
def withSign (f : Fmt) (neg : Bool) (c : Nat) : Nat := if neg then c + signBit f else c

/-- `RoundTo` into an IEEE-shaped format with overflow resolved (R136, R137): code and flags. -/
def roundTo (f : Fmt) (md : Rnd) (neg : Bool) (x : Mag) : Nat × Byte :=
  let r := roundMag f md neg x
  (withSign f neg (if r.ovf then (if overInf md neg then infCode f else maxCode f) else r.code), roundFlags r)

/-- A dyadic as a magnitude. -/
def magOf (d : Dyadic) : Mag := { m := d.m, e := d.e, sticky := false }

/-- A value written to an IEEE-shaped format: NaNs canonical, numbers rounded (R136, R139). -/
def writeVal (f : Fmt) (md : Rnd) (v : Val) : Nat × Byte :=
  match v with
  | .nan _ => (nanCode f, 0)
  | .inf n => (withSign f n (infCode f), 0)
  | .num d => roundTo f md d.neg (magOf d)

/-! ### Exact operations -/

/-- The signed integer of a dyadic in units of 2^`e`, for `e` at most its exponent. -/
def dyInt (d : Dyadic) (e : Int) : Int :=
  let n : Int := (d.m * 2 ^ (d.e - e).toNat : Nat)
  if d.neg then -n else n

/-- The exact sum, with the sign of a zero as R136 states. -/
def dySum (md : Rnd) (a b : Dyadic) : Dyadic :=
  let e := min a.e b.e
  let n := dyInt a e + dyInt b e
  if n = 0 then
    if a.m = 0 ∧ b.m = 0 ∧ a.neg = b.neg then { neg := a.neg, m := 0, e := e }
    else { neg := md = .rm, m := 0, e := e }
  else { neg := decide (n < 0), m := n.natAbs, e := e }

def dyMul (a b : Dyadic) : Dyadic := { neg := a.neg != b.neg, m := a.m * b.m, e := a.e + b.e }

/-- Negate a value's sign. -/
def valNeg : Val → Val
  | .nan s => .nan s
  | .inf n => .inf (!n)
  | .num d => .num { d with neg := !d.neg }

/-- Invalid from a signalling operand (R139). -/
def sigFlag : Val → Byte
  | .nan true => fInvalid
  | _ => 0

/-- The sum of two values, with the flag of ∞ − ∞ and of signalling operands (R139). -/
def valAdd (md : Rnd) (a b : Val) : Val × Byte :=
  let sg := sigFlag a ||| sigFlag b
  match a, b with
  | .nan _, _ => (.nan false, sg)
  | _, .nan _ => (.nan false, sg)
  | .inf x, .inf y => if x = y then (.inf x, sg) else (.nan false, sg ||| fInvalid)
  | .inf x, .num _ => (.inf x, sg)
  | .num _, .inf y => (.inf y, sg)
  | .num x, .num y => (.num (dySum md x y), sg)

/-- The product of two values; 0 × ∞ is invalid (R139). -/
def valMul (a b : Val) : Val × Byte :=
  let sg := sigFlag a ||| sigFlag b
  match a, b with
  | .nan _, _ => (.nan false, sg)
  | _, .nan _ => (.nan false, sg)
  | .inf x, .inf y => (.inf (x != y), sg)
  | .inf x, .num d => if d.m = 0 then (.nan false, sg ||| fInvalid) else (.inf (x != d.neg), sg)
  | .num d, .inf y => if d.m = 0 then (.nan false, sg ||| fInvalid) else (.inf (y != d.neg), sg)
  | .num x, .num y => (.num (dyMul x y), sg)

/-- a × b + c, formed exactly; 0 × ∞ is invalid even when `c` is a NaN (R185). -/
def valFma (md : Rnd) (a b c : Val) : Val × Byte :=
  let p := valMul a b
  let q := valAdd md p.1 c
  (q.1, p.2 ||| q.2)

/-- Order of two numbers: −1, 0 or 1, zeros equal. -/
def dyCmp (a b : Dyadic) : Int :=
  let e := min a.e b.e
  let x := dyInt a e
  let y := dyInt b e
  if x < y then -1 else if x = y then 0 else 1

/-- Order of two values that are not NaN. -/
def valCmp (a b : Val) : Int :=
  match a, b with
  | .num x, .num y => dyCmp x y
  | .inf x, .inf y => if x = y then 0 else if x then -1 else 1
  | .inf x, _ => if x then -1 else 1
  | _, .inf y => if y then 1 else -1
  | _, _ => 0

def valNan : Val → Bool
  | .nan _ => true
  | _ => false
def valZero : Val → Bool
  | .num d => d.m = 0
  | _ => false
def valSign : Val → Bool
  | .nan _ => false
  | .inf n => n
  | .num d => d.neg

/-- The lesser value, −0 below +0; one NaN yields the other operand (R139, R185). -/
def valMin (a b : Val) : Val × Byte :=
  let sg := sigFlag a ||| sigFlag b
  if valNan a then (if valNan b then .nan false else b, sg)
  else if valNan b then (a, sg)
  else
    let c := valCmp a b
    (if c < 0 then a else if 0 < c then b else if valSign a then a else b, sg)
/-- The greater value, +0 above −0. -/
def valMax (a b : Val) : Val × Byte :=
  let sg := sigFlag a ||| sigFlag b
  if valNan a then (if valNan b then .nan false else b, sg)
  else if valNan b then (a, sg)
  else
    let c := valCmp a b
    (if 0 < c then a else if c < 0 then b else if valSign a then b else a, sg)

/-- A comparison, with the flag of an ordered comparison of a NaN (R139). -/
def valTest (cc : FCond) (a b : Val) : Bool × Byte :=
  let nan := valNan a || valNan b
  let c := valCmp a b
  let sg := sigFlag a ||| sigFlag b
  let ord := sg ||| (if nan then fInvalid else 0)
  match cc with
  | .eq => (!nan && c = 0, sg)
  | .ne => (nan || c ≠ 0, sg)
  | .lt => (!nan && decide (c < 0), ord)
  | .le => (!nan && decide (c ≤ 0), ord)
  | .gt => (!nan && decide (0 < c), ord)
  | .ge => (!nan && decide (0 ≤ c), ord)
  | .un => (nan, sg)
  | .or => (!nan, sg)

/-- The quotient of two magnitudes with sticky remainder, to at least `bits` significant bits. -/
def magDiv (bits : Nat) (a b : Dyadic) : Mag :=
  let k := bits + Nat.log2 b.m + 1
  { m := a.m * 2 ^ k / b.m, e := a.e - b.e - (k : Int), sticky := decide (a.m * 2 ^ k % b.m ≠ 0) }

/-- Integer square root of `n` by bits, from bit `k` downward with root so far `r`. -/
def isqrtAux (n : Nat) : Nat → Nat → Nat
  | 0, r => if (r + 1) * (r + 1) ≤ n then r + 1 else r
  | k + 1, r => isqrtAux n k (if (r + 2 ^ (k + 1)) * (r + 2 ^ (k + 1)) ≤ n then r + 2 ^ (k + 1) else r)
/-- The integer square root. -/
def isqrt (n : Nat) : Nat := isqrtAux n (Nat.log2 n / 2 + 1) 0

/-- The square root of a magnitude with sticky remainder, to at least `bits` significant bits. -/
def magSqrt (bits : Nat) (d : Dyadic) : Mag :=
  let k := 2 * bits + (if (d.e - 2 * (bits : Int)) % 2 = 0 then 0 else 1)
  let n := d.m * 2 ^ k
  let r := isqrt n
  { m := r, e := (d.e - (k : Int)) / 2, sticky := decide (r * r ≠ n) }

/-! ### FP32 with flush (R138, R181) -/

def f32Sub (x : Nat) : Bool := decide (x / 2 ^ 23 % 256 = 0) && decide (x % 2 ^ 23 ≠ 0)

/-- `ReadF32` under a flush mode (R181). -/
def readF32 (flush : Bool) (x : Word) : Val :=
  if flush && f32Sub x.toNat then .num { neg := x.getLsbD 31, m := 0, e := 0 } else valOf fmtF32 x.toNat

/-- The flushed form of an FP32 result (R138). -/
def flushOut (flush : Bool) (r : Nat × Byte) : Word × Byte :=
  if flush && f32Sub r.1 then
    (BitVec.ofNat 32 (r.1 / 2 ^ 31 * 2 ^ 31), r.2 ||| fUnderflow ||| fInexact)
  else (BitVec.ofNat 32 r.1, r.2)

/-- `WriteF32` (R181). -/
def writeF32 (flush : Bool) (md : Rnd) (v : Val × Byte) : Word × Byte :=
  let r := flushOut flush (writeVal fmtF32 md v.1)
  (r.1, r.2 ||| v.2)
/-- `WriteF32` of a magnitude with sticky remainder. -/
def writeMag (flush : Bool) (md : Rnd) (neg : Bool) (x : Mag) (fl : Byte) : Word × Byte :=
  let r := flushOut flush (roundTo fmtF32 md neg x)
  (r.1, r.2 ||| fl)
def nanF32 : Word := 0x7FC00000

def f32Add (fl : Bool) (md : Rnd) (a b : Word) : Word × Byte :=
  writeF32 fl md (valAdd md (readF32 fl a) (readF32 fl b))
def f32Sub2 (fl : Bool) (md : Rnd) (a b : Word) : Word × Byte :=
  writeF32 fl md (valAdd md (readF32 fl a) (valNeg (readF32 fl b)))
def f32Mul (fl : Bool) (md : Rnd) (a b : Word) : Word × Byte :=
  writeF32 fl md (valMul (readF32 fl a) (readF32 fl b))
def f32Fma (fl : Bool) (md : Rnd) (a b c : Word) : Word × Byte :=
  writeF32 fl md (valFma md (readF32 fl a) (readF32 fl b) (readF32 fl c))
/-- `FMIN`, `FMAX`: the operand as read, never rounded (R185). -/
def f32Min (fl : Bool) (a b : Word) : Word × Byte :=
  let v := valMin (readF32 fl a) (readF32 fl b)
  (BitVec.ofNat 32 (writeVal fmtF32 .rne v.1).1, v.2)
def f32Max (fl : Bool) (a b : Word) : Word × Byte :=
  let v := valMax (readF32 fl a) (readF32 fl b)
  (BitVec.ofNat 32 (writeVal fmtF32 .rne v.1).1, v.2)

/-- `FCLASS` (R185). -/
def f32Class (x : Word) : Word :=
  match valOf fmtF32 x.toNat with
  | .nan true => 0x100
  | .nan false => 0x200
  | .inf n => if n then 0x001 else 0x080
  | .num d =>
    if d.m = 0 then (if d.neg then 0x008 else 0x010)
    else if f32Sub x.toNat then (if d.neg then 0x004 else 0x020)
    else (if d.neg then 0x002 else 0x040)

/-- `FSCALE`: a × 2^n (R185). The exponent is confined to where the result no longer changes. -/
def f32Scale (fl : Bool) (md : Rnd) (a : Word) (n : Int) : Word × Byte :=
  let v := readF32 fl a
  let n := max (-1000) (min 1000 n)
  match v with
  | .num d => writeF32 fl md (.num { d with e := d.e + n }, 0)
  | _ => writeF32 fl md (v, sigFlag v)

/-- `FRND`: the integer chosen by the mode (R185). -/
def f32Rnd (fl : Bool) (md : Rnd) (a : Word) : Word × Byte :=
  let v := readF32 fl a
  match v with
  | .num d =>
    if 0 ≤ d.e then (BitVec.ofNat 32 (writeVal fmtF32 .rne v).1, 0)
    else
      let r := roundAt md d.neg (magOf d) 0
      (BitVec.ofNat 32 (writeVal fmtF32 .rne (.num { neg := d.neg, m := r.1, e := 0 })).1,
        if r.2 then fInexact else 0)
  | _ => writeF32 fl md (v, sigFlag v)

/-- `FDIV` (R139, R144, R185). -/
def f32Div (fl : Bool) (md : Rnd) (a b : Word) : Word × Byte :=
  let x := readF32 fl a
  let y := readF32 fl b
  let sg := sigFlag x ||| sigFlag y
  match x, y with
  | .nan _, _ => (nanF32, sg)
  | _, .nan _ => (nanF32, sg)
  | .inf _, .inf _ => (nanF32, sg ||| fInvalid)
  | .inf n, .num d => writeF32 fl md (.inf (n != d.neg), sg)
  | .num d, .inf n => writeF32 fl md (.num { neg := d.neg != n, m := 0, e := 0 }, sg)
  | .num d, .num k =>
    if k.m = 0 then
      if d.m = 0 then (nanF32, sg ||| fInvalid) else writeF32 fl md (.inf (d.neg != k.neg), sg ||| fDivZero)
    else writeMag fl md (d.neg != k.neg) (magDiv 40 d k) sg

/-- `FSQRT` (R139, R144, R185). -/
def f32Sqrt (fl : Bool) (md : Rnd) (a : Word) : Word × Byte :=
  let x := readF32 fl a
  match x with
  | .nan _ => (nanF32, sigFlag x)
  | .inf n => if n then (nanF32, fInvalid) else writeF32 fl md (x, 0)
  | .num d =>
    if d.m = 0 then writeF32 fl md (x, 0)
    else if d.neg then (nanF32, fInvalid)
    else writeMag fl md false (magSqrt 40 d) 0

/-- `AtomF32` (R220). -/
def atomF32 (old d : Word) : Word × Byte := f32Add false .rne old d

/-! ### Packed 16-bit (R190) -/

/-- Apply a value operation to both halves in a 16-bit format. -/
def half2 (f : Fmt) (md : Rnd) (op : Val → Val → Val → Val × Byte) (a b c : Word) : Word × Byte :=
  let one := fun (k : Nat) =>
    let v := op (valOf f ((a.extractLsb' k 16).toNat)) (valOf f ((b.extractLsb' k 16).toNat))
      (valOf f ((c.extractLsb' k 16).toNat))
    let r := writeVal f md v.1
    (BitVec.ofNat 16 r.1, r.2 ||| v.2)
  let lo := one 0
  let hi := one 16
  (hi.1 ++ lo.1, lo.2 ||| hi.2)

/-! ### Conversions (R142, R143, R192) -/

/-- Width and signedness of an integer element type, or its float format. -/
def elInt : ElemTy → Option (Nat × Bool)
  | .s8 => some (8, true) | .z8 => some (8, false) | .s16 => some (16, true) | .z16 => some (16, false)
  | .s32 => some (32, true) | .z32 => some (32, false) | .s64 => some (64, true) | .z64 => some (64, false)
  | _ => none
def elFmt : ElemTy → Fmt
  | .f32 => fmtF32 | .bf16 => fmtBf16 | .f16 => fmtF16 | .e4m3 => fmtE4m3 | .e5m2 => fmtE5m2 | _ => fmtE2m1
/-- Bits of an element type (R27). -/
def elBits : ElemTy → Nat
  | .s8 | .z8 | .e4m3 | .e5m2 => 8
  | .s16 | .z16 | .bf16 | .f16 => 16
  | .s32 | .z32 | .f32 => 32
  | .s64 | .z64 => 64
  | .e2m1 => 4

/-- The value of an integer in `w` bits (R132). -/
def intVal (w : Nat) (sgn : Bool) (x : Nat) : Int :=
  let y := x % 2 ^ w
  if sgn && decide (2 ^ (w - 1) ≤ y) then (y : Int) - 2 ^ w else y
/-- Range limits (R132). -/
def intMin (w : Nat) (sgn : Bool) : Int := if sgn then -(2 ^ (w - 1)) else 0
def intMax (w : Nat) (sgn : Bool) : Int := if sgn then 2 ^ (w - 1) - 1 else 2 ^ w - 1
/-- A number modulo 2^w. -/
def intMod (w : Nat) (x : Int) : Nat := (x % (2 ^ w : Int)).toNat
/-- Clamp to the range of a type: bits, and whether it clamped. -/
def intClamp (w : Nat) (sgn : Bool) (x : Int) : Nat × Bool :=
  if x < intMin w sgn then (intMod w (intMin w sgn), true)
  else if intMax w sgn < x then (intMod w (intMax w sgn), true)
  else (intMod w x, false)

/-- A float value to a float format, with the out-of-range cases of R142; `widen`: every source value fits. -/
def cvtFF (f : Fmt) (md : Rnd) (sat : Bool) (v : Val) : Nat × Byte :=
  match v with
  | .nan sg =>
    if f = fmtE4m3 ∨ f = fmtE5m2 ∨ f = fmtE2m1 then (nanCode f, fInvalid)
    else (nanCode f, if sg then fInvalid else 0)
  | .inf n =>
    if f = fmtE2m1 then (withSign f n (maxCode f), fSat)
    else if f = fmtE4m3 then (if sat then (withSign f n (maxCode f), fSat) else (nanCode f, fInvalid))
    else if f = fmtE5m2 then (if sat then (withSign f n (maxCode f), fSat) else (withSign f n (infCode f), 0))
    else (withSign f n (infCode f), 0)
  | .num d =>
    let r := roundMag f md d.neg (magOf d)
    if r.ovf then
      if f = fmtE2m1 ∨ (sat ∧ (f = fmtE4m3 ∨ f = fmtE5m2)) then
        (withSign f d.neg (maxCode f), fSat ||| fInexact)
      else if f = fmtE4m3 then
        (if overInf md d.neg then nanCode f else withSign f d.neg (maxCode f), fOverflow ||| fInexact)
      else
        (withSign f d.neg (if overInf md d.neg then infCode f else maxCode f), fOverflow ||| fInexact)
    else (withSign f d.neg r.code, roundFlags r)

/-- A float value to an integer type (R143). -/
def cvtFI (w : Nat) (sgn : Bool) (md : Rnd) (v : Val) : Nat × Byte :=
  match v with
  | .nan _ => (0, fInvalid)
  | .inf n => (intMod w (if n then intMin w sgn else intMax w sgn), fInvalid)
  | .num d =>
    let r := roundAt md d.neg (magOf d) 0
    let x : Int := if d.neg then -(r.1 : Int) else r.1
    let c := intClamp w sgn x
    if c.2 then (c.1, fInvalid) else (c.1, if r.2 then fInexact else 0)

/-- `CVT` of the low bits of an operand (R191, R192): result and flags. -/
def cvtEl (flush : Bool) (md : Rnd) (sat : Bool) (dt sy : ElemTy) (x : Nat) : Nat × Byte :=
  match elInt sy, elInt dt with
  | some (ws, ss), some (wd, sd) =>
    let v := intVal ws ss x
    if sat then
      let c := intClamp wd sd v
      (c.1, if c.2 then fSat else 0)
    else (intMod wd v, 0)
  | some (ws, ss), none =>
    let v := intVal ws ss x
    let r := cvtFF (elFmt dt) md sat (.num { neg := decide (v < 0), m := v.natAbs, e := 0 })
    if dt = .f32 then let o := flushOut flush r; (o.1.toNat, o.2) else r
  | none, some (wd, sd) =>
    let v := if sy = .f32 then readF32 flush (BitVec.ofNat 32 x) else valOf (elFmt sy) x
    cvtFI wd sd md v
  | none, none =>
    let v := if sy = .f32 then readF32 flush (BitVec.ofNat 32 x) else valOf (elFmt sy) x
    let r := cvtFF (elFmt dt) md sat v
    if dt = .f32 then let o := flushOut flush r; (o.1.toNat, o.2) else r

/-! ### Block scales and accumulation (R135, R146, R147) -/

/-- The value of a block scale byte, or none for a NaN scale (R135). -/
def scaleOf (b : Byte) : Option Dyadic :=
  if b.getLsbD 7 || b = 0x7F then none
  else match valOf fmtE4m3 b.toNat with
    | .num d => some d
    | _ => none

/-- Rounding to FP32 by `rne` without flush. -/
def rneF32 (v : Val × Byte) : Word × Byte := writeF32 false .rne v

end Sys2Proof.Machine
end

