-- ==== Sys2Proof/Machine/Ops.lean ====
section
/-! DEFINITION. The shared operations of the machine: groups and paths, registers and their early and late views,
requests with their counters and flags, translation, taking a trap, and returning from a handler. -/
namespace Sys2Proof.Machine

/-- What a meaning answers. -/
abbrev Out := Host.Outcome State Fault Refusal

/-! ### CRC-32C (R283, R365) -/

/-- One bit step of CRC-32C, reflected. -/
def crcBit (c : Word) : Word := if c.getLsbD 0 then (c >>> 1) ^^^ 0x82F63B78 else c >>> 1
/-- One byte of CRC-32C. -/
def crcByte (c : Word) (b : Byte) : Word :=
  let x := c ^^^ b.setWidth 32
  crcBit (crcBit (crcBit (crcBit (crcBit (crcBit (crcBit (crcBit x)))))))
def crcBytes (c : Word) (bs : List Byte) : Word := bs.foldl crcByte c
/-- `Crc(x)` over the little-endian bytes of a word (R365). -/
def crcOf (n x : Nat) : Word := ~~~ crcBytes 0xFFFFFFFF (leBytes n x)
/-- `Lin(m)` of a mask (R365). -/
def linMask (m : Mask) : Word := crcBytes 0 (leBytes 12 m.toNat)

/-! ### Masks -/

def maskLanes (m : Mask) : List Nat := (List.range 96).filter (fun l => m.getLsbD l)
def maskOf (ls : List Nat) : Mask := ls.foldl (fun m l => m ||| (1#96 <<< l)) 0
def maskCount (m : Mask) : Nat := (maskLanes m).length
def laneBit (l : Nat) : Mask := 1#96 <<< l
/-- Bits [32i + 31 : 32i] of a mask. -/
def maskPart (m : Mask) (i : Nat) : Word := m.extractLsb' (32 * i) 32
/-- The mask with part `i` replaced. -/
def maskSetPart (m : Mask) (i : Nat) (v : Word) : Mask :=
  (m &&& ~~~ ((0xFFFFFFFF#96) <<< (32 * i))) ||| ((v.setWidth 96) <<< (32 * i))

/-! ### Defaults of records -/

def kernZero : Kernel :=
  { scalarEntry := 0, laneEntry := 0, trapOff := none, regs := 0, groups := 0, width := 0, height := 0,
    teamsPerCore := 0, flags := 0, spad := 0, args := 0, ib := 0, ejth := 0, preload := 0, snapBytes := 0,
    drainOff := 0, liveOff := 0, liveCount := 0, sigOff := 0, scalarBase := 0, scalarSize := 0, laneBase := 0,
    laneSize := 0, drainBase := 0, drainSize := 0, layoutBase := 0, layoutSize := 0, liveBase := 0, liveSize := 0,
    sigBase := 0, sigSize := 0 }

def slotZero : RjSlot := { rjm := 0, returned := 0, rtags := 0, rspc := 0, rlpc := 0, timer := 0 }

/-- The path with which a group starts: all its lanes, an empty queue (R70, R116). -/
def pathNew (id : Nat) (spc lpc : Word) (m : Mask) : Path :=
  { id := id, spc := spc, lpc := lpc, running := false, queue := [], mask := m, owned := m, tags := 0, stack := [],
    hungry := 0, done := 0, cychi := none, sig := 0, hold := .free, tPrev := 0, idle := 0, age := 0,
    recalled := false, missS := false, missL := false }

/-- A group at launch (R70): every field zero but the entries, the mask, `ejth` and `rjto`; no flag is set
and none has an owner. Its ages are given where it takes its place (log 110). -/
def groupNew (team idx core part place : Nat) (spc lpc ejth : Word) : Group :=
  { team := team, idx := idx, core := core, part := part, place := place, resident := true, retired := false,
    sreg := [], spoison := [], vreg := [], vpoison := [], pred := [], flags := 0, owner := [], outq := [],
    reqs := [], pend := [], lines := 0, ejth := ejth, rjto := 65536, role := 0, gang := 0, fpflags := 0, dead := 0,
    tcause := 0, tval0 := 0, tval1 := 0, tspc := 0, tlpc := 0, handler := none, due := [],
    paths := [pathNew 0 spc lpc (BitVec.allOnes 96)], slots := [slotZero, slotZero, slotZero, slotZero],
    recalls := [], ncpyc := 0, arrivals := [], target := none, appends := [], walked := none, susp := .run,
    garnet := none, age := 0, pausedAt := 0 }

/-! ### Groups and paths -/

def findPath (g : Group) (p : Nat) : Option Path := g.paths.find? (fun q => q.id = p)
/-- The group with one path replaced. -/
def putPath (g : Group) (p : Path) : Group :=
  { g with paths := g.paths.map (fun q => if q.id = p.id then p else q) }
def delPath (g : Group) (p : Nat) : Group := { g with paths := g.paths.filter (fun q => q.id ≠ p) }

/-- Run `f` on the group and path whose instruction is executed; without one nothing happens. -/
def onPath (s : State) (f : Group → Path → Out) : Out :=
  match tabFind s.groups s.cur with
  | none => .next s
  | some g =>
    match findPath g s.curPath with
    | none => .next s
    | some p => f g p

/-- Store the group and path back. -/
def keep (s : State) (g : Group) (p : Path) : State := setGroup s s.cur (putPath g p)

def teamOf (s : State) (g : Group) : Option Team := tabFind s.teams g.team
def clusterOf (s : State) (g : Group) : Option Cluster := (teamOf s g).bind (fun t => tabFind s.clusters t.cluster)
def launchNo (s : State) (g : Group) : Option Nat := (clusterOf s g).map (fun c => c.launch)
def launchOf (s : State) (g : Group) : Option Launch := (launchNo s g).bind (tabFind s.launches)
def kernOf (s : State) (g : Group) : Kernel := ((launchOf s g).map (fun l => l.kern)).getD kernZero
def pasidOf (s : State) (g : Group) : Nat := ((launchOf s g).map (fun l => l.pasid)).getD 0
/-- The group's cluster is being pre-empted or is out (R351, R358). -/
def outOf (s : State) (g : Group) : Bool :=
  match clusterOf s g with
  | some c => c.state ≠ .resident
  | none => true
/-- FP32 flush of the kernel (R138). -/
def flushOf (k : Kernel) : Bool := k.flags.getLsbD 0
/-- `SIGCHK` checking of the kernel (R24). -/
def sigOn (k : Kernel) : Bool := k.flags.getLsbD 4
/-- The number of teams of a cluster (R25). -/
def teamsOf (k : Kernel) : Nat := k.width * k.height * k.teamsPerCore
/-- Teams of the cluster whose cores number more than one and are not fused (R68, R200). -/
def spread (k : Kernel) : Bool := decide (1 < k.width * k.height) && !k.flags.getLsbD 1
def fusedK (k : Kernel) : Bool := decide (1 < k.width * k.height) && k.flags.getLsbD 1

/-- The core at rectangle position `q` of a cluster (R12, R68). -/
def coreAt (x y : Nat) : Nat := (8 * (y / 4) + x / 4) * 16 + 4 * (y % 4) + x % 4
def coreX (c : Nat) : Nat := 4 * (c / 16 % 8) + c % 4
def coreY (c : Nat) : Nat := 4 * (c / 16 / 8) + c % 16 / 4
def clusterCore (k : Kernel) (cl : Cluster) (q : Nat) : Nat := coreAt (cl.ox + q % k.width) (cl.oy + q / k.width)
def clusterCores (k : Kernel) (cl : Cluster) : List Nat := (List.range (k.width * k.height)).map (clusterCore k cl)

/-- The core whose column cache serves a line for a group: its own, or core *q* of a fused cluster (R199). -/
def serveCore (s : State) (g : Group) (pa : Nat) : Nat :=
  let k := kernOf s g
  if fusedK k then
    match clusterOf s g with
    | some cl => clusterCore k cl (pa / 128 % (k.width * k.height))
    | none => g.core
  else g.core

/-! ### Scalar registers (R74, R149, R150) -/

/-- A scalar register as a path reads it; `s61` to `s63` are the path's mask, where lanes that it does not own read zero (R150). -/
def sRead (g : Group) (p : Path) (r : SReg) : Word :=
  if r.toNat < 61 then tabGet 0 g.sreg r.toNat else maskPart (p.mask &&& p.owned) (r.toNat - 61)
/-- Write a scalar register: a write to the mask changes only lanes that the path owns (R150). -/
def sWrite (gp : Group × Path) (r : SReg) (v : Word) : Group × Path :=
  if r.toNat < 61 then
    ({ gp.1 with sreg := tabSet 0 gp.1.sreg r.toNat v, spoison := setDel gp.1.spoison r.toNat }, gp.2)
  else
    let m := maskSetPart gp.2.mask (r.toNat - 61) v
    (gp.1, { gp.2 with mask := (m &&& gp.2.owned) ||| (gp.2.mask &&& ~~~ gp.2.owned) })
/-- A register pair (R6). -/
def sPair (g : Group) (p : Path) (r : SReg) : Dword := sRead g p (r + 1) ++ sRead g p r
def sWritePair (gp : Group × Path) (r : SReg) (v : Dword) : Group × Path :=
  sWrite (sWrite gp r (v.extractLsb' 0 32)) (r + 1) (v.extractLsb' 32 32)
/-- A triple as a 96-bit mask (R74). -/
def sTriple (g : Group) (p : Path) (r : SReg) : Mask := sRead g p (r + 2) ++ sRead g p (r + 1) ++ sRead g p r
def sWriteTriple (gp : Group × Path) (r : SReg) (m : Mask) : Group × Path :=
  sWrite (sWrite (sWrite gp r (maskPart m 0)) (r + 1) (maskPart m 1)) (r + 2) (maskPart m 2)

/-! ### Vector registers, predicates and their visibility (R108, R109) -/

def vKey (v lane : Nat) : Nat := v * 96 + lane

/-- Latencies by class (R108). -/
def latOf (cls : Nat) : Nat :=
  if cls = 1 ∨ cls = 2 then 3 else if cls = 4 then 6 else if cls = 10 then 12 else 5

/-- The vector word that a read in clock `t` sees: the latest result already visible, else the stored word. -/
def vRead (g : Group) (t key : Nat) : Word × Bool :=
  g.pend.foldl (fun r e =>
    match e.dst with
    | .vec k v => if k = key ∧ e.at_ ≤ t then (v, e.poison) else r
    | _ => r) (tabGet 0 g.vreg key, decide (key ∈ g.vpoison))
/-- A predicate bit as a read in clock `t` sees it; `p0` reads 1 (R81). -/
def pRead (g : Group) (t n lane : Nat) : Bool :=
  if n = 0 then true
  else g.pend.foldl (fun r e =>
    match e.dst with
    | .pred k l v => if k = n ∧ l = lane ∧ e.at_ ≤ t then v else r
    | _ => r) ((tabGet 0 g.pred n).getLsbD lane)

def vWrite (g : Group) (key : Nat) (v : Word) (poison : Bool) : Group :=
  { g with vreg := tabSet 0 g.vreg key v,
           vpoison := if poison then setIns g.vpoison key else setDel g.vpoison key }
def pWrite (g : Group) (n lane : Nat) (v : Bool) : Group :=
  let m := tabGet 0 g.pred n
  { g with pred := tabSet 0 g.pred n (if v then m ||| laneBit lane else m &&& ~~~ laneBit lane) }

/-- Write one pending result; a scalar result of `VOTE.ballot` goes to the path's view. -/
def landOne (g : Group) (e : Pend) : Group :=
  match e.dst with
  | .vec k v => vWrite g k v e.poison
  | .pred n l v => pWrite g n l v
  | .scal r v q =>
    match findPath g q with
    | some p => let x := sWrite (g, p) r v; putPath x.1 x.2
    | none => if r.toNat < 61 then { g with sreg := tabSet 0 g.sreg r.toNat v } else g

/-- Whether two results have the same destination. -/
def sameDst : PendDst → PendDst → Bool
  | .vec a _, .vec b _ => a = b
  | .pred a l _, .pred b m _ => a = b && l = m
  | .scal a _ p, .scal b _ q => a = b && (decide (a.toNat < 61) || p = q)
  | _, _ => false
/-- Add a fixed-latency result: an earlier result to the same place that would become visible no sooner is never seen
(R109). -/
def addPend (g : Group) (e : Pend) : Group :=
  { g with pend := g.pend.filter (fun x => !(sameDst x.dst e.dst && decide (e.at_ ≤ x.at_))) ++ [e] }
/-- A variable-latency result is written when its request returns, over any earlier result (R109). -/
def vReturn (g : Group) (key : Nat) (v : Word) (poison : Bool) : Group :=
  vWrite { g with pend := g.pend.filter (fun e => !sameDst e.dst (.vec key v)) } key v poison

/-- The sticky flags as clock `t` sees them: those set, and those of results written by then (R182). -/
def stickyAt (g : Group) (t : Nat) : Byte :=
  g.fpDue.foldl (fun f e => if e.1 ≤ t then f ||| e.2 else f) g.fpflags

/-- Write every pending result that is visible in clock `t`, in issue order, with its sticky flags (R109, R182). -/
def landAll (g : Group) (t : Nat) : Group :=
  let g' := (g.pend.filter (fun e => decide (e.at_ ≤ t))).foldl landOne g
  { g' with pend := g.pend.filter (fun e => !decide (e.at_ ≤ t)), fpflags := stickyAt g t,
            fpDue := g.fpDue.filter (fun e => !decide (e.1 ≤ t)) }

/-! ### Requests, counters and completion flags (R110, R111) -/

/-- The value of an in-flight counter. -/
def counter (g : Group) (k : KPath) : Nat := (g.outq.filter (fun e => e.2.1 = k)).length

/-- Drop completed requests from the front of each path's order (R111). -/
def retireOut : List (Nat × KPath × Bool) → List KPath → List (Nat × KPath × Bool)
  | [], _ => []
  | e :: t, held =>
    if e.2.2 && !(e.2.1 ∈ held) then retireOut t held else e :: retireOut t (e.2.1 :: held)

/-- Issue a request: raise its counter, clear and own its flag (R110, R111). -/
def addReq (g : Group) (r : Req) : Group :=
  let g := { g with reqs := g.reqs ++ [r] }
  let g := match r.path with
    | some k => { g with outq := g.outq ++ [(r.id, k, false)] }
    | none => g
  if r.flag.toNat < 12 then
    { g with flags := g.flags &&& ~~~ (1#12 <<< r.flag.toNat), owner := tabPut g.owner r.flag.toNat r.id }
  else g

/-- Set a flag if `id` is its last owner (R110). -/
def setFlag (g : Group) (f id : Nat) : Group :=
  if tabFind g.owner f = some id then
    { g with flags := g.flags ||| (1#12 <<< f), owner := tabDel g.owner f }
  else g

/-- Complete request `id`: flag, counter in order, sticky bits (R110, R111, R182). -/
def finishReq (g : Group) (id : Nat) : Group :=
  match g.reqs.find? (fun r => r.id = id) with
  | none => g
  | some r =>
    let g := { g with reqs := g.reqs.filter (fun q => q.id ≠ id), fpflags := g.fpflags ||| r.fp,
                      outq := retireOut (g.outq.map (fun e => if e.1 = id then (e.1, e.2.1, true) else e)) [] }
    if r.flag.toNat < 12 then setFlag g r.flag.toNat id else g

def modReq (g : Group) (id : Nat) (f : Req → Req) : Group :=
  { g with reqs := g.reqs.map (fun r => if r.id = id then f r else r) }
def findReq (g : Group) (id : Nat) : Option Req := g.reqs.find? (fun r => r.id = id)

/-- Complete request `id` of group `g` of the module. -/
def finishAt (s : State) (g id : Nat) : State := modGroup s g (fun x => finishReq x id)

/-! ### Program counters and signatures (R364, R365) -/

/-- Whether the group updates signatures: checking is on and no handler runs (R165, R338). -/
def sigLive (s : State) (g : Group) : Bool := sigOn (kernOf s g) && g.handler.isNone

/-- Add a contribution to a path's signature. -/
def sigAdd (s : State) (g : Group) (p : Path) (v : Unit → Word) : Path :=
  if sigLive s g then { p with sig := p.sig + v () } else p

/-- The scalar word of the instruction being executed enters the signature. -/
def sigWord (s : State) (g : Group) (p : Path) : Path :=
  sigAdd s g p (fun _ => crcOf 4 (s.ir.extractLsb' 0 32).toNat)

/-- Go to the next scalar word. -/
def advScalar (s : State) (g : Group) (p : Path) : Path := { sigWord s g p with spc := p.spc + 4 }
/-- Go to a scalar target. -/
def jumpScalar (s : State) (g : Group) (p : Path) (t : Word) : Path := { sigWord s g p with spc := t }

/-- Go past the lane word; a word with select 0 and negate 1 ends the run (R157). -/
def advLane (s : State) (g : Group) (p : Path) (h : LaneHdr) (t : Nat) : Path :=
  let p := sigAdd s g p (fun _ => crcOf 12 s.ir.toNat)
  { p with lpc := p.lpc + 12, running := !(decide (h.pred = 0) && h.neg), tPrev := t + 1,
           hold := if p.hold = .ljmp then .free else p.hold }

/-! ### Interlocks of the scalar stream (R102, R149, R151) -/

/-- The lane words of earlier runs have all issued (R151). -/
def lanesIssued (p : Path) : Bool := !p.running && p.queue.isEmpty
/-- Whether a request still has to write a scalar register (R149). -/
def writesScalar (k : ReqKind) (r : SReg) : Bool :=
  match k with
  | .sload d dbl _ => d = r || (dbl && d + 1 = r)
  | _ => false
/-- A scalar register has no load outstanding (R149). -/
def sFree (g : Group) (r : SReg) : Bool := !(g.reqs.any (fun q => writesScalar q.kind r))
def sFreeAll (g : Group) (rs : List SReg) : Bool := rs.all (sFree g)

/-! ### Translation (R35, R206, R207) -/

/-- The outcome of a translation: an address, a miss that needs a walk, or a fault cause (R335). -/
inductive XRes where
  | ok (pa : Nat)
  | miss
  | bad (code : Nat)
deriving DecidableEq, Repr

/-- What an access asks of a translation. -/
inductive Acc where
  | read | write | exec | readOrExec
deriving DecidableEq, Repr

/-- A leaf found by a walk, or the cause of its fault. -/
inductive WalkRes where
  | leaf (e : TlbEnt)
  | bad (code : Nat)
deriving DecidableEq, Repr

def bitN (x n : Nat) : Bool := x / 2 ^ n % 2 = 1

/-- A leaf entry of level `lv` (R35, R207): form, then user, populated, private and accessed checks. DESIGN CHOICE: that order, where one
entry shows several of R207's causes, and a leaf with A = 0 before a store into the flash tier; R37 and R207 give none (log 87). -/
def leafOf (pasid va pte lv : Nat) : WalkRes :=
  let ppn := pte / 2 ^ 10 % 2 ^ 44
  let napot := bitN pte 63
  let lg := if lv = 0 then (if napot then 16 else 12) else if lv = 1 then 21 else 30
  let base := if napot then ppn / 16 * 16 * 4096 else ppn * 4096
  let pa := base / 2 ^ lg * 2 ^ lg
  if 2 < lv ∨ (napot ∧ (lv ≠ 0 ∨ ppn % 16 ≠ 8)) ∨ base % 2 ^ lg ≠ 0 then .bad 0x41
  else if !bitN pte 4 then .bad 0x40
  else if tierOf pa = .none then .bad 0x42
  else if tierOf pa = .priv then .bad 0x43
  else if !bitN pte 6 then .bad 0x61
  else .leaf { pasid := pasid, va := va / 2 ^ lg * 2 ^ lg, lg := lg, pa := pa, r := bitN pte 1, w := bitN pte 2,
               x := bitN pte 3, u := true, dirty := bitN pte 7 }

/-- Walk one level from table frame `ppn`, `lv` levels below it remaining (R35, R206). -/
def walkFrom (s : State) (pasid va : Nat) : Nat → Nat → WalkRes
  | lv, ppn =>
    let pte := homeNat s 8 (ppn * 4096 + va / 2 ^ (12 + 9 * lv) % 512 * 8)
    if !bitN pte 0 then .bad 0x60
    else if pte / 2 ^ 54 % 2 ^ 7 ≠ 0 ∨ pte / 2 ^ 61 % 4 = 3 then .bad 0x44
    else if bitN pte 1 ∨ bitN pte 2 ∨ bitN pte 3 then leafOf pasid va pte lv
    else match lv with
      | 0 => .bad 0x41
      | lv + 1 =>
        if bitN pte 4 ∨ bitN pte 6 ∨ bitN pte 7 ∨ pte / 2 ^ 61 ≠ 0 then .bad 0x44
        else walkFrom s pasid va lv (pte / 2 ^ 10 % 2 ^ 44)

/-- Bits [63:57] of an address equal bit 56 (R215). -/
def canonical (va : Nat) : Bool := va / 2 ^ 56 % 256 = 0 || va / 2 ^ 56 % 256 = 255

/-- The tables below table `ppn` of level `lv` that a walk passes: level and frame (R206). -/
def walkTables (s : State) (va : Nat) : Nat → Nat → List (Nat × Nat)
  | 0, _ => []
  | lv + 1, ppn =>
    let pte := homeNat s 8 (ppn * 4096 + va / 2 ^ (12 + 9 * (lv + 1)) % 512 * 8)
    if bitN pte 0 && !(bitN pte 1 || bitN pte 2 || bitN pte 3) then
      (lv, pte / 2 ^ 10 % 2 ^ 44) :: walkTables s va lv (pte / 2 ^ 10 % 2 ^ 44)
    else []

/-- The attached segment that holds a virtual address of a process (R280). -/
def segWindow (s : State) (pasid va : Nat) : Option (Nat × Segment) :=
  s.segments.find? (fun e =>
    match e.2.attach with
    | some (p, b) => decide (p = pasid) && decide (b ≤ va) && decide (va < b + 2 ^ e.2.z)
    | none => false)

/-- A leaf as a refill takes it: within a promoted block it names the pool block; a larger leaf that reaches into a promoted block is
taken as the leaf of its 64 KiB alone, so that no refill translates to a promoted block (R210). -/
def refillLeaf (s : State) (e : TlbEnt) (va : Nat) : TlbEnt :=
  let pa := e.pa + (va - e.va)
  let lg := min e.lg 16
  let small : TlbEnt := { e with va := va / 2 ^ lg * 2 ^ lg, lg := lg, pa := pa / 2 ^ lg * 2 ^ lg }
  match s.promoted.find? (fun x => x.1 = pa / 65536) with
  | some (_, h) => { small with pa := h * 65536 + pa % 65536 / 2 ^ lg * 2 ^ lg, flash := tierOf pa = .flash }
  | none =>
    if s.promoted.any (fun x => decide (e.pa < (x.1 + 1) * 65536) && decide (x.1 * 65536 < e.pa + 2 ^ e.lg)) then small else e

/-- The walk of a virtual address of a process from a table: an attached segment's pages are read-only flash frames that core 2
maps (R280); any other address goes through the process's Sv57 tables, and one that is not canonical faults (R35, R215). -/
def walkAt (s : State) (pasid va : Nat) (start : Option (Nat × Nat)) : WalkRes :=
  if !canonical va then .bad 0x46
  else match segWindow s pasid va with
  | some (_, g) =>
    match g.attach with
    | some (_, b) =>
      .leaf { pasid := pasid, va := va / 4096 * 4096, lg := 12, pa := g.pa + (va / 4096 * 4096 - b), r := true,
              w := false, x := false, u := true, dirty := false }
    | none => .bad 0x60
  | none =>
    match start with
    | some (lv, ppn) => walkFrom s pasid va lv ppn
    | none => .bad 0x60
/-- The root table of a process. -/
def rootOf (s : State) (pasid : Nat) : Option (Nat × Nat) := (tabFind s.procs pasid).map (fun p => (4, p.root))
/-- The walk of a virtual address through the tables as memory holds them (R35). -/
def walkPage (s : State) (pasid va : Nat) : WalkRes := walkAt s pasid va (rootOf s pasid)
/-- The deepest table of an address that a stack's non-leaf entries name (R206). -/
def nonLeafFind (nl : List (Nat × Nat × Nat × Nat)) (pasid va : Nat) : Option (Nat × Nat) :=
  (List.range 4).findSome? (fun lv =>
    (nl.find? (fun e => e.1 = pasid && e.2.1 = lv && e.2.2.1 = va / 2 ^ (12 + 9 * (lv + 1)))).map (fun e => (lv, e.2.2.2)))
/-- The table at which the walkers of a stack begin: the deepest that their non-leaf entries name, or the root. -/
def walkStart (s : State) (st pasid va : Nat) : Option (Nat × Nat) :=
  match nonLeafFind (stackOf s st).nonLeaf pasid va with
  | some t => some t
  | none => rootOf s pasid
/-- Whether a PASID is being torn down (R385). -/
def closingP (s : State) (pasid : Nat) : Bool := ((tabFind s.procs pasid).map (fun p => p.closing)).getD false
/-- The walk by the walkers of a stack (R206), its leaf as a refill takes it (R210). -/
def walkStack (s : State) (st pasid va : Nat) : WalkRes :=
  match walkAt s pasid va (walkStart s st pasid va) with
  | .leaf e => .leaf (refillLeaf s e va)
  | .bad c => .bad c

/-- Add a leaf to a TLB of a size, the oldest entry making room. -/
def tlbAdd (t : List TlbEnt) (cap : Nat) (e : TlbEnt) : List TlbEnt :=
  let t := t.filter (fun x => !(x.pasid = e.pasid && x.va = e.va && x.lg = e.lg))
  (if t.length < cap then t else t.drop (t.length + 1 - cap)) ++ [e]
/-- A walk of a stack leaves its leaf in the second level of 32,768 entries, and the tables that it passed among the 512 non-leaf
entries, the oldest making room (R206). -/
def walkLeaves (s : State) (st pasid va : Nat) (e : TlbEnt) : State :=
  let ts := match walkStart s st pasid va with
    | some (lv, ppn) => if (segWindow s pasid va).isSome then [] else walkTables s va lv ppn
    | none => []
  let new := ts.map (fun t => (pasid, t.1, va / 2 ^ (12 + 9 * (t.1 + 1)), t.2))
  modStack s st (fun k =>
    let nl := k.nonLeaf.filter (fun x => !(new.any (fun y => x.1 = y.1 && x.2.1 = y.2.1 && x.2.2.1 = y.2.2.1))) ++ new
    { k with tlb := tlbAdd k.tlb 32768 e, nonLeaf := nl.drop (nl.length - 512) })
/-- An engine of a stack that translates an address leaves what its walk found (R206); it walks no more for a closing PASID (R386). -/
def engineWalk (s : State) (st pasid va : Nat) : State :=
  if closingP s pasid then s
  else if (stackOf s st).tlb.any (fun e => decide (e.pasid = pasid) && decide (va / 2 ^ e.lg * 2 ^ e.lg = e.va)) then s
  else match walkStack s st pasid va with
    | .leaf e => walkLeaves s st pasid va e
    | .bad _ => s

def tlbFind (t : List TlbEnt) (pasid va : Nat) : Option TlbEnt :=
  t.find? (fun e => decide (e.pasid = pasid) && decide (va / 2 ^ e.lg * 2 ^ e.lg = e.va))

/-- The permission checks of a leaf for an access (R37, R207). -/
def leafUse (e : TlbEnt) (a : Acc) (va : Nat) : XRes :=
  let pa := e.pa + (va - e.va)
  match a with
  | .read => if e.r then .ok pa else .bad 0x63
  | .exec => if e.x then .ok pa else .bad 0x63
  | .readOrExec => if e.r || e.x then .ok pa else .bad 0x63
  | .write =>
    if tierOf pa = .flash ∨ e.flash = true then .bad 0x45
    else if !e.w then .bad 0x63
    else if !e.dirty then .bad 0x62
    else .ok pa

/-- Translate for a group: the core TLB (not for a Garnet context), then the second-level TLB; a miss needs a walk,
and a walk that ended in a fault for this group's page reports it (R206, R207). -/
def translate (s : State) (g : Group) (va : Nat) (a : Acc) : XRes :=
  let pasid := pasidOf s g
  match (if g.garnet.isSome then none else tlbFind (coreOf s g.core).tlb pasid va) with
  | some e => leafUse e a va
  | none =>
    match tlbFind (stackOf s (stackNo g.core)).tlb pasid va with
    | some e => leafUse e a va
    | none =>
      match g.walked with
      | some w => if w.pasid = pasid ∧ w.vpn = va / 4096 then .bad w.code else .miss
      | none => .miss

/-- Translate for an engine, which walks by itself (R206); a walk for a closing PASID is dropped, and the access ends as one of a killed
context (R386). -/
def translateNow (s : State) (st pasid va : Nat) (a : Acc) : XRes :=
  match tlbFind (stackOf s st).tlb pasid va with
  | some e => leafUse e a va
  | none =>
    if closingP s pasid then .bad 0x50 else
    match walkStack s st pasid va with
    | .leaf e => leafUse e a va
    | .bad c => .bad c

/-- The pages that walks name, in order of arrival. -/
def walkPages (ws : List Walk) : List (Nat × Nat) :=
  ws.foldl (fun ps w => if (w.pasid, w.vpn) ∈ ps then ps else ps ++ [(w.pasid, w.vpn)]) []
/-- The pages whose walks are in flight: those that hold the stack's 32 walkers (R206). -/
def walksInFlight (ws : List Walk) : List (Nat × Nat) := (walkPages ws).take 32
/-- A miss joins a walk in flight, takes a free walker, or waits in the queue of 256 misses (R206). -/
def mayWalk (ws : List Walk) (w : Walk) : Bool :=
  decide ((w.pasid, w.vpn) ∈ walksInFlight ws) || decide ((walkPages ws).length < 32) ||
    decide ((ws.filter (fun x => !((x.pasid, x.vpn) ∈ walksInFlight ws))).length < 256)
/-- Queue a walk for a group where there is room; a miss that finds the queue full waits at its core (R206). -/
def queueWalk (s : State) (gid : Nat) (g : Group) (va : Nat) : State :=
  let w : Walk := { pasid := pasidOf s g, vpn := va / 4096, core := g.core, grp := gid }
  modStack s (stackNo g.core) (fun k => if mayWalk k.walks w then { k with walks := k.walks ++ [w] } else k)
/-- Queue a walk for a group and suspend it (R113, R206). -/
def needWalk (s : State) (gid : Nat) (g : Group) (va : Nat) : State :=
  setGroup (queueWalk s gid g va) gid { g with susp := .walk }

/-! ### Records and delivery (R333 to R343) -/

/-- The class of a cause code (R335); `BKPT` is decided where it is raised. -/
def classOf (code : Nat) : Nat :=
  if code < 0x32 then 0 else if code = 0x32 then 3 else if code < 0x60 then 2 else 1

def causeWord (cls src code : Nat) : Word := BitVec.ofNat 32 (cls * 1024 + src * 256 + code)

/-- A trap with the stopping point of the path that raises it (R337). -/
def mkTrap (s : State) (p : Path) (src code : Nat) (v0 v1 : Word) : TrapInfo :=
  { code := code, cls := classOf code, src := src, val0 := v0, val1 := v1, tspc := p.spc, tlpc := p.lpc, addr := 0,
    lane := 0xFFFF, aux := 0, ir := s.ir, path := p.id }
/-- A trap whose values are a 64-bit address (R335). -/
def mkAddrTrap (s : State) (p : Path) (src code : Nat) (va lane : Nat) : TrapInfo :=
  { mkTrap s p src code (BitVec.ofNat 32 va) (BitVec.ofNat 32 (va / 2 ^ 32)) with
    addr := BitVec.ofNat 64 va, lane := lane }

/-- The reply tags of every record that is not yet answered. -/
def usedTags (s : State) : List Nat :=
  s.stks.flatMap (fun e => (e.2.fatal ++ e.2.waitQ ++ e.2.trapQ ++ e.2.pending).map (fun r => r.tag))
/-- A reply tag of 4 bytes that no record bears (R340). -/
def recordTag (s : State) : Nat :=
  let used := usedTags s
  (((List.range (used.length + 1)).map (fun i => (s.fresh + i) % 2 ^ 32)).find? (fun t => !(t ∈ used))).getD 0
/-- The trap record of a group (R340), with a fresh reply tag. -/
def recordOf (s : State) (gid : Nat) (g : Group) (t : TrapInfo) : TrapRec :=
  { info := t, pasid := pasidOf s g, core := g.core, slot := 6 * g.part + g.place,
    teamIdx := ((teamOf s g).map (fun t => t.idx)).getD 0, tag := recordTag s, grp := gid, team := g.team, launch := launchNo s g }
/-- A record as its 64 bytes hold it (R340). -/
def recordImage (r : TrapRec) : BitVec 512 :=
  let t := r.info
  let put := fun (off n x : Nat) => x % 256 ^ n * 256 ^ off
  BitVec.ofNat 512 (put 0 4 (causeWord t.cls t.src t.code).toNat + put 4 4 (r.pasid % 2 ^ 20) + put 8 1 (r.core / 16) +
    put 9 1 (r.core % 16) + put 10 1 (r.slot % 64) + put 11 1 (r.teamIdx % 32) + put 12 4 r.tag + put 16 4 t.tspc.toNat +
    put 20 4 t.tlpc.toNat + put 24 8 t.addr.toNat + put 32 12 t.ir.toNat + put 44 4 t.val0.toNat + put 48 4 t.val1.toNat +
    put 52 2 t.lane + put 56 8 t.aux.toNat)

/-- Halt every group of a team at its instruction boundary (R343). -/
def haltTeam (s : State) (team : Nat) : State :=
  let s := modTeam s team (fun t => { t with halted := true })
  { s with groups := s.groups.map (fun e => if e.2.team = team then (e.1, { e.2 with susp := .halted }) else e) }

/-- A class 2 event: halt the team; its first record waits in the fatal latch, later ones are counted (R341, R343). -/
def fatal (s : State) (gid : Nat) (g : Group) (t : TrapInfo) : State :=
  let r := recordOf s gid g { t with cls := 2 }
  let s := haltTeam s g.team
  match tabFind s.teams g.team with
  | none => s
  | some tm =>
    if tm.fatal then
      match launchNo s g with
      | some l => modLaunch s l (fun x => { x with unrecorded := x.unrecorded + 1 })
      | none => s
    else
      let s := modTeam s g.team (fun x => { x with fatal := true })
      let s := { s with fresh := s.fresh + 1 }
      modStack s (stackNo g.core) (fun k => { k with fatal := k.fatal ++ [r] })

/-- A class 1 or 3 event: the group is suspended and its record waits to be written (R208, R341, R342). -/
def suspendOn (s : State) (gid : Nat) (g : Group) (t : TrapInfo) : State :=
  let r := recordOf s gid g t
  let s := setGroup s gid { g with
    susp := .record r.tag, walked := none, pausedAt := if g.handler.isSome then g.pausedAt else s.clock }
  let s := { s with fresh := s.fresh + 1 }
  modStack s (stackNo g.core) (fun k => { k with waitQ := k.waitQ ++ [r] })

/-- Entering the handler (R337): trap registers written, the path's run queue saved and emptied, its `spc` at the
handler; the mask, the registers, the flags and the counters stay. A trap of a lane word leaves that word's run the current one. -/
def enterHandler (now : Nat) (g : Group) (p : Path) (t : TrapInfo) (off : Nat) : Group :=
  let g := { g with
    tcause := causeWord 0 t.src t.code, tval0 := t.val0, tval1 := t.val1, tspc := t.tspc, tlpc := t.tlpc,
    handler := some { path := p.id, queue := p.queue, running := p.running || t.src = 1, depth := p.stack.length,
                      slot := if t.code = 0x19 then t.val0.toNat else 4, ljmp := decide (p.hold = .ljmp) },
    walked := none, pausedAt := now }
  putPath g { p with spc := BitVec.ofNat 32 off, queue := [], running := false, hold := .free, recalled := false }

/-! ### Garnet write-back and recall (R122, R124) -/

/-- Write a context's lane back into its parent: live registers that it wrote, `p1` to `p7`, sticky flags (R122). -/
def writeBackLane (parent ctx : Group) (i : Garnet) : Group :=
  let g := (List.range 384).foldl (fun (g : Group) v =>
    if i.live.getLsbD v && i.written.getLsbD v then
      let key := vKey v i.lane
      vWrite g key (tabGet 0 ctx.vreg key) (decide (key ∈ ctx.vpoison))
    else g) parent
  let g := (List.range 7).foldl (fun g n => pWrite g (n + 1) i.lane ((tabGet 0 ctx.pred (n + 1)).getLsbD i.lane)) g
  { g with fpflags := g.fpflags ||| ctx.fpflags }

def slotAt (g : Group) (t : Nat) : RjSlot := (g.slots[t]?).getD slotZero
def setSlot (g : Group) (t : Nat) (x : RjSlot) : Group := { g with slots := g.slots.set t x }

/-- A free entry of the split table, and with it a buffer slot (R103, R116). -/
def freeEntry (g : Group) : Option Nat := (List.range 8).find? (fun i => (findPath g i).isNone)

/-- Whether a path is one that recalled lanes stopped at the same place share (R124). DESIGN CHOICE: lanes of different tag sets or
signatures do not share, since R124 and R364 give each its own (log 101). -/
def sharesPath (q : Path) (e : RecallEnt) : Bool :=
  q.recalled && e.trap.isNone && decide (q.hold = .free) && !e.ljmp && !q.running && q.queue.isEmpty && !e.running && e.queue.isEmpty && q.spc = e.spc && q.lpc = e.lpc &&
    q.tags = e.tags && q.sig = e.sig
/-- Whether two recall entries stand for lanes stopped at the same place (R124). -/
def sharesEntry (x e : RecallEnt) : Bool :=
  x.trap.isNone && e.trap.isNone && !x.ljmp && !e.ljmp && !x.running && x.queue.isEmpty && !e.running && e.queue.isEmpty && x.spc = e.spc && x.lpc = e.lpc &&
    x.tags = e.tags && x.tag = e.tag && x.sig = e.sig

/-- The timers of the slots of a tag set stop: a path or a recall entry is bound to them (R127). -/
def stopTimers (g : Group) (tags : BitVec 4) : Group :=
  { g with slots := g.slots.mapIdx (fun t (x : RjSlot) => if tags.getLsbD t then { x with timer := 0 } else x) }
/-- A trap is due on a path, in the order of the split-table entries (R339). -/
def putDue (g : Group) (d : DueTrap) : Group :=
  { g with due := g.due.filter (fun x => decide (x.path < d.path)) ++ [d] ++ g.due.filter (fun x => !decide (x.path < d.path)) }
/-- A trap is due on a path: it issues nothing until the trap is taken (R339). -/
def hasDue (g : Group) (pid : Nat) : Bool := g.due.any (fun d => d.path = pid)
/-- The path that a recalled lane becomes or joins, or a recall entry where no split-table entry is free (R124); a trap that it brings
is due on its path (R123). -/
def placeRecalled (g : Group) (e : RecallEnt) : Group :=
  let g := stopTimers g e.tags
  match g.paths.find? (fun q => sharesPath q e && !hasDue g q.id) with
  | some q => putPath g { q with mask := q.mask ||| e.mask, owned := q.owned ||| e.mask }
  | none =>
    match freeEntry g with
    | some i =>
      let g := { g with paths := g.paths ++ [{ pathNew i e.spc e.lpc e.mask with
          queue := e.queue, running := e.running, tags := e.tags, sig := e.sig, recalled := true,
          hold := if e.ljmp then .ljmp else .free }] }
      match e.trap with
      | some t => putDue g { path := i, info := { t with path := i } }
      | none => g
    | none =>
      match g.recalls.find? (fun x => sharesEntry x e) with
      | some _ => { g with recalls := g.recalls.map (fun x =>
          if sharesEntry x e then { x with mask := x.mask ||| e.mask } else x) }
      | none => { g with recalls := g.recalls ++ [e] }

/-- Recall one context: write back, leave `rjm`, become a path or a recall entry (R124). -/
def recallCtx (s : State) (ctx : Nat) : State :=
  match tabFind s.groups ctx with
  | none => s
  | some c =>
    match c.garnet, c.paths with
    | some i, p :: _ =>
      let s := { s with groups := tabDel s.groups ctx }
      modGroup s i.parent (fun g =>
        let g := writeBackLane g (landAll c (s.clock + 64)) i
        let sl := slotAt g i.tag.toNat
        let g := setSlot g i.tag.toNat { sl with rjm := sl.rjm &&& ~~~ laneBit i.lane }
        placeRecalled g { spc := p.spc, lpc := p.lpc, queue := p.queue, running := p.running,
                          mask := laneBit i.lane, tag := i.tag, tags := i.tags, sig := p.sig,
                          ljmp := decide (p.hold = .ljmp) })
    | _, _ => s

/-- A context may be recalled: its accesses have been performed, and its parent is in no handler or is being pre-empted (R124,
R130). -/
def recallFree (s : State) (c : Group) : Bool :=
  c.reqs.isEmpty && match c.garnet with
    | some i => ((tabFind s.groups i.parent).map (fun g => g.handler.isNone || outOf s g)).getD true
    | none => false

/-- Move the oldest recall entry into the split table while an entry is free (R124). -/
def drainRecalls (g : Group) : Group :=
  match g.recalls with
  | [] => g
  | e :: t =>
    match freeEntry g with
    | some _ => placeRecalled { g with recalls := t } e
    | none => g

/-- Taking a trap or fault on a path (R123, R333, R336, R339): a Garnet context recalls its lane and the new path
takes it; class 0 enters the handler, becomes fatal without one, and is a double trap inside one; class 1 and 3
suspend; class 2 ends the team. -/
def takeTrap (s : State) (gid : Nat) (g : Group) (p : Path) (t : TrapInfo) : State :=
  if g.garnet.isSome then
    (if recallFree s g then recallCtx (setGroup s gid (putPath g p)) gid else setGroup s gid (putPath g p))
  else if t.cls = 2 then fatal (setGroup s gid (putPath g p)) gid g t
  else if t.cls = 1 ∨ t.cls = 3 then suspendOn s gid (putPath g p) t
  else match g.handler with
    | some _ =>
      fatal (setGroup s gid (putPath g p)) gid g
        { t with code := 0x4B, val0 := causeWord 0 t.src t.code, val1 := g.tcause, addr := 0, aux := 0, lane := 0xFFFF }
    | none =>
      match (kernOf s g).trapOff with
      | some off => setGroup s gid (enterHandler s.clock g p t off)
      | none => fatal (setGroup s gid (putPath g p)) gid g t

/-- Take a trap on the path being executed. -/
def trapHere (s : State) (g : Group) (p : Path) (t : TrapInfo) : Out := .next (takeTrap s s.cur g p t)

/-- Rejoin timers go on where they paused (R127). -/
def resumeTimers (g : Group) (now : Nat) : Group :=
  { g with pausedAt := 0, slots := g.slots.map (fun (x : RjSlot) =>
      if x.timer = 0 then x else { x with timer := x.timer + (now - g.pausedAt) }) }
/-- The timer of a slot whose trap was taken stands at zero until the path waits again (R127, R344). -/
def restartTimer (g : Group) (t : Nat) : Group := setSlot g t { slotAt g t with timer := 0 }

/-- A group leaves its handler, by `ERET` or by the `EXIT` of the trapping path (R338, R344, R347): the trap registers read as
zero, rejoin timers go on, and storage timeouts that had expired start afresh. -/
def endHandler (g : Group) (now : Nat) : Group :=
  { resumeTimers g now with
    handler := none, tcause := 0, tval0 := 0, tval1 := 0, tspc := 0, tlpc := 0,
    reqs := g.reqs.map (fun (r : Req) => if r.late then { r with late := false, stallAt := now + 1 } else r) }

/-- The first trap that is due on a group outside a handler is taken, the lowest split-table entry first (R339, R357). -/
def takeDue (s : State) (gid : Nat) : State :=
  match tabFind s.groups gid with
  | none => s
  | some g =>
    match g.due with
    | [] => s
    | d :: rest =>
      if g.handler.isSome || outOf s g || !(g.susp = .run || g.susp = .walk) then s
      else
        let g := { g with due := rest }
        match findPath g d.path with
        | some q => takeTrap s gid g q d.info
        | none => setGroup s gid g
/-- Returning from the handler (R347): the path issues again 8 clocks later, counters from the trap registers, the saved queue back, the
handler's own stacked entries dropped, the trap registers zero, and storage timeouts that had expired started afresh (R344). -/
def leaveHandler (s : State) (gid : Nat) (g : Group) (p : Path) (h : HandlerCtx) : State :=
  let p := { p with spc := g.tspc, lpc := g.tlpc, queue := h.queue, running := h.running,
                    stack := p.stack.drop (p.stack.length - h.depth), hold := if h.ljmp then .ljmp else .free,
                    wake := s.clock + 8 }
  let g := endHandler (putPath g p) s.clock
  setGroup s gid (if h.slot < 4 then restartTimer g h.slot else g)

/-- A trap becomes due on a waiting path (R339); on the handler's own path it is a double trap (R336). -/
def queueTrap (s : State) (gid : Nat) (g : Group) (p : Path) (t : TrapInfo) : State :=
  if (g.handler.map (fun h => h.path)) = some p.id then takeTrap s gid g p t
  else setGroup s gid (putDue g { path := p.id, info := t })
/-- A trap that becomes due on a waiting path (R339): a double trap on the handler's own path (R336); else it is taken at once, or kept
in order of split-table entry behind a handler, a suspension or a pre-emption (R351, R357). -/
def dueTrap (s : State) (gid : Nat) (g : Group) (p : Path) (t : TrapInfo) : State := takeDue (queueTrap s gid g p t) gid

end Sys2Proof.Machine
end

