-- ==== Sys2Proof/Machine/Issue.lean ====
section
/-! DEFINITION. What an instruction names, fetching it, and when a path may issue it (R82, R94, R101 to R113, R123,
R149, R151, R222, R371). -/
namespace Sys2Proof.Machine

/-! ### Registers an instruction names -/

/-- `n` registers from `s`. -/
def sSpan (s : SReg) (n : Nat) : List SReg := (List.range n).map (fun k => s + BitVec.ofNat 6 k)
/-- `n` vector register numbers from `v`. -/
def vSpan (v : VReg) (n : Nat) : List Nat := (List.range n).map (fun k => v.toNat + k)
def srcRegs (n : Nat) : VSrc → List Nat
  | .reg v => vSpan v n
  | .imm _ => []
def baseS : MBase → List SReg
  | .scal s => sSpan s 2
  | .vec _ => []
def baseV : MBase → List Nat
  | .vec v => vSpan v 2
  | .scal _ => []
def idxV : MIdx → List Nat
  | .reg v _ => vSpan v 1
  | _ => []

/-- Scalar registers that an instruction reads (R82, R149). A layout block is named by its first six registers. -/
def sReads : Instr → List SReg
  | .add _ a b | .sub _ a b | .mul _ a b | .mulh _ a b | .mulhZ32 _ a b | .divs _ a b | .and _ a b | .or _ a b
  | .xor _ a b | .andn _ a b | .shl _ a b | .shr _ a b | .sra _ a b | .min _ a b | .max _ a b | .minZ32 _ a b
  | .maxZ32 _ a b | .cmp _ _ a b | .cmpZ32 _ _ a b => [a, b]
  | .sel d a b => [d, a, b]
  | .addZ64 _ a b | .subZ64 _ a b => sSpan a 2 ++ sSpan b 2
  | .addi _ a _ | .andi _ a _ | .ori _ a _ | .xori _ a _ | .shli _ a _ | .shri _ a _ | .srai _ a _ => [a]
  | .movhi d _ => [d]
  | .brNz a _ | .brZ a _ | .jmpi a => [a]
  | .ret => [60]
  | .mand _ a b | .mor _ a b | .mxor _ a b => sSpan a 3 ++ sSpan b 3
  | .mnot _ a | .mpop _ a | .mfirst _ a => sSpan a 3
  | .sld _ a _ | .sldZ64 _ a _ => sSpan a 2
  | .sst d a _ => d :: sSpan a 2
  | .sstZ64 d a _ => sSpan d 2 ++ sSpan a 2
  | .waitk _ s => [s]
  | .swrEjth a | .swrRjto a | .swrFpflags a | .swrTrapState _ a => [a]
  | .svc _ => [2]
  | .movs _ t _ s => if t.wide then sSpan s 2 else [s]
  | .lea _ _ b _ _ | .ld _ _ _ _ _ _ b _ _ _ | .st _ _ _ _ _ _ b _ _ _ | .atom _ _ _ _ _ _ _ b _ _ _ _
  | .red _ _ _ _ _ _ _ b _ _ _ | .pref _ b _ _ | .lkln _ b _ _ | .ulln _ b _ _ => baseS b
  | .cpyc _ a b _ _ => sSpan a 6 ++ sSpan b 6
  | .cpyx _ a _ t _ => sSpan a 6 ++ sSpan t 2
  | .job _ c => sSpan c 2
  | .taskdef _ c n _ => sSpan c 2 ++ [n]
  | .gangset _ s => [s]
  | .mma _ _ _ a b s _ _ | .mmaz _ _ _ a b s _ _ => sSpan a 6 ++ sSpan b 6 ++ sSpan s 2
  | .mdrain _ _ _ s => sSpan s 2
  | .scld _ a n _ => sSpan a 2 ++ [n]
  | .drld _ a _ _ => sSpan a 2
  | .bari _ o n | .expect _ o n => [o, n]
  | .arrive _ o | .bwait _ o => [o]
  | .xred _ _ s _ | .xwait _ s => [s]
  | .append _ g a n => sSpan g 2 ++ sSpan a 2 ++ [n]
  | .apfence _ _ g => sSpan g 2
  | .seal _ g => sSpan g 2
  | _ => []

/-- Scalar registers that an instruction writes. -/
def sWrites : Instr → List SReg
  | .add d _ _ | .sub d _ _ | .mul d _ _ | .mulh d _ _ | .mulhZ32 d _ _ | .divs d _ _ | .and d _ _ | .or d _ _
  | .xor d _ _ | .andn d _ _ | .shl d _ _ | .shr d _ _ | .sra d _ _ | .min d _ _ | .max d _ _ | .minZ32 d _ _
  | .maxZ32 d _ _ | .cmp _ d _ _ | .cmpZ32 _ d _ _ | .sel d _ _ => [d]
  | .addZ64 d _ _ | .subZ64 d _ _ | .sldZ64 d _ _ | .sargZ64 d _ => sSpan d 2
  | .addi d _ _ | .andi d _ _ | .ori d _ _ | .xori d _ _ | .shli d _ _ | .shri d _ _ | .srai d _ _ | .movi d _
  | .movhi d _ | .sld d _ _ | .sarg d _ | .srd d _ | .srdCyclo d | .srdCychi d | .mpop d _ | .mfirst d _ => [d]
  | .mand d _ _ | .mor d _ _ | .mxor d _ _ | .mnot d _ => sSpan d 3
  | .call _ | .callv _ _ => [60]
  | .svc _ => [2]
  | .voteBallot _ s _ => sSpan s 3
  | .apfence _ d _ => sSpan d 2
  | _ => []

/-- Vector registers that an instruction names, read or written (R82, R106). -/
def vNames : Instr → List Nat
  | .jmpv _ v | .callv _ v => [v.toNat]
  | .iadd _ t _ d a b | .isub _ t _ d a b | .imul _ t _ d a b | .imulh _ t d a b | .imin _ t d a b
  | .imax _ t d a b | .laneAnd _ t d a b | .laneOr _ t d a b | .laneXor _ t d a b | .laneShl _ t d a b
  | .laneShr _ t d a b | .laneSra _ t d a b | .rot _ t d a b | .laneSel _ t d a b _ =>
    vSpan d t.span ++ vSpan a t.span ++ srcRegs t.span b
  | .shfl _ _ t d a b => vSpan d t.span ++ vSpan a t.span ++ srcRegs 1 b
  | .imad _ t _ d a b c => vSpan d t.span ++ vSpan a t.span ++ srcRegs t.span b ++ vSpan c t.span
  | .iabs _ t _ d a | .not _ t d a | .popc _ t d a | .clz _ t d a | .brev _ t d a | .bfx _ t d a _ _
  | .bfi _ t d a _ _ | .gred _ _ t d a => vSpan d t.span ++ vSpan a t.span
  | .mov _ t d a => vSpan d t.span ++ srcRegs t.span a
  | .movs _ t d _ => vSpan d t.span
  | .lea _ d b i _ => vSpan d 2 ++ baseV b ++ idxV i
  | .iset _ _ t _ a b => vSpan a t.span ++ srcRegs t.span b
  | .fadd _ _ d a b | .fsub _ _ d a b | .fmul _ _ d a b | .fscale _ _ d a b | .fdiv _ _ d a b | .fmin _ d a b
  | .fmax _ d a b | .h2add _ _ _ d a b | .h2mul _ _ _ d a b => vSpan d 1 ++ vSpan a 1 ++ srcRegs 1 b
  | .ffma _ _ d a b c | .h2fma _ _ _ d a b c => vSpan d 1 ++ vSpan a 1 ++ srcRegs 1 b ++ vSpan c 1
  | .fabs _ d a | .fneg _ d a | .fclass _ d a | .frnd _ _ d a | .fsqrt _ _ d a | .rcp _ d a | .rsq _ d a
  | .ex2 _ d a | .lg2 _ d a | .sin _ d a | .cos _ d a | .tanh _ d a | .erf _ d a => vSpan d 1 ++ vSpan a 1
  | .fset _ _ _ a b => vSpan a 1 ++ srcRegs 1 b
  | .cvt _ _ _ dt sy d a => vSpan d (if dt.wide then 2 else 1) ++ vSpan a (if sy.wide then 2 else 1)
  | .ld _ t _ _ _ w b i _ v | .st _ t _ _ _ w b i _ v => vSpan v (accSpan t w) ++ baseV b ++ idxV i
  | .atom _ op t _ _ _ w b i _ d c =>
    vSpan d (t.span w) ++ vSpan c (if op = .cas then 2 * t.span w else t.span w) ++ baseV b ++ idxV i
  | .red _ _ t _ _ _ w b i _ c => vSpan c (t.span w) ++ baseV b ++ idxV i
  | .pref _ b i _ | .lkln _ b i _ | .ulln _ b i _ => baseV b ++ idxV i
  | .cpyx _ _ v _ _ => [v.toNat]
  | .accrd _ d _ x => [d.toNat, x.toNat]
  | .accwr _ _ x v => [x.toNat, v.toNat]
  | .xred _ op _ v => vSpan v (if op = .pair then 2 else 1)
  | _ => []

/-- The header of a lane word. -/
def hdrOf (i : Instr) : Option LaneHdr := (laneFields i).map lHdr

/-- The major opcode of a lane instruction. -/
def majorOf (i : Instr) : Byte := ((laneFields i).map (fun f => f.major)).getD 0

/-- The counter that a lane instruction raises (R111). -/
def raises : Instr → Option KPath
  | .ld _ _ .glob _ _ _ _ _ _ _ => some .l1
  | .st _ _ .glob _ _ _ _ _ _ _ | .red _ _ _ .glob _ _ _ _ _ _ _ => some .st
  | .atom _ _ _ .glob _ _ _ _ _ _ _ _ => some .col
  | .cln _ _ | .inv _ _ | .lkln _ _ _ _ | .ulln _ _ _ _ => some .col
  | .ld _ _ _ _ _ _ _ _ _ _ | .st _ _ _ _ _ _ _ _ _ _ | .atom _ _ _ _ _ _ _ _ _ _ _ _
  | .red _ _ _ _ _ _ _ _ _ _ _ => some .spad
  | .bari _ _ _ | .arrive _ _ | .bwait _ _ | .expect _ _ _ | .roleset _ _ | .xred _ _ _ _ | .xwait _ _ =>
    some .spad
  | .append _ _ _ _ | .apfence _ _ _ | .seal _ _ => some .flash
  | .accrd _ _ _ _ | .accwr _ _ _ _ | .scld _ _ _ _ | .drld _ _ _ _ => some .acc
  | _ => none

/-- Scalar instructions that wait for every lane word of earlier runs and its results (R102, R141, R164, R346). -/
def waitsDone : Instr → Bool
  | .brd _ _ _ _ _ | .jmpv _ _ | .callv _ _ | .rjoin _ | .looph _ | .exit | .sigchk _ | .snap | .eret | .yield
  | .trap _ | .svc _ | .bkpt _ => true
  | .srd _ r => r = .role || r = .gang || r = .sigval || r = .deadlanes || r = .deadm0 || r = .deadm1 ||
      r = .deadm2 || r = .fpflags
  | .swrFpflags _ => true
  | _ => false
/-- Scalar instructions that wait until those words have issued (R151). -/
def waitsIssued : Instr → Bool
  | .sld _ _ _ | .sldZ64 _ _ _ | .sst _ _ _ | .sstZ64 _ _ _ | .sarg _ _ | .sargZ64 _ _ | .ljmp _ => true
  | _ => false
/-- Instructions that an acquire or fence in progress holds (R222, R223). -/
def heldByAcquire : Instr → Bool
  | .sld _ _ _ | .sldZ64 _ _ _ | .sst _ _ _ | .sstZ64 _ _ _ | .sarg _ _ | .sargZ64 _ _ => true
  | .ld _ _ _ _ _ _ _ _ _ _ | .st _ _ _ _ _ _ _ _ _ _ | .atom _ _ _ _ _ _ _ _ _ _ _ _
  | .red _ _ _ _ _ _ _ _ _ _ _ | .fence _ _ | .cln _ _ | .inv _ _ | .pref _ _ _ _ | .lkln _ _ _ _
  | .ulln _ _ _ _ => true
  | _ => false
/-- Instructions before which a Garnet context is recalled (R123). -/
def recallsFirst (i : Instr) : Bool :=
  match i with
  | .looph _ | .exit | .sigchk _ | .snap | .swrEjth _ | .swrRjto _ | .swrFpflags _ | .swrTrapState _ _ | .trap _
  | .svc _ | .bkpt _ | .eret | .yield => true
  | _ =>
    match laneFields i with
    | some f => f.major = 0x04 || f.major = 0x18 || f.major = 0x19 || f.major = 0x1A || f.major = 0x1B
    | none => false

/-- A memory instruction with acquire semantics, a fence, `BWAIT` or `XWAIT` holds the group while outstanding (R222 to R224, R315,
R322). -/
def holdsGroup (r : Req) : Bool :=
  match r.kind with
  | .mem _ _ _ _ .acq _ _ _ | .mem _ _ _ _ .ar _ _ _ => true
  | .fence _ | .inv _ | .bwait _ _ _ _ _ _ _ | .xwait _ _ => true
  | _ => false

/-! ### Fetching (R94, R101, R155, R157) -/

/-- What a fetch answers: the word, a missing translation at an address, or a trap. -/
inductive Fetched where
  | word (w : BitVec 96)
  | miss (va : Nat)
  | bad (t : TrapInfo)
deriving DecidableEq, Repr

/-- Whether a program counter names a word of its section (R94, R155). -/
def pcOk (size n pc : Nat) : Bool := pc % n = 0 && decide (pc + n ≤ size)

/-- The bytes of an instruction of a section: `n` bytes at virtual address `va`, which may cross one page. -/
def fetchAt (s : State) (g : Group) (p : Path) (src n va : Nat) : Fetched :=
  match translate s g va .exec with
  | .bad c => .bad (mkAddrTrap s p src c va 0xFFFF)
  | .miss => .miss va
  | .ok a =>
    if va / 4096 = (va + n - 1) / 4096 then .word (BitVec.ofNat 96 (homeNat s n a))
    else
      let vb := (va + n - 1) / 4096 * 4096
      match translate s g vb .exec with
      | .bad c => .bad (mkAddrTrap s p src c vb 0xFFFF)
      | .miss => .miss vb
      | .ok b => .word (BitVec.ofNat 96 (homeNat s (vb - va) a + 256 ^ (vb - va) * homeNat s (n - (vb - va)) b))

/-- `fetch_range` with the stream's program counter (R335). -/
def rangeTrap (s : State) (p : Path) (lane : Bool) : TrapInfo :=
  mkTrap { s with ir := 0 } p (if lane then 1 else 0) 0x02 (if lane then p.lpc else p.spc) (if lane then 1 else 0)

/-- The word that a buffer slot holds for an offset (R103). -/
def heldWord (l : List (Nat × BitVec 96)) (pc : Nat) : Option (BitVec 96) := (l.find? (fun e => e.1 = pc)).map (fun e => e.2)
/-- What a buffer slot holds once the word at an offset has issued: the words behind it (R103). -/
def heldAfter (l : List (Nat × BitVec 96)) (pc : Nat) : List (Nat × BitVec 96) := (l.dropWhile (fun e => e.1 ≠ pc)).drop 1
/-- The next word of a path's scalar stream: held by its buffer slot (R103), or fetched. -/
def fetchScalar (s : State) (g : Group) (p : Path) : Fetched :=
  match heldWord p.heldS p.spc.toNat with
  | some w => .word w
  | none =>
    let k := kernOf s g
    if pcOk k.scalarSize 4 p.spc.toNat then fetchAt s g p 0 4 (k.scalarBase + p.spc.toNat)
    else .bad (rangeTrap s p false)
/-- The next word of a path's lane stream: held by its buffer slot (R103), or fetched. -/
def fetchLane (s : State) (g : Group) (p : Path) : Fetched :=
  match heldWord p.heldL p.lpc.toNat with
  | some w => .word w
  | none =>
    let k := kernOf s g
    if pcOk k.laneSize 12 p.lpc.toNat then fetchAt s g p 1 12 (k.laneBase + p.lpc.toNat)
    else .bad (rangeTrap s p true)

/-- The illegal-instruction trap of a fetched word (R94, R335). -/
def illegalTrap (s : State) (p : Path) (lane : Bool) : TrapInfo :=
  if lane then mkTrap s p 1 0x01 (s.ir.extractLsb' 64 32) (s.ir.extractLsb' 32 32)
  else mkTrap s p 0 0x01 (s.ir.extractLsb' 0 32) 0

/-- Decode a fetched word of a stream under the kernel's register count (R82, R94). -/
def decodeFor (k : Kernel) (lane : Bool) (w : BitVec 96) : Option Instr :=
  match (if lane then decodeLane w else decodeScalar (w.extractLsb' 0 32)) with
  | some i => if i.wfFor k.regs then some i else none
  | none => none

/-- The path with the next queued run at its head where no run is being issued (R101, R157). -/
def startRun (p : Path) : Path :=
  if p.running then p
  else match p.queue with
    | [] => p
    | r :: q => { p with lpc := r, queue := q, running := true }

/-! ### Eligibility -/

/-- Lane words of a run that starts at `pc`, up to its end, at most `n`: whether one names scalar register `r`
(R102). A word whose translation is still to come may name it; one that traps ends the run. -/
def runNames (s : State) (g : Group) (p : Path) (r : SReg) : Nat → Word → Bool
  | 0, _ => false
  | n + 1, pc =>
    match fetchLane s g { p with lpc := pc } with
    | .word w =>
      match decodeFor (kernOf s g) true w with
      | some i =>
        if r ∈ sReads i ∨ r ∈ sWrites i ∨ 61 ≤ r.toNat then true
        else match hdrOf i with
          | some h => if h.pred = 0 ∧ h.neg then false else runNames s g p r n (pc + 12)
          | none => false
      | none => false
    | .miss _ => true
    | .bad _ => false

/-- A scalar instruction that writes `r` waits until every word of earlier runs that names it has issued (R102). -/
def namedByRuns (s : State) (g : Group) (p : Path) (r : SReg) : Bool :=
  let fuel := (kernOf s g).laneSize / 12
  (p.running && (61 ≤ r.toNat || runNames s g p r fuel p.lpc)) ||
    p.queue.any (fun q => decide (61 ≤ r.toNat) || runNames s g p r fuel q)

/-- Whether a path's hold lets `i` issue: the instruction that waits is issued again. -/
def holdOk (p : Path) (i : Instr) (lane : Bool) : Bool :=
  match p.hold with
  | .free => true
  | .ljmp => lane
  | .rjoin t => i = .rjoin t
  | .snap => i = .snap
  | .looph => match i with
    | .looph _ => true
    | _ => false
  | .eject _ _ _ _ _ => false

/-- Whether a handler lets the path issue: the handler's own path (R337). -/
def handlerOk (g : Group) (p : Path) : Bool :=
  match g.handler with
  | some h => h.path = p.id
  | none => true

/-- A store-class request with a release, or another agent's hold, keeps the group's later accesses (R222). -/
def acquireOk (g : Group) (i : Instr) : Bool := !(heldByAcquire i && g.reqs.any holdsGroup)

/-- A `BRD` whose outcome the pool has still to decide keeps the group's fetch suspended (R113, R121). -/
def ejectPending (g : Group) : Bool := g.paths.any (fun q => match q.hold with
  | .eject _ _ _ _ _ => true
  | _ => false)

/-- The registers of the activity triple (R74). -/
def maskRegs : List SReg := [61, 62, 63]
/-- Scalar registers that an instruction reads or writes, with the mask that a diverging or rejoining instruction reads and writes
(R116, R149). -/
def sNamed (i : Instr) : List SReg :=
  sReads i ++ sWrites i ++ (match i with
    | .brd _ _ _ _ _ | .jmpv _ _ | .callv _ _ | .rjoin _ | .looph _ => maskRegs
    | _ => [])

/-- The lines of the register cache that an instruction needs (R106, R107). -/
def linesNeeded (i : Instr) : List Nat :=
  (vNames i).foldl (fun ls v => ls ++ [v * 3, v * 3 + 1, v * 3 + 2]) []
/-- The first needed line that is not resident; a Garnet context holds its own copies. -/
def lineMissing (g : Group) (i : Instr) : Option Nat :=
  if g.garnet.isSome then none else (linesNeeded i).find? (fun l => !g.lines.getLsbD l)

/-- An entry of `named` still holds its lines: its results are not written, or its own request, which bears the number behind the
instruction's serial number, is outstanding (R112). -/
def namedLive (g : Group) (t : Nat) (e : Nat × Nat × List Nat) : Bool := decide (t < e.2.1) || (findReq g (e.1 + 1)).isSome
/-- The lines that an instruction names join those that the group's issued instructions hold (R112). -/
def noteNamed (g : Group) (t serial : Nat) (i : Instr) : List (Nat × Nat × List Nat) :=
  let old := g.named.filter (namedLive g t)
  if g.garnet.isSome || (linesNeeded i).isEmpty then old
  else old ++ [(serial, t + 2 + latOf (majorOf i).toNat, linesNeeded i)]

/-- Scalar eligibility apart from its clock and port (R102, R106, R149, R151). -/
def scalarReady (s : State) (g : Group) (p : Path) (i : Instr) : Bool :=
  !ejectPending g && holdOk p i false && acquireOk g i && sFreeAll g (sNamed i) && (lineMissing g i).isNone &&
    (!(waitsDone i || waitsIssued i) || lanesIssued p) &&
    (lanesIssued p || (sWrites i).all (fun r => !namedByRuns s g p r))

/-- Lane eligibility apart from distance, ports and pipes (R102, R106): its flags were set at the end of the previous clock, its lines
are resident, no load is outstanding on a scalar register that it names or on the mask, and its counter has room. -/
def laneReady (g : Group) (p : Path) (i : Instr) (h : LaneHdr) : Bool :=
  !ejectPending g && holdOk p i true && acquireOk g i && decide (h.wait &&& ~~~ (g.flags &&& g.seen) = 0) &&
    (lineMissing g i).isNone && sFreeAll g (sNamed i ++ maskRegs) &&
    (match raises i with
     | some k => decide (counter g k < 63)
     | none => true)

/-- A register that a context names and that a request of its own still writes (R123). -/
def pendsReg (v : Nat) (r : Req) : Bool :=
  match r.kind with
  | .mem k _ t w _ _ d _ => (k = .ld || k = .atom) && decide (d.toNat ≤ v) && decide (v < d.toNat + t.span w)
  | .accrd d _ _ | .sfu _ d => decide (d.toNat = v)
  | _ => false
/-- The clock before which a lane instruction does not issue (R106); a Garnet context ignores distances and interlocks its own
registers (R123). -/
def laneClock (g : Group) (p : Path) (h : LaneHdr) : Nat :=
  if g.garnet.isSome then Nat.max p.idle (g.pend.foldl (fun m e => Nat.max m e.at_) 0)
  else if p.tPrev = 0 then 0 else p.tPrev - 1 + 3 + h.dist.toNat
/-- A context waits for the loads that still write a register which the instruction names (R123). -/
def contextFree (g : Group) (i : Instr) : Bool :=
  g.garnet.isNone || (vNames i).all (fun v => !g.reqs.any (pendsReg v))

/-- The clock before which a scalar instruction does not issue: the results that it waits for are written, and where it waits for lane
words, each has issued its three beats (R102, R151, R348). -/
def scalarClock (g : Group) (p : Path) (i : Instr) : Nat :=
  let t := g.pend.foldl (fun m e =>
    if waitsDone i then Nat.max m e.at_
    else match e.dst with
      | .scal r _ _ => if r ∈ sNamed i then Nat.max m e.at_ else m
      | _ => m) 0
  let f := if waitsDone i then g.fpDue.foldl (fun m e => Nat.max m e.1) 0 else 0
  let beats := if (waitsDone i || waitsIssued i) && decide (p.tPrev ≠ 0) then p.tPrev + 2 else 0
  Nat.max (Nat.max (Nat.max t f) beats) p.idle

/-- A poisoned scalar register that an instruction reads (R371). -/
def readsPoison (g : Group) (i : Instr) : Bool := (sReads i).any (fun r => r.toNat ∈ g.spoison)

/-- Special functions that have completed by a clock set their flags and sticky bits (R188). -/
def sfuDue (g : Group) (t : Nat) : Group :=
  g.reqs.foldl (fun g r => match r.kind with
    | .sfu d _ => if d ≤ t then finishReq g r.id else g
    | _ => g) g

end Sys2Proof.Machine
end

