-- ==== Sys2Proof/Machine/Barrier.lean ====
section
/-! DEFINITION. Cluster-window places (R67, R202), barrier objects and their events (R308 to R317, R382), and stores
to scratchpads that break an object. -/
namespace Sys2Proof.Machine

/-! ### Scratchpad places -/

/-- Scratchpad bytes of a cluster's window (R67). -/
def windowSize (k : Kernel) : Nat := teamsOf k * k.spad
/-- The team with an index in a cluster; a cluster that is out holds no place. -/
def teamAt (s : State) (cl idx : Nat) : Option Team :=
  if ((tabFind s.clusters cl).map (fun c => decide (c.state = .out))).getD false then none
  else (s.teams.find? (fun e => decide (e.2.cluster = cl) && decide (e.2.idx = idx))).map (fun e => e.2)
/-- The core and scratchpad offset of a window offset of a team's cluster (R67). -/
def winPlace (s : State) (k : Kernel) (tm : Team) (off : Nat) : Option (Nat × Nat) :=
  if off < windowSize k then
    (teamAt s tm.cluster (off / k.spad)).map (fun t => (t.core, t.spadOff + off % k.spad))
  else none
/-- The core and scratchpad offset of an offset of the team's own partition (R202). -/
def ownPlace (k : Kernel) (tm : Team) (off : Nat) : Option (Nat × Nat) :=
  if off < k.spad then some (tm.core, tm.spadOff + off) else none

/-! ### Barrier objects (R308) -/

/-- A barrier object as its 16 bytes hold it (R308). -/
structure BarObj where
  n : Nat
  rem : Nat
  tiles : Int
  broken : Bool
  owner : Nat
  phase : Nat
deriving DecidableEq, Repr

/-- Read an object's fields (R308). -/
def readBar (s : State) (c off : Nat) : BarObj :=
  let w := spadNat s c 4 (off + 12)
  { n := spadNat s c 4 off, rem := spadNat s c 4 (off + 4), tiles := (BitVec.ofNat 32 (spadNat s c 4 (off + 8))).toInt,
    broken := bitN w 30, owner := w / 65536 % 32, phase := w % 65536 }
/-- Write a valid object's fields (R308). -/
def writeBar (s : State) (c off : Nat) (b : BarObj) : State :=
  let s := spadWrite 4 s c off b.n
  let s := spadWrite 4 s c (off + 4) b.rem
  let s := spadWrite 4 s c (off + 8) (BitVec.ofInt 32 b.tiles).toNat
  spadWrite 4 s c (off + 12) (2 ^ 31 + (if b.broken then 2 ^ 30 else 0) + b.owner * 65536 + b.phase % 65536)
/-- Whether a core's unit holds a valid object at an offset (R308). -/
def barValid (s : State) (c off : Nat) : Bool := (coreOf s c).bars.any (fun e => decide (e.1 = off))

/-- Change every `BWAIT` registered at an object. -/
def mapWaits (s : State) (c off : Nat) (f : Req → Nat → Bool → Bool → Nat × Bool × Bool) : State :=
  { s with groups := s.groups.map (fun e => (e.1, { e.2 with reqs := e.2.reqs.map (fun r =>
      match r.kind with
      | .bwait c' off' w ph own l b =>
        if c' = c ∧ off' = off then
          { r with kind := .bwait c off w (f r ph l b).1 own (f r ph l b).2.1 (f r ph l b).2.2 }
        else r
      | _ => r) })) }
/-- Whether some `BWAIT` waits at an object. -/
def hasWaiter (s : State) (c off : Nat) : Bool :=
  s.groups.any (fun e => e.2.reqs.any (fun r =>
    match r.kind with
    | .bwait c' off' _ ph _ _ _ => decide (c' = c) && decide (off' = off) && decide (ph < 65536)
    | _ => false))

/-- Where an arrival entry of a group lies. -/
def arrivalAt (s : State) (g : Group) (a : Arrival) : Option (Nat × Nat) :=
  match teamOf s g with
  | some tm => winPlace s (kernOf s g) tm a.off
  | none => none

/-- The phase of an object completes (R309 step 2): the next phase, every arrival entry and waiter of it told. -/
def phaseComplete (s : State) (c off : Nat) (b : BarObj) : State :=
  let s := writeBar s c off { b with phase := (b.phase + 1) % 65536, rem := b.n, tiles := 0 }
  let s := mapWaits s c off (fun _ ph l br => (if ph = b.phase then 65536 else ph, l, br))
  { s with groups := s.groups.map (fun e => (e.1, { e.2 with arrivals := e.2.arrivals.map (fun a =>
      if a.phase = b.phase ∧ arrivalAt s e.2 a = some (c, off) then { a with passed := true } else a) })) }

/-- An event left the object as `b`: it is stored, and step 2 of R309 looks at it at the end of clock `t`. -/
def barSettle (s : State) (c off : Nat) (b : BarObj) (t : Nat) : State :=
  modCore (writeBar s c off b) c (fun k => { k with barDue := tabPut k.barDue off t })
/-- Step 2 of R309 at an object: the phase completes where no arrival and no tile remains. -/
def barClose (s : State) (c off : Nat) : State :=
  let b := readBar s c off
  let s := modCore s c (fun k => { k with barDue := tabDel k.barDue off })
  if barValid s c off = true ∧ b.broken = false ∧ b.rem = 0 ∧ b.tiles = 0 then phaseComplete s c off b else s
/-- A request of R309's steps 3 and 4 reaches an object: the steps before it come first. -/
def barMeet (s : State) (c off : Nat) : State :=
  match tabFind (coreOf s c).barDue off with
  | some t => if t ≤ s.clock then barClose s c off else s
  | none => s
/-- Every object whose step 2 lies before clock `t` takes it (R309). -/
def closeBars (s : State) (t : Nat) : State :=
  s.cores.foldl (fun s e => (e.2.barDue.filter (fun d => decide (d.2 < t))).foldl (fun s d => barClose s e.1 d.1) s) s

/-- An object becomes broken: the valid bit stays, and the `BWAIT`s whose phase has not completed end (R315, R317). -/
def markBroken (s : State) (c off : Nat) : State :=
  let w := spadNat s c 4 (off + 12)
  let s := spadWrite 4 s c (off + 12) (w % 2 ^ 30 + 2 ^ 30 + 2 ^ 31)
  mapWaits s c off (fun _ ph l b => (ph, l, b || (!l && decide (ph < 65536))))

/-- A tile arrival at a barrier (R310): discarded at an object that is not valid. -/
def tileArrive (s : State) (c off : Nat) : State :=
  if barValid s c off then
    let b := readBar s c off
    if b.tiles - 1 < -65536 then markBroken s c off
    else barSettle s c off { b with tiles := b.tiles - 1 } s.clock
  else s

/-- Write `n` bytes to a scratchpad for a program or an engine: a write to a valid object breaks it (R317). -/
def spadStore (s : State) (c n off x : Nat) : State :=
  let hit := (coreOf s c).bars.filter (fun e => decide (e.1 < off + n) && decide (off < e.1 + 16))
  hit.foldl (fun s e => markBroken s c e.1) (spadWrite n s c off x)

/-- Invalidate an object whose owner retires, ending the waits of other teams' groups that its phase has not ended; one registered in
this clock came too late (R382). -/
def barInvalidate (s : State) (c off : Nat) : State :=
  let w := spadNat s c 4 (off + 12)
  let s := spadWrite 4 s c (off + 12) (w % 2 ^ 31)
  let s := mapWaits s c off (fun r ph l b =>
    if l || b || decide (65536 ≤ ph) then (ph, l, b) else (ph, true, decide (r.at_ = s.clock)))
  modCore s c (fun k => { k with bars := k.bars.filter (fun e => e.1 ≠ off), barDue := tabDel k.barDue off })

/-- Every object that a team owns is invalidated (R382). -/
def barsOfTeam (s : State) (team : Nat) : State :=
  s.cores.foldl (fun s e =>
    (e.2.bars.filter (fun b => b.2 = team)).foldl (fun s b => barInvalidate s e.1 b.1) s) s

end Sys2Proof.Machine
end

