-- ==== Sys2Proof/Machine/View.lean ====
section
/-! DEFINITION. Tensor views (R26 to R30, R230), the places of their elements, and how an engine reads and writes
bytes at home slices and in scratchpads (R200, R371). -/
namespace Sys2Proof.Machine

/-! ### Records and views -/

/-- Bits of an element of a type code (R27). -/
def tyBits (ty : Nat) : Nat :=
  if ty = 1 ∨ ty = 2 ∨ ty = 12 ∨ ty = 13 ∨ ty = 15 then 8
  else if ty = 3 ∨ ty = 4 ∨ ty = 10 ∨ ty = 11 then 16
  else if ty = 5 ∨ ty = 6 ∨ ty = 9 then 32
  else if ty = 7 ∨ ty = 8 then 64 else 4
/-- Bytes that one element touches. -/
def tyBytes (ty : Nat) : Nat := if tyBits ty = 4 then 1 else tyBits ty / 8

/-- A layout record from its 64 bytes (R26, R27), none where it is malformed or a reserved field is not zero (R7);
its base and extents are still to be filled in. -/
def recordView (rd : Nat → Byte) : Option View :=
  let b := fun i => (rd i).toNat
  let fl := b 4
  let ragged := decide (fl % 2 = 1)
  let bd := b 5 / 16
  let ld := b 5 % 16
  let rank := b 0
  let okRank := decide (1 ≤ rank) && decide (rank ≤ 4)
  let okTy := decide (1 ≤ b 1) && decide (b 1 ≤ 15)
  let okRag := if ragged then decide (bd < rank) && decide (ld < rank) && decide (bd ≠ ld) else decide (b 5 = 0)
  let okZero := decide (fl < 4) && decide (b 6 = 0) && decide (b 7 = 0) &&
    ((List.range 12).all (fun i => decide (b (52 + i) = 0)))
  if okRank && okTy && decide (b 2 < 4) && decide (b 3 < 4) && okRag && okZero then
    some { space := 0, base := 0, team := 0, ty := b 1, rank := rank, swz := b 2, inter := b 3, ragged := ragged,
           zfill := decide (fl / 2 % 2 = 1), bdim := bd, ldim := ld,
           strides := (List.range 4).map (fun d => (BitVec.ofNat 64 (bytesNat rd 8 (8 + 8 * d))).toInt),
           extents := [], fill := BitVec.ofNat 32 (bytesNat rd 4 48), lens := [],
           box := (List.range 4).map (fun d => bytesNat rd 2 (40 + 2 * d)) }
  else none

/-- The space that a base names (R230): 0 global, 1 window, 2 own partition. -/
def spaceNo (base : Nat) : Nat :=
  if base / 2 ^ 32 = 0xFFFFFFFE then 1 else if base / 2 ^ 32 = 0xFFFFFFFD then 2 else 0
/-- A view with its register block: base and extents (R28, R230). -/
def viewBlock (v : View) (team base : Nat) (ext : List Nat) : View :=
  let sp := spaceNo base
  { v with space := sp, base := if sp = 0 then base else base % 2 ^ 32, team := team, extents := ext }

def extent (v : View) (d : Nat) : Nat := if d < v.rank then (v.extents[d]?).getD 0 else 1
def strideOf (v : View) (d : Nat) : Int := if d < v.rank then (v.strides[d]?).getD 0 else 0

/-- A word of the cluster window. -/
def winWord (s : State) (k : Kernel) (tm : Team) (off : Nat) : Nat :=
  match winPlace s k tm off with
  | some (c, o) => spadNat s c 4 o
  | none => 0

/-- Read a ragged shape record at a window offset (R30): padded length and lengths, none where it is malformed. -/
def shapeRecord (s : State) (k : Kernel) (tm : Team) (off : Nat) : Option (Nat × List Nat) :=
  if off % 8 ≠ 0 ∨ windowSize k < off + 8 then none
  else
    let n := winWord s k tm off
    let l := winWord s k tm (off + 4)
    if n < 1 ∨ 1024 < n ∨ windowSize k < off + 8 + 4 * n then none
    else
      let ls := (List.range n).map (fun i => winWord s k tm (off + 8 + 4 * i))
      if ls.all (fun x => Nat.ble x l) then some (l, ls) else none

/-- A ragged view with its shape record read: the length dimension spans the padded length (R28, R30). -/
def viewShape (s : State) (k : Kernel) (tm : Team) (v : View) (off : Nat) : Option View :=
  match shapeRecord s k tm off with
  | some (l, ls) =>
    if extent v v.bdim = ls.length then some { v with lens := ls, extents := v.extents.set v.ldim l } else none
  | none => none

/-- A view over its box (R26): in each dimension the box extent where it is larger than the extent, so that the box's elements outside
the extents are among its positions; an empty view keeps none (R28). DESIGN CHOICE: a box extent below the extent leaves nothing out, since
R26 does not say what such a box leaves out (log 79). -/
def boxView (v : View) : View :=
  if (List.range v.rank).any (fun d => decide (extent v d = 0)) then v
  else { v with extents := (List.range 4).map (fun d => max (extent v d) ((v.box[d]?).getD 0)) }
/-- Whether a position of the box lies outside the extents (R26). -/
def outside (v : View) (x : List Nat) : Bool := (List.range v.rank).any (fun d => decide (extent v d ≤ (x[d]?).getD 0))

/-- Every position of a view as four indices, in the order in which the model moves them: dimension 0 fastest. DESIGN CHOICE: R29
leaves the order of writes to overlapping elements open, and R233 the order of positions (log 62). -/
def positions (v : View) : List (List Nat) :=
  let ax := fun d => List.range (extent v d)
  (ax 3).foldr (fun d3 acc => (ax 2).foldr (fun d2 acc => (ax 1).foldr (fun d1 acc =>
    (ax 0).foldr (fun d0 acc => [d0, d1, d2, d3] :: acc) acc) acc) acc) []
def ix (x : List Nat) (d : Nat) : Nat := (x[d]?).getD 0

/-- Whether a position is padding (R30). -/
def isPad (v : View) (x : List Nat) : Bool :=
  v.ragged && decide ((v.lens[ix x v.bdim]?).getD 0 ≤ ix x v.ldim)

/-- The byte offset or address of an element (R29); a negative offset wraps in 64 bits. -/
def elemAddr (v : View) (x : List Nat) : Nat :=
  let inter : Int := if v.space ≠ 0 ∧ 1 ≤ v.inter then 4 * 2 ^ (v.inter - 1) else 0
  let i0 : Int := if tyBits v.ty = 4 then ix x 0 / 2 else ix x 0
  let a : Int := (v.base : Int) + i0 * strideOf v 0 + (ix x 1 : Int) * (strideOf v 1 + inter) +
    (ix x 2 : Int) * strideOf v 2 + (ix x 3 : Int) * strideOf v 3
  let a := (a % 2 ^ 64).toNat
  let c := a / 16 % 8
  let c' := Nat.xor c (ix x 1 % 2 ^ v.swz)
  a - c * 16 + c' * 16
/-- Whether an E2M1 element stands in the upper nibble (R27, R29). -/
def highNibble (v : View) (x : List Nat) : Bool := tyBits v.ty = 4 && ix x 0 % 2 = 1

/-- Lowest and highest byte of a view, if it holds an element. -/
def viewSpan (v : View) : Option (Nat × Nat) :=
  (positions v).foldl (fun r x =>
    let a := elemAddr v x
    let b := a + tyBytes v.ty - 1
    match r with
    | none => some (a, b)
    | some (lo, hi) => some (min lo a, max hi b)) none
/-- The range check of a view in a scratchpad space: the trap code (R234, R236, R252). -/
def viewRange (k : Kernel) (v : View) : Option Nat :=
  match viewSpan v with
  | none => none
  | some (_, hi) =>
    if v.space = 1 then (if windowSize k ≤ hi then some 0x05 else none)
    else if v.space = 2 then (if k.spad ≤ hi then some 0x04 else none) else none

/-! ### Engine accesses -/

/-- The outcome of naming a byte for an engine. -/
inductive PlaceRes where
  | at_ (l : Loc)
  | bad (code : Nat)
deriving DecidableEq, Repr

/-- The place of a byte offset of a space for an engine of a stack (R206, R230). -/
def enginePlace (s : State) (st pasid : Nat) (k : Kernel) (team space off : Nat) (a : Acc) : PlaceRes :=
  if space = 0 then
    match translateNow s st pasid off a with
    | .ok pa => .at_ (.phys pa)
    | .bad c => .bad c
    | .miss => .bad 0x60
  else
    match tabFind s.teams team with
    | some tm =>
      match (if space = 1 then winPlace s k tm off else ownPlace k tm off) with
      | some (c, o) => .at_ (.spad c o)
      | none => .bad (if space = 1 then 0x05 else 0x04)
    | none => .bad (if space = 1 then 0x05 else 0x04)

def locByte (s : State) : Loc → Byte
  | .phys pa => homeByte s pa
  | .spad c o => spadByte s c o
def locPoison (s : State) : Loc → Bool
  | .phys pa => homePoison s pa
  | .spad c o => spadPoisoned s c o

/-- Write one byte with its poison (R371); a byte of a scratchpad may break a barrier object (R317). -/
def locPut (s : State) (l : Loc) (v : Byte) (poison : Bool) : State :=
  match l with
  | .phys pa =>
    let s := homePut s pa v
    if poison then { s with poison := setIns s.poison (privAlias (redirect s pa) / 32) } else s
  | .spad c o =>
    let s := spadStore s c 1 o v.toNat
    if poison then modCore s c (fun k => { k with spadPoison := setIns k.spadPoison (o / 4) }) else s

/-- A write of `n` bytes from a place covers whole codewords of memory, or whole words of a scratchpad, which lose their poison (R371,
R373). -/
def freshUnits (s : State) (l : Loc) (n : Nat) : State :=
  match l with
  | .phys pa => if pa % 32 = 0 ∧ n = 32 then clearPoison s (codeword s pa) else s
  | .spad c o => if 4 ≤ n then spadFresh s c o n else s
/-- Write bytes with their poison, which lie together from the first place. -/
def putBytes (s : State) (ws : List (Loc × Byte × Bool)) : State :=
  let s := match ws with
    | w :: _ => freshUnits s w.1 ws.length
    | [] => s
  ws.foldl (fun s w => locPut s w.1 w.2.1 w.2.2) s

/-- The bytes of an element as places, or the cause and address of a fault. -/
def elemPlaces (s : State) (st pasid : Nat) (k : Kernel) (v : View) (x : List Nat) (a : Acc) :
    Except (Nat × Nat) (List Loc) :=
  (List.range (tyBytes v.ty)).foldr (fun i r =>
    match r with
    | .error e => .error e
    | .ok ls =>
      let off := (elemAddr v x + i) % 2 ^ 64
      match enginePlace s st pasid k v.team v.space off a with
      | .at_ l => .ok (l :: ls)
      | .bad c => .error (c, off)) (.ok [])

/-- Write an element's bits, keeping the other nibble of a packed byte. -/
def elemPut (s : State) (v : View) (x : List Nat) (ls : List Loc) (bits : Nat) (poison : Bool) : State :=
  if tyBits v.ty = 4 then
    match ls with
    | l :: _ =>
      let old := (locByte s l).toNat
      let n := if highNibble v x then old % 16 + bits % 16 * 16 else old / 16 * 16 + bits % 16
      locPut s l (BitVec.ofNat 8 n) poison
    | [] => s
  else
    putBytes s (ls.mapIdx (fun i l => (l, BitVec.ofNat 8 (bits / 256 ^ i), poison)))

/-- An element's bits and poison. -/
def elemGet (s : State) (v : View) (x : List Nat) (ls : List Loc) : Nat × Bool :=
  let n := ls.foldr (fun l acc => (locByte s l).toNat + 256 * acc) 0
  let p := ls.any (locPoison s)
  if tyBits v.ty = 4 then (if highNibble v x then n / 16 else n % 16, p) else (n, p)

end Sys2Proof.Machine
end

