-- ==== Sys2Proof/Machine/Engine.lean ====
section
/-! DEFINITION. The copy engine and task scheduler of a stack: footprints, submissions, moving tiles, completion, named
tasks, collective copies that form (R33, R34, R233, R236, R238, R240 to R243, R310). -/
namespace Sys2Proof.Machine

def modSub (s : State) (st id : Nat) (f : Sub → Sub) : State :=
  modStack s st (fun k => { k with subs := k.subs.map (fun x => if x.id = id then f x else x) })
def findSub (s : State) (st id : Nat) : Option Sub := (stackOf s st).subs.find? (fun x => x.id = id)
def delSub (s : State) (st id : Nat) : State :=
  modStack s st (fun k => { k with subs := k.subs.filter (fun x => x.id ≠ id) })

/-- The kernel of a team, of zeros for a submission without one. -/
def teamKernel (s : State) (team : Nat) : Kernel :=
  match (tabFind s.teams team).bind (fun t => tabFind s.clusters t.cluster) with
  | some cl => ((tabFind s.launches cl.launch).map (fun l => l.kern)).getD kernZero
  | none => kernZero

/-! ### Footprints (R34, R240) -/

/-- A global byte range widened to lines (R34). -/
def footGlobal (lo hi : Nat) (wr : Bool) : Foot :=
  { spad := false, core := 0, lo := lo / 128 * 128, hi := hi / 128 * 128 + 127, wr := wr }
/-- A range of a space as footprint parts (R230, R240). -/
def footOf (s : State) (team space lo hi : Nat) (wr : Bool) : List Foot :=
  if space = 0 then [footGlobal lo hi wr]
  else match tabFind s.teams team with
    | none => []
    | some tm =>
      let k := teamKernel s team
      if space = 2 then
        [{ spad := true, core := tm.core, lo := (tm.spadOff + lo) / 128 * 128,
           hi := (tm.spadOff + hi) / 128 * 128 + 127, wr := wr }]
      else
        (List.range (teamsOf k)).filterMap (fun i =>
          if lo < (i + 1) * k.spad ∧ i * k.spad ≤ hi then
            (teamAt s tm.cluster i).map (fun t =>
              { spad := true, core := t.core, lo := (t.spadOff + (max lo (i * k.spad) - i * k.spad)) / 128 * 128,
                hi := (t.spadOff + (min hi ((i + 1) * k.spad - 1) - i * k.spad)) / 128 * 128 + 127, wr := wr })
          else none)
/-- The footprint of a view (R240). -/
def footView (s : State) (v : View) (wr : Bool) : List Foot :=
  match viewSpan v with
  | some (lo, hi) => footOf s v.team v.space lo hi wr
  | none => []
/-- The footprint of a region whose base may name a space (R33, R230). -/
def footRegion (s : State) (team base len : Nat) (wr : Bool) : List Foot :=
  let sp := spaceNo base
  let b := if sp = 0 then base else base % 2 ^ 32
  footOf s team sp b (b + len - 1) wr

/-- Two parts conflict: they overlap and one is written (R240). -/
def footHit (a b : Foot) : Bool :=
  a.spad = b.spad && (!a.spad || a.core = b.core) && decide (a.lo ≤ b.hi) && decide (b.lo ≤ a.hi) && (a.wr || b.wr)
def subsConflict (a b : Sub) : Bool := a.pasid = b.pasid && a.foot.any (fun x => b.foot.any (footHit x))

/-- No earlier submission of the same PASID conflicts (R240). -/
def subFree (subs : List Sub) (x : Sub) : Bool :=
  match subs with
  | [] => true
  | y :: t => if y.id = x.id then true else !subsConflict y x && subFree t x

/-! ### Waiting for a group's earlier accesses (R222, R241, R254) -/

/-- A request that stands for memory accesses (R222). -/
def isAccess (k : ReqKind) : Bool :=
  match k with
  | .mem _ _ _ _ _ _ _ _ | .sload _ _ _ | .sstore _ _ _ => true
  | _ => false
/-- A memory request whose accesses have passed their checks and are still to perform. -/
def pastCheck (r : Req) : Bool :=
  match r.kind with
  | .mem _ _ _ _ _ _ _ accs => !accs.isEmpty
  | .sload _ _ _ | .sstore _ _ _ => true
  | _ => false
/-- A request with accesses still to perform: a memory request, or a gang instruction whose drain's accesses count as its member's
(R222, R270). -/
def unperformed (r : Req) : Bool :=
  match r.kind with
  | .gang _ drain => drain
  | _ => pastCheck r
/-- A request whose effect on the order of later accesses is still to come: an access to perform, or the invalidate of an acquire or of a
fence (R222, R223, R302). -/
def unsettled (r : Req) : Bool :=
  match r.kind with
  | .fence _ => true
  | .mem _ _ _ _ .acq _ _ _ | .mem _ _ _ _ .ar _ _ _ => true
  | _ => unperformed r
/-- A request before `id` holds back what the group's earlier accesses happen before (R302, R304, R305). -/
def settledBefore (g : Group) (id : Nat) : Bool := g.reqs.all (fun r => !(decide (r.id < id) && unsettled r))
/-- Every access that group `g` issued before request `id` has been performed. -/
def performedBefore (g : Group) (id : Nat) : Bool := g.reqs.all (fun r => !(decide (r.id < id) && unperformed r))

/-! ### Lines of a footprint in caches (R241) -/

/-- Physical lines of the global parts of a footprint. -/
def footLines (s : State) (st pasid : Nat) (fs : List Foot) (wr : Bool) : List Nat :=
  (fs.filter (fun f => !f.spad && f.wr = wr)).foldl (fun ls f =>
    (List.range ((f.hi - f.lo) / 128 + 1)).foldl (fun ls i =>
      match translateNow s st pasid (f.lo + 128 * i) .readOrExec with
      | .ok pa => setIns ls (pa / 128)
      | _ => ls) ls) []
/-- The cores whose column caches a team's copies concern: its own, or every core of a fused cluster (R241). -/
def teamCores (s : State) (team : Nat) : List Nat :=
  match tabFind s.teams team with
  | none => []
  | some tm =>
    let k := teamKernel s team
    if fusedK k then
      match tabFind s.clusters tm.cluster with
      | some cl => clusterCores k cl
      | none => [tm.core]
    else [tm.core]
/-- Write back the dirty words of lines in the cores of a team (R241). -/
def cleanLines (s : State) (cores lines : List Nat) : State :=
  cores.foldl (fun s c => lines.foldl (fun s l => writeBackLine s c l) s) s
/-- Drop the clean words of lines in the column caches and L1s of cores (R241). -/
def dropClean (s : State) (cores lines : List Nat) : State :=
  cores.foldl (fun s c => modCore s c (fun k => { k with
    col := k.col.filter (fun e => e.2.dirty || !((e.1 / 32) ∈ lines)),
    l1 := k.l1.filter (fun e => !((e.1 / 32) ∈ lines)) })) s

/-! ### Moving data -/

/-- The raw address by which a card's regions name a byte of a space (R34, R230). -/
def rawAddr (space off : Nat) : Nat :=
  if space = 1 then 0xFFFFFFFE00000000 + off else if space = 2 then 0xFFFFFFFD00000000 + off else off

/-- How a tile or a run of bytes ended: the state, the elements moved, and the cause and address of a stop; cause 0 stands for
`footprint_violation`. -/
structure Moved where
  s : State
  n : Nat
  stop : Option (Nat × Nat)

/-- Run `f` over runs of a list until one stops. What a run moves is one write: where one of its elements stops, none of it is moved
(R241, R297). -/
def moveAll {α : Type} (runs : List (List α)) (f : State → α → Except (Nat × Nat) State) (s : State) : Moved :=
  runs.foldl (fun m r =>
    if m.stop.isSome then m
    else match r.foldlM f m.s with
      | .ok t => { s := t, n := m.n + r.length, stop := none }
      | .error e => { m with stop := some e }) { s := s, n := 0, stop := none }
/-- A list cut where a key changes. -/
def runsBy {α : Type} (key : α → Nat) : List α → List (List α)
  | [] => []
  | x :: t =>
    match runsBy key t with
    | (y :: r) :: rest => if key x = key y then (x :: y :: r) :: rest else [x] :: (y :: r) :: rest
    | rest => [x] :: rest
/-- The first of a run's elements with the bytes of a unit that the run covers whole, the others with 0. -/
def tagRun {α : Type} (n : Nat) (r : List α) : List (α × Nat) := r.mapIdx (fun i x => (x, if i = 0 then n else 0))

/-- Whether a footprint covers every byte of an element (R34). -/
def elemCovered (ok : Nat → Bool) (v : View) (x : List Nat) : Bool :=
  ok (rawAddr v.space (elemAddr v x)) && ok (rawAddr v.space (elemAddr v x + tyBytes v.ty - 1))

/-- The engine's translation of an element leaves what its walk found in the second level (R206). -/
def engineSee (s : State) (st pasid : Nat) (v : View) (x : List Nat) : State :=
  if v.space = 0 then engineWalk s st pasid (elemAddr v x) else s
/-- A lower tier's controller counts a line that the engine reads, where the first of `n` bytes begins it (R210). -/
def engineReads (s : State) (st n : Nat) (ls : List Loc) : State :=
  match ls with
  | .phys pa :: _ => if pa % 128 < n then noteRead s (16 * st) pa else s
  | _ => s

/-- What an engine of a team is about to read: the dirty words of its line that the team's column caches hold are written back first
(R241), and a lower tier's controller counts it (R210). -/
def engineIn (s : State) (st team n : Nat) (ls : List Loc) : State :=
  let s := ls.foldl (fun s l => match l with
    | .phys pa => (teamCores s team).foldl (fun s c => match cfind (coreOf s c).col (pa / 4) with
      | some w => if w.dirty then writeBackLine s c (pa / 128) else s
      | none => s) s
    | .spad _ _ => s) s
  engineReads s st n ls
/-- What an engine of a team has written: no cache of the team keeps a clean copy of the words (R241). -/
def engineOut (s : State) (team : Nat) (ls : List Loc) : State :=
  ls.foldl (fun s l => match l with
    | .phys pa => (teamCores s team).foldl (fun s c => modCore s c (fun k => { k with
        col := k.col.filter (fun e => e.2.dirty || decide (e.1 ≠ pa / 4)), l1 := k.l1.filter (fun e => decide (e.1 ≠ pa / 4)) })) s
    | .spad _ _ => s) s

/-- The nibbles of the 32 bytes around its address that an element takes. -/
def elemNibbles (v : View) (x : List Nat) : List Nat :=
  let lo := 2 * (elemAddr v x % 32) + (if highNibble v x then 1 else 0)
  (List.range (tyBits v.ty / 4)).map (fun i => lo + i)
/-- The nibbles of `n` bytes around a place that a run of elements covers all. -/
def runCovers (v : View) (n : Nat) (r : List (List Nat)) : Bool :=
  match r with
  | x :: _ =>
    let ns := r.flatMap (elemNibbles v)
    let lo := 2 * (elemAddr v x % 32 / n * n)
    elemAddr v x % n = 0 && (List.range (2 * n)).all (fun i => decide (lo + i ∈ ns))
  | [] => false
/-- Consecutive elements of a view that are written as one: those of a codeword that they cover whole (R373), else those of a 4-byte
unit (R241); `writes` says which elements are written. -/
def elemRuns (v : View) (writes : List Nat → Bool) (xs : List (List Nat)) : List (List (List Nat × Nat)) :=
  (runsBy (fun x => elemAddr v x / 32) xs).flatMap (fun r =>
    if r.all writes && runCovers v 32 r then [tagRun 32 r]
    else (runsBy (fun x => elemAddr v x / 4) r).map (fun q => tagRun (if q.all writes && runCovers v 4 q then 4 else 0) q))
/-- Write an element at its places: the first of a run that covers a unit whole clears the unit's poison (R371, R373). -/
def putElem (s : State) (v : View) (x : List Nat) (n : Nat) (ls : List Loc) (bits : Nat) (poison : Bool) : State :=
  let s := match ls with
    | l :: _ => freshUnits s l n
    | [] => s
  engineOut (elemPut s v x ls bits poison) v.team ls

/-- A position of a slice is padding (R30). -/
def slicePad (sl : Slice) (x : List Nat) : Bool := if sl.src.ragged then isPad sl.src x else isPad sl.dst x
/-- A slice writes a position: not padding without zero-fill (R233). -/
def sliceWrites (sl : Slice) (x : List Nat) : Bool := outside sl.dst x || !slicePad sl x || sl.dst.zfill
/-- Move one position of a copy slice (R233): padding takes the fill pattern or stays, a box element outside the extents takes the
fill pattern (R26), any other position its source element. DESIGN CHOICE: the 4-byte fill pattern is extended by zeros for a 64-bit
element, of which R26 states no more than its low bits (log 79). -/
def moveElem (st pasid : Nat) (k : Kernel) (ok : Nat → Bool) (sl : Slice) (s : State) (xn : List Nat × Nat) :
    Except (Nat × Nat) State :=
  let x := xn.1
  let fill := outside sl.dst x || slicePad sl x
  if !sliceWrites sl x then .ok s
  else if !elemCovered ok sl.dst x || (!fill && !elemCovered ok sl.src x) then .error (0, 0)
  else match elemPlaces s st pasid k sl.dst x .write with
    | .error e => .error e
    | .ok ld =>
      let s := engineSee s st pasid sl.dst x
      if fill then .ok (putElem s sl.dst x xn.2 ld sl.dst.fill.toNat false)
      else match elemPlaces s st pasid k sl.src x .read with
        | .error e => .error e
        | .ok lsrc =>
          let s := engineIn (engineSee s st pasid sl.src x) st sl.src.team (tyBytes sl.src.ty) lsrc
          let v := elemGet s sl.src x lsrc
          .ok (putElem s sl.dst x xn.2 ld v.1 v.2)
/-- Move what is left of a copy slice (R233). -/
def moveSlice (s : State) (st pasid : Nat) (k : Kernel) (ok : Nat → Bool) (sl : Slice) : Moved :=
  moveAll (elemRuns sl.dst (sliceWrites sl) ((positions (boxView sl.dst)).drop sl.pos)) (moveElem st pasid k ok sl) s

/-- The place of a byte of a gathered block: in the frame that its page had when the `CPYX` issued, or by translation where it had
none (R237). -/
def gatherPlace (s : State) (st pasid : Nat) (b : GBlock) (a va : Nat) : PlaceRes :=
  match b.frames[va / 4096 - a / 4096]? with
  | some (some f) => .at_ (.phys (f * 4096 + va % 4096))
  | _ =>
    match translateNow s st pasid va .read with
    | .ok pa => .at_ (.phys pa)
    | .bad c => .bad c
    | .miss => .bad 0x60
/-- The bytes of a gathered element. -/
def gatherPlaces (s : State) (st pasid : Nat) (b : GBlock) (a va n : Nat) : Except (Nat × Nat) (List Loc) :=
  (List.range n).foldr (fun i r =>
    match r with
    | .error e => .error e
    | .ok ls =>
      match gatherPlace s st pasid b a (va + i) with
      | .at_ l => .ok (l :: ls)
      | .bad c => .error (c, va + i)) (.ok [])

/-- The pages of a block that had no frame when its `CPYX` issued and that translate by now, with their frames (R237). -/
def lateFrames (s : State) (st pasid : Nat) (b : GBlock) : GBlock :=
  match b.addr with
  | none => b
  | some a => { b with frames := b.frames.mapIdx (fun i f => match f with
      | some x => some x
      | none => match translateNow s st pasid (4096 * (a / 4096 + i)) .read with
        | .ok pa => some (pa / 4096)
        | _ => none) }
/-- The destination position of cell (row, element) of a block of a gather (R236). -/
def blockPos (rows : Nat) (b : GBlock) (re : Nat × Nat) : List Nat := [re.2, b.k * rows + re.1, 0, 0]
/-- Move one element of a block or hole of a gather (R236): row `r` of block `k` goes to destination row `k × R + r`. -/
def moveCell (st pasid : Nat) (k : Kernel) (dst : View) (rows rowBytes : Nat) (b : GBlock) (s : State) (xn : List Nat × Nat) :
    Except (Nat × Nat) State :=
  let x := xn.1
  let r := ix x 1 - b.k * rows
  match b.addr with
  | none =>
    if dst.zfill then
      match elemPlaces s st pasid k dst x .write with
      | .error e => .error e
      | .ok ld => .ok (putElem (engineSee s st pasid dst x) dst x xn.2 ld dst.fill.toNat false)
    else .ok s
  | some a =>
    let src : View := { dst with space := 0, base := a + r * rowBytes, swz := 0, inter := 0, rank := 1,
                                 strides := [(tyBytes dst.ty : Int)], extents := [extent dst 0] }
    let y := [ix x 0, 0, 0, 0]
    match gatherPlaces s st pasid b a (elemAddr src y) (tyBytes dst.ty) with
    | .error e => .error e
    | .ok lsrc =>
      match elemPlaces s st pasid k dst x .write with
      | .error e => .error e
      | .ok ld =>
        let s := engineIn (engineSee s st pasid dst x) st dst.team (tyBytes dst.ty) lsrc
        let v := elemGet s src y lsrc
        .ok (putElem s dst x xn.2 ld v.1 v.2)
/-- Move what is left of one block or hole of a gather (R236), row by row. DESIGN CHOICE: the box of the destination record has no effect
on a gather (R26, R236; log 79). -/
def moveBlock (s : State) (st pasid : Nat) (k : Kernel) (dst : View) (rows rowBytes : Nat) (b : GBlock) : Moved :=
  let cells := (List.range rows).flatMap (fun r => (List.range (extent dst 0)).map (fun e => blockPos rows b (r, e)))
  moveAll (elemRuns dst (fun _ => b.addr.isSome || dst.zfill) (cells.drop b.pos)) (moveCell st pasid k dst rows rowBytes b) s

/-- The bytes of a run that are written as one from an address: a whole codeword (R373), or what is left of a 4-byte unit (R241). -/
def pieceLen (dst n : Nat) : Nat := if dst % 32 = 0 ∧ 32 ≤ n then 32 else min n (4 - dst % 4)
/-- The pieces of a run of `n` bytes: offsets, the first of each with the bytes of the unit that it covers. -/
def pieces (dst n : Nat) : Nat → Nat → List (List (Nat × Nat))
  | 0, _ => []
  | fuel + 1, i =>
    if n ≤ i then []
    else
      let m := pieceLen (dst + i) (n - i)
      tagRun (if m = 32 ∨ m = 4 then m else 0) ((List.range m).map (fun j => i + j)) :: pieces dst n fuel (i + m)
/-- Move `n` bytes, lowest first (R238 kinds `0x01` and `0x03`): the byte to store is read by `rd`. -/
def moveRun (s : State) (st pasid team : Nat) (ok : Nat → Bool) (dst n : Nat)
    (rd : State → Nat → Except (Nat × Nat) (State × Byte × Bool)) : Moved :=
  let k := teamKernel s team
  moveAll (pieces dst n n 0) (fun s e =>
    let raw := dst + e.1
    let sp := spaceNo raw
    if !ok raw then .error (0, 0)
    else match rd s e.1 with
      | .error e => .error e
      | .ok (s, v, p) =>
        match enginePlace s st pasid k team sp (if sp = 0 then raw else raw % 2 ^ 32) .write with
        | .bad c => .error (c, raw)
        | .at_ l =>
          .ok (engineOut (locPut (freshUnits (if sp = 0 then engineWalk s st pasid raw else s) l e.2) l v p) team [l])) s
/-- The source byte of a byte copy. -/
def runSource (st pasid team : Nat) (ok : Nat → Bool) (src : Nat) (s : State) (i : Nat) :
    Except (Nat × Nat) (State × Byte × Bool) :=
  let raw := src + i
  let sp := spaceNo raw
  if !ok raw then .error (0, 0)
  else match enginePlace s st pasid (teamKernel s team) team sp (if sp = 0 then raw else raw % 2 ^ 32) .read with
    | .bad c => .error (c, raw)
    | .at_ l =>
      let s := engineIn (if sp = 0 then engineWalk s st pasid raw else s) st team 1 [l]
      .ok (s, locByte s l, locPoison s l)

/-- Whether a card's regions cover a raw address; a submission without a card covers everything it derived (R34). -/
def covers (x : Sub) (raw : Nat) : Bool :=
  match x.status with
  | none => true
  | some _ => x.regions.any (fun r => decide (r.1 / 128 * 128 ≤ raw) && decide (raw < (r.1 + r.2.1 + 127) / 128 * 128))

/-- Where a copy's target barrier lies. -/
def targetPlace (s : State) (team : Nat) (target : Option Nat) : Option (Nat × Nat) :=
  match target, tabFind s.teams team with
  | some off, some tm => winPlace s (teamKernel s team) tm off
  | _, _ => none
/-- In this clock the target barrier has gone past the step that takes arrivals, so that a tile's last write is performed in a later
one (R309). -/
def tileLate (s : State) (team : Nat) (target : Option Nat) : Bool :=
  match targetPlace s team target with
  | some (c, o) =>
    (match tabFind (coreOf s c).barSeen o with
     | some (t, n) => decide (t = s.clock) && decide (1 < n)
     | none => false)
  | none => false
/-- Lower the tile count of a copy's target barrier, as a request of step 1 of R309 (R310). -/
def arriveTarget (s : State) (team : Nat) (target : Option Nat) : State :=
  match targetPlace s team target with
  | some (c, o) =>
    let seen := match tabFind (coreOf s c).barSeen o with
      | some (t, n) => (s.clock, if t = s.clock then max n 1 else 1)
      | none => (s.clock, 1)
    tileArrive (modCore s c (fun k => { k with barSeen := tabPut k.barSeen o seen })) c o
  | none => s
/-- Before a counted tile arrives, the clean copies that the caches of the team's cluster hold of the lines that it wrote are dropped, so
that a group that waits for the phase reads it (R316). -/
def dropTile (s : State) (st : Nat) (x : Sub) (target : Option Nat) (dst : View) : State :=
  match target, x.team with
  | some _, some team =>
    let k := teamKernel s team
    (match (tabFind s.teams team).bind (fun tm => tabFind s.clusters tm.cluster) with
     | some cl => dropClean s (clusterCores k cl) (footLines s st x.pasid (footView s dst true) true)
     | none => s)
  | _, _ => s

/-! ### Adding submissions, and collective copies that form (R233) -/

/-- The task scheduler of a stack holds 256 submissions that have not completed (R240). -/
def stackFull (s : State) (st : Nat) : Bool := decide (256 ≤ (stackOf s st).subs.length)
/-- A fault of a submission as its record takes it: of the job, at an address (R242, R340). -/
def subInfo (x : Sub) (cls src code addr : Nat) : TrapInfo :=
  let a : Dword := BitVec.ofNat 64 addr
  { code := code, cls := cls, src := src, val0 := a.extractLsb' 0 32, val1 := a.extractLsb' 32 32, tspc := 0, tlpc := 0,
    addr := a, lane := 0xFFFF, aux := 0, ir := x.ir, path := 0 }
/-- The record of a fault of a group's submission as its group now stands (R340): the program counters of its first path. -/
def groupRecord (s : State) (gid : Nat) (g : Group) (info : TrapInfo) : TrapRec :=
  recordOf s gid g (match g.paths with
    | p :: _ => { info with tspc := p.spc, tlpc := p.lpc }
    | [] => info)
/-- The record fields that a submission takes from the group that issues it (R340). -/
def subFrom (s : State) (x : Sub) : Option TrapRec :=
  match x.from_, x.by_ with
  | some r, _ => some r
  | none, (g, _) :: _ => (tabFind s.groups g).map (fun y => groupRecord s g y (subInfo x 0 0 0 0))
  | none, [] => none
/-- Append a submission; its number is fresh. -/
def addSub (s : State) (st : Nat) (x : Sub) : State :=
  let s := modStack s st (fun k => { k with subs := k.subs ++ [{ x with id := s.fresh, from_ := subFrom s x }] })
  { s with fresh := s.fresh + 1 }

/-- The groups of a team that have not retired. -/
def liveGroups (s : State) (tm : Team) : List (Nat × Group) :=
  tm.groups.filterMap (fun g =>
    match tabFind s.groups g with
    | some x => if x.retired then none else some (g, x)
    | none => none)

/-- Form the next collective copy of a team if every unretired group has issued its own slice and the scheduler has room (R233,
R240). -/
def formOne (s : State) (team : Nat) : State :=
  match tabFind s.teams team with
  | none => s
  | some tm =>
    let mine := tm.slices.filter (fun e => e.1 = tm.formed)
    if !mine.isEmpty && !stackFull s (stackNo tm.core) && (liveGroups s tm).all (fun e => decide (tm.formed < e.2.ncpyc)) then
      let ss := mine.map (fun e => e.2.2)
      let foot := ss.flatMap (fun x => footView s x.src false ++ footView s (boxView x.dst) true)
      let pasid := match mine with
        | e :: _ => ((tabFind s.groups e.2.2.grp).map (pasidOf s)).getD 0
        | [] => 0
      let s := modTeam s team (fun t => { t with
        formed := t.formed + 1, slices := t.slices.filter (fun e => e.1 ≠ tm.formed) })
      addSub s (stackNo tm.core)
        { id := 0, pasid := pasid, work := .slices ss, foot := foot, by_ := mine.map (fun e => (e.2.2.grp, e.2.1)),
          team := some team, task := none, count := none, cardFlag := none, status := none, packet := none,
          started := false, error := 0, suspended := none, pins := [], ir := s.ir, regions := [] }
    else s
/-- Up to four copies wait to form (R233). -/
def formCopies (s : State) (team : Nat) : State := formOne (formOne (formOne (formOne s team) team) team) team

/-! ### Named tasks (R243) -/

def slotIs (pasid num : Nat) (x : TaskSlot) : Bool := x.pasid = pasid && x.num = num
def findSlot (s : State) (st pasid num : Nat) : Option TaskSlot := (stackOf s st).tasks.find? (slotIs pasid num)
def putSlot (s : State) (st : Nat) (x : TaskSlot) : State :=
  let put := fun (l : List TaskSlot) =>
    if List.any l (slotIs x.pasid x.num) then l.map (fun y => if slotIs x.pasid x.num y then x else y) else l ++ [x]
  modStack s st (fun k => { k with tasks := put k.tasks })
/-- Whether an event that names a pair can be taken: a slot holds it or one of the 256 is free (R243). -/
def slotRoom (s : State) (st pasid num : Nat) : Bool :=
  (findSlot s st pasid num).isSome || decide ((stackOf s st).tasks.length < 256)

/-- Where a status word cannot be written: the fault's cause and address (R242). -/
def statusFault (s : State) (st pasid : Nat) (status : Option Nat) : Option (Nat × Nat) :=
  match status with
  | none => none
  | some va =>
    match translateNow s st pasid va .write with
    | .ok _ => none
    | .bad c => some (c, va)
    | .miss => some (0x60, va)
/-- Write a status word at home slices (R238). -/
def writeStatus (s : State) (st pasid : Nat) (status : Option Nat) (code : Nat) : State :=
  match status with
  | none => s
  | some va =>
    match translateNow s st pasid va .write with
    | .ok pa => homeWrite 8 s pa code
    | _ => s

/-- Every waiter of a task that is done completes (R243). -/
def wakeTask (s : State) (st pasid num : Nat) : State :=
  s.groups.foldl (fun s e =>
    e.2.reqs.foldl (fun s r =>
      match r.kind with
      | .taskwait st' n => if st' = st ∧ n = num ∧ pasidOf s e.2 = pasid then finishAt s e.1 r.id else s
      | _ => s) s) s

/-- A finished submission's groups: flags set, request completed (R110, R239, R241). -/
def subFlags (s : State) (x : Sub) : State :=
  let s := x.by_.foldl (fun s e => finishAt s e.1 e.2) s
  match x.cardFlag with
  | some (g, f, id) => modGroup s g (fun y => setFlag y f id)
  | none => s

/-- The card of a task that runs is submitted once the scheduler has room for it (R240, R243). -/
def submitTask (s : State) (st pasid num : Nat) : State :=
  match findSlot s st pasid num with
  | none => s
  | some x =>
    match x.card with
    | some c =>
      if x.state = .running ∧ !stackFull s st then
        addSub (putSlot s st { x with card := none }) st { c with task := some num }
      else s
    | none => s
/-- A defined task whose count has reached zero runs its card; one below zero is done with status 5, an error, which sets the card's
flag (R238, R243); where its status word faults, the job ends as a submission of its own that fault suspends or fails (R242). -/
def taskSettle (s : State) (st pasid num : Nat) : State :=
  match findSlot s st pasid num with
  | none => s
  | some x =>
    if x.state = .defined ∧ x.v = 0 then submitTask (putSlot s st { x with state := .running }) st pasid num
    else if x.state = .defined ∧ x.v < 0 then
      match x.card.filter (fun c => (statusFault s st pasid c.status).isSome) with
      | some c =>
        submitTask (putSlot s st { x with state := .running, card := some { c with work := .refused 5, foot := [], count := none } })
          st pasid num
      | none =>
        let s := putSlot s st { x with state := .done, card := none }
        let s := match x.card with
          | some c => subFlags (writeStatus s st pasid c.status 5) c
          | none => s
        wakeTask s st pasid num
    else s
/-- After a submission has left: cards of tasks that wait for room are submitted, and copies that wait for it form (R233, R240). -/
def takeRoom (s : State) (st : Nat) : State :=
  let s := (stackOf s st).tasks.foldl (fun s x => submitTask s st x.pasid x.num) s
  s.teams.foldl (fun s e => if stackNo e.2.core = st ∧ !e.2.slices.isEmpty then formCopies s e.1 else s) s

/-- A count-down of a task (R243). -/
def countDown (s : State) (st pasid num : Nat) : State :=
  match findSlot s st pasid num with
  | none => putSlot s st { pasid := pasid, num := num, v := -1, c := 0, card := none, state := .open, packet := none }
  | some x =>
    match x.state with
    | .open => putSlot s st { x with v := x.v - 1 }
    | .defined => taskSettle (putSlot s st { x with v := x.v - 1 }) st pasid num
    | .running | .done => putSlot s st { x with c := x.c - 1 }

/-- `TASKDEF` and a task packet on a slot that is neither defined nor running (R243). -/
def taskDefine (s : State) (st pasid num n : Nat) (card : Sub) (pk : Option (Nat × Nat)) : State :=
  let base : TaskSlot :=
    { pasid := pasid, num := num, v := n, c := 0, card := some card, state := .defined, packet := pk }
  let x := match findSlot s st pasid num with
    | none => base
    | some y =>
      match y.state with
      | .open => { base with v := y.v + n, c := y.c }
      | _ => { base with v := n + y.c }
  taskSettle (putSlot s st x) st pasid num
/-- Whether a definition finds the task busy (R243). -/
def taskBusy (s : State) (st pasid num : Nat) : Bool :=
  match findSlot s st pasid num with
  | some x => x.state = .defined || x.state = .running
  | none => false

/-! ### Job cards (R33, R238) -/

/-- A card's header and regions under R33, with its kind (R238), from a reader of its little-endian numbers by offset: none where it is
malformed. The work and the owner fields of the submission are still to be filled in. -/
def cardHead (rd : Nat → Nat → Nat) (card : Nat) : Option (Nat × Sub) :=
  let kind := rd 0 1
  let n := rd 1 1
  let task := rd 2 2
  let flag := rd 4 1
  let par := rd 8 8
  let regs := (List.range 6).map (fun i => (rd (16 + 16 * i) 8, rd (24 + 16 * i) 6, rd (30 + 16 * i) 2))
  let okHead := card % 128 = 0 && decide (1 ≤ kind) && decide (kind ≤ 4) && decide (1 ≤ n) && decide (n ≤ 6) &&
    (decide (task < 256) || task = 0xFFFF) && (decide (flag < 12) || flag = 15) && rd 5 3 = 0 && par % 128 = 0
  let okRegs := (regs.mapIdx (fun i r =>
    if i < n then decide (1 ≤ r.2.1) && decide (r.1 + r.2.1 ≤ 2 ^ 64) && decide (r.2.2 < 2)
    else r.1 = 0 && r.2.1 = 0 && r.2.2 = 0)).all id
  if okHead && okRegs then
    some (kind,
      { id := 0, pasid := 0, work := .none, foot := [], by_ := [], team := none, task := none,
        count := if task = 0xFFFF then none else some task,
        cardFlag := if flag = 15 then none else some (0, flag, 0), status := some par, packet := none,
        started := false, error := 0, suspended := none, pins := [], ir := 0,
        regions := (regs.take n).map (fun r => (r.1, r.2.1, r.2.2 = 1)) })
  else none
/-- The work that a parameter block gives a job of a kind, from a reader of its numbers by offset (R238): none where it is malformed. -/
def cardWork (rd : Nat → Nat → Nat) (kind : Nat) : Option Work :=
  let ext := fun a => (List.range 4).map (fun i => rd (a + 8 + 4 * i) 4)
  if kind = 1 then
    let len := rd 24 8
    if 1 ≤ len ∧ len ≤ 2 ^ 40 then some (.bytes (rd 8 8) (rd 16 8) len) else none
  else if kind = 2 then
    let a := rd 8 8
    let b := rd 16 8
    if a % 64 = 0 ∧ b % 64 = 0 then some (.tensor a b (rd 24 8) (rd 48 8) (ext 24) (ext 48)) else none
  else if kind = 3 then
    let len := rd 16 8
    if 1 ≤ len ∧ len ≤ 2 ^ 40 then some (.fill (rd 8 8) len (BitVec.ofNat 64 (rd 24 8))) else none
  else some .none

/-- The footprint of a card: its regions, widened (R34, R240). -/
def cardFoot (s : State) (x : Sub) : List Foot :=
  x.regions.flatMap (fun r => footRegion s (x.team.getD 0) r.1 r.2.1 r.2.2)
/-- Whether a card's regions cover the 64 bytes of a layout record (R34). -/
def recCovered (x : Sub) (a : Nat) : Bool := covers x a && covers x (a + 63)

/-- Whether a footprint covers what is read of a ragged shape record at a window offset: its header, and where that is well formed its
lengths (R30, R34). -/
def shapeCovered (s : State) (k : Kernel) (tm : Team) (ok : Nat → Bool) (off : Nat) : Bool :=
  let n := winWord s k tm off
  (List.range (if 1 ≤ n ∧ n ≤ 1024 then 8 + 4 * n else 8)).all (fun i => ok (rawAddr 1 (off + i)))
/-- The slice of a tensor copy from its records' bytes and blocks, or the status with which it ends: 3 where they are malformed or
differ (R234, R238), 2 where a ragged shape record, which is read here (R30), lies outside the regions (R34). -/
def tensorSlice (s : State) (team : Nat) (ok : Nat → Bool) (srec drec : List Byte) (sbase dbase : Nat) (sext dext : List Nat) :
    Except Nat Slice :=
  match recordView (fun i => (srec[i]?).getD 0), recordView (fun i => (drec[i]?).getD 0) with
  | some a, some b =>
    let a := viewBlock a team sbase sext
    let b := viewBlock b team dbase dext
    let same := a.rank = b.rank && a.ty = b.ty && a.ragged = b.ragged && (!a.ragged || (a.bdim = b.bdim && a.ldim = b.ldim)) &&
      (List.range a.rank).all (fun d => (a.ragged && d = a.ldim) || extent a d = extent b d)
    if !same then .error 3
    else if a.ragged then
      match tabFind s.teams team with
      | some tm =>
        let off := (sext[a.ldim]?).getD 0
        if !shapeCovered s (teamKernel s team) tm ok off then .error 2
        else match viewShape s (teamKernel s team) tm a off, viewShape s (teamKernel s team) tm b off with
        | some a, some b => .ok { dst := b, src := a, grp := 0, ir := 0, target := none, arrived := false }
        | _, _ => .error 3
      | none => .error 3
    else .ok { dst := b, src := a, grp := 0, ir := 0, target := none, arrived := false }
  | _, _ => .error 3
/-- The work of a tensor copy whose records have been read: its slice, or the end with a status (R34, R238). -/
def tensorWork (s : State) (team : Nat) (ok : Nat → Bool) (srec drec : List Byte) (sbase dbase : Nat) (sext dext : List Nat) : Work :=
  match tensorSlice s team ok srec drec sbase dbase sext dext with
  | .ok sl => .slices [sl]
  | .error c => .refused c
/-- Bytes of a record that an engine reads at home slices, or the cause and address of a fault (R206, R242). -/
def engineBytes (s : State) (st pasid n va : Nat) : Except (Nat × Nat) (List Byte) :=
  (List.range n).foldr (fun i r =>
    match r with
    | .error e => .error e
    | .ok bs =>
      match translateNow s st pasid (va + i) .read with
      | .ok pa => .ok (homeByte s pa :: bs)
      | .bad c => .error (c, va + i)
      | .miss => .error (0x60, va + i)) (.ok [])

end Sys2Proof.Machine
end

