-- ==== Sys2Proof/Machine/DrainWords.lean ====
section
/-! DEFINITION. Drain programs: what they name and reach (R261, R264, R266, R269), and the accesses of a drain as those of its members
(R270). -/
namespace Sys2Proof.Machine

def dmemSize : DMemTy → Nat
  | .f32 => 4
  | _ => 2
def dstSize : DStTy → Nat
  | .s32 | .f32 => 4
  | .bf16 | .f16 => 2
  | _ => 1
/-- The memory form of a drain word: base pair, stride register, element size, write, and which addresses. -/
inductive DAcc where
  | row (p : SReg) (n : Nat)
  | col (p : SReg) (n : Nat)
  | mat (p m : SReg) (n : Nat) (wr half : Bool)
  | scale (p m : SReg)
deriving DecidableEq, Repr
def drainAcc : Instr → Option DAcc
  | .drow t _ p => some (.row p (dmemSize t))
  | .dcol t _ p => some (.col p (dmemSize t))
  | .dld t _ p m => some (.mat p m (dmemSize t) false false)
  | .dst t _ p m => some (.mat p m (dstSize t) true (t = .e2m1))
  | .dsts _ p m => some (.scale p m)
  | _ => none
/-- The words of a program up to and with its first `DEND` (R261). -/
def drainRunWords : List Dword → List Instr
  | [] => []
  | w :: ws =>
    match decodeDrain w with
    | some (.dend z) => [.dend z]
    | some i => i :: drainRunWords ws
    | none => []
/-- Scalar registers that a program names. -/
def drainRegs (is : List Instr) : List SReg :=
  is.flatMap (fun i => match drainAcc i with
    | some (.row p _) | some (.col p _) => sSpan p 2
    | some (.mat p m _ _ _) | some (.scale p m) => sSpan p 2 ++ [m]
    | none => [])
def regPair (rs : Tab Word) (p : SReg) : Nat := (tabGet 0 rs (p + 1).toNat).toNat * 2 ^ 32 + (tabGet 0 rs p.toNat).toNat
def regWord (rs : Tab Word) (m : SReg) : Nat := (tabGet 0 rs m.toNat).toNat
/-- The byte runs that a word touches in a segment: space, address or offset, bytes, write (R266, R269). -/
def segAccess (rs : Tab Word) (n i seg : Nat) (a : DAcc) : List (Nat × Nat × Nat × Bool) :=
  let lanes := (List.range 64).filter (fun x => decide (64 * seg + x < n))
  let at_ := fun (b off len : Nat) (wr : Bool) =>
    let sp := spaceNo b
    (sp, if sp = 0 then (b + off) % 2 ^ 64 else b % 2 ^ 32 + off, len, wr)
  match a with
  | .row p z => [at_ (regPair rs p) (i * z) z false]
  | .col p z => lanes.map (fun x => at_ (regPair rs p) ((64 * seg + x) * z) z false)
  | .mat p m z wr half =>
    let b := regPair rs p
    let row := i * regWord rs m
    if half then (lanes.filter (fun x => x % 2 = 0)).map (fun x => at_ b (row + (64 * seg + x) / 2) 1 wr)
    else lanes.map (fun x => at_ b (row + (64 * seg + x) * z) z wr)
  | .scale p m => [at_ (regPair rs p) (seg * regWord rs m + i) 1 true]
/-- The segments of a drain region (R264): rows below M that are not padding, each with its segments. -/
def drainRegion (m n : Nat) (pad : List Nat) : List (Nat × Nat) :=
  ((List.range m).filter (fun i => !(i ∈ pad))).flatMap (fun i =>
    ((List.range 2).filter (fun s => decide (64 * s < n))).map (fun s => (i, s)))

/-- A program slot of a team on a core. -/
def slotWords (k : Core) (team slot : Nat) : List Dword :=
  match k.progs.find? (fun p => decide (p.1 = team) && decide (p.2.1 = slot)) with
  | some p => p.2.2
  | none => []
/-- The program of an entry: captured at firing, until then as it stands (R247). -/
def entProg (k : Core) (e : GangEnt) : List Dword := if e.fired then e.prog else slotWords k e.team e.td.slot.toNat
/-- Whether a run of bytes of a team's drain meets `n` bytes of a place: by virtual address in global space, where `va` is the place's,
else in the partition. -/
def runMeets (s : State) (team : Nat) (r : Nat × Nat × Nat × Bool) (l : Loc) (va n : Nat) : Bool :=
  match l with
  | .phys _ => r.1 = 0 && decide (r.2.1 < va + n) && decide (va < r.2.1 + r.2.2.1)
  | .spad c o =>
    match tabFind s.teams team with
    | some tm =>
      (match (if r.1 = 1 then winPlace s (teamKernel s team) tm r.2.1 else if r.1 = 2 then ownPlace (teamKernel s team) tm r.2.1 else none) with
       | some (c', o') => c = c' && decide (o < o' + r.2.2.1) && decide (o' < o + n)
       | none => false)
    | none => false
/-- An earlier gang instruction of the group still drains over a unit: the drain's accesses are its member's (R218, R270). -/
def drainHeld (s : State) (g : Group) (id : Nat) (l : Loc) (va n : Nat) : Bool :=
  g.reqs.any (fun r => decide (r.id < id) && match r.kind with
    | .gang e true =>
      ((coreOf s g.core).latch ++ (coreOf s g.core).seq).any (fun x => decide (x.id = e) &&
        ((drainRunWords (entProg (coreOf s g.core) x)).filterMap drainAcc).any (fun a =>
          (drainRegion x.m x.n x.pad).any (fun i => (segAccess x.regs x.n i.1 i.2 a).any (fun q => runMeets s g.team q l va n))))
    | _ => false)

end Sys2Proof.Machine
end

