-- ==== Sys2Proof/Machine/Fetcher.lean ====
section
/-! DEFINITION. Accesses through a queue fetcher bound to a PASID (R54), and a queue's error state (R42, R43, R390). -/
namespace Sys2Proof.Machine

/-- Little-endian number of bytes `[i, i + n)`. -/
def listNat (bs : List Byte) (i n : Nat) : Nat := ((bs.drop i).take n).foldr (fun b a => b.toNat + 256 * a) 0

/-! ### Fetchers (R54) -/

/-- The physical address that a fetcher bound to a PASID reaches, none where the access faults (R54, R207). -/
def fetcherAddr (s : State) (pasid va : Nat) (a : Acc) : Option Nat :=
  if va / 2 ^ 56 % 256 ≠ 0 ∧ va / 2 ^ 56 % 256 ≠ 255 then none
  else match walkPage s pasid va with
    | .leaf e =>
      match leafUse e a va with
      | .ok pa => some pa
      | _ => none
    | .bad _ => none
/-- `n` bytes from a virtual address, none on a fault. -/
def fetcherBytes (s : State) (pasid : Nat) (a : Acc) (n va : Nat) : Option (List Byte) :=
  (List.range n).foldr (fun i r =>
    match r, fetcherAddr s pasid (va + i) a with
    | some bs, some pa => some (homeByte s pa :: bs)
    | _, _ => none) (some [])
/-- A little-endian number of `n` bytes. -/
def fetcherNat (s : State) (pasid : Nat) (a : Acc) (n va : Nat) : Option Nat :=
  (fetcherBytes s pasid a n va).map (fun bs => listNat bs 0 n)
/-- Write `n` bytes at home slices, none on a fault. The field lies in one page. -/
def fetcherWrite (s : State) (pasid n va x : Nat) : Option State :=
  (fetcherAddr s pasid va .write).map (fun pa => homeWrite n s pa x)

/-! ### Errors of a queue (R42, R43) -/

/-- The MSI of a queue's vector; vector 0 raises none (R390). -/
def raiseIrq (s : State) (q : Queue) : State :=
  if q.vector = 0 then s else { s with msi := s.msi ++ [(q.hart, q.vector)] }
/-- Write the status of a queue: code and packet index (R39); a fault leaves it unwritten (R42). -/
def putStatus (s : State) (q : Queue) (code idx : Nat) : State :=
  (fetcherWrite s q.pasid 8 (q.statusAddr + 8) (code + 2 ^ 32 * (idx % 2 ^ 32))).getD s
/-- An error puts a queue into the error state: status and interrupt (R42). DESIGN CHOICE: one that arises in the error state writes the
status over and raises the interrupt again; the table of R42 has no such row (log 84). -/
def queueFail (s : State) (qn code idx : Nat) : State :=
  match tabFind s.queues qn with
  | none => s
  | some q =>
    if q.state = .closing then s
    else
      let s := putStatus s q code idx
      raiseIrq (modQueue s qn (fun x => { x with state := .error, watch := none, since := 0 })) q

end Sys2Proof.Machine
end

