-- ==== Sys2Proof/Machine/Seg.lean ====
section
/-! DEFINITION. Segments of the flash tier and the append engine's operations on them (R280 to R289). -/
namespace Sys2Proof.Machine

def modSeg (s : State) (n : Nat) (f : Segment → Segment) : State := { s with segments := tabMod s.segments n f }
/-- The segment attached at a base to a PASID, with its name (R280). -/
def segBase (s : State) (pasid base : Nat) : Option (Nat × Segment) :=
  s.segments.find? (fun e => e.2.attach = some (pasid, base))
/-- Bytes of a record of payload length `n` (R283). -/
def recordSize (n : Nat) : Nat := 16 + 16 * ((n + 15) / 16)
/-- Accepted records that are not yet durable, over the module (R285). -/
def appendsHeld (s : State) : Nat := s.segments.foldl (fun n e => n + (e.2.next - 1 - e.2.durable)) 0

/-- The end of the record with a sequence number, 128 for none (R281, R283). -/
def endOf (g : Segment) (sq : Nat) : Nat := if sq = 0 then 128 else tabGet g.tail g.ends sq
/-- Accept a record of payload length `n`: it gets the next sequence number (R285). -/
def acceptRecord (s : State) (name n : Nat) : State :=
  modSeg s name (fun g => { g with
    next := g.next + 1, tail := g.tail + recordSize n, ends := tabPut g.ends g.next (g.tail + recordSize n),
    unread := g.unread ++ [g.next] })

/-- Put bytes at an offset of a segment's log. -/
def segPut (g : Segment) (off : Nat) : List Byte → Segment
  | [] => g
  | b :: bs => segPut { g with bytes := tabSet 0 g.bytes off b } (off + 1) bs
/-- The bytes of a record (R283). -/
def recordBytes (sq : Nat) (payload : List Byte) : List Byte :=
  leBytes 8 sq ++ leBytes 4 payload.length ++ leBytes 4 (~~~ crcBytes 0xFFFFFFFF payload).toNat ++ payload ++
    List.replicate (recordSize payload.length - 16 - payload.length) 0
/-- The payload of an accepted record has been read into the engine (R285). -/
def fillRecord (s : State) (name sq : Nat) (payload : List Byte) : State :=
  modSeg s name (fun g => { segPut g (endOf g sq - recordSize payload.length) (recordBytes sq payload) with
    unread := g.unread.filter (fun x => x ≠ sq) })

/-- The segment becomes failed (R282). -/
def failSegment (s : State) (name : Nat) : State :=
  modSeg s name (fun g => if g.state = 1 then { g with state := 3 } else g)

/-- The engine reads the source words of a record; a poisoned one makes the segment failed, and the record is never
written (R285, R288, R371). -/
def readRecord (s : State) (name sq : Nat) (src : List Loc) : State :=
  if src.any (fun l => (List.range 4).any (fun i => locPoison s (match l with
      | .phys a => .phys (a + i)
      | .spad c o => .spad c (o + i)))) then
    failSegment s name
  else
    fillRecord s name sq (src.flatMap (fun l => (List.range 4).map (fun i => locByte s (match l with
      | .phys a => .phys (a + i)
      | .spad c o => .spad c (o + i)))))

/-- The engine reads the source of a group's record once the dirty words of its lines are written back (R241, R285). -/
def takeRecord (s : State) (g : Group) (name sq : Nat) (src : List Loc) : State :=
  let lines := src.foldl (fun ls l => match l with
    | .phys a => setIns ls (a / 128)
    | .spad _ _ => ls) []
  readRecord (cleanLines s (teamCores s g.team) lines) name sq src

/-- Every accepted record is durable (R289). -/
def allDurable (g : Segment) : Bool := g.durable + 1 = g.next
/-- Seal a segment: sealed length and state in one event (R289 step 2). -/
def sealNow (s : State) (name : Nat) : State :=
  modSeg s name (fun g => { g with sealedLen := g.tail, state := 2, sealing := false })
/-- What is left of a segment's log after its last durable record (R282, R288). -/
def cutToDurable (g : Segment) : Segment :=
  { g with tail := endOf g g.durable, next := g.durable + 1, unread := [],
           ends := g.ends.filter (fun e => decide (e.1 ≤ g.durable)),
           bytes := g.bytes.filter (fun e => decide (e.1 < endOf g g.durable)) }

/-- Drop clean copies of a segment's lines in the column caches and L1s of cores (R289 step 3). -/
def dropSegLines (s : State) (cores : List Nat) (g : Segment) : State :=
  let inside := fun (wa : Nat) => decide (g.pa ≤ 4 * wa) && decide (4 * wa < g.pa + 2 ^ g.z)
  cores.foldl (fun s c => modCore s c (fun k => { k with
    col := k.col.filter (fun e => e.2.dirty || !inside e.1), l1 := k.l1.filter (fun e => !inside e.1) })) s

/-- An empty, open segment (R281). -/
def segNew (z pa : Nat) (attach : Option (Nat × Nat)) : Segment :=
  { z := z, pa := pa, state := 1, next := 1, durable := 0, tail := 128, sealedLen := 0, bytes := [], ends := [],
    unread := [], sealing := false, attach := attach }
/-- The lowest aligned range of flash frames clear of every segment. -/
def segPlace (s : State) (z : Nat) : Option Nat :=
  let free := fun (a : Nat) => s.segments.all (fun e => decide (a + 2 ^ z ≤ e.2.pa) || decide (e.2.pa + 2 ^ e.2.z ≤ a))
  let up := fun (a : Nat) => (a + 2 ^ z - 1) / 2 ^ z * 2 ^ z
  let cands := Config.flashBase :: s.segments.map (fun e => up (e.2.pa + 2 ^ e.2.z))
  (cands.filter (fun a => decide (a + 2 ^ z ≤ Config.flashBase + Config.flashBytes) && free a)).min?

/-! ### Mailbox channels (R53) -/

/-- A message with its sender, which the hardware writes into bits [3:0] of its first byte (R53). -/
def msgFrom (src : Nat) (m : BitVec 512) : BitVec 512 := m &&& ~~~ 0xF#512 ||| BitVec.ofNat 512 src
/-- Channels between Beryl cores, and between Jasper and each of cores 2, 4 and 7 (R53). -/
def hasChannel (src dst : Nat) : Bool :=
  decide (src ≠ dst) && ((decide (src < 8) && decide (dst < 8)) || (src = 8 && dst ∈ [2, 4, 7]) || (dst = 8 && src ∈ [2, 4, 7]))
/-- A message goes into its channel of 16 slots; a sender whose channel is full waits (R53). -/
def sendMail (s : State) (src dst : Nat) (m : BitVec 512) : State :=
  let q := tabGet [] s.mail (16 * src + dst)
  if hasChannel src dst && decide (q.length < 16) then { s with mail := tabPut s.mail (16 * src + dst) (q ++ [msgFrom src m]) } else s
/-- A channel has room for another message. -/
def mailRoom (s : State) (src dst : Nat) : Bool := decide ((tabGet [] s.mail (16 * src + dst)).length < 16)
/-- The receiver takes the oldest message of a channel (R53). -/
def takeMail (s : State) (src dst : Nat) : State :=
  match tabGet [] s.mail (16 * src + dst) with
  | _ :: q => { s with mail := if q.isEmpty then tabDel s.mail (16 * src + dst) else tabPut s.mail (16 * src + dst) q }
  | [] => s

/-! ### Answers that wait (R388, R389) -/

/-- An answer of core 2 with fields put at bit positions. -/
def msgPut (m : BitVec 512) (byte n x : Nat) : BitVec 512 :=
  m ||| (BitVec.ofNat 512 (x % 256 ^ n) <<< (8 * byte))
/-- The status word of an answer (R388). -/
def msgStatus (m : BitVec 512) (st : Nat) : BitVec 512 := msgPut m 2 2 st

/-- Whether the oldest owed answer can be given, and what it says. -/
def replyReady (s : State) : ReplyDue → Option (BitVec 512)
  | .ready m => some m
  | .durable seg sq m =>
    match tabFind s.segments seg with
    | some g => if sq ≤ g.durable then some (msgPut m 24 8 g.durable) else none
    | none => some (msgPut (msgStatus m 2) 12 1 0x1B)
  | .sealing seg m =>
    match tabFind s.segments seg with
    | some g => if g.state = 2 then some (msgPut m 16 8 g.sealedLen) else none
    | none => some (msgPut (msgStatus m 2) 12 1 0x1B)
  | .closed pasid m => if (tabFind s.procs pasid).isSome then none else some m
/-- Give every owed answer that is ready, oldest first, while the channel of 16 slots has room (R53, R388). -/
def flushReplies (s : State) : Nat → State
  | 0 => s
  | n + 1 =>
    match s.hostWait with
    | [] => s
    | r :: rest =>
      match replyReady s r with
      | some m => if s.hostOut.length < 16 then flushReplies { s with hostWait := rest, hostOut := s.hostOut ++ [m] } n else s
      | none => s
/-- Owe an answer, and give what can be given. -/
def owe (s : State) (r : ReplyDue) : State :=
  let s := { s with hostWait := s.hostWait ++ [r] }
  flushReplies s s.hostWait.length
/-- Give what can be given. -/
def settleReplies (s : State) : State := flushReplies s s.hostWait.length

/-- A `SEAL` whose records are all durable takes effect (R289 steps 1 and 2); core 4 tells Jasper, and waits while their channel is
full (R53). -/
def sealDue (s : State) (name : Nat) : State :=
  match tabFind s.segments name with
  | some g =>
    if g.sealing && g.state = 1 && allDurable g && mailRoom s 4 8 then settleReplies (sealNow (sendMail s 4 8 0) name) else s
  | none => s

end Sys2Proof.Machine
end

