-- ==== Sys2Proof/Machine/Tiers.lean ====
section
/-! DEFINITION. Movement between tiers and invalidation of translations (R209 to R212, R237). -/
namespace Sys2Proof.Machine

/-! ### What names a block or a frame -/

/-- Whether a place lies in a 64 KiB block. -/
def locIn (blk : Nat) : Loc → Bool
  | .phys pa => pa / 65536 = blk
  | .spad _ _ => false
/-- Whether an outstanding request has still to access a block (R209). -/
def reqNames (blk : Nat) (k : ReqKind) : Bool :=
  match k with
  | .mem _ _ _ _ _ _ _ accs => accs.any (fun a => locIn blk a.loc)
  | .sload _ _ l | .sstore _ l _ => locIn blk l
  | .pref ls | .lock _ ls => ls.any (fun l => decide (l / 512 = blk))
  | .scld _ src | .append _ _ src => src.any (locIn blk)
  | _ => false
/-- The PASID of a team. -/
def teamPasid (s : State) (team : Nat) : Nat :=
  match (tabFind s.teams team).bind (fun t => tabFind s.clusters t.cluster) with
  | some cl => ((tabFind s.launches cl.launch).map (fun l => l.pasid)).getD 0
  | none => 0
/-- The entry whose drain runs on a core. -/
def drainEnt (k : Core) : Option GangEnt :=
  match k.drain with
  | some d => k.seq.find? (fun e => e.id = d.ent)
  | none => none
/-- A request whose accesses have passed their translation check at issue and are still to perform, an instruction that only reads,
prefetches or locks among them (R209). -/
def pastTranslation (r : Req) : Bool :=
  match r.kind with
  | .scld _ _ | .append _ _ _ => true
  | .pref ls | .lock _ ls => !ls.isEmpty
  | _ => pastCheck r
/-- A request waits behind a drain of its group, or of the group that ejected it, on a core whose gang queue a record holds. DESIGN
CHOICE: such an access does not delay the invalidation that the record's own reply asks for (log 103). -/
def behindRecord (s : State) (g : Group) (r : Req) : Bool :=
  let k := coreOf s g.core
  let drainBefore := fun (x : Group) (id : Nat) => x.reqs.any (fun q => decide (q.id < id) && match q.kind with
    | .gang _ true => true
    | _ => false)
  (k.seq.any (fun e => e.stop.isSome) || (k.drain.map (fun d => d.suspended.isSome)).getD false) &&
    (drainBefore g r.id || match g.garnet with
      | some i => ((tabFind s.groups i.parent).map (fun p => drainBefore p i.since)).getD false
      | none => false)
/-- No drain whose PASID satisfies a test is inside a segment that it has checked (R209, R273). -/
def drainsQuiet (s : State) (mine : Nat → Bool) : Bool :=
  s.cores.all (fun e => match drainEnt e.2, e.2.drain with
    | some x, some d => !d.inSeg || !mine (teamPasid s x.team)
    | _, _ => true)
/-- Every access to a block that has passed its translation has been performed (R209). -/
def blockQuiet (s : State) (blk : Nat) : Bool :=
  s.groups.all (fun e => e.2.reqs.all (fun r => !reqNames blk r.kind || behindRecord s e.2 r)) && drainsQuiet s (fun _ => true)
/-- A block of the capacity or flash tier and its pool block are quiet. -/
def pairQuiet (s : State) (e : Nat × Nat) : Bool := blockQuiet s e.1 && blockQuiet s e.2
/-- Whether a leaf reaches into a block. -/
def leafIn (blk : Nat) (e : TlbEnt) : Bool := decide (e.pa < (blk + 1) * 65536) && decide (blk * 65536 < e.pa + 2 ^ e.lg)
/-- Whether a leaf of a PASID reaches into a range. -/
def leafOver (pasid base len : Nat) (e : TlbEnt) : Bool :=
  e.pasid = pasid && decide (e.va < base + len) && decide (base < e.va + 2 ^ e.lg)
/-- A TLB holds a leaf that satisfies a test. -/
def someLeaf (s : State) (hit : TlbEnt → Bool) : Bool := s.cores.any (fun e => e.2.tlb.any hit) || s.stks.any (fun e => e.2.tlb.any hit)
/-- Drop the leaves that satisfy a test from every TLB. -/
def dropLeaves (s : State) (hit : TlbEnt → Bool) : State :=
  { s with
    cores := s.cores.map (fun e => (e.1, { e.2 with tlb := e.2.tlb.filter (fun x => !hit x) })),
    stks := s.stks.map (fun e => (e.1, { e.2 with tlb := e.2.tlb.filter (fun x => !hit x) })) }
/-- Drop the non-leaf entries that satisfy a test: PASID, level, address bits, frame (R206, R209). -/
def dropNonLeaves (s : State) (hit : Nat × Nat × Nat × Nat → Bool) : State :=
  { s with stks := s.stks.map (fun e => (e.1, { e.2 with nonLeaf := e.2.nonLeaf.filter (fun x => !hit x) })) }
/-- A walk's outcome of a PASID that a suspended group keeps is forgotten. -/
def forgetWalked (s : State) (pasid : Nat) : State :=
  { s with groups := s.groups.map (fun e => match e.2.walked with
      | some w => if w.pasid = pasid then (e.1, { e.2 with walked := none }) else e
      | none => e) }
/-- Every agent drops its entries for a range of a PASID (R209). -/
def dropRange (s : State) (pasid base len : Nat) : State :=
  forgetWalked (dropNonLeaves (dropLeaves s (leafOver pasid base len)) (fun x => decide (x.1 = pasid) &&
    decide (x.2.2.1 * 2 ^ (12 + 9 * (x.2.1 + 1)) < base + len) && decide (base < (x.2.2.1 + 1) * 2 ^ (12 + 9 * (x.2.1 + 1))))) pasid

/-! ### Promotion and demotion (R210) -/

/-- Write back and drop the lines of a 64 KiB block in every column cache and L1 (R210). -/
def dropBlock (s : State) (blk : Nat) : State :=
  s.cores.foldl (fun s e =>
    let lines := (dirtyLines e.2).filter (fun l => l / 512 = blk)
    let s := lines.foldl (fun s l => writeBackLine s e.1 l) s
    modCore s e.1 (fun k => { k with
      col := k.col.filter (fun x => x.1 / 16384 ≠ blk), l1 := k.l1.filter (fun x => x.1 / 16384 ≠ blk) })) s
/-- Copy a 64 KiB block between physical blocks. -/
def copyBlock (s : State) (src dst : Nat) (rd : State → Nat → Byte) : State :=
  (List.range 65536).foldl (fun s i => { s with mem := memPut s.mem (65536 * dst + i) (rd s (65536 * src + i)) }) s
/-- Locks and pins of a block's lines follow it to another block (R226, R255). -/
def renameLines (s : State) (a b : Nat) : State :=
  let line := fun (x : Nat) => if x / 512 = a then b * 512 + x % 512 else x
  { s with cores := s.cores.map (fun e => (e.1, { e.2 with
      locks := e.2.locks.foldl (fun t x => tabPut t (line x.1) x.2) [], pins := e.2.pins.map (fun p => (line p.1, p.2)) })) }
/-- The stream pins on a block's frames, and the frames that streams still read, follow it to another block (R237). -/
def renameFrames (s : State) (a b : Nat) : State :=
  let frame := fun (x : Nat) => if x / 16 = a then b * 16 + x % 16 else x
  { s with stks := s.stks.map (fun e => (e.1, { e.2 with subs := e.2.subs.map (fun (x : Sub) => { x with
      pins := x.pins.map frame
      work := match x.work with
        | .gather d r n t bs => .gather d r n t (bs.map (fun (y : GBlock) => { y with frames := y.frames.map (fun f => f.map frame) }))
        | w => w }) })) }
/-- The accesses that requests have still to perform follow a block to another (R209 to R211). -/
def renameReqs (s : State) (a b : Nat) : State :=
  let loc := fun (l : Loc) => match l with
    | .phys pa => if pa / 65536 = a then Loc.phys (b * 65536 + pa % 65536) else l
    | .spad _ _ => l
  let line := fun (x : Nat) => if x / 512 = a then b * 512 + x % 512 else x
  let kind := fun (k : ReqKind) => match k with
    | .mem k op t w ord sc dst accs => ReqKind.mem k op t w ord sc dst (accs.map (fun (x : LaneAcc) => { x with loc := loc x.loc }))
    | .sload d dbl l => .sload d dbl (loc l)
    | .sstore dbl l x => .sstore dbl (loc l) x
    | .pref ls => .pref (ls.map line)
    | .lock on ls => .lock on (ls.map line)
    | .scld off src => .scld off (src.map loc)
    | .append n sq src => .append n sq (src.map loc)
    | k => k
  { s with groups := s.groups.map (fun e => if e.2.reqs.any (fun r => reqNames a r.kind) then
      (e.1, { e.2 with reqs := e.2.reqs.map (fun (r : Req) => { r with kind := kind r.kind }) }) else e) }

/-- The poisoned codewords once block `dst` holds what block `src` does (R210, R374). -/
def copyPoison (ps : List Nat) (src dst : Nat) : List Nat :=
  (List.range 2048).foldl (fun ps i =>
    if (src * 2048 + i) ∈ ps then setIns ps (dst * 2048 + i) else setDel ps (dst * 2048 + i)) ps
/-- The same where block `src` is given up (R210, R374). -/
def movePoison (ps : List Nat) (src dst : Nat) : List Nat :=
  (List.range 2048).foldl (fun ps i =>
    if (src * 2048 + i) ∈ ps then setIns (setDel ps (src * 2048 + i)) (dst * 2048 + i) else setDel ps (dst * 2048 + i)) ps
/-- No cache and no TLB holds anything of a block or of its pool block: dirty words are written back, leaves drop out (R210). -/
def noCopies (s : State) (blk h : Nat) : State :=
  dropBlock (dropBlock (dropLeaves s (fun x => leafIn blk x || leafIn h x)) blk) h
/-- The directory takes a block, its line locks and pins following it to the pool block (R210). -/
def notePromoted (s : State) (blk h : Nat) : State :=
  renameLines { s with poison := copyPoison s.poison blk h, promoted := s.promoted ++ [(blk, h)] } blk h
/-- The directory gives a block up, its line locks, pins and stream frames following it back, and with them what is left to access
(R210, R237). -/
def noteDemoted (s : State) (blk h : Nat) : State :=
  renameReqs (renameFrames (renameLines { s with
    poison := if tierOf (blk * 65536) = .cap then movePoison s.poison h blk else s.poison
    promoted := s.promoted.filter (fun e => e.1 ≠ blk) } h blk) h blk) h blk
/-- Demote a promoted block (R210): lines of the pool block written back and dropped, a capacity block's contents written to it, the
directory entry removed. A flash block is never dirty. -/
def demoteBlock (s : State) (blk : Nat) : State :=
  match s.promoted.find? (fun e => e.1 = blk) with
  | none => s
  | some (_, h) =>
    let s := noCopies s blk h
    noteDemoted (if tierOf (blk * 65536) = .cap then copyBlock s h blk (fun s a => memByte s.mem a) else s) blk h

/-- The pool blocks of a stack: the highest blocks of its HBM, as many as its pool size gives. -/
def poolBlocks (s : State) (st : Nat) : Nat := (stackOf s st).poolMib * 16
/-- The first pool block of a stack. -/
def poolFirst (s : State) (st : Nat) : Nat := (st + 1) * (Config.stackBytes / 65536) - poolBlocks s st
/-- Blocks of a stack's pool in use. -/
def poolTaken (s : State) (st : Nat) : List Nat :=
  (s.promoted.filter (fun e => e.2 / (Config.stackBytes / 65536) = st)).map (fun e => e.2)
/-- The lowest free pool block of the module. -/
def poolFree (s : State) : Option Nat :=
  (List.range 48).findSome? (fun st =>
    let used := poolTaken s st
    if (stackOf s st).degraded || decide (poolBlocks s st ≤ used.length) then none
    else (List.range (used.length + 1)).findSome? (fun i =>
      if (poolFirst s st + i) ∈ used then none else some (poolFirst s st + i)))

/-- Whether a block may be promoted: of the capacity tier, or wholly of a sealed segment of the flash tier; not promoted, and every
access to it that has passed its translation is performed (R209, R210, R278). -/
def mayPromote (s : State) (blk : Nat) : Bool :=
  (tierOf (blk * 65536) = .cap ||
    (tierOf (blk * 65536) = .flash && ((segAt s (blk * 65536)).map (fun e => decide (e.2.state = 2))).getD false)) &&
    !(s.promoted.any (fun e => e.1 = blk)) && blockQuiet s blk
/-- Copy a block to a pool block and redirect it (R210); its lines are written back and dropped first (log 17). -/
def promoteTo (s : State) (blk h : Nat) : State :=
  notePromoted (copyBlock (noCopies s blk h) blk h (fun s a => homeByte s a)) blk h
/-- Promote a block as a hint asks, while the pool has room (R212). -/
def promoteHint (s : State) (blk : Nat) : State :=
  if mayPromote s blk then
    match poolFree s with
    | some h => promoteTo s blk h
    | none => s
  else s
/-- Line reads of a block that its controller counts within 2^20 clocks (R210). -/
def blockReads (s : State) (blk : Nat) : Nat :=
  s.cores.foldl (fun n e => n + (e.2.tierReads.filter (fun x => decide (x.1 = blk) && decide (s.clock < x.2 + 2 ^ 20))).length) 0

/-! ### Invalidation (R209, R211) -/

/-- Whether a page of a range of a PASID maps into a block. -/
def rangeNames (s : State) (pasid base len blk : Nat) : Bool :=
  (List.range (len / 4096)).any (fun i =>
    match walkPage s pasid (base + 4096 * i) with
    | .leaf e => (e.pa + (base + 4096 * i - e.va)) / 65536 = blk
    | .bad _ => false)
/-- The promoted blocks that an invalidation of a range names, by the tables or by a leaf that it drops (R211). -/
def rangeBlocks (s : State) (pasid base len : Nat) : List (Nat × Nat) :=
  s.promoted.filter (fun e => rangeNames s pasid base len e.1 ||
    someLeaf s (fun x => leafOver pasid base len x && (leafIn e.1 x || leafIn e.2 x)))
/-- A leaf below a table of a level maps an address from `lo` to below `hi` (R35). -/
def tableMaps (s : State) (lo hi : Nat) : Nat → Nat → Bool
  | lv, ppn =>
    (List.range 512).any (fun i =>
      let pte := homeNat s 8 (ppn * 4096 + 8 * i)
      if !bitN pte 0 then false
      else if bitN pte 1 || bitN pte 2 || bitN pte 3 then
        match leafOf 0 0 pte lv with
        | .leaf e => decide (e.pa < hi) && decide (lo < e.pa + 2 ^ e.lg)
        | .bad _ => false
      else match lv with
        | 0 => false
        | lv + 1 => tableMaps s lo hi lv (pte / 2 ^ 10 % 2 ^ 44))
/-- A process maps an address from `lo` to below `hi`, by its tables or by an attached segment (R35, R280). -/
def procMaps (s : State) (pasid lo hi : Nat) : Bool :=
  ((rootOf s pasid).map (fun t => tableMaps s lo hi t.1 t.2)).getD false ||
    s.segments.any (fun e => decide ((e.2.attach.map (fun a => a.1)) = some pasid) && decide (e.2.pa < hi) &&
      decide (lo < e.2.pa + 2 ^ e.2.z))
/-- The promoted blocks that a PASID names, by its tables or by a leaf (R211, R385). -/
def pasidBlocks (s : State) (pasid : Nat) : List (Nat × Nat) :=
  s.promoted.filter (fun e => procMaps s pasid (65536 * e.1) (65536 * (e.1 + 1)) ||
    someLeaf s (fun x => decide (x.pasid = pasid) && (leafIn e.1 x || leafIn e.2 x)))
/-- Whether a range of a PASID names a frame: through its tables or through a leaf that is about to be dropped; the frames of a
promoted block are those of its pool block too. -/
def frameNamed (s : State) (pasid base len frame : Nat) : Bool :=
  let now := fun (f : Nat) => redirect s (4096 * f) / 4096
  someLeaf s (fun x => leafOver pasid base len x &&
      decide (x.pa / 4096 ≤ now frame) && decide (now frame < x.pa / 4096 + 2 ^ x.lg / 4096)) ||
    (List.range (len / 4096)).any (fun i =>
      match walkPage s pasid (base + 4096 * i) with
      | .leaf e => now ((e.pa + (base + 4096 * i - e.va)) / 4096) = now frame
      | .bad _ => false)
/-- A block of a gather still streams from the frame of a page that lies in a range (R237). -/
def gatherOver (base len : Nat) (w : Work) : Bool :=
  match w with
  | .gather _ _ _ _ bs => bs.any (fun b => !b.arrived && match b.addr with
    | some a => (b.frames.mapIdx (fun i f => (a / 4096 + i, f))).any (fun e => e.2.isSome &&
        decide (4096 * e.1 < base + len) && decide (base < 4096 * e.1 + 4096))
    | none => false)
  | _ => false
/-- No stream holds a pin on a frame that a range names, by its tables, by a leaf, or as the stream's own page (R237). -/
def pinsClear (s : State) (pasid base len : Nat) : Bool :=
  s.stks.all (fun e => e.2.subs.all (fun x =>
    !(x.pasid = pasid && gatherOver base len x.work) && x.pins.all (fun f => !frameNamed s pasid base len f)))
/-- The frames of one 4-byte word of a copy. DESIGN CHOICE: a word has a bit for each of 32 frames (log 98). -/
def copyWord (l : List Nat) (w : Nat) : List Nat := l.filter (fun f => f / 32 = w)
/-- The frames of one HBM stack. -/
def stackFrames : Nat := Config.stackBytes / 4096
/-- The frames on which a containment record, as it is read, differs from its stacks: of each word what two copies agree on, and every
frame that any copy lists where no two do (R377). -/
def votes (c : Copies) : List Nat :=
  ((c.b ++ c.c).foldl setIns c.a).filter (fun f =>
    let x := copyWord c.a (f / 32)
    let y := copyWord c.b (f / 32)
    let z := copyWord c.c (f / 32)
    if x = y ∨ x = z then f ∈ c.a else if y = z then f ∈ c.b
    else !decide (f / stackFrames ∈ c.wholes) || (decide (f ∈ c.a) && decide (f ∈ c.b) && decide (f ∈ c.c)))
/-- Whether a containment record, as it is read, lists a frame (R377, R378). -/
def lists (c : Copies) (f : Nat) : Bool := decide (f ∈ votes c) != decide (f / stackFrames ∈ c.wholes)
/-- A containment record as it is read: copies that lost a vote are rewritten (R377). -/
def readCopies (c : Copies) : Copies := { c with a := votes c, b := votes c, c := votes c }
/-- A frame is entered in all three copies of a containment record, which is read first (R377). -/
def listFrame (c : Copies) (f : Nat) : Copies :=
  let l := if f / stackFrames ∈ c.wholes then setDel (votes c) f else setIns (votes c) f
  { c with a := l, b := l, c := l }
/-- Every frame of a stack is entered in a containment record (R378). -/
def listStack (c : Copies) (st : Nat) : Copies :=
  let l := (votes c).filter (fun f => f / stackFrames ≠ st)
  { a := l, b := l, c := l, wholes := setIns c.wholes st }
/-- The frames that a containment record may list. -/
def mayList (c : Copies) : List Nat :=
  votes c ++ c.wholes.flatMap (fun st => (List.range stackFrames).map (fun i => st * stackFrames + i))
/-- Poisoned frames that are freed go to the retired-frame list (R373). -/
def retireFrames (s : State) (named : Nat → Bool) : State :=
  let s := { s with poisonFrames := readCopies s.poisonFrames, retiredFrames := readCopies s.retiredFrames }
  let fs := (mayList s.poisonFrames).filter (fun f => lists s.poisonFrames f && !lists s.retiredFrames f && named f)
  fs.foldl (fun s f =>
    let s := { s with retiredFrames := listFrame s.retiredFrames f }
    modStack s (f * 4096 / Config.stackBytes) (fun k => { k with life := { k.life with retired := k.life.retired + 1 } })) s
/-- The invalidation of a range of a PASID (R209): every agent drops its entries; promoted blocks whose frames the range or a dropped
leaf names are demoted as part of it (R211), and poisoned frames that it frees are retired (R373). -/
def invalRange (s : State) (pasid base len : Nat) : State :=
  let blocks := rangeBlocks s pasid base len
  let s := retireFrames s (frameNamed s pasid base len)
  dropRange ((blocks.map (fun e => e.1)).foldl demoteBlock s) pasid base len
/-- Every translation of a PASID is dropped: the promoted blocks that it names are demoted (R211, R385), and the poisoned frames that it
maps are freed (R373). -/
def invalPasid (s : State) (pasid : Nat) : State :=
  let blocks := pasidBlocks s pasid
  let s := retireFrames s (fun f => procMaps s pasid (4096 * f) (4096 * (f + 1)) ||
    someLeaf s (fun x => decide (x.pasid = pasid) && decide (x.pa < 4096 * (f + 1)) && decide (4096 * f < x.pa + 2 ^ x.lg)))
  let s := (blocks.map (fun e => e.1)).foldl demoteBlock s
  forgetWalked (dropNonLeaves (dropLeaves s (fun x => x.pasid = pasid)) (fun x => decide (x.1 = pasid))) pasid

end Sys2Proof.Machine
end

