-- ==== Sys2Proof/Machine/Access.lean ====
section
/-! DEFINITION. Performing memory accesses at the place that scope and space give them (R197 to R200, R202 to R205,
R218 to R220, R374). -/
namespace Sys2Proof.Machine

/-- Where a global access is performed (R200, R219). -/
inductive Spot where
  | l1 | col | home
deriving DecidableEq, Repr

/-- The meeting point of a scope for an ordered access (R200). -/
def meeting (k : Kernel) (sc : Scope) : Spot :=
  match sc with
  | .grp | .team => .col
  | .clu => if spread k then .home else .col
  | .dev | .sys => .home
/-- The place of an access: a plain load at the L1 unless a Garnet context makes it (R123, R219). -/
def spotOf (k : Kernel) (garnet : Bool) (kind : MemKind) (ord : Ord4) (sc : Scope) : Spot :=
  if ord ≠ .plain then meeting k sc else if kind = .ld && !garnet then .l1 else .col

/-- The word addresses that `n` bytes from `pa` touch. -/
def wordsOf (pa n : Nat) : List Nat := (List.range ((pa % 4 + n + 3) / 4)).map (fun i => pa / 4 + i)
/-- `n` bytes from `pa` out of words. -/
def takeBytes (pa n : Nat) (ws : List Word) : Nat :=
  ws.foldr (fun w acc => w.toNat + 2 ^ 32 * acc) 0 / 256 ^ (pa % 4) % 256 ^ n
/-- The part of a store that falls into the `i`-th word: byte offset, bytes, value. -/
def storePart (pa n x i : Nat) : Nat × Nat × Nat :=
  let off := if i = 0 then pa % 4 else 0
  let done := if i = 0 then 0 else 4 * i - pa % 4
  (off, min (4 - off) (n - done), x / 256 ^ done)

/-- Read words in the column cache, filling the line where one is not valid (R197). -/
def colRead (s : State) (c : Nat) (was : List Nat) : State × List Word × Bool :=
  let miss := was.any (fun wa => !isHome c (4 * wa) && (cfind (coreOf s c).col wa).isNone)
  let s := was.foldl (fun s wa => if miss then colFill s c (wa / 32) else colTouch s c (wa / 32)) s
  let ws := was.map (colWord s c)
  (s, ws.map (fun w => w.val), ws.any (fun w => w.poison))

/-- Fill the L1 with the words of a line that it lacks and the column cache holds (R196, R219). -/
def l1Fill (s : State) (c line : Nat) : State :=
  (List.range 32).foldl (fun s i =>
    let wa := line * 32 + i
    if (cfind (coreOf s c).l1 wa).isSome then s
    else if isHome c (4 * wa) || (cfind (coreOf s c).col wa).isSome then
      let w := colWord s c wa
      modCore s c (fun k => { k with l1 := tabPut k.l1 wa { val := w.val, dirty := false, poison := w.poison } })
    else s) (l1Room s c line)

/-- A global load of `n` bytes: state, little-endian value, poison. -/
def loadGlob (s : State) (c : Nat) (sp : Spot) (pa n : Nat) : State × Nat × Bool :=
  let was := wordsOf pa n
  match sp with
  | .home => (noteRead s c pa, homeNat s n pa, was.any (fun wa => homePoison s (4 * wa)))
  | .col =>
    let r := colRead s c was
    (r.1, takeBytes pa n r.2.1, r.2.2)
  | .l1 =>
    let hits := was.map (cfind (coreOf s c).l1)
    if hits.all Option.isSome then
      let ws := hits.filterMap id
      (was.foldl (fun s wa => l1Room s c (wa / 32)) s, takeBytes pa n (ws.map (fun w => w.val)), ws.any (fun w => w.poison))
    else
      let r := colRead s c was
      (was.foldl (fun s wa => l1Fill s c (wa / 32)) r.1, takeBytes pa n r.2.1, r.2.2)

/-- A global store of `n` bytes (R197, R219): whole words allocate without a fetch, smaller parts fill first. -/
def storeGlob (s : State) (c : Nat) (sp : Spot) (pa n x : Nat) : State :=
  (wordsOf pa n).mapIdx (fun i wa => (i, wa)) |>.foldl (fun s e =>
    let p := storePart pa n x e.1
    match sp with
    | .home => homeStoreWord s c e.2 p.1 p.2.1 p.2.2
    | _ =>
      if p.2.1 = 4 then colPut s c e.2 (BitVec.ofNat 32 p.2.2) false
      else
        let r := colRead s c [e.2]
        colPut r.1 c e.2 (wordMerge ((r.2.1[0]?).getD 0) p.1 p.2.1 p.2.2) r.2.2) s

/-- Load at a place. -/
def loadLoc (s : State) (g : Group) (sp : Spot) (l : Loc) (n : Nat) : State × Nat × Bool :=
  match l with
  | .phys pa => loadGlob s (serveCore s g pa) sp pa n
  | .spad c o => (s, spadNat s c n o, (wordsOf o n).any (fun w => spadPoisoned s c (4 * w)))
/-- Store at a place. -/
def storeLoc (s : State) (g : Group) (sp : Spot) (l : Loc) (n x : Nat) : State :=
  match l with
  | .phys pa => storeGlob s (serveCore s g pa) sp pa n x
  | .spad c o => spadStore s c n o x

/-! ### Atomic operations (R220) -/

def atomSigned : AtomTy → Bool
  | .int t => t.sgn
  | .f32 => false

/-- The new value and flags of an atomic on `w` bytes (R220). -/
def atomNew (op : AtomOp) (t : AtomTy) (w old d new : Nat) : Nat × Byte :=
  let bits := 8 * w
  let lt := decide (intVal bits (atomSigned t) old ≤ intVal bits (atomSigned t) d)
  let f := t = .f32
  let a := BitVec.ofNat 32 old
  let b := BitVec.ofNat 32 d
  match op with
  | .add => if f then ((atomF32 a b).1.toNat, (atomF32 a b).2) else ((old + d) % 2 ^ bits, 0)
  | .min => if f then ((f32Min false a b).1.toNat, (f32Min false a b).2) else (if lt then old else d, 0)
  | .max => if f then ((f32Max false a b).1.toNat, (f32Max false a b).2) else (if lt then d else old, 0)
  | .and => (Nat.land old d, 0)
  | .or => (Nat.lor old d, 0)
  | .xor => (Nat.xor old d, 0)
  | .exch => (d, 0)
  | .cas => (if old = d then new else old, 0)

/-! ### One unit of a request -/

def locOverlap (a : Loc) (n : Nat) (b : Loc) (m : Nat) : Bool :=
  match a, b with
  | .phys x, .phys y => decide (x < y + m) && decide (y < x + n)
  | .spad c x, .spad d y => c = d && decide (x < y + m) && decide (y < x + n)
  | _, _ => false

/-- An earlier request of the group still has to access a byte of a unit: accesses to a common unit are performed in
group order (R218, R300). -/
def heldUnit (g : Group) (id : Nat) (l : Loc) (n : Nat) : Bool :=
  g.reqs.any (fun r => decide (r.id < id) && match r.kind with
    | .mem _ _ _ _ _ _ _ accs => accs.any (fun a => locOverlap a.loc a.n l n)
    | .sstore dbl b _ => locOverlap b (if dbl then 8 else 4) l n
    | .sload _ dbl b => locOverlap b (if dbl then 8 else 4) l n
    | _ => false)

/-- An access of a Garnet context waits for the accesses that its group issued before the ejection, and for the invalidates of its
acquires and fences: the ejection is a release by the group and an acquire by the context (R125, R302, R304). -/
def ejectHeld (s : State) (g : Group) : Bool :=
  match g.garnet with
  | some i => ((tabFind s.groups i.parent).map (fun p => !settledBefore p i.since)).getD false
  | none => false

/-- An ordered access is performed only after every access issued before it where it releases (R222). -/
def releaseHeld (g : Group) (id : Nat) (ord : Ord4) : Bool :=
  (ord = .rel || ord = .ar) && !performedBefore g id

/-- A release at `.sys` waits, once its clean has put the dirty words home, until the host die's caches have lost the lines written before
it (R307). -/
def snoopHeld (s : State) (ord : Ord4) (sc : Scope) : Bool := (ord = .rel || ord = .ar) && sc = .sys && hostStale s
/-- A register write of a returned unit: the clean value, or the poisoned word (R370). A unit narrower than a word
is extended by its type (R214). -/
def writeUnit (g : Group) (t : AtomTy) (dst : VReg) (a : LaneAcc) (x : Nat) (poison : Bool) : Group :=
  let v := match t with
    | .int ty => if a.n < 4 then BitVec.ofInt 32 (intVal (8 * a.n) ty.sgn x) else BitVec.ofNat 32 x
    | .f32 => BitVec.ofNat 32 x
  (List.range ((a.n + 3) / 4)).foldl (fun g i =>
    vReturn g (vKey (dst.toNat + a.reg + i) a.lane) (if i = 0 then v else BitVec.ofNat 32 (x / 2 ^ (32 * i))) poison) g

/-- Mark a register as written by a Garnet context (R122). -/
def noteWrite (g : Group) (v n : Nat) : Group :=
  match g.garnet with
  | some i => { g with garnet := some { i with
      written := (List.range n).foldl (fun m k => m ||| (1#384 <<< (v + k))) i.written } }
  | none => g

/-- Perform one unit of request `id` of group `gid` as one event at its place (R204, R219, R220). -/
def performUnit (s : State) (gid id : Nat) (k : MemKind) (op : AtomOp) (t : AtomTy) (sp : Spot) (dst : VReg)
    (a : LaneAcc) : State :=
  match tabFind s.groups gid with
  | none => s
  | some g =>
    match k with
    | .ld =>
      let r := loadLoc s g sp a.loc a.n
      modGroup r.1 gid (fun g => writeUnit (noteWrite g (dst.toNat + a.reg) ((a.n + 3) / 4)) t dst a r.2.1 r.2.2)
    | .st => storeLoc s g sp a.loc a.n a.data
    | _ =>
      let r := loadLoc s g sp a.loc a.n
      let n := atomNew op t a.n r.2.1 a.data a.new
      let s := storeLoc r.1 g sp a.loc a.n n.1
      modGroup s gid (fun g =>
        let g := if k = .atom then
            writeUnit (noteWrite g (dst.toNat + a.reg) ((a.n + 3) / 4)) t dst a r.2.1 r.2.2
          else g
        modReq g id (fun q => { q with fp := q.fp ||| n.2 }))

/-- Whether the units of a beat form a coalesced line access (R205); a promoted block is in HBM (R210). -/
def coalesced (s : State) (t : AtomTy) (w : Atomicity) (accs : List LaneAcc) : Bool :=
  let fourByte := match t with
    | .int ty => ty.one32
    | .f32 => true
  let lines := accs.filterMap (fun a => match a.loc with
    | .phys pa => if tierOf (redirect s pa) = .hbm then some (pa / 4) else none
    | .spad _ _ => none)
  w = .four && fourByte && lines.length = 32 && accs.length = 32 &&
    match lines with
    | x :: _ => lines.all (fun y => y / 32 = x / 32) && (lines.foldl setIns []).length = 32
    | [] => false

/-- A store is performed at the home slice: there, or in the column cache of the line's own column (R195). -/
def atHome (s : State) (g : Group) (sp : Spot) (l : Loc) : Bool :=
  sp = .home || (match l with
    | .phys pa => isHome (serveCore s g pa) pa
    | .spad _ _ => false)
/-- A coalesced store at a home slice covers whole codewords with clean data (R373). -/
def clearLine (s : State) (accs : List LaneAcc) : State :=
  match accs with
  | { loc := .phys pa, .. } :: _ =>
    (List.range 4).foldl (fun s q => clearPoison s (codeword s (pa / 128 * 128 + 32 * q))) s
  | _ => s

/-- The clean of a scope for a group (R200, R201). -/
def cleanScope (s : State) (g : Group) (sc : Scope) : State :=
  let k := kernOf s g
  if meeting k sc = .home then
    match (if fusedK k then clusterOf s g else none) with
    | some cl => (clusterCores k cl).foldl cleanCore s
    | none => cleanCore s g.core
  else s
/-- The invalidate of a scope for a group (R200, R224). -/
def invalScope (s : State) (g : Group) (sc : Scope) : State :=
  let k := kernOf s g
  if meeting k sc = .home then
    match (if fusedK k then clusterOf s g else none) with
    | some cl => (clusterCores k cl).foldl invalCore s
    | none => invalCore s g.core
  else s

/-- An access at a home slice meets its core's own dirty words there: the line is written back first (R197, R218). -/
def ownWords (s : State) (g : Group) (l : Loc) (n : Nat) : State :=
  match l with
  | .phys pa =>
    let c := serveCore s g pa
    (wordsOf pa n).foldl (fun s wa => match cfind (coreOf s c).col wa with
      | some w => if w.dirty then writeBackLine s c (wa / 32) else s
      | none => s) s
  | .spad _ _ => s
/-- A word of a unit that the L1 of its serving core lacks. -/
def l1Lacks (s : State) (g : Group) (a : LaneAcc) : Bool :=
  match a.loc with
  | .phys pa => (wordsOf pa a.n).any (fun wa => (cfind (coreOf s (serveCore s g pa)).l1 wa).isNone)
  | .spad _ _ => false
/-- The one place of a coalesced line access: a plain load whose line the L1 does not hold whole is served by the column cache (R205). -/
def beatSpot (s : State) (g : Group) (whole : Bool) (sp : Spot) (now : List LaneAcc) : Spot :=
  if whole && sp = .l1 && now.any (l1Lacks s g) then .col else sp
/-- After a coalesced load at the column cache the L1 takes the line too (R196). -/
def beatFill (s : State) (g : Group) (sp now : Spot) (a : LaneAcc) : State :=
  match a.loc with
  | .phys pa => if sp = .l1 ∧ now = .col then l1Fill s (serveCore s g pa) (pa / 128) else s
  | .spad _ _ => s

/-- Perform the `i`-th remaining unit of a memory request, with its whole beat where that is a coalesced line
access (R205); a unit that an earlier write of the group still concerns waits (R218). -/
def performNth (s : State) (gid id i : Nat) : State :=
  match (tabFind s.groups gid).bind (fun g => (findReq g id).map (fun r => (g, r))) with
  | none => s
  | some (g, r) =>
    match r.kind with
    | .mem k op t w ord sc dst accs =>
      match accs[i]? with
      | none => s
      | some a =>
        let sp := spotOf (kernOf s g) g.garnet.isSome k ord sc
        let beat := accs.filter (fun b => b.lane / 32 = a.lane / 32)
        let whole := (k = .ld || k = .st) && coalesced s t w beat
        let now := if whole then beat else [a]
        let rest := if whole then accs.filter (fun b => b.lane / 32 ≠ a.lane / 32) else accs.eraseIdx i
        if ejectHeld s g || releaseHeld g id ord || now.any (fun b => heldUnit g id b.loc b.n || drainHeld s g id b.loc (b.va + 4 * b.reg) b.n) then s
        else
          let s := if ord = .rel || ord = .ar then cleanScope s g sc else s
          if snoopHeld s ord sc then s else
          let s := if sp = .home then now.foldl (fun s b => ownWords s g b.loc b.n) s else s
          let s := if whole && k = .st && atHome s g sp a.loc then clearLine s now else s
          let at_ := beatSpot s g whole sp now
          let s := now.foldl (fun s b => performUnit s gid id k op t at_ dst b) s
          let s := beatFill s g sp at_ a
          modGroup s gid (fun g => modReq g id (fun q => { q with kind := .mem k op t w ord sc dst rest }))
    | _ => s

/-- Perform every remaining unit of a memory request, in lane order. -/
def performRest (s : State) (gid id : Nat) : Nat → State
  | 0 => s
  | n + 1 => performRest (performNth s gid id 0) gid id n

end Sys2Proof.Machine
end

