-- ==== Sys2Proof/Machine/Gang.lean ====
section
/-! DEFINITION. Gangs, the rendezvous latch, the sequencer's queue, tile tokens and drain programs (R246, R247, R253,
R256, R257, R261, R264). -/
namespace Sys2Proof.Machine

/-! ### Gang words (R246) -/

def gangCount (w : Word) : Nat := w.toNat / 2 ^ 24 % 8
def gangSlot (w : Word) (i : Nat) : Nat := w.toNat / 16 ^ i % 16
/-- Group indices that a gang word names. -/
def gangIdxs (w : Word) : List Nat := (List.range (gangCount w)).map (gangSlot w)
/-- Strictly ascending. -/
def rising : List Nat → Bool
  | [] => true
  | [_] => true
  | a :: b :: t => decide (a < b) && rising (b :: t)
/-- Whether a gang word is valid for a group of a team (R246). -/
def gangOk (w : Word) (groups idx : Nat) : Bool :=
  decide (w.toNat < 2 ^ 27) && decide (2 ≤ gangCount w) && decide (gangCount w ≤ 6) && rising (gangIdxs w) &&
    (gangIdxs w).all (fun i => Nat.blt i groups) &&
    (List.range 6).all (fun i => decide (i < gangCount w) || gangSlot w i = 0) && List.any (gangIdxs w) (fun i => i == idx)

/-- The group of a team with an index. -/
def groupAt (s : State) (tm : Team) (idx : Nat) : Option Nat :=
  tm.groups.find? (fun g => match tabFind s.groups g with
    | some x => x.idx = idx
    | none => false)

/-! ### Tokens (R256, R257) -/

def tokenOf (s : State) (c t : Nat) : Option Token := tabFind (coreOf s c).tokens t
def setToken (s : State) (c t : Nat) (k : Token) : State := modCore s c (fun x => { x with tokens := tabPut x.tokens t k })
/-- The state number that `token_violation` reports (R335). -/
def tokenNo : Option Token → Nat
  | none => 0
  | some (.m _ _) => 1
  | some (.p _ _ _) => 2
  | some (.v _ _) => 3

/-- An opening join of a matrix instruction raises the count (R257). -/
def tokenOpen (s : State) (c t : Nat) : State :=
  match tokenOf s c t with
  | some (.m tm n) => setToken s c t (.m tm (n + 1))
  | some (.p tm g n) => setToken s c t (.p tm g (n + 1))
  | _ => s

/-- A matrix instruction on a tile completes; at P with none left the waiting `TKTAKE` completes (R257). -/
def tokenDone (s : State) (c t : Nat) : State :=
  match tokenOf s c t with
  | some (.m tm n) => setToken s c t (.m tm (n - 1))
  | some (.p tm g n) =>
    if n ≤ 1 then
      let s := setToken s c t (.v tm g)
      match tabFind s.groups g with
      | some x =>
        match x.reqs.find? (fun r => r.kind = .tktake t) with
        | some r => finishAt s g r.id
        | none => s
      | none => s
    else setToken s c t (.p tm g (n - 1))
  | _ => s

/-! ### Tiles -/

def accKey (t e : Nat) : Nat := t * 16384 + e
def accRead (s : State) (c t e : Nat) : Word := tabGet 0 (coreOf s c).acc (accKey t e)
/-- A clean write of a tile's word (R371). -/
def accWrite (s : State) (c t e : Nat) (v : Word) : State :=
  modCore s c (fun k => { k with acc := tabSet 0 k.acc (accKey t e) v, accPoison := setDel k.accPoison (accKey t e) })
/-- Every element of a tile becomes +0. -/
def zeroTile (s : State) (c t : Nat) : State :=
  modCore s c (fun k => { k with
    acc := k.acc.filter (fun e => e.1 / 16384 ≠ t), accPoison := k.accPoison.filter (fun e => e / 16384 ≠ t) })
/-- Whether one of some words of a tile is poisoned (R371). -/
def tilePoisoned (s : State) (c t : Nat) (es : List Nat) : Bool :=
  !(coreOf s c).accPoison.isEmpty && es.any (fun e => decide (accKey t e ∈ (coreOf s c).accPoison))
/-- A tile's drain extent: 128 × 128 with no padding unless an instruction has set it (R264). -/
def extentOf (s : State) (c t : Nat) : Extent := tabGet { m := 128, n := 128, pad := [] } (coreOf s c).extents t

/-- The restart record of a partial drain (R274). -/
def restartRecord (e : GangEnt) (uop row seg cause : Nat) : Dword :=
  BitVec.ofNat 64 (2 ^ 63 + uop % 64 * 2 ^ 50 + row * 2 ^ 43 + seg * 2 ^ 42 + e.td.tile.toNat * 2 ^ 38 +
    e.td.slot.toNat * 2 ^ 34 + cause * 2 ^ 32)

/-! ### Latch and queue (R247, R253) -/

/-- The team's cluster is resident and the team is not being rolled back, so that its groups and its matrix instructions go
on (R351, R358, R368). -/
def teamRuns (s : State) (team : Nat) : Bool :=
  match tabFind s.teams team with
  | some tm => tm.rolling.isNone && match tabFind s.clusters tm.cluster with
    | some c => c.state = .resident
    | none => false
  | none => false

/-- Every member of an entry's gang word has joined or retired (R247). -/
def entryReady (s : State) (e : GangEnt) : Bool :=
  match tabFind s.teams e.team with
  | none => false
  | some tm =>
    (gangIdxs e.gang).all (fun i =>
      match groupAt s tm i with
      | some g => e.members.any (fun m => m.1 = g) || ((tabFind s.groups g).map (fun x => x.retired)).getD true
      | none => true)

/-- Firing an entry (R247): the drain program is captured, a multiplying instruction records the tile's drain extent,
an `MDRAIN` takes it (R264, R275). -/
def fireEnt (s : State) (c : Nat) (e : GangEnt) : State :=
  let prog := if e.td.drain then slotWords (coreOf s c) e.team e.td.slot.toNat else []
  let t := e.td.tile.toNat
  let isMma := e.a.isSome
  let x := extentOf s c t
  let e := { e with fired := true, prog := prog, firedAt := (coreOf s c).fires + 1 }
  let e' : GangEnt := if isMma then e else { e with m := x.m, n := x.n, pad := x.pad }
  modCore s c (fun k => { k with
    fires := k.fires + 1,
    latch := k.latch.map (fun y => if y.id = e.id then e' else y),
    extents := if isMma then tabPut k.extents t { m := e.m, n := e.n, pad := e.pad } else k.extents })

/-- The fired entry of the latch that fired first (R253). -/
def firstFired (l : List GangEnt) : Option GangEnt :=
  (l.filter (fun e => e.fired)).foldl (fun b e => match b with
    | some x => if e.firedAt < x.firedAt then some e else b
    | none => some e) none
/-- Move fired entries into the sequencer's queue of four, in the order of firing (R253). -/
def pump (s : State) (c : Nat) : Nat → State
  | 0 => s
  | n + 1 =>
    let k := coreOf s c
    if k.seq.length < 4 then
      match firstFired k.latch with
      | some e =>
        pump (modCore s c (fun k => { k with latch := k.latch.filter (fun y => y.id ≠ e.id), seq := k.seq ++ [e] })) c n
      | none => s
    else s

/-- Fire every entry of a core that is ready, oldest first, and fill the queue (R247, R253). -/
def fireAll (s : State) (c : Nat) : State :=
  let s := (coreOf s c).latch.foldl (fun s e => if !e.fired && entryReady s e && teamRuns s e.team then fireEnt s c e else s) s
  pump s c 8

/-- The pins of a gang entry are gone from every column cache (R255). -/
def unpin (s : State) (id : Nat) : State :=
  { s with cores := s.cores.map (fun c => (c.1, { c.2 with pins := c.2.pins.filter (fun p => p.2.1 ≠ id) })) }

/-! ### Drain memory (R261) -/

/-- Words of drain memory in use on a core. -/
def drainUsed (k : Core) : Nat := k.progs.foldl (fun n p => n + p.2.2.length) 0
def dropProgs (k : Core) (team : Nat) : Core := { k with progs := k.progs.filter (fun p => p.1 ≠ team) }
/-- Put a program into a slot of a team. -/
def putProg (k : Core) (team slot : Nat) (ws : List Dword) : Core :=
  { k with progs := k.progs.filter (fun p => !(decide (p.1 = team) && decide (p.2.1 = slot))) ++ [(team, slot, ws)] }

end Sys2Proof.Machine
end

