-- ==== Sys2Proof/Machine/Life.lean ====
section
/-! DEFINITION. How groups retire, teams exit and are killed, clusters leave, and lanes die (R66, R69, R160, R233,
R243, R247, R343, R370, R380 to R382). -/
namespace Sys2Proof.Machine

/-! ### The column split (R66) -/

/-- Whether a team's cluster is out, so that the team holds nothing on the core that it last ran on (R358). -/
def teamOut (s : State) (tm : Team) : Bool :=
  match tabFind s.clusters tm.cluster with
  | some c => c.state = .out
  | none => false

/-- The teams on a core, with their numbers; those of a cluster that is out hold nothing (R358). -/
def teamsAt (s : State) (c : Nat) : List (Nat × Team) :=
  s.teams.filter (fun e => decide (e.2.core = c) && !teamOut s e.2)
/-- The cluster of a team. -/
def teamCluster (s : State) (tm : Team) : Option Cluster := tabFind s.clusters tm.cluster
/-- Scratchpad units that the teams on a core need: the end of the highest partition, in units of 512 KiB; the
partition of a team that has exited is kept until its cluster leaves (R66, R380). -/
def unitsNeeded (s : State) (c : Nat) : Nat :=
  s.teams.foldl (fun n e =>
    if e.2.core = c ∧ !teamOut s e.2 then
      max n ((e.2.spadOff + (teamKernel s e.1).spad + 524287) / 524288)
    else n) 0

/-- Set a core's split (R66): units that change hands are zeroed, the column lines held in units taken are written
back and dropped, every lock is released, and no set keeps more lines than its ways. -/
def setUnits (s : State) (c u : Nat) : State :=
  let old := (coreOf s c).units
  if u = old then s
  else
    let s := if old < u then modCore (cleanCore s c) c (fun k => { k with col := [], homes := [] }) else s
    let s := modCore s c (fun k => { k with
      units := u, locks := [],
      spad := k.spad.filter (fun e => decide (e.1 < 524288 * min old u)),
      spadPoison := k.spadPoison.filter (fun w => decide (4 * w < 524288 * min old u)) })
    colTrim s c

/-! ### Leaving (R380 to R382) -/

/-- A PASID's task slots on a stack are released when its last team there has left and none of its jobs remains
submitted; where one does, that is noted (R243). -/
def releaseTasks (s : State) (st pasid : Nat) : State :=
  let teamsLeft := s.teams.any (fun e => !e.2.exited && decide (stackNo e.2.core = st) &&
    decide (((tabFind s.clusters e.2.cluster).bind (fun cl => tabFind s.launches cl.launch)).map (fun l => l.pasid) = some pasid))
  if teamsLeft then s
  else if (stackOf s st).subs.any (fun x => x.pasid = pasid) then
    modStack s st (fun k => { k with leaving := setIns k.leaving pasid })
  else modStack s st (fun k => { k with tasks := k.tasks.filter (fun x => x.pasid ≠ pasid), leaving := setDel k.leaving pasid })
/-- The last job of a PASID whose last team has exited completes (R243). -/
def releaseLeft (s : State) (st pasid : Nat) : State :=
  if pasid ∈ (stackOf s st).leaving then releaseTasks s st pasid else s

/-- A team's locks are released on every core where it can hold one (R227). -/
def dropTeamLocks (s : State) (team : Nat) (tm : Team) : State :=
  let b := 4 * tm.core + tm.slot
  (teamCores s team).foldl (fun s c => modCore s c (fun k => { k with
    locks := (k.locks.map (fun e => (e.1, e.2 - (if bitN e.2 b then 2 ^ b else 0)))).filter (fun e => e.2 ≠ 0) })) s
/-- Gang entries of a team on a core: in the latch or fired. -/
def teamEnts (k : Core) (team : Nat) : List GangEnt := (k.latch ++ k.seq).filter (fun e => e.team = team)
/-- What a team holds on its core returns to it (R380): tiles zeroed and tokens free, locks, drain words and barrier objects gone. On
its exit (`keep`) the instructions that it has still to complete keep their entries, pins and tiles until they do. -/
def releaseTeam (s : State) (team : Nat) (keep : Bool) : State :=
  match tabFind s.teams team with
  | none => s
  | some tm =>
    let mine := fun (k : Token) => match k with
      | .m t _ => t = team
      | .p t _ _ => t = team
      | .v t _ => t = team
    let kept := if keep then teamEnts (coreOf s tm.core) team else []
    let ents := (coreOf s tm.core).seq.filter (fun e => e.team = team && !keep)
    let free := fun (e : Nat × Token) => mine e.2 && !(kept.any (fun x => x.td.tile.toNat = e.1))
    let tiles := ((coreOf s tm.core).tokens.filter free).map (fun e => e.1)
    let s := tiles.foldl (fun s t => zeroTile s tm.core t) s
    let s := modCore s tm.core (fun k => dropProgs { k with
      tokens := k.tokens.filter (fun e => !free e),
      extents := k.extents.filter (fun e => !(e.1 ∈ tiles)),
      latch := k.latch.filter (fun e => keep || decide (e.team ≠ team)),
      seq := k.seq.filter (fun e => keep || decide (e.team ≠ team)),
      drain := match k.drain with
        | some d => if !keep && k.seq.any (fun e => decide (e.id = d.ent) && decide (e.team = team)) then none else some d
        | none => none
      } team)
    let s := ents.foldl (fun s e => unpin s e.id) (dropTeamLocks s team tm)
    fireAll (barsOfTeam s team) tm.core

/-- When the last team of a launch on a core leaves, the items in its queue are undelivered (R71, R380). -/
def returnItems (s : State) (core launch : Nat) : State :=
  let left := s.teams.any (fun e => !e.2.exited && !teamOut s e.2 && decide (e.2.core = core) &&
    decide ((tabFind s.clusters e.2.cluster).map (fun cl => cl.launch) = some launch))
  match tabFind s.launches launch with
  | none => s
  | some l =>
    if left || !l.kern.flags.getLsbD 3 then s
    else
      let n := (coreOf s core).items.length
      modCore (modLaunch s launch (fun x => { x with undelivered := x.undelivered + n })) core
        (fun k => { k with items := [] })

/-- Every team of a cluster has exited or been killed, and no matrix instruction of theirs is left (R380). -/
def clusterDone (s : State) (c : Cluster) : Bool :=
  c.teams.all (fun t => match tabFind s.teams t with
    | some x => x.exited && (teamEnts (coreOf s x.core) t).isEmpty
    | none => true)
/-- A submission of a team of a cluster has not completed: its scratchpad and its column stay until it has (R381). -/
def clusterJobs (s : State) (c : Cluster) : Bool :=
  s.stks.any (fun e => e.2.subs.any (fun x => (x.team.map (fun t => decide (t ∈ c.teams))).getD false))
/-- A cluster whose teams have all gone is over, and once no submission of theirs is left it leaves its cores (R66, R69, R381): a fused
L1 is invalidated, groups, teams and images are freed, and the splits fall. -/
def leaveCluster (s : State) (cl : Nat) : State :=
  match tabFind s.clusters cl with
  | none => s
  | some c =>
    if !clusterDone s c then s
    else if c.state ≠ .out && clusterJobs s c then modCluster s cl (fun x => { x with state := .gone })
    else
      let k := ((tabFind s.launches c.launch).map (fun l => l.kern)).getD kernZero
      let cores := clusterCores k c
      let s := if fusedK k && c.state ≠ .out then cores.foldl (fun s q => modCore s q (fun x => { x with l1 := [] })) s
        else s
      let s := { s with
        groups := s.groups.filter (fun e => !(e.2.team ∈ c.teams)),
        teams := s.teams.filter (fun e => !(e.1 ∈ c.teams)) }
      let s := modCluster s cl (fun x => { x with state := .gone, teams := [] })
      cores.foldl (fun s q => setUnits s q (unitsNeeded s q)) s
/-- A matrix instruction of a team is over: a team that has exited returns what it held for it (R380). -/
def leaveEnt (s : State) (team : Nat) : State :=
  match tabFind s.teams team with
  | some tm => if tm.exited then leaveCluster (releaseTeam s team true) tm.cluster else s
  | none => s
/-- A submission of a team is over: the last one lets its cluster leave (R381). -/
def leaveSub (s : State) (team : Option Nat) : State :=
  match team.bind (tabFind s.teams) with
  | some tm => if tm.exited then leaveCluster s tm.cluster else s
  | none => s

/-- A team has no group left that has not retired: it exits (R380). -/
def teamExit (s : State) (team : Nat) : State :=
  match tabFind s.teams team with
  | none => s
  | some tm =>
    if tm.exited then s
    else
      let pasid := match tm.groups with
        | g :: _ => ((tabFind s.groups g).map (pasidOf s)).getD 0
        | [] => 0
      let launch := ((tabFind s.clusters tm.cluster).map (fun c => c.launch)).getD 0
      let s := releaseTeam s team true
      let s := modTeam s team (fun t => { t with exited := true })
      let s := returnItems s tm.core launch
      let s := releaseTasks s (stackNo tm.core) pasid
      leaveCluster s tm.cluster

/-! ### Retirement of a group (R160) -/

/-- Whether a card that names one of a group's flags is still to complete (R160). -/
def cardPending (s : State) (gid : Nat) : Bool :=
  let names := fun (x : Sub) => match x.cardFlag with
    | some (g, _, _) => g = gid
    | none => false
  s.stks.any (fun e => e.2.subs.any names || e.2.tasks.any (fun t => match t.card with
    | some x => names x
    | none => false))

/-- The three conditions of R160, with every access performed; a group that is being pre-empted, is out or is being
rolled back retires afterwards (R356, R368). -/
def mayRetire (s : State) (gid : Nat) (g : Group) : Bool :=
  teamRuns s g.team && g.garnet.isNone && !g.retired && g.paths.isEmpty && g.slots.all (fun x => x.rjm = 0 && x.returned = 0) && g.recalls.isEmpty &&
    g.outq.isEmpty && g.reqs.all (fun r => decide (12 ≤ r.flag.toNat) && !pastCheck r) && !cardPending s gid

/-- A group retires when nothing of it remains (R160); copies form, gang entries fire, and the team may exit. -/
def tryRetire (s : State) (gid : Nat) : State :=
  match tabFind s.groups gid with
  | none => s
  | some g =>
    if mayRetire s gid g then
      let s := setGroup s gid { g with retired := true, reqs := [], pend := [], handler := none, due := [] }
      let s := formCopies s g.team
      let s := fireAll s g.core
      match tabFind s.teams g.team with
      | some tm => if (liveGroups s tm).isEmpty then teamExit s g.team else s
      | none => s
    else s

/-- Complete a request and let its group retire if that was the last it waited for. -/
def complete (s : State) (gid id : Nat) : State := tryRetire (finishAt s gid id) gid

/-- Every group that can retire does, after an event that concerns several. -/
def settleAll (s : State) : State := s.groups.foldl (fun s e => tryRetire s e.1) s

/-! ### Death of lanes (R370) -/

/-- Clear lanes from every mask and set of a group (R370). -/
def dropLanes (g : Group) (m : Mask) : Group :=
  { g with
    dead := g.dead ||| m,
    paths := g.paths.map (fun p => { p with
      mask := p.mask &&& ~~~ m, owned := p.owned &&& ~~~ m, hungry := p.hungry &&& ~~~ m, done := p.done &&& ~~~ m,
      stack := p.stack.map (fun e => match e with
        | .reconv k t => .reconv (k &&& ~~~ m) t
        | .pending a b k t x => .pending a b (k &&& ~~~ m) t x) }),
    slots := g.slots.map (fun (x : RjSlot) => { x with rjm := x.rjm &&& ~~~ m, returned := x.returned &&& ~~~ m }),
    recalls := g.recalls.filterMap (fun e =>
      if e.mask &&& ~~~ m = 0 then none else some { e with mask := e.mask &&& ~~~ m }) }

/-- The path that returned lanes form where no path is bound to their slot (R160). -/
def formReturned (s : State) (g : Group) (t : Nat) : Group :=
  let x := slotAt g t
  let bit := 1#4 <<< t
  let bound := g.paths.any (fun q => q.tags &&& bit ≠ 0)
  let waiting := g.recalls.any (fun e => e.tags &&& bit ≠ 0)
  if x.returned = 0 ∨ x.rjm ≠ 0 ∨ bound ∨ waiting then g
  else match freeEntry g with
    | some i =>
      let q := { pathNew i x.rspc x.rlpc x.returned with tags := x.rtags &&& ~~~ bit }
      let q := sigAdd s g q (fun _ => crcOf 4 (0x64000000 + t))
      setSlot { g with paths := g.paths ++ [q] } t { x with returned := 0, rtags := 0 }
    | none => g
/-- Every slot whose returned lanes may form a path does. -/
def formAll (s : State) (g : Group) : Group := (List.range 4).foldl (fun g t => formReturned s g t) g

/-- Lanes of a group die (R370): counted for the launch and the stack; with none left alive the group retires as if
every path had executed `EXIT`, and lanes that had returned to a slot with none left out form their path (R160). -/
def killLanes (s : State) (gid : Nat) (m : Mask) : State :=
  match tabFind s.groups gid with
  | none => s
  | some g =>
    let fresh := m &&& ~~~ g.dead
    if fresh = 0 then s
    else
      let n := maskCount fresh
      let s := match launchNo s g with
        | some l => modLaunch s l (fun x => { x with deadLanes := x.deadLanes + n })
        | none => s
      let s := modStack s (stackNo g.core) (fun k => { k with life := { k.life with deadLanes := k.life.deadLanes + n } })
      let g := dropLanes g fresh
      let g := if g.dead = BitVec.allOnes 96 then { g with paths := [], recalls := [], handler := none, due := [] } else g
      let g := drainRecalls (formAll s (drainRecalls g))
      tryRetire (takeDue (setGroup s gid g) gid) gid

/-- A Garnet context's lane dies: the context is freed and the lane leaves `rjm` (R130, R370). -/
def killContext (s : State) (ctx : Nat) : State :=
  match tabFind s.groups ctx with
  | none => s
  | some c =>
    match c.garnet with
    | none => s
    | some i => killLanes { s with groups := tabDel s.groups ctx } i.parent (laneBit i.lane)

/-! ### Killing (R343, R380, R381) -/

/-- Perform what a killed group's requests still hold: their checks have passed, and an accepted append is written
(R343, R381). -/
def drainAccesses (s : State) (gid : Nat) : State :=
  match tabFind s.groups gid with
  | none => s
  | some g => g.reqs.foldl (fun s r =>
      match r.kind with
      | .mem _ _ _ _ _ _ _ accs => performRest s gid r.id accs.length
      | .sstore dbl l d => storeLoc s g .col l (if dbl then 8 else 4) d
      | .append seg sq src => takeRecord s g seg sq src
      | _ => s) s

/-- What a killed team has on a stack and has not begun is cancelled: submissions, walks, records not yet written, and
named tasks, whose slots become done without status (R381). -/
def cancelWork (s : State) (st team : Nat) (groups : List Nat) : State :=
  let s := modStack s st (fun k => { k with
    subs := k.subs.filter (fun x => x.started || x.team ≠ some team),
    waitQ := k.waitQ.filter (fun r => r.team ≠ team || k.subs.any (fun x => x.started && x.suspended = some r.tag)),
    walks := k.walks.filter (fun w => !(w.grp ∈ groups)) })
  let gone := (stackOf s st).tasks.filter (fun x => x.state ≠ .running && match x.card with
    | some c => c.team = some team
    | none => false)
  gone.foldl (fun s x => wakeTask (putSlot s st { x with state := .done, card := none }) st x.pasid x.num) s

/-- No drain of a launch is inside a segment that it has checked: a kill takes effect only then, since the segment is finished first
(R273, R380). -/
def segsDone (s : State) (ln : Nat) : Bool :=
  s.cores.all (fun e => match e.2.drain with
    | some d => !d.inSeg || e.2.seq.all (fun x => decide (x.id ≠ d.ent) || decide (
        ((tabFind s.teams x.team).bind (fun t => tabFind s.clusters t.cluster)).map (fun c => c.launch) ≠ some ln))
    | none => true)
/-- Kill one team (R343, R380, R381): contexts freed, accesses in flight completed, submissions not started cancelled,
tasks not running done without status, and everything it held returned. -/
def killTeam (s : State) (team : Nat) : State :=
  match tabFind s.teams team with
  | none => s
  | some tm =>
    if tm.exited then s
    else
      let s := haltTeam s team
      let s := tm.groups.foldl drainAccesses s
      let s := { s with groups := s.groups.filter (fun e => !(decide (e.2.team = team) && e.2.garnet.isSome)) }
      let st := stackNo tm.core
      let pasid := match tm.groups with
        | g :: _ => ((tabFind s.groups g).map (pasidOf s)).getD 0
        | [] => 0
      let s := s.stks.foldl (fun s e => cancelWork s e.1 team tm.groups) s
      let s := { s with groups := s.groups.map (fun e =>
        if e.2.team = team then
          (e.1, { e.2 with retired := true, paths := [], recalls := [], reqs := [], pend := [], outq := [] })
        else e) }
      let launch := ((tabFind s.clusters tm.cluster).map (fun c => c.launch)).getD 0
      let away := teamOut s tm
      let s := if away then s else releaseTeam s team false
      let s := modTeam s team (fun t => { t with exited := true, slices := [] })
      let s := if away then s else returnItems s tm.core launch
      let s := releaseTasks s st pasid
      leaveCluster s tm.cluster

/-- Kill every team of a launch, abandon its clusters not yet placed and release those that are out (R343, R358,
R384). -/
def killLaunchNo (s : State) (l : Nat) (cause : Word) : State :=
  let s := modLaunch s l (fun x => { x with
    killed := true, cause := if x.cause = 0 then cause else x.cause,
    undelivered := x.undelivered + (x.itemCount - x.itemNext) + x.kept.length, itemNext := x.itemCount, kept := [],
    feedEnded := true, nextCluster := x.grid })
  let cls := s.clusters.filter (fun e => e.2.launch = l)
  let s := cls.foldl (fun s e => e.2.teams.foldl killTeam s) s
  { s with
    clusters := s.clusters.map (fun e => if e.2.launch = l then (e.1, { e.2 with state := .gone }) else e),
    saved := s.saved.filter (fun x => !(cls.any (fun e => x.team ∈ e.2.teams))),
    placeReqs := s.placeReqs.filter (fun r => !(cls.any (fun e => e.1 = r.cluster))) }

end Sys2Proof.Machine
end

