-- ==== Sys2Proof/Machine/ScalarControl.lean ====
section
/-! DEFINITION. Uniform branches, lane runs, items, waits and hints of the scalar stream (R79, R101, R155 to
R160, R163). -/
namespace Sys2Proof.Machine

/-- A target `n` words from the branch itself (R155). -/
def wordTarget (p : Path) (off : Word) : Word := p.spc + 4 * off
/-- The target of an I-form branch. -/
def target14 (p : Path) (off : BitVec 14) : Word := wordTarget p (off.signExtend 32)
/-- The target of a J-form branch. -/
def target26 (p : Path) (off : BitVec 26) : Word := wordTarget p (off.signExtend 32)

/-- A uniform jump (R155). -/
def jumpTo (s : State) (f : Group → Path → Word) : Out :=
  onPath s (fun g p => .next (keep s g (jumpScalar s g p (f g p))))

/-- `BR.nz` (R155). -/
def execBrNz (a : SReg) (off : BitVec 14) (s : State) : Out :=
  jumpTo s (fun g p => if sRead g p a = 0 then p.spc + 4 else target14 p off)
/-- `BR.z` (R155). -/
def execBrZ (a : SReg) (off : BitVec 14) (s : State) : Out :=
  jumpTo s (fun g p => if sRead g p a = 0 then target14 p off else p.spc + 4)
/-- `JMP` (R155). -/
def execJmp (off : BitVec 26) (s : State) : Out := jumpTo s (fun _ p => target26 p off)
/-- `CALL` writes the return address to `s60` (R155). -/
def execCall (off : BitVec 26) (s : State) : Out :=
  onPath s (fun g p =>
    let r := sWrite (g, jumpScalar s g p (target26 p off)) 60 (p.spc + 4)
    .next (keep s r.1 r.2))
/-- `JMPI` (R155). -/
def execJmpi (a : SReg) (s : State) : Out := jumpTo s (fun g p => sRead g p a)
/-- `RET` (R155). -/
def execRet (s : State) : Out := jumpTo s (fun g p => sRead g p 60)

/-- `NOP` and the hints of R79: no effect, and no contribution to the signature (R365). -/
def execNop (_ : BitVec 26) (s : State) : Out :=
  onPath s (fun g p => .next (keep s g { p with spc := p.spc + 4 }))

/-! ### Lane runs (R101, R157, R158) -/

/-- Entries of the run queue taken: the run being issued holds one (R101). -/
def runsHeld (p : Path) : Nat := p.queue.length + (if p.running then 1 else 0)
/-- The byte offset of a lane-word index. -/
def runStart (idx : BitVec 26) : Word := 12 * idx.setWidth 32

/-- `LRUN` waits while all four entries are taken (R157). -/
def execLrun (idx : BitVec 26) (s : State) : Out :=
  onPath s (fun g p =>
    if 4 ≤ runsHeld p then .next s
    else .next (keep s g { advScalar s g p with queue := p.queue ++ [runStart idx] }))
/-- `LJMP` finds the queue empty, queues its run, and holds the scalar stream until the run's first word has issued
(R158). -/
def execLjmp (idx : BitVec 26) (s : State) : Out :=
  onPath s (fun g p =>
    if lanesIssued p then .next (keep s g { advScalar s g p with queue := [runStart idx], hold := .ljmp })
    else .next s)

/-! ### Waits (R163) -/

/-- `WAITF` (R163). -/
def execWaitf (m : BitVec 12) (s : State) : Out :=
  onPath s (fun g p => if m &&& ~~~ g.flags = 0 then .next (keep s g (advScalar s g p)) else .next s)
/-- `WAITK` (R111, R163). -/
def execWaitk (k : KPath) (r : SReg) (s : State) : Out :=
  onPath s (fun g p =>
    if counter g k ≤ (sRead g p r).toNat then .next (keep s g (advScalar s g p)) else .next s)

/-! ### Items (R31, R32, R71, R159) -/

/-- The outcome of one take (R71). -/
inductive Taken where
  | item (i : Item)
  | empty
  | exhausted
deriving DecidableEq, Repr

/-- An item's age budget has run out at a clock (R32). -/
def expired (i : Item) (t : Nat) : Bool :=
  let b := ((i.words[0]?).getD 0).toNat
  decide (b ≠ 0) && decide ((1000 * b : Int) < (t : Int) - i.stamp)

/-- What an empty queue reports (R71). -/
def noItem (l : Launch) : Taken :=
  if l.feedEnded || (decide (l.itemCount ≤ l.itemNext) && l.kept.isEmpty) then .exhausted else .empty

/-- Take from a queue: discards go to the launch's record on the way (R32, R71). -/
def takeItem (t : Nat) : List Item → Launch → Taken × List Item × Launch
  | [], l => (noItem l, [], l)
  | i :: rest, l =>
    if expired i t then
      takeItem t rest { l with discarded := l.discarded + 1,
                               tags := if l.tags.length < 20 then l.tags ++ [(i.words[1]?).getD 0] else l.tags }
    else (.item i, rest, { l with delivered := l.delivered + 1 })

/-- One pass of `LOOPH` over its lanes, in ascending order (R159). -/
structure LoophPass where
  items : List Item
  launch : Launch
  g : Group
  got : Mask
  hungry : Mask
  ended : Mask

def loophLane (t ib : Nat) (useItems : Bool) (x : LoophPass) (l : Nat) : LoophPass :=
  if !useItems then { x with ended := x.ended ||| laneBit l }
  else match takeItem t x.items x.launch with
    | (.item i, rest, la) =>
      { x with items := rest, launch := la, got := x.got ||| laneBit l,
               g := (List.range 8).foldl (fun g k => vWrite g (vKey (ib + k) l) ((i.words[k]?).getD 0) false) x.g }
    | (.empty, rest, la) => { x with items := rest, launch := la, hungry := x.hungry ||| laneBit l }
    | (.exhausted, rest, la) => { x with items := rest, launch := la, ended := x.ended ||| laneBit l }

/-- The class 2 event of an instruction that a handler may not issue (R335, R338). -/
def handlerIllegal (s : State) (p : Path) (lane : Bool) : TrapInfo :=
  mkTrap s p (if lane then 1 else 0) 0x4C (if lane then s.ir.extractLsb' 64 32 else s.ir.extractLsb' 0 32) 0

/-- `LOOPH` (R159). -/
def execLooph (off : BitVec 14) (s : State) : Out :=
  onPath s (fun g p =>
    if g.handler.isSome then trapHere s g p (handlerIllegal s p false)
    else match launchOf s g, launchNo s g with
      | some l, some ln =>
        let w := ((p.mask ||| p.hungry) &&& p.owned) &&& ~~~ p.done
        let x := (maskLanes w).foldl (loophLane s.clock l.kern.ib (l.kern.flags.getLsbD 3))
          { items := (coreOf s g.core).items, launch := l, g := g, got := 0, hungry := 0, ended := 0 }
        let s := modCore s g.core (fun k => { k with items := x.items })
        let s := { s with launches := tabPut s.launches ln x.launch }
        let p := { p with done := p.done ||| x.ended }
        if x.got ≠ 0 then
          .next (keep s x.g { advScalar s g p with mask := x.got, hungry := x.hungry, hold := .free })
        else if x.hungry ≠ 0 then .next (keep s x.g { p with hold := .looph })
        else
          .next (keep s x.g { jumpScalar s g p (target14 p off) with
            mask := p.done &&& p.owned, hungry := 0, done := 0, hold := .free })
      | _, _ => .next s)

end Sys2Proof.Machine
end

