-- ==== Sys2Proof/Machine/Diverge.lean ====
section
/-! DEFINITION. Divergence, ejection and rejoin (R103, R116 to R130, R364, R365). -/
namespace Sys2Proof.Machine

/-- The active lanes of a path: those of its mask that it owns and that are not dead (R9, R150). -/
def activeMask (g : Group) (p : Path) : Mask := p.mask &&& p.owned &&& ~~~ g.dead
def tagBit (t : BitVec 2) : BitVec 4 := 1#4 <<< t.toNat

/-- Slot `t` is free (R117). -/
def slotFree (g : Group) (t : BitVec 2) : Bool :=
  g.paths.all (fun q => q.tags &&& tagBit t = 0) && (slotAt g t.toNat).rjm = 0 &&
    g.recalls.all (fun e => e.tags &&& tagBit t = 0)

/-- Entries of the reconvergence stack in use by the group (R128). -/
def stackUsed (g : Group) : Nat := g.paths.foldl (fun n q => n + q.stack.length) 0

/-- A live set's 384 bits, if the kernel has it and its bytes can be read (R24, R118). -/
def liveSet (s : State) (g : Group) (live : BitVec 6) : Option (BitVec 384) :=
  let k := kernOf s g
  let off := k.liveOff + 48 * live.toNat
  if live.toNat < k.liveCount ∧ off + 48 ≤ k.liveSize then
    (List.range 48).foldr (fun i r =>
      match r, translateNow s (stackNo g.core) (pasidOf s g) (k.liveBase + off + i) .readOrExec with
      | some m, .ok pa => some (m * 256 + (homeByte s pa).toNat)
      | _, _ => none) (some 0) |>.map (BitVec.ofNat 384)
  else none

/-- A request that still has to write a vector register of a live set (R121). -/
def pendsLive (live : BitVec 384) (r : Req) : Bool :=
  match r.kind with
  | .mem k _ t w _ _ d _ =>
    (k = .ld || k = .atom) && (List.range (t.span w)).any (fun i => live.getLsbD (d.toNat + i))
  | .accrd d _ _ | .sfu _ d => live.getLsbD d.toNat
  | _ => false
/-- A request that still has to write one of `s0` to `s60` (R121). -/
def pendsScalar (r : Req) : Bool :=
  match r.kind with
  | .sload d _ _ | .apfence _ _ d => decide (d.toNat < 61)
  | _ => false

/-- `EjectAllowed` (R121). -/
def ejectAllowed (s : State) (g : Group) (p : Path) (t : BitVec 2) (m : Mask) (live : BitVec 6) : Bool :=
  decide (maskCount m ≤ g.ejth.toNat) && !(kernOf s g).flags.getLsbD 2 && slotFree g t && p.stack.isEmpty &&
    g.handler.isNone && !(stackOf s (stackNo g.core)).degraded &&
    match liveSet s g live with
    | some l => !(g.reqs.any (fun r => pendsLive l r || pendsScalar r))
    | none => false

/-- Garnet contexts of a stack in use (R15). -/
def poolUsed (s : State) (st : Nat) : Nat :=
  (s.groups.filter (fun e => e.2.garnet.isSome && decide (stackNo e.2.core = st))).length

/-- The path after a dividing instruction's contribution: its word, and mask terms that are zero in a run free of
errors (R365). -/
def divHash (s : State) (g : Group) (p : Path) (ms : List Mask) (a : Mask) : Path :=
  sigAdd s g (sigWord s g p) (fun _ => (ms.map linMask).foldl (· ^^^ ·) (linMask a))

/-- `reconv_overflow` at the instruction (R128, R335). -/
def overflowTrap (s : State) (p : Path) (t : BitVec 2) : TrapInfo := mkTrap s p 0 0x18 (t.setWidth 32) 0

/-- `StackDiverge` (R128): the new stack, or none where it would exceed 64 entries. -/
def stackDiverge (g : Group) (p : Path) (tk : Mask) (t : BitVec 2) (tgt : Word) : Option (List StackEnt) :=
  let e := StackEnt.pending tgt p.lpc tk t p.sig
  let top := match p.stack with
    | .reconv _ u :: _ => decide (u = t)
    | _ => false
  let new := if top then e :: p.stack else e :: .reconv p.mask t :: p.stack
  if 64 < stackUsed g - p.stack.length + new.length then none else some new

/-- Split or stack the two sides of a `BRD` (R119, R128). -/
def splitOrStack (s : State) (gid : Nat) (g : Group) (p : Path) (tk nt : Mask) (t : BitVec 2) (off : BitVec 14) :
    State :=
  let q := divHash s g p [tk, nt] (tk ||| nt)
  let entry := if slotFree g t && g.handler.isNone then freeEntry g else none
  match entry with
  | some i =>
    let new := { pathNew i (target14 p off) p.lpc tk with tags := p.tags ||| tagBit t, sig := q.sig }
    let p' := { q with mask := nt, owned := p.owned &&& ~~~ tk, tags := p.tags ||| tagBit t, spc := p.spc + 4,
                       hold := .free }
    let g := putPath g p'
    setGroup s gid { g with paths := g.paths ++ [new] }
  | none =>
    match stackDiverge g q tk t (target14 p off) with
    | some st => setGroup s gid (putPath g { q with stack := st, mask := nt, spc := p.spc + 4, hold := .free })
    | none => takeTrap s gid g { p with hold := .free } (overflowTrap s p t)

/-- `BRD` (R118, R119): uniform outcomes at once; an allowed ejection asks the pool and waits for its decision. -/
def execBrd (n : PReg) (neg : Bool) (t : BitVec 2) (live : BitVec 6) (off : BitVec 14) (s : State) : Out :=
  onPath s (fun g p =>
    let a := activeMask g p
    let tk := maskOf ((maskLanes a).filter (fun l => pRead g s.clock n.toNat l != neg))
    let nt := a &&& ~~~ tk
    if tk = 0 then .next (keep s g { divHash s g p [tk, nt] a with spc := p.spc + 4 })
    else if nt = 0 then .next (keep s g { divHash s g p [tk, nt] a with spc := target14 p off })
    else
      let m := if maskCount tk ≤ maskCount nt then tk else nt
      if ejectAllowed s g p t m live then
        .next (keep s g { p with hold := .eject tk nt t live off, askAt := s.clock, askWord := s.ir })
      else .next (splitOrStack s s.cur g p tk nt t off))

/-- The lowest free contexts of a stack's pool, four to each Garnet core (R15). -/
def freeContexts (s : State) (st : Nat) : List Nat :=
  let used := (s.groups.filter (fun e => e.2.garnet.isSome && decide (stackNo e.2.core = st))).map (fun e => e.2.place)
  (List.range Config.poolContexts).filter (fun i => !(i ∈ used))

/-- A Garnet context for one lane (R122); the group's accesses issued before request `since` precede its own (R125). -/
def makeContext (gid : Nat) (g : Group) (p : Path) (lane : Nat) (pc : Word) (t : BitVec 2) (live : BitVec 384)
    (sig : Word) (place since : Nat) : Group :=
  let keys := fun (k : Nat) => live.getLsbD (k / 96) && k % 96 = lane
  { g with
    sreg := g.sreg, vreg := g.vreg.filter (fun e => keys e.1), vpoison := g.vpoison.filter keys,
    pred := g.pred.map (fun e => (e.1, e.2 &&& laneBit lane)) |>.filter (fun e => e.2 ≠ 0),
    place := place, flags := BitVec.allOnes 12, seen := BitVec.allOnes 12, owner := [], outq := [], reqs := [], pend := [],
    fpflags := 0, fpDue := [], quiet := 0, lineUse := [],
    paths := [{ pathNew 0 pc p.lpc (laneBit lane) with sig := sig }],
    slots := [slotZero, slotZero, slotZero, slotZero], recalls := [], ncpyc := 0, due := [], handler := none,
    garnet := some { parent := gid, lane := lane, tag := t, tags := p.tags ||| tagBit t, live := live, written := 0,
                     fp0 := g.fpflags, since := since } }

/-- A path awaits the pool's decision. -/
def asksPool (p : Path) : Bool := match p.hold with
  | .eject _ _ _ _ _ => true
  | _ => false
/-- Where a request stands among those of its stack: by the clock in which it reached the pool, then local core, partition and age
(R121). -/
def askOrder (g : Group) (p : Path) : List Nat := [p.askAt, g.core % 16, g.part, g.age]
/-- One list of numbers comes before another. -/
def before : List Nat → List Nat → Bool
  | x :: xs, y :: ys => decide (x < y) || (decide (x = y) && before xs ys)
  | _, _ => false
/-- A request of the stack is taken by the pool before this one (R121). -/
def askedBefore (s : State) (g : Group) (p : Path) : Bool :=
  s.groups.any (fun e => decide (stackNo e.2.core = stackNo g.core) &&
    e.2.paths.any (fun q => asksPool q && before (askOrder e.2 q) (askOrder g p)))

/-- The pool's decision on a `BRD` (R119, R121): the requests of a stack in order, each granted all or none; a refusal splits or
stacks. -/
def execEjectionDecision (gid pid : Nat) (s : State) : Out :=
  match (tabFind s.groups gid).bind (fun g => (findPath g pid).map (fun p => (g, p))) with
  | some (g, p) =>
    match p.hold with
    | .eject tk nt t live off =>
      if askedBefore s g p then .next s
      else
      let s := { s with ir := p.askWord }
      let takenMin := decide (maskCount tk ≤ maskCount nt)
      let m := if takenMin then tk else nt
      let room := decide (poolUsed s (stackNo g.core) + maskCount m ≤ Config.poolContexts)
      match liveSet s g live with
      | some l =>
        if room then
          let q := divHash s g p [tk, nt] (tk ||| nt)
          let x := slotAt g t.toNat
          let pc := if takenMin then target14 p off else p.spc + 4
          let q := sigAdd s g q (fun _ => linMask m ^^^ linMask (m &&& ~~~ x.rjm))
          let q' := { q with mask := p.mask &&& ~~~ m, owned := p.owned &&& ~~~ m, tags := p.tags ||| tagBit t,
                             spc := if takenMin then p.spc + 4 else target14 p off, hold := .free }
          let lanes := maskLanes m
          let ctxs := lanes.mapIdx (fun i ln => (s.fresh + i, makeContext gid g p ln pc t l q.sig
            (((freeContexts s (stackNo g.core))[i]?).getD 0) s.fresh))
          let g := setSlot (putPath g q') t.toNat { x with rjm := x.rjm ||| m }
          let s := setGroup s gid g
          .next { s with groups := ctxs.foldl (fun gs e => tabPut gs e.1 e.2) s.groups,
                         fresh := s.fresh + lanes.length }
        else .next (splitOrStack s gid g p tk nt t off)
      | none => .next (splitOrStack s gid g p tk nt t off)
    | _ => .next s
  | none => .next s

/-! ### JMPV and CALLV (R129) -/

/-- Distinct targets of the active lanes, ascending, each with its lanes (R129). -/
def targets (g : Group) (t v : Nat) (a : Mask) : List (Nat × Mask) :=
  (maskLanes a).foldl (fun ts l =>
    let k := (vRead g t (vKey v l)).1.toNat
    tabPut ts k (tabGet 0 ts k ||| laneBit l)) []

/-- New paths for targets while entries remain; the targets left over (R129). -/
def spawn (g : Group) (lpc : Word) (tags : BitVec 4) (sig : Word) : List (Nat × Mask) → Group × List (Nat × Mask)
  | [] => (g, [])
  | (pc, m) :: rest =>
    match freeEntry g with
    | some i =>
      spawn { g with paths := g.paths ++ [{ pathNew i (BitVec.ofNat 32 pc) lpc m with tags := tags, sig := sig }] }
        lpc tags sig rest
    | none => (g, (pc, m) :: rest)

/-- Lanes die; of a Garnet context its one lane does (R130, R370). -/
def killMask (s : State) (gid : Nat) (g : Group) (m : Mask) : State :=
  if m = 0 then s else if g.garnet.isSome then killContext s gid else killLanes s gid m
/-- The sorter of `JMPV` and `CALLV` (R129); `link` writes `s60` when the instruction takes effect. Lanes whose target is poisoned die
with it (R370). -/
def vectorJump (s : State) (t : BitVec 2) (v : VReg) (link : Bool) : Out :=
  onPath s (fun g p =>
    let die := maskOf ((maskLanes (activeMask g p)).filter (fun l => (vRead g s.clock (vKey v.toNat l)).2))
    let a := activeMask g p &&& ~~~ die
    let done := fun (g' : Group) (p' : Path) => Host.Outcome.next (killMask (keep s g' p') s.cur g die)
    let linked := fun (g : Group) =>
      if link then { g with sreg := tabSet 0 g.sreg 60 (p.spc + 4), spoison := setDel g.spoison 60 } else g
    match targets g s.clock v.toNat a with
    | [] => done g { divHash s g p [] a with spc := p.spc + 4 }
    | [(pc, m)] => done (linked g) { divHash s g p [m] a with spc := BitVec.ofNat 32 pc }
    | (pc, m) :: rest =>
      let q := divHash s g p (m :: rest.map (fun e => e.2)) a
      let tags := p.tags ||| tagBit t
      let free := slotFree g t && g.handler.isNone
      let sp := if free then spawn g p.lpc tags q.sig rest else (g, rest)
      let left := sp.2
      let lost := (rest.filter (fun e => !(e ∈ left))).foldl (fun x e => x ||| e.2) (0 : Mask)
      let stay := left.foldl (fun x e => x ||| e.2) m
      let pend := left.map (fun e => StackEnt.pending (BitVec.ofNat 32 e.1) p.lpc e.2 t q.sig)
      let new := if left.isEmpty then p.stack else pend ++ .reconv stay t :: p.stack
      if 64 < stackUsed g - p.stack.length + new.length then trapHere s g p (overflowTrap s p t)
      else
        done (linked sp.1) { q with
          mask := m, owned := p.owned &&& ~~~ lost, tags := tags, spc := BitVec.ofNat 32 pc, stack := new })

/-- `JMPV` (R129). -/
def execJmpv (t : BitVec 2) (v : VReg) (s : State) : Out := vectorJump s t v false
/-- `CALLV` (R129). -/
def execCallv (t : BitVec 2) (v : VReg) (s : State) : Out := vectorJump s t v true

/-! ### RJOIN (R126) -/

/-- The `Crc` of an `RJOIN` word (R365). -/
def rjoinCrc (t : BitVec 2) : Word := crcOf 4 (0x64000000 + t.toNat)

/-- What the steps of R126 over the path's own stack come to. -/
inductive Popped where
  | pending (p : Path)
  | settled (p : Path)
deriving DecidableEq, Repr

/-- Pop entries of tag `t` until a pending side is found or none is left on top (R126). -/
def popTag (t : BitVec 2) (p : Path) : List StackEnt → Popped
  | .pending spc lpc m u sig :: rest =>
    if u = t then .pending { p with mask := m, spc := spc, lpc := lpc, sig := sig, stack := rest }
    else .settled { p with stack := .pending spc lpc m u sig :: rest }
  | .reconv m u :: rest =>
    if u = t then popTag t { p with mask := m } rest else .settled { p with stack := .reconv m u :: rest }
  | [] => .settled { p with stack := [] }

/-- Merge every path that waits at `RJOIN #t` with `p`, into the lowest-numbered entry, which waits (R126). -/
def mergeWaiters (g : Group) (p : Path) (t : BitVec 2) : Group × Path :=
  let others := g.paths.filter (fun q => decide (q.id ≠ p.id) && decide (q.hold = .rjoin t) && q.tags &&& tagBit t ≠ 0)
  let all := p :: others
  let lead := others.foldl (fun b q => if q.id < b.id then q else b) p
  let keepP := { lead with
    mask := all.foldl (fun m q => m ||| (q.mask &&& q.owned)) 0, owned := all.foldl (fun m q => m ||| q.owned) 0,
    tags := all.foldl (fun m q => m ||| q.tags) 0, hungry := all.foldl (fun m q => m ||| q.hungry) 0,
    done := all.foldl (fun m q => m ||| q.done) 0, hold := .rjoin t }
  let g := { g with paths := g.paths.filter (fun q => q.id = lead.id || !(all.any (fun x => x.id = q.id))) }
  (putPath g keepP, keepP)

/-- The conditions under which a rejoin timer runs, with its waiting path: nothing else is bound to the slot and lanes
are still out (R127). -/
def timerRuns (g : Group) (t : Nat) : Bool :=
  let bit := 1#4 <<< t
  (slotAt g t).rjm ≠ 0 && (g.paths.filter (fun q => q.tags &&& bit ≠ 0)).length = 1 &&
    g.recalls.all (fun e => e.tags &&& bit = 0)

/-- A path that waits at `RJOIN #t` continues or goes on waiting (R126, R127, R365). -/
def rejoinOrWait (s : State) (g : Group) (p : Path) (t : BitVec 2) : Group :=
  let x := slotAt g t.toNat
  let othersBound := g.paths.any (fun q => decide (q.id ≠ p.id) && q.tags &&& tagBit t ≠ 0)
  let recallsBound := g.recalls.any (fun e => e.tags &&& tagBit t ≠ 0)
  if othersBound || recallsBound || x.rjm ≠ 0 then
    let timer := if timerRuns g t.toNat then (if x.timer = 0 then s.clock + 1 else x.timer) else 0
    setSlot (putPath g { p with hold := .rjoin t }) t.toNat
      { x with timer := timer, limit := if x.timer = 0 then g.rjto.toNat else x.limit }
  else
    let u := p.mask ||| x.returned
    let xr := p.mask ^^^ (x.returned &&& ~~~ p.mask)
    let sig := if sigLive s g then (linMask u ^^^ linMask xr) + rjoinCrc t else p.sig
    setSlot (putPath g { p with mask := u, owned := p.owned ||| x.returned, tags := p.tags &&& ~~~ tagBit t,
                                spc := p.spc + 4, hold := .free, sig := sig })
      t.toNat { x with returned := 0, rtags := 0, timer := 0 }

/-- A Garnet context returns its lane (R122, R125, R126): written back, moved from `rjm` to the returned lanes, and a
path formed where none is bound to the slot any more (R160). A running rejoin timer restarts from zero, during a pause from the clock at
which it goes on (R127). -/
def returnLane (s : State) (c : Group) (p : Path) (i : Garnet) : State :=
  let s := { s with groups := tabDel s.groups s.cur }
  let s := modGroup s i.parent (fun g =>
    let g := writeBackLane g (landAll c (s.clock + 64)) i
    let x := slotAt g i.tag.toNat
    let g := setSlot g i.tag.toNat { x with
      rjm := x.rjm &&& ~~~ laneBit i.lane, returned := x.returned ||| laneBit i.lane, rtags := x.rtags ||| i.tags,
      rspc := p.spc + 4, rlpc := p.lpc, limit := g.rjto.toNat,
      timer := if x.timer = 0 then 0 else if g.pausedAt = 0 then s.clock + 1 else g.pausedAt + 1 }
    formReturned s g i.tag.toNat)
  tryRetire s i.parent

/-- `RJOIN` (R126, R365). -/
def execRjoin (t : BitVec 2) (s : State) : Out :=
  onPath s (fun g p =>
    match g.garnet with
    | some i =>
      if i.tag = t then (if g.reqs.isEmpty then .next (returnLane s g p i) else .next s)
      else .next (keep s g { p with spc := p.spc + 4, sig := if sigLive s g then rjoinCrc t else p.sig })
    | none =>
      match popTag t p p.stack with
      | .pending q => .next (keep s g { q with hold := .free })
      | .settled q =>
        if q.tags &&& tagBit t = 0 then
          .next (keep s g { q with
            spc := p.spc + 4, hold := .free,
            sig := if sigLive s g then rjoinCrc t else q.sig })
        else if !q.stack.isEmpty then trapHere s g p (mkTrap s p 0 0x17 (t.setWidth 32) 0)
        else
          let m := mergeWaiters (putPath g q) q t
          .next (takeDue (setGroup s s.cur (drainRecalls (formAll s (drainRecalls (rejoinOrWait s m.1 m.2 t))))) s.cur))

/-! ### Recalls and the rejoin timer (R123, R124, R127, R130) -/

/-- Whether a Garnet context is to be recalled: its parent stops or is held at a `SNAP`, or its next instruction is
one that R123 recalls before, or faults. -/
def needsRecall (s : State) (c : Group) (i : Garnet) : Bool :=
  match tabFind s.groups i.parent, c.paths with
  | some g, p :: _ =>
    let lane := !lanesIssued p
    let p := startRun p
    outOf s g || g.handler.isNone &&
      (g.paths.any (fun q => q.hold = .snap) ||
        match (if lane then fetchLane s c p else fetchScalar s c p) with
        | .word w =>
          match decodeFor (kernOf s c) lane w with
          | some i => recallsFirst i
          | none => true
        | .bad _ => true
        | .miss _ => false)
  | _, _ => false

/-- A context that is to be recalled is, once its accesses have been performed (R124). -/
def recallDue (s : State) (c : Nat) : State :=
  match tabFind s.groups c with
  | some x =>
    match x.garnet with
    | some i => if needsRecall s x i && recallFree s x then takeDue (recallCtx s c) i.parent else s
    | none => s
  | none => s
/-- `LANE_RECALL` (R124) -/
def execLaneRecall (c : Nat) (s : State) : Out := .next (recallDue s c)

/-- The contexts that serve the lanes of slot `t` of a group. -/
def contextsOf (s : State) (gid t : Nat) : List (Nat × Group) :=
  s.groups.filter (fun e => match e.2.garnet with
    | some i => i.parent = gid && i.tag.toNat = t
    | none => false)

/-- How many entries recalled contexts take under the sharing rule of R124. -/
def placesNeeded (cs : List (Nat × Group)) : Nat :=
  let places := cs.filterMap (fun e => match e.2.garnet, e.2.paths with
    | some i, p :: _ => some (p.running || !p.queue.isEmpty || decide (p.hold = .ljmp), p.spc, p.lpc, i.tags, p.sig)
    | _, _ => none)
  (places.filter (fun e => e.1)).length + ((places.filter (fun e => !e.1)).eraseDups).length

/-- The path on which the rejoin timer of slot `t` has expired (R127). -/
def timerExpired (s : State) (g : Group) (t : Nat) : Option Path :=
  let x := slotAt g t
  if g.handler.isNone && !outOf s g && g.susp = .run && timerRuns g t && x.timer ≠ 0 && decide (x.limit ≤ s.clock - (x.timer - 1)) then
    g.paths.find? (fun q => decide (q.hold = .rjoin (BitVec.ofNat 2 t)) && !hasDue g q.id)
  else none
/-- The split table has room for every late lane of a slot (R127). -/
def lateRoom (s : State) (gid : Nat) (g : Group) (t : Nat) : Bool :=
  decide (placesNeeded (contextsOf s gid t) ≤ 8 - g.paths.length)
/-- `rejoin_overdue` at the waiting `RJOIN` (R335, R344). -/
def overdueTrap (s : State) (g : Group) (p : Path) (t : Nat) : TrapInfo :=
  mkTrap { s with ir := BitVec.ofNat 96 (0x64000000 + t) } p 0 0x19 (BitVec.ofNat 32 t) (BitVec.ofNat 32 (maskCount (slotAt g t).rjm))
/-- A rejoin timer that has expired takes effect (R127): the late lanes are recalled if the table has room for all of them, once their
accesses have been performed, else `rejoin_overdue` is due on the waiting path. -/
def timerActs (s : State) (gid t : Nat) : State :=
  match tabFind s.groups gid with
  | some g =>
    match timerExpired s g t with
    | some p =>
      let cs := contextsOf s gid t
      if lateRoom s gid g t then (if cs.all (fun e => e.2.reqs.isEmpty) then cs.foldl (fun s e => recallCtx s e.1) s else s)
      else queueTrap s gid g p (overdueTrap s g p t)
    | none => s
  | none => s

end Sys2Proof.Machine
end

