-- ==== Sys2Proof/Machine/Flags.lean ====
section
/-! DEFINITION. The sticky floating flags of a group and the flags that lane instructions raise in it (R137 to R141,
R168, R176, R220). The computations of single flags stand beside the roundings of Num. -/
namespace Sys2Proof.Machine

/-- Sticky bits are only ever set by an instruction (R140). -/
def setSticky (g : Group) (f : Byte) : Group := { g with fpflags := g.fpflags ||| f }
/-- Floating flags of a result of fixed latency, set when the result is written (R182). -/
def dueSticky (g : Group) (at_ : Nat) (f : Byte) : Group :=
  { g with fpDue := g.fpDue ++ (if f = 0 then [] else [(at_, f)]) }
/-- The union of the flags of several lanes or elements (R140). -/
def unionFlags (fs : List Byte) : Byte := fs.foldl (fun a b => a ||| b) 0

/-- `Fit` of R168: bits, and the sticky bit of a clamp. -/
def fitInt (w : Nat) (sgn sat : Bool) (x : Int) : Nat × Byte :=
  if sat then
    let c := intClamp w sgn x
    (c.1, if c.2 then fSat else 0)
  else (intMod w x, 0)

end Sys2Proof.Machine
end

