-- ==== Sys2Proof/Machine/Operands.lean ====
section
/-! DEFINITION. Operands of lane instructions: acting lanes, elements, immediates, effective addresses, and the frame
in which a fixed-latency lane instruction acts (R81, R84, R107 to R109, R167, R173, R370). -/
namespace Sys2Proof.Machine

/-! ### Lanes -/

/-- `Acts(l)` of R167: active, and the guard holds in the clock of the lane's beat. -/
def acts (g : Group) (p : Path) (h : LaneHdr) (t l : Nat) : Bool :=
  (activeMask g p).getLsbD l && (pRead g (t + l / 32) h.pred.toNat l != h.neg)
/-- The lanes for which an instruction acts. -/
def actingLanes (g : Group) (p : Path) (h : LaneHdr) (t : Nat) : List Nat :=
  (List.range 96).filter (fun l => acts g p h t l)

/-- A lane's word of a vector register as its beat reads it. -/
def vWord (g : Group) (t v l : Nat) : Word := (vRead g (t + l / 32) (vKey v l)).1
/-- A lane's poison bit of a vector register. -/
def vBad (g : Group) (t v l : Nat) : Bool := (vRead g (t + l / 32) (vKey v l)).2
/-- Whether one of the registers that an instruction reads is poisoned in a lane (R370). -/
def readsBad (g : Group) (t : Nat) (srcs : List Nat) (l : Nat) : Bool := srcs.any (fun v => vBad g t v l)

/-- Lanes that die: in a Garnet context the context is freed (R370). -/
def killActing (s : State) (gid : Nat) (g : Group) (ls : List Nat) : State :=
  if ls.isEmpty then s else if g.garnet.isSome then killContext s gid else killLanes s gid (maskOf ls)

/-! ### Elements (R167) -/

/-- Element width of an integer type. -/
def elW : IntTy → Nat
  | .s32 | .z32 => 32
  | .s16 | .z16 => 16
  | .s8 | .z8 => 8
  | .s64 | .z64 => 64
/-- Elements of an integer type. -/
def elN : IntTy → Nat
  | .s16 | .z16 => 2
  | .s8 | .z8 => 4
  | _ => 1
/-- The raw bits of element `e`. -/
def elemOf (t : IntTy) (x e : Nat) : Nat := x / 2 ^ (elW t * e) % 2 ^ elW t
/-- The value of element `e` under the type's signedness. -/
def elemVal (t : IntTy) (x e : Nat) : Int := intVal (elW t) t.sgn (elemOf t x e)
/-- An operand assembled from its elements, each taken modulo its width. -/
def byElem (t : IntTy) (f : Nat → Nat) : Nat :=
  (List.range (elN t)).foldl (fun a e => a + f e % 2 ^ elW t * 2 ^ (elW t * e)) 0

/-- The operand that imm17 supplies for an integer type (R84). -/
def immBits (t : IntTy) (i : BitVec 17) : Nat :=
  match t with
  | .s32 => (i.signExtend 32).toNat
  | .z32 | .z64 => i.toNat
  | .s64 => (i.signExtend 64).toNat
  | .s16 | .z16 => byElem t (fun _ => i.toNat)
  | .s8 | .z8 => byElem t (fun _ => i.toNat)
/-- The FP32 operand that imm17 supplies (R84). -/
def immF32 (i : BitVec 17) : Word := i ++ (0 : BitVec 15)
/-- The packed 16-bit float operand that imm17 supplies (R84). -/
def immHalf (i : BitVec 17) : Word := i.extractLsb' 0 16 ++ i.extractLsb' 0 16

/-- A register operand of a type: a word, or a pair for the 64-bit types (R6, R167). -/
def vOperand (g : Group) (t l : Nat) (ty : IntTy) (v : VReg) : Nat :=
  (vWord g t v.toNat l).toNat + (if ty.wide then 2 ^ 32 * (vWord g t (v.toNat + 1) l).toNat else 0)
/-- The `b` operand of an integer instruction. -/
def bOperand (g : Group) (t l : Nat) (ty : IntTy) : VSrc → Nat
  | .reg v => vOperand g t l ty v
  | .imm i => immBits ty i
/-- The `b` operand of an FP32 instruction. -/
def fOperand (g : Group) (t l : Nat) : VSrc → Word
  | .reg v => vWord g t v.toNat l
  | .imm i => immF32 i
/-- The `b` operand of a packed 16-bit float instruction. -/
def hOperand (g : Group) (t l : Nat) : VSrc → Word
  | .reg v => vWord g t v.toNat l
  | .imm i => immHalf i

/-! ### Effective addresses (R173) -/

/-- The 64-bit base of a lane. -/
def baseAddr (g : Group) (p : Path) (t l : Nat) : MBase → Dword
  | .scal r => sPair g p r
  | .vec v => vWord g t (v.toNat + 1) l ++ vWord g t v.toNat l
/-- The scaled index of a lane. -/
def indexAddr (g : Group) (t l : Nat) : MIdx → Dword
  | .none => 0
  | .lane sc => BitVec.ofNat 64 (l * 2 ^ sc.toNat)
  | .reg v sc => (vWord g t v.toNat l).signExtend 64 <<< sc.toNat
/-- `EffAddr` of a lane (R173). -/
def effAddr (g : Group) (p : Path) (t l : Nat) (b : MBase) (i : MIdx) (off : Dword) : Dword :=
  baseAddr g p t l b + indexAddr g t l i + off

/-! ### The frame of fixed-latency instructions -/

/-- What one lane of a fixed-latency instruction writes, and the flags it raises. -/
structure LaneOut where
  dst : List (PendDst × Bool)
  fl : Byte
deriving DecidableEq, Repr

/-- A destination of a type in a lane: a word or a pair. -/
def putVec (v : VReg) (l : Nat) (ty : IntTy) (x : Nat) : List (PendDst × Bool) :=
  (.vec (vKey v.toNat l) (BitVec.ofNat 32 x), false) ::
    (if ty.wide then [(.vec (vKey (v.toNat + 1) l) (BitVec.ofNat 32 (x / 2 ^ 32)), false)] else [])

/-- Queue one lane's results with their visibility clock, at which its flags are set (R108, R182). -/
def addOut (cls t l : Nat) (g : Group) (o : LaneOut) : Group :=
  dueSticky (o.dst.foldl (fun g d => addPend g { at_ := t + l / 32 + latOf cls, dst := d.1, poison := d.2 }) g)
    (t + l / 32 + latOf cls) o.fl

/-- The frame of a fixed-latency lane instruction (R167, R370): lanes that would read a poisoned word die, the others
act; results are queued by beat, flags are set, and the lane stream goes on. `dsts` are the registers written. -/
def frameLane (s : State) (h : LaneHdr) (cls : Nat) (bad : Group → Nat → Bool) (dsts : List Nat)
    (f : Group → Path → List Nat → Nat → LaneOut) : Out :=
  onPath s (fun g p =>
    let t := s.clock
    let all := actingLanes g p h t
    let die := all.filter (bad g)
    let live := all.filter (fun l => !bad g l)
    let g1 := if live.isEmpty then g else dsts.foldl (fun g v => noteWrite g v 1) g
    let g1 := live.foldl (fun a l => addOut cls t l a (f g p live l)) g1
    .next (killActing (keep s g1 (advLane s g p h t)) s.cur g die))
/-- The frame for an instruction that reads the registers `srcs` in each acting lane. -/
def fixedLane (s : State) (h : LaneHdr) (cls : Nat) (srcs dsts : List Nat)
    (f : Group → Path → List Nat → Nat → LaneOut) : Out :=
  frameLane s h cls (fun g l => readsBad g s.clock srcs l) dsts f

end Sys2Proof.Machine
end

