-- ==== Sys2Proof/Machine/ScalarArith.lean ====
section
/-! DEFINITION. Scalar arithmetic, compare, immediate and mask instructions (R149, R150, R152 to R154). -/
namespace Sys2Proof.Machine

/-- An instruction of the scalar stream that writes one register and goes on (R149). -/
def putScalar (s : State) (d : SReg) (f : Group → Path → Word) : Out :=
  onPath s (fun g p =>
    let r := sWrite (g, advScalar s g p) d (f g p)
    .next (keep s r.1 r.2))
/-- An instruction that writes a register pair (R6). -/
def putPair (s : State) (d : SReg) (f : Group → Path → Dword) : Out :=
  onPath s (fun g p =>
    let r := sWritePair (g, advScalar s g p) d (f g p)
    .next (keep s r.1 r.2))
/-- An instruction that writes a triple (R74). -/
def putTriple (s : State) (d : SReg) (f : Group → Path → Mask) : Out :=
  onPath s (fun g p =>
    let r := sWriteTriple (g, advScalar s g p) d (f g p)
    .next (keep s r.1 r.2))

/-- One or zero (R152). -/
def boolWord (b : Bool) : Word := if b then 1 else 0
/-- A shift amount: bits [4:0] of the operand (R152). -/
def shiftAmt (b : Word) : Nat := b.toNat % 32
/-- High word of the signed product (R152). -/
def mulHigh (a b : Word) : Word := BitVec.ofInt 32 (a.toInt * b.toInt / 2 ^ 32)
/-- High word of the unsigned product (R152). -/
def mulHighU (a b : Word) : Word := BitVec.ofNat 32 (a.toNat * b.toNat / 2 ^ 32)
/-- `DIVS` (R152). -/
def divSigned (a b : Word) : Word :=
  if b = 0 then 0xFFFFFFFF
  else if a.toInt = -2 ^ 31 ∧ b.toInt = -1 then 0x80000000
  else
    let q : Int := (a.toInt.natAbs / b.toInt.natAbs : Nat)
    BitVec.ofInt 32 (if a.toInt * b.toInt < 0 then -q else q)
/-- Signed comparison (R76). -/
def condHolds (cc : Cond) (a b : Int) : Bool :=
  match cc with
  | .eq => decide (a = b) | .ne => decide (a ≠ b) | .lt => decide (a < b) | .le => decide (a ≤ b)
  | .gt => decide (b < a) | .ge => decide (b ≤ a)
/-- Unsigned comparison (R76). -/
def ucondHolds (cc : UCond) (a b : Nat) : Bool :=
  match cc with
  | .lt => decide (a < b) | .le => decide (a ≤ b) | .gt => decide (b < a) | .ge => decide (b ≤ a)

/-- An R-form instruction over two registers (R152). -/
def scalar2 (s : State) (d a b : SReg) (f : Word → Word → Word) : Out :=
  putScalar s d (fun g p => f (sRead g p a) (sRead g p b))
/-- An I-form instruction over a register and an immediate (R152). -/
def scalarImm (s : State) (d a : SReg) (i : Word) (f : Word → Word → Word) : Out :=
  putScalar s d (fun g p => f (sRead g p a) i)

/-- `ADD` (R152). -/
def execAdd (d a b : SReg) (s : State) : Out := scalar2 s d a b (fun a b => a + b)
/-- `SUB` (R152). -/
def execSub (d a b : SReg) (s : State) : Out := scalar2 s d a b (fun a b => a - b)
/-- `MUL` (R152). -/
def execMul (d a b : SReg) (s : State) : Out := scalar2 s d a b (fun a b => a * b)
/-- `MULH` (R152). -/
def execMulh (d a b : SReg) (s : State) : Out := scalar2 s d a b (fun a b => mulHigh a b)
/-- `MULH.z32` (R152). -/
def execMulhZ32 (d a b : SReg) (s : State) : Out := scalar2 s d a b (fun a b => mulHighU a b)
/-- `DIVS` (R152). -/
def execDivs (d a b : SReg) (s : State) : Out := scalar2 s d a b (fun a b => divSigned a b)
/-- `AND` (R152). -/
def execAnd (d a b : SReg) (s : State) : Out := scalar2 s d a b (fun a b => a &&& b)
/-- `OR` (R152). -/
def execOr (d a b : SReg) (s : State) : Out := scalar2 s d a b (fun a b => a ||| b)
/-- `XOR` (R152). -/
def execXor (d a b : SReg) (s : State) : Out := scalar2 s d a b (fun a b => a ^^^ b)
/-- `ANDN` (R152). -/
def execAndn (d a b : SReg) (s : State) : Out := scalar2 s d a b (fun a b => a &&& ~~~ b)
/-- `SHL` (R152). -/
def execShl (d a b : SReg) (s : State) : Out := scalar2 s d a b (fun a b => a <<< shiftAmt b)
/-- `SHR` (R152). -/
def execShr (d a b : SReg) (s : State) : Out := scalar2 s d a b (fun a b => a >>> shiftAmt b)
/-- `SRA` (R152). -/
def execSra (d a b : SReg) (s : State) : Out := scalar2 s d a b (fun a b => a.sshiftRight (shiftAmt b))
/-- `MIN` (R152). -/
def execMin (d a b : SReg) (s : State) : Out := scalar2 s d a b (fun a b => if a.toInt ≤ b.toInt then a else b)
/-- `MAX` (R152). -/
def execMax (d a b : SReg) (s : State) : Out := scalar2 s d a b (fun a b => if a.toInt ≤ b.toInt then b else a)
/-- `MIN.z32` (R152). -/
def execMinZ32 (d a b : SReg) (s : State) : Out := scalar2 s d a b (fun a b => if a.toNat ≤ b.toNat then a else b)
/-- `MAX.z32` (R152). -/
def execMaxZ32 (d a b : SReg) (s : State) : Out := scalar2 s d a b (fun a b => if a.toNat ≤ b.toNat then b else a)
/-- `SEL`: the old value of the destination selects (R152). -/
def execSel (d a b : SReg) (s : State) : Out :=
  putScalar s d (fun g p => if sRead g p d = 0 then sRead g p b else sRead g p a)
/-- `CMP.cc`, signed (R152). -/
def execCmp (cc : Cond) (d a b : SReg) (s : State) : Out :=
  scalar2 s d a b (fun a b => boolWord (condHolds cc a.toInt b.toInt))
/-- `CMP.cc.z32`, unsigned (R152). -/
def execCmpZ32 (cc : UCond) (d a b : SReg) (s : State) : Out :=
  scalar2 s d a b (fun a b => boolWord (ucondHolds cc a.toNat b.toNat))
/-- `ADD.z64` (R152). -/
def execAddZ64 (d a b : SReg) (s : State) : Out := putPair s d (fun g p => sPair g p a + sPair g p b)
/-- `SUB.z64` (R152). -/
def execSubZ64 (d a b : SReg) (s : State) : Out := putPair s d (fun g p => sPair g p a - sPair g p b)

/-- `ADDI`: the immediate is sign-extended (R152). -/
def execAddi (d a : SReg) (i : BitVec 14) (s : State) : Out := scalarImm s d a (i.signExtend 32) (fun a b => a + b)
/-- `ANDI` (R152). -/
def execAndi (d a : SReg) (i : BitVec 14) (s : State) : Out := scalarImm s d a (i.setWidth 32) (fun a b => a &&& b)
/-- `ORI` (R152). -/
def execOri (d a : SReg) (i : BitVec 14) (s : State) : Out := scalarImm s d a (i.setWidth 32) (fun a b => a ||| b)
/-- `XORI` (R152). -/
def execXori (d a : SReg) (i : BitVec 14) (s : State) : Out := scalarImm s d a (i.setWidth 32) (fun a b => a ^^^ b)
/-- `SHLI` (R152). -/
def execShli (d a : SReg) (n : BitVec 5) (s : State) : Out := scalarImm s d a (n.setWidth 32) (fun a b => a <<< shiftAmt b)
/-- `SHRI` (R152). -/
def execShri (d a : SReg) (n : BitVec 5) (s : State) : Out := scalarImm s d a (n.setWidth 32) (fun a b => a >>> shiftAmt b)
/-- `SRAI` (R152). -/
def execSrai (d a : SReg) (n : BitVec 5) (s : State) : Out := scalarImm s d a (n.setWidth 32) (fun a b => a.sshiftRight (shiftAmt b))
/-- `MOVI` (R153). -/
def execMovi (d : SReg) (i : BitVec 20) (s : State) : Out := putScalar s d (fun _ _ => i.signExtend 32)
/-- `MOVHI` keeps the low 20 bits (R153). -/
def execMovhi (d : SReg) (i : BitVec 12) (s : State) : Out :=
  putScalar s d (fun g p => i ++ (sRead g p d).extractLsb' 0 20)

/-! ### Mask operations (R154) -/

/-- `MAND` (R154). -/
def execMand (d a b : SReg) (s : State) : Out := putTriple s d (fun g p => sTriple g p a &&& sTriple g p b)
/-- `MOR` (R154). -/
def execMor (d a b : SReg) (s : State) : Out := putTriple s d (fun g p => sTriple g p a ||| sTriple g p b)
/-- `MXOR` (R154). -/
def execMxor (d a b : SReg) (s : State) : Out := putTriple s d (fun g p => sTriple g p a ^^^ sTriple g p b)
/-- `MNOT` (R154). -/
def execMnot (d a : SReg) (s : State) : Out := putTriple s d (fun g p => ~~~ sTriple g p a)
/-- `MPOP` (R154). -/
def execMpop (d a : SReg) (s : State) : Out :=
  putScalar s d (fun g p => BitVec.ofNat 32 (maskCount (sTriple g p a)))
/-- `MFIRST` (R154). -/
def execMfirst (d a : SReg) (s : State) : Out :=
  putScalar s d (fun g p =>
    match maskLanes (sTriple g p a) with
    | [] => 0xFFFFFFFF
    | l :: _ => BitVec.ofNat 32 l)

end Sys2Proof.Machine
end

