-- ==== Sys2Proof/Machine/Special.lean ====
section
/-! DEFINITION. Special registers: `SRD` and `SWR` (R12, R60, R95, R141, R164). -/
namespace Sys2Proof.Machine

/-- `coreid` (R12). -/
def coreIdWord (c : Nat) : Word :=
  BitVec.ofNat 32 ((c / 16) * 2 ^ 20 + (c % 16) * 2 ^ 16 + coreX c * 2 ^ 8 + coreY c)

/-- `gpos` (R60): the rectangle position follows from the team index. -/
def gposWord (k : Kernel) (team group part : Nat) : Word :=
  let pos := team / k.teamsPerCore
  BitVec.ofNat 32 (team * 2 ^ 24 + group * 2 ^ 20 + pos % k.width * 2 ^ 16 + pos / k.width * 2 ^ 12 +
    (k.width - 1) * 2 ^ 8 + (k.height - 1) * 2 ^ 4 + part)

/-- A trap register outside a handler reads zero (R95). -/
def trapReg (g : Group) (v : Word) : Word := if g.handler.isSome then v else 0

/-- The value that `SRD` gives (R95, R164); a Garnet context reads `fpflags` as it stood at the ejection. DESIGN CHOICE: its `sigval` is
the context's own signature (R364), where R164 has registers as they stood at the ejection (log 112). -/
def specialValue (s : State) (g : Group) (p : Path) : SpecialReg → Word
  | .encrev => 2
  | .coreid => coreIdWord g.core
  | .gpos => gposWord (kernOf s g) (((teamOf s g).map (fun t => t.idx)).getD 0) g.idx g.part
  | .clusterid => BitVec.ofNat 32 (((clusterOf s g).map (fun c => c.index)).getD 0)
  | .ejth => g.ejth
  | .rjto => g.rjto
  | .deadlanes => BitVec.ofNat 32 (maskCount g.dead)
  | .deadm0 => maskPart g.dead 0
  | .deadm1 => maskPart g.dead 1
  | .deadm2 => maskPart g.dead 2
  | .role => g.role
  | .gang => g.gang
  | .sigval => if sigOn (kernOf s g) then p.sig else 0
  | .fpflags => match g.garnet with
    | some i => i.fp0.setWidth 32
    | none => g.fpflags.setWidth 32
  | .fpmode => if flushOf (kernOf s g) then 1 else 0
  | .tcause => trapReg g g.tcause
  | .tval0 => trapReg g g.tval0
  | .tval1 => trapReg g g.tval1
  | .tspc => trapReg g g.tspc
  | .tlpc => trapReg g g.tlpc

/-- `SRD` of every register but the cycle counter (R164). -/
def execSrd (d : SReg) (r : SpecialReg) (s : State) : Out := putScalar s d (fun g p => specialValue s g p r)
/-- `SRD` of `cyclo` latches the high half for the path (R164). -/
def execSrdCyclo (d : SReg) (s : State) : Out :=
  onPath s (fun g p =>
    let p := { advScalar s g p with cychi := some (BitVec.ofNat 32 (s.clock / 2 ^ 32)) }
    let r := sWrite (g, p) d (BitVec.ofNat 32 s.clock)
    .next (keep s r.1 r.2))
/-- `SRD` of `cychi` consumes the latch, or reads the current value (R164). -/
def execSrdCychi (d : SReg) (s : State) : Out :=
  onPath s (fun g p =>
    let v := p.cychi.getD (BitVec.ofNat 32 (s.clock / 2 ^ 32))
    let r := sWrite (g, { advScalar s g p with cychi := none }) d v
    .next (keep s r.1 r.2))

/-- `SWR` of a register of the group. -/
def putSpecial (s : State) (a : SReg) (f : Group → Word → Group) : Out :=
  onPath s (fun g p => .next (keep s (f g (sRead g p a)) (advScalar s g p)))
/-- `SWR ejth`: a value outside 1 to 8 leaves it unchanged (R95). -/
def execSwrEjth (a : SReg) (s : State) : Out :=
  putSpecial s a (fun g v => if 1 ≤ v.toNat ∧ v.toNat ≤ 8 then { g with ejth := v } else g)
/-- `SWR rjto`: a write of 0 selects 65,536 (R95). -/
def execSwrRjto (a : SReg) (s : State) : Out :=
  putSpecial s a (fun g v => { g with rjto := if v = 0 then 65536 else v })
/-- `SWR fpflags` (R140, R141). -/
def execSwrFpflags (a : SReg) (s : State) : Out :=
  putSpecial s a (fun g v => { g with fpflags := v.extractLsb' 0 8 })
/-- A trap register replaced; bits [31:12] of `tcause` are reserved, so what is written there is ignored (R7, R334). -/
def putTrapReg (g : Group) (r : TrapReg) (v : Word) : Group :=
  match r with
  | .tcause => { g with tcause := v &&& 0xFFF }
  | .tval0 => { g with tval0 := v }
  | .tval1 => { g with tval1 := v }
  | .tspc => { g with tspc := v }
  | .tlpc => { g with tlpc := v }
/-- `SWR` of a trap register: ignored outside a handler (R95). -/
def execSwrTrapState (r : TrapReg) (a : SReg) (s : State) : Out :=
  putSpecial s a (fun g v => if g.handler.isSome then putTrapReg g r v else g)

end Sys2Proof.Machine
end

