-- ==== Sys2Proof/Machine/ScalarMem.lean ====
section
/-! DEFINITION. Scalar loads, stores and argument reads (R161, R162, R215, R219, R371). -/
namespace Sys2Proof.Machine

/-- The checks of an access of a scalar word (R113, R161, R215): alignment, canonical form, translation; then `k` with
the physical address. -/
def scalarAccess (s : State) (g : Group) (p : Path) (va n : Nat) (a : Acc) (k : Nat → Out) : Out :=
  if va % n ≠ 0 then trapHere s g p (mkAddrTrap s p 0 0x03 va 0xFFFF)
  else if !canonical va then trapHere s g p (mkAddrTrap s p 0 0x46 va 0xFFFF)
  else match translate s g va a with
    | .bad c => trapHere s g p (mkAddrTrap s p 0 c va 0xFFFF)
    | .miss => .next (needWalk s s.cur (putPath g p) va)
    | .ok pa => k pa

/-- A request of the scalar stream: no counter, no flag (R161). -/
def scalarReq (s : State) (p : Path) (va : Nat) (k : ReqKind) : Req :=
  { id := s.fresh, path := none, flag := 15, kind := k, fp := 0, pc := p.spc, by_ := p.id, stalled := false, stallAt := 0,
    addr := BitVec.ofNat 64 va, late := false, at_ := s.clock }
/-- Issue a request of the scalar stream for an access at a virtual address, and go on. -/
def scalarIssue (s : State) (g : Group) (p : Path) (va : Nat) (k : ReqKind) : Out :=
  .next (keep { s with fresh := s.fresh + 1 } (addReq { g with walked := none } (scalarReq s p va k)) (advScalar s g p))

/-- The address of a scalar access (R161). -/
def scalarAddr (g : Group) (p : Path) (a : SReg) (off : BitVec 14) : Nat := (sPair g p a + off.signExtend 64).toNat

/-- A scalar load of one or two words (R161). -/
def scalarLoad (s : State) (d a : SReg) (off : BitVec 14) (dbl : Bool) : Out :=
  onPath s (fun g p =>
    scalarAccess s g p (scalarAddr g p a off) (if dbl then 8 else 4) .read (fun pa =>
      scalarIssue s g p (scalarAddr g p a off) (.sload d dbl (.phys pa))))
/-- A scalar store; the data is read at issue (R161). -/
def scalarStore (s : State) (d a : SReg) (off : BitVec 14) (dbl : Bool) : Out :=
  onPath s (fun g p =>
    scalarAccess s g p (scalarAddr g p a off) (if dbl then 8 else 4) .write (fun pa =>
      scalarIssue s g p (scalarAddr g p a off) (.sstore dbl (.phys pa) (if dbl then (sPair g p d).toNat else (sRead g p d).toNat))))
/-- A read of the argument block (R162): the block's size is checked first. -/
def argLoad (s : State) (d : SReg) (off : BitVec 14) (dbl : Bool) : Out :=
  onPath s (fun g p =>
    let n := if dbl then 8 else 4
    if (kernOf s g).args < off.toNat + n then trapHere s g p (mkTrap s p 0 0x06 (off.setWidth 32) 0)
    else
      let base := ((launchOf s g).map (fun l => l.argAddr)).getD 0
      scalarAccess s g p ((base + off.toNat) % 2 ^ 64) n .read (fun pa =>
        scalarIssue s g p ((base + off.toNat) % 2 ^ 64) (.sload d dbl (.phys pa))))

/-- `SLD` -/
def execSld (d a : SReg) (off : BitVec 14) (s : State) : Out := scalarLoad s d a off false
/-- `SLD.z64` -/
def execSldZ64 (d a : SReg) (off : BitVec 14) (s : State) : Out := scalarLoad s d a off true
/-- `SST` -/
def execSst (d a : SReg) (off : BitVec 14) (s : State) : Out := scalarStore s d a off false
/-- `SST.z64` -/
def execSstZ64 (d a : SReg) (off : BitVec 14) (s : State) : Out := scalarStore s d a off true
/-- `SARG` -/
def execSarg (d : SReg) (off : BitVec 14) (s : State) : Out := argLoad s d off false
/-- `SARG.z64` -/
def execSargZ64 (d : SReg) (off : BitVec 14) (s : State) : Out := argLoad s d off true

/-- Mark scalar registers as poisoned (R371). -/
def poisonScalar (g : Group) (rs : List SReg) : Group :=
  { g with spoison := (rs.filter (fun r => decide (r.toNat < 61))).foldl (fun l r => setIns l r.toNat) g.spoison }

/-- The data of a scalar load returns: the register or pair of the path that issued it (R149, R161, R371). -/
def returnScalar (g : Group) (r : Req) (d : SReg) (dbl : Bool) (x : Nat) (poison : Bool) : Group :=
  let p := (findPath g r.by_).getD (pathNew 8 0 0 0)
  let gp := if dbl then sWritePair (g, p) d (BitVec.ofNat 64 x) else sWrite (g, p) d (BitVec.ofNat 32 x)
  let g := putPath gp.1 gp.2
  if poison then poisonScalar g (if dbl then [d, d + 1] else [d]) else g

/-- Perform an outstanding scalar load or store and complete it, unless an earlier access of the group to a common unit
is still to be performed (R218, R300). -/
def returnScalarReq (s : State) (gid : Nat) (g : Group) (r : Req) : State :=
  match r.kind with
  | .sload d dbl l =>
    let n := if dbl then 8 else 4
    if ejectHeld s g || heldUnit g r.id l n || drainHeld s g r.id l r.addr.toNat n then s
    else
      let x := loadLoc s g (spotOf (kernOf s g) g.garnet.isSome .ld .plain .grp) l n
      complete (modGroup x.1 gid (fun g => returnScalar g r d dbl x.2.1 x.2.2)) gid r.id
  | .sstore dbl l v =>
    let n := if dbl then 8 else 4
    if ejectHeld s g || heldUnit g r.id l n || drainHeld s g r.id l r.addr.toNat n then s else complete (storeLoc s g .col l n v) gid r.id
  | _ => s

end Sys2Proof.Machine
end

