-- ==== Sys2Proof/Machine/LaneMem.lean ====
section
/-! DEFINITION. Lane loads, stores, atomics, reductions, fences and cache control (R202, R213 to R228). -/
namespace Sys2Proof.Machine

/-! ### Checks (R215) -/

/-- The outcome of the checks over all lanes: the place of each lane, a trap, or a missing translation. -/
inductive Checked where
  | ok (ls : List (Nat × Loc))
  | trap (t : TrapInfo)
  | miss (va : Nat)

/-- A trap at a lane of a lane word. -/
def laneTrap (s : State) (p : Path) (code off l : Nat) : TrapInfo :=
  { mkTrap s p 1 code (BitVec.ofNat 32 off) (BitVec.ofNat 32 l) with lane := l }

/-- The range check of a scratchpad space (R202). -/
def checkRange (s : State) (g : Group) (p : Path) (spa : Space) (ls : List (Nat × Nat)) : Option TrapInfo :=
  let k := kernOf s g
  match spa with
  | .glob => none
  | .sp => (ls.find? (fun e => decide (k.spad ≤ e.2))).map (fun e => laneTrap s p 0x04 e.2 e.1)
  | .cw => (ls.find? (fun e => decide (windowSize k ≤ e.2))).map (fun e => laneTrap s p 0x05 e.2 e.1)

/-- The places of scratchpad offsets that have passed their range check. -/
def spadPlaces (s : State) (g : Group) (spa : Space) (ls : List (Nat × Nat)) : List (Nat × Loc) :=
  match teamOf s g with
  | none => []
  | some tm =>
    let k := kernOf s g
    ls.filterMap (fun e =>
      (if spa = .sp then ownPlace k tm e.2 else winPlace s k tm e.2).map (fun q => (e.1, .spad q.1 q.2)))

/-- Translate the lanes in order: the lowest lane that misses or faults decides. -/
def transLanes (s : State) (g : Group) (p : Path) (a : Acc) : List (Nat × Nat) → Checked
  | [] => .ok []
  | (l, va) :: rest =>
    match translate s g va a with
    | .miss => .miss va
    | .bad c => .trap (mkAddrTrap s p 1 c va l)
    | .ok pa =>
      match transLanes s g p a rest with
      | .ok ls => .ok ((l, .phys pa) :: ls)
      | r => r

/-- Every check of R215 over the acting lanes, in its order. -/
def checkLanes (s : State) (g : Group) (p : Path) (spa : Space) (align : Nat) (a : Acc) (ls : List (Nat × Nat)) :
    Checked :=
  match checkRange s g p spa ls with
  | some t => .trap t
  | none =>
    match ls.find? (fun e => e.2 % align ≠ 0) with
    | some e => .trap (mkAddrTrap s p 1 0x03 e.2 e.1)
    | none =>
      if spa ≠ .glob then .ok (spadPlaces s g spa ls)
      else match ls.find? (fun e => !canonical e.2) with
        | some e => .trap (mkAddrTrap s p 1 0x46 e.2 e.1)
        | none => transLanes s g p a ls

/-! ### Requests -/

/-- Bytes of an access (R214). -/
def accBytes (t : AtomTy) (w : Atomicity) : Nat :=
  match w, t with
  | .w16, _ => 16
  | _, .int ty => elW ty / 8
  | _, .f32 => 4
/-- The units of an access: byte offset, bytes, register offset (R204, R214). -/
def unitsOf (n : Nat) (w : Atomicity) : List (Nat × Nat × Nat) :=
  if n = 8 ∧ w = .four then [(0, 4, 0), (4, 4, 1)] else [(0, n, 0)]
def locAdd (l : Loc) (n : Nat) : Loc :=
  match l with
  | .phys a => .phys (a + n)
  | .spad c o => .spad c (o + n)
/-- `k` registers of a lane as one little-endian number. -/
def laneData (g : Group) (t v k l : Nat) : Nat :=
  (List.range k).foldr (fun i a => (vWord g t (v + i) l).toNat + 2 ^ 32 * a) 0

/-- The counter of a memory instruction (R111). -/
def memCounter (k : MemKind) (spa : Space) : KPath :=
  if spa = .glob then (match k with
    | .ld => .l1
    | .st | .red => .st
    | .atom => .col)
  else .spad

/-- A request of the lane stream. -/
def laneReq (s : State) (p : Path) (h : LaneHdr) (path : Option KPath) (k : ReqKind) : Req :=
  { id := s.fresh, path := path, flag := h.setf, kind := k, fp := 0, pc := p.lpc, by_ := p.id, stalled := false,
    stallAt := 0, addr := 0, late := false, at_ := s.clock }
/-- Issue a request of the lane stream for an access at a virtual address, complete at once where `now` says so, and go
on; `die` are lanes that met a poisoned word. -/
def laneIssueAt (s : State) (g : Group) (p : Path) (h : LaneHdr) (path : Option KPath) (k : ReqKind) (now : Bool)
    (die : List Nat) (va : Nat) : Out :=
  let g1 := addReq { g with walked := none } { laneReq s p h path k with addr := BitVec.ofNat 64 va }
  let g1 := if now then finishReq g1 s.fresh else g1
  .next (killActing (keep { s with fresh := s.fresh + 1 } g1 (advLane s g p h s.clock)) s.cur g die)
/-- Issue a request that names no virtual address. -/
def laneIssue (s : State) (g : Group) (p : Path) (h : LaneHdr) (path : Option KPath) (k : ReqKind) (now : Bool)
    (die : List Nat) : Out := laneIssueAt s g p h path k now die 0

/-- A load, store, atomic or reduction (R214 to R220). `dst` is the register written, `data` the first data register
with the number of registers, `cas` whether a new value follows the data. -/
def memLane (s : State) (h : LaneHdr) (k : MemKind) (op : AtomOp) (t : AtomTy) (w : Atomicity) (spa : Space) (ord : Ord4)
    (sc : Scope) (b : MBase) (i : MIdx) (off : Dword) (dst : VReg) (data : Option VReg) : Out :=
  onPath s (fun g p =>
    let c := s.clock
    let n := accBytes t w
    let span := t.span w
    let all := actingLanes g p h c
    let badA := readsBad g c (baseV b ++ idxV i)
    let addrs := (all.filter (fun l => !badA l)).map (fun l => (l, (effAddr g p c l b i off).toNat))
    match checkLanes s g p spa n (if k = .ld then .read else .write) addrs with
    | .trap x => trapHere s g p x
    | .miss va => .next (needWalk s s.cur (putPath g p) va)
    | .ok locs =>
      let regs := match data with
        | some v => vSpan v (if op = .cas then 2 * span else span)
        | none => []
      let badD := readsBad g c regs
      let live := locs.filter (fun e => !badD e.1)
      let die := all.filter (fun l => badA l || badD l)
      let vaOf := fun l => if spa = .glob then ((addrs.find? (fun a => a.1 = l)).map (fun a => a.2)).getD 0 else 0
      let accs := live.flatMap (fun e =>
        let d := match data with
          | some v => laneData g c v.toNat span e.1
          | none => 0
        let x := match data with
          | some v => if op = .cas then laneData g c (v.toNat + span) span e.1 else 0
          | none => 0
        (unitsOf n w).map (fun u =>
          { lane := e.1, reg := u.2.2, n := u.2.1, loc := locAdd e.2 u.1, va := vaOf e.1, data := d / 256 ^ u.1 % 256 ^ u.2.1,
            new := x / 256 ^ u.1 % 256 ^ u.2.1 }))
      laneIssue s g p h (some (memCounter k spa)) (.mem k op t w ord sc dst accs) accs.isEmpty die)

/-- `LD` (R216) -/
def execLd (h : LaneHdr) (t : IntTy) (spa : Space) (acq : Bool) (sc : Scope) (w : Atomicity) (b : MBase) (i : MIdx)
    (off : BitVec 12) (vd : VReg) (s : State) : Out :=
  memLane s h .ld .add (.int t) w spa (if acq then .acq else .plain) sc b i (off.signExtend 64) vd none
/-- `ST` (R217) -/
def execSt (h : LaneHdr) (t : IntTy) (spa : Space) (rel : Bool) (sc : Scope) (w : Atomicity) (b : MBase) (i : MIdx)
    (off : BitVec 12) (vc : VReg) (s : State) : Out :=
  memLane s h .st .add (.int t) w spa (if rel then .rel else .plain) sc b i (off.signExtend 64) 0 (some vc)
/-- `ATOM` (R220) -/
def execAtom (h : LaneHdr) (op : AtomOp) (t : AtomTy) (spa : Space) (ord : Ord4) (sc : Scope) (w : Atomicity) (b : MBase)
    (i : MIdx) (off : BitVec 8) (vd vc : VReg) (s : State) : Out :=
  memLane s h .atom op t w spa ord sc b i (off.signExtend 64) vd (some vc)
/-- `RED` (R220) -/
def execRed (h : LaneHdr) (op : AtomOp) (t : AtomTy) (spa : Space) (rel : Bool) (sc : Scope) (w : Atomicity) (b : MBase)
    (i : MIdx) (off : BitVec 8) (vc : VReg) (s : State) : Out :=
  memLane s h .red op t w spa (if rel then .rel else .plain) sc b i (off.signExtend 64) 0 (some vc)

/-- A memory request's remaining units are performed and, where nothing is left, it completes, an acquire after its
invalidate (R216, R217, R222, R228). -/
def returnMem (s : State) (gid : Nat) (r : Req) : State :=
  match r.kind with
  | .mem _ _ _ _ ord sc _ accs =>
    let s := performRest s gid r.id accs.length
    match (tabFind s.groups gid).bind (fun g => (findReq g r.id).map (fun q => (g, q))) with
    | some (g, q) =>
      if unperformed q then s
      else complete (if ord = .acq || ord = .ar then invalScope s g sc else s) gid r.id
    | none => s
  | _ => s

/-! ### Fences and cache control (R223 to R225) -/

/-- `FENCE` (R223) -/
def execFence (h : LaneHdr) (sc : Scope) (s : State) : Out :=
  onPath s (fun g p => laneIssue s g p h none (.fence sc) false [])
/-- `CLN` (R224) -/
def execCln (h : LaneHdr) (sc : Scope) (s : State) : Out :=
  onPath s (fun g p => laneIssue s g p h (some .col) (.cln sc) false [])
/-- `INV` performs its invalidate when it issues (R224). -/
def execInv (h : LaneHdr) (sc : Scope) (s : State) : Out :=
  onPath s (fun g p => laneIssue (invalScope s g sc) g p h (some .col) (.inv sc) false [])
/-- A fence or clean goes ahead once every earlier access of the group has been performed; a clean of a scope with nothing to clean
completes at once (R223, R224). -/
def returnFence (s : State) (gid : Nat) (g : Group) (r : Req) : State :=
  match r.kind with
  | .fence sc =>
    if performedBefore g r.id && !ejectHeld s g then
      let s := cleanScope s g sc
      if snoopHeld s .ar sc then s else complete (invalScope s g sc) gid r.id
    else s
  | .cln sc =>
    if meeting (kernOf s g) sc ≠ .home ∨ performedBefore g r.id then complete (cleanScope s g sc) gid r.id else s
  | .inv _ => complete s gid r.id
  | _ => s

/-- The lines that acting lanes of a cache instruction name, without repeats. -/
def linesOf (ls : List (Nat × Loc)) : List Nat :=
  ls.foldl (fun a e => match e.2 with
    | .phys pa => setIns a (pa / 128)
    | .spad _ _ => a) []

/-- The line that `PREF` takes for an address: through the core TLB and the second level, then by a walk; none where it faults (R225). -/
def prefLine (s : State) (g : Group) (va : Nat) : Option Nat :=
  match translate s g va .read with
  | .ok pa => some (pa / 128)
  | .bad _ => none
  | .miss =>
    match translateNow s (stackNo g.core) (pasidOf s g) va .read with
    | .ok pa => some (pa / 128)
    | _ => none
/-- `PREF`: lines that do not translate are dropped (R225). -/
def execPref (h : LaneHdr) (b : MBase) (i : MIdx) (off : BitVec 12) (s : State) : Out :=
  onPath s (fun g p =>
    let all := actingLanes g p h s.clock
    let bad := readsBad g s.clock (baseV b ++ idxV i)
    let lines := (all.filter (fun l => !bad l)).foldl (fun a l =>
      let va := (effAddr g p s.clock l b i (off.signExtend 64)).toNat
      if !canonical va then a
      else match prefLine s g va with
        | some l => setIns a l
        | none => a) []
    laneIssue s g p h none (.pref lines) lines.isEmpty (all.filter bad))
/-- Fill lines into the column caches that serve them (R197, R225, R226). -/
def fillLines (s : State) (g : Group) (lines : List Nat) : State :=
  lines.foldl (fun s x => colFill s (serveCore s g (128 * x)) x) s

/-! ### Locked lines (R226, R227) -/

/-- Whether locks on more lines keep within 1,024 lines and 8 of a set (R227). -/
def locksFit (k : Core) (lines : List Nat) : Bool :=
  let all := lines.foldl setIns ((k.locks.map (fun e => e.1)).foldl setIns [])
  decide (all.length ≤ 1024) &&
    all.all (fun x => decide ((all.filter (fun y => y % colSets k = x % colSets k)).length ≤ 8))
/-- The bit of a team in the masks of locked lines: its slot on its core, with the core, since a fused cluster's teams lock lines at
one another's cores (R199, R226). -/
def lockBit (tm : Team) : Nat := 4 * tm.core + tm.slot
/-- Lock lines for the team of a mask bit. -/
def addLocks (k : Core) (slot : Nat) (lines : List Nat) : Core :=
  { k with locks := lines.foldl (fun ls x =>
      let m := tabGet 0 ls x
      if bitN m slot then ls else tabPut ls x (m + 2 ^ slot)) k.locks }
/-- Clear the locks of the team of a mask bit on lines. -/
def dropLocks (k : Core) (slot : Nat) (lines : List Nat) : Core :=
  { k with locks := lines.foldl (fun ls x =>
      let m := tabGet 0 ls x
      if bitN m slot then (if m = 2 ^ slot then tabDel ls x else tabPut ls x (m - 2 ^ slot)) else ls) k.locks }
/-- Lines by the core whose column serves them. -/
def byCore (s : State) (g : Group) (lines : List Nat) : Tab (List Nat) :=
  lines.foldl (fun t x =>
    let c := serveCore s g (128 * x)
    tabPut t c (tabGet [] t c ++ [x])) []

/-- The address of the lowest lane whose line lies in the flash tier, which a storage timeout names (R279). -/
def flashVa (s : State) (addrs : List (Nat × Nat)) (locs : List (Nat × Loc)) : Nat :=
  match locs.find? (fun e => match e.2 with
    | .phys pa => tierOf (redirect s pa) = .flash
    | .spad _ _ => false) with
  | some e => ((addrs.find? (fun a => a.1 = e.1)).map (fun a => a.2)).getD 0
  | none => 0
/-- `LKLN` and `ULLN` share their checks (R215, R226). -/
def lockLane (s : State) (h : LaneHdr) (on : Bool) (b : MBase) (i : MIdx) (off : BitVec 12) : Out :=
  onPath s (fun g p =>
    let all := actingLanes g p h s.clock
    let bad := readsBad g s.clock (baseV b ++ idxV i)
    let addrs := (all.filter (fun l => !bad l)).map (fun l => (l, (effAddr g p s.clock l b i (off.signExtend 64)).toNat))
    match checkLanes s g p .glob 1 .read addrs with
    | .trap x => trapHere s g p x
    | .miss va => .next (needWalk s s.cur (putPath g p) va)
    | .ok locs =>
      let lines := linesOf locs
      let parts := byCore s g lines
      let slot := ((teamOf s g).map lockBit).getD 0
      if on && !(parts.all (fun e => locksFit (coreOf s e.1) e.2)) then
        trapHere s g p (mkTrap s p 1 0x15 (BitVec.ofNat 32 lines.length) 0)
      else
        let s := parts.foldl (fun s e =>
          let s := if on then e.2.foldl (fun s x => colRoom s e.1 x) s else s
          modCore s e.1 (fun k => if on then addLocks k slot e.2 else dropLocks k slot e.2)) s
        laneIssueAt s g p h (some .col) (.lock on lines) lines.isEmpty (all.filter bad) (flashVa s addrs locs))
/-- `LKLN` -/
def execLkln (h : LaneHdr) (b : MBase) (i : MIdx) (off : BitVec 12) (s : State) : Out := lockLane s h true b i off
/-- `ULLN` -/
def execUlln (h : LaneHdr) (b : MBase) (i : MIdx) (off : BitVec 12) (s : State) : Out := lockLane s h false b i off

/-- Completion of `PREF`, `LKLN` and `ULLN` (R225, R226). -/
def returnLines (s : State) (gid : Nat) (g : Group) (r : Req) : State :=
  match r.kind with
  | .pref lines => complete (fillLines s g lines) gid r.id
  | .lock on lines => complete (if on then fillLines s g lines else s) gid r.id
  | _ => s

end Sys2Proof.Machine
end

