-- ==== Sys2Proof/Machine/Copy.lean ====
section
/-! DEFINITION. Copies, jobs and named tasks: class `0x18` and the steps of a stack's copy engine (R230 to R245, R310). -/
namespace Sys2Proof.Machine

/-! ### Reads that an instruction makes at issue (R113, R231) -/

/-- Bytes read at issue, or why they cannot be read. -/
inductive RdRes where
  | ok (bs : List Byte)
  | miss (va : Nat)
  | bad (code va : Nat)
deriving DecidableEq, Repr

/-- A byte as the issuing core's column cache gives it. -/
def issueByte (s : State) (g : Group) (pa : Nat) : Byte :=
  ((colWord s (serveCore s g pa) (pa / 4)).val >>> (8 * (pa % 4))).setWidth 8
/-- `n` bytes from a virtual address under a group's translation. -/
def readVia (s : State) (g : Group) (a : Acc) : Nat → Nat → RdRes
  | 0, _ => .ok []
  | n + 1, va =>
    if !canonical va then .bad 0x46 va
    else match translate s g va a with
      | .miss => .miss va
      | .bad c => .bad c va
      | .ok pa =>
        match readVia s g a n (va + 1) with
        | .ok bs => .ok (issueByte s g pa :: bs)
        | r => r

/-- Answer a read that cannot be made: suspend for a walk, or take the fault. -/
def rdFail (s : State) (g : Group) (p : Path) (r : RdRes) : Out :=
  match r with
  | .miss va => .next (needWalk s s.cur (putPath g p) va)
  | .bad c va => trapHere s g p (mkAddrTrap s p 1 c va 0xFFFF)
  | .ok _ => .next s

/-- A layout record of the kernel by index (R24, R26): none past the section or malformed. -/
inductive RecRes where
  | ok (v : View)
  | malformed
  | fail (r : RdRes)

def layoutRecord (s : State) (g : Group) (i : Nat) : RecRes :=
  let k := kernOf s g
  if k.layoutSize < 64 * (i + 1) then .malformed
  else match readVia s g .readOrExec 64 (k.layoutBase + 64 * i) with
    | .ok bs =>
      match recordView (fun j => (bs[j]?).getD 0) with
      | some v => .ok v
      | none => .malformed
    | r => .fail r

/-- Base and extents of a register block (R28). -/
def blockBase (g : Group) (p : Path) (r : SReg) : Nat := (sPair g p r).toNat
def blockExt (g : Group) (p : Path) (r : SReg) : List Nat :=
  (List.range 4).map (fun i => (sRead g p (r + BitVec.ofNat 6 (i + 2))).toNat)
/-- The six words of a register block (R28). -/
def blockWords (g : Group) (p : Path) (r : SReg) : List Word := (List.range 6).map (fun i => sRead g p (r + BitVec.ofNat 6 i))
/-- A record with its block, its shape record not yet read. -/
def blockView (g : Group) (p : Path) (v : View) (r : SReg) : View := viewBlock v g.team (blockBase g p r) (blockExt g p r)
/-- The length register of a ragged view (R28). -/
def lengthReg (v : View) : Nat := (v.extents[v.ldim]?).getD 0

/-- A trap of a lane word that names no lane. -/
def groupTrap (s : State) (p : Path) (code v0 v1 : Nat) : TrapInfo :=
  mkTrap s p 1 code (BitVec.ofNat 32 v0) (BitVec.ofNat 32 v1)
/-- The range trap of a view in a scratchpad space: the offset that lies beyond, and no lane (R234, R335). -/
def rangeOf (s : State) (p : Path) (k : Kernel) (v : View) : Option TrapInfo :=
  (viewRange k v).map (fun c => groupTrap s p c (((viewSpan v).map (fun e => e.2)).getD 0) 0xFFFFFFFF)

/-- Whether the engine pipe refuses class `0x18`: the scheduler holds 256 submissions (R240). -/
def engineFull (s : State) (g : Group) : Bool := stackFull s (stackNo g.core)

/-- A submission with nothing set. -/
def subZero : Sub :=
  { id := 0, pasid := 0, work := .none, foot := [], by_ := [], team := none, task := none, count := none,
    cardFlag := none, status := none, packet := none, started := false, error := 0, suspended := none, pins := [],
    ir := 0, regions := [] }

/-! ### CPYC (R232 to R234) -/

/-- Whether two views match for a copy (R234). -/
def copyMatch (a b : View) : Bool :=
  a.rank = b.rank && a.ty = b.ty && a.ragged = b.ragged && (!a.ragged || (a.bdim = b.bdim && a.ldim = b.ldim)) &&
    (List.range a.rank).all (fun d => (a.ragged && d = a.ldim) || extent a d = extent b d)

/-- The checks of a slice in the order of R234: a trap, or destination and source views. -/
def copyViews (s : State) (g : Group) (p : Path) (dv sv : View) (di si : Nat) : TrapInfo ⊕ (View × View) :=
  let k := kernOf s g
  match teamOf s g with
  | none => .inl (groupTrap s p 0x08 si 0)
  | some tm =>
    let shape := fun v => if v.ragged then viewShape s k tm v (lengthReg sv) else some v
    match shape sv with
    | none => .inl (groupTrap s p 0x08 si 0)
    | some a =>
      if !copyMatch dv sv then .inl (groupTrap s p 0x09 di 0)
      else match shape dv with
        | none => .inl (groupTrap s p 0x08 di 0)
        | some b =>
          match rangeOf s p k (boxView b), rangeOf s p k a with
          | some t, _ => .inl t
          | none, some t => .inl t
          | none, none => .inr (b, a)

/-- `CPYC` (R233): refused by the engine pipe while full or four copies ahead; a slice of the team's next copy. -/
def execCpyc (h : LaneHdr) (dst src : SReg) (dr sr : Byte) (s : State) : Out :=
  onPath s (fun g p =>
    if g.handler.isSome then trapHere s g p (handlerIllegal s p true)
    else match teamOf s g with
      | none => .next s
      | some tm =>
        if engineFull s g ∨ tm.formed + 4 ≤ g.ncpyc + 1 then .next s
        else match layoutRecord s g dr.toNat, layoutRecord s g sr.toNat with
          | .fail r, _ => rdFail s g p r
          | .malformed, _ => trapHere s g p (groupTrap s p 0x08 dr.toNat 0)
          | _, .fail r => rdFail s g p r
          | _, .malformed => trapHere s g p (groupTrap s p 0x08 sr.toNat 0)
          | .ok dv, .ok sv =>
            match copyViews s g p (blockView g p dv dst) (blockView g p sv src) dr.toNat sr.toNat with
            | .inl t => trapHere s g p t
            | .inr (b, a) =>
              let k := g.ncpyc
              let sl : Slice :=
                { dst := b, src := a, grp := s.cur, ir := s.ir, target := g.target, arrived := false,
                  blocks := blockWords g p dst ++ blockWords g p src }
              let id := s.fresh
              let g1 := addReq { g with ncpyc := k + 1, walked := none } (laneReq s p h none (.cpyc k))
              let s1 := keep { s with fresh := s.fresh + 1 } g1 (advLane s g p h s.clock)
              let s1 := modTeam s1 g.team (fun t => { t with slices := t.slices ++ [(k, id, sl)] })
              .next (formCopies s1 g.team))

/-! ### CPYX (R235 to R237) -/

/-- The header of a block page table (R235). -/
structure TabHead where
  count : Nat
  blockBytes : Nat
  rows : Nat
  rowBytes : Nat
/-- The header from its 64 bytes, none where it breaks R235. -/
def tabHead (bs : List Byte) : Option TabHead :=
  let t : TabHead :=
    { count := listNat bs 0 4, blockBytes := listNat bs 4 4, rows := listNat bs 8 2, rowBytes := listNat bs 10 2 }
  if 1 ≤ t.count ∧ t.count ≤ 2 ^ 24 ∧ t.blockBytes % 128 = 0 ∧ 1 ≤ t.blockBytes ∧ t.blockBytes ≤ 65536 ∧ 1 ≤ t.rows ∧
      t.rows ≤ 512 ∧ t.rows * t.rowBytes = t.blockBytes ∧ t.rowBytes % 4 = 0 ∧ t.rowBytes ≤ 4096 ∧
      listNat bs 12 52 = 0 then some t else none

/-- The entries that indices name, in lane order: none for a hole, no entry past the count. -/
inductive Entries where
  | ok (es : List (Nat × Nat × Option Nat))
  | fail (r : RdRes) (l : Nat)
/-- Read the named entries (checks 5 and 6 take the lowest lane): lane, index, entry word. -/
def readEntries (s : State) (g : Group) (tab count : Nat) : List (Nat × Nat) → Entries
  | [] => .ok []
  | (l, i) :: rest =>
    let one : RdRes ⊕ Option Nat :=
      if i = 0xFFFFFFFF ∨ count ≤ i then .inr none
      else match readVia s g .read 8 (tab + 64 + 8 * i) with
        | .ok bs => .inr (some (listNat bs 0 8))
        | r => .inl r
    match one with
    | .inl r => .fail r l
    | .inr e =>
      match readEntries s g tab count rest with
      | .ok es => .ok ((l, i, e) :: es)
      | r => r
/-- Whether an index breaks check 6. -/
def entryBad (e : Nat × Nat × Option Nat) : Bool :=
  decide (e.2.1 ≠ 0xFFFFFFFF) && match e.2.2 with
    | none => true
    | some w => decide (w % 2 = 0) || decide (w / 4 % 32 ≠ 0)

/-- The physical frame of each page of a block, which a stream pins (R237): none where the page does not translate. -/
def pinFrames (s : State) (g : Group) (addr n : Nat) : List (Option Nat) :=
  (List.range ((addr + n - 1) / 4096 + 1 - addr / 4096)).map (fun i =>
    match translateNow s (stackNo g.core) (pasidOf s g) ((addr / 4096 + i) * 4096) .read with
    | .ok pa => some (pa / 4096)
    | _ => none)
/-- The 64 KiB blocks of lower tiers that a gather's cold blocks lie in, in their order. -/
def coldBlocks (bs : List GBlock) : List Nat :=
  bs.flatMap (fun b => if b.cold then b.frames.filterMap (fun f => f.map (fun f => f / 16)) else [])

/-- Submit a checked `CPYX` (R236, R240): the frames of its blocks are pinned, and a prefetch to HBM goes out for each cold block. -/
def submitGather (s : State) (g : Group) (p : Path) (h : LaneHdr) (tab : Nat) (hd : TabHead) (dst : View)
    (es : List (Nat × Nat × Option Nat)) (die : List Nat) : Out :=
  let bs := es.mapIdx (fun k e =>
    ({ k := k, addr := e.2.2.map (fun w => w / 128 * 128), cold := (e.2.2.map (fun w => bitN w 1)).getD false,
       arrived := false, frames := (e.2.2.map (fun w => pinFrames s g (w / 128 * 128) hd.blockBytes)).getD [] } : GBlock))
  let order := bs.filter (fun b => !b.cold) ++ bs.filter (fun b => b.cold)
  let reads := bs.filterMap (fun b => b.addr.map (fun a => footGlobal a (a + hd.blockBytes - 1) false))
  let foot := if bs.isEmpty then [footGlobal tab (tab + 63) false]
    else footGlobal tab (tab + 64 + 8 * hd.count - 1) false :: reads ++ footView s dst true
  let x : Sub := { subZero with
    pasid := pasidOf s g, work := .gather dst hd.rows hd.rowBytes g.target order, foot := foot,
    by_ := [(s.cur, s.fresh)], team := some g.team, ir := s.ir,
    pins := bs.flatMap (fun b => b.frames.filterMap id) }
  let g1 := addReq { g with walked := none } (laneReq s p h none (.job (stackNo g.core) (s.fresh + 1)))
  let s1 := keep { s with fresh := s.fresh + 1 } g1 (advLane s g p h s.clock)
  .next (killActing ((coldBlocks bs).foldl promoteHint (addSub s1 (stackNo g.core) x)) s.cur g die)

/-- `CPYX` (R236), its checks in order. -/
def execCpyx (h : LaneHdr) (dst : SReg) (vx : VReg) (tb : SReg) (rc : Byte) (s : State) : Out :=
  onPath s (fun g p =>
    if engineFull s g then .next s
    else match layoutRecord s g rc.toNat with
      | .fail r => rdFail s g p r
      | .malformed => trapHere s g p (groupTrap s p 0x08 rc.toNat 0)
      | .ok v =>
        let tab := (sPair g p tb).toNat
        let whole := groupTrap s p 0x0A 0xFFFFFFFF 0xFFFFFFFF
        if tab % 64 ≠ 0 then trapHere s g p whole
        else match readVia s g .read 64 tab with
          | .miss va => rdFail s g p (.miss va)
          | .bad c va => rdFail s g p (.bad c va)
          | .ok bs =>
            match tabHead bs with
            | none => trapHere s g p whole
            | some hd =>
              let all := maskLanes (activeMask g p)
              let bad := readsBad g s.clock [vx.toNat]
              let live := (all.filter (fun l => !bad l)).map (fun l => (l, (vWord g s.clock vx.toNat l).toNat))
              match readEntries s g tab hd.count live with
              | .fail (.bad c va) l => trapHere s g p (mkAddrTrap s p 1 c va l)
              | .fail r _ => rdFail s g p r
              | .ok es =>
                match es.find? entryBad with
                | some e => trapHere s g p { groupTrap s p 0x0A e.2.1 e.1 with lane := e.1 }
                | none =>
                  let d := blockView g p v dst
                  if v.rank ≠ 2 ∨ v.ragged ∨ extent d 0 * tyBits d.ty ≠ 8 * hd.rowBytes ∨
                      extent d 1 < es.length * hd.rows then
                    trapHere s g p (groupTrap s p 0x09 rc.toNat 0)
                  else match rangeOf s p (kernOf s g) d with
                    | some t => trapHere s g p t
                    | none => submitGather s g p h tab hd d es (all.filter bad))

/-! ### JOB, TASKDEF, TASKWAIT (R238, R239, R243, R244) -/

/-- A card read and checked at issue, or why it cannot be. -/
inductive CardRes where
  | ok (x : Sub)
  | malformed
  | fail (r : RdRes)

/-- The records of a tensor copy are read when the instruction issues (R30, R231); a read outside the card's regions ends the job
(R34). `x` is the submission of the card with its team. -/
def readRecords (s : State) (g : Group) (x : Sub) : CardRes :=
  match x.work with
  | .tensor sr dr sb db se de =>
    if !recCovered x sr || !recCovered x dr then .ok { x with work := .refused 2 }
    else match readVia s g .read 64 sr with
      | .ok a =>
        match readVia s g .read 64 dr with
        | .ok b => .ok { x with work := tensorWork s g.team (covers x) a b sb db se de }
        | r => .fail r
      | r => .fail r
  | _ => .ok x
/-- Read and check a card of a group (R33, R238, R239): its header and regions before any other access (R34). -/
def readCard (s : State) (g : Group) (card : Nat) : CardRes :=
  if card % 128 ≠ 0 then .malformed
  else match readVia s g .read 128 card with
    | .ok cs =>
      match cardHead (listNat cs) card with
      | none => .malformed
      | some (kind, x) =>
        match (if kind = 4 then RdRes.ok [] else readVia s g .read 128 (listNat cs 8 8)) with
        | .ok qs =>
          match cardWork (listNat qs) kind with
          | some w => readRecords s g { x with work := w, team := some g.team }
          | none => .malformed
        | r => .fail r
    | r => .fail r

/-- Clear the flag that a card names and make the card its owner (R110). -/
def ownCard (g : Group) (x : Sub) (id : Nat) : Group :=
  match x.cardFlag with
  | some (_, f, _) => { g with flags := g.flags &&& ~~~ (1#12 <<< f), owner := tabPut g.owner f id }
  | none => g

/-- A card with its owner filled in: `id` is the number of the request or definition, `cid` of the card's flag. -/
def fillCard (s : State) (g : Group) (x : Sub) (id cid : Nat) : Sub :=
  let y := { x with
    pasid := pasidOf s g, by_ := [(s.cur, id)], team := some g.team, ir := s.ir,
    cardFlag := x.cardFlag.map (fun (f : Nat × Nat × Nat) => (s.cur, f.2.1, cid)) }
  { y with foot := cardFoot s y, from_ := subFrom s y }

/-- The trap of a rejected card (R335). -/
def cardTrap (s : State) (p : Path) (card : Nat) : TrapInfo :=
  mkTrap s p 1 0x0B (BitVec.ofNat 32 card) (BitVec.ofNat 32 (card / 2 ^ 32))

/-- `JOB` (R239) -/
def execJob (h : LaneHdr) (c : SReg) (s : State) : Out :=
  onPath s (fun g p =>
    let card := (sPair g p c).toNat
    if engineFull s g then .next s
    else match readCard s g card with
      | .fail r => rdFail s g p r
      | .malformed => trapHere s g p (cardTrap s p card)
      | .ok x =>
        let id := s.fresh
        let y := fillCard s g x id (id + 1)
        let g1 := ownCard (addReq { g with walked := none } (laneReq s p h none (.job (stackNo g.core) (id + 2)))) y (id + 1)
        let s1 := keep { s with fresh := s.fresh + 2 } g1 (advLane s g p h s.clock)
        .next (addSub s1 (stackNo g.core) y))

/-- `TASKDEF` (R243, R244) -/
def execTaskdef (h : LaneHdr) (c n : SReg) (t : Byte) (s : State) : Out :=
  onPath s (fun g p =>
    let card := (sPair g p c).toNat
    let st := stackNo g.core
    let cnt := (sRead g p n).toNat
    if engineFull s g ∨ !slotRoom s st (pasidOf s g) t.toNat then .next s
    else match readCard s g card with
      | .fail r => rdFail s g p r
      | .malformed => trapHere s g p (cardTrap s p card)
      | .ok x =>
        if 1024 < cnt then trapHere s g p (groupTrap s p 0x0D t.toNat cnt)
        else if taskBusy s st (pasidOf s g) t.toNat then trapHere s g p (groupTrap s p 0x0C t.toNat 0)
        else
          let id := s.fresh
          let y := fillCard s g x id (id + 1)
          let g1 := addReq { g with walked := none } (laneReq s p h none (.taskwait st t.toNat))
          let g1 := ownCard (finishReq g1 id) y (id + 1)
          let s1 := keep { s with fresh := s.fresh + 2 } g1 (advLane s g p h s.clock)
          .next (settleAll (taskDefine s1 st (pasidOf s g) t.toNat cnt y none)))

/-- `TASKWAIT` (R243, R244) -/
def execTaskwait (h : LaneHdr) (t : Byte) (s : State) : Out :=
  onPath s (fun g p =>
    let st := stackNo g.core
    let pasid := pasidOf s g
    if engineFull s g ∨ !slotRoom s st pasid t.toNat then .next s
    else
      let s1 := match findSlot s st pasid t.toNat with
        | some _ => s
        | none => putSlot s st
          { pasid := pasid, num := t.toNat, v := 0, c := 0, card := none, state := .open, packet := none }
      let done := match findSlot s st pasid t.toNat with
        | some x => x.state = .done
        | none => false
      laneIssue s1 g p h none (.taskwait st t.toNat) done [])

/-! ### The engine's steps (R240 to R242, R310) -/

/-- The record of a fault of a submission (R340): the issuing group's fields, those kept from its issue where the group has gone, or none
for a packet's job, on the first core of its stack. -/
def subRecord (s : State) (st : Nat) (x : Sub) (cls src code addr : Nat) : TrapRec :=
  let info := subInfo x cls src code addr
  match x.by_.head?.bind (fun e => (tabFind s.groups e.1).map (fun y => (e.1, y))), x.from_ with
  | some (g, y), _ => groupRecord s g y info
  | none, some r => { r with info := { info with tspc := r.info.tspc, tlpc := r.info.tlpc }, tag := recordTag s }
  | none, none =>
    { info := info, pasid := x.pasid, core := 16 * st, slot := 0, teamIdx := 0, tag := recordTag s, grp := 0, team := 0 }

/-- A replayable fault suspends the job alone (R242). A job of a closing PASID, whose records are dropped, ends with its access (R385,
R386). -/
def suspendSub (s : State) (st : Nat) (x : Sub) (code addr : Nat) : State :=
  if closingP s x.pasid then modSub s st x.id (fun y => { y with error := 4 })
  else
    let r := subRecord s st x 1 1 code addr
    let s := modSub s st x.id (fun y => { y with suspended := some r.tag })
    modStack { s with fresh := s.fresh + 1 } st (fun k => { k with waitQ := k.waitQ ++ [r] })

/-- The fatal record of a job whose group has gone (R242, R341, R343): the first of its team waits in the fatal latch, later ones are
counted; a team that has left has no other. -/
def subFatal (s : State) (st : Nat) (r : TrapRec) : State :=
  let s := haltTeam s r.team
  if ((tabFind s.teams r.team).map (fun t => t.fatal)).getD false then
    match r.launch with
    | some l => modLaunch s l (fun x => { x with unrecorded := x.unrecorded + 1 })
    | none => s
  else
    let s := modTeam { s with fresh := s.fresh + 1 } r.team (fun t => { t with fatal := true })
    modStack s st (fun k => { k with fatal := k.fatal ++ [r] })
/-- A fatal fault ends the job with status 4; a group's job is recorded as `job_fault`, a packet's job puts its queue
into the error state (R242). -/
def failSub (s : State) (st : Nat) (x : Sub) (addr : Nat) : State :=
  let s := modSub s st x.id (fun y => { y with error := 4 })
  if closingP s x.pasid then s
  else match x.packet, x.by_ with
  | some (q, i), _ => queueFail s q 0x0E i
  | none, (g, _) :: _ =>
    match tabFind s.groups g with
    | some y => fatal s g y (subRecord s st x 2 2 0x48 addr).info
    | none => if x.from_.isSome then subFatal s st (subRecord s st x 2 2 0x48 addr) else s
  | none, [] => s

/-- Resolve a stop of a move: 0 is `footprint_violation`, status 2 (R34, R238). -/
def stopSub (s : State) (st : Nat) (x : Sub) (stop : Nat × Nat) : State :=
  if stop.1 = 0 then modSub s st x.id (fun y => { y with error := 2 })
  else if classOf stop.1 = 1 then suspendSub s st x stop.1 stop.2
  else failSub s st x stop.2

/-- A submission's request is held by a stall token on a line that it reads (R236, R279). -/
def subStalled (s : State) (x : Sub) : Bool :=
  x.by_.any (fun e => match tabFind s.groups e.1 with
    | some g => g.reqs.any (fun r => r.stalled && decide (r.id = e.2))
    | none => false)
/-- Whether a submission may make accesses: started, not suspended, no error, no stall token. -/
def subRuns (s : State) (x : Sub) : Bool := x.started && x.suspended.isNone && x.error = 0 && !subStalled s x

/-- Replace the first element that is not `done`. -/
def markFirst {α : Type} (done : α → Bool) (f : α → α) : List α → List α
  | [] => []
  | x :: t => if done x then x :: markFirst done f t else f x :: t

/-- The submission as a record of a fault of one of its slices sees it: the slice's own group and `CPYC` (R340). -/
def ofSlice (x : Sub) (sl : Slice) : Sub :=
  if x.by_.any (fun e => e.1 = sl.grp) then
    { x with ir := sl.ir, by_ := x.by_.filter (fun e => e.1 = sl.grp) ++ x.by_.filter (fun e => e.1 ≠ sl.grp) }
  else x

/-- Move the next tile of a submission and count its arrival (R233, R236, R310); a stop part-way keeps the place, so that each element
is moved once. -/
def moveTile (s : State) (st : Nat) (x : Sub) : State :=
  let team := x.team.getD 0
  let k := teamKernel s team
  match x.work with
  | .slices ss =>
    match ss.find? (fun y => !y.arrived) with
    | none => s
    | some sl =>
      if tileLate s team sl.target then s else
      let m := moveSlice s st x.pasid k (covers x) sl
      let put := fun (f : Slice → Slice) => modSub m.s st x.id (fun y => { y with work := .slices (markFirst (fun z => z.arrived) f ss) })
      match m.stop with
      | some e => stopSub (put (fun z => { z with pos := z.pos + m.n })) st (ofSlice x sl) e
      | none => arriveTarget (dropTile (put (fun z => { z with arrived := true })) st x sl.target (boxView sl.dst)) team sl.target
  | .gather dst rows rb target bs =>
    match bs.find? (fun b => !b.arrived) with
    | none => s
    | some b =>
      if tileLate s team target then s else
      let old := b.frames.filterMap id
      let b := lateFrames s st x.pasid b
      let new := old.foldl (fun fs f => fs.erase f) (b.frames.filterMap id)
      let m := moveBlock s st x.pasid k dst rows rb b
      let put := fun (f : GBlock → GBlock) (freed : List Nat) => modSub m.s st x.id (fun y => { y with
        work := .gather dst rows rb target (markFirst (fun z => z.arrived) f bs),
        pins := freed.foldl (fun ps f => ps.erase f) (y.pins ++ new) })
      match m.stop with
      | some e => stopSub (put (fun z => { z with pos := z.pos + m.n, frames := b.frames }) []) st x e
      | none => arriveTarget (dropTile (put (fun z => { z with arrived := true }) (b.frames.filterMap id)) st x target dst) team target
  | _ => s

/-- Move up to `n` bytes of a byte copy or fill, keeping what is left as its work. -/
def moveJob (s : State) (st : Nat) (x : Sub) (n : Nat) : State :=
  let team := x.team.getD 0
  let done := fun (m : Moved) (w : Work) =>
    let s := modSub m.s st x.id (fun y => { y with work := w })
    match m.stop with
    | some e => stopSub s st x e
    | none => s
  match x.work with
  | .bytes src dst len =>
    let m := moveRun s st x.pasid team (covers x) dst (min n len) (fun s i => runSource st x.pasid team (covers x) src s i)
    done m (.bytes (src + m.n) (dst + m.n) (len - m.n))
  | .fill dst len pat =>
    let m := moveRun s st x.pasid team (covers x) dst (min n len) (fun s i => .ok (s, (pat >>> (8 * (i % 8))).setWidth 8, false))
    done m (.fill (dst + m.n) (len - m.n) (pat.rotateRight (8 * (m.n % 8))))
  | _ => s

/-- Nothing of a submission's work is left. -/
def workDone (w : Work) : Bool :=
  match w with
  | .none => true
  | .bytes _ _ n => n = 0
  | .fill _ n _ => n = 0
  | .slices ss => ss.all (fun x => x.arrived)
  | .gather _ _ _ _ bs => bs.all (fun b => b.arrived)
  | .tensor _ _ _ _ _ _ => false
  | .refused _ => true

/-- The records of a packet's tensor copy, read as it starts (R238, R242): a replayable fault suspends the job before it starts, a fatal
one ends it. `x` has started. -/
def startTensor (s : State) (st : Nat) (x : Sub) (sr dr sb db : Nat) (se de : List Nat) : State :=
  let put := fun (y : Sub) => modSub s st x.id (fun _ => y)
  if !recCovered x sr || !recCovered x dr then put { x with error := 2 }
  else match engineBytes s st x.pasid 64 sr, engineBytes s st x.pasid 64 dr with
    | .ok a, .ok b =>
      (match tensorWork s (x.team.getD 0) (covers x) a b sb db se de with
       | .refused c => put { x with work := .refused c, error := c }
       | w => put { x with work := w })
    | .error e, _ => if classOf e.1 = 1 then suspendSub s st x e.1 e.2 else failSub (put x) st x e.2
    | _, .error e => if classOf e.1 = 1 then suspendSub s st x e.1 e.2 else failSub (put x) st x e.2
/-- `SUBMISSION_START` (R240, R241): no earlier conflicting submission, every earlier access of the submitting groups
performed, and the dirty words of the read footprint written back; a degraded stack takes no further work (R378). -/
def execSubmissionStart (st id : Nat) (s : State) : Out :=
  match findSub s st id with
  | none => .next s
  | some x =>
    let held := x.by_.any (fun e => match tabFind s.groups e.1 with
      | some g => !settledBefore g e.2
      | none => false)
    if x.started || held || (stackOf s st).degraded || !subFree (stackOf s st).subs x then .next s
    else
      let cores := (x.team.map (teamCores s)).getD []
      let t := cleanLines s cores (footLines s st x.pasid x.foot false)
      let y := { x with started := true }
      match x.work with
      | .tensor a b c d e f => if x.suspended.isSome then .next s else .next (startTensor t st y a b c d e f)
      | .refused c => .next (modSub t st id (fun _ => { y with error := c }))
      | _ => .next (modSub t st id (fun _ => y))

/-- `TILE_ARRIVAL`: the next tile's last write is performed (R233, R236, R310). -/
def execTileArrival (st id : Nat) (s : State) : Out :=
  match findSub s st id with
  | some x => if subRuns s x then .next (moveTile s st x) else .next s
  | none => .next s

/-- Every tile that is left, in order. -/
def moveTiles (s : State) (st id : Nat) : Nat → State
  | 0 => s
  | n + 1 =>
    match findSub s st id with
    | some x => if subRuns s x && !workDone x.work then moveTiles (moveTile s st x) st id n else s
    | none => s
/-- The number of tiles of a submission. -/
def tilesOf (w : Work) : Nat :=
  match w with
  | .slices ss => ss.length
  | .gather _ _ _ _ bs => bs.length
  | _ => 0
/-- The bytes that a submission has left. -/
def bytesOf (w : Work) : Nat :=
  match w with
  | .bytes _ _ n => n
  | .fill _ n _ => n
  | _ => 0
/-- Move everything that a submission has left. -/
def finishMoves (s : State) (st : Nat) (x : Sub) : State :=
  if subRuns s x then moveTiles (moveJob s st x (bytesOf x.work)) st x.id (tilesOf x.work) else s

/-- A packet's effects are performed (R45). -/
def packetDone (s : State) (q idx : Nat) : State :=
  modQueue s q (fun x => { x with running := x.running.map (fun p =>
    if p.idx = idx then { p with effectsDone := true } else p) })

/-- The completion of a submission (R33, R241, R243): clean copies of what it wrote are dropped, the status word is
written, flags are set, then the count-down, the waiters of its task, its packet, and what waits for room. DESIGN CHOICE: the packet of
a job that ended in `job_fault` has not completed (log 80). -/
def completeSub (s : State) (st : Nat) (x : Sub) : State :=
  let lines := footLines s st x.pasid x.foot true
  let s := dropClean s ((x.team.map (teamCores s)).getD []) lines
  let s := writeStatus s st x.pasid x.status (if x.error = 0 then 1 else x.error)
  let s := delSub s st x.id
  let s := subFlags s x
  let s := match x.count with
    | some t => if x.error = 0 then countDown s st x.pasid t else s
    | none => s
  let s := match x.task with
    | some t =>
      match findSlot s st x.pasid t with
      | some y => wakeTask (putSlot s st { y with state := .done }) st x.pasid t
      | none => s
    | none => s
  let s := match x.packet with
    | some (q, i) => if x.error = 4 then s else packetDone s q i
    | none => s
  settleAll (leaveSub (releaseLeft (takeRoom s st) st x.pasid) x.team)

/-- `JOB_COMPLETE` (R241): whatever is left of the job is moved first; a count-down without a slot holds it (R243), and a fault on its
status word stops it as a fault of its data does (R242). -/
def execJobComplete (st id : Nat) (s : State) : Out :=
  match findSub s st id with
  | none => .next s
  | some x0 =>
    if !x0.started || x0.suspended.isSome then .next s
    else
      let s := finishMoves s st x0
      match findSub s st id with
      | none => .next s
      | some x =>
        let room := match x.count with
          | some t => x.error ≠ 0 || slotRoom s st x.pasid t
          | none => true
        if x.suspended.isSome || !room || !(workDone x.work || x.error ≠ 0) then .next s
        else match statusFault s st x.pasid x.status with
          | some e =>
            if closingP s x.pasid then .next (completeSub s st x)
            else if classOf e.1 = 1 then .next (suspendSub s st x e.1 e.2)
            else if x.error = 4 then .next (completeSub s st x)
            else .next (completeSub (failSub s st x e.2) st { x with error := 4 })
          | none => .next (completeSub s st x)

end Sys2Proof.Machine
end

