-- ==== Sys2Proof/Machine/Matrix.lean ====
section
/-! DEFINITION. Gangs, matrix instructions, tile tokens, scale loads and tile access: class `0x19` but for the drain
(R146, R246 to R259, R262, R271, R272). -/
namespace Sys2Proof.Machine

/-! ### GANGSET (R246) -/

/-- Groups per team of a group's kernel. -/
def teamSize (s : State) (g : Group) : Nat := (kernOf s g).groups
/-- `gang_invalid` or `gang_mismatch` with the gang word (R335). -/
def gangTrap (s : State) (p : Path) (code : Nat) (w : Word) : TrapInfo := mkTrap s p 1 code w 0

/-- `GANGSET` (R246) -/
def execGangset (h : LaneHdr) (r : SReg) (s : State) : Out :=
  onPath s (fun g p =>
    let w := sRead g p r
    if g.handler.isSome then trapHere s g p (handlerIllegal s p true)
    else if gangOk w (teamSize s g) g.idx then laneIssue s { g with gang := w } p h none (.gang 0 false) true []
    else trapHere s g p (gangTrap s p 0x0E w))

/-! ### Places -/

/-- The core whose column cache serves a line for a team (R199). -/
def serveTeam (s : State) (team pa : Nat) : Nat :=
  match tabFind s.teams team with
  | none => 0
  | some tm =>
    let k := teamKernel s team
    if fusedK k then
      match tabFind s.clusters tm.cluster with
      | some cl => clusterCore k cl (pa / 128 % (k.width * k.height))
      | none => tm.core
    else tm.core
/-- A byte and its poison at a place, as the team's column cache gives it. -/
def teamByte (s : State) (team : Nat) : Loc → Byte × Bool
  | .phys pa =>
    let w := colWord s (serveTeam s team pa) (pa / 4)
    ((w.val >>> (8 * (pa % 4))).setWidth 8, w.poison)
  | .spad c o => (spadByte s c o, spadPoisoned s c o)
/-- Bring the lines of places into the column caches that serve them (R197, R254). -/
def fetchLines (s : State) (team : Nat) (ls : List Loc) : State :=
  let lines := ls.foldl (fun a l => match l with
    | .phys pa => setIns a (pa / 128)
    | .spad _ _ => a) []
  lines.foldl (fun s x => colFill s (serveTeam s team (128 * x)) x) s

/-! ### Operand checks (R249 to R251) -/

def fmtTy : MmaFmt → Nat
  | .e4m3 => 12 | .e5m2 => 13 | .e2m1 => 14 | .bf16 => 10 | .f16 => 11 | .s8 => 1
/-- K extent and row count of an operand. -/
def kOf (v : View) : Nat := extent v 0
def rowsOf (v : View) : Nat := if v.rank = 3 then extent v 1 * extent v 2 else extent v 1
/-- The shape conditions on one operand (R249, R250). -/
def operandOk (fmt : MmaFmt) (isA : Bool) (v : View) : Bool :=
  let form := if v.ragged then
      (v.rank = 2 && v.ldim = 0 && v.bdim = 1) || (isA && v.rank = 3 && v.ldim = 1 && v.bdim = 2)
    else v.rank = 2
  form && v.ty = fmtTy fmt && strideOf v 0 = (tyBytes v.ty : Int) && (v.ty ≠ 14 || kOf v % 2 = 0) &&
    Nat.ble (rowsOf v) 128
/-- The position of row `i` at K position `k`. -/
def opIndex (v : View) (i k : Nat) : List Nat :=
  if v.rank = 3 then [k, i % extent v 1, i / extent v 1, 0] else [k, i, 0, 0]
/-- Whether row `i` of A is padding (R250, form b). -/
def padRow (v : View) (i : Nat) : Bool :=
  v.ragged && v.rank = 3 && decide ((v.lens[i / extent v 1]?).getD 0 ≤ i % extent v 1)
/-- The padding rows of A. -/
def padRows (v : View) : List Nat := (List.range (rowsOf v)).filter (padRow v)
/-- Whether K position `k` of row or column `i` is live (R250, form a). -/
def liveAt (v : View) (i k : Nat) : Bool :=
  decide (k < kOf v) && (!(v.ragged && v.rank = 2) || decide (k < (v.lens[i]?).getD 0))
/-- The number of K-blocks (R249). -/
def kBlocks (v : View) : Nat := (kOf v + 63) / 64
/-- A scale descriptor that breaks R251: offset and byte count. -/
def scaleBad (w : Word) (nk : Nat) : Option (Nat × Nat) :=
  let o := w.toNat % 2 ^ 14
  if w.toNat / 2 ^ 14 % 2 ^ 17 ≠ 0 then some (o, 0)
  else if w.getLsbD 31 ∧ 16384 < o + 128 * nk then some (o, 128 * nk) else none

/-! ### Checks of a drain program (R272) -/

/-- Base and stride alignment of a memory word (R272 check 2): the address that breaks it. -/
def drainMisaligned (rs : Tab Word) (a : DAcc) : Option Nat :=
  match a with
  | .row p z | .col p z => if regPair rs p % z ≠ 0 then some (regPair rs p) else none
  | .mat p m z _ _ => if regPair rs p % z ≠ 0 ∨ regWord rs m % z ≠ 0 then some (regPair rs p) else none
  | .scale _ _ => none
/-- The checks of R272 on a captured program: a trap, if one fails. -/
def drainChecks (s : State) (g : Group) (p : Path) (slot : Nat) (rs : Tab Word) (m n : Nat) (pad : List Nat) :
    Option TrapInfo :=
  let k := kernOf s g
  let ws := slotWords (coreOf s g.core) g.team slot
  if ws.isEmpty then some (groupTrap s p 0x13 slot 0)
  else
    let accs := (drainRunWords ws).filterMap drainAcc
    match accs.findSome? (drainMisaligned rs) with
    | some a => some (mkAddrTrap s p 1 0x03 a 0xFFFF)
    | none =>
      let runs := accs.flatMap (fun a => (drainRegion m n pad).flatMap (fun e => segAccess rs n e.1 e.2 a))
      match runs.find? (fun r => (r.1 = 2 && decide (k.spad < r.2.1 + r.2.2.1)) ||
          (r.1 = 1 && decide (windowSize k < r.2.1 + r.2.2.1))) with
      | some r => some (groupTrap s p (if r.1 = 1 then 0x05 else 0x04) r.2.1 0xFFFFFFFF)
      | none => none

/-! ### Joining (R247, R248, R257) -/

/-- The values of scalar registers as a table. -/
def captureRegs (g : Group) (p : Path) (rs : List SReg) : Tab Word :=
  rs.foldl (fun t r => tabPut t r.toNat (sRead g p r)) []
/-- The entry that a gang instruction of a group joins, if one stands open for it (R247). -/
def openEntry (s : State) (g : Group) : Option GangEnt :=
  (coreOf s g.core).latch.find? (fun e =>
    decide (e.team = g.team) && e.gang = g.gang && !e.fired && !(e.members.any (fun m => decide (m.1 = s.cur))))
/-- Whether the token lets a join through (R257). -/
def joinOk (s : State) (g : Group) (t : Nat) (opening : Bool) : Bool :=
  match tokenOf s g.core t with
  | some (.m tm _) => tm = g.team
  | some (.p tm _ _) => tm = g.team && !opening
  | _ => false
/-- Whether an instruction and its operand values agree with an entry's (R248). -/
def sameWord (e : GangEnt) (w : BitVec 96) (rs : Tab Word) (names : List SReg) : Bool :=
  e.word.extractLsb' 36 60 = w.extractLsb' 36 60 && e.word.extractLsb' 0 17 = w.extractLsb' 0 17 &&
    names.all (fun r => tabGet 0 e.regs r.toNat = tabGet 0 rs r.toNat)

/-- Token check, join rule, then joining or opening (checks 6 and 7 of R252); `ent` is the entry that would open. -/
def joinGang (s : State) (g : Group) (p : Path) (h : LaneHdr) (names : List SReg) (ent : GangEnt) : Out :=
  let e := openEntry s g
  let t := ent.td.tile.toNat
  if !joinOk s g t e.isNone then
    trapHere s g p (groupTrap s p 0x11 t (tokenNo (tokenOf s g.core t)))
  else match e with
    | some x =>
      if !sameWord x s.ir ent.regs names then trapHere s g p (gangTrap s p 0x0F g.gang)
      else
        let g1 := addReq { g with walked := none } (laneReq s p h none (.gang x.id x.td.drain))
        let s1 := keep { s with fresh := s.fresh + 1 } g1 (advLane s g p h s.clock)
        let s1 := modCore s1 g.core (fun k => { k with latch := k.latch.map (fun y =>
          if y.id = x.id then { y with members := y.members ++ [(s.cur, s.fresh)] } else y) })
        .next (fireAll s1 g.core)
    | none =>
      let id := s.fresh + 1
      let g1 := addReq { g with walked := none } (laneReq s p h none (.gang id ent.td.drain))
      let s1 := keep { s with fresh := s.fresh + 2 } g1 (advLane s g p h s.clock)
      let s1 := tokenOpen s1 g.core t
      let s1 := modCore s1 g.core (fun k => { k with
        latch := k.latch ++ [{ ent with id := id, members := [(s.cur, s.fresh)] }] })
      .next (fireAll s1 g.core)

/-- A gang instruction that would open an entry is refused while the latch is full (R247). -/
def latchFull (s : State) (g : Group) : Bool := (openEntry s g).isNone && decide (8 ≤ (coreOf s g.core).latch.length)

/-- An entry with nothing set but its key. -/
def entZero (s : State) (g : Group) (td : TileDrain) (rs : Tab Word) : GangEnt :=
  { id := 0, team := g.team, gang := g.gang, word := s.ir, regs := rs, members := [], zero := false, accum := false,
    fmt := .e4m3, td := td, a := none, b := none, sa := 0, sb := 0, fired := false, begun := false, kb := 0,
    rowsDone := 0, stepsDone := false, fp := 0, sigma := 0, prog := [], m := 0, n := 0, pad := [], stop := none, saved := none }
/-- Scalar registers of a word and of the program that it names. -/
def gangRegs (s : State) (g : Group) (p : Path) (td : TileDrain) (names : List SReg) : Tab Word :=
  captureRegs g p (names ++
    if td.drain then drainRegs (drainRunWords (slotWords (coreOf s g.core) g.team td.slot.toNat)) else [])

/-- Flags of the drain unit: only `invalid` and `overflow` (R265). -/
def unitFlags (f : Byte) : Byte := f &&& (fInvalid ||| fOverflow)
/-- `MMA` and `MMAZ` (R252): the checks in order, then the join. -/
def mmaLane (h : LaneHdr) (zero : Bool) (fmt : MmaFmt) (td : TileDrain) (a b sc : SReg) (ra rb : Byte) (s : State) :
    Out :=
  onPath s (fun g p =>
    if g.handler.isSome then trapHere s g p (handlerIllegal s p true)
    else if latchFull s g then .next s
    else if !gangOk g.gang (teamSize s g) g.idx then trapHere s g p (gangTrap s p 0x0E g.gang)
    else match layoutRecord s g ra.toNat, layoutRecord s g rb.toNat, teamOf s g with
      | .fail r, _, _ => rdFail s g p r
      | .malformed, _, _ => trapHere s g p (groupTrap s p 0x08 ra.toNat 0)
      | _, .fail r, _ => rdFail s g p r
      | _, .malformed, _ => trapHere s g p (groupTrap s p 0x08 rb.toNat 0)
      | .ok va, .ok vb, some tm =>
        let k := kernOf s g
        let shape := fun v => if v.ragged then viewShape s k tm v (lengthReg v) else some v
        match shape (blockView g p va a), shape (blockView g p vb b) with
        | none, _ => trapHere s g p (groupTrap s p 0x08 ra.toNat 0)
        | _, none => trapHere s g p (groupTrap s p 0x08 rb.toNat 0)
        | some x, some y =>
          if !operandOk fmt true x then trapHere s g p (groupTrap s p 0x09 ra.toNat 0)
          else if !operandOk fmt false y ∨ kOf x ≠ kOf y then trapHere s g p (groupTrap s p 0x09 rb.toNat 0)
          else match rangeOf s p k x, rangeOf s p k y with
            | some t, _ => trapHere s g p t
            | none, some t => trapHere s g p t
            | none, none =>
              let sa := sRead g p (a + 5)
              let sb := sRead g p (b + 5)
              match scaleBad sa (kBlocks x), scaleBad sb (kBlocks x) with
              | some e, _ => trapHere s g p (groupTrap s p 0x10 e.1 e.2)
              | none, some e => trapHere s g p (groupTrap s p 0x10 e.1 e.2)
              | none, none =>
                let names := sSpan a 6 ++ sSpan b 6 ++ sSpan sc 2
                let rs := gangRegs s g p td names
                let m := rowsOf x
                let n := rowsOf y
                match (if td.drain then drainChecks s g p td.slot.toNat rs m n (padRows x) else none) with
                | some t => trapHere s g p t
                | none =>
                  let sig := f32Mul false .rne (tabGet 0 rs sc.toNat) (tabGet 0 rs (sc + 1).toNat)
                  joinGang s g p h names { entZero s g td rs with
                    zero := zero, accum := true, fmt := fmt, a := some x, b := some y, sa := sa, sb := sb,
                    sigma := sig.1, sigFp := unitFlags sig.2, m := m, n := n, pad := padRows x }
      | _, _, none => .next s)
/-- `MMA` -/
def execMma (h : LaneHdr) (fmt : MmaFmt) (td : TileDrain) (a b sc : SReg) (ra rb : Byte) (s : State) : Out :=
  mmaLane h false fmt td a b sc ra rb s
/-- `MMAZ` -/
def execMmaz (h : LaneHdr) (fmt : MmaFmt) (td : TileDrain) (a b sc : SReg) (ra rb : Byte) (s : State) : Out :=
  mmaLane h true fmt td a b sc ra rb s
/-- `MDRAIN` (R271, R272) -/
def execMdrain (h : LaneHdr) (slot : BitVec 4) (tile : Tile) (sc : SReg) (s : State) : Out :=
  onPath s (fun g p =>
    if g.handler.isSome then trapHere s g p (handlerIllegal s p true)
    else if latchFull s g then .next s
    else if !gangOk g.gang (teamSize s g) g.idx then trapHere s g p (gangTrap s p 0x0E g.gang)
    else
      let td : TileDrain := { drain := true, slot := slot, tile := tile }
      let names := sSpan sc 2
      let rs := gangRegs s g p td names
      let x := extentOf s g.core tile.toNat
      match drainChecks s g p slot.toNat rs x.m x.n x.pad with
      | some t => trapHere s g p t
      | none =>
        let sig := f32Mul false .rne (tabGet 0 rs sc.toNat) (tabGet 0 rs (sc + 1).toNat)
        joinGang s g p h names { entZero s g td rs with
          stepsDone := true, sigma := sig.1, sigFp := unitFlags sig.2, m := x.m, n := x.n, pad := x.pad })

/-! ### The accumulation (R146, R253, R254) -/

/-- The value of an operand code. -/
def codeVal (fmt : MmaFmt) (x : Nat) : Val :=
  match fmt with
  | .e4m3 => valOf fmtE4m3 x
  | .e5m2 => valOf fmtE5m2 x
  | .e2m1 => valOf fmtE2m1 x
  | .bf16 => valOf fmtBf16 x
  | .f16 => valOf fmtF16 x
  | .s8 =>
    let v := intVal 8 true x
    .num { neg := decide (v < 0), m := v.natAbs, e := 0 }
/-- `BlockDot` over pairs of values (R146). -/
def blockDot (ps : List (Val × Val)) : Val :=
  ps.foldl (fun a p => (valAdd .rne a (valMul p.1 p.2).1).1) (.num { neg := false, m := 0, e := 0 })
/-- One block's update of an element (R146): the new `q` and the flags. -/
def blockUpdate (q : Word) (sa sb : Byte) (ps : List (Val × Val)) : Word × Byte :=
  match scaleOf sa, scaleOf sb with
  | some x, some y =>
    let d := blockDot ps
    let sv := valMul (valMul d (.num x)).1 (.num y)
    let r := writeF32 false .rne (sv.1, 0)
    let z := writeF32 false .rne (valAdd .rne (valOf fmtF32 q.toNat) (valOf fmtF32 r.1.toNat))
    let nan := valNan sv.1 || (valNan (valOf fmtF32 z.1.toNat) && !valNan (valOf fmtF32 q.toNat))
    (z.1, ((r.2 ||| z.2) &&& fOverflow) ||| (if nan then fInvalid else 0) ||| sigFlag (valOf fmtF32 q.toNat))
  | _, _ => (nanF32, fScalePoison)

/-- The places of the live elements of an operand in a block: row, K position, bytes. -/
def blockPlaces (s : State) (team : Nat) (v : View) (rows : List Nat) (kb : Nat) :
    Except (Nat × Nat) (List (Nat × Nat × List Loc)) :=
  let st := ((tabFind s.teams team).map (fun t => stackNo t.core)).getD 0
  let cells := rows.flatMap (fun i => ((List.range 64).filter (fun k => liveAt v i (64 * kb + k))).map (fun k => (i, 64 * kb + k)))
  cells.foldr (fun c r =>
    match r with
    | .error e => .error e
    | .ok ls =>
      match elemPlaces s st (teamPasid s team) (teamKernel s team) v (opIndex v c.1 c.2) .read with
      | .ok l => .ok ((c.1, c.2, l) :: ls)
      | .error e => .error e) (.ok [])
/-- The code of an element read at its places, with its poison. -/
def readCode (s : State) (team : Nat) (v : View) (i k : Nat) (ls : List Loc) : Nat × Bool :=
  let n := ls.foldr (fun l a => (teamByte s team l).1.toNat + 256 * a) 0
  let bad := ls.any (fun l => (teamByte s team l).2)
  if tyBits v.ty = 4 then (if highNibble v (opIndex v i k) then n / 16 else n % 16, bad) else (n, bad)

/-- The scale byte of a row or column in a block (R251). -/
def scaleByte (s : State) (e : GangEnt) (w : Word) (kb i : Nat) : Byte :=
  if w.getLsbD 31 then
    match tabFind s.teams e.team with
    | some tm => tabGet 0 (coreOf s tm.core).scale (tm.slot * 16384 + w.toNat % 2 ^ 14 + 128 * kb + i)
    | none => 0x38
  else 0x38

/-- A member's gang request is held by a stall token: the step or segment that needs the line waits (R253, R273). -/
def entStalled (s : State) (e : GangEnt) : Bool :=
  e.members.any (fun m => match (tabFind s.groups m.1).bind (fun g => findReq g m.2) with
    | some r => r.stalled
    | none => false)

/-- Rows with a live position in a block (R252). -/
def liveRows (e : GangEnt) (a : View) (kb : Nat) : List Nat :=
  (List.range e.m).filter (fun i => !(i ∈ e.pad) && (List.range 64).any (fun k => liveAt a i (64 * kb + k)))

/-! ### Tile fetch and pins (R255) -/

/-- The lines of places in global memory. -/
def placeLines (ls : List Loc) : List Nat :=
  ls.foldl (fun a l => match l with
    | .phys pa => setIns a (pa / 128)
    | .spad _ _ => a) []
/-- The places of a K-block's live elements, of A then of B (R252, R254). -/
def operandPlaces (s : State) (e : GangEnt) (a b : View) (kb : Nat) :
    Except (Nat × Nat) (List (Nat × Nat × List Loc) × List (Nat × Nat × List Loc)) :=
  let rows := liveRows e a kb
  let cols := if rows.isEmpty then [] else List.range e.n
  match blockPlaces s e.team a rows kb, blockPlaces s e.team b cols kb with
  | .error x, _ | .ok _, .error x => .error x
  | .ok as, .ok bs => .ok (as, bs)
/-- The global operand lines of a K-block, none where one does not translate. -/
def blockLines (s : State) (e : GangEnt) (kb : Nat) : List Nat :=
  match e.a, e.b with
  | some a, some b =>
    match operandPlaces s e a b kb with
    | .ok x => placeLines ((x.1 ++ x.2).flatMap (fun y => y.2.2))
    | .error _ => []
  | _, _ => []
/-- The last K-block of an instruction that uses a line. -/
def lastUse (s : State) (e : GangEnt) (kb line : Nat) : Nat :=
  match e.a with
  | some a => ((List.range (kBlocks a)).filter (fun i => decide (kb ≤ i) && decide (line ∈ blockLines s e i))).foldl max kb
  | none => kb
/-- The lines that a column cache holds pinned. -/
def pinnedLines (k : Core) : List Nat := k.pins.foldl (fun ls p => setIns ls p.1) []
/-- A line may be pinned: it is, or its set holds fewer than four pinned lines and the core fewer than the limit (R255). -/
def pinRoom (k : Core) (limit line : Nat) : Bool :=
  let ls := pinnedLines k
  decide (line ∈ ls) ||
    (decide (ls.length < limit) && decide ((ls.filter (fun x => x % colSets k = line % colSets k)).length < 4))
/-- The pins of a core on lines for an entry. -/
def pinnedFor (k : Core) (ent line : Nat) : Bool := k.pins.any (fun p => decide (p.1 = line) && decide (p.2.1 = ent))
/-- The fetch unit places a line in the column cache that serves it, and pins it there until block `last` has begun, where it has
room (R255). -/
def fetchPin (s : State) (e : GangEnt) (limit last line : Nat) : State :=
  let q := serveTeam s e.team (128 * line)
  let k := coreOf s q
  if pinnedFor k e.id line || !pinRoom k limit line then colFill s q line
  else modCore (colFill s q line) q (fun k => { k with pins := k.pins ++ [(line, e.id, last)] })
/-- The pins of an entry whose last block has begun are gone (R255). -/
def unpinBlock (s : State) (id kb : Nat) : State :=
  { s with cores := s.cores.map (fun c => (c.1, { c.2 with pins := c.2.pins.filter (fun p => !(decide (p.2.1 = id) && decide (p.2.2 ≤ kb))) })) }
/-- The bytes of scale memory that an instruction uses: offset and length per operand. -/
def scaleRanges (e : GangEnt) : List (Nat × Nat) :=
  match e.a with
  | some v => ([e.sa, e.sb].filter (fun w => w.getLsbD 31)).map (fun w => (w.toNat % 2 ^ 14, 128 * kBlocks v))
  | none => []
/-- The number at which an entry had all its members. -/
def joinMark (e : GangEnt) : Nat := e.members.foldl (fun a m => max a m.2) 0
def rangesMeet (rs : List (Nat × Nat)) (o n : Nat) : Bool := rs.any (fun r => decide (r.1 < o + n) && decide (o < r.1 + r.2))

/-- What must come first: every access of the members before their gang instruction, and every earlier `SCLD` of the
team on a range that the instruction uses (R254). -/
def startHeld (s : State) (e : GangEnt) : Bool :=
  e.members.any (fun m => match tabFind s.groups m.1 with
    | some g => !settledBefore g m.2
    | none => false) ||
  s.groups.any (fun x => decide (x.2.team = e.team) && x.2.reqs.any (fun r =>
    match r.kind with
    | .scld o src => decide (r.id < joinMark e) && rangesMeet (scaleRanges e) o (4 * src.length)
    | .scldRead o ws => decide (r.id < joinMark e) && rangesMeet (scaleRanges e) o (4 * ws.length)
    | _ => false))

def modSeq (s : State) (c id : Nat) (f : GangEnt → GangEnt) : State :=
  modCore s c (fun k => { k with seq := k.seq.map (fun e => if e.id = id then f e else e) })

/-- The record of a fault of a gang instruction: the first member's fields (R340). -/
def entRecord (s : State) (e : GangEnt) (cls src code addr : Nat) (aux : Dword) : TrapRec :=
  subRecord s (((tabFind s.teams e.team).map (fun t => stackNo t.core)).getD 0) { subZero with by_ := e.members, ir := e.word }
    cls src code addr |>
    fun r => { r with info := { r.info with aux := aux } }
/-- A replayable fault stops the sequencer until it is resolved (R253). -/
def stopEnt (s : State) (c : Nat) (e : GangEnt) (code addr : Nat) : State :=
  let r := entRecord s e 1 1 code addr 0
  let s := modSeq s c e.id (fun y => { y with stop := some (code, r.tag) })
  let s := { s with fresh := s.fresh + 1 }
  modStack s (stackNo c) (fun k => { k with waitQ := k.waitQ ++ [r] })
/-- A fatal fault: the instruction is abandoned, wherever it stands, and the team gets its record (R242, R253). -/
def abandonEnt (s : State) (c : Nat) (e : GangEnt) (code addr : Nat) (aux : Dword) : State :=
  let t := (entRecord s e 2 2 code addr aux).info
  let s := modCore s c (fun k => { k with
    latch := k.latch.filter (fun y => y.id ≠ e.id), seq := k.seq.filter (fun y => y.id ≠ e.id),
    drain := k.drain.filter (fun d => d.ent ≠ e.id) })
  let s := { s with saved := s.saved.map (fun (x : SavedTeam) => { x with gangs := x.gangs.filter (fun y => y.id ≠ e.id) }) }
  let s := pump (unpin s e.id) c 8
  let s := match e.members with
    | (g, _) :: _ =>
      match tabFind s.groups g with
      | some x => fatal s g x t
      | none => s
    | [] => s
  leaveEnt s e.team
/-- The address that a matrix fault names. -/
def locAddr : Loc → Nat
  | .phys pa => pa
  | .spad _ o => o

/-- A poisoned scale byte or tile word that a block reads: its offset in the bank, or the tile (R371). DESIGN CHOICE: those numbers are the
address that the fault names; the spec says only that it names the line or the tile (log 58). -/
def blockPoison (s : State) (c : Nat) (e : GangEnt) (a : View) : Option Nat :=
  let k := coreOf s c
  let rows := liveRows e a e.kb
  let bank := ((tabFind s.teams e.team).map (fun t => t.slot)).getD 0 * 16384
  let used := fun (w : Word) (is : List Nat) => if w.getLsbD 31 then is.map (fun i => w.toNat % 2 ^ 14 + 128 * e.kb + i) else []
  if k.scalePoison.isEmpty && k.accPoison.isEmpty then none
  else match (used e.sa rows ++ used e.sb (List.range e.n)).find? (fun o => decide (bank + o ∈ k.scalePoison)) with
    | some o => some o
    | none =>
      if rows.any (fun i => tilePoisoned s c e.td.tile.toNat ((List.range e.n).map (fun j => 128 * i + j))) then some e.td.tile.toNat
      else none
/-- Accumulate one block into the tile. -/
def accumulate (s : State) (c : Nat) (e : GangEnt) (a b : View) (as bs : List (Nat × Nat × List Loc)) : State × Byte :=
  let t := e.td.tile.toNat
  let av := as.map (fun x => (x.1, x.2.1, codeVal e.fmt (readCode s e.team a x.1 x.2.1 x.2.2).1))
  let bv := bs.map (fun x => (x.1, x.2.1, codeVal e.fmt (readCode s e.team b x.1 x.2.1 x.2.2).1))
  (liveRows e a e.kb).foldl (fun r i =>
    let row := av.filter (fun x => x.1 = i)
    (List.range e.n).foldl (fun r j =>
      let col := bv.filter (fun x => x.1 = j)
      let ps := row.filterMap (fun x => (col.find? (fun y => y.2.1 = x.2.1)).map (fun y => (x.2.2, y.2.2)))
      let u := blockUpdate (accRead r.1 c t (128 * i + j)) (scaleByte r.1 e e.sa e.kb i) (scaleByte r.1 e e.sb e.kb j) ps
      (accWrite r.1 c t (128 * i + j) u.1, r.2 ||| u.2)) r) (s, 0)

/-- The fetch unit fetches ahead: the first line of K-block `kb` of a fired instruction that it has not pinned and has room for. The
oldest unfinished block may use all 2,048 pins of a core, younger blocks 1,792 (R255); its reads come after the members' earlier
accesses (R254). -/
def tileFetch (s : State) (c ent kb : Nat) : State :=
  match (coreOf s c).seq.find? (fun e => e.id = ent) with
  | none => s
  | some e =>
    let oldest := ((coreOf s c).seq.find? (fun x => !x.stepsDone)).map (fun x => (x.id, x.kb)) = some (ent, kb)
    let limit := if oldest then 2048 else 1792
    if e.stop.isSome || e.stepsDone || decide (kb < e.kb) || startHeld s e || !teamRuns s e.team || entStalled s e then s
    else
      match (blockLines s e kb).find? (fun l =>
        let k := coreOf s (serveTeam s e.team (128 * l))
        !pinnedFor k ent l && pinRoom k limit l) with
      | some l => fetchPin s e limit (lastUse s e kb l) l
      | none => s

/-- One K-block of an entry (R252 to R255, R371): its lines are fetched, those that later blocks use pinned, and the pins of lines
that it uses last fall. -/
def runBlock (s : State) (c : Nat) (e : GangEnt) : State :=
  match e.a, e.b with
  | some a, some b =>
    let s := if e.zero && !e.begun then zeroTile s c e.td.tile.toNat else s
    if kBlocks a ≤ e.kb then modSeq s c e.id (fun y => { y with begun := true, stepsDone := true })
    else
      match operandPlaces s e a b e.kb with
      | .error x =>
        let s := modSeq s c e.id (fun y => { y with begun := true })
        if classOf x.1 = 1 then stopEnt s c e x.1 x.2 else abandonEnt s c e 0x49 x.2 0
      | .ok (as, bs) =>
        let ls := (as ++ bs).flatMap (fun x => x.2.2)
        let s := (placeLines ls).foldl (fun s l => fetchPin s e 2048 (lastUse s e e.kb l) l) s
        match ls.find? (fun l => (teamByte s e.team l).2) with
        | some l => abandonEnt s c e 0x49 (locAddr l) 0
        | none =>
          match blockPoison s c e a with
          | some n => abandonEnt s c e 0x49 n 0
          | none =>
          let r := accumulate s c e a b as bs
          modSeq (unpinBlock r.1 e.id e.kb) c e.id (fun y => { y with
            begun := true, kb := e.kb + 1, fp := y.fp ||| r.2, stepsDone := decide (kBlocks a ≤ e.kb + 1) })
  | _, _ => modSeq s c e.id (fun y => { y with begun := true, stepsDone := true })

/-- The entry whose steps run: the oldest with steps left, if the drain before it names another tile and is not
suspended (R253, R273, R275). -/
def stepEntry (k : Core) : List GangEnt → Option GangEnt
  | [] => none
  | e :: t =>
    if !e.stepsDone then (if e.stop.isNone then some e else none)
    else if e.stop.isSome || ((k.drain.map (fun d => d.suspended.isSome)).getD false) then none
    else (stepEntry k t).bind (fun x => if x.td.tile = e.td.tile then none else some x)

/-- `MATRIX_STEP`: the sequencer finishes one K-block (R253); a team that is being pre-empted starts none (R351). -/
def execMatrixStep (c : Nat) (s : State) : Out :=
  match stepEntry (coreOf s c) (coreOf s c).seq with
  | some e => if startHeld s e || !teamRuns s e.team || entStalled s e then .next s else .next (runBlock s c e)
  | none => .next s

/-- An instruction completes: flags into every member, their requests, the token, and the queue moves up (R253,
R257, R276). -/
def completeEnt (s : State) (c : Nat) (e : GangEnt) (fp : Byte) : State :=
  let s := unpin (modCore s c (fun k => { k with seq := k.seq.filter (fun y => y.id ≠ e.id) })) e.id
  let s := tokenDone s c e.td.tile.toNat
  let s := e.members.foldl (fun s m =>
    complete (modGroup s m.1 (fun g => setSticky g fp)) m.1 m.2) s
  settleAll (leaveEnt (pump s c 8) e.team)

/-- `MATRIX_COMPLETE`: the oldest fired instruction without a drain whose steps are done completes, whether or not an earlier one
still drains (R253, R275). -/
def execMatrixComplete (c : Nat) (s : State) : Out :=
  match (coreOf s c).seq.find? (fun e => e.stepsDone && !e.td.drain) with
  | some e => .next (completeEnt s c e e.fp)
  | none => .next s

/-! ### SCLD, DRLD (R258, R262) -/

/-- The places of `n` bytes in four-byte words from an address of R230, checked (R258, R262). -/
def sourcePlaces (s : State) (g : Group) (p : Path) (base n : Nat) : Checked :=
  let sp := spaceNo base
  let off := base % 2 ^ 32
  let ws := (List.range (n / 4)).map (fun i => (0xFFFF, 4 * i))
  let k := kernOf s g
  if sp = 2 ∧ k.spad < off + n then .trap (groupTrap s p 0x04 off 0xFFFFFFFF)
  else if sp = 1 ∧ windowSize k < off + n then .trap (groupTrap s p 0x05 off 0xFFFFFFFF)
  else if sp ≠ 0 then
    .ok (spadPlaces s g (if sp = 2 then .sp else .cw) (ws.map (fun w => (w.1, off + w.2))))
  else match ws.find? (fun w => !canonical ((base + w.2) % 2 ^ 64)) with
    | some w => .trap (mkAddrTrap s p 1 0x46 ((base + w.2) % 2 ^ 64) 0xFFFF)
    | none => transLanes s g p .read (ws.map (fun w => (w.1, (base + w.2) % 2 ^ 64)))

/-- `SCLD` (R258) -/
def execScld (h : LaneHdr) (a n : SReg) (off : BitVec 14) (s : State) : Out :=
  onPath s (fun g p =>
    let cnt := (sRead g p n).toNat
    let base := (sPair g p a).toNat
    if cnt = 0 ∨ 16384 < off.toNat + cnt then trapHere s g p (groupTrap s p 0x10 off.toNat cnt)
    else if base % 4 ≠ 0 ∨ cnt % 4 ≠ 0 then trapHere s g p (mkAddrTrap s p 1 0x03 base 0xFFFF)
    else match sourcePlaces s g p base cnt with
      | .trap t => trapHere s g p t
      | .miss va => .next (needWalk s s.cur (putPath g p) va)
      | .ok ls => laneIssueAt s g p h (some .acc) (.scld off.toNat (ls.map (fun e => e.2))) false [] base)

/-- An earlier write of the group to source words of an instruction is still to come: an access of its own, or a drain's (R218, R270).
The words lie one after the other from an address. -/
def readHeld (s : State) (g : Group) (id : Nat) (src : List Loc) (base : Nat) : Bool :=
  (src.mapIdx (fun i l => (i, l))).any (fun e => heldUnit g id e.2 4 || drainHeld s g id e.2 (base + 4 * e.1) 4)
/-- Whether a fired, uncompleted instruction of the team still uses scale bytes that an `SCLD` writes (R258). -/
def scaleInUse (s : State) (g : Group) (id off n : Nat) : Bool :=
  ((coreOf s g.core).latch ++ (coreOf s g.core).seq).any (fun e =>
    e.fired && decide (e.team = g.team) && decide (joinMark e < id) && rangesMeet (scaleRanges e) off n)
/-- The words at the source places of an `SCLD`, with their poison, as a plain load of the group reads them (R258, R371). -/
def scldWords (s : State) (g : Group) : List Loc → State × List (Nat × Bool)
  | [] => (s, [])
  | l :: t =>
    let x := loadLoc s g .col l 4
    let y := scldWords x.1 g t
    (y.1, x.2 :: y.2)
/-- A word with its poison goes to four bytes of a core's scale memory (R258, R371). -/
def scalePut (k : Core) (at_ : Nat) (w : Nat × Bool) : Core :=
  { k with
    scale := (List.range 4).foldl (fun t b => tabSet 0 t (at_ + b) (BitVec.ofNat 8 (w.1 / 256 ^ b))) k.scale,
    scalePoison := (List.range 4).foldl (fun l b => if w.2 then setIns l (at_ + b) else setDel l (at_ + b)) k.scalePoison }
/-- An `SCLD` that has read its words writes them and completes, once no fired instruction still uses what they replace (R258). -/
def writeScld (s : State) (gid : Nat) (g : Group) (id off : Nat) (ws : List (Nat × Bool)) : State :=
  match teamOf s g with
  | some tm =>
    if scaleInUse s g id off (4 * ws.length) then s
    else
      let at_ := tm.slot * 16384 + off
      complete (modCore s g.core (fun k => (ws.mapIdx (fun i w => (i, w))).foldl (fun k e => scalePut k (at_ + 4 * e.1) e.2) k)) gid id
  | none => s
/-- An `SCLD` reads its source once nothing of its group holds it, and then writes its words (R218, R258). -/
def returnScld (s : State) (gid : Nat) (g : Group) (r : Req) : State :=
  match r.kind with
  | .scld off src =>
    if readHeld s g r.id src r.addr.toNat then s
    else
      let x := scldWords s g src
      writeScld (modGroup x.1 gid (fun y => modReq y r.id (fun q => { q with kind := .scldRead off x.2 }))) gid g r.id off x.2
  | .scldRead off ws => writeScld s gid g r.id off ws
  | _ => s

/-- Whether a gang instruction of a team that names a slot has joined or fired and has not completed (R262). -/
def slotBusy (k : Core) (team slot : Nat) : Bool :=
  (k.latch ++ k.seq).any (fun e => decide (e.team = team) && e.td.drain && e.td.slot.toNat = slot)
/-- The index of the first of the loaded words that R93 or R277 refuses, or 64 where none is `DEND`. -/
def drainRefused (ws : List Dword) : Option Nat :=
  match ws.findIdx? (fun w => (decodeDrain w).isNone) with
  | some i => some i
  | none =>
    if ws.any (fun w => match decodeDrain w with
      | some (.dend _) => true
      | _ => false) then none else some 64

/-- `DRLD` (R262) -/
def execDrld (h : LaneHdr) (a : SReg) (n : BitVec 7) (slot : BitVec 4) (s : State) : Out :=
  onPath s (fun g p =>
    let base := (sPair g p a).toNat
    if slotBusy (coreOf s g.core) g.team slot.toNat then .next s
    else if base % 8 ≠ 0 then trapHere s g p (mkAddrTrap s p 1 0x03 base 0xFFFF)
    else match sourcePlaces s g p base (8 * n.toNat) with
      | .trap t => trapHere s g p t
      | .miss va => .next (needWalk s s.cur (putPath g p) va)
      | .ok ls =>
        if readHeld s g s.fresh (ls.map (fun e => e.2)) base then .next s
        else
          let half := ls.map (fun e => (loadLoc s g .col e.2 4).2.1)
          let ws := (List.range n.toNat).map (fun i =>
            BitVec.ofNat 64 ((half[2 * i]?).getD 0 + 2 ^ 32 * (half[2 * i + 1]?).getD 0))
          match drainRefused ws with
          | some i =>
            let w := (ws[min i (n.toNat - 1)]?).getD 0
            trapHere s g p { mkTrap s p 1 0x01 (w.extractLsb' 32 32) (w.extractLsb' 0 32) with
              aux := BitVec.ofNat 64 i }
          | none =>
            let k := coreOf s g.core
            if 512 + (slotWords k g.team slot.toNat).length < drainUsed k + n.toNat then
              trapHere s g p (groupTrap s p 0x14 slot.toNat n.toNat)
            else
              laneIssue (modCore s g.core (fun k => putProg k g.team slot.toNat ws)) g p h (some .acc)
                (.scld 0 []) true [])

/-! ### Tokens and tile access (R257, R259) -/

def tokenTrap (s : State) (g : Group) (p : Path) (t : Nat) : Out :=
  trapHere s g p (groupTrap s p 0x11 t (tokenNo (tokenOf s g.core t)))
/-- An `ACCRD` or `ACCWR` on a tile. -/
def onTile (k : ReqKind) (t : Nat) : Bool :=
  match k with
  | .accrd _ u _ => u = t
  | .accwr u _ => u = t
  | _ => false
/-- `ACCRD`s and `ACCWR`s of a group on a tile that have not completed, issued before `id` (R259). -/
def accPending (g : Group) (t id : Nat) : Bool := g.reqs.any (fun r => decide (r.id < id) && onTile r.kind t)
/-- Any `ACCRD` or `ACCWR` of a group on a tile has not completed (R257). -/
def accBusy (g : Group) (t : Nat) : Bool := g.reqs.any (fun r => onTile r.kind t)

/-- `TKPASS` (R257) -/
def execTkpass (h : LaneHdr) (tile : Tile) (s : State) : Out :=
  onPath s (fun g p =>
    let t := tile.toNat
    let give := fun (now : Bool) (s : State) => laneIssue s g p h none (.tkpass t) now []
    match tokenOf s g.core t with
    | none => give true (modCore (setToken s g.core t (.m g.team 0)) g.core (fun k => { k with extents := tabDel k.extents t }))
    | some (.m tm _) => if tm = g.team then give true s else tokenTrap s g p t
    | some (.p tm _ _) => if tm = g.team then give true s else tokenTrap s g p t
    | some (.v tm q) =>
      if tm = g.team ∧ q = s.cur then
        if accBusy g t then give false s else give true (setToken s g.core t (.m g.team 0))
      else tokenTrap s g p t)
/-- `TKTAKE` (R257) -/
def execTktake (h : LaneHdr) (tile : Tile) (s : State) : Out :=
  onPath s (fun g p =>
    let t := tile.toNat
    let give := fun (now : Bool) (s : State) => laneIssue s g p h none (.tktake t) now []
    match tokenOf s g.core t with
    | none => give true (modCore (setToken s g.core t (.v g.team s.cur)) g.core (fun k => { k with extents := tabDel k.extents t }))
    | some (.m tm n) =>
      if tm ≠ g.team then tokenTrap s g p t
      else if n = 0 then give true (setToken s g.core t (.v g.team s.cur))
      else give false (setToken s g.core t (.p g.team s.cur n))
    | some (.v tm q) => if tm = g.team ∧ q = s.cur then give true s else tokenTrap s g p t
    | some (.p _ _ _) => tokenTrap s g p t)

/-- The acting lanes of a tile access, their indices checked (R259): a trap, or lane and index. -/
def tileLanes (s : State) (g : Group) (p : Path) (tile : Tile) (vx : VReg) (bad : Nat → Bool) :
    Option TrapInfo × List (Nat × Nat) :=
  let ls := ((maskLanes (activeMask g p)).filter (fun l => !bad l)).map (fun l => (l, (vWord g s.clock vx.toNat l).toNat))
  if tokenOf s g.core tile.toNat ≠ some (.v g.team s.cur) then
    (some (groupTrap s p 0x11 tile.toNat (tokenNo (tokenOf s g.core tile.toNat))), [])
  else match ls.find? (fun e => decide (16384 ≤ e.2)) with
    | some e => (some { groupTrap s p 0x12 e.2 e.1 with lane := e.1 }, [])
    | none => (none, ls)

/-- `ACCRD` (R259) -/
def execAccrd (h : LaneHdr) (vd : VReg) (tile : Tile) (vx : VReg) (s : State) : Out :=
  onPath s (fun g p =>
    let bad := readsBad g s.clock [vx.toNat]
    match tileLanes s g p tile vx bad with
    | (some t, _) => trapHere s g p t
    | (none, ls) =>
      laneIssue s g p h (some .acc) (.accrd vd tile.toNat ls) false ((maskLanes (activeMask g p)).filter bad))
/-- `ACCWR`: data is read at issue (R109, R259) -/
def execAccwr (h : LaneHdr) (tile : Tile) (vx vs : VReg) (s : State) : Out :=
  onPath s (fun g p =>
    let badX := readsBad g s.clock [vx.toNat]
    let bad := readsBad g s.clock [vx.toNat, vs.toNat]
    match tileLanes s g p tile vx badX with
    | (some t, _) => trapHere s g p t
    | (none, ls) =>
      let ws := (ls.filter (fun e => !bad e.1)).map (fun e => (e.2, vWord g s.clock vs.toNat e.1))
      laneIssue s g p h (some .acc) (.accwr tile.toNat ws) false ((maskLanes (activeMask g p)).filter bad))

/-- The waiting `TKPASS`es of a group whose tile accesses have all completed hand the tile over and complete: the first moves the
token, and the others find it on the matrix side (R257). -/
def settlePass (s : State) (gid t : Nat) : State :=
  match tabFind s.groups gid with
  | some g =>
    match g.reqs.filter (fun r => r.kind = .tkpass t) with
    | [] => s
    | rs =>
      if accBusy g t then s
      else rs.foldl (fun s r => complete s gid r.id) (setToken s g.core t (.m g.team 0))
  | none => s
/-- A tile access is performed, in issue order of its group and tile, and completes (R259); a poisoned word that it reads is a fatal fault
(R371). -/
def returnAcc (s : State) (gid : Nat) (g : Group) (r : Req) : State :=
  match r.kind with
  | .accrd d t xs =>
    if accPending g t r.id then s
    else if tilePoisoned s g.core t (xs.map (fun e => e.2)) then
      let p := (findPath g r.by_).getD (pathNew 8 0 0 0)
      fatal s gid g { mkAddrTrap s p 1 0x49 t 0xFFFF with tlpc := r.pc }
    else
      let s := modGroup s gid (fun g => xs.foldl (fun g e => vReturn g (vKey d.toNat e.1) (accRead s g.core t e.2) false) g)
      tryRetire (settlePass (finishAt s gid r.id) gid t) gid
  | .accwr t xs =>
    if accPending g t r.id then s
    else tryRetire (settlePass (finishAt (xs.foldl (fun s e => accWrite s g.core t e.1 e.2) s) gid r.id) gid t) gid
  | _ => s

end Sys2Proof.Machine
end

