-- ==== Sys2Proof/Machine/Real.lean ====
section
/-! DEFINITION. Elementary functions in fixed point far finer than any bound of R144 and R268, and the special
functions: exact and special values, flags, and the bound that a free table value must meet (R144, R145, R187, R189,
R268). -/
namespace Sys2Proof.Machine

/-! ### Fixed point with 256 fraction bits -/

def fxOne : Int := 2 ^ 256
def fxMul (a b : Int) : Int := a * b / fxOne
def fxDiv (a b : Int) : Int := a * fxOne / b
/-- A dyadic in fixed point, truncated below. -/
def fxOf (d : Dyadic) : Int :=
  let n : Int := if 0 ≤ d.e + 256 then (d.m * 2 ^ (d.e + 256).toNat : Nat) else (d.m / 2 ^ (-(d.e + 256)).toNat : Nat)
  if d.neg then -n else n
/-- A fixed-point number times 2^k as a dyadic. -/
def fxDy (x : Int) (k : Int) : Dyadic := { neg := decide (x < 0), m := x.natAbs, e := k - 256 }

/-- Σ t/(2i+1) with t multiplied by `q` at each term: the series of atan (`q` = −y²) and atanh (`q` = y²). -/
def oddSeries (q : Int) : Nat → Nat → Int → Int
  | 0, _, _ => 0
  | n + 1, i, t => t / (2 * i + 1) + oddSeries q n (i + 1) (fxMul t q)
/-- Σ x^k/k! from a term `t` of index `i`, with the sign pattern and stride of `step`. -/
def expSeries (x : Int) : Nat → Nat → Int → Int
  | 0, _, _ => 0
  | n + 1, i, t => t + expSeries x n (i + 1) (fxMul t x / (i + 1))
/-- The alternating series of sine (first index 1) and cosine (first index 0). -/
def trigSeries (x2 : Int) : Nat → Nat → Int → Int
  | 0, _, _ => 0
  | n + 1, i, t => t + trigSeries x2 n (i + 2) (-(fxMul t x2 / ((i + 1) * (i + 2))))
/-- Σ (−1)^n x^(2n+1)/(n!(2n+1)) for the error function. -/
def erfSeries (x2 : Int) : Nat → Nat → Int → Int
  | 0, _, _ => 0
  | n + 1, i, t => t / (2 * i + 1) + erfSeries x2 n (i + 1) (-(fxMul t x2 / (i + 1)))

def fxLn2 : Int := 2 * oddSeries (fxOne / 9) 90 0 (fxOne / 3)
/-- π by Machin's formula. -/
def fxPi : Int :=
  16 * oddSeries (-(fxOne / 25)) 70 0 (fxOne / 5) - 4 * oddSeries (-(fxOne / 57121)) 30 0 (fxOne / 239)
/-- e^x for 0 ≤ x < 1 or thereabouts. -/
def fxExpSmall (x : Int) : Int := expSeries x 75 0 fxOne
/-- e^x as a dyadic. -/
def dyExp (x : Int) : Dyadic :=
  let k := x / fxLn2
  fxDy (fxExpSmall (x - k * fxLn2)) k
/-- 2^x as a dyadic. -/
def dyExp2 (x : Int) : Dyadic :=
  let k := x / fxOne
  fxDy (fxExpSmall (fxMul (x - k * fxOne) fxLn2)) k
/-- log2 of a positive dyadic. -/
def dyLog2 (d : Dyadic) : Dyadic :=
  let k := Nat.log2 d.m
  let m := fxOf { neg := false, m := d.m, e := -(k : Int) }
  let y := fxDiv (m - fxOne) (m + fxOne)
  let ln := 2 * oddSeries (fxMul y y) 90 0 y
  fxDy (fxDiv ln fxLn2 + (d.e + (k : Int)) * fxOne) 0
/-- 1/√d of a positive dyadic. -/
def dyRsqrt (d : Dyadic) : Dyadic :=
  let odd := decide (d.e % 2 ≠ 0)
  let m := if odd then 2 * d.m else d.m
  let e := if odd then d.e - 1 else d.e
  { neg := false, m := isqrt (2 ^ 400 / m), e := -200 - e / 2 }
/-- sin and cos of a number whose magnitude lies below 2^19. -/
def fxSinCos (x : Int) : Int × Int :=
  let q := 2 * x / fxPi
  let r := x - q * fxPi / 2
  let r2 := fxMul r r
  let sn := trigSeries r2 45 1 r
  let cs := trigSeries r2 45 0 fxOne
  let k := q % 4
  if k = 0 then (sn, cs) else if k = 1 then (cs, -sn) else if k = 2 then (-sn, -cs) else (-cs, sn)
/-- A fixed-point number from a dyadic, or the clamp at ±`n` where it lies beyond. -/
def fxClamp (d : Dyadic) (n : Nat) : Int :=
  let big := decide (d.e + (Nat.log2 d.m : Int) > 20)
  let c : Int := n * fxOne
  if big then (if d.neg then -c else c) else max (-c) (min c (fxOf d))
def fxFromDy (d : Dyadic) : Int := fxOf d
/-- tanh of a fixed-point number, and its logistic function. -/
def fxTanh (x : Int) : Int :=
  let e := fxFromDy (dyExp (-2 * (x.natAbs : Int)))
  let t := fxDiv (fxOne - e) (fxOne + e)
  if x < 0 then -t else t
def fxSigmoid (x : Int) : Int :=
  let e := fxFromDy (dyExp (-(x.natAbs : Int)))
  if x < 0 then fxDiv e (fxOne + e) else fxDiv fxOne (fxOne + e)
/-- erf of a fixed-point number of magnitude at most 8. -/
def fxErf (x : Int) : Int :=
  let x2 := fxMul x x
  let rootPi : Int := (isqrt (fxPi.natAbs * 2 ^ 256) : Nat)
  fxDiv (2 * erfSeries x2 300 0 x) rootPi

/-! ### Bounds (R144, R268) -/

/-- `Ulp` of an approximated result: its exponent (R144). -/
def ulpExp (a : Dyadic) : Int :=
  if a.m = 0 then -149 else max (a.e + (Nat.log2 a.m : Int)) (-126) - 23
/-- |c − a| ≤ k × 2^u. -/
def nearDy (c a : Dyadic) (k : Nat) (u : Int) : Bool :=
  let e := min (min c.e a.e) u
  decide ((dyInt c e - dyInt a e).natAbs ≤ k * 2 ^ (u - e).toNat)
/-- The candidate where it is a number that `ok` admits, else the nearest value of the approximation. -/
def boundedWord (cand : Word) (a : Dyadic) (ok : Dyadic → Bool) : Word :=
  let best := BitVec.ofNat 32 (roundTo fmtF32 .rne a.neg (magOf a)).1
  match valOf fmtF32 cand.toNat with
  | .num c => if ok c then cand else best
  | _ => best

/-! ### Special functions (R145, R187, R189) -/

/-- The functions of class `0x0A`, by function number. -/
inductive SfuOp where
  | rcp | rsq | ex2 | lg2 | sin | cos | tanh | erf
deriving DecidableEq, Repr
def sfuNo : SfuOp → Nat
  | .rcp => 0 | .rsq => 1 | .ex2 => 2 | .lg2 => 3 | .sin => 4 | .cos => 5 | .tanh => 6 | .erf => 7

/-- A power of two: its exponent. -/
def powerOf (d : Dyadic) : Option Int :=
  if d.m = 2 ^ Nat.log2 d.m ∧ d.m ≠ 0 then some (d.e + (Nat.log2 d.m : Int)) else none

def infWord (neg : Bool) : Word := if neg then 0xFF800000 else 0x7F800000
def zeroWord (neg : Bool) : Word := if neg then 0x80000000 else 0
def oneWord (neg : Bool) : Word := if neg then 0xBF800000 else 0x3F800000

/-- A number times 1 − *x*²/*n*, at least 2^−256 below it. -/
def justBelow (a x : Dyadic) (n : Int) : Dyadic :=
  { a with m := a.m * (fxOne - max 1 (fxMul (fxOf x) (fxOf x) / n)).natAbs, e := a.e - 256 }
/-- A function whose series is far from its first term only where |*x*| ≥ 2^−40: below that, `a` times 1 − *x*²/*n*. sin *x*, tanh *x*
and cos *x* lie below *x*, *x* and 1 however small *x* is, which decides the binade of their `Ulp` and whether they are tiny. -/
def nearFirst (a x : Dyadic) (n : Int) (series : Int) : Dyadic :=
  if x.e + (Nat.log2 x.m : Int) < -40 then justBelow a x n else fxDy series 0
/-- The approximation of a finite, inexact case. -/
def sfuApprox (op : SfuOp) (d : Dyadic) : Dyadic :=
  match op with
  | .rcp => let q := magDiv 200 { neg := false, m := 1, e := 0 } d
            { neg := d.neg, m := q.m, e := q.e }
  | .rsq => dyRsqrt d
  | .ex2 => dyExp2 (fxOf d)
  | .lg2 => dyLog2 d
  | .sin => nearFirst d d 6 (fxSinCos (fxOf d)).1
  | .cos => nearFirst { neg := false, m := 1, e := 0 } d 2 (fxSinCos (fxOf d)).2
  | .tanh => nearFirst d d 3 (fxTanh (fxClamp d 64))
  | .erf => fxDy (fxErf (fxClamp d 8)) 0
/-- Ulps of the bound (R144). -/
def sfuUlps (op : SfuOp) : Nat :=
  match op with
  | .rcp | .rsq => 1
  | _ => 2
/-- Whether a candidate lies within the bound of R144. -/
def sfuOk (op : SfuOp) (x a c : Dyadic) : Bool :=
  nearDy c a (sfuUlps op) (ulpExp a) ||
    (op = .lg2 && nearDy c a 1 (-22) && decide (0 ≤ dyCmp x { neg := false, m := 1, e := -1 }) &&
      decide (dyCmp x { neg := false, m := 2, e := 0 } ≤ 0))

/-- An exact result of R189, if the case is one. -/
def sfuExact (op : SfuOp) (d : Dyadic) : Option Dyadic :=
  match op, powerOf d with
  | .rcp, some k => if -126 ≤ -k ∧ -k ≤ 127 then some { neg := d.neg, m := 1, e := -k } else none
  | .rsq, some k => if k % 2 = 0 then some { neg := false, m := 1, e := -(k / 2) } else none
  | .lg2, some k => if -126 ≤ k ∧ k ≤ 127 then some { neg := decide (k < 0), m := k.natAbs, e := 0 } else none
  | .ex2, _ =>
    let n := fxOf d
    if n % fxOne = 0 ∧ -126 ≤ n / fxOne ∧ n / fxOne ≤ 127 then some { neg := false, m := 1, e := n / fxOne } else none
  | _, _ => none

/-- Any other finite operand: a table value within the bound, inexact, and underflow below 2^−126 (R189). -/
def sfuFinite (op : SfuOp) (flush : Bool) (x : Word) (d : Dyadic) : Word × Byte :=
  match sfuExact op d with
  | some r => (BitVec.ofNat 32 (writeVal fmtF32 .rne (.num r)).1, 0)
  | none =>
    let a := sfuApprox op d
    let v := boundedWord (Config.sfu (sfuNo op) x flush) a (sfuOk op d a)
    let tiny := decide (a.e + (Nat.log2 a.m : Int) < -126) || a.m = 0
    flushOut flush (v.toNat, fInexact ||| (if tiny then fUnderflow else 0))

/-- A special function of an FP32 word (R145, R187, R189). -/
def sfuWord (op : SfuOp) (flush : Bool) (x : Word) : Word × Byte :=
  match readF32 flush x with
  | .nan sg => (nanF32, if sg then fInvalid else 0)
  | .inf n =>
    match op with
    | .rcp => (zeroWord n, 0)
    | .rsq => if n then (nanF32, fInvalid) else (0, 0)
    | .ex2 => (if n then 0 else infWord false, 0)
    | .lg2 => if n then (nanF32, fInvalid) else (infWord false, 0)
    | .sin | .cos => (nanF32, fInvalid)
    | .tanh | .erf => (oneWord n, 0)
  | .num d =>
    if d.m = 0 then
      match op with
      | .rcp | .rsq => (infWord d.neg, fDivZero)
      | .ex2 | .cos => (oneWord false, 0)
      | .lg2 => (infWord true, fDivZero)
      | .sin | .tanh | .erf => (zeroWord d.neg, 0)
    else
      let top := d.e + (Nat.log2 d.m : Int)
      match op with
      | .rcp =>
        if dyCmp { d with neg := false } { neg := false, m := 1, e := -128 } ≤ 0 then
          (infWord d.neg, fOverflow ||| fInexact)
        else sfuFinite op flush x d
      | .rsq | .lg2 => if d.neg then (nanF32, fInvalid) else sfuFinite op flush x d
      | .ex2 =>
        if !d.neg && decide (7 ≤ top) then (infWord false, fOverflow ||| fInexact)
        else if dyCmp d { neg := true, m := 150, e := 0 } ≤ 0 then (0, fUnderflow ||| fInexact)
        else sfuFinite op flush x d
      | .sin | .cos => if 19 ≤ top then (nanF32, fRange) else sfuFinite op flush x d
      | .tanh | .erf => sfuFinite op flush x d

/-! ### Drain functions (R268) -/

/-- The functions of R268, by operation number `0x0A` to `0x0D`. -/
inductive DrainFn where
  | gelu | silu | tanh | sig
deriving DecidableEq, Repr
def drainNo : DrainFn → Nat
  | .gelu => 10 | .silu => 11 | .tanh => 12 | .sig => 13

/-- `x` as a fixed-point number times a factor that tends to 0 or 1 beyond ±64. -/
def drainApprox (op : DrainFn) (d : Dyadic) : Dyadic :=
  let x := fxClamp d 64
  match op with
  | .tanh => fxDy (fxTanh x) 0
  | .sig => fxDy (fxSigmoid x) 0
  | .silu => dyMul d { fxDy (fxSigmoid x) 0 with neg := false }
  | .gelu =>
    let root2 : Int := (isqrt (2 * 2 ^ 512) : Nat)
    let y := fxDiv x root2
    let y := max (-8 * fxOne) (min (8 * fxOne) y)
    dyMul d { fxDy ((fxOne + fxErf y) / 2) 0 with neg := false }
/-- Whether a value lies within the bound of R268: 2^−18 absolute, or 2^−18 × max(1, |x|). -/
def drainOk (op : DrainFn) (x a c : Dyadic) : Bool :=
  nearDy c a 1 (-18) || ((op = .gelu || op = .silu) &&
    let e := min (min c.e a.e) (x.e - 18)
    decide ((dyInt c e - dyInt a e).natAbs ≤ x.m * 2 ^ (x.e - 18 - e).toNat))
/-- A drain table function: FP32, no flags (R265, R268). -/
def drainFn (op : DrainFn) (x : Word) : Word :=
  match valOf fmtF32 x.toNat with
  | .nan _ => nanF32
  | .inf n =>
    match op with
    | .tanh => oneWord n
    | .sig => if n then 0 else oneWord false
    | .gelu | .silu => if n then zeroWord true else infWord false
  | .num d =>
    let a := drainApprox op d
    boundedWord (Config.drainTable (drainNo op) x) a (drainOk op d a)

end Sys2Proof.Machine
end

