-- ==== Sys2Proof/Machine/Drain.lean ====
section
/-! DEFINITION. The drain unit: segments, the drain operations, completion (R147, R263 to R276). -/
namespace Sys2Proof.Machine

def setDrain (s : State) (c : Nat) (d : Option DrainRun) : State := modCore s c (fun k => { k with drain := d })
/-- The segment after one in a region (R264). -/
def nextSeg (es : List (Nat × Nat)) (i s : Nat) : Option (Nat × Nat) :=
  match es.dropWhile (fun e => !(decide (e.1 = i) && decide (e.2 = s))) with
  | _ :: x :: _ => some x
  | _ => none
def regionOf (e : GangEnt) : List (Nat × Nat) := drainRegion e.m e.n e.pad

/-! ### Entering a segment (R263, R273) -/

/-- The places of a run of bytes for a team, or the cause and address of a fault. -/
def runPlaces (s : State) (team : Nat) (r : Nat × Nat × Nat × Bool) : Except (Nat × Nat) (List Loc) :=
  let st := ((tabFind s.teams team).map (fun t => stackNo t.core)).getD 0
  (List.range r.2.2.1).foldr (fun i x =>
    match x with
    | .error e => .error e
    | .ok ls =>
      let off := (r.2.1 + i) % 2 ^ 64
      match enginePlace s st (teamPasid s team) (teamKernel s team) team r.1 off (if r.2.2.2 then .write else .read) with
      | .at_ l => .ok (l :: ls)
      | .bad c => .error (c, off)) (.ok [])

/-- The first failing access of a segment: micro-op index, cause and address; a poisoned read is `drain_fault`. -/
def segFault (s : State) (e : GangEnt) (i seg : Nat) : List (Nat × Instr) → Option (Nat × Nat × Nat)
  | [] => none
  | (n, w) :: rest =>
    match drainAcc w with
    | none => segFault s e i seg rest
    | some a =>
      let bad := (segAccess e.regs e.n i seg a).findSome? (fun r =>
        match runPlaces s e.team r with
        | .error x => some x
        | .ok ls =>
          if !r.2.2.2 && ls.any (fun l => (teamByte s e.team l).2) then some (0x4A, r.2.1) else none)
      match bad with
      | some x => some (n, x.1, x.2)
      | none => segFault s e i seg rest

/-- `e0` and `e1` of a segment (R263). -/
def segRegs (s : State) (c : Nat) (e : GangEnt) (i seg : Nat) : Tab Word :=
  (List.range 64).foldl (fun t x =>
    let q := accRead s c e.td.tile.toNat (128 * i + 64 * seg + x)
    tabSet 0 (tabSet 0 t x (f32Mul false .rne q e.sigma).1) (64 + x) q) []
/-- Flags of the unit (R265). -/
def drainBits (f : Byte) : Byte := unitFlags f
/-- Flags raised on entry to a segment by the products of R263. -/
def segFlags (s : State) (c : Nat) (e : GangEnt) (i seg : Nat) : Byte :=
  unionFlags ((List.range 64).map (fun x =>
    drainBits (f32Mul false .rne (accRead s c e.td.tile.toNat (128 * i + 64 * seg + x)) e.sigma).2))

/-- Enter the segment that stands next, after its checks (R263, R273); a poisoned word of the tile is a fatal fault (R371). -/
def enterSegment (s : State) (c : Nat) (e : GangEnt) (d : DrainRun) : State :=
  let prog := drainRunWords e.prog
  if tilePoisoned s c e.td.tile.toNat ((List.range 64).map (fun x => 128 * d.row + 64 * d.seg + x)) then
    abandonEnt s c e 0x49 e.td.tile.toNat 0
  else match segFault s e d.row d.seg (prog.mapIdx (fun n w => (n, w))) with
  | some (n, code, addr) =>
    if classOf code = 1 then
      let r := entRecord s e 1 1 code addr 0
      let s := setDrain s c (some { d with suspended := some r.tag, restart := restartRecord e n d.row d.seg 1 })
      let s := { s with fresh := s.fresh + 1 }
      modStack s (stackNo c) (fun k => { k with waitQ := k.waitQ ++ [r] })
    else abandonEnt s c e 0x4A addr (restartRecord e n d.row d.seg 2)
  | none =>
    setDrain s c (some { d with inSeg := true, pc := 0, e := segRegs s c e d.row d.seg, restart := 0,
                                fp := d.fp ||| segFlags s c e d.row d.seg })

/-- The start of a drain (R264): its first segment, or finished at once where the region is empty, with the flags of forming σ
(R147, R265); a drain that was saved goes on where it stopped (R357). -/
def startDrain (s : State) (c : Nat) (e : GangEnt) : State :=
  match e.saved with
  | some d => setDrain s c (some d)
  | none =>
    let z := match (drainRunWords e.prog).getLast? with
      | some (.dend z) => z
      | _ => false
    let d : DrainRun :=
      { ent := e.id, row := 0, seg := 0, inSeg := false, pc := 0, e := [], zeroAfter := z, finished := false, fp := e.sigFp,
        suspended := none }
    match regionOf e with
    | [] => setDrain s c (some { d with finished := true })
    | (i, g) :: _ => enterSegment (setDrain s c (some { d with row := i, seg := g })) c e { d with row := i, seg := g }

/-- `DRAIN_SEGMENT`: a drain starts after the last step of the oldest instruction that names one, or the unit enters
the next segment; the members' earlier accesses come first (R254, R263, R264, R270, R273). -/
def execDrainSegment (c : Nat) (s : State) : Out :=
  let k := coreOf s c
  match k.drain with
  | none =>
    match k.seq with
    | e :: _ =>
      if e.stepsDone && e.td.drain && e.stop.isNone && !startHeld s e && teamRuns s e.team && !entStalled s e then .next (startDrain s c e)
      else .next s
    | [] => .next s
  | some d =>
    match drainEnt k with
    | some e =>
      if !d.inSeg && !d.finished && d.suspended.isNone && teamRuns s e.team && !entStalled s e then .next (enterSegment s c e d) else .next s
    | none => .next s

/-! ### The frame of an operation -/

/-- Run `f` on the drain whose word is executed; without one nothing happens. -/
def onDrain (s : State) (f : GangEnt → DrainRun → Out) : Out :=
  match drainEnt (coreOf s s.drainCore), (coreOf s s.drainCore).drain with
  | some e, some d => f e d
  | _, _ => .next s
def eReg (d : DrainRun) (r : EReg) (x : Nat) : Word := tabGet 0 d.e (r.toNat * 64 + x)
def dOperand (d : DrainRun) (x : Nat) : DSrc → Word
  | .reg r => eReg d r x
  | .imm w => w
/-- Write a register in all 64 lanes and go on; flags are cut to those of the unit (R265). -/
def putE (s : State) (d : DrainRun) (r : EReg) (f : Nat → Word × Byte) : Out :=
  let rs := (List.range 64).map (fun x => (x, f x))
  let e := rs.foldl (fun t y => tabSet 0 t (r.toNat * 64 + y.1) y.2.1) d.e
  let fl := unionFlags (rs.map (fun y => drainBits y.2.2))
  .next (setDrain s s.drainCore (some { d with e := e, fp := d.fp ||| fl, pc := d.pc + 1 }))
/-- A lane-wise operation (R266). -/
def drainOp (s : State) (r : EReg) (f : DrainRun → Nat → Word × Byte) : Out := onDrain s (fun _ d => putE s d r (f d))

/-! ### Arithmetic (R266) -/

/-- `DADD` -/
def execDadd (d a : EReg) (b : DSrc) (s : State) : Out :=
  drainOp s d (fun r x => f32Add false .rne (eReg r a x) (dOperand r x b))
/-- `DMUL` -/
def execDmul (d a : EReg) (b : DSrc) (s : State) : Out :=
  drainOp s d (fun r x => f32Mul false .rne (eReg r a x) (dOperand r x b))
/-- `DFMA` -/
def execDfma (d a : EReg) (b : DSrc) (c : EReg) (s : State) : Out :=
  drainOp s d (fun r x => f32Fma false .rne (eReg r a x) (dOperand r x b) (eReg r c x))
/-- `DMIN` -/
def execDmin (d a : EReg) (b : DSrc) (s : State) : Out :=
  drainOp s d (fun r x => f32Min false (eReg r a x) (dOperand r x b))
/-- `DMAX` -/
def execDmax (d a : EReg) (b : DSrc) (s : State) : Out :=
  drainOp s d (fun r x => f32Max false (eReg r a x) (dOperand r x b))
/-- `DCLAMP` -/
def execDclamp (d a : EReg) (b : DSrc) (c : EReg) (s : State) : Out :=
  drainOp s d (fun r x =>
    let m := f32Max false (eReg r a x) (dOperand r x b)
    let n := f32Min false m.1 (eReg r c x)
    (n.1, m.2 ||| n.2))
/-- `DSCL` -/
def execDscl (d a : EReg) (n : BitVec 9) (s : State) : Out :=
  drainOp s d (fun r x => f32Scale false .rne (eReg r a x) n.toInt)
/-- A table function of the drain unit with its flag: a signalling operand raises `invalid` (R139, R265, R268). -/
def drainTable (f : DrainFn) (w : Word) : Word × Byte := (drainFn f w, sigFlag (valOf fmtF32 w.toNat))
/-- `DGELU` (R268) -/
def execDgelu (d a : EReg) (s : State) : Out := drainOp s d (fun r x => drainTable .gelu (eReg r a x))
/-- `DSILU` (R268) -/
def execDsilu (d a : EReg) (s : State) : Out := drainOp s d (fun r x => drainTable .silu (eReg r a x))
/-- `DTANH` (R268) -/
def execDtanh (d a : EReg) (s : State) : Out := drainOp s d (fun r x => drainTable .tanh (eReg r a x))
/-- `DSIG` (R268) -/
def execDsig (d a : EReg) (s : State) : Out := drainOp s d (fun r x => drainTable .sig (eReg r a x))
/-- `DRELU` of a word: +0 where the value is at most 0, a NaN canonical (R265, R266). -/
def reluWord (w : Word) : Word :=
  let v := valOf fmtF32 w.toNat
  if valNan v then nanF32 else if valZero v || valSign v then 0 else w
/-- `DRELU` -/
def execDrelu (d a : EReg) (s : State) : Out := drainOp s d (fun r x => (reluWord (eReg r a x), 0))
/-- `DMOV`: raw bits -/
def execDmov (d : EReg) (a : DSrc) (s : State) : Out := drainOp s d (fun r x => (dOperand r x a, 0))

/-! ### Quantisation (R267) -/

/-- The largest magnitude over lanes as a value (R267). -/
def maxMag (ws : List Word) : Val :=
  let vs := ws.map (fun w => valOf fmtF32 w.toNat)
  if vs.any valNan then .nan false
  else vs.foldl (fun m v =>
    let a : Val := match v with
      | .num d => .num { d with neg := false }
      | .inf _ => .inf false
      | .nan q => .nan q
    if valCmp m a < 0 then a else m) (.num { neg := false, m := 0, e := 0 })
/-- `ScaleFor(m, F)` as an FP32 word with its flag (R267). -/
def scaleFor (m : Val) (top : Nat) : Word × Byte :=
  match m with
  | .nan _ => (nanF32, fInvalid)
  | .inf _ => (nanF32, fInvalid)
  | .num d =>
    if d.m = 0 then (oneWord false, 0)
    else
      let r := roundMag fmtE4m3 .rp false (magDiv 40 d { neg := false, m := top, e := 0 })
      let code := if r.ovf then maxCode fmtE4m3 else r.code
      (BitVec.ofNat 32 (writeVal fmtF32 .rne (valOf fmtE4m3 code)).1, 0)
/-- `DAMAX` (R267): over the lanes with *j* < N -/
def execDamax (t : DMaxTy) (d a : EReg) (s : State) : Out :=
  onDrain s (fun e r =>
    let ws := ((List.range 64).filter (fun x => decide (64 * r.seg + x < e.n))).map (eReg r a)
    let m := maxMag ws
    let v : Word × Byte := match t with
      | .e4m3 => scaleFor m 448
      | .e2m1 => scaleFor m 6
      | .f32 => (BitVec.ofNat 32 (writeVal fmtF32 .rne m).1, 0)
    putE s r d (fun _ => v))
/-- The code of the exact quotient a/b, saturating (R142, R267). -/
def quotCode (f : Fmt) (a b : Word) : Word × Byte :=
  let nan : Word × Byte := (BitVec.ofNat 32 (nanCode f), fInvalid)
  let big := fun (n : Bool) => (BitVec.ofNat 32 (withSign f n (maxCode f)), (0 : Byte))
  match valOf fmtF32 a.toNat, valOf fmtF32 b.toNat with
  | .nan _, _ | _, .nan _ => nan
  | .inf _, .inf _ => nan
  | .inf x, .num y => big (x != y.neg)
  | .num x, .inf y => (BitVec.ofNat 32 (withSign f (x.neg != y) 0), 0)
  | .num x, .num y =>
    if y.m = 0 then (if x.m = 0 then nan else big (x.neg != y.neg))
    else if x.m = 0 then (BitVec.ofNat 32 (withSign f (x.neg != y.neg) 0), 0)
    else
      let r := roundMag f .rne (x.neg != y.neg) (magDiv 40 x y)
      if r.ovf then big (x.neg != y.neg) else (BitVec.ofNat 32 (withSign f (x.neg != y.neg) r.code), 0)
/-- `DQ8` -/
def execDq8 (d a b : EReg) (s : State) : Out := drainOp s d (fun r x => quotCode fmtE4m3 (eReg r a x) (eReg r b x))
/-- `DQ4` -/
def execDq4 (d a b : EReg) (s : State) : Out := drainOp s d (fun r x => quotCode fmtE2m1 (eReg r a x) (eReg r b x))
def cvtTarget : DCvtTy → ElemTy
  | .s8 => .s8 | .s32 => .s32 | .bf16 => .bf16 | .f16 => .f16 | .e4m3 => .e4m3 | .e5m2 => .e5m2 | .e2m1 => .e2m1
/-- `DCVT` (R142, R143) -/
def execDcvt (sat : Bool) (t : DCvtTy) (d a : EReg) (s : State) : Out :=
  drainOp s d (fun r x =>
    let v := cvtEl false .rne sat (cvtTarget t) .f32 (eReg r a x).toNat
    (BitVec.ofNat 32 v.1, v.2))
/-- Whether a value satisfies a comparison with 0 (R266). -/
def dselHolds (cc : DSelCond) (w : Word) : Bool :=
  let v := valOf fmtF32 w.toNat
  let z : Val := .num { neg := false, m := 0, e := 0 }
  match cc with
  | .gt => (valTest .gt v z).1
  | .ge => (valTest .ge v z).1
  | .ne => (valTest .ne v z).1
  | .un => (valTest .un v z).1
/-- `DSEL` -/
def execDsel (cc : DSelCond) (d a b c : EReg) (s : State) : Out :=
  drainOp s d (fun r x => (if dselHolds cc (eReg r c x) then eReg r a x else eReg r b x, 0))

/-! ### Memory (R266, R269, R270) -/

/-- Every run has its places. -/
def placesOk (s : State) (e : GangEnt) (rs : List (Nat × Nat × Nat × Bool)) : Bool :=
  rs.all (fun r => match runPlaces s e.team r with
    | .ok _ => true
    | .error _ => false)
/-- A run that has lost its places since the segment's checks: the segment is entered again, and its checks report the fault (R273;
log 73). -/
def enterAgain (s : State) (d : DrainRun) : Out := .next (setDrain s s.drainCore (some { d with inSeg := false }))
/-- The bytes of a run that has its places. -/
def drainRead (s : State) (e : GangEnt) (r : Nat × Nat × Nat × Bool) : Nat :=
  match runPlaces s e.team r with
  | .ok ls => ls.foldr (fun l a => (teamByte s e.team l).1.toNat + 256 * a) 0
  | .error _ => 0
/-- Write the low bytes of a value to a run, at the column cache or the partition (R270). -/
def drainWrite (s : State) (e : GangEnt) (r : Nat × Nat × Nat × Bool) (v : Nat) : State :=
  match runPlaces s e.team r with
  | .ok (.phys pa :: _) => storeGlob s (serveTeam s e.team pa) .col pa r.2.2.1 v
  | .ok (.spad c o :: _) => spadStore s c r.2.2.1 o v
  | _ => s
/-- A loaded element widened to FP32 with its flags: a signalling NaN raises `invalid` (R142, R266). -/
def widenEl (t : DMemTy) (x : Nat) : Nat × Byte :=
  match t with
  | .f32 => (x, 0)
  | .bf16 => cvtEl false .rne false .f32 .bf16 x
  | .f16 => cvtEl false .rne false .f32 .f16 x
/-- The value and the flags of a loaded element. -/
def widen (t : DMemTy) (x : Nat) : Word := BitVec.ofNat 32 (widenEl t x).1
def widenFlag (t : DMemTy) (x : Nat) : Byte := (widenEl t x).2

/-- A lane-wise load (R266): lanes with *j* ≥ N hold +0; the lines read are filled as the tile fetch fills them. -/
def drainLoad (s : State) (t : DMemTy) (d : EReg) (a : DAcc) (every : Bool) : Out :=
  onDrain s (fun e r =>
    let rs := segAccess e.regs e.n r.row r.seg a
    if !placesOk s e rs then enterAgain s r
    else
      let s := fetchLines s e.team (rs.flatMap (fun x => match runPlaces s e.team x with
        | .ok ls => ls
        | .error _ => []))
      let vs := rs.map (drainRead s e)
      putE s r d (fun x => match vs[if every then 0 else x]? with
        | some v => (widen t v, widenFlag t v)
        | none => (0, 0)))
/-- `DROW` -/
def execDrow (t : DMemTy) (d : EReg) (p : SReg) (s : State) : Out := drainLoad s t d (.row p (dmemSize t)) true
/-- `DCOL` -/
def execDcol (t : DMemTy) (d : EReg) (p : SReg) (s : State) : Out := drainLoad s t d (.col p (dmemSize t)) false
/-- `DLD` -/
def execDld (t : DMemTy) (d : EReg) (p m : SReg) (s : State) : Out :=
  drainLoad s t d (.mat p m (dmemSize t) false false) false

/-- Go to the next word. -/
def drainNext (s : State) (d : DrainRun) : Out := .next (setDrain s s.drainCore (some { d with pc := d.pc + 1 }))
/-- `DST` (R269): lanes with *j* < N; two E2M1 codes share a byte, an odd last one with a zero nibble -/
def execDst (t : DStTy) (a : EReg) (p m : SReg) (s : State) : Out :=
  onDrain s (fun e r =>
    let half := decide (t = .e2m1)
    let rs := segAccess e.regs e.n r.row r.seg (.mat p m (dstSize t) true half)
    if !placesOk s e rs then enterAgain s r
    else
      let s := (rs.mapIdx (fun i x => (i, x))).foldl (fun s x =>
        let v := if half then
            (eReg r a (2 * x.1)).toNat % 16 +
              (if 64 * r.seg + 2 * x.1 + 1 < e.n then (eReg r a (2 * x.1 + 1)).toNat % 16 * 16 else 0)
          else (eReg r a x.1).toNat
        drainWrite s e x.2 v) s
      drainNext s r)
/-- The E4M3 scale encoding of a value (R269). -/
def scaleCode (w : Word) : Nat :=
  match valOf fmtF32 w.toNat with
  | .num d =>
    if d.m = 0 ∨ d.neg then 0x7F
    else
      let r := roundMag fmtE4m3 .rp false (magOf d)
      if r.ovf then 0x7F else r.code
  | _ => 0x7F
/-- `DSTS` (R269) -/
def execDsts (a : EReg) (p m : SReg) (s : State) : Out :=
  onDrain s (fun e r =>
    let rs := segAccess e.regs e.n r.row r.seg (.scale p m)
    if !placesOk s e rs then enterAgain s r
    else drainNext (rs.foldl (fun s x => drainWrite s e x (scaleCode (eReg r a 0))) s) r)
/-- `DEND` ends the segment (R266, R276) -/
def execDend (_ : Bool) (s : State) : Out :=
  onDrain s (fun e r =>
    match nextSeg (regionOf e) r.row r.seg with
    | some (i, g) =>
      .next (setDrain s s.drainCore (some { r with inSeg := false, pc := 0, row := i, seg := g, e := [] }))
    | none => .next (setDrain s s.drainCore (some { r with inSeg := false, pc := 0, finished := true, e := [] })))

/-- `DRAIN_COMPLETE` (R276): but for one of a team that rolls back (R368), the tile is zeroed where `.zero` says so, and the instruction completes with the bits of
the accumulation and of the drain. -/
def execDrainComplete (c : Nat) (s : State) : Out :=
  let k := coreOf s c
  match drainEnt k, k.drain with
  | some e, some d =>
    if d.finished && ((tabFind s.teams e.team).bind (fun t => t.rolling)).isNone then
      let s := if d.zeroAfter then zeroTile s c e.td.tile.toNat else s
      .next (completeEnt (setDrain s c none) c e (e.fp ||| d.fp))
    else .next s
  | _, _ => .next s

end Sys2Proof.Machine
end

