-- ==== Sys2Proof/Machine/Sync.lean ====
section
/-! DEFINITION. Barriers, roles and cross-module collectives: class `0x1A` (R308 to R323, R382). -/
namespace Sys2Proof.Machine

/-! ### Barrier instructions (R311 to R315) -/

/-- The offset checks of R311: a trap, or the core and scratchpad offset of the object. -/
def barPlace (s : State) (g : Group) (p : Path) (off : Nat) : TrapInfo ⊕ (Nat × Nat) :=
  if off % 16 ≠ 0 then .inl (mkAddrTrap s p 1 0x03 off 0xFFFF)
  else if windowSize (kernOf s g) < off + 16 then .inl (groupTrap s p 0x05 off 0xFFFFFFFF)
  else match (teamOf s g).bind (fun tm => winPlace s (kernOf s g) tm off) with
    | some c => .inr c
    | none => .inl (groupTrap s p 0x05 off 0xFFFFFFFF)

/-- A failed check at a barrier: the window offset and the object's phase (R335). -/
def barTrap (s : State) (p : Path) (code off : Nat) (b : BarObj) : TrapInfo := groupTrap s p code off b.phase

/-- A barrier instruction or `ROLESET` that has taken effect: issued and answered at once (R311). -/
def syncDone (s : State) (g : Group) (p : Path) (h : LaneHdr) : Out :=
  laneIssue s g p h (some .spad) (.fence .grp) true []

/-- The check that makes `BARI` trap, if any (R312). -/
def bariCheck (s : State) (c o n : Nat) (b : BarObj) : Option Nat :=
  if n < 1 ∨ 384 < n then some 0x20
  else if barValid s c o && !b.broken && (decide (b.rem < b.n) || decide (b.tiles ≠ 0) || hasWaiter s c o) then some 0x21
  else if !barValid s c o && decide (64 ≤ (coreOf s c).bars.length) then some 0x22
  else none
/-- The object that `BARI` writes (R312). -/
def bariObj (n owner : Nat) : BarObj := { n := n, rem := n, tiles := 0, broken := false, owner := owner, phase := 0 }
/-- A core's unit holds a valid object of a team at an offset. -/
def addBar (s : State) (c o team : Nat) : State :=
  modCore s c (fun k => { k with bars := k.bars.filter (fun e => e.1 ≠ o) ++ [(o, team)] })

/-- `BARI` (R312) -/
def execBari (h : LaneHdr) (ro rn : SReg) (s : State) : Out :=
  onPath s (fun g p =>
    let off := (sRead g p ro).toNat
    let n := (sRead g p rn).toNat
    match barPlace s g p off with
    | .inl t => trapHere s g p t
    | .inr (c, o) =>
      match bariCheck s c o n (readBar s c o) with
      | some code => trapHere s g p (barTrap s p code off (readBar s c o))
      | none =>
        let idx := ((teamOf s g).map (fun t => t.idx)).getD 0
        syncDone (addBar (writeBar s c o (bariObj n idx)) c o g.team) g p h)

/-- The check of an object that `ARRIVE`, `BWAIT` and `EXPECT` share (R313). -/
def barUsable (s : State) (c o : Nat) (b : BarObj) : Option Nat :=
  if !barValid s c o then some 0x23 else if b.broken then some 0x24 else none
/-- The arrival table takes an entry: one for the same barrier whose phase has completed, else an empty place, else the
lowest one whose phase has completed (R315). -/
def putArrival (as : List Arrival) (a : Arrival) : List Arrival :=
  let rest := as.filter (fun x => !(x.off = a.off && x.passed))
  if rest.length < 8 then rest ++ [a] else rest.eraseP (fun x => x.passed) ++ [a]
/-- Whether every entry of an arrival table is in use (R315). -/
def arrivalsFull (as : List Arrival) : Bool := decide (8 ≤ as.length) && as.all (fun x => !x.passed)
/-- The check that makes `ARRIVE` trap, if any (R313). -/
def arriveCheck (s : State) (g : Group) (c o off : Nat) (b : BarObj) : Option Nat :=
  match barUsable s c o b with
  | some code => some code
  | none =>
    if g.arrivals.any (fun a => decide (a.off = off) && !a.passed) then some 0x25
    else if b.rem = 0 then some 0x26
    else if arrivalsFull g.arrivals then some 0x27 else none

/-- Every access that a group has issued is performed (R222). -/
def allPerformed (g : Group) : Bool := g.reqs.all (fun r => !unperformed r)

/-- `ARRIVE` (R313): it goes ahead once every earlier access of the group is performed, after the clean of `.clu`. -/
def execArrive (h : LaneHdr) (ro : SReg) (s : State) : Out :=
  onPath s (fun g p =>
    let off := (sRead g p ro).toNat
    match barPlace s g p off with
    | .inl t => trapHere s g p t
    | .inr (c, o) =>
      if !allPerformed g then .next s
      else match arriveCheck s g c o off (readBar s c o) with
        | some code => trapHere s g p (barTrap s p code off (readBar s c o))
        | none =>
          let s1 := cleanScope s g .clu
          let b := readBar s1 c o
          let g1 := { g with arrivals := putArrival g.arrivals { off := off, phase := b.phase, passed := false } }
          let s2 := barSettle (setGroup s1 s.cur g1) c o { b with rem := b.rem - 1 } s.clock
          match tabFind s2.groups s.cur with
          | some g2 => syncDone s2 g2 p h
          | none => .next s2)

/-- The entry of the arrival table that a `BWAIT` takes: one whose phase is current, else one whose phase has
completed (R315). -/
def waitEntry (as : List Arrival) (off : Nat) : Option Arrival :=
  match as.find? (fun a => decide (a.off = off) && !a.passed) with
  | some a => some a
  | none => as.find? (fun a => a.off = off)

/-- A completed `BWAIT` frees the entry that it waited on: one whose phase has completed, or the one of the phase at which its object
ended (R315). -/
def dropArrival (as : List Arrival) (off phase : Nat) : List Arrival :=
  as.eraseP (fun a => decide (a.off = off) && (if phase = 65536 then a.passed else !a.passed && decide (a.phase = phase)))

/-- The arrival table once a `BWAIT` on an entry has completed: the entry is free; a sealed image keeps it, marked (R315, R356). -/
def freeArrival (sealedImage : Bool) (as : List Arrival) (off phase : Nat) : List Arrival :=
  if sealedImage then
    match as.find? (fun a => decide (a.off = off) && (if phase = 65536 then a.passed else !a.passed && decide (a.phase = phase))) with
    | some x => as.map (fun a => if a = x then { a with spent := true } else a)
    | none => as
  else dropArrival as off phase
/-- `BWAIT` (R315) -/
def execBwait (h : LaneHdr) (ro : SReg) (s : State) : Out :=
  onPath s (fun g p =>
    let off := (sRead g p ro).toNat
    match barPlace s g p off with
    | .inl t => trapHere s g p t
    | .inr (c, o) =>
      let b := readBar s c o
      match barUsable s c o b with
      | some code => trapHere s g p (barTrap s p code off b)
      | none =>
        let s1 := barMeet s c o
        let as := ((tabFind s1.groups s.cur).map (fun x => x.arrivals)).getD g.arrivals
        let entry := waitEntry as off
        let ph := match entry with
          | some a => if a.passed then 65536 else a.phase
          | none => (readBar s1 c o).phase
        laneIssue s1 { g with arrivals := as } p h (some .spad) (.bwait c o off ph entry.isSome false false) false [])

/-- The path that takes a trap of a request. -/
def waitPath (g : Group) (r : Req) : Option Path := if (findPath g r.by_).isSome then findPath g r.by_ else g.paths.head?
/-- A trap of a lane word that waits becomes due at its own word (R337). -/
def queueWait (s : State) (gid : Nat) (r : Req) (t : State → Path → TrapInfo) : State :=
  match tabFind s.groups gid with
  | none => s
  | some g =>
    match waitPath g r with
    | none => s
    | some p =>
      let q := { p with lpc := r.pc, running := true }
      let ir := match fetchLane s g q with
        | .word w => w
        | _ => 0
      queueTrap s gid g p (t { s with ir := ir } q)
/-- A trap of a lane word that waits, at its own word (R337). -/
def waitTrap (s : State) (gid : Nat) (r : Req) (t : State → Path → TrapInfo) : State := takeDue (queueWait s gid r t) gid

/-- A `BWAIT` completes: after its phase, with the invalidate of `.clu`, or with the trap of a broken or lost object, of one that is
invalid where its registration came too late (R315, R317, R382). -/
def returnBwait (s : State) (gid : Nat) (g : Group) (r : Req) : State :=
  match r.kind with
  | .bwait _ _ off ph own lost broken =>
    let drop := fun (s : State) => if own then modGroup s gid (fun g => { g with arrivals := freeArrival (outOf s g) g.arrivals off ph }) else s
    if lost || broken then
      let code := if lost && broken then 0x23 else if lost then 0x28 else 0x24
      waitTrap (finishAt (drop s) gid r.id) gid r (fun s p =>
        { mkTrap s p 1 code (BitVec.ofNat 32 off) (BitVec.ofNat 32 ph) with tlpc := r.pc })
    else if ph = 65536 then complete (invalScope (drop s) g .clu) gid r.id
    else s
  | _ => s

/-- `EXPECT` (R310, R314): the offset `0xFFFF_FFFF` only sets the target to none. -/
def execExpect (h : LaneHdr) (ro rn : SReg) (s : State) : Out :=
  onPath s (fun g p =>
    let off := (sRead g p ro).toNat
    let n := (sRead g p rn).toNat
    if off = 0xFFFFFFFF then syncDone s { g with target := none } p h
    else match barPlace s g p off with
      | .inl t => trapHere s g p t
      | .inr (c, o) =>
        let b := readBar s c o
        match barUsable s c o b with
        | some code => trapHere s g p (barTrap s p code off b)
        | none =>
          let s0 := barMeet s c o
          let b := readBar s0 c o
          if 65535 < n ∨ 2 ^ 20 < b.tiles + (n : Int) then trapHere s g p (barTrap s p 0x20 off b)
          else
            let as := ((tabFind s0.groups s.cur).map (fun x => x.arrivals)).getD g.arrivals
            let s1 := barSettle (setGroup s0 s.cur { g with target := some off, arrivals := as }) c o { b with tiles := b.tiles + n } (s.clock + 1)
            match tabFind s1.groups s.cur with
            | some g1 => syncDone s1 g1 p h
            | none => .next s1)

/-- `ROLESET` (R318) -/
def execRoleset (h : LaneHdr) (k : BitVec 2) (s : State) : Out :=
  onPath s (fun g p => syncDone s { g with role := k.setWidth 32 } p h)

/-! ### Collectives (R319 to R323) -/

/-- The operation code of a round (R320). -/
def xopNo : XOp → Nat
  | .max => 0
  | .sum => 1
  | .pair => 2
/-- The collective that a handle names for a PASID (R319). -/
def collOf (s : State) (pasid h : Nat) : Option Collective :=
  if h < 4096 then (tabFind s.collectives h).filter (fun c => c.pasid = pasid) else none
def modColl (s : State) (c : Nat) (f : Collective → Collective) : State :=
  { s with collectives := tabMod s.collectives c f }

/-- A lane's contribution: words by 2 × lane, and + 1 for the sum of a pair (R320). -/
def xContribution (g : Group) (t : Nat) (op : XOp) (v : VReg) (m : Mask) : Tab Word :=
  (List.range 96).foldl (fun tb l =>
    let on := m.getLsbD l
    match op with
    | .max => tabPut tb (2 * l) (if on then vWord g t v.toNat l else 0xFF800000)
    | .sum => tabPut tb (2 * l) (if on then vWord g t v.toNat l else 0x80000000)
    | .pair =>
      tabPut (tabPut tb (2 * l) (if on then vWord g t v.toNat l else 0xFF800000)) (2 * l + 1)
        (if on then vWord g t (v.toNat + 1) l else 0)) []

/-- `XRED` (R320): refused by the pipe while two rounds of the handle are incomplete. -/
def execXred (h : LaneHdr) (op : XOp) (rh : SReg) (v : VReg) (s : State) : Out :=
  onPath s (fun g p =>
    let hd := (sRead g p rh).toNat
    match collOf s (pasidOf s g) hd with
    | none => trapHere s g p (groupTrap s p 0x29 hd 0)
    | some c =>
      if c.completed + 2 ≤ c.issued then .next s
      else if c.failed then trapHere s g p (groupTrap s p 0x2A hd 0)
      else
        let m := activeMask g p
        let srcs := vSpan v (if op = .pair then 2 else 1)
        let bad := (maskLanes m).filter (fun l => readsBad g s.clock srcs l)
        let part := xContribution g s.clock op v (m &&& ~~~ maskOf bad)
        let mine := (c.me, xopNo op, part)
        let rs := match c.rounds.find? (fun r => r.k = c.issued) with
          | some r => c.rounds.map (fun x => if x.k = c.issued then
              { r with op := xopNo op, grp := s.cur, req := s.fresh, parts := r.parts ++ [mine] } else x)
          | none => c.rounds ++
              [{ k := c.issued, op := xopNo op, left := none, grp := s.cur, req := s.fresh, parts := [mine] }]
        let s1 := modColl s hd (fun x => { x with issued := x.issued + 1, rounds := rs })
        laneIssue s1 g p h (some .spad) (.xred hd c.issued) false bad)

/-- A contribution leaves once the group's earlier accesses are performed, after the clean of `.sys`, as a release at `.sys` (R307, R320
step 2). -/
def leaveXred (s : State) (c : Nat) (r : Round) : State :=
  if r.left.isSome then s
  else match tabFind s.groups r.grp with
    | none => modColl s c (fun x => { x with rounds := x.rounds.map (fun y =>
        if y.k = r.k then { y with left := some s.clock } else y) })
    | some g =>
      if performedBefore g r.req && !hostStale s then
        modColl (cleanScope s g .sys) c (fun x => { x with rounds := x.rounds.map (fun y =>
          if y.k = r.k then { y with left := some s.clock } else y) })
      else s

/-- 2^x rounded to FP32, for a finite x ≤ 0 or −∞ (R321). -/
def exp2Word (x : Word) : Word × Byte :=
  match valOf fmtF32 x.toNat with
  | .num d =>
    if d.neg && decide (8 < d.e + (Nat.log2 d.m : Int)) then (0, fUnderflow ||| fInexact)
    else writeMag false .rne false (magOf (dyExp2 (fxOf d))) 0
  | _ => (0, 0)

/-- The pair merge of R321. -/
def pairMerge (x y : Word × Word) : (Word × Word) × Byte :=
  let v := fun (w : Word) => readF32 false w
  let nan := valNan (v x.1) || valNan (v x.2) || valNan (v y.1) || valNan (v y.2)
  let pinf := fun (w : Word) => decide (w = 0x7F800000)
  if nan || pinf x.1 || pinf y.1 then ((nanF32, nanF32), fInvalid)
  else
    let m := (f32Max false x.1 y.1).1
    let side := fun (z : Word × Word) =>
      if z.1 = 0xFF800000 then ((.num { neg := false, m := 0, e := 0 } : Val), (0 : Byte))
      else
        let d := f32Sub2 false .rne z.1 m
        let t := exp2Word d.1
        let q := valMul (v z.2) (v t.1)
        (q.1, d.2 ||| t.2 ||| q.2)
    let a := side x
    let b := side y
    let r := writeF32 false .rne (valAdd .rne a.1 b.1)
    ((m, r.1), a.2 ||| b.2 ||| r.2)

/-- One combination *c*(x, y) of R320, on pairs whose second word is used by `.pair` alone. -/
def xCombine (op : Nat) (x y : Word × Word) : (Word × Word) × Byte :=
  if op = 0 then let r := f32Max false x.1 y.1; ((r.1, 0), r.2)
  else if op = 1 then let r := f32Add false .rne x.1 y.1; ((r.1, 0), r.2)
  else pairMerge x y

/-- A ring combines from the lowest member on (R320 step 3). -/
def xRing (op : Nat) : List (Word × Word) → (Word × Word) × Byte
  | [] => ((0, 0), 0)
  | v :: vs => vs.foldl (fun a w => let r := xCombine op a.1 w; (r.1, a.2 ||| r.2)) (v, 0)
/-- One level of a tree: neighbours combined, an unpaired value passed up. -/
def xLevel (op : Nat) : List (Word × Word) → List (Word × Word) × Byte
  | x :: y :: t => let r := xCombine op x y; let q := xLevel op t; (r.1 :: q.1, r.2 ||| q.2)
  | [x] => ([x], 0)
  | [] => ([], 0)
/-- A tree combines level by level. -/
def xTree (op : Nat) : Nat → List (Word × Word) → (Word × Word) × Byte
  | 0, vs => (vs.headD (0, 0), 0)
  | n + 1, vs =>
    match vs with
    | [] => ((0, 0), 0)
    | [v] => (v, 0)
    | _ => let q := xLevel op vs; let r := xTree op n q.1; (r.1, q.2 ||| r.2)

/-- The 192 words of a result half, and its flags (R320 step 4). -/
def xResult (c : Collective) (r : Round) : List Word × Byte :=
  let parts := (List.range c.members).filterMap (fun m => r.parts.find? (fun p => p.1 = m))
  if parts.any (fun p => p.2.1 ≠ r.op) then (List.replicate 192 nanF32, fInvalid)
  else
    let lane := fun (l : Nat) =>
      let vs := parts.map (fun p => (tabGet 0 p.2.2 (2 * l), tabGet 0 p.2.2 (2 * l + 1)))
      if c.tree then xTree r.op 7 vs else xRing r.op vs
    let rs := (List.range 96).map lane
    let fl := unionFlags (rs.map (fun x => x.2))
    (if r.op = 2 then rs.flatMap (fun x => [x.1.1, x.1.2]) else rs.map (fun x => x.1.1), fl)

/-- Core 5 writes words at a virtual address of a PASID, at home slices; a word that does not translate is not
written. -/
def writeWordsAt (s : State) (pasid va : Nat) (ws : List Word) : State :=
  (ws.mapIdx (fun i w => (i, w))).foldl (fun s e =>
    match translateNow s 0 pasid (va + 4 * e.1) .write with
    | .ok pa => homeWrite 4 s pa e.2.toNat
    | _ => s) s

/-- Every `XWAIT` that a collective's completed rounds cover completes, after an acquire at `.sys` (R322, R323). -/
def wakeXwait (s : State) (c : Nat) : State :=
  let done := ((tabFind s.collectives c).map (fun x => x.completed)).getD 0
  s.groups.foldl (fun s e => e.2.reqs.foldl (fun s r =>
    match r.kind with
    | .xwait c' k => if c' = c ∧ k ≤ done then complete (invalScope s e.2 .sys) e.1 r.id else s
    | _ => s) s) s

/-- A round ends on this module: its half is written, its `XRED` completes with the round's `invalid` and `overflow`,
and the `XWAIT`s that it was the last to hold complete (R320, R322, R323). -/
def endRound (s : State) (cn : Nat) (c : Collective) (r : Round) (ws : List Word) (fl : Byte) : State :=
  let s := writeWordsAt s c.pasid (c.result + 768 * (r.k % 2)) ws
  let s := modColl s cn (fun x => { x with
    completed := x.completed + 1, rounds := x.rounds.filter (fun y => y.k ≠ r.k) })
  let s := match tabFind s.groups r.grp with
    | some g =>
      let s := modGroup s r.grp (fun g => modReq g r.req (fun q => { q with fp := q.fp ||| (fl &&& (fInvalid ||| fOverflow)) }))
      complete (invalScope s g .sys) r.grp r.req
    | none => s
  wakeXwait s cn

/-- The oldest incomplete round of a collective that this module has contributed to. -/
def oldestRound (c : Collective) : Option Round := c.rounds.find? (fun r => r.k = c.completed && decide (r.k < c.issued))

/-- A round is still within its timeout, which runs from the clock in which this module's contribution left (R323). -/
def inTime (s : State) (c : Collective) (r : Round) : Bool :=
  match r.left with
  | some t => decide (s.clock < t + c.timeout)
  | none => false
/-- `XRED_ROUND_COMPLETE` (R320, R323, R392): every member's contribution is there within the timeout, this module's has left, and a port
still reaches the peers. -/
def execXredRoundComplete (cn : Nat) (s : State) : Out :=
  match tabFind s.collectives cn with
  | none => .next s
  | some c0 =>
    match oldestRound c0 with
    | none => .next s
    | some r0 =>
      let s := leaveXred s cn r0
      match tabFind s.collectives cn with
      | none => .next s
      | some c =>
        match oldestRound c with
        | none => .next s
        | some r =>
          if c.port.isSome && inTime s c r && (List.range c.members).all (fun m => r.parts.any (fun p => p.1 = m)) then
            let x := xResult c r
            .next (endRound s cn c r x.1 x.2)
          else .next s

/-- `XWAIT` (R322) -/
def execXwait (h : LaneHdr) (rh : SReg) (s : State) : Out :=
  onPath s (fun g p =>
    let hd := (sRead g p rh).toNat
    match collOf s (pasidOf s g) hd with
    | none => trapHere s g p (groupTrap s p 0x29 hd 0)
    | some c =>
      let now := decide (c.issued ≤ c.completed)
      laneIssue (if now then invalScope s g .sys else s) g p h (some .spad) (.xwait hd c.issued) now [])

/-- `COLLECTIVE_TIMEOUT` (R323): the collective fails on this member and the round ends with NaNs. -/
def execCollectiveTimeout (cn : Nat) (s : State) : Out :=
  match tabFind s.collectives cn with
  | none => .next s
  | some c =>
    match oldestRound c with
    | none => .next s
    | some r =>
      match r.left with
      | some t =>
        if t + c.timeout ≤ s.clock then
          .next (endRound (modColl s cn (fun x => { x with failed := true })) cn c r (List.replicate 192 nanF32) fInvalid)
        else .next s
      | none => .next s

end Sys2Proof.Machine
end

