-- ==== Sys2Proof/Machine/Append.lean ====
section
/-! DEFINITION. The append engine's instructions and events, and stall tokens of the flash tier (R278 to R289). -/
namespace Sys2Proof.Machine

/-- A trap that names a segment base (R335). -/
def segTrap (s : State) (p : Path) (code base : Nat) : TrapInfo :=
  mkTrap s p 1 code (BitVec.ofNat 32 base) (BitVec.ofNat 32 (base / 2 ^ 32))
/-- The open or sealed segment at a base for a group (check 1 of R285). -/
def segFor (s : State) (g : Group) (base : Nat) : Option (Nat × Segment) :=
  (segBase s (pasidOf s g) base).filter (fun e => e.2.state ≠ 3)

/-- `APPEND` (R285), its checks in order. -/
def execAppend (h : LaneHdr) (rg ra rn : SReg) (s : State) : Out :=
  onPath s (fun g p =>
    let base := (sPair g p rg).toNat
    let a := (sPair g p ra).toNat
    let n := (sRead g p rn).toNat
    if 4096 ≤ appendsHeld s then .next s
    else match segFor s g base with
      | none => trapHere s g p (segTrap s p 0x1B base)
      | some (name, x) =>
        if x.state = 2 ∨ x.sealing then trapHere s g p (segTrap s p 0x1C base)
        else if n = 0 ∨ 1048576 < n ∨ n % 4 ≠ 0 then trapHere s g p (segTrap s p 0x1D base)
        else if a % 4 ≠ 0 then trapHere s g p (mkAddrTrap s p 1 0x03 a 0xFFFF)
        else match sourcePlaces s g p a n with
          | .trap t => trapHere s g p t
          | .miss va => .next (needWalk s s.cur (putPath g p) va)
          | .ok ls =>
            if 2 ^ x.z < x.tail + recordSize n then trapHere s g p (segTrap s p 0x1E base)
            else
              let g1 := { g with appends := tabPut g.appends name x.next }
              laneIssueAt (acceptRecord s name n) g1 p h (some .flash) (.append name x.next (ls.map (fun e => e.2))) false [] a)

/-- The payload of an `APPEND` is read, after the conditions of R241's start rule, and it completes (R285). -/
def returnAppend (s : State) (gid : Nat) (g : Group) (r : Req) : State :=
  match r.kind with
  | .append seg sq src =>
    if performedBefore g r.id then
      complete (takeRecord s g seg sq src) gid r.id
    else s
  | _ => s

/-- `APFENCE` (R287): with no earlier append of the group to the segment it completes at once. -/
def execApfence (h : LaneHdr) (d rg : SReg) (s : State) : Out :=
  onPath s (fun g p =>
    let base := (sPair g p rg).toNat
    match segFor s g base with
    | none => trapHere s g p (segTrap s p 0x1B base)
    | some (name, x) =>
      let sq := tabGet 0 g.appends name
      if sq = 0 then
        let r := sWritePair (g, p) d (BitVec.ofNat 64 x.durable)
        laneIssue s r.1 r.2 h (some .flash) (.apfence name 0 d) true []
      else laneIssue s g p h (some .flash) (.apfence name sq d) false [])

/-- An `APFENCE` whose appends are durable writes *D* and completes (R287). -/
def returnApfence (s : State) (gid : Nat) (g : Group) (r : Req) : State :=
  match r.kind with
  | .apfence seg sq d =>
    match tabFind s.segments seg with
    | some x =>
      if sq ≤ x.durable then
        let p := (findPath g r.by_).getD (pathNew 8 0 0 0)
        let w := sWritePair (g, p) d (BitVec.ofNat 64 x.durable)
        complete (setGroup s gid (putPath w.1 w.2)) gid r.id
      else s
    | none => s
  | _ => s

/-- `SEAL` (R289): at a sealed segment it completes at issue. -/
def execSeal (h : LaneHdr) (rg : SReg) (s : State) : Out :=
  onPath s (fun g p =>
    let base := (sPair g p rg).toNat
    match segFor s g base with
    | none => trapHere s g p (segTrap s p 0x1B base)
    | some (name, x) =>
      if x.state = 2 then laneIssue s g p h (some .flash) (.seal name) true []
      else laneIssue (modSeg s name (fun y => { y with sealing := true })) g p h (some .flash) (.seal name) false [])

/-- A `SEAL` whose records are durable seals, drops the segment's lines and completes (R289). -/
def returnSeal (s : State) (gid : Nat) (g : Group) (r : Req) : State :=
  match r.kind with
  | .seal seg =>
    let s := sealDue s seg
    match tabFind s.segments seg with
    | some x => if x.state = 2 then complete (dropSegLines s (teamCores s g.team) x) gid r.id else s
    | none => s
  | _ => s

/-- `RECORD_DURABLE` (R288): the next record in sequence order, once its payload has been read. -/
def execRecordDurable (seg : Nat) (s : State) : Out :=
  match tabFind s.segments seg with
  | some g =>
    if g.state = 1 && decide (g.durable + 1 < g.next) && !((g.durable + 1) ∈ g.unread) then
      .next (sealDue (settleReplies (modSeg s seg (fun x => { x with durable := x.durable + 1 }))) seg)
    else .next s
  | none => .next s

/-- `SEGMENT_FAILURE` (R282): Jasper can no longer place the records. -/
def execSegmentFailure (seg : Nat) (s : State) : Out := .next (failSegment s seg)

/-! ### Stall tokens (R115, R225, R278, R279) -/

/-- Whether a place is read from the flash tier itself. -/
def onFlash (s : State) (l : Loc) : Bool :=
  match l with
  | .phys pa => tierOf pa = .flash && redirect s pa = pa
  | .spad _ _ => false
/-- The first element of a list of operand elements that awaits a flash line which its column cache lacks: its address. -/
def operandWait (s : State) (e : GangEnt) (v : View) (ls : List (Nat × Nat × List Loc)) : Option Nat :=
  (ls.find? (fun x => x.2.2.any (fun l => onFlash s l && match l with
    | .phys pa => (cfind (coreOf s (serveTeam s e.team pa)).col (pa / 4)).isNone
    | .spad _ _ => false))).map (fun x => elemAddr v (opIndex v x.1 x.2.1))
/-- The address of a flash line that a gang instruction of a core needs next: an operand line of its next block (R253), or a line that
the next segment of its drain reads (R273). -/
def gangWait (s : State) (c : Nat) (e : GangEnt) : Option Nat :=
  if !e.stepsDone then
    match e.a, e.b with
    | some a, some b =>
      (match operandPlaces s e a b e.kb with
       | .ok x =>
         (match operandWait s e a x.1 with
          | some va => some va
          | none => operandWait s e b x.2)
       | .error _ => none)
    | _, _ => none
  else
    let seg := match (coreOf s c).drain with
      | some d => if d.ent = e.id ∧ !d.inSeg then some (d.row, d.seg) else none
      | none => (regionOf e).head?
    match seg with
    | some (i, g) =>
      (((drainRunWords e.prog).filterMap drainAcc).flatMap (segAccess e.regs e.n i g)).findSome? (fun r =>
        match runPlaces s e.team r with
        | .ok ls => if !r.2.2.2 && ls.any (onFlash s) then some r.2.1 else none
        | .error _ => none)
    | none => none
/-- The address of a flash line that a submission reads next (R236, R238). -/
def subWait (s : State) (st : Nat) (x : Sub) : Option Nat :=
  let k := teamKernel s (x.team.getD 0)
  let hit := fun (r : Except (Nat × Nat) (List Loc)) (va : Nat) => match r with
    | .ok ls => if ls.any (onFlash s) then some va else none
    | .error _ => none
  match x.work with
  | .bytes src _ _ =>
    (match enginePlace s st x.pasid k (x.team.getD 0) (spaceNo src) (if spaceNo src = 0 then src else src % 2 ^ 32) .read with
     | .at_ l => if onFlash s l then some src else none
     | .bad _ => none)
  | .slices ss =>
    (match ss.find? (fun y => !y.arrived) with
     | some sl => ((positions (boxView sl.dst)).drop sl.pos).head?.bind (fun q =>
         hit (elemPlaces s st x.pasid k sl.src q .read) (elemAddr sl.src q))
     | none => none)
  | .gather _ rows rb _ bs =>
    (match bs.find? (fun b => !b.arrived) with
     | some b => b.addr.bind (fun a => (List.range (rows * rb)).findSome? (fun i =>
         if i % 128 = 0 then hit (gatherPlaces s st x.pasid b a (a + i) 1) (a + i) else none))
     | none => none)
  | _ => none
/-- Whether a request still awaits a line of the flash tier, and the address that it names there. -/
def flashWait (s : State) (g : Group) (r : Req) : Option Dword :=
  match r.kind with
  | .mem .ld _ _ _ _ _ _ accs => (accs.find? (fun a => onFlash s a.loc)).map (fun a => BitVec.ofNat 64 a.va)
  | .sload _ _ l => if onFlash s l then some r.addr else none
  | .scld _ src | .append _ _ src => if src.any (onFlash s) then some r.addr else none
  | .lock true ls => if ls.any (fun l => onFlash s (.phys (128 * l))) then some r.addr else none
  | .gang e _ =>
    (((coreOf s g.core).seq.find? (fun x => x.id = e)).bind (gangWait s g.core)).map (BitVec.ofNat 64)
  | .job _ _ | .cpyc _ =>
    let st := stackNo g.core
    (((stackOf s st).subs.find? (fun x => x.by_.any (fun e => decide (e.2 = r.id)))).bind (subWait s st)).map (BitVec.ofNat 64)
  | _ => none
/-- The requests that a token holds with one: those of every member of a gang instruction (R253), else that one. -/
def tokenMates (s : State) (gid : Nat) (g : Group) (r : Req) : List (Nat × Nat) :=
  match r.kind with
  | .gang e _ =>
    (match (coreOf s g.core).seq.find? (fun x => x.id = e) with
     | some x => x.members
     | none => [(gid, r.id)])
  | _ => [(gid, r.id)]

/-- A storage wait begins for a group's request: its stack counts it (R333). -/
def countWait (s : State) (g : Group) (r : Req) : State :=
  if r.stallAt ≠ 0 then s
  else modStack s (stackNo g.core) (fun k => { k with life := { k.life with storageWaits := k.life.storageWaits + 1 } })
/-- A line that a `PREF` has still to fill from the flash tier: its column cache lacks a word of it (R225). -/
def prefWaits (s : State) (g : Group) (l : Nat) : Bool :=
  let c := serveCore s g (128 * l)
  onFlash s (.phys (128 * l)) && !isHome c (128 * l) && (List.range 32).any (fun i => (cfind (coreOf s c).col (32 * l + i)).isNone)
/-- `STALL_TOKEN` (R225, R236, R253, R273, R279): the request is held, and counted in its stack (R333); a `PREF` drops the line. -/
def execStallToken (gid id : Nat) (s : State) : Out :=
  match (tabFind s.groups gid).bind (fun g => (findReq g id).map (fun r => (g, r))) with
  | none => .next s
  | some (g, r) =>
    match r.kind with
    | .pref lines =>
      .next (setGroup s gid (modReq g id (fun q => { q with
        kind := .pref (lines.eraseP (prefWaits s g)) })))
    | _ =>
      match flashWait s g r with
      | some va =>
        .next ((tokenMates s gid g r).foldl (fun s m => modGroup s m.1 (fun g => modReq g m.2 (fun q => { q with
          stalled := true, addr := va, stallAt := if q.stallAt = 0 then s.clock + 1 else q.stallAt }))) (countWait s g r))
      | none => .next s

/-- `STALL_RELEASE` (R279): the pages are free and the request is repeated. -/
def execStallRelease (gid id : Nat) (s : State) : Out :=
  match (tabFind s.groups gid).bind (fun g => (findReq g id).map (fun r => (g, r))) with
  | none => .next s
  | some (g, r) =>
    .next ((tokenMates s gid g r).foldl (fun s m => modGroup s m.1 (fun g => modReq g m.2 (fun q => { q with stalled := false }))) s)

end Sys2Proof.Machine
end

