-- ==== Sys2Proof/Machine/Wait.lean ====
section
/-! DEFINITION. Traps that are taken at instructions which wait, their order, and what leaving a handler lets happen (R115, R123, R127,
R130, R160, R279, R337 to R339, R344, R347). -/
namespace Sys2Proof.Machine

/-! ### Waiting for a load (R115, R161, R279) -/

/-- Whether an instruction waits for a request's completion (R115): on its flag, its counter, a scalar register that it names, the mask
for a lane word, or in a Garnet context a vector register (R102, R123, R149, R161). -/
def waitsOn (g : Group) (p : Path) (r : Req) (i : Instr) : Bool :=
  let flags := fun (m : BitVec 12) =>
    decide (r.flag.toNat < 12) && m.getLsbD r.flag.toNat && !g.flags.getLsbD r.flag.toNat &&
      decide (tabFind g.owner r.flag.toNat = some r.id)
  match i with
  | .waitf m => flags m
  | .waitk k q => r.path = some k && decide ((sRead g p q).toNat < counter g k)
  | _ =>
    (match hdrOf i with
     | some h => flags h.wait || maskRegs.any (writesScalar r.kind)
     | none => false) || (sNamed i).any (writesScalar r.kind) ||
      (g.garnet.isSome && (vNames i).any (fun v => pendsReg v r))

/-- The next instruction of a path's stream, if it can be read. -/
def nextInstr (s : State) (g : Group) (p : Path) (lane : Bool) : Option (Instr × BitVec 96 × Path) :=
  let p := if lane then startRun p else p
  if lane && !p.running then none
  else match (if lane then fetchLane s g p else fetchScalar s g p) with
    | .word w => (decodeFor (kernOf s g) lane w).map (fun i => (i, w, p))
    | _ => none

/-- The path that waits at an instruction which the request's completion would satisfy, lowest entry first. -/
def waiterOf (s : State) (g : Group) (r : Req) : Option (Path × BitVec 96 × Bool) :=
  g.paths.findSome? (fun p => if hasDue g p.id then none else
    match nextInstr s g p true with
    | some (i, w, q) => if waitsOn g q r i then some (q, w, true) else
        match nextInstr s g p false with
        | some (j, w, q) => if waitsOn g q r j then some (q, w, false) else none
        | none => none
    | none =>
      match nextInstr s g p false with
      | some (j, w, q) => if waitsOn g q r j then some (q, w, false) else none
      | none => none)
/-- A request's storage timeout has expired (R279). -/
def waitExpired (s : State) (g : Group) (r : Req) : Bool :=
  r.stallAt ≠ 0 && !r.late && g.susp ≠ .halted && decide (r.stallAt - 1 + s.storageTimeout ≤ s.clock)
/-- The trap of a storage timeout at an instruction that waits (R335, R337, R340). -/
def timeoutTrap (s : State) (p : Path) (w : BitVec 96) (lane : Bool) (r : Req) : TrapInfo :=
  { mkAddrTrap { s with ir := w } p (if lane then 1 else 0) 0x1A r.addr.toNat 0xFFFF with aux := r.pc.setWidth 64 }

/-! ### One trap at a time (R339) -/

/-- The paths of a group on which a trap taken at a waiting instruction is due. -/
def trapsDue (s : State) (gid : Nat) (g : Group) : List Nat :=
  (List.range 4).filterMap (fun t => if lateRoom s gid g t then none else (timerExpired s g t).map (fun p => p.id)) ++
    g.reqs.filterMap (fun r => match r.kind with
      | .bwait _ _ _ _ _ lost broken => if (lost || broken) && !r.stalled then (waitPath g r).map (fun p => p.id) else none
      | _ => if waitExpired s g r then (waiterOf s g r).map (fun e => e.1.id) else none)
/-- Outside a handler the lowest split-table entry is served first: this one waits for a lower one. -/
def waitsTurn (s : State) (gid : Nat) (g : Group) (pid : Nat) : Bool :=
  g.handler.isNone && (trapsDue s gid g).any (fun q => decide (q < pid))

/-- A context is recalled at the instruction that waits for storage (R123): its loads that a stall token holds stay outstanding for
its lane in the group, which they reach through no flag or counter. -/
def recallStalled (s : State) (ctx : Nat) (c : Group) (i : Garnet) (id : Nat) : State :=
  let moved := c.reqs.map (fun (r : Req) => { r with path := none, flag := 15, late := decide (r.id = id) || r.late })
  let s := recallCtx (setGroup s ctx { c with reqs := [] }) ctx
  modGroup s i.parent (fun g => { g with reqs := g.reqs ++ moved })
/-- The path of a group that holds a lane. -/
def pathOfLane (g : Group) (l : Nat) : Option Path := g.paths.find? (fun q => q.owned.getLsbD l)
/-- The recall entry that holds a lane bears a trap, which its path takes once it is one (R123). -/
def entryTrap (g : Group) (l : Nat) (t : TrapInfo) : Group :=
  { g with recalls := g.recalls.map (fun e => if e.mask.getLsbD l then { e with trap := some t } else e) }

/-- `STORAGE_TIMEOUT` (R115, R123, R279, R337, R340): the trap is taken at the instruction that waits for the load, which stays
outstanding; a Garnet context is recalled there and the new path takes it, once it has an entry of the split table. -/
def execStorageTimeout (gid id : Nat) (s : State) : Out :=
  match (tabFind s.groups gid).bind (fun g => (findReq g id).map (fun r => (g, r))) with
  | none => .next s
  | some (g, r) =>
    if !waitExpired s g r then .next s
    else match waiterOf s g r with
      | none => .next s
      | some (p, w, lane) =>
        match g.garnet with
        | some i =>
          if !(g.reqs.all (fun q => q.stalled)) || !recallFree s { g with reqs := [] } then .next s
          else
            let s := recallStalled s gid (putPath g p) i id
            match tabFind s.groups i.parent with
            | some x =>
              match pathOfLane x i.lane with
              | some q => .next (dueTrap s i.parent x q (timeoutTrap s q w lane r))
              | none => .next (setGroup s i.parent (entryTrap x i.lane (timeoutTrap s p w lane r)))
            | none => .next s
        | none =>
          if waitsTurn s gid g p.id then .next s
          else
            .next (dueTrap s gid (putPath (modReq g id (fun q => { q with late := true })) p) p (timeoutTrap s p w lane r))

/-- `REJOIN_TIMEOUT` (R127): the late lanes are recalled if the table has room for all of them, else the waiting path takes
`rejoin_overdue`, behind the traps of lower entries. -/
def execRejoinTimeout (gid t : Nat) (s : State) : Out :=
  match tabFind s.groups gid with
  | some g =>
    match timerExpired s g t with
    | some p =>
      if !lateRoom s gid g t && waitsTurn s gid g p.id then .next s else .next (takeDue (timerActs s gid t) gid)
    | none => .next s
  | none => .next s

/-! ### Leaving a handler (R130, R160, R338, R344, R347) -/

/-- The contexts that serve a group. -/
def contextsFor (s : State) (gid : Nat) : List Nat :=
  (s.groups.filter (fun e => (e.2.garnet.map (fun i => i.parent)) = some gid)).map (fun e => e.1)
/-- What a handler held back takes place as it ends: recalls, timer expiries, then the next pending trap. -/
def afterHandler (s : State) (gid : Nat) : State :=
  takeDue ((List.range 4).foldl (fun s t => timerActs s gid t) ((contextsFor s gid).foldl recallDue s)) gid
/-- `ERET` (R347): illegal outside a handler. -/
def execEret (s : State) : Out :=
  onPath s (fun g p =>
    match g.handler with
    | none => trapHere s g p (illegalTrap s p false)
    | some h => .next (afterHandler (leaveHandler s s.cur g p h) s.cur))

/-- `EXIT` ends the path, and with it a handler (R160, R338). -/
def execExit (s : State) : Out :=
  onPath s (fun g p =>
    let g1 := delPath g p.id
    let g1 := if g.handler.isSome then endHandler g1 s.clock else g1
    let s1 := setGroup s s.cur (drainRecalls (formAll s (drainRecalls g1)))
    let s2 := if g.handler.isSome then afterHandler s1 s.cur else takeDue s1 s.cur
    .next (tryRetire s2 s.cur))

end Sys2Proof.Machine
end

