-- ==== Sys2Proof/Machine/Requests.lean ====
section
/-! DEFINITION. The return of an outstanding request (R109, R111, R228). -/
namespace Sys2Proof.Machine

/-- Requests whose completion an image that is being saved or is out takes: they set a flag and change no register (R356). -/
def imageTakes (k : ReqKind) : Bool :=
  match k with
  | .bwait _ _ _ _ _ _ _ | .append _ _ _ | .seal _ => true
  | _ => false
/-- The group's image is sealed: its cluster is being saved, is out, or is being restored (R352, R358). -/
def imageSealed (s : State) (g : Group) : Bool :=
  match clusterOf s g with
  | some c => c.state = .saving || c.state = .out || c.state = .restoring
  | none => false

/-- `MEMORY_REQUEST_RETURN` (R228): what is left of the request is performed, its destination written, its counter lowered
in order and its flag set; a request held by a stall token, or whose conditions do not yet hold, stays. -/
def execMemoryRequestReturn (gid id : Nat) (s : State) : Out :=
  match (tabFind s.groups gid).bind (fun g => (findReq g id).map (fun r => (g, r))) with
  | none => .next s
  | some (g, r) =>
    if r.stalled || (imageSealed s g && !imageTakes r.kind) then .next s
    else match r.kind with
      | .mem _ _ _ _ _ _ _ _ => .next (returnMem s gid r)
      | .sload _ _ _ | .sstore _ _ _ => .next (returnScalarReq s gid g r)
      | .fence _ | .cln _ | .inv _ => .next (returnFence s gid g r)
      | .pref _ | .lock _ _ => .next (returnLines s gid g r)
      | .scld _ _ | .scldRead _ _ => .next (returnScld s gid g r)
      | .accrd _ _ _ | .accwr _ _ => .next (returnAcc s gid g r)
      | .bwait _ _ _ _ _ lost broken =>
        if (lost || broken) && ((waitPath g r).map (fun p => waitsTurn s gid g p.id)).getD false then .next s
        else .next (returnBwait s gid g r)
      | .append _ _ _ => .next (returnAppend s gid g r)
      | .apfence _ _ _ => .next (returnApfence s gid g r)
      | .seal _ => .next (returnSeal s gid g r)
      | .sfu d _ => if d ≤ s.clock then .next (complete s gid id) else .next s
      | .job _ _ | .cpyc _ | .taskwait _ _ | .gang _ _ | .tktake _ | .tkpass _ | .xred _ _ | .xwait _ _ => .next s

end Sys2Proof.Machine
end

