-- ==== Sys2Proof/Machine/Image.lean ====
section
/-! DEFINITION. Context images: their frames, their bytes, and how core 2 writes and reads them (R70, R194, R352 to R357, R371). -/
namespace Sys2Proof.Machine

/-! ### Frames (R70, R194) -/

/-- Frames of a context image (R70). -/
def imageSize (k : Kernel) : Nat := (8192 + 384 * k.regs + 4095) / 4096
/-- Frames of the private part of a column, below the highest third, of which a promotion pool may take up to all. DESIGN CHOICE: the
spec says only that images lie in the device-private part of their column (log 82). -/
def privateFrames : Nat := Config.stackBytes / 65536 * 2 / 3
/-- The HBM address of the `i`-th frame of a core's column, counted down from the top of its private part (R194). -/
def columnFrame (c i : Nat) : Nat := stackNo c * Config.stackBytes + ((privateFrames - 1 - i) * 16 + c % 16) * 4096
/-- The frames of a group's context image, as device-private addresses (R70, R194). -/
def imageFrames (s : State) (g : Group) : List Nat :=
  match g.image with
  | some i => (List.range (imageSize (kernOf s g))).map (fun j => Config.privBase + columnFrame g.core (i + j))
  | none => []
/-- The address of a byte of a group's context image. -/
def imagePa (g : Group) (off : Nat) : Option Nat :=
  g.image.map (fun i => Config.privBase + columnFrame g.core (i + off / 4096) + off % 4096)
/-- Whether a byte of HBM lies in a context image or in a team save area (R54, R70, R354). -/
def imageHolds (s : State) (a : Nat) : Bool :=
  s.groups.any (fun e => (imageFrames s e.2).any (fun f => (f - Config.privBase) / 4096 = a / 4096)) ||
    s.teams.any (fun e => match e.2.save with
      | some (q, i, n) => (List.range n).any (fun j => columnFrame q (i + j) / 4096 = a / 4096)
      | none => false)

/-! ### Bytes (R353) -/

/-- Byte `i` of a word. -/
def wordByte (w : Word) (i : Nat) : Byte := (w >>> (8 * i)).setWidth 8
/-- A byte of a list of words. -/
def wordsByte (ws : List Word) (off : Nat) : Byte := wordByte ((ws[off / 4]?).getD 0) (off % 4)
def kpaths : List KPath := [.l1, .st, .col, .spad, .flash, .acc]
/-- The word at `0x180`: flags that are set, and flags whose last owner is outstanding (R353). -/
def flagsWord (g : Group) : Word :=
  g.flags.setWidth 32 ||| ((List.range 12).foldl (fun (w : Word) f =>
    if (tabFind g.owner f).isSome then w ||| (1#32 <<< (12 + f)) else w) 0)
/-- The state word at `0x1B4` (R353). -/
def imageState (s : State) (g : Group) : Word :=
  let pending : Option TrapRec := match g.susp with
    | .record t => s.stks.findSome? (fun (e : Nat × Stack) => (e.2.pending ++ e.2.waitQ ++ e.2.trapQ).find? (fun r => r.tag = t))
    | _ => none
  let cls := (pending.or (g.reply.map (fun e => e.1))).map (fun r => r.info.cls)
  BitVec.ofNat 32 ((if g.handler.isSome then 1 else 0) + (if cls = some 1 then 2 else 0) + (if g.reply.isSome then 4 else 0) +
    (if cls = some 3 then 8 else 0) + (if g.due.any (fun d => d.info.code = 0x1A) then 16 else 0))
/-- An arrival entry as 8 bytes (R353): valid, and whether a `BWAIT` waits on it. -/
def arrivalWords (off phase : Nat) (waits : Bool) : List Word :=
  [BitVec.ofNat 32 off, BitVec.ofNat 32 (phase % 65536 + 65536 + (if waits then 131072 else 0))]
/-- The arrival table (R351, R353): the group's entries, and a `BWAIT` that waits with none of its own. -/
def arrivalTable (g : Group) : List Word :=
  let waits := fun (off : Nat) => g.reqs.any (fun r => match r.kind with
    | .bwait _ _ w _ own _ _ => own && decide (w = off)
    | _ => false)
  g.arrivals.flatMap (fun a => arrivalWords a.off a.phase (a.spent || waits a.off)) ++
    g.reqs.flatMap (fun r => match r.kind with
      | .bwait _ _ w ph false _ _ => arrivalWords w ph true
      | _ => [])
/-- A byte of a group's image; `draw` numbers the bytes of its opaque block (R117, R353). -/
def imageByte (s : State) (g : Group) (draw off : Nat) : Byte :=
  if off < 0x100 then (if off / 4 < 61 then wordByte (tabGet 0 g.sreg (off / 4)) (off % 4) else 0)
  else if off < 0x180 then
    let n := (off - 0x100) / 16
    let b := (off - 0x100) % 16
    if n = 0 ∨ 12 ≤ b then 0 else ((tabGet 0 g.pred n) >>> (8 * b)).setWidth 8
  else if off < 0x184 then wordByte (flagsWord g) (off - 0x180)
  else if off < 0x18A then BitVec.ofNat 8 (((kpaths[off - 0x184]?).map (counter g)).getD 0)
  else if off < 0x190 then 0
  else if off < 0x1B4 then
    wordsByte [g.ejth, g.rjto, g.role, g.gang, ((g.paths.head?).map (fun p => p.sig)).getD 0, g.fpflags.setWidth 32,
      maskPart g.dead 0, maskPart g.dead 1, maskPart g.dead 2] (off - 0x190)
  else if off < 0x1B8 then wordByte (imageState s g) (off - 0x1B4)
  else if off < 0x1BC then wordByte (BitVec.ofNat 32 g.ncpyc) (off - 0x1B8)
  else if off < 0x1C0 then wordByte ((g.reply.map (fun e => e.2)).getD 0) (off - 0x1BC)
  else if off < 0x1D4 then wordsByte [g.tcause, g.tval0, g.tval1, g.tspc, g.tlpc] (off - 0x1C0)
  else if off < 0x200 then 0
  else if off < 0x240 then wordsByte (arrivalTable g) (off - 0x200)
  else if off < 0x1000 then 0
  else if off < 0x2000 then Config.divergenceByte (draw + (off - 0x1000))
  else
    let v := (off - 0x2000) / 384
    let b := (off - 0x2000) % 384
    wordByte (tabGet 0 g.vreg (vKey v (b / 4))) (b % 4)

/-- Write a byte of an image. -/
def imagePut (g : Group) (s : State) (off : Nat) (b : Byte) : State :=
  match imagePa g off with
  | some pa => homePut s pa b
  | none => s
/-- `n` bytes of an image as a number. -/
def imageNat (s : State) (g : Group) (n off : Nat) : Nat :=
  bytesNat (fun o => ((imagePa g o).map (homeByte s)).getD 0) n off
/-- Whether a byte of an image lies in a poisoned codeword. -/
def imagePoison (s : State) (g : Group) (off : Nat) : Bool := ((imagePa g off).map (homePoison s)).getD false
/-- Core 2 writes `n` bytes of the fixed part of a group's image (R70, R352, R353). -/
def writeFixed (s : State) (gid n : Nat) : State :=
  match tabFind s.groups gid with
  | some g =>
    if g.image.isNone then s
    else
      let t := (List.range n).foldl (fun t off => imagePut g t off (imageByte s g s.draws off)) s
      freshCodewords { t with draws := s.draws + 4096 } n (imagePa g)
  | none => s
/-- The bytes of the fixed part that an event can change in a sealed image (R356). -/
def eventBytes : Nat := 0x240
/-- Core 2 applies the events of a sealed group to its image (R356). -/
def syncImage (s : State) (gid : Nat) : State :=
  match tabFind s.groups gid with
  | some g =>
    if g.resident then s
    else freshCodewords ((List.range eventBytes).foldl (fun t off => imagePut g t off (imageByte s g s.draws off)) s) eventBytes (imagePa g)
  | none => s
/-- The frames of an image hold zeros and no poison (R70). -/
def clearImage (s : State) (gid : Nat) : State :=
  match tabFind s.groups gid with
  | some g =>
    let inside := fun (a : Nat) => (imageFrames s g).any (fun f => (f - Config.privBase) / 4096 = a / 4096)
    { s with mem := s.mem.filter (fun e => !inside e.1), poison := s.poison.filter (fun w => !inside (32 * w)) }
  | none => s
/-- An image's bytes, with the poison of its codewords, go to the frames of another (R357). -/
def copyImage (s : State) (old new : Group) (bytes : Nat) : State :=
  let t := (List.range bytes).foldl (fun t off => imagePut new t off (BitVec.ofNat 8 (imageNat s old 1 off))) s
  (List.range (bytes / 32)).foldl (fun t i =>
    match imagePa new (32 * i) with
    | some pa => { t with poison := if imagePoison s old (32 * i) then setIns t.poison (codeword t pa) else setDel t.poison (codeword t pa) }
    | none => t) t

/-- The scalar registers, predicates, flags and special registers that the fixed part of an image holds (R353); reserved bits of `role`
and `gang` read as zero (R7, R246, R318). -/
def fixedFromImage (rd : Nat → Nat → Nat) (g : Group) : Group :=
  let w := fun (off : Nat) => BitVec.ofNat 32 (rd 4 off)
  { g with
    sreg := (List.range 61).foldl (fun t i => tabSet 0 t i (w (4 * i))) [],
    pred := (List.range 7).foldl (fun t i => tabSet 0 t (i + 1) (BitVec.ofNat 96 (rd 12 (0x100 + 16 * (i + 1))))) [],
    flags := BitVec.ofNat 12 (rd 4 0x180), ejth := w 0x190, rjto := w 0x194, role := w 0x198 &&& 3, gang := w 0x19C &&& 0x07FFFFFF,
    fpflags := BitVec.ofNat 8 (rd 4 0x1A4), dead := BitVec.ofNat 96 (rd 12 0x1A8), ncpyc := rd 4 0x1B8,
    tcause := w 0x1C0, tval0 := w 0x1C4, tval1 := w 0x1C8, tspc := w 0x1CC, tlpc := w 0x1D0 }
/-- Core 2 reads the fixed part of a group's image (R353, R357); a poisoned codeword of it is `uncorrectable`, class 2 (R371). -/
def readFixed (s : State) (gid : Nat) : State :=
  match tabFind s.groups gid with
  | some g =>
    if g.image.isNone then s
    else if (List.range 18).any (fun i => imagePoison s g (32 * i)) then
      fatal s gid g { mkTrap { s with ir := 0 } (g.paths.head?.getD (pathNew 8 0 0 0)) 3 0x4F 0 0 with cls := 2 }
    else setGroup s gid (fixedFromImage (imageNat s g) g)
  | none => s

/-- The byte of an image where the words of a line of the register cache begin (R70, R353). -/
def lineOffset (line : Nat) : Nat := 0x2000 + 384 * (line / 3) + 128 * (line % 3)
/-- A line of the register cache is written back to its group's image (R112, R352). -/
def writeLine (s : State) (g : Group) (line : Nat) : State :=
  freshCodewords ((List.range 32).foldl (fun s i =>
    match imagePa g (lineOffset line + 4 * i) with
    | some pa => homeWrite 4 s pa (tabGet 0 g.vreg (vKey (line / 3) (line % 3 * 32 + i))).toNat
    | none => s) s) 128 (fun off => imagePa g (lineOffset line + off))
/-- A line comes from its image: words of a poisoned codeword are poisoned (R370). -/
def poisonLine (s : State) (g : Group) (line : Nat) : Group :=
  (List.range 32).foldl (fun x i =>
    if imagePoison s g (lineOffset line + 4 * i) then
      { x with vpoison := setIns x.vpoison (vKey (line / 3) (line % 3 * 32 + i)) } else x) g
/-- A line leaves the register cache; its words are in the image (R112, R352). -/
def dropLine (s : State) (gid line : Nat) : State :=
  match tabFind s.groups gid with
  | some g =>
    setGroup (writeLine s g line) gid { g with lines := g.lines &&& ~~~ (1#1152 <<< line), lineUse := tabDel g.lineUse line }
  | none => s
/-- Every line of a group leaves the register cache (R352). -/
def dropLines (s : State) (gid : Nat) : State :=
  match tabFind s.groups gid with
  | some g => ((List.range 1152).filter (fun l => g.lines.getLsbD l)).foldl (fun s l => dropLine s gid l) s
  | none => s
/-- The lines that sealed groups left on a core go to their images (R352). -/
def dropSealed (s : State) (c : Nat) : State :=
  (s.groups.filter (fun e => decide (e.2.core = c) && !e.2.resident)).foldl (fun s e => dropLines s e.1) s

end Sys2Proof.Machine
end

