-- ==== Sys2Proof/Machine/Translate.lean ====
section
/-! DEFINITION. Walks, register-line and instruction-fetch misses, invalidation of translations, and promotion between
tiers (R103, R112, R206, R209 to R211, R386). -/
namespace Sys2Proof.Machine

/-! ### Misses -/

/-- Answer the groups whose misses joined a walk: a suspended group re-issues, and a fault is kept for it (R206, R207). -/
def answerWalk (s : State) (joined : List Walk) (w : Option Walked) : State :=
  joined.foldl (fun s x => modGroup s x.grp (fun g =>
    { g with susp := if g.susp = .walk then .run else g.susp, walked := if w.isSome then w else g.walked })) s
/-- A miss that found the queue of its stack full tries again once a walk has ended (R206). -/
def retryMisses (s : State) (st : Nat) : State :=
  { s with groups := s.groups.map (fun e =>
      if e.2.susp = .walk ∧ stackNo e.2.core = st ∧ (stackOf s st).walks.all (fun w => decide (w.grp ≠ e.1)) then
        (e.1, { e.2 with susp := .run })
      else e) }
/-- `TRANSLATION_WALK` (R206, R207): the oldest walk of a stack ends; every miss that joined it is answered, the second
level, the non-leaf entries and the core TLBs take what it found, and a fault is kept for the instruction that re-issues. A walk for
a closing PASID is dropped (R386). -/
def execTranslationWalk (st : Nat) (s : State) : Out :=
  let k := stackOf s st
  match k.walks with
  | [] => .next s
  | w :: _ =>
    let same := fun (x : Walk) => decide (x.pasid = w.pasid) && decide (x.vpn = w.vpn)
    let joined := k.walks.filter same
    let s := setStack s st { k with walks := k.walks.filter (fun x => !same x) }
    if closingP s w.pasid then .next (retryMisses s st)
    else match walkStack s st w.pasid (w.vpn * 4096) with
      | .leaf e =>
        let s := walkLeaves s st w.pasid (w.vpn * 4096) e
        let s := joined.foldl (fun s x => modCore s x.core (fun c => { c with tlb := tlbAdd c.tlb 1024 e })) s
        .next (retryMisses (answerWalk s joined none) st)
      | .bad c => .next (retryMisses (answerWalk s joined (some { pasid := w.pasid, vpn := w.vpn, code := c })) st)
/-- Of the walks in flight of a stack the `k`-th becomes the next to end (R206). -/
def walkNext (s : State) (st k : Nat) : State :=
  modStack s st (fun x =>
    match (walksInFlight x.walks)[k]? with
    | some pg => { x with walks := x.walks.filter (fun w => (w.pasid, w.vpn) = pg) ++ x.walks.filter (fun w => (w.pasid, w.vpn) ≠ pg) }
    | none => x)

/-! ### The register cache (R112) -/

/-- A line that an issued instruction names whose results are not all written, a register that one has still to write, or a pending
variable-latency destination, in a beat (R112). -/
def linePending (t : Nat) (g : Group) (line : Nat) : Bool :=
  g.named.any (fun e => decide (line ∈ e.2.2) && namedLive g t e) || g.pend.any (fun e => match e.dst with
    | .vec k _ => k / 96 = line / 3 && k % 96 / 32 = line % 3
    | _ => false) || g.reqs.any (pendsReg (line / 3))
/-- The lines of a bank that the groups on a core hold in its register cache: group, line, last use. -/
def bankLines (s : State) (c bank : Nat) : List (Nat × Nat × Nat) :=
  s.groups.flatMap (fun e =>
    if e.2.core = c ∧ e.2.garnet.isNone then
      ((List.range 1152).filter (fun l => l % 12 = bank && e.2.lines.getLsbD l)).map (fun l => (e.1, l, tabGet 0 e.2.lineUse l))
    else [])
/-- The victim of a bank: the least recently used line that no issued instruction whose results are not written names; the lines
of a group that waits for storage or whose cluster is stopping are evictable (R112, R115, R351). -/
def lineVictim (s : State) (c bank : Nat) : Option (Nat × Nat) :=
  ((bankLines s c bank).filter (fun x => match tabFind s.groups x.1 with
    | some g => outOf s g || g.reqs.any (fun r => r.stalled && (waiterOf s g r).isSome) || !linePending s.clock g x.2.1
    | none => false)).foldl (fun (b : Option (Nat × Nat × Nat)) x => match b with
      | some y => if x.2.2 < y.2.2 then some x else some y
      | none => some x) none |>.map (fun x => (x.1, x.2.1))
/-- `REGISTER_LINE_FETCH` (R112): a line of the image comes into its bank of the core's register cache, which has room for 2,048 of
the 24,576 lines; in a full bank the victim leaves. -/
def execRegisterLineFetch (gid line : Nat) (s : State) : Out :=
  match tabFind s.groups gid with
  | some g =>
    if g.garnet.isNone && g.resident && decide (line < 3 * (kernOf s g).regs) && !g.lines.getLsbD line then
      let take := fun (s : State) => modGroup s gid (fun g =>
        { poisonLine s g line with lines := g.lines ||| (1#1152 <<< line), lineUse := tabPut g.lineUse line s.fresh })
      if (bankLines s g.core (line % 12)).length < 2048 then .next (take s)
      else match lineVictim s g.core (line % 12) with
        | some v => .next (take (dropLine s v.1 v.2))
        | none => .next s
    else .next s
  | none => .next s

/-- A stream of a path meets an instruction-fetch miss, or its line has come (R103). -/
def setMiss (s : State) (gid pid : Nat) (lane on : Bool) : State :=
  modGroup s gid (fun g => { g with paths := g.paths.map (fun p =>
    if p.id = pid then (if lane then { p with missL := on } else { p with missS := on }) else p) })
/-- A stream's next word still awaits the walk of its page. -/
def fetchWalking (s : State) (gid pid : Nat) (lane : Bool) : Bool :=
  match (tabFind s.groups gid).bind (fun g => (findPath g pid).map (fun p => (g, p))) with
  | some (g, p) =>
    (match (if lane then fetchLane s g (startRun p) else fetchScalar s g p) with
     | .miss va => (stackOf s (stackNo g.core)).walks.any (fun w => decide (w.grp = gid) && decide (w.vpn = va / 4096))
     | _ => false)
  | none => false
/-- `INSTRUCTION_FETCH_MISS` (R103): the missing line, or the walk of its page, has come and the stream goes on. -/
def execInstructionFetchMiss (gid pid : Nat) (lane : Bool) (s : State) : Out :=
  if fetchWalking s gid pid lane then .next s else .next (setMiss s gid pid lane false)

/-! ### Invalidation and promotion (R209, R210) -/

/-- Accesses of a PASID's groups, and of the segments that its drains have entered, that have passed their translation
have all been performed, but for those that need not be (R209, R273). -/
def pasidQuiet (s : State) (pasid : Nat) (need : Req → Bool) : Bool :=
  s.groups.all (fun e => decide (pasidOf s e.2 ≠ pasid) ||
    e.2.reqs.all (fun r => !pastTranslation r || !need r || behindRecord s e.2 r)) &&
    drainsQuiet s (fun p => decide (p = pasid))
/-- An invalidation of a range of a PASID may complete, but for accesses that it need not await: the PASID's accesses past their
translation and every access to the blocks that it demotes have been performed, and no stream pins a frame of it (R209, R211, R237). -/
def mayInvalBut (s : State) (pasid base len : Nat) (need : Req → Bool) : Bool :=
  pasidQuiet s pasid need && pinsClear s pasid base len && (rangeBlocks s pasid base len).all (pairQuiet s)
/-- An invalidation of a range of a PASID may complete (R209, R211, R237). -/
def mayInval (s : State) (pasid base len : Nat) : Bool := mayInvalBut s pasid base len (fun _ => true)
/-- `PROMOTE_BLOCK` (R210): core 2 promotes a block whose controller counts more than 64 line reads of it within 2^20 clocks; with a
full pool the least recently promoted block makes room. -/
def execPromoteBlock (blk : Nat) (s : State) : Out :=
  if !mayPromote s blk || decide (blockReads s blk ≤ 64) then .next s
  else match poolFree s with
    | some h => .next (promoteTo s blk h)
    | none =>
      match s.promoted with
      | (old, h) :: _ =>
        if !pairQuiet s (old, h) then .next s
        else
          let s := demoteBlock s old
          match poolFree s with
          | some h => .next (promoteTo s blk h)
          | none => .next s
      | [] => .next s

end Sys2Proof.Machine
end

