-- ==== Sys2Proof/Machine/Object.lean ====
section
/-! DEFINITION. Parsing a code object and a kernel descriptor (R19 to R25, R261, R397). -/
namespace Sys2Proof.Machine

/-- Bytes [lo, lo + n) of a list are all zero. -/
def zeroBytes (bs : List Byte) (lo n : Nat) : Bool := ((bs.drop lo).take n).all (fun b => b = 0)

/-! ### Code objects (R19 to R21, R23, R397) -/

/-- A section-table entry (R20). -/
structure Section where
  kind : Nat
  rev : Nat
  off : Nat
  size : Nat
  owner : Nat
deriving DecidableEq, Repr

/-- The header of a code object, unchecked (R19). -/
structure ObjHead where
  magic : Nat
  version : Nat
  count : Nat
  total : Nat
  kernels : Nat
  flags : Nat
  zero : Bool
deriving DecidableEq, Repr

def shared : Nat := 0xFFFFFFFF
def objHead (bs : List Byte) : ObjHead :=
  { magic := listNat bs 0 4, version := listNat bs 4 2, count := listNat bs 6 2, total := listNat bs 8 8,
    kernels := listNat bs 16 4, flags := listNat bs 20 4, zero := zeroBytes bs 24 40 }
def headOk (h : ObjHead) : Bool :=
  h.magic = 0x4B5A4F53 && h.version = 1 && decide (1 ≤ h.count) && decide (h.count ≤ 64) && h.total % 128 = 0 &&
    decide (1 ≤ h.kernels) && decide (h.kernels ≤ 4096) && decide (h.flags < 2) && h.zero

/-- An entry of the section table and whether its reserved fields are zero. -/
def sectionAt (bs : List Byte) (i : Nat) : Section × Bool :=
  let b := bs.drop (32 * i)
  ({ kind := listNat b 0 2, rev := listNat b 2 2, off := listNat b 8 8, size := listNat b 16 8, owner := listNat b 24 4 },
   zeroBytes b 4 4 && zeroBytes b 28 4)
/-- The size rule of a kind (R21). -/
def sizeOk (kernels : Nat) (x : Section) : Bool :=
  if x.kind = 1 then x.size % 4 = 0 else if x.kind = 2 then x.size % 12 = 0 else if x.kind = 3 then x.size % 8 = 0
  else if x.kind = 5 then x.size = 128 * kernels else if x.kind = 6 then x.size % 64 = 0
  else if x.kind = 7 then x.size % 4 = 0 else if x.kind = 8 then x.size % 48 = 0
  else if x.kind = 10 then x.size = 64 else true
/-- The rules of one section (R20, R21, R397). -/
def sectionOk (h : ObjHead) (x : Section) : Bool :=
  decide (1 ≤ x.kind) && decide (x.kind ≤ 10) && (if x.kind ≤ 3 then x.rev = 1 || x.rev = 2 else x.rev = 0) &&
    x.off % 128 = 0 && decide (x.off + x.size ≤ h.total) && sizeOk h.kernels x &&
    (decide (x.owner < h.kernels) || x.owner = shared) && (!(x.kind = 5 || x.kind = 10) || x.owner = shared)
/-- No two sections share kind, revision and owner (R397). -/
def sectionsApart : List Section → Bool
  | [] => true
  | x :: t => t.all (fun y => !(x.kind = y.kind && x.rev = y.rev && x.owner = y.owner)) && sectionsApart t
/-- The sections of an object obey R20, R21 and R397. -/
def sectionsOk (h : ObjHead) (xs : List (Section × Bool)) : Bool :=
  xs.all (fun x => x.2 && sectionOk h x.1) && sectionsApart (xs.map (fun x => x.1)) &&
    (xs.filter (fun x => x.1.kind = 5)).length = 1

/-- The kernel's section of a kind and revision (R397): none for text that it does not own; else its own or the shared
one. -/
def kernelSection (xs : List Section) (kind rev idx : Nat) : Option Section :=
  let own := xs.find? (fun x => x.kind = kind && x.rev = rev && x.owner = idx)
  if kind ≤ 2 then own
  else if own.isSome then own else xs.find? (fun x => x.kind = kind && x.rev = rev && x.owner = shared)

/-! ### Kernel descriptors (R24, R25) -/

def secBase (obj : Nat) (x : Option Section) : Nat := (x.map (fun y => obj + y.off)).getD 0
def secSize (x : Option Section) : Nat := (x.map (fun y => y.size)).getD 0

/-- A descriptor's fields with its sections located. -/
def kernelOf (bs : List Byte) (obj : Nat) (xs : List Section) (idx : Nat) : Kernel :=
  let sec := fun (k r : Nat) => kernelSection xs k r idx
  let trap := listNat bs 16 8
  let ejth := listNat bs 42 1
  { scalarEntry := listNat bs 0 8, laneEntry := listNat bs 8 8, trapOff := if trap = 2 ^ 64 - 1 then none else some trap,
    regs := listNat bs 24 2, groups := listNat bs 26 2, width := listNat bs 28 1, height := listNat bs 29 1,
    teamsPerCore := listNat bs 30 1, flags := (bs[31]?).getD 0, spad := listNat bs 32 4, args := listNat bs 36 4,
    ib := listNat bs 40 2, ejth := if ejth = 0 then 4 else ejth, preload := listNat bs 43 1, snapBytes := listNat bs 44 4,
    drainOff := listNat bs 48 8, liveOff := listNat bs 56 8, liveCount := listNat bs 76 1, sigOff := listNat bs 64 8,
    scalarBase := secBase obj (sec 1 2), scalarSize := secSize (sec 1 2), laneBase := secBase obj (sec 2 2),
    laneSize := secSize (sec 2 2), drainBase := secBase obj (sec 3 2), drainSize := secSize (sec 3 2),
    layoutBase := secBase obj (sec 6 0), layoutSize := secSize (sec 6 0), liveBase := secBase obj (sec 8 0),
    liveSize := secSize (sec 8 0), sigBase := secBase obj (sec 7 0), sigSize := secSize (sec 7 0) }

/-- The limits of R24 on fields alone, and reserved bits (R7). -/
def fieldsOk (bs : List Byte) (k : Kernel) : Bool :=
  k.scalarEntry % 4 = 0 && k.laneEntry % 12 = 0 &&
    (match k.trapOff with
     | some t => t % 4 = 0
     | none => true) &&
    decide (1 ≤ k.regs) && decide (k.regs ≤ 384) && decide (1 ≤ k.groups) && decide (k.groups ≤ 16) &&
    decide (1 ≤ k.width) && decide (k.width ≤ 12) && decide (1 ≤ k.height) && decide (k.height ≤ 12) &&
    decide (k.width * k.height ≤ 12) && decide (1 ≤ k.teamsPerCore) && decide (k.teamsPerCore ≤ 2) &&
    k.flags.toNat / 32 = 0 && k.spad % 4096 = 0 && decide (k.teamsPerCore * k.spad ≤ 8388608) &&
    decide (k.args ≤ 4096) && k.args % 8 = 0 &&
    (!k.flags.getLsbD 3 || (decide (k.ib ≤ 376) && decide (k.ib + 8 ≤ k.regs))) && decide (k.ejth ≤ 8) &&
    decide (k.preload ≤ 16) && k.snapBytes % 4096 = 0 && decide (k.liveCount ≤ 64) && zeroBytes bs 77 51

/-- The limits of R25 against the kernel's sections. -/
def sectionsFit (k : Kernel) : Bool :=
  decide (k.scalarEntry < k.scalarSize) && decide (k.laneEntry < k.laneSize) &&
    (match k.trapOff with
     | some t => decide (t < k.scalarSize)
     | none => true) &&
    (k.liveCount = 0 || (k.liveOff % 48 = 0 && decide (k.liveOff + 48 * k.liveCount ≤ k.liveSize))) &&
    (!k.flags.getLsbD 4 || (k.sigOff % 4 = 0 && decide (k.sigOff ≤ k.sigSize)))

/-- What reading the programs to preload finds (R25, R43, R261). -/
inductive PreRead where
  | ok (ps : List (List Dword))
  | malformed
  | fault
deriving DecidableEq, Repr

/-- A program before those that a reading has found. -/
def PreRead.cons (p : List Dword) : PreRead → PreRead
  | .ok ps => .ok (p :: ps)
  | r => r

/-- Read `p` programs from the drain words at `va`, of which at most `n` may be taken, each up to its `DEND`; `acc` holds the words of
the program being read. No word past the last program is read (R261). -/
def readPrograms (s : State) (pasid : Nat) : Nat → Nat → Nat → List Dword → PreRead
  | _, 0, _, _ => .ok []
  | 0, _ + 1, _, _ => .malformed
  | n + 1, p + 1, va, acc =>
    match fetcherNat s pasid .readOrExec 8 va with
    | none => .fault
    | some x =>
      let w : Dword := BitVec.ofNat 64 x
      match decodeDrain w with
      | none => .malformed
      | some (.dend _) => (readPrograms s pasid n p (va + 8) []).cons (acc ++ [w])
      | some _ => readPrograms s pasid n (p + 1) (va + 8) (acc ++ [w])

/-- The preloaded programs of a kernel, within its drain section and the 512 words of drain memory (R25, R261). -/
def readPreloads (s : State) (pasid : Nat) (k : Kernel) : PreRead :=
  if k.preload = 0 then .ok []
  else if k.drainOff % 8 ≠ 0 then .malformed
  else readPrograms s pasid (min 512 ((k.drainSize - k.drainOff) / 8)) k.preload (k.drainBase + k.drainOff) []
/-- The preloaded programs where they are sound and readable. -/
def preloads (s : State) (pasid : Nat) (k : Kernel) : Option (List (List Dword)) :=
  match readPreloads s pasid k with
  | .ok ps => some ps
  | _ => none

end Sys2Proof.Machine
end

