-- ==== Sys2Proof/Machine/Queue.lean ====
section
/-! DEFINITION. Queues and packets: parsing, the packet kinds, conditionals, line watches, completion, and the feeding of
items (R38 to R51, R212). -/
namespace Sys2Proof.Machine

/-! ### The packet at the head (R39, R40, R44) -/

/-- What core 0 finds at the head of a queue. -/
inductive Parsed where
  | idle
  | fail (code : Nat)
  | wait (line : Option Nat)
  | skip
  | pkt (bs : List Byte)
deriving DecidableEq, Repr

/-- The address of the slot of the packet at the head (R39). -/
def slotVa (q : Queue) : Nat := q.ring + 128 * (q.head.toNat % 2 ^ q.lg)
/-- The phase bit that the packet at the head must carry (R40). -/
def phaseOk (q : Queue) (bs : List Byte) : Bool := listNat bs 1 1 % 2 = q.head.toNat / 2 ^ q.lg % 2
/-- A header that breaks R44. -/
def headerBad (bs : List Byte) : Bool :=
  let k := listNat bs 0 1
  decide (k < 1) || decide (6 < k) || decide (8 ≤ listNat bs 1 1) || listNat bs 8 8 % 8 ≠ 0 ||
    decide (2 < listNat bs 24 1) || !zeroBytes bs 2 2 || !zeroBytes bs 25 7

/-- Read the head of a queue (R40, R42, R44, R45, R50). -/
def parseHead (s : State) (q : Queue) : Parsed :=
  if (q.state ≠ .active ∧ q.state ≠ .waiting) ∨ q.tail = q.head then .idle
  else if 2 ^ q.lg < (q.tail - q.head).toNat then .fail 0x02
  else match fetcherBytes s q.pasid .read 128 (slotVa q) with
    | none => .fail 0x03
    | some bs =>
      if !phaseOk q bs then .wait ((fetcherAddr s q.pasid (slotVa q) .read).map (fun a => a / 128))
      else if 0 < q.skip then .skip
      else if headerBad bs then .fail 0x01
      else if bitN (listNat bs 1 1) 1 && !q.running.isEmpty then .wait none
      else .pkt bs

/-- Core 0 would parse this queue now. -/
def parsable (s : State) (q : Queue) : Bool :=
  q.state = .active && match parseHead s q with
    | .idle => false
    | .wait _ => false
    | _ => true
/-- A queue that core 0 serves first: of a more urgent class, or of the same class and served longer ago (R52). -/
def servedFirst (s : State) (qn : Nat) (q : Queue) : Bool :=
  s.queues.any (fun e => decide (e.1 ≠ qn) && parsable s e.2 &&
    (decide (e.2.cls < q.cls) || (e.2.cls = q.cls && (decide (e.2.served < q.served) ||
      (e.2.served = q.served && decide (e.1 < qn))))))

/-- Advance the head past the packet, with a release at system scope (R40); a fault on the head word is `ring_fault`. -/
def advanceHead (s : State) (qn : Nat) (q : Queue) : State :=
  let h := q.head + 1
  let s := modQueue s qn (fun x => { x with
    head := h, state := if x.state = .waiting then .active else x.state, watch := none, since := 0, served := s.fresh })
  let s := { s with fresh := s.fresh + 1 }
  match fetcherWrite s q.pasid 4 q.statusAddr h.toNat with
  | some s => s
  | none => queueFail s qn 0x03 q.head.toNat
/-- Accept the packet at the head and start it (R40, R45). -/
def startPacket (s : State) (qn : Nat) (q : Queue) (bs : List Byte) (done bar : Bool) : State :=
  let p : Packet :=
    { idx := q.head.toNat, sigAddr := listNat bs 8 8, sigVal := BitVec.ofNat 64 (listNat bs 16 8),
      sigOp := listNat bs 24 1, intr := bitN (listNat bs 1 1) 2, effectsDone := done, bar := bar }
  advanceHead (modQueue s qn (fun x => { x with running := x.running ++ [p] })) qn q

/-- Serve the head of a queue: errors, waits and skipped packets are the same for every kind; `mine` says whether the
packet is of the kind asked for. -/
def serve (s : State) (qn : Nat) (mine : List Byte → Bool) (f : Queue → List Byte → State) : Out :=
  match tabFind s.queues qn with
  | none => .next s
  | some q =>
    if s.boot ≠ 6 || closingP s q.pasid || servedFirst s qn q then .next s
    else match parseHead s q with
      | .idle => .next s
      | .fail c => .next (queueFail s qn c q.head.toNat)
      | .wait l => .next (modQueue s qn (fun x => { x with state := .waiting, watch := l }))
      | .skip => .next (modQueue (advanceHead s qn q) qn (fun x => { x with skip := q.skip - 1 }))
      | .pkt bs => if mine bs then .next (f q bs) else .next s

def isKind (k : Nat) (bs : List Byte) : Bool := listNat bs 0 1 = k
/-- A rejection at the head (R40, R43). -/
def reject (s : State) (qn : Nat) (q : Queue) (code : Nat) : State := queueFail s qn code q.head.toNat

/-! ### Launch (R46, R47) -/

/-- The limits of R46 that the packet alone decides. -/
def launchLimits (bs : List Byte) : Bool :=
  listNat bs 32 8 % 128 = 0 && decide (1 ≤ listNat bs 44 4) && decide (listNat bs 44 4 ≤ 2 ^ 24) &&
    listNat bs 48 8 % 8 = 0 && decide (listNat bs 64 4 ≤ 2 ^ 31) && decide (listNat bs 68 2 ≤ 256) &&
    listNat bs 72 8 % 128 = 0 && listNat bs 80 8 % 4096 = 0 && decide (listNat bs 88 4 < 2) && zeroBytes bs 70 2 &&
    zeroBytes bs 92 36
/-- The limits of R46 that the descriptor decides. -/
def launchFits (bs : List Byte) (k : Kernel) : Bool :=
  (!k.flags.getLsbD 3 || listNat bs 56 8 % 32 = 0) && ((k.snapBytes = 0) == (listNat bs 80 8 = 0))

/-- The signature check of R23, where the object is signed or the packet requires it: none, or an error code. DESIGN CHOICE: an object
with the signed flag and no signature block gets `load_bad_signature`; R23 names no code for it (log 81). -/
def signedCheck (s : State) (pasid obj : Nat) (h : ObjHead) (xs : List Section) (required : Bool) : Option Nat :=
  if h.flags % 2 = 0 then (if required then some 0x08 else none)
  else match xs.find? (fun x => x.kind = 10) with
    | none => some 0x09
    | some x =>
      match fetcherBytes s pasid .readOrExec x.off obj, fetcherBytes s pasid .readOrExec 64 (obj + x.off) with
      | some body, some sig =>
        if Config.ed25519Verify Config.codeKey (Config.sha512 body) (BitVec.ofNat 512 (listNat sig 0 64)) then none
        else some 0x09
      | _, _ => some 0x03

/-- Whether a rectangle of a kernel's size lies on undegraded stacks alone (R63). -/
def placeable (s : State) (k : Kernel) : Bool :=
  (List.range (25 - k.height)).any (fun y => (List.range (33 - k.width)).any (fun x =>
    (List.range (k.width * k.height)).all (fun q =>
      !(stackOf s (stackNo (coreAt (x + q % k.width) (y + q / k.width)))).degraded)))

/-- Read and judge the code object of a launch packet (R22, R23, R25, R46, R47, R63): a kernel, or an error code. The limits of
R46 come first, as far as the object lets the descriptor be found; then step 1's `load_malformed`, `no_code` and
`descriptor_malformed`, core 7's check of the signature, and core 1's of the placement. -/
def judgeLaunch (s : State) (pasid : Nat) (bs : List Byte) : Nat ⊕ Kernel :=
  if !launchLimits bs then .inl 0x01
  else
    let obj := listNat bs 32 8
    let idx := listNat bs 40 4
    match fetcherBytes s pasid .readOrExec 64 obj with
    | none => .inl 0x03
    | some hb =>
      let h := objHead hb
      if h.kernels ≤ idx then .inl 0x01
      else if h.count < 1 ∨ 64 < h.count then .inl 0x07
      else match fetcherBytes s pasid .readOrExec (32 * h.count) (obj + 64) with
        | none => .inl (if headOk h then 0x03 else 0x07)
        | some tb =>
          let all := (List.range h.count).map (sectionAt tb)
          let xs := all.map (fun x => x.1)
          let sound := headOk h && sectionsOk h all
          match xs.find? (fun x => x.kind = 5) with
            | none => .inl 0x07
            | some d =>
              match fetcherBytes s pasid .readOrExec 128 (obj + d.off + 128 * idx) with
              | none => .inl (if sound then 0x03 else 0x07)
              | some kb =>
                let k := kernelOf kb obj xs idx
                if !launchFits bs k then .inl 0x01
                else if !sound then .inl 0x07
                else if (kernelSection xs 1 2 idx).isNone || (kernelSection xs 2 2 idx).isNone then .inl 0x0A
                else if !fieldsOk kb k || !sectionsFit k || (k.flags.getLsbD 4 && (kernelSection xs 7 0 idx).isNone) then .inl 0x0B
                else match readPreloads s pasid k with
                  | .fault => .inl 0x03
                  | .malformed => .inl 0x0B
                  | .ok _ =>
                    match signedCheck s pasid obj h xs (listNat bs 88 4 = 1) with
                    | some c => .inl c
                    | none => if placeable s k then .inr k else .inl 0x0C

/-- The launch of an accepted packet (R46 to R48). -/
def launchOfPacket (qn : Nat) (q : Queue) (bs : List Byte) (k : Kernel) : Launch :=
  let depth := listNat bs 68 2
  { queue := qn, pkt := q.head.toNat, pasid := q.pasid, cls := q.cls, kern := k, grid := listNat bs 44 4,
    nextCluster := 0, argAddr := listNat bs 48 8, itemAddr := listNat bs 56 8, itemCount := listNat bs 64 4,
    itemNext := 0, feedDepth := if depth = 0 then 64 else depth, kept := [], feedEnded := false, itemFault := false,
    recAddr := listNat bs 72 8, snapAddr := listNat bs 80 8, delivered := 0, discarded := 0, undelivered := 0, tags := [],
    deadLanes := 0, cause := 0, unrecorded := 0, killed := false, silent := false, finished := false }

/-- `LAUNCH` (R47) -/
def execLaunch (qn : Nat) (s : State) : Out :=
  serve s qn (isKind 1) (fun q bs =>
    match judgeLaunch s q.pasid bs with
    | .inl c => reject s qn q c
    | .inr k =>
      startPacket { s with launches := tabPut s.launches s.fresh (launchOfPacket qn q bs k), fresh := s.fresh + 1 } qn q bs
        false false)

/-! ### Copy and task packets (R33, R51, R238, R243) -/

/-- The card of a packet, read by the copy engine of a stack: an error code, or the submission without its owner. Its header and regions
are judged before any other access (R34). DEDUCED: a card that cannot be read gets `ring_fault` (log 46). -/
def packetCard (s : State) (st pasid card : Nat) : Nat ⊕ Sub :=
  if card % 128 ≠ 0 then .inl 0x0D
  else match engineBytes s st pasid 128 card with
    | .error _ => .inl 0x03
    | .ok cs =>
      match cardHead (listNat cs) card with
      | none => .inl 0x0D
      | some (kind, x) =>
        match (if kind = 4 then .ok [] else engineBytes s st pasid 128 (listNat cs 8 8)) with
        | .error _ => .inl 0x03
        | .ok qs =>
          match cardWork (listNat qs) kind with
          | some w => .inr { x with pasid := pasid, work := w, cardFlag := none }
          | none => .inl 0x0D
/-- A packet's submission with its footprint (R240). -/
def packetSub (s : State) (x : Sub) (qn idx : Nat) : Sub :=
  let y := { x with packet := some (qn, idx) }
  { y with foot := cardFoot s y }
/-- The stack that a copy packet names, `0xFF` for the one behind the first region (R51, R194). DESIGN CHOICE: a first region that lies
outside HBM, in a space, or at an address that does not translate, gives stack 0 (log 86). -/
def packetStack (s : State) (x : Sub) (n : Nat) : Nat :=
  if n ≠ 0xFF then n
  else match x.regions with
    | r :: _ =>
      match fetcherAddr s x.pasid r.1 .readOrExec with
      | some pa => if pa < Config.hbmBytes then pa / Config.stackBytes else 0
      | none => 0
    | [] => 0
/-- A packet that waits for room stays at the head. -/
def holdPacket (s : State) (qn : Nat) : State := modQueue s qn (fun x => { x with state := .waiting })

/-- `COPY` (R51): the card is read by the engine of the named stack, that of stack 0 where the packet names none (log 46). DESIGN CHOICE:
a packet whose stack is degraded waits at the head, as one whose scheduler is full does (log 86). -/
def execCopy (qn : Nat) (s : State) : Out :=
  serve s qn (isKind 2) (fun q bs =>
    let n := listNat bs 40 1
    if (48 ≤ n ∧ n ≠ 0xFF) ∨ !zeroBytes bs 41 87 then reject s qn q 0x01
    else match packetCard s (if n = 0xFF then 0 else n) q.pasid (listNat bs 32 8) with
      | .inl c => reject s qn q c
      | .inr x =>
        let st := packetStack s x n
        if stackFull s st || (stackOf s st).degraded then holdPacket s qn
        else addSub (startPacket s qn q bs false false) st (packetSub s x qn q.head.toNat))

/-- A task defined with a count would run its card at once (R243). -/
def taskRuns (s : State) (st pasid num n : Nat) : Bool :=
  match findSlot s st pasid num with
  | none => decide (n = 0)
  | some y => decide (((match y.state with
    | .open => y.v
    | _ => y.c) + (n : Int)) = 0)
/-- `TASK` (R51, R243): a packet whose job would start at once waits for room (R240). DESIGN CHOICE: one whose stack is degraded waits at
the head (log 86). -/
def execTask (qn : Nat) (s : State) : Out :=
  serve s qn (isKind 3) (fun q bs =>
    let st := listNat bs 40 1
    let t := listNat bs 42 2
    let cnt := listNat bs 44 2
    if 48 ≤ st ∨ 255 < t ∨ !zeroBytes bs 41 1 ∨ !zeroBytes bs 46 82 then reject s qn q 0x01
    else match packetCard s st q.pasid (listNat bs 32 8) with
      | .inl c => reject s qn q c
      | .inr x =>
        if 1024 < cnt then reject s qn q 0x12
        else if taskBusy s st q.pasid t then reject s qn q 0x11
        else if !slotRoom s st q.pasid t || (stackFull s st && taskRuns s st q.pasid t cnt) || (stackOf s st).degraded then
          holdPacket s qn
        else
          let s1 := taskDefine (startPacket s qn q bs false false) st q.pasid t cnt (packetSub s x qn q.head.toNat)
            (some (qn, q.head.toNat))
          match findSlot s1 st q.pasid t with
          | some y => if y.state = .done then packetDone s1 qn q.head.toNat else s1
          | none => s1)

/-- `BARRIER` (R51) -/
def execBarrier (qn : Nat) (s : State) : Out :=
  serve s qn (isKind 4) (fun q bs =>
    if zeroBytes bs 32 96 then startPacket s qn q bs true true else reject s qn q 0x01)

/-! ### Memory requests (R51, R209, R212) -/

def reqOp (bs : List Byte) : Nat := listNat bs 32 2
def isReq (op : Nat) (bs : List Byte) : Bool := isKind 5 bs && (reqOp bs = op || decide (reqOp bs < 1) || decide (4 < reqOp bs))
/-- A range of pages that leaves the address space faults. -/
def rangeBad (base len : Nat) : Bool :=
  decide (2 ^ 64 < base + len) || !(canonical base) || (decide (0 < len) && !canonical (base + len - 1)) ||
    (decide (base < 2 ^ 63) && decide (2 ^ 56 < base + len))
/-- The frame of a memory request: its limits, then what core 2 does for the accepted packet, or `memreq_fault` where the range faults.
DESIGN CHOICE: a packet whose range faults completes, with its signal and interrupt (log 85). -/
def memReq (s : State) (qn op : Nat) (f : State → Queue → Nat → Nat → State × Bool) : Out :=
  serve s qn (isReq op) (fun q bs =>
    let base := listNat bs 40 8
    let len := listNat bs 48 8
    if base % 4096 ≠ 0 ∨ len % 4096 ≠ 0 ∨ !zeroBytes bs 34 6 ∨ !zeroBytes bs 56 72 then reject s qn q 0x01
    else if reqOp bs ≠ op then reject s qn q 0x0F
    else
      let s1 := startPacket s qn q bs true false
      if rangeBad base len then queueFail s1 qn 0x10 q.head.toNat
      else
        let r := f s1 q base len
        if r.2 then queueFail r.1 qn 0x10 q.head.toNat else r.1)

/-- The accepted packet of an invalidation that cannot be carried out yet waits for its completion (R40, R209). -/
def deferInval (s : State) (qn idx base len : Nat) : State :=
  modQueue s qn (fun x => { x with running := x.running.map (fun p =>
    if p.idx = idx then { p with effectsDone := false, inval := some (base, len) } else p) })
/-- `INVALIDATE_TRANSLATIONS` (R209, R237): accepted at once (R40); carried out once the accesses past their translation have been
performed and no stream pins a frame that the range names. -/
def execInvalidateTranslations (qn : Nat) (s : State) : Out :=
  memReq s qn 1 (fun s q base len =>
    (if mayInval s q.pasid base len then invalRange s q.pasid base len else deferInval s qn q.head.toNat base len, false))

/-- The record of a replayable fault found by a prefault; no group is suspended by it (R212). -/
def prefaultRecord (s : State) (pasid va code : Nat) : State :=
  let a : Dword := BitVec.ofNat 64 va
  let r : TrapRec :=
    { info := { code := code, cls := 1, src := 0, val0 := a.extractLsb' 0 32, val1 := a.extractLsb' 32 32, tspc := 0,
                tlpc := 0, addr := a, lane := 0xFFFF, aux := 0, ir := 0, path := 0 },
      pasid := pasid, core := 0, slot := 0, teamIdx := 0, tag := recordTag s, grp := 0, team := 0 }
  modStack { s with fresh := s.fresh + 1 } 0 (fun k => { k with waitQ := k.waitQ ++ [r] })
/-- `PREFAULT` (R212): a fatal translation makes the range one that faults. -/
def execPrefault (qn : Nat) (s : State) : Out :=
  memReq s qn 2 (fun s q base len =>
    (List.range (len / 4096)).foldl (fun r i =>
      match translateNow r.1 0 q.pasid (base + 4096 * i) .read with
      | .bad c => if classOf c = 1 then (prefaultRecord r.1 q.pasid (base + 4096 * i) c, r.2) else (r.1, true)
      | _ => r) (s, false))
/-- Whether a page of a range does not translate (R51). -/
def rangeFaults (s : State) (pasid base len : Nat) : Bool :=
  (List.range (len / 4096)).any (fun i => match translateNow s 0 pasid (base + 4096 * i) .readOrExec with
    | .ok _ => false
    | _ => true)
/-- `DEMOTE` (R212): the promoted blocks of the range are demoted; a page that does not translate makes the range one that faults. -/
def execDemote (qn : Nat) (s : State) : Out :=
  memReq s qn 3 (fun s q base len =>
    ((s.promoted.filter (fun e => rangeNames s q.pasid base len e.1 && pairQuiet s e)).foldl (fun s e => demoteBlock s e.1) s,
      rangeFaults s q.pasid base len))
/-- `PREFETCH_TO_HBM` (R212): while the pool has room; a page that does not translate makes the range one that faults. -/
def execPrefetchToHbm (qn : Nat) (s : State) : Out :=
  memReq s qn 4 (fun s q base len =>
    ((List.range (len / 4096)).foldl (fun s i =>
      match translateNow s 0 q.pasid (base + 4096 * i) .readOrExec with
      | .ok pa => promoteHint s (pa / 65536)
      | _ => s) s, rangeFaults s q.pasid base len))

/-! ### Conditionals (R49, R50) -/

/-- A conditional's body breaks R49. -/
def condBad (bs : List Byte) : Bool :=
  let w := listNat bs 57 1
  !(w = 4 || w = 8) || (w ≠ 0 && listNat bs 32 8 % w ≠ 0) || decide (5 < listNat bs 56 1) || decide (2 < listNat bs 58 1) ||
    decide (255 < listNat bs 60 2) || !zeroBytes bs 59 1 || !zeroBytes bs 62 2 || !zeroBytes bs 68 60
/-- The comparison of R49 on values of a width. -/
def condTest (cmp w a b : Nat) : Bool :=
  let bits := 8 * w
  if cmp = 0 then a = b else if cmp = 1 then a ≠ b else if cmp = 2 then decide (a < b) else if cmp = 3 then decide (b ≤ a)
  else if cmp = 4 then decide (intVal bits true a < intVal bits true b) else decide (intVal bits true b ≤ intVal bits true a)
/-- The test of a conditional: none on a fault (R50). -/
def testHolds (s : State) (q : Queue) (bs : List Byte) : Option Bool :=
  let w := listNat bs 57 1
  let m := listNat bs 40 8 % 256 ^ w
  let k := listNat bs 48 8 % 256 ^ w
  (fetcherNat s q.pasid .read w (listNat bs 32 8)).map (fun x =>
    condTest (listNat bs 56 1) w (Nat.land x k) (Nat.land m k))
def isCond (act : Nat) (bs : List Byte) : Bool := isKind 6 bs && (listNat bs 58 1 = act || decide (2 < listNat bs 58 1))
/-- Accept a conditional, skipping the next packets where `skip` says so. -/
def condDone (s : State) (qn : Nat) (q : Queue) (bs : List Byte) (skip : Bool) : State :=
  modQueue (startPacket s qn q bs true false) qn (fun x => { x with skip := if skip then listNat bs 60 2 else 0 })
/-- Skip and jump: the next packets are consumed where the test's outcome is `on` (R50). -/
def condSkip (s : State) (qn act : Nat) (on : Bool) : Out :=
  serve s qn (isCond act) (fun q bs =>
    if condBad bs then reject s qn q 0x01
    else match testHolds s q bs with
      | none => reject s qn q 0x05
      | some t => condDone s qn q bs (t == on))

/-- `CONDITIONAL_SKIP` (R50) -/
def execConditionalSkip (qn : Nat) (s : State) : Out := condSkip s qn 0 false
/-- `CONDITIONAL_JUMP` (R50) -/
def execConditionalJump (qn : Nat) (s : State) : Out := condSkip s qn 2 true
/-- `CONDITIONAL_REPEAT` (R50): a test that fails makes the queue wait on the test word's line. -/
def execConditionalRepeat (qn : Nat) (s : State) : Out :=
  serve s qn (isCond 1) (fun q bs =>
    if condBad bs then reject s qn q 0x01
    else match testHolds s q bs with
      | none => reject s qn q 0x05
      | some true => condDone s qn q bs false
      | some false => modQueue s qn (fun x => { x with
          state := .waiting, since := if x.since = 0 then s.clock + 1 else x.since,
          watch := (fetcherAddr s q.pasid (listNat bs 32 8) .read).map (fun a => a / 128) }))
/-- `REPEAT_TIMEOUT` (R50): one more test; where it fails the next packets are skipped and the status says so, and the
queue stays active. -/
def execRepeatTimeout (qn : Nat) (s : State) : Out :=
  serve s qn (isCond 1) (fun q bs =>
    let lim := listNat bs 64 4
    if condBad bs || lim = 0 || q.since = 0 || decide (s.clock < q.since - 1 + 1000 * lim) then s
    else match testHolds s q bs with
      | none => reject s qn q 0x05
      | some true => condDone s qn q bs false
      | some false => condDone (putStatus s q 0x06 q.head.toNat) qn q bs true)

/-- `LINE_WATCH_FIRE` (R41, R42): tail words of the line are read again, and queues that wait on it try again. -/
def execLineWatchFire (line : Nat) (s : State) : Out :=
  .next (s.queues.foldl (fun s e =>
    let q := e.2
    if closingP s q.pasid || q.state = .closing then s
    else
      let s := if q.tailPa / 128 = line then
          match fetcherNat s q.pasid .read 4 q.tailAddr with
          | some t => modQueue s e.1 (fun x => { x with tail := BitVec.ofNat 32 t })
          | none => queueFail s e.1 0x03 q.head.toNat
        else s
      modQueue s e.1 (fun x =>
        if x.state = .waiting ∧ x.watch = some line then { x with state := .active, watch := none } else x)) s)

/-! ### Completion of packets (R45) -/

/-- Everything dirty in the column caches goes to the home slices. -/
def cleanAll (s : State) : State := s.cores.foldl (fun s e => cleanCore s e.1) s
/-- The signal of a packet: a store or an atomic add of 64 bits, none on a fault (R45). -/
def doSignal (s : State) (pasid : Nat) (p : Packet) : Option State :=
  if p.sigAddr = 0 ∨ p.sigOp = 0 then some s
  else (fetcherAddr s pasid p.sigAddr .write).map (fun pa =>
    homeWrite 8 s pa (if p.sigOp = 1 then p.sigVal.toNat else (homeNat s 8 pa + p.sigVal.toNat) % 2 ^ 64))
/-- An accepted invalidation that was put off may now be carried out (R209). -/
def invalDue (s : State) (q : Queue) (p : Packet) : Bool :=
  match p.inval with
  | some r => mayInval s q.pasid r.1 r.2
  | none => false
/-- The signal and the interrupt of a packet whose effects are visible at system scope (R45, R390). -/
def endPacket (s : State) (qn : Nat) (q : Queue) (p : Packet) : State :=
  let s := modQueue s qn (fun x => { x with
    running := x.running.filter (fun y => y.idx ≠ p.idx),
    state := if x.state = .waiting ∧ x.watch = none then .active else x.state })
  let s := match doSignal s q.pasid p with
    | some s => s
    | none => queueFail s qn 0x04 p.idx
  if p.intr then raiseIrq s q else s
/-- `PACKET_COMPLETE` (R45, R51, R307): effects visible at system scope, then the signal, then the interrupt. The signal's release waits
for the snoops of the copies that the host die still holds of lines written since. -/
def execPacketComplete (qn idx : Nat) (s : State) : Out :=
  match tabFind s.queues qn with
  | none => .next s
  | some q =>
    match q.running.find? (fun p => p.idx = idx) with
    | none => .next s
    | some p =>
      let earlier := q.running.takeWhile (fun x => x.idx ≠ idx)
      if q.state = .closing || !(p.effectsDone || invalDue s q p) || (p.bar && !earlier.isEmpty) then .next s
      else
        let s := match p.inval with
          | some r => if p.effectsDone then s else packetDone (invalRange s q.pasid r.1 r.2) qn idx
          | none => s
        let s := cleanAll s
        .next (if hostStale s then s else endPacket s qn q p)

/-! ### Feeding items (R32, R48, R355) -/

/-- Cores on which a launch has resident teams. -/
def launchCores (s : State) (l : Nat) : List Nat :=
  s.teams.foldl (fun cs e =>
    match tabFind s.clusters e.2.cluster with
    | some c => if c.launch = l ∧ c.state = .resident ∧ !e.2.exited then setIns cs e.2.core else cs
    | none => cs) []
/-- The core of a launch that holds the fewest items, the lowest of equals, if below the feed depth (R48). -/
def feedCore (s : State) (l depth : Nat) : Option Nat :=
  ((launchCores s l).foldl (fun b c =>
    let n := (coreOf s c).items.length
    match b with
    | none => some (n, c)
    | some (m, d) => if n < m then some (n, c) else some (m, d)) none).bind (fun b =>
      if b.1 < min depth 256 then some b.2 else none)
/-- `ITEM_FEED` (R48): items returned by a pre-emption first, with their ages (R355), then the array in order. -/
def execItemFeed (ln : Nat) (s : State) : Out :=
  match tabFind s.launches ln with
  | none => .next s
  | some l =>
    if !l.kern.flags.getLsbD 3 || l.feedEnded || l.killed || closingP s l.pasid then .next s
    else match feedCore s ln l.feedDepth with
      | none => .next s
      | some c =>
        let put := fun (s : State) (ws : List Word) (age : Nat) =>
          modCore s c (fun k => { k with items := k.items ++ [{ words := ws, stamp := (s.clock : Int) - age }] })
        match l.kept with
        | (ws, age) :: rest => .next (put (modLaunch s ln (fun x => { x with kept := rest })) ws age)
        | [] =>
          if l.itemCount ≤ l.itemNext then .next s
          else match fetcherBytes s l.pasid .read 32 (l.itemAddr + 32 * l.itemNext) with
            | none => .next (modLaunch s ln (fun x => { x with itemFault := true, feedEnded := true }))
            | some bs =>
              .next (put (modLaunch s ln (fun x => { x with itemNext := x.itemNext + 1 }))
                ((List.range 8).map (fun i => BitVec.ofNat 32 (listNat bs (4 * i) 4))) 0)

end Sys2Proof.Machine
end

