-- ==== Sys2Proof/Machine/Place.lean ====
section
/-! DEFINITION. Core 1's search for rectangles, core 2's grant of a placement, and the end of a launch (R52, R55 to
R71, R261, R383, R384). -/
namespace Sys2Proof.Machine

/-! ### What a core holds (R59, R61, R62, R66) -/

/-- The launch of a team. -/
def teamLaunch (s : State) (tm : Team) : Option (Nat × Launch) :=
  (teamCluster s tm).bind (fun c => (tabFind s.launches c.launch).map (fun l => (c.launch, l)))
/-- Partition and place of every resident group of a core (R61). -/
def seatsTaken (s : State) (c : Nat) : List (Nat × Nat) :=
  (s.groups.filter (fun e => decide (e.2.core = c) && e.2.garnet.isNone && !e.2.retired &&
    (teamsAt s c).any (fun t => t.1 = e.2.team))).map (fun e => (e.2.part, e.2.place))

/-- The seat that one more group takes: the partition with the fewest groups, then the lowest place (R61). -/
def nextSeat (held : List (Nat × Nat)) : Option (Nat × Nat) :=
  let n := fun (q : Nat) => (held.filter (fun e => e.1 = q)).length
  match (List.range 8).foldl (fun b q => match b with
      | some m => if n q < n m then some q else some m
      | none => some q) (none : Option Nat) with
  | none => none
  | some q => ((List.range 6).find? (fun i => !((q, i) ∈ held))).map (fun i => (q, i))
/-- Seats for `n` groups (R61). -/
def seatGroups : Nat → List (Nat × Nat) → Option (List (Nat × Nat))
  | 0, _ => some []
  | n + 1, held =>
    match nextSeat held with
    | some x => (seatGroups n (held ++ [x])).map (fun r => x :: r)
    | none => none

/-- The lowest offset at which `size` units lie clear of ranges and below a bound. -/
def lowestFit (bound : Nat) (ranges : List (Nat × Nat)) (size : Nat) : Option Nat :=
  let ok := fun (a : Nat) => decide (a + size ≤ bound) &&
    ranges.all (fun r => decide (a + size ≤ r.1) || decide (r.2 ≤ a))
  ((0 :: ranges.map (fun r => r.2)).filter ok).min?
/-- The lowest offset at which a partition of `size` bytes lies clear of the others and below 8 MiB (R66). -/
def lowestOffset (ranges : List (Nat × Nat)) (size : Nat) : Option Nat := lowestFit 8388608 ranges size

/-- One team's place on a core: its slot, its scratchpad offset and the seats of its groups. -/
structure Seat where
  slot : Nat
  off : Nat
  groups : List (Nat × Nat)
deriving DecidableEq, Repr

/-- Places for teams of a kernel on a core, in order, of so many groups each (R60, R61, R66). -/
def seatTeams (k : Kernel) : List Nat → List Nat → List (Nat × Nat) → List (Nat × Nat) → Option (List Seat)
  | [], _, _, _ => some []
  | n :: ns, slots, ranges, held =>
    match (List.range 4).find? (fun i => !(i ∈ slots)), lowestOffset ranges k.spad, seatGroups n held with
    | some i, some a, some gs =>
      (seatTeams k ns (slots ++ [i]) (ranges ++ [(a, a + k.spad)]) (held ++ gs)).map (fun r =>
        { slot := i, off := a, groups := gs } :: r)
    | _, _, _ => none

/-- Tiles that saved teams held, and the drain words that they need (R357). -/
def savedOf (s : State) (team : Nat) : Option SavedTeam := s.saved.find? (fun x => x.team = team)

/-- The groups that each team of a cluster seats on the core at position `q` of its rectangle: those of a resuming team that have not
retired, or every group of a new one (R61). -/
def seatCounts (s : State) (k : Kernel) (teams : List Nat) (q : Nat) : List Nat :=
  (List.range k.teamsPerCore).map (fun i =>
    match (teams[q * k.teamsPerCore + i]?).bind (tabFind s.teams) with
    | some tm => (liveGroups s tm).length
    | none => k.groups)
/-- Whether a core is admissible for the teams of a cluster of launch `ln`, of so many groups each (R55, R59, R61, R62, R66, R354,
R380), and the places that they take there. -/
def coreSeats (s : State) (ln : Nat) (l : Launch) (ns : List Nat) (c : Nat) : Option (List Seat) :=
  let k := l.kern
  let ts := teamsAt s c
  let others := (ts.filterMap (fun e => teamLaunch s e.2)).filter (fun x => x.1 ≠ ln)
  let clash := ts.any (fun e => e.2.exited ||
    (match teamCluster s e.2 with
     | some x => x.state = .stopping || x.state = .saving
     | none => true) ||
    (match teamLaunch s e.2 with
     | some x => fusedK x.2.kern || decide (x.2.pasid ≠ l.pasid)
     | none => true))
  if (stackOf s (stackNo c)).degraded || clash || (fusedK k && !ts.isEmpty) ||
      decide (2 ≤ (others.map (fun x => x.1)).dedup.length) ||
      (k.flags.getLsbD 3 && others.any (fun x => x.2.kern.flags.getLsbD 3)) || decide (4 < ts.length + k.teamsPerCore)
  then none
  else
    seatTeams k ns (ts.map (fun e => e.2.slot))
      (ts.map (fun e => (e.2.spadOff, e.2.spadOff + (teamKernel s e.1).spad))) (seatsTaken s c)

/-- What a resuming cluster needs besides: the tiles that its teams of this core held are free, and the drain memory has
room (R357). -/
def resumeFits (s : State) (c : Nat) (teams : List Nat) : Bool :=
  let sv := teams.filterMap (savedOf s)
  sv.all (fun x => x.tokens.all (fun t => (tabFind (coreOf s c).tokens t.1).isNone)) &&
    decide (drainUsed (coreOf s c) + (sv.map (fun x => (x.progs.map (fun p => p.2.length)).sum)).sum ≤ 512)

/-! ### Rectangles (R62) -/

/-- Stack crossings of a rectangle (R62). -/
def crossings (x y w h : Nat) : Nat := ((x + w - 1) / 4 - x / 4) + ((y + h - 1) / 4 - y / 4)
def rectCores (x y w h : Nat) : List Nat := (List.range (w * h)).map (fun q => coreAt (x + q % w) (y + q / w))
/-- The first rectangle, in the order of R62, that satisfies a test. -/
def firstRect (w h : Nat) (ok : Nat → Nat → Bool) : Option (Nat × Nat) :=
  (List.range 7).findSome? (fun n =>
    (List.range (25 - h)).findSome? (fun y =>
      (List.range (33 - w)).findSome? (fun x => if crossings x y w h = n && ok x y then some (x, y) else none)))

/-- Cores that a pre-emption has freed for another launch (R52). -/
def offeredAway (s : State) (ln c : Nat) : Bool := s.offers.any (fun o => decide (o.1 ≠ ln) && decide (c ∈ o.2))
/-- Whether a rectangle is admissible for a cluster of a launch; `teams` are the teams of one that resumes, in index
order. -/
def rectFits (s : State) (ln : Nat) (l : Launch) (teams : List Nat) (x y : Nat) : Bool :=
  ((rectCores x y l.kern.width l.kern.height).mapIdx (fun q c => (q, c))).all (fun e =>
    (coreSeats s ln l (seatCounts s l.kern teams e.1) e.2).isSome && !offeredAway s ln e.2 &&
      resumeFits s e.2 ((teams.drop (e.1 * l.kern.teamsPerCore)).take l.kern.teamsPerCore))

/-! ### Seating a cluster (R58 to R61, R64, R66, R70) -/

def teamNew (cl idx core slot off : Nat) (groups : List Nat) : Team :=
  { cluster := cl, idx := idx, core := core, slot := slot, spadOff := off, groups := groups, formed := 0, rollbacks := 0,
    halted := false, exited := false, fatal := false, slices := [], snaps := [], rolling := none }

/-- A new team takes its place, with groups at their launch values (R60, R61, R70). DESIGN CHOICE: a group is the youngest of its partition
on every port when it takes its place (R72, R105; log 110). -/
def seatNew (s : State) (cl : Nat) (k : Kernel) (core idx : Nat) (x : Seat) : State :=
  let team := s.fresh
  let ids := x.groups.mapIdx (fun i e => (team + 1 + i, i, e))
  let s := { s with fresh := team + 1 + x.groups.length,
                    teams := tabPut s.teams team (teamNew cl idx core x.slot x.off (ids.map (fun e => e.1))) }
  let s := ids.foldl (fun s e => setGroup s e.1
    { groupNew team e.2.1 core e.2.2.1 e.2.2.2 (BitVec.ofNat 32 k.scalarEntry) (BitVec.ofNat 32 k.laneEntry)
        (BitVec.ofNat 32 k.ejth) with age := e.1, ageA := e.1, ageB := e.1 }) s
  modCluster s cl (fun c => { c with teams := c.teams ++ [team] })
/-- A saved team takes a place afresh, with those of its groups that have not retired (R61, R354, R357); on another core its old core has
written its groups' lines back (R352), and its images are to be allocated there. -/
def seatSaved (s : State) (core team : Nat) (x : Seat) : State :=
  match tabFind s.teams team with
  | none => s
  | some tm =>
    let s := modTeam s team (fun t => { t with core := core, slot := x.slot, spadOff := x.off })
    let s := if tm.core = core then s
      else tm.groups.foldl (fun s g => modGroup (dropLines s g) g (fun x => { x with core := core, image := none })) s
    (((liveGroups s tm).map (fun e => e.1)).zip x.groups).foldl (fun s e => modGroup s e.1 (fun g => { g with
      part := e.2.1, place := e.2.2, age := s.fresh, ageA := s.fresh, ageB := s.fresh })) { s with fresh := s.fresh + 1 }
/-- Every team of a cluster takes its place on the rectangle at an origin. -/
def seatCluster (s : State) (cl ox oy : Nat) : State :=
  match tabFind s.clusters cl with
  | none => s
  | some c =>
    match tabFind s.launches c.launch with
    | none => s
    | some l =>
      let k := l.kern
      let old := c.teams
      let s := modCluster s cl (fun x => { x with
        ox := ox, oy := oy, state := if old.isEmpty then .requested else .restoring })
      ((rectCores ox oy k.width k.height).mapIdx (fun q n => (q, n))).foldl (fun s e =>
        match coreSeats { s with teams := s.teams.filter (fun t => decide (t.2.cluster ≠ cl)) } c.launch l
            (seatCounts s k old e.1) e.2 with
        | none => s
        | some xs => (xs.mapIdx (fun i x => (i, x))).foldl (fun s y =>
            match old[e.1 * k.teamsPerCore + y.1]? with
            | some t => seatSaved s e.2 t y.2
            | none => seatNew s cl k e.2 (e.1 * k.teamsPerCore + y.1) y.2) s) s

/-! ### The search (R52, R62, R63, R357) -/

/-- A cluster that waits: class, whether it has not run yet, launch, and the cluster that is out. -/
structure Waiting where
  cls : Nat
  fresh : Bool
  launch : Nat
  cluster : Option Nat
deriving DecidableEq, Repr

/-- What waits for a rectangle: clusters that are out, and launches with clusters never placed. -/
def waitList (s : State) : List Waiting :=
  (s.clusters.filterMap (fun e =>
    if e.2.state = .out then
      (tabFind s.launches e.2.launch).map (fun l =>
        { cls := l.cls, fresh := false, launch := e.2.launch, cluster := some e.1 })
    else none)) ++
  (s.launches.filterMap (fun e =>
    if e.2.nextCluster < e.2.grid ∧ !e.2.killed then
      some { cls := e.2.cls, fresh := true, launch := e.1, cluster := none }
    else none))
/-- The order in which waiting clusters are tried (R52): by class, then those that were pre-empted, then by launch. -/
def waitOrder (s : State) : List Waiting :=
  let ws := waitList s
  (List.range 4).flatMap (fun c =>
    (ws.filter (fun w => w.cls = c && !w.fresh)) ++ (ws.filter (fun w => w.cls = c && w.fresh)))
/-- The launch that a pre-emption made room for comes first (R52). -/
def tryOrder (s : State) : List Waiting :=
  let ws := waitOrder s
  let first := fun (w : Waiting) => s.offers.any (fun o => o.1 = w.launch)
  ws.filter first ++ ws.filter (fun w => !first w)

/-- Request a placement: the cluster's cores are reserved (R64). -/
def postRequest (s : State) (cl x y : Nat) : State :=
  { s with placeReqs := s.placeReqs ++ [{ cluster := cl, ox := x, oy := y }] }
/-- A new cluster of a launch. -/
def newCluster (s : State) (ln : Nat) (l : Launch) : State :=
  let c : Cluster :=
    { launch := ln, index := l.nextCluster, ox := 0, oy := 0, state := .requested, teams := [], placed := 0, since := 0 }
  modLaunch { s with clusters := tabPut s.clusters s.fresh c, fresh := s.fresh + 1 } ln (fun x => { x with
    nextCluster := x.nextCluster + 1 })

/-- Place what waits in one launch, up to `n` clusters in ascending index (R62): the state with its requests, and a copy in
which the reserved cores are taken. -/
def tryLaunch (ln : Nat) : Nat → State × State → State × State
  | 0, r => r
  | n + 1, (s, taken) =>
    match tabFind s.launches ln with
    | none => (s, taken)
    | some l =>
      if l.grid ≤ l.nextCluster then (s, taken)
      else match firstRect l.kern.width l.kern.height (rectFits taken ln l []) with
        | none => (s, taken)
        | some (x, y) =>
          let cl := max s.fresh taken.fresh
          let s := { s with fresh := cl }
          let s := postRequest (newCluster s ln l) cl x y
          tryLaunch ln n (s, seatCluster (newCluster { taken with fresh := cl } ln l) cl x y)
/-- Try one waiting cluster or launch; a pre-empted cluster that finds no rectangle holds back the later clusters of its launch, which
`r.2` lists (R63). -/
def tryOne (r : (State × State) × List Nat) (w : Waiting) : (State × State) × List Nat :=
  if w.launch ∈ r.2 then r
  else match w.cluster, tabFind r.1.1.launches w.launch with
  | some cl, some l =>
    match tabFind r.1.1.clusters cl with
    | some c =>
      match firstRect l.kern.width l.kern.height (rectFits r.1.2 w.launch l c.teams) with
      | some (x, y) => ((postRequest r.1.1 cl x y, seatCluster r.1.2 cl x y), r.2)
      | none => (r.1, w.launch :: r.2)
    | none => r
  | none, some _ => (tryLaunch w.launch 3072 r.1, r.2)
  | _, none => r

/-- Whether a pre-emption still holds some of the cores that it offers. -/
def offerHeld (s : State) (o : Nat × List Nat) : Bool :=
  o.2.any (fun c => (teamsAt s c).any (fun e => match teamCluster s e.2 with
    | some x => x.state = .stopping || x.state = .saving
    | none => false))
/-- `PLACEMENT_SEARCH` (R52, R62, R63): every waiting cluster that finds an admissible rectangle has its placement
requested. -/
def execPlacementSearch (s : State) : Out :=
  if !s.placeReqs.isEmpty then .next s
  else
    let r := ((tryOrder s).foldl tryOne ((s, s), [])).1.1
    .next { r with offers := s.offers.filter (offerHeld s) }

/-! ### The grant (R55, R56, R64, R66, R251, R261) -/

/-- Scrub of a core that another PASID held last (R56): lines of the register cache that sealed groups left there go to their images
first (R352). -/
def scrub (s : State) (c pasid : Nat) : State :=
  if (coreOf s c).lastPasid = pasid then s
  else modCore (cleanCore (dropSealed s c) c) c (fun k => { k with
    col := [], homes := [], l1 := [], spad := [], spadPoison := [], acc := [], accPoison := [], scale := [], scalePoison := [], progs := [] })
/-- A core is bound to a PASID (R55, R56). -/
def bindCore (s : State) (c pasid : Nat) : State :=
  modCore (scrub s c pasid) c (fun k => { k with pasid := pasid, lastPasid := pasid })
/-- A team's scale bank is zeroed and its programs are preloaded (R251, R261). -/
def prepareTeam (s : State) (team : Nat) (ps : List (List Dword)) : State :=
  match tabFind s.teams team with
  | none => s
  | some tm =>
    modCore s tm.core (fun k =>
      let k := { k with
        scale := k.scale.filter (fun e => decide (e.1 / 16384 ≠ tm.slot)),
        scalePoison := k.scalePoison.filter (fun e => decide (e / 16384 ≠ tm.slot)) }
      (ps.mapIdx (fun i p => (i, p))).foldl (fun k e => putProg k team e.1 e.2) k)
/-! ### Memory for images and save areas (R70, R354) -/

/-- Runs of frames of a core's column that images hold; a group keeps its image until its cluster leaves (R380). -/
def imagesHeld (s : State) (c : Nat) : List (Nat × Nat) :=
  s.groups.filterMap (fun e =>
    if e.2.core = c ∧ e.2.garnet.isNone then
      e.2.image.map (fun i => (i, i + imageSize (kernOf s e.2)))
    else none)
/-- The team whose token a tile carries (R256). -/
def tokenTeam : Token → Nat
  | .m t _ => t
  | .p t _ _ => t
  | .v t _ => t
/-- Frames of the save area that a team needs for what it holds: its record, its tiles, its scale bank, its drain words and its partition
(R354). -/
def saveSize (s : State) (team : Nat) (tm : Team) : Nat :=
  let k := coreOf s tm.core
  let tiles := (k.tokens.filter (fun e => decide (tokenTeam e.2 = team))).length
  let words := ((k.progs.filter (fun p => decide (p.1 = team))).map (fun p => p.2.2.length)).sum
  (16384 + 65536 * tiles + 16384 + 8 * words + (teamKernel s team).spad + 4095) / 4096
/-- Runs of frames of a core's column that save areas hold. -/
def savesHeld (s : State) (c : Nat) : List (Nat × Nat) :=
  s.teams.filterMap (fun e => match e.2.save with
    | some (q, i, n) => if q = c then some (i, i + n) else none
    | none => none)
/-- The first run of `n` frames of a core's column that no image and no save area holds (R70, R354). -/
def freeFrames (s : State) (c n : Nat) : Option Nat := lowestFit privateFrames (imagesHeld s c ++ savesHeld s c) n
/-- Allocate a save area in the column of a team's core (R350, R354). -/
def giveSave (s : State) (team : Nat) : Option State :=
  match tabFind s.teams team with
  | none => some s
  | some tm =>
    let n := saveSize s team tm
    (freeFrames s tm.core n).map (fun i => modTeam s team (fun t => { t with save := some (tm.core, i, n) }))
/-- Allocate the save areas of the teams of clusters afresh, none where the memory lacks (R350 step 4, R354). -/
def giveSaves (s : State) (cls : List Nat) : Option State :=
  let ts := cls.flatMap (fun cl => ((tabFind s.clusters cl).map (fun c => c.teams)).getD [])
  ts.foldl (fun r t => r.bind (fun s => giveSave s t)) (some (ts.foldl (fun s t => modTeam s t (fun x => { x with save := none })) s))
/-- Allocate an image for a group that has none: the first run of its column that is free (R70). -/
def giveImage (s : State) (gid : Nat) : Option State :=
  match tabFind s.groups gid with
  | none => some s
  | some g =>
    if g.image.isSome then some s
    else (freeFrames s g.core (imageSize (kernOf s g))).map (fun i =>
      setGroup s gid { g with image := some i })
/-- Allocate the images of a cluster's groups, none where the memory lacks (R64 step 3, R70). -/
def giveImages (s : State) (cl : Nat) : Option State :=
  ((((tabFind s.clusters cl).map (fun c => c.teams)).getD []).flatMap (fun t =>
    ((tabFind s.teams t).map (fun tm => (liveGroups s tm).map (fun e => e.1))).getD [])).foldl
    (fun r g => r.bind (fun s => giveImage s g)) (some s)

/-- The groups of a cluster that have not retired. -/
def clusterGroups (s : State) (cl : Nat) : List (Nat × Group) :=
  (((tabFind s.clusters cl).map (fun c => c.teams)).getD []).flatMap (fun t => ((tabFind s.teams t).map (liveGroups s)).getD [])
/-- A new image holds zeros and the launch values of its group (R70). -/
def newImage (s : State) (gid : Nat) : State := writeFixed (clearImage s gid) gid 8192
/-- The image of a group that resumes on another core follows it (R357). -/
def moveImage (s : State) (gid : Nat) (old : Group) : State :=
  match tabFind s.groups gid with
  | some g => if g.core = old.core then s else copyImage s old g (4096 * imageSize (kernOf s g))
  | none => s
/-- The steps that a grant carries out on the cores of a cluster (R64). -/
def carryOut (s : State) (cl : Nat) (l : Launch) (x y : Nat) (ps : List (List Dword)) : State :=
  let cores := rectCores x y l.kern.width l.kern.height
  let resumed := ((tabFind s.clusters cl).map (fun c => !c.teams.isEmpty)).getD false
  let s := cores.foldl (fun s c => bindCore s c l.pasid) s
  let old := clusterGroups s cl
  let s := seatCluster s cl x y
  let s := (giveImages s cl).getD s
  let s := if resumed then old.foldl (fun s e => moveImage s e.1 e.2) s else (clusterGroups s cl).foldl (fun s e => newImage s e.1) s
  let s := cores.foldl (fun s c => setUnits s c (unitsNeeded s c)) s
  let s := if fusedK l.kern then cores.foldl (fun s c => modCore s c (fun k => { k with l1 := [] })) s else s
  if resumed then s
  else
    let s := (((tabFind s.clusters cl).map (fun c => c.teams)).getD []).foldl (fun s t => prepareTeam s t ps) s
    modCluster { s with fresh := s.fresh + 1 } cl (fun c => { c with state := .resident, placed := s.fresh, since := s.clock })

/-- A refused request (R55, R63, R64): the cluster and the later ones of its launch wait again; those of them that never ran are
placed afresh. -/
def refuseRequest (s : State) (cl : Nat) : State :=
  match tabFind s.clusters cl with
  | none => s
  | some c =>
    let later := s.clusters.filter (fun e => decide (e.2.launch = c.launch) && decide (c.index ≤ e.2.index))
    let back := (later.filter (fun e => e.2.state = .requested)).map (fun e => e.1)
    modLaunch { s with
      clusters := s.clusters.filter (fun e => !(e.1 ∈ back)),
      placeReqs := s.placeReqs.filter (fun r => !later.any (fun e => decide (e.1 = r.cluster))) } c.launch
      (fun l => { l with nextCluster := l.nextCluster - back.length })

/-- Whether core 2 grants a request (R55, R62, R70, R261): the places are still there, the drain memory of every core has room for the
preloaded programs, and the columns have memory for the images. -/
def grantable (s : State) (cl : Nat) (c : Cluster) (l : Launch) (x y words : Nat) : Bool :=
  !l.killed && !closingP s l.pasid &&
    (c.state = .out || (rectCores x y l.kern.width l.kern.height).all (fun n =>
      decide (drainUsed (coreOf s n) + l.kern.teamsPerCore * words ≤ 512))) &&
    rectFits { s with offers := [] } c.launch l c.teams x y && (tabFind s.clusters cl).isSome &&
    (giveImages (seatCluster s cl x y) cl).isSome

/-- `PLACEMENT_REQUEST` (R55, R64): core 2 grants the oldest request or refuses it. -/
def execPlacementRequest (s : State) : Out :=
  match s.placeReqs with
  | [] => .next s
  | r :: rest =>
    let s := { s with placeReqs := rest }
    match tabFind s.clusters r.cluster with
    | none => .next s
    | some c =>
      match tabFind s.launches c.launch with
      | none => .next s
      | some l =>
        match (if c.state = .out then some [] else preloads s l.pasid l.kern) with
        | none => .next (refuseRequest s r.cluster)
        | some ps =>
          if grantable s r.cluster c l r.ox r.oy ((ps.map List.length).sum) then .next (carryOut s r.cluster l r.ox r.oy ps)
          else .next (refuseRequest s r.cluster)

/-! ### The end of a launch (R383, R384) -/

/-- Every cluster of a launch has exited or been killed (R384). -/
def launchOver (s : State) (ln : Nat) (l : Launch) : Bool :=
  (l.killed || decide (l.grid ≤ l.nextCluster)) &&
    s.clusters.all (fun e => decide (e.2.launch ≠ ln) || e.2.state = .gone)
/-- The completion record (R383). -/
def recordWords (l : Launch) : List Word :=
  let n := fun (x : Nat) => BitVec.ofNat 32 x
  let tags := l.tags.take 20
  [if l.killed then 2 else 1, if l.itemFault then 1 else 0, l.cause, n l.unrecorded, n l.delivered, n (l.delivered / 2 ^ 32),
   n l.discarded, n (l.discarded / 2 ^ 32), n (l.itemCount - l.delivered - l.discarded),
   n ((l.itemCount - l.delivered - l.discarded) / 2 ^ 32), n l.deadLanes, n tags.length] ++ tags ++
    List.replicate (20 - tags.length) 0
/-- The words of a record as one number, the first lowest. -/
def wordsNat (ws : List Word) : Nat := ws.foldr (fun w a => w.toNat + 2 ^ 32 * a) 0

/-- A launch ends (R383, R384). -/
def finishLaunch (s : State) (ln : Nat) : State :=
  modLaunch s ln (fun x => { x with finished := true, undelivered := x.itemCount - x.delivered - x.discarded })
/-- A class 2 record of a launch waits in a stack's latch (R341, R383). -/
def latched (s : State) (ln : Nat) : Bool := s.stks.any (fun e => e.2.fatal.any (fun r => decide (r.launch = some ln)))
/-- `LAUNCH_COMPLETE` (R384): the record is written with a release at system scope (R307), and the packet's effects are done; a
fault on the write puts the queue into the error state. A killed launch's cause is that of the first record that lands (R383), so a
record in a latch is waited for. -/
def execLaunchComplete (ln : Nat) (s : State) : Out :=
  match tabFind s.launches ln with
  | none => .next s
  | some l =>
    if l.finished || !launchOver s ln l then .next s
    else if l.silent || closingP s l.pasid then .next (finishLaunch s ln)
    else if latched s ln && l.cause = 0 then .next s
    else
      let s := cleanAll s
      if hostStale s then .next s
      else
        let s := finishLaunch s ln
        let s := match fetcherWrite s l.pasid 128 l.recAddr (wordsNat (recordWords l)) with
          | some s => s
          | none => queueFail s l.queue 0x04 l.pkt
        .next (packetDone s l.queue l.pkt)

end Sys2Proof.Machine
end

