-- ==== Sys2Proof/Machine/Preempt.lean ====
section
/-! DEFINITION. Pre-emption (R350 to R358), and the snapshots and rollbacks of a team (R165, R166, R353, R367, R368). -/
namespace Sys2Proof.Machine

/-! ### The decision (R350) -/

/-- 100 µs in clocks of 1 ns (R350, R359). -/
def keepClocks : Nat := 100000
/-- Cores on which a cluster has teams. -/
def clusterHeld (s : State) (cl : Nat) : List Nat :=
  (s.teams.filter (fun e => decide (e.2.cluster = cl))).foldl (fun cs e => setIns cs e.2.core) []
/-- The module as it would be without a cluster. -/
def withoutCluster (s : State) (cl : Nat) : State :=
  let gone := (s.teams.filter (fun e => decide (e.2.cluster = cl))).map (fun e => e.1)
  let held := fun (k : Token) => match k with
    | .m t _ => decide (t ∈ gone)
    | .p t _ _ => decide (t ∈ gone)
    | .v t _ => decide (t ∈ gone)
  (clusterHeld s cl).foldl (fun s c => modCore s c (fun k => { k with
      tokens := k.tokens.filter (fun e => !held e.2), progs := k.progs.filter (fun p => !(p.1 ∈ gone)) }))
    { s with teams := s.teams.filter (fun e => !(e.1 ∈ gone)) }

/-- Whether one cluster is removed before another: of lower priority, or placed or resumed later (R350). -/
def removedFirst (s : State) (a b : Nat × Cluster) : Bool :=
  let cls := fun (c : Cluster) => ((tabFind s.launches c.launch).map (fun l => l.cls)).getD 0
  decide (cls b.2 < cls a.2) || (cls a.2 = cls b.2 && decide (b.2.placed < a.2.placed))
/-- Insert a victim by the order of R350. -/
def putVictim (s : State) (v : Nat × Cluster) : List (Nat × Cluster) → List (Nat × Cluster)
  | [] => [v]
  | w :: t => if removedFirst s v w then v :: w :: t else w :: putVictim s v t
/-- The clusters on a rectangle's cores that a launch of class `cls` may have pre-empted, in the order of R350. -/
def victims (s : State) (cls : Nat) (cores : List Nat) : List (Nat × Cluster) :=
  ((s.clusters.filter (fun e =>
    e.2.state = .resident && (clusterHeld s e.1).any (fun c => c ∈ cores) &&
      (match tabFind s.launches e.2.launch with
       | some l => decide (cls < l.cls)
       | none => false) &&
      (cls = 0 || decide (e.2.since + keepClocks ≤ s.clock))))).foldl (fun vs v => putVictim s v vs) []
/-- Remove victims until the rectangle is admissible: those removed. -/
def removeUntil (ok : State → Bool) : State → List (Nat × Cluster) → Option (List Nat)
  | s, [] => if ok s then some [] else none
  | s, v :: t => if ok s then some [] else (removeUntil ok (withoutCluster s v.1) t).map (fun r => v.1 :: r)

/-- Every rectangle of a size in the order of R62. -/
def allRects (w h : Nat) : List (Nat × Nat) :=
  (List.range 7).flatMap (fun n => (List.range (25 - h)).flatMap (fun y =>
    ((List.range (33 - w)).filter (fun x => crossings x y w h = n)).map (fun x => (x, y))))
/-- The rectangle that needs the fewest cores pre-empted, the first of equals, with its victims (R350). -/
def bestRect (s : State) (ln : Nat) (l : Launch) (teams : List Nat) : Option ((Nat × Nat) × List Nat) :=
  let w := l.kern.width
  let h := l.kern.height
  let cost := fun (vs : List Nat) => (vs.foldl (fun cs v => (clusterHeld s v).foldl setIns cs) ([] : List Nat)).length
  (allRects w h).foldl (fun b r =>
    match removeUntil (fun s => rectFits s ln l teams r.1 r.2) s (victims s l.cls (rectCores r.1 r.2 w h)) with
    | none => b
    | some vs =>
      match b with
      | some (_, us) => if cost vs < cost us then some (r, vs) else b
      | none => some (r, vs)) none

/-- Core 2 carries out a pre-emption for a launch only under R55's check of its PASID, and refuses it where the process is closing or the
launch is killed (R350, R385). -/
def mayPreempt (s : State) (l : Launch) : Bool :=
  !l.killed && !closingP s l.pasid && ((tabFind s.queues l.queue).map (fun q => decide (q.pasid = l.pasid))).getD false
/-- A cluster of a launch that is out comes before its later ones (R63). -/
def heldBack (s : State) (w : Waiting) : Bool :=
  w.fresh && s.clusters.any (fun e => decide (e.2.launch = w.launch) && e.2.state = .out)
/-- What core 1 would pre-empt for one waiting launch: nothing for a background launch, for one that waits for an earlier
pre-emption or behind a cluster that is out, for one that fits as it is, or where the victims' save areas do not fit (R63, R350). -/
def decideFor (s : State) (w : Waiting) : Option (Nat × (Nat × Nat) × List Nat) :=
  match tabFind s.launches w.launch with
  | none => none
  | some l =>
    let teams := ((w.cluster.bind (tabFind s.clusters)).map (fun c => c.teams)).getD []
    if 3 ≤ l.cls ∨ s.offers.any (fun o => o.1 = w.launch) ∨ heldBack s w ∨ !mayPreempt s l then none
    else match bestRect s w.launch l teams with
      | some (_, []) => none
      | some (r, vs) => if (giveSaves s vs).isSome then some (w.launch, r, vs) else none
      | none => none

/-- `PREEMPT_DECISION` (R350): the victims' save areas are allocated, the victims stop, and their rectangle is offered to the launch that waits. -/
def execPreemptDecision (s : State) : Out :=
  match (waitOrder s).findSome? (decideFor s) with
  | none => .next s
  | some (ln, (x, y), vs) =>
    let cores := ((tabFind s.launches ln).map (fun l => rectCores x y l.kern.width l.kern.height)).getD []
    let s := (giveSaves s vs).getD s
    .next (vs.foldl (fun s v => modCluster s v (fun c => { c with state := .stopping }))
      { s with offers := s.offers ++ [(ln, cores)] })

/-! ### Stopping (R351, R352) -/

/-- A group of a cluster that stops: what was suspended at its checks is abandoned and re-issues later, an uncommitted
`SNAP` is abandoned, and its rejoin timers pause (R127, R351). -/
def stopGroup (now : Nat) (g : Group) : Group :=
  let idle := g.susp = .run || g.susp = .walk
  { g with
    susp := if g.susp = .walk then .run else g.susp,
    pausedAt := if idle && g.handler.isNone && decide (g.pausedAt = 0) then now else g.pausedAt,
    paths := g.paths.map (fun p => match p.hold with
      | .snap => { p with hold := .free }
      | .eject _ _ _ _ _ => { p with hold := .free }
      | _ => p) }
/-- Groups of a list of teams, contexts apart. -/
def groupsOf (s : State) (teams : List Nat) : List Nat :=
  (s.groups.filter (fun e => decide (e.2.team ∈ teams) && e.2.garnet.isNone)).map (fun e => e.1)
/-- Every core of a cluster takes the stop notice (R351); a rollback under way is abandoned with its instruction. -/
def stopCluster (s : State) (teams : List Nat) : State :=
  let gs := groupsOf s teams
  let s := gs.foldl (fun s g => modGroup s g (stopGroup s.clock)) s
  let s := teams.foldl (fun s t => modTeam s t (fun x => { x with rolling := none })) s
  { s with stks := s.stks.map (fun e => (e.1, { e.2 with walks := e.2.walks.filter (fun w => !(w.grp ∈ gs)) })) }
/-- `STOP_NOTICE` (R351) -/
def execStopNotice (cl : Nat) (s : State) : Out :=
  match tabFind s.clusters cl with
  | some c => if c.state = .stopping then .next (stopCluster s c.teams) else .next s
  | none => .next s

/-- A request that may be outstanding in a sealed image (R351, R356); an `SCLD` that has read its source stays behind the stopped matrix
instruction that it waits for. -/
def mayRest (s : State) (g : Group) (r : Req) : Bool :=
  r.late ||
  match r.kind with
  | .scldRead off ws => scaleInUse s g r.id off (4 * ws.length)
  | .job _ _ | .cpyc _ | .taskwait _ _ | .gang _ _ | .tktake _ | .tkpass _ | .bwait _ _ _ _ _ _ _ | .xred _ _ | .xwait _ _
  | .apfence _ _ _ | .seal _ => true
  | .append seg sq _ => ((tabFind s.segments seg).map (fun g => !(sq ∈ g.unread))).getD true
  | _ => false
/-- A `CPYC` or `CPYX` of the teams that touches a scratchpad or has an arrival target: it completes before saving starts (R351). -/
def mustFinish (x : Sub) (teams : List Nat) : Bool :=
  let spad := x.foot.any (fun f => f.spad)
  (x.team.map (fun t => decide (t ∈ teams))).getD false && x.regions.isEmpty && match x.work with
    | .slices ss => spad || ss.any (fun y => y.target.isSome)
    | .gather _ _ _ t _ => spad || t.isSome
    | _ => false
/-- Every group is sealed, every matrix instruction is at a gap, and the copies that must complete have (R352, R354). -/
def maySave (s : State) (teams : List Nat) : Bool :=
  let gs := groupsOf s teams
  s.groups.all (fun e =>
    (match e.2.garnet with
     | some i => !(i.parent ∈ gs)
     | none => true) &&
    (!(e.1 ∈ gs) || e.2.reqs.all (mayRest s e.2))) &&
  teams.all (fun t =>
    match tabFind s.teams t with
    | some tm =>
      let k := coreOf s tm.core
      match k.drain with
      | some d => !d.inSeg || !(k.seq.any (fun e => decide (e.id = d.ent) && decide (e.team = t)))
      | none => true
    | none => true) &&
  s.stks.all (fun e => e.2.subs.all (fun x => !mustFinish x teams))

/-- The clock in which the last pending result or sticky flag of a group is due (R109, R182). -/
def lastDue (g : Group) : Nat := g.fpDue.foldl (fun m e => Nat.max m e.1) (g.pend.foldl (fun m e => Nat.max m e.at_) 0)
/-- A group is sealed (R352, R353): its results are written, it is no longer resident, and core 2 writes the fixed part of its image. -/
def sealGroup (s : State) (gid : Nat) : State :=
  writeFixed (modGroup s gid (fun x => { landAll x (lastDue x) with resident := false, named := [] })) gid 8192
/-- `SAVE_START` (R352, R354): save areas are allocated for what the teams hold now, and every group is sealed. -/
def execSaveStart (cl : Nat) (s : State) : Out :=
  match tabFind s.clusters cl with
  | some c =>
    if c.state = .stopping && maySave s c.teams then
      match giveSaves s [cl] with
      | none => .next s
      | some s => .next (modCluster ((groupsOf s c.teams).foldl sealGroup (stopCluster s c.teams)) cl (fun x => { x with state := .saving }))
    else .next s
  | none => .next s

/-! ### Saving (R354, R355) -/

/-- What a core holds from `lo` up to `lo + n`, by relative key. -/
def tabSlice {α : Type} (t : Tab α) (lo n : Nat) : Tab α :=
  (t.filter (fun e => decide (lo ≤ e.1) && decide (e.1 < lo + n))).map (fun e => (e.1 - lo, e.2))
/-- The keys of a table moved up by `lo`, put into another. -/
def tabMerge {α : Type} (into t : Tab α) (lo : Nat) : Tab α := t.foldl (fun r e => tabPut r (lo + e.1) e.2) into
/-- The save area of a team (R354); a drain under way is saved with its restart record, of cause 0 unless a fault has suspended it
(R275). -/
def saveArea (s : State) (team : Nat) (tm : Team) : SavedTeam :=
  let k := coreOf s tm.core
  let size := (teamKernel s team).spad
  let held := k.tokens.filter (fun e => decide (tokenTeam e.2 = team))
  let mine := fun (e : GangEnt) => decide (e.team = team)
  let keepDrain := fun (e : GangEnt) => match k.drain with
    | some d =>
      if d.ent = e.id then
        { e with saved := some { d with restart := if d.suspended.isSome then d.restart else restartRecord e 0 d.row d.seg 0 } }
      else e
    | none => e
  { team := team, tiles := held.map (fun e => (e.1, tabSlice k.acc (accKey e.1 0) 16384)), tokens := held,
    extents := k.extents.filter (fun e => held.any (fun t => t.1 = e.1)), scale := tabSlice k.scale (tm.slot * 16384) 16384,
    progs := (k.progs.filter (fun p => decide (p.1 = team))).map (fun p => (p.2.1, p.2.2)),
    spad := tabSlice k.spad tm.spadOff size,
    poison := (k.spadPoison.filter (fun w => decide (tm.spadOff ≤ 4 * w) && decide (4 * w < tm.spadOff + size))).map
      (fun w => w - tm.spadOff / 4),
    bars := (k.bars.filter (fun b => decide (tm.spadOff ≤ b.1) && decide (b.1 < tm.spadOff + size))).map
      (fun b => (b.1 - tm.spadOff, b.2)),
    gangs := ((k.seq.filter mine).map keepDrain) ++ k.latch.filter mine,
    tilePoison := held.map (fun e => (e.1, (k.accPoison.filter (fun x => x / 16384 = e.1)).map (fun x => x % 16384))),
    scalePoison := (k.scalePoison.filter (fun x => x / 16384 = tm.slot)).map (fun x => x % 16384) }
/-- The four bytes of a tile token (R354): state, index of the group, count. -/
def tokenWord (s : State) : Token → Word
  | .m _ n => BitVec.ofNat 32 (1 + 64 * n)
  | .p _ g n => BitVec.ofNat 32 (2 + 4 * ((tabFind s.groups g).map (fun x => x.idx)).getD 0 + 64 * n)
  | .v _ g => BitVec.ofNat 32 (3 + 4 * ((tabFind s.groups g).map (fun x => x.idx)).getD 0)
/-- A matrix record of 832 bytes (R354). DESIGN CHOICE: its fields follow one another in the order in which R354 lists them (log 109). -/
def matrixWords (s : State) (e : GangEnt) : List Word :=
  let joined := e.members.foldl (fun m x => m + 2 ^ ((tabFind s.groups x.1).map (fun g => g.idx)).getD 0) 0
  let state := if e.begun then 2 else if e.fired then 1 else 0
  let restart := (e.saved.map (fun d => d.restart)).getD 0
  [e.word.extractLsb' 0 32, e.word.extractLsb' 32 32, e.word.extractLsb' 64 32, e.gang, BitVec.ofNat 32 joined, BitVec.ofNat 32 state,
    BitVec.ofNat 32 e.kb, e.sigma, restart.extractLsb' 0 32, restart.extractLsb' 32 32] ++
    (List.range 64).map (fun i => tabGet 0 e.regs i) ++ e.prog.flatMap (fun w => [w.extractLsb' 0 32, w.extractLsb' 32 32])
/-- A withdrawn `CPYC` slice of 64 bytes (R354). -/
def sliceWords (x : Slice) : List Word := [x.ir.extractLsb' 0 32, x.ir.extractLsb' 32 32, x.ir.extractLsb' 64 32] ++ x.blocks
/-- A byte of records of `n` bytes each, whose words `f` gives. -/
def recordByte {α : Type} (l : List α) (n : Nat) (f : α → List Word) (off : Nat) : Byte :=
  match l[off / n]? with
  | some x => wordsByte (f x) (off % n)
  | none => 0
/-- A byte of a team record (R354). -/
def teamByteAt (s : State) (tm : Team) (x : SavedTeam) (off : Nat) : Byte :=
  let cl := tabFind s.clusters tm.cluster
  let slots := (List.range 16).map (fun i => ((x.progs.find? (fun p => p.1 = i)).map (fun p => p.2.length)).getD 0)
  if off < 0x10 then
    wordsByte [BitVec.ofNat 32 (teamPasid s x.team), BitVec.ofNat 32 ((cl.map (fun c => c.index)).getD 0),
      BitVec.ofNat 32 (tm.idx % 32 + 32 * (tm.slot % 4)), BitVec.ofNat 32 (teamKernel s x.team).spad] off
  else if off < 0x50 then wordsByte ((List.range 16).map (fun t => ((tabFind x.tokens t).map (tokenWord s)).getD 0)) (off - 0x10)
  else if off < 0x70 then BitVec.ofNat 8 ((slots[(off - 0x50) / 2]?).getD 0 / 256 ^ ((off - 0x50) % 2))
  else if off < 0x100 then 0
  else if off < 0x2B40 then recordByte x.gangs 832 (matrixWords s) (off - 0x100)
  else if off < 0x2C00 then 0
  else if off < 0x3C00 then recordByte tm.slices 64 (fun e => sliceWords e.2.2) (off - 0x2C00)
  else 0
/-- A byte of a team save area (R354): record, held tiles in ascending order, scale bank, drain words, partition. -/
def areaByte (s : State) (tm : Team) (x : SavedTeam) (off : Nat) : Byte :=
  let tiles := 65536 * x.tiles.length
  let words := x.progs.flatMap (fun p => p.2)
  if off < 16384 then teamByteAt s tm x off
  else if off < 16384 + tiles then
    match x.tiles[(off - 16384) / 65536]? with
    | some t => wordByte (tabGet 0 t.2 ((off - 16384) % 65536 / 4)) (off % 4)
    | none => 0
  else if off < 32768 + tiles then tabGet 0 x.scale (off - 16384 - tiles)
  else if off < 32768 + tiles + 8 * words.length then
    let o := off - 32768 - tiles
    ((words[o / 8]?).getD 0 >>> (8 * (o % 8))).setWidth 8
  else tabGet 0 x.spad (off - 32768 - tiles - 8 * words.length)
/-- Core 2 writes a team's save area (R354). -/
def writeArea (s : State) (x : SavedTeam) : State :=
  match tabFind s.teams x.team with
  | some tm =>
    match tm.save with
    | some (q, i, n) =>
      let place := fun (off : Nat) => Config.privBase + columnFrame q (i + off / 4096) + off % 4096
      freshCodewords ((List.range (4096 * n)).foldl (fun t off => homePut t (place off) (areaByte s tm x off)) s) (4096 * n)
        (fun off => some (place off))
    | none => s
  | none => s
/-- The core numbers of waits registered in a partition that is out: beyond every core. -/
def awayCore : Nat := Config.coreCount
/-- A path without the words that its buffer holds (R103). -/
def unheld (p : Path) : Path := { p with heldS := [], heldL := [] }
/-- A `BWAIT` of a cluster that is out waits at no core's unit, and no buffer holds its words (R103, R351, R353). -/
def parkWaits (g : Group) : Group :=
  { g with paths := g.paths.map unheld, reqs := g.reqs.map (fun r =>
      match r.kind with
      | .bwait c o w ph own l b => { r with kind := .bwait (awayCore + c) o w ph own l b }
      | _ => r) }
/-- Items of a launch that lost its last team on a core go back with the ages that they have reached (R355). -/
def takeBackItems (s : State) (core ln : Nat) : State :=
  match tabFind s.launches ln with
  | none => s
  | some l =>
    let left := (teamsAt s core).any (fun e => !e.2.exited && decide ((teamLaunch s e.2).map (fun x => x.1) = some ln))
    if left || !l.kern.flags.getLsbD 3 then s
    else
      let back := (coreOf s core).items.map (fun i => (i.words, ((s.clock : Int) - i.stamp).toNat))
      modCore (modLaunch s ln (fun x => { x with kept := x.kept ++ back })) core (fun k => { k with items := [] })
/-- Write back and drop everything that a core's caches hold. -/
def evictAll (s : State) (c : Nat) : State := modCore (cleanCore s c) c (fun k => { k with col := [], l1 := [] })

/-- `SAVE_COMPLETE` (R354, R355, R358): every area is written, a team's that has exited for the partition that the others still reach, and
the cores are free. The columns are cleaned, so that the cluster finds its own writes where it resumes (R300). -/
def execSaveComplete (cl : Nat) (s : State) : Out :=
  match tabFind s.clusters cl with
  | none => .next s
  | some c =>
    if c.state ≠ .saving then .next s
    else
      let cores := clusterHeld s cl
      let s := cores.foldl evictAll s
      let here := c.teams.filterMap (fun t => (tabFind s.teams t).map (fun x => (t, x)))
      let areas := here.map (fun e => saveArea s e.1 e.2)
      let s := areas.foldl writeArea { s with saved := s.saved ++ areas }
      let s := here.foldl (fun s e => modCore s e.2.core (fun k => { k with
        bars := k.bars.filter (fun b => !(decide (e.2.spadOff ≤ b.1) &&
          decide (b.1 < e.2.spadOff + (teamKernel s e.1).spad))) })) s
      let s := here.foldl (fun s e => releaseTeam s e.1 false) s
      let s := (groupsOf s c.teams).foldl (fun s g => modGroup s g parkWaits) s
      let s := modCluster s cl (fun x => { x with state := .out })
      let s := cores.foldl (fun s q => takeBackItems s q c.launch) s
      .next (cores.foldl (fun s q => setUnits s q (unitsNeeded s q)) s)

/-! ### Resumption (R357) -/

/-- A saved team's state goes to the core and the places that it has taken. -/
def restoreTeam (s : State) (x : SavedTeam) : State :=
  match tabFind s.teams x.team with
  | none => s
  | some tm =>
    let size := (teamKernel s x.team).spad
    modCore s tm.core (fun k =>
      let k := { k with
        spad := tabMerge (k.spad.filter (fun e => decide (e.1 < tm.spadOff) || decide (tm.spadOff + size ≤ e.1))) x.spad tm.spadOff,
        spadPoison := x.poison.foldl (fun l w => setIns l (w + tm.spadOff / 4))
          (k.spadPoison.filter (fun w => decide (4 * w < tm.spadOff) || decide (tm.spadOff + size ≤ 4 * w))),
        scale := tabMerge (k.scale.filter (fun e => decide (e.1 / 16384 ≠ tm.slot))) x.scale (tm.slot * 16384),
        bars := k.bars ++ x.bars.map (fun b => (b.1 + tm.spadOff, b.2)),
        acc := x.tiles.foldl (fun a t => tabMerge a t.2 (accKey t.1 0)) k.acc,
        accPoison := x.tilePoison.foldl (fun l t => t.2.foldl (fun l e => setIns l (accKey t.1 e)) l) k.accPoison,
        scalePoison := x.scalePoison.foldl (fun l e => setIns l (tm.slot * 16384 + e))
          (k.scalePoison.filter (fun e => decide (e / 16384 ≠ tm.slot))),
        tokens := tabMerge k.tokens x.tokens 0, extents := tabMerge k.extents x.extents 0,
        latch := k.latch ++ x.gangs }
      x.progs.foldl (fun k p => putProg k x.team p.1 p.2) k)
/-- Waits find their objects again through their window offsets (R357). -/
def returnWaits (s : State) (g : Group) : Group :=
  { g with resident := true, arrivals := g.arrivals.filter (fun a => !a.spent), reqs := g.reqs.map (fun r =>
      match r.kind with
      | .bwait _ _ w ph own l b =>
        match (teamOf s g).bind (fun tm => winPlace s (kernOf s g) tm w) with
        | some (c, o) => { r with kind := .bwait c o w ph own l b }
        | none => r
      | _ => r) }
/-- A group goes on: its rejoin timers run again unless a handler or a pending record holds them (R127). -/
def wakeGroup (now : Nat) (g : Group) : Group :=
  if g.handler.isNone && g.susp = .run then resumeTimers g now else g

/-- A group that waited for a record goes on; a cluster that is stopping or out stays stopped, its timers paused. -/
def releaseGroup (s : State) (gid : Nat) : State :=
  let s := modGroup s gid (fun g =>
    let g := { g with susp := .run }
    let g := if g.handler.isNone then resumeTimers g s.clock else g
    if outOf s g && g.handler.isNone then { g with pausedAt := s.clock } else g)
  match tabFind s.groups gid with
  | some g => if outOf s g then s else takeDue s gid
  | none => s
/-- The answer to a record reaches its group (R208, R342): `s2` for `SVC`, and the path resumes after the instruction; after a replayable
fault it re-issues. A sealed image keeps the answer (R356). -/
def answerGroup (s : State) (gid : Nat) (r : TrapRec) (v : Word) : State :=
  match tabFind s.groups gid with
  | none => s
  | some g =>
    if g.susp ≠ .record r.tag then s
    else if !g.resident then setGroup s gid { g with reply := some (r, v) }
    else
      let g := if r.info.cls = 3 then
          match findPath g r.info.path with
          | some p =>
            let x := if r.info.code = 0x32 then sWrite (g, p) 2 v else (g, p)
            putPath x.1 { x.2 with spc := x.2.spc + 4 }
          | none => g
        else g
      releaseGroup (setGroup s gid g) gid
/-- A group whose image took an answer while it was out goes on by it (R356, R357). -/
def applyReply (s : State) (gid : Nat) : State :=
  match (tabFind s.groups gid).bind (fun g => g.reply.map (fun e => (g, e))) with
  | some (g, (r, v)) => answerGroup (setGroup s gid { g with reply := none }) gid r v
  | none => s
/-- `RESUME_RESTORE` (R357, R358) -/
def execResumeRestore (cl : Nat) (s : State) : Out :=
  match tabFind s.clusters cl with
  | none => .next s
  | some c =>
    if c.state ≠ .restoring then .next s
    else
      let cores := clusterHeld s cl
      let s := cores.foldl evictAll s
      let s := (s.saved.filter (fun x => x.team ∈ c.teams)).foldl restoreTeam s
      let s := { s with saved := s.saved.filter (fun x => !(x.team ∈ c.teams)) }
      let s := c.teams.foldl (fun s t => modTeam s t (fun x => { x with save := none })) s
      let gs := groupsOf s c.teams
      let s := gs.foldl (fun s g => readFixed (syncImage s g) g) s
      let s := gs.foldl (fun s g => modGroup s g (returnWaits s)) s
      let s := gs.foldl (fun s g => modGroup s g (wakeGroup s.clock)) s
      let s := modCluster { s with fresh := s.fresh + 1 } cl (fun x => { x with
        state := .resident, placed := s.fresh, since := s.clock })
      let s := gs.foldl applyReply s
      let s := gs.foldl takeDue s
      let s := cores.foldl fireAll s
      .next (settleAll s)

/-! ### Snapshots of a group (R353, R367, R368) -/

/-- The arrival entry that 8 bytes hold, if valid: its phase has completed where the object is in another (R315, R353). -/
def arrivalOf (cur : Nat → Option Nat) (lo hi : Nat) : Option Arrival :=
  if bitN hi 16 then some { off := lo, phase := hi % 65536, passed := decide (cur lo ≠ some (hi % 65536)) } else none
/-- A group restored from a snapshot of its image; the divergence state comes from the snapshot that the opaque block stands for
(R353, R367, R368). `pz` tells the poisoned bytes of the snapshot, `cur` the current phases of barrier objects. -/
def groupFromImage (now regs : Nat) (rd : Nat → Nat → Nat) (pz : Nat → Bool) (cur : Nat → Option Nat) (g : Group) (x : SnapGroup) : Group :=
  let at_ := fun (i : Nat) => 0x2000 + 384 * (i / 96) + 4 * (i % 96)
  { fixedFromImage rd g with
    spoison := x.spoison,
    vreg := (List.range (96 * regs)).foldl (fun t i => tabSet 0 t i (BitVec.ofNat 32 (rd 4 (at_ i)))) [],
    vpoison := ((List.range (96 * regs)).filter (fun i => pz (at_ i))).foldl setIns x.vpoison,
    owner := [], outq := [], reqs := [], pend := [], fpDue := [], lines := 0, named := [],
    handler := none, due := [], walked := none, susp := .run, pausedAt := 0,
    arrivals := (List.range 8).filterMap (fun i => arrivalOf cur (rd 4 (0x200 + 8 * i)) (rd 4 (0x204 + 8 * i))),
    paths := x.paths.map unheld, recalls := x.recalls, target := x.target, lineUse := [], retired := x.paths.isEmpty && x.recalls.isEmpty,
    slots := x.slots.map (fun (y : RjSlot) => if y.timer = 0 then y else { y with timer := now + 1 }) }

/-! ### The snapshot area (R166, R367) -/

/-- The first byte of a team's snapshot area (R166). -/
def snapBase (l : Launch) (c : Cluster) (tm : Team) : Nat := l.snapAddr + (c.index * teamsOf l.kern + tm.idx) * l.kern.snapBytes
/-- *Z*, the size of a team's state (R367). -/
def snapSize (k : Kernel) : Nat := 4096 + k.groups * (8192 + 384 * k.regs) + k.spad
/-- Where a byte of the area lies, for a write by the team's device (R166). -/
def snapPlace (s : State) (st pasid va : Nat) : Option Nat :=
  match translateNow s st pasid va .write with
  | .ok pa => some pa
  | _ => none
/-- The first fault in `n` pages from `va` (R166). -/
def snapFault (s : State) (st pasid va n : Nat) : Option (Nat × Nat) :=
  (List.range ((va % 4096 + n + 4095) / 4096)).findSome? (fun i =>
    let a := if i = 0 then va else va / 4096 * 4096 + 4096 * i
    if !canonical a then some (0x46, a)
    else match translateNow s st pasid a .write with
      | .bad c => some (c, a)
      | _ => none)
def snapPut (s : State) (st pasid va : Nat) (b : Byte) : State :=
  match snapPlace s st pasid va with
  | some pa => homePut s pa b
  | none => s
/-- `n` bytes of the area as a number. -/
def snapNat (s : State) (st pasid n va : Nat) : Nat :=
  bytesNat (fun a => ((snapPlace s st pasid a).map (homeByte s)).getD 0) n va
/-- Whether a byte of the area is poisoned (R371). -/
def snapPoison (s : State) (st pasid va : Nat) : Bool := ((snapPlace s st pasid va).map (homePoison s)).getD false
/-- The generation numbers of the two halves (R367). -/
def snapGens (s : State) (st pasid base y : Nat) : Nat × Nat := (snapNat s st pasid 8 base, snapNat s st pasid 8 (base + y / 2))
/-- The half that holds the committed snapshot: the higher generation that is not zero (R367). -/
def snapHalf (gens : Nat × Nat) : Option Nat :=
  if gens.1 = 0 ∧ gens.2 = 0 then none else if gens.1 < gens.2 then some 1 else some 0

/-- A byte of a half apart from its generation (R367). -/
def halfByte (s : State) (k : Kernel) (tm : Team) (gs : List Group) (off : Nat) : Byte :=
  let img := 8192 + 384 * k.regs
  if off < 8 then 0
  else if off < 12 then wordByte (BitVec.ofNat 32 (snapSize k)) (off - 8)
  else if off < 16 then wordByte (BitVec.ofNat 32 k.groups) (off - 12)
  else if off < 4096 then 0
  else if off < 4096 + k.groups * img then
    match gs[(off - 4096) / img]? with
    | some g => imageByte s g (s.draws + 4096 * ((off - 4096) / img)) ((off - 4096) % img)
    | none => 0
  else spadByte s tm.core (tm.spadOff + (off - 4096 - k.groups * img))

/-! ### SNAP (R166) -/

/-- Whether nothing of a team is under way and each of its groups is held at a `SNAP` (R166 steps 2 to 4). -/
def snapReady (s : State) (team : Nat) (tm : Team) : Bool :=
  (liveGroups s tm).all (fun e => e.2.paths.any (fun p => p.hold = .snap) && e.2.outq.isEmpty && e.2.reqs.all (fun r =>
    !pastCheck r)) &&
  s.groups.all (fun e => !(decide (e.2.team = team) && e.2.garnet.isSome)) &&
  s.stks.all (fun e => e.2.subs.all (fun x => decide (x.team ≠ some team))) &&
  ((coreOf s tm.core).latch ++ (coreOf s tm.core).seq).all (fun e => decide (e.team ≠ team))
/-- The paths held at a `SNAP` continue (R166 step 6). -/
def releaseSnap (s : State) (g : Group) : Group :=
  { landAll g (lastDue g) with
    paths := g.paths.map (fun p =>
      if p.hold = .snap then { sigAdd s g p (fun _ => crcOf 4 0xD4000000) with spc := p.spc + 4, hold := .free } else p) }
/-- The half that is not committed is written and committed (R166 step 5, R367). -/
def commitSnap (s : State) (team : Nat) (tm : Team) (k : Kernel) (pasid base : Nat) : State :=
  let st := stackNo tm.core
  let s := (teamCores s team).foldl evictAll s
  let gens := snapGens s st pasid base k.snapBytes
  let half := match snapHalf gens with
    | some 0 => 1
    | _ => 0
  let at_ := base + half * (k.snapBytes / 2)
  let s := tm.groups.foldl (fun s g => modGroup s g (releaseSnap s)) s
  let gs := tm.groups.filterMap (tabFind s.groups)
  let old := s
  let s := (List.range (snapSize k)).foldl (fun s i => snapPut s st pasid (at_ + i) (halfByte old k tm gs i)) s
  let gen := (if half = 0 then gens.2 else gens.1) + 1
  let s := (List.range 8).foldl (fun s i => snapPut s st pasid (at_ + i) (BitVec.ofNat 8 (gen / 256 ^ i))) s
  let s := freshCodewords s (snapSize k) (fun off => snapPlace s st pasid (at_ + off))
  let snap : TeamSnap :=
    { half := half,
      groups := tm.groups.filterMap (fun g => (tabFind s.groups g).map (fun x =>
        { grp := g, paths := x.paths, slots := x.slots, recalls := x.recalls, target := x.target, vpoison := x.vpoison,
          spoison := x.spoison })),
      poison := ((coreOf s tm.core).spadPoison.filter (fun w => decide (tm.spadOff ≤ 4 * w) && decide (4 * w < tm.spadOff + k.spad))).map
        (fun w => w - tm.spadOff / 4),
      bars := ((coreOf s tm.core).bars.filter (fun b => decide (tm.spadOff ≤ b.1) && decide (b.1 < tm.spadOff + k.spad))).map
        (fun b => (b.1 - tm.spadOff, b.2)) }
  let s := { s with draws := s.draws + 4096 * k.groups }
  modTeam s team (fun x => { x with rollbacks := 0, snaps := x.snaps.filter (fun y => y.half ≠ half) ++ [snap] })

/-- `SNAP` (R166): the path is held until every group of the team is; the last one has the snapshot written. -/
def execSnap (s : State) : Out :=
  onPath s (fun g p =>
    let k := kernOf s g
    if g.handler.isSome then trapHere s g p (handlerIllegal s p false)
    else if k.snapBytes / 2 < snapSize k then trapHere s g p (mkTrap s p 0 0x16 (BitVec.ofNat 32 k.snapBytes) 0)
    else match launchOf s g, clusterOf s g, teamOf s g with
      | some l, some c, some tm =>
        let p1 := { p with hold := .snap }
        let s1 := keep s g p1
        if snapReady s1 g.team tm then
          match snapFault s1 (stackNo tm.core) l.pasid (snapBase l c tm) k.snapBytes with
          | some (code, va) => trapHere s g p1 (mkAddrTrap s p1 0 code va 0xFFFF)
          | none => .next (commitSnap s1 g.team tm k l.pasid (snapBase l c tm))
        else .next s1
      | _, _, _ => .next s)

/-! ### SIGCHK and rollback (R165, R345, R368) -/

/-- The signature word of an index: none beyond the section (R165). -/
def sigOffset (k : Kernel) (i : Nat) : Option Nat :=
  if k.sigOff + 4 * i + 4 ≤ k.sigSize then some (k.sigBase + k.sigOff + 4 * i) else none
/-- Entries of a team leave the latch and the sequencer without flags, but for one whose drain is inside a segment (R368 step 2); their
pins fall (R255), and fired entries of other teams move up (R253). -/
def dropEntries (s : State) (core team : Nat) : State :=
  let k := coreOf s core
  let busy := fun (e : GangEnt) => match k.drain with
    | some d => d.inSeg && decide (d.ent = e.id)
    | none => false
  let out := fun (e : GangEnt) => decide (e.team = team) && !busy e
  let s := setCore s core { k with
    latch := k.latch.filter (fun e => !out e), seq := k.seq.filter (fun e => !out e),
    drain := match k.drain with
      | some d => if k.seq.any (fun e => decide (e.id = d.ent) && out e) then none else some d
      | none => none }
  pump (((k.latch ++ k.seq).filter out).foldl (fun s e => unpin s e.id) s) core 8
/-- The team stops (R368 steps 1 to 3): accesses in flight are performed, ejected lanes are freed, latched entries and
slices are discarded, completions of jobs are detached, and pending records withdrawn. -/
def rollStart (s : State) (team : Nat) (tm : Team) (gid pid : Nat) : State :=
  let s := tm.groups.foldl drainAccesses s
  let s := { s with groups := s.groups.filter (fun e => !(decide (e.2.team = team) && e.2.garnet.isSome)) }
  let cut := fun (x : Sub) => if x.team = some team then { x with by_ := [], cardFlag := none, suspended := none } else x
  let keepRec := fun (r : TrapRec) => !(decide (r.team = team) && decide (r.info.cls ≠ 2))
  let s := { s with stks := s.stks.map (fun e => (e.1, { e.2 with
    subs := e.2.subs.map cut, tasks := e.2.tasks.map (fun t => { t with card := t.card.map cut }),
    waitQ := e.2.waitQ.filter keepRec, trapQ := e.2.trapQ.filter keepRec, pending := e.2.pending.filter keepRec,
    walks := e.2.walks.filter (fun w => !(w.grp ∈ tm.groups)),
    life := if e.1 = stackNo tm.core then { e.2.life with mismatches := e.2.life.mismatches + 1 } else e.2.life })) }
  let s := tm.groups.foldl (fun s g => modGroup s g (fun x => { x with
    reqs := [], outq := [], pend := [], fpDue := [], owner := [], due := [], susp := .run, walked := none,
    paths := x.paths.map (fun p => if p.hold = .snap then { p with hold := .free } else p) })) s
  modTeam (dropEntries s tm.core team) team (fun x => { x with slices := [], rolling := some (gid, pid) })
/-- The team's jobs have run to completion and its drains have stopped (R368 steps 2 and 3). -/
def rollReady (s : State) (team : Nat) (tm : Team) : Bool :=
  s.stks.all (fun e => e.2.subs.all (fun x => decide (x.team ≠ some team))) &&
    (coreOf s tm.core).seq.all (fun e => decide (e.team ≠ team))
/-- The tokens of a team after a rollback, its tiles zeroed (R368 step 6). -/
def rollTokens (s : State) (core team : Nat) : State :=
  let mine := (coreOf s core).tokens.filter (fun e => decide (tokenTeam e.2 = team))
  let s := mine.foldl (fun s e => zeroTile s core e.1) s
  modCore s core (fun k => { k with tokens := k.tokens.map (fun e => match e.2 with
    | .m t n => (e.1, .m t (if t = team then 0 else n))
    | .p t g n => if t = team then (e.1, .m t 0) else (e.1, .p t g n)
    | .v t g => (e.1, .v t g)) })
/-- Groups, partition, tokens and counts from a committed half (R368 steps 5 to 7). -/
def rollBack (s : State) (team : Nat) (tm : Team) (k : Kernel) (pasid at_ : Nat) (x : TeamSnap) : State :=
  let st := stackNo tm.core
  let img := 8192 + 384 * k.regs
  let pz := fun (i off : Nat) => snapPoison s st pasid (at_ + 4096 + i * img + off)
  let part := at_ + 4096 + k.groups * img
  let old := s
  let s := (List.range k.spad).foldl (fun s i => spadPut s tm.core (tm.spadOff + i) (BitVec.ofNat 8 (snapNat old st pasid 1 (part + i)))) s
  let bad := ((List.range (k.spad / 4)).filter (fun w => snapPoison old st pasid (part + 4 * w))).foldl setIns x.poison
  let s := modCore s tm.core (fun c => { c with
    spadPoison := bad.foldl (fun l w => setIns l (w + tm.spadOff / 4))
      (c.spadPoison.filter (fun w => decide (4 * w < tm.spadOff) || decide (tm.spadOff + k.spad ≤ 4 * w)))
    bars := c.bars.filter (fun b => decide (b.1 < tm.spadOff) || decide (tm.spadOff + k.spad ≤ b.1)) ++
      x.bars.map (fun b => (b.1 + tm.spadOff, b.2)) })
  let cur := fun (off : Nat) => (winPlace s k tm off).map (fun p => (readBar s p.1 p.2).phase)
  let gs := (x.groups.mapIdx (fun i y => (i, y))).filterMap (fun e => (tabFind s.groups e.2.grp).map (fun g =>
    (e.2.grp, groupFromImage s.clock k.regs (fun n off => snapNat old st pasid n (at_ + 4096 + e.1 * img + off)) (pz e.1) cur g e.2)))
  let s := gs.foldl (fun s e => setGroup s e.1 e.2) s
  let s := rollTokens s tm.core team
  let s := modStack s st (fun e => { e with life := { e.life with rollbacks := e.life.rollbacks + 1 } })
  modTeam s team (fun y => { y with
    rollbacks := y.rollbacks + 1, rolling := none,
    formed := gs.foldl (fun m e => if e.2.retired then m else Nat.max m e.2.ncpyc) 0 })

/-- A codeword of the fixed part of an image in a committed half is poisoned (R371). -/
def fixedBad (s : State) (k : Kernel) (st pasid at_ : Nat) : Bool :=
  (List.range k.groups).any (fun i => (List.range 18).any (fun j =>
    snapPoison s st pasid (at_ + 4096 + i * (8192 + 384 * k.regs) + 32 * j)))
/-- A rollback that has stopped the team ends in a class 2 event or in the restored snapshot (R368 steps 4 to 7). -/
def rollEnd (s : State) (g : Group) (p : Path) (i : Nat) : Out :=
  match launchOf s g, clusterOf s g, teamOf s g with
  | some l, some c, some tm =>
    let s := dropEntries s tm.core g.team
    if !rollReady s g.team tm then .next s
    else
      let s := (teamCores s g.team).foldl evictAll s
      let st := stackNo tm.core
      let base := snapBase l c tm
      let done := modTeam s g.team (fun x => { x with rolling := none })
      let event := fun (code : Nat) =>
        trapHere done g p { mkTrap done p 0 code (BitVec.ofNat 32 i) (BitVec.ofNat 32 tm.rollbacks) with cls := 2 }
      match (if l.kern.snapBytes = 0 then none else snapHalf (snapGens s st l.pasid base l.kern.snapBytes)) with
      | none => event 0x4D
      | some h =>
        match tm.snaps.find? (fun x => x.half = h) with
        | none => event 0x4D
        | some x =>
          if 2 ≤ tm.rollbacks then event 0x4E
          else if fixedBad s l.kern st l.pasid (base + h * (l.kern.snapBytes / 2)) then
            trapHere done g p { mkTrap done p 3 0x4F 0 0 with cls := 2 }
          else .next (rollBack s g.team tm l.kern l.pasid (base + h * (l.kern.snapBytes / 2)) x)
  | _, _, _ => .next s

/-- A mismatch starts the team's rollback (R165, R368). -/
def mismatch (s : State) (g : Group) (i : Nat) : Out :=
  match teamOf s g with
  | none => .next s
  | some tm =>
    let s1 := rollStart s g.team tm s.cur s.curPath
    onPath s1 (fun g p => rollEnd s1 g p i)

/-- `SIGCHK` (R165, R338, R368) -/
def execSigchk (i : BitVec 14) (s : State) : Out :=
  onPath s (fun g p =>
    let k := kernOf s g
    if !sigOn k || g.handler.isSome then .next (keep s g { p with spc := p.spc + 4 })
    else if ((teamOf s g).bind (fun t => t.rolling)).isSome then rollEnd s g p i.toNat
    else match sigOffset k i.toNat with
      | none => mismatch s g i.toNat
      | some va =>
        match readVia s g .readOrExec 4 va with
        | .ok bs =>
          if listNat bs 0 4 = p.sig.toNat then .next (keep s g { p with sig := 0, spc := p.spc + 4 })
          else mismatch s g i.toNat
        | .miss va => .next (needWalk s s.cur (putPath g p) va)
        | .bad c va => trapHere s g p (mkAddrTrap s p 0 c va 0xFFFF))

end Sys2Proof.Machine
end

