-- ==== Sys2Proof/Machine/Reliab.lean ====
section
/-! DEFINITION. Poisoned frames, parity retries, the two error logs, degraded stacks, row-remap tables, storage errors and lifetime
records (R370 to R379). -/
namespace Sys2Proof.Machine

/-! ### Poisoned frames (R372 to R374, R376) -/

/-- A count of a stack's lifetime counters changes. -/
def modLife (s : State) (st : Nat) (f : Life → Life) : State := modStack s st (fun k => { k with life := f k.life })
/-- The HBM stack behind a physical address, if it is in HBM (R194). -/
def stackBehind (pa : Nat) : Option Nat := if privAlias pa < Config.hbmBytes then some (privAlias pa / Config.stackBytes) else none
/-- The physical address of a virtual one of a PASID, as core 2 walks it. -/
def corePa (s : State) (pasid va : Nat) : Option Nat :=
  match walkPage s pasid va with
  | .leaf e => some (e.pa + (va - e.va))
  | .bad _ => none
/-- `n` bytes as core 2 reads them through a PASID's tables. -/
def coreNat (s : State) (pasid n va : Nat) : Nat := bytesNat (fun a => ((corePa s pasid a).map (homeByte s)).getD 0) n va
/-- Whether a block of a PASID lies in a frame. -/
def blockIn (s : State) (pasid addr bytes frame : Nat) : Bool :=
  (List.range ((addr % 4096 + bytes + 4095) / 4096)).any (fun i =>
    match corePa s pasid (addr / 4096 * 4096 + 4096 * i) with
    | some pa => redirect s pa / 4096 = frame
    | none => false)
/-- The entries of a registered table whose block lies in a frame (R372 step 3). -/
def tableHits (s : State) (t : Nat × Nat) (frame : Nat) : List Nat :=
  let n := coreNat s t.1 4 t.2
  let bytes := coreNat s t.1 4 (t.2 + 4)
  (List.range n).filter (fun i => blockIn s t.1 (coreNat s t.1 8 (t.2 + 64 + 8 * i) / 128 * 128) bytes frame)
/-- Bit [2] of an entry is set, with its notice (R372 steps 3 and 4). -/
def markEntry (s : State) (t : Nat × Nat) (i : Nat) : State :=
  match corePa s t.1 (t.2 + 64 + 8 * i) with
  | some pa =>
    let s := homePut s pa (homeByte s pa ||| 4)
    { s with notices := s.notices ++ [Notice.entry t.1 t.2 i] }
  | none => s

/-- A log's ring takes an entry, the oldest making room. DESIGN CHOICE: how many entries a ring holds is a free value (log 104). -/
def ringAdd {α : Type} (l : List α) (x : α) : List α := (l ++ [x]).drop (l.length - Config.logEntries)
/-- An entry of the array ECC log for a codeword: the byte that was corrected, none where it cannot be (R376). -/
def noteArray (s : State) (pa : Nat) (byte : Option Nat) : State :=
  let home := homeCore (privAlias pa)
  let entry : ArrayEnt :=
    { stack := home / 16, column := home % 16, pa := pa, codeword := pa / 32 % 4, clock := s.clock, byte := byte }
  { s with arrayLog := ringAdd s.arrayLog entry }
/-- ECC corrects one of the 36 bytes of a codeword in line; the correction is logged and counted (R374, R376, R379). -/
def correctByte (s : State) (pa byte : Nat) : State :=
  if tierOf pa = .none ∨ tierOf pa = .flash ∨ 36 ≤ byte then s
  else
    let s := noteArray s pa (some byte)
    match stackBehind pa with
    | some st => modLife s st (fun l => { l with corrected := l.corrected + 1 })
    | none => s
/-- A storage error in one copy of a containment record: the copy loses a frame or lists it falsely, until the next vote (R377). -/
def copyError (s : State) (retired : Bool) (copy f : Nat) : State :=
  let flip := fun (l : List Nat) => if f ∈ l then setDel l f else setIns l f
  let hit := fun (c : Copies) =>
    { c with a := if copy = 0 then flip c.a else c.a, b := if copy = 1 then flip c.b else c.b, c := if copy = 2 then flip c.c else c.c }
  if Config.hbmBytes / 4096 ≤ f then s
  else if retired then { s with retiredFrames := hit s.retiredFrames } else { s with poisonFrames := hit s.poisonFrames }

/-- A codeword is uncorrectable: it is poisoned and logged, its frame recorded, and the entries of block tables that name the frame are
marked (R372, R374, R376). -/
def poisonAt (s : State) (pa : Nat) : State :=
  let frame := privAlias pa / 4096
  let s := noteArray { s with poison := setIns s.poison (codeword s pa), poisonFrames := listFrame s.poisonFrames frame } pa none
  let s := match stackBehind pa with
    | some st => modLife s st (fun l => { l with uncorrectable := l.uncorrectable + 1 })
    | none => s
  s.blockTables.foldl (fun s t => (tableHits s t frame).foldl (fun s i => markEntry s t i) s) s
/-- `FRAME_POISON` (R372, R374, R376) -/
def execFramePoison (pa : Nat) (s : State) : Out :=
  if tierOf pa = .none ∨ tierOf pa = .flash then .next s
  else
    .next (poisonAt s pa)

/-! ### Vertical channels (R375, R376) -/

/-- Lanes that a parity group covers: sixteen data lanes and its parity lane (R375). -/
def groupLane (grp lane : Nat) : Bool :=
  decide (grp < 18) && ((decide (16 * grp ≤ lane) && decide (lane < 16 * grp + 16)) || lane = 288 + grp)
/-- What ECC finds in a beat that goes to it alone: nothing, one byte, or more than it corrects (R374, R375). -/
def eccAlone (s : State) (lane pa : Nat) : Nat → State
  | 0 => s
  | 1 => if 288 ≤ lane then s else correctByte s pa (lane / 8)
  | _ => if tierOf pa = .none ∨ tierOf pa = .flash then s else poisonAt s pa
/-- `PARITY_RETRY` (R375): the `tries`-th retry passes, or after three the faulty lane is steered to a spare; with none free the beat goes
to ECC alone, and `tries` of 4, 5 or more says what that finds. -/
def execParityRetry (core grp lane pa tries : Nat) (s : State) : Out :=
  if Config.coreCount ≤ core ∨ !groupLane grp lane ∨ tries = 0 then .next s
  else
    let k := coreOf s core
    let ok := decide (tries ≤ 3)
    let swap := if ok || decide (2 ≤ k.swaps.length) then none else some (lane, k.swaps.length)
    let alone := !ok && swap.isNone
    let retries := min tries 3
    let s := modCore s core (fun c => { c with
      swaps := match swap with
        | some x => c.swaps ++ [x]
        | none => c.swaps,
      noSpare := c.noSpare || alone })
    let entry : BusEnt :=
      { stack := core / 16, column := core % 16, pa := pa, beat := pa / 32 % 128, clock := s.clock, group := grp, retries := retries,
        swap := swap }
    let s := { s with busLog := ringAdd s.busLog entry }
    let s := modLife s (stackNo core) (fun l => { l with
      retries := l.retries + retries, swaps := l.swaps + (if swap.isSome then 1 else 0) })
    .next (if alone then eccAlone s lane pa (tries - 4) else s)

/-! ### Degraded stacks (R378) -/

/-- `uncorrectable` of class 2, from the device (R335). -/
def deviceTrap (code : Nat) : TrapInfo :=
  { code := code, cls := 2, src := 3, val0 := 0, val1 := 0, tspc := 0, tlpc := 0, addr := 0, lane := 0xFFFF, aux := 0, ir := 0,
    path := 0 }
/-- A class 2 event of the device at a group, with the place where its first path stands. -/
def deviceEvent (s : State) (gid code : Nat) : State :=
  match tabFind s.groups gid with
  | some g =>
    let p := g.paths.head?
    fatal s gid g { deviceTrap code with
      tspc := (p.map (fun q => q.spc)).getD 0, tlpc := (p.map (fun q => q.lpc)).getD 0, path := (p.map (fun q => q.id)).getD 0 }
  | none => s
/-- A stack is degraded (R378): marked until reset, its frames listed as poisoned, its teams killed, the driver notified. -/
def degrade (s : State) (st : Nat) : State :=
  if Config.stackCount ≤ st ∨ (stackOf s st).degraded then s
  else
    let s := modLife (modStack s st (fun k => { k with degraded := true })) st (fun l => { l with degraded := l.degraded + 1 })
    let s := { s with poisonFrames := listStack s.poisonFrames st, notices := s.notices ++ [Notice.stack st] }
    let hit := s.teams.filter (fun e => decide (stackNo e.2.core = st) && !teamOut s e.2 && !e.2.exited)
    hit.foldl (fun s e => match e.2.groups with
      | g :: _ => deviceEvent s g 0x4F
      | [] => s) s
/-- `STACK_DEGRADE` (R378) -/
def execStackDegrade (st : Nat) (s : State) : Out := .next (degrade s st)

/-! ### Row-remap tables (R377, R378) -/

/-- The three copies of the word of a row. -/
def rowOf (s : State) (st row : Nat) : RowCopies := tabGet ⟨0, 0, 0⟩ (stackOf s st).remap row
/-- What two copies of a word agree on. -/
def rowVote (r : RowCopies) : Option Word := if r.a = r.b ∨ r.a = r.c then some r.a else if r.b = r.c then some r.b else none
/-- A word goes to all three copies. -/
def rowPut (s : State) (st row : Nat) (r : RowCopies) : State :=
  modStack s st (fun k => { k with remap := tabSet ⟨0, 0, 0⟩ k.remap row r })
/-- A word is read: a copy that lost the vote is rewritten, and where no two agree the stack is degraded (R377). -/
def rowRead (s : State) (st row : Nat) : State :=
  match rowVote (rowOf s st row) with
  | some w => rowPut s st row ⟨w, w, w⟩
  | none => degrade s st
/-- A row is retired: its word in all three copies, and the count of the lifetime records (R377, R379). DESIGN CHOICE: the table has one
word for a row; the spec gives no layout (log 25). -/
def rowRemap (s : State) (st row : Nat) (w : Word) : State :=
  if Config.stackCount ≤ st ∨ (stackOf s st).degraded then s
  else modLife (rowPut s st row ⟨w, w, w⟩) st (fun l => { l with remapped := l.remapped + 1 })
/-- A storage error in one copy of a word (R377). -/
def rowError (s : State) (st row copy : Nat) (w : Word) : State :=
  if Config.stackCount ≤ st then s
  else
    let r := rowOf s st row
    rowPut s st row { r with a := if copy = 0 then w else r.a, b := if copy = 1 then w else r.b, c := if copy = 2 then w else r.c }
/-- The row retirements that a stack's lifetime records hold, once they take its table as it is read. -/
def keptRows (s : State) (st : Nat) : Tab Word :=
  (stackOf s st).remap.filterMap (fun e => (rowVote e.2).map (fun w => (e.1, w)))
/-- Core 3 rebuilds a stack's table from the row retirements in its lifetime records (R378, R393 step 5). -/
def rebuildRows (s : State) : State :=
  { s with stks := s.stks.map (fun e => (e.1, { e.2 with remap := e.2.rowsKept.map (fun r => (r.1, ⟨r.2, r.2, r.2⟩)) })) }

/-- `UNCORRECTABLE_STORAGE_ERROR` (R370, R371): a vector word's storage, or a word of a tile (kind 2) or of the scale memory (kind 3) of
its core, sets its poison bit; a scalar register, predicate or fixed image field raises the class 2 event, or kills the lane of a Garnet
context (R130). -/
def execUncorrectableStorageError (gid kind idx : Nat) (s : State) : Out :=
  match tabFind s.groups gid with
  | none => .next s
  | some g =>
    if g.retired then .next s
    else if kind = 0 then
      if idx < 96 * (kernOf s g).regs then .next (setGroup s gid { g with vpoison := setIns g.vpoison idx }) else .next s
    else if kind = 2 then
      .next (if idx < 262144 then modCore s g.core (fun k => { k with accPoison := setIns k.accPoison idx }) else s)
    else if kind = 3 then
      .next (if idx < 65536 then modCore s g.core (fun k => { k with scalePoison := setIns k.scalePoison idx }) else s)
    else if g.garnet.isSome then .next (killContext s gid)
    else .next (deviceEvent s gid 0x4F)

/-! ### Lifetime records (R379) -/

/-- Counts of a lifetime record, in the order of R379, and the storage waits that R333 counts there. -/
def lifeCounts (l : Life) : List Nat :=
  [l.corrected, l.uncorrectable, l.retries, l.swaps, l.deadLanes, l.mismatches, l.rollbacks, l.degraded, l.retired, l.remapped,
   l.storageWaits]
/-- The name of a stack's lifetime segment: no host name reaches it. -/
def lifeKey (st i : Nat) : Nat := 2 ^ 64 + st * 2 ^ 40 + i
/-- Begin a lifetime segment of a stack; with no room in the flash tier nothing is begun. -/
def beginLife (s : State) (st : Nat) : State :=
  let z := 20 + Config.lifeSize % 17
  let key := lifeKey st (stackOf s st).lifeSegs.length
  match segPlace s z with
  | some pa =>
    modStack { s with segments := tabPut s.segments key (segNew z pa none) } st (fun k => { k with lifeSegs := k.lifeSegs ++ [key] })
  | none => s
/-- Whether a stack's newest segment takes a record of `n` bytes. -/
def lifeRoom (s : State) (st n : Nat) : Bool :=
  match ((stackOf s st).lifeSegs.getLast?).bind (tabFind s.segments) with
  | some g => g.state = 1 && !g.sealing && decide (g.tail + recordSize n ≤ 2 ^ g.z)
  | none => false
/-- The newest segment of a stack is sealed once its records are durable (R289, R379). -/
def endLife (s : State) (st : Nat) : State :=
  match (stackOf s st).lifeSegs.getLast? with
  | some key => sealDue (modSeg s key (fun g => { g with sealing := g.state = 1 })) key
  | none => s
/-- Core 6 appends the lifetime record of a stack (R379). -/
def appendLife (s : State) (st : Nat) : State :=
  let bytes := (Config.lifePayload (lifeCounts (stackOf s st).life) (Config.histogram s.draws)).take 65536
  let s := modStack { s with draws := s.draws + 1 } st (fun k => { k with lifeAt := s.clock, rowsKept := keptRows s st })
  let s := if lifeRoom s st bytes.length then s else beginLife (endLife s st) st
  match (stackOf s st).lifeSegs.getLast? with
  | some key =>
    match tabFind s.segments key with
    | some g => if lifeRoom s st bytes.length then fillRecord (acceptRecord s key bytes.length) key g.next bytes else s
    | none => s
  | none => s
/-- `LIFETIME_RECORD` (R379): once 2^36 clocks have passed since the stack's last record. -/
def execLifetimeRecord (st : Nat) (s : State) : Out :=
  if st < Config.stackCount ∧ (stackOf s st).lifeAt + 2 ^ 36 ≤ s.clock then .next (appendLife s st) else .next s
/-- `ORDERLY_SHUTDOWN` (R379): a record for each stack. -/
def execOrderlyShutdown (s : State) : Out := .next ((List.range Config.stackCount).foldl appendLife s)

end Sys2Proof.Machine
end

