-- ==== Sys2Proof/Machine/HostIf.lean ====
section
/-! DEFINITION. Requests of the host driver to core 2 (R38, R41, R42, R208, R279, R280, R290, R319, R342, R385 to R389). -/
namespace Sys2Proof.Machine

/-! ### Messages (R388, R389) -/

/-- `n` bytes of a message from an offset. -/
def msgNat (m : BitVec 512) (off n : Nat) : Nat := m.toNat / 256 ^ off % 256 ^ n
def msgCode (m : BitVec 512) : Nat := msgNat m 1 1
def msgPasid (m : BitVec 512) : Nat := msgNat m 8 4
/-- Every byte of the message outside the header's fields and the listed ones is zero, and so is the status (R389). -/
def msgZero (m : BitVec 512) (fields : List (Nat × Nat)) : Bool :=
  msgNat m 2 2 = 0 && decide (msgNat m 0 1 < 16) &&
    (List.range 52).all (fun i => fields.any (fun f => decide (f.1 ≤ 12 + i) && decide (12 + i < f.1 + f.2)) ||
      msgNat m (12 + i) 1 = 0)
/-- The reply to a request: core 2 as sender, the same code, tag and PASID, status 0, no parameters. -/
def replyTo (m : BitVec 512) : BitVec 512 :=
  msgPut (msgPut (msgPut (msgPut 0 0 1 2) 1 1 (msgCode m)) 4 4 (msgNat m 4 4)) 8 4 (msgPasid m)
/-- Reply with a status alone. -/
def answer (s : State) (m : BitVec 512) (st : Nat) : State := owe s (.ready (msgStatus (replyTo m) st))
/-- A trap cause of R285 or R289 (R389). -/
def answerCause (s : State) (m : BitVec 512) (code : Nat) : State := owe s (.ready (msgPut (msgStatus (replyTo m) 2) 12 1 code))

/-- The oldest request, where its code is the one asked for and satisfies `mine`; the host interface is released at boot step
6, and a module whose boot failed leaves only the report (R393). -/
def headIs (s : State) (code : Nat) (mine : BitVec 512 → Bool) : Option (BitVec 512) :=
  if s.boot = 6 || (s.bootFailed && code = 0x0F) then
    match s.hostIn with
    | m :: _ => if msgCode m = code && mine m then some m else none
    | [] => none
  else none
/-- The request is taken from the channel. -/
def popMsg (s : State) : State := { s with hostIn := s.hostIn.drop 1 }
def always (_ : BitVec 512) : Bool := true
def never (_ : BitVec 512) : Bool := false
/-- A module-wide request: its PASID field is zero (R389); `wait` keeps it in the channel. -/
def moduleReq (s : State) (code : Nat) (fields : List (Nat × Nat)) (ok wait : BitVec 512 → Bool)
    (f : State → BitVec 512 → State) : Out :=
  match headIs s code (fun _ => true) with
  | none => .next s
  | some m =>
    if !(msgZero m fields && msgPasid m = 0 && ok m) then .next (answer (popMsg s) m 1)
    else if wait m then .next s
    else .next (f (popMsg s) m)
/-- A request of a process: malformed, of a closing PASID, of a PASID that is not registered, or served; `wait` keeps it in
the channel. -/
def pasidReq (s : State) (code : Nat) (mine : BitVec 512 → Bool) (fields : List (Nat × Nat)) (ok : BitVec 512 → Bool)
    (wait : BitVec 512 → Bool) (f : State → BitVec 512 → State) : Out :=
  match headIs s code mine with
  | none => .next s
  | some m =>
    if !(msgZero m fields && ok m) then .next (answer (popMsg s) m 1)
    else if closingP s (msgPasid m) then .next (answer (popMsg s) m 3)
    else if (tabFind s.procs (msgPasid m)).isNone then .next (answer (popMsg s) m 2)
    else if wait m then .next s
    else .next (f (popMsg s) m)
/-! ### Queues (R38, R41, R42) -/

/-- A page of a process translates through a leaf that it may read, and write where asked (R41). -/
def leafFits (s : State) (pasid va : Nat) (write : Bool) : Option Nat :=
  match walkPage s pasid va with
  | .leaf e => if e.r && (!write || e.w) then some (e.pa + (va - e.va)) else none
  | .bad _ => none
/-- The 64 bytes of a queue descriptor as core 2 reads them. -/
def descBytes (s : State) (pasid va : Nat) : Option (List Byte) :=
  (List.range 64).foldr (fun i r => match r, corePa s pasid (va + i) with
    | some bs, some pa => some (homeByte s pa :: bs)
    | _, _ => none) (some [])
/-- The limits of R38. -/
def descOk (bs : List Byte) : Bool :=
  listNat bs 0 8 % 4096 = 0 && decide (4 ≤ listNat bs 8 1) && decide (listNat bs 8 1 ≤ 16) && decide (listNat bs 9 1 ≤ 3) &&
    zeroBytes bs 10 2 && decide (listNat bs 12 4 ≤ 2047) && listNat bs 16 8 % 4 = 0 && listNat bs 24 8 % 128 = 0 &&
    zeroBytes bs 32 32
/-- Lines of tail words that armed units watch (R41). -/
def tailLines (s : State) : List Nat :=
  s.queues.foldl (fun ls e => if e.2.state = .closing then ls else setIns ls (e.2.tailPa / 128)) []
/-- The lowest free number below a bound. -/
def lowestFree (used : List Nat) (bound : Nat) : Option Nat :=
  (List.range (used.length + 1)).find? (fun i => decide (i < bound) && !(i ∈ used))
/-- A queue as it is registered (R38, R39). DESIGN CHOICE: its head starts at 0 and its tail is the tail word at that moment; the spec
states neither (log 83). -/
def queueOf (pasid hart tailPa tail : Nat) (bs : List Byte) : Queue :=
  { pasid := pasid, ring := listNat bs 0 8, lg := listNat bs 8 1, cls := listNat bs 9 1, vector := listNat bs 12 4, hart := hart,
    tailAddr := listNat bs 16 8, tailPa := tailPa, statusAddr := listNat bs 24 8, tail := BitVec.ofNat 32 tail, head := 0,
    state := .active, skip := 0, running := [], watch := none, since := 0, served := 0 }
/-- Register a queue whose descriptor has been read: its PASID is written into the descriptor (R38). DESIGN CHOICE: it takes the lowest
free number (log 83). -/
def register (s : State) (m : BitVec 512) (bs : List Byte) : State :=
  let pasid := msgPasid m
  if !descOk bs then answer s m 1
  else match leafFits s pasid (listNat bs 16 8) false, leafFits s pasid (listNat bs 24 8) true,
      lowestFree (s.queues.map (fun e => e.1)) 65536 with
    | some tailPa, some _, some n =>
      if 4096 ≤ (tailLines s).length ∧ !((tailPa / 128) ∈ tailLines s) then answer s m 2
      else
        let s := (List.range 4).foldl (fun t i => match corePa s pasid (msgNat m 16 8 + 32 + i) with
          | some pa => homePut t pa (BitVec.ofNat 8 (pasid / 256 ^ i))
          | none => t) s
        let q := queueOf pasid (msgNat m 24 2) tailPa (homeNat s 4 tailPa) bs
        owe { s with queues := tabPut s.queues n q } (.ready (msgPut (replyTo m) 12 4 n))
    | _, _, _ => answer s m 2
/-- `REGISTER_QUEUE` (R38, R41) -/
def execRegisterQueue (s : State) : Out :=
  pasidReq s 0x01 always [(16, 8), (24, 2)] (fun m => decide (msgNat m 24 2 ≤ 95)) never (fun s m =>
    match descBytes s (msgPasid m) (msgNat m 16 8) with
    | some bs => register s m bs
    | none => answer s m 2)
/-- The queue that a request names, of its own PASID. -/
def namedQueue (s : State) (m : BitVec 512) : Option Queue :=
  (tabFind s.queues (msgNat m 12 4)).filter (fun q => q.pasid = msgPasid m)
/-- `FREE_QUEUE` (R41, R388) -/
def execFreeQueue (s : State) : Out :=
  pasidReq s 0x02 always [(12, 4)] (fun m => decide (msgNat m 12 4 < 65536)) never (fun s m =>
    match namedQueue s m with
    | some _ => answer { s with queues := tabDel s.queues (msgNat m 12 4) } m 0
    | none => answer s m 2)
/-- `RESET_QUEUE` (R42): the status is cleared and parsing resumes at the head. DESIGN CHOICE: where clearing the status faults the queue
stays in error, its interrupt is raised, and the request is answered as done; packets that a test had yet to consume stay to be consumed
(R50; log 84). -/
def execResetQueue (s : State) : Out :=
  pasidReq s 0x03 always [(12, 4)] (fun m => decide (msgNat m 12 4 < 65536)) never (fun s m =>
    match namedQueue s m with
    | some q =>
      if q.state ≠ .error then answer s m 2
      else match fetcherWrite s q.pasid 8 (q.statusAddr + 8) 0 with
        | some s => answer (modQueue s (msgNat m 12 4) (fun x => { x with state := .active, watch := none, since := 0 })) m 0
        | none => answer (raiseIrq s q) m 0
    | none => answer s m 2)

/-! ### Replies to records (R208, R342, R356) -/

/-- Gang entries wherever they stand. -/
def mapEntries (s : State) (f : GangEnt → GangEnt) : State :=
  { s with
    cores := s.cores.map (fun e => (e.1, { e.2 with latch := e.2.latch.map f, seq := e.2.seq.map f })),
    saved := s.saved.map (fun x => { x with gangs := x.gangs.map f }) }
/-- A drain that a record suspends restarts at its segment (R273). -/
def wakeDrain (tag : Nat) (d : DrainRun) : DrainRun := if d.suspended = some tag then { d with suspended := none } else d
/-- A fault is resolved: whatever the record stopped goes on, and re-issues or repeats (R208, R242, R253, R273). -/
def resolveTag (s : State) (r : TrapRec) : State :=
  let tag := r.tag
  let s : State := mapEntries s (fun e => { e with
    stop := e.stop.filter (fun x => x.2 ≠ tag), saved := e.saved.map (wakeDrain tag) })
  let s : State := { s with
    cores := s.cores.map (fun e => (e.1, { e.2 with drain := e.2.drain.map (wakeDrain tag) })),
    stks := s.stks.map (fun e => (e.1, { e.2 with subs := e.2.subs.map (fun x =>
      if x.suspended = some tag then { x with suspended := none } else x) })) }
  (s.groups.filter (fun e => e.2.susp = .record r.tag)).foldl (fun s e => answerGroup s e.1 r 0) s
/-- The restart record of a fault that becomes fatal: its cause becomes 2 (R273, R274). -/
def fatalRestart (r : Dword) : Dword := (r &&& ~~~ (3#64 <<< 32)) ||| (2#64 <<< 32)
/-- A gang instruction that a record has stopped, at a K-block gap or in a drain that was saved, is abandoned: it may stand in a queue, in
the latch or in a save area (R253, R273, R275). -/
def failEnt (s : State) (c : Nat) (r : TrapRec) (x : GangEnt) : State :=
  if (x.stop.map (fun y => y.2)) = some r.tag then abandonEnt s c x 0x49 r.info.addr.toNat 0
  else match x.saved with
    | some d => if d.suspended = some r.tag then abandonEnt s c x 0x4A r.info.addr.toNat (fatalRestart d.restart) else s
    | none => s
/-- A fault cannot be resolved: it becomes fatal for what it stopped (R208, R242, R253, R273). -/
def failTag (s : State) (r : TrapRec) : State :=
  let addr := r.info.addr.toNat
  let s := s.stks.foldl (fun s e => (e.2.subs.filter (fun x => x.suspended = some r.tag)).foldl (fun s x =>
    failSub (modSub s e.1 x.id (fun y => { y with suspended := none })) e.1 x addr) s) s
  let s := s.cores.foldl (fun s e =>
    let s := (e.2.latch ++ e.2.seq).foldl (fun s x => failEnt s e.1 r x) s
    match e.2.drain, drainEnt e.2 with
    | some d, some x =>
      if d.suspended = some r.tag then abandonEnt s e.1 x 0x4A addr (fatalRestart d.restart) else s
    | _, _ => s) s
  let s := s.saved.foldl (fun s t =>
    t.gangs.foldl (fun s x => failEnt s (((tabFind s.teams t.team).map (fun m => m.core)).getD 0) r x) s) s
  (s.groups.filter (fun e => e.2.susp = .record r.tag)).foldl (fun s e =>
    fatal s e.1 e.2 { r.info with code := 0x47, cls := 2 }) s
/-- The form of a reply to a record (R389). -/
def replyForm (m : BitVec 512) : Bool :=
  msgZero m [(12, 1), (13, 1), (16, 4), (20, 4)] && decide (msgNat m 12 1 < 48) && decide (msgNat m 13 1 < 2)
/-- The page that a reply says has changed, where the record it names is one of a replayable fault that has been resolved (R208). -/
def replyPage (s : State) (m : BitVec 512) : Option (Nat × Nat) :=
  ((stackOf s (msgNat m 12 1)).pending.find? (fun r => r.tag = msgNat m 16 4 && r.pasid = msgPasid m)).bind (fun r =>
    if r.info.cls ≠ 3 ∧ msgNat m 13 1 = 0 then some (r.pasid, r.info.addr.toNat / 4096 * 4096) else none)
/-- `RECORD_REPLY` (R208, R342, R388): answered only by its effect; one of a PASID that is not registered, or of a tag that names no pending record is discarded. One that reports an entry
changed waits until the invalidation of its page may complete (R209). -/
def execRecordReply (s : State) : Out :=
  if (headIs s 0x04 (fun m => (tabFind s.procs (msgPasid m)).isNone && replyForm m)).isSome then .next (popMsg s)
  else pasidReq s 0x04 always [(12, 1), (13, 1), (16, 4), (20, 4)]
    (fun m => decide (msgNat m 12 1 < 48) && decide (msgNat m 13 1 < 2))
    (fun m => (replyPage s m).any (fun p => !mayInval s p.1 p.2 4096)) (fun s m =>
    let st := msgNat m 12 1
    match (stackOf s st).pending.find? (fun r => r.tag = msgNat m 16 4 && r.pasid = msgPasid m) with
    | none => s
    | some r =>
      let s := modStack s st (fun k => { k with pending := k.pending.filter (fun x => x.tag ≠ r.tag) })
      if r.info.cls = 3 then answerGroup s r.grp r (BitVec.ofNat 32 (msgNat m 20 4))
      else if msgNat m 13 1 = 0 then resolveTag (invalRange s r.pasid (r.info.addr.toNat / 4096 * 4096) 4096) r
      else failTag s r)

/-! ### Segments (R280 to R290, R389) -/

/-- A window of a PASID is clear of its other attached segments. -/
def windowFree (s : State) (pasid base z : Nat) : Bool :=
  s.segments.all (fun e => match e.2.attach with
    | some (p, b) => decide (p ≠ pasid) || decide (base + 2 ^ z ≤ b) || decide (b + 2 ^ e.2.z ≤ base)
    | none => true) &&
  decide ((s.segments.filter (fun e => (e.2.attach.map (fun a => a.1)) = some pasid)).length < 65536)
def segLimits (m : BitVec 512) : Bool :=
  let z := msgNat m 24 1
  decide (20 ≤ z) && decide (z ≤ 36) && msgNat m 16 8 % 2 ^ z = 0 && decide (msgNat m 25 1 < 2) && decide (msgNat m 32 8 ≠ 0)
/-- `CREATE_SEGMENT` (R280, R389): core 4 asks Jasper for the frames, and the request waits while their channel is full (R53). DESIGN CHOICE:
the contents of a message of core 4 to Jasper, which the spec does not give, and its effect when it is sent (log 107). -/
def execCreateSegment (s : State) : Out :=
  pasidReq s 0x05 (fun m => msgNat m 25 1 % 2 = 0) [(16, 8), (24, 1), (25, 1), (32, 8)] segLimits (fun _ => !mailRoom s 4 8) (fun s m =>
    let name := msgNat m 32 8
    let z := msgNat m 24 1
    match tabFind s.segments name, segPlace s z with
    | none, some pa =>
      if windowFree s (msgPasid m) (msgNat m 16 8) z then
        owe { sendMail s 4 8 m with segments := tabPut s.segments name (segNew z pa (some (msgPasid m, msgNat m 16 8))) }
          (.ready (msgPut (replyTo m) 12 4 1))
      else answer s m 2
    | _, _ => answer s m 2)
/-- `ATTACH_SEGMENT` (R280, R389) -/
def execAttachSegment (s : State) : Out :=
  pasidReq s 0x05 (fun m => msgNat m 25 1 % 2 = 1) [(16, 8), (24, 1), (25, 1), (32, 8)] segLimits never (fun s m =>
    let name := msgNat m 32 8
    match tabFind s.segments name with
    | some g =>
      if g.attach.isNone && g.z = msgNat m 24 1 && windowFree s (msgPasid m) (msgNat m 16 8) g.z then
        owe (modSeg s name (fun x => { x with attach := some (msgPasid m, msgNat m 16 8) }))
          (.ready (msgPut (replyTo m) 12 4 g.state))
      else answer s m 2
    | none => answer s m 2)

/-- A line of a segment, or of a pool block to which one of its blocks is promoted. -/
def segLine (s : State) (g : Segment) (line : Nat) : Bool :=
  (decide (g.pa / 128 ≤ line) && decide (line < (g.pa + 2 ^ g.z) / 128)) ||
    s.promoted.any (fun e => decide (g.pa / 65536 ≤ e.1) && decide (e.1 < (g.pa + 2 ^ g.z) / 65536) && decide (e.2 = line / 512))
/-- A stream's pin or a pinned operand line lies in a segment's frames (R237, R255, R290). -/
def segPinned (s : State) (g : Segment) : Bool :=
  s.stks.any (fun e => e.2.subs.any (fun x => x.pins.any (fun f => segLine s g (32 * f)))) ||
    s.cores.any (fun e => e.2.pins.any (fun p => segLine s g p.1))
/-- The segment that an outstanding request of the append engine concerns. -/
def engineSeg : ReqKind → Option Nat
  | .append n _ _ => some n
  | .apfence n _ _ => some n
  | .seal n => some n
  | _ => none
/-- The promoted blocks of a segment. -/
def segBlocks (s : State) (g : Segment) : List (Nat × Nat) :=
  s.promoted.filter (fun e => decide (g.pa / 65536 ≤ e.1) && decide (e.1 < (g.pa + 2 ^ g.z) / 65536))
/-- Whether the freeing of a segment awaits a request that is past its translation: an append waits only where its source lies in the
segment, since the freeing may overtake any other (R209, R290). -/
def segNeeds (s : State) (g : Segment) (r : Req) : Bool :=
  match r.kind with
  | .append _ _ src => src.any (fun l => match l with
    | .phys pa => segLine s g (pa / 128)
    | .spad _ _ => false)
  | _ => true
/-- A segment is freed: its translations go, and appends and seals that the freeing overtakes trap (R209, R290). -/
def freeSeg (s : State) (name : Nat) (g : Segment) (pasid base : Nat) : State :=
  let s := ((segBlocks s g).map (fun e => e.1)).foldl demoteBlock s
  let s := dropRange s pasid base (2 ^ g.z)
  let s := dropSegLines s (s.cores.map (fun e => e.1)) g
  let s := { s with segments := tabDel s.segments name }
  let s := s.groups.foldl (fun s e => takeDue (e.2.reqs.foldl (fun s r =>
    if engineSeg r.kind = some name then
      queueWait (finishAt s e.1 r.id) e.1 r (fun s p => { segTrap s p 0x1B base with tlpc := r.pc })
    else s) s) e.1) s
  settleReplies { s with groups := s.groups.map (fun e => (e.1, { e.2 with appends := tabDel e.2.appends name })) }
/-- `FREE_SEGMENT` (R290): it waits for room in the channel of core 4 to Jasper (R53), for pins and for accesses past their translation (R209); lifetime segments are never freed
(R379). -/
def execFreeSegment (s : State) : Out :=
  pasidReq s 0x06 always [(16, 8)] always
    (fun m => match segBase s (msgPasid m) (msgNat m 16 8) with
      | some (_, g) => !mailRoom s 4 8 || segPinned s g || !mayInvalBut s (msgPasid m) (msgNat m 16 8) (2 ^ g.z) (segNeeds s g) ||
          !(segBlocks s g).all (pairQuiet s)
      | none => false)
    (fun s m => match segBase s (msgPasid m) (msgNat m 16 8) with
      | some (n, g) =>
        if 2 ^ 64 ≤ n then answer s m 2 else answer (freeSeg (sendMail s 4 8 m) n g (msgPasid m) (msgNat m 16 8)) m 0
      | none => answer s m 2)

/-- Source places of a host append, word by word, or the fault that stops it. -/
def hostSource (s : State) (pasid va n : Nat) : Except Nat (List Loc) :=
  (List.range (n / 4)).foldr (fun i r =>
    match r with
    | .error c => .error c
    | .ok ls =>
      if !canonical (va + 4 * i) then .error 0x46
      else match translateNow s 0 pasid (va + 4 * i) .read with
        | .ok pa => .ok (.phys pa :: ls)
        | .bad c => .error c
        | .miss => .error 0x60) (.ok [])
/-- `HOST_APPEND` (R285, R389): it waits while the engine holds 4,096 records that are not durable. -/
def execHostAppend (s : State) : Out :=
  pasidReq s 0x07 always [(16, 8), (24, 8), (32, 4), (36, 1)]
    (fun m => decide (msgNat m 36 1 < 2) && decide (0 < msgNat m 32 4) && decide (msgNat m 32 4 ≤ 1048576) && msgNat m 32 4 % 4 = 0)
    (fun _ => decide (4096 ≤ appendsHeld s))
    (fun s m =>
      let n := msgNat m 32 4
      match (segBase s (msgPasid m) (msgNat m 16 8)).filter (fun e => e.2.state ≠ 3 && decide (e.1 < 2 ^ 64)) with
      | none => answerCause s m 0x1B
      | some (name, x) =>
        if x.state = 2 ∨ x.sealing then answerCause s m 0x1C
        else if msgNat m 24 8 % 4 ≠ 0 then answerCause s m 0x03
        else match hostSource s (msgPasid m) (msgNat m 24 8) n with
          | .error c => answerCause s m c
          | .ok ls =>
            if 2 ^ x.z < x.tail + recordSize n then answerCause s m 0x1E
            else
              let s := readRecord (acceptRecord s name n) name x.next ls
              let r := msgPut (replyTo m) 16 8 x.next
              if msgNat m 36 1 = 1 then owe s (.durable name x.next r) else owe s (.ready (msgPut r 24 8 x.durable)))
/-- `HOST_SEAL` (R282, R289, R389): a failed segment is sealed after its last durable record; it waits while the channel of core 4 to
Jasper is full (R53). -/
def execHostSeal (s : State) : Out :=
  pasidReq s 0x08 always [(16, 8)] always (fun _ => !mailRoom s 4 8) (fun s m =>
    match (segBase s (msgPasid m) (msgNat m 16 8)).filter (fun e => decide (e.1 < 2 ^ 64)) with
    | none => answerCause s m 0x1B
    | some (name, x) =>
      let s := if x.state = 3 then sealNow (modSeg (sendMail s 4 8 m) name cutToDurable) name
        else modSeg s name (fun g => { g with sealing := g.state = 1 })
      owe (sealDue s name) (.sealing name (replyTo m)))
/-- `OPEN_LIFETIME_SEGMENT` (R379, R389): a sealed lifetime segment is mapped for reading. -/
def execOpenLifetimeSegment (s : State) : Out :=
  pasidReq s 0x10 always [(12, 1), (16, 4), (24, 8)] (fun m => decide (msgNat m 12 1 < 48)) never (fun s m =>
    let sealed := ((stackOf s (msgNat m 12 1)).lifeSegs).filter (fun k =>
      ((tabFind s.segments k).map (fun g => decide (g.state = 2))).getD false)
    match (sealed[msgNat m 16 4]?).bind (fun k => (tabFind s.segments k).map (fun g => (k, g))) with
    | some (k, g) =>
      if msgNat m 24 8 % 2 ^ g.z ≠ 0 then answer s m 1
      else if g.attach.isSome || !windowFree s (msgPasid m) (msgNat m 24 8) g.z then answer s m 2
      else
        owe (modSeg s k (fun x => { x with attach := some (msgPasid m, msgNat m 24 8) }))
          (.ready (msgPut (msgPut (replyTo m) 12 1 g.z) 16 8 g.sealedLen))
    | none => answer s m 2)
/-- The 32 bytes that list a kept segment (R389). -/
def keptEntry (name : Nat) (g : Segment) : Nat :=
  name + 2 ^ 64 * g.z + 2 ^ 96 * g.state + 2 ^ 128 * ((g.attach.map (fun a => a.1)).getD 0) +
    2 ^ 192 * ((g.attach.map (fun a => a.2)).getD 0)
/-- Write `n` bytes at a virtual address of a process, none on a fault. -/
def driverWrite (s : State) (pasid n va x : Nat) : Option State :=
  (List.range n).foldl (fun r i => r.bind (fun s =>
    (fetcherAddr s pasid (va + i) .write).map (fun pa => homePut s pa (BitVec.ofNat 8 (x / 256 ^ i))))) (some s)
/-- `LIST_KEPT_SEGMENTS` (R280, R389): in ascending name order, as many as the buffer holds. -/
def execListKeptSegments (s : State) : Out :=
  pasidReq s 0x12 always [(16, 8), (24, 4)] (fun m => msgNat m 24 4 % 32 = 0) never (fun s m =>
    let kept := s.segments.filter (fun e => decide (e.1 < 2 ^ 64))
    let es := (kept.take (msgNat m 24 4 / 32)).mapIdx (fun i e => (i, e))
    match es.foldl (fun r e => r.bind (fun s =>
        driverWrite s (msgPasid m) 32 (msgNat m 16 8 + 32 * e.1) (keptEntry e.2.1 e.2.2))) (some s) with
    | some s => owe s (.ready (msgPut (replyTo m) 12 4 kept.length))
    | none => answer s m 2)

/-! ### Collectives, tables, settings (R210, R279, R319, R372) -/

def collLimits (m : BitVec 512) : Bool :=
  let t := msgNat m 24 4
  decide (2 ≤ msgNat m 12 1) && decide (msgNat m 12 1 ≤ 64) && decide (msgNat m 13 1 < msgNat m 12 1) &&
    decide (msgNat m 14 1 < 2) && msgNat m 16 8 % 4096 = 0 && (t = 0 || (decide (1000 ≤ t) && decide (t ≤ 10000000)))
/-- The port of a new collective: the lowest that has not failed, one that is connected first (R392). -/
def freePort (s : State) : Option Nat :=
  let up := (List.range 32).filter (fun p => !(p ∈ s.portsDown))
  (up.find? (fun p => (tabFind s.peers p).isSome)).or up.head?
/-- `CREATE_COLLECTIVE` (R319, R389) -/
def execCreateCollective (s : State) : Out :=
  pasidReq s 0x09 always [(12, 1), (13, 1), (14, 1), (16, 8), (24, 4), (32, 8), (40, 8)] collLimits never (fun s m =>
    match lowestFree (s.collectives.map (fun e => e.1)) 4096, leafFits s (msgPasid m) (msgNat m 16 8) true,
        corePa s (msgPasid m) (msgNat m 32 8) with
    | some n, some _, some _ =>
      let t := msgNat m 24 4
      let c : Collective :=
        { pasid := msgPasid m, members := msgNat m 12 1, me := msgNat m 13 1, tree := msgNat m 14 1 = 1, result := msgNat m 16 8,
          timeout := 1000 * (if t = 0 then 1000000 else t), key := BitVec.ofNat 64 (msgNat m 40 8), table := msgNat m 32 8,
          failed := false, issued := 0, completed := 0, rounds := [], port := freePort s }
      owe { s with collectives := tabPut s.collectives n c } (.ready (msgPut (replyTo m) 12 4 n))
    | _, _, _ => answer s m 2)
def tableLimits (m : BitVec 512) : Bool := decide (msgNat m 24 1 < 2) && msgNat m 16 8 % 64 = 0
/-- `REGISTER_BLOCK_TABLE` (R372, R389) -/
def execRegisterBlockTable (s : State) : Out :=
  pasidReq s 0x0A (fun m => decide (msgNat m 24 1 ≠ 1)) [(16, 8), (24, 1)] tableLimits never (fun s m =>
    let t := (msgPasid m, msgNat m 16 8)
    answer (if t ∈ s.blockTables then s else { s with blockTables := s.blockTables ++ [t] }) m 0)
/-- `UNREGISTER_BLOCK_TABLE` (R372, R389) -/
def execUnregisterBlockTable (s : State) : Out :=
  pasidReq s 0x0A (fun m => msgNat m 24 1 = 1) [(16, 8), (24, 1)] tableLimits never (fun s m =>
    let t := (msgPasid m, msgNat m 16 8)
    if t ∈ s.blockTables then answer { s with blockTables := s.blockTables.filter (fun x => x ≠ t) } m 0 else answer s m 2)
/-- `SET_STORAGE_TIMEOUT` (R279, R389): microseconds to clocks of 1 ns. -/
def execSetStorageTimeout (s : State) : Out :=
  moduleReq s 0x0B [(12, 4)] (fun m => decide (1000 ≤ msgNat m 12 4) && decide (msgNat m 12 4 ≤ 10000000)) never (fun s m =>
    answer { s with storageTimeout := 1000 * msgNat m 12 4 } m 0)
/-- The promoted blocks that no longer fit the pool of a stack once it has a size. -/
def poolOut (s : State) (st mib : Nat) : List (Nat × Nat) :=
  let s := modStack s st (fun k => { k with poolMib := mib })
  s.promoted.filter (fun e => decide (e.2 / (Config.stackBytes / 65536) = st) && decide (e.2 < poolFirst s st))
/-- A stack's pool gets a size; promoted blocks that no longer fit are demoted (R210). -/
def sizePool (s : State) (st mib : Nat) : State :=
  (poolOut s st mib).foldl (fun s e => demoteBlock s e.1) (modStack s st (fun k => { k with poolMib := mib }))
/-- The stacks that a pool request names. -/
def poolStacks (m : BitVec 512) : List Nat := if msgNat m 12 1 = 0xFF then List.range 48 else [msgNat m 12 1]
/-- `SET_PROMOTION_POOL` (R210, R389): it waits for the accesses past their translation to the blocks that it demotes (R209). -/
def execSetPromotionPool (s : State) : Out :=
  moduleReq s 0x0C [(12, 1), (16, 4)] (fun m =>
    (decide (msgNat m 12 1 < 48) || msgNat m 12 1 = 0xFF) && decide (msgNat m 16 4 ≤ 16384) && msgNat m 16 4 % 64 = 0)
    (fun m => (poolStacks m).any (fun st => !(poolOut s st (msgNat m 16 4)).all (pairQuiet s))) (fun s m =>
    answer ((poolStacks m).foldl (fun s st => sizePool s st (msgNat m 16 4)) s) m 0)

/-! ### Processes, kills and teardown (R35, R343, R385 to R387) -/

/-- `REGISTER_PROCESS` (R35, R387, R389) -/
def execRegisterProcess (s : State) : Out :=
  match headIs s 0x11 always with
  | none => .next s
  | some m =>
    let p := msgPasid m
    let s := popMsg s
    if !msgZero m [(16, 8), (24, 2)] || p = 0 || decide (2 ^ 20 ≤ p) || decide (2 ^ 44 ≤ msgNat m 16 8) then .next (answer s m 1)
    else match tabFind s.procs p with
      | some q => .next (answer s m (if q.closing then 3 else 2))
      | none =>
        .next (answer { s with procs := tabPut s.procs p { root := msgNat m 16 8, asid := msgNat m 24 2, closing := false } } m 0)
/-- The cause `killed` (R335). -/
def killedCause : Word := causeWord 2 3 0x50
/-- A kill asked for by the host is a class 2 event of the launch (R335, R340, R341): its record names the first group of the
launch that has not retired on a core, and none is written where there is none. -/
def killedEvent (s : State) (ln : Nat) : State :=
  match s.groups.find? (fun e => e.2.garnet.isNone && !e.2.retired && decide (launchNo s e.2 = some ln) &&
      ((teamOf s e.2).map (fun t => !t.exited && !teamOut s t)).getD false) with
  | some (gid, g) =>
    let t : TrapInfo := match g.paths with
      | p :: _ => { mkTrap { s with ir := 0 } p 3 0x50 0 0 with cls := 2 }
      | [] => { mkTrap { s with ir := 0 } (pathNew 0 0 0 0) 3 0x50 0 0 with cls := 2 }
    fatal s gid g t
  | none => s
/-- Kill a launch by request of the host or by a teardown (R343, R385). A class 2 record of the launch gives the cause as it lands
(R383); where none is written it is `killed`. -/
def killByHost (s : State) (ln : Nat) : State :=
  let s := killedEvent s ln
  killLaunchNo s ln (if latched s ln then 0 else killedCause)
/-- The launch that a kill names, by queue and packet. -/
def killNamed (s : State) (m : BitVec 512) : Option (Nat × Launch) :=
  s.launches.find? (fun e => decide (e.2.queue = msgNat m 12 4) && decide (e.2.pkt = msgNat m 16 4) &&
    decide (e.2.pasid = msgPasid m) && !e.2.finished)
/-- `KILL_LAUNCH` (R343, R389): it waits until drains have ended the segments that they have checked (R380). -/
def execKillLaunch (s : State) : Out :=
  pasidReq s 0x0D always [(12, 4), (16, 4)] (fun m => decide (msgNat m 12 4 < 65536))
      (fun m => ((killNamed s m).map (fun e => !segsDone s e.1)).getD false) (fun s m =>
    match killNamed s m with
    | some (n, _) => answer (killByHost s n) m 0
    | none => answer s m 2)

/-- A queue of a PASID that closes (R42, R385 step 2). -/
def closeQueue (s : State) (qn : Nat) (q : Queue) : State :=
  raiseIrq (modQueue (putStatus s q 0x13 q.head.toNat) qn (fun x => { x with
    state := .closing, running := [], skip := 0, watch := none, since := 0 })) q
/-- Steps 1 to 3 of a teardown (R385, R386). -/
def beginTeardown (s : State) (pasid : Nat) : State :=
  let s := { s with procs := tabMod s.procs pasid (fun p => { p with closing := true }) }
  let s := (s.queues.filter (fun e => e.2.pasid = pasid && e.2.state ≠ .closing)).foldl (fun s e => closeQueue s e.1 e.2) s
  let s := (s.launches.filter (fun e => e.2.pasid = pasid && !e.2.finished)).foldl (fun s e =>
    killByHost (modLaunch s e.1 (fun x => { x with silent := true })) e.1) s
  { s with stks := s.stks.map (fun e => (e.1, { e.2 with
    walks := e.2.walks.filter (fun w => w.pasid ≠ pasid),
    waitQ := e.2.waitQ.filter (fun r => r.pasid ≠ pasid), pending := e.2.pending.filter (fun r => r.pasid ≠ pasid),
    subs := (e.2.subs.filter (fun x => x.pasid ≠ pasid || x.started)).map (fun x =>
      if x.pasid = pasid ∧ x.suspended.isSome then { x with suspended := none, error := 4 } else x) })) }
/-- Nothing of a PASID runs any more, and the blocks to demote are quiet (R209, R211, R385 step 4). -/
def teardownReady (s : State) (pasid : Nat) : Bool :=
  s.teams.all (fun e => decide ((teamLaunch s e.2).map (fun l => l.2.pasid) ≠ some pasid)) &&
    s.stks.all (fun e => e.2.subs.all (fun x => x.pasid ≠ pasid)) && (pasidBlocks s pasid).all (pairQuiet s)
/-- Steps 4 and 5 of a teardown (R385). -/
def endTeardown (s : State) (pasid : Nat) : State :=
  let s := invalPasid s pasid
  let s := { s with
    stks := s.stks.map (fun e => (e.1, { e.2 with tasks := e.2.tasks.filter (fun x => x.pasid ≠ pasid) })),
    collectives := s.collectives.filter (fun e => e.2.pasid ≠ pasid),
    segments := s.segments.map (fun e => (e.1,
      if (e.2.attach.map (fun a => a.1)) = some pasid then { e.2 with attach := none } else e.2)),
    blockTables := s.blockTables.filter (fun t => t.1 ≠ pasid),
    queues := s.queues.filter (fun e => e.2.pasid ≠ pasid),
    procs := tabDel s.procs pasid }
  settleReplies s
/-- Every teardown that can finish does. -/
def endTeardowns (s : State) : State :=
  (s.procs.filter (fun e => e.2.closing)).foldl (fun s e => if teardownReady s e.1 then endTeardown s e.1 else s) s
/-- `TEARDOWN_PASID` (R385): the request begins the teardown, once the drains of the PASID's launches have ended the segments that they
have checked (R380); the event goes on with those begun. -/
def execTeardownPasid (s : State) : Out :=
  match headIs s 0x0E always with
  | none => .next (endTeardowns s)
  | some m =>
    if s.launches.any (fun e => decide (e.2.pasid = msgPasid m) && !e.2.finished && !segsDone s e.1) then
      .next (endTeardowns s)
    else
    let s := popMsg s
    if !msgZero m [] then .next (answer s m 1)
    else match tabFind s.procs (msgPasid m) with
      | none => .next (answer s m 2)
      | some p =>
        let s := if p.closing then s else beginTeardown s (msgPasid m)
        .next (endTeardowns (owe s (.closed (msgPasid m) (replyTo m))))

/-- A request of no code is answered with status 1 (R388). DESIGN CHOICE: a module halted by a failed check takes any request but the
report's from the channel and gives no answer (log 108). -/
def otherRequest (s : State) : State :=
  match s.hostIn with
  | m :: _ => if s.bootFailed && msgCode m ≠ 0x0F then popMsg s else if s.boot = 6 && (msgCode m = 0 || decide (0x12 < msgCode m)) then answer (popMsg s) m 1 else s
  | [] => s

end Sys2Proof.Machine
end

