-- ==== Sys2Proof/Machine/LaneFloat.lean ====
section
/-! DEFINITION. Floating lane instructions: classes `0x08` to `0x0C` (R181 to R192). -/
namespace Sys2Proof.Machine

/-- The frame of R181 for one FP32 result: `f` takes the flush mode and the raw words of `va`, `b` and `vc`. -/
def float3 (h : LaneHdr) (cls : Nat) (vd va : VReg) (b : VSrc) (vc : Option VReg) (f : Bool → Word → Word → Word → Word × Byte)
    (s : State) : Out :=
  let cs := match vc with
    | some v => [v.toNat]
    | none => []
  fixedLane s h cls (va.toNat :: (srcRegs 1 b ++ cs)) [vd.toNat] (fun g _ _ l =>
    let c := match vc with
      | some v => vWord g s.clock v.toNat l
      | none => 0
    let r := f (flushOf (kernOf s g)) (vWord g s.clock va.toNat l) (fOperand g s.clock l b) c
    { dst := [(.vec (vKey vd.toNat l) r.1, false)], fl := r.2 })
/-- An FP32 operation on `va` and `b`. -/
def float2 (h : LaneHdr) (vd va : VReg) (b : VSrc) (f : Bool → Word → Word → Word × Byte) (s : State) : Out :=
  float3 h 8 vd va b none (fun fl x y _ => f fl x y) s
/-- An FP32 operation on `va`. -/
def float1 (h : LaneHdr) (vd va : VReg) (f : Bool → Word → Word × Byte) (s : State) : Out :=
  float3 h 8 vd va (.imm 0) none (fun fl x _ _ => f fl x) s

/-- `FADD` (R184) -/
def execFadd (h : LaneHdr) (m : Rnd) (vd va : VReg) (b : VSrc) (s : State) : Out :=
  float2 h vd va b (fun fl x y => f32Add fl m x y) s
/-- `FSUB` (R184) -/
def execFsub (h : LaneHdr) (m : Rnd) (vd va : VReg) (b : VSrc) (s : State) : Out :=
  float2 h vd va b (fun fl x y => f32Sub2 fl m x y) s
/-- `FMUL` (R184) -/
def execFmul (h : LaneHdr) (m : Rnd) (vd va : VReg) (b : VSrc) (s : State) : Out :=
  float2 h vd va b (fun fl x y => f32Mul fl m x y) s
/-- `FFMA`: one rounding (R184, R185) -/
def execFfma (h : LaneHdr) (m : Rnd) (vd va : VReg) (b : VSrc) (vc : VReg) (s : State) : Out :=
  float3 h 8 vd va b (some vc) (fun fl x y z => f32Fma fl m x y z) s
/-- `FMIN` (R185) -/
def execFmin (h : LaneHdr) (vd va : VReg) (b : VSrc) (s : State) : Out := float2 h vd va b (fun fl x y => f32Min fl x y) s
/-- `FMAX` (R185) -/
def execFmax (h : LaneHdr) (vd va : VReg) (b : VSrc) (s : State) : Out := float2 h vd va b (fun fl x y => f32Max fl x y) s
/-- `FABS`: bit 31 cleared (R184) -/
def execFabs (h : LaneHdr) (vd va : VReg) (s : State) : Out := float1 h vd va (fun _ x => (x &&& 0x7FFFFFFF, 0)) s
/-- `FNEG`: bit 31 inverted (R184) -/
def execFneg (h : LaneHdr) (vd va : VReg) (s : State) : Out := float1 h vd va (fun _ x => (x ^^^ 0x80000000, 0)) s
/-- `FCLASS` (R185) -/
def execFclass (h : LaneHdr) (vd va : VReg) (s : State) : Out := float1 h vd va (fun _ x => (f32Class x, 0)) s
/-- The exponent of `FSCALE`: the raw word, or imm17 sign-extended (R183, R184). -/
def scaleArg (g : Group) (t l : Nat) : VSrc → Int
  | .reg v => (vWord g t v.toNat l).toInt
  | .imm i => i.toInt
/-- `FSCALE` (R185) -/
def execFscale (h : LaneHdr) (m : Rnd) (vd va : VReg) (b : VSrc) (s : State) : Out :=
  fixedLane s h 8 (va.toNat :: srcRegs 1 b) [vd.toNat] (fun g _ _ l =>
    let r := f32Scale (flushOf (kernOf s g)) m (vWord g s.clock va.toNat l) (scaleArg g s.clock l b)
    { dst := [(.vec (vKey vd.toNat l) r.1, false)], fl := r.2 })
/-- `FRND` (R185) -/
def execFrnd (h : LaneHdr) (m : Rnd) (vd va : VReg) (s : State) : Out := float1 h vd va (fun fl x => f32Rnd fl m x) s
/-- `FDIV` (R185) -/
def execFdiv (h : LaneHdr) (m : Rnd) (vd va : VReg) (b : VSrc) (s : State) : Out :=
  float2 h vd va b (fun fl x y => f32Div fl m x y) s
/-- `FSQRT` (R185) -/
def execFsqrt (h : LaneHdr) (m : Rnd) (vd va : VReg) (s : State) : Out := float1 h vd va (fun fl x => f32Sqrt fl m x) s

/-- `FSET.cc` (R186) -/
def execFset (h : LaneHdr) (cc : FCond) (pd : PReg) (va : VReg) (b : VSrc) (s : State) : Out :=
  fixedLane s h 9 (va.toNat :: srcRegs 1 b) [] (fun g _ _ l =>
    let fl := flushOf (kernOf s g)
    let r := valTest cc (readF32 fl (vWord g s.clock va.toNat l)) (readF32 fl (fOperand g s.clock l b))
    { dst := [(.pred pd.toNat l r.1, false)], fl := r.2 })

/-! ### Special functions (R187, R188) -/

/-- A class `0x0A` instruction: results visible from T + b + 12, flag and sticky bits at completion, the end of clock
T + 11 (R188). -/
def sfuLane (h : LaneHdr) (op : SfuOp) (vd va : VReg) (s : State) : Out :=
  onPath s (fun g p =>
    let t := s.clock
    let fl := flushOf (kernOf s g)
    let all := actingLanes g p h t
    let die := all.filter (readsBad g t [va.toNat])
    let live := all.filter (fun l => !readsBad g t [va.toNat] l)
    let rs := live.map (fun l => (l, sfuWord op fl (vWord g t va.toNat l)))
    let g1 := if live.isEmpty then g else noteWrite g vd.toNat 1
    let g1 := rs.foldl (fun g r =>
      addPend g { at_ := t + r.1 / 32 + latOf 10, dst := .vec (vKey vd.toNat r.1) r.2.1, poison := false }) g1
    let g1 := addReq g1
      { id := s.fresh, path := none, flag := h.setf, kind := .sfu (t + 12) vd, fp := unionFlags (rs.map (fun r => r.2.2)),
        pc := p.lpc, by_ := p.id, stalled := false, stallAt := 0, addr := 0, late := false }
    .next (killActing (keep { s with fresh := s.fresh + 1 } g1 (advLane s g p h t)) s.cur g die))

/-- `RCP` -/
def execRcp (h : LaneHdr) (vd va : VReg) (s : State) : Out := sfuLane h .rcp vd va s
/-- `RSQ` -/
def execRsq (h : LaneHdr) (vd va : VReg) (s : State) : Out := sfuLane h .rsq vd va s
/-- `EX2` -/
def execEx2 (h : LaneHdr) (vd va : VReg) (s : State) : Out := sfuLane h .ex2 vd va s
/-- `LG2` -/
def execLg2 (h : LaneHdr) (vd va : VReg) (s : State) : Out := sfuLane h .lg2 vd va s
/-- `SIN` -/
def execSin (h : LaneHdr) (vd va : VReg) (s : State) : Out := sfuLane h .sin vd va s
/-- `COS` -/
def execCos (h : LaneHdr) (vd va : VReg) (s : State) : Out := sfuLane h .cos vd va s
/-- `TANH` -/
def execTanh (h : LaneHdr) (vd va : VReg) (s : State) : Out := sfuLane h .tanh vd va s
/-- `ERF` -/
def execErf (h : LaneHdr) (vd va : VReg) (s : State) : Out := sfuLane h .erf vd va s

/-- A special function completes at the end of clock T + 11: time has come to it, its flag is set, its sticky bits
are ORed in, and its results are written (R188). -/
def execSpecialFunctionComplete (gid r : Nat) (s : State) : Out :=
  match (tabFind s.groups gid).bind (fun g => (findReq g r).map (fun q => (g, q))) with
  | some (g, q) =>
    match q.kind with
    | .sfu d _ =>
      let t := Nat.max s.clock d
      .next (tryRetire { setGroup s gid (finishReq (landAll g t) r) with clock := t } gid)
    | _ => .next s
  | none => .next s

/-! ### Packed 16-bit (R190) -/

/-- The format of class `0x0B`. -/
def halfFmt (bf : Bool) : Fmt := if bf then fmtBf16 else fmtF16
/-- A class `0x0B` instruction. -/
def packed (h : LaneHdr) (m : Rnd) (bf : Bool) (vd va : VReg) (b : VSrc) (vc : Option VReg)
    (op : Val → Val → Val → Val × Byte) (s : State) : Out :=
  let cs := match vc with
    | some v => [v.toNat]
    | none => []
  fixedLane s h 11 (va.toNat :: (srcRegs 1 b ++ cs)) [vd.toNat] (fun g _ _ l =>
    let c := match vc with
      | some v => vWord g s.clock v.toNat l
      | none => 0
    let r := half2 (halfFmt bf) m op (vWord g s.clock va.toNat l) (hOperand g s.clock l b) c
    { dst := [(.vec (vKey vd.toNat l) r.1, false)], fl := r.2 })
/-- `H2ADD` -/
def execH2add (h : LaneHdr) (m : Rnd) (bf : Bool) (vd va : VReg) (b : VSrc) (s : State) : Out :=
  packed h m bf vd va b none (fun x y _ => valAdd m x y) s
/-- `H2MUL` -/
def execH2mul (h : LaneHdr) (m : Rnd) (bf : Bool) (vd va : VReg) (b : VSrc) (s : State) : Out :=
  packed h m bf vd va b none (fun x y _ => valMul x y) s
/-- `H2FMA` -/
def execH2fma (h : LaneHdr) (m : Rnd) (bf : Bool) (vd va : VReg) (b : VSrc) (vc : VReg) (s : State) : Out :=
  packed h m bf vd va b (some vc) (fun x y z => valFma m x y z) s

/-! ### Conversions (R191, R192) -/

/-- `CVT` -/
def execCvt (h : LaneHdr) (m : Rnd) (sat : Bool) (dt sy : ElemTy) (vd va : VReg) (s : State) : Out :=
  let ns := if sy.wide then 2 else 1
  let nd := if dt.wide then 2 else 1
  fixedLane s h 12 (vSpan va ns) (vSpan vd nd) (fun g _ _ l =>
    let x := vOperand g s.clock l (if sy.wide then .z64 else .z32) va
    let r := cvtEl (flushOf (kernOf s g)) m sat dt sy (x % 2 ^ elBits sy)
    { dst := putVec vd l (if dt.wide then .z64 else .z32) r.1, fl := r.2 })

end Sys2Proof.Machine
end

