-- ==== Sys2Proof/Machine/LaneInt.lean ====
section
/-! DEFINITION. Integer, logic, select, move, compare and exchange lane instructions: classes `0x01`, `0x02` and `0x04`
(R167 to R180). -/
namespace Sys2Proof.Machine

/-! ### Shared forms -/

/-- A class `0x01` instruction on `va` and `b`: the result bits and flags from the two raw operands. -/
def int2 (h : LaneHdr) (t : IntTy) (vd va : VReg) (b : VSrc) (f : Nat → Nat → Nat × Byte) (s : State) : Out :=
  fixedLane s h 1 (vSpan va t.span ++ srcRegs t.span b) (vSpan vd t.span) (fun g _ _ l =>
    let r := f (vOperand g s.clock l t va) (bOperand g s.clock l t b)
    { dst := putVec vd l t r.1, fl := r.2 })
/-- A class `0x01` instruction on `va` alone. -/
def int1 (h : LaneHdr) (t : IntTy) (vd va : VReg) (f : Nat → Nat × Byte) (s : State) : Out :=
  fixedLane s h 1 (vSpan va t.span) (vSpan vd t.span) (fun g _ _ l =>
    let r := f (vOperand g s.clock l t va)
    { dst := putVec vd l t r.1, fl := r.2 })

/-- Element by element with `Fit` (R168): bits and the sticky bit of any clamp. -/
def fitElems (t : IntTy) (sat : Bool) (op : Nat → Int) : Nat × Byte :=
  let r := fun e => fitInt (elW t) t.sgn sat (op e)
  (byElem t (fun e => (r e).1), unionFlags ((List.range (elN t)).map (fun e => (r e).2)))
/-- Element by element on raw bits (R170). -/
def rawElems (t : IntTy) (op : Nat → Nat) : Nat × Byte := (byElem t op, 0)

/-! ### Arithmetic (R169) -/

/-- `IADD` -/
def execIadd (h : LaneHdr) (t : IntTy) (sat : Bool) (vd va : VReg) (b : VSrc) (s : State) : Out :=
  int2 h t vd va b (fun x y => fitElems t sat (fun e => elemVal t x e + elemVal t y e)) s
/-- `ISUB` -/
def execIsub (h : LaneHdr) (t : IntTy) (sat : Bool) (vd va : VReg) (b : VSrc) (s : State) : Out :=
  int2 h t vd va b (fun x y => fitElems t sat (fun e => elemVal t x e - elemVal t y e)) s
/-- `IMUL` -/
def execImul (h : LaneHdr) (t : IntTy) (sat : Bool) (vd va : VReg) (b : VSrc) (s : State) : Out :=
  int2 h t vd va b (fun x y => fitElems t sat (fun e => elemVal t x e * elemVal t y e)) s
/-- `IMAD`: the product and sum are exact before `Fit` -/
def execImad (h : LaneHdr) (t : IntTy) (sat : Bool) (vd va : VReg) (b : VSrc) (vc : VReg) (s : State) : Out :=
  fixedLane s h 1 (vSpan va t.span ++ srcRegs t.span b ++ vSpan vc t.span) (vSpan vd t.span) (fun g _ _ l =>
    let x := vOperand g s.clock l t va
    let y := bOperand g s.clock l t b
    let z := vOperand g s.clock l t vc
    let r := fitElems t sat (fun e => elemVal t x e * elemVal t y e + elemVal t z e)
    { dst := putVec vd l t r.1, fl := r.2 })
/-- `IMULH`: the high half of the double-width product -/
def execImulh (h : LaneHdr) (t : IntTy) (vd va : VReg) (b : VSrc) (s : State) : Out :=
  int2 h t vd va b (fun x y =>
    rawElems t (fun e => intMod (elW t) (elemVal t x e * elemVal t y e / 2 ^ elW t))) s
/-- `IABS` -/
def execIabs (h : LaneHdr) (t : IntTy) (sat : Bool) (vd va : VReg) (s : State) : Out :=
  int1 h t vd va (fun x => fitElems t sat (fun e => ((elemVal t x e).natAbs : Int))) s
/-- `IMIN` -/
def execImin (h : LaneHdr) (t : IntTy) (vd va : VReg) (b : VSrc) (s : State) : Out :=
  int2 h t vd va b (fun x y => fitElems t false (fun e => min (elemVal t x e) (elemVal t y e))) s
/-- `IMAX` -/
def execImax (h : LaneHdr) (t : IntTy) (vd va : VReg) (b : VSrc) (s : State) : Out :=
  int2 h t vd va b (fun x y => fitElems t false (fun e => max (elemVal t x e) (elemVal t y e))) s

/-! ### Logic, shifts and counts (R170, R171) -/

/-- lane `AND` -/
def execLaneAnd (h : LaneHdr) (t : IntTy) (vd va : VReg) (b : VSrc) (s : State) : Out :=
  int2 h t vd va b (fun x y => (Nat.land x y, 0)) s
/-- lane `OR` -/
def execLaneOr (h : LaneHdr) (t : IntTy) (vd va : VReg) (b : VSrc) (s : State) : Out :=
  int2 h t vd va b (fun x y => (Nat.lor x y, 0)) s
/-- lane `XOR` -/
def execLaneXor (h : LaneHdr) (t : IntTy) (vd va : VReg) (b : VSrc) (s : State) : Out :=
  int2 h t vd va b (fun x y => (Nat.xor x y, 0)) s
/-- `NOT`, on the word or the pair -/
def execNot (h : LaneHdr) (t : IntTy) (vd va : VReg) (s : State) : Out :=
  int1 h t vd va (fun x => ((if t.wide then 2 ^ 64 else 2 ^ 32) - 1 - x, 0)) s

/-- The shift count of element `e`: the low log2 `w` bits of the raw element (R170). -/
def shiftCount (t : IntTy) (y e : Nat) : Nat := elemOf t y e % elW t
/-- Arithmetic right shift of an element. -/
def sraElem (t : IntTy) (x e n : Nat) : Nat := intMod (elW t) (intVal (elW t) true (elemOf t x e) / 2 ^ n)
/-- Left rotation of `w` bits. -/
def rotl (w x n : Nat) : Nat := x * 2 ^ n % 2 ^ w + x / 2 ^ (w - n)

/-- lane `SHL` -/
def execLaneShl (h : LaneHdr) (t : IntTy) (vd va : VReg) (b : VSrc) (s : State) : Out :=
  int2 h t vd va b (fun x y => rawElems t (fun e => elemOf t x e * 2 ^ shiftCount t y e)) s
/-- lane `SHR` -/
def execLaneShr (h : LaneHdr) (t : IntTy) (vd va : VReg) (b : VSrc) (s : State) : Out :=
  int2 h t vd va b (fun x y => rawElems t (fun e => elemOf t x e / 2 ^ shiftCount t y e)) s
/-- lane `SRA` -/
def execLaneSra (h : LaneHdr) (t : IntTy) (vd va : VReg) (b : VSrc) (s : State) : Out :=
  int2 h t vd va b (fun x y => rawElems t (fun e => sraElem t x e (shiftCount t y e))) s
/-- `ROT` -/
def execRot (h : LaneHdr) (t : IntTy) (vd va : VReg) (b : VSrc) (s : State) : Out :=
  int2 h t vd va b (fun x y => rawElems t (fun e => rotl (elW t) (elemOf t x e) (shiftCount t y e))) s

/-- Number of set bits among the low `w`. -/
def popBits (w x : Nat) : Nat := ((List.range w).filter (fun i => bitN x i)).length
/-- Number of leading zeros in `w` bits. -/
def leadZeros (w x : Nat) : Nat := if x = 0 then w else w - 1 - Nat.log2 x
/-- `w` bits reversed. -/
def revBits (w x : Nat) : Nat :=
  (List.range w).foldl (fun a i => if bitN x i then a + 2 ^ (w - 1 - i) else a) 0

/-- `POPC` -/
def execPopc (h : LaneHdr) (t : IntTy) (vd va : VReg) (s : State) : Out :=
  int1 h t vd va (fun x => rawElems t (fun e => popBits (elW t) (elemOf t x e))) s
/-- `CLZ` -/
def execClz (h : LaneHdr) (t : IntTy) (vd va : VReg) (s : State) : Out :=
  int1 h t vd va (fun x => rawElems t (fun e => leadZeros (elW t) (elemOf t x e))) s
/-- `BREV` -/
def execBrev (h : LaneHdr) (t : IntTy) (vd va : VReg) (s : State) : Out :=
  int1 h t vd va (fun x => rawElems t (fun e => revBits (elW t) (elemOf t x e))) s

/-- The width of a field cut at bit 31 (R171). -/
def fieldWidth (pos width : BitVec 5) : Nat := min (width.toNat + 1) (32 - pos.toNat)
/-- `BFX` (R171) -/
def execBfx (h : LaneHdr) (t : IntTy) (vd va : VReg) (pos width : BitVec 5) (s : State) : Out :=
  int1 h t vd va (fun x => (intMod 32 (intVal (fieldWidth pos width) t.sgn (x / 2 ^ pos.toNat)), 0)) s
/-- A field of a word replaced (R171). -/
def insertField (d a pos n : Nat) : Nat :=
  d / 2 ^ (pos + n) * 2 ^ (pos + n) + a % 2 ^ n * 2 ^ pos + d % 2 ^ pos
/-- `BFI` reads `vd` as a third operand (R171) -/
def execBfi (h : LaneHdr) (t : IntTy) (vd va : VReg) (pos width : BitVec 5) (s : State) : Out :=
  fixedLane s h 1 (vSpan va 1 ++ vSpan vd 1) (vSpan vd 1) (fun g _ _ l =>
    { dst := putVec vd l t (insertField (vOperand g s.clock l t vd) (vOperand g s.clock l t va) pos.toNat
        (fieldWidth pos width)), fl := 0 })

/-! ### Select, moves and addresses (R157, R172, R173) -/

/-- lane `SEL` -/
def execLaneSel (h : LaneHdr) (t : IntTy) (vd va : VReg) (b : VSrc) (pk : PReg) (s : State) : Out :=
  fixedLane s h 1 (vSpan va t.span ++ srcRegs t.span b) (vSpan vd t.span) (fun g _ _ l =>
    { dst := putVec vd l t (if pRead g (s.clock + l / 32) pk.toNat l then vOperand g s.clock l t va
        else bOperand g s.clock l t b), fl := 0 })
/-- `MOV` -/
def execMov (h : LaneHdr) (t : IntTy) (vd : VReg) (a : VSrc) (s : State) : Out :=
  fixedLane s h 1 (srcRegs t.span a) (vSpan vd t.span) (fun g _ _ l =>
    { dst := putVec vd l t (bOperand g s.clock l t a), fl := 0 })
/-- `LEND` acts in no lane and ends the run (R157). -/
def execLend (s : State) : Out := fixedLane s lendHdr 1 [] [] (fun _ _ _ _ => { dst := [], fl := 0 })
/-- `MOVS`: the scalar register or pair in every acting lane -/
def execMovs (h : LaneHdr) (t : IntTy) (vd : VReg) (sn : SReg) (s : State) : Out :=
  fixedLane s h 1 [] (vSpan vd t.span) (fun g p _ l =>
    { dst := putVec vd l t (if t.wide then (sPair g p sn).toNat else (sRead g p sn).toNat), fl := 0 })
/-- `LEA` writes the address without translating it (R173) -/
def execLea (h : LaneHdr) (vd : VReg) (b : MBase) (i : MIdx) (off : BitVec 12) (s : State) : Out :=
  fixedLane s h 1 (baseV b ++ idxV i) (vSpan vd 2) (fun g p _ l =>
    { dst := putVec vd l .z64 (effAddr g p s.clock l b i (off.signExtend 64)).toNat, fl := 0 })

/-- `ISET.cc` writes a predicate (R175) -/
def execIset (h : LaneHdr) (cc : Cond) (t : IntTy) (pd : PReg) (va : VReg) (b : VSrc) (s : State) : Out :=
  fixedLane s h 2 (vSpan va t.span ++ srcRegs t.span b) [] (fun g _ _ l =>
    { dst := [(.pred pd.toNat l (condHolds cc (elemVal t (vOperand g s.clock l t va) 0)
        (elemVal t (bOperand g s.clock l t b) 0)), false)], fl := 0 })

/-! ### Exchange (R176 to R180) -/

/-- A register of a lane as class `0x04` reads it: in the clock of the last beat (R176). -/
def lateWord (g : Group) (t v l : Nat) : Word × Bool := vRead g (t + 2) (vKey v l)
def lateOperand (g : Group) (t l : Nat) (ty : IntTy) (v : VReg) : Nat :=
  (lateWord g t v.toNat l).1.toNat + (if ty.wide then 2 ^ 32 * (lateWord g t (v.toNat + 1) l).1.toNat else 0)
/-- The unsigned amount of a `SHFL` (R177): the lane's word of `vb` or of the immediate. -/
def shflAmount (g : Group) (t l : Nat) (ty : IntTy) : VSrc → Nat
  | .reg v => (lateWord g t v.toNat l).1.toNat
  | .imm i => immBits ty i % 2 ^ 32
/-- The source lane of a `SHFL`, or none outside 0 to 95 (R177). -/
def shflSource (m : ShflMode) (l u : Nat) : Option Nat :=
  let k : Int := match m with
    | .idx => u
    | .up => (l : Int) - u
    | .down => (l : Int) + u
    | .xor => (Nat.xor l u : Nat)
  if 0 ≤ k ∧ k < 96 then some k.toNat else none
/-- Whether a lane's own words that a `SHFL` reads are poisoned: its index, and its source where that is itself. -/
def shflBad (t : Nat) (m : ShflMode) (ty : IntTy) (va : VReg) (b : VSrc) (g : Group) (l : Nat) : Bool :=
  (srcRegs 1 b).any (fun v => (lateWord g t v l).2) ||
    match shflSource m l (shflAmount g t l ty b) with
    | some k => k = l && (vSpan va ty.span).any (fun v => (lateWord g t v l).2)
    | none => (vSpan va ty.span).any (fun v => (lateWord g t v l).2)

/-- `SHFL` (R176, R177): a dead source reads zero and raises `invalid`; a poisoned source word moves with its poison. -/
def execShfl (h : LaneHdr) (m : ShflMode) (ty : IntTy) (vd va : VReg) (b : VSrc) (s : State) : Out :=
  frameLane s h 4 (shflBad s.clock m ty va b) (vSpan vd ty.span) (fun g _ _ l =>
    let k := (shflSource m l (shflAmount g s.clock l ty b)).getD l
    if g.dead.getLsbD k then { dst := putVec vd l ty 0, fl := fInvalid }
    else
      { dst := (List.range ty.span).map (fun i =>
          let w := lateWord g s.clock (va.toNat + i) k
          (.vec (vKey (vd.toNat + i) l) w.1, w.2)), fl := 0 })

/-- A predicate as class `0x04` reads it. -/
def lateBit (g : Group) (t : Nat) (pa : PReg) (l : Nat) : Bool := pRead g (t + 2) pa.toNat l
/-- `VOTE.any` (R178) -/
def execVoteAny (h : LaneHdr) (pd pa : PReg) (s : State) : Out :=
  fixedLane s h 4 [] [] (fun g _ live l =>
    { dst := [(.pred pd.toNat l (live.any (lateBit g s.clock pa)), false)], fl := 0 })
/-- `VOTE.all` (R178) -/
def execVoteAll (h : LaneHdr) (pd pa : PReg) (s : State) : Out :=
  fixedLane s h 4 [] [] (fun g _ live l =>
    { dst := [(.pred pd.toNat l (live.all (lateBit g s.clock pa)), false)], fl := 0 })
/-- `VOTE.ballot` writes the triple at T + 5 (R108, R179). -/
def execVoteBallot (h : LaneHdr) (sn : SReg) (pa : PReg) (s : State) : Out :=
  onPath s (fun g p =>
    let t := s.clock
    let m := maskOf ((actingLanes g p h t).filter (lateBit g t pa))
    let g := (List.range 3).foldl (fun g i =>
      addPend g { at_ := t + 5, dst := .scal (sn + BitVec.ofNat 6 i) (maskPart m i) p.id, poison := false }) g
    .next (keep s g (advLane s g p h t)))

/-- The combination of two elements of a reduction (R180). -/
def gredOp (op : GredOp) (w : Nat) (sgn : Bool) (a b : Nat) : Nat :=
  match op with
  | .add => (a + b) % 2 ^ w
  | .min => if intVal w sgn a ≤ intVal w sgn b then a else b
  | .max => if intVal w sgn a ≤ intVal w sgn b then b else a
  | .and => Nat.land a b
  | .or => Nat.lor a b
  | .xor => Nat.xor a b
/-- The reduction of a non-empty list. -/
def gredAll (op : GredOp) (w : Nat) (sgn : Bool) : List Nat → Nat
  | [] => 0
  | x :: xs => xs.foldl (gredOp op w sgn) x
/-- `GRED` (R176, R180): poison is met where the sources are read, in the clock of the last beat. -/
def execGred (h : LaneHdr) (op : GredOp) (ty : IntTy) (vd va : VReg) (s : State) : Out :=
  frameLane s h 4 (fun g l => (vSpan va ty.span).any (fun v => (lateWord g s.clock v l).2)) (vSpan vd ty.span) (fun g _ live l =>
    { dst := putVec vd l ty (gredAll op (elW ty) ty.sgn (live.map (fun k => lateOperand g s.clock k ty va))), fl := 0 })

end Sys2Proof.Machine
end

