-- ==== Sys2Proof/Machine/System.lean ====
section
/-! DEFINITION. The module in its system: harts, PCIe, ports, attestation, power, resets and boot (R288, R387, R391 to
R396). -/
namespace Sys2Proof.Machine

/-! ### Harts and PCIe (R387, R391) -/

/-- Whether a hart may make an access at an address (R387): never the device-private range or an unpopulated address, and no store
or atomic to the flash tier. -/
def hartMay (load : Bool) (pa : Nat) : Bool :=
  match tierOf pa with
  | .hbm | .cap => true
  | .flash => load
  | .priv | .none => false
/-- A write of an external agent is performed at the home slices (R307); the codewords that it touches stay as they are, since no
such write covers one whole (R373). -/
def hartWrite (s : State) (n pa x : Nat) : State := homeWrite n s pa x
/-- The value that an atomic of a hart leaves in `n` bytes. -/
def hartAmo (op : HartAmo) (n old v : Nat) : Nat :=
  let x := v % 256 ^ n
  let less := fun (sgn : Bool) => decide (intVal (8 * n) sgn old ≤ intVal (8 * n) sgn x)
  match op with
  | .swap => x
  | .add => (old + x) % 256 ^ n
  | .and => Nat.land old x
  | .or => Nat.lor old x
  | .xor => Nat.xor old x
  | .min => if less true then old else x
  | .max => if less true then x else old
  | .minu => if less false then old else x
  | .maxu => if less false then x else old
/-- What a hart's access writes: its width, the widths that such an access may have, and the new value from the old. -/
def hartEffect : HartOp → Option (Nat × List Nat × (Nat → Nat))
  | .load | .lr _ | .sc _ _ => none
  | .store v => some (8, [8], fun _ => v.toNat)
  | .swap v => some (8, [8], fun _ => v.toNat)
  | .add v => some (8, [8], fun old => (old + v.toNat) % 2 ^ 64)
  | .storeN n v => some (n, [1, 2, 4, 8], fun _ => v.toNat % 256 ^ n)
  | .amo op n v => some (n, [4, 8], fun old => hartAmo op n old v.toNat)
  | .cas n old new => some (n, [4, 8], fun x => if x = old.toNat % 256 ^ n then new.toNat % 256 ^ n else x)
/-- Whether a hart's access is a load: its faults are load faults, and any other's are store or AMO faults. -/
def hartLoads : HartOp → Bool
  | .load | .lr _ => true
  | _ => false

/-- A page fault of a hart, by the kind of its access (RISC-V causes 13 and 15). -/
def pageFault (load : Bool) : Nat := if load then 13 else 15
/-- An access fault of a hart, by the kind of its access (R387: RISC-V causes 5 and 7). -/
def accessFault (load : Bool) : Nat := if load then 5 else 7
/-- A leaf entry as a hart's RISC-V rules take it (R387), with its Svpbmt field: form, user bit, permissions, A and D. PRESUMED: A = 0, or
D = 0 at a write, is a page fault, as Svade of the RVA23 profile has it (log 105). -/
def hartLeaf (v : HartVia) (load : Bool) (va pte lv : Nat) : Option (Nat × Nat) :=
  let ppn := pte / 2 ^ 10 % 2 ^ 44
  let napot := bitN pte 63
  let lg := if lv = 0 then (if napot then 16 else 12) else 12 + 9 * lv
  let base := if napot then ppn / 16 * 16 * 4096 else ppn * 4096
  if (napot ∧ (lv ≠ 0 ∨ ppn % 16 ≠ 8)) ∨ base % 2 ^ lg ≠ 0 then none
  else if (if v.user then !bitN pte 4 else bitN pte 4 && !v.sum) then none
  else if (if load then !(bitN pte 1 || (v.mxr && bitN pte 3)) else !bitN pte 2) then none
  else if !bitN pte 6 || (!load && !bitN pte 7) then none
  else some (base + va % 2 ^ lg, pte / 2 ^ 61 % 4)
/-- A hart's walk of its Sv57 tables from table `ppn` (R387): a physical address with the page's Svpbmt field, or the cause of a fault. -/
def hartWalk (s : State) (v : HartVia) (load : Bool) (va : Nat) : Nat → Nat → Except Nat (Nat × Nat)
  | lv, ppn =>
    let at_ := ppn * 4096 + va / 2 ^ (12 + 9 * lv) % 512 * 8
    let pte := homeNat s 8 at_
    if !hartMay true at_ then .error (accessFault load)
    else if !bitN pte 0 ∨ (bitN pte 2 ∧ !bitN pte 1) ∨ pte / 2 ^ 54 % 2 ^ 7 ≠ 0 ∨ pte / 2 ^ 61 % 4 = 3 then .error (pageFault load)
    else if bitN pte 1 ∨ bitN pte 3 then
      match hartLeaf v load va pte lv with
      | some x => .ok x
      | none => .error (pageFault load)
    else match lv with
      | 0 => .error (pageFault load)
      | lv + 1 => if pte / 2 ^ 61 ≠ 0 then .error (pageFault load) else hartWalk s v load va lv (pte / 2 ^ 10 % 2 ^ 44)
/-- The physical address of a hart's access, with its page's Svpbmt field (R37, R387). -/
def hartPlace (s : State) (v : HartVia) (load : Bool) (addr : Nat) : Except Nat (Nat × Nat) :=
  match v.root with
  | none => .ok (addr, 0)
  | some r => if canonical addr then hartWalk s v load addr 4 r else .error (pageFault load)
/-- A hart takes a fault at an address; the access has no effect (R387). -/
def hartFault (s : State) (hart cause addr : Nat) : State := { s with hartFaults := tabPut s.hartFaults hart (cause, addr) }
/-- The window of the PCIe root port in a hart's physical map (R387). -/
def inPcie (pa : Nat) : Bool := decide (Config.pcieBase ≤ pa) && decide (pa < Config.pcieBase + Config.pcieBytes)
/-- A load-reserved holds the granule of its address (R387). -/
def hartReserve (s : State) (hart n pa : Nat) : State :=
  if n ∈ [4, 8] ∧ pa % n = 0 then { s with hartRes := tabPut s.hartRes hart (pa / 64) } else s
/-- A store-conditional writes where its hart's reservation still holds the granule, and ends the reservation (R387). -/
def hartConditional (s : State) (hart n pa x : Nat) : State :=
  if n ∈ [4, 8] ∧ pa % n = 0 then
    let t := { s with hartRes := tabDel s.hartRes hart }
    if tabFind s.hartRes hart = some (pa / 64) then hartWrite t n pa (x % 256 ^ n) else t
  else s
/-- A hart's access at a physical address of the device: performed at the home slices (R307). -/
def hartDo (s : State) (hart : Nat) (op : HartOp) (pa : Nat) : State :=
  match op with
  | .lr n => hartReserve s hart n pa
  | .sc n v => hartConditional s hart n pa v.toNat
  | op =>
    match hartEffect op with
    | none => s
    | some (n, ns, f) => if n ∈ ns ∧ pa % n = 0 then hartWrite s n pa (f (homeNat s n pa)) else s
/-- `HART_ACCESS` (R307, R387): translated by the hart where it has a root table, then performed at the home slices, or refused with a fault
at the hart and no effect. A load changes nothing of the module, and neither does the window of the PCIe port. The host die boots at
step 6 of the boot sequence (R393). -/
def execHartAccess (req : HartReq) (addr : Nat) (s : State) : Out :=
  let via := req.via
  let op := req.op
  if s.boot ≠ 6 then .next s
  else match hartPlace s via (hartLoads op) addr with
    | .error c => .next (hartFault s via.hart c addr)
    | .ok (pa, _) =>
      if inPcie pa then .next s
      else if !hartMay (hartLoads op) pa then .next (hartFault s via.hart (accessFault (hartLoads op)) addr)
      else .next (hartDo s via.hart op pa)
/-- A cache of the host die takes a line that a hart has loaded from a page whose Svpbmt field leaves it cacheable (R37, R307). -/
def hostFill (s : State) (via : HartVia) (addr : Nat) : State :=
  match hartPlace s via true addr with
  | .ok (pa, 0) =>
    if s.boot = 6 ∧ hartMay true pa = true then
      { s with hostCache := tabPut s.hostCache (pa / 128) (homeNat s 128 (pa / 128 * 128)) }
    else s
  | _ => s

/-- The root table of a requester and a PASID prefix, 0 for none, in the IOMMU of the PCIe port (R391). -/
def iommuRoot (s : State) (dev pasid : Nat) : Option Nat := tabFind s.iommu (2 ^ 20 * dev + pasid)
/-- The IOMMU holds a root table. -/
def iommuContext (s : State) (dev pasid root : Nat) : State :=
  if pasid < 2 ^ 20 then { s with iommu := tabPut s.iommu (2 ^ 20 * dev + pasid) root } else s
/-- The physical address of an inbound request, as the IOMMU translates it (R391). PRESUMED: a first stage of Sv57 alone, with the
permissions of user mode (log 106). -/
def iommuPlace (s : State) (dev pasid : Nat) (load : Bool) (addr : Nat) : Option Nat :=
  match iommuRoot s dev pasid with
  | none => none
  | some r =>
    match hartPlace s ⟨0, some r, true, false, false⟩ load addr with
    | .ok (pa, _) => if hartMay load pa then some pa else none
    | .error _ => none
/-- `PCIE_INBOUND_REQUEST` (R307, R391): one that the IOMMU refuses is completed as an Unsupported Request and has no effect; a write of
1, 2, 4 or 8 bytes is performed at the home slices. -/
def execPcieInboundRequest (via : PcieVia) (addr : Nat) (wr : Option (Nat × Dword)) (s : State) : Out :=
  if s.boot ≠ 6 then .next s
  else match iommuPlace s via.dev via.pasid wr.isNone addr with
    | none => .next { s with pcieUr := s.pcieUr ++ [(via.dev, addr)] }
    | some pa =>
      match wr with
      | some (n, v) => .next (if n ∈ [1, 2, 4, 8] ∧ pa % n = 0 then hartWrite s n pa (v.toNat % 256 ^ n) else s)
      | none => .next s

/-! ### Ultra Ethernet (R392) -/

/-- `CONNECTION_SETUP` (R392): a peer of the AI Full profile is accepted; one that offers only the HPC profile is refused. -/
def execConnectionSetup (port : Nat) (peer : Peer) (s : State) : Out :=
  if 32 ≤ port ∨ port ∈ s.portsDown ∨ !peer.aiFull then .next s else .next { s with peers := tabPut s.peers port peer.name }
/-- Another connected port that reaches a port's peer (R392). -/
def otherPort (s : State) (port : Nat) : Option Nat :=
  (tabFind s.peers port).bind (fun peer =>
    (s.peers.find? (fun e => decide (e.1 ≠ port) && e.2 = peer && !(e.1 ∈ s.portsDown))).map (fun e => e.1))
/-- `PORT_FAILURE` (R392): the collectives of the port move to another that reaches the same peer; where none does they have no port, and
their rounds fail by R323. -/
def execPortFailure (port : Nat) (s : State) : Out :=
  if 32 ≤ port then .next s
  else
    let q := otherPort s port
    .next { s with
      portsDown := setIns s.portsDown port, peers := tabDel s.peers port,
      collectives := s.collectives.map (fun e => if e.2.port = some port then (e.1, { e.2 with port := q }) else e) }

/-! ### Attestation (R393) -/

/-- Bytes 0 to 191 of a report as a number (R393). -/
def reportBody (s : State) (nonce : Nat) : Nat :=
  let flags := (if s.bootFailed then 0 else 1) + (if s.stks.any (fun e => e.2.degraded) then 2 else 0)
  nonce + 2 ^ 256 * s.measure.toNat + 2 ^ 768 * Config.identityKey.toNat + 2 ^ 1024 * 2 + 2 ^ 1056 * Config.fuseVersion.toNat +
    2 ^ 1088 * flags
/-- The signed report. -/
def report (s : State) (nonce : Nat) : Nat :=
  reportBody s nonce + 2 ^ 1536 * (Config.identitySign (Config.sha512 (leBytes 192 (reportBody s nonce)))).toNat
/-- `ATTESTATION_REPORT` (R389, R393) -/
def execAttestationReport (s : State) : Out :=
  moduleReq s 0x0F [(16, 32), (48, 8)]
    (fun m => msgNat m 48 8 % 256 = 0 && decide (msgNat m 48 8 + 256 ≤ Config.hbmBytes)) never (fun s m =>
    owe (homeWrite 256 s (msgNat m 48 8) (report s (msgNat m 16 32))) (.ready (msgPut (replyTo m) 12 4 256)))

/-! ### Power (R288, R394, R395) -/

/-- `POWER_GATE` (R394): gating changes timing only. -/
def execPowerGate (k : Nat) (s : State) : Out := if k ≤ 12 then .next { s with gate := k } else .next s
/-- `THERMAL_THROTTLE` (R395): the gate rises. -/
def execThermalThrottle (s : State) : Out := .next { s with gate := min 12 (s.gate + 1) }
/-- `POWER_LOSS` (R288): what it leaves is settled when power returns. -/
def execPowerLoss (s : State) : Out := .next { s with powered := false }
/-- `THERMAL_SHUTDOWN` (R395): lifetime records, then power is removed. -/
def execThermalShutdown (s : State) : Out :=
  .next { (List.range Config.stackCount).foldl appendLife s with powered := false }

/-! ### Resets and boot (R288, R393, R396) -/

/-- Records after the durable ones whose payloads are written, without a gap. -/
def writtenAfter (g : Segment) : Nat :=
  ((List.range (g.next - 1 - g.durable)).takeWhile (fun i => !((g.durable + 1 + i) ∈ g.unread))).length
/-- A segment after a loss of power or a reset (R280, R288): detached, its state kept, with its durable records and as many of
those that follow as survive. -/
def survive (g : Segment) (draw : Nat) : Segment :=
  let x := g.durable + Config.surviving draw % (writtenAfter g + 1)
  { cutToDurable { g with durable := x } with sealing := false, attach := none }
/-- The module after a reset (R396): segments, lane swaps and lifetime records are kept, and nothing else. -/
def restart (s : State) : State :=
  { State.reset with
    segments := s.segments.mapIdx (fun i e => (e.1, survive e.2 (s.draws + i))),
    cores := (s.cores.filter (fun e => !e.2.swaps.isEmpty)).map (fun e => (e.1, { coreZero with swaps := e.2.swaps })),
    stks := (s.stks.filter (fun e => !e.2.lifeSegs.isEmpty)).map (fun e =>
      (e.1, { stackZero with lifeSegs := e.2.lifeSegs, rowsKept := e.2.rowsKept })),
    agenda := s.agenda, fresh := s.fresh, draws := s.draws + s.segments.length }
/-- `COLD_RESET` (R396) -/
def execColdReset (s : State) : Out := .next (restart s)
/-- `WARM_RESET` (R396) -/
def execWarmReset (s : State) : Out := .next (restart s)

/-- The hash of every firmware image enters the measurement register (R393 step 3). -/
def measureAll : BitVec 512 :=
  (List.range 9).foldl (fun m n => Config.sha512 (leBytes 64 m.toNat ++ leBytes 64 (Config.sha512 (Config.firmwareImage n)).toNat)) 0
/-- Every image carries a good signature (R393 step 2). -/
def imagesGood : Bool :=
  (List.range 9).all (fun n =>
    Config.ed25519Verify Config.vendorKey (Config.sha512 (Config.firmwareImage n)) (Config.firmwareSig n))
/-- The next step of the boot sequence (R393); a failed verification halts it. At step 5 core 4 asks Jasper for the segments (R53), which a
reset has kept, and core 3 rebuilds the remap tables. -/
def bootStep (s : State) : State :=
  if s.bootFailed || decide (6 ≤ s.boot) then s
  else if s.boot = 1 then (if imagesGood then { s with boot := 2 } else { s with bootFailed := true })
  else if s.boot = 2 then { s with boot := 3, measure := measureAll }
  else if s.boot = 4 then { rebuildRows (sendMail s 4 8 0) with boot := 5 }
  else { s with boot := s.boot + 1 }

end Sys2Proof.Machine
end

