-- ==== Sys2Proof/Machine/Trap.lean ====
section
/-! DEFINITION. Traps, service requests, `YIELD`, and the trap queue (R333 to R348). -/
namespace Sys2Proof.Machine

/-- `TRAP` (R337, R346): the stopping point lies past it. -/
def execTrap (n : BitVec 14) (s : State) : Out :=
  onPath s (fun g p =>
    let p := advScalar s g p
    trapHere s g p (mkTrap s p 0 0x30 (n.setWidth 32) 0))
/-- `SVC` (R342, R346): a service request with `s2` in `tval1`. -/
def execSvc (n : BitVec 14) (s : State) : Out :=
  onPath s (fun g p =>
    let p := sigWord s g p
    trapHere s g p (mkTrap s p 0 0x32 (n.setWidth 32) (sRead g p 2)))
/-- Whether `BKPT` is a service request: without a handler, or inside one (R335, R338). -/
def bkptAsks (s : State) (g : Group) : Bool := (kernOf s g).trapOff.isNone || g.handler.isSome
/-- `BKPT` (R335, R346). -/
def execBkpt (n : BitVec 14) (s : State) : Out :=
  onPath s (fun g p =>
    let p := sigWord s g p
    trapHere s g p { mkTrap s p 0 0x31 (n.setWidth 32) 0 with cls := if bkptAsks s g then 3 else 0 })

/-- `YIELD` (R348): every path of the group becomes the youngest on all three ports, and this one is ineligible for 16 clocks. -/
def execYield (s : State) : Out :=
  onPath s (fun g p =>
    .next (keep { s with fresh := s.fresh + 1 }
      { g with age := s.fresh, ageA := s.fresh, ageB := s.fresh, paths := g.paths.map (fun q => { q with age := s.fresh }) }
      { advScalar s g p with age := s.fresh, idle := s.clock + 16 }))

/-! ### The trap queue (R341 to R343) -/

/-- Free slots of a stack's trap queue. -/
def trapRoom (k : Stack) : Nat := 64 - k.trapQ.length

/-- The first class 2 record of a launch that lands gives the launch's cause (R343, R383). -/
def landCause (s : State) (r : TrapRec) : State :=
  match r.launch with
  | some l => modLaunch s l (fun x => { x with cause := if x.cause = 0 then causeWord 2 r.info.src r.info.code else x.cause })
  | none => s
/-- `TRAP_RECORD_WRITE`: a latched class 2 record takes any free slot first; a class 1 or 3 record is written only
while three slots are free (R341). -/
def execTrapRecordWrite (st : Nat) (s : State) : Out :=
  let k := stackOf s st
  match k.fatal with
  | r :: rest =>
    if 1 ≤ trapRoom k then .next (landCause (setStack s st { k with fatal := rest, trapQ := k.trapQ ++ [r] }) r) else .next s
  | [] =>
    match k.waitQ with
    | r :: rest =>
      if 3 ≤ trapRoom k then .next (setStack s st { k with waitQ := rest, trapQ := k.trapQ ++ [r] }) else .next s
    | [] => .next s

/-- `TRAP_QUEUE_DRAIN`: core 3 keeps the oldest record, forwards classes 1 and 3 to the driver, which may then reply,
and on class 2 kills every team of the launch, once drains have ended the segments that they have checked (R341, R343, R380). -/
def execTrapQueueDrain (st : Nat) (s : State) : Out :=
  let k := stackOf s st
  match k.trapQ with
  | [] => .next s
  | r :: rest =>
    let ln := r.launch.filter (fun l => ((tabFind s.launches l).map (fun x => !x.finished)).getD false)
    if r.info.cls = 2 ∧ !(ln.map (segsDone s)).getD true then .next s
    else
      let s := { s with drained := s.drained ++ [recordImage r] }
      if r.info.cls = 2 then
        let s := setStack s st { k with trapQ := rest }
        match ln with
        | some l => .next (killLaunchNo s l 0)
        | none => .next s
      else .next (setStack s st { k with trapQ := rest, pending := k.pending ++ [r] })

end Sys2Proof.Machine
end

