-- ==== Sys2Proof/Machine/Dispatch.lean ====
section
/-! DEFINITION. One arm per instruction and per step of the table, each a direct call of its meaning. -/
namespace Sys2Proof.Machine

/-- The effect of an instruction on the current path, or of a step on the module. -/
def exec (i : Instr) (s : State) : Host.Outcome State Fault Refusal :=
  match i with
  | .add d a b => Sys2Proof.Machine.execAdd d a b s
  | .sub d a b => Sys2Proof.Machine.execSub d a b s
  | .mul d a b => Sys2Proof.Machine.execMul d a b s
  | .mulh d a b => Sys2Proof.Machine.execMulh d a b s
  | .mulhZ32 d a b => Sys2Proof.Machine.execMulhZ32 d a b s
  | .divs d a b => Sys2Proof.Machine.execDivs d a b s
  | .and d a b => Sys2Proof.Machine.execAnd d a b s
  | .or d a b => Sys2Proof.Machine.execOr d a b s
  | .xor d a b => Sys2Proof.Machine.execXor d a b s
  | .andn d a b => Sys2Proof.Machine.execAndn d a b s
  | .shl d a b => Sys2Proof.Machine.execShl d a b s
  | .shr d a b => Sys2Proof.Machine.execShr d a b s
  | .sra d a b => Sys2Proof.Machine.execSra d a b s
  | .min d a b => Sys2Proof.Machine.execMin d a b s
  | .max d a b => Sys2Proof.Machine.execMax d a b s
  | .minZ32 d a b => Sys2Proof.Machine.execMinZ32 d a b s
  | .maxZ32 d a b => Sys2Proof.Machine.execMaxZ32 d a b s
  | .sel d a b => Sys2Proof.Machine.execSel d a b s
  | .cmp cc d a b => Sys2Proof.Machine.execCmp cc d a b s
  | .cmpZ32 cc d a b => Sys2Proof.Machine.execCmpZ32 cc d a b s
  | .addZ64 d a b => Sys2Proof.Machine.execAddZ64 d a b s
  | .subZ64 d a b => Sys2Proof.Machine.execSubZ64 d a b s
  | .addi d a imm => Sys2Proof.Machine.execAddi d a imm s
  | .andi d a imm => Sys2Proof.Machine.execAndi d a imm s
  | .ori d a imm => Sys2Proof.Machine.execOri d a imm s
  | .xori d a imm => Sys2Proof.Machine.execXori d a imm s
  | .shli d a n => Sys2Proof.Machine.execShli d a n s
  | .shri d a n => Sys2Proof.Machine.execShri d a n s
  | .srai d a n => Sys2Proof.Machine.execSrai d a n s
  | .movi d imm => Sys2Proof.Machine.execMovi d imm s
  | .movhi d imm => Sys2Proof.Machine.execMovhi d imm s
  | .brNz a off => Sys2Proof.Machine.execBrNz a off s
  | .brZ a off => Sys2Proof.Machine.execBrZ a off s
  | .brd p neg tag live off => Sys2Proof.Machine.execBrd p neg tag live off s
  | .jmp off => Sys2Proof.Machine.execJmp off s
  | .call off => Sys2Proof.Machine.execCall off s
  | .jmpi a => Sys2Proof.Machine.execJmpi a s
  | .jmpv tag v => Sys2Proof.Machine.execJmpv tag v s
  | .callv tag v => Sys2Proof.Machine.execCallv tag v s
  | .rjoin tag => Sys2Proof.Machine.execRjoin tag s
  | .lrun idx => Sys2Proof.Machine.execLrun idx s
  | .ljmp idx => Sys2Proof.Machine.execLjmp idx s
  | .looph off => Sys2Proof.Machine.execLooph off s
  | .mand d a b => Sys2Proof.Machine.execMand d a b s
  | .mor d a b => Sys2Proof.Machine.execMor d a b s
  | .mxor d a b => Sys2Proof.Machine.execMxor d a b s
  | .mnot d a => Sys2Proof.Machine.execMnot d a s
  | .mpop d a => Sys2Proof.Machine.execMpop d a s
  | .mfirst d a => Sys2Proof.Machine.execMfirst d a s
  | .sld d a off => Sys2Proof.Machine.execSld d a off s
  | .sldZ64 d a off => Sys2Proof.Machine.execSldZ64 d a off s
  | .sst d a off => Sys2Proof.Machine.execSst d a off s
  | .sstZ64 d a off => Sys2Proof.Machine.execSstZ64 d a off s
  | .sarg d off => Sys2Proof.Machine.execSarg d off s
  | .sargZ64 d off => Sys2Proof.Machine.execSargZ64 d off s
  | .waitf mask => Sys2Proof.Machine.execWaitf mask s
  | .waitk k sa => Sys2Proof.Machine.execWaitk k sa s
  | .srd d r => Sys2Proof.Machine.execSrd d r s
  | .srdCyclo d => Sys2Proof.Machine.execSrdCyclo d s
  | .srdCychi d => Sys2Proof.Machine.execSrdCychi d s
  | .swrEjth a => Sys2Proof.Machine.execSwrEjth a s
  | .swrRjto a => Sys2Proof.Machine.execSwrRjto a s
  | .swrFpflags a => Sys2Proof.Machine.execSwrFpflags a s
  | .swrTrapState r a => Sys2Proof.Machine.execSwrTrapState r a s
  | .sigchk ia => Sys2Proof.Machine.execSigchk ia s
  | .trap n => Sys2Proof.Machine.execTrap n s
  | .svc n => Sys2Proof.Machine.execSvc n s
  | .bkpt n => Sys2Proof.Machine.execBkpt n s
  | .nop hint => Sys2Proof.Machine.execNop hint s
  | .iadd h t sat vd va b => Sys2Proof.Machine.execIadd h t sat vd va b s
  | .isub h t sat vd va b => Sys2Proof.Machine.execIsub h t sat vd va b s
  | .imul h t sat vd va b => Sys2Proof.Machine.execImul h t sat vd va b s
  | .imad h t sat vd va b vc => Sys2Proof.Machine.execImad h t sat vd va b vc s
  | .imulh h t vd va b => Sys2Proof.Machine.execImulh h t vd va b s
  | .iabs h t sat vd va => Sys2Proof.Machine.execIabs h t sat vd va s
  | .imin h t vd va b => Sys2Proof.Machine.execImin h t vd va b s
  | .imax h t vd va b => Sys2Proof.Machine.execImax h t vd va b s
  | .laneAnd h t vd va b => Sys2Proof.Machine.execLaneAnd h t vd va b s
  | .laneOr h t vd va b => Sys2Proof.Machine.execLaneOr h t vd va b s
  | .laneXor h t vd va b => Sys2Proof.Machine.execLaneXor h t vd va b s
  | .not h t vd va => Sys2Proof.Machine.execNot h t vd va s
  | .laneShl h t vd va b => Sys2Proof.Machine.execLaneShl h t vd va b s
  | .laneShr h t vd va b => Sys2Proof.Machine.execLaneShr h t vd va b s
  | .laneSra h t vd va b => Sys2Proof.Machine.execLaneSra h t vd va b s
  | .rot h t vd va b => Sys2Proof.Machine.execRot h t vd va b s
  | .popc h t vd va => Sys2Proof.Machine.execPopc h t vd va s
  | .clz h t vd va => Sys2Proof.Machine.execClz h t vd va s
  | .brev h t vd va => Sys2Proof.Machine.execBrev h t vd va s
  | .bfx h t vd va pos width => Sys2Proof.Machine.execBfx h t vd va pos width s
  | .bfi h t vd va pos width => Sys2Proof.Machine.execBfi h t vd va pos width s
  | .laneSel h t vd va b pk => Sys2Proof.Machine.execLaneSel h t vd va b pk s
  | .mov h t vd a => Sys2Proof.Machine.execMov h t vd a s
  | .movs h t vd sn => Sys2Proof.Machine.execMovs h t vd sn s
  | .lea h vd base idx off => Sys2Proof.Machine.execLea h vd base idx off s
  | .iset h cc t pd va b => Sys2Proof.Machine.execIset h cc t pd va b s
  | .shfl h m t vd va b => Sys2Proof.Machine.execShfl h m t vd va b s
  | .voteAny h pd pa => Sys2Proof.Machine.execVoteAny h pd pa s
  | .voteAll h pd pa => Sys2Proof.Machine.execVoteAll h pd pa s
  | .voteBallot h sn pa => Sys2Proof.Machine.execVoteBallot h sn pa s
  | .gred h op t vd va => Sys2Proof.Machine.execGred h op t vd va s
  | .fadd h m vd va b => Sys2Proof.Machine.execFadd h m vd va b s
  | .fsub h m vd va b => Sys2Proof.Machine.execFsub h m vd va b s
  | .fmul h m vd va b => Sys2Proof.Machine.execFmul h m vd va b s
  | .ffma h m vd va b vc => Sys2Proof.Machine.execFfma h m vd va b vc s
  | .fmin h vd va b => Sys2Proof.Machine.execFmin h vd va b s
  | .fmax h vd va b => Sys2Proof.Machine.execFmax h vd va b s
  | .fabs h vd va => Sys2Proof.Machine.execFabs h vd va s
  | .fneg h vd va => Sys2Proof.Machine.execFneg h vd va s
  | .fclass h vd va => Sys2Proof.Machine.execFclass h vd va s
  | .fscale h m vd va b => Sys2Proof.Machine.execFscale h m vd va b s
  | .frnd h m vd va => Sys2Proof.Machine.execFrnd h m vd va s
  | .fdiv h m vd va b => Sys2Proof.Machine.execFdiv h m vd va b s
  | .fsqrt h m vd va => Sys2Proof.Machine.execFsqrt h m vd va s
  | .fset h cc pd va b => Sys2Proof.Machine.execFset h cc pd va b s
  | .rcp h vd va => Sys2Proof.Machine.execRcp h vd va s
  | .rsq h vd va => Sys2Proof.Machine.execRsq h vd va s
  | .ex2 h vd va => Sys2Proof.Machine.execEx2 h vd va s
  | .lg2 h vd va => Sys2Proof.Machine.execLg2 h vd va s
  | .sin h vd va => Sys2Proof.Machine.execSin h vd va s
  | .cos h vd va => Sys2Proof.Machine.execCos h vd va s
  | .tanh h vd va => Sys2Proof.Machine.execTanh h vd va s
  | .erf h vd va => Sys2Proof.Machine.execErf h vd va s
  | .specialFunctionComplete g r => Sys2Proof.Machine.execSpecialFunctionComplete g r s
  | .h2add h m bf vd va b => Sys2Proof.Machine.execH2add h m bf vd va b s
  | .h2mul h m bf vd va b => Sys2Proof.Machine.execH2mul h m bf vd va b s
  | .h2fma h m bf vd va b vc => Sys2Proof.Machine.execH2fma h m bf vd va b vc s
  | .cvt h m sat dt st vd va => Sys2Proof.Machine.execCvt h m sat dt st vd va s
  | .ld h t spa acq sc w base idx off vd => Sys2Proof.Machine.execLd h t spa acq sc w base idx off vd s
  | .st h t spa rel sc w base idx off vc => Sys2Proof.Machine.execSt h t spa rel sc w base idx off vc s
  | .atom h op t spa ord sc w base idx off vd vc => Sys2Proof.Machine.execAtom h op t spa ord sc w base idx off vd vc s
  | .red h op t spa rel sc w base idx off vc => Sys2Proof.Machine.execRed h op t spa rel sc w base idx off vc s
  | .memoryRequestReturn g r => Sys2Proof.Machine.execMemoryRequestReturn g r s
  | .fence h sc => Sys2Proof.Machine.execFence h sc s
  | .cln h sc => Sys2Proof.Machine.execCln h sc s
  | .inv h sc => Sys2Proof.Machine.execInv h sc s
  | .pref h base idx off => Sys2Proof.Machine.execPref h base idx off s
  | .lkln h base idx off => Sys2Proof.Machine.execLkln h base idx off s
  | .ulln h base idx off => Sys2Proof.Machine.execUlln h base idx off s
  | .cpyc h dst src dr sr => Sys2Proof.Machine.execCpyc h dst src dr sr s
  | .cpyx h dst vx tab rc => Sys2Proof.Machine.execCpyx h dst vx tab rc s
  | .job h card => Sys2Proof.Machine.execJob h card s
  | .taskdef h card cnt t => Sys2Proof.Machine.execTaskdef h card cnt t s
  | .taskwait h t => Sys2Proof.Machine.execTaskwait h t s
  | .submissionStart st sub => Sys2Proof.Machine.execSubmissionStart st sub s
  | .jobComplete st sub => Sys2Proof.Machine.execJobComplete st sub s
  | .tileArrival st sub => Sys2Proof.Machine.execTileArrival st sub s
  | .gangset h sa => Sys2Proof.Machine.execGangset h sa s
  | .mma h fmt td a b sc ra rb => Sys2Proof.Machine.execMma h fmt td a b sc ra rb s
  | .mmaz h fmt td a b sc ra rb => Sys2Proof.Machine.execMmaz h fmt td a b sc ra rb s
  | .mdrain h slot tile sc => Sys2Proof.Machine.execMdrain h slot tile sc s
  | .matrixStep c => Sys2Proof.Machine.execMatrixStep c s
  | .matrixComplete c => Sys2Proof.Machine.execMatrixComplete c s
  | .scld h a cnt off => Sys2Proof.Machine.execScld h a cnt off s
  | .drld h a n slot => Sys2Proof.Machine.execDrld h a n slot s
  | .tkpass h t => Sys2Proof.Machine.execTkpass h t s
  | .tktake h t => Sys2Proof.Machine.execTktake h t s
  | .accrd h vd t vx => Sys2Proof.Machine.execAccrd h vd t vx s
  | .accwr h t vx vs => Sys2Proof.Machine.execAccwr h t vx vs s
  | .drainSegment c => Sys2Proof.Machine.execDrainSegment c s
  | .drainComplete c => Sys2Proof.Machine.execDrainComplete c s
  | .dadd d a b => Sys2Proof.Machine.execDadd d a b s
  | .dmul d a b => Sys2Proof.Machine.execDmul d a b s
  | .dfma d a b c => Sys2Proof.Machine.execDfma d a b c s
  | .dmin d a b => Sys2Proof.Machine.execDmin d a b s
  | .dmax d a b => Sys2Proof.Machine.execDmax d a b s
  | .dclamp d a b c => Sys2Proof.Machine.execDclamp d a b c s
  | .drow t d p => Sys2Proof.Machine.execDrow t d p s
  | .dcol t d p => Sys2Proof.Machine.execDcol t d p s
  | .dscl d a n => Sys2Proof.Machine.execDscl d a n s
  | .dgelu d a => Sys2Proof.Machine.execDgelu d a s
  | .dsilu d a => Sys2Proof.Machine.execDsilu d a s
  | .dtanh d a => Sys2Proof.Machine.execDtanh d a s
  | .dsig d a => Sys2Proof.Machine.execDsig d a s
  | .drelu d a => Sys2Proof.Machine.execDrelu d a s
  | .damax t d a => Sys2Proof.Machine.execDamax t d a s
  | .dq8 d a b => Sys2Proof.Machine.execDq8 d a b s
  | .dq4 d a b => Sys2Proof.Machine.execDq4 d a b s
  | .dcvt sat t d a => Sys2Proof.Machine.execDcvt sat t d a s
  | .dsel cc d a b c => Sys2Proof.Machine.execDsel cc d a b c s
  | .dst t a p m => Sys2Proof.Machine.execDst t a p m s
  | .dsts a p m => Sys2Proof.Machine.execDsts a p m s
  | .dend zero => Sys2Proof.Machine.execDend zero s
  | .dmov d a => Sys2Proof.Machine.execDmov d a s
  | .dld t d p m => Sys2Proof.Machine.execDld t d p m s
  | .bari h o n => Sys2Proof.Machine.execBari h o n s
  | .arrive h o => Sys2Proof.Machine.execArrive h o s
  | .bwait h o => Sys2Proof.Machine.execBwait h o s
  | .expect h o n => Sys2Proof.Machine.execExpect h o n s
  | .roleset h k => Sys2Proof.Machine.execRoleset h k s
  | .xred h op sa vb => Sys2Proof.Machine.execXred h op sa vb s
  | .xredRoundComplete c => Sys2Proof.Machine.execXredRoundComplete c s
  | .xwait h sa => Sys2Proof.Machine.execXwait h sa s
  | .collectiveTimeout c => Sys2Proof.Machine.execCollectiveTimeout c s
  | .append h g a n => Sys2Proof.Machine.execAppend h g a n s
  | .apfence h d g => Sys2Proof.Machine.execApfence h d g s
  | .seal h g => Sys2Proof.Machine.execSeal h g s
  | .recordDurable seg => Sys2Proof.Machine.execRecordDurable seg s
  | .stallToken g r => Sys2Proof.Machine.execStallToken g r s
  | .stallRelease g r => Sys2Proof.Machine.execStallRelease g r s
  | .storageTimeout g r => Sys2Proof.Machine.execStorageTimeout g r s
  | .launch q => Sys2Proof.Machine.execLaunch q s
  | .copy q => Sys2Proof.Machine.execCopy q s
  | .task q => Sys2Proof.Machine.execTask q s
  | .barrier q => Sys2Proof.Machine.execBarrier q s
  | .invalidateTranslations q => Sys2Proof.Machine.execInvalidateTranslations q s
  | .prefault q => Sys2Proof.Machine.execPrefault q s
  | .demote q => Sys2Proof.Machine.execDemote q s
  | .prefetchToHbm q => Sys2Proof.Machine.execPrefetchToHbm q s
  | .conditionalSkip q => Sys2Proof.Machine.execConditionalSkip q s
  | .conditionalJump q => Sys2Proof.Machine.execConditionalJump q s
  | .conditionalRepeat q => Sys2Proof.Machine.execConditionalRepeat q s
  | .repeatTimeout q => Sys2Proof.Machine.execRepeatTimeout q s
  | .lineWatchFire line => Sys2Proof.Machine.execLineWatchFire line s
  | .packetComplete q idx => Sys2Proof.Machine.execPacketComplete q idx s
  | .itemFeed l => Sys2Proof.Machine.execItemFeed l s
  | .ejectionDecision g p => Sys2Proof.Machine.execEjectionDecision g p s
  | .laneRecall g => Sys2Proof.Machine.execLaneRecall g s
  | .rejoinTimeout g t => Sys2Proof.Machine.execRejoinTimeout g t s
  | .registerLineFetch g line => Sys2Proof.Machine.execRegisterLineFetch g line s
  | .translationWalk st => Sys2Proof.Machine.execTranslationWalk st s
  | .promoteBlock blk => Sys2Proof.Machine.execPromoteBlock blk s
  | .trapQueueDrain st => Sys2Proof.Machine.execTrapQueueDrain st s
  | .trapRecordWrite st => Sys2Proof.Machine.execTrapRecordWrite st s
  | .launchComplete l => Sys2Proof.Machine.execLaunchComplete l s
  | .stopNotice cl => Sys2Proof.Machine.execStopNotice cl s
  | .saveStart cl => Sys2Proof.Machine.execSaveStart cl s
  | .saveComplete cl => Sys2Proof.Machine.execSaveComplete cl s
  | .resumeRestore cl => Sys2Proof.Machine.execResumeRestore cl s
  | .framePoison pa => Sys2Proof.Machine.execFramePoison pa s
  | .parityRetry core grp lane pa tries => Sys2Proof.Machine.execParityRetry core grp lane pa tries s
  | .stackDegrade st => Sys2Proof.Machine.execStackDegrade st s
  | .lifetimeRecord st => Sys2Proof.Machine.execLifetimeRecord st s
  | .powerGate k => Sys2Proof.Machine.execPowerGate k s
  | .portFailure port => Sys2Proof.Machine.execPortFailure port s
  | .hartAccess req addr => Sys2Proof.Machine.execHartAccess req addr s
  | .pcieInboundRequest via addr wr => Sys2Proof.Machine.execPcieInboundRequest via addr wr s
  | .segmentFailure seg => Sys2Proof.Machine.execSegmentFailure seg s
  | .uncorrectableStorageError g kind idx => Sys2Proof.Machine.execUncorrectableStorageError g kind idx s
  | .instructionFetchMiss g p lane => Sys2Proof.Machine.execInstructionFetchMiss g p lane s
  | .connectionSetup port peer => Sys2Proof.Machine.execConnectionSetup port peer s
  | .ret => Sys2Proof.Machine.execRet s
  | .exit => Sys2Proof.Machine.execExit s
  | .snap => Sys2Proof.Machine.execSnap s
  | .eret => Sys2Proof.Machine.execEret s
  | .yield => Sys2Proof.Machine.execYield s
  | .lend => Sys2Proof.Machine.execLend s
  | .placementSearch => Sys2Proof.Machine.execPlacementSearch s
  | .placementRequest => Sys2Proof.Machine.execPlacementRequest s
  | .preemptDecision => Sys2Proof.Machine.execPreemptDecision s
  | .thermalThrottle => Sys2Proof.Machine.execThermalThrottle s
  | .thermalShutdown => Sys2Proof.Machine.execThermalShutdown s
  | .powerLoss => Sys2Proof.Machine.execPowerLoss s
  | .coldReset => Sys2Proof.Machine.execColdReset s
  | .warmReset => Sys2Proof.Machine.execWarmReset s
  | .registerQueue => Sys2Proof.Machine.execRegisterQueue s
  | .freeQueue => Sys2Proof.Machine.execFreeQueue s
  | .resetQueue => Sys2Proof.Machine.execResetQueue s
  | .recordReply => Sys2Proof.Machine.execRecordReply s
  | .createSegment => Sys2Proof.Machine.execCreateSegment s
  | .attachSegment => Sys2Proof.Machine.execAttachSegment s
  | .freeSegment => Sys2Proof.Machine.execFreeSegment s
  | .hostAppend => Sys2Proof.Machine.execHostAppend s
  | .hostSeal => Sys2Proof.Machine.execHostSeal s
  | .createCollective => Sys2Proof.Machine.execCreateCollective s
  | .registerBlockTable => Sys2Proof.Machine.execRegisterBlockTable s
  | .unregisterBlockTable => Sys2Proof.Machine.execUnregisterBlockTable s
  | .setStorageTimeout => Sys2Proof.Machine.execSetStorageTimeout s
  | .setPromotionPool => Sys2Proof.Machine.execSetPromotionPool s
  | .killLaunch => Sys2Proof.Machine.execKillLaunch s
  | .teardownPasid => Sys2Proof.Machine.execTeardownPasid s
  | .attestationReport => Sys2Proof.Machine.execAttestationReport s
  | .openLifetimeSegment => Sys2Proof.Machine.execOpenLifetimeSegment s
  | .registerProcess => Sys2Proof.Machine.execRegisterProcess s
  | .listKeptSegments => Sys2Proof.Machine.execListKeptSegments s
  | .orderlyShutdown => Sys2Proof.Machine.execOrderlyShutdown s

end Sys2Proof.Machine
end

