-- ==== Sys2Proof/Machine/Ports.lean ====
section
/-! DEFINITION. Which path issues in a clock (R72, R101 to R107, R112 to R115, R123, R159, R203, R309): candidacy, ports, pipes,
banks, request slots, and the state in which an instruction executes. -/
namespace Sys2Proof.Machine

/-! ### Candidacy -/

/-- A cluster is being saved on a core: no team of another fetches there until its areas are written (R354). -/
def coreSaving (s : State) (c : Nat) : Bool :=
  (teamsAt s c).any (fun e => ((teamCluster s e.2).map (fun x => decide (x.state = .saving))).getD false)
/-- A group has reached a wait that a stalled load would end: it has left candidacy on every port (R115, R161, R163). -/
def storageWait (s : State) (g : Group) : Bool :=
  g.reqs.any (fun r => r.stalled && !r.late && (waiterOf s g r).isSome)
/-- Whether a path of a group may issue at all from a stream: its group runs and its fetch is not suspended (R113, R114, R347), its cluster
is resident (R351, R358), no rollback, handler or `SNAP` holds it (R166, R337, R368), its line has come (R103), and no storage wait
has taken its group out of candidacy (R115). A path on which a trap is due issues nothing before it (R339). -/
def mayIssue (s : State) (gid : Nat) (g : Group) (p : Path) (lane : Bool) : Bool :=
  g.susp = .run && decide (g.quiet ≤ s.clock) && !g.retired && !outOf s g && !coreSaving s g.core && handlerOk g p &&
    !hasDue g p.id && decide (p.wake ≤ s.clock) && !(if lane then p.missL else p.missS) && !(g.paths.any (fun q => decide (q.id ≠ p.id) && q.hold = .snap)) &&
    (match teamOf s g with
     | some tm => !tm.halted && (tm.rolling.isNone || tm.rolling = some (gid, p.id))
     | none => false) && !storageWait s g

/-! ### Ports and pipes (R104) -/

/-- The pipes: four of each partition, two of the core. -/
inductive Pipe where
  | arithmetic | integer | special | memory | engine | matrix
deriving DecidableEq, Repr
/-- The pipe that takes a lane class. -/
def pipeOf (major : Byte) : Pipe :=
  if major = 0x08 ∨ major = 0x09 ∨ major = 0x0B ∨ major = 0x0C then .arithmetic
  else if major = 0x01 ∨ major = 0x02 ∨ major = 0x04 then .integer
  else if major = 0x0A then .special
  else if major = 0x18 ∨ major = 0x1B then .engine
  else if major = 0x19 then .matrix
  else .memory
/-- The ports of a partition: the scalar port and the two lane ports. -/
inductive Port where
  | scalar | laneA | laneB
deriving DecidableEq, Repr
/-- The key of a port of a partition in the core's table. -/
def portKey (part : Nat) : Port → Nat
  | .scalar => 8 * part
  | .laneA => 8 * part + 1
  | .laneB => 8 * part + 2
/-- The key of a pipe as a partition sees it: a pipe of its own, or one of the core. -/
def pipeKey (part : Nat) : Pipe → Nat
  | .arithmetic => 8 * part + 3
  | .integer => 8 * part + 4
  | .special => 8 * part + 5
  | .memory => 8 * part + 6
  | .engine => 64
  | .matrix => 65
/-- A pipe of the core: it accepts an instruction in every clock. -/
def coreWide (p : Pipe) : Bool := p = .engine || p = .matrix
/-- The key of a partition's last grant on a core-wide pipe (R105). -/
def grantKey (part : Nat) (p : Pipe) : Nat := (if p = .engine then 66 else 74) + part
/-- A unit accepts an instruction in clock `t`, `gap` clocks after the clock behind the first beat of the last (R104). -/
def unitFree (k : Core) (key gap t : Nat) : Bool :=
  decide (tabGet 0 k.ports key = 0) || decide (tabGet 0 k.ports key + gap ≤ t)
/-- A pipe accepts a new instruction: a partition's in the clock after the last beat of the previous one. -/
def pipeFree (k : Core) (part : Nat) (p : Pipe) (t : Nat) : Bool :=
  unitFree k (pipeKey part p) (if coreWide p then 0 else 2) t
/-- The age of a group on a port. -/
def ageOn (g : Group) : Port → Nat
  | .scalar => g.age
  | .laneA => g.ageA
  | .laneB => g.ageB
def setAge (g : Group) (port : Port) (n : Nat) : Group :=
  match port with
  | .scalar => { g with age := n }
  | .laneA => { g with ageA := n }
  | .laneB => { g with ageB := n }

/-! ### Banks and lines of the register cache (R106, R107, R112) -/

/-- The vector registers that a lane instruction reads, each once (R107). -/
def vReads (i : Instr) : List Nat :=
  (match i with
   | .iadd _ t _ _ a b | .isub _ t _ _ a b | .imul _ t _ _ a b | .imulh _ t _ a b | .imin _ t _ a b | .imax _ t _ a b
   | .laneAnd _ t _ a b | .laneOr _ t _ a b | .laneXor _ t _ a b | .laneShl _ t _ a b | .laneShr _ t _ a b | .laneSra _ t _ a b
   | .rot _ t _ a b | .laneSel _ t _ a b _ | .iset _ _ t _ a b => vSpan a t.span ++ srcRegs t.span b
   | .shfl _ _ t _ a b => vSpan a t.span ++ srcRegs 1 b
   | .imad _ t _ _ a b c => vSpan a t.span ++ srcRegs t.span b ++ vSpan c t.span
   | .iabs _ t _ _ a | .not _ t _ a | .popc _ t _ a | .clz _ t _ a | .brev _ t _ a | .bfx _ t _ a _ _ | .gred _ _ t _ a =>
     vSpan a t.span
   | .bfi _ t d a _ _ => vSpan d t.span ++ vSpan a t.span
   | .mov _ t _ a => srcRegs t.span a
   | .movs _ _ _ _ => []
   | .lea _ _ b i _ => baseV b ++ idxV i
   | .fadd _ _ _ a b | .fsub _ _ _ a b | .fmul _ _ _ a b | .fscale _ _ _ a b | .fdiv _ _ _ a b | .fmin _ _ a b | .fmax _ _ a b
   | .h2add _ _ _ _ a b | .h2mul _ _ _ _ a b | .fset _ _ _ a b => vSpan a 1 ++ srcRegs 1 b
   | .ffma _ _ _ a b c | .h2fma _ _ _ _ a b c => vSpan a 1 ++ srcRegs 1 b ++ vSpan c 1
   | .fabs _ _ a | .fneg _ _ a | .fclass _ _ a | .frnd _ _ _ a | .fsqrt _ _ _ a | .rcp _ _ a | .rsq _ _ a | .ex2 _ _ a
   | .lg2 _ _ a | .sin _ _ a | .cos _ _ a | .tanh _ _ a | .erf _ _ a => vSpan a 1
   | .cvt _ _ _ _ sy _ a => vSpan a (if sy.wide then 2 else 1)
   | .ld _ _ _ _ _ _ b i _ _ => baseV b ++ idxV i
   | .st _ t _ _ _ w b i _ v => vSpan v (accSpan t w) ++ baseV b ++ idxV i
   | .atom _ op t _ _ _ w b i _ _ c => vSpan c (if op = AtomOp.cas then 2 * t.span w else t.span w) ++ baseV b ++ idxV i
   | .red _ _ t _ _ _ w b i _ c => vSpan c (t.span w) ++ baseV b ++ idxV i
   | .accrd _ _ _ x => [x.toNat]
   | i => vNames i).foldl setIns []
/-- The reads of an instruction that issues in clock `t`, as clock and bank: register `n` in beat `b` lies in bank (3n + b) mod 12,
and is read in the clock of the beat, or of the last one for class `0x04` (R107). -/
def readsOf (i : Instr) (t : Nat) : List (Nat × Nat) :=
  (vReads i).flatMap (fun n => (List.range 3).map (fun b => (t + (if majorOf i = 0x04 then 2 else b), (3 * n + b) % 12)))
/-- No bank would be read more than four times in a clock (R106). -/
def banksOk (k : Core) (i : Instr) (t : Nat) : Bool :=
  let rs := readsOf i t
  rs.all (fun e => decide ((rs.filter (fun x => x = e)).length + (k.bankReads.filter (fun x => x = e)).length ≤ 4))

/-! ### Requests of a core (R203) -/

/-- The lines of a list of addresses by beat, each once. -/
def beatLines (as : List (Nat × Nat)) : List (Nat × Nat) :=
  as.foldl (fun ls e => if (e.1 / 32, e.2 / 128) ∈ ls then ls else ls ++ [(e.1 / 32, e.2 / 128)]) []
/-- The requests in flight that an outstanding instruction stands for: one for each line of each beat (R203). -/
def lineRequests (r : Req) : Nat :=
  match r.kind with
  | .mem _ _ _ _ _ _ _ accs => (beatLines (accs.filterMap (fun a => match a.loc with
      | .phys pa => some (a.lane, pa)
      | .spad _ _ => none))).length
  | .sload _ _ (.phys _) | .sstore _ (.phys _) _ => 1
  | .pref ls | .lock _ ls => ls.length
  | _ => 0
/-- The requests that a core has in flight. -/
def requestsOf (s : State) (c : Nat) : Nat :=
  s.groups.foldl (fun n e => if e.2.core = c then n + (e.2.reqs.map lineRequests).sum else n) 0

/-- The virtual addresses that an instruction translates at its issue, by lane; those of the scalar stream under lane 0. -/
def addressesOf (s : State) (g : Group) (p : Path) (i : Instr) : List (Nat × Nat) :=
  let t := s.clock
  let lanes := fun (h : LaneHdr) (b : MBase) (x : MIdx) (off : Dword) =>
    (actingLanes g p h t).map (fun l => (l, (effAddr g p t l b x off).toNat))
  let glob := fun (spa : Space) (l : List (Nat × Nat)) => if spa = .glob then l else []
  match i with
  | .sld _ a off | .sldZ64 _ a off | .sst _ a off | .sstZ64 _ a off => [(0, scalarAddr g p a off)]
  | .sarg _ off | .sargZ64 _ off => [(0, (((launchOf s g).map (fun l => l.argAddr)).getD 0 + off.toNat) % 2 ^ 64)]
  | .ld h _ spa _ _ _ b x off _ | .st h _ spa _ _ _ b x off _ | .red h _ _ spa _ _ _ b x off _ =>
    glob spa (lanes h b x (off.signExtend 64))
  | .atom h _ _ spa _ _ _ b x off _ _ => glob spa (lanes h b x (off.signExtend 64))
  | .pref h b x off | .lkln h b x off | .ulln h b x off => lanes h b x (off.signExtend 64)
  | .job _ c | .taskdef _ c _ _ => [(0, (sPair g p c).toNat)]
  | .cpyx _ _ _ t _ => [(0, (sPair g p t).toNat)]
  | .append _ _ a _ => [(0, (sPair g p a).toNat)]
  | _ => []
/-- A global memory instruction finds the request slots that its beats need (R203). -/
def slotsFree (s : State) (g : Group) (p : Path) (i : Instr) : Bool :=
  let n := (beatLines (addressesOf s g p i)).length
  decide (n = 0) || decide (n + requestsOf s g.core ≤ 1024)

/-! ### What may fault (R113, R114) -/

/-- Instructions that suspend their group's fetch until their checks have passed, where those checks add clocks (R113). -/
def mayFault (i : Instr) : Bool :=
  match i with
  | .sld _ _ _ | .sldZ64 _ _ _ | .sst _ _ _ | .sstZ64 _ _ _ | .sarg _ _ | .sargZ64 _ _ | .snap | .trap _ | .svc _ | .bkpt _
  | .lkln _ _ _ _ | .ulln _ _ _ _ => true
  | _ => majorOf i = 0x10 || majorOf i = 0x11 || majorOf i = 0x12 || majorOf i = 0x13 ||
      majorOf i = 0x18 || majorOf i = 0x19 || majorOf i = 0x1A || majorOf i = 0x1B
/-- The leaves of the second-level TLB that the addresses of an instruction need and its core's TLB lacks (R206); a Garnet context
always looks there. -/
def secondHits (s : State) (g : Group) (vas : List Nat) : List TlbEnt :=
  vas.foldl (fun es va =>
    match (if g.garnet.isSome then none else tlbFind (coreOf s g.core).tlb (pasidOf s g) va) with
    | some _ => es
    | none => match tlbFind (stackOf s (stackNo g.core)).tlb (pasidOf s g) va with
      | some e => if e ∈ es then es else es ++ [e]
      | none => es) []
/-- A hit in the second-level TLB fills the core's TLB of 1,024 leaves (R206). -/
def fillCore (s : State) (g : Group) (es : List TlbEnt) : State :=
  if g.garnet.isSome || es.isEmpty then s
  else modCore s g.core (fun k => { k with tlb := es.foldl (fun t e => tlbAdd t 1024 e) k.tlb })

/-! ### The state in which an instruction executes -/

/-- Where an instruction of the lane stream, or of the scalar stream, is in its partition's units once it issues: port and pipe taken,
its banks read (R104, R106). A Garnet context has units of its own (R123). -/
def takeUnits (k : Core) (g : Group) (port : Port) (i : Instr) (t serial : Nat) : Core :=
  if g.garnet.isSome then k
  else
    let k := { k with ports := tabPut k.ports (portKey g.part port) (t + 1) }
    if port = .scalar then k
    else
      let q := pipeOf (majorOf i)
      let ports := tabPut k.ports (pipeKey g.part q) (t + 1)
      { k with
        ports := if coreWide q then tabPut ports (grantKey g.part q) serial else ports,
        bankReads := k.bankReads.filter (fun e => decide (t ≤ e.1)) ++ readsOf i t }

/-- A barrier request among R309's steps of one clock: 0 `BARI`, 1 `ARRIVE`, 2 `EXPECT`, 3 `BWAIT`. -/
def barStep (i : Instr) : Option (SReg × Nat) :=
  match i with
  | .bari _ o _ => some (o, 0)
  | .arrive _ o => some (o, 1)
  | .expect _ o _ => some (o, 2)
  | .bwait _ o => some (o, 3)
  | _ => none
/-- The object that a barrier instruction names, if its offset passes R311. -/
def barObjOf (s : State) (g : Group) (p : Path) (o : SReg) : Option (Nat × Nat) :=
  match barPlace s g p (sRead g p o).toNat with
  | .inl _ => none
  | .inr c => some c
/-- A barrier request may reach its object in this clock (R309): none of a later step has, and one `BARI` comes alone. -/
def barTurn (s : State) (g : Group) (p : Path) (i : Instr) : Bool :=
  match barStep i with
  | none => true
  | some (o, n) =>
    match barObjOf s g p o with
    | none => true
    | some (c, off) =>
      match tabFind (coreOf s c).barSeen off with
      | some (t, m) => decide (t ≠ s.clock) || (decide (m ≤ n) && !(n = 0))
      | none => true
/-- A barrier request has reached its object. -/
def barNote (s : State) (g : Group) (p : Path) (i : Instr) : State :=
  match barStep i with
  | none => s
  | some (o, n) =>
    match barObjOf s g p o with
    | none => s
    | some (c, off) => modCore s c (fun k => { k with barSeen := tabPut k.barSeen off (s.clock, n) })

/-- The Garnet core of a context among those of its stack: four contexts each (R15). -/
def garnetCore (g : Group) : Nat := g.place / 4
/-- Instructions that the Garnet core of a context has issued in this clock. -/
def garnetCount (s : State) (g : Group) : Nat :=
  match tabFind (stackOf s (stackNo g.core)).garnetUse (garnetCore g) with
  | some (t, n) => if t = s.clock then n else 0
  | none => 0
/-- A context issues: its Garnet core, at 2 GHz, has two clocks in one of the module (R11, R15, R123). -/
def garnetIssue (s : State) (g : Group) : State :=
  modStack s (stackNo g.core) (fun k => { k with garnetUse := tabPut k.garnetUse (garnetCore g) (s.clock, garnetCount s g + 1) })
/-- The state in which `i` executes when a path issues it on a port: it is the current instruction, results visible by now are
written, the group becomes the youngest on the port and the path the last of its splits, on every port (R105; log 110), the port, its pipe and its banks are
taken (R104, R106), its lines are the most recently used and are held (R112), its word leaves the buffer slot (R103), its flag is no
longer set (R110), and where it may fault both streams are suspended (R113, R114). A Garnet context takes one of the two clocks that
its core has in a clock of the module (R11, R123). -/
def prepare (s : State) (gid : Nat) (g : Group) (p : Path) (port : Port) (i : Instr) : State :=
  let t := s.clock
  let lane := decide (port ≠ .scalar)
  let vas := (addressesOf s g p i).map (fun e => e.2)
  let hits := secondHits s g vas
  let added := if hits.isEmpty || !mayFault i then 0 else Config.secondLevel s.draws % 41
  let g := sfuDue (landAll g t) t
  let p := { p with
    mask := ((findPath g p.id).map (fun q => q.mask)).getD p.mask,
    age := s.fresh, recalled := false,
    idle := if lane || g.garnet.isSome then p.idle else t + 1,
    heldS := if lane then p.heldS else heldAfter p.heldS p.spc.toNat,
    heldL := if lane then heldAfter p.heldL p.lpc.toNat else p.heldL }
  let g := { setAge (putPath g p) port s.fresh with
    lineUse := if g.garnet.isSome then g.lineUse else (linesNeeded i).foldl (fun u l => tabPut u l s.fresh) g.lineUse,
    named := noteNamed g t s.fresh i,
    quiet := if mayFault i then t + 6 + added else g.quiet,
    seen := match hdrOf i with
      | some h => if h.setf.toNat < 12 then g.seen &&& ~~~ (1#12 <<< h.setf.toNat) else g.seen
      | none => g.seen }
  let s := { setGroup s gid g with cur := gid, curPath := p.id, fresh := s.fresh + 1,
                                   draws := if hits.isEmpty || !mayFault i then s.draws else s.draws + 1 }
  let s := modCore (fillCore s g hits) g.core (fun k => takeUnits k g port i t (s.fresh - 1))
  barNote (if g.garnet.isSome then garnetIssue s g else s) g p i

/-! ### Eligibility (R105, R106) -/

/-- How `step` sees that an instruction issues where it executes: it does more than wait for its unit or its condition. -/
abbrev MovesOn := Instr → State → Bool
/-- Transfers of control of the scalar stream: an eligible one never waits, also where it goes to its own address (R119, R129, R155). -/
def transfers (i : Instr) : Bool :=
  match i with
  | .brNz _ _ | .brZ _ _ | .jmp _ | .jmpi _ | .call _ | .ret | .brd _ _ _ _ _ | .jmpv _ _ | .callv _ _ => true
  | _ => false
/-- A `LOOPH` that took items or found the feed exhausted no longer waits at the loop's head; one that only discarded expired items has
made a pass (R32, R159). -/
def loopGoes (i : Instr) (t u : State) : Bool :=
  match i with
  | .looph _ =>
    (((tabFind u.groups u.cur).bind (fun g => findPath g u.curPath)).map (fun p => decide (p.hold ≠ .looph))).getD true ||
      ((tabFind t.groups t.cur).map (fun g => decide ((coreOf u g.core).items ≠ (coreOf t g.core).items))).getD false
  | _ => false
/-- An instruction that executed in `t` and left `u` has issued: it moved its group on, or is a transfer of control. -/
def issued (i : Instr) (t u : State) : Bool :=
  transfers i || loopGoes i t u || decide (tabFind u.groups t.cur ≠ tabFind t.groups t.cur)

/-- Everything that a lane instruction waits for but the choice among candidates (R106, R123, R203, R309, R394). DESIGN CHOICE: the power
gate holds the lane ports in the first `gate` of every 16 clocks (log 99). -/
def laneMay (mv : MovesOn) (s : State) (gid : Nat) (g : Group) (p : Path) (i : Instr) : Bool :=
  match hdrOf i with
  | none => false
  | some h =>
    mayIssue s gid g p true && laneReady g p i h && contextFree g i && decide (laneClock g p h ≤ s.clock) && slotsFree s g p i &&
      (g.garnet.isSome ||
        (decide (s.gate ≤ s.clock % 16) && pipeFree (coreOf s g.core) g.part (pipeOf (majorOf i)) s.clock && banksOk (coreOf s g.core) i s.clock)) &&
      barTurn s g p i && (readsPoison g i || mv i (prepare s gid g p .laneA i))
/-- Everything that a scalar instruction waits for but the choice among candidates. -/
def scalarMay (mv : MovesOn) (s : State) (gid : Nat) (g : Group) (p : Path) (i : Instr) : Bool :=
  mayIssue s gid g p false && scalarReady s g p i && contextFree g i && decide (scalarClock g p i ≤ s.clock) && slotsFree s g p i &&
    (readsPoison g i || mv i (prepare s gid g p .scalar i))
/-- A path's next lane word is eligible apart from its port. -/
def laneCand (mv : MovesOn) (s : State) (gid : Nat) (g : Group) (p : Path) : Option Instr :=
  match nextInstr s g p true with
  | some (i, w, q) => if laneMay mv { s with ir := w } gid g q i then some i else none
  | none => none
/-- A path's next scalar word is eligible apart from its port. -/
def scalarCand (mv : MovesOn) (s : State) (gid : Nat) (g : Group) (p : Path) : Option Instr :=
  match nextInstr s g p false with
  | some (i, w, q) => if scalarMay mv { s with ir := w } gid g q i then some i else none
  | none => none
/-- A path's next word of the stream of a port. -/
def cand (mv : MovesOn) (s : State) (gid : Nat) (g : Group) (p : Path) (port : Port) : Option Instr :=
  if port = .scalar then scalarCand mv s gid g p else laneCand mv s gid g p

/-- No older candidate of the partition is eligible for the port (R72, R105). DESIGN CHOICE: at equal ages the lower group number goes first
(log 110). -/
def oldest (mv : MovesOn) (s : State) (gid : Nat) (g : Group) (port : Port) : Bool :=
  !(s.groups.any (fun e => decide (e.1 ≠ gid) && decide (e.2.core = g.core) && decide (e.2.part = g.part) && e.2.garnet.isNone &&
    (decide (ageOn e.2 port < ageOn g port) || (decide (ageOn e.2 port = ageOn g port) && decide (e.1 < gid))) &&
    e.2.paths.any (fun q => (cand mv s e.1 e.2 q port).isSome)))
/-- No other eligible split of the group comes first in the round robin (R72, R105). DESIGN CHOICE: the round robin is one for the group,
whichever port a split issues on, and a split that has not issued comes first (log 110). -/
def splitTurn (mv : MovesOn) (s : State) (gid : Nat) (g : Group) (p : Path) (port : Port) : Bool :=
  !(g.paths.any (fun q => decide (q.id ≠ p.id) &&
    (decide (q.age < p.age) || (decide (q.age = p.age) && decide (q.id < p.id))) && (cand mv s gid g q port).isSome))
/-- A core-wide pipe is granted to this partition: none whose last grant is older has an instruction for it (R105). -/
def granted (mv : MovesOn) (s : State) (g : Group) (i : Instr) : Bool :=
  let q := pipeOf (majorOf i)
  let k := coreOf s g.core
  let since := fun (part : Nat) => tabGet 0 k.ports (grantKey part q)
  !coreWide q || !(s.groups.any (fun e => decide (e.2.core = g.core) && decide (e.2.part ≠ g.part) && e.2.garnet.isNone &&
    (decide (since e.2.part < since g.part) || (decide (since e.2.part = since g.part) && decide (e.2.part < g.part))) &&
    (unitFree k (portKey e.2.part .laneA) 0 s.clock || unitFree k (portKey e.2.part .laneB) 0 s.clock) &&
    e.2.paths.any (fun x => match laneCand mv s e.1 e.2 x with
      | some j => decide (pipeOf (majorOf j) = q)
      | none => false)))
/-- The contexts of one Garnet core: it has a clock left, and none that has issued longer ago may issue in it (R15, R123). -/
def contextTurn (mv : MovesOn) (s : State) (gid : Nat) (g : Group) (p : Path) : Bool :=
  decide (garnetCount s g < 2) &&
    !(s.groups.any (fun e => decide (e.1 ≠ gid) && e.2.garnet.isSome && decide (stackNo e.2.core = stackNo g.core) &&
      decide (garnetCore e.2 = garnetCore g) &&
      e.2.paths.any (fun q => (decide (q.age < p.age) || (decide (q.age = p.age) && decide (e.1 < gid))) &&
        ((scalarCand mv s e.1 e.2 q).isSome || (laneCand mv s e.1 e.2 q).isSome))))
/-- The lane port of a partition that the next lane word takes in a clock: the first, else the second (R105). -/
def lanePort (k : Core) (part t : Nat) : Option Port :=
  if unitFree k (portKey part .laneA) 0 t then some .laneA
  else if unitFree k (portKey part .laneB) 0 t then some .laneB
  else none
/-- A lane word is the choice of a lane port of its partition. -/
def laneChoice (mv : MovesOn) (s : State) (gid : Nat) (g : Group) (p : Path) (i : Instr) : Option Port :=
  if granted mv s g i then
    (lanePort (coreOf s g.core) g.part s.clock).bind (fun port =>
      if oldest mv s gid g port && splitTurn mv s gid g p port then some port else none)
  else none
/-- The banks' reads of a clock are counted with the lane ports in order of age (R106): no lane port of another partition has chosen
a word of an older group that reads a bank which this word reads. -/
def bankTurn (mv : MovesOn) (s : State) (gid : Nat) (g : Group) (port : Port) (i : Instr) : Bool :=
  let mine := readsOf i s.clock
  mine.isEmpty || !(s.groups.any (fun e => decide (e.2.core = g.core) && decide (e.2.part ≠ g.part) && e.2.garnet.isNone &&
    e.2.paths.any (fun q => match laneCand mv s e.1 e.2 q with
      | some j => (readsOf j s.clock).any (fun x => decide (x ∈ mine)) && (match laneChoice mv s e.1 e.2 q j with
        | some o => decide (ageOn e.2 o < ageOn g port) || (decide (ageOn e.2 o = ageOn g port) && decide (e.1 < gid))
        | none => false)
      | none => false)))
/-- Takes of items on one core in one clock go by partition, then by age, then by lane (R159). -/
def takeTurn (mv : MovesOn) (s : State) (gid : Nat) (g : Group) (i : Instr) : Bool :=
  match i with
  | .looph _ => !(s.groups.any (fun e => decide (e.1 ≠ gid) && decide (e.2.core = g.core) && e.2.garnet.isNone &&
      (decide (e.2.part < g.part) || (decide (e.2.part = g.part) &&
        (decide (e.2.age < g.age) || (decide (e.2.age = g.age) && decide (e.1 < gid))))) &&
      unitFree (coreOf s g.core) (portKey e.2.part .scalar) 0 s.clock &&
      e.2.paths.any (fun q => match scalarCand mv s e.1 e.2 q with
        | some (.looph _) => true
        | _ => false)))
  | _ => true

/-- The port on which a path's instruction issues in this clock, if it does (R105): the first lane port chooses before the second. -/
def portFor (mv : MovesOn) (s : State) (gid : Nat) (g : Group) (p : Path) (lane : Bool) (i : Instr) : Option Port :=
  if g.garnet.isSome then (if contextTurn mv s gid g p then some (if lane then .laneA else .scalar) else none)
  else if lane then (laneChoice mv s gid g p i).bind (fun port => if bankTurn mv s gid g port i then some port else none)
  else if unitFree (coreOf s g.core) (portKey g.part .scalar) 0 s.clock && oldest mv s gid g .scalar && splitTurn mv s gid g p .scalar &&
      takeTurn mv s gid g i then some .scalar
  else none

/-- The port on which a path issues an instruction in this clock: it is eligible, and it is its turn (R105, R106). -/
def issuePort (mv : MovesOn) (s : State) (gid : Nat) (g : Group) (p : Path) (lane : Bool) (i : Instr) : Option Port :=
  if (if lane then laneMay mv s gid g p i else scalarMay mv s gid g p i) then portFor mv s gid g p lane i else none

/-! ### Time -/

/-- `n` clocks pass: the barrier objects that requests of those clocks reached take step 2 of R309, special functions that complete set
their flags, and the flags set at the end of the last of those clocks are the ones that wait masks see in the next (R106, R188). -/
def tick (s : State) (n : Nat) : State :=
  if n = 0 then s
  else
    let s := closeBars s (s.clock + n)
    { s with
    clock := s.clock + n,
    groups := s.groups.map (fun e =>
      let g := if e.2.paths.isEmpty then e.2 else sfuDue e.2 (s.clock + n)
      (e.1, { g with seen := g.flags })) }

/-- A buffer slot takes the word behind those that it holds: at most four scalar words and two lane words, of a section that
translates (R103). -/
def fetchAhead (s : State) (gid pid : Nat) (lane : Bool) : State :=
  match (tabFind s.groups gid).bind (fun g => (findPath g pid).map (fun p => (g, p))) with
  | none => s
  | some (g, p) =>
    let held := if lane then p.heldL else p.heldS
    let pc := if lane then p.lpc else p.spc
    let held := if (heldWord held pc.toNat).isSome then held else []
    let next := pc + BitVec.ofNat 32 ((if lane then 12 else 4) * held.length)
    if !mayIssue s gid g p lane || (lane && !p.running) || decide ((if lane then 2 else 4) ≤ held.length) then s
    else match (if lane then fetchLane s g { p with lpc := next, heldL := [] } else fetchScalar s g { p with spc := next, heldS := [] }) with
      | .word w =>
        let held := held ++ [(next.toNat, w)]
        setGroup s gid (putPath g (if lane then { p with heldL := held } else { p with heldS := held }))
      | _ => s

end Sys2Proof.Machine
end

