-- ==== Sys2Proof/Machine/Turns.lean ====
section
/-! DEFINITION. Who moves next: what a turn of the schedule does apart from the meanings of instructions, which turns the
model tries by itself, and how an instruction is placed for the next step (R101 to R106, R113, R115, R117, R353). -/
namespace Sys2Proof.Machine

/-! ### Fetching and issuing (R94, R101 to R106, R113) -/

/-- A turn that issues: the state it leaves where nothing issues, or an instruction and the state in which it executes. -/
inductive Ready where
  | stay (s : State)
  | run (i : Instr) (s : State)

/-- A poisoned scalar register is read (R371): `uncorrectable` of class 2 from the device. -/
def poisonTrap (s : State) (p : Path) : TrapInfo := { mkTrap s p 3 0x4F 0 0 with cls := 2 }

/-- A fetched word that decodes: recalls come first (R123), then eligibility and the choice among candidates (R102, R105, R106),
poison (R371), and it issues. `w` is the state that holds the fetched word; a path whose turn it is not leaves `s` as it stands. A
poisoned scalar register that a Garnet context reads kills its lane (R130). -/
def readyWord (mv : MovesOn) (s w : State) (gid : Nat) (g : Group) (p : Path) (lane : Bool) (i : Instr) : Ready :=
  if g.garnet.isSome && recallsFirst i then .stay (if recallFree s g then recallCtx s gid else s)
  else match issuePort mv w gid g p lane i with
    | none => .stay s
    | some port =>
      if readsPoison g i then
        .stay (if g.garnet.isSome then killContext w gid else takeTrap w gid g p (poisonTrap w p))
      else .run i (prepare w gid g p port i)

/-- The path `p` of group `gid` issues the next word of a stream: a fetch may miss or trap (R94, R113); one that awaits the walk of
its page stalls its stream alone (R103, R206). -/
def readyIssue (mv : MovesOn) (s : State) (gid pid : Nat) (lane : Bool) : Ready :=
  match tabFind s.groups gid with
  | none => .stay s
  | some g =>
    match findPath g pid with
    | none => .stay s
    | some p0 =>
      let p := if lane then startRun p0 else p0
      if !mayIssue s gid g p lane || (lane && !p.running) then .stay s
      else match (if lane then fetchLane s g p else fetchScalar s g p) with
        | .bad t => .stay (takeTrap s gid g p t)
        | .miss va => .stay (setMiss (queueWalk s gid g va) gid pid lane true)
        | .word w =>
          let t := { s with ir := w }
          match decodeFor (kernOf s g) lane w with
          | none => .stay (takeTrap t gid g p (illegalTrap t p lane))
          | some i => readyWord mv s t gid g p lane i

/-- The drain unit of a core runs the next word of the segment that it is in (R263). -/
def readyDrain (s : State) (c : Nat) : Ready :=
  match drainEnt (coreOf s c), (coreOf s c).drain with
  | some e, some d =>
    if d.inSeg then
      match e.prog[d.pc]? with
      | some w =>
        match decodeDrain w with
        | some i => .run i { s with ir := w.setWidth 96, drainCore := c }
        | none => .stay s
      | none => .stay s
    else .stay s
  | _, _ => .stay s

/-! ### The other turns -/

/-- Write a pending fixed-latency vector or predicate result early; older results for the same place go with it (R109). A scalar
result is written in its clock (R149, R179). -/
def landEarly (g : Group) (k : Nat) : Group :=
  match g.pend[k]? with
  | some ⟨_, .scal _ _ _, _⟩ => g
  | some e =>
    let before := (g.pend.take k).filter (fun x => !sameDst x.dst e.dst)
    landOne { g with pend := before ++ g.pend.drop (k + 1) } e
  | none => g
/-- One more access of a request is performed (R297), or the contribution of an `XRED` leaves (R320). -/
def performTurn (s : State) (gid id k : Nat) : State :=
  match (tabFind s.groups gid).bind (fun g => findReq g id) with
  | some r =>
    match r.kind with
    | .xred c n =>
      match (tabFind s.collectives c).bind (fun x => x.rounds.find? (fun y => y.k = n)) with
      | some y => leaveXred s c y
      | none => s
    | .mem _ _ _ _ _ _ _ _ => if r.stalled then s else performNth s gid id k
    | _ => s
  | none => s
/-- The contribution of another member reaches this module (R320), while a port reaches its peer (R392). -/
def contribute (s : State) (c member k op : Nat) (v : Tab Word) : State :=
  modColl s c (fun x =>
    if member = x.me ∨ x.members ≤ member ∨ k < x.completed ∨ x.port = none then x
    else match x.rounds.find? (fun r => r.k = k) with
      | some r =>
        if r.parts.any (fun p => p.1 = member) then x
        else { x with rounds := x.rounds.map (fun y => if y.k = k then { y with parts := y.parts ++ [(member, op, v)] } else y) }
      | none => { x with rounds := x.rounds ++
          [{ k := k, op := op, left := none, grp := 0, req := 0, parts := [(member, op, v)] }] })
/-- The next part of a submission: one codeword or the rest of one 4-byte unit of a byte copy's or fill's destination, or one tile of a
tensor copy (R238, R241, R297, R373). -/
def engineTurn (s : State) (st id : Nat) : State :=
  match findSub s st id with
  | some x =>
    if subRuns s x then
      (match x.work with
       | .bytes _ dst n => moveJob s st x (pieceLen dst n)
       | .fill dst n _ => moveJob s st x (pieceLen dst n)
       | _ => moveTile s st x)
    else s
  | none => s
/-- The receiver takes the oldest message of a channel; room in the channel of core 4 to Jasper lets a seal that waits for it go on
(R53). -/
def mailTurn (s : State) (src dst : Nat) : State :=
  let s := takeMail s src dst
  if src = 4 ∧ dst = 8 then s.segments.foldl (fun s e => sealDue s e.1) s else s
/-- Whether the filter grants an untrusted agent an address: firmware memory or a window of its function, never memory of a process or a
page table, which lie outside the device-private range, nor a context image (R54). -/
def grants (s : State) (agent pa : Nat) : Bool :=
  Config.granted agent pa && (tierOf pa = .priv || tierOf pa = .none) && !imageHolds s (privAlias pa)
/-- Firmware of an untrusted agent, Beryl core 0, 1 or 3 to 6 or Jasper, attempts a direct access: one that the filter, programmed at
boot step 4, does not grant is not performed and is reported (R54, R393). -/
def filterAccess (s : State) (agent pa : Nat) : State :=
  if agent ∈ [0, 1, 3, 4, 5, 6, 8] ∧ 4 ≤ s.boot ∧ grants s agent pa = false then
    { s with filtered := s.filtered ++ [(agent, pa)] }
  else s
/-- A turn that runs no instruction and no event of the table. -/
def microTurn (s : State) (t : Turn) : State :=
  match t with
  | .perform g r k => performTurn s g r k
  | .land g k => modGroup s g (fun x => landEarly x k)
  | .evict c line => if colVictim (coreOf s c) line = some line then evictLine s c line else s
  | .dropL1 c line => modCore s c (fun k => { k with l1 := k.l1.filter (fun e => e.1 / 32 ≠ line) })
  | .evictReg g line =>
    match tabFind s.groups g with
    | some x => if lineVictim s x.core (line % 12) = some (g, line) then dropLine s g line else s
    | none => s
  | .missFetch g p lane => setMiss s g p lane true
  | .engine st sub => engineTurn s st sub
  | .boot => bootStep s
  | .hostMsg m => if s.hostIn.length < 16 then { s with hostIn := s.hostIn ++ [msgFrom 9 m] } else s
  | .hostOther => otherRequest s
  | .hostTake => settleReplies { s with hostOut := s.hostOut.drop 1 }
  | .contribute c m k op v => contribute s c m k op v
  | .filtered b pa => filterAccess s b pa
  | .fetchAhead g p lane => fetchAhead s g p lane
  | .walkOrder st k => walkNext s st k
  | .tileFetch c ent kb => tileFetch s c ent kb
  | .mailSend src dst m => sendMail s src dst m
  | .mailTake src dst => mailTurn s src dst
  | .hostFill via addr => hostFill s via addr
  | .snoop line => snoopLine s line
  | .corrected pa byte => correctByte s pa byte
  | .copyError r i f => copyError s r i f
  | .imageSync g => syncImage s g
  | .iommuContext dev pasid root => iommuContext s dev pasid root
  | .rowRemap st row w => rowRemap s st row w
  | .rowRead st row => rowRead s st row
  | .rowError st row copy w => rowError s st row copy w
  | .issue _ _ _ | .event _ | .drainWord _ | .elapse _ => s

/-- Some path has an instruction that issues in this clock. -/
def mustIssue (mv : MovesOn) (s : State) : Bool :=
  s.groups.any (fun e => e.2.paths.any (fun p => [true, false].any (fun lane => match readyIssue mv s e.1 p.id lane with
    | .run _ _ => true
    | .stay _ => false)))
/-- Up to `n` clocks pass: in each, every port issues an eligible instruction before the next (R72, R105). -/
def elapse (mv : MovesOn) (s : State) : Nat → State
  | 0 => s
  | n + 1 => if mustIssue mv s then s else elapse mv (tick s 1) n

/-! ### What the model tries by itself -/

/-- Requests of the host driver. -/
def hostTurns : List Turn :=
  [.event .registerQueue, .event .freeQueue, .event .resetQueue, .event .recordReply, .event .createSegment,
   .event .attachSegment, .event .freeSegment, .event .hostAppend, .event .hostSeal, .event .createCollective,
   .event .registerBlockTable, .event .unregisterBlockTable, .event .setStorageTimeout, .event .setPromotionPool,
   .event .killLaunch, .event .teardownPasid, .event .attestationReport, .event .openLifetimeSegment,
   .event .registerProcess, .event .listKeptSegments, .hostOther]
/-- Whether a write to a line that a queue watches would change what core 0 does: the tail word differs from the tail last read,
or the packet that waits at the head no longer waits (R41, R42). -/
def watchDue (s : State) (q : Queue) : Bool :=
  (match fetcherNat s q.pasid .read 4 q.tailAddr with
   | some t => decide (BitVec.ofNat 32 t ≠ q.tail)
   | none => false) ||
  (q.state = .waiting && q.watch.isSome &&
    (match parseHead s q with
     | .wait _ => false
     | .pkt bs => !isCond 1 bs || testHolds s q bs ≠ some false
     | _ => true))
/-- The lines of a queue that a line watch would fire on. -/
def watchLines (q : Queue) : List Nat := (q.tailPa / 128) :: q.watch.toList
/-- What core 0 may do with a queue. -/
def queueTurns (s : State) (qn : Nat) (q : Queue) : List Turn :=
  let es : List Instr := [.launch qn, .copy qn, .task qn, .barrier qn, .invalidateTranslations qn, .prefault qn, .demote qn, .prefetchToHbm qn,
    .conditionalSkip qn, .conditionalJump qn, .conditionalRepeat qn, .repeatTimeout qn]
  ((if watchDue s q then (watchLines q).map (fun l => Instr.lineWatchFire l) else []) ++ es ++
    q.running.map (fun p => Instr.packetComplete qn p.idx)).map Turn.event
/-- What core 1 and core 2 may do with launches and clusters. -/
def placeTurns (s : State) : List Turn :=
  (s.launches.flatMap (fun e => [Instr.launchComplete e.1, Instr.itemFeed e.1]) ++
    [Instr.placementRequest, Instr.placementSearch, Instr.preemptDecision] ++
    s.clusters.flatMap (fun e => match e.2.state with
      | .stopping => [Instr.stopNotice e.1, Instr.saveStart e.1]
      | .saving => [Instr.saveComplete e.1]
      | .restoring => [Instr.resumeRestore e.1]
      | _ => [])).map Turn.event
/-- What a stack's shared units may do. -/
def stackTurns (st : Nat) (k : Stack) : List Turn :=
  ([Instr.trapRecordWrite st, Instr.trapQueueDrain st, Instr.translationWalk st] ++
    k.subs.flatMap (fun x => [Instr.submissionStart st x.id, Instr.jobComplete st x.id])).map Turn.event ++
    (k.remap.filter (fun e => decide (rowVote e.2 ≠ some e.2.a) || e.2.a ≠ e.2.b || e.2.a ≠ e.2.c)).map (fun e => Turn.rowRead st e.1)
/-- The lifetime records that are due (R379). -/
def lifeTurns (s : State) : List Turn :=
  if s.clock < 2 ^ 36 then []
  else (List.range Config.stackCount).map (fun st => Turn.event (.lifetimeRecord st))
/-- What a core's matrix and drain units may do. -/
def coreTurns (c : Nat) (k : Core) : List Turn :=
  if k.seq.isEmpty then []
  else [.event (.matrixStep c), .event (.matrixComplete c), .event (.drainSegment c), .drainWord c, .event (.drainComplete c)]
/-- What the units that serve a group may do: requests that return, misses, recalls. -/
def groupTurns (s : State) (gid : Nat) (g : Group) : List Turn :=
  (g.reqs.flatMap (fun r =>
    (match r.kind with
     | .sfu d _ => if d ≤ s.clock then [Turn.event (.memoryRequestReturn gid r.id)] else []
     | _ => [Turn.event (.memoryRequestReturn gid r.id)]) ++ [Turn.event (.storageTimeout gid r.id)])) ++
    g.paths.flatMap (fun p =>
      [Turn.event (.ejectionDecision gid p.id)] ++
        (if p.missS then [.event (.instructionFetchMiss gid p.id false)] else []) ++
        (if p.missL then [.event (.instructionFetchMiss gid p.id true)] else []) ++
        [true, false].flatMap (fun lane => match nextInstr s g p lane with
         | some (i, _, _) => (lineMissing g i).toList.map (fun l => Turn.event (.registerLineFetch gid l))
         | none => [])) ++
    (if g.garnet.isSome then [.event (.laneRecall gid)] else []) ++
    (List.range 4).map (fun t => Turn.event (.rejoinTimeout gid t))
/-- The words that may issue in a clock: lane words before scalar words; eligibility says whose turn it is (R105). -/
def issueTurns (s : State) : List Turn :=
  let ps := s.groups.flatMap (fun e => e.2.paths.map (fun p => (e.1, p.id)))
  ps.map (fun e => Turn.issue e.1 e.2 true) ++ ps.map (fun e => Turn.issue e.1 e.2 false) ++
    ps.flatMap (fun e => [Turn.fetchAhead e.1 e.2 true, .fetchAhead e.1 e.2 false])
/-- Lines that the caches of the host die hold and that have been written since: their snoops complete (R307). -/
def snoopTurns (s : State) : List Turn :=
  (s.hostCache.filter (fun e => decide (e.2 ≠ homeNat s 128 (128 * e.1)))).map (fun e => Turn.snoop e.1)
/-- The turns that the model tries in order where its schedule names none: the first that changes the state is taken. -/
def ownTurns (s : State) : List Turn :=
  [.boot] ++ hostTurns ++ s.queues.flatMap (fun e => queueTurns s e.1 e.2) ++ placeTurns s ++
    s.stks.flatMap (fun e => stackTurns e.1 e.2) ++ s.cores.flatMap (fun e => coreTurns e.1 e.2) ++
    s.groups.flatMap (fun e => groupTurns s e.1 e.2) ++
    (s.segments.map (fun e => Turn.event (.recordDurable e.1))) ++ lifeTurns s ++
    (s.groups.filter (fun e => !e.2.resident)).map (fun e => Turn.imageSync e.1) ++
    (if (tabGet [] s.mail (16 * 4 + 8)).isEmpty then [] else [Turn.mailTake 4 8]) ++
    (s.collectives.flatMap (fun e => [Turn.event (.xredRoundComplete e.1), .event (.collectiveTimeout e.1)])) ++
    snoopTurns s ++ issueTurns s

/-- A row of the table that no stream of words issues: an operation or event. -/
def isEvent (i : Instr) : Bool := (encodeScalar i).isNone && (encodeLane i).isNone && (encodeDrain i).isNone

/-! ### Placing an instruction for the next step -/

/-- The kernel of a placed instruction: sections of 4,096 bytes, every register, one group, no checks. -/
def placedKernel : Kernel :=
  { kernZero with
    regs := 384, groups := 1, width := 1, height := 1, teamsPerCore := 1, scalarBase := 0x10000, scalarSize := 4096,
    laneBase := 0x10000, laneSize := 4092 }
def placedLaunch : Launch :=
  { queue := 0, pkt := 0, pasid := 1, cls := 1, kern := placedKernel, grid := 1, nextCluster := 1, argAddr := 0, itemAddr := 0,
    itemCount := 0, itemNext := 0, feedDepth := 64, kept := [], feedEnded := false, itemFault := false, recAddr := 0,
    snapAddr := 0, delivered := 0, discarded := 0, undelivered := 0, tags := [], deadLanes := 0, cause := 0, unrecorded := 0,
    killed := false, silent := false, finished := false }
/-- The leaf through which a placed instruction is fetched. -/
def placedLeaf : TlbEnt :=
  { pasid := 1, va := 0x10000, lg := 12, pa := 0x10000, r := false, w := false, x := true, u := true, dirty := false }
/-- A group on core 0 whose next word stands at offset 0 of its sections, its register lines resident. -/
def placedGroup (team : Nat) (lane : Bool) : Group :=
  let g := groupNew team 0 0 0 0 0 0 4
  { g with lines := BitVec.allOnes 1152, paths := g.paths.map (fun p => { p with running := lane }) }
/-- A drain of the placed team in its first segment, about to run a word. -/
def placedDrain (id team : Nat) (w : Dword) : GangEnt :=
  { id := id, team := team, gang := 0, word := 0, regs := [], members := [], zero := false, accum := false, fmt := .e4m3,
    td := { drain := true, slot := 0, tile := 0 }, a := none, b := none, sa := 0, sb := 0, fired := true, begun := true, kb := 0,
    rowsDone := 0, stepsDone := true, fp := 0, sigma := 0x3F800000, prog := [w], m := 128, n := 128, pad := [], stop := none,
    saved := none }
/-- A module that has booted, with one process, launch, cluster, team and group placed on core 0, and `n` bytes of a word where
its streams begin. The next free number names each record. -/
def placeGroup (s : State) (n w : Nat) (lane : Bool) : State :=
  let k := s.fresh
  let cl : Cluster :=
    { launch := k, index := 0, ox := 0, oy := 0, state := .resident, teams := [k], placed := k, since := s.clock }
  let s := { s with
    boot := 6, powered := true, procs := tabPut s.procs 1 { root := 0, asid := 0, closing := false },
    launches := tabPut s.launches k placedLaunch, clusters := tabPut s.clusters k cl,
    teams := tabPut s.teams k (teamNew k 0 0 0 0 [k]), groups := tabPut s.groups k (placedGroup k lane), fresh := k + 1 }
  homeWrite n (modCore s 0 (fun c => { c with pasid := 1, lastPasid := 1, tlb := placedLeaf :: c.tlb })) 0x10000 w
/-- An instruction of `n` bytes becomes the next that a path issues. -/
def placeWord (s : State) (n w : Nat) (lane : Bool) : State :=
  { placeGroup s n w lane with agenda := .issue s.fresh 0 lane :: s.agenda }
/-- A drain word becomes the next that the drain unit of core 0 runs. -/
def placeDrain (s : State) (w : Nat) : State :=
  let e := placedDrain (s.fresh + 1) s.fresh (BitVec.ofNat 64 w)
  let d : DrainRun :=
    { ent := s.fresh + 1, row := 0, seg := 0, inSeg := true, pc := 0, e := [], zeroAfter := false, finished := false, fp := 0,
      suspended := none }
  let t := placeGroup s 0 0 false
  { modCore { t with fresh := s.fresh + 2 } 0 (fun c => { c with seq := e :: c.seq, drain := some d }) with
    agenda := .drainWord 0 :: s.agenda }

end Sys2Proof.Machine
end

