-- ==== Sys2Proof/Machine/Step.lean ====
section
/-! DEFINITION. One step of the module: the turn that its schedule names, or the first that the model tries by itself and
that changes the state. -/
namespace Sys2Proof.Machine

/-- An instruction that issues is executed in the state prepared for it. -/
def runReady : Ready → Out
  | .stay s => .next s
  | .run i s => exec i s

/-- Whether an instruction issues in the state prepared for it: it moves its group on, and does not merely wait for its unit or for
its condition (R101, R106, R163). -/
def wordIssues : MovesOn := fun i t =>
  match exec i t with
  | .next u => issued i t u
  | _ => true

/-- One turn. -/
def runTurn (s : State) (t : Turn) : Out :=
  match t with
  | .issue g p lane => runReady (readyIssue wordIssues s g p lane)
  | .event i => if isEvent i then exec i s else .next s
  | .drainWord c => runReady (readyDrain s c)
  | .elapse n => .next (elapse wordIssues s n)
  | t => .next (microTurn s t)

/-- A turn that issues moves where an instruction issues, or where a trap or a recall changes the state. -/
def issueMoves (s : State) : Ready → Option Out
  | .stay t => if t = s then none else some (.next t)
  | .run i t => some (exec i t)
/-- A turn of a drain unit moves where its word does more than wait: the state in which it executes is not the state that it leaves. -/
def drainMoves (s : State) : Ready → Option Out
  | .stay t => if t = s then none else some (.next t)
  | .run i t =>
    match exec i t with
    | .next u => if u = t then none else some (.next u)
    | r => some r

/-- The outcome of a turn where it changes the state or stops. -/
def moves (s : State) (t : Turn) : Option Out :=
  match t with
  | .issue g p lane => issueMoves s (readyIssue wordIssues s g p lane)
  | .drainWord c => drainMoves s (readyDrain s c)
  | t =>
    match runTurn s t with
    | .next u => if u = s then none else some (.next u)
    | r => some r

/-- One step. Without power only a power-on reset runs (R288, R396). -/
def step (s : State) : Out :=
  if s.powered then
    match s.agenda with
    | t :: rest => runTurn { s with agenda := rest } t
    | [] => ((ownTurns s).findSome? (moves s)).getD (.next (tick s 1))
  else
    match s.agenda with
    | .event .coldReset :: rest => exec .coldReset { s with agenda := rest }
    | _ => .fault .noPower

/-- The state in which the next step runs the instruction whose bits are `w` (R80, R93, R353): a scalar word, a drain word or a
lane word by its length, stored lowest byte first. -/
def State.withFetchWord (s : State) (nbits w : Nat) : State :=
  if nbits ≤ 32 then placeWord s 4 w false
  else if nbits ≤ 64 then placeDrain s w
  else placeWord s 12 w true

end Sys2Proof.Machine
end

