-- ==== Sys2Proof/Safety.lean ====
section
/-! DEFINITION. What the claims call a well-formed state: the canonical forms that every step keeps. -/
namespace Sys2Proof.Machine

/-- Memory has its canonical form: addresses strictly rise and no cell holds what an unwritten byte reads as. -/
abbrev State.MemOk (s : State) : Prop := memWf s.mem = true

/-- The register tables of a group have their canonical forms: scalar registers, vector words, predicates. -/
abbrev Group.RegsOk (g : Group) : Prop :=
  tabWf 0 g.sreg = true ∧ tabWf 0 g.vreg = true ∧ tabWf 0 g.pred = true

/-- The register tables of every group have their canonical forms. -/
abbrev State.RegsOk (s : State) : Prop := ∀ e ∈ s.groups, e.2.RegsOk

/-- The tables of the module's records have strictly rising keys, so that a number names one record. -/
abbrev State.KeysOk (s : State) : Prop :=
  tabSorted s.groups = true ∧ tabSorted s.cores = true ∧ tabSorted s.teams = true ∧ tabSorted s.queues = true

/-- A step ends in a next state: it neither faults nor is refused. -/
abbrev Runs (r : Out) : Prop := ∃ t, r = .next t

/-! ### What an instruction leaves alone -/

/-- Group `g` and its path `p` are those whose instruction is being executed. -/
abbrev State.At (s : State) (g : Group) (p : Path) : Prop :=
  tabFind s.groups s.cur = some g ∧ findPath g s.curPath = some p

/-- Every byte behind a home slice and every byte of a scratchpad reads as before. -/
abbrev SameBytes (s t : State) : Prop :=
  (∀ a, homeByte t a = homeByte s a) ∧ ∀ c o, spadByte t c o = spadByte s c o

/-- Nothing but the current group has changed: no other group, core, stack, queue, launch or byte of memory. -/
abbrev OnlyGroup (s t : State) : Prop :=
  { t with groups := s.groups } = s ∧ (∀ k, k ≠ s.cur → tabFind t.groups k = tabFind s.groups k) ∧ SameBytes s t

/-- Of the current group nothing but its scalar registers (with their poison bits) and its paths has changed: no vector register,
predicate, flag, counter, accumulator request, special register or trap register. -/
abbrev OnlyScalars (g g' : Group) : Prop :=
  { g' with sreg := g.sreg, spoison := g.spoison, paths := g.paths } = g

/-- Every path but `p` is as before. -/
abbrev OtherPaths (p : Path) (g g' : Group) : Prop := ∀ q, q ≠ p.id → findPath g' q = findPath g q

/-- Of the path nothing but its program counter, its signature and its mask has changed. -/
abbrev OnlyPc (p p' : Path) : Prop := { p' with spc := p.spc, sig := p.sig, mask := p.mask } = p

/-- What is common to the scalar instructions that compute: all else stays. -/
abbrev ScalarFrame (s t : State) (g g' : Group) (p p' : Path) : Prop :=
  OnlyGroup s t ∧ OnlyScalars g g' ∧ OtherPaths p g g' ∧ OnlyPc p p'

/-- The next scalar word. -/
abbrev NextWord (p p' : Path) : Prop := p'.spc = p.spc + 4

/-- What an instruction that changes only its group answers: the group becomes `G` (but for its list of paths), its path becomes `P`
(but for the signature, which has a claim of its own), every other path and everything outside the group stays. -/
abbrev GoesTo (s : State) (g : Group) (p : Path) (r : Out) (G : Group) (P : Path) : Prop :=
  ∃ t g' p', r = .next t ∧ t.At g' p' ∧ { g' with paths := G.paths } = G ∧ { p' with sig := P.sig } = P ∧
    OtherPaths p g g' ∧ OnlyGroup s t

/-- The record that a trap leaves in a stack's queue of records to be written. -/
abbrev QueuesRecord (s t : State) (st : Nat) (r : TrapRec) : Prop := (stackOf t st).waitQ = (stackOf s st).waitQ ++ [r]

end Sys2Proof.Machine
end

