-- ==== Sys2Proof/Safety/Host.lean ====
section
/-! DEFINITION. What the claims say of a request of the host driver that core 2 serves, and of its reply (R388, R389). -/
namespace Sys2Proof.Machine

/-- The oldest request is `m`, of code `code`, with nothing but zeros outside the given fields; the host interface is released, no
answer is owed and the channel of replies has room. -/
abbrev Asks (s : State) (m : BitVec 512) (rest : List (BitVec 512)) (code : Nat) (fields : List (Nat × Nat)) : Prop :=
  s.boot = 6 ∧ s.hostIn = m :: rest ∧ msgCode m = code ∧ msgZero m fields = true ∧ s.hostWait = [] ∧ s.hostOut.length < 16

/-- The request is one of a registered process that is not being torn down. -/
abbrev OfProcess (s : State) (m : BitVec 512) : Prop := closingP s (msgPasid m) = false ∧ (tabFind s.procs (msgPasid m)).isSome

/-- The request has been taken and answered: core 2 is the sender, code, tag and PASID are the request's, the status is `st`, the
parameters are `fields` (offset, bytes, value), and every other byte is zero (R388, R389). -/
abbrev Answered (s t : State) (m : BitVec 512) (rest : List (BitVec 512)) (st : Nat) (fields : List (Nat × Nat × Nat)) : Prop :=
  ∃ r, t.hostIn = rest ∧ t.hostOut = s.hostOut ++ [r] ∧ t.hostWait = [] ∧ msgNat r 0 1 = 2 ∧ msgCode r = msgCode m ∧
    msgNat r 2 2 = st ∧ msgNat r 4 4 = msgNat m 4 4 ∧ msgPasid r = msgPasid m ∧
    (∀ f ∈ fields, msgNat r f.1 f.2.1 = f.2.2 % 256 ^ f.2.1) ∧
    ∀ i, 12 ≤ i → i < 64 → (∀ f ∈ fields, i < f.1 ∨ f.1 + f.2.1 ≤ i) → msgNat r i 1 = 0

/-- The tables from root table `root` map the page of an address to frame `ppn`, by a leaf of 4 KiB with flags `fl`, every table and the page
in HBM and no byte of a table among those named (R35, R387). -/
def MapsOutside (s : State) (root va ppn fl : Nat) (named : Nat → Prop) : Prop :=
  ∃ tb : Nat → Nat, tb 4 = root ∧ (∀ k ≤ 4, tb k * 4096 + 4096 ≤ Config.hbmBytes ∧ ∀ o < 4096, ¬ named (tb k * 4096 + o)) ∧
    (∀ k < 4, homeNat s 8 (tb (k + 1) * 4096 + va / 2 ^ (21 + 9 * k) % 512 * 8) = tb k * 2 ^ 10 + 1) ∧
    homeNat s 8 (tb 0 * 4096 + va / 4096 % 512 * 8) = ppn * 2 ^ 10 + fl ∧ fl < 256 ∧ fl % 2 = 1 ∧ fl / 2 % 8 ∉ [0, 2, 6] ∧
    ppn * 4096 + 4096 ≤ Config.hbmBytes ∧ canonical va = true
/-- The same, whatever bytes the tables hold their entries in. -/
abbrev HartMaps (s : State) (root va ppn fl : Nat) : Prop := MapsOutside s root va ppn fl (fun _ => False)

end Sys2Proof.Machine
end

