-- ==== Sys2Proof/Safety/Lane.lean ====
section
/-! DEFINITION. What the claims about the lane stream say that an instruction of fixed latency leaves (R81, R108, R109, R167). -/
namespace Sys2Proof.Machine

/-- No word of a vector register of the group is poisoned. -/
abbrev Group.Clean (g : Group) : Prop := g.vpoison = [] ∧ ∀ e ∈ g.pend, e.poison = false

/-- The instruction acts in lane `l` (R81, R167): the lane is in the path's mask and in the set that it owns, not dead, and the guard
holds in its beat's clock. -/
abbrev ActsIn (s : State) (g : Group) (p : Path) (h : LaneHdr) (l : Nat) : Prop :=
  l < 96 ∧ p.mask.getLsbD l = true ∧ p.owned.getLsbD l = true ∧ g.dead.getLsbD l = false ∧ pRead g (s.clock + l / 32) h.pred.toNat l ≠ h.neg

/-- The lane stream has gone past a word: the path is as before, but for its signature, the next lane word, the clock of this one, the
end of a run that a word with select 0 and negate 1 ends (R157), and the hold of an `LJMP` (R158). -/
abbrev PastLane (s : State) (h : LaneHdr) (p p' : Path) : Prop :=
  { p' with sig := p.sig } =
    { p with lpc := p.lpc + 12, running := decide ¬(h.pred = 0 ∧ h.neg = true), tPrev := s.clock + 1,
             hold := if p.hold = .ljmp then .free else p.hold }

/-- Of the group nothing but results in flight, sticky flags, the registers that a Garnet context has written, and its paths has
changed: no register's stored value, counter, flag, request or special register. -/
abbrev OnlyResults (g g' : Group) : Prop :=
  { g' with pend := g.pend, fpDue := g.fpDue, garnet := g.garnet, paths := g.paths } = g ∧
    g'.garnet.map (fun i => { i with written := 0 }) = g.garnet.map (fun i => { i with written := 0 })

/-- What a lane instruction of fixed latency answers, over a group without poison: the lane stream goes on; the words of the registers
`vs` in acting lanes change for reads from clock T + beat + `lat`, the bits of the predicates `ps` likewise, and no other word or
bit ever; sticky flag `i` is raised from clock T + beat + `lat` where an acting lane of the beat raises it; and `val` holds of the group
left behind. -/
abbrev LaneGoes (s : State) (g : Group) (p : Path) (h : LaneHdr) (r : Out) (lat : Nat) (vs ps : List Nat) (fl : Nat → Byte)
    (val : Group → Prop) : Prop :=
  ∃ t g' p', r = .next t ∧ t.At g' p' ∧ OnlyGroup s t ∧ OtherPaths p g g' ∧ PastLane s h p p' ∧ OnlyResults g g' ∧
    (∀ c v l, l < 96 → ¬(v ∈ vs ∧ ActsIn s g p h l ∧ s.clock + l / 32 + lat ≤ c) →
      vRead g' c (vKey v l) = vRead g c (vKey v l)) ∧
    (∀ c n l, ¬(n ∈ ps ∧ ActsIn s g p h l ∧ s.clock + l / 32 + lat ≤ c) → pRead g' c n l = pRead g c n l) ∧
    (∀ c i, (stickyAt g' c).getLsbD i = true ↔
      (stickyAt g c).getLsbD i = true ∨ ∃ l, ActsIn s g p h l ∧ s.clock + l / 32 + lat ≤ c ∧ (fl l).getLsbD i = true) ∧
    val g'

/-- No lane raises a flag. -/
def noFlags (_ : Nat) : Byte := 0

/-! ### Values of elements (R76, R167, R168) -/

/-- The bounds of an integer element type. -/
def refMin (t : IntTy) : Int := if t.sgn then -(2 ^ (elW t - 1)) else 0
def refMax (t : IntTy) : Int := if t.sgn then 2 ^ (elW t - 1) - 1 else 2 ^ elW t - 1

/-- `x` is what `Fit` makes of the exact value `y` (R168): with `.sat` the nearest value of the type, else the value of the type
that differs from it by a multiple of two to its width. -/
def FitsAs (t : IntTy) (sat : Bool) (y x : Int) : Prop :=
  refMin t ≤ x ∧ x ≤ refMax t ∧ (if sat then x = max (refMin t) (min y (refMax t)) else (2 ^ elW t : Int) ∣ (y - x))

/-- The flag that `.sat` raises where it changes a value. -/
def refSat (t : IntTy) (sat : Bool) (y : Int) : Bool := sat && (decide (y < refMin t) || decide (refMax t < y))

/-- Element `e` of an operand of type `t` in lane `l`, as the lane's beat reads it in an instruction that issues in clock `c`. -/
def elemAt (g : Group) (c l : Nat) (t : IntTy) (v : VReg) (e : Nat) : Int := elemVal t (vOperand g c l t v) e
/-- Element `e` of operand `b`. -/
def elemB (g : Group) (c l : Nat) (t : IntTy) (b : VSrc) (e : Nat) : Int := elemVal t (bOperand g c l t b) e

/-! ### FP32 words (R133, R139, R185, R186) -/

/-- A finite FP32 word. -/
def refFinite (w : Word) : Prop := w.toNat % 2 ^ 31 < 0x7F800000
/-- The value of a finite FP32 word as a rational (R133). -/
def refRat (w : Word) : Rat :=
  let e : Nat := w.toNat / 2 ^ 23 % 256
  let f : Nat := w.toNat % 2 ^ 23
  let m : Rat := if e = 0 then (f : Rat) / 2 ^ 149 else ((2 ^ 23 + f : Nat) : Rat) * 2 ^ e / 2 ^ 150
  if 2 ^ 31 ≤ w.toNat then -m else m

/-- The bit of `FCLASS` for a word (R185). -/
def refClass (w : Word) : Nat :=
  let m := w.toNat % 2 ^ 31
  let neg := 2 ^ 31 ≤ w.toNat
  if 0x7FC00000 ≤ m then 9
  else if 0x7F800000 < m then 8
  else if m = 0x7F800000 then (if neg then 0 else 7)
  else if 0x00800000 ≤ m then (if neg then 1 else 6)
  else if m = 0 then (if neg then 3 else 4)
  else if neg then 2 else 5

/-- Order of two values that are no NaN: the first lies below the second; −0 equals +0 (R139). -/
def refBelow (a b : Val) : Prop :=
  match a, b with
  | .nan _, _ | _, .nan _ => False
  | .inf true, .inf true => False
  | .inf true, _ => True
  | .inf false, _ => False
  | .num _, .inf n => n = false
  | .num x, .num y =>
    (if x.neg then -(x.m : Rat) else x.m) * (2 : Rat) ^ x.e < (if y.neg then -(y.m : Rat) else y.m) * (2 : Rat) ^ y.e
/-- A NaN. -/
def refNan (a : Val) : Prop := ∃ s, a = .nan s
/-- A float comparison (R139). -/
def refFcond (cc : FCond) (a b : Val) : Prop :=
  let nan := refNan a ∨ refNan b
  match cc with
  | .eq => ¬nan ∧ ¬refBelow a b ∧ ¬refBelow b a
  | .ne => nan ∨ refBelow a b ∨ refBelow b a
  | .lt => refBelow a b
  | .le => ¬nan ∧ ¬refBelow b a
  | .gt => refBelow b a
  | .ge => ¬nan ∧ ¬refBelow a b
  | .un => nan
  | .or => ¬nan
/-- Whether a float comparison raises `invalid`: a signalling operand, or a NaN under an ordering condition (R139). -/
def refFinvalid (cc : FCond) (a b : Val) : Bool :=
  let nan := valNan a || valNan b
  a = .nan true || b = .nan true || (nan && (cc = .lt || cc = .le || cc = .gt || cc = .ge))

/-! ### Codes of the float types and rounding to them (R133, R136, R137) -/

/-- Exponent width, fraction width and bias of a float type. -/
def refFields : ElemTy → Option (Nat × Nat × Nat)
  | .f32 => some (8, 23, 127) | .bf16 => some (8, 7, 127) | .f16 => some (5, 10, 15)
  | .e4m3 => some (4, 3, 7) | .e5m2 => some (5, 2, 15) | .e2m1 => some (2, 1, 1)
  | _ => none
/-- The value of a finite code of a float type. -/
def refVal (t : ElemTy) (c : Nat) : Option Rat :=
  match refFields t with
  | none => none
  | some (ew, mw, b) =>
    let e := c / 2 ^ mw % 2 ^ ew
    let f : Rat := (c % 2 ^ mw : Nat) / 2 ^ mw
    if (t = .e4m3 ∧ c % 128 = 127) ∨ (t ≠ .e4m3 ∧ t ≠ .e2m1 ∧ e = 2 ^ ew - 1) then none
    else some ((if c / 2 ^ (ew + mw) % 2 = 1 then -1 else 1) * (if e = 0 then 2 * f / 2 ^ b else (1 + f) * 2 ^ e / 2 ^ b))
/-- An infinity of a float type. -/
def refInf (t : ElemTy) (neg : Bool) (c : Nat) : Prop :=
  t ≠ .e4m3 ∧ ∃ f, refFields t = some f ∧ refVal t c = none ∧ c % 2 ^ f.2.1 = 0 ∧ c / 2 ^ (f.1 + f.2.1) % 2 = if neg then 1 else 0
/-- A NaN of a float type, signalling or quiet. -/
def refNanCode (t : ElemTy) (sig : Bool) (c : Nat) : Prop :=
  ∃ f, refFields t = some f ∧ refVal t c = none ∧ (t = .e4m3 ∨ c % 2 ^ f.2.1 ≠ 0) ∧
    sig = (decide (t = .f32 ∨ t = .bf16 ∨ t = .f16) && decide (c % 2 ^ f.2.1 < 2 ^ (f.2.1 - 1)))
/-- The canonical NaN of a float type, 0 where it has none. -/
def refCanonNan : ElemTy → Nat
  | .f32 => 0x7FC00000 | .bf16 => 0x7FC0 | .f16 => 0x7E00 | .e4m3 => 0x7F | .e5m2 => 0x7E | _ => 0
/-- The codes of +∞ and of the largest finite value. -/
def refTops : ElemTy → Nat × Nat
  | .f32 => (0x7F800000, 0x7F7FFFFF) | .bf16 => (0x7F80, 0x7F7F) | .f16 => (0x7C00, 0x7BFF)
  | .e4m3 => (0x7F, 0x7E) | .e5m2 => (0x7C, 0x7B) | _ => (7, 7)
/-- The largest finite value of a float type and its step. -/
def refMaxStep : ElemTy → Rat × Rat
  | .f32 => ((2 ^ 24 - 1) * 2 ^ 104, 2 ^ 104) | .bf16 => (255 * 2 ^ 120, 2 ^ 120) | .f16 => (65504, 32)
  | .e4m3 => (448, 32) | .e5m2 => (57344, 8192) | _ => (6, 2)
/-- A code of a float type is a number rounded in a mode, where that is in range: its value, its sign, and which neighbour it is. -/
def RoundsTo (t : ElemTy) (m : Rnd) (x : Rat) (c : Nat) : Prop :=
  ∃ f r, refFields t = some f ∧ refVal t c = some r ∧ c < 2 ^ (f.1 + f.2.1 + 1) ∧ (x ≠ 0 → (2 ^ (f.1 + f.2.1) ≤ c ↔ x < 0)) ∧
    match m with
    | .rne => ∀ w v, refVal t w = some v → |r - x| ≤ |v - x| ∧ (|r - x| = |v - x| → v ≠ r → c % 2 = 0)
    | .rz => |r| ≤ |x| ∧ 0 ≤ r * x ∧ ∀ w v, refVal t w = some v → |v| ≤ |x| → 0 ≤ v * x → |v| ≤ |r|
    | .rp => x ≤ r ∧ ∀ w v, refVal t w = some v → x ≤ v → r ≤ v
    | .rm => r ≤ x ∧ ∀ w v, refVal t w = some v → v ≤ x → v ≤ r
/-- The rounded magnitude of a number stays within the largest finite value (R137). -/
def refFits (t : ElemTy) (m : Rnd) (x : Rat) : Prop :=
  let top := (refMaxStep t).1
  let next := top + (refMaxStep t).2
  match m with
  | .rne => |x| < top + (refMaxStep t).2 / 2
  | .rz => |x| < next
  | .rp => -next < x ∧ x ≤ top
  | .rm => -top ≤ x ∧ x < next
/-- The rounded magnitude of a number lies above the largest finite value (R137). -/
def refOver (t : ElemTy) (m : Rnd) (x : Rat) : Prop :=
  let top := (refMaxStep t).1
  let next := top + (refMaxStep t).2
  match m with
  | .rne => top + (refMaxStep t).2 / 2 < |x|
  | .rz => next ≤ |x|
  | .rp => x ≤ -next ∨ top < x
  | .rm => x < -top ∨ next ≤ x
/-- An integer is a number rounded in a mode. -/
def RoundsInt (m : Rnd) (x : Rat) (n : Int) : Prop :=
  match m with
  | .rne => |x - n| ≤ 1 / 2 ∧ (|x - n| = 1 / 2 → n % 2 = 0)
  | .rz => n = if 0 ≤ x then ⌊x⌋ else ⌈x⌉
  | .rp => n = ⌈x⌉
  | .rm => n = ⌊x⌋
/-- An FP32 word with a subnormal read as zero (R138). -/
def refFlush (w : Nat) : Nat := if w / 2 ^ 23 % 256 = 0 then w / 2 ^ 31 * 2 ^ 31 else w
/-- The value of an operand code of the matrix engine, if finite (R91). -/
def refOperand (f : MmaFmt) (c : Nat) : Option Rat :=
  match f with
  | .e4m3 => refVal .e4m3 c | .e5m2 => refVal .e5m2 c | .e2m1 => refVal .e2m1 c
  | .bf16 => refVal .bf16 c | .f16 => refVal .f16 c
  | .s8 => some ((BitVec.ofNat 8 c).toInt : Rat)

end Sys2Proof.Machine
end

