-- ==== Sys2Proof/Safety/Mem.lean ====
section
/-! DEFINITION. What the claims say of requests that an instruction leaves outstanding, of traps, and of the places of accesses
(R110, R111, R173, R202, R214, R215, R337). -/
namespace Sys2Proof.Machine

/-- Nothing but the current group and the counter of fresh numbers has changed. -/
abbrev OnlyGroupFresh (s t : State) : Prop :=
  { t with groups := s.groups, fresh := s.fresh } = s ∧ (∀ k, k ≠ s.cur → tabFind t.groups k = tabFind s.groups k) ∧
    SameBytes s t

/-- The path that has gone past a lane word (R157, R158). -/
def laneNext (s : State) (h : LaneHdr) (p : Path) : Path :=
  { p with lpc := p.lpc + 12, running := decide ¬(h.pred = 0 ∧ h.neg = true), tPrev := s.clock + 1,
           hold := if p.hold = .ljmp then .free else p.hold }
/-- The path that has gone past a scalar word. -/
def scalarNext (p : Path) : Path := { p with spc := p.spc + 4 }

/-- What an instruction of variable latency answers when it issues (R110, R111): a request of kind `kind` with a fresh number is
outstanding, is counted on its path, and has cleared its completion flag and owns it; the path becomes `P` but for its signature;
of the group nothing else changes, and nothing outside it. -/
abbrev Issues (s : State) (g : Group) (p : Path) (r : Out) (path : Option KPath) (flag : BitVec 4) (kind : ReqKind) (pc : Word)
    (addr : Dword) (P : Path) : Prop :=
  ∃ t g' p', r = .next t ∧ t.At g' p' ∧ { p' with sig := P.sig } = P ∧ OtherPaths p g g' ∧ OnlyGroupFresh s t ∧
    t.fresh = s.fresh + 1 ∧
    g'.reqs = g.reqs ++ [{ id := s.fresh, path := path, flag := flag, kind := kind, fp := 0, pc := pc, by_ := p.id, stalled := false,
                           stallAt := 0, addr := addr, late := false, at_ := s.clock }] ∧
    g'.outq = g.outq ++ (path.map (fun k => (s.fresh, k, false))).toList ∧
    (∀ f, g'.flags.getLsbD f = (g.flags.getLsbD f && decide (flag.toNat ≠ f))) ∧
    (flag.toNat < 12 → tabFind g'.owner flag.toNat = some s.fresh) ∧
    { g' with reqs := g.reqs, outq := g.outq, flags := g.flags, owner := g.owner, walked := g.walked, paths := g.paths } = g

/-- What a class 0 trap answers in a group that has a handler and is not in it (R337): the trap registers tell the cause and the
place, the trapping path alone goes on at the handler with an empty run queue, its queue and the run of a trapping lane word saved, and
nothing else changes. -/
abbrev Traps (s : State) (g : Group) (p : Path) (r : Out) (src code : Nat) (v0 v1 tspc tlpc : Word) : Prop :=
  ∀ off, g.handler = none → g.garnet = none → (kernOf s g).trapOff = some off →
    ∃ t g' p', r = .next t ∧ t.At g' p' ∧ OnlyGroup s t ∧ OtherPaths p g g' ∧
      g'.tcause = BitVec.ofNat 32 (256 * src + code) ∧ g'.tval0 = v0 ∧ g'.tval1 = v1 ∧ g'.tspc = tspc ∧ g'.tlpc = tlpc ∧
      (∃ c, g'.handler = some c ∧ c.path = p.id ∧ c.queue = p.queue ∧ c.running = (p.running || decide (src = 1)) ∧ c.depth = p.stack.length) ∧
      { p' with sig := p.sig } =
        { p with spc := BitVec.ofNat 32 off, queue := [], running := false, hold := .free, recalled := false } ∧
      { g' with tcause := g.tcause, tval0 := g.tval0, tval1 := g.tval1, tspc := g.tspc, tlpc := g.tlpc, handler := g.handler,
                walked := g.walked, pausedAt := g.pausedAt, paths := g.paths } = g

/-- The record of a trap or fault in its stack's queue of records to be written (R340): cause, values, place and reply tag. -/
abbrev RecordOf (s : State) (g : Group) (rec : TrapRec) (cls src code : Nat) (v0 v1 tspc tlpc : Word) : Prop :=
  rec.info.cls = cls ∧ rec.info.src = src ∧ rec.info.code = code ∧ rec.info.val0 = v0 ∧ rec.info.val1 = v1 ∧
    rec.info.tspc = tspc ∧ rec.info.tlpc = tlpc ∧ rec.pasid = pasidOf s g ∧ rec.core = g.core ∧ rec.slot = 6 * g.part + g.place ∧
    rec.tag = recordTag s

/-- What an event of class 1 or 3 answers in a group that is no Garnet context (R208, R342): the group is suspended, its record waits
to be written under a reply tag that no other record bears, and nothing else changes but the path's signature. -/
abbrev Suspends (s : State) (g : Group) (p : Path) (r : Out) (cls src code : Nat) (v0 v1 tspc tlpc : Word) : Prop :=
  g.garnet = none → ∃ t g' p' rec, r = .next t ∧ t.At g' p' ∧ g'.susp = .record (recordTag s) ∧ OtherPaths p g g' ∧
    { p' with sig := p.sig } = p ∧ { g' with susp := g.susp, walked := g.walked, pausedAt := g.pausedAt, paths := g.paths } = g ∧
    (stackOf t (g.core / 16)).waitQ = (stackOf s (g.core / 16)).waitQ ++ [rec] ∧
    RecordOf s g rec cls src code v0 v1 tspc tlpc ∧
    { t with groups := s.groups, stks := s.stks, fresh := s.fresh } = s ∧ SameBytes s t

/-- What a class 2 event answers in a team whose first class 2 record it is (R341, R343): every group of the team halts and the record
is latched. -/
abbrev Ends (s : State) (g : Group) (r : Out) (src code : Nat) (v0 v1 tspc tlpc : Word) : Prop :=
  ∀ tm, g.garnet = none → teamOf s g = some tm → tm.fatal = false →
    ∃ t rec, r = .next t ∧ (∀ e ∈ t.groups, e.2.team = g.team → e.2.susp = .halted) ∧
      (stackOf t (g.core / 16)).fatal = (stackOf s (g.core / 16)).fatal ++ [rec] ∧
      RecordOf s g rec 2 src code v0 v1 tspc tlpc ∧
      (tabFind t.teams g.team).map (fun x => (x.halted, x.fatal)) = some (true, true) ∧ SameBytes s t

/-- What a lane word answers that leaves work elsewhere: the lane stream goes on, a request of kind `kind` under the next fresh number
is outstanding and owns the word's completion flag, which it has cleared, the group's registers, predicates, counters and special
registers stay, and `rest` holds of the state and the group left behind. -/
abbrev Leaves (s : State) (g : Group) (p : Path) (h : LaneHdr) (r : Out) (kind : ReqKind) (rest : State → Group → Prop) : Prop :=
  ∃ t g' p', r = .next t ∧ t.At g' p' ∧ PastLane s h p p' ∧ OtherPaths p g g' ∧
    (∃ q ∈ g'.reqs, q.id = s.fresh ∧ q.kind = kind ∧ q.flag = h.setf ∧ q.by_ = p.id) ∧ (∀ q ∈ g.reqs, q ∈ g'.reqs) ∧
    (h.setf.toNat < 12 → g'.flags.getLsbD h.setf.toNat = false ∧ tabFind g'.owner h.setf.toNat = some s.fresh) ∧
    { g' with reqs := g.reqs, outq := g.outq, flags := g.flags, owner := g.owner, walked := g.walked, paths := g.paths,
              ncpyc := g.ncpyc, appends := g.appends } = g ∧ SameBytes s t ∧ rest t g'

/-! ### The drain unit -/

/-- Entry `e`'s drain `r` is the one whose word is being executed; its element registers have their canonical form. -/
abbrev InDrain (s : State) (e : GangEnt) (r : DrainRun) : Prop :=
  (coreOf s s.drainCore).drain = some r ∧ drainEnt (coreOf s s.drainCore) = some e ∧ tabWf 0 r.e = true

/-- What a drain operation on registers answers: register `d` holds `f` in each lane, every other register stays, the unit keeps of the
flags `fl` only `invalid` and `overflow` (R265), its next word follows, and nothing else in the module changes but copies of
memory lines. -/
abbrev DrainWrites (s : State) (r : DrainRun) (o : Out) (d : EReg) (f : Nat → Word) (fl : Nat → Byte) : Prop :=
  ∃ t q, o = .next t ∧ (coreOf t s.drainCore).drain = some q ∧ { q with e := r.e, fp := r.fp, pc := r.pc } = r ∧ q.pc = r.pc + 1 ∧
    (∀ x < 64, eReg q d x = f x) ∧ (∀ n x, n ≠ d → x < 64 → eReg q n x = eReg r n x) ∧
    (∀ k, q.fp.getLsbD k = true ↔ r.fp.getLsbD k = true ∨ ((k = 0 ∨ k = 2) ∧ ∃ x < 64, (fl x).getLsbD k = true)) ∧
    { t with cores := s.cores } = s ∧ SameBytes s t ∧ ∀ c, (coreOf t c).acc = (coreOf s c).acc ∧ (coreOf t c).tokens = (coreOf s c).tokens

/-! ### Addresses and places -/

/-- The address of a lane's access (R173): base, index and offset, modulo 2^64. -/
def refAddr (g : Group) (p : Path) (c l : Nat) (b : MBase) (i : MIdx) (off : Dword) : Nat :=
  ((match b with
    | .scal r => (sRead g p r).toNat + 2 ^ 32 * (sRead g p (r + 1)).toNat
    | .vec v => vOperand g c l .z64 v) +
   (match i with
    | .none => 0
    | .lane sc => l * 2 ^ sc.toNat
    | .reg v sc => ((vWord g c v.toNat l).signExtend 64).toNat * 2 ^ sc.toNat) + off.toNat) % 2 ^ 64

/-- An address whose bits [63:57] equal bit 56 (R215). -/
def refCanonical (a : Nat) : Prop := a < 2 ^ 56 ∨ 2 ^ 64 - 2 ^ 56 ≤ a

/-- Where an access of a space at address `a` lies, if every check of its range and its translation passes (R67, R202, R207, R215). -/
def PlaceOf (s : State) (g : Group) (spa : Space) (acc : Acc) (a : Nat) (q : Loc) : Prop :=
  match spa with
  | .glob => refCanonical a ∧ ∃ pa, translate s g a acc = .ok pa ∧ q = .phys pa
  | .sp => ∃ tm, teamOf s g = some tm ∧ a < (kernOf s g).spad ∧ q = .spad tm.core (tm.spadOff + a)
  | .cw => ∃ tm o, teamOf s g = some tm ∧ winPlace s (kernOf s g) tm a = some o ∧ q = .spad o.1 o.2

/-- The lanes in which an instruction acts, lowest first. -/
def refActing (s : State) (g : Group) (p : Path) (h : LaneHdr) : List Nat :=
  (List.range 96).filter (fun l => decide (ActsIn s g p h l))

/-! ### Engine accesses -/

/-- The address of an element of a view (R29): its base and its indices by the strides, that of dimension 1 with the bank interleave in
a scratchpad, and the 16-byte chunk of its line exchanged by the swizzle. -/
def refElem (v : View) (p : List Nat) : Dword :=
  let i : Nat → Nat := fun d => (p[d]?).getD 0
  let skew : Int := if v.space = 0 ∨ v.inter = 0 then 0 else 2 ^ (v.inter + 1)
  let at_ : Int := v.base + ((List.range v.rank).map (fun d =>
    ((if d = 0 ∧ tyBits v.ty = 4 then i 0 / 2 else i d : Nat) : Int) * ((v.strides[d]?).getD 0 + if d = 1 then skew else 0))).sum
  BitVec.ofInt 64 at_ ^^^ (BitVec.ofNat 64 (i 1 % 2 ^ v.swz) <<< 4)
/-- Where an engine of a stack finds byte `i` of an element (R206, R230): through a leaf of the stack's TLB in HBM, in the cluster window,
or in the team's own partition. -/
def EngineByte (s : State) (st pasid : Nat) (k : Kernel) (v : View) (p : List Nat) (i : Nat) (acc : Acc) (l : Loc) : Prop :=
  let a := (refElem v p).toNat + i
  v.swz ≤ 3 ∧ v.rank ≤ 4 ∧ a < 2 ^ 64 ∧
    if v.space = 0 then
      ∃ e pa, tlbFind (stackOf s st).tlb pasid a = some e ∧ leafUse e acc a = .ok pa ∧ pa < Config.hbmBytes ∧ l = .phys pa
    else
      ∃ tm c o, tabFind s.teams v.team = some tm ∧ (if v.space = 1 then winPlace s k tm a else ownPlace k tm a) = some (c, o) ∧ l = .spad c o
/-- No promoted block, no barrier object and no dirty word of a column stands between an engine and the bytes that it names. -/
def State.Calm (s : State) : Prop :=
  s.promoted = [] ∧ s.MemOk ∧ ∀ e ∈ s.cores, e.2.bars = [] ∧ tabWf 0 e.2.spad = true ∧ ∀ w ∈ e.2.col, w.2.dirty = false
/-- Of the places that something names in HBM and in scratchpads, only those that satisfy a test may have changed. -/
def OnlyPlaces (s t : State) (may : Loc → Prop) : Prop :=
  (∀ pa < Config.hbmBytes, ¬ may (.phys pa) → homeByte t pa = homeByte s pa) ∧
    ∀ c o, ¬ may (.spad c o) → spadByte t c o = spadByte s c o

end Sys2Proof.Machine
end

