-- ==== Sys2Proof/Safety/Queue.lean ====
section
/-! DEFINITION. What the claims say of a queue whose head packet core 0 serves (R39, R40, R45, R52). -/
namespace Sys2Proof.Machine

/-- Core 0 serves queue `q`, number `qn`, next, and the packet at its head is `bs`, sound in its header and carrying the right phase. -/
abbrev Serves (s : State) (qn : Nat) (q : Queue) (bs : List Byte) : Prop :=
  tabFind s.queues qn = some q ∧ s.boot = 6 ∧ closingP s q.pasid = false ∧ servedFirst s qn q = false ∧ parseHead s q = .pkt bs

/-- The packet at the head has been accepted: the head has advanced, the queue is active, and the packet stands among those that have
started, its effects done or not, with the signal and the interrupt that it asks for. -/
abbrev Accepted (t : State) (qn : Nat) (q : Queue) (bs : List Byte) (done bar : Bool) (skip : Nat) : Prop :=
  ∃ r pk, tabFind t.queues qn = some r ∧ r.head = q.head + 1 ∧ r.tail = q.tail ∧ r.state = .active ∧ r.watch = none ∧ r.skip = skip ∧
    r.running = q.running ++ [pk] ∧ pk.idx = q.head.toNat ∧ pk.effectsDone = done ∧ pk.bar = bar ∧ pk.sigAddr = listNat bs 8 8 ∧
    pk.sigVal = BitVec.ofNat 64 (listNat bs 16 8) ∧ pk.sigOp = listNat bs 24 1 ∧ pk.intr = bitN (listNat bs 1 1) 2

/-- The head word of the queue can be written, at physical address `pa` of the HBM. -/
abbrev HeadAt (s : State) (q : Queue) (pa : Nat) : Prop :=
  fetcherAddr s q.pasid q.statusAddr .write = some pa ∧ pa + 4 ≤ Config.hbmBytes ∧
    (∀ e ∈ s.promoted, Config.hbmBytes ≤ e.1 * 65536) ∧ s.MemOk

/-- A leaf for the page of an address, with the outcome of a read, stands in the TLB of stack 0. -/
abbrev ReadsAs (s : State) (pasid va : Nat) (x : XRes) : Prop :=
  ∃ e, tlbFind (stackOf s 0).tlb pasid va = some e ∧ leafUse e .read va = x

end Sys2Proof.Machine
end

