-- ==== Sys2Proof/Safety/Scalar.lean ====
section
/-! DEFINITION. What the claims about the scalar stream say that each instruction writes (R150, R152 to R154). -/
namespace Sys2Proof.Machine

/-- The quotient of `DIVS` as an integer, rounded toward zero, with the two corners of R152. -/
def refDivs (a b : Word) : Word :=
  if b = 0 then 0xFFFFFFFF
  else if a = 0x80000000 ∧ b = 0xFFFFFFFF then 0x80000000
  else BitVec.ofInt 32 (a.toInt.tdiv b.toInt)

/-- A comparison of two integers by its condition code (R76). -/
def refCond (cc : Cond) (a b : Int) : Bool :=
  match cc with
  | .eq => a == b
  | .ne => a != b
  | .lt => decide (a < b)
  | .le => decide (a ≤ b)
  | .gt => decide (a > b)
  | .ge => decide (a ≥ b)

/-- A comparison of two unsigned integers (R76). -/
def refUcond (cc : UCond) (a b : Nat) : Bool :=
  match cc with
  | .lt => decide (a < b)
  | .le => decide (a ≤ b)
  | .gt => decide (a > b)
  | .ge => decide (a ≥ b)

/-- Lanes set in a mask. -/
def refLanes (m : Mask) : List Nat := (List.range 96).filter (fun l => m.getLsbD l)

/-- The low, middle and high word of a 96-bit value, for a triple (R74). -/
def refTriple (d : SReg) (m : Mask) : List (SReg × Word) :=
  [(d, m.extractLsb' 0 32), (d + 1, m.extractLsb' 32 32), (d + 2, m.extractLsb' 64 32)]
/-- The low and high word of a 64-bit value, for a pair (R6). -/
def refPair (d : SReg) (x : Dword) : List (SReg × Word) := [(d, x.extractLsb' 0 32), (d + 1, x.extractLsb' 32 32)]

/-- What register `r` reads after writes: `s0` to `s60` take the value; in `s61` to `s63`, the path's mask, only the bits of
lanes that the path owns change (R150). -/
def afterWrites (p : Path) (old : SReg → Word) (ws : List (SReg × Word)) (r : SReg) : Word :=
  match ws.find? (fun w => w.1 = r) with
  | none => old r
  | some (_, v) =>
    if r.toNat < 61 then v
    else
      let own := p.owned.extractLsb' (32 * (r.toNat - 61)) 32
      (v &&& own) ||| (old r &&& ~~~ own)

/-- What a scalar instruction that computes answers: the writes `ws` are read back, by every register, the path goes to the next
word, and all else stays. -/
abbrev ComputesTo (s : State) (g : Group) (p : Path) (r : Out) (ws : List (SReg × Word)) : Prop :=
  ∃ t g' p', r = .next t ∧ t.At g' p' ∧ g'.RegsOk ∧ (∀ x, sRead g' p' x = afterWrites p (sRead g p) ws x) ∧ NextWord p p' ∧
    ScalarFrame s t g g' p p'

/-- A pair of scalar registers as a 64-bit value, the even register low (R6). -/
def refPairOf (r : SReg → Word) (a : SReg) : Dword := r (a + 1) ++ r a
/-- A triple of scalar registers as a mask, the first register low (R74). -/
def refMaskOf (r : SReg → Word) (a : SReg) : Mask := r (a + 2) ++ r (a + 1) ++ r a

end Sys2Proof.Machine
end

