-- ==== Sys2Proof/Certificates/Slice0/Obligations.lean ====
section
/-! DEFINITION. What is claimed of the module: one statement for each group of rules of the spec. -/
open Sys2Proof Sys2Proof.Machine

/-! ### Scalar arithmetic, immediates and masks -/

/-- R150, R152 to R154: the scalar instructions over registers, immediates, pairs and triples write `sd` as their tables say; `s61` to `s63` take only the lanes that the path owns; nothing else changes. -/
def Obligations.ScalarComputation : Prop :=
  (
    ∀ (s : State) (g : Group) (p : Path) (d a b : SReg), s.At g p → g.RegsOk →
      let x := sRead g p a
      let y := sRead g p b
      let gives := fun (i : Instr) (v : Word) => ComputesTo s g p (exec i s) [(d, v)]
      gives (.add d a b) (x + y) ∧ gives (.sub d a b) (x - y) ∧ gives (.mul d a b) (x * y) ∧
      gives (.mulh d a b) (BitVec.ofInt 32 (x.toInt * y.toInt / 2 ^ 32)) ∧
      gives (.mulhZ32 d a b) (BitVec.ofNat 32 (x.toNat * y.toNat / 2 ^ 32)) ∧
      gives (.divs d a b) (refDivs x y) ∧
      gives (.and d a b) (x &&& y) ∧ gives (.or d a b) (x ||| y) ∧ gives (.xor d a b) (x ^^^ y) ∧
      gives (.andn d a b) (x &&& ~~~ y) ∧
      gives (.shl d a b) (x <<< (y.toNat % 32)) ∧ gives (.shr d a b) (x >>> (y.toNat % 32)) ∧
      gives (.sra d a b) (x.sshiftRight (y.toNat % 32)) ∧
      gives (.min d a b) (if y.toInt < x.toInt then y else x) ∧ gives (.max d a b) (if x.toInt < y.toInt then y else x) ∧
      gives (.minZ32 d a b) (if y.toNat < x.toNat then y else x) ∧ gives (.maxZ32 d a b) (if x.toNat < y.toNat then y else x) ∧
      gives (.sel d a b) (if sRead g p d ≠ 0 then x else y) ∧
      (∀ cc, gives (.cmp cc d a b) (if refCond cc x.toInt y.toInt then 1 else 0)) ∧
      (∀ cc, gives (.cmpZ32 cc d a b) (if refUcond cc x.toNat y.toNat then 1 else 0))) ∧
  (
    ∀ (s : State) (g : Group) (p : Path) (d a : SReg), s.At g p → g.RegsOk →
      let x := sRead g p a
      let gives := fun (i : Instr) (v : Word) => ComputesTo s g p (exec i s) [(d, v)]
      (∀ k : BitVec 14, gives (.addi d a k) (x + k.signExtend 32) ∧ gives (.andi d a k) (x &&& k.setWidth 32) ∧
        gives (.ori d a k) (x ||| k.setWidth 32) ∧ gives (.xori d a k) (x ^^^ k.setWidth 32)) ∧
      (∀ n : BitVec 5, gives (.shli d a n) (x <<< n.toNat) ∧ gives (.shri d a n) (x >>> n.toNat) ∧
        gives (.srai d a n) (x.sshiftRight n.toNat)) ∧
      (∀ k : BitVec 20, gives (.movi d k) (k.signExtend 32)) ∧
      (∀ k : BitVec 12, gives (.movhi d k) (k ++ (sRead g p d).extractLsb' 0 20))) ∧
  (
    ∀ (s : State) (g : Group) (p : Path) (d a b : SReg), s.At g p → g.RegsOk →
      let r := sRead g p
      let pair := fun (i : Instr) (v : Dword) => ComputesTo s g p (exec i s) (refPair d v)
      let triple := fun (i : Instr) (m : Mask) => ComputesTo s g p (exec i s) (refTriple d m)
      let word := fun (i : Instr) (v : Word) => ComputesTo s g p (exec i s) [(d, v)]
      pair (.addZ64 d a b) (refPairOf r a + refPairOf r b) ∧ pair (.subZ64 d a b) (refPairOf r a - refPairOf r b) ∧
      triple (.mand d a b) (refMaskOf r a &&& refMaskOf r b) ∧ triple (.mor d a b) (refMaskOf r a ||| refMaskOf r b) ∧
      triple (.mxor d a b) (refMaskOf r a ^^^ refMaskOf r b) ∧ triple (.mnot d a) (~~~ refMaskOf r a) ∧
      word (.mpop d a) (BitVec.ofNat 32 (refLanes (refMaskOf r a)).length) ∧
      word (.mfirst d a) (((refLanes (refMaskOf r a)).head?.map (BitVec.ofNat 32)).getD 0xFFFFFFFF))

/-! ### Special registers -/

/-- R7, R12, R60, R95, R140, R141, R164: what `SRD` reads from each special register, the two halves of the cycle counter among them, and what `SWR` writes, of `tcause` only the 12 bits that are not reserved (R7); a trap register outside a handler reads zero, and a Garnet context reads `fpflags` as it stood at the ejection. -/
def Obligations.SpecialRegisters : Prop :=
  (
    ∀ (s : State) (g : Group) (p : Path) (d : SReg), s.At g p → g.RegsOk →
      let gives := fun (r : SpecialReg) (v : Word) => ComputesTo s g p (exec (.srd d r) s) [(d, v)]
      let trap := fun (v : Word) => if g.handler.isSome then v else 0
      gives .encrev 2 ∧ gives .ejth g.ejth ∧ gives .rjto g.rjto ∧ gives .role g.role ∧ gives .gang g.gang ∧
      gives .deadlanes (BitVec.ofNat 32 (refLanes g.dead).length) ∧
      gives .deadm0 (g.dead.extractLsb' 0 32) ∧ gives .deadm1 (g.dead.extractLsb' 32 32) ∧
      gives .deadm2 (g.dead.extractLsb' 64 32) ∧
      gives .tcause (trap g.tcause) ∧ gives .tval0 (trap g.tval0) ∧ gives .tval1 (trap g.tval1) ∧
      gives .tspc (trap g.tspc) ∧ gives .tlpc (trap g.tlpc) ∧
      gives .fpmode (if (kernOf s g).flags.getLsbD 0 then 1 else 0) ∧
      gives .sigval (if (kernOf s g).flags.getLsbD 4 then p.sig else 0) ∧
      (g.garnet = none → gives .fpflags (g.fpflags.setWidth 32)) ∧
      (∀ c, g.garnet = some c → gives .fpflags (c.fp0.setWidth 32)) ∧
      gives .coreid (BitVec.ofNat 32 (g.core / 16 * 2 ^ 20 + g.core % 16 * 2 ^ 16 +
        (4 * (g.core / 16 % 8) + g.core % 4) * 2 ^ 8 + (4 * (g.core / 16 / 8) + g.core % 16 / 4))) ∧
      (∀ tm cl, teamOf s g = some tm → clusterOf s g = some cl →
        gives .clusterid (BitVec.ofNat 32 cl.index) ∧
        gives .gpos (BitVec.ofNat 32 (tm.idx * 2 ^ 24 + g.idx * 2 ^ 20 +
          tm.idx / (kernOf s g).teamsPerCore % (kernOf s g).width * 2 ^ 16 +
          tm.idx / (kernOf s g).teamsPerCore / (kernOf s g).width * 2 ^ 12 + ((kernOf s g).width - 1) * 2 ^ 8 +
          ((kernOf s g).height - 1) * 2 ^ 4 + g.part)))) ∧
  (
    ∀ (s : State) (g : Group) (p : Path) (d : SReg), s.At g p → g.RegsOk → d.toNat < 61 →
      (∃ t g' p', exec (.srdCyclo d) s = .next t ∧ t.At g' p' ∧ sRead g' p' d = BitVec.ofNat 32 s.clock ∧
        p'.cychi = some (BitVec.ofNat 32 (s.clock / 2 ^ 32)) ∧ NextWord p p' ∧ OnlyGroup s t) ∧
      (∃ t g' p', exec (.srdCychi d) s = .next t ∧ t.At g' p' ∧
        sRead g' p' d = p.cychi.getD (BitVec.ofNat 32 (s.clock / 2 ^ 32)) ∧ p'.cychi = none ∧ NextWord p p' ∧ OnlyGroup s t)) ∧
  (
    ∀ (s : State) (g : Group) (p : Path) (a : SReg), s.At g p →
      let v := sRead g p a
      let next := { p with spc := p.spc + 4 }
      GoesTo s g p (exec (.swrEjth a) s) (if 1 ≤ v.toNat ∧ v.toNat ≤ 8 then { g with ejth := v } else g) next ∧
      GoesTo s g p (exec (.swrRjto a) s) { g with rjto := if v = 0 then 65536 else v } next ∧
      GoesTo s g p (exec (.swrFpflags a) s) { g with fpflags := v.setWidth 8 } next ∧
      (g.handler = none → ∀ r, GoesTo s g p (exec (.swrTrapState r a) s) g next) ∧
      (∀ h, g.handler = some h →
        GoesTo s g p (exec (.swrTrapState .tcause a) s) { g with tcause := v &&& 0xFFF } next ∧
        GoesTo s g p (exec (.swrTrapState .tval0 a) s) { g with tval0 := v } next ∧
        GoesTo s g p (exec (.swrTrapState .tval1 a) s) { g with tval1 := v } next ∧
        GoesTo s g p (exec (.swrTrapState .tspc a) s) { g with tspc := v } next ∧
        GoesTo s g p (exec (.swrTrapState .tlpc a) s) { g with tlpc := v } next))

/-! ### Branches, calls, runs and waits -/

/-- R79, R155: where each uniform branch goes, with nothing else changed; `CALL` puts the address after it into `s60`. -/
def Obligations.BranchesAndCalls : Prop :=
  (
    ∀ (s : State) (g : Group) (p : Path) (a : SReg), s.At g p →
      let goes := fun (i : Instr) (pc : Word) => GoesTo s g p (exec i s) g { p with spc := pc }
      (∀ o : BitVec 14, goes (.brNz a o) (if sRead g p a ≠ 0 then p.spc + 4 * o.signExtend 32 else p.spc + 4) ∧
        goes (.brZ a o) (if sRead g p a = 0 then p.spc + 4 * o.signExtend 32 else p.spc + 4)) ∧
      (∀ o : BitVec 26, goes (.jmp o) (p.spc + 4 * o.signExtend 32) ∧ goes (.nop o) (p.spc + 4)) ∧
      goes (.jmpi a) (sRead g p a) ∧ goes .ret (sRead g p 60)) ∧
  (
    ∀ (s : State) (g : Group) (p : Path) (o : BitVec 26), s.At g p → g.RegsOk →
      ∃ t g' p', exec (.call o) s = .next t ∧ t.At g' p' ∧ p'.spc = p.spc + 4 * o.signExtend 32 ∧
        (∀ r, sRead g' p' r = if r = 60 then p.spc + 4 else sRead g p r) ∧ ScalarFrame s t g g' p p')

/-- R157, R158: `LRUN` queues a run, or waits while the four entries are taken; `LJMP` waits until the lane stream is idle,
queues its run and holds the scalar stream.
Rests on the model's choices of assumption 11. -/
def Obligations.LaneRunQueue : Prop :=
  ∀ (s : State) (g : Group) (p : Path) (x : BitVec 26), s.At g p →
    let held := p.queue.length + (if p.running then 1 else 0)
    let start : Word := 12 * x.setWidth 32
    (held < 4 → GoesTo s g p (exec (.lrun x) s) g { p with spc := p.spc + 4, queue := p.queue ++ [start] }) ∧
    (4 ≤ held → exec (.lrun x) s = .next s) ∧
    (held = 0 → GoesTo s g p (exec (.ljmp x) s) g { p with spc := p.spc + 4, queue := [start], hold := .ljmp }) ∧
    (0 < held → exec (.ljmp x) s = .next s)

/-- R111, R163, R348: `WAITF` passes once every named flag is set, `WAITK` once the counter has fallen to the register's value;
until then they leave the state as it is. `YIELD` makes the group the youngest on all three ports and every path the last of its splits, and holds its own
path for 16 clocks.
Rests on the model's choices of assumption 11. -/
def Obligations.WaitsAndYield : Prop :=
  ∀ (s : State) (g : Group) (p : Path), s.At g p →
    let next := { p with spc := p.spc + 4 }
    (∀ m, (∀ f, f < 12 → m.getLsbD f → g.flags.getLsbD f) → GoesTo s g p (exec (.waitf m) s) g next) ∧
    (∀ m f, f < 12 → m.getLsbD f = true → g.flags.getLsbD f = false → exec (.waitf m) s = .next s) ∧
    (∀ k r, counter g k ≤ (sRead g p r).toNat → GoesTo s g p (exec (.waitk k r) s) g next) ∧
    (∀ k r, (sRead g p r).toNat < counter g k → exec (.waitk k r) s = .next s) ∧
    ∃ t g' p', exec .yield s = .next t ∧ t.At g' p' ∧ p'.spc = p.spc + 4 ∧ p'.idle = s.clock + 16 ∧ g'.age = s.fresh ∧ g'.ageA = s.fresh ∧ g'.ageB = s.fresh ∧
      (∀ q ∈ g'.paths, q.age = s.fresh) ∧ SameBytes s t ∧ (∀ r, sRead g' p' r = sRead g p r)

/-! ### Lane integers -/

/-- R168, R169: the integer arithmetic of the lane stream, element by element: the exact result, then `Fit`; `sat` is raised where
some acting lane's element clamps; results are readable three clocks after their beat (R108); nothing else changes.
Rests on the model's choices of assumptions 12, 61. -/
def Obligations.LaneIntegerArithmetic : Prop :=
  ∀ (s : State) (g : Group) (p : Path) (h : LaneHdr) (t : IntTy) (vd va vc : VReg) (b : VSrc), s.At g p → g.Clean →
    let x := fun (l e : Nat) => elemAt g s.clock l t va e
    let y := fun (l e : Nat) => elemB g s.clock l t b e
    let z := fun (l e : Nat) => elemAt g s.clock l t vc e
    let gives := fun (i : Instr) (sat : Bool) (v : Nat → Nat → Int) =>
      LaneGoes s g p h (exec i s) 3 (vSpan vd t.span) []
        (fun l => if ∃ e < elN t, refSat t sat (v l e) = true then 0x40 else 0)
        (fun g' => ∀ l, ActsIn s g p h l → ∀ e < elN t, FitsAs t sat (v l e) (elemAt g' (s.clock + 3) l t vd e))
    (∀ sat, gives (.iadd h t sat vd va b) sat (fun l e => x l e + y l e) ∧
      gives (.isub h t sat vd va b) sat (fun l e => x l e - y l e) ∧
      gives (.imul h t sat vd va b) sat (fun l e => x l e * y l e) ∧
      gives (.imad h t sat vd va b vc) sat (fun l e => x l e * y l e + z l e) ∧
      gives (.iabs h t sat vd va) sat (fun l e => if x l e < 0 then -x l e else x l e)) ∧
    gives (.imulh h t vd va b) false (fun l e => x l e * y l e / 2 ^ elW t) ∧
    gives (.imin h t vd va b) false (fun l e => if y l e < x l e then y l e else x l e) ∧
    gives (.imax h t vd va b) false (fun l e => if x l e < y l e then y l e else x l e)

/-- R170: logic on the word or pair, bit by bit; shifts, rotation and bit reversal on each element, the count modulo its width; R170, R171: bit counts and bit fields; R157, R172, R173: selects, moves and addresses; `LEND` only ends its run.
Rests on the model's choices of assumption 12. -/
def Obligations.LaneBitOperations : Prop :=
  (
    ∀ (s : State) (g : Group) (p : Path) (h : LaneHdr) (t : IntTy) (vd va : VReg) (b : VSrc), s.At g p → g.Clean →
      let x := fun (l : Nat) => vOperand g s.clock l t va
      let y := fun (l : Nat) => bOperand g s.clock l t b
      let bits := fun (i : Instr) (f : Nat → Nat → Bool) =>
        LaneGoes s g p h (exec i s) 3 (vSpan vd t.span) [] noFlags (fun g' =>
          ∀ l, ActsIn s g p h l → ∀ k < 32 * t.span, (vOperand g' (s.clock + 3) l t vd).testBit k = f l k)
      let elems := fun (i : Instr) (f : Nat → Nat → Nat → Bool) =>
        LaneGoes s g p h (exec i s) 3 (vSpan vd t.span) [] noFlags (fun g' =>
          ∀ l, ActsIn s g p h l → ∀ e < elN t, ∀ k < elW t,
            (elemOf t (vOperand g' (s.clock + 3) l t vd) e).testBit k = f l e k)
      let w := elW t
      let n := fun (l e : Nat) => elemOf t (y l) e % w
      let a := fun (l e k : Nat) => (elemOf t (x l) e).testBit k
      bits (.laneAnd h t vd va b) (fun l k => (x l).testBit k && (y l).testBit k) ∧
      bits (.laneOr h t vd va b) (fun l k => (x l).testBit k || (y l).testBit k) ∧
      bits (.laneXor h t vd va b) (fun l k => (x l).testBit k != (y l).testBit k) ∧
      bits (.not h t vd va) (fun l k => !(x l).testBit k) ∧
      elems (.laneShl h t vd va b) (fun l e k => decide (n l e ≤ k) && a l e (k - n l e)) ∧
      elems (.laneShr h t vd va b) (fun l e k => a l e (k + n l e)) ∧
      elems (.laneSra h t vd va b) (fun l e k => a l e (min (k + n l e) (w - 1))) ∧
      elems (.rot h t vd va b) (fun l e k => a l e ((k + w - n l e) % w)) ∧
      elems (.brev h t vd va) (fun l e k => a l e (w - 1 - k))) ∧
  (
    ∀ (s : State) (g : Group) (p : Path) (h : LaneHdr) (t : IntTy) (vd va : VReg), s.At g p → g.Clean →
      let x := fun (l : Nat) => vOperand g s.clock l t va
      let goes := fun (i : Instr) (val : Group → Prop) => LaneGoes s g p h (exec i s) 3 (vSpan vd t.span) [] noFlags val
      let out := fun (g' : Group) (l e : Nat) => elemOf t (vOperand g' (s.clock + 3) l t vd) e
      goes (.popc h t vd va) (fun g' => ∀ l, ActsIn s g p h l → ∀ e < elN t,
        out g' l e = ((List.range (elW t)).filter (fun k => (elemOf t (x l) e).testBit k)).length) ∧
      goes (.clz h t vd va) (fun g' => ∀ l, ActsIn s g p h l → ∀ e < elN t,
        out g' l e ≤ elW t ∧ elemOf t (x l) e < 2 ^ (elW t - out g' l e) ∧
          (out g' l e < elW t → 2 ^ (elW t - 1 - out g' l e) ≤ elemOf t (x l) e)) ∧
      (t = .s32 ∨ t = .z32 → ∀ pos width : BitVec 5,
        let n := min (width.toNat + 1) (32 - pos.toNat)
        goes (.bfx h t vd va pos width) (fun g' => ∀ l, ActsIn s g p h l → ∀ k < 32,
          (out g' l 0).testBit k = (x l).testBit (pos.toNat + (if k < n then k else n - 1)) && (decide (k < n) || t.sgn)) ∧
        goes (.bfi h t vd va pos width) (fun g' => ∀ l, ActsIn s g p h l → ∀ k < 32,
          (out g' l 0).testBit k = if pos.toNat ≤ k ∧ k < pos.toNat + n then (x l).testBit (k - pos.toNat)
            else (vOperand g s.clock l t vd).testBit k))) ∧
  (
    ∀ (s : State) (g : Group) (p : Path) (h : LaneHdr) (t : IntTy) (vd va : VReg) (b : VSrc), s.At g p → g.Clean →
      let goes := fun (i : Instr) (t : IntTy) (f : Nat → Nat) => LaneGoes s g p h (exec i s) 3 (vSpan vd t.span) [] noFlags (fun g' =>
        ∀ l, ActsIn s g p h l → vOperand g' (s.clock + 3) l t vd = f l)
      (∀ k, goes (.laneSel h t vd va b k) t (fun l =>
        if pRead g (s.clock + l / 32) k.toNat l then vOperand g s.clock l t va else bOperand g s.clock l t b)) ∧
      goes (.mov h t vd b) t (fun l => bOperand g s.clock l t b) ∧
      (∀ r, goes (.movs h t vd r) t (fun _ => (sRead g p r).toNat + (if t.wide then 2 ^ 32 * (sRead g p (r + 1)).toNat else 0))) ∧
      (∀ base i off, goes (.lea h vd base i off) .z64 (fun l =>
        ((match base with
          | .scal r => (sRead g p r).toNat + 2 ^ 32 * (sRead g p (r + 1)).toNat
          | .vec v => vOperand g s.clock l .z64 v) +
        (match i with
          | .none => 0
          | .lane sc => l * 2 ^ sc.toNat
          | .reg v sc => ((vWord g s.clock v.toNat l).signExtend 64).toNat * 2 ^ sc.toNat) + (off.signExtend 64).toNat) % 2 ^ 64)) ∧
      LaneGoes s g p lendHdr (exec .lend s) 3 [] [] noFlags (fun _ => True) ∧ lendHdr.pred = 0 ∧ lendHdr.neg = true)

/-! ### Predicates and exchange -/

/-- R175, R178, R186: what the instructions that write a predicate write in each acting lane; R108, R179: `VOTE.ballot` writes, five clocks after its first beat, the triple whose bit `l` says that lane `l` takes part and
holds the predicate; until then nothing but the lane stream's place and the result in flight changes.
Rests on the model's choices of assumptions 12, 61. -/
def Obligations.LanePredicateWrites : Prop :=
  (
    ∀ (s : State) (g : Group) (p : Path) (h : LaneHdr) (t : IntTy) (pd pa : PReg) (va : VReg) (b : VSrc), s.At g p → g.Clean →
      pd ≠ 0 →
      let goes := fun (i : Instr) (lat : Nat) (fl : Nat → Byte) (f : Nat → Prop) =>
        LaneGoes s g p h (exec i s) lat [] [pd.toNat] fl (fun g' =>
          ∀ l, ActsIn s g p h l → (pRead g' (s.clock + l / 32 + lat) pd.toNat l = true ↔ f l))
      let x := fun (l : Nat) => readF32 (flushOf (kernOf s g)) (vWord g s.clock va.toNat l)
      let y := fun (l : Nat) => readF32 (flushOf (kernOf s g)) (fOperand g s.clock l b)
      (∀ cc, goes (.iset h cc t pd va b) 3 noFlags (fun l =>
        refCond cc (elemAt g s.clock l t va 0) (elemB g s.clock l t b 0) = true)) ∧
      (∀ cc, goes (.fset h cc pd va b) 5 (fun l => if refFinvalid cc (x l) (y l) then 0x01 else 0)
        (fun l => refFcond cc (x l) (y l))) ∧
      goes (.voteAny h pd pa) 6 noFlags (fun _ => ∃ k, ActsIn s g p h k ∧ pRead g (s.clock + 2) pa.toNat k = true) ∧
      goes (.voteAll h pd pa) 6 noFlags (fun _ => ∀ k, ActsIn s g p h k → pRead g (s.clock + 2) pa.toNat k = true)) ∧
  (
    ∀ (s : State) (g : Group) (p : Path) (h : LaneHdr) (r : SReg) (pa : PReg), s.At g p →
      ∃ t g' p' m, exec (.voteBallot h r pa) s = .next t ∧ t.At g' p' ∧ OnlyGroup s t ∧ OtherPaths p g g' ∧ PastLane s h p p' ∧
        OnlyResults g g' ∧ g'.fpflags = g.fpflags ∧ g'.fpDue = g.fpDue ∧ (∀ c key, vRead g' c key = vRead g c key) ∧
        (∀ c n l, pRead g' c n l = pRead g c n l) ∧
        (∀ l, (m : Mask).getLsbD l = true ↔ ActsIn s g p h l ∧ pRead g (s.clock + 2) pa.toNat l = true) ∧
        ∀ i < 3, { at_ := s.clock + 5, dst := .scal (r + BitVec.ofNat 6 i) (m.extractLsb' (32 * i) 32) p.id, poison := false } ∈ g'.pend)

/-- R176, R177: `SHFL` gives each acting lane the source lane's value, its own where the source lies outside 0 to 95, and zero with
`invalid` where the source lane is dead; every source is read in the clock of the last beat, before any lane is written.
Rests on the model's choices of assumptions 12, 61. -/
def Obligations.LaneShuffle : Prop :=
  ∀ (s : State) (g : Group) (p : Path) (h : LaneHdr) (m : ShflMode) (t : IntTy) (vd va : VReg) (b : VSrc), s.At g p → g.Clean →
    let late := fun (v : VReg) (l : Nat) => (vRead g (s.clock + 2) (vKey v.toNat l)).1.toNat +
      (if t.wide then 2 ^ 32 * (vRead g (s.clock + 2) (vKey (v.toNat + 1) l)).1.toNat else 0)
    let u := fun (l : Nat) => match b with
      | .reg v => (vRead g (s.clock + 2) (vKey v.toNat l)).1.toNat
      | .imm i => immBits t i % 2 ^ 32
    let src := fun (l : Nat) => match m with
      | .idx => if u l < 96 then u l else l
      | .up => if u l ≤ l then l - u l else l
      | .down => if l + u l < 96 then l + u l else l
      | .xor => if Nat.xor l (u l) < 96 then Nat.xor l (u l) else l
    LaneGoes s g p h (exec (.shfl h m t vd va b) s) 6 (vSpan vd t.span) []
      (fun l => if g.dead.getLsbD (src l) then 0x01 else 0)
      (fun g' => ∀ l, ActsIn s g p h l → vOperand g' (s.clock + 6) l t vd = if g.dead.getLsbD (src l) then 0 else late va (src l))

/-- R180: what each reduction writes to every lane that takes part, and nothing where none does; its function code. -/
def Obligations.LaneReduction : Prop :=
  ∀ (s : State) (g : Group) (p : Path) (h : LaneHdr) (t : IntTy) (vd va : VReg), s.At g p → g.Clean → t.full = true →
    let x := fun (l : Nat) => (vRead g (s.clock + 2) (vKey va.toNat l)).1.toNat +
      (if t.wide then 2 ^ 32 * (vRead g (s.clock + 2) (vKey (va.toNat + 1) l)).1.toNat else 0)
    let part := (List.range 96).filter (fun l => decide (ActsIn s g p h l))
    let goes := fun (op : GredOp) (f : Nat → Prop) =>
      LaneGoes s g p h (exec (.gred h op t vd va) s) 6 (vSpan vd t.span) [] noFlags (fun g' =>
        ∀ l, ActsIn s g p h l → f (vOperand g' (s.clock + 6) l t vd))
    goes .add (fun r => r = (part.map x).sum % 2 ^ elW t) ∧
    goes .min (fun r => r ∈ part.map x ∧ ∀ k ∈ part, elemVal t r 0 ≤ elemVal t (x k) 0) ∧
    goes .max (fun r => r ∈ part.map x ∧ ∀ k ∈ part, elemVal t (x k) 0 ≤ elemVal t r 0) ∧
    goes .and (fun r => ∀ i < elW t, r.testBit i = part.all (fun k => (x k).testBit i)) ∧
    goes .or (fun r => ∀ i < elW t, r.testBit i = part.any (fun k => (x k).testBit i)) ∧
    goes .xor (fun r => ∀ i < elW t, r.testBit i = decide ((part.filter (fun k => (x k).testBit i)).length % 2 = 1)) ∧
    ∀ (k : Nat) (op : GredOp), ([.add, .min, .max, .and, .or, .xor] : List GredOp)[k]? = some op →
      (encodeLane (.gred h op t vd va)).map (fun w => (w.extractLsb' 88 8, w.extractLsb' 80 8)) = some (0x04, BitVec.ofNat 8 (0x10 + k))

/-! ### Lane floats -/

/-- R184, R185, R187: each FP32 instruction completes with the value of its row, formed from the words as its beat reads them, five
clocks after its beat, and raises the flags of that value.
Rests on the model's choices of assumptions 12, 61. -/
def Obligations.LaneFloatResults : Prop :=
  ∀ (s : State) (g : Group) (p : Path) (h : LaneHdr) (m : Rnd) (vd va vc : VReg) (b : VSrc), s.At g p → g.Clean →
    let fl := flushOf (kernOf s g)
    let x := fun (l : Nat) => vWord g s.clock va.toNat l
    let y := fun (l : Nat) => match b with
      | .reg v => vWord g s.clock v.toNat l
      | .imm i => i.setWidth 32 <<< 15
    let n := fun (l : Nat) => match b with
      | .reg v => (vWord g s.clock v.toNat l).toInt
      | .imm i => i.toInt
    let gives := fun (i : Instr) (f : Nat → Word × Byte) =>
      LaneGoes s g p h (exec i s) 5 [vd.toNat] [] (fun l => (f l).2) (fun g' =>
        ∀ l, ActsIn s g p h l → vWord g' (s.clock + 5) vd.toNat l = (f l).1)
    gives (.fadd h m vd va b) (fun l => f32Add fl m (x l) (y l)) ∧
    gives (.fsub h m vd va b) (fun l => f32Sub2 fl m (x l) (y l)) ∧
    gives (.fmul h m vd va b) (fun l => f32Mul fl m (x l) (y l)) ∧
    gives (.ffma h m vd va b vc) (fun l => f32Fma fl m (x l) (y l) (vWord g s.clock vc.toNat l)) ∧
    gives (.fmin h vd va b) (fun l => f32Min fl (x l) (y l)) ∧ gives (.fmax h vd va b) (fun l => f32Max fl (x l) (y l)) ∧
    gives (.fabs h vd va) (fun l => ((x l) &&& 0x7FFFFFFF, 0)) ∧ gives (.fneg h vd va) (fun l => ((x l) ^^^ 0x80000000, 0)) ∧
    gives (.fclass h vd va) (fun l => (1 <<< refClass (x l), 0)) ∧
    gives (.fscale h m vd va b) (fun l => f32Scale fl m (x l) (n l)) ∧
    gives (.frnd h m vd va) (fun l => f32Rnd fl m (x l)) ∧
    gives (.fdiv h m vd va b) (fun l => f32Div fl m (x l) (y l)) ∧ gives (.fsqrt h m vd va) (fun l => f32Sqrt fl m (x l))

/-- R190 to R192: the packed 16-bit instructions and `CVT` complete five clocks after their beat, each element by itself; R136 to R138, R142,
R143: a conversion to a float gives the neighbour of the source's value that the mode names, with underflow and inexact where it differs,
and what R142 lists for NaNs, infinities and values out of range; one to an integer type the rounded or reduced number, or the limit that
it saturates to; a flushing kernel reads and writes FP32 subnormals as zeros.
Rests on the model's choices of assumptions 12, 61. -/
def Obligations.LanePackedAndConversions : Prop :=
  ∀ (s : State) (g : Group) (p : Path) (h : LaneHdr) (m : Rnd) (bf sat : Bool) (dt sy : ElemTy) (vd va vc : VReg) (b : VSrc),
    s.At g p → g.Clean →
    let f := if bf then fmtBf16 else fmtF16
    let lo := fun (w : Word) => valOf f (w.toNat % 2 ^ 16)
    let hi := fun (w : Word) => valOf f (w.toNat / 2 ^ 16)
    let x := fun (l : Nat) => vWord g s.clock va.toNat l
    let y := fun (l : Nat) => match b with
      | .reg v => vWord g s.clock v.toNat l
      | .imm i => i.setWidth 16 ++ (i.setWidth 16 : BitVec 16)
    let z := fun (l : Nat) => vWord g s.clock vc.toNat l
    let gives := fun (i : Instr) (op : (Word → Val) → Nat → Val × Byte) =>
      LaneGoes s g p h (exec i s) 5 [vd.toNat] []
        (fun l => (op lo l).2 ||| (writeVal f m (op lo l).1).2 ||| ((op hi l).2 ||| (writeVal f m (op hi l).1).2))
        (fun g' => ∀ l, ActsIn s g p h l → (vWord g' (s.clock + 5) vd.toNat l).toNat =
          (writeVal f m (op lo l).1).1 + 2 ^ 16 * (writeVal f m (op hi l).1).1)
    let ty := fun (w : Bool) => if w then IntTy.z64 else IntTy.z32
    let c := fun (l : Nat) => cvtEl (flushOf (kernOf s g)) m sat dt sy (vOperand g s.clock l (ty sy.wide) va % 2 ^ elBits sy)
    gives (.h2add h m bf vd va b) (fun el l => valAdd m (el (x l)) (el (y l))) ∧
    gives (.h2mul h m bf vd va b) (fun el l => valMul (el (x l)) (el (y l))) ∧
    gives (.h2fma h m bf vd va b vc) (fun el l => valFma m (el (x l)) (el (y l)) (el (z l))) ∧
    LaneGoes s g p h (exec (.cvt h m sat dt sy vd va) s) 5 (vSpan vd (ty dt.wide).span) [] (fun l => (c l).2)
      (fun g' => ∀ l, ActsIn s g p h l → vOperand g' (s.clock + 5) l (ty dt.wide) vd = (c l).1) ∧
    (∀ k x, x < 2 ^ elBits sy →
      let r := cvtEl false m sat dt sy x
      let q := cvtEl false m sat dt sy (if sy = .f32 then refFlush x else x)
      let sub := dt = .f32 ∧ q.1 / 2 ^ 23 % 256 = 0 ∧ q.1 % 2 ^ 31 ≠ 0
      cvtEl true m sat dt sy x = (if sub then (q.1 / 2 ^ 31 * 2 ^ 31, q.2 ||| 0x18) else q) ∧
      let neg := fun (n : Bool) (c : Nat) => if n then c + 2 ^ (elBits dt - 1) else c
      let eight := dt = .e4m3 ∨ dt = .e5m2 ∨ dt = .e2m1
      (elInt dt = none →
        (∀ sg, refNanCode sy sg x → r = (refCanonNan dt, if sg = true ∨ eight then 0x01 else 0)) ∧
        (∀ n, refInf sy n x → r =
          if dt = .e2m1 ∨ (sat = true ∧ eight) then (neg n (refTops dt).2, 0x40)
          else if dt = .e4m3 then (0x7F, 0x01) else (neg n (refTops dt).1, 0)) ∧
        (∀ v : Rat, (refVal sy x = some v ∨ ∃ w, elInt sy = some w ∧ v = intVal w.1 w.2 x) →
          (refFits dt m v → RoundsTo dt m v r.1 ∧ ∀ f y, refFields dt = some f → refVal dt r.1 = some y → r.2 =
            if y = v then 0 else if |v| * 2 ^ f.2.2 < 2 then 0x18 else 0x10) ∧
          (refOver dt m v → r =
            if dt = .e2m1 ∨ (sat = true ∧ eight) then (neg (decide (v < 0)) (refTops dt).2, 0x50)
            else if m = .rne ∨ (m = .rp ∧ 0 < v) ∨ (m = .rm ∧ v < 0) then
              (if dt = .e4m3 then 0x7F else neg (decide (v < 0)) (refTops dt).1, 0x14)
            else (neg (decide (v < 0)) (refTops dt).2, 0x14)))) ∧
      (∀ w sd, elInt dt = some (w, sd) →
        let low : Int := if sd = true then -2 ^ (w - 1) else 0
        let high : Int := if sd = true then 2 ^ (w - 1) - 1 else 2 ^ w - 1
        let bits := fun (n : Int) => (n % 2 ^ w).toNat
        (∀ sg, refNanCode sy sg x → r = (0, 0x01)) ∧ (∀ n, refInf sy n x → r = (bits (if n then low else high), 0x01)) ∧
        (∀ v : Rat, refVal sy x = some v → RoundsInt m v k → r =
          if k < low then (bits low, 0x01) else if high < k then (bits high, 0x01) else (bits k, if (k : Rat) = v then 0 else 0x10)) ∧
        (∀ y, elInt sy = some y → intVal y.1 y.2 x = k → r =
          if sat = false then (bits k, 0) else if k < low then (bits low, 0x40) else if high < k then (bits high, 0x40) else (bits k, 0))))

/-- R139: an arithmetic result that is a NaN is the canonical NaN, and a signalling operand raises `invalid`; R136: under nearest even without flush, a finite sum or product is a nearest finite word to the exact one. -/
def Obligations.FloatValues : Prop :=
  (
    ∀ (fl : Bool) (m : Rnd) (x y z : Word),
      let nan := fun (w : Word) => 0x7F800000 < w.toNat % 2 ^ 31
      let sig := fun (w : Word) => 0x7F800000 < w.toNat % 2 ^ 31 ∧ w.toNat % 2 ^ 23 < 2 ^ 22
      let ok := fun (r : Word × Byte) => nan r.1 → r.1 = 0x7FC00000
      let quiet := fun (r : Word × Byte) => (nan x ∨ nan y → r.1 = 0x7FC00000) ∧ (sig x ∨ sig y → r.2.getLsbD 0 = true)
      ok (f32Add fl m x y) ∧ ok (f32Sub2 fl m x y) ∧ ok (f32Mul fl m x y) ∧ ok (f32Fma fl m x y z) ∧ ok (f32Min fl x y) ∧
      ok (f32Max fl x y) ∧ ok (f32Div fl m x y) ∧ ok (f32Sqrt fl m x) ∧ ok (f32Rnd fl m x) ∧ ok (f32Scale fl m x y.toInt) ∧
      quiet (f32Add fl m x y) ∧ quiet (f32Sub2 fl m x y) ∧ quiet (f32Mul fl m x y) ∧ quiet (f32Div fl m x y)) ∧
  (
    ∀ (x y r w : Word) (f : Byte), refFinite x → refFinite y → refFinite w →
      ((f32Add false .rne x y = (r, f) → refFinite r → |refRat r - (refRat x + refRat y)| ≤ |refRat w - (refRat x + refRat y)|) ∧
       (f32Mul false .rne x y = (r, f) → refFinite r → |refRat r - refRat x * refRat y| ≤ |refRat w - refRat x * refRat y|)))

/-! ### Memory instructions -/

/-- R161, R162, R214: a scalar load, store or argument read whose address is aligned, canonical and mapped for the access completes its issue for every
register and offset: its request is outstanding, a store's data is read when it issues, and the path goes on to the next word; R161, R162, R206,
R207, R215, R337: where a check fails, in their order: an argument read beyond the block and a misaligned address trap, an address that is not canonical
or whose translation faults ends the team or suspends the group by the fault's class, and a page that no TLB holds queues its walk, the
group waiting for it at the instruction. -/
def Obligations.ScalarMemory : Prop :=
  (
    ∀ (s : State) (g : Group) (p : Path) (d a : SReg) (off : BitVec 14) (pa : Nat), s.At g p →
      let ea := (((sRead g p (a + 1)).toNat * 2 ^ 32 + (sRead g p a).toNat + (off.signExtend 64).toNat) % 2 ^ 64)
      let arg := ((((launchOf s g).map (fun l => l.argAddr)).getD 0 + off.toNat) % 2 ^ 64)
      let ok := fun (va n : Nat) (acc : Acc) => va % n = 0 ∧ refCanonical va ∧ translate s g va acc = .ok pa
      let issues := fun (i : Instr) (va : Nat) (k : ReqKind) =>
        Issues s g p (exec i s) none 15 k p.spc (BitVec.ofNat 64 va) (scalarNext p)
      (ok ea 4 .read → issues (.sld d a off) ea (.sload d false (.phys pa))) ∧
      (ok ea 8 .read → issues (.sldZ64 d a off) ea (.sload d true (.phys pa))) ∧
      (ok ea 4 .write → issues (.sst d a off) ea (.sstore false (.phys pa) (sRead g p d).toNat)) ∧
      (ok ea 8 .write → issues (.sstZ64 d a off) ea
        (.sstore true (.phys pa) ((sRead g p d).toNat + 2 ^ 32 * (sRead g p (d + 1)).toNat))) ∧
      (off.toNat + 4 ≤ (kernOf s g).args → ok arg 4 .read → issues (.sarg d off) arg (.sload d false (.phys pa))) ∧
      (off.toNat + 8 ≤ (kernOf s g).args → ok arg 8 .read → issues (.sargZ64 d off) arg (.sload d true (.phys pa)))) ∧
  (
    ∀ (s : State) (g : Group) (p : Path) (d a : SReg) (off : BitVec 14), s.At g p →
      let ea := (((sRead g p (a + 1)).toNat * 2 ^ 32 + (sRead g p a).toNat + (off.signExtend 64).toNat) % 2 ^ 64)
      let arg := ((((launchOf s g).map (fun l => l.argAddr)).getD 0 + off.toNat) % 2 ^ 64)
      let checks := fun (i : Instr) (va n : Nat) (acc : Acc) =>
        let lo := BitVec.ofNat 32 va
        let hi := BitVec.ofNat 32 (va / 2 ^ 32)
        (va % n ≠ 0 → Traps s g p (exec i s) 0 0x03 lo hi p.spc p.lpc) ∧
        (va % n = 0 → ¬refCanonical va → Ends s g (exec i s) 0 0x46 lo hi p.spc p.lpc) ∧
        (∀ c, va % n = 0 → refCanonical va → translate s g va acc = .bad c →
          (0x33 ≤ c → c < 0x60 → Ends s g (exec i s) 0 c lo hi p.spc p.lpc) ∧
          (0x60 ≤ c → Suspends s g p (exec i s) 1 0 c lo hi p.spc p.lpc)) ∧
        (va % n = 0 → refCanonical va → translate s g va acc = .miss → ∃ t g' p', exec i s = .next t ∧ t.At g' p' ∧
          { g' with susp := g.susp, paths := g.paths } = g ∧ g'.susp = .walk ∧ { p' with sig := p.sig } = p ∧ OtherPaths p g g' ∧
          ((stackOf s (g.core / 16)).walks.length < 256 → (stackOf t (g.core / 16)).walks = (stackOf s (g.core / 16)).walks ++
            [{ pasid := pasidOf s g, vpn := va / 4096, core := g.core, grp := s.cur }]) ∧
          { t with groups := s.groups, stks := s.stks } = s ∧ SameBytes s t)
      checks (.sld d a off) ea 4 .read ∧ checks (.sldZ64 d a off) ea 8 .read ∧
      checks (.sst d a off) ea 4 .write ∧ checks (.sstZ64 d a off) ea 8 .write ∧
      (off.toNat + 4 ≤ (kernOf s g).args → checks (.sarg d off) arg 4 .read) ∧
      (off.toNat + 8 ≤ (kernOf s g).args → checks (.sargZ64 d off) arg 8 .read) ∧
      ((kernOf s g).args < off.toNat + 4 → Traps s g p (exec (.sarg d off) s) 0 0x06 (BitVec.ofNat 32 off.toNat)
        (BitVec.ofNat 32 (off.toNat / 2 ^ 32)) p.spc p.lpc) ∧
      ((kernOf s g).args < off.toNat + 8 → Traps s g p (exec (.sargZ64 d off) s) 0 0x06 (BitVec.ofNat 32 off.toNat)
        (BitVec.ofNat 32 (off.toNat / 2 ^ 32)) p.spc p.lpc))

/-- R204, R214, R216, R217, R220: a load, store, atomic or reduction over lanes that all pass their checks issues one request that
holds each acting lane's units with the data read at issue; it is counted on the path of its class and space; R202, R214, R215: the first check that some acting lane of a load or store fails traps with its lowest such lane, and nothing is
performed: the range of a scratchpad space, then the alignment.
Rests on the model's choices of assumption 52. -/
def Obligations.LaneMemory : Prop :=
  (
    ∀ (s : State) (g : Group) (p : Path) (h : LaneHdr) (t : IntTy) (at_ : AtomTy) (op : AtomOp) (w : Atomicity) (spa : Space) (rel : Bool)
      (ord : Ord4) (sc : Scope) (b : MBase) (i : MIdx) (o12 : BitVec 12) (o8 : BitVec 8) (vd vc : VReg) (place : Nat → Loc),
      s.At g p → g.Clean → refActing s g p h ≠ [] →
      let addr := fun (off : Dword) (l : Nat) => refAddr g p s.clock l b i off
      let ok := fun (ty : AtomTy) (off : Dword) (acc : Acc) => ∀ l, ActsIn s g p h l →
        addr off l % accBytes ty w = 0 ∧ PlaceOf s g spa acc (addr off l) (place l)
      let units := fun (ty : AtomTy) (off : Dword) (data new : Nat → Nat) => (refActing s g p h).flatMap (fun l =>
        (unitsOf (accBytes ty w) w).map (fun u =>
          ({ lane := l, reg := u.2.2, n := u.2.1, loc := locAdd (place l) u.1, va := if spa = .glob then addr off l else 0,
             data := data l / 256 ^ u.1 % 256 ^ u.2.1, new := new l / 256 ^ u.1 % 256 ^ u.2.1 } : LaneAcc)))
      let words := fun (ty : AtomTy) (v : Nat) (l : Nat) => laneData g s.clock v (ty.span w) l
      let count := fun (k : KPath) => some (if spa = .glob then k else .spad)
      let issues := fun (ins : Instr) (k : KPath) (kind : ReqKind) =>
        Issues s g p (exec ins s) (count k) h.setf kind p.lpc 0 (laneNext s h p)
      let none_ := fun (_ : Nat) => 0
      (ok (.int t) (o12.signExtend 64) .read → issues (.ld h t spa rel sc w b i o12 vd) .l1
        (.mem .ld .add (.int t) w (if rel then .acq else .plain) sc vd (units (.int t) (o12.signExtend 64) none_ none_))) ∧
      (ok (.int t) (o12.signExtend 64) .write → issues (.st h t spa rel sc w b i o12 vc) .st
        (.mem .st .add (.int t) w (if rel then .rel else .plain) sc 0
          (units (.int t) (o12.signExtend 64) (words (.int t) vc.toNat) none_))) ∧
      (ok at_ (o8.signExtend 64) .write → issues (.atom h op at_ spa ord sc w b i o8 vd vc) .col
        (.mem .atom op at_ w ord sc vd (units at_ (o8.signExtend 64) (words at_ vc.toNat)
          (if op = .cas then words at_ (vc.toNat + at_.span w) else none_)))) ∧
      (ok at_ (o8.signExtend 64) .write → issues (.red h op at_ spa rel sc w b i o8 vc) .st
        (.mem .red op at_ w (if rel then .rel else .plain) sc 0 (units at_ (o8.signExtend 64) (words at_ vc.toNat)
          (if op = .cas then words at_ (vc.toNat + at_.span w) else none_))))) ∧
  (
    ∀ (s : State) (g : Group) (p : Path) (h : LaneHdr) (t : IntTy) (w : Atomicity) (spa : Space) (sc : Scope) (rel : Bool) (b : MBase)
      (i : MIdx) (off : BitVec 12) (v : VReg) (l : Nat), s.At g p → g.Clean → ActsIn s g p h l →
      let a := fun (k : Nat) => refAddr g p s.clock k b i (off.signExtend 64)
      let limit := if spa = .sp then (kernOf s g).spad else windowSize (kernOf s g)
      let code := if spa = .sp then 0x04 else 0x05
      (spa ≠ .glob → limit ≤ a l → (∀ k < l, ActsIn s g p h k → a k < limit) →
        Traps s g p (exec (.ld h t spa rel sc w b i off v) s) 1 code (BitVec.ofNat 32 (a l)) (BitVec.ofNat 32 l) p.spc p.lpc ∧
        Traps s g p (exec (.st h t spa rel sc w b i off v) s) 1 code (BitVec.ofNat 32 (a l)) (BitVec.ofNat 32 l) p.spc p.lpc) ∧
      ((spa = .glob ∨ ∀ k, ActsIn s g p h k → a k < limit) → a l % accBytes (.int t) w ≠ 0 →
        (∀ k < l, ActsIn s g p h k → a k % accBytes (.int t) w = 0) →
        Traps s g p (exec (.ld h t spa rel sc w b i off v) s) 1 0x03 (BitVec.ofNat 32 (a l)) (BitVec.ofNat 32 (a l / 2 ^ 32)) p.spc p.lpc ∧
        Traps s g p (exec (.st h t spa rel sc w b i off v) s) 1 0x03 (BitVec.ofNat 32 (a l)) (BitVec.ofNat 32 (a l / 2 ^ 32)) p.spc p.lpc))

/-- R223 to R226: a fence, a clean, an invalidate, a prefetch and a line lock leave a request outstanding; an invalidate drops its
clean words when it issues.
Rests on the model's choices of assumptions 59, 60, 92. -/
def Obligations.CacheControlIssues : Prop :=
  ∀ (s : State) (g : Group) (p : Path) (h : LaneHdr) (sc : Scope) (b : MBase) (i : MIdx) (off : BitVec 12), s.At g p → g.Clean →
    Issues s g p (exec (.fence h sc) s) none h.setf (.fence sc) p.lpc 0 (laneNext s h p) ∧
    Issues s g p (exec (.cln h sc) s) (some .col) h.setf (.cln sc) p.lpc 0 (laneNext s h p) ∧
    Issues (invalScope s g sc) g p (exec (.inv h sc) s) (some .col) h.setf (.inv sc) p.lpc 0 (laneNext s h p) ∧
    (∀ pa, refActing s g p h ≠ [] → (∀ l, ActsIn s g p h l → refCanonical (refAddr g p s.clock l b i (off.signExtend 64)) ∧
        (translate s g (refAddr g p s.clock l b i (off.signExtend 64)) .read = .ok pa ∨
          translate s g (refAddr g p s.clock l b i (off.signExtend 64)) .read = .miss ∧
            translateNow s (g.core / 16) (pasidOf s g) (refAddr g p s.clock l b i (off.signExtend 64)) .read = .ok pa)) →
      Issues s g p (exec (.pref h b i off) s) none h.setf (.pref [pa / 128]) p.lpc 0 (laneNext s h p)) ∧
    (∀ pa, refActing s g p h ≠ [] → (∀ l, ActsIn s g p h l → refCanonical (refAddr g p s.clock l b i (off.signExtend 64)) ∧
        translate s g (refAddr g p s.clock l b i (off.signExtend 64)) .read = .ok pa) →
      let c := serveCore s g (128 * (pa / 128))
      ((coreOf s c).locks.length < 8 → (coreOf s c).units < 32 → ∃ t g' p', exec (.lkln h b i off) s = .next t ∧ t.At g' p' ∧
        PastLane s h p p' ∧ (∃ r ∈ g'.reqs, r.kind = .lock true [pa / 128]) ∧
        (∀ tm, teamOf s g = some tm → bitN (tabGet 0 (coreOf t c).locks (pa / 128)) (4 * tm.core + tm.slot) = true) ∧
        ((setLines (coreOf s c) (pa / 128)).length < 16 → SameBytes s t)) ∧
      (tabSorted (coreOf s c).locks = true → ∃ t g' p', exec (.ulln h b i off) s = .next t ∧ t.At g' p' ∧ PastLane s h p p' ∧
        (∃ r ∈ g'.reqs, r.kind = .lock false [pa / 128]) ∧
        (∀ tm, teamOf s g = some tm → bitN (tabGet 0 (coreOf t c).locks (pa / 128)) (4 * tm.core + tm.slot) = false) ∧ SameBytes s t))

/-! ### Divergence -/

/-- R9, R118, R119, R128: a `BRD` whose active lanes agree goes on or branches as one; one whose lanes differ, and that may not
eject, gives the taken lanes a path of their own while its slot and an entry are free, and else stacks them, over a reconvergence entry of
its own unless one of its tag is on top, the path itself going on with the lanes not taken; a push beyond 64 entries traps; one that may
eject holds the path until the pool has decided; R129: `JMPV` and `CALLV` whose active lanes agree on a target go there as one; where they
differ, the path takes the lowest target and every other becomes a path bound to the slot, or, where the slot was not free or no entry is,
waits on the stack in ascending order; `CALLV` puts the address after it in `s60`, and with no active lane both only go on.
Rests on the model's choices of assumption 64. -/
def Obligations.DivergentBranches : Prop :=
  (
    ∀ (s : State) (g : Group) (p : Path) (n : PReg) (neg : Bool) (t : BitVec 2) (live : BitVec 6) (off : BitVec 14) (tk nt : Mask),
      s.At g p →
      (∀ l < 96, tk.getLsbD l = (p.mask.getLsbD l && p.owned.getLsbD l && !g.dead.getLsbD l && (pRead g s.clock n.toNat l != neg))) →
      (∀ l < 96, nt.getLsbD l = (p.mask.getLsbD l && p.owned.getLsbD l && !g.dead.getLsbD l && (pRead g s.clock n.toNat l == neg))) →
      let r := exec (.brd n neg t live off) s
      let tgt := p.spc + 4 * off.signExtend 32
      let allowed := ejectAllowed s g p t (if maskCount tk ≤ maskCount nt then tk else nt) live
      let tags := p.tags ||| (1#4 <<< t.toNat)
      (tk = 0 → GoesTo s g p r g { p with spc := p.spc + 4 }) ∧
      (tk ≠ 0 → nt = 0 → GoesTo s g p r g { p with spc := tgt }) ∧
      (tk ≠ 0 → nt ≠ 0 → allowed = true → r = .next (keep s g { p with hold := .eject tk nt t live off, askAt := s.clock, askWord := s.ir })) ∧
      (tk ≠ 0 → nt ≠ 0 → allowed = false → slotFree g t = true → g.handler = none → ∀ i, freeEntry g = some i →
        ∃ u g' p' q, r = .next u ∧ u.At g' p' ∧ OnlyGroup s u ∧ { g' with paths := g.paths } = g ∧
          { p' with sig := p.sig } =
            { p with mask := nt, owned := p.owned &&& ~~~ tk, tags := tags, spc := p.spc + 4, hold := .free } ∧
          findPath g' i = some q ∧ { q with sig := 0 } = { pathNew i tgt p.lpc tk with tags := tags } ∧
          (∀ k, k ≠ p.id → k ≠ i → findPath g' k = findPath g k)) ∧
      (tk ≠ 0 → nt ≠ 0 → allowed = false → slotFree g t = false ∨ g.handler.isSome ∨ freeEntry g = none →
        stackUsed g + 2 ≤ 64 → (∀ m u rest, p.stack = .reconv m u :: rest → u ≠ t) →
        ∃ x, GoesTo s g p r g
          { p with mask := nt, spc := p.spc + 4, hold := .free,
                   stack := .pending tgt p.lpc tk t x :: .reconv p.mask t :: p.stack }) ∧
      (tk ≠ 0 → nt ≠ 0 → allowed = false → slotFree g t = false ∨ g.handler.isSome ∨ freeEntry g = none →
        stackUsed g + 1 ≤ 64 → ∀ m rest, p.stack = .reconv m t :: rest →
        ∃ x, GoesTo s g p r g
          { p with mask := nt, spc := p.spc + 4, hold := .free, stack := .pending tgt p.lpc tk t x :: p.stack }) ∧
      (tk ≠ 0 → nt ≠ 0 → allowed = false → slotFree g t = false ∨ freeEntry g = none →
        64 < stackUsed g + 1 ∨ (64 < stackUsed g + 2 ∧ ∀ m u rest, p.stack = .reconv m u :: rest → u ≠ t) →
        Traps s g p r 0 0x18 (t.setWidth 32) 0 p.spc p.lpc)) ∧
  (
    ∀ (s : State) (g : Group) (p : Path) (t : BitVec 2) (v : VReg), s.At g p → g.RegsOk → g.Clean →
      let act := fun (l : Nat) => l < 96 ∧ p.mask.getLsbD l = true ∧ p.owned.getLsbD l = true ∧ g.dead.getLsbD l = false
      let tgt := fun (l : Nat) => (vRead g s.clock (vKey v.toNat l)).1
      let lanes := (List.range 96).filter (fun l => decide (act l))
      let d := ((lanes.map tgt).dedup).length
      let tags := p.tags ||| (1#4 <<< t.toNat)
      let regs := fun (link : Bool) (g' : Group) (p' : Path) =>
        ∀ r : SReg, r.toNat < 61 → sRead g' p' r = if link = true ∧ r = 60 then p.spc + 4 else sRead g p r
      let low := fun (pc : Word) => (∃ l, act l ∧ tgt l = pc) ∧ ∀ l, act l → pc.toNat ≤ (tgt l).toNat
      let takes := fun (m : Mask) (pc : Word) => ∀ l < 96, m.getLsbD l = true ↔ act l ∧ tgt l = pc
      (lanes = [] → GoesTo s g p (exec (.jmpv t v) s) g { p with spc := p.spc + 4 } ∧
        GoesTo s g p (exec (.callv t v) s) g { p with spc := p.spc + 4 }) ∧
      (∀ pc, lanes ≠ [] → (∀ l, act l → tgt l = pc) →
        GoesTo s g p (exec (.jmpv t v) s) g { p with spc := pc } ∧
        ∃ u g' p', exec (.callv t v) s = .next u ∧ u.At g' p' ∧ p'.spc = pc ∧
          (∀ r, sRead g' p' r = if r = 60 then p.spc + 4 else sRead g p r) ∧ ScalarFrame s u g g' p p') ∧
      (∀ (link : Bool) (pc : Word), low pc → 2 ≤ d → slotFree g t = true → g.handler = none → (g.paths.map (fun q => q.id)).Nodup →
        (∀ q ∈ g.paths, q.id < 8) → g.paths.length + d ≤ 9 →
        ∃ u g' p', exec (if link then .callv t v else .jmpv t v) s = .next u ∧ u.At g' p' ∧ OnlyGroup s u ∧ regs link g' p' ∧
          p'.spc = pc ∧ takes p'.mask pc ∧ p'.tags = tags ∧ p'.stack = p.stack ∧
          (∀ q, q ∈ g.paths → q.id ≠ p.id → findPath g' q.id = findPath g q.id) ∧
          ∀ l, act l → tgt l ≠ pc → ∃ q ∈ g'.paths, q.id ≠ p.id ∧ q.spc = tgt l ∧ q.lpc = p.lpc ∧ takes q.mask (tgt l) ∧
            takes q.owned (tgt l) ∧ q.tags = tags ∧ q.stack = []) ∧
      (∀ (link : Bool) (pc : Word), low pc → 2 ≤ d → slotFree g t = false ∨ g.handler.isSome ∨ freeEntry g = none →
        stackUsed g + d ≤ 64 →
        ∃ u g' p' es m, exec (if link then .callv t v else .jmpv t v) s = .next u ∧ u.At g' p' ∧ OnlyGroup s u ∧ regs link g' p' ∧
          p'.spc = pc ∧ takes p'.mask pc ∧ p'.owned = p.owned ∧ p'.tags = tags ∧ OtherPaths p g g' ∧
          p'.stack = (es : List (Word × Mask)).map (fun e => .pending e.1 p.lpc e.2 t p'.sig) ++ .reconv m t :: p.stack ∧
          (∀ l < 96, (m : Mask).getLsbD l = true ↔ act l) ∧ (es.map (fun e => e.1.toNat)).Pairwise (· < ·) ∧
          (∀ e ∈ es, e.1 ≠ pc ∧ takes e.2 e.1 ∧ ∃ l, act l ∧ tgt l = e.1) ∧ ∀ l, act l → tgt l ≠ pc → ∃ e ∈ es, e.1 = tgt l) ∧
      (∀ link : Bool, 2 ≤ d → slotFree g t = false ∨ freeEntry g = none → 64 < stackUsed g + d →
        Traps s g p (exec (if link then .callv t v else .jmpv t v) s) 0 0x18 (t.setWidth 32) 0 p.spc p.lpc))

/-- R119, R121, R122: a granted ejection gives every lane of the smaller side a Garnet context of its own that serves it, with the lane's
registers of the live set, its predicates, the group's scalar registers and a free place of its own; the path goes on without those lanes, and the
slot holds them; R122 to R124: recalling a context that has to be recalled and has no access outstanding completes: the lane's live registers that the
context wrote, its predicates and its sticky flags go back to the group, the context is freed, the lane leaves the slot, and it goes on in a path, or
waits in a recall entry, at the context's own place; no other lane's registers change.
Rests on the model's choices of assumption 12. -/
def Obligations.EjectionAndRecall : Prop :=
  (
    ∀ (s : State) (gid : Nat) (g : Group) (p : Path) (tk nt : Mask) (t : BitVec 2) (live : BitVec 6) (off : BitVec 14) (l : BitVec 384),
      tabFind s.groups gid = some g → findPath g p.id = some p → p.hold = .eject tk nt t live off → liveSet s g live = some l →
      gid < s.fresh → g.slots.length = 4 → g.RegsOk → askedBefore s g p = false →
      let small := maskCount tk ≤ maskCount nt
      let m := if small then tk else nt
      poolUsed s (g.core / 16) + maskCount m ≤ 128 →
      ∃ (u : State) (g' : Group) (p' : Path) (num : Nat → Nat) (ctx : Nat → Group),
        exec (.ejectionDecision gid p.id) s = .next u ∧ tabFind u.groups gid = some g' ∧ findPath g' p.id = some p' ∧
        { p' with sig := p.sig } = { p with
          mask := p.mask &&& ~~~ m, owned := p.owned &&& ~~~ m, tags := p.tags ||| (1#4 <<< t.toNat),
          spc := if small then p.spc + 4 else p.spc + 4 * off.signExtend 32, hold := .free } ∧
        (slotAt g' t.toNat).rjm = (slotAt g t.toNat).rjm ||| m ∧ OtherPaths p g g' ∧
        { g' with paths := g.paths, slots := g.slots } = g ∧
        { u with groups := s.groups, fresh := s.fresh, ir := s.ir } = s ∧
        (∀ k, k < s.fresh → k ≠ gid → tabFind u.groups k = tabFind s.groups k) ∧
        (∀ a < 96, ∀ b < 96, m.getLsbD a = true → m.getLsbD b = true → a ≠ b → num a ≠ num b ∧ (ctx a).place ≠ (ctx b).place) ∧
        ∀ lane < 96, m.getLsbD lane = true → s.fresh ≤ num lane ∧ num lane < u.fresh ∧ tabFind u.groups (num lane) = some (ctx lane) ∧
          (ctx lane).garnet.map (fun i => (i.parent, i.lane, i.tag, i.live)) = some (gid, lane, t, l) ∧
          (ctx lane).place < 128 ∧ (ctx lane).core = g.core ∧ (ctx lane).sreg = g.sreg ∧ (ctx lane).reqs = [] ∧ (ctx lane).pend = [] ∧
          (∀ e ∈ s.groups, e.2.garnet.isSome = true → e.2.core / 16 = g.core / 16 → e.2.place ≠ (ctx lane).place) ∧
          (∀ v, l.getLsbD v = true → tabFind (ctx lane).vreg (vKey v lane) = tabFind g.vreg (vKey v lane)) ∧
          (∀ n, (tabGet 0 (ctx lane).pred n).getLsbD lane = (tabGet 0 g.pred n).getLsbD lane) ∧
          ∃ q, (ctx lane).paths = [q] ∧ q.spc = (if small then p.spc + 4 * off.signExtend 32 else p.spc + 4) ∧ q.lpc = p.lpc ∧
            q.mask = laneBit lane ∧ q.owned = laneBit lane ∧ q.queue = [] ∧ q.running = false) ∧
  (
    ∀ (s : State) (k : Nat) (c : Group) (i : Garnet) (p : Path) (g : Group), tabFind s.groups k = some c → c.garnet = some i →
      c.paths = [p] → tabFind s.groups i.parent = some g → i.parent ≠ k → tabSorted s.groups = true → g.slots.length = 4 →
      g.RegsOk → i.lane < 96 → c.reqs = [] → g.due = [] → g.handler = none → needsRecall s c i = true →
      let x := landAll c (s.clock + 64)
      ∃ t g', exec (.laneRecall k) s = .next t ∧ tabFind t.groups k = none ∧ tabFind t.groups i.parent = some g' ∧
        (slotAt g' i.tag.toNat).rjm = (slotAt g i.tag.toNat).rjm &&& ~~~ laneBit i.lane ∧
        ((∃ q ∈ g'.paths, q.mask &&& laneBit i.lane = laneBit i.lane ∧ q.spc = p.spc ∧ q.lpc = p.lpc) ∨
          ∃ e ∈ g'.recalls, e.mask &&& laneBit i.lane = laneBit i.lane ∧ e.spc = p.spc ∧ e.lpc = p.lpc) ∧
        (∀ v l, l < 96 → tabGet 0 g'.vreg (vKey v l) =
          if l = i.lane ∧ v < 384 ∧ i.live.getLsbD v = true ∧ i.written.getLsbD v = true then tabGet 0 x.vreg (vKey v l)
          else tabGet 0 g.vreg (vKey v l)) ∧
        (∀ n l, (tabGet 0 g'.pred n).getLsbD l =
          if l = i.lane ∧ 1 ≤ n ∧ n ≤ 7 then (tabGet 0 x.pred n).getLsbD l else (tabGet 0 g.pred n).getLsbD l) ∧
        g'.sreg = g.sreg ∧ g'.pend = g.pend ∧ g'.reqs = g.reqs ∧ g'.flags = g.flags ∧ g'.fpflags = g.fpflags ||| x.fpflags ∧
        (∀ j, j ≠ k → j ≠ i.parent → tabFind t.groups j = tabFind s.groups j) ∧ { t with groups := s.groups } = s)

/-- R126, R127: `RJOIN` outside its slot only goes on; over a pending side of its tag it turns to that side; over a path with which no
other is bound to the slot and whose lanes are all back it leaves the slot with them; while others are bound it waits; R127: a rejoin timer that has run out over lanes that do not fit the split table makes the waiting path take `rejoin_overdue`,
with the slot and the number of late lanes, at its `RJOIN`; one whose lanes fit recalls each of them to a path or a recall entry at its
context's place, and the path goes on waiting; R122, R126, R160: a Garnet context at `RJOIN` of its own tag gives its lane back with its live registers, its
predicates and its sticky flags and is freed, while one with another tag only goes on; lanes returned to a slot that no path is bound to form one.
Rests on the model's choices of assumption 101. -/
def Obligations.Rejoining : Prop :=
  (
    ∀ (s : State) (g : Group) (p : Path) (t : BitVec 2), s.At g p → g.garnet = none → g.recalls = [] → g.slots.length = 4 →
      let r := exec (.rjoin t) s
      let bit := 1#4 <<< t.toNat
      let x := slotAt g t.toNat
      (p.stack = [] → p.tags &&& bit = 0 → GoesTo s g p r g { p with spc := p.spc + 4, hold := .free }) ∧
      (∀ pc lpc m sig rest, p.stack = .pending pc lpc m t sig :: rest →
        GoesTo s g p r g { p with mask := m, spc := pc, lpc := lpc, stack := rest, hold := .free }) ∧
      (p.stack = [] → p.tags &&& bit ≠ 0 → (∀ q ∈ g.paths, q.id ≠ p.id → q.tags &&& bit = 0) → x.rjm = 0 →
        g.due = [] → (∀ k, k ≠ t.toNat → (slotAt g k).returned = 0) →
        ∃ u g' p', r = .next u ∧ u.At g' p' ∧ OtherPaths p g g' ∧ OnlyGroup s u ∧ { g' with paths := g.paths, slots := g.slots } = g ∧
          { p' with sig := p.sig } = { p with mask := (p.mask &&& p.owned) ||| x.returned, owned := p.owned ||| x.returned,
                                              tags := p.tags &&& ~~~ bit, spc := p.spc + 4, hold := .free } ∧
          (slotAt g' t.toNat).returned = 0) ∧
      (p.stack = [] → p.tags &&& bit ≠ 0 → (∃ q ∈ g.paths, q.id ≠ p.id ∧ q.tags &&& bit ≠ 0) →
        (∀ q ∈ g.paths, q.id ≠ p.id → q.hold ≠ .rjoin t) → g.due = [] → (∀ k, k ≠ t.toNat → (slotAt g k).returned = 0) →
        ∃ u g' p', r = .next u ∧ u.At g' p' ∧ OtherPaths p g g' ∧ OnlyGroup s u ∧ { g' with paths := g.paths, slots := g.slots } = g ∧
          p' = { p with mask := p.mask &&& p.owned, hold := .rjoin t })) ∧
  (
    ∀ (s : State) (gid : Nat) (g : Group) (p : Path) (t : BitVec 2), tabFind s.groups gid = some g →
      g.paths.find? (fun q => q.hold = .rjoin t) = some p → findPath g p.id = some p → g.handler = none → g.garnet = none →
      outOf s g = false → g.susp = .run → g.due = [] → timerRuns g t.toNat = true → (slotAt g t.toNat).timer ≠ 0 →
      (slotAt g t.toNat).timer - 1 + (slotAt g t.toNat).limit ≤ s.clock → g.paths.length ≤ 8 →
      (∀ off, waitsTurn s gid g p.id = false → 8 < g.paths.length + placesNeeded (contextsOf s gid t.toNat) →
        (kernOf s g).trapOff = some off →
        ∃ u g' p', exec (.rejoinTimeout gid t.toNat) s = .next u ∧ tabFind u.groups gid = some g' ∧ findPath g' p.id = some p' ∧
          g'.tcause = 0x19 ∧ g'.tval0 = t.setWidth 32 ∧ g'.tval1 = BitVec.ofNat 32 (maskCount (slotAt g t.toNat).rjm) ∧
          g'.tspc = p.spc ∧ g'.tlpc = p.lpc ∧ p'.spc = BitVec.ofNat 32 off ∧ p'.hold = .free ∧ g'.handler.isSome) ∧
      (g.paths.length + placesNeeded (contextsOf s gid t.toNat) ≤ 8 → tabSorted s.groups = true → g.slots.length = 4 → g.RegsOk →
        (g.paths.map (fun q => q.id)).Nodup → (∀ e ∈ contextsOf s gid t.toNat, e.2.reqs = []) →
        ∃ u g', exec (.rejoinTimeout gid t.toNat) s = .next u ∧ tabFind u.groups gid = some g' ∧ findPath g' p.id = some p ∧
          g'.sreg = g.sreg ∧ g'.handler = none ∧ { u with groups := s.groups } = s ∧
          (∀ k, k ≠ gid → (∀ e ∈ contextsOf s gid t.toNat, e.1 ≠ k) → tabFind u.groups k = tabFind s.groups k) ∧
          ∀ e ∈ contextsOf s gid t.toNat, ∀ i q, e.2.garnet = some i → e.2.paths = [q] → i.lane < 96 →
            tabFind u.groups e.1 = none ∧ (slotAt g' t.toNat).rjm.getLsbD i.lane = false ∧
            ((∃ x ∈ g'.paths, x.mask.getLsbD i.lane = true ∧ x.spc = q.spc ∧ x.lpc = q.lpc) ∨
              ∃ x ∈ g'.recalls, x.mask.getLsbD i.lane = true ∧ x.spc = q.spc ∧ x.lpc = q.lpc))) ∧
  (
    ∀ (s : State) (c : Group) (p : Path) (i : Garnet) (g : Group) (t : BitVec 2), s.At c p → c.garnet = some i → c.reqs = [] →
      tabFind s.groups i.parent = some g → i.parent ≠ s.cur → tabSorted s.groups = true → g.slots.length = 4 → g.RegsOk →
      i.lane < 96 → g.garnet = none →
      let x := landAll c (s.clock + 64)
      let sl := slotAt g i.tag.toNat
      let bit := 1#4 <<< i.tag.toNat
      (t ≠ i.tag → GoesTo s c p (exec (.rjoin t) s) c { p with spc := p.spc + 4 }) ∧
      ((∃ q ∈ g.paths, q.tags &&& bit ≠ 0) →
        ∃ u g', exec (.rjoin i.tag) s = .next u ∧ tabFind u.groups s.cur = none ∧ tabFind u.groups i.parent = some g' ∧
          g'.paths = g.paths ∧ (slotAt g' i.tag.toNat).rjm = sl.rjm &&& ~~~ laneBit i.lane ∧
          (slotAt g' i.tag.toNat).returned = sl.returned ||| laneBit i.lane ∧
          (sl.timer ≠ 0 → g.pausedAt = 0 → (slotAt g' i.tag.toNat).timer = s.clock + 1) ∧
          (∀ v l, l < 96 → tabGet 0 g'.vreg (vKey v l) =
            if l = i.lane ∧ v < 384 ∧ i.live.getLsbD v = true ∧ i.written.getLsbD v = true then tabGet 0 x.vreg (vKey v l)
            else tabGet 0 g.vreg (vKey v l)) ∧
          (∀ n l, (tabGet 0 g'.pred n).getLsbD l =
            if l = i.lane ∧ 1 ≤ n ∧ n ≤ 7 then (tabGet 0 x.pred n).getLsbD l else (tabGet 0 g.pred n).getLsbD l) ∧
          g'.sreg = g.sreg ∧ g'.reqs = g.reqs ∧ g'.flags = g.flags ∧ g'.fpflags = g.fpflags ||| x.fpflags ∧
          (∀ k, k ≠ s.cur → k ≠ i.parent → tabFind u.groups k = tabFind s.groups k) ∧ { u with groups := s.groups } = s) ∧
      ((∀ q ∈ g.paths, q.tags &&& bit = 0) → (∀ e ∈ g.recalls, e.tags &&& bit = 0) → sl.rjm = laneBit i.lane →
        (∃ n, freeEntry g = some n) →
        ∃ u g' q, exec (.rjoin i.tag) s = .next u ∧ tabFind u.groups s.cur = none ∧ tabFind u.groups i.parent = some g' ∧
          q ∈ g'.paths ∧ q.spc = p.spc + 4 ∧ q.lpc = p.lpc ∧ q.mask = sl.returned ||| laneBit i.lane ∧
          q.owned = sl.returned ||| laneBit i.lane ∧ q.tags = (sl.rtags ||| i.tags) &&& ~~~ bit ∧
          (∀ y ∈ g.paths, findPath g' y.id = findPath g y.id) ∧ (slotAt g' i.tag.toNat).returned = 0 ∧
          (slotAt g' i.tag.toNat).rjm = 0))

/-- R32, R71, R159: `LOOPH` goes over the lanes that want an item in ascending order: each takes the oldest item that has not expired, in
eight registers, and an expired item on the way is discarded with its tag; where some lane has got one the path goes on with those lanes, the others
hungry or, with the feed exhausted, done; with no item and the feed not exhausted the path waits; with it exhausted, without items in the
kernel, or with no lane that wants one, it branches with the lanes that are done. -/
def Obligations.ItemLoop : Prop :=
  ∀ (s : State) (g : Group) (p : Path) (off : BitVec 14) (la : Launch) (ln : Nat), s.At g p → g.handler = none →
    launchNo s g = some ln → tabFind s.launches ln = some la → g.pend = [] → tabWf 0 g.vreg = true → la.tags.length ≤ 20 →
    let w := ((p.mask ||| p.hungry) &&& p.owned) &&& ~~~ p.done
    let want := (List.range 96).filter (fun l => w.getLsbD l)
    let all : List Item := (coreOf s g.core).items
    let good : List Item := all.filter (fun i => !expired i s.clock)
    let bad : List Item := all.filter (fun i => expired i s.clock)
    let spent := la.feedEnded || (decide (la.itemCount ≤ la.itemNext) && la.kept.isEmpty)
    let after := fun (f : State → Group → Path → Launch → Prop) =>
      ∃ t g' p' la', exec (.looph off) s = .next t ∧ t.At g' p' ∧ OtherPaths p g g' ∧ tabFind t.launches ln = some la' ∧
        { g' with vreg := g.vreg, vpoison := g.vpoison, paths := g.paths } = g ∧ (∀ a, homeByte t a = homeByte s a) ∧
        la'.delivered + la'.discarded + (coreOf t g.core).items.length = la.delivered + la.discarded + all.length ∧ f t g' p' la'
    let keeps := fun (g' : Group) => ∀ v l, l < 96 → (vRead g' s.clock (vKey v l)).1 = (vRead g s.clock (vKey v l)).1
    let leaves := fun (g' : Group) (p' : Path) => keeps g' ∧ { p' with sig := p.sig } =
      { p with spc := p.spc + 4 * off.signExtend 32, mask := (p.done ||| w) &&& p.owned, hungry := 0, done := 0, hold := .free }
    (la.kern.flags.getLsbD 3 = true → want ≠ [] → good ≠ [] → after (fun t g' p' la' =>
      (∀ l < 96, p'.mask.getLsbD l = true ↔ ∃ k < good.length, want[k]? = some l) ∧
      (∀ l < 96, p'.hungry.getLsbD l = true ↔ spent = false ∧ ∃ k, good.length ≤ k ∧ want[k]? = some l) ∧
      (∀ l < 96, p'.done.getLsbD l = true ↔ p.done.getLsbD l = true ∨ (spent = true ∧ ∃ k, good.length ≤ k ∧ want[k]? = some l)) ∧
      { p' with sig := p.sig, mask := p.mask, hungry := p.hungry, done := p.done } = { p with spc := p.spc + 4, hold := .free } ∧
      (∀ (k l : Nat) (i : Item), want[k]? = some l → good[k]? = some i → ∀ j < 8,
        (vRead g' s.clock (vKey (la.kern.ib + j) l)).1 = (i.words[j]?).getD 0) ∧
      (∀ v l, l < 96 → ¬((∃ k < good.length, want[k]? = some l) ∧ la.kern.ib ≤ v ∧ v < la.kern.ib + 8) →
        (vRead g' s.clock (vKey v l)).1 = (vRead g s.clock (vKey v l)).1) ∧
      la'.delivered = la.delivered + min want.length good.length ∧ (∃ n, (coreOf t g.core).items = all.drop n) ∧
      (coreOf t g.core).items.filter (fun i => !expired i s.clock) = good.drop want.length ∧
      (good.length < want.length → la'.tags = (la.tags ++ bad.map (fun (i : Item) => (i.words[1]?).getD 0)).take 20))) ∧
    (la.kern.flags.getLsbD 3 = true → want ≠ [] → good = [] → spent = false → after (fun t g' p' la' =>
      keeps g' ∧ p' = { p with hold := .looph } ∧ (coreOf t g.core).items = [] ∧ la'.delivered = la.delivered ∧
      la'.tags = (la.tags ++ bad.map (fun (i : Item) => (i.words[1]?).getD 0)).take 20)) ∧
    (la.kern.flags.getLsbD 3 = true → want ≠ [] → good = [] → spent = true → after (fun t g' p' la' =>
      leaves g' p' ∧ (coreOf t g.core).items = [] ∧ la'.delivered = la.delivered)) ∧
    (la.kern.flags.getLsbD 3 = false ∨ want = [] → after (fun t g' p' la' => leaves g' p' ∧ (coreOf t g.core).items = all ∧ la' = la))

/-- R160: `EXIT` ends its path while the group has others, which go on as they were; the last path of a group with nothing
outstanding retires the group.
Rests on the model's choices of assumption 66. -/
def Obligations.ExitEndsPath : Prop :=
  ∀ (s : State) (g : Group) (p : Path), s.At g p → g.handler = none → g.due = [] → g.recalls = [] →
    (∀ x ∈ g.slots, x.returned = 0 ∧ x.rjm = 0) → g.slots.length = 4 →
    ((∃ q ∈ g.paths, q.id ≠ p.id) → ∃ t, exec .exit s = .next t ∧
      tabFind t.groups s.cur = some { g with paths := g.paths.filter (fun q => q.id ≠ p.id) } ∧ OnlyGroup s t) ∧
    (∀ tm k o, (∀ q ∈ g.paths, q.id = p.id) → g.outq = [] → g.reqs = [] → g.garnet = none → g.retired = false →
      teamRuns s g.team = true → cardPending s s.cur = false → teamOf s g = some tm → tm.slices = [] →
      (coreOf s g.core).latch = [] → o ∈ tm.groups → o ≠ s.cur → tabFind s.groups o = some k → k.retired = false →
      ∃ t g', exec .exit s = .next t ∧ tabFind t.groups s.cur = some g' ∧ g'.retired = true ∧ g'.paths = [] ∧
        (∀ j, j ≠ s.cur → tabFind t.groups j = tabFind s.groups j) ∧ SameBytes s t)

/-! ### Traps, service requests and returns -/

/-- R335, R337, R342, R346: `TRAP` enters the handler with a stopping point past it, `BKPT` enters it at its own word or, where it has
none to enter, asks the host as `SVC` does with `s2`; R333, R336, R339: a class 0 trap of a kernel without a handler ends its team, and one inside a handler is a double trap that names
both causes.
Rests on the model's choices of assumption 50. -/
def Obligations.SoftwareTraps : Prop :=
  (
    ∀ (s : State) (g : Group) (p : Path) (n : BitVec 14), s.At g p →
      Traps s g p (exec (.trap n) s) 0 0x30 (n.setWidth 32) 0 (p.spc + 4) p.lpc ∧
      Traps s g p (exec (.bkpt n) s) 0 0x31 (n.setWidth 32) 0 p.spc p.lpc ∧
      ((kernOf s g).trapOff = none ∨ g.handler.isSome →
        Suspends s g p (exec (.bkpt n) s) 3 0 0x31 (n.setWidth 32) 0 p.spc p.lpc) ∧
      Suspends s g p (exec (.svc n) s) 3 0 0x32 (n.setWidth 32) (sRead g p 2) p.spc p.lpc) ∧
  (
    ∀ (s : State) (g : Group) (p : Path) (n : BitVec 14), s.At g p →
      ((kernOf s g).trapOff = none → g.handler = none →
        Ends s g (exec (.trap n) s) 0 0x30 (n.setWidth 32) 0 (p.spc + 4) p.lpc) ∧
      (∀ h, g.handler = some h → Ends s g (exec (.trap n) s) 0 0x4B 0x30 g.tcause (p.spc + 4) p.lpc))

/-- R347: `ERET` outside a handler is illegal; inside, with no trap due and no lane out, the path issues again 8 clocks later, where the trap registers say, with the run
queue that it had and, where it waited for the first word of an `LJMP`'s run, still does; the handler's own stacked sides are dropped, and
the trap registers read zero again. -/
def Obligations.ExceptionReturn : Prop :=
  ∀ (s : State) (g : Group) (p : Path), s.At g p →
    (g.handler = none → Traps s g p (exec .eret s) 0 0x01 (s.ir.extractLsb' 0 32) 0 p.spc p.lpc) ∧
    (∀ h, g.handler = some h → g.due = [] → contextsFor s s.cur = [] → (∀ k, (slotAt g k).rjm = 0) →
      ∃ t g' p', exec .eret s = .next t ∧ t.At g' p' ∧ OnlyGroup s t ∧ OtherPaths p g g' ∧
        p' = { p with spc := g.tspc, lpc := g.tlpc, queue := h.queue, running := h.running,
                      stack := p.stack.drop (p.stack.length - h.depth), hold := if h.ljmp then .ljmp else .free,
                      wake := s.clock + 8 } ∧
        g'.handler = none ∧ g'.tcause = 0 ∧ g'.tval0 = 0 ∧ g'.tval1 = 0 ∧ g'.tspc = 0 ∧ g'.tlpc = 0 ∧
        { g' with handler := g.handler, tcause := g.tcause, tval0 := g.tval0, tval1 := g.tval1, tspc := g.tspc, tlpc := g.tlpc,
                  slots := g.slots, reqs := g.reqs, pausedAt := g.pausedAt, paths := g.paths } = g)

/-- R94, R337: a fetched word that its stream's encoding or its kernel's register count does not allow traps as illegal with the
word's bits; nothing of it is performed. -/
def Obligations.IllegalWords : Prop :=
  ∀ (s : State) (gid : Nat) (g : Group) (p : Path) (w : BitVec 96) (off : Nat) (lane : Bool), s.powered = true →
    tabFind s.groups gid = some g → findPath g p.id = some p → mayIssue s gid g p lane = true → g.garnet = none → g.handler = none →
    (kernOf s g).trapOff = some off → (lane = true → p.running = true) →
    (if lane then fetchLane s g p else fetchScalar s g p) = .word w → decodeFor (kernOf s g) lane w = none →
    ∃ t g' p', step { s with agenda := .issue gid p.id lane :: s.agenda } = .next t ∧ tabFind t.groups gid = some g' ∧
      findPath g' p.id = some p' ∧ g'.tcause = (if lane then 0x101 else 0x001) ∧
      g'.tval0 = (if lane then w.extractLsb' 64 32 else w.extractLsb' 0 32) ∧
      g'.tval1 = (if lane then w.extractLsb' 32 32 else 0) ∧ g'.tspc = p.spc ∧ g'.tlpc = p.lpc ∧ p'.spc = BitVec.ofNat 32 off ∧
      (∃ c, g'.handler = some c ∧ c.path = p.id) ∧ (∀ r, sRead g' p' r = sRead g p r) ∧ SameBytes s t ∧
      (∀ c key, vRead g' c key = vRead g c key)

/-- R80, R94, R101, R105, R157: a step whose turn is a path's next word runs the instruction that the word decodes to, in the state in which the
path issues it on the port that takes it, and changes nothing while none does; a group alone on the module with one path gets the port as
soon as it is eligible and the port is free; a word that reads a poisoned scalar register is not performed: it ends its team, or in a Garnet
context its lane (R130, R371); a drain word runs likewise.
Rests on the model's choices of assumptions 8, 10, 11, 88. -/
def Obligations.StepRunsDecoded : Prop :=
  ∀ (s : State) (gid : Nat) (g : Group) (p : Path) (w : BitVec 96) (i : Instr), s.powered = true → tabFind s.groups gid = some g →
    findPath g p.id = some p → (g.garnet.isSome && recallsFirst i) = false →
    let w' := { s with ir := w }
    let at_ := fun (lane : Bool) => step { s with agenda := .issue gid p.id lane :: s.agenda }
    let port := fun (lane : Bool) => issuePort wordIssues w' gid g p lane i
    let alone := s.groups = [(gid, g)] ∧ g.paths = [p] ∧ g.garnet = none
    (mayIssue s gid g p false = true → fetchScalar s g p = .word w → decodeFor (kernOf s g) false w = some i →
      (∀ x, port false = some x → readsPoison g i = false → at_ false = exec i (prepare w' gid g p x i)) ∧
      (port false = none → at_ false = .next s) ∧
      (alone → scalarMay wordIssues w' gid g p i = true → unitFree (coreOf s g.core) (portKey g.part .scalar) 0 s.clock = true →
        port false = some .scalar)) ∧
    (p.running = true → mayIssue s gid g p true = true → fetchLane s g p = .word w → decodeFor (kernOf s g) true w = some i →
      (∀ x, port true = some x → readsPoison g i = false → at_ true = exec i (prepare w' gid g p x i)) ∧
      (port true = none → at_ true = .next s) ∧
      (alone → laneMay wordIssues w' gid g p i = true → unitFree (coreOf s g.core) (portKey g.part .laneA) 0 s.clock = true →
        port true = some .laneA)) ∧
    (∀ lane : Bool, mayIssue s gid g p lane = true → (lane = true → p.running = true) →
      (if lane then fetchLane s g p else fetchScalar s g p) = .word w → decodeFor (kernOf s g) lane w = some i →
      readsPoison g i = true → (port lane).isSome →
      at_ lane = .next (if g.garnet.isSome then killContext w' gid else takeTrap w' gid g p { mkTrap w' p 3 0x4F 0 0 with cls := 2 })) ∧
    (∀ c e d x, drainEnt (coreOf s c) = some e → (coreOf s c).drain = some d → d.inSeg = true → e.prog[d.pc]? = some x →
      decodeDrain x = some i →
      step { s with agenda := .drainWord c :: s.agenda } = exec i { s with ir := x.setWidth 96, drainCore := c })

/-- R165, R166, R345, R353, R367, R368: `SIGCHK` goes on and clears the signature where it equals the stored word, and goes on at once where
signatures are off; on a mismatch the team stops and waits while it has copies or jobs under way; then a team without a committed snapshot ends
with `signature_nosnap`, one that has rolled back twice with `signature_persistent`, and any other is restored from the committed half: registers,
paths and partition; `SNAP` without room for the team's image traps, one that cannot commit yet holds its path, and one that can writes the half
that is not committed, with a generation above the other's.
Rests on the model's choices of assumptions 11, 21. -/
def Obligations.SignatureAndSnapshot : Prop :=
  ∀ (s : State) (g : Group) (p : Path) (n : BitVec 14) (tm : Team) (la : Launch) (c : Cluster), s.At g p → g.handler = none →
    teamOf s g = some tm → launchOf s g = some la → clusterOf s g = some c →
    ((kernOf s g).flags.getLsbD 4 = false →
      ∃ t g' p', exec (.sigchk n) s = .next t ∧ t.At g' p' ∧ p' = { p with spc := p.spc + 4 } ∧ { g' with paths := g.paths } = g ∧
        OtherPaths p g g' ∧ OnlyGroup s t) ∧
    (∀ bs, (kernOf s g).flags.getLsbD 4 = true → tm.rolling = none →
      (kernOf s g).sigOff + 4 * n.toNat + 4 ≤ (kernOf s g).sigSize →
      readVia s g .readOrExec 4 ((kernOf s g).sigBase + (kernOf s g).sigOff + 4 * n.toNat) = .ok bs →
      listNat bs 0 4 = p.sig.toNat →
      ∃ t g' p', exec (.sigchk n) s = .next t ∧ t.At g' p' ∧ p' = { p with spc := p.spc + 4, sig := 0 } ∧
        { g' with paths := g.paths } = g ∧ OtherPaths p g g' ∧ OnlyGroup s t) ∧
    ((kernOf s g).snapBytes / 2 < snapSize (kernOf s g) →
      Traps s g p (exec .snap s) 0 0x16 (BitVec.ofNat 32 (kernOf s g).snapBytes) 0 p.spc p.lpc) ∧
    (snapSize (kernOf s g) ≤ (kernOf s g).snapBytes / 2 → snapReady (keep s g { p with hold := .snap }) g.team tm = false →
      GoesTo s g p (exec .snap s) g { p with hold := .snap }) ∧
    (snapSize (kernOf s g) ≤ (kernOf s g).snapBytes / 2 → snapReady (keep s g { p with hold := .snap }) g.team tm = true →
      snapFault (keep s g { p with hold := .snap }) (tm.core / 16) la.pasid (snapBase la c tm) (kernOf s g).snapBytes = none →
      s.cur ∈ tm.groups → g.pend = [] →
      ∃ t g' p', exec .snap s = .next t ∧ t.At g' p' ∧ p'.spc = p.spc + 4 ∧ p'.hold = .free ∧
        (∀ r, sRead g' p' r = sRead g p r) ∧ (∃ x, tabFind t.teams g.team = some x ∧ x.snaps ≠ [])) ∧
    let k := kernOf s g
    let st := tm.core / 16
    let y := k.snapBytes
    let img := 8192 + 384 * k.regs
    let mapped := fun (pa : Nat) => pa + y ≤ Config.hbmBytes ∧ ∀ i < y, ∃ e,
      tlbFind (stackOf s st).tlb la.pasid (snapBase la c tm + i) = some e ∧ leafUse e .write (snapBase la c tm + i) = .ok (pa + i)
    let calm := s.promoted = [] ∧ s.MemOk ∧ s.KeysOk ∧ s.poison = [] ∧ (∀ i, (stackOf s i).degraded = false) ∧
      ∀ e ∈ s.cores, tabWf 0 e.2.spad = true ∧ ∀ w ∈ e.2.col, w.2.dirty = false
    (∀ pa, snapSize k ≤ y / 2 → snapReady (keep s g { p with hold := .snap }) g.team tm = true →
      snapFault (keep s g { p with hold := .snap }) st la.pasid (snapBase la c tm) y = none → mapped pa → calm →
      tm.groups.Nodup → tm.groups.length = k.groups → (∀ n ∈ tm.groups, (tabFind s.groups n).isSome) →
      let g0 := homeNat s 8 pa
      let g1 := homeNat s 8 (pa + y / 2)
      let first := g0 < g1 ∨ g0 = 0
      let a := if first then pa else pa + y / 2
      ∃ t, exec .snap s = .next t ∧ homeNat t 8 a = ((if first then g1 else g0) + 1) % 2 ^ 64 ∧
        homeNat t 4 (a + 8) = snapSize k % 2 ^ 32 ∧ homeNat t 4 (a + 12) = k.groups % 2 ^ 32 ∧
        (∀ (j n : Nat), tm.groups[j]? = some n → ∃ G', tabFind t.groups n = some G' ∧
          (∀ r < 61, homeNat t 4 (a + 4096 + j * img + 4 * r) = (tabGet 0 G'.sreg r).toNat) ∧
          (∀ r, 1 ≤ r → r < 8 → homeNat t 12 (a + 4096 + j * img + 0x100 + 16 * r) = (tabGet 0 G'.pred r).toNat) ∧
          ∀ v < k.regs, ∀ l < 96,
            homeNat t 4 (a + 4096 + j * img + 0x2000 + 384 * v + 4 * l) = (tabGet 0 G'.vreg (vKey v l)).toNat) ∧
        (∀ o < k.spad, homeByte t (a + 4096 + k.groups * img + o) = spadByte s tm.core (tm.spadOff + o)) ∧
        (∀ x < Config.hbmBytes, (x < a ∨ a + snapSize k ≤ x) → homeByte t x = homeByte s x) ∧
        ∃ x, tabFind t.teams g.team = some x ∧ x.rollbacks = 0) ∧
    let differs := k.sigSize < k.sigOff + 4 * n.toNat + 4 ∨
      ∃ bs, readVia s g .readOrExec 4 (k.sigBase + k.sigOff + 4 * n.toNat) = .ok bs ∧ listNat bs 0 4 ≠ p.sig.toNat
    (k.flags.getLsbD 4 = true → differs → s.KeysOk →
      (tm.rolling = none → g.garnet = none → s.cur ∈ tm.groups → (∃ e ∈ s.stks, ∃ x ∈ e.2.subs, x.team = some g.team) →
        ∃ t g' p', exec (.sigchk n) s = .next t ∧ t.At g' p' ∧ p'.spc = p.spc ∧ p'.sig = p.sig ∧ g'.reqs = [] ∧
          ∃ x, tabFind t.teams g.team = some x ∧ x.rolling = some (s.cur, s.curPath)) ∧
      ((∀ e ∈ s.stks, ∀ x ∈ e.2.subs, x.team ≠ some g.team) → (coreOf s tm.core).drain = none →
        (∀ e ∈ s.groups, e.2.team = g.team ∨ e.1 ∈ tm.groups → e.2.reqs = []) → g.garnet = none → s.cur ∈ tm.groups →
        let ends := fun (code : Nat) => ∃ t r, exec (.sigchk n) s = .next t ∧
          (stackOf t (g.core / 16)).fatal = (stackOf s (g.core / 16)).fatal ++ [r] ∧ r.info.code = code ∧ r.info.cls = 2 ∧
          r.info.val0 = BitVec.ofNat 32 n.toNat ∧ r.info.val1 = BitVec.ofNat 32 tm.rollbacks ∧
          ∀ e ∈ t.groups, e.2.team = g.team → e.2.susp = .halted
        (y = 0 → tm.fatal = false → ends 0x4D) ∧
        (∀ pa x, snapSize k ≤ y / 2 → mapped pa → calm →
          let g0 := homeNat s 8 pa
          let g1 := homeNat s 8 (pa + y / 2)
          let half := if g0 < g1 then 1 else 0
          let a := if half = 1 then pa + y / 2 else pa
          (g0 = 0 → g1 = 0 → tm.fatal = false → ends 0x4D) ∧
          (¬ (g0 = 0 ∧ g1 = 0) → tm.snaps.find? (fun z => z.half = half) = some x →
            (2 ≤ tm.rollbacks → tm.fatal = false → ends 0x4E) ∧
            (tm.rollbacks < 2 → (x.groups.map (fun z => z.grp)).Nodup → x.groups.length ≤ k.groups →
              (∀ z ∈ x.groups, ∃ G, tabFind s.groups z.grp = some G ∧ G.garnet = none) →
              ∃ t, exec (.sigchk n) s = .next t ∧
                (∃ x', tabFind t.teams g.team = some x' ∧ x'.rollbacks = tm.rollbacks + 1 ∧ x'.rolling = none) ∧
                (∀ o < k.spad, spadByte t tm.core (tm.spadOff + o) = homeByte s (a + 4096 + k.groups * img + o)) ∧
                ∀ (j : Nat) (z : SnapGroup), x.groups[j]? = some z → ∃ G', tabFind t.groups z.grp = some G' ∧
                  G'.paths = z.paths.map unheld ∧ G'.reqs = [] ∧ G'.lines = 0 ∧
                  (∀ r < 61, (tabGet 0 G'.sreg r).toNat = homeNat s 4 (a + 4096 + j * img + 4 * r)) ∧
                  (∀ r, 1 ≤ r → r < 8 → (tabGet 0 G'.pred r).toNat = homeNat s 12 (a + 4096 + j * img + 0x100 + 16 * r)) ∧
                  ∀ v < k.regs, ∀ l < 96,
                    (tabGet 0 G'.vreg (vKey v l)).toNat = homeNat s 4 (a + 4096 + j * img + 0x2000 + 384 * v + 4 * l))))))

/-! ### Special functions -/

/-- R110, R187, R188: a special function leaves a request outstanding whose flags are those of its acting lanes; its results are seen
from clock T + beat + 12 and by nothing else; its completion brings time to clock T + 12, sets the flag that it owns and the sticky bits, and
writes what is visible then; R145, R187, R189: the special values of the special functions with their flags, for every operand of each kind; a NaN operand gives
the canonical NaN, with `invalid` where it signals.
Rests on the model's choices of assumptions 1, 89. -/
def Obligations.SpecialFunctionUnit : Prop :=
  (
    (∀ (s : State) (g : Group) (p : Path) (h : LaneHdr) (vd va : VReg), s.At g p → g.Clean →
      let f := fun (op : SfuOp) (l : Nat) => sfuWord op (flushOf (kernOf s g)) (vWord g s.clock va.toNat l)
      let goes := fun (op : SfuOp) (i : Instr) => ∃ t g' p' r, exec i s = .next t ∧ t.At g' p' ∧ OnlyGroupFresh s t ∧ OtherPaths p g g' ∧
        PastLane s h p p' ∧ t.fresh = s.fresh + 1 ∧ g'.reqs = g.reqs ++ [r] ∧ r.id = s.fresh ∧ r.path = none ∧ r.flag = h.setf ∧
        r.kind = .sfu (s.clock + 12) vd ∧
        (∀ k, r.fp.getLsbD k = true ↔ ∃ l, ActsIn s g p h l ∧ (f op l).2.getLsbD k = true) ∧
        (∀ k, g'.flags.getLsbD k = (g.flags.getLsbD k && decide (h.setf.toNat ≠ k))) ∧ g'.outq = g.outq ∧ g'.fpflags = g.fpflags ∧
        (∀ l, ActsIn s g p h l → vRead g' (s.clock + l / 32 + 12) (vKey vd.toNat l) = ((f op l).1, false)) ∧
        (∀ c v l, l < 96 → ¬(v = vd.toNat ∧ ActsIn s g p h l ∧ s.clock + l / 32 + 12 ≤ c) →
          vRead g' c (vKey v l) = vRead g c (vKey v l)) ∧
        ∀ c n l, pRead g' c n l = pRead g c n l
      goes .rcp (.rcp h vd va) ∧ goes .rsq (.rsq h vd va) ∧ goes .ex2 (.ex2 h vd va) ∧ goes .lg2 (.lg2 h vd va) ∧
      goes .sin (.sin h vd va) ∧ goes .cos (.cos h vd va) ∧ goes .tanh (.tanh h vd va) ∧ goes .erf (.erf h vd va)) ∧
    ∀ (s : State) (gid r : Nat) (G : Group) (q : Req) (d : Nat) (v : VReg), tabFind s.groups gid = some G → findReq G r = some q →
      q.kind = .sfu d v → G.paths ≠ [] → G.RegsOk →
      ∃ t G', exec (.specialFunctionComplete gid r) s = .next t ∧ tabFind t.groups gid = some G' ∧ t.clock = max s.clock d ∧
        { t with groups := s.groups, clock := s.clock } = s ∧ (∀ k, k ≠ gid → tabFind t.groups k = tabFind s.groups k) ∧
        G'.reqs = G.reqs.filter (fun x => decide (x.id ≠ r)) ∧
        (∀ k, G'.fpflags.getLsbD k = (G.fpflags.getLsbD k || q.fp.getLsbD k)) ∧
        (∀ k < 12, G'.flags.getLsbD k = (G.flags.getLsbD k || decide (q.flag.toNat = k ∧ tabFind G.owner k = some r))) ∧
        ∀ key, (vRead G' t.clock key).1 = (vRead G t.clock key).1) ∧
  (
    ∀ (fl : Bool) (x : Word),
      let nan : Word := 0x7FC00000
      let inf : Word := 0x7F800000
      (0x7FC00000 ≤ x.toNat % 2 ^ 31 → ∀ op, sfuWord op fl x = (nan, 0)) ∧
      (0x7F800000 < x.toNat % 2 ^ 31 → x.toNat % 2 ^ 31 < 0x7FC00000 → ∀ op, sfuWord op fl x = (nan, 0x01)) ∧
      (x = 0x7F800000 → sfuWord .rcp fl x = (0, 0) ∧ sfuWord .rsq fl x = (0, 0) ∧ sfuWord .ex2 fl x = (inf, 0) ∧
        sfuWord .lg2 fl x = (inf, 0) ∧ sfuWord .sin fl x = (nan, 0x01) ∧ sfuWord .cos fl x = (nan, 0x01) ∧
        sfuWord .tanh fl x = (0x3F800000, 0) ∧ sfuWord .erf fl x = (0x3F800000, 0)) ∧
      (x = 0xFF800000 → sfuWord .rcp fl x = (0x80000000, 0) ∧ sfuWord .rsq fl x = (nan, 0x01) ∧ sfuWord .ex2 fl x = (0, 0) ∧
        sfuWord .lg2 fl x = (nan, 0x01) ∧ sfuWord .sin fl x = (nan, 0x01) ∧ sfuWord .cos fl x = (nan, 0x01) ∧
        sfuWord .tanh fl x = (0xBF800000, 0) ∧ sfuWord .erf fl x = (0xBF800000, 0)) ∧
      (x.toNat % 2 ^ 31 = 0 →
        sfuWord .rcp fl x = (x ||| inf, 0x02) ∧ sfuWord .rsq fl x = (x ||| inf, 0x02) ∧ sfuWord .ex2 fl x = (0x3F800000, 0) ∧
        sfuWord .lg2 fl x = (0xFF800000, 0x02) ∧ sfuWord .sin fl x = (x, 0) ∧ sfuWord .cos fl x = (0x3F800000, 0) ∧
        sfuWord .tanh fl x = (x, 0) ∧ sfuWord .erf fl x = (x, 0)) ∧
      (0x80800000 ≤ x.toNat → x.toNat < 0xFF800000 → sfuWord .rsq fl x = (nan, 0x01) ∧ sfuWord .lg2 fl x = (nan, 0x01)) ∧
      (0x49000000 ≤ x.toNat % 2 ^ 31 → x.toNat % 2 ^ 31 < 0x7F800000 → ∀ op, op = .sin ∨ op = .cos → sfuWord op fl x = (nan, 0x20)) ∧
      (0x43000000 ≤ x.toNat → x.toNat < 0x7F800000 → sfuWord .ex2 fl x = (inf, 0x14)) ∧
      (0xC3160000 ≤ x.toNat → x.toNat < 0xFF800000 → sfuWord .ex2 fl x = (0, 0x18)) ∧
      ∀ k : Nat, 1 ≤ k → k ≤ 253 → x = BitVec.ofNat 32 (k * 2 ^ 23) →
        sfuWord .rcp fl x = (BitVec.ofNat 32 ((254 - k) * 2 ^ 23), 0) ∧
        (k % 2 = 1 → sfuWord .rsq fl x = (BitVec.ofNat 32 ((127 + (127 - k : Int) / 2).toNat * 2 ^ 23), 0)) ∧
        ∃ w, sfuWord .lg2 fl x = (w, 0) ∧ refRat w = ((k : Int) - 127 : Int))

/-! ### Returns of memory requests, misses, walks and promotion -/

/-- R161, R216 to R220, R224 to R226, R228: what the return of a request does: a load, store, atomic or reduction performs the unit that
is left at its place, a scalar load or store its word or pair, and each, like a fence and cache control, completes: its flag is set if it owns
it, its counter falls and its sticky bits are raised; R195 to R200, R219, R222: a global access that is plain, or ordered at a scope that meets
at the column, reads and writes the column cache that serves its line (a plain load its L1); one ordered at a wider scope meets at the home
slice, where a release puts the column's dirty words first and an acquire leaves no clean word behind.
Rests on the model's choices of assumptions 5, 52. -/
def Obligations.MemoryReturns : Prop :=
  ∀ (s : State) (gid : Nat) (G : Group) (r : Req), tabFind s.groups gid = some G → G.reqs = [r] → r.stalled = false →
    imageSealed s G = false → ejectHeld s G = false → G.paths ≠ [] → G.RegsOk →
    let comes := fun (fp : Byte) (val : State → Group → Prop) => ∃ t G', exec (.memoryRequestReturn gid r.id) s = .next t ∧
      tabFind t.groups gid = some G' ∧ G'.reqs = [] ∧ (∀ e ∈ G'.outq, e.1 = r.id → e.2.2 = true) ∧
      (∀ k < 12, G'.flags.getLsbD k = (G.flags.getLsbD k || decide (r.flag.toNat = k ∧ tabFind G.owner k = some r.id))) ∧
      (∀ k, G'.fpflags.getLsbD k = (G.fpflags.getLsbD k || r.fp.getLsbD k || fp.getLsbD k)) ∧
      (∀ k, k ≠ gid → tabFind t.groups k = tabFind s.groups k) ∧ val t G'
    let sameRegs := fun (G' : Group) => ∀ c key, vRead G' c key = vRead G c key
    (∀ (op : AtomOp) (ty : AtomTy) (sc : Scope) (v : VReg) (l c o data new : Nat), l < 96 → o % 4 = 0 → data < 2 ^ 32 → new < 2 ^ 32 →
      (ty = .int .z32 ∨ ty = .int .s32 ∨ ty = .f32) → (coreOf s c).bars = [] → (coreOf s c).spadPoison = [] →
      tabWf 0 (coreOf s c).spad = true →
      let kind := fun (k : MemKind) => ReqKind.mem k op ty .four .plain sc v
        [{ lane := l, reg := 0, n := 4, loc := .spad c o, va := 0, data := data, new := new }]
      let old := spadNat s c 4 o
      let n := atomNew op ty 4 old data new
      let loads := fun (G' : Group) => (∀ k, vRead G' k (vKey v.toNat l) = (BitVec.ofNat 32 old, false)) ∧
        ∀ k key, key ≠ vKey v.toNat l → vRead G' k key = vRead G k key
      let stores := fun (x : Nat) (t : State) => spadNat t c 4 o = x ∧ (∀ a, homeByte t a = homeByte s a) ∧
        ∀ d i, (d ≠ c ∨ i < o ∨ o + 4 ≤ i) → spadByte t d i = spadByte s d i
      (r.kind = kind .ld → comes 0 (fun t G' => loads G' ∧ SameBytes s t)) ∧
      (r.kind = kind .st → comes 0 (fun t G' => sameRegs G' ∧ stores data t)) ∧
      (n.1 < 2 ^ 32 → r.kind = kind .atom → comes n.2 (fun t G' => loads G' ∧ stores n.1 t)) ∧
      (n.1 < 2 ^ 32 → r.kind = kind .red → comes n.2 (fun t G' => sameRegs G' ∧ stores n.1 t))) ∧
    (∀ (pa : Nat), s.promoted = [] → s.MemOk → tabSorted (coreOf s (serveCore s G pa)).col = true →
      tabSorted (coreOf s (serveCore s G pa)).l1 = true → (setLines (coreOf s (serveCore s G pa)) (pa / 128)).length < 16 →
      let c := serveCore s G pa
      let k := coreOf s c
      let sees := fun (n i : Nat) => if G.garnet = none ∧ ∀ j < n, (cfind k.l1 (pa / 4 + j)).isSome = true then
        ((cfind k.l1 (pa / 4 + i)).map (fun w => w.val)).getD 0 else (colWord s c (pa / 4 + i)).val
      let puts := fun (n x : Nat) (t : State) =>
        (∀ i < n, (colWord t c (pa / 4 + i)).val = BitVec.ofNat 32 (x / 2 ^ (32 * i))) ∧
        (∀ w, 4 * w + 4 ≤ Config.hbmBytes → (w < pa / 4 ∨ pa / 4 + n ≤ w) → (colWord t c w).val = (colWord s c w).val) ∧
        (∀ a < Config.hbmBytes, homeByte t a =
          if isHome c pa = true ∧ pa ≤ a ∧ a < pa + 4 * n then BitVec.ofNat 8 (x / 256 ^ (a - pa)) else homeByte s a) ∧
        ∀ d i, spadByte t d i = spadByte s d i
      (∀ (d : SReg) (dbl : Bool) (x : Nat),
        let n := if dbl then 2 else 1
        d.toNat + n ≤ 61 → pa % (4 * n) = 0 → pa + 4 * n ≤ Config.hbmBytes → x < 2 ^ (32 * n) →
        (r.kind = .sload d dbl (.phys pa) → comes 0 (fun t G' => sameRegs G' ∧ SameBytes s t ∧
          (∀ i < n, tabGet 0 G'.sreg (d.toNat + i) = sees n i) ∧
          ∀ j, (j < d.toNat ∨ d.toNat + n ≤ j) → tabGet 0 G'.sreg j = tabGet 0 G.sreg j)) ∧
        (r.kind = .sstore dbl (.phys pa) x → comes 0 (fun t G' => sameRegs G' ∧ puts n x t))) ∧
      (∀ (op : AtomOp) (ty : AtomTy) (ord : Ord4) (sc : Scope) (v : VReg) (l va data new : Nat), l < 96 → pa % 4 = 0 →
        pa + 4 ≤ Config.hbmBytes → data < 2 ^ 32 → new < 2 ^ 32 → (ty = .int .z32 ∨ ty = .int .s32 ∨ ty = .f32) →
        let kind := fun (k : MemKind) => ReqKind.mem k op ty .four ord sc v
          [{ lane := l, reg := 0, n := 4, loc := .phys pa, va := va, data := data, new := new }]
        let loads := fun (x : Word) (G' : Group) => (∀ c, (vRead G' c (vKey v.toNat l)).1 = x) ∧
          ∀ c key, key ≠ vKey v.toNat l → vRead G' c key = vRead G c key
        let old := (colWord s c (pa / 4)).val
        let m := atomNew op ty 4 old.toNat data new
        (ord = .plain ∨ meeting (kernOf s G) sc = .col →
          (r.kind = kind .ld → comes 0 (fun t G' => loads (if ord = .plain then sees 1 0 else old) G' ∧ SameBytes s t ∧
            ∀ w, (colWord t c w).val = (colWord s c w).val)) ∧
          (r.kind = kind .st → comes 0 (fun t G' => sameRegs G' ∧ puts 1 data t)) ∧
          (m.1 < 2 ^ 32 → r.kind = kind .atom → comes m.2 (fun t G' => loads old G' ∧ puts 1 m.1 t)) ∧
          (m.1 < 2 ^ 32 → r.kind = kind .red → comes m.2 (fun t G' => sameRegs G' ∧ puts 1 m.1 t))) ∧
        (ord ≠ .plain → meeting (kernOf s G) sc = .home → fusedK (kernOf s G) = false → (∀ e ∈ k.col, e.2.poison = false) →
          (∀ e ∈ k.col, e.2.dirty = true → 4 * e.1 + 4 ≤ Config.hbmBytes) →
          (ord ≠ .acq → sc = .sys → hostStale (cleanScope s G sc) = false) →
          let own := fun (w : Nat) => ((cfind k.col w).filter (fun x => x.dirty)).map (fun x => x.val)
          let was := fun (w : Nat) => (own w).getD (homeWord s w)
          let z := atomNew op ty 4 (was (pa / 4)).toNat data new
          let ends := fun (x : Word) (t : State) => homeWord t (pa / 4) = x ∧ (∀ d i, spadByte t d i = spadByte s d i) ∧
            (∀ w, 4 * w + 4 ≤ Config.hbmBytes → w / 32 ≠ pa / 128 → ord = .acq → homeWord t w = homeWord s w) ∧
            (∀ w, 4 * w + 4 ≤ Config.hbmBytes → w ≠ pa / 4 → ord ≠ .acq → homeWord t w = was w) ∧
            (ord ≠ .acq → ∀ e ∈ (coreOf t c).col, e.2.dirty = false) ∧
            (ord ≠ .rel → (coreOf t c).l1 = [] ∧ ∀ e ∈ (coreOf t c).col, e.2.dirty = true)
          (r.kind = kind .ld → comes 0 (fun t G' => loads (was (pa / 4)) G' ∧ ends (was (pa / 4)) t)) ∧
          (r.kind = kind .st → comes 0 (fun t G' => sameRegs G' ∧ ends (BitVec.ofNat 32 data) t)) ∧
          (z.1 < 2 ^ 32 → r.kind = kind .atom → comes z.2 (fun t G' => loads (was (pa / 4)) G' ∧ ends (BitVec.ofNat 32 z.1) t)) ∧
          (z.1 < 2 ^ 32 → r.kind = kind .red → comes z.2 (fun t G' => sameRegs G' ∧ ends (BitVec.ofNat 32 z.1) t))))) ∧
    (∀ sc lines, (r.kind = .fence .grp ∨ r.kind = .cln .grp ∨ r.kind = .inv sc ∨ r.kind = .lock false lines) →
      comes 0 (fun t G' => sameRegs G' ∧ SameBytes s t)) ∧
    (∀ lines, (r.kind = .pref lines ∨ r.kind = .lock true lines) → comes 0 (fun _ G' => sameRegs G') ∧
      ((∀ e ∈ s.cores, ∀ w ∈ e.2.col, w.2.dirty = false) → comes 0 (fun t G' => sameRegs G' ∧ SameBytes s t)))

/-- R103, R112, R206, R207, R210: a missing instruction line returns, unless the walk of its page is still in flight; a line of a group's image
comes into a bank of the register cache that has room, its words poisoned where the image is, or takes the place of the bank's victim, whose
words go to its own group's image; a walk that finds a leaf puts it into both TLBs
and lets the group go on, one that faults leaves the cause for the instruction that re-issues; a block of the capacity tier that more than
64 line reads have met, and that no access past its translation concerns, is copied to a free pool block, and its bytes read as before; one with
fewer reads stays.
Rests on the model's choices of assumptions 16, 17, 93. -/
def Obligations.MissesAndPromotion : Prop :=
  (∀ (s : State) (gid pid : Nat) (G : Group) (P : Path) (lane : Bool), tabFind s.groups gid = some G → findPath G pid = some P →
    (fetchWalking s gid pid lane = true → exec (.instructionFetchMiss gid pid lane) s = .next s) ∧
    (fetchWalking s gid pid lane = false →
      ∃ t G', exec (.instructionFetchMiss gid pid lane) s = .next t ∧ tabFind t.groups gid = some G' ∧
        findPath G' pid = some (if lane then { P with missL := false } else { P with missS := false }) ∧
        (∀ q, q ≠ pid → findPath G' q = findPath G q) ∧ { G' with paths := G.paths } = G ∧ { t with groups := s.groups } = s)) ∧
  (∀ (s : State) (gid line : Nat) (G : Group), tabFind s.groups gid = some G → G.garnet = none → G.resident = true →
    line < 3 * (kernOf s G).regs → line < 1152 → G.lines.getLsbD line = false →
    let held := (bankLines s G.core (line % 12)).length
    (held < 2048 → ∃ t G', exec (.registerLineFetch gid line) s = .next t ∧ tabFind t.groups gid = some G' ∧
      (∀ k, G'.lines.getLsbD k = (G.lines.getLsbD k || decide (k = line))) ∧
      { G' with lines := G.lines, lineUse := G.lineUse, vpoison := G.vpoison } = G ∧
      (∀ key, key ∈ G'.vpoison ↔ key ∈ G.vpoison ∨
        ∃ i < 32, imagePoison s G (0x2000 + 384 * (line / 3) + 128 * (line % 3) + 4 * i) = true ∧ key = vKey (line / 3) (32 * (line % 3) + i)) ∧
      { t with groups := s.groups } = s ∧ ∀ k, k ≠ gid → tabFind t.groups k = tabFind s.groups k) ∧
    (∀ v H at_, 2048 ≤ held → lineVictim s G.core (line % 12) = some v → v.1 ≠ gid → tabFind s.groups v.1 = some H → H.image = some at_ →
      s.MemOk → s.promoted = [] → (∀ pa, homePoison s pa = false) →
      let place := fun (o : Nat) => columnFrame H.core (at_ + o / 4096) + o % 4096
      let o := 0x2000 + 384 * (v.2 / 3) + 128 * (v.2 % 3)
      (∀ i < 128, place (o + i) = place o + i ∧ tierOf (Config.privBase + place o + i) = .priv) →
      ∃ t G' H', exec (.registerLineFetch gid line) s = .next t ∧ tabFind t.groups gid = some G' ∧ tabFind t.groups v.1 = some H' ∧
        (∀ k, G'.lines.getLsbD k = (G.lines.getLsbD k || decide (k = line))) ∧ { G' with lines := G.lines, lineUse := G.lineUse } = G ∧
        (∀ k, k < 1152 → H'.lines.getLsbD k = (H.lines.getLsbD k && decide (k ≠ v.2))) ∧
        { H' with lines := H.lines, lineUse := H.lineUse } = H ∧
        (∀ i < 32, homeNat t 4 (Config.privBase + place o + 4 * i) = (tabGet 0 H.vreg (vKey (v.2 / 3) (32 * (v.2 % 3) + i))).toNat) ∧
        (∀ a < Config.hbmBytes, (a < place o ∨ place o + 128 ≤ a) → homeByte t a = homeByte s a) ∧
        { t with groups := s.groups, mem := s.mem, poison := s.poison, hartRes := s.hartRes } = s ∧
        ∀ k, k ≠ gid → k ≠ v.1 → tabFind t.groups k = tabFind s.groups k) ∧
    (2048 ≤ held → lineVictim s G.core (line % 12) = none → exec (.registerLineFetch gid line) s = .next s)) ∧
  (∀ (s : State) (st : Nat) (w : Walk) (G : Group), (stackOf s st).walks = [w] → tabFind s.groups w.grp = some G → G.susp = .walk →
    closingP s w.pasid = false →
    (∀ e, walkStack s st w.pasid (w.vpn * 4096) = .leaf e → ∃ t, exec (.translationWalk st) s = .next t ∧
      e ∈ (stackOf t st).tlb ∧ e ∈ (coreOf t w.core).tlb ∧ (stackOf t st).walks = [] ∧
      tabFind t.groups w.grp = some { G with susp := .run } ∧ SameBytes s t) ∧
    (∀ c, walkStack s st w.pasid (w.vpn * 4096) = .bad c → ∃ t, exec (.translationWalk st) s = .next t ∧ (stackOf t st).walks = [] ∧
      tabFind t.groups w.grp = some { G with susp := .run, walked := some { pasid := w.pasid, vpn := w.vpn, code := c } } ∧
      t.cores = s.cores ∧ SameBytes s t)) ∧
  ∀ (s : State) (blk pool : Nat), tierOf (blk * 65536) = .cap → s.promoted.all (fun e => decide (e.1 ≠ blk)) = true →
    blockQuiet s blk = true → poolFree s = some pool → s.MemOk → (∀ e ∈ s.cores, ∀ w ∈ e.2.col, w.2.dirty = false) →
    (blockReads s blk ≤ 64 → exec (.promoteBlock blk) s = .next s) ∧
    (64 < blockReads s blk → ∃ t, exec (.promoteBlock blk) s = .next t ∧ t.promoted = s.promoted ++ [(blk, pool)] ∧
      (∀ i < 65536, homeByte t (65536 * blk + i) = homeByte s (65536 * blk + i)) ∧
      (∀ i < 65536, memByte t.mem (65536 * pool + i) = homeByte s (65536 * blk + i)) ∧
      { t with mem := s.mem, poison := s.poison, promoted := s.promoted, stks := s.stks, cores := s.cores } = s)

/-! ### Copies, jobs and tasks -/

/-- R233, R234, R236, R238, R239, R243: a `CPYC` that passes its checks is a slice of its team's next copy, which forms when every live
group has issued its own; a `CPYX` and a `JOB` submit to the stack's scheduler; a `TASKDEF` of a task nobody has named defines it with its
count or, at zero, submits its card, and completes at once; a `TASKWAIT` waits for its task, and completes at once where it is done.
Rests on the model's choices of assumptions 54, 55, 56, 86. -/
def Obligations.CopiesAndTasks : Prop :=
  ∀ (s : State) (g : Group) (p : Path) (h : LaneHdr) (tm : Team) (st : Nat), s.At g p → g.handler = none → g.Clean → st = g.core / 16 →
    teamOf s g = some tm → g.retired = false → (stackOf s st).subs.length < 256 →
    (∀ (d c : SReg) (dr sr : Byte) (dv sv b a : View), g.ncpyc + 1 < tm.formed + 4 → layoutRecord s g dr.toNat = .ok dv →
      layoutRecord s g sr.toNat = .ok sv →
      copyViews s g p (blockView g p dv d) (blockView g p sv c) dr.toNat sr.toNat = .inr (b, a) →
      let sl : Slice := { dst := b, src := a, grp := s.cur, ir := s.ir, target := g.target, arrived := false,
                          blocks := (List.range 12).map (fun i => sRead g p ((if i < 6 then d else c) + BitVec.ofNat 6 (i % 6))) }
      ((∃ k x, tabFind s.groups k = some x ∧ k ∈ tm.groups ∧ k ≠ s.cur ∧ x.retired = false ∧ x.ncpyc ≤ tm.formed) →
        Leaves s g p h (exec (.cpyc h d c dr sr) s) (.cpyc g.ncpyc) (fun t g' => g'.ncpyc = g.ncpyc + 1 ∧ t.stks = s.stks ∧
          tabFind t.teams g.team = some { tm with slices := tm.slices ++ [(g.ncpyc, s.fresh, sl)] })) ∧
      (tm.groups = [s.cur] → tm.slices = [] → tm.formed = g.ncpyc → stackNo tm.core = st →
        Leaves s g p h (exec (.cpyc h d c dr sr) s) (.cpyc g.ncpyc) (fun t g' => g'.ncpyc = g.ncpyc + 1 ∧
          tabFind t.teams g.team = some { tm with formed := tm.formed + 1 } ∧
          ∃ x, (stackOf t st).subs = (stackOf s st).subs ++ [x] ∧ x.id = s.fresh + 1 ∧ x.work = .slices [sl] ∧ x.started = false ∧
            x.by_ = [(s.cur, s.fresh)] ∧ x.pasid = pasidOf s g ∧ x.status = none))) ∧
    (∀ (d tb : SReg) (vx : VReg) (rc : Byte) (v : View) (bs : List Byte) (hd : TabHead) (es : List (Nat × Nat × Option Nat)),
      layoutRecord s g rc.toNat = .ok v → (sPair g p tb).toNat % 64 = 0 → readVia s g .read 64 (sPair g p tb).toNat = .ok bs →
      tabHead bs = some hd → readEntries s g (sPair g p tb).toNat hd.count ((maskLanes (activeMask g p)).map (fun l =>
        (l, (vWord g s.clock vx.toNat l).toNat))) = .ok es → (∀ e ∈ es, entryBad e = false) → v.rank = 2 → v.ragged = false →
      extent (blockView g p v d) 0 * tyBits v.ty = 8 * hd.rowBytes → es.length * hd.rows ≤ extent (blockView g p v d) 1 →
      rangeOf s p (kernOf s g) (blockView g p v d) = none →
      let stands := fun (t : State) => ∃ x bl, (stackOf t st).subs = (stackOf s st).subs ++ [x] ∧ x.id = s.fresh + 1 ∧
        x.work = .gather (blockView g p v d) hd.rows hd.rowBytes g.target bl ∧ bl.length = es.length ∧
        (∀ k e, es[k]? = some e → ∃ b ∈ bl, b.k = k ∧ b.arrived = false ∧ b.addr = e.2.2.map (fun w => w / 128 * 128)) ∧
        x.started = false ∧ x.by_ = [(s.cur, s.fresh)] ∧ x.status = none
      (∃ t g' p', exec (.cpyx h d vx tb rc) s = .next t ∧ t.At g' p' ∧ PastLane s h p p' ∧ OtherPaths p g g' ∧ g'.ncpyc = g.ncpyc ∧
        (∃ q ∈ g'.reqs, q.id = s.fresh ∧ q.kind = .job st (s.fresh + 1) ∧ q.flag = h.setf) ∧ stands t) ∧
      ((∀ e ∈ es, ∀ w, e.2.2 = some w → w / 2 % 2 = 0) →
        Leaves s g p h (exec (.cpyx h d vx tb rc) s) (.job st (s.fresh + 1)) (fun t g' => g'.ncpyc = g.ncpyc ∧ stands t))) ∧
    (∀ (c : SReg) (x : Sub), readCard s g (sPair g p c).toNat = .ok x →
      ∃ t g' p' y, exec (.job h c) s = .next t ∧ t.At g' p' ∧ PastLane s h p p' ∧ OtherPaths p g g' ∧
        (∃ q ∈ g'.reqs, q.id = s.fresh ∧ q.kind = .job st (s.fresh + 2) ∧ q.flag = h.setf) ∧
        (stackOf t st).subs = (stackOf s st).subs ++ [y] ∧ y.id = s.fresh + 2 ∧ y.work = x.work ∧ y.regions = x.regions ∧
        y.count = x.count ∧ y.status = x.status ∧ y.started = x.started ∧ y.by_ = [(s.cur, s.fresh)] ∧
        (∀ a f i, x.cardFlag = some (a, f, i) → f < 12 → g'.flags.getLsbD f = false ∧ tabFind g'.owner f = some (s.fresh + 1) ∧
          y.cardFlag = some (s.cur, f, s.fresh + 1)) ∧ SameBytes s t) ∧
    (∀ (c n : SReg) (k : Byte) (x : Sub), readCard s g (sPair g p c).toNat = .ok x → x.cardFlag = none →
      findSlot s st (pasidOf s g) k.toNat = none → (stackOf s st).tasks.length < 256 → (sRead g p n).toNat ≤ 1024 →
      (∀ e ∈ s.groups, e.2.paths ≠ []) → (∀ q ∈ g.reqs, q.id < s.fresh) →
      ∃ t g' p' y, exec (.taskdef h c n k) s = .next t ∧ t.At g' p' ∧ PastLane s h p p' ∧ OtherPaths p g g' ∧ g'.reqs = g.reqs ∧
        (h.setf.toNat < 12 → g'.flags.getLsbD h.setf.toNat = true) ∧ y.work = x.work ∧ y.regions = x.regions ∧
        (sRead g p n ≠ 0 → (stackOf t st).subs = (stackOf s st).subs ∧ (stackOf t st).tasks = (stackOf s st).tasks ++
          [{ pasid := pasidOf s g, num := k.toNat, v := (sRead g p n).toNat, c := 0, card := some y, state := .defined, packet := none }]) ∧
        (sRead g p n = 0 → (stackOf t st).subs = (stackOf s st).subs ++ [{ y with task := some k.toNat, id := s.fresh + 2 }] ∧
          (stackOf t st).tasks = (stackOf s st).tasks ++
          [{ pasid := pasidOf s g, num := k.toNat, v := 0, c := 0, card := none, state := .running, packet := none }])) ∧
    (∀ (k : Byte),
      (findSlot s st (pasidOf s g) k.toNat = none → (stackOf s st).tasks.length < 256 →
        Leaves s g p h (exec (.taskwait h k) s) (.taskwait st k.toNat) (fun t _ => (stackOf t st).tasks = (stackOf s st).tasks ++
          [{ pasid := pasidOf s g, num := k.toNat, v := 0, c := 0, card := none, state := .open, packet := none }])) ∧
      (∀ x, findSlot s st (pasidOf s g) k.toNat = some x → x.state ≠ .done →
        Leaves s g p h (exec (.taskwait h k) s) (.taskwait st k.toNat) (fun t _ => t.stks = s.stks)) ∧
      (∀ x, findSlot s st (pasidOf s g) k.toNat = some x → x.state = .done → (∀ q ∈ g.reqs, q.id < s.fresh) →
        ∃ t g' p', exec (.taskwait h k) s = .next t ∧ t.At g' p' ∧ PastLane s h p p' ∧ OtherPaths p g g' ∧ g'.reqs = g.reqs ∧
          (h.setf.toNat < 12 → g'.flags.getLsbD h.setf.toNat = true) ∧ t.stks = s.stks))

/-- R238, R240, R241, R310: a submission starts when it is free of conflicts and the earlier accesses of its groups are performed; a tile
that it moves without a stop has arrived, each byte of a copy from its source address to its destination address, a padded one or one of a
hole as the fill pattern, each byte of a gathered block from the frame that its page had at issue; the records of a packet's tensor copy are read
as it starts and become its slice; a job without work left completes: its status word is written, its groups' requests complete,
and it leaves the scheduler.
Rests on the model's choices of assumptions 62, 80, 96. -/
def Obligations.SubmissionsRun : Prop :=
  ∀ (s : State) (st id : Nat) (x : Sub), findSub s st id = some x →
    let Runs := fun (x : Sub) => x.started = true ∧ x.suspended = none ∧ x.error = 0 ∧ subStalled s x = false ∧ ∀ raw, covers x raw = true
    (x.started = false → (∀ a b c d e f, x.work ≠ .tensor a b c d e f) → (∀ c, x.work ≠ .refused c) → (stackOf s st).degraded = false →
      (∀ e ∈ x.by_, ∀ G, tabFind s.groups e.1 = some G → settledBefore G e.2 = true) → subFree (stackOf s st).subs x = true →
      ∃ t, exec (.submissionStart st id) s = .next t ∧ findSub t st id = some { x with started := true } ∧ t.groups = s.groups ∧
        t.teams = s.teams ∧ t.queues = s.queues ∧ ∀ d i, spadByte t d i = spadByte s d i) ∧
    (∀ sl, x.started = true → x.suspended = none → x.error = 0 → subStalled s x = false → x.work = .slices [sl] → sl.arrived = false → sl.target = none →
      (moveSlice s st x.pasid (teamKernel s (x.team.getD 0)) (covers x) sl).stop = none →
      ∃ t, exec (.tileArrival st id) s = .next t ∧ findSub t st id = some { x with work := .slices [{ sl with arrived := true }] } ∧
        SameBytes (moveSlice s st x.pasid (teamKernel s (x.team.getD 0)) (covers x) sl).s t) ∧
    (∀ (sl : Slice) (n : Nat) (ld ls : List Nat → Nat → Loc), Runs x → x.work = .slices [sl] → sl.arrived = false → sl.target = none → sl.pos = 0 → tyBits sl.dst.ty = 8 * n →
      sl.src.ty = sl.dst.ty → s.Calm →
      let ps := positions (boxView sl.dst)
      let i := fun (p : List Nat) d => (p[d]?).getD 0
      let out := fun (p : List Nat) => ∃ d < sl.dst.rank, extent sl.dst d ≤ i p d
      let pad := fun (p : List Nat) => let v := if sl.src.ragged then sl.src else sl.dst
        v.ragged = true ∧ (v.lens[i p v.bdim]?).getD 0 ≤ i p v.ldim
      (∀ p ∈ ps, ∀ j < n, EngineByte s st x.pasid (teamKernel s (x.team.getD 0)) sl.dst p j .write (ld p j) ∧
        (¬ out p → ¬ pad p → EngineByte s st x.pasid (teamKernel s (x.team.getD 0)) sl.src p j .read (ls p j))) →
      (∀ p ∈ ps, ∀ q ∈ ps, ∀ j < n, ∀ k < n, (ld p j = ld q k → p = q ∧ j = k) ∧ ld p j ≠ ls q k) →
      ∃ t, exec (.tileArrival st id) s = .next t ∧ findSub t st id = some { x with work := .slices [{ sl with arrived := true }] } ∧
        OnlyPlaces s t (fun l => ∃ p ∈ ps, ∃ j < n, l = ld p j) ∧
        (∀ p ∈ ps, ∀ j < n,
          (¬ out p → ¬ pad p → locByte t (ld p j) = locByte s (ls p j)) ∧
          (out p ∨ (pad p ∧ sl.dst.zfill = true) → locByte t (ld p j) = BitVec.ofNat 8 (sl.dst.fill.toNat / 256 ^ j)) ∧
          (¬ out p → pad p → sl.dst.zfill = false → locByte t (ld p j) = locByte s (ld p j)))) ∧
    (∀ (dst : View) (rows rb : Nat) (b : GBlock) (n : Nat) (ld : Nat → Nat → Nat → Loc), Runs x → dst.rank = 2 → x.work = .gather dst rows rb none [b] → b.arrived = false → b.pos = 0 → tyBits dst.ty = 8 * n → s.Calm →
      (∀ f ∈ b.frames, f ≠ none) → n * extent dst 0 ≤ rb →
      let cell := fun (r e : Nat) => [e, b.k * rows + r, 0, 0]
      (∀ r < rows, ∀ e < extent dst 0, ∀ j < n,
        EngineByte s st x.pasid (teamKernel s (x.team.getD 0)) dst (cell r e) j .write (ld r e j) ∧
        ∀ r' < rows, ∀ e' < extent dst 0, ∀ k < n, ld r e j = ld r' e' k → r = r' ∧ e = e' ∧ j = k) →
      let arrives := fun (t : State) => exec (.tileArrival st id) s = .next t ∧
        (∃ y, findSub t st id = some y ∧ y.work = .gather dst rows rb none [{ b with arrived := true }]) ∧
        OnlyPlaces s t (fun l => ∃ r < rows, ∃ e < extent dst 0, ∃ j < n, l = ld r e j)
      (∀ a (at_ : Nat → Nat), b.addr = some a → a + rows * rb < 2 ^ 64 →
        (∀ o < rows * rb, ∃ f, b.frames[(a + o) / 4096 - a / 4096]? = some (some f) ∧ at_ o = 4096 * f + (a + o) % 4096 ∧
          at_ o < Config.hbmBytes) →
        (∀ r < rows, ∀ e < extent dst 0, ∀ j < n, ∀ o < rows * rb, ld r e j ≠ .phys (at_ o)) →
        ∃ t, arrives t ∧ ∀ r < rows, ∀ e < extent dst 0, ∀ j < n, locByte t (ld r e j) = homeByte s (at_ (r * rb + n * e + j))) ∧
      (b.addr = none → ∃ t, arrives t ∧ ∀ r < rows, ∀ e < extent dst 0, ∀ j < n, locByte t (ld r e j) =
        if dst.zfill then BitVec.ofNat 8 (dst.fill.toNat / 256 ^ j) else locByte s (ld r e j))) ∧
    (∀ sr dr sb db se de ra rd va vd, x.started = false → x.suspended = none → x.team = none → x.work = .tensor sr dr sb db se de →
      (stackOf s st).degraded = false → subFree (stackOf s st).subs x = true →
      (∀ e ∈ x.by_, ∀ G, tabFind s.groups e.1 = some G → settledBefore G e.2 = true) → recCovered x sr = true → recCovered x dr = true →
      engineBytes s st x.pasid 64 sr = .ok ra → engineBytes s st x.pasid 64 dr = .ok rd →
      recordView (fun i => (ra[i]?).getD 0) = some va → recordView (fun i => (rd[i]?).getD 0) = some vd →
      let a := viewBlock va 0 sb se
      let d := viewBlock vd 0 db de
      va.ragged = false → vd.ragged = false →
      (va.rank = vd.rank → va.ty = vd.ty → (∀ i < va.rank, extent a i = extent d i) → ∃ t, exec (.submissionStart st id) s = .next t ∧
        SameBytes s t ∧ findSub t st id = some { x with
          started := true, work := .slices [{ dst := d, src := a, grp := 0, ir := 0, target := none, arrived := false }] }) ∧
      (va.rank ≠ vd.rank ∨ va.ty ≠ vd.ty ∨ (∃ i < va.rank, extent a i ≠ extent d i) → ∃ t, exec (.submissionStart st id) s = .next t ∧
        SameBytes s t ∧ findSub t st id = some { x with started := true, work := .refused 3, error := 3 })) ∧
    (∀ va pa gid rid G r, id < s.fresh → x.started = true → x.suspended = none → x.error = 0 → x.work = .none → x.foot = [] → x.status = some va →
      x.count = none → x.task = none → x.packet = none → x.cardFlag = none → x.by_ = [(gid, rid)] →
      translateNow s st x.pasid va .write = .ok pa → pa + 8 ≤ Config.hbmBytes → s.promoted = [] → s.MemOk →
      tabFind s.groups gid = some G → findReq G rid = some r → (∀ e ∈ s.groups, e.2.paths ≠ []) →
      (∀ tm, x.team.bind (tabFind s.teams) = some tm → tm.exited = false) →
      ∃ t G', exec (.jobComplete st id) s = .next t ∧ homeNat t 8 pa = 1 ∧
        (∀ a, a < Config.hbmBytes → (a < pa ∨ pa + 8 ≤ a) → homeByte t a = homeByte s a) ∧ findSub t st id = none ∧
        tabFind t.groups gid = some G' ∧ findReq G' rid = none ∧
        ∀ k < 12, G'.flags.getLsbD k = (G.flags.getLsbD k || decide (r.flag.toNat = k ∧ tabFind G.owner k = some rid)))

/-! ### The matrix engine -/

/-- R246 to R248, R252, R257, R272: `GANGSET` writes a gang word that is valid for the group; an `MMA`, `MMAZ` or `MDRAIN` that passes its
checks opens an entry of the latch and raises the tile's count, or joins the entry that stands open for it; where that was the last
member, the entry fires into the sequencer and a multiplying instruction records the tile's drain extent.
Rests on the model's choices of assumptions 54, 63. -/
def Obligations.MatrixJoins : Prop :=
  ∀ (s : State) (g : Group) (p : Path) (h : LaneHdr) (tm : Team), s.At g p → g.handler = none → teamOf s g = some tm →
    (∀ q ∈ g.reqs, q.id < s.fresh) → (∀ e ∈ (coreOf s g.core).latch, e.id < s.fresh) →
    (∀ r, gangOk (sRead g p r) (kernOf s g).groups g.idx = true → ∃ t g' p', exec (.gangset h r) s = .next t ∧ t.At g' p' ∧
      PastLane s h p p' ∧ OtherPaths p g g' ∧ g'.gang = sRead g p r ∧ g'.reqs = g.reqs ∧
      (h.setf.toNat < 12 → g'.flags.getLsbD h.setf.toNat = true) ∧ OnlyGroupFresh s t ∧
      { g' with gang := g.gang, flags := g.flags, owner := g.owner, outq := g.outq, walked := g.walked, paths := g.paths } = g) ∧
    (gangOk g.gang (kernOf s g).groups g.idx = true →
      let away := ∃ i ∈ gangIdxs g.gang, ∃ k x, groupAt s tm i = some k ∧ k ≠ s.cur ∧ tabFind s.groups k = some x ∧ x.retired = false
      let opens := fun (ins : Instr) (td : TileDrain) (f : GangEnt → Prop) => ∀ n, openEntry s g = none →
        (coreOf s g.core).latch.length < 8 → tokenOf s g.core td.tile.toNat = some (.m g.team n) → away →
        Leaves s g p h (exec ins s) (.gang (s.fresh + 1) td.drain) (fun t _ => tokenOf t g.core td.tile.toNat = some (.m g.team (n + 1)) ∧
          ∃ e ∈ (coreOf t g.core).latch, e.id = s.fresh + 1 ∧ e.members = [(s.cur, s.fresh)] ∧ e.fired = false ∧ e.team = g.team ∧
            e.gang = g.gang ∧ e.td = td ∧ f e)
      let joins := fun (ins : Instr) (td : TileDrain) (names : List SReg) (mul : Bool) => ∀ n e,
        (coreOf s g.core).latch = [e] → openEntry s g = some e → (coreOf s g.core).seq.length < 4 → e.td = td → e.a.isSome = mul →
        tokenOf s g.core td.tile.toNat = some (.m g.team n) → sameWord e s.ir (gangRegs s g p td names) names = true →
        teamRuns s g.team = true → (∀ i ∈ gangIdxs g.gang, ∀ k, groupAt s tm i = some k → k = s.cur ∨ ∃ m ∈ e.members, m.1 = k) →
        Leaves s g p h (exec ins s) (.gang e.id td.drain) (fun t _ => (coreOf t g.core).latch = [] ∧
          ∃ f, (coreOf t g.core).seq = (coreOf s g.core).seq ++ [f] ∧ f.id = e.id ∧ f.fired = true ∧
            f.members = e.members ++ [(s.cur, s.fresh)] ∧
            (mul = true → extentOf t g.core td.tile.toNat = { m := e.m, n := e.n, pad := e.pad }))
      (∀ (fmt : MmaFmt) (td : TileDrain) (a b sc : SReg) (ra rb : Byte) (va vb : View), td.drain = false →
        layoutRecord s g ra.toNat = .ok va → layoutRecord s g rb.toNat = .ok vb → va.ragged = false → vb.ragged = false →
        let x := blockView g p va a
        let y := blockView g p vb b
        operandOk fmt true x = true → operandOk fmt false y = true → kOf x = kOf y → rangeOf s p (kernOf s g) x = none →
        rangeOf s p (kernOf s g) y = none → scaleBad (sRead g p (a + 5)) (kBlocks x) = none →
        scaleBad (sRead g p (b + 5)) (kBlocks x) = none →
        let is := fun (zero : Bool) (e : GangEnt) => e.zero = zero ∧ e.fmt = fmt ∧ e.a = some x ∧ e.b = some y ∧ e.m = rowsOf x ∧
          e.n = rowsOf y ∧ e.sa = sRead g p (a + 5) ∧ e.sb = sRead g p (b + 5) ∧ e.stepsDone = false ∧ e.kb = 0
        let names := sSpan a 6 ++ sSpan b 6 ++ sSpan sc 2
        opens (.mma h fmt td a b sc ra rb) td (is false) ∧ opens (.mmaz h fmt td a b sc ra rb) td (is true) ∧
        joins (.mma h fmt td a b sc ra rb) td names true ∧ joins (.mmaz h fmt td a b sc ra rb) td names true) ∧
      (∀ (slot : BitVec 4) (tile : Tile) (sc : SReg),
        let td : TileDrain := { drain := true, slot := slot, tile := tile }
        let x := extentOf s g.core tile.toNat
        drainChecks s g p slot.toNat (gangRegs s g p td (sSpan sc 2)) x.m x.n x.pad = none →
        opens (.mdrain h slot tile sc) td (fun e => e.stepsDone = true ∧ e.m = x.m ∧ e.n = x.n ∧ e.pad = x.pad) ∧
        joins (.mdrain h slot tile sc) td (sSpan sc 2) false))

/-- R257 to R259, R262: what the instructions that prepare tiles do: a scale load leaves its words outstanding, a drain load puts its
words into the slot, a tile is taken or passed by its token, and a tile access of a group that holds the token leaves the named elements
outstanding, with the data of a write read at issue.
Rests on the model's choices of assumptions 54, 57. -/
def Obligations.TilesAndScales : Prop :=
  ∀ (s : State) (g : Group) (p : Path) (h : LaneHdr), s.At g p → g.Clean → (∀ q ∈ g.reqs, q.id < s.fresh) →
    let at_once := fun (ins : Instr) (f : State → Prop) => ∃ t g' p', exec ins s = .next t ∧ t.At g' p' ∧ PastLane s h p p' ∧
      OtherPaths p g g' ∧ g'.reqs = g.reqs ∧ (h.setf.toNat < 12 → g'.flags.getLsbD h.setf.toNat = true) ∧ SameBytes s t ∧ f t
    (∀ (a n : SReg) (off : BitVec 14) (ls : List (Nat × Loc)), 1 ≤ (sRead g p n).toNat → off.toNat + (sRead g p n).toNat ≤ 16384 →
      (sPair g p a).toNat % 4 = 0 → (sRead g p n).toNat % 4 = 0 →
      sourcePlaces s g p (sPair g p a).toNat (sRead g p n).toNat = .ok ls →
      Issues s g p (exec (.scld h a n off) s) (some .acc) h.setf (.scld off.toNat (ls.map (fun e => e.2))) p.lpc (sPair g p a)
        (laneNext s h p)) ∧
    (∀ (a : SReg) (n : BitVec 7) (slot : BitVec 4) (ls : List (Nat × Loc)) (ws : List Dword),
      slotBusy (coreOf s g.core) g.team slot.toNat = false → (sPair g p a).toNat % 8 = 0 →
      sourcePlaces s g p (sPair g p a).toNat (8 * n.toNat) = .ok ls → readHeld s g s.fresh (ls.map (fun e => e.2)) (sPair g p a).toNat = false →
      (∀ e ∈ ls, ∀ pa, e.2 = .phys pa → (colLines (coreOf s (serveCore s g pa))).length + ls.length ≤ 16) →
      ws = (List.range n.toNat).map (fun i => BitVec.ofNat 64
        ((((ls[2 * i]?).map (fun e => (loadLoc s g .col e.2 4).2.1)).getD 0) +
          2 ^ 32 * (((ls[2 * i + 1]?).map (fun e => (loadLoc s g .col e.2 4).2.1)).getD 0))) →
      drainRefused ws = none →
      drainUsed (coreOf s g.core) + n.toNat ≤ 512 + (slotWords (coreOf s g.core) g.team slot.toNat).length →
      at_once (.drld h a n slot) (fun t => slotWords (coreOf t g.core) g.team slot.toNat = ws ∧
        ∀ m k, (m ≠ g.team ∨ k ≠ slot.toNat) → slotWords (coreOf t g.core) m k = slotWords (coreOf s g.core) m k)) ∧
    (∀ (tile : Tile),
      let tok := fun (t : State) => tokenOf t g.core tile.toNat
      let now := tok s
      (now = none → at_once (.tkpass h tile) (fun t => tok t = some (.m g.team 0)) ∧
        at_once (.tktake h tile) (fun t => tok t = some (.v g.team s.cur))) ∧
      (∀ n, now = some (.m g.team n) → at_once (.tkpass h tile) (fun t => tok t = now)) ∧
      (now = some (.m g.team 0) → at_once (.tktake h tile) (fun t => tok t = some (.v g.team s.cur))) ∧
      (∀ n, 0 < n → now = some (.m g.team n) → Leaves s g p h (exec (.tktake h tile) s) (.tktake tile.toNat)
        (fun t _ => tok t = some (.p g.team s.cur n))) ∧
      (now = some (.v g.team s.cur) → at_once (.tktake h tile) (fun t => tok t = now) ∧
        (accBusy g tile.toNat = false → at_once (.tkpass h tile) (fun t => tok t = some (.m g.team 0))) ∧
        (accBusy g tile.toNat = true → Leaves s g p h (exec (.tkpass h tile) s) (.tkpass tile.toNat)
          (fun t _ => tok t = now)))) ∧
    (∀ (tile : Tile) (vd vx vs : VReg), tokenOf s g.core tile.toNat = some (.v g.team s.cur) →
      let lanes := maskLanes (activeMask g p)
      (∀ l ∈ lanes, (vWord g s.clock vx.toNat l).toNat < 16384) →
      Issues s g p (exec (.accrd h vd tile vx) s) (some .acc) h.setf
        (.accrd vd tile.toNat (lanes.map (fun l => (l, (vWord g s.clock vx.toNat l).toNat)))) p.lpc 0 (laneNext s h p) ∧
      Issues s g p (exec (.accwr h tile vx vs) s) (some .acc) h.setf
        (.accwr tile.toNat (lanes.map (fun l => ((vWord g s.clock vx.toNat l).toNat, vWord g s.clock vs.toNat l)))) p.lpc 0
        (laneNext s h p))

/-- R146, R252 to R254, R257: the sequencer's step over a block whose operands lie in scratchpads updates each element of a live row by
the scaled dot product of the block, from zero in the first block of an `MMAZ`, and no other element of the tile; a gang instruction
without a drain whose steps are done completes in every member; R146: a block's contribution is the exact sum of its exact products by
both scales, rounded once, and its sum with the element rounded once more, with the NaN, overflow and NaN-scale outcomes and their flags.
Rests on the model's choices of assumption 74. -/
def Obligations.MatrixRuns : Prop :=
  (∀ (s : State) (c : Nat) (e : GangEnt) (a b : View) (pa pb : Nat → Nat → List Loc), (coreOf s c).seq = [e] → e.stepsDone = false →
    e.stop = none → startHeld s e = false → teamRuns s e.team = true → entStalled s e = false → e.a = some a → e.b = some b → e.kb < kBlocks a →
    tabWf 0 (coreOf s c).acc = true → (coreOf s c).accPoison = [] → (coreOf s c).scalePoison = [] →
    let t0 := e.td.tile.toNat
    let place := fun (v : View) (i k : Nat) =>
      elemPlaces s (((tabFind s.teams e.team).map (fun t => stackNo t.core)).getD 0) (teamPasid s e.team) (teamKernel s e.team) v
        (opIndex v i k) .read
    let sound := fun (v : View) (pl : Nat → Nat → List Loc) (i k : Nat) => place v i k = .ok (pl i k) ∧
      (∀ l ∈ pl i k, ∃ d o, l = .spad d o ∧ spadPoisoned s d o = false)
    (∀ i k, i ∈ liveRows e a e.kb → liveAt a i (64 * e.kb + k) = true → k < 64 → sound a pa i (64 * e.kb + k)) →
    (∀ j k, j < e.n → liveAt b j (64 * e.kb + k) = true → k < 64 → sound b pb j (64 * e.kb + k)) →
    let old := fun (i j : Nat) => if e.zero = true ∧ e.begun = false then 0 else accRead s c t0 (128 * i + j)
    let pairs := fun (i j : Nat) => (((List.range 64).map (fun k => 64 * e.kb + k)).filter (fun k =>
      liveAt a i k && liveAt b j k)).map (fun k =>
        (codeVal e.fmt (readCode s e.team a i k (pa i k)).1, codeVal e.fmt (readCode s e.team b j k (pb j k)).1))
    e.m ≤ 128 → e.n ≤ 128 →
    ∃ t f, exec (.matrixStep c) s = .next t ∧ (coreOf t c).seq = [f] ∧ f.kb = e.kb + 1 ∧ f.begun = true ∧
      f.stepsDone = decide (kBlocks a ≤ e.kb + 1) ∧ t.groups = s.groups ∧ SameBytes s t ∧
      (∀ i j, i < 128 → j < 128 → accRead t c t0 (128 * i + j) =
        if i ∈ liveRows e a e.kb ∧ j < e.n then (blockUpdate (old i j) (scaleByte s e e.sa e.kb i) (scaleByte s e e.sb e.kb j)
          (pairs i j)).1
        else old i j) ∧
      ∀ u x, u ≠ t0 → x < 16384 → accRead t c u x = accRead s c u x) ∧
  (∀ (s : State) (c n gid rid : Nat) (e : GangEnt) (G : Group) (r : Req), (coreOf s c).seq = [e] → (coreOf s c).latch = [] →
    e.stepsDone = true → e.td.drain = false → e.members = [(gid, rid)] → tokenOf s c e.td.tile.toNat = some (.m e.team n) →
    tabFind s.groups gid = some G → findReq G rid = some r → (∀ x ∈ s.groups, x.2.paths ≠ []) →
    (∀ m, tabFind s.teams e.team = some m → m.exited = false) →
    ∃ t G', exec (.matrixComplete c) s = .next t ∧ (coreOf t c).seq = [] ∧ tokenOf t c e.td.tile.toNat = some (.m e.team (n - 1)) ∧
      tabFind t.groups gid = some G' ∧ findReq G' rid = none ∧
      (∀ k < 12, G'.flags.getLsbD k = (G.flags.getLsbD k || decide (r.flag.toNat = k ∧ tabFind G.owner k = some rid))) ∧
      (∀ k, G'.fpflags.getLsbD k = (G.fpflags.getLsbD k || e.fp.getLsbD k || r.fp.getLsbD k)) ∧ SameBytes s t) ∧
  (∀ (fmt : MmaFmt) (ps : List (Nat × Nat)) (sa sb : Byte) (q : Word),
    (∀ e ∈ ps, e.1 < 2 ^ 16 ∧ e.2 < 2 ^ 16 ∧ (fmt ≠ .bf16 → fmt ≠ .f16 → e.1 < 256 ∧ e.2 < 256)) →
    let u := blockUpdate q sa sb (ps.map (fun e => (codeVal fmt e.1, codeVal fmt e.2)))
    let nan := fun (c : Nat) => (fmt = .e4m3 ∧ c % 128 = 127) ∨ (fmt = .e5m2 ∧ 0x7C < c % 128) ∨ (fmt = .bf16 ∧ 0x7F80 < c % 2 ^ 15) ∨
      (fmt = .f16 ∧ 0x7C00 < c % 2 ^ 15)
    (127 ≤ sa.toNat ∨ 127 ≤ sb.toNat → u = (0x7FC00000, 0x80)) ∧
    (∀ x y : Rat, refVal .e4m3 sa.toNat = some x → refVal .e4m3 sb.toNat = some y → sa.toNat < 127 → sb.toNat < 127 → refFinite q →
      ((∃ e ∈ ps, nan e.1 ∨ nan e.2) → u = (0x7FC00000, 0x01)) ∧
      (∀ (a b : Nat × Nat → Rat), (∀ e ∈ ps, refOperand fmt e.1 = some (a e) ∧ refOperand fmt e.2 = some (b e)) →
        let d := (ps.map (fun e => a e * b e)).sum * x * y
        (refOver .f32 .rne d → u = (if d < 0 then 0xFF800000 else 0x7F800000, 0x04)) ∧
        (refFits .f32 .rne d → ∃ w : Word, RoundsTo .f32 .rne d w.toNat ∧
          (refFits .f32 .rne (refRat q + refRat w) → RoundsTo .f32 .rne (refRat q + refRat w) u.1.toNat ∧ u.2 = 0) ∧
          (refOver .f32 .rne (refRat q + refRat w) → u = (if refRat q + refRat w < 0 then 0xFF800000 else 0x7F800000, 0x04))))) ∧
    (0x7F800000 < q.toNat % 2 ^ 31 → u.1 = 0x7FC00000))

/-! ### The drain unit -/

/-- R139, R265 to R268: what the drain operations on registers write in each of the 64 lanes, the flags that they add (a table function of a
signalling NaN raises `invalid`), of which the unit keeps only `invalid` and `overflow`, and that nothing else changes; R267, R268: a scale of a positive finite magnitude that is not above 448 times the format's top is a positive value that holds the
magnitude, without a flag; the special values of the table functions.
Rests on the model's choices of assumption 1. -/
def Obligations.DrainOperations : Prop :=
  (
    ∀ (s : State) (e : GangEnt) (r : DrainRun) (d a b c : EReg) (o : DSrc), InDrain s e r →
      let goes := fun (i : Instr) (f : Nat → Word × Byte) => DrainWrites s r (exec i s) d (fun x => (f x).1) (fun x => (f x).2)
      let A := eReg r a
      let B := eReg r b
      let O := fun x => dOperand r x o
      let C := eReg r c
      let sig := fun (w : Word) => if 0x7F800000 < w.toNat % 2 ^ 31 ∧ w.toNat % 2 ^ 23 < 2 ^ 22 then (0x01 : Byte) else 0
      goes (.dadd d a o) (fun x => f32Add false .rne (A x) (O x)) ∧
      goes (.dmul d a o) (fun x => f32Mul false .rne (A x) (O x)) ∧
      goes (.dfma d a o c) (fun x => f32Fma false .rne (A x) (O x) (C x)) ∧
      goes (.dmin d a o) (fun x => f32Min false (A x) (O x)) ∧
      goes (.dmax d a o) (fun x => f32Max false (A x) (O x)) ∧
      goes (.dclamp d a o c) (fun x => ((f32Min false (f32Max false (A x) (O x)).1 (C x)).1,
        (f32Max false (A x) (O x)).2 ||| (f32Min false (f32Max false (A x) (O x)).1 (C x)).2)) ∧
      (∀ n, goes (.dscl d a n) (fun x => f32Scale false .rne (A x) n.toInt)) ∧
      goes (.dgelu d a) (fun x => (drainFn .gelu (A x), sig (A x))) ∧
      goes (.dsilu d a) (fun x => (drainFn .silu (A x), sig (A x))) ∧
      goes (.dtanh d a) (fun x => (drainFn .tanh (A x), sig (A x))) ∧
      goes (.dsig d a) (fun x => (drainFn .sig (A x), sig (A x))) ∧
      goes (.drelu d a) (fun x => (if 0x7F800000 < (A x).toNat % 2 ^ 31 then 0x7FC00000
        else if (A x).toNat = 0 ∨ 2 ^ 31 ≤ (A x).toNat then 0 else A x, 0)) ∧
      goes (.dq8 d a b) (fun x => quotCode fmtE4m3 (A x) (B x)) ∧
      goes (.dq4 d a b) (fun x => quotCode fmtE2m1 (A x) (B x)) ∧
      (∀ sat t, goes (.dcvt sat t d a) (fun x => (BitVec.ofNat 32 (cvtEl false .rne sat (cvtTarget t) .f32 (A x).toNat).1,
        (cvtEl false .rne sat (cvtTarget t) .f32 (A x).toNat).2))) ∧
      (goes (.dsel .gt d a b c) (fun x => (if 1 ≤ (C x).toNat ∧ (C x).toNat ≤ 0x7F800000 then A x else B x, 0))) ∧
      (goes (.dsel .ge d a b c) (fun x => (if (C x).toNat ≤ 0x7F800000 ∨ (C x).toNat = 2 ^ 31 then A x else B x, 0))) ∧
      (goes (.dsel .ne d a b c) (fun x => (if (C x).toNat % 2 ^ 31 ≠ 0 then A x else B x, 0))) ∧
      (goes (.dsel .un d a b c) (fun x => (if 0x7F800000 < (C x).toNat % 2 ^ 31 then A x else B x, 0))) ∧
      goes (.dmov d o) (fun x => (O x, 0)) ∧
      (let lanes := (List.range 64).filter (fun x => decide (64 * r.seg + x < e.n))
       let nan := lanes.any (fun x => decide (0x7F800000 < (A x).toNat % 2 ^ 31))
       let m := (lanes.map (fun x => (A x).toNat % 2 ^ 31)).foldl max 0
       let scale := fun (top : Nat) => if nan then ((0x7FC00000 : Word), (0x01 : Byte))
         else if m = 0x7F800000 then (0x7FC00000, 0x01) else if m = 0 then (0x3F800000, 0)
         else scaleFor (valOf fmtF32 m) top
       goes (.damax .f32 d a) (fun _ => (if nan then 0x7FC00000 else BitVec.ofNat 32 m, 0)) ∧
       goes (.damax .e4m3 d a) (fun _ => scale 448) ∧ goes (.damax .e2m1 d a) (fun _ => scale 6))) ∧
  (
    (∀ (m top : Nat), (top = 448 ∨ top = 6) → 1 ≤ m → m < 0x7F800000 → refRat (BitVec.ofNat 32 m) ≤ 448 * top →
      ∃ w, scaleFor (valOf fmtF32 m) top = (w, 0) ∧ refFinite w ∧ 0 < refRat w ∧ refRat w ≤ 448 ∧
        refRat (BitVec.ofNat 32 m) ≤ top * refRat w) ∧
    (∀ (w : Word), 0x7F800000 < w.toNat % 2 ^ 31 → ∀ f, drainFn f w = 0x7FC00000) ∧
    drainFn .tanh 0x7F800000 = 0x3F800000 ∧ drainFn .tanh 0xFF800000 = 0xBF800000 ∧ drainFn .sig 0x7F800000 = 0x3F800000 ∧
    drainFn .sig 0xFF800000 = 0 ∧ drainFn .gelu 0x7F800000 = 0x7F800000 ∧ drainFn .gelu 0xFF800000 = 0x80000000 ∧
    drainFn .silu 0x7F800000 = 0x7F800000 ∧ drainFn .silu 0xFF800000 = 0x80000000)

/-- R142, R266, R269, R270: the drain's loads give each lane the element at its address in a scratchpad, widened, with `invalid` for a signalling
NaN that is widened, and +0 to lanes past N; its stores
write the low bytes of the lanes below N at their addresses, two 4-bit codes to a byte, and the scale byte of lane 0; no other byte
changes.
Rests on the model's choices of assumption 73. -/
def Obligations.DrainMemory : Prop :=
  ∀ (s : State) (e : GangEnt) (r : DrainRun) (d a : EReg) (p m : SReg) (core : Nat) (o : Nat → Nat), InDrain s e r →
    let base := regPair e.regs p
    let stride := regWord e.regs m
    let off := fun (k : Nat) => if spaceNo base = 0 then (base + k) % 2 ^ 64 else base % 2 ^ 32 + k
    let lies := fun (k z : Nat) (wr : Bool) (q : Nat) =>
      runPlaces s e.team (spaceNo base, off k, z, wr) = .ok ((List.range z).map (fun i => .spad core (q + i)))
    let j := fun (x : Nat) => 64 * r.seg + x
    let live := fun (x : Nat) => x < 64 ∧ j x < e.n
    let loads := fun (i : Instr) (f : Nat → Word) (fl : Nat → Byte) => DrainWrites s r (exec i s) d f fl
    let sig := fun (t : DMemTy) (v : Nat) => match t with
      | .f32 => (0 : Byte)
      | .bf16 => if 0x7F80 < v % 2 ^ 15 ∧ v % 2 ^ 7 < 2 ^ 6 then 0x01 else 0
      | .f16 => if 0x7C00 < v % 2 ^ 15 ∧ v % 2 ^ 10 < 2 ^ 9 then 0x01 else 0
    let stores := fun (i : Instr) (f : State → Prop) (inside : Nat → Prop) => ∃ t, exec i s = .next t ∧ f t ∧
      (coreOf t s.drainCore).drain = some { r with pc := r.pc + 1 } ∧ t.groups = s.groups ∧
      (∀ c q, (c ≠ core ∨ ¬inside q) → spadByte t c q = spadByte s c q) ∧ ∀ x, homeByte t x = homeByte s x
    (∀ t, let z := dmemSize t
      (lies (r.row * z) z false (o 0) → loads (.drow t d p) (fun _ => widen t (spadNat s core z (o 0)))
        (fun _ => sig t (spadNat s core z (o 0)))) ∧
      ((∀ x, live x → lies (j x * z) z false (o x)) →
        loads (.dcol t d p) (fun x => if j x < e.n then widen t (spadNat s core z (o x)) else 0)
          (fun x => if j x < e.n then sig t (spadNat s core z (o x)) else 0)) ∧
      ((∀ x, live x → lies (r.row * stride + j x * z) z false (o x)) →
        loads (.dld t d p m) (fun x => if j x < e.n then widen t (spadNat s core z (o x)) else 0)
          (fun x => if j x < e.n then sig t (spadNat s core z (o x)) else 0))) ∧
    ((coreOf s core).bars = [] → tabWf 0 (coreOf s core).spad = true →
      (∀ t, t ≠ .e2m1 → let z := dstSize t
        (∀ x, live x → lies (r.row * stride + j x * z) z true (o x)) → (∀ x y, live x → live y → x < y → o x + z ≤ o y) →
        stores (.dst t a p m) (fun u => ∀ x, live x → spadNat u core z (o x) = (eReg r a x).toNat % 256 ^ z)
          (fun q => ∃ x, live x ∧ o x ≤ q ∧ q < o x + z)) ∧
      ((∀ x, live x → x % 2 = 0 → lies (r.row * stride + j x / 2) 1 true (o x)) → (∀ x y, live y → x % 2 = 0 → y % 2 = 0 → x < y → o x < o y) →
        stores (.dst .e2m1 a p m) (fun u => ∀ x, live x → x % 2 = 0 → (spadByte u core (o x)).toNat =
            (eReg r a x).toNat % 16 + if j x + 1 < e.n then (eReg r a (x + 1)).toNat % 16 * 16 else 0)
          (fun q => ∃ x, live x ∧ x % 2 = 0 ∧ q = o x)) ∧
      (lies (r.seg * stride + r.row) 1 true (o 0) →
        stores (.dsts a p m) (fun u => (spadByte u core (o 0)).toNat = scaleCode (eReg r a 0)) (fun q => q = o 0)))

/-- R263, R264, R276: a drain whose checks pass enters its first segment, or is finished where its region is empty; the registers at the
entry are the scaled and the raw elements of the segment and zeros; `DEND` goes to the next segment of the region or finishes; a finished
drain completes its instruction in every member, with the bits of its accumulation and of the drain, over a tile that `.zero` clears.
Rests on the model's choices of assumptions 73, 94. -/
def Obligations.DrainSegments : Prop :=
  (∀ (s : State) (c : Nat) (e : GangEnt), (coreOf s c).drain = none → (coreOf s c).seq = [e] → e.stepsDone = true → e.td.drain = true →
    e.stop = none → e.saved = none → startHeld s e = false → teamRuns s e.team = true → entStalled s e = false →
    (regionOf e = [] → ∃ t d, exec (.drainSegment c) s = .next t ∧ (coreOf t c).drain = some d ∧ d.ent = e.id ∧ d.finished = true ∧
      d.fp = e.sigFp ∧
      SameBytes s t ∧ t.groups = s.groups) ∧
    (∀ i g rest, regionOf e = (i, g) :: rest → (coreOf s c).accPoison = [] → segFault s e i g ((drainRunWords e.prog).mapIdx (fun n w => (n, w))) = none →
      ∃ t d, exec (.drainSegment c) s = .next t ∧ (coreOf t c).drain = some d ∧ d.ent = e.id ∧ d.row = i ∧ d.seg = g ∧ d.inSeg = true ∧
        d.pc = 0 ∧ d.finished = false ∧ SameBytes s t ∧ t.groups = s.groups ∧
        ∀ x < 64, eReg d 0 x = (f32Mul false .rne (accRead s c e.td.tile.toNat (128 * i + 64 * g + x)) e.sigma).1 ∧
          eReg d 1 x = accRead s c e.td.tile.toNat (128 * i + 64 * g + x) ∧ ∀ q : EReg, 2 ≤ q.toNat → eReg d q x = 0)) ∧
  (∀ (s : State) (e : GangEnt) (r : DrainRun) (z : Bool), InDrain s e r →
    ∃ t d, exec (.dend z) s = .next t ∧ (coreOf t s.drainCore).drain = some d ∧ d.inSeg = false ∧ d.pc = 0 ∧ d.fp = r.fp ∧
      { t with cores := s.cores } = s ∧
      (∀ pre i g post, regionOf e = pre ++ (r.row, r.seg) :: (i, g) :: post → (r.row, r.seg) ∉ pre →
        d.row = i ∧ d.seg = g ∧ d.finished = r.finished) ∧
      (∀ pre, regionOf e = pre ++ [(r.row, r.seg)] → (r.row, r.seg) ∉ pre → d.finished = true)) ∧
  ∀ (s : State) (c n gid rid : Nat) (e : GangEnt) (d : DrainRun) (G : Group) (r : Req), (coreOf s c).seq = [e] →
    (coreOf s c).latch = [] → (coreOf s c).drain = some d → d.ent = e.id → d.finished = true → e.members = [(gid, rid)] →
    tokenOf s c e.td.tile.toNat = some (.m e.team n) → tabFind s.groups gid = some G → findReq G rid = some r →
    (∀ x ∈ s.groups, x.2.paths ≠ []) → (∀ m, tabFind s.teams e.team = some m → m.exited = false ∧ m.rolling = none) →
    ∃ t G', exec (.drainComplete c) s = .next t ∧ (coreOf t c).seq = [] ∧ (coreOf t c).drain = none ∧
      tokenOf t c e.td.tile.toNat = some (.m e.team (n - 1)) ∧ tabFind t.groups gid = some G' ∧ findReq G' rid = none ∧
      (∀ k < 12, G'.flags.getLsbD k = (G.flags.getLsbD k || decide (r.flag.toNat = k ∧ tabFind G.owner k = some rid))) ∧
      (∀ k, G'.fpflags.getLsbD k = (G.fpflags.getLsbD k || e.fp.getLsbD k || d.fp.getLsbD k || r.fp.getLsbD k)) ∧
      (∀ x < 16384, accRead t c e.td.tile.toNat x = if d.zeroAfter then 0 else accRead s c e.td.tile.toNat x) ∧ SameBytes s t

/-! ### Synchronisation -/

/-- R308 to R315, R318: what the barrier instructions do at an object of the group's window: `BARI` writes a valid object and `EXPECT`
raises its tile count, sets the target or clears it; `ARRIVE` lowers the count of the phase, and the phase whose arrivals and tiles are
at 0 completes at the end of the clock, with its entries and its waits told; `BWAIT` waits for the phase of the group's arrival, or for the
current one; `ROLESET` writes the role; R315: a `BWAIT` whose phase has completed completes when it returns, with the counter and the flag, and
frees the entry of the arrival table that it waited on; one whose phase has not stays.
Rests on the model's choices of assumptions 37, 38. -/
def Obligations.BarrierObjects : Prop :=
  (
    ∀ (s : State) (g : Group) (p : Path) (h : LaneHdr) (tm : Team) (c o : Nat) (ro rn : SReg), s.At g p →
      (∀ q ∈ g.reqs, q.id < s.fresh) → teamOf s g = some tm → tm.idx < 32 → tabWf 0 (coreOf s c).spad = true → spread (kernOf s g) = false →
      tabFind (coreOf s c).barDue o = none →
      let off := (sRead g p ro).toNat
      let n := (sRead g p rn).toNat
      let b := readBar s c o
      let at_once := fun (ins : Instr) (f : State → Group → Prop) => ∃ t g' p', exec ins s = .next t ∧ t.At g' p' ∧ PastLane s h p p' ∧
        OtherPaths p g g' ∧ (∀ q ∈ g'.reqs, q.id < s.fresh) ∧ (h.setf.toNat < 12 → g'.flags.getLsbD h.setf.toNat = true) ∧
        (∀ a, homeByte t a = homeByte s a) ∧ f t g'
      let rest := fun (t : State) => ∀ d i, (d ≠ c ∨ i < o ∨ o + 16 ≤ i) → spadByte t d i = spadByte s d i
      (∀ k, at_once (.roleset h k) (fun t g' => g'.role.toNat = k.toNat ∧ ∀ d i, spadByte t d i = spadByte s d i)) ∧
      (off = 0xFFFFFFFF → at_once (.expect h ro rn) (fun t g' => g'.target = none ∧ ∀ d i, spadByte t d i = spadByte s d i)) ∧
      (off % 16 = 0 → off + 16 ≤ windowSize (kernOf s g) → winPlace s (kernOf s g) tm off = some (c, o) →
        (bariCheck s c o n b = none → at_once (.bari h ro rn) (fun t _ => barValid t c o = true ∧ rest t ∧
          readBar t c o = { n := n, rem := n, tiles := 0, broken := false, owner := tm.idx, phase := 0 })) ∧
        (allPerformed g = true → arriveCheck s g c o off b = none →
          at_once (.arrive h ro) (fun t g' => rest t ∧ readBar t c o = { b with rem := b.rem - 1 } ∧
            tabFind (coreOf t c).barDue o = some s.clock ∧ { off := off, phase := b.phase, passed := false } ∈ g'.arrivals)) ∧
        (barUsable s c o b = none →
          (off ≠ 0xFFFFFFFF → n ≤ 65535 → b.tiles + n ≤ 2 ^ 20 →
            at_once (.expect h ro rn) (fun t g' => rest t ∧ g'.target = some off ∧ readBar t c o = { b with tiles := b.tiles + n })) ∧
          (let waits := fun (ph : Nat) (own : Bool) => Issues s g p (exec (.bwait h ro) s) (some .spad) h.setf
            (.bwait c o off ph own false false) p.lpc 0 (laneNext s h p)
           ((∀ a ∈ g.arrivals, a.off ≠ off) → waits b.phase false) ∧
           (∀ a, g.arrivals.find? (fun a => decide (a.off = off) && !a.passed) = some a → waits a.phase true) ∧
           ((∀ a ∈ g.arrivals, a.off = off → a.passed = true) → (∃ a ∈ g.arrivals, a.off = off) → waits 65536 true))))) ∧
  (
    ∀ (s : State) (rest : List Turn) (c o : Nat) (k : Core), s.powered = true → s.agenda = .elapse 1 :: rest →
      mustIssue wordIssues { s with agenda := rest } = false → tabFind s.cores c = some k → (s.cores.map (fun e => e.1)).Nodup →
      k.barDue = [(o, s.clock)] → (∀ e ∈ s.cores, e.1 ≠ c → e.2.barDue = []) → barValid s c o = true → tabWf 0 k.spad = true →
      let b := readBar s c o
      b.broken = false → b.rem = 0 → b.tiles = 0 →
      ∃ t, step s = .next t ∧ t.clock = s.clock + 1 ∧ barValid t c o = true ∧
        readBar t c o = { b with rem := b.n, phase := (b.phase + 1) % 65536 } ∧
        (∀ d i, (d ≠ c ∨ i < o ∨ o + 16 ≤ i) → spadByte t d i = spadByte s d i) ∧ (∀ a, homeByte t a = homeByte s a) ∧
        (∀ gid g, tabFind s.groups gid = some g → (g.reqs.map (fun r => r.id)).Nodup → ∃ g', tabFind t.groups gid = some g' ∧
          g'.paths = g.paths ∧
          g'.arrivals = g.arrivals.map (fun a =>
            if a.phase = b.phase ∧ arrivalAt s g a = some (c, o) then { a with passed := true } else a) ∧
          (∀ r ∈ g.reqs, ∀ off ph own l br, r.kind = .bwait c o off ph own l br →
            ∃ r' ∈ g'.reqs, r'.id = r.id ∧ r'.kind = .bwait c o off (if ph = b.phase then 65536 else ph) own l br))) ∧
  (
    ∀ (s : State) (gid : Nat) (G : Group) (r : Req) (c o off ph : Nat) (own : Bool), tabFind s.groups gid = some G → findReq G r.id = some r →
      r.stalled = false → G.paths ≠ [] → r.kind = .bwait c o off ph own false false →
      (ph ≠ 65536 → exec (.memoryRequestReturn gid r.id) s = .next s) ∧
      (ph = 65536 → spread (kernOf s G) = false → ∃ t G', exec (.memoryRequestReturn gid r.id) s = .next t ∧
        tabFind t.groups gid = some G' ∧ findReq G' r.id = none ∧
        (own = false → G'.arrivals = G.arrivals) ∧
        (own = true → outOf s G = false → G'.arrivals = G.arrivals.eraseP (fun a => decide (a.off = off) && a.passed)) ∧
        (∀ k < 12, G'.flags.getLsbD k = (G.flags.getLsbD k || decide (r.flag.toNat = k ∧ tabFind G.owner k = some r.id))) ∧ SameBytes s t))

/-- R320 to R323: an `XRED` contributes each active lane's word, and the neutral word of the operation elsewhere, to the next round of its
collective; a round to which every member has contributed and whose contribution has left, within its timeout, ends with its result in the half of
the round's number; `XWAIT` waits for the rounds issued, or completes at once where all have ended; a round that times out ends with NaNs and fails
the collective; members that disagree on the operation get NaNs.
Rests on the model's choices of assumptions 13, 40, 41. -/
def Obligations.Collectives : Prop :=
  (∀ (s : State) (g : Group) (p : Path) (h : LaneHdr) (rh : SReg) (v : VReg) (c : Collective), s.At g p → g.Clean →
    (∀ q ∈ g.reqs, q.id < s.fresh) → tabFind s.collectives (sRead g p rh).toNat = some c → (sRead g p rh).toNat < 4096 →
    c.pasid = pasidOf s g →
    let hd := (sRead g p rh).toNat
    let on := fun (l : Nat) => (activeMask g p).getLsbD l
    let word := fun (k l : Nat) => vWord g s.clock (v.toNat + k) l
    let joins := fun (op : XOp) (f : Nat → Word × Word) => c.issued < c.completed + 2 → c.failed = false →
      c.rounds.find? (fun r => r.k = c.issued) = none →
      Leaves s g p h (exec (.xred h op rh v) s) (.xred hd c.issued) (fun t _ => ∃ part, tabFind t.collectives hd = some { c with
          issued := c.issued + 1, rounds := c.rounds ++
            [{ k := c.issued, op := xopNo op, left := none, grp := s.cur, req := s.fresh, parts := [(c.me, xopNo op, part)] }] } ∧
        ∀ l < 96, tabGet 0 part (2 * l) = (f l).1 ∧ (op = .pair → tabGet 0 part (2 * l + 1) = (f l).2))
    joins .max (fun l => (if on l then word 0 l else 0xFF800000, 0)) ∧ joins .sum (fun l => (if on l then word 0 l else 0x80000000, 0)) ∧
    joins .pair (fun l => if on l then (word 0 l, word 1 l) else (0xFF800000, 0)) ∧
    (c.completed < c.issued → Leaves s g p h (exec (.xwait h rh) s) (.xwait hd c.issued) (fun t _ => t.collectives = s.collectives)) ∧
    (c.issued ≤ c.completed → ∃ t g' p', exec (.xwait h rh) s = .next t ∧ t.At g' p' ∧ PastLane s h p p' ∧ g'.reqs = g.reqs ∧
      (h.setf.toNat < 12 → g'.flags.getLsbD h.setf.toNat = true) ∧ SameBytes s t)) ∧
  (∀ (s : State) (cn base t0 : Nat) (c : Collective) (r : Round) (G : Group) (q : Req), tabFind s.collectives cn = some c →
    c.rounds = [r] → r.k = c.completed → c.issued = c.completed + 1 → r.left = some t0 → tabFind s.groups r.grp = some G →
    findReq G r.req = some q → (∀ e ∈ s.groups, e.2.paths ≠ []) → base + 768 ≤ Config.hbmBytes → s.promoted = [] → s.MemOk →
    (∀ i < 192, ∃ e, tlbFind (stackOf s 0).tlb c.pasid (c.result + 768 * (r.k % 2) + 4 * i) = some e ∧
      leafUse e .write (c.result + 768 * (r.k % 2) + 4 * i) = .ok (base + 4 * i)) →
    let ends := fun (i : Instr) (ws : List Word) (failed : Bool) (fl : Byte) => ∃ t G', exec i s = .next t ∧
      (∀ k < ws.length, homeNat t 4 (base + 4 * k) = (ws.getD k 0).toNat) ∧
      (∀ a, a < Config.hbmBytes → (a < base ∨ base + 768 ≤ a) → homeByte t a = homeByte s a) ∧
      tabFind t.collectives cn = some { c with completed := c.completed + 1, rounds := [], failed := failed } ∧
      tabFind t.groups r.grp = some G' ∧ findReq G' r.req = none ∧
      (∀ k < 12, q.flag.toNat = k → tabFind G.owner k = some r.req → G'.flags.getLsbD k = true) ∧
      (fl.getLsbD 0 = true → G'.fpflags.getLsbD 0 = true) ∧ (fl.getLsbD 2 = true → G'.fpflags.getLsbD 2 = true)
    (c.port.isSome = true → s.clock < t0 + c.timeout → (∀ m < c.members, ∃ e ∈ r.parts, e.1 = m) →
      ends (.xredRoundComplete cn) (xResult c r).1 c.failed (xResult c r).2) ∧
    (t0 + c.timeout ≤ s.clock → ends (.collectiveTimeout cn) (List.replicate 192 0x7FC00000) true 0x01)) ∧
  (∀ (c : Collective) (r : Round) (m : Nat) (e : Nat × Nat × Tab Word), m < c.members → r.parts.find? (fun p => p.1 = m) = some e →
    e.2.1 ≠ r.op → xResult c r = (List.replicate 192 0x7FC00000, 0x01))

/-! ### The flash tier -/

/-- R281, R283, R285, R287, R289: an `APPEND` that passes its checks is accepted under the segment's next sequence number; an `APFENCE`
with no earlier append of the group writes the durable count at once, and else waits for its last; a `SEAL` of an open segment begins to
seal it, one of a sealed segment completes at once.
Rests on the model's choices of assumptions 43, 54. -/
def Obligations.AppendsAndSeals : Prop :=
  ∀ (s : State) (g : Group) (p : Path) (h : LaneHdr) (rg ra rn d : SReg) (name : Nat) (x : Segment), s.At g p →
    (∀ q ∈ g.reqs, q.id < s.fresh) → segBase s (pasidOf s g) (sPair g p rg).toNat = some (name, x) → tabFind s.segments name = some x →
    (∀ ls, appendsHeld s < 4096 → x.state = 1 → x.sealing = false → 1 ≤ (sRead g p rn).toNat → (sRead g p rn).toNat ≤ 1048576 →
      (sRead g p rn).toNat % 4 = 0 → (sPair g p ra).toNat % 4 = 0 →
      sourcePlaces s g p (sPair g p ra).toNat (sRead g p rn).toNat = .ok ls →
      let size := 16 + 16 * (((sRead g p rn).toNat + 15) / 16)
      x.tail + size ≤ 2 ^ x.z →
      ∃ t g' p' y, exec (.append h rg ra rn) s = .next t ∧ t.At g' p' ∧ PastLane s h p p' ∧ OtherPaths p g g' ∧
        (∃ q ∈ g'.reqs, q.id = s.fresh ∧ q.kind = .append name x.next (ls.map (fun e => e.2)) ∧ q.flag = h.setf ∧ q.path = some .flash) ∧
        (s.fresh, .flash, false) ∈ g'.outq ∧ tabFind g'.appends name = some x.next ∧ tabFind t.segments name = some y ∧
        y.next = x.next + 1 ∧ y.tail = x.tail + size ∧ y.durable = x.durable ∧ y.state = 1 ∧ y.bytes = x.bytes ∧
        x.next ∈ y.unread ∧ endOf y x.next = (if x.next = 0 then 128 else x.tail + size) ∧ t.mem = s.mem ∧ t.cores = s.cores) ∧
    (x.state ≠ 3 → tabGet 0 g.appends name = 0 → d.toNat % 2 = 0 → d.toNat < 60 → g.RegsOk →
      ∃ t g' p', exec (.apfence h d rg) s = .next t ∧ t.At g' p' ∧
        PastLane s h p p' ∧ OtherPaths p g g' ∧ g'.reqs = g.reqs ∧ (h.setf.toNat < 12 → g'.flags.getLsbD h.setf.toNat = true) ∧
        sPair g' p' d = BitVec.ofNat 64 x.durable ∧ (∀ r, r ≠ d → r ≠ d + 1 → sRead g' p' r = sRead g p r) ∧ SameBytes s t) ∧
    (x.state ≠ 3 → tabGet 0 g.appends name ≠ 0 → Issues s g p (exec (.apfence h d rg) s) (some .flash) h.setf
      (.apfence name (tabGet 0 g.appends name) d) p.lpc 0 (laneNext s h p)) ∧
    (x.state = 2 → ∃ t g' p', exec (.seal h rg) s = .next t ∧ t.At g' p' ∧ PastLane s h p p' ∧ g'.reqs = g.reqs ∧
      (h.setf.toNat < 12 → g'.flags.getLsbD h.setf.toNat = true) ∧ t.segments = s.segments ∧ SameBytes s t) ∧
    (x.state = 1 → Leaves { s with segments := tabPut s.segments name { x with sealing := true } } g p h (exec (.seal h rg) s)
      (.seal name) (fun t _ => tabFind t.segments name = some { x with sealing := true }))

/-- R53, R279, R282, R283, R285, R287 to R289, R333, R337: an append's payload is written behind its header of sequence number, length and CRC;
records become durable in sequence order, and the last one seals a segment that is being sealed, as soon as core 4's channel to Jasper has
room (R53); a failure ends an open segment; a stall
token holds a load of the flash tier, starts its timer and counts in its stack's lifetime counters (R333), a release lets it go on; a storage timeout is taken at the instruction that
waits for the load.
Rests on the model's choices of assumptions 42, 43. -/
def Obligations.StorageEvents : Prop :=
  (∀ (s : State) (gid sq c o name : Nat) (G : Group) (r : Req) (x : Segment), tabFind s.groups gid = some G → G.reqs = [r] →
    r.stalled = false → G.paths ≠ [] → r.kind = .append name sq [.spad c o] → tabFind s.segments name = some x →
    tabWf 0 x.bytes = true → (coreOf s c).spadPoison = [] → 32 ≤ endOf x sq → sq < 2 ^ 64 →
    ∃ t y G', exec (.memoryRequestReturn gid r.id) s = .next t ∧ tabFind t.segments name = some y ∧
      let w := endOf x sq - 32
      bytesNat (fun i => tabGet 0 y.bytes i) 8 w = sq ∧ bytesNat (fun i => tabGet 0 y.bytes i) 4 (w + 8) = 4 ∧
      bytesNat (fun i => tabGet 0 y.bytes i) 4 (w + 12) = (crcOf 4 (spadNat s c 4 o)).toNat ∧
      (∀ i < 4, tabGet 0 y.bytes (w + 16 + i) = spadByte s c (o + i)) ∧ (∀ i < 12, tabGet 0 y.bytes (w + 20 + i) = 0) ∧
      (∀ i, i < w ∨ w + 32 ≤ i → tabGet 0 y.bytes i = tabGet 0 x.bytes i) ∧ sq ∉ y.unread ∧ y.next = x.next ∧ y.durable = x.durable ∧
      tabFind t.groups gid = some G' ∧ G'.reqs = []) ∧
  (∀ (s : State) (name : Nat) (x : Segment), tabFind s.segments name = some x → x.state = 1 → s.hostWait = [] →
    (x.durable + 1 < x.next → x.durable + 1 ∉ x.unread →
      (x.sealing = false ∨ x.durable + 2 < x.next → exec (.recordDurable name) s =
        .next { s with segments := tabPut s.segments name { x with durable := x.durable + 1 } }) ∧
      (x.sealing = true → x.durable + 2 = x.next → ∃ t, exec (.recordDurable name) s = .next t ∧ tabFind t.segments name = some
        (if mailRoom s 4 8 then { x with durable := x.durable + 1, sealedLen := x.tail, state := 2, sealing := false }
         else { x with durable := x.durable + 1 }))) ∧
    exec (.segmentFailure name) s = .next { s with segments := tabPut s.segments name { x with state := 3 } }) ∧
  ∀ (s : State) (gid : Nat) (G : Group) (r : Req), tabFind s.groups gid = some G → G.reqs = [r] →
    (∀ d dbl pa, r.kind = .sload d dbl (.phys pa) → tierOf pa = .flash → s.promoted = [] →
      let counted := modStack s (stackNo G.core) (fun k => { k with life := { k.life with storageWaits := k.life.storageWaits + 1 } })
      exec (.stallToken gid r.id) s = .next (setGroup (if r.stallAt = 0 then counted else s) gid { G with reqs :=
        [{ r with stalled := true, stallAt := if r.stallAt = 0 then s.clock + 1 else r.stallAt }] })) ∧
    ((∀ e d, r.kind ≠ .gang e d) →
      exec (.stallRelease gid r.id) s = .next (setGroup s gid { G with reqs := [{ r with stalled := false }] })) ∧
    (∀ p w lane off cl, 0 < r.stallAt → r.late = false → G.susp = .run → G.due = [] → r.stallAt - 1 + s.storageTimeout ≤ s.clock →
      waitsTurn s gid G p.id = false → waiterOf s G r = some (p, w, lane) → (∃ q ∈ G.paths, q.id = p.id) → G.handler = none → G.garnet = none → clusterOf s G = some cl →
      cl.state = .resident → (kernOf s G).trapOff = some off →
      ∃ t G' q, exec (.storageTimeout gid r.id) s = .next t ∧ tabFind t.groups gid = some G' ∧
        G'.tcause = BitVec.ofNat 32 ((if lane then 256 else 0) + 0x1A) ∧ G'.tval0 = r.addr.extractLsb' 0 32 ∧
        G'.tval1 = r.addr.extractLsb' 32 32 ∧ G'.tspc = p.spc ∧ G'.tlpc = p.lpc ∧ G'.reqs = [{ r with late := true }] ∧
        findPath G' p.id = some q ∧ q.spc = BitVec.ofNat 32 off ∧ q.queue = [] ∧ q.running = false ∧ SameBytes s t)

/-! ### Queues and packets -/

/-- R40, R45 to R47, R51, R209, R212, R243: what a packet at the head of a queue that core 0 serves does when its checks pass: it is
accepted, its head word is written, and a launch is made, a copy submitted, a task defined, a barrier stands, translations are dropped (or the
accepted packet waits while accesses of the PASID that have passed their check are outstanding), a page that does not translate is recorded, a
block is demoted or promoted.
Rests on the model's choices of assumptions 17, 44, 45, 46, 47, 48, 69, 82, 85, 86, 95. -/
def Obligations.Packets : Prop :=
  ∀ (s : State) (qn pa : Nat) (q : Queue) (bs : List Byte), Serves s qn q bs → HeadAt s q pa → q.skip = 0 →
    let runs := fun (i : Instr) (done bar : Bool) (f : State → Prop) => ∃ t, exec i s = .next t ∧ Accepted t qn q bs done bar 0 ∧ f t
    let head := fun (t : State) => homeNat t 4 pa = (q.head + 1).toNat ∧ t.groups = s.groups
    (∀ k, isKind 1 bs = true → judgeLaunch s q.pasid bs = .inr k → runs (.launch qn) false false (fun t => head t ∧
      tabFind t.launches s.fresh = some (launchOfPacket qn q bs k))) ∧
    (∀ x, isKind 2 bs = true → listNat bs 40 1 < 48 → zeroBytes bs 41 87 = true → packetCard s (listNat bs 40 1) q.pasid (listNat bs 32 8) = .inr x →
      stackFull s (listNat bs 40 1) = false → (stackOf s (listNat bs 40 1)).degraded = false →
      runs (.copy qn) false false (fun t => head t ∧ ∃ y, (stackOf t (listNat bs 40 1)).subs = (stackOf s (listNat bs 40 1)).subs ++ [y] ∧
        y.packet = some (qn, q.head.toNat) ∧ y.work = x.work ∧ y.pasid = q.pasid ∧ y.started = x.started)) ∧
    (∀ x, isKind 3 bs = true → listNat bs 40 1 < 48 → listNat bs 42 2 ≤ 255 → zeroBytes bs 41 1 = true → zeroBytes bs 46 82 = true →
      packetCard s (listNat bs 40 1) q.pasid (listNat bs 32 8) = .inr x → 1 ≤ listNat bs 44 2 → listNat bs 44 2 ≤ 1024 →
      findSlot s (listNat bs 40 1) q.pasid (listNat bs 42 2) = none → (stackOf s (listNat bs 40 1)).tasks.length < 256 →
      (stackOf s (listNat bs 40 1)).degraded = false →
      runs (.task qn) false false (fun t => head t ∧ ∃ y, findSlot t (listNat bs 40 1) q.pasid (listNat bs 42 2) =
        some { pasid := q.pasid, num := listNat bs 42 2, v := listNat bs 44 2, c := 0, card := some y, state := .defined,
               packet := some (qn, q.head.toNat) })) ∧
    (isKind 4 bs = true → zeroBytes bs 32 96 = true → runs (.barrier qn) true true head) ∧
    (isKind 5 bs = true → listNat bs 40 8 % 4096 = 0 → listNat bs 48 8 % 4096 = 0 → zeroBytes bs 34 6 = true → zeroBytes bs 56 72 = true →
      rangeBad (listNat bs 40 8) (listNat bs 48 8) = false →
      let base := listNat bs 40 8
      let len := listNat bs 48 8
      (reqOp bs = 1 → pasidQuiet s q.pasid (fun _ => true) = true → s.promoted = [] →
        (∀ e ∈ s.stks, ∀ x ∈ e.2.subs, x.pins = [] ∧ x.pasid ≠ q.pasid) → runs (.invalidateTranslations qn) true false (fun t =>
          (∀ c x, x ∈ (coreOf t c).tlb → ¬(x.pasid = q.pasid ∧ x.va < base + len ∧ base < x.va + 2 ^ x.lg)) ∧
          (∀ k x, x ∈ (stackOf t k).tlb → ¬(x.pasid = q.pasid ∧ x.va < base + len ∧ base < x.va + 2 ^ x.lg)))) ∧
      (reqOp bs = 1 → pasidQuiet s q.pasid (fun _ => true) = false → (∀ p ∈ q.running, p.idx ≠ q.head.toNat) →
        runs (.invalidateTranslations qn) false false (fun t => head t ∧ t.stks = s.stks ∧ t.cores = s.cores ∧
          ∃ r, tabFind t.queues qn = some r ∧ ∃ k ∈ r.running, k.idx = q.head.toNat ∧ k.inval = some (base, len))) ∧
      (reqOp bs = 2 → len = 4096 → ReadsAs s q.pasid base (.bad 0x63) → runs (.prefault qn) true false (fun t => head t ∧
        ∃ r, (stackOf t 0).waitQ = (stackOf s 0).waitQ ++ [r] ∧ r.info.code = 0x63 ∧ r.info.cls = 1 ∧ r.pasid = q.pasid ∧
          r.info.addr = BitVec.ofNat 64 base)) ∧
      (reqOp bs = 2 → len = 4096 → (∃ a, ReadsAs s q.pasid base (.ok a)) → runs (.prefault qn) true false (fun t => head t ∧
        (stackOf t 0).waitQ = (stackOf s 0).waitQ)) ∧
      (∀ blk pool n b seg, reqOp bs = 3 → len = 4096 → s.promoted = [(blk, pool)] → segWindow s q.pasid base = some (n, seg) →
        seg.attach = some (q.pasid, b) → (seg.pa + (base - b)) / 65536 = blk → tierOf (blk * 65536) = .flash →
        pairQuiet s (blk, pool) = true → (∃ a, ReadsAs s q.pasid base (.ok a)) →
        runs (.demote qn) true false (fun t => head t ∧ t.promoted = [])) ∧
      (∀ a pool, reqOp bs = 4 → len = 4096 → ReadsAs s q.pasid base (.ok a) → mayPromote s (a / 65536) = true →
        poolFree s = some pool → runs (.prefetchToHbm qn) true false (fun t => t.promoted = s.promoted ++ [(a / 65536, pool)])))

/-- R49, R50: a conditional packet compares the masked word with its value; a skip consumes the packets after it where the test fails, a
jump where it holds, and a repeat goes on where it holds and else waits on the test word's line; one that has waited its time consumes the
packets after it.
Rests on the model's choices of assumption 44. -/
def Obligations.Conditionals : Prop :=
  (∀ (s : State) (qn pa : Nat) (q : Queue) (bs : List Byte) (v : Bool), Serves s qn q bs → HeadAt s q pa → isKind 6 bs = true →
    condBad bs = false → testHolds s q bs = some v →
    let runs := fun (i : Instr) (skip : Nat) => ∃ t, exec i s = .next t ∧ Accepted t qn q bs true false skip ∧
      homeNat t 4 pa = (q.head + 1).toNat
    (listNat bs 58 1 = 0 → runs (.conditionalSkip qn) (if v then 0 else listNat bs 60 2)) ∧
    (listNat bs 58 1 = 2 → runs (.conditionalJump qn) (if v then listNat bs 60 2 else 0)) ∧
    (listNat bs 58 1 = 1 → v = true → runs (.conditionalRepeat qn) 0) ∧
    (listNat bs 58 1 = 1 → v = false → ∃ t r, exec (.conditionalRepeat qn) s = .next t ∧ tabFind t.queues qn = some r ∧
      r.state = .waiting ∧ r.head = q.head ∧ r.since = (if q.since = 0 then s.clock + 1 else q.since) ∧
      r.watch = (fetcherAddr s q.pasid (listNat bs 32 8) .read).map (fun a => a / 128) ∧ SameBytes s t) ∧
    (listNat bs 58 1 = 1 → v = false → listNat bs 64 4 ≠ 0 → q.since ≠ 0 → q.since - 1 + 1000 * listNat bs 64 4 ≤ s.clock →
      (fetcherAddr (putStatus s q 0x06 q.head.toNat) q.pasid q.statusAddr .write).isSome →
      ∃ t, exec (.repeatTimeout qn) s = .next t ∧ Accepted t qn q bs true false (listNat bs 60 2))) ∧
  (∀ (a b : Nat), a < 2 ^ 64 → b < 2 ^ 64 → condTest 0 8 a b = decide (a = b) ∧ condTest 1 8 a b = decide (a ≠ b) ∧
    condTest 2 8 a b = decide (a < b) ∧ condTest 3 8 a b = decide (b ≤ a) ∧
    condTest 4 8 a b = decide ((BitVec.ofNat 64 a).toInt < (BitVec.ofNat 64 b).toInt) ∧
    condTest 5 8 a b = decide ((BitVec.ofNat 64 b).toInt ≤ (BitVec.ofNat 64 a).toInt))

/-- R41, R42, R45, R48: a watched line that changes reads the tail words in it and wakes the queues that wait on it; a packet whose
effects are done signals by a store or by an addition, raises its interrupt and leaves the queue; items are fed in array order to a core
that has room.
Rests on the model's choices of assumptions 49, 80, 83. -/
def Obligations.QueueEvents : Prop :=
  (∀ (s : State) (line qn w : Nat) (q : Queue), s.queues = [(qn, q)] → closingP s q.pasid = false → q.state ≠ .closing →
    (q.tailPa / 128 ≠ line → q.state = .waiting → q.watch = some line →
      exec (.lineWatchFire line) s = .next { s with queues := [(qn, { q with state := .active, watch := none })] }) ∧
    (q.tailPa / 128 = line → q.state = .active → fetcherNat s q.pasid .read 4 q.tailAddr = some w →
      exec (.lineWatchFire line) s = .next { s with queues := [(qn, { q with tail := BitVec.ofNat 32 w })] })) ∧
  (∀ (s : State) (qn idx pa : Nat) (q : Queue) (pk : Packet), tabFind s.queues qn = some q → q.state = .active → q.running = [pk] →
    pk.idx = idx → pk.effectsDone = true → pk.inval = none → (∀ e ∈ s.cores, e.2.col = []) → pk.sigAddr ≠ 0 →
    fetcherAddr s q.pasid pk.sigAddr .write = some pa → pa + 8 ≤ Config.hbmBytes → s.promoted = [] → s.MemOk →
    (hostStale s = true → ∃ t, exec (.packetComplete qn idx) s = .next t ∧ t.queues = s.queues ∧ t.msi = s.msi ∧ SameBytes s t) ∧
    (hostStale s = false → ∃ t, exec (.packetComplete qn idx) s = .next t ∧ tabFind t.queues qn = some { q with running := [] } ∧
      (pk.sigOp = 1 → homeNat t 8 pa = pk.sigVal.toNat) ∧
      (pk.sigOp = 2 → homeNat t 8 pa = (homeNat s 8 pa + pk.sigVal.toNat) % 2 ^ 64) ∧
      (∀ a, a < Config.hbmBytes → (pk.sigOp = 0 ∨ a < pa ∨ pa + 8 ≤ a) → homeByte t a = homeByte s a) ∧
      t.msi = s.msi ++ (if pk.intr ∧ q.vector ≠ 0 then [(q.hart, q.vector)] else []))) ∧
  ∀ (s : State) (ln c : Nat) (l : Launch), tabFind s.launches ln = some l → l.kern.flags.getLsbD 3 = true → l.feedEnded = false →
    l.killed = false → closingP s l.pasid = false → feedCore s ln l.feedDepth = some c →
    (∀ ws age rest, l.kept = (ws, age) :: rest → ∃ t, exec (.itemFeed ln) s = .next t ∧
      (coreOf t c).items = (coreOf s c).items ++ [{ words := ws, stamp := (s.clock : Int) - (age : Nat) }] ∧
      tabFind t.launches ln = some { l with kept := rest }) ∧
    (∀ bs, l.kept = [] → l.itemNext < l.itemCount → fetcherBytes s l.pasid .read 32 (l.itemAddr + 32 * l.itemNext) = some bs →
      ∃ t, exec (.itemFeed ln) s = .next t ∧ (coreOf t c).items = (coreOf s c).items ++
          [{ words := (List.range 8).map (fun i => BitVec.ofNat 32 (listNat bs (4 * i) 4)), stamp := s.clock }] ∧
        tabFind t.launches ln = some { l with itemNext := l.itemNext + 1 })

/-- R52, R55, R62, R64, R70, R383, R384: a launch with a cluster to place gets the first admissible rectangle requested; a grant makes its
teams resident there, every group at its launch values; a launch that is over writes its record and its packet's effects are done.
Rests on the model's choices of assumptions 66, 82. -/
def Obligations.Placement : Prop :=
  (∀ (s : State) (ln x y : Nat) (l : Launch), s.placeReqs = [] → s.launches = [(ln, l)] → s.clusters = [] → s.offers = [] →
    l.killed = false → l.cls < 4 → l.grid = l.nextCluster + 1 →
    firstRect l.kern.width l.kern.height (rectFits s ln l []) = some (x, y) →
    ∃ t c, exec .placementSearch s = .next t ∧ t.placeReqs = [{ cluster := s.fresh, ox := x, oy := y }] ∧
      tabFind t.clusters s.fresh = some c ∧ c.launch = ln ∧ c.index = l.nextCluster ∧ c.state = .requested ∧ c.teams = [] ∧
      tabFind t.launches ln = some { l with nextCluster := l.nextCluster + 1 } ∧ t.groups = s.groups ∧ SameBytes s t) ∧
  (∀ (s : State) (r : PlaceReq) (c : Cluster) (l : Launch) (ps : List (List Dword)), s.placeReqs = [r] →
    tabFind s.clusters r.cluster = some c → c.state = .requested → c.teams = [] → tabFind s.launches c.launch = some l →
    preloads s l.pasid l.kern = some ps →
    grantable { s with placeReqs := [] } r.cluster c l r.ox r.oy ((ps.map List.length).sum) = true →
    ∃ t c', exec .placementRequest s = .next t ∧ t.placeReqs = [] ∧ tabFind t.clusters r.cluster = some c' ∧ c'.state = .resident ∧
      c'.ox = r.ox ∧ c'.oy = r.oy ∧ c'.since = s.clock ∧
      ∀ n ∈ c'.teams, ∃ tm, tabFind t.teams n = some tm ∧ tm.cluster = r.cluster ∧ tm.groups.length = l.kern.groups ∧
        ∀ k ∈ tm.groups, ∃ G, tabFind t.groups k = some G ∧ G.team = n ∧ G.sreg = [] ∧ G.vreg = [] ∧ G.pred = [] ∧ G.flags = 0 ∧
          G.ejth = BitVec.ofNat 32 l.kern.ejth ∧ G.rjto = 65536 ∧
          G.paths = [pathNew 0 (BitVec.ofNat 32 l.kern.scalarEntry) (BitVec.ofNat 32 l.kern.laneEntry) (BitVec.allOnes 96)]) ∧
  ∀ (s : State) (ln pa : Nat) (l : Launch) (q : Queue) (pk : Packet), tabFind s.launches ln = some l → l.finished = false →
    launchOver s ln l = true → l.silent = false → closingP s l.pasid = false → (∀ e ∈ s.cores, e.2.col = []) →
    fetcherAddr s l.pasid l.recAddr .write = some pa → pa + 128 ≤ Config.hbmBytes → s.promoted = [] → s.MemOk →
    tabFind s.queues l.queue = some q → q.running = [pk] → pk.idx = l.pkt →
    (l.cause ≠ 0 ∨ ∀ e ∈ s.stks, ∀ r ∈ e.2.fatal, r.launch ≠ some ln) →
    (hostStale s = true → ∃ t, exec (.launchComplete ln) s = .next t ∧ t.launches = s.launches ∧ t.queues = s.queues ∧ SameBytes s t) ∧
    (hostStale s = false → ∃ t, exec (.launchComplete ln) s = .next t ∧
      (∀ i w, (recordWords l)[i]? = some w → homeNat t 4 (pa + 4 * i) = w.toNat) ∧
      (∀ a, a < Config.hbmBytes → (a < pa ∨ pa + 128 ≤ a) → homeByte t a = homeByte s a) ∧
      (∃ l', tabFind t.launches ln = some l' ∧ l'.finished = true) ∧
      tabFind t.queues l.queue = some { q with running := [{ pk with effectsDone := true }] })

/-! ### Pre-emption and the trap queue -/

/-- R350 to R358: a decision stops its victims and offers their cores to the launch that waits; a stop notice frees what its groups wait
for at their checks; saving starts when everything that must be quiet is, with every result landed and the fixed part of each image written;
when it ends the partitions, tokens and groups are kept, each in its team's save area, and the cluster is out; a cluster that is restored gets
its partition back and runs.
Rests on the model's choices of assumptions 19, 20, 82, 100, 109. -/
def Obligations.Preemption : Prop :=
  (∀ (s : State) (ln x y : Nat) (vs : List Nat) (l : Launch), (waitOrder s).findSome? (decideFor s) = some (ln, (x, y), vs) →
    tabFind s.launches ln = some l → ∃ t, exec .preemptDecision s = .next t ∧ t.groups = s.groups ∧ SameBytes s t ∧
      t.offers = s.offers ++ [(ln, rectCores x y l.kern.width l.kern.height)] ∧
      ∀ v ∈ vs, ∀ c, tabFind s.clusters v = some c → tabFind t.clusters v = some { c with state := .stopping }) ∧
  ∀ (s : State) (cl : Nat) (c : Cluster), s.KeysOk → tabFind s.clusters cl = some c →
    (c.state = .stopping → ∃ t, exec (.stopNotice cl) s = .next t ∧ SameBytes s t ∧
      ∀ gid G, tabFind s.groups gid = some G → G.team ∈ c.teams → G.garnet = none →
        ∃ G', tabFind t.groups gid = some G' ∧ G'.susp = (if G.susp = .walk then .run else G.susp) ∧
          (∀ p ∈ G'.paths, p.hold ≠ .snap) ∧ { G' with susp := G.susp, pausedAt := G.pausedAt, paths := G.paths } = G ∧
          (∀ k w, w ∈ (stackOf t k).walks → w.grp ≠ gid)) ∧
    (c.state = .stopping → maySave s c.teams = false ∨ giveSaves s [cl] = none → exec (.saveStart cl) s = .next s) ∧
    (c.state = .stopping → maySave s c.teams = true → (giveSaves s [cl]).isSome → s.promoted = [] → s.MemOk →
      ∃ t c', exec (.saveStart cl) s = .next t ∧ tabFind t.clusters cl = some c' ∧ c'.state = .saving ∧
      let mine := fun (gid : Nat) (G : Group) => tabFind s.groups gid = some G ∧ G.team ∈ c.teams ∧ G.garnet = none
      (∀ a < Config.hbmBytes, (∀ gid G, mine gid G → ∀ o < 8192, imagePa G o ≠ some (Config.privBase + a)) → homeByte t a = homeByte s a) ∧
      (∀ gid G, mine gid G → ∃ G', tabFind t.groups gid = some G' ∧ G'.pend = [] ∧ G'.resident = false ∧
        ∀ i, G.image = some i → i + 1 < privateFrames → (∀ k H, mine k H → k = gid) →
          (∀ k < 61, imageNat t G 4 (4 * k) = (tabGet 0 G'.sreg k).toNat) ∧
          (∀ k, 1 ≤ k → k < 8 → imageNat t G 12 (0x100 + 16 * k) = (tabGet 0 G'.pred k).toNat) ∧
          imageNat t G 4 0x180 % 4096 = G'.flags.toNat ∧ imageNat t G 4 0x190 = G'.ejth.toNat ∧ imageNat t G 4 0x194 = G'.rjto.toNat ∧
          imageNat t G 4 0x198 = G'.role.toNat ∧ imageNat t G 4 0x19C = G'.gang.toNat ∧ imageNat t G 4 0x1A4 = G'.fpflags.toNat ∧
          imageNat t G 12 0x1A8 = G'.dead.toNat ∧ imageNat t G 4 0x1B8 = G'.ncpyc % 2 ^ 32 ∧ imageNat t G 4 0x1C0 = G'.tcause.toNat ∧
          imageNat t G 4 0x1C4 = G'.tval0.toNat ∧ imageNat t G 4 0x1C8 = G'.tval1.toNat ∧ imageNat t G 4 0x1CC = G'.tspc.toNat ∧
          imageNat t G 4 0x1D0 = G'.tlpc.toNat)) ∧
    (c.state = .saving → (∀ e ∈ s.cores, ∀ b ∈ e.2.bars, ∀ tm, b.2 ∈ c.teams → tabFind s.teams b.2 = some tm → e.1 = tm.core ∧
        tm.spadOff ≤ b.1 ∧ b.1 < tm.spadOff + (teamKernel s b.2).spad) → ∃ t c', exec (.saveComplete cl) s = .next t ∧ tabFind t.clusters cl = some c' ∧ c'.state = .out ∧
      (∀ n tm, n ∈ c.teams → tabFind s.teams n = some tm → tm.exited = false → tabWf 0 (coreOf s tm.core).spad = true →
        ∃ v ∈ t.saved, v.team = n ∧ (∀ i < (teamKernel s n).spad, tabGet 0 v.spad i = spadByte s tm.core (tm.spadOff + i)) ∧
          ∀ e ∈ (coreOf s tm.core).tokens, tokenTeam e.2 = n → e ∈ v.tokens) ∧
      (∀ n tm q i m, c.teams = [n] → tabFind s.teams n = some tm → tm.cluster = cl → tm.save = some (q, i, m) → i + m ≤ privateFrames →
        tabWf 0 (coreOf s tm.core).spad = true → (∀ e ∈ (coreOf s tm.core).tokens, tokenTeam e.2 ≠ n) →
        (∀ e ∈ (coreOf s tm.core).progs, e.1 ≠ n) → s.promoted = [] → s.MemOk → (teamKernel s n).spad + 32768 ≤ 4096 * m →
        let area := fun (k off : Nat) => bytesNat (fun o => homeByte t (Config.privBase + columnFrame q (i + o / 4096) + o % 4096)) k off
        area 4 0 = teamPasid s n % 2 ^ 32 ∧ area 4 4 = c.index % 2 ^ 32 ∧ area 4 8 = tm.idx % 32 + 32 * (tm.slot % 4) ∧
        area 4 12 = (teamKernel s n).spad % 2 ^ 32 ∧
        ∀ o < (teamKernel s n).spad, area 1 (32768 + o) = (spadByte s tm.core (tm.spadOff + o)).toNat) ∧
      ∀ gid G, tabFind s.groups gid = some G → G.team ∈ c.teams → G.garnet = none →
        ∃ G', tabFind t.groups gid = some G' ∧ G'.paths = G.paths.map unheld ∧ { G' with paths := G.paths, reqs := G.reqs } = G) ∧
    (∀ n tm v, c.state = .restoring → c.teams = [n] → tabFind s.teams n = some tm → tm.cluster = cl → s.saved = [v] → v.team = n →
      tabSorted v.spad = true → (∀ e ∈ v.spad, e.1 < (teamKernel s n).spad) → tabWf 0 (coreOf s tm.core).spad = true →
      (∀ e ∈ s.groups, e.2.paths ≠ []) →
      ∃ t c', exec (.resumeRestore cl) s = .next t ∧ tabFind t.clusters cl = some c' ∧ c'.state = .resident ∧ c'.since = s.clock ∧
        t.saved = [] ∧ (∀ i < (teamKernel s n).spad, spadByte t tm.core (tm.spadOff + i) = tabGet 0 v.spad i) ∧
        ∀ gid G, tabFind s.groups gid = some G → G.team = n → G.garnet = none →
          ∃ G', tabFind t.groups gid = some G' ∧ G'.resident = true)

/-- R340 to R343: a latched record of class 2 takes any free slot of the stack's trap queue, and the first of a launch to land gives the
launch's cause; one of class 1 or 3 takes a slot while three are free; core 3 takes the oldest in its 64 bytes, which then awaits its reply, or
kills the launch where it is of class 2, once no drain of it is inside a segment that it has checked.
Rests on the model's choices of assumption 51. -/
def Obligations.TrapQueue : Prop :=
  (∀ (s : State) (st : Nat) (r : TrapRec) (rest : List TrapRec),
    let cause := BitVec.ofNat 32 (2 * 1024 + r.info.src * 256 + r.info.code)
    ((stackOf s st).fatal = r :: rest → (stackOf s st).trapQ.length < 64 → ∃ t, exec (.trapRecordWrite st) s = .next t ∧
      stackOf t st = { stackOf s st with fatal := rest, trapQ := (stackOf s st).trapQ ++ [r] } ∧
      { t with stks := s.stks, launches := s.launches } = s ∧
      (∀ ln l, r.launch = some ln → tabFind s.launches ln = some l →
        tabFind t.launches ln = some { l with cause := if l.cause = 0 then cause else l.cause }) ∧
      ∀ ln, r.launch ≠ some ln → tabFind t.launches ln = tabFind s.launches ln) ∧
    ((stackOf s st).fatal = [] → (stackOf s st).waitQ = r :: rest → (stackOf s st).trapQ.length ≤ 61 →
      ∃ t, exec (.trapRecordWrite st) s = .next t ∧
        stackOf t st = { stackOf s st with waitQ := rest, trapQ := (stackOf s st).trapQ ++ [r] } ∧ { t with stks := s.stks } = s)) ∧
  ∀ (s : State) (st : Nat) (r : TrapRec) (rest : List TrapRec), (stackOf s st).trapQ = r :: rest →
    let done := { stackOf s st with trapQ := rest }
    let runs := fun (f : State → BitVec 512 → Prop) => ∃ t m, exec (.trapQueueDrain st) s = .next t ∧ t.drained = s.drained ++ [m] ∧ f t m
    (r.info.cls ≠ 2 → runs (fun t m => stackOf t st = { done with pending := (stackOf s st).pending ++ [r] } ∧
      { t with stks := s.stks, drained := s.drained } = s ∧
      let field := fun (off n : Nat) => m.toNat / 256 ^ off % 256 ^ n
      field 0 4 = (r.info.cls * 1024 + r.info.src * 256 + r.info.code) % 2 ^ 32 ∧ field 4 4 = r.pasid % 2 ^ 20 ∧
      field 8 1 = r.core / 16 % 256 ∧ field 9 1 = r.core % 16 ∧ field 10 1 = r.slot % 64 ∧ field 11 1 = r.teamIdx % 32 ∧
      field 12 4 = r.tag % 2 ^ 32 ∧ field 16 4 = r.info.tspc.toNat ∧ field 20 4 = r.info.tlpc.toNat ∧
      field 24 8 = r.info.addr.toNat ∧ field 32 12 = r.info.ir.toNat ∧ field 44 4 = r.info.val0.toNat ∧
      field 48 4 = r.info.val1.toNat ∧ field 52 2 = r.info.lane % 2 ^ 16 ∧ field 54 2 = 0 ∧ field 56 8 = r.info.aux.toNat)) ∧
    ∀ ln l, r.info.cls = 2 → r.launch = some ln → tabFind s.launches ln = some l → l.finished = false →
      (segsDone s ln = false → exec (.trapQueueDrain st) s = .next s) ∧
      (segsDone s ln = true → runs (fun t m => m.toNat % 2 ^ 32 = (2 * 1024 + r.info.src * 256 + r.info.code) % 2 ^ 32 ∧
        (∃ l', tabFind t.launches ln = some l' ∧ l'.killed = true ∧ l'.cause = l.cause) ∧
        ∀ e ∈ t.clusters, e.2.launch = ln → e.2.state = .gone))

/-! ### Reliability, the host driver and the system -/

/-- R130, R370 to R379: a poisoned frame is recorded in three copies and logged; parity retries are counted, and a lane that goes on failing is
steered to a spare or left to ECC, which finds nothing, corrects a byte or poisons the codeword; a degraded stack is marked, its frames listed
as poisoned, its teams halted and the driver told; the vote of a remap table rewrites a lost copy or degrades the stack; an error in the storage
of a vector word, a tile or the scale memory poisons it, one in any other storage of a group is a class 2 event, or kills a context's lane; a
lifetime record is appended to the stack's open segment.
Rests on the model's choices of assumptions 4, 23, 24, 25, 26, 27, 98, 104. -/
def Obligations.Reliability : Prop :=
  (∀ (s : State) (pa : Nat), pa < Config.hbmBytes → s.promoted = [] → s.blockTables = [] →
    ∃ t n, exec (.framePoison pa) s = .next t ∧ pa / 32 ∈ t.poison ∧ (∀ w ∈ s.poison, w ∈ t.poison) ∧
      lists t.poisonFrames (pa / 4096) = true ∧ t.poisonFrames.a = t.poisonFrames.b ∧ t.poisonFrames.b = t.poisonFrames.c ∧
      t.arrayLog = s.arrayLog.drop n ++ [{ stack := pa / Config.stackBytes, column := pa / 4096 % 16, pa := pa, codeword := pa / 32 % 4,
                                           clock := s.clock, byte := none }] ∧
      t.busLog = s.busLog ∧ t.mem = s.mem ∧ t.groups = s.groups ∧
      (stackOf t (pa / Config.stackBytes)).life.uncorrectable = (stackOf s (pa / Config.stackBytes)).life.uncorrectable + 1) ∧
  (∀ (s : State) (c grp lane pa n : Nat), c < 768 → groupLane grp lane = true →
    let full := decide (2 ≤ (coreOf s c).swaps.length)
    let runs := fun (tries retries : Nat) (swap : Option (Nat × Nat)) (f : State → Prop) => ∃ t k,
      exec (.parityRetry c grp lane pa tries) s = .next t ∧ (coreOf t c).swaps = (coreOf s c).swaps ++ swap.toList ∧
      t.busLog = s.busLog.drop k ++ [{ stack := c / 16, column := c % 16, pa := pa, beat := pa / 32 % 128, clock := s.clock, group := grp,
                                       retries := retries, swap := swap }] ∧
      (stackOf t (c / 16)).life.retries = (stackOf s (c / 16)).life.retries + retries ∧ SameBytes s t ∧ f t
    (n ∈ [1, 2, 3] → runs n n none (fun t => t.groups = s.groups ∧ t.arrayLog = s.arrayLog)) ∧
    (3 < n → full = false → runs n 3 (some (lane, (coreOf s c).swaps.length)) (fun t => t.arrayLog = s.arrayLog ∧
      (stackOf t (c / 16)).life.swaps = (stackOf s (c / 16)).life.swaps + 1)) ∧
    (full = true → pa < Config.hbmBytes → s.promoted = [] → s.blockTables = [] →
      let life := fun (t : State) => (stackOf t (pa / Config.stackBytes)).life
      runs 4 3 none (fun t => (coreOf t c).noSpare = true ∧ t.arrayLog = s.arrayLog ∧ t.poison = s.poison) ∧
      (lane < 288 → runs 5 3 none (fun t => (coreOf t c).noSpare = true ∧ (life t).corrected = (life s).corrected + 1 ∧ t.poison = s.poison ∧
        t.arrayLog.getLast?.map (fun e => (e.pa, e.byte)) = some (pa, some (lane / 8)))) ∧
      runs 6 3 none (fun t => (coreOf t c).noSpare = true ∧ (life t).uncorrectable = (life s).uncorrectable + 1 ∧ pa / 32 ∈ t.poison))) ∧
  (∀ (s : State) (st : Nat), st < 48 → (stackOf s st).degraded = false → s.KeysOk →
    ∃ t, exec (.stackDegrade st) s = .next t ∧ (stackOf t st).degraded = true ∧ Notice.stack st ∈ t.notices ∧ SameBytes s t ∧
      (∀ f, f / stackFrames = st → lists t.poisonFrames f = true) ∧
      (∀ f, f / stackFrames ≠ st → lists t.poisonFrames f = lists s.poisonFrames f) ∧
      ∀ n tm gid rest G, tabFind s.teams n = some tm → tm.groups = gid :: rest → tm.core / 16 = st → teamOut s tm = false →
        tm.exited = false → tabFind s.groups gid = some G → G.team = n → (tabFind t.teams n).map (fun x => x.halted) = some true) ∧
  (∀ (s : State) (st row : Nat) (rest : List Turn) (x : RowCopies), s.powered = true → s.agenda = .rowRead st row :: rest → st < 48 →
    tabWf ⟨0, 0, 0⟩ (stackOf s st).remap = true → rowOf s st row = x →
    (∀ w, (x.a = w ∧ x.b = w) ∨ (x.a = w ∧ x.c = w) ∨ (x.b = w ∧ x.c = w) →
      ∃ t, step s = .next t ∧ rowOf t st row = ⟨w, w, w⟩ ∧ (stackOf t st).degraded = (stackOf s st).degraded) ∧
    (x.a ≠ x.b → x.a ≠ x.c → x.b ≠ x.c → ∃ t, step s = .next t ∧ (stackOf t st).degraded = true)) ∧
  (∀ (s : State) (gid kind idx : Nat) (G : Group), tabFind s.groups gid = some G → G.retired = false →
    let runs := fun (f : State → Prop) => ∃ t, exec (.uncorrectableStorageError gid kind idx) s = .next t ∧ f t
    (kind = 0 → idx < 96 * (kernOf s G).regs → runs (fun t => { t with groups := s.groups } = s ∧
      ∃ G', tabFind t.groups gid = some G' ∧ idx ∈ G'.vpoison ∧ { G' with vpoison := G.vpoison } = G)) ∧
    (kind = 2 → idx < 262144 → runs (fun t => idx ∈ (coreOf t G.core).accPoison ∧ { t with cores := s.cores } = s)) ∧
    (kind = 3 → idx < 65536 → runs (fun t => idx ∈ (coreOf t G.core).scalePoison ∧ { t with cores := s.cores } = s)) ∧
    (∀ tm, kind ∉ [0, 2, 3] → G.garnet = none → tabFind s.teams G.team = some tm → tm.fatal = false → runs (fun t => ∃ r,
      (stackOf t (G.core / 16)).fatal = (stackOf s (G.core / 16)).fatal ++ [r] ∧ r.info.code = 0x4F ∧ r.info.cls = 2 ∧ r.info.src = 3 ∧
      (∀ e ∈ t.groups, e.2.team = G.team → e.2.susp = .halted))) ∧
    (∀ i P, kind ∉ [0, 2, 3] → G.garnet = some i → i.parent ≠ gid → tabFind s.groups i.parent = some P → s.KeysOk → i.lane < 96 →
      P.dead.getLsbD i.lane = false → runs (fun t => tabFind t.groups gid = none ∧
        (stackOf t (P.core / 16)).life.deadLanes = (stackOf s (P.core / 16)).life.deadLanes + 1 ∧
        ∀ P', tabFind t.groups i.parent = some P' → P'.dead.getLsbD i.lane = true))) ∧
  ∀ (s : State) (st key : Nat) (x : Segment), st < 48 → (stackOf s st).lifeSegs.getLast? = some key → tabFind s.segments key = some x →
    let l := (stackOf s st).life
    let counts := [l.corrected, l.uncorrectable, l.retries, l.swaps, l.deadLanes, l.mismatches, l.rollbacks, l.degraded, l.retired,
      l.remapped, l.storageWaits]
    let bytes := (Config.lifePayload counts (Config.histogram s.draws)).take 65536
    (stackOf s st).lifeAt + 2 ^ 36 ≤ s.clock → lifeRoom s st bytes.length = true → ∃ t y, exec (.lifetimeRecord st) s = .next t ∧
      tabFind t.segments key = some y ∧ (stackOf t st).lifeAt = s.clock ∧ y.next = x.next + 1 ∧ y.tail = x.tail + recordSize bytes.length ∧
      x.next ∉ y.unread ∧ t.draws = s.draws + 1

/-- R37, R287, R288, R379, R387, R391 to R396: a hart reaches memory by a physical address or through its own tables, whose permissions it
keeps; harts store in their widths and swap, add, combine, take the lesser or greater, compare-and-swap and reserve at home slices; an access
that the device refuses faults at the hart; the PCIe port writes where its IOMMU translates, or completes a request as unsupported; a
connection and the failure of a port; gating and throttling; the loss of power and the shutdowns; a reset keeps the segments, detached and with
at least their durable records, the lane swaps and the lifetime records, and nothing else.
Rests on the model's choices of assumptions 5, 6, 33, 34, 36, 105, 106. -/
def Obligations.SystemEvents : Prop :=
  (∀ (s : State) (via : HartVia) (n pa : Nat) (v w : Dword), s.boot = 6 → via.root = none → n ∈ [1, 2, 4, 8] → pa % n = 0 →
    pa + n ≤ Config.hbmBytes → s.promoted = [] → s.MemOk →
    let old := homeNat s n pa
    let v' := v.toNat % 256 ^ n
    let less := fun (x y : Nat) => intVal (8 * n) true x ≤ intVal (8 * n) true y
    let writes := fun (op : HartOp) (x : Nat) => ∃ t, exec (.hartAccess ⟨via, op⟩ pa) s = .next t ∧ homeNat t n pa = x ∧
      (∀ a, a < Config.hbmBytes → (a < pa ∨ pa + n ≤ a) → homeByte t a = homeByte s a) ∧
      (∀ e ∈ t.hartRes, e.2 ≠ pa / 64) ∧ { t with mem := s.mem, hartRes := s.hartRes } = s
    exec (.hartAccess ⟨via, .load⟩ pa) s = .next s ∧ writes (.storeN n v) v' ∧
    (n = 8 → writes (.store v) v' ∧ writes (.swap v) v' ∧ writes (.add v) ((old + v') % 256 ^ n)) ∧
    (n = 4 ∨ n = 8 → writes (.amo .swap n v) v' ∧ writes (.amo .add n v) ((old + v') % 256 ^ n) ∧
      writes (.amo .and n v) (old &&& v') ∧ writes (.amo .or n v) (old ||| v') ∧
      writes (.amo .xor n v) (old ^^^ v') ∧ writes (.amo .minu n v) (min old v') ∧
      writes (.amo .maxu n v) (max old v') ∧ (less old v' → writes (.amo .min n v) old ∧
        writes (.amo .max n v) v') ∧ (less v' old → writes (.amo .min n v) v' ∧
        writes (.amo .max n v) old) ∧
      writes (.cas n w v) (if old = w.toNat % 256 ^ n then v' else old) ∧
      exec (.hartAccess ⟨via, .lr n⟩ pa) s = .next { s with hartRes := tabPut s.hartRes via.hart (pa / 64) } ∧
      (tabFind s.hartRes via.hart = some (pa / 64) → writes (.sc n v) v') ∧
      (tabFind s.hartRes via.hart ≠ some (pa / 64) →
        exec (.hartAccess ⟨via, .sc n v⟩ pa) s = .next { s with hartRes := tabDel s.hartRes via.hart }))) ∧
  (∀ (s : State) (via : HartVia) (op : HartOp) (r va ppn fl : Nat), s.boot = 6 → via.root = some r → HartMaps s r va ppn fl →
    let load := hartLoads op
    let may := (via.user = true → fl.testBit 4 = true) ∧ (via.user = false → via.sum = false → fl.testBit 4 = false) ∧
      (load = true → fl.testBit 1 = true ∨ via.mxr = true ∧ fl.testBit 3 = true) ∧ (load = false → fl.testBit 2 = true) ∧
      fl.testBit 6 = true ∧ (load = false → fl.testBit 7 = true)
    (may → exec (.hartAccess ⟨via, op⟩ va) s = exec (.hartAccess ⟨{ via with root := none }, op⟩ (4096 * ppn + va % 4096)) s) ∧
    (¬ may → exec (.hartAccess ⟨via, op⟩ va) s =
      .next { s with hartFaults := tabPut s.hartFaults via.hart (if load then 13 else 15, va) })) ∧
  (∀ (s : State) (via : HartVia) (op : HartOp) (pa : Nat), s.boot = 6 → via.root = none →
    (Config.pcieBase ≤ pa → pa < Config.pcieBase + Config.pcieBytes → exec (.hartAccess ⟨via, op⟩ pa) s = .next s) ∧
    (pa < Config.pcieBase ∨ Config.pcieBase + Config.pcieBytes ≤ pa →
      tierOf pa = .priv ∨ tierOf pa = .none ∨ tierOf pa = .flash ∧ hartLoads op = false → exec (.hartAccess ⟨via, op⟩ pa) s =
        .next { s with hartFaults := tabPut s.hartFaults via.hart (if hartLoads op then 5 else 7, pa) })) ∧
  (∀ (s : State) (dev pasid va n r ppn : Nat) (v : Dword), s.boot = 6 → pasid < 2 ^ 20 →
    (tabFind s.iommu (2 ^ 20 * dev + pasid) = none → ∀ wr, exec (.pcieInboundRequest ⟨dev, pasid⟩ va wr) s =
      .next { s with pcieUr := s.pcieUr ++ [(dev, va)] }) ∧
    (tabFind s.iommu (2 ^ 20 * dev + pasid) = some r → HartMaps s r va ppn 0xD7 → n ∈ [1, 2, 4, 8] → va % n = 0 → s.promoted = [] → s.MemOk →
      let pa := 4096 * ppn + va % 4096
      exec (.pcieInboundRequest ⟨dev, pasid⟩ va none) s = .next s ∧
      ∃ t, exec (.pcieInboundRequest ⟨dev, pasid⟩ va (some (n, v))) s = .next t ∧ homeNat t n pa = v.toNat % 256 ^ n ∧
        (∀ a, a < Config.hbmBytes → (a < pa ∨ pa + n ≤ a) → homeByte t a = homeByte s a) ∧
        { t with mem := s.mem, hartRes := s.hartRes } = s)) ∧
  (∀ (s : State) (via : HartVia) (op : HartOp) (dev pasid a : Nat) (wr : Option (Nat × Dword)), s.boot ≠ 6 →
    exec (.hartAccess ⟨via, op⟩ a) s = .next s ∧ exec (.pcieInboundRequest ⟨dev, pasid⟩ a wr) s = .next s) ∧
  (∀ (s : State) (port peer : Nat), port < 32 →
    (port ∉ s.portsDown → exec (.connectionSetup port ⟨peer, true⟩) s = .next { s with peers := tabPut s.peers port peer }) ∧
    (port ∈ s.portsDown → exec (.connectionSetup port ⟨peer, true⟩) s = .next s) ∧
    exec (.connectionSetup port ⟨peer, false⟩) s = .next s) ∧
  (∀ (s : State) (port : Nat), port < 32 → ∃ t, exec (.portFailure port) s = .next t ∧ port ∈ t.portsDown ∧
    t.collectives.map (fun e => e.1) = s.collectives.map (fun e => e.1) ∧ t.groups = s.groups ∧ t.mem = s.mem ∧
    ∀ n c, tabFind s.collectives n = some c → ∃ c', tabFind t.collectives n = some c' ∧ { c' with port := c.port } = c ∧
      (c.port ≠ some port → c'.port = c.port) ∧
      ∀ peer, c.port = some port → tabFind s.peers port = some peer →
        let reach := fun (q : Nat) => (q, peer) ∈ s.peers ∧ q ≠ port ∧ q ∉ s.portsDown
        ((∃ q, reach q) → ∃ q, reach q ∧ c'.port = some q) ∧ ((∀ q, ¬ reach q) → c'.port = none)) ∧
  (∀ (s : State) (k : Nat), k ≤ 12 → exec (.powerGate k) s = .next { s with gate := k }) ∧
  (∀ (s : State), exec .thermalThrottle s = .next { s with gate := min 12 (s.gate + 1) } ∧
    exec .powerLoss s = .next { s with powered := false } ∧
    (∃ t, exec .thermalShutdown s = .next t ∧ t.powered = false ∧ t.draws = s.draws + 48 ∧ t.mem = s.mem) ∧
    (∃ t, exec .orderlyShutdown s = .next t ∧ t.powered = s.powered ∧ t.draws = s.draws + 48 ∧ t.mem = s.mem)) ∧
  ∀ (s : State) (i : Instr), i = .coldReset ∨ i = .warmReset → ∃ t, exec i s = .next t ∧ t.mem = [] ∧ t.procs = [] ∧ t.queues = [] ∧
    t.launches = [] ∧ t.clusters = [] ∧ t.teams = [] ∧ t.groups = [] ∧ t.collectives = [] ∧ t.poison = [] ∧ t.clock = 0 ∧ t.boot = 0 ∧
    t.powered = true ∧ t.bootFailed = false ∧ t.storageTimeout = 100000000 ∧ t.hartRes = [] ∧ t.iommu = [] ∧
    (∀ name x, tabFind s.segments name = some x → ∃ y, tabFind t.segments name = some y ∧ y.attach = none ∧ y.state = x.state ∧
      y.pa = x.pa ∧ y.z = x.z ∧ x.durable ≤ y.durable ∧ y.sealedLen = x.sealedLen) ∧
    (∀ k, tabSorted s.stks = true → (stackOf s k).lifeSegs ≠ [] →
      (stackOf t k).lifeSegs = (stackOf s k).lifeSegs ∧ (stackOf t k).rowsKept = (stackOf s k).rowsKept) ∧
    ∀ c, (tabSorted s.cores = true → (coreOf t c).swaps = (coreOf s c).swaps) ∧ (coreOf t c).spad = []

/-! ### The host driver -/

/-- R35, R38, R41, R42, R209, R210, R279, R319, R342, R343, R372, R385, R387 to R389, R393: what core 2 does on each request of the host
driver that concerns processes, queues, records, launches, collectives, tables and settings, and what it replies.
Rests on the model's choices of assumptions 29, 30, 31, 67, 83, 84, 95. -/
def Obligations.HostRequests : Prop :=
  ∀ (s : State) (m : BitVec 512) (rest : List (BitVec 512)),
    let pasid := msgPasid m
    (Asks s m rest 0x11 [(16, 8), (24, 2)] → 0 < pasid → pasid < 2 ^ 20 → msgNat m 16 8 < 2 ^ 44 → tabFind s.procs pasid = none →
      ∃ t, exec .registerProcess s = .next t ∧ Answered s t m rest 0 [] ∧
        t.procs = tabPut s.procs pasid { root := msgNat m 16 8, asid := msgNat m 24 2, closing := false } ∧ t.mem = s.mem) ∧
    (∀ bs tailPa statPa n (pa : Nat → Nat), Asks s m rest 0x01 [(16, 8), (24, 2)] → OfProcess s m → msgNat m 24 2 ≤ 95 →
      descBytes s pasid (msgNat m 16 8) = some bs → descOk bs = true → leafFits s pasid (listNat bs 16 8) false = some tailPa →
      leafFits s pasid (listNat bs 24 8) true = some statPa → lowestFree (s.queues.map (fun e => e.1)) 65536 = some n →
      (tailLines s).length < 4096 → (∀ i, i < 4 → corePa s pasid (msgNat m 16 8 + 32 + i) = some (pa i) ∧ pa i < Config.hbmBytes) →
      (∀ i j, i < 4 → j < 4 → pa i = pa j → i = j) → s.promoted = [] → s.MemOk → ∃ t q, exec .registerQueue s = .next t ∧ Answered s t m rest 0 [(12, 4, n)] ∧ t.queues = tabPut s.queues n q ∧
        (q.pasid, q.ring, q.lg, q.cls) = (pasid, listNat bs 0 8, listNat bs 8 1, listNat bs 9 1) ∧
        (q.vector, q.hart, q.tailAddr, q.tailPa) = (listNat bs 12 4, msgNat m 24 2, listNat bs 16 8, tailPa) ∧
        (q.statusAddr, q.head, q.state) = (listNat bs 24 8, 0, .active) ∧ q.running = [] ∧ q.skip = 0 ∧
        q.tail.toNat = homeNat t 4 tailPa ∧ (∀ i, i < 4 → (homeByte t (pa i)).toNat = pasid / 256 ^ i % 256) ∧
        ∀ a, a < Config.hbmBytes → (∀ i, i < 4 → a ≠ pa i) → homeByte t a = homeByte s a) ∧
    (∀ q, Asks s m rest 0x02 [(12, 4)] → OfProcess s m → msgNat m 12 4 < 65536 → tabFind s.queues (msgNat m 12 4) = some q →
      q.pasid = pasid → tabSorted s.queues = true → ∃ t, exec .freeQueue s = .next t ∧ Answered s t m rest 0 [] ∧
        tabFind t.queues (msgNat m 12 4) = none ∧ (∀ k, k ≠ msgNat m 12 4 → tabFind t.queues k = tabFind s.queues k) ∧
        { t with queues := s.queues, hostIn := s.hostIn, hostOut := s.hostOut } = s) ∧
    (∀ q pa, Asks s m rest 0x03 [(12, 4)] → OfProcess s m → msgNat m 12 4 < 65536 → tabFind s.queues (msgNat m 12 4) = some q →
      q.pasid = pasid → q.state = .error → fetcherAddr s pasid (q.statusAddr + 8) .write = some pa → pa + 8 ≤ Config.hbmBytes →
      s.promoted = [] → s.MemOk → ∃ t, exec .resetQueue s = .next t ∧ Answered s t m rest 0 [] ∧ homeNat t 8 pa = 0 ∧
        tabFind t.queues (msgNat m 12 4) = some { q with state := .active, watch := none, since := 0 } ∧ t.msi = s.msi) ∧
    (∀ r G, Asks s m rest 0x04 [(12, 1), (13, 1), (16, 4), (20, 4)] → OfProcess s m → msgNat m 12 1 < 48 →
      (stackOf s (msgNat m 12 1)).pending = [r] → r.tag = msgNat m 16 4 → r.pasid = pasid → G.due = [] → s.KeysOk →
      (tabFind s.groups r.grp = some G → r.info.cls = 3 → msgNat m 13 1 < 2 → G.susp = .record r.tag → G.resident = false →
        ∃ t, exec .recordReply s = .next t ∧ t.hostIn = rest ∧ t.hostOut = s.hostOut ∧
          tabFind t.groups r.grp = some { G with reply := some (r, BitVec.ofNat 32 (msgNat m 20 4)) }) ∧
      (r.info.cls = 3 → msgNat m 13 1 < 2 → r.info.code = 0x32 → tabFind s.groups r.grp = some G → G.susp = .record r.tag →
        G.resident = true → G.RegsOk → ∀ p, findPath G r.info.path = some p → p.id = r.info.path → ∃ t G' p', exec .recordReply s = .next t ∧
          t.hostIn = rest ∧ t.hostOut = s.hostOut ∧ (stackOf t (msgNat m 12 1)).pending = [] ∧ tabFind t.groups r.grp = some G' ∧
          G'.susp = .run ∧ findPath G' r.info.path = some p' ∧ p'.spc = p.spc + 4 ∧ p'.lpc = p.lpc ∧
          sRead G' p' 2 = BitVec.ofNat 32 (msgNat m 20 4) ∧ ∀ x, x ≠ 2 → sRead G' p' x = sRead G p x) ∧
      (∀ gid, r.info.cls = 1 → msgNat m 13 1 = 0 → tabFind s.groups gid = some G → G.susp = .record r.tag → G.resident = true →
        s.promoted = [] → (∀ e ∈ s.groups, e.2.susp = .record r.tag → e.1 = gid) →
        let page := r.info.addr.toNat / 4096 * 4096
        mayInval s pasid page 4096 = true →
        ∃ t G', exec .recordReply s = .next t ∧ t.hostIn = rest ∧ t.hostOut = s.hostOut ∧ tabFind t.groups gid = some G' ∧
          G'.susp = .run ∧ G'.paths = G.paths ∧ G'.sreg = G.sreg ∧ G'.vreg = G.vreg ∧ G'.reqs = G.reqs ∧
          ∀ c, ∀ e ∈ (coreOf t c).tlb, ¬(e.pasid = pasid ∧ e.va < page + 4096 ∧ page < e.va + 2 ^ e.lg))) ∧
    (Asks s m rest 0x04 [(12, 1), (13, 1), (16, 4), (20, 4)] → msgNat m 12 1 < 48 → msgNat m 13 1 < 2 →
      tabFind s.procs pasid = none ∨ closingP s pasid = false ∧
        (∀ r ∈ (stackOf s (msgNat m 12 1)).pending, r.tag ≠ msgNat m 16 4 ∨ r.pasid ≠ pasid) →
      exec .recordReply s = .next { s with hostIn := rest }) ∧
    (∀ n pa pb, Asks s m rest 0x09 [(12, 1), (13, 1), (14, 1), (16, 8), (24, 4), (32, 8), (40, 8)] → OfProcess s m →
      2 ≤ msgNat m 12 1 → msgNat m 12 1 ≤ 64 → msgNat m 13 1 < msgNat m 12 1 → msgNat m 14 1 < 2 → msgNat m 16 8 % 4096 = 0 →
      (msgNat m 24 4 = 0 ∨ 1000 ≤ msgNat m 24 4 ∧ msgNat m 24 4 ≤ 10000000) →
      lowestFree (s.collectives.map (fun e => e.1)) 4096 = some n → leafFits s pasid (msgNat m 16 8) true = some pa →
      corePa s pasid (msgNat m 32 8) = some pb → ∃ t c, exec .createCollective s = .next t ∧ Answered s t m rest 0 [(12, 4, n)] ∧
        t.collectives = tabPut s.collectives n c ∧ (c.pasid, c.members, c.me) = (pasid, msgNat m 12 1, msgNat m 13 1) ∧
        (c.result, c.table, c.key.toNat) = (msgNat m 16 8, msgNat m 32 8, msgNat m 40 8) ∧
        (c.tree = true ↔ msgNat m 14 1 = 1) ∧ (msgNat m 24 4 ≠ 0 → c.timeout = 1000 * msgNat m 24 4) ∧
        (msgNat m 24 4 = 0 → c.timeout = 1000000000) ∧ (c.failed, c.issued, c.completed) = (false, 0, 0) ∧ c.rounds = []) ∧
    (Asks s m rest 0x0A [(16, 8), (24, 1)] → OfProcess s m → msgNat m 16 8 % 64 = 0 →
      (msgNat m 24 1 = 0 → ∃ t, exec .registerBlockTable s = .next t ∧ Answered s t m rest 0 [] ∧
        ∀ x, x ∈ t.blockTables ↔ x ∈ s.blockTables ∨ x = (pasid, msgNat m 16 8)) ∧
      (msgNat m 24 1 = 1 → (pasid, msgNat m 16 8) ∈ s.blockTables → ∃ t, exec .unregisterBlockTable s = .next t ∧
        Answered s t m rest 0 [] ∧ ∀ x, x ∈ t.blockTables ↔ x ∈ s.blockTables ∧ x ≠ (pasid, msgNat m 16 8))) ∧
    (Asks s m rest 0x0B [(12, 4)] → pasid = 0 → 1000 ≤ msgNat m 12 4 → msgNat m 12 4 ≤ 10000000 →
      ∃ t, exec .setStorageTimeout s = .next t ∧ Answered s t m rest 0 [] ∧ t.storageTimeout = 1000 * msgNat m 12 4 ∧
        { t with storageTimeout := s.storageTimeout, hostIn := s.hostIn, hostOut := s.hostOut } = s) ∧
    (Asks s m rest 0x0C [(12, 1), (16, 4)] → pasid = 0 → (msgNat m 12 1 < 48 ∨ msgNat m 12 1 = 255) → msgNat m 16 4 ≤ 16384 →
      msgNat m 16 4 % 64 = 0 → s.promoted = [] → ∃ t, exec .setPromotionPool s = .next t ∧ Answered s t m rest 0 [] ∧
        ∀ st, st < 48 → stackOf t st = (if msgNat m 12 1 = st ∨ msgNat m 12 1 = 255 then
          { stackOf s st with poolMib := msgNat m 16 4 } else stackOf s st)) ∧
    (∀ n l, Asks s m rest 0x0D [(12, 4), (16, 4)] → OfProcess s m → msgNat m 12 4 < 65536 → tabSorted s.launches = true →
      tabFind s.launches n = some l → (l.queue, l.pkt, l.pasid, l.finished) = (msgNat m 12 4, msgNat m 16 4, pasid, false) →
      (∀ k x, tabFind s.launches k = some x → x.queue = l.queue → x.pkt = l.pkt → k = n) →
      (segsDone s n = false → exec .killLaunch s = .next s) ∧
      (segsDone s n = true → ∃ t l', exec .killLaunch s = .next t ∧ Answered s t m rest 0 [] ∧ tabFind t.launches n = some l' ∧
        l'.killed = true ∧ (∀ e ∈ t.clusters, e.2.launch = n → e.2.state = .gone) ∧
        let live := fun (G : Group) => launchNo s G = some n ∧ G.garnet = none ∧ G.retired = false
        (l.cause = 0 → (∀ e ∈ s.groups, ¬ live e.2) → (∀ e ∈ s.stks, ∀ r ∈ e.2.fatal, r.launch ≠ some n) →
          l'.cause = BitVec.ofNat 32 (2 * 1024 + 3 * 256 + 0x50)) ∧
        ((∃ e ∈ s.groups, live e.2) → (∀ e ∈ s.groups, live e.2 → ∃ tm, tabFind s.teams e.2.team = some tm ∧ tm.fatal = false ∧
            tm.exited = false ∧ teamOut s tm = false) →
          l'.cause = l.cause ∧ ∃ st, ∃ r ∈ (stackOf t st).fatal, r.launch = some n ∧ r.info.cls = 2 ∧ r.info.src = 3 ∧ r.info.code = 0x50))) ∧
    (∀ pr, Asks s m rest 0x0E [] → tabFind s.procs pasid = some pr → pr.closing = false → tabSorted s.procs = true → s.teams = [] →
      s.launches = [] → s.queues = [] → (∀ e ∈ s.stks, e.2.subs = []) → s.promoted = [] → ∃ t, exec .teardownPasid s = .next t ∧
        Answered s t m rest 0 [] ∧ tabFind t.procs pasid = none ∧ (∀ c, ∀ e ∈ (coreOf t c).tlb, e.pasid ≠ pasid) ∧
        (∀ e ∈ t.collectives, e.2.pasid ≠ pasid) ∧ (∀ x ∈ t.blockTables, x.1 ≠ pasid) ∧
        ∀ e ∈ t.segments, e.2.attach.map (fun a => a.1) ≠ some pasid) ∧
    (Asks s m rest 0x0F [(16, 32), (48, 8)] → pasid = 0 → msgNat m 48 8 % 256 = 0 → msgNat m 48 8 + 256 ≤ Config.hbmBytes →
      s.promoted = [] → s.MemOk →
      let a := msgNat m 48 8
      ∃ t, exec .attestationReport s = .next t ∧ Answered s t m rest 0 [(12, 4, 256)] ∧ homeNat t 32 a = msgNat m 16 32 ∧
        homeNat t 64 (a + 32) = s.measure.toNat ∧ homeNat t 32 (a + 96) = Config.identityKey.toNat ∧ homeNat t 4 (a + 128) = 2 ∧
        homeNat t 4 (a + 132) = Config.fuseVersion.toNat ∧
        homeNat t 4 (a + 136) = (if s.bootFailed then 0 else 1) + (if s.stks.any (fun e => e.2.degraded) then 2 else 0) ∧
        homeNat t 52 (a + 140) = 0 ∧
        homeNat t 64 (a + 192) = (Config.identitySign (Config.sha512 (leBytes 192 (homeNat t 192 a)))).toNat ∧
        ∀ x, x < Config.hbmBytes → (x < a ∨ a + 256 ≤ x) → homeByte t x = homeByte s x)

/-- R280 to R282, R285, R289, R290, R379, R388, R389: what core 2 does on the host driver's requests for segments: creating, attaching and
freeing one, appending to it and sealing it, opening a lifetime segment, and listing those that are kept;
a freeing waits for the pins on the segment and for the accesses to it that are past their translation.
Rests on the model's choices of assumptions 18, 29, 30, 95. -/
def Obligations.HostSegments : Prop :=
  ∀ (s : State) (m : BitVec 512) (rest : List (BitVec 512)), OfProcess s m →
    let pasid := msgPasid m
    let tells := fun (t : State) => ∃ x, tabGet [] t.mail (16 * 4 + 8) = tabGet [] s.mail (16 * 4 + 8) ++ [x]
    (Asks s m rest 0x05 [(16, 8), (24, 1), (25, 1), (32, 8)] → 20 ≤ msgNat m 24 1 → msgNat m 24 1 ≤ 36 →
      msgNat m 16 8 % 2 ^ msgNat m 24 1 = 0 → msgNat m 32 8 ≠ 0 → windowFree s pasid (msgNat m 16 8) (msgNat m 24 1) = true →
      (msgNat m 25 1 = 0 → mailRoom s 4 8 = false → exec .createSegment s = .next s) ∧
      (∀ pa, msgNat m 25 1 = 0 → mailRoom s 4 8 = true → tabFind s.segments (msgNat m 32 8) = none → segPlace s (msgNat m 24 1) = some pa →
        ∃ t x, exec .createSegment s = .next t ∧ Answered s t m rest 0 [(12, 4, 1)] ∧ tells t ∧
          t.segments = tabPut s.segments (msgNat m 32 8) x ∧ (x.z, x.pa, x.state) = (msgNat m 24 1, pa, 1) ∧
          (x.next, x.durable, x.tail) = (1, 0, 128) ∧ x.attach = some (pasid, msgNat m 16 8) ∧ x.bytes = []) ∧
      (∀ x, msgNat m 25 1 = 1 → tabFind s.segments (msgNat m 32 8) = some x → x.attach = none → x.z = msgNat m 24 1 →
        ∃ t, exec .attachSegment s = .next t ∧ Answered s t m rest 0 [(12, 4, x.state)] ∧
          t.segments = tabPut s.segments (msgNat m 32 8) { x with attach := some (pasid, msgNat m 16 8) })) ∧
    (∀ name x, segBase s pasid (msgNat m 16 8) = some (name, x) → tabFind s.segments name = some x → name < 2 ^ 64 →
      (Asks s m rest 0x06 [(16, 8)] → (segPinned s x = true ∨ mailRoom s 4 8 = false ∨
          mayInvalBut s pasid (msgNat m 16 8) (2 ^ x.z) (segNeeds s x) = false) → exec .freeSegment s = .next s) ∧
      (Asks s m rest 0x06 [(16, 8)] → segPinned s x = false → mailRoom s 4 8 = true → s.promoted = [] →
        mayInvalBut s pasid (msgNat m 16 8) (2 ^ x.z) (segNeeds s x) = true →
        tabSorted s.segments = true → ∃ t, exec .freeSegment s = .next t ∧ Answered s t m rest 0 [] ∧ tabFind t.segments name = none ∧ tells t ∧
        ((∀ e ∈ s.groups, ∀ r ∈ e.2.reqs, engineSeg r.kind ≠ some name) →
          ∀ k, k ≠ name → tabFind t.segments k = tabFind s.segments k) ∧
        ∀ c, ∀ e ∈ (coreOf t c).tlb, ¬(e.pasid = pasid ∧ msgNat m 16 8 ≤ e.va ∧ e.va < msgNat m 16 8 + 2 ^ x.z)) ∧
      (∀ ls, Asks s m rest 0x07 [(16, 8), (24, 8), (32, 4), (36, 1)] → msgNat m 36 1 < 2 → 1 ≤ msgNat m 32 4 → msgNat m 32 4 ≤ 1048576 →
        msgNat m 32 4 % 4 = 0 → msgNat m 24 8 % 4 = 0 → appendsHeld s < 4096 → x.state = 1 → x.sealing = false →
        hostSource s pasid (msgNat m 24 8) (msgNat m 32 4) = .ok ls →
        let size := 16 + 16 * ((msgNat m 32 4 + 15) / 16)
        x.tail + size ≤ 2 ^ x.z → x.durable < x.next → ∃ t y, exec .hostAppend s = .next t ∧ tabFind t.segments name = some y ∧
          y.next = x.next + 1 ∧ y.tail = x.tail + size ∧ y.durable = x.durable ∧
          (msgNat m 36 1 = 0 → Answered s t m rest 0 [(16, 8, x.next), (24, 8, x.durable)]) ∧
          (msgNat m 36 1 = 1 → t.hostIn = rest ∧ t.hostOut = s.hostOut ∧ ∃ r, t.hostWait = [.durable name x.next r])) ∧
      (Asks s m rest 0x08 [(16, 8)] → mailRoom s 4 8 = false → exec .hostSeal s = .next s) ∧
      (Asks s m rest 0x08 [(16, 8)] → mailRoom s 4 8 = true → x.state = 1 →
        (x.durable + 1 = x.next → ∃ t, exec .hostSeal s = .next t ∧ Answered s t m rest 0 [(16, 8, x.tail)] ∧ tells t ∧
          tabFind t.segments name = some { x with sealedLen := x.tail, state := 2, sealing := false }) ∧
        (x.durable + 1 ≠ x.next → ∃ t r, exec .hostSeal s = .next t ∧ t.hostIn = rest ∧ t.hostOut = s.hostOut ∧
          t.hostWait = [.sealing name r] ∧ tabFind t.segments name = some { x with sealing := true }))) ∧
    (∀ k x, Asks s m rest 0x10 [(12, 1), (16, 4), (24, 8)] → msgNat m 12 1 < 48 →
      ((stackOf s (msgNat m 12 1)).lifeSegs.filter (fun k => (tabFind s.segments k).any (fun g => g.state = 2)))[msgNat m 16 4]? =
        some k → tabFind s.segments k = some x → msgNat m 24 8 % 2 ^ x.z = 0 → x.attach = none →
      windowFree s pasid (msgNat m 24 8) x.z = true → ∃ t, exec .openLifetimeSegment s = .next t ∧
        Answered s t m rest 0 [(12, 1, x.z), (16, 8, x.sealedLen)] ∧
        t.segments = tabPut s.segments k { x with attach := some (pasid, msgNat m 24 8) }) ∧
    (Asks s m rest 0x12 [(16, 8), (24, 4)] → msgNat m 24 4 % 32 = 0 →
      let kept := s.segments.filter (fun e => decide (e.1 < 2 ^ 64))
      let va := msgNat m 16 8
      let len := 32 * min kept.length (msgNat m 24 4 / 32)
      ∀ pr ppn, tabFind s.procs pasid = some pr → va % 4096 + len ≤ 4096 →
        (∀ i < len, segWindow s pasid (va + i) = none) → s.promoted = [] → s.MemOk →
        (∀ e ∈ s.segments, e.2.z < 2 ^ 32 ∧ e.2.state < 2 ^ 32 ∧ ∀ a, e.2.attach = some a → a.1 < 2 ^ 64 ∧ a.2 < 2 ^ 64) →
        let pa := 4096 * ppn + va % 4096
        MapsOutside s pr.root va ppn 0xD7 (fun a => pa ≤ a ∧ a < pa + len) →
        ∃ t, exec .listKeptSegments s = .next t ∧ Answered s t m rest 0 [(12, 4, kept.length)] ∧
          (∀ (i : Nat) (e : Nat × Segment), kept[i]? = some e → 32 * i < len →
            homeNat t 8 (pa + 32 * i) = e.1 ∧ homeNat t 4 (pa + 32 * i + 8) = e.2.z ∧ homeNat t 4 (pa + 32 * i + 12) = e.2.state ∧
            homeNat t 8 (pa + 32 * i + 16) = (e.2.attach.map (fun a => a.1)).getD 0 ∧
            homeNat t 8 (pa + 32 * i + 24) = (e.2.attach.map (fun a => a.2)).getD 0) ∧
          (∀ a, a < Config.hbmBytes → (a < pa ∨ pa + len ≤ a) → homeByte t a = homeByte s a) ∧
          { t with mem := s.mem, hartRes := s.hartRes, hostIn := s.hostIn, hostOut := s.hostOut } = s)

/-! ### Encodings -/

/-- R73 to R79, R94: every well-formed scalar instruction is decoded from its word with all its operands; a scalar word that decodes is
the encoding of a well-formed instruction; and the bytes of a word, lowest first, decode as the word does. -/
def Obligations.ScalarEncodings : Prop :=
  (∀ (i : Instr) (w : Word), i.wf = true → encodeScalar i = some w → decodeScalar w = some i) ∧
  (∀ (i : Instr) (w : Word), decodeScalar w = some i → i.wf = true ∧ encodeScalar i = some w) ∧
  ∀ w : Word, decodeScalarBytes (leBytes 4 w.toNat) = decodeScalar w ∧ decodeTableWord 32 w.toNat = decodeScalar w

/-- R80 to R91, R94: the same of the lane words, twelve bytes with the low word first. -/
def Obligations.LaneEncodings : Prop :=
  (∀ (i : Instr) (w : BitVec 96), i.wf = true → encodeLane i = some w → decodeLane w = some i) ∧
  (∀ (i : Instr) (w : BitVec 96), decodeLane w = some i → i.wf = true ∧ encodeLane i = some w) ∧
  ∀ w : BitVec 96, decodeLaneBytes (leBytes 12 w.toNat) = decodeLane w ∧ decodeTableWord 96 w.toNat = decodeLane w

/-- R92, R93, R277: the same of the drain words. -/
def Obligations.DrainEncodings : Prop :=
  (∀ (i : Instr) (w : Dword), i.wf = true → encodeDrain i = some w → decodeDrain w = some i) ∧
  (∀ (i : Instr) (w : Dword), decodeDrain w = some i → i.wf = true ∧ encodeDrain i = some w) ∧
  ∀ w : Dword, decodeDrainBytes (leBytes 8 w.toNat) = decodeDrain w ∧ decodeTableWord 64 w.toNat = decodeDrain w

/-- Words of the spec's worked cases, with the instructions that they encode (R153 to R157, R173 to R177, R270, R285, R322, R346 to R348). -/
def Obligations.DecodeExamples : Prop :=
  let hdr : LaneHdr := { pred := 0, neg := false, dist := 0, wait := 0, setf := 15 }
  decodeScalar 0x04304200 = some (.add 3 1 2) ∧ decodeScalar 0x247FFFFB = some (.movi 7 0xFFFFB) ∧
  decodeScalar 0x805F4004 = some (.mpop 5 61) ∧ decodeScalar 0x40014003 = some (.brNz 5 3) ∧
  decodeScalar 0x50000028 = some (.call 40) ∧ decodeScalar 0x6800000C = some (.lrun 12) ∧ decodeScalar 0x74000000 = some .exit ∧
  decodeScalar 0xEC000000 = some .eret ∧ decodeScalar 0xF0000000 = some .yield ∧
  decodeLane 0x01000502C18000A0001E0000 = some (.iadd hdr .s16 true 10 11 (.reg 12)) ∧
  decodeLane 0x04830A0500000000001E0001 = some (.shfl hdr .xor .s32 20 20 (.imm 1)) ∧
  decodeLane 0x1B00000502C18000000A0000 = some (.append { hdr with setf := 5 } 20 22 24) ∧
  decodeLane 0x1A0600024000000000080000 = some (.xwait { hdr with setf := 4 } 9) ∧ decodeLane 0 = none ∧
  decodeDrain 0x04C0800000000000 = some (.dadd 3 0 (.reg 2)) ∧ decodeDrain 0x5800000000000000 = some (.dend false)

/-- R79: every word from `0xF800_0000` to `0xFBFF_FFFF` executes as a no-op: it decodes to a hint, which goes to the next word, writes no
register and never traps. -/
def Obligations.HintWords : Prop :=
  ∀ w : Word, 0xF8000000 ≤ w.toNat → w.toNat ≤ 0xFBFFFFFF → ∃ n, decodeScalar w = some (.nop n) ∧ n = w.extractLsb' 0 26 ∧
    ∀ (s : State) (g : Group) (p : Path), s.At g p → GoesTo s g p (exec (.nop n) s) g { p with spc := p.spc + 4 }

/-- R349: `TRAP`, `SVC` and `BKPT` with a non-zero `sd` or `sa`, and `ERET` and `YIELD` with any non-zero field, are no instructions, and a
step that issues one takes the illegal-instruction trap with the word in `tval0`. -/
def Obligations.ReservedTrapFields : Prop :=
  ∀ w : Word,
    let op := w.toNat / 2 ^ 26
    ((op = 0x38 ∨ op = 0x39 ∨ op = 0x3A) ∧ w.toNat / 2 ^ 14 % 2 ^ 12 ≠ 0 ∨ (op = 0x3B ∨ op = 0x3C) ∧ w.toNat % 2 ^ 26 ≠ 0) →
    decodeScalar w = none ∧
    ∀ (s : State) (gid : Nat) (g : Group) (p : Path) (off : Nat), s.powered = true → tabFind s.groups gid = some g →
      findPath g p.id = some p → mayIssue s gid g p false = true → g.garnet = none → g.handler = none →
      (kernOf s g).trapOff = some off → fetchScalar s g p = .word (w.setWidth 96) →
      ∃ t g' p', step { s with agenda := .issue gid p.id false :: s.agenda } = .next t ∧ tabFind t.groups gid = some g' ∧
        findPath g' p.id = some p' ∧ g'.tcause = 0x001 ∧ g'.tval0 = w ∧ g'.tspc = p.spc ∧ p'.spc = BitVec.ofNat 32 off ∧
        ∀ r, sRead g' p' r = sRead g p r

/-! ### The whole module -/

/-- R210, R279, R393, R395, R396: right after a reset every cycle counter is zero, nothing runs or is registered, boot is still to come,
and the storage timeout and the promotion pools have their defaults; memory and the tables of every group have their canonical forms.
That memory lists nothing after a reset is the model's choice (assumption 5). -/
def Obligations.ResetState : Prop :=
  let s := State.reset
  s.clock = 0 ∧ s.boot = 0 ∧ s.powered = true ∧ s.procs = [] ∧ s.queues = [] ∧ s.launches = [] ∧ s.clusters = [] ∧ s.teams = [] ∧
  s.groups = [] ∧ s.segments = [] ∧ s.storageTimeout = 100000000 ∧ (∀ st, (stackOf s st).poolMib = 2048) ∧
  (∀ c, (coreOf s c).spad = [] ∧ (coreOf s c).col = [] ∧ (coreOf s c).l1 = [] ∧ (coreOf s c).tlb = []) ∧ s.MemOk ∧ s.RegsOk ∧ s.KeysOk ∧
  Sys2Proof.core.reset = s

/-- From any state whose memory, register tables and keyed records have their canonical forms, a step leaves them in those forms (R6, R36):
equal memories stay equal lists, a register has one value, and a number names one record.
Rests on the model's choices of assumption 5. -/
def Obligations.MemoryForm : Prop :=
  ∀ s t : State, step s = .next t → (s.MemOk → t.MemOk) ∧ (s.RegsOk → t.RegsOk) ∧ (s.KeysOk → t.KeysOk)

/-- R79, R94: no instruction stops the module: every constructor answers a next state in every state; and a step stops only without power,
with nothing but a power-on reset left to run (R288, R396).
Rests on the model's choices of assumptions 11, 14. -/
def Obligations.NothingRefused : Prop :=
  (∀ (i : Instr) (s : State), Runs (exec i s)) ∧
  ∀ s : State, Runs (step s) ↔ s.powered = true ∨ ∃ rest, s.agenda = .event .coldReset :: rest
end

