-- ==== Sys2Proof/Laws/Exec.lean ====
section
/-! SUPPORT. What `exec` does with each instruction, in the name of its meaning. -/
namespace Sys2Proof.Machine

@[simp] theorem exec_add (d a b : SReg) (σ : State) :
    exec (.add d a b) σ = execAdd d a b σ := rfl
@[simp] theorem exec_sub (d a b : SReg) (σ : State) :
    exec (.sub d a b) σ = execSub d a b σ := rfl
@[simp] theorem exec_mul (d a b : SReg) (σ : State) :
    exec (.mul d a b) σ = execMul d a b σ := rfl
@[simp] theorem exec_mulh (d a b : SReg) (σ : State) :
    exec (.mulh d a b) σ = execMulh d a b σ := rfl
@[simp] theorem exec_mulhZ32 (d a b : SReg) (σ : State) :
    exec (.mulhZ32 d a b) σ = execMulhZ32 d a b σ := rfl
@[simp] theorem exec_divs (d a b : SReg) (σ : State) :
    exec (.divs d a b) σ = execDivs d a b σ := rfl
@[simp] theorem exec_and (d a b : SReg) (σ : State) :
    exec (.and d a b) σ = execAnd d a b σ := rfl
@[simp] theorem exec_or (d a b : SReg) (σ : State) :
    exec (.or d a b) σ = execOr d a b σ := rfl
@[simp] theorem exec_xor (d a b : SReg) (σ : State) :
    exec (.xor d a b) σ = execXor d a b σ := rfl
@[simp] theorem exec_andn (d a b : SReg) (σ : State) :
    exec (.andn d a b) σ = execAndn d a b σ := rfl
@[simp] theorem exec_shl (d a b : SReg) (σ : State) :
    exec (.shl d a b) σ = execShl d a b σ := rfl
@[simp] theorem exec_shr (d a b : SReg) (σ : State) :
    exec (.shr d a b) σ = execShr d a b σ := rfl
@[simp] theorem exec_sra (d a b : SReg) (σ : State) :
    exec (.sra d a b) σ = execSra d a b σ := rfl
@[simp] theorem exec_min (d a b : SReg) (σ : State) :
    exec (.min d a b) σ = execMin d a b σ := rfl
@[simp] theorem exec_max (d a b : SReg) (σ : State) :
    exec (.max d a b) σ = execMax d a b σ := rfl
@[simp] theorem exec_minZ32 (d a b : SReg) (σ : State) :
    exec (.minZ32 d a b) σ = execMinZ32 d a b σ := rfl
@[simp] theorem exec_maxZ32 (d a b : SReg) (σ : State) :
    exec (.maxZ32 d a b) σ = execMaxZ32 d a b σ := rfl
@[simp] theorem exec_sel (d a b : SReg) (σ : State) :
    exec (.sel d a b) σ = execSel d a b σ := rfl
@[simp] theorem exec_cmp (cc : Cond) (d a b : SReg) (σ : State) :
    exec (.cmp cc d a b) σ = execCmp cc d a b σ := rfl
@[simp] theorem exec_cmpZ32 (cc : UCond) (d a b : SReg) (σ : State) :
    exec (.cmpZ32 cc d a b) σ = execCmpZ32 cc d a b σ := rfl
@[simp] theorem exec_addZ64 (d a b : SReg) (σ : State) :
    exec (.addZ64 d a b) σ = execAddZ64 d a b σ := rfl
@[simp] theorem exec_subZ64 (d a b : SReg) (σ : State) :
    exec (.subZ64 d a b) σ = execSubZ64 d a b σ := rfl
@[simp] theorem exec_addi (d a : SReg) (imm : BitVec 14) (σ : State) :
    exec (.addi d a imm) σ = execAddi d a imm σ := rfl
@[simp] theorem exec_andi (d a : SReg) (imm : BitVec 14) (σ : State) :
    exec (.andi d a imm) σ = execAndi d a imm σ := rfl
@[simp] theorem exec_ori (d a : SReg) (imm : BitVec 14) (σ : State) :
    exec (.ori d a imm) σ = execOri d a imm σ := rfl
@[simp] theorem exec_xori (d a : SReg) (imm : BitVec 14) (σ : State) :
    exec (.xori d a imm) σ = execXori d a imm σ := rfl
@[simp] theorem exec_shli (d a : SReg) (n : BitVec 5) (σ : State) :
    exec (.shli d a n) σ = execShli d a n σ := rfl
@[simp] theorem exec_shri (d a : SReg) (n : BitVec 5) (σ : State) :
    exec (.shri d a n) σ = execShri d a n σ := rfl
@[simp] theorem exec_srai (d a : SReg) (n : BitVec 5) (σ : State) :
    exec (.srai d a n) σ = execSrai d a n σ := rfl
@[simp] theorem exec_movi (d : SReg) (imm : BitVec 20) (σ : State) :
    exec (.movi d imm) σ = execMovi d imm σ := rfl
@[simp] theorem exec_movhi (d : SReg) (imm : BitVec 12) (σ : State) :
    exec (.movhi d imm) σ = execMovhi d imm σ := rfl
@[simp] theorem exec_brNz (a : SReg) (off : BitVec 14) (σ : State) :
    exec (.brNz a off) σ = execBrNz a off σ := rfl
@[simp] theorem exec_brZ (a : SReg) (off : BitVec 14) (σ : State) :
    exec (.brZ a off) σ = execBrZ a off σ := rfl
@[simp] theorem exec_brd (p : PReg) (neg : Bool) (tag : BitVec 2) (live : BitVec 6) (off : BitVec 14) (σ : State) :
    exec (.brd p neg tag live off) σ = execBrd p neg tag live off σ := rfl
@[simp] theorem exec_jmp (off : BitVec 26) (σ : State) :
    exec (.jmp off) σ = execJmp off σ := rfl
@[simp] theorem exec_call (off : BitVec 26) (σ : State) :
    exec (.call off) σ = execCall off σ := rfl
@[simp] theorem exec_jmpi (a : SReg) (σ : State) :
    exec (.jmpi a) σ = execJmpi a σ := rfl
@[simp] theorem exec_jmpv (tag : BitVec 2) (v : VReg) (σ : State) :
    exec (.jmpv tag v) σ = execJmpv tag v σ := rfl
@[simp] theorem exec_callv (tag : BitVec 2) (v : VReg) (σ : State) :
    exec (.callv tag v) σ = execCallv tag v σ := rfl
@[simp] theorem exec_rjoin (tag : BitVec 2) (σ : State) :
    exec (.rjoin tag) σ = execRjoin tag σ := rfl
@[simp] theorem exec_lrun (idx : BitVec 26) (σ : State) :
    exec (.lrun idx) σ = execLrun idx σ := rfl
@[simp] theorem exec_ljmp (idx : BitVec 26) (σ : State) :
    exec (.ljmp idx) σ = execLjmp idx σ := rfl
@[simp] theorem exec_looph (off : BitVec 14) (σ : State) :
    exec (.looph off) σ = execLooph off σ := rfl
@[simp] theorem exec_mand (d a b : SReg) (σ : State) :
    exec (.mand d a b) σ = execMand d a b σ := rfl
@[simp] theorem exec_mor (d a b : SReg) (σ : State) :
    exec (.mor d a b) σ = execMor d a b σ := rfl
@[simp] theorem exec_mxor (d a b : SReg) (σ : State) :
    exec (.mxor d a b) σ = execMxor d a b σ := rfl
@[simp] theorem exec_mnot (d a : SReg) (σ : State) :
    exec (.mnot d a) σ = execMnot d a σ := rfl
@[simp] theorem exec_mpop (d a : SReg) (σ : State) :
    exec (.mpop d a) σ = execMpop d a σ := rfl
@[simp] theorem exec_mfirst (d a : SReg) (σ : State) :
    exec (.mfirst d a) σ = execMfirst d a σ := rfl
@[simp] theorem exec_sld (d a : SReg) (off : BitVec 14) (σ : State) :
    exec (.sld d a off) σ = execSld d a off σ := rfl
@[simp] theorem exec_sldZ64 (d a : SReg) (off : BitVec 14) (σ : State) :
    exec (.sldZ64 d a off) σ = execSldZ64 d a off σ := rfl
@[simp] theorem exec_sst (d a : SReg) (off : BitVec 14) (σ : State) :
    exec (.sst d a off) σ = execSst d a off σ := rfl
@[simp] theorem exec_sstZ64 (d a : SReg) (off : BitVec 14) (σ : State) :
    exec (.sstZ64 d a off) σ = execSstZ64 d a off σ := rfl
@[simp] theorem exec_sarg (d : SReg) (off : BitVec 14) (σ : State) :
    exec (.sarg d off) σ = execSarg d off σ := rfl
@[simp] theorem exec_sargZ64 (d : SReg) (off : BitVec 14) (σ : State) :
    exec (.sargZ64 d off) σ = execSargZ64 d off σ := rfl
@[simp] theorem exec_waitf (mask : BitVec 12) (σ : State) :
    exec (.waitf mask) σ = execWaitf mask σ := rfl
@[simp] theorem exec_waitk (k : KPath) (s : SReg) (σ : State) :
    exec (.waitk k s) σ = execWaitk k s σ := rfl
@[simp] theorem exec_srd (d : SReg) (r : SpecialReg) (σ : State) :
    exec (.srd d r) σ = execSrd d r σ := rfl
@[simp] theorem exec_srdCyclo (d : SReg) (σ : State) :
    exec (.srdCyclo d) σ = execSrdCyclo d σ := rfl
@[simp] theorem exec_srdCychi (d : SReg) (σ : State) :
    exec (.srdCychi d) σ = execSrdCychi d σ := rfl
@[simp] theorem exec_swrEjth (a : SReg) (σ : State) :
    exec (.swrEjth a) σ = execSwrEjth a σ := rfl
@[simp] theorem exec_swrRjto (a : SReg) (σ : State) :
    exec (.swrRjto a) σ = execSwrRjto a σ := rfl
@[simp] theorem exec_swrFpflags (a : SReg) (σ : State) :
    exec (.swrFpflags a) σ = execSwrFpflags a σ := rfl
@[simp] theorem exec_swrTrapState (r : TrapReg) (a : SReg) (σ : State) :
    exec (.swrTrapState r a) σ = execSwrTrapState r a σ := rfl
@[simp] theorem exec_sigchk (i : BitVec 14) (σ : State) :
    exec (.sigchk i) σ = execSigchk i σ := rfl
@[simp] theorem exec_trap (n : BitVec 14) (σ : State) :
    exec (.trap n) σ = execTrap n σ := rfl
@[simp] theorem exec_svc (n : BitVec 14) (σ : State) :
    exec (.svc n) σ = execSvc n σ := rfl
@[simp] theorem exec_bkpt (n : BitVec 14) (σ : State) :
    exec (.bkpt n) σ = execBkpt n σ := rfl
@[simp] theorem exec_nop (hint : BitVec 26) (σ : State) :
    exec (.nop hint) σ = execNop hint σ := rfl
@[simp] theorem exec_iadd (h : LaneHdr) (t : IntTy) (sat : Bool) (vd va : VReg) (b : VSrc) (σ : State) :
    exec (.iadd h t sat vd va b) σ = execIadd h t sat vd va b σ := rfl
@[simp] theorem exec_isub (h : LaneHdr) (t : IntTy) (sat : Bool) (vd va : VReg) (b : VSrc) (σ : State) :
    exec (.isub h t sat vd va b) σ = execIsub h t sat vd va b σ := rfl
@[simp] theorem exec_imul (h : LaneHdr) (t : IntTy) (sat : Bool) (vd va : VReg) (b : VSrc) (σ : State) :
    exec (.imul h t sat vd va b) σ = execImul h t sat vd va b σ := rfl
@[simp] theorem exec_imad (h : LaneHdr) (t : IntTy) (sat : Bool) (vd va : VReg) (b : VSrc) (vc : VReg) (σ : State) :
    exec (.imad h t sat vd va b vc) σ = execImad h t sat vd va b vc σ := rfl
@[simp] theorem exec_imulh (h : LaneHdr) (t : IntTy) (vd va : VReg) (b : VSrc) (σ : State) :
    exec (.imulh h t vd va b) σ = execImulh h t vd va b σ := rfl
@[simp] theorem exec_iabs (h : LaneHdr) (t : IntTy) (sat : Bool) (vd va : VReg) (σ : State) :
    exec (.iabs h t sat vd va) σ = execIabs h t sat vd va σ := rfl
@[simp] theorem exec_imin (h : LaneHdr) (t : IntTy) (vd va : VReg) (b : VSrc) (σ : State) :
    exec (.imin h t vd va b) σ = execImin h t vd va b σ := rfl
@[simp] theorem exec_imax (h : LaneHdr) (t : IntTy) (vd va : VReg) (b : VSrc) (σ : State) :
    exec (.imax h t vd va b) σ = execImax h t vd va b σ := rfl
@[simp] theorem exec_laneAnd (h : LaneHdr) (t : IntTy) (vd va : VReg) (b : VSrc) (σ : State) :
    exec (.laneAnd h t vd va b) σ = execLaneAnd h t vd va b σ := rfl
@[simp] theorem exec_laneOr (h : LaneHdr) (t : IntTy) (vd va : VReg) (b : VSrc) (σ : State) :
    exec (.laneOr h t vd va b) σ = execLaneOr h t vd va b σ := rfl
@[simp] theorem exec_laneXor (h : LaneHdr) (t : IntTy) (vd va : VReg) (b : VSrc) (σ : State) :
    exec (.laneXor h t vd va b) σ = execLaneXor h t vd va b σ := rfl
@[simp] theorem exec_not (h : LaneHdr) (t : IntTy) (vd va : VReg) (σ : State) :
    exec (.not h t vd va) σ = execNot h t vd va σ := rfl
@[simp] theorem exec_laneShl (h : LaneHdr) (t : IntTy) (vd va : VReg) (b : VSrc) (σ : State) :
    exec (.laneShl h t vd va b) σ = execLaneShl h t vd va b σ := rfl
@[simp] theorem exec_laneShr (h : LaneHdr) (t : IntTy) (vd va : VReg) (b : VSrc) (σ : State) :
    exec (.laneShr h t vd va b) σ = execLaneShr h t vd va b σ := rfl
@[simp] theorem exec_laneSra (h : LaneHdr) (t : IntTy) (vd va : VReg) (b : VSrc) (σ : State) :
    exec (.laneSra h t vd va b) σ = execLaneSra h t vd va b σ := rfl
@[simp] theorem exec_rot (h : LaneHdr) (t : IntTy) (vd va : VReg) (b : VSrc) (σ : State) :
    exec (.rot h t vd va b) σ = execRot h t vd va b σ := rfl
@[simp] theorem exec_popc (h : LaneHdr) (t : IntTy) (vd va : VReg) (σ : State) :
    exec (.popc h t vd va) σ = execPopc h t vd va σ := rfl
@[simp] theorem exec_clz (h : LaneHdr) (t : IntTy) (vd va : VReg) (σ : State) :
    exec (.clz h t vd va) σ = execClz h t vd va σ := rfl
@[simp] theorem exec_brev (h : LaneHdr) (t : IntTy) (vd va : VReg) (σ : State) :
    exec (.brev h t vd va) σ = execBrev h t vd va σ := rfl
@[simp] theorem exec_bfx (h : LaneHdr) (t : IntTy) (vd va : VReg) (pos width : BitVec 5) (σ : State) :
    exec (.bfx h t vd va pos width) σ = execBfx h t vd va pos width σ := rfl
@[simp] theorem exec_bfi (h : LaneHdr) (t : IntTy) (vd va : VReg) (pos width : BitVec 5) (σ : State) :
    exec (.bfi h t vd va pos width) σ = execBfi h t vd va pos width σ := rfl
@[simp] theorem exec_laneSel (h : LaneHdr) (t : IntTy) (vd va : VReg) (b : VSrc) (pk : PReg) (σ : State) :
    exec (.laneSel h t vd va b pk) σ = execLaneSel h t vd va b pk σ := rfl
@[simp] theorem exec_mov (h : LaneHdr) (t : IntTy) (vd : VReg) (a : VSrc) (σ : State) :
    exec (.mov h t vd a) σ = execMov h t vd a σ := rfl
@[simp] theorem exec_movs (h : LaneHdr) (t : IntTy) (vd : VReg) (sn : SReg) (σ : State) :
    exec (.movs h t vd sn) σ = execMovs h t vd sn σ := rfl
@[simp] theorem exec_lea (h : LaneHdr) (vd : VReg) (base : MBase) (idx : MIdx) (off : BitVec 12) (σ : State) :
    exec (.lea h vd base idx off) σ = execLea h vd base idx off σ := rfl
@[simp] theorem exec_iset (h : LaneHdr) (cc : Cond) (t : IntTy) (pd : PReg) (va : VReg) (b : VSrc) (σ : State) :
    exec (.iset h cc t pd va b) σ = execIset h cc t pd va b σ := rfl
@[simp] theorem exec_shfl (h : LaneHdr) (m : ShflMode) (t : IntTy) (vd va : VReg) (b : VSrc) (σ : State) :
    exec (.shfl h m t vd va b) σ = execShfl h m t vd va b σ := rfl
@[simp] theorem exec_voteAny (h : LaneHdr) (pd pa : PReg) (σ : State) :
    exec (.voteAny h pd pa) σ = execVoteAny h pd pa σ := rfl
@[simp] theorem exec_voteAll (h : LaneHdr) (pd pa : PReg) (σ : State) :
    exec (.voteAll h pd pa) σ = execVoteAll h pd pa σ := rfl
@[simp] theorem exec_voteBallot (h : LaneHdr) (sn : SReg) (pa : PReg) (σ : State) :
    exec (.voteBallot h sn pa) σ = execVoteBallot h sn pa σ := rfl
@[simp] theorem exec_gred (h : LaneHdr) (op : GredOp) (t : IntTy) (vd va : VReg) (σ : State) :
    exec (.gred h op t vd va) σ = execGred h op t vd va σ := rfl
@[simp] theorem exec_fadd (h : LaneHdr) (m : Rnd) (vd va : VReg) (b : VSrc) (σ : State) :
    exec (.fadd h m vd va b) σ = execFadd h m vd va b σ := rfl
@[simp] theorem exec_fsub (h : LaneHdr) (m : Rnd) (vd va : VReg) (b : VSrc) (σ : State) :
    exec (.fsub h m vd va b) σ = execFsub h m vd va b σ := rfl
@[simp] theorem exec_fmul (h : LaneHdr) (m : Rnd) (vd va : VReg) (b : VSrc) (σ : State) :
    exec (.fmul h m vd va b) σ = execFmul h m vd va b σ := rfl
@[simp] theorem exec_ffma (h : LaneHdr) (m : Rnd) (vd va : VReg) (b : VSrc) (vc : VReg) (σ : State) :
    exec (.ffma h m vd va b vc) σ = execFfma h m vd va b vc σ := rfl
@[simp] theorem exec_fmin (h : LaneHdr) (vd va : VReg) (b : VSrc) (σ : State) :
    exec (.fmin h vd va b) σ = execFmin h vd va b σ := rfl
@[simp] theorem exec_fmax (h : LaneHdr) (vd va : VReg) (b : VSrc) (σ : State) :
    exec (.fmax h vd va b) σ = execFmax h vd va b σ := rfl
@[simp] theorem exec_fabs (h : LaneHdr) (vd va : VReg) (σ : State) :
    exec (.fabs h vd va) σ = execFabs h vd va σ := rfl
@[simp] theorem exec_fneg (h : LaneHdr) (vd va : VReg) (σ : State) :
    exec (.fneg h vd va) σ = execFneg h vd va σ := rfl
@[simp] theorem exec_fclass (h : LaneHdr) (vd va : VReg) (σ : State) :
    exec (.fclass h vd va) σ = execFclass h vd va σ := rfl
@[simp] theorem exec_fscale (h : LaneHdr) (m : Rnd) (vd va : VReg) (b : VSrc) (σ : State) :
    exec (.fscale h m vd va b) σ = execFscale h m vd va b σ := rfl
@[simp] theorem exec_frnd (h : LaneHdr) (m : Rnd) (vd va : VReg) (σ : State) :
    exec (.frnd h m vd va) σ = execFrnd h m vd va σ := rfl
@[simp] theorem exec_fdiv (h : LaneHdr) (m : Rnd) (vd va : VReg) (b : VSrc) (σ : State) :
    exec (.fdiv h m vd va b) σ = execFdiv h m vd va b σ := rfl
@[simp] theorem exec_fsqrt (h : LaneHdr) (m : Rnd) (vd va : VReg) (σ : State) :
    exec (.fsqrt h m vd va) σ = execFsqrt h m vd va σ := rfl
@[simp] theorem exec_fset (h : LaneHdr) (cc : FCond) (pd : PReg) (va : VReg) (b : VSrc) (σ : State) :
    exec (.fset h cc pd va b) σ = execFset h cc pd va b σ := rfl
@[simp] theorem exec_rcp (h : LaneHdr) (vd va : VReg) (σ : State) :
    exec (.rcp h vd va) σ = execRcp h vd va σ := rfl
@[simp] theorem exec_rsq (h : LaneHdr) (vd va : VReg) (σ : State) :
    exec (.rsq h vd va) σ = execRsq h vd va σ := rfl
@[simp] theorem exec_ex2 (h : LaneHdr) (vd va : VReg) (σ : State) :
    exec (.ex2 h vd va) σ = execEx2 h vd va σ := rfl
@[simp] theorem exec_lg2 (h : LaneHdr) (vd va : VReg) (σ : State) :
    exec (.lg2 h vd va) σ = execLg2 h vd va σ := rfl
@[simp] theorem exec_sin (h : LaneHdr) (vd va : VReg) (σ : State) :
    exec (.sin h vd va) σ = execSin h vd va σ := rfl
@[simp] theorem exec_cos (h : LaneHdr) (vd va : VReg) (σ : State) :
    exec (.cos h vd va) σ = execCos h vd va σ := rfl
@[simp] theorem exec_tanh (h : LaneHdr) (vd va : VReg) (σ : State) :
    exec (.tanh h vd va) σ = execTanh h vd va σ := rfl
@[simp] theorem exec_erf (h : LaneHdr) (vd va : VReg) (σ : State) :
    exec (.erf h vd va) σ = execErf h vd va σ := rfl
@[simp] theorem exec_specialFunctionComplete (g r : Nat) (σ : State) :
    exec (.specialFunctionComplete g r) σ = execSpecialFunctionComplete g r σ := rfl
@[simp] theorem exec_h2add (h : LaneHdr) (m : Rnd) (bf : Bool) (vd va : VReg) (b : VSrc) (σ : State) :
    exec (.h2add h m bf vd va b) σ = execH2add h m bf vd va b σ := rfl
@[simp] theorem exec_h2mul (h : LaneHdr) (m : Rnd) (bf : Bool) (vd va : VReg) (b : VSrc) (σ : State) :
    exec (.h2mul h m bf vd va b) σ = execH2mul h m bf vd va b σ := rfl
@[simp] theorem exec_h2fma (h : LaneHdr) (m : Rnd) (bf : Bool) (vd va : VReg) (b : VSrc) (vc : VReg) (σ : State) :
    exec (.h2fma h m bf vd va b vc) σ = execH2fma h m bf vd va b vc σ := rfl
@[simp] theorem exec_cvt (h : LaneHdr) (m : Rnd) (sat : Bool) (dt st : ElemTy) (vd va : VReg) (σ : State) :
    exec (.cvt h m sat dt st vd va) σ = execCvt h m sat dt st vd va σ := rfl
@[simp] theorem exec_ld (h : LaneHdr) (t : IntTy) (spa : Space) (acq : Bool) (sc : Scope) (w : Atomicity) (base : MBase) (idx : MIdx) (off : BitVec 12) (vd : VReg) (σ : State) :
    exec (.ld h t spa acq sc w base idx off vd) σ = execLd h t spa acq sc w base idx off vd σ := rfl
@[simp] theorem exec_st (h : LaneHdr) (t : IntTy) (spa : Space) (rel : Bool) (sc : Scope) (w : Atomicity) (base : MBase) (idx : MIdx) (off : BitVec 12) (vc : VReg) (σ : State) :
    exec (.st h t spa rel sc w base idx off vc) σ = execSt h t spa rel sc w base idx off vc σ := rfl
@[simp] theorem exec_atom (h : LaneHdr) (op : AtomOp) (t : AtomTy) (spa : Space) (ord : Ord4) (sc : Scope) (w : Atomicity) (base : MBase) (idx : MIdx) (off : BitVec 8) (vd vc : VReg) (σ : State) :
    exec (.atom h op t spa ord sc w base idx off vd vc) σ = execAtom h op t spa ord sc w base idx off vd vc σ := rfl
@[simp] theorem exec_red (h : LaneHdr) (op : AtomOp) (t : AtomTy) (spa : Space) (rel : Bool) (sc : Scope) (w : Atomicity) (base : MBase) (idx : MIdx) (off : BitVec 8) (vc : VReg) (σ : State) :
    exec (.red h op t spa rel sc w base idx off vc) σ = execRed h op t spa rel sc w base idx off vc σ := rfl
@[simp] theorem exec_memoryRequestReturn (g r : Nat) (σ : State) :
    exec (.memoryRequestReturn g r) σ = execMemoryRequestReturn g r σ := rfl
@[simp] theorem exec_fence (h : LaneHdr) (sc : Scope) (σ : State) :
    exec (.fence h sc) σ = execFence h sc σ := rfl
@[simp] theorem exec_cln (h : LaneHdr) (sc : Scope) (σ : State) :
    exec (.cln h sc) σ = execCln h sc σ := rfl
@[simp] theorem exec_inv (h : LaneHdr) (sc : Scope) (σ : State) :
    exec (.inv h sc) σ = execInv h sc σ := rfl
@[simp] theorem exec_pref (h : LaneHdr) (base : MBase) (idx : MIdx) (off : BitVec 12) (σ : State) :
    exec (.pref h base idx off) σ = execPref h base idx off σ := rfl
@[simp] theorem exec_lkln (h : LaneHdr) (base : MBase) (idx : MIdx) (off : BitVec 12) (σ : State) :
    exec (.lkln h base idx off) σ = execLkln h base idx off σ := rfl
@[simp] theorem exec_ulln (h : LaneHdr) (base : MBase) (idx : MIdx) (off : BitVec 12) (σ : State) :
    exec (.ulln h base idx off) σ = execUlln h base idx off σ := rfl
@[simp] theorem exec_cpyc (h : LaneHdr) (dst src : SReg) (dr sr : Byte) (σ : State) :
    exec (.cpyc h dst src dr sr) σ = execCpyc h dst src dr sr σ := rfl
@[simp] theorem exec_cpyx (h : LaneHdr) (dst : SReg) (vx : VReg) (tab : SReg) (rc : Byte) (σ : State) :
    exec (.cpyx h dst vx tab rc) σ = execCpyx h dst vx tab rc σ := rfl
@[simp] theorem exec_job (h : LaneHdr) (card : SReg) (σ : State) :
    exec (.job h card) σ = execJob h card σ := rfl
@[simp] theorem exec_taskdef (h : LaneHdr) (card cnt : SReg) (t : Byte) (σ : State) :
    exec (.taskdef h card cnt t) σ = execTaskdef h card cnt t σ := rfl
@[simp] theorem exec_taskwait (h : LaneHdr) (t : Byte) (σ : State) :
    exec (.taskwait h t) σ = execTaskwait h t σ := rfl
@[simp] theorem exec_submissionStart (st sub : Nat) (σ : State) :
    exec (.submissionStart st sub) σ = execSubmissionStart st sub σ := rfl
@[simp] theorem exec_jobComplete (st sub : Nat) (σ : State) :
    exec (.jobComplete st sub) σ = execJobComplete st sub σ := rfl
@[simp] theorem exec_tileArrival (st sub : Nat) (σ : State) :
    exec (.tileArrival st sub) σ = execTileArrival st sub σ := rfl
@[simp] theorem exec_gangset (h : LaneHdr) (s : SReg) (σ : State) :
    exec (.gangset h s) σ = execGangset h s σ := rfl
@[simp] theorem exec_mma (h : LaneHdr) (fmt : MmaFmt) (td : TileDrain) (a b sc : SReg) (ra rb : Byte) (σ : State) :
    exec (.mma h fmt td a b sc ra rb) σ = execMma h fmt td a b sc ra rb σ := rfl
@[simp] theorem exec_mmaz (h : LaneHdr) (fmt : MmaFmt) (td : TileDrain) (a b sc : SReg) (ra rb : Byte) (σ : State) :
    exec (.mmaz h fmt td a b sc ra rb) σ = execMmaz h fmt td a b sc ra rb σ := rfl
@[simp] theorem exec_mdrain (h : LaneHdr) (slot : BitVec 4) (tile : Tile) (sc : SReg) (σ : State) :
    exec (.mdrain h slot tile sc) σ = execMdrain h slot tile sc σ := rfl
@[simp] theorem exec_matrixStep (c : Nat) (σ : State) :
    exec (.matrixStep c) σ = execMatrixStep c σ := rfl
@[simp] theorem exec_matrixComplete (c : Nat) (σ : State) :
    exec (.matrixComplete c) σ = execMatrixComplete c σ := rfl
@[simp] theorem exec_scld (h : LaneHdr) (a cnt : SReg) (off : BitVec 14) (σ : State) :
    exec (.scld h a cnt off) σ = execScld h a cnt off σ := rfl
@[simp] theorem exec_drld (h : LaneHdr) (a : SReg) (n : BitVec 7) (slot : BitVec 4) (σ : State) :
    exec (.drld h a n slot) σ = execDrld h a n slot σ := rfl
@[simp] theorem exec_tkpass (h : LaneHdr) (t : Tile) (σ : State) :
    exec (.tkpass h t) σ = execTkpass h t σ := rfl
@[simp] theorem exec_tktake (h : LaneHdr) (t : Tile) (σ : State) :
    exec (.tktake h t) σ = execTktake h t σ := rfl
@[simp] theorem exec_accrd (h : LaneHdr) (vd : VReg) (t : Tile) (vx : VReg) (σ : State) :
    exec (.accrd h vd t vx) σ = execAccrd h vd t vx σ := rfl
@[simp] theorem exec_accwr (h : LaneHdr) (t : Tile) (vx vs : VReg) (σ : State) :
    exec (.accwr h t vx vs) σ = execAccwr h t vx vs σ := rfl
@[simp] theorem exec_drainSegment (c : Nat) (σ : State) :
    exec (.drainSegment c) σ = execDrainSegment c σ := rfl
@[simp] theorem exec_drainComplete (c : Nat) (σ : State) :
    exec (.drainComplete c) σ = execDrainComplete c σ := rfl
@[simp] theorem exec_dadd (d a : EReg) (b : DSrc) (σ : State) :
    exec (.dadd d a b) σ = execDadd d a b σ := rfl
@[simp] theorem exec_dmul (d a : EReg) (b : DSrc) (σ : State) :
    exec (.dmul d a b) σ = execDmul d a b σ := rfl
@[simp] theorem exec_dfma (d a : EReg) (b : DSrc) (c : EReg) (σ : State) :
    exec (.dfma d a b c) σ = execDfma d a b c σ := rfl
@[simp] theorem exec_dmin (d a : EReg) (b : DSrc) (σ : State) :
    exec (.dmin d a b) σ = execDmin d a b σ := rfl
@[simp] theorem exec_dmax (d a : EReg) (b : DSrc) (σ : State) :
    exec (.dmax d a b) σ = execDmax d a b σ := rfl
@[simp] theorem exec_dclamp (d a : EReg) (b : DSrc) (c : EReg) (σ : State) :
    exec (.dclamp d a b c) σ = execDclamp d a b c σ := rfl
@[simp] theorem exec_drow (t : DMemTy) (d : EReg) (p : SReg) (σ : State) :
    exec (.drow t d p) σ = execDrow t d p σ := rfl
@[simp] theorem exec_dcol (t : DMemTy) (d : EReg) (p : SReg) (σ : State) :
    exec (.dcol t d p) σ = execDcol t d p σ := rfl
@[simp] theorem exec_dscl (d a : EReg) (n : BitVec 9) (σ : State) :
    exec (.dscl d a n) σ = execDscl d a n σ := rfl
@[simp] theorem exec_dgelu (d a : EReg) (σ : State) :
    exec (.dgelu d a) σ = execDgelu d a σ := rfl
@[simp] theorem exec_dsilu (d a : EReg) (σ : State) :
    exec (.dsilu d a) σ = execDsilu d a σ := rfl
@[simp] theorem exec_dtanh (d a : EReg) (σ : State) :
    exec (.dtanh d a) σ = execDtanh d a σ := rfl
@[simp] theorem exec_dsig (d a : EReg) (σ : State) :
    exec (.dsig d a) σ = execDsig d a σ := rfl
@[simp] theorem exec_drelu (d a : EReg) (σ : State) :
    exec (.drelu d a) σ = execDrelu d a σ := rfl
@[simp] theorem exec_damax (t : DMaxTy) (d a : EReg) (σ : State) :
    exec (.damax t d a) σ = execDamax t d a σ := rfl
@[simp] theorem exec_dq8 (d a b : EReg) (σ : State) :
    exec (.dq8 d a b) σ = execDq8 d a b σ := rfl
@[simp] theorem exec_dq4 (d a b : EReg) (σ : State) :
    exec (.dq4 d a b) σ = execDq4 d a b σ := rfl
@[simp] theorem exec_dcvt (sat : Bool) (t : DCvtTy) (d a : EReg) (σ : State) :
    exec (.dcvt sat t d a) σ = execDcvt sat t d a σ := rfl
@[simp] theorem exec_dsel (cc : DSelCond) (d a b c : EReg) (σ : State) :
    exec (.dsel cc d a b c) σ = execDsel cc d a b c σ := rfl
@[simp] theorem exec_dst (t : DStTy) (a : EReg) (p m : SReg) (σ : State) :
    exec (.dst t a p m) σ = execDst t a p m σ := rfl
@[simp] theorem exec_dsts (a : EReg) (p m : SReg) (σ : State) :
    exec (.dsts a p m) σ = execDsts a p m σ := rfl
@[simp] theorem exec_dend (zero : Bool) (σ : State) :
    exec (.dend zero) σ = execDend zero σ := rfl
@[simp] theorem exec_dmov (d : EReg) (a : DSrc) (σ : State) :
    exec (.dmov d a) σ = execDmov d a σ := rfl
@[simp] theorem exec_dld (t : DMemTy) (d : EReg) (p m : SReg) (σ : State) :
    exec (.dld t d p m) σ = execDld t d p m σ := rfl
@[simp] theorem exec_bari (h : LaneHdr) (o n : SReg) (σ : State) :
    exec (.bari h o n) σ = execBari h o n σ := rfl
@[simp] theorem exec_arrive (h : LaneHdr) (o : SReg) (σ : State) :
    exec (.arrive h o) σ = execArrive h o σ := rfl
@[simp] theorem exec_bwait (h : LaneHdr) (o : SReg) (σ : State) :
    exec (.bwait h o) σ = execBwait h o σ := rfl
@[simp] theorem exec_expect (h : LaneHdr) (o n : SReg) (σ : State) :
    exec (.expect h o n) σ = execExpect h o n σ := rfl
@[simp] theorem exec_roleset (h : LaneHdr) (k : BitVec 2) (σ : State) :
    exec (.roleset h k) σ = execRoleset h k σ := rfl
@[simp] theorem exec_xred (h : LaneHdr) (op : XOp) (s : SReg) (vb : VReg) (σ : State) :
    exec (.xred h op s vb) σ = execXred h op s vb σ := rfl
@[simp] theorem exec_xredRoundComplete (c : Nat) (σ : State) :
    exec (.xredRoundComplete c) σ = execXredRoundComplete c σ := rfl
@[simp] theorem exec_xwait (h : LaneHdr) (s : SReg) (σ : State) :
    exec (.xwait h s) σ = execXwait h s σ := rfl
@[simp] theorem exec_collectiveTimeout (c : Nat) (σ : State) :
    exec (.collectiveTimeout c) σ = execCollectiveTimeout c σ := rfl
@[simp] theorem exec_append (h : LaneHdr) (g a n : SReg) (σ : State) :
    exec (.append h g a n) σ = execAppend h g a n σ := rfl
@[simp] theorem exec_apfence (h : LaneHdr) (d g : SReg) (σ : State) :
    exec (.apfence h d g) σ = execApfence h d g σ := rfl
@[simp] theorem exec_seal (h : LaneHdr) (g : SReg) (σ : State) :
    exec (.seal h g) σ = execSeal h g σ := rfl
@[simp] theorem exec_recordDurable (seg : Nat) (σ : State) :
    exec (.recordDurable seg) σ = execRecordDurable seg σ := rfl
@[simp] theorem exec_stallToken (g r : Nat) (σ : State) :
    exec (.stallToken g r) σ = execStallToken g r σ := rfl
@[simp] theorem exec_stallRelease (g r : Nat) (σ : State) :
    exec (.stallRelease g r) σ = execStallRelease g r σ := rfl
@[simp] theorem exec_storageTimeout (g r : Nat) (σ : State) :
    exec (.storageTimeout g r) σ = execStorageTimeout g r σ := rfl
@[simp] theorem exec_launch (q : Nat) (σ : State) :
    exec (.launch q) σ = execLaunch q σ := rfl
@[simp] theorem exec_copy (q : Nat) (σ : State) :
    exec (.copy q) σ = execCopy q σ := rfl
@[simp] theorem exec_task (q : Nat) (σ : State) :
    exec (.task q) σ = execTask q σ := rfl
@[simp] theorem exec_barrier (q : Nat) (σ : State) :
    exec (.barrier q) σ = execBarrier q σ := rfl
@[simp] theorem exec_invalidateTranslations (q : Nat) (σ : State) :
    exec (.invalidateTranslations q) σ = execInvalidateTranslations q σ := rfl
@[simp] theorem exec_prefault (q : Nat) (σ : State) :
    exec (.prefault q) σ = execPrefault q σ := rfl
@[simp] theorem exec_demote (q : Nat) (σ : State) :
    exec (.demote q) σ = execDemote q σ := rfl
@[simp] theorem exec_prefetchToHbm (q : Nat) (σ : State) :
    exec (.prefetchToHbm q) σ = execPrefetchToHbm q σ := rfl
@[simp] theorem exec_conditionalSkip (q : Nat) (σ : State) :
    exec (.conditionalSkip q) σ = execConditionalSkip q σ := rfl
@[simp] theorem exec_conditionalJump (q : Nat) (σ : State) :
    exec (.conditionalJump q) σ = execConditionalJump q σ := rfl
@[simp] theorem exec_conditionalRepeat (q : Nat) (σ : State) :
    exec (.conditionalRepeat q) σ = execConditionalRepeat q σ := rfl
@[simp] theorem exec_repeatTimeout (q : Nat) (σ : State) :
    exec (.repeatTimeout q) σ = execRepeatTimeout q σ := rfl
@[simp] theorem exec_lineWatchFire (line : Nat) (σ : State) :
    exec (.lineWatchFire line) σ = execLineWatchFire line σ := rfl
@[simp] theorem exec_packetComplete (q idx : Nat) (σ : State) :
    exec (.packetComplete q idx) σ = execPacketComplete q idx σ := rfl
@[simp] theorem exec_itemFeed (l : Nat) (σ : State) :
    exec (.itemFeed l) σ = execItemFeed l σ := rfl
@[simp] theorem exec_ejectionDecision (g p : Nat) (σ : State) :
    exec (.ejectionDecision g p) σ = execEjectionDecision g p σ := rfl
@[simp] theorem exec_laneRecall (g : Nat) (σ : State) :
    exec (.laneRecall g) σ = execLaneRecall g σ := rfl
@[simp] theorem exec_rejoinTimeout (g t : Nat) (σ : State) :
    exec (.rejoinTimeout g t) σ = execRejoinTimeout g t σ := rfl
@[simp] theorem exec_registerLineFetch (g line : Nat) (σ : State) :
    exec (.registerLineFetch g line) σ = execRegisterLineFetch g line σ := rfl
@[simp] theorem exec_translationWalk (st : Nat) (σ : State) :
    exec (.translationWalk st) σ = execTranslationWalk st σ := rfl
@[simp] theorem exec_promoteBlock (blk : Nat) (σ : State) :
    exec (.promoteBlock blk) σ = execPromoteBlock blk σ := rfl
@[simp] theorem exec_trapQueueDrain (st : Nat) (σ : State) :
    exec (.trapQueueDrain st) σ = execTrapQueueDrain st σ := rfl
@[simp] theorem exec_trapRecordWrite (st : Nat) (σ : State) :
    exec (.trapRecordWrite st) σ = execTrapRecordWrite st σ := rfl
@[simp] theorem exec_launchComplete (l : Nat) (σ : State) :
    exec (.launchComplete l) σ = execLaunchComplete l σ := rfl
@[simp] theorem exec_stopNotice (cl : Nat) (σ : State) :
    exec (.stopNotice cl) σ = execStopNotice cl σ := rfl
@[simp] theorem exec_saveStart (cl : Nat) (σ : State) :
    exec (.saveStart cl) σ = execSaveStart cl σ := rfl
@[simp] theorem exec_saveComplete (cl : Nat) (σ : State) :
    exec (.saveComplete cl) σ = execSaveComplete cl σ := rfl
@[simp] theorem exec_resumeRestore (cl : Nat) (σ : State) :
    exec (.resumeRestore cl) σ = execResumeRestore cl σ := rfl
@[simp] theorem exec_framePoison (pa : Nat) (σ : State) :
    exec (.framePoison pa) σ = execFramePoison pa σ := rfl
@[simp] theorem exec_parityRetry (core grp lane pa tries : Nat) (σ : State) :
    exec (.parityRetry core grp lane pa tries) σ = execParityRetry core grp lane pa tries σ := rfl
@[simp] theorem exec_stackDegrade (st : Nat) (σ : State) :
    exec (.stackDegrade st) σ = execStackDegrade st σ := rfl
@[simp] theorem exec_lifetimeRecord (st : Nat) (σ : State) :
    exec (.lifetimeRecord st) σ = execLifetimeRecord st σ := rfl
@[simp] theorem exec_powerGate (k : Nat) (σ : State) :
    exec (.powerGate k) σ = execPowerGate k σ := rfl
@[simp] theorem exec_portFailure (port : Nat) (σ : State) :
    exec (.portFailure port) σ = execPortFailure port σ := rfl
@[simp] theorem exec_hartAccess (req : HartReq) (addr : Nat) (σ : State) :
    exec (.hartAccess req addr) σ = execHartAccess req addr σ := rfl
@[simp] theorem exec_pcieInboundRequest (via : PcieVia) (addr : Nat) (wr : Option (Nat × Dword)) (σ : State) :
    exec (.pcieInboundRequest via addr wr) σ = execPcieInboundRequest via addr wr σ := rfl
@[simp] theorem exec_segmentFailure (seg : Nat) (σ : State) :
    exec (.segmentFailure seg) σ = execSegmentFailure seg σ := rfl
@[simp] theorem exec_uncorrectableStorageError (g kind idx : Nat) (σ : State) :
    exec (.uncorrectableStorageError g kind idx) σ = execUncorrectableStorageError g kind idx σ := rfl
@[simp] theorem exec_instructionFetchMiss (g p : Nat) (lane : Bool) (σ : State) :
    exec (.instructionFetchMiss g p lane) σ = execInstructionFetchMiss g p lane σ := rfl
@[simp] theorem exec_connectionSetup (port : Nat) (peer : Peer) (σ : State) :
    exec (.connectionSetup port peer) σ = execConnectionSetup port peer σ := rfl
@[simp] theorem exec_ret (σ : State) :
    exec .ret σ = execRet σ := rfl
@[simp] theorem exec_exit (σ : State) :
    exec .exit σ = execExit σ := rfl
@[simp] theorem exec_snap (σ : State) :
    exec .snap σ = execSnap σ := rfl
@[simp] theorem exec_eret (σ : State) :
    exec .eret σ = execEret σ := rfl
@[simp] theorem exec_yield (σ : State) :
    exec .yield σ = execYield σ := rfl
@[simp] theorem exec_lend (σ : State) :
    exec .lend σ = execLend σ := rfl
@[simp] theorem exec_placementSearch (σ : State) :
    exec .placementSearch σ = execPlacementSearch σ := rfl
@[simp] theorem exec_placementRequest (σ : State) :
    exec .placementRequest σ = execPlacementRequest σ := rfl
@[simp] theorem exec_preemptDecision (σ : State) :
    exec .preemptDecision σ = execPreemptDecision σ := rfl
@[simp] theorem exec_thermalThrottle (σ : State) :
    exec .thermalThrottle σ = execThermalThrottle σ := rfl
@[simp] theorem exec_thermalShutdown (σ : State) :
    exec .thermalShutdown σ = execThermalShutdown σ := rfl
@[simp] theorem exec_powerLoss (σ : State) :
    exec .powerLoss σ = execPowerLoss σ := rfl
@[simp] theorem exec_coldReset (σ : State) :
    exec .coldReset σ = execColdReset σ := rfl
@[simp] theorem exec_warmReset (σ : State) :
    exec .warmReset σ = execWarmReset σ := rfl
@[simp] theorem exec_registerQueue (σ : State) :
    exec .registerQueue σ = execRegisterQueue σ := rfl
@[simp] theorem exec_freeQueue (σ : State) :
    exec .freeQueue σ = execFreeQueue σ := rfl
@[simp] theorem exec_resetQueue (σ : State) :
    exec .resetQueue σ = execResetQueue σ := rfl
@[simp] theorem exec_recordReply (σ : State) :
    exec .recordReply σ = execRecordReply σ := rfl
@[simp] theorem exec_createSegment (σ : State) :
    exec .createSegment σ = execCreateSegment σ := rfl
@[simp] theorem exec_attachSegment (σ : State) :
    exec .attachSegment σ = execAttachSegment σ := rfl
@[simp] theorem exec_freeSegment (σ : State) :
    exec .freeSegment σ = execFreeSegment σ := rfl
@[simp] theorem exec_hostAppend (σ : State) :
    exec .hostAppend σ = execHostAppend σ := rfl
@[simp] theorem exec_hostSeal (σ : State) :
    exec .hostSeal σ = execHostSeal σ := rfl
@[simp] theorem exec_createCollective (σ : State) :
    exec .createCollective σ = execCreateCollective σ := rfl
@[simp] theorem exec_registerBlockTable (σ : State) :
    exec .registerBlockTable σ = execRegisterBlockTable σ := rfl
@[simp] theorem exec_unregisterBlockTable (σ : State) :
    exec .unregisterBlockTable σ = execUnregisterBlockTable σ := rfl
@[simp] theorem exec_setStorageTimeout (σ : State) :
    exec .setStorageTimeout σ = execSetStorageTimeout σ := rfl
@[simp] theorem exec_setPromotionPool (σ : State) :
    exec .setPromotionPool σ = execSetPromotionPool σ := rfl
@[simp] theorem exec_killLaunch (σ : State) :
    exec .killLaunch σ = execKillLaunch σ := rfl
@[simp] theorem exec_teardownPasid (σ : State) :
    exec .teardownPasid σ = execTeardownPasid σ := rfl
@[simp] theorem exec_attestationReport (σ : State) :
    exec .attestationReport σ = execAttestationReport σ := rfl
@[simp] theorem exec_openLifetimeSegment (σ : State) :
    exec .openLifetimeSegment σ = execOpenLifetimeSegment σ := rfl
@[simp] theorem exec_registerProcess (σ : State) :
    exec .registerProcess σ = execRegisterProcess σ := rfl
@[simp] theorem exec_listKeptSegments (σ : State) :
    exec .listKeptSegments σ = execListKeptSegments σ := rfl
@[simp] theorem exec_orderlyShutdown (σ : State) :
    exec .orderlyShutdown σ = execOrderlyShutdown σ := rfl

end Sys2Proof.Machine
end

