-- ==== Sys2Proof/Laws/State.lean ====
section
/-! SUPPORT. What each update of the module's records leaves alone: one lemma per field per update. -/
namespace Sys2Proof.Machine

variable (s : State)

@[simp] theorem setCore_clock (c : Nat) (k : Core) : (setCore s c k).clock = s.clock := rfl
@[simp] theorem setCore_mem (c : Nat) (k : Core) : (setCore s c k).mem = s.mem := rfl
@[simp] theorem setCore_poison (c : Nat) (k : Core) : (setCore s c k).poison = s.poison := rfl
@[simp] theorem setCore_poisonFrames (c : Nat) (k : Core) : (setCore s c k).poisonFrames = s.poisonFrames := rfl
@[simp] theorem setCore_retiredFrames (c : Nat) (k : Core) : (setCore s c k).retiredFrames = s.retiredFrames := rfl
@[simp] theorem setCore_promoted (c : Nat) (k : Core) : (setCore s c k).promoted = s.promoted := rfl
@[simp] theorem setCore_segments (c : Nat) (k : Core) : (setCore s c k).segments = s.segments := rfl
@[simp] theorem setCore_procs (c : Nat) (k : Core) : (setCore s c k).procs = s.procs := rfl
@[simp] theorem setCore_queues (c : Nat) (k : Core) : (setCore s c k).queues = s.queues := rfl
@[simp] theorem setCore_launches (c : Nat) (k : Core) : (setCore s c k).launches = s.launches := rfl
@[simp] theorem setCore_clusters (c : Nat) (k : Core) : (setCore s c k).clusters = s.clusters := rfl
@[simp] theorem setCore_teams (c : Nat) (k : Core) : (setCore s c k).teams = s.teams := rfl
@[simp] theorem setCore_groups (c : Nat) (k : Core) : (setCore s c k).groups = s.groups := rfl
@[simp] theorem setCore_saved (c : Nat) (k : Core) : (setCore s c k).saved = s.saved := rfl
@[simp] theorem setCore_stks (c : Nat) (k : Core) : (setCore s c k).stks = s.stks := rfl
@[simp] theorem setCore_collectives (c : Nat) (k : Core) : (setCore s c k).collectives = s.collectives := rfl
@[simp] theorem setCore_placeReqs (c : Nat) (k : Core) : (setCore s c k).placeReqs = s.placeReqs := rfl
@[simp] theorem setCore_offers (c : Nat) (k : Core) : (setCore s c k).offers = s.offers := rfl
@[simp] theorem setCore_blockTables (c : Nat) (k : Core) : (setCore s c k).blockTables = s.blockTables := rfl
@[simp] theorem setCore_notices (c : Nat) (k : Core) : (setCore s c k).notices = s.notices := rfl
@[simp] theorem setCore_hostIn (c : Nat) (k : Core) : (setCore s c k).hostIn = s.hostIn := rfl
@[simp] theorem setCore_hostOut (c : Nat) (k : Core) : (setCore s c k).hostOut = s.hostOut := rfl
@[simp] theorem setCore_hostWait (c : Nat) (k : Core) : (setCore s c k).hostWait = s.hostWait := rfl
@[simp] theorem setCore_msi (c : Nat) (k : Core) : (setCore s c k).msi = s.msi := rfl
@[simp] theorem setCore_drained (c : Nat) (k : Core) : (setCore s c k).drained = s.drained := rfl
@[simp] theorem setCore_filtered (c : Nat) (k : Core) : (setCore s c k).filtered = s.filtered := rfl
@[simp] theorem setCore_mail (c : Nat) (k : Core) : (setCore s c k).mail = s.mail := rfl
@[simp] theorem setCore_hostCache (c : Nat) (k : Core) : (setCore s c k).hostCache = s.hostCache := rfl
@[simp] theorem setCore_arrayLog (c : Nat) (k : Core) : (setCore s c k).arrayLog = s.arrayLog := rfl
@[simp] theorem setCore_busLog (c : Nat) (k : Core) : (setCore s c k).busLog = s.busLog := rfl
@[simp] theorem setCore_hartFaults (c : Nat) (k : Core) : (setCore s c k).hartFaults = s.hartFaults := rfl
@[simp] theorem setCore_hartRes (c : Nat) (k : Core) : (setCore s c k).hartRes = s.hartRes := rfl
@[simp] theorem setCore_iommu (c : Nat) (k : Core) : (setCore s c k).iommu = s.iommu := rfl
@[simp] theorem setCore_pcieUr (c : Nat) (k : Core) : (setCore s c k).pcieUr = s.pcieUr := rfl
@[simp] theorem setCore_storageTimeout (c : Nat) (k : Core) : (setCore s c k).storageTimeout = s.storageTimeout := rfl
@[simp] theorem setCore_gate (c : Nat) (k : Core) : (setCore s c k).gate = s.gate := rfl
@[simp] theorem setCore_powered (c : Nat) (k : Core) : (setCore s c k).powered = s.powered := rfl
@[simp] theorem setCore_boot (c : Nat) (k : Core) : (setCore s c k).boot = s.boot := rfl
@[simp] theorem setCore_bootFailed (c : Nat) (k : Core) : (setCore s c k).bootFailed = s.bootFailed := rfl
@[simp] theorem setCore_measure (c : Nat) (k : Core) : (setCore s c k).measure = s.measure := rfl
@[simp] theorem setCore_portsDown (c : Nat) (k : Core) : (setCore s c k).portsDown = s.portsDown := rfl
@[simp] theorem setCore_peers (c : Nat) (k : Core) : (setCore s c k).peers = s.peers := rfl
@[simp] theorem setCore_cur (c : Nat) (k : Core) : (setCore s c k).cur = s.cur := rfl
@[simp] theorem setCore_curPath (c : Nat) (k : Core) : (setCore s c k).curPath = s.curPath := rfl
@[simp] theorem setCore_ir (c : Nat) (k : Core) : (setCore s c k).ir = s.ir := rfl
@[simp] theorem setCore_drainCore (c : Nat) (k : Core) : (setCore s c k).drainCore = s.drainCore := rfl
@[simp] theorem setCore_agenda (c : Nat) (k : Core) : (setCore s c k).agenda = s.agenda := rfl
@[simp] theorem setCore_fresh (c : Nat) (k : Core) : (setCore s c k).fresh = s.fresh := rfl
@[simp] theorem setCore_draws (c : Nat) (k : Core) : (setCore s c k).draws = s.draws := rfl

@[simp] theorem setStack_clock (k : Nat) (x : Stack) : (setStack s k x).clock = s.clock := rfl
@[simp] theorem setStack_mem (k : Nat) (x : Stack) : (setStack s k x).mem = s.mem := rfl
@[simp] theorem setStack_poison (k : Nat) (x : Stack) : (setStack s k x).poison = s.poison := rfl
@[simp] theorem setStack_poisonFrames (k : Nat) (x : Stack) : (setStack s k x).poisonFrames = s.poisonFrames := rfl
@[simp] theorem setStack_retiredFrames (k : Nat) (x : Stack) : (setStack s k x).retiredFrames = s.retiredFrames := rfl
@[simp] theorem setStack_promoted (k : Nat) (x : Stack) : (setStack s k x).promoted = s.promoted := rfl
@[simp] theorem setStack_segments (k : Nat) (x : Stack) : (setStack s k x).segments = s.segments := rfl
@[simp] theorem setStack_procs (k : Nat) (x : Stack) : (setStack s k x).procs = s.procs := rfl
@[simp] theorem setStack_queues (k : Nat) (x : Stack) : (setStack s k x).queues = s.queues := rfl
@[simp] theorem setStack_launches (k : Nat) (x : Stack) : (setStack s k x).launches = s.launches := rfl
@[simp] theorem setStack_clusters (k : Nat) (x : Stack) : (setStack s k x).clusters = s.clusters := rfl
@[simp] theorem setStack_teams (k : Nat) (x : Stack) : (setStack s k x).teams = s.teams := rfl
@[simp] theorem setStack_groups (k : Nat) (x : Stack) : (setStack s k x).groups = s.groups := rfl
@[simp] theorem setStack_saved (k : Nat) (x : Stack) : (setStack s k x).saved = s.saved := rfl
@[simp] theorem setStack_cores (k : Nat) (x : Stack) : (setStack s k x).cores = s.cores := rfl
@[simp] theorem setStack_collectives (k : Nat) (x : Stack) : (setStack s k x).collectives = s.collectives := rfl
@[simp] theorem setStack_placeReqs (k : Nat) (x : Stack) : (setStack s k x).placeReqs = s.placeReqs := rfl
@[simp] theorem setStack_offers (k : Nat) (x : Stack) : (setStack s k x).offers = s.offers := rfl
@[simp] theorem setStack_blockTables (k : Nat) (x : Stack) : (setStack s k x).blockTables = s.blockTables := rfl
@[simp] theorem setStack_notices (k : Nat) (x : Stack) : (setStack s k x).notices = s.notices := rfl
@[simp] theorem setStack_hostIn (k : Nat) (x : Stack) : (setStack s k x).hostIn = s.hostIn := rfl
@[simp] theorem setStack_hostOut (k : Nat) (x : Stack) : (setStack s k x).hostOut = s.hostOut := rfl
@[simp] theorem setStack_hostWait (k : Nat) (x : Stack) : (setStack s k x).hostWait = s.hostWait := rfl
@[simp] theorem setStack_msi (k : Nat) (x : Stack) : (setStack s k x).msi = s.msi := rfl
@[simp] theorem setStack_drained (k : Nat) (x : Stack) : (setStack s k x).drained = s.drained := rfl
@[simp] theorem setStack_filtered (k : Nat) (x : Stack) : (setStack s k x).filtered = s.filtered := rfl
@[simp] theorem setStack_mail (k : Nat) (x : Stack) : (setStack s k x).mail = s.mail := rfl
@[simp] theorem setStack_hostCache (k : Nat) (x : Stack) : (setStack s k x).hostCache = s.hostCache := rfl
@[simp] theorem setStack_arrayLog (k : Nat) (x : Stack) : (setStack s k x).arrayLog = s.arrayLog := rfl
@[simp] theorem setStack_busLog (k : Nat) (x : Stack) : (setStack s k x).busLog = s.busLog := rfl
@[simp] theorem setStack_hartFaults (k : Nat) (x : Stack) : (setStack s k x).hartFaults = s.hartFaults := rfl
@[simp] theorem setStack_hartRes (k : Nat) (x : Stack) : (setStack s k x).hartRes = s.hartRes := rfl
@[simp] theorem setStack_iommu (k : Nat) (x : Stack) : (setStack s k x).iommu = s.iommu := rfl
@[simp] theorem setStack_pcieUr (k : Nat) (x : Stack) : (setStack s k x).pcieUr = s.pcieUr := rfl
@[simp] theorem setStack_storageTimeout (k : Nat) (x : Stack) : (setStack s k x).storageTimeout = s.storageTimeout := rfl
@[simp] theorem setStack_gate (k : Nat) (x : Stack) : (setStack s k x).gate = s.gate := rfl
@[simp] theorem setStack_powered (k : Nat) (x : Stack) : (setStack s k x).powered = s.powered := rfl
@[simp] theorem setStack_boot (k : Nat) (x : Stack) : (setStack s k x).boot = s.boot := rfl
@[simp] theorem setStack_bootFailed (k : Nat) (x : Stack) : (setStack s k x).bootFailed = s.bootFailed := rfl
@[simp] theorem setStack_measure (k : Nat) (x : Stack) : (setStack s k x).measure = s.measure := rfl
@[simp] theorem setStack_portsDown (k : Nat) (x : Stack) : (setStack s k x).portsDown = s.portsDown := rfl
@[simp] theorem setStack_peers (k : Nat) (x : Stack) : (setStack s k x).peers = s.peers := rfl
@[simp] theorem setStack_cur (k : Nat) (x : Stack) : (setStack s k x).cur = s.cur := rfl
@[simp] theorem setStack_curPath (k : Nat) (x : Stack) : (setStack s k x).curPath = s.curPath := rfl
@[simp] theorem setStack_ir (k : Nat) (x : Stack) : (setStack s k x).ir = s.ir := rfl
@[simp] theorem setStack_drainCore (k : Nat) (x : Stack) : (setStack s k x).drainCore = s.drainCore := rfl
@[simp] theorem setStack_agenda (k : Nat) (x : Stack) : (setStack s k x).agenda = s.agenda := rfl
@[simp] theorem setStack_fresh (k : Nat) (x : Stack) : (setStack s k x).fresh = s.fresh := rfl
@[simp] theorem setStack_draws (k : Nat) (x : Stack) : (setStack s k x).draws = s.draws := rfl

@[simp] theorem setGroup_clock (g : Nat) (x : Group) : (setGroup s g x).clock = s.clock := rfl
@[simp] theorem setGroup_mem (g : Nat) (x : Group) : (setGroup s g x).mem = s.mem := rfl
@[simp] theorem setGroup_poison (g : Nat) (x : Group) : (setGroup s g x).poison = s.poison := rfl
@[simp] theorem setGroup_poisonFrames (g : Nat) (x : Group) : (setGroup s g x).poisonFrames = s.poisonFrames := rfl
@[simp] theorem setGroup_retiredFrames (g : Nat) (x : Group) : (setGroup s g x).retiredFrames = s.retiredFrames := rfl
@[simp] theorem setGroup_promoted (g : Nat) (x : Group) : (setGroup s g x).promoted = s.promoted := rfl
@[simp] theorem setGroup_segments (g : Nat) (x : Group) : (setGroup s g x).segments = s.segments := rfl
@[simp] theorem setGroup_procs (g : Nat) (x : Group) : (setGroup s g x).procs = s.procs := rfl
@[simp] theorem setGroup_queues (g : Nat) (x : Group) : (setGroup s g x).queues = s.queues := rfl
@[simp] theorem setGroup_launches (g : Nat) (x : Group) : (setGroup s g x).launches = s.launches := rfl
@[simp] theorem setGroup_clusters (g : Nat) (x : Group) : (setGroup s g x).clusters = s.clusters := rfl
@[simp] theorem setGroup_teams (g : Nat) (x : Group) : (setGroup s g x).teams = s.teams := rfl
@[simp] theorem setGroup_saved (g : Nat) (x : Group) : (setGroup s g x).saved = s.saved := rfl
@[simp] theorem setGroup_cores (g : Nat) (x : Group) : (setGroup s g x).cores = s.cores := rfl
@[simp] theorem setGroup_stks (g : Nat) (x : Group) : (setGroup s g x).stks = s.stks := rfl
@[simp] theorem setGroup_collectives (g : Nat) (x : Group) : (setGroup s g x).collectives = s.collectives := rfl
@[simp] theorem setGroup_placeReqs (g : Nat) (x : Group) : (setGroup s g x).placeReqs = s.placeReqs := rfl
@[simp] theorem setGroup_offers (g : Nat) (x : Group) : (setGroup s g x).offers = s.offers := rfl
@[simp] theorem setGroup_blockTables (g : Nat) (x : Group) : (setGroup s g x).blockTables = s.blockTables := rfl
@[simp] theorem setGroup_notices (g : Nat) (x : Group) : (setGroup s g x).notices = s.notices := rfl
@[simp] theorem setGroup_hostIn (g : Nat) (x : Group) : (setGroup s g x).hostIn = s.hostIn := rfl
@[simp] theorem setGroup_hostOut (g : Nat) (x : Group) : (setGroup s g x).hostOut = s.hostOut := rfl
@[simp] theorem setGroup_hostWait (g : Nat) (x : Group) : (setGroup s g x).hostWait = s.hostWait := rfl
@[simp] theorem setGroup_msi (g : Nat) (x : Group) : (setGroup s g x).msi = s.msi := rfl
@[simp] theorem setGroup_drained (g : Nat) (x : Group) : (setGroup s g x).drained = s.drained := rfl
@[simp] theorem setGroup_filtered (g : Nat) (x : Group) : (setGroup s g x).filtered = s.filtered := rfl
@[simp] theorem setGroup_mail (g : Nat) (x : Group) : (setGroup s g x).mail = s.mail := rfl
@[simp] theorem setGroup_hostCache (g : Nat) (x : Group) : (setGroup s g x).hostCache = s.hostCache := rfl
@[simp] theorem setGroup_arrayLog (g : Nat) (x : Group) : (setGroup s g x).arrayLog = s.arrayLog := rfl
@[simp] theorem setGroup_busLog (g : Nat) (x : Group) : (setGroup s g x).busLog = s.busLog := rfl
@[simp] theorem setGroup_hartFaults (g : Nat) (x : Group) : (setGroup s g x).hartFaults = s.hartFaults := rfl
@[simp] theorem setGroup_hartRes (g : Nat) (x : Group) : (setGroup s g x).hartRes = s.hartRes := rfl
@[simp] theorem setGroup_iommu (g : Nat) (x : Group) : (setGroup s g x).iommu = s.iommu := rfl
@[simp] theorem setGroup_pcieUr (g : Nat) (x : Group) : (setGroup s g x).pcieUr = s.pcieUr := rfl
@[simp] theorem setGroup_storageTimeout (g : Nat) (x : Group) : (setGroup s g x).storageTimeout = s.storageTimeout := rfl
@[simp] theorem setGroup_gate (g : Nat) (x : Group) : (setGroup s g x).gate = s.gate := rfl
@[simp] theorem setGroup_powered (g : Nat) (x : Group) : (setGroup s g x).powered = s.powered := rfl
@[simp] theorem setGroup_boot (g : Nat) (x : Group) : (setGroup s g x).boot = s.boot := rfl
@[simp] theorem setGroup_bootFailed (g : Nat) (x : Group) : (setGroup s g x).bootFailed = s.bootFailed := rfl
@[simp] theorem setGroup_measure (g : Nat) (x : Group) : (setGroup s g x).measure = s.measure := rfl
@[simp] theorem setGroup_portsDown (g : Nat) (x : Group) : (setGroup s g x).portsDown = s.portsDown := rfl
@[simp] theorem setGroup_peers (g : Nat) (x : Group) : (setGroup s g x).peers = s.peers := rfl
@[simp] theorem setGroup_cur (g : Nat) (x : Group) : (setGroup s g x).cur = s.cur := rfl
@[simp] theorem setGroup_curPath (g : Nat) (x : Group) : (setGroup s g x).curPath = s.curPath := rfl
@[simp] theorem setGroup_ir (g : Nat) (x : Group) : (setGroup s g x).ir = s.ir := rfl
@[simp] theorem setGroup_drainCore (g : Nat) (x : Group) : (setGroup s g x).drainCore = s.drainCore := rfl
@[simp] theorem setGroup_agenda (g : Nat) (x : Group) : (setGroup s g x).agenda = s.agenda := rfl
@[simp] theorem setGroup_fresh (g : Nat) (x : Group) : (setGroup s g x).fresh = s.fresh := rfl
@[simp] theorem setGroup_draws (g : Nat) (x : Group) : (setGroup s g x).draws = s.draws := rfl

@[simp] theorem modGroup_clock (g : Nat) (f : Group → Group) : (modGroup s g f).clock = s.clock := rfl
@[simp] theorem modGroup_mem (g : Nat) (f : Group → Group) : (modGroup s g f).mem = s.mem := rfl
@[simp] theorem modGroup_poison (g : Nat) (f : Group → Group) : (modGroup s g f).poison = s.poison := rfl
@[simp] theorem modGroup_poisonFrames (g : Nat) (f : Group → Group) : (modGroup s g f).poisonFrames = s.poisonFrames := rfl
@[simp] theorem modGroup_retiredFrames (g : Nat) (f : Group → Group) : (modGroup s g f).retiredFrames = s.retiredFrames := rfl
@[simp] theorem modGroup_promoted (g : Nat) (f : Group → Group) : (modGroup s g f).promoted = s.promoted := rfl
@[simp] theorem modGroup_segments (g : Nat) (f : Group → Group) : (modGroup s g f).segments = s.segments := rfl
@[simp] theorem modGroup_procs (g : Nat) (f : Group → Group) : (modGroup s g f).procs = s.procs := rfl
@[simp] theorem modGroup_queues (g : Nat) (f : Group → Group) : (modGroup s g f).queues = s.queues := rfl
@[simp] theorem modGroup_launches (g : Nat) (f : Group → Group) : (modGroup s g f).launches = s.launches := rfl
@[simp] theorem modGroup_clusters (g : Nat) (f : Group → Group) : (modGroup s g f).clusters = s.clusters := rfl
@[simp] theorem modGroup_teams (g : Nat) (f : Group → Group) : (modGroup s g f).teams = s.teams := rfl
@[simp] theorem modGroup_saved (g : Nat) (f : Group → Group) : (modGroup s g f).saved = s.saved := rfl
@[simp] theorem modGroup_cores (g : Nat) (f : Group → Group) : (modGroup s g f).cores = s.cores := rfl
@[simp] theorem modGroup_stks (g : Nat) (f : Group → Group) : (modGroup s g f).stks = s.stks := rfl
@[simp] theorem modGroup_collectives (g : Nat) (f : Group → Group) : (modGroup s g f).collectives = s.collectives := rfl
@[simp] theorem modGroup_placeReqs (g : Nat) (f : Group → Group) : (modGroup s g f).placeReqs = s.placeReqs := rfl
@[simp] theorem modGroup_offers (g : Nat) (f : Group → Group) : (modGroup s g f).offers = s.offers := rfl
@[simp] theorem modGroup_blockTables (g : Nat) (f : Group → Group) : (modGroup s g f).blockTables = s.blockTables := rfl
@[simp] theorem modGroup_notices (g : Nat) (f : Group → Group) : (modGroup s g f).notices = s.notices := rfl
@[simp] theorem modGroup_hostIn (g : Nat) (f : Group → Group) : (modGroup s g f).hostIn = s.hostIn := rfl
@[simp] theorem modGroup_hostOut (g : Nat) (f : Group → Group) : (modGroup s g f).hostOut = s.hostOut := rfl
@[simp] theorem modGroup_hostWait (g : Nat) (f : Group → Group) : (modGroup s g f).hostWait = s.hostWait := rfl
@[simp] theorem modGroup_msi (g : Nat) (f : Group → Group) : (modGroup s g f).msi = s.msi := rfl
@[simp] theorem modGroup_drained (g : Nat) (f : Group → Group) : (modGroup s g f).drained = s.drained := rfl
@[simp] theorem modGroup_filtered (g : Nat) (f : Group → Group) : (modGroup s g f).filtered = s.filtered := rfl
@[simp] theorem modGroup_mail (g : Nat) (f : Group → Group) : (modGroup s g f).mail = s.mail := rfl
@[simp] theorem modGroup_hostCache (g : Nat) (f : Group → Group) : (modGroup s g f).hostCache = s.hostCache := rfl
@[simp] theorem modGroup_arrayLog (g : Nat) (f : Group → Group) : (modGroup s g f).arrayLog = s.arrayLog := rfl
@[simp] theorem modGroup_busLog (g : Nat) (f : Group → Group) : (modGroup s g f).busLog = s.busLog := rfl
@[simp] theorem modGroup_hartFaults (g : Nat) (f : Group → Group) : (modGroup s g f).hartFaults = s.hartFaults := rfl
@[simp] theorem modGroup_hartRes (g : Nat) (f : Group → Group) : (modGroup s g f).hartRes = s.hartRes := rfl
@[simp] theorem modGroup_iommu (g : Nat) (f : Group → Group) : (modGroup s g f).iommu = s.iommu := rfl
@[simp] theorem modGroup_pcieUr (g : Nat) (f : Group → Group) : (modGroup s g f).pcieUr = s.pcieUr := rfl
@[simp] theorem modGroup_storageTimeout (g : Nat) (f : Group → Group) : (modGroup s g f).storageTimeout = s.storageTimeout := rfl
@[simp] theorem modGroup_gate (g : Nat) (f : Group → Group) : (modGroup s g f).gate = s.gate := rfl
@[simp] theorem modGroup_powered (g : Nat) (f : Group → Group) : (modGroup s g f).powered = s.powered := rfl
@[simp] theorem modGroup_boot (g : Nat) (f : Group → Group) : (modGroup s g f).boot = s.boot := rfl
@[simp] theorem modGroup_bootFailed (g : Nat) (f : Group → Group) : (modGroup s g f).bootFailed = s.bootFailed := rfl
@[simp] theorem modGroup_measure (g : Nat) (f : Group → Group) : (modGroup s g f).measure = s.measure := rfl
@[simp] theorem modGroup_portsDown (g : Nat) (f : Group → Group) : (modGroup s g f).portsDown = s.portsDown := rfl
@[simp] theorem modGroup_peers (g : Nat) (f : Group → Group) : (modGroup s g f).peers = s.peers := rfl
@[simp] theorem modGroup_cur (g : Nat) (f : Group → Group) : (modGroup s g f).cur = s.cur := rfl
@[simp] theorem modGroup_curPath (g : Nat) (f : Group → Group) : (modGroup s g f).curPath = s.curPath := rfl
@[simp] theorem modGroup_ir (g : Nat) (f : Group → Group) : (modGroup s g f).ir = s.ir := rfl
@[simp] theorem modGroup_drainCore (g : Nat) (f : Group → Group) : (modGroup s g f).drainCore = s.drainCore := rfl
@[simp] theorem modGroup_agenda (g : Nat) (f : Group → Group) : (modGroup s g f).agenda = s.agenda := rfl
@[simp] theorem modGroup_fresh (g : Nat) (f : Group → Group) : (modGroup s g f).fresh = s.fresh := rfl
@[simp] theorem modGroup_draws (g : Nat) (f : Group → Group) : (modGroup s g f).draws = s.draws := rfl

@[simp] theorem modCore_clock (c : Nat) (f : Core → Core) : (modCore s c f).clock = s.clock := rfl
@[simp] theorem modCore_mem (c : Nat) (f : Core → Core) : (modCore s c f).mem = s.mem := rfl
@[simp] theorem modCore_poison (c : Nat) (f : Core → Core) : (modCore s c f).poison = s.poison := rfl
@[simp] theorem modCore_poisonFrames (c : Nat) (f : Core → Core) : (modCore s c f).poisonFrames = s.poisonFrames := rfl
@[simp] theorem modCore_retiredFrames (c : Nat) (f : Core → Core) : (modCore s c f).retiredFrames = s.retiredFrames := rfl
@[simp] theorem modCore_promoted (c : Nat) (f : Core → Core) : (modCore s c f).promoted = s.promoted := rfl
@[simp] theorem modCore_segments (c : Nat) (f : Core → Core) : (modCore s c f).segments = s.segments := rfl
@[simp] theorem modCore_procs (c : Nat) (f : Core → Core) : (modCore s c f).procs = s.procs := rfl
@[simp] theorem modCore_queues (c : Nat) (f : Core → Core) : (modCore s c f).queues = s.queues := rfl
@[simp] theorem modCore_launches (c : Nat) (f : Core → Core) : (modCore s c f).launches = s.launches := rfl
@[simp] theorem modCore_clusters (c : Nat) (f : Core → Core) : (modCore s c f).clusters = s.clusters := rfl
@[simp] theorem modCore_teams (c : Nat) (f : Core → Core) : (modCore s c f).teams = s.teams := rfl
@[simp] theorem modCore_groups (c : Nat) (f : Core → Core) : (modCore s c f).groups = s.groups := rfl
@[simp] theorem modCore_saved (c : Nat) (f : Core → Core) : (modCore s c f).saved = s.saved := rfl
@[simp] theorem modCore_stks (c : Nat) (f : Core → Core) : (modCore s c f).stks = s.stks := rfl
@[simp] theorem modCore_collectives (c : Nat) (f : Core → Core) : (modCore s c f).collectives = s.collectives := rfl
@[simp] theorem modCore_placeReqs (c : Nat) (f : Core → Core) : (modCore s c f).placeReqs = s.placeReqs := rfl
@[simp] theorem modCore_offers (c : Nat) (f : Core → Core) : (modCore s c f).offers = s.offers := rfl
@[simp] theorem modCore_blockTables (c : Nat) (f : Core → Core) : (modCore s c f).blockTables = s.blockTables := rfl
@[simp] theorem modCore_notices (c : Nat) (f : Core → Core) : (modCore s c f).notices = s.notices := rfl
@[simp] theorem modCore_hostIn (c : Nat) (f : Core → Core) : (modCore s c f).hostIn = s.hostIn := rfl
@[simp] theorem modCore_hostOut (c : Nat) (f : Core → Core) : (modCore s c f).hostOut = s.hostOut := rfl
@[simp] theorem modCore_hostWait (c : Nat) (f : Core → Core) : (modCore s c f).hostWait = s.hostWait := rfl
@[simp] theorem modCore_msi (c : Nat) (f : Core → Core) : (modCore s c f).msi = s.msi := rfl
@[simp] theorem modCore_drained (c : Nat) (f : Core → Core) : (modCore s c f).drained = s.drained := rfl
@[simp] theorem modCore_filtered (c : Nat) (f : Core → Core) : (modCore s c f).filtered = s.filtered := rfl
@[simp] theorem modCore_mail (c : Nat) (f : Core → Core) : (modCore s c f).mail = s.mail := rfl
@[simp] theorem modCore_hostCache (c : Nat) (f : Core → Core) : (modCore s c f).hostCache = s.hostCache := rfl
@[simp] theorem modCore_arrayLog (c : Nat) (f : Core → Core) : (modCore s c f).arrayLog = s.arrayLog := rfl
@[simp] theorem modCore_busLog (c : Nat) (f : Core → Core) : (modCore s c f).busLog = s.busLog := rfl
@[simp] theorem modCore_hartFaults (c : Nat) (f : Core → Core) : (modCore s c f).hartFaults = s.hartFaults := rfl
@[simp] theorem modCore_hartRes (c : Nat) (f : Core → Core) : (modCore s c f).hartRes = s.hartRes := rfl
@[simp] theorem modCore_iommu (c : Nat) (f : Core → Core) : (modCore s c f).iommu = s.iommu := rfl
@[simp] theorem modCore_pcieUr (c : Nat) (f : Core → Core) : (modCore s c f).pcieUr = s.pcieUr := rfl
@[simp] theorem modCore_storageTimeout (c : Nat) (f : Core → Core) : (modCore s c f).storageTimeout = s.storageTimeout := rfl
@[simp] theorem modCore_gate (c : Nat) (f : Core → Core) : (modCore s c f).gate = s.gate := rfl
@[simp] theorem modCore_powered (c : Nat) (f : Core → Core) : (modCore s c f).powered = s.powered := rfl
@[simp] theorem modCore_boot (c : Nat) (f : Core → Core) : (modCore s c f).boot = s.boot := rfl
@[simp] theorem modCore_bootFailed (c : Nat) (f : Core → Core) : (modCore s c f).bootFailed = s.bootFailed := rfl
@[simp] theorem modCore_measure (c : Nat) (f : Core → Core) : (modCore s c f).measure = s.measure := rfl
@[simp] theorem modCore_portsDown (c : Nat) (f : Core → Core) : (modCore s c f).portsDown = s.portsDown := rfl
@[simp] theorem modCore_peers (c : Nat) (f : Core → Core) : (modCore s c f).peers = s.peers := rfl
@[simp] theorem modCore_cur (c : Nat) (f : Core → Core) : (modCore s c f).cur = s.cur := rfl
@[simp] theorem modCore_curPath (c : Nat) (f : Core → Core) : (modCore s c f).curPath = s.curPath := rfl
@[simp] theorem modCore_ir (c : Nat) (f : Core → Core) : (modCore s c f).ir = s.ir := rfl
@[simp] theorem modCore_drainCore (c : Nat) (f : Core → Core) : (modCore s c f).drainCore = s.drainCore := rfl
@[simp] theorem modCore_agenda (c : Nat) (f : Core → Core) : (modCore s c f).agenda = s.agenda := rfl
@[simp] theorem modCore_fresh (c : Nat) (f : Core → Core) : (modCore s c f).fresh = s.fresh := rfl
@[simp] theorem modCore_draws (c : Nat) (f : Core → Core) : (modCore s c f).draws = s.draws := rfl

@[simp] theorem modStack_clock (k : Nat) (f : Stack → Stack) : (modStack s k f).clock = s.clock := rfl
@[simp] theorem modStack_mem (k : Nat) (f : Stack → Stack) : (modStack s k f).mem = s.mem := rfl
@[simp] theorem modStack_poison (k : Nat) (f : Stack → Stack) : (modStack s k f).poison = s.poison := rfl
@[simp] theorem modStack_poisonFrames (k : Nat) (f : Stack → Stack) : (modStack s k f).poisonFrames = s.poisonFrames := rfl
@[simp] theorem modStack_retiredFrames (k : Nat) (f : Stack → Stack) : (modStack s k f).retiredFrames = s.retiredFrames := rfl
@[simp] theorem modStack_promoted (k : Nat) (f : Stack → Stack) : (modStack s k f).promoted = s.promoted := rfl
@[simp] theorem modStack_segments (k : Nat) (f : Stack → Stack) : (modStack s k f).segments = s.segments := rfl
@[simp] theorem modStack_procs (k : Nat) (f : Stack → Stack) : (modStack s k f).procs = s.procs := rfl
@[simp] theorem modStack_queues (k : Nat) (f : Stack → Stack) : (modStack s k f).queues = s.queues := rfl
@[simp] theorem modStack_launches (k : Nat) (f : Stack → Stack) : (modStack s k f).launches = s.launches := rfl
@[simp] theorem modStack_clusters (k : Nat) (f : Stack → Stack) : (modStack s k f).clusters = s.clusters := rfl
@[simp] theorem modStack_teams (k : Nat) (f : Stack → Stack) : (modStack s k f).teams = s.teams := rfl
@[simp] theorem modStack_groups (k : Nat) (f : Stack → Stack) : (modStack s k f).groups = s.groups := rfl
@[simp] theorem modStack_saved (k : Nat) (f : Stack → Stack) : (modStack s k f).saved = s.saved := rfl
@[simp] theorem modStack_cores (k : Nat) (f : Stack → Stack) : (modStack s k f).cores = s.cores := rfl
@[simp] theorem modStack_collectives (k : Nat) (f : Stack → Stack) : (modStack s k f).collectives = s.collectives := rfl
@[simp] theorem modStack_placeReqs (k : Nat) (f : Stack → Stack) : (modStack s k f).placeReqs = s.placeReqs := rfl
@[simp] theorem modStack_offers (k : Nat) (f : Stack → Stack) : (modStack s k f).offers = s.offers := rfl
@[simp] theorem modStack_blockTables (k : Nat) (f : Stack → Stack) : (modStack s k f).blockTables = s.blockTables := rfl
@[simp] theorem modStack_notices (k : Nat) (f : Stack → Stack) : (modStack s k f).notices = s.notices := rfl
@[simp] theorem modStack_hostIn (k : Nat) (f : Stack → Stack) : (modStack s k f).hostIn = s.hostIn := rfl
@[simp] theorem modStack_hostOut (k : Nat) (f : Stack → Stack) : (modStack s k f).hostOut = s.hostOut := rfl
@[simp] theorem modStack_hostWait (k : Nat) (f : Stack → Stack) : (modStack s k f).hostWait = s.hostWait := rfl
@[simp] theorem modStack_msi (k : Nat) (f : Stack → Stack) : (modStack s k f).msi = s.msi := rfl
@[simp] theorem modStack_drained (k : Nat) (f : Stack → Stack) : (modStack s k f).drained = s.drained := rfl
@[simp] theorem modStack_filtered (k : Nat) (f : Stack → Stack) : (modStack s k f).filtered = s.filtered := rfl
@[simp] theorem modStack_mail (k : Nat) (f : Stack → Stack) : (modStack s k f).mail = s.mail := rfl
@[simp] theorem modStack_hostCache (k : Nat) (f : Stack → Stack) : (modStack s k f).hostCache = s.hostCache := rfl
@[simp] theorem modStack_arrayLog (k : Nat) (f : Stack → Stack) : (modStack s k f).arrayLog = s.arrayLog := rfl
@[simp] theorem modStack_busLog (k : Nat) (f : Stack → Stack) : (modStack s k f).busLog = s.busLog := rfl
@[simp] theorem modStack_hartFaults (k : Nat) (f : Stack → Stack) : (modStack s k f).hartFaults = s.hartFaults := rfl
@[simp] theorem modStack_hartRes (k : Nat) (f : Stack → Stack) : (modStack s k f).hartRes = s.hartRes := rfl
@[simp] theorem modStack_iommu (k : Nat) (f : Stack → Stack) : (modStack s k f).iommu = s.iommu := rfl
@[simp] theorem modStack_pcieUr (k : Nat) (f : Stack → Stack) : (modStack s k f).pcieUr = s.pcieUr := rfl
@[simp] theorem modStack_storageTimeout (k : Nat) (f : Stack → Stack) : (modStack s k f).storageTimeout = s.storageTimeout := rfl
@[simp] theorem modStack_gate (k : Nat) (f : Stack → Stack) : (modStack s k f).gate = s.gate := rfl
@[simp] theorem modStack_powered (k : Nat) (f : Stack → Stack) : (modStack s k f).powered = s.powered := rfl
@[simp] theorem modStack_boot (k : Nat) (f : Stack → Stack) : (modStack s k f).boot = s.boot := rfl
@[simp] theorem modStack_bootFailed (k : Nat) (f : Stack → Stack) : (modStack s k f).bootFailed = s.bootFailed := rfl
@[simp] theorem modStack_measure (k : Nat) (f : Stack → Stack) : (modStack s k f).measure = s.measure := rfl
@[simp] theorem modStack_portsDown (k : Nat) (f : Stack → Stack) : (modStack s k f).portsDown = s.portsDown := rfl
@[simp] theorem modStack_peers (k : Nat) (f : Stack → Stack) : (modStack s k f).peers = s.peers := rfl
@[simp] theorem modStack_cur (k : Nat) (f : Stack → Stack) : (modStack s k f).cur = s.cur := rfl
@[simp] theorem modStack_curPath (k : Nat) (f : Stack → Stack) : (modStack s k f).curPath = s.curPath := rfl
@[simp] theorem modStack_ir (k : Nat) (f : Stack → Stack) : (modStack s k f).ir = s.ir := rfl
@[simp] theorem modStack_drainCore (k : Nat) (f : Stack → Stack) : (modStack s k f).drainCore = s.drainCore := rfl
@[simp] theorem modStack_agenda (k : Nat) (f : Stack → Stack) : (modStack s k f).agenda = s.agenda := rfl
@[simp] theorem modStack_fresh (k : Nat) (f : Stack → Stack) : (modStack s k f).fresh = s.fresh := rfl
@[simp] theorem modStack_draws (k : Nat) (f : Stack → Stack) : (modStack s k f).draws = s.draws := rfl

@[simp] theorem modTeam_clock (t : Nat) (f : Team → Team) : (modTeam s t f).clock = s.clock := rfl
@[simp] theorem modTeam_mem (t : Nat) (f : Team → Team) : (modTeam s t f).mem = s.mem := rfl
@[simp] theorem modTeam_poison (t : Nat) (f : Team → Team) : (modTeam s t f).poison = s.poison := rfl
@[simp] theorem modTeam_poisonFrames (t : Nat) (f : Team → Team) : (modTeam s t f).poisonFrames = s.poisonFrames := rfl
@[simp] theorem modTeam_retiredFrames (t : Nat) (f : Team → Team) : (modTeam s t f).retiredFrames = s.retiredFrames := rfl
@[simp] theorem modTeam_promoted (t : Nat) (f : Team → Team) : (modTeam s t f).promoted = s.promoted := rfl
@[simp] theorem modTeam_segments (t : Nat) (f : Team → Team) : (modTeam s t f).segments = s.segments := rfl
@[simp] theorem modTeam_procs (t : Nat) (f : Team → Team) : (modTeam s t f).procs = s.procs := rfl
@[simp] theorem modTeam_queues (t : Nat) (f : Team → Team) : (modTeam s t f).queues = s.queues := rfl
@[simp] theorem modTeam_launches (t : Nat) (f : Team → Team) : (modTeam s t f).launches = s.launches := rfl
@[simp] theorem modTeam_clusters (t : Nat) (f : Team → Team) : (modTeam s t f).clusters = s.clusters := rfl
@[simp] theorem modTeam_groups (t : Nat) (f : Team → Team) : (modTeam s t f).groups = s.groups := rfl
@[simp] theorem modTeam_saved (t : Nat) (f : Team → Team) : (modTeam s t f).saved = s.saved := rfl
@[simp] theorem modTeam_cores (t : Nat) (f : Team → Team) : (modTeam s t f).cores = s.cores := rfl
@[simp] theorem modTeam_stks (t : Nat) (f : Team → Team) : (modTeam s t f).stks = s.stks := rfl
@[simp] theorem modTeam_collectives (t : Nat) (f : Team → Team) : (modTeam s t f).collectives = s.collectives := rfl
@[simp] theorem modTeam_placeReqs (t : Nat) (f : Team → Team) : (modTeam s t f).placeReqs = s.placeReqs := rfl
@[simp] theorem modTeam_offers (t : Nat) (f : Team → Team) : (modTeam s t f).offers = s.offers := rfl
@[simp] theorem modTeam_blockTables (t : Nat) (f : Team → Team) : (modTeam s t f).blockTables = s.blockTables := rfl
@[simp] theorem modTeam_notices (t : Nat) (f : Team → Team) : (modTeam s t f).notices = s.notices := rfl
@[simp] theorem modTeam_hostIn (t : Nat) (f : Team → Team) : (modTeam s t f).hostIn = s.hostIn := rfl
@[simp] theorem modTeam_hostOut (t : Nat) (f : Team → Team) : (modTeam s t f).hostOut = s.hostOut := rfl
@[simp] theorem modTeam_hostWait (t : Nat) (f : Team → Team) : (modTeam s t f).hostWait = s.hostWait := rfl
@[simp] theorem modTeam_msi (t : Nat) (f : Team → Team) : (modTeam s t f).msi = s.msi := rfl
@[simp] theorem modTeam_drained (t : Nat) (f : Team → Team) : (modTeam s t f).drained = s.drained := rfl
@[simp] theorem modTeam_filtered (t : Nat) (f : Team → Team) : (modTeam s t f).filtered = s.filtered := rfl
@[simp] theorem modTeam_mail (t : Nat) (f : Team → Team) : (modTeam s t f).mail = s.mail := rfl
@[simp] theorem modTeam_hostCache (t : Nat) (f : Team → Team) : (modTeam s t f).hostCache = s.hostCache := rfl
@[simp] theorem modTeam_arrayLog (t : Nat) (f : Team → Team) : (modTeam s t f).arrayLog = s.arrayLog := rfl
@[simp] theorem modTeam_busLog (t : Nat) (f : Team → Team) : (modTeam s t f).busLog = s.busLog := rfl
@[simp] theorem modTeam_hartFaults (t : Nat) (f : Team → Team) : (modTeam s t f).hartFaults = s.hartFaults := rfl
@[simp] theorem modTeam_hartRes (t : Nat) (f : Team → Team) : (modTeam s t f).hartRes = s.hartRes := rfl
@[simp] theorem modTeam_iommu (t : Nat) (f : Team → Team) : (modTeam s t f).iommu = s.iommu := rfl
@[simp] theorem modTeam_pcieUr (t : Nat) (f : Team → Team) : (modTeam s t f).pcieUr = s.pcieUr := rfl
@[simp] theorem modTeam_storageTimeout (t : Nat) (f : Team → Team) : (modTeam s t f).storageTimeout = s.storageTimeout := rfl
@[simp] theorem modTeam_gate (t : Nat) (f : Team → Team) : (modTeam s t f).gate = s.gate := rfl
@[simp] theorem modTeam_powered (t : Nat) (f : Team → Team) : (modTeam s t f).powered = s.powered := rfl
@[simp] theorem modTeam_boot (t : Nat) (f : Team → Team) : (modTeam s t f).boot = s.boot := rfl
@[simp] theorem modTeam_bootFailed (t : Nat) (f : Team → Team) : (modTeam s t f).bootFailed = s.bootFailed := rfl
@[simp] theorem modTeam_measure (t : Nat) (f : Team → Team) : (modTeam s t f).measure = s.measure := rfl
@[simp] theorem modTeam_portsDown (t : Nat) (f : Team → Team) : (modTeam s t f).portsDown = s.portsDown := rfl
@[simp] theorem modTeam_peers (t : Nat) (f : Team → Team) : (modTeam s t f).peers = s.peers := rfl
@[simp] theorem modTeam_cur (t : Nat) (f : Team → Team) : (modTeam s t f).cur = s.cur := rfl
@[simp] theorem modTeam_curPath (t : Nat) (f : Team → Team) : (modTeam s t f).curPath = s.curPath := rfl
@[simp] theorem modTeam_ir (t : Nat) (f : Team → Team) : (modTeam s t f).ir = s.ir := rfl
@[simp] theorem modTeam_drainCore (t : Nat) (f : Team → Team) : (modTeam s t f).drainCore = s.drainCore := rfl
@[simp] theorem modTeam_agenda (t : Nat) (f : Team → Team) : (modTeam s t f).agenda = s.agenda := rfl
@[simp] theorem modTeam_fresh (t : Nat) (f : Team → Team) : (modTeam s t f).fresh = s.fresh := rfl
@[simp] theorem modTeam_draws (t : Nat) (f : Team → Team) : (modTeam s t f).draws = s.draws := rfl

@[simp] theorem modLaunch_clock (l : Nat) (f : Launch → Launch) : (modLaunch s l f).clock = s.clock := rfl
@[simp] theorem modLaunch_mem (l : Nat) (f : Launch → Launch) : (modLaunch s l f).mem = s.mem := rfl
@[simp] theorem modLaunch_poison (l : Nat) (f : Launch → Launch) : (modLaunch s l f).poison = s.poison := rfl
@[simp] theorem modLaunch_poisonFrames (l : Nat) (f : Launch → Launch) : (modLaunch s l f).poisonFrames = s.poisonFrames := rfl
@[simp] theorem modLaunch_retiredFrames (l : Nat) (f : Launch → Launch) : (modLaunch s l f).retiredFrames = s.retiredFrames := rfl
@[simp] theorem modLaunch_promoted (l : Nat) (f : Launch → Launch) : (modLaunch s l f).promoted = s.promoted := rfl
@[simp] theorem modLaunch_segments (l : Nat) (f : Launch → Launch) : (modLaunch s l f).segments = s.segments := rfl
@[simp] theorem modLaunch_procs (l : Nat) (f : Launch → Launch) : (modLaunch s l f).procs = s.procs := rfl
@[simp] theorem modLaunch_queues (l : Nat) (f : Launch → Launch) : (modLaunch s l f).queues = s.queues := rfl
@[simp] theorem modLaunch_clusters (l : Nat) (f : Launch → Launch) : (modLaunch s l f).clusters = s.clusters := rfl
@[simp] theorem modLaunch_teams (l : Nat) (f : Launch → Launch) : (modLaunch s l f).teams = s.teams := rfl
@[simp] theorem modLaunch_groups (l : Nat) (f : Launch → Launch) : (modLaunch s l f).groups = s.groups := rfl
@[simp] theorem modLaunch_saved (l : Nat) (f : Launch → Launch) : (modLaunch s l f).saved = s.saved := rfl
@[simp] theorem modLaunch_cores (l : Nat) (f : Launch → Launch) : (modLaunch s l f).cores = s.cores := rfl
@[simp] theorem modLaunch_stks (l : Nat) (f : Launch → Launch) : (modLaunch s l f).stks = s.stks := rfl
@[simp] theorem modLaunch_collectives (l : Nat) (f : Launch → Launch) : (modLaunch s l f).collectives = s.collectives := rfl
@[simp] theorem modLaunch_placeReqs (l : Nat) (f : Launch → Launch) : (modLaunch s l f).placeReqs = s.placeReqs := rfl
@[simp] theorem modLaunch_offers (l : Nat) (f : Launch → Launch) : (modLaunch s l f).offers = s.offers := rfl
@[simp] theorem modLaunch_blockTables (l : Nat) (f : Launch → Launch) : (modLaunch s l f).blockTables = s.blockTables := rfl
@[simp] theorem modLaunch_notices (l : Nat) (f : Launch → Launch) : (modLaunch s l f).notices = s.notices := rfl
@[simp] theorem modLaunch_hostIn (l : Nat) (f : Launch → Launch) : (modLaunch s l f).hostIn = s.hostIn := rfl
@[simp] theorem modLaunch_hostOut (l : Nat) (f : Launch → Launch) : (modLaunch s l f).hostOut = s.hostOut := rfl
@[simp] theorem modLaunch_hostWait (l : Nat) (f : Launch → Launch) : (modLaunch s l f).hostWait = s.hostWait := rfl
@[simp] theorem modLaunch_msi (l : Nat) (f : Launch → Launch) : (modLaunch s l f).msi = s.msi := rfl
@[simp] theorem modLaunch_drained (l : Nat) (f : Launch → Launch) : (modLaunch s l f).drained = s.drained := rfl
@[simp] theorem modLaunch_filtered (l : Nat) (f : Launch → Launch) : (modLaunch s l f).filtered = s.filtered := rfl
@[simp] theorem modLaunch_mail (l : Nat) (f : Launch → Launch) : (modLaunch s l f).mail = s.mail := rfl
@[simp] theorem modLaunch_hostCache (l : Nat) (f : Launch → Launch) : (modLaunch s l f).hostCache = s.hostCache := rfl
@[simp] theorem modLaunch_arrayLog (l : Nat) (f : Launch → Launch) : (modLaunch s l f).arrayLog = s.arrayLog := rfl
@[simp] theorem modLaunch_busLog (l : Nat) (f : Launch → Launch) : (modLaunch s l f).busLog = s.busLog := rfl
@[simp] theorem modLaunch_hartFaults (l : Nat) (f : Launch → Launch) : (modLaunch s l f).hartFaults = s.hartFaults := rfl
@[simp] theorem modLaunch_hartRes (l : Nat) (f : Launch → Launch) : (modLaunch s l f).hartRes = s.hartRes := rfl
@[simp] theorem modLaunch_iommu (l : Nat) (f : Launch → Launch) : (modLaunch s l f).iommu = s.iommu := rfl
@[simp] theorem modLaunch_pcieUr (l : Nat) (f : Launch → Launch) : (modLaunch s l f).pcieUr = s.pcieUr := rfl
@[simp] theorem modLaunch_storageTimeout (l : Nat) (f : Launch → Launch) : (modLaunch s l f).storageTimeout = s.storageTimeout := rfl
@[simp] theorem modLaunch_gate (l : Nat) (f : Launch → Launch) : (modLaunch s l f).gate = s.gate := rfl
@[simp] theorem modLaunch_powered (l : Nat) (f : Launch → Launch) : (modLaunch s l f).powered = s.powered := rfl
@[simp] theorem modLaunch_boot (l : Nat) (f : Launch → Launch) : (modLaunch s l f).boot = s.boot := rfl
@[simp] theorem modLaunch_bootFailed (l : Nat) (f : Launch → Launch) : (modLaunch s l f).bootFailed = s.bootFailed := rfl
@[simp] theorem modLaunch_measure (l : Nat) (f : Launch → Launch) : (modLaunch s l f).measure = s.measure := rfl
@[simp] theorem modLaunch_portsDown (l : Nat) (f : Launch → Launch) : (modLaunch s l f).portsDown = s.portsDown := rfl
@[simp] theorem modLaunch_peers (l : Nat) (f : Launch → Launch) : (modLaunch s l f).peers = s.peers := rfl
@[simp] theorem modLaunch_cur (l : Nat) (f : Launch → Launch) : (modLaunch s l f).cur = s.cur := rfl
@[simp] theorem modLaunch_curPath (l : Nat) (f : Launch → Launch) : (modLaunch s l f).curPath = s.curPath := rfl
@[simp] theorem modLaunch_ir (l : Nat) (f : Launch → Launch) : (modLaunch s l f).ir = s.ir := rfl
@[simp] theorem modLaunch_drainCore (l : Nat) (f : Launch → Launch) : (modLaunch s l f).drainCore = s.drainCore := rfl
@[simp] theorem modLaunch_agenda (l : Nat) (f : Launch → Launch) : (modLaunch s l f).agenda = s.agenda := rfl
@[simp] theorem modLaunch_fresh (l : Nat) (f : Launch → Launch) : (modLaunch s l f).fresh = s.fresh := rfl
@[simp] theorem modLaunch_draws (l : Nat) (f : Launch → Launch) : (modLaunch s l f).draws = s.draws := rfl

@[simp] theorem modQueue_clock (q : Nat) (f : Queue → Queue) : (modQueue s q f).clock = s.clock := rfl
@[simp] theorem modQueue_mem (q : Nat) (f : Queue → Queue) : (modQueue s q f).mem = s.mem := rfl
@[simp] theorem modQueue_poison (q : Nat) (f : Queue → Queue) : (modQueue s q f).poison = s.poison := rfl
@[simp] theorem modQueue_poisonFrames (q : Nat) (f : Queue → Queue) : (modQueue s q f).poisonFrames = s.poisonFrames := rfl
@[simp] theorem modQueue_retiredFrames (q : Nat) (f : Queue → Queue) : (modQueue s q f).retiredFrames = s.retiredFrames := rfl
@[simp] theorem modQueue_promoted (q : Nat) (f : Queue → Queue) : (modQueue s q f).promoted = s.promoted := rfl
@[simp] theorem modQueue_segments (q : Nat) (f : Queue → Queue) : (modQueue s q f).segments = s.segments := rfl
@[simp] theorem modQueue_procs (q : Nat) (f : Queue → Queue) : (modQueue s q f).procs = s.procs := rfl
@[simp] theorem modQueue_launches (q : Nat) (f : Queue → Queue) : (modQueue s q f).launches = s.launches := rfl
@[simp] theorem modQueue_clusters (q : Nat) (f : Queue → Queue) : (modQueue s q f).clusters = s.clusters := rfl
@[simp] theorem modQueue_teams (q : Nat) (f : Queue → Queue) : (modQueue s q f).teams = s.teams := rfl
@[simp] theorem modQueue_groups (q : Nat) (f : Queue → Queue) : (modQueue s q f).groups = s.groups := rfl
@[simp] theorem modQueue_saved (q : Nat) (f : Queue → Queue) : (modQueue s q f).saved = s.saved := rfl
@[simp] theorem modQueue_cores (q : Nat) (f : Queue → Queue) : (modQueue s q f).cores = s.cores := rfl
@[simp] theorem modQueue_stks (q : Nat) (f : Queue → Queue) : (modQueue s q f).stks = s.stks := rfl
@[simp] theorem modQueue_collectives (q : Nat) (f : Queue → Queue) : (modQueue s q f).collectives = s.collectives := rfl
@[simp] theorem modQueue_placeReqs (q : Nat) (f : Queue → Queue) : (modQueue s q f).placeReqs = s.placeReqs := rfl
@[simp] theorem modQueue_offers (q : Nat) (f : Queue → Queue) : (modQueue s q f).offers = s.offers := rfl
@[simp] theorem modQueue_blockTables (q : Nat) (f : Queue → Queue) : (modQueue s q f).blockTables = s.blockTables := rfl
@[simp] theorem modQueue_notices (q : Nat) (f : Queue → Queue) : (modQueue s q f).notices = s.notices := rfl
@[simp] theorem modQueue_hostIn (q : Nat) (f : Queue → Queue) : (modQueue s q f).hostIn = s.hostIn := rfl
@[simp] theorem modQueue_hostOut (q : Nat) (f : Queue → Queue) : (modQueue s q f).hostOut = s.hostOut := rfl
@[simp] theorem modQueue_hostWait (q : Nat) (f : Queue → Queue) : (modQueue s q f).hostWait = s.hostWait := rfl
@[simp] theorem modQueue_msi (q : Nat) (f : Queue → Queue) : (modQueue s q f).msi = s.msi := rfl
@[simp] theorem modQueue_drained (q : Nat) (f : Queue → Queue) : (modQueue s q f).drained = s.drained := rfl
@[simp] theorem modQueue_filtered (q : Nat) (f : Queue → Queue) : (modQueue s q f).filtered = s.filtered := rfl
@[simp] theorem modQueue_mail (q : Nat) (f : Queue → Queue) : (modQueue s q f).mail = s.mail := rfl
@[simp] theorem modQueue_hostCache (q : Nat) (f : Queue → Queue) : (modQueue s q f).hostCache = s.hostCache := rfl
@[simp] theorem modQueue_arrayLog (q : Nat) (f : Queue → Queue) : (modQueue s q f).arrayLog = s.arrayLog := rfl
@[simp] theorem modQueue_busLog (q : Nat) (f : Queue → Queue) : (modQueue s q f).busLog = s.busLog := rfl
@[simp] theorem modQueue_hartFaults (q : Nat) (f : Queue → Queue) : (modQueue s q f).hartFaults = s.hartFaults := rfl
@[simp] theorem modQueue_hartRes (q : Nat) (f : Queue → Queue) : (modQueue s q f).hartRes = s.hartRes := rfl
@[simp] theorem modQueue_iommu (q : Nat) (f : Queue → Queue) : (modQueue s q f).iommu = s.iommu := rfl
@[simp] theorem modQueue_pcieUr (q : Nat) (f : Queue → Queue) : (modQueue s q f).pcieUr = s.pcieUr := rfl
@[simp] theorem modQueue_storageTimeout (q : Nat) (f : Queue → Queue) : (modQueue s q f).storageTimeout = s.storageTimeout := rfl
@[simp] theorem modQueue_gate (q : Nat) (f : Queue → Queue) : (modQueue s q f).gate = s.gate := rfl
@[simp] theorem modQueue_powered (q : Nat) (f : Queue → Queue) : (modQueue s q f).powered = s.powered := rfl
@[simp] theorem modQueue_boot (q : Nat) (f : Queue → Queue) : (modQueue s q f).boot = s.boot := rfl
@[simp] theorem modQueue_bootFailed (q : Nat) (f : Queue → Queue) : (modQueue s q f).bootFailed = s.bootFailed := rfl
@[simp] theorem modQueue_measure (q : Nat) (f : Queue → Queue) : (modQueue s q f).measure = s.measure := rfl
@[simp] theorem modQueue_portsDown (q : Nat) (f : Queue → Queue) : (modQueue s q f).portsDown = s.portsDown := rfl
@[simp] theorem modQueue_peers (q : Nat) (f : Queue → Queue) : (modQueue s q f).peers = s.peers := rfl
@[simp] theorem modQueue_cur (q : Nat) (f : Queue → Queue) : (modQueue s q f).cur = s.cur := rfl
@[simp] theorem modQueue_curPath (q : Nat) (f : Queue → Queue) : (modQueue s q f).curPath = s.curPath := rfl
@[simp] theorem modQueue_ir (q : Nat) (f : Queue → Queue) : (modQueue s q f).ir = s.ir := rfl
@[simp] theorem modQueue_drainCore (q : Nat) (f : Queue → Queue) : (modQueue s q f).drainCore = s.drainCore := rfl
@[simp] theorem modQueue_agenda (q : Nat) (f : Queue → Queue) : (modQueue s q f).agenda = s.agenda := rfl
@[simp] theorem modQueue_fresh (q : Nat) (f : Queue → Queue) : (modQueue s q f).fresh = s.fresh := rfl
@[simp] theorem modQueue_draws (q : Nat) (f : Queue → Queue) : (modQueue s q f).draws = s.draws := rfl

@[simp] theorem modCluster_clock (c : Nat) (f : Cluster → Cluster) : (modCluster s c f).clock = s.clock := rfl
@[simp] theorem modCluster_mem (c : Nat) (f : Cluster → Cluster) : (modCluster s c f).mem = s.mem := rfl
@[simp] theorem modCluster_poison (c : Nat) (f : Cluster → Cluster) : (modCluster s c f).poison = s.poison := rfl
@[simp] theorem modCluster_poisonFrames (c : Nat) (f : Cluster → Cluster) : (modCluster s c f).poisonFrames = s.poisonFrames := rfl
@[simp] theorem modCluster_retiredFrames (c : Nat) (f : Cluster → Cluster) : (modCluster s c f).retiredFrames = s.retiredFrames := rfl
@[simp] theorem modCluster_promoted (c : Nat) (f : Cluster → Cluster) : (modCluster s c f).promoted = s.promoted := rfl
@[simp] theorem modCluster_segments (c : Nat) (f : Cluster → Cluster) : (modCluster s c f).segments = s.segments := rfl
@[simp] theorem modCluster_procs (c : Nat) (f : Cluster → Cluster) : (modCluster s c f).procs = s.procs := rfl
@[simp] theorem modCluster_queues (c : Nat) (f : Cluster → Cluster) : (modCluster s c f).queues = s.queues := rfl
@[simp] theorem modCluster_launches (c : Nat) (f : Cluster → Cluster) : (modCluster s c f).launches = s.launches := rfl
@[simp] theorem modCluster_teams (c : Nat) (f : Cluster → Cluster) : (modCluster s c f).teams = s.teams := rfl
@[simp] theorem modCluster_groups (c : Nat) (f : Cluster → Cluster) : (modCluster s c f).groups = s.groups := rfl
@[simp] theorem modCluster_saved (c : Nat) (f : Cluster → Cluster) : (modCluster s c f).saved = s.saved := rfl
@[simp] theorem modCluster_cores (c : Nat) (f : Cluster → Cluster) : (modCluster s c f).cores = s.cores := rfl
@[simp] theorem modCluster_stks (c : Nat) (f : Cluster → Cluster) : (modCluster s c f).stks = s.stks := rfl
@[simp] theorem modCluster_collectives (c : Nat) (f : Cluster → Cluster) : (modCluster s c f).collectives = s.collectives := rfl
@[simp] theorem modCluster_placeReqs (c : Nat) (f : Cluster → Cluster) : (modCluster s c f).placeReqs = s.placeReqs := rfl
@[simp] theorem modCluster_offers (c : Nat) (f : Cluster → Cluster) : (modCluster s c f).offers = s.offers := rfl
@[simp] theorem modCluster_blockTables (c : Nat) (f : Cluster → Cluster) : (modCluster s c f).blockTables = s.blockTables := rfl
@[simp] theorem modCluster_notices (c : Nat) (f : Cluster → Cluster) : (modCluster s c f).notices = s.notices := rfl
@[simp] theorem modCluster_hostIn (c : Nat) (f : Cluster → Cluster) : (modCluster s c f).hostIn = s.hostIn := rfl
@[simp] theorem modCluster_hostOut (c : Nat) (f : Cluster → Cluster) : (modCluster s c f).hostOut = s.hostOut := rfl
@[simp] theorem modCluster_hostWait (c : Nat) (f : Cluster → Cluster) : (modCluster s c f).hostWait = s.hostWait := rfl
@[simp] theorem modCluster_msi (c : Nat) (f : Cluster → Cluster) : (modCluster s c f).msi = s.msi := rfl
@[simp] theorem modCluster_drained (c : Nat) (f : Cluster → Cluster) : (modCluster s c f).drained = s.drained := rfl
@[simp] theorem modCluster_filtered (c : Nat) (f : Cluster → Cluster) : (modCluster s c f).filtered = s.filtered := rfl
@[simp] theorem modCluster_mail (c : Nat) (f : Cluster → Cluster) : (modCluster s c f).mail = s.mail := rfl
@[simp] theorem modCluster_hostCache (c : Nat) (f : Cluster → Cluster) : (modCluster s c f).hostCache = s.hostCache := rfl
@[simp] theorem modCluster_arrayLog (c : Nat) (f : Cluster → Cluster) : (modCluster s c f).arrayLog = s.arrayLog := rfl
@[simp] theorem modCluster_busLog (c : Nat) (f : Cluster → Cluster) : (modCluster s c f).busLog = s.busLog := rfl
@[simp] theorem modCluster_hartFaults (c : Nat) (f : Cluster → Cluster) : (modCluster s c f).hartFaults = s.hartFaults := rfl
@[simp] theorem modCluster_hartRes (c : Nat) (f : Cluster → Cluster) : (modCluster s c f).hartRes = s.hartRes := rfl
@[simp] theorem modCluster_iommu (c : Nat) (f : Cluster → Cluster) : (modCluster s c f).iommu = s.iommu := rfl
@[simp] theorem modCluster_pcieUr (c : Nat) (f : Cluster → Cluster) : (modCluster s c f).pcieUr = s.pcieUr := rfl
@[simp] theorem modCluster_storageTimeout (c : Nat) (f : Cluster → Cluster) : (modCluster s c f).storageTimeout = s.storageTimeout := rfl
@[simp] theorem modCluster_gate (c : Nat) (f : Cluster → Cluster) : (modCluster s c f).gate = s.gate := rfl
@[simp] theorem modCluster_powered (c : Nat) (f : Cluster → Cluster) : (modCluster s c f).powered = s.powered := rfl
@[simp] theorem modCluster_boot (c : Nat) (f : Cluster → Cluster) : (modCluster s c f).boot = s.boot := rfl
@[simp] theorem modCluster_bootFailed (c : Nat) (f : Cluster → Cluster) : (modCluster s c f).bootFailed = s.bootFailed := rfl
@[simp] theorem modCluster_measure (c : Nat) (f : Cluster → Cluster) : (modCluster s c f).measure = s.measure := rfl
@[simp] theorem modCluster_portsDown (c : Nat) (f : Cluster → Cluster) : (modCluster s c f).portsDown = s.portsDown := rfl
@[simp] theorem modCluster_peers (c : Nat) (f : Cluster → Cluster) : (modCluster s c f).peers = s.peers := rfl
@[simp] theorem modCluster_cur (c : Nat) (f : Cluster → Cluster) : (modCluster s c f).cur = s.cur := rfl
@[simp] theorem modCluster_curPath (c : Nat) (f : Cluster → Cluster) : (modCluster s c f).curPath = s.curPath := rfl
@[simp] theorem modCluster_ir (c : Nat) (f : Cluster → Cluster) : (modCluster s c f).ir = s.ir := rfl
@[simp] theorem modCluster_drainCore (c : Nat) (f : Cluster → Cluster) : (modCluster s c f).drainCore = s.drainCore := rfl
@[simp] theorem modCluster_agenda (c : Nat) (f : Cluster → Cluster) : (modCluster s c f).agenda = s.agenda := rfl
@[simp] theorem modCluster_fresh (c : Nat) (f : Cluster → Cluster) : (modCluster s c f).fresh = s.fresh := rfl
@[simp] theorem modCluster_draws (c : Nat) (f : Cluster → Cluster) : (modCluster s c f).draws = s.draws := rfl

@[simp] theorem keep_clock (g : Group) (p : Path) : (keep s g p).clock = s.clock := rfl
@[simp] theorem keep_mem (g : Group) (p : Path) : (keep s g p).mem = s.mem := rfl
@[simp] theorem keep_poison (g : Group) (p : Path) : (keep s g p).poison = s.poison := rfl
@[simp] theorem keep_poisonFrames (g : Group) (p : Path) : (keep s g p).poisonFrames = s.poisonFrames := rfl
@[simp] theorem keep_retiredFrames (g : Group) (p : Path) : (keep s g p).retiredFrames = s.retiredFrames := rfl
@[simp] theorem keep_promoted (g : Group) (p : Path) : (keep s g p).promoted = s.promoted := rfl
@[simp] theorem keep_segments (g : Group) (p : Path) : (keep s g p).segments = s.segments := rfl
@[simp] theorem keep_procs (g : Group) (p : Path) : (keep s g p).procs = s.procs := rfl
@[simp] theorem keep_queues (g : Group) (p : Path) : (keep s g p).queues = s.queues := rfl
@[simp] theorem keep_launches (g : Group) (p : Path) : (keep s g p).launches = s.launches := rfl
@[simp] theorem keep_clusters (g : Group) (p : Path) : (keep s g p).clusters = s.clusters := rfl
@[simp] theorem keep_teams (g : Group) (p : Path) : (keep s g p).teams = s.teams := rfl
@[simp] theorem keep_saved (g : Group) (p : Path) : (keep s g p).saved = s.saved := rfl
@[simp] theorem keep_cores (g : Group) (p : Path) : (keep s g p).cores = s.cores := rfl
@[simp] theorem keep_stks (g : Group) (p : Path) : (keep s g p).stks = s.stks := rfl
@[simp] theorem keep_collectives (g : Group) (p : Path) : (keep s g p).collectives = s.collectives := rfl
@[simp] theorem keep_placeReqs (g : Group) (p : Path) : (keep s g p).placeReqs = s.placeReqs := rfl
@[simp] theorem keep_offers (g : Group) (p : Path) : (keep s g p).offers = s.offers := rfl
@[simp] theorem keep_blockTables (g : Group) (p : Path) : (keep s g p).blockTables = s.blockTables := rfl
@[simp] theorem keep_notices (g : Group) (p : Path) : (keep s g p).notices = s.notices := rfl
@[simp] theorem keep_hostIn (g : Group) (p : Path) : (keep s g p).hostIn = s.hostIn := rfl
@[simp] theorem keep_hostOut (g : Group) (p : Path) : (keep s g p).hostOut = s.hostOut := rfl
@[simp] theorem keep_hostWait (g : Group) (p : Path) : (keep s g p).hostWait = s.hostWait := rfl
@[simp] theorem keep_msi (g : Group) (p : Path) : (keep s g p).msi = s.msi := rfl
@[simp] theorem keep_drained (g : Group) (p : Path) : (keep s g p).drained = s.drained := rfl
@[simp] theorem keep_filtered (g : Group) (p : Path) : (keep s g p).filtered = s.filtered := rfl
@[simp] theorem keep_mail (g : Group) (p : Path) : (keep s g p).mail = s.mail := rfl
@[simp] theorem keep_hostCache (g : Group) (p : Path) : (keep s g p).hostCache = s.hostCache := rfl
@[simp] theorem keep_arrayLog (g : Group) (p : Path) : (keep s g p).arrayLog = s.arrayLog := rfl
@[simp] theorem keep_busLog (g : Group) (p : Path) : (keep s g p).busLog = s.busLog := rfl
@[simp] theorem keep_hartFaults (g : Group) (p : Path) : (keep s g p).hartFaults = s.hartFaults := rfl
@[simp] theorem keep_hartRes (g : Group) (p : Path) : (keep s g p).hartRes = s.hartRes := rfl
@[simp] theorem keep_iommu (g : Group) (p : Path) : (keep s g p).iommu = s.iommu := rfl
@[simp] theorem keep_pcieUr (g : Group) (p : Path) : (keep s g p).pcieUr = s.pcieUr := rfl
@[simp] theorem keep_storageTimeout (g : Group) (p : Path) : (keep s g p).storageTimeout = s.storageTimeout := rfl
@[simp] theorem keep_gate (g : Group) (p : Path) : (keep s g p).gate = s.gate := rfl
@[simp] theorem keep_powered (g : Group) (p : Path) : (keep s g p).powered = s.powered := rfl
@[simp] theorem keep_boot (g : Group) (p : Path) : (keep s g p).boot = s.boot := rfl
@[simp] theorem keep_bootFailed (g : Group) (p : Path) : (keep s g p).bootFailed = s.bootFailed := rfl
@[simp] theorem keep_measure (g : Group) (p : Path) : (keep s g p).measure = s.measure := rfl
@[simp] theorem keep_portsDown (g : Group) (p : Path) : (keep s g p).portsDown = s.portsDown := rfl
@[simp] theorem keep_peers (g : Group) (p : Path) : (keep s g p).peers = s.peers := rfl
@[simp] theorem keep_cur (g : Group) (p : Path) : (keep s g p).cur = s.cur := rfl
@[simp] theorem keep_curPath (g : Group) (p : Path) : (keep s g p).curPath = s.curPath := rfl
@[simp] theorem keep_ir (g : Group) (p : Path) : (keep s g p).ir = s.ir := rfl
@[simp] theorem keep_drainCore (g : Group) (p : Path) : (keep s g p).drainCore = s.drainCore := rfl
@[simp] theorem keep_agenda (g : Group) (p : Path) : (keep s g p).agenda = s.agenda := rfl
@[simp] theorem keep_fresh (g : Group) (p : Path) : (keep s g p).fresh = s.fresh := rfl
@[simp] theorem keep_draws (g : Group) (p : Path) : (keep s g p).draws = s.draws := rfl

@[simp] theorem putPath_team (g : Group) (p : Path) : (putPath g p).team = g.team := rfl
@[simp] theorem putPath_idx (g : Group) (p : Path) : (putPath g p).idx = g.idx := rfl
@[simp] theorem putPath_core (g : Group) (p : Path) : (putPath g p).core = g.core := rfl
@[simp] theorem putPath_part (g : Group) (p : Path) : (putPath g p).part = g.part := rfl
@[simp] theorem putPath_place (g : Group) (p : Path) : (putPath g p).place = g.place := rfl
@[simp] theorem putPath_resident (g : Group) (p : Path) : (putPath g p).resident = g.resident := rfl
@[simp] theorem putPath_retired (g : Group) (p : Path) : (putPath g p).retired = g.retired := rfl
@[simp] theorem putPath_sreg (g : Group) (p : Path) : (putPath g p).sreg = g.sreg := rfl
@[simp] theorem putPath_spoison (g : Group) (p : Path) : (putPath g p).spoison = g.spoison := rfl
@[simp] theorem putPath_vreg (g : Group) (p : Path) : (putPath g p).vreg = g.vreg := rfl
@[simp] theorem putPath_vpoison (g : Group) (p : Path) : (putPath g p).vpoison = g.vpoison := rfl
@[simp] theorem putPath_pred (g : Group) (p : Path) : (putPath g p).pred = g.pred := rfl
@[simp] theorem putPath_flags (g : Group) (p : Path) : (putPath g p).flags = g.flags := rfl
@[simp] theorem putPath_owner (g : Group) (p : Path) : (putPath g p).owner = g.owner := rfl
@[simp] theorem putPath_outq (g : Group) (p : Path) : (putPath g p).outq = g.outq := rfl
@[simp] theorem putPath_reqs (g : Group) (p : Path) : (putPath g p).reqs = g.reqs := rfl
@[simp] theorem putPath_pend (g : Group) (p : Path) : (putPath g p).pend = g.pend := rfl
@[simp] theorem putPath_lines (g : Group) (p : Path) : (putPath g p).lines = g.lines := rfl
@[simp] theorem putPath_ejth (g : Group) (p : Path) : (putPath g p).ejth = g.ejth := rfl
@[simp] theorem putPath_rjto (g : Group) (p : Path) : (putPath g p).rjto = g.rjto := rfl
@[simp] theorem putPath_role (g : Group) (p : Path) : (putPath g p).role = g.role := rfl
@[simp] theorem putPath_gang (g : Group) (p : Path) : (putPath g p).gang = g.gang := rfl
@[simp] theorem putPath_fpflags (g : Group) (p : Path) : (putPath g p).fpflags = g.fpflags := rfl
@[simp] theorem putPath_dead (g : Group) (p : Path) : (putPath g p).dead = g.dead := rfl
@[simp] theorem putPath_tcause (g : Group) (p : Path) : (putPath g p).tcause = g.tcause := rfl
@[simp] theorem putPath_tval0 (g : Group) (p : Path) : (putPath g p).tval0 = g.tval0 := rfl
@[simp] theorem putPath_tval1 (g : Group) (p : Path) : (putPath g p).tval1 = g.tval1 := rfl
@[simp] theorem putPath_tspc (g : Group) (p : Path) : (putPath g p).tspc = g.tspc := rfl
@[simp] theorem putPath_tlpc (g : Group) (p : Path) : (putPath g p).tlpc = g.tlpc := rfl
@[simp] theorem putPath_handler (g : Group) (p : Path) : (putPath g p).handler = g.handler := rfl
@[simp] theorem putPath_due (g : Group) (p : Path) : (putPath g p).due = g.due := rfl
@[simp] theorem putPath_slots (g : Group) (p : Path) : (putPath g p).slots = g.slots := rfl
@[simp] theorem putPath_recalls (g : Group) (p : Path) : (putPath g p).recalls = g.recalls := rfl
@[simp] theorem putPath_ncpyc (g : Group) (p : Path) : (putPath g p).ncpyc = g.ncpyc := rfl
@[simp] theorem putPath_arrivals (g : Group) (p : Path) : (putPath g p).arrivals = g.arrivals := rfl
@[simp] theorem putPath_target (g : Group) (p : Path) : (putPath g p).target = g.target := rfl
@[simp] theorem putPath_appends (g : Group) (p : Path) : (putPath g p).appends = g.appends := rfl
@[simp] theorem putPath_walked (g : Group) (p : Path) : (putPath g p).walked = g.walked := rfl
@[simp] theorem putPath_susp (g : Group) (p : Path) : (putPath g p).susp = g.susp := rfl
@[simp] theorem putPath_garnet (g : Group) (p : Path) : (putPath g p).garnet = g.garnet := rfl
@[simp] theorem putPath_age (g : Group) (p : Path) : (putPath g p).age = g.age := rfl
@[simp] theorem putPath_pausedAt (g : Group) (p : Path) : (putPath g p).pausedAt = g.pausedAt := rfl
@[simp] theorem putPath_ageA (g : Group) (p : Path) : (putPath g p).ageA = g.ageA := rfl
@[simp] theorem putPath_ageB (g : Group) (p : Path) : (putPath g p).ageB = g.ageB := rfl
@[simp] theorem putPath_quiet (g : Group) (p : Path) : (putPath g p).quiet = g.quiet := rfl
@[simp] theorem putPath_fpDue (g : Group) (p : Path) : (putPath g p).fpDue = g.fpDue := rfl
@[simp] theorem putPath_lineUse (g : Group) (p : Path) : (putPath g p).lineUse = g.lineUse := rfl
@[simp] theorem putPath_image (g : Group) (p : Path) : (putPath g p).image = g.image := rfl
@[simp] theorem putPath_seen (g : Group) (p : Path) : (putPath g p).seen = g.seen := rfl
@[simp] theorem putPath_named (g : Group) (p : Path) : (putPath g p).named = g.named := rfl
@[simp] theorem putPath_reply (g : Group) (p : Path) : (putPath g p).reply = g.reply := rfl

end Sys2Proof.Machine
end

