-- ==== Sys2Proof/Laws/Tab.lean ====
section
/-! SUPPORT. Laws of sparse tables: what a lookup finds after an insertion or a removal, and that both keep the canonical
form. -/
namespace Sys2Proof.Machine

variable {α : Type}

@[simp] theorem tabFind_nil (k : Nat) : tabFind ([] : Tab α) k = none := rfl

@[simp] theorem tabFind_put_self (t : Tab α) (k : Nat) (v : α) : tabFind (tabPut t k v) k = some v := by
  induction t with
  | nil => simp [tabPut, tabFind]
  | cons e t ih =>
    obtain ⟨j, u⟩ := e
    rcases lt_trichotomy k j with h | h | h
    · simp [tabPut, tabFind, h]
    · simp [tabPut, tabFind, h]
    · simp [tabPut, tabFind, show ¬ k < j by omega, show k ≠ j by omega, ih]

theorem tabFind_put_ne (t : Tab α) {k j : Nat} (v : α) (h : j ≠ k) : tabFind (tabPut t k v) j = tabFind t j := by
  induction t with
  | nil => by_cases hj : j < k <;> simp [tabPut, tabFind, hj, h]
  | cons e t ih =>
    obtain ⟨i, u⟩ := e
    rcases lt_trichotomy k i with hk | hk | hk
    · by_cases hj : j < k
      · simp [tabPut, tabFind, hk, hj, show j < i by omega]
      · simp [tabPut, tabFind, hk, hj, h]
    · subst hk; simp [tabPut, tabFind, h]
    · simp [tabPut, tabFind, show ¬ k < i by omega, show k ≠ i by omega, ih]

theorem tabFind_put (t : Tab α) (k j : Nat) (v : α) :
    tabFind (tabPut t k v) j = if j = k then some v else tabFind t j := by
  split
  · subst_vars; simp
  · exact tabFind_put_ne t v ‹_›

/-- Every key of a table lies above a bound. -/
def tabAbove (n : Nat) (t : Tab α) : Prop := ∀ e ∈ t, n < e.1

theorem tabSorted_cons {j : Nat} {u : α} {t : Tab α} :
    tabSorted ((j, u) :: t) = true ↔ tabAbove j t ∧ tabSorted t = true := by
  induction t generalizing j u with
  | nil => simp [tabSorted, tabAbove]
  | cons e t ih =>
    obtain ⟨k, v⟩ := e
    simp only [tabSorted, Bool.and_eq_true, decide_eq_true_eq, tabAbove, List.mem_cons, forall_eq_or_imp]
    constructor
    · rintro ⟨h, hs⟩
      exact ⟨⟨h, fun e he => Nat.lt_trans h ((ih.mp hs).1 e he)⟩, hs⟩
    · rintro ⟨⟨h, -⟩, hs⟩
      exact ⟨h, hs⟩

theorem tabSorted_tail {e : Nat × α} {t : Tab α} (h : tabSorted (e :: t) = true) : tabSorted t = true :=
  (tabSorted_cons (j := e.1) (u := e.2)).mp h |>.2

theorem tabFind_of_above {t : Tab α} {k : Nat} (h : tabAbove k t) : tabFind t k = none := by
  cases t with
  | nil => rfl
  | cons e t => obtain ⟨j, u⟩ := e; simp [tabFind, show k < j from h (j, u) (by simp)]

theorem tabFind_del_self {t : Tab α} (k : Nat) (h : tabSorted t = true) : tabFind (tabDel t k) k = none := by
  induction t with
  | nil => rfl
  | cons e t ih =>
    obtain ⟨j, u⟩ := e
    obtain ⟨ha, hs⟩ := tabSorted_cons.mp h
    rcases lt_trichotomy k j with hk | hk | hk
    · simp [tabDel, tabFind, hk]
    · subst hk; simpa [tabDel] using tabFind_of_above ha
    · simp [tabDel, tabFind, show ¬ k < j by omega, show k ≠ j by omega, ih hs]

theorem tabFind_del_ne {t : Tab α} {k j : Nat} (h : tabSorted t = true) (hj : j ≠ k) :
    tabFind (tabDel t k) j = tabFind t j := by
  induction t with
  | nil => rfl
  | cons e t ih =>
    obtain ⟨i, u⟩ := e
    obtain ⟨ha, hs⟩ := tabSorted_cons.mp h
    rcases lt_trichotomy k i with hk | hk | hk
    · simp [tabDel, hk]
    · subst hk
      by_cases hl : j < k
      · simp [tabDel, tabFind, hl, tabFind_of_above (k := j) (t := t) (fun e he => Nat.lt_trans hl (ha e he))]
      · simp [tabDel, tabFind, hl, hj]
    · simp [tabDel, tabFind, show ¬ k < i by omega, show k ≠ i by omega, ih hs]

theorem tabAbove_put {t : Tab α} {n k : Nat} {v : α} (h : tabAbove n t) (hk : n < k) : tabAbove n (tabPut t k v) := by
  induction t with
  | nil => simpa [tabPut, tabAbove] using hk
  | cons e t ih =>
    obtain ⟨j, u⟩ := e
    have hj : n < j := h (j, u) (by simp)
    have ht : tabAbove n t := fun e he => h e (by simp [he])
    rcases lt_trichotomy k j with hc | hc | hc
    · intro e he
      simp only [tabPut, hc, if_true, List.mem_cons] at he
      rcases he with rfl | rfl | he
      · exact hk
      · exact hj
      · exact ht e he
    · intro e he
      simp only [tabPut, hc, lt_irrefl, if_false, if_true, List.mem_cons] at he
      rcases he with rfl | he
      · exact hj
      · exact ht e he
    · intro e he
      simp only [tabPut, show ¬ k < j by omega, show k ≠ j by omega, if_false, List.mem_cons] at he
      rcases he with rfl | he
      · exact hj
      · exact ih ht e he

theorem tabSorted_put {t : Tab α} (k : Nat) (v : α) (h : tabSorted t = true) : tabSorted (tabPut t k v) = true := by
  induction t with
  | nil => rfl
  | cons e t ih =>
    obtain ⟨j, u⟩ := e
    obtain ⟨ha, hs⟩ := tabSorted_cons.mp h
    rcases lt_trichotomy k j with hc | hc | hc
    · simp only [tabPut, hc, if_true]
      refine tabSorted_cons.mpr ⟨?_, h⟩
      intro e he
      rcases List.mem_cons.mp he with rfl | he
      · exact hc
      · exact Nat.lt_trans hc (ha e he)
    · subst hc; simpa [tabPut] using tabSorted_cons.mpr ⟨ha, hs⟩
    · simp only [tabPut, show ¬ k < j by omega, show k ≠ j by omega, if_false]
      exact tabSorted_cons.mpr ⟨tabAbove_put ha hc, ih hs⟩

theorem tabDel_subset {t : Tab α} {k : Nat} {e : Nat × α} (h : e ∈ tabDel t k) : e ∈ t := by
  induction t with
  | nil => exact h
  | cons x t ih =>
    obtain ⟨j, u⟩ := x
    rcases lt_trichotomy k j with hc | hc | hc
    · simpa [tabDel, hc] using h
    · subst hc; simp only [tabDel, lt_irrefl, if_false, if_true] at h; simp [h]
    · simp only [tabDel, show ¬ k < j by omega, show k ≠ j by omega, if_false, List.mem_cons] at h
      rcases h with rfl | h
      · simp
      · simp [ih h]

theorem tabSorted_del {t : Tab α} (k : Nat) (h : tabSorted t = true) : tabSorted (tabDel t k) = true := by
  induction t with
  | nil => rfl
  | cons e t ih =>
    obtain ⟨j, u⟩ := e
    obtain ⟨ha, hs⟩ := tabSorted_cons.mp h
    rcases lt_trichotomy k j with hc | hc | hc
    · simpa [tabDel, hc] using h
    · subst hc; simpa [tabDel] using hs
    · simp only [tabDel, show ¬ k < j by omega, show k ≠ j by omega, if_false]
      exact tabSorted_cons.mpr ⟨fun e he => ha e (tabDel_subset he), ih hs⟩

theorem tabPut_mem {t : Tab α} {k : Nat} {v : α} {e : Nat × α} (h : e ∈ tabPut t k v) : e = (k, v) ∨ e ∈ t := by
  induction t with
  | nil => simpa [tabPut] using h
  | cons x t ih =>
    obtain ⟨j, u⟩ := x
    rcases lt_trichotomy k j with hc | hc | hc
    · simpa [tabPut, hc] using h
    · subst hc
      simp only [tabPut, lt_irrefl, if_false, if_true, List.mem_cons] at h
      rcases h with h | h <;> simp [h]
    · simp only [tabPut, show ¬ k < j by omega, show k ≠ j by omega, if_false, List.mem_cons] at h
      rcases h with rfl | h
      · simp
      · rcases ih h with h | h <;> simp [h]

theorem tabSorted_mod {t : Tab α} (k : Nat) (f : α → α) (h : tabSorted t = true) : tabSorted (tabMod t k f) = true := by
  unfold tabMod; split
  · exact tabSorted_put _ _ h
  · exact h

theorem tabFind_mod (t : Tab α) (k j : Nat) (f : α → α) :
    tabFind (tabMod t k f) j = if j = k then (tabFind t k).map f else tabFind t j := by
  unfold tabMod
  split
  · rename_i v hv; simp only [tabFind_put]; split <;> simp [hv]
  · rename_i hv; split
    · subst_vars; simp [hv]
    · rfl

theorem tabSorted_filter {t : Tab α} (f : Nat × α → Bool) (h : tabSorted t = true) : tabSorted (t.filter f) = true := by
  induction t with
  | nil => rfl
  | cons e t ih =>
    obtain ⟨j, u⟩ := e
    obtain ⟨ha, hs⟩ := tabSorted_cons.mp h
    by_cases hf : f (j, u) = true
    · rw [List.filter_cons_of_pos hf]
      exact tabSorted_cons.mpr ⟨fun e he => ha e (List.mem_of_mem_filter he), ih hs⟩
    · rw [List.filter_cons_of_neg hf]; exact ih hs

section Default
variable [DecidableEq α]

theorem tabWf_iff {d : α} {t : Tab α} : tabWf d t = true ↔ tabSorted t = true ∧ ∀ e ∈ t, e.2 ≠ d := by
  simp [tabWf, tabNoDefault]

/-- Writing a value keeps the canonical form. -/
theorem tabWf_set {d : α} {t : Tab α} (k : Nat) (v : α) (h : tabWf d t = true) : tabWf d (tabSet d t k v) = true := by
  rw [tabWf_iff] at h ⊢
  unfold tabSet
  split
  · exact ⟨tabSorted_del _ h.1, fun e he => h.2 e (tabDel_subset he)⟩
  · refine ⟨tabSorted_put _ _ h.1, fun e he => ?_⟩
    rcases tabPut_mem he with rfl | he
    · assumption
    · exact h.2 e he

@[simp] theorem tabWf_nil (d : α) : tabWf d ([] : Tab α) = true := rfl

/-- A write is read back. -/
theorem tabGet_set_self {d : α} {t : Tab α} (k : Nat) (v : α) (h : tabWf d t = true) :
    tabGet d (tabSet d t k v) k = v := by
  unfold tabSet tabGet
  split
  · rw [tabFind_del_self k (tabWf_iff.mp h).1]; simp [*]
  · simp

/-- A write leaves every other key. -/
theorem tabGet_set_ne {d : α} {t : Tab α} {k j : Nat} (v : α) (h : tabWf d t = true) (hj : j ≠ k) :
    tabGet d (tabSet d t k v) j = tabGet d t j := by
  unfold tabSet tabGet
  split
  · rw [tabFind_del_ne (tabWf_iff.mp h).1 hj]
  · rw [tabFind_put_ne _ _ hj]

theorem tabGet_set {d : α} {t : Tab α} (k j : Nat) (v : α) (h : tabWf d t = true) :
    tabGet d (tabSet d t k v) j = if j = k then v else tabGet d t j := by
  split
  · subst_vars; exact tabGet_set_self _ _ h
  · exact tabGet_set_ne _ h ‹_›

theorem tabWf_filter {d : α} {t : Tab α} (f : Nat × α → Bool) (h : tabWf d t = true) : tabWf d (t.filter f) = true := by
  rw [tabWf_iff] at h ⊢
  exact ⟨tabSorted_filter f h.1, fun e he => h.2 e (List.mem_of_mem_filter he)⟩

end Default

/-- Two equal tables in canonical form are equal lists: what every key reads as fixes the table. -/
theorem tabFind_head {t : Tab α} {j : Nat} {u : α} : tabFind ((j, u) :: t) j = some u := by simp [tabFind]

end Sys2Proof.Machine
end

