-- ==== Sys2Proof/Laws/Regs.lean ====
section
/-! SUPPORT. Laws of groups, paths and scalar registers: what a write is read back as, and what storing a group and path
back leaves alone. -/
namespace Sys2Proof.Machine

/-! ### Paths of a group -/

theorem findPath_id {g : Group} {n : Nat} {p : Path} (h : findPath g n = some p) : p.id = n := by
  have := List.find?_some h; simpa using this

theorem find?_map_id (ps : List Path) (p : Path) (n : Nat) :
    (ps.map (fun q => if q.id = p.id then p else q)).find? (fun q => q.id = n) =
      if n = p.id then (ps.find? (fun q => q.id = n)).map (fun _ => p) else ps.find? (fun q => q.id = n) := by
  induction ps with
  | nil => simp
  | cons q ps ih =>
    simp only [List.map_cons, List.find?_cons]
    by_cases hq : q.id = p.id
    · by_cases hn : n = p.id
      · subst hn; simp [hq]
      · have h1 : p.id ≠ n := fun h => hn h.symm
        have h2 : q.id ≠ n := by omega
        simp only [hq, if_true, h1, decide_false, ih, hn, if_false]
    · by_cases hn : q.id = n
      · subst hn; simp [hq]
      · simp only [hq, if_false, hn, decide_false, ih]

theorem findPath_putPath_self {g : Group} {n : Nat} {p q : Path} (h : findPath g n = some p) (hq : q.id = n) :
    findPath (putPath g q) n = some q := by
  unfold findPath putPath at *
  rw [find?_map_id]; subst hq; simp [h]

theorem findPath_putPath_ne {g : Group} {n : Nat} {q : Path} (hq : n ≠ q.id) :
    findPath (putPath g q) n = findPath g n := by
  unfold findPath putPath
  rw [find?_map_id]; simp [hq]

/-- Finding a path looks only at the paths of a group. -/
theorem findPath_paths {g g' : Group} (h : g'.paths = g.paths) (n : Nat) : findPath g' n = findPath g n := by
  simp [findPath, h]

/-! ### Storing back -/

theorem keep_at {s : State} {g g' : Group} {p p' : Path} (h : s.At g p) (hp : p'.id = p.id) (hg : g'.paths = g.paths) :
    (keep s g' p').At (putPath g' p') p' := by
  refine ⟨by simp [keep, setGroup], ?_⟩
  show findPath (putPath g' p') s.curPath = some p'
  have hf : findPath g' s.curPath = some p := by rw [findPath_paths hg]; exact h.2
  exact findPath_putPath_self hf (by rw [hp, findPath_id h.2])

theorem keep_onlyGroup (s : State) (g : Group) (p : Path) : OnlyGroup s (keep s g p) := by
  refine ⟨rfl, fun k hk => ?_, fun a => rfl, fun c o => rfl⟩
  exact tabFind_put_ne _ _ hk

theorem putPath_others {g g' : Group} {p p' : Path} (hp : p'.id = p.id) (hg : g'.paths = g.paths) :
    OtherPaths p g (putPath g' p') := by
  intro q hq
  rw [findPath_putPath_ne (by rw [hp]; exact hq), findPath_paths hg]

theorem onPath_at {s : State} {g : Group} {p : Path} (f : Group → Path → Out) (h : s.At g p) : onPath s f = f g p := by
  simp [onPath, h.1, h.2]

/-! ### Scalar registers -/

theorem extract_maskSetPart (m : Mask) (i : Nat) (v : Word) (hi : i < 3) (j : Nat) (hj : j < 3) :
    maskPart (maskSetPart m i v) j = if j = i then v else maskPart m j := by
  have key : ∀ k, k < 32 → ((0xFFFFFFFF#96) <<< (32 * i)).getLsbD (32 * j + k) = decide (j = i) := by
    intro k hk
    have : ∀ i < 3, ∀ j < 3, ∀ k < 32, ((0xFFFFFFFF#96) <<< (32 * i)).getLsbD (32 * j + k) = decide (j = i) := by decide +kernel
    exact this i hi j hj k hk
  unfold maskPart maskSetPart
  ext k hk
  simp only [BitVec.getElem_extractLsb', BitVec.getLsbD_or, BitVec.getLsbD_and, BitVec.getLsbD_not, key k hk,
    BitVec.getLsbD_shiftLeft, BitVec.getLsbD_setWidth]
  by_cases h : j = i
  · subst h
    simp [show 32 * j + k < 96 by omega, show 32 * j + k - 32 * j = k by omega, show k < 96 by omega,
      BitVec.getLsbD_eq_getElem hk]
  · rcases Nat.lt_or_gt_of_ne h with h' | h'
    · simp [h, show 32 * j + k < 96 by omega, show 32 * j + k < 32 * i by omega]
    · simp [h, show 32 * j + k < 96 by omega, show ¬ 32 * j + k < 32 * i by omega,
        show 32 ≤ 32 * j + k - 32 * i by omega]

theorem maskPart_and (a b : Mask) (i : Nat) : maskPart (a &&& b) i = maskPart a i &&& maskPart b i := by
  ext k hk; simp [maskPart]
theorem maskPart_or (a b : Mask) (i : Nat) : maskPart (a ||| b) i = maskPart a i ||| maskPart b i := by
  ext k hk; simp [maskPart]
theorem maskPart_not (a : Mask) {i : Nat} (hi : i < 3) : maskPart (~~~ a) i = ~~~ maskPart a i := by
  ext k hk; simp [maskPart, show 32 * i + k < 96 by omega]

/-- What a register reads as after one write (R149, R150). -/
theorem sRead_sWrite {g : Group} {p : Path} (d r : SReg) (v : Word) (h : tabWf 0 g.sreg = true) :
    sRead (sWrite (g, p) d v).1 (sWrite (g, p) d v).2 r =
      if r = d then (if d.toNat < 61 then v
        else (v &&& maskPart p.owned (d.toNat - 61)) ||| (sRead g p d &&& ~~~ maskPart p.owned (d.toNat - 61)))
      else if d.toNat < 61 ∨ r.toNat < 61 then sRead g p r
      else (sRead g p r &&& maskPart p.owned (r.toNat - 61)) ||| (sRead g p r &&& ~~~ maskPart p.owned (r.toNat - 61)) := by
  have hne : r ≠ d → r.toNat ≠ d.toNat := fun h e => h (BitVec.eq_of_toNat_eq e)
  have hd := d.isLt
  have hr := r.isLt
  by_cases h61 : d.toNat < 61
  · by_cases hrd : r = d
    · subst hrd; simp only [sWrite, sRead, h61, if_true]; exact tabGet_set_self _ _ h
    · by_cases hr61 : r.toNat < 61
      · simp only [sWrite, sRead, h61, hrd, hr61, if_true, if_false, true_or]; exact tabGet_set_ne _ h (hne hrd)
      · simp [sWrite, sRead, h61, hrd, hr61]
  · by_cases hr61 : r.toNat < 61
    · have hrd : r ≠ d := by rintro rfl; exact h61 hr61
      simp [sWrite, sRead, h61, hrd, hr61]
    · have e : maskPart (maskSetPart p.mask (d.toNat - 61) v) (r.toNat - 61) =
          if r = d then v else maskPart p.mask (r.toNat - 61) := by
        rw [extract_maskSetPart _ _ _ (by omega) _ (by omega)]
        by_cases hrd : r = d
        · simp [hrd]
        · have : r.toNat - 61 ≠ d.toNat - 61 := by have := hne hrd; omega
          simp [hrd, this]
      simp only [sWrite, sRead, h61, hr61, if_false, maskPart_or, maskPart_and,
        maskPart_not p.owned (show r.toNat - 61 < 3 by omega), e, or_self]
      by_cases hrd : r = d
      · subst hrd; simp only [if_true]; ext i hi
        simp only [BitVec.getElem_or, BitVec.getElem_and, BitVec.getElem_not]
        cases v[i] <;> cases (maskPart p.owned (r.toNat - 61))[i] <;> simp
      · simp only [hrd, if_false]; ext i hi
        simp only [BitVec.getElem_or, BitVec.getElem_and, BitVec.getElem_not]
        cases (maskPart p.mask (r.toNat - 61))[i] <;> cases (maskPart p.owned (r.toNat - 61))[i] <;> rfl

theorem and_or_and_not (a b : Word) : (a &&& b) ||| (a &&& ~~~ b) = a := by
  ext i hi; simp only [BitVec.getElem_or, BitVec.getElem_and, BitVec.getElem_not]; cases a[i] <;> cases b[i] <;> rfl

/-- What a register reads as after one write, in the terms of the claims. -/
theorem sRead_sWrite_after {g : Group} {p : Path} (d r : SReg) (v : Word) (h : tabWf 0 g.sreg = true) :
    sRead (sWrite (g, p) d v).1 (sWrite (g, p) d v).2 r = afterWrites p (sRead g p) [(d, v)] r := by
  rw [sRead_sWrite d r v h]
  unfold afterWrites
  by_cases hrd : r = d
  · subst hrd; simp [maskPart]
  · have hdr : ¬ d = r := fun e => hrd e.symm
    simp only [hrd, if_false, List.find?_cons, hdr, decide_false, List.find?_nil]
    split
    · rfl
    · exact and_or_and_not _ _

theorem sWrite_regsOk {g : Group} {p : Path} (d : SReg) (v : Word) (h : g.RegsOk) : (sWrite (g, p) d v).1.RegsOk := by
  unfold sWrite; split
  · exact ⟨tabWf_set _ _ h.1, h.2⟩
  · exact h

@[simp] theorem sWrite_owned (g : Group) (p : Path) (d : SReg) (v : Word) : (sWrite (g, p) d v).2.owned = p.owned := by
  unfold sWrite; split <;> rfl
@[simp] theorem sWrite_id (g : Group) (p : Path) (d : SReg) (v : Word) : (sWrite (g, p) d v).2.id = p.id := by
  unfold sWrite; split <;> rfl
@[simp] theorem sWrite_spc (g : Group) (p : Path) (d : SReg) (v : Word) : (sWrite (g, p) d v).2.spc = p.spc := by
  unfold sWrite; split <;> rfl
@[simp] theorem sWrite_paths (g : Group) (p : Path) (d : SReg) (v : Word) : (sWrite (g, p) d v).1.paths = g.paths := by
  unfold sWrite; split <;> rfl
theorem sWrite_onlyScalars (g : Group) (p : Path) (d : SReg) (v : Word) : OnlyScalars g (sWrite (g, p) d v).1 := by
  unfold sWrite; split <;> rfl
theorem sWrite_onlyPc (g : Group) (p : Path) (d : SReg) (v : Word) : OnlyPc p (sWrite (g, p) d v).2 := by
  unfold sWrite; split <;> rfl

/-- What a register reads as does not depend on the program counter or the signature of the path. -/
theorem sRead_path {g : Group} {p q : Path} (h : q.mask = p.mask) (ho : q.owned = p.owned) (r : SReg) :
    sRead g q r = sRead g p r := by
  simp [sRead, h, ho]

@[simp] theorem sigAdd_mask (s : State) (g : Group) (p : Path) (v : Unit → Word) : (sigAdd s g p v).mask = p.mask := by
  unfold sigAdd; split <;> rfl
@[simp] theorem sigAdd_owned (s : State) (g : Group) (p : Path) (v : Unit → Word) : (sigAdd s g p v).owned = p.owned := by
  unfold sigAdd; split <;> rfl
@[simp] theorem sigAdd_id (s : State) (g : Group) (p : Path) (v : Unit → Word) : (sigAdd s g p v).id = p.id := by
  unfold sigAdd; split <;> rfl
theorem sigAdd_onlyPc (s : State) (g : Group) (p : Path) (v : Unit → Word) (pc : Word) :
    OnlyPc p { sigAdd s g p v with spc := pc } := by
  unfold sigAdd; split <;> rfl
@[simp] theorem advScalar_spc (s : State) (g : Group) (p : Path) : (advScalar s g p).spc = p.spc + 4 := rfl
@[simp] theorem advScalar_id (s : State) (g : Group) (p : Path) : (advScalar s g p).id = p.id := by simp [advScalar, sigWord]
@[simp] theorem advScalar_mask (s : State) (g : Group) (p : Path) : (advScalar s g p).mask = p.mask := by
  simp [advScalar, sigWord]
@[simp] theorem advScalar_owned (s : State) (g : Group) (p : Path) : (advScalar s g p).owned = p.owned := by
  simp [advScalar, sigWord]

end Sys2Proof.Machine
end

