-- ==== Sys2Proof/Laws/Scalar.lean ====
section
/-! SUPPORT. What the shared operations of the scalar stream can do: one, two or three registers written and the next word. -/
namespace Sys2Proof.Machine

theorem afterWrites_congr {p q : Path} {old new : SReg → Word} (ho : q.owned = p.owned) (hr : ∀ r, new r = old r)
    (ws : List (SReg × Word)) (r : SReg) : afterWrites q new ws r = afterWrites p old ws r := by
  unfold afterWrites; rw [ho, hr r]

theorem sRead_adv (s : State) (g : Group) (p : Path) (r : SReg) : sRead g (advScalar s g p) r = sRead g p r :=
  sRead_path (by simp) (by simp) r

/-- Storing back a group and path in which only scalar registers and the path's counter, signature and mask differ. -/
theorem keep_frame {s : State} {g g' : Group} {p p' : Path} (h : s.At g p) (hid : p'.id = p.id) (hps : g'.paths = g.paths)
    (hg : OnlyScalars g g') (hp : OnlyPc p p') :
    (keep s g' p').At (putPath g' p') p' ∧ ScalarFrame s (keep s g' p') g (putPath g' p') p p' := by
  refine ⟨keep_at h hid hps, keep_onlyGroup _ _ _, ?_, putPath_others hid hps, hp⟩
  have : (putPath g' p') = { g' with paths := (putPath g' p').paths } := rfl
  rw [this]; simpa [OnlyScalars] using hg

theorem sRead_putPath (g : Group) (p q : Path) (r : SReg) : sRead (putPath g q) p r = sRead g p r := rfl

theorem onlyScalars_trans {a b c : Group} (h1 : OnlyScalars a b) (h2 : OnlyScalars b c) : OnlyScalars a c := by
  have e : { c with sreg := a.sreg, spoison := a.spoison, paths := a.paths } =
      { ({ c with sreg := b.sreg, spoison := b.spoison, paths := b.paths } : Group) with
        sreg := a.sreg, spoison := a.spoison, paths := a.paths } := rfl
  rw [OnlyScalars, e, h2]; exact h1
theorem onlyPc_trans {a b c : Path} (h1 : OnlyPc a b) (h2 : OnlyPc b c) : OnlyPc a c := by
  have e : { c with spc := a.spc, sig := a.sig, mask := a.mask } =
      { ({ c with spc := b.spc, sig := b.sig, mask := b.mask } : Path) with spc := a.spc, sig := a.sig, mask := a.mask } := rfl
  rw [OnlyPc, e, h2]; exact h1

/-- Writes in order. -/
def writeAll (gp : Group × Path) (ws : List (SReg × Word)) : Group × Path := ws.foldl (fun x w => sWrite x w.1 w.2) gp

theorem writeAll_keeps (ws : List (SReg × Word)) (g : Group) (p : Path) (hr : g.RegsOk) :
    (writeAll (g, p) ws).1.RegsOk ∧ (writeAll (g, p) ws).1.paths = g.paths ∧ (writeAll (g, p) ws).2.id = p.id ∧
      (writeAll (g, p) ws).2.owned = p.owned ∧ (writeAll (g, p) ws).2.spc = p.spc ∧
      OnlyScalars g (writeAll (g, p) ws).1 ∧ OnlyPc p (writeAll (g, p) ws).2 := by
  induction ws generalizing g p with
  | nil => exact ⟨hr, rfl, rfl, rfl, rfl, rfl, rfl⟩
  | cons w ws ih =>
    obtain ⟨h1, h2, h3, h4, h5, h6, h7⟩ := ih (sWrite (g, p) w.1 w.2).1 (sWrite (g, p) w.1 w.2).2 (sWrite_regsOk _ _ hr)
    have e : writeAll (g, p) (w :: ws) = writeAll ((sWrite (g, p) w.1 w.2).1, (sWrite (g, p) w.1 w.2).2) ws := rfl
    rw [e]
    refine ⟨h1, by simp [h2], by simp [h3], by simp [h4], by simp [h5], ?_, ?_⟩
    · exact onlyScalars_trans (sWrite_onlyScalars g p w.1 w.2) h6
    · exact onlyPc_trans (sWrite_onlyPc g p w.1 w.2) h7

/-- Registers that a list of writes names, each once. -/
abbrev Distinct (ws : List (SReg × Word)) : Prop := (ws.map (fun w => w.1)).Nodup

theorem sRead_writeAll (ws : List (SReg × Word)) (g : Group) (p : Path) (hr : g.RegsOk) (hd : Distinct ws) (r : SReg) :
    sRead (writeAll (g, p) ws).1 (writeAll (g, p) ws).2 r = afterWrites p (sRead g p) ws r := by
  induction ws generalizing g p with
  | nil => simp [writeAll, afterWrites]
  | cons w ws ih =>
    obtain ⟨d, v⟩ := w
    have hd' : Distinct ws := (List.nodup_cons.mp hd).2
    have hn : ∀ x ∈ ws, x.1 ≠ d := fun x hx e => (List.nodup_cons.mp hd).1 (by
      simpa [← e] using List.mem_map_of_mem (f := fun w : SReg × Word => w.1) hx)
    have e : writeAll (g, p) ((d, v) :: ws) = writeAll ((sWrite (g, p) d v).1, (sWrite (g, p) d v).2) ws := rfl
    rw [e, ih _ _ (sWrite_regsOk _ _ hr) hd']
    by_cases hrd : d = r
    · subst hrd
      have hf : ws.find? (fun x => x.1 = d) = none := by
        simp only [List.find?_eq_none, decide_eq_true_eq]; exact hn
      have h1 := sRead_sWrite_after d d v hr.1 (p := p)
      simp only [afterWrites, hf, List.find?_cons, decide_true] at h1 ⊢
      exact h1
    · have h1 := sRead_sWrite_after d r v hr.1 (p := p)
      simp only [afterWrites, List.find?_cons, hrd, decide_false, List.find?_nil] at h1 ⊢
      simp only [sWrite_owned, h1]

/-- The result of the writes `ws` by a scalar instruction that goes on to the next word. -/
theorem computes_of_writes {s : State} {g : Group} {p : Path} (ws : List (SReg × Word)) (h : s.At g p) (hr : g.RegsOk)
    (hd : Distinct ws) :
    ComputesTo s g p (.next (keep s (writeAll (g, advScalar s g p) ws).1 (writeAll (g, advScalar s g p) ws).2)) ws := by
  obtain ⟨h1, h2, h3, h4, h5, h6, h7⟩ := writeAll_keeps ws g (advScalar s g p) hr
  have hpc : OnlyPc p (writeAll (g, advScalar s g p) ws).2 := by
    have ha : OnlyPc p (advScalar s g p) := sigAdd_onlyPc s g p (fun _ => crcOf 4 (s.ir.extractLsb' 0 32).toNat) (p.spc + 4)
    exact onlyPc_trans ha h7
  have hk := keep_frame h (h3.trans (by simp)) h2 h6 hpc
  refine ⟨_, putPath (writeAll (g, advScalar s g p) ws).1 (writeAll (g, advScalar s g p) ws).2,
    (writeAll (g, advScalar s g p) ws).2, rfl, hk.1, h1, ?_, by simp [NextWord, h5], hk.2⟩
  intro x
  rw [sRead_putPath, sRead_writeAll ws _ _ hr hd]
  exact afterWrites_congr (by simp) (sRead_adv s g p) _ _

theorem putScalar_spec {s : State} {g : Group} {p : Path} (d : SReg) (f : Group → Path → Word) (h : s.At g p)
    (hr : g.RegsOk) : ComputesTo s g p (putScalar s d f) [(d, f g p)] := by
  unfold putScalar; rw [onPath_at _ h]
  exact computes_of_writes [(d, f g p)] h hr (by simp [Distinct])

theorem putPair_spec {s : State} {g : Group} {p : Path} (d : SReg) (f : Group → Path → Dword) (h : s.At g p)
    (hr : g.RegsOk) : ComputesTo s g p (putPair s d f) (refPair d (f g p)) := by
  unfold putPair; rw [onPath_at _ h]
  refine computes_of_writes (refPair d (f g p)) h hr ?_
  simp only [Distinct, refPair, List.map, List.nodup_cons, List.mem_singleton, List.not_mem_nil, not_false_eq_true,
    List.nodup_nil, and_true]
  bv_omega

theorem putTriple_spec {s : State} {g : Group} {p : Path} (d : SReg) (f : Group → Path → Mask) (h : s.At g p)
    (hr : g.RegsOk) : ComputesTo s g p (putTriple s d f) (refTriple d (f g p)) := by
  unfold putTriple; rw [onPath_at _ h]
  refine computes_of_writes (refTriple d (f g p)) h hr ?_
  simp only [Distinct, refTriple, List.map, List.nodup_cons, List.mem_cons, List.not_mem_nil, not_false_eq_true,
    List.nodup_nil, and_true, or_false, not_or]
  refine ⟨⟨?_, ?_⟩, ?_⟩ <;> bv_omega

/-! ### The counter and the signature -/

theorem sigAdd_apart (s : State) (g : Group) (p : Path) (v : Unit → Word) (x : Word) :
    { sigAdd s g p v with sig := x } = { p with sig := x } := by
  unfold sigAdd; split <;> rfl
theorem advScalar_apart (s : State) (g : Group) (p : Path) (x : Word) :
    { advScalar s g p with sig := x } = { p with spc := p.spc + 4, sig := x } := by
  unfold advScalar sigWord sigAdd; split <;> rfl
theorem jumpScalar_apart (s : State) (g : Group) (p : Path) (t x : Word) :
    { jumpScalar s g p t with sig := x } = { p with spc := t, sig := x } := by
  unfold jumpScalar sigWord sigAdd; split <;> rfl
@[simp] theorem jumpScalar_id (s : State) (g : Group) (p : Path) (t : Word) : (jumpScalar s g p t).id = p.id := by
  simp [jumpScalar, sigWord]
@[simp] theorem jumpScalar_spc (s : State) (g : Group) (p : Path) (t : Word) : (jumpScalar s g p t).spc = t := rfl
@[simp] theorem jumpScalar_mask (s : State) (g : Group) (p : Path) (t : Word) : (jumpScalar s g p t).mask = p.mask := by
  simp [jumpScalar, sigWord]

/-- Storing back a changed group and path is what `GoesTo` says. -/
theorem goes_of_keep {s : State} {g G : Group} {p P q : Path} (h : s.At g p) (hid : q.id = p.id) (hG : G.paths = g.paths)
    (hq : { q with sig := P.sig } = P) : GoesTo s g p (.next (keep s G q)) G P :=
  ⟨keep s G q, putPath G q, q, rfl, keep_at h hid hG, rfl, hq, putPath_others hid hG, keep_onlyGroup _ _ _⟩

theorem goes_next {s : State} {g G : Group} {p : Path} (h : s.At g p) (hG : G.paths = g.paths) :
    GoesTo s g p (.next (keep s G (advScalar s g p))) G { p with spc := p.spc + 4 } :=
  goes_of_keep h (by simp) hG (advScalar_apart s g p p.sig)

end Sys2Proof.Machine
end

