-- ==== Sys2Proof/Laws/Lane.lean ====
section
/-! SUPPORT. What the frame of the fixed-latency lane instructions can do: results in flight and when they are read. -/
namespace Sys2Proof.Machine

/-! ### Reading results in flight -/

/-- One step of `vRead` over a pending result. -/
def vSee (c key : Nat) (r : Word × Bool) (e : Pend) : Word × Bool :=
  match e.dst with
  | .vec k v => if k = key ∧ e.at_ ≤ c then (v, e.poison) else r
  | _ => r
/-- One step of `pRead`. -/
def pSee (c n l : Nat) (r : Bool) (e : Pend) : Bool :=
  match e.dst with
  | .pred k m v => if k = n ∧ m = l ∧ e.at_ ≤ c then v else r
  | _ => r

theorem vRead_eq (g : Group) (c key : Nat) :
    vRead g c key = g.pend.foldl (vSee c key) (tabGet 0 g.vreg key, decide (key ∈ g.vpoison)) := rfl

theorem foldl_skip {α β : Type} (f : β → α → β) (q : α → Bool) (l : List α) (b : β)
    (h : ∀ x ∈ l, q x = false → ∀ b, f b x = b) : (l.filter q).foldl f b = l.foldl f b := by
  induction l generalizing b with
  | nil => rfl
  | cons x l ih =>
    have ih' := fun b => ih b (fun y hy => h y (List.mem_cons_of_mem _ hy))
    cases hq : q x with
    | true => rw [List.filter_cons_of_pos hq, List.foldl_cons, List.foldl_cons, ih']
    | false => rw [List.filter_cons_of_neg (by simp [hq]), List.foldl_cons, h x List.mem_cons_self hq, ih']

theorem vSee_vec (c key k t : Nat) (v : Word) (b : Bool) (r : Word × Bool) :
    vSee c key r { at_ := t, dst := .vec k v, poison := b } = if k = key ∧ t ≤ c then (v, b) else r := rfl

/-- The one law of results in flight (R108, R109): a new word is what a read of its place sees from its clock on; every other read
is as before. -/
theorem vRead_addPend (g : Group) (e : Pend) (c key : Nat) :
    vRead (addPend g e) c key = vSee c key (vRead g c key) e := by
  simp only [vRead_eq, addPend, List.foldl_append, List.foldl_cons, List.foldl_nil]
  by_cases hs : ∃ k v, e.dst = .vec k v ∧ k = key ∧ e.at_ ≤ c
  · obtain ⟨k, v, h1, h2, h3⟩ := hs
    simp [vSee, h1, h2, h3]
  · congr 1
    refine foldl_skip _ _ _ _ (fun x _ hx b => ?_)
    cases hd : x.dst with
    | vec k v =>
      cases he : e.dst with
      | vec k' v' =>
        have hx' : k = k' ∧ e.at_ ≤ x.at_ := by simpa [sameDst, hd, he] using hx
        have : ¬(k = key ∧ x.at_ ≤ c) := fun hh => hs ⟨k', v', he, hx'.1 ▸ hh.1, hx'.2.trans hh.2⟩
        simp [vSee, hd, this]
      | pred => simp [sameDst, hd, he] at hx
      | scal => simp [sameDst, hd, he] at hx
    | pred => simp [vSee, hd]
    | scal => simp [vSee, hd]

theorem pRead_eq {n : Nat} (hn : n ≠ 0) (g : Group) (c l : Nat) :
    pRead g c n l = g.pend.foldl (pSee c n l) ((tabGet 0 g.pred n).getLsbD l) := by simp [pRead, hn]; rfl

/-- The same law for predicates. -/
theorem pRead_addPend (g : Group) (e : Pend) (c n l : Nat) :
    pRead (addPend g e) c n l = if n = 0 then true else pSee c n l (pRead g c n l) e := by
  by_cases hn : n = 0
  · simp [pRead, hn]
  · simp only [pRead_eq hn, addPend, List.foldl_append, List.foldl_cons, List.foldl_nil, hn, if_false]
    by_cases hs : ∃ v, e.dst = .pred n l v ∧ e.at_ ≤ c
    · obtain ⟨v, h1, h3⟩ := hs
      simp [pSee, h1, h3]
    · congr 1
      refine foldl_skip _ _ _ _ (fun x _ hx b => ?_)
      cases hd : x.dst with
      | pred k m v =>
        cases he : e.dst with
        | pred k' m' v' =>
          have hx' : (k = k' ∧ m = m') ∧ e.at_ ≤ x.at_ := by simpa [sameDst, hd, he] using hx
          have : ¬(k = n ∧ m = l ∧ x.at_ ≤ c) := fun hh =>
            hs ⟨v', by rw [he, ← hx'.1.1, ← hx'.1.2, hh.1, hh.2.1], hx'.2.trans hh.2.2⟩
          simp [pSee, hd, this]
        | vec => simp [sameDst, hd, he] at hx
        | scal => simp [sameDst, hd, he] at hx
      | vec => simp [pSee, hd]
      | scal => simp [pSee, hd]

/-! ### The outputs of lanes -/

/-- A result of a lane. -/
abbrev outPend (cls t l : Nat) (d : PendDst × Bool) : Pend := { at_ := t + l / 32 + latOf cls, dst := d.1, poison := d.2 }

theorem addOut_eq (cls t l : Nat) (g : Group) (o : LaneOut) :
    addOut cls t l g o = dueSticky ((o.dst.map (outPend cls t l)).foldl addPend g) (t + l / 32 + latOf cls) o.fl := by
  simp only [addOut, List.foldl_map]

@[simp] theorem vRead_dueSticky (g : Group) (a : Nat) (f : Byte) (c key : Nat) : vRead (dueSticky g a f) c key = vRead g c key := rfl
@[simp] theorem pRead_dueSticky (g : Group) (a : Nat) (f : Byte) (c n l : Nat) : pRead (dueSticky g a f) c n l = pRead g c n l := rfl
/-- Flags due at a clock are seen from that clock on (R182). -/
theorem stickyAt_dueSticky (g : Group) (a : Nat) (f : Byte) (c i : Nat) :
    (stickyAt (dueSticky g a f) c).getLsbD i = true ↔ (stickyAt g c).getLsbD i = true ∨ (a ≤ c ∧ f.getLsbD i = true) := by
  unfold stickyAt dueSticky
  by_cases hf : f = 0
  · subst hf; simp
  · simp only [hf, if_false, List.foldl_append, List.foldl_cons, List.foldl_nil]
    split <;> simp_all

theorem vRead_addPends (es : List Pend) (g : Group) (c key : Nat) :
    vRead (es.foldl addPend g) c key = es.foldl (vSee c key) (vRead g c key) := by
  induction es generalizing g with
  | nil => rfl
  | cons e es ih => simp only [List.foldl_cons, ih, vRead_addPend]

theorem pRead_zero (g : Group) (c l : Nat) : pRead g c 0 l = true := by simp [pRead]

theorem pRead_addPends (es : List Pend) (g : Group) (c n l : Nat) (hn : n ≠ 0) :
    pRead (es.foldl addPend g) c n l = es.foldl (pSee c n l) (pRead g c n l) := by
  induction es generalizing g with
  | nil => rfl
  | cons e es ih => simp only [List.foldl_cons, ih, pRead_addPend, hn, if_false]

/-- All results of a list of lanes, in order. -/
def outPends (cls t : Nat) (f : Nat → LaneOut) (ls : List Nat) : List Pend :=
  ls.flatMap (fun l => (f l).dst.map (outPend cls t l))

theorem vRead_outs (cls t : Nat) (f : Nat → LaneOut) (ls : List Nat) (g : Group) (c key : Nat) :
    vRead (ls.foldl (fun a l => addOut cls t l a (f l)) g) c key =
      (outPends cls t f ls).foldl (vSee c key) (vRead g c key) := by
  induction ls generalizing g with
  | nil => rfl
  | cons l ls ih =>
    rw [List.foldl_cons, ih, addOut_eq, vRead_dueSticky, vRead_addPends]
    simp only [outPends, List.flatMap_cons, List.foldl_append]

theorem pRead_outs (cls t : Nat) (f : Nat → LaneOut) (ls : List Nat) (g : Group) (c n l : Nat) (hn : n ≠ 0) :
    pRead (ls.foldl (fun a l => addOut cls t l a (f l)) g) c n l =
      (outPends cls t f ls).foldl (pSee c n l) (pRead g c n l) := by
  induction ls generalizing g with
  | nil => rfl
  | cons x ls ih =>
    rw [List.foldl_cons, ih, addOut_eq, pRead_dueSticky, pRead_addPends _ _ _ _ _ hn]
    simp only [outPends, List.flatMap_cons, List.foldl_append]

theorem sticky_addPends (es : List Pend) (g : Group) (c : Nat) : stickyAt (es.foldl addPend g) c = stickyAt g c := by
  induction es generalizing g with
  | nil => rfl
  | cons e es ih => rw [List.foldl_cons, ih]; rfl

theorem sticky_outs (cls t : Nat) (f : Nat → LaneOut) (ls : List Nat) (g : Group) (c i : Nat) :
    (stickyAt (ls.foldl (fun a l => addOut cls t l a (f l)) g) c).getLsbD i = true ↔
      (stickyAt g c).getLsbD i = true ∨ ∃ l ∈ ls, t + l / 32 + latOf cls ≤ c ∧ (f l).fl.getLsbD i = true := by
  induction ls generalizing g with
  | nil => simp
  | cons l ls ih =>
    rw [List.foldl_cons, ih, addOut_eq, stickyAt_dueSticky, sticky_addPends]
    simp only [List.mem_cons, exists_eq_or_imp, or_assoc]

theorem addPends_rec (es : List Pend) (g : Group) : { es.foldl addPend g with pend := g.pend } = g := by
  induction es generalizing g with
  | nil => rfl
  | cons e es ih =>
    exact congrArg (fun x : Group => { x with pend := g.pend }) (ih (addPend g e))

theorem addOuts_rec (cls t : Nat) (f : Nat → LaneOut) (ls : List Nat) (g : Group) :
    { ls.foldl (fun a l => addOut cls t l a (f l)) g with pend := g.pend, fpDue := g.fpDue } = g := by
  induction ls generalizing g with
  | nil => rfl
  | cons l ls ih =>
    have h1 := congrArg (fun x : Group => { x with pend := g.pend, fpDue := g.fpDue }) (ih (addOut cls t l g (f l)))
    have h2 := congrArg (fun x : Group => { x with fpDue := g.fpDue }) (addPends_rec ((f l).dst.map (outPend cls t l)) g)
    simp only [addOut_eq, dueSticky] at h1 ⊢
    exact h1.trans h2

theorem noteWrite_rec (g : Group) (v n : Nat) : { noteWrite g v n with garnet := g.garnet } = g := by
  unfold noteWrite; split <;> rfl
theorem noteWrite_garnet (g : Group) (v n : Nat) :
    (noteWrite g v n).garnet.map (fun i => { i with written := 0 }) = g.garnet.map (fun i => { i with written := 0 }) := by
  unfold noteWrite; split
  · rename_i i h; simp [h]
  · rfl

theorem noteWrites_rec (vs : List Nat) (g : Group) :
    { vs.foldl (fun g v => noteWrite g v 1) g with garnet := g.garnet } = g ∧
      (vs.foldl (fun g v => noteWrite g v 1) g).garnet.map (fun i => { i with written := 0 }) =
        g.garnet.map (fun i => { i with written := 0 }) := by
  induction vs generalizing g with
  | nil => exact ⟨rfl, rfl⟩
  | cons v vs ih =>
    obtain ⟨h1, h2⟩ := ih (noteWrite g v 1)
    have h3 := congrArg (fun x : Group => { x with garnet := g.garnet }) h1
    exact ⟨h3.trans (noteWrite_rec g v 1), h2.trans (noteWrite_garnet g v 1)⟩

/-! ### The frame -/

theorem actingLanes_mem {s : State} {g : Group} {p : Path} {h : LaneHdr} {l : Nat} :
    l ∈ actingLanes g p h s.clock ↔ ActsIn s g p h l := by
  simp only [actingLanes, acts, activeMask, List.mem_filter, List.mem_range, Bool.and_eq_true, BitVec.getLsbD_and,
    BitVec.getLsbD_not, bne_iff_ne, ne_eq, decide_eq_true_eq, Bool.not_eq_eq_eq_not, Bool.not_true, ActsIn]
  constructor
  · rintro ⟨h1, ⟨⟨h2, ho⟩, -, h3⟩, h4⟩; exact ⟨h1, h2, ho, h3, h4⟩
  · rintro ⟨h1, h2, ho, h3, h4⟩; exact ⟨h1, ⟨⟨h2, ho⟩, h1, h3⟩, h4⟩

theorem actingLanes_nodup (g : Group) (p : Path) (h : LaneHdr) (t : Nat) : (actingLanes g p h t).Nodup :=
  List.nodup_range.filter _

theorem advLane_past {s : State} {g : Group} {p : Path} {h : LaneHdr} : PastLane s h p (advLane s g p h s.clock) := by
  unfold PastLane advLane sigAdd
  split <;> simp

@[simp] theorem advLane_id (s : State) (g : Group) (p : Path) (h : LaneHdr) (t : Nat) : (advLane s g p h t).id = p.id := by
  unfold advLane sigAdd; split <;> rfl

theorem vRead_clean {g : Group} (h : g.Clean) (c key : Nat) : (vRead g c key).2 = false := by
  obtain ⟨h1, h2⟩ := h
  rw [vRead_eq, h1]
  have : ∀ (es : List Pend) (r : Word × Bool), (∀ e ∈ es, e.poison = false) → r.2 = false →
      (es.foldl (vSee c key) r).2 = false := by
    intro es
    induction es with
    | nil => exact fun r _ hr => hr
    | cons e es ih =>
      intro r he hr
      refine ih _ (fun x hx => he x (List.mem_cons_of_mem _ hx)) ?_
      unfold vSee; split
      · split
        · exact he e List.mem_cons_self
        · exact hr
      · exact hr
  exact this _ _ h2 (by simp)

theorem readsBad_clean {g : Group} (h : g.Clean) (t : Nat) (srcs : List Nat) (l : Nat) : readsBad g t srcs l = false := by
  simp [readsBad, vBad, vRead_clean h]

/-- What a place reads after the results of several lanes: the last that has come. -/
theorem vSee_foldl_none {es : List Pend} {c key : Nat} (r : Word × Bool)
    (h : ∀ e ∈ es, ∀ k v, e.dst = .vec k v → ¬(k = key ∧ e.at_ ≤ c)) : es.foldl (vSee c key) r = r := by
  induction es generalizing r with
  | nil => rfl
  | cons e es ih =>
    have he : vSee c key r e = r := by
      unfold vSee; split
      · rename_i k v hd; simp [h e List.mem_cons_self k v hd]
      · rfl
    rw [List.foldl_cons, he]; exact ih r (fun x hx => h x (List.mem_cons_of_mem _ hx))
theorem pSee_foldl_none {es : List Pend} {c n l : Nat} (r : Bool)
    (h : ∀ e ∈ es, ∀ k m v, e.dst = .pred k m v → ¬(k = n ∧ m = l ∧ e.at_ ≤ c)) : es.foldl (pSee c n l) r = r := by
  induction es generalizing r with
  | nil => rfl
  | cons e es ih =>
    have he : pSee c n l r e = r := by
      unfold pSee; split
      · rename_i k m v hd; simp [h e List.mem_cons_self k m v hd]
      · rfl
    rw [List.foldl_cons, he]; exact ih r (fun x hx => h x (List.mem_cons_of_mem _ hx))

/-- Where exactly one of the results has come to a place, it is what is read. -/
theorem vSee_foldl_one {es : List Pend} {c key : Nat} {w : Word × Bool} (r : Word × Bool)
    (h1 : ∃ e ∈ es, ∃ v, e.dst = .vec key v ∧ e.at_ ≤ c)
    (h2 : ∀ e ∈ es, ∀ v, e.dst = .vec key v → e.at_ ≤ c → (v, e.poison) = w) : es.foldl (vSee c key) r = w := by
  induction es generalizing r with
  | nil => simp at h1
  | cons e es ih =>
    rw [List.foldl_cons]
    by_cases h : ∃ e ∈ es, ∃ v, e.dst = .vec key v ∧ e.at_ ≤ c
    · exact ih _ h (fun x hx => h2 x (List.mem_cons_of_mem _ hx))
    · rw [vSee_foldl_none]
      · obtain ⟨x, hx, v, hv, hc⟩ := h1
        rcases List.mem_cons.mp hx with rfl | hx
        · rw [← h2 _ List.mem_cons_self v hv hc]; simp [vSee, hv, hc]
        · exact absurd ⟨x, hx, v, hv, hc⟩ h
      · intro x hx k v hd hk
        exact h ⟨x, hx, v, by rw [hd, hk.1], hk.2⟩
theorem pSee_foldl_one {es : List Pend} {c n l : Nat} {w : Bool} (r : Bool)
    (h1 : ∃ e ∈ es, ∃ v, e.dst = .pred n l v ∧ e.at_ ≤ c)
    (h2 : ∀ e ∈ es, ∀ v, e.dst = .pred n l v → e.at_ ≤ c → v = w) : es.foldl (pSee c n l) r = w := by
  induction es generalizing r with
  | nil => simp at h1
  | cons e es ih =>
    rw [List.foldl_cons]
    by_cases h : ∃ e ∈ es, ∃ v, e.dst = .pred n l v ∧ e.at_ ≤ c
    · exact ih _ h (fun x hx => h2 x (List.mem_cons_of_mem _ hx))
    · rw [pSee_foldl_none]
      · obtain ⟨x, hx, v, hv, hc⟩ := h1
        rcases List.mem_cons.mp hx with rfl | hx
        · rw [← h2 _ List.mem_cons_self v hv hc]; simp [pSee, hv, hc]
        · exact absurd ⟨x, hx, v, hv, hc⟩ h
      · intro x hx k m v hd hk
        exact h ⟨x, hx, v, by rw [hd, hk.1, hk.2.1], hk.2.2⟩

theorem vRead_fields {g g' : Group} (h1 : g'.pend = g.pend) (h2 : g'.vreg = g.vreg) (h3 : g'.vpoison = g.vpoison) (c key : Nat) :
    vRead g' c key = vRead g c key := by rw [vRead_eq, vRead_eq, h1, h2, h3]
theorem pRead_fields {g g' : Group} (h1 : g'.pend = g.pend) (h2 : g'.pred = g.pred) (c n l : Nat) :
    pRead g' c n l = pRead g c n l := by unfold pRead; rw [h1, h2]

@[simp] theorem vRead_putPath (g : Group) (p : Path) (c key : Nat) : vRead (putPath g p) c key = vRead g c key := rfl
@[simp] theorem pRead_putPath (g : Group) (p : Path) (c n l : Nat) : pRead (putPath g p) c n l = pRead g c n l := rfl

/-- All that the frame of the fixed-latency instructions can do where no lane meets a poisoned word: `f` gives what each acting lane
writes; its vector words lie in `vs` and its bits in `ps`. -/
theorem frameLane_spec {s : State} {g : Group} {p : Path} {h : LaneHdr} {cls : Nat} {bad : Group → Nat → Bool} {vs ps : List Nat}
    {f : Group → Path → List Nat → Nat → LaneOut} {fl : Nat → Byte} {val : Group → Prop} (hat : s.At g p)
    (hbad : ∀ l, bad g l = false)
    (hvec : ∀ l, ActsIn s g p h l → ∀ d ∈ (f g p (actingLanes g p h s.clock) l).dst, ∀ k v, d.1 = .vec k v →
      ∃ x ∈ vs, k = vKey x l)
    (hpred : ∀ l, ActsIn s g p h l → ∀ d ∈ (f g p (actingLanes g p h s.clock) l).dst, ∀ k m v, d.1 = .pred k m v →
      k ∈ ps ∧ m = l)
    (hfl : ∀ l, ActsIn s g p h l → (f g p (actingLanes g p h s.clock) l).fl = fl l)
    (hval : ∀ g', (∀ c key, vRead g' c key =
        (outPends cls s.clock (f g p (actingLanes g p h s.clock)) (actingLanes g p h s.clock)).foldl (vSee c key) (vRead g c key)) →
      (∀ c n l, n ≠ 0 → pRead g' c n l =
        (outPends cls s.clock (f g p (actingLanes g p h s.clock)) (actingLanes g p h s.clock)).foldl (pSee c n l) (pRead g c n l)) →
      val g') :
    LaneGoes s g p h (frameLane s h cls bad vs f) (latOf cls) vs ps fl val := by
  have hf1 : (actingLanes g p h s.clock).filter (bad g) = [] := by simp [List.filter_eq_nil_iff, hbad]
  have hf2 : (actingLanes g p h s.clock).filter (fun l => !bad g l) = actingLanes g p h s.clock := by
    simp [List.filter_eq_self, hbad]
  unfold frameLane
  rw [onPath_at _ hat]
  simp only [hf1, hf2, killActing, List.isEmpty_nil, if_true]
  generalize hL : actingLanes g p h s.clock = L at *
  generalize hF : f g p L = F at *
  set g0 := if L.isEmpty = true then g else vs.foldl (fun g v => noteWrite g v 1) g with hg0
  have h0 : { g0 with garnet := g.garnet } = g ∧
      g0.garnet.map (fun i => { i with written := 0 }) = g.garnet.map (fun i => { i with written := 0 }) := by
    rw [hg0]; split
    · exact ⟨rfl, rfl⟩
    · exact noteWrites_rec vs g
  set g1 := L.foldl (fun a l => addOut cls s.clock l a (F l)) g0 with hg1
  have h1 := addOuts_rec cls s.clock F L g0
  rw [← hg1] at h1
  have hpaths : g1.paths = g.paths := by
    have e1 := congrArg Group.paths h1
    have e0 := congrArg Group.paths h0.1
    exact e1.trans e0
  have hpe : g0.pend = g.pend := by have e := congrArg Group.pend h0.1; exact e
  have hvr : g0.vreg = g.vreg := by have e := congrArg Group.vreg h0.1; exact e
  have hvp : g0.vpoison = g.vpoison := by have e := congrArg Group.vpoison h0.1; exact e
  have hpr : g0.pred = g.pred := by have e := congrArg Group.pred h0.1; exact e
  have hv0 : ∀ c key, vRead g0 c key = vRead g c key := fun c key =>
    vRead_fields hpe hvr hvp c key
  have hp0 : ∀ c n l, pRead g0 c n l = pRead g c n l := fun c n l =>
    pRead_fields hpe hpr c n l
  have hmem : ∀ l, l ∈ L ↔ ActsIn s g p h l := fun l => by rw [← hL]; exact actingLanes_mem
  have hv : ∀ c key, vRead (putPath g1 (advLane s g p h s.clock)) c key =
      (outPends cls s.clock F L).foldl (vSee c key) (vRead g c key) := fun c key => by
    rw [vRead_putPath, hg1, vRead_outs, hv0]
  have hp : ∀ c n l, n ≠ 0 → pRead (putPath g1 (advLane s g p h s.clock)) c n l =
      (outPends cls s.clock F L).foldl (pSee c n l) (pRead g c n l) := fun c n l hn => by
    rw [pRead_putPath, hg1, pRead_outs _ _ _ _ _ _ _ _ hn, hp0]
  refine ⟨_, putPath g1 (advLane s g p h s.clock), advLane s g p h s.clock, rfl, keep_at hat (by simp) hpaths,
    keep_onlyGroup _ _ _, putPath_others (by simp) hpaths, advLane_past, ⟨?_, ?_⟩, ?_, ?_, ?_, hval _ hv hp⟩
  · have e1 := congrArg (fun x : Group => { x with pend := g.pend, fpDue := g.fpDue, garnet := g.garnet, paths := g.paths }) h1
    have e0 := congrArg (fun x : Group => { x with pend := g.pend, fpDue := g.fpDue, paths := g.paths }) h0.1
    exact e1.trans e0
  · exact (congrArg (fun x : Group => x.garnet.map (fun i => { i with written := 0 })) h1).trans h0.2
  · intro c v l hl hn
    rw [hv]
    refine vSee_foldl_none _ (fun e he k w hd hk => hn ?_)
    simp only [outPends, List.mem_flatMap, List.mem_map] at he
    obtain ⟨m, hm, d, hd', rfl⟩ := he
    obtain ⟨x, hx, hkx⟩ := hvec m ((hmem m).mp hm) d hd' k w hd
    have hml : m < 96 := ((hmem m).mp hm).1
    have : x = v ∧ m = l := by
      have : vKey x m = vKey v l := hkx ▸ hk.1
      unfold vKey at this; omega
    exact ⟨this.1 ▸ hx, this.2 ▸ (hmem m).mp hm, this.2 ▸ hk.2⟩
  · intro c n l hn
    by_cases hz : n = 0
    · subst hz; rw [pRead_zero, pRead_zero]
    · rw [hp _ _ _ hz]
      refine pSee_foldl_none _ (fun e he k m w hd hk => hn ?_)
      simp only [outPends, List.mem_flatMap, List.mem_map] at he
      obtain ⟨m', hm, d, hd', rfl⟩ := he
      obtain ⟨hx, hkx⟩ := hpred m' ((hmem m').mp hm) d hd' k m w hd
      have : m' = l := hkx ▸ hk.2.1
      exact ⟨hk.1 ▸ hx, this ▸ (hmem m').mp hm, this ▸ hk.2.2⟩
  · intro c i
    have e0 : stickyAt g0 c = stickyAt g c := by
      have e := congrArg (fun x => stickyAt x c) h0.1; exact e
    have e1 : stickyAt (putPath g1 (advLane s g p h s.clock)) c = stickyAt g1 c := rfl
    rw [e1, hg1, sticky_outs, e0]
    constructor
    · rintro (hl | ⟨l, hl, hc, hb⟩)
      · exact .inl hl
      · exact .inr ⟨l, (hmem l).mp hl, hc, by rw [← hfl l ((hmem l).mp hl)]; exact hb⟩
    · rintro (hl | ⟨l, hl, hc, hb⟩)
      · exact .inl hl
      · exact .inr ⟨l, (hmem l).mpr hl, hc, by rw [hfl l hl]; exact hb⟩

end Sys2Proof.Machine
end

