-- ==== Sys2Proof/Laws/LaneInt.lean ====
section
/-! SUPPORT. Elements of integer operands, `Fit`, and what the shared forms of the integer lane instructions can do. -/
namespace Sys2Proof.Machine

/-! ### Elements -/

theorem elN_elW (t : IntTy) : elN t * elW t = 32 * t.span := by cases t <;> rfl

/-- The sum of `n` digits of `w` bits. -/
def digits (w : Nat) (f : Nat → Nat) (n : Nat) : Nat :=
  (List.range n).foldl (fun a e => a + f e % 2 ^ w * 2 ^ (w * e)) 0
theorem digits_succ (w : Nat) (f : Nat → Nat) (n : Nat) :
    digits w f (n + 1) = digits w f n + f n % 2 ^ w * 2 ^ (w * n) := by
  simp [digits, List.range_succ]
theorem digits_lt (w : Nat) (f : Nat → Nat) (n : Nat) : digits w f n < 2 ^ (w * n) := by
  induction n with
  | zero => simp [digits]
  | succ n ih =>
    have h := Nat.mod_lt (f n) (show 0 < 2 ^ w by positivity)
    rw [digits_succ, Nat.mul_succ, Nat.pow_add]
    have h2 := Nat.mul_le_mul_right (2 ^ (w * n)) (Nat.succ_le_of_lt h)
    rw [Nat.succ_mul, Nat.mul_comm (2 ^ w)] at h2
    omega
theorem digits_get (w : Nat) (f : Nat → Nat) (n e : Nat) (he : e < n) : digits w f n / 2 ^ (w * e) % 2 ^ w = f e % 2 ^ w := by
  induction n with
  | zero => omega
  | succ n ih =>
    rw [digits_succ]
    rcases Nat.lt_succ_iff_lt_or_eq.mp he with h | rfl
    · obtain ⟨k, hk⟩ : ∃ k, w * n = w * e + (w + k) := ⟨w * (n - e - 1), by
        obtain ⟨d, rfl⟩ := Nat.exists_eq_add_of_lt h
        simp only [Nat.add_sub_cancel_left, Nat.add_sub_cancel, show e + d + 1 - e - 1 = d by omega]; ring⟩
      have e1 : f n % 2 ^ w * 2 ^ (w * n) = 2 ^ (w * e) * (2 ^ w * (f n % 2 ^ w * 2 ^ k)) := by
        rw [hk, Nat.pow_add, Nat.pow_add]; ring
      rw [e1, Nat.add_mul_div_left _ _ (by positivity), Nat.add_mul_mod_self_left]
      exact ih h
    · rw [Nat.mul_comm (f e % 2 ^ w), Nat.add_mul_div_left _ _ (by positivity), Nat.div_eq_of_lt (digits_lt w f e)]
      simp

theorem byElem_eq (t : IntTy) (f : Nat → Nat) : byElem t f = digits (elW t) f (elN t) := rfl
theorem byElem_lt (t : IntTy) (f : Nat → Nat) : byElem t f < 2 ^ (32 * t.span) := by
  rw [byElem_eq, ← elN_elW, Nat.mul_comm]; exact digits_lt _ _ _
theorem elemOf_byElem (t : IntTy) (f : Nat → Nat) {e : Nat} (he : e < elN t) :
    elemOf t (byElem t f) e = f e % 2 ^ elW t := by
  rw [byElem_eq]; exact digits_get _ _ _ _ he

theorem elemOf_lt (t : IntTy) (x e : Nat) : elemOf t x e < 2 ^ elW t := Nat.mod_lt _ (by positivity)

/-! ### Results of a type -/

theorem vKey_ne (v l : Nat) : vKey (v + 1) l ≠ vKey v l := by unfold vKey; omega

/-- A lane instruction whose lanes each write one operand of a type: the operand reads back from its clock on. -/
theorem putVec_spec {s : State} {g : Group} {p : Path} {h : LaneHdr} {cls : Nat} {bad : Group → Nat → Bool} {vd : VReg} {t : IntTy}
    {f : Group → Path → List Nat → Nat → LaneOut} {fl : Nat → Byte} {val : Group → Prop} (X : Nat → Nat) (hat : s.At g p)
    (hbad : ∀ l, bad g l = false)
    (hf : ∀ l, ActsIn s g p h l → f g p (actingLanes g p h s.clock) l = { dst := putVec vd l t (X l), fl := fl l })
    (hX : ∀ l, ActsIn s g p h l → X l < 2 ^ (32 * t.span))
    (hval : ∀ g', (∀ l, ActsIn s g p h l → vOperand g' (s.clock + latOf cls) l t vd = X l) → val g') :
    LaneGoes s g p h (frameLane s h cls bad (vSpan vd t.span) f) (latOf cls) (vSpan vd t.span) [] fl val := by
  refine frameLane_spec hat hbad ?_ ?_ (fun l hl => by rw [hf l hl]) ?_
  · intro l hl d hd k v hk
    rw [hf l hl] at hd
    simp only [putVec, List.mem_cons] at hd
    rcases hd with rfl | hd
    · refine ⟨vd.toNat, ?_, (by injection hk with h1 _; exact h1.symm)⟩
      cases t <;> simp [vSpan, IntTy.span, IntTy.wide, List.range_succ]
    · split at hd
      · rename_i hw
        simp only [List.mem_singleton] at hd
        subst hd
        refine ⟨vd.toNat + 1, ?_, (by injection hk with h1 _; exact h1.symm)⟩
        simp [vSpan, IntTy.span, hw, List.range_succ]
      · simp at hd
  · intro l hl d hd k m v hk
    rw [hf l hl] at hd
    simp only [putVec, List.mem_cons] at hd
    rcases hd with rfl | hd
    · simp at hk
    · split at hd
      · simp only [List.mem_singleton] at hd; subst hd; simp at hk
      · simp at hd
  · intro g' hv _
    refine hval g' (fun l hl => ?_)
    have hin : ∀ e, e ∈ outPends cls s.clock (f g p (actingLanes g p h s.clock)) (actingLanes g p h s.clock) ↔
        ∃ m, ActsIn s g p h m ∧ ∃ d ∈ putVec vd m t (X m), e = outPend cls s.clock m d := by
      intro e
      simp only [outPends, List.mem_flatMap, List.mem_map]
      constructor
      · rintro ⟨m, hm, d, hd, rfl⟩
        have hm' := actingLanes_mem.mp hm
        exact ⟨m, hm', d, by rw [hf m hm'] at hd; exact hd, rfl⟩
      · rintro ⟨m, hm, d, hd, rfl⟩
        exact ⟨m, actingLanes_mem.mpr hm, d, by rw [hf m hm]; exact hd, rfl⟩
    have hlt : l < 96 := hl.1
    have lo : vWord g' (s.clock + latOf cls) vd.toNat l = BitVec.ofNat 32 (X l) := by
      unfold vWord; rw [hv]
      rw [vSee_foldl_one (w := (BitVec.ofNat 32 (X l), false))]
      · refine ⟨_, (hin _).mpr ⟨l, hl, (.vec (vKey vd.toNat l) (BitVec.ofNat 32 (X l)), false), by simp [putVec], rfl⟩,
          _, rfl, by simp only [outPend]; omega⟩
      · intro e he v hd hc
        obtain ⟨m, hm, d, hd', rfl⟩ := (hin e).mp he
        have hm96 : m < 96 := hm.1
        simp only [putVec, List.mem_cons] at hd'
        rcases hd' with rfl | hd'
        · simp only [PendDst.vec.injEq, vKey] at hd
          obtain rfl : m = l := by omega
          rw [← hd.2]
        · split at hd'
          · simp only [List.mem_singleton] at hd'; subst hd'
            simp only [PendDst.vec.injEq, vKey] at hd; omega
          · simp at hd'
    have hi : t.wide = true → vWord g' (s.clock + latOf cls) (vd.toNat + 1) l = BitVec.ofNat 32 (X l / 2 ^ 32) := by
      intro hw
      unfold vWord; rw [hv]
      rw [vSee_foldl_one (w := (BitVec.ofNat 32 (X l / 2 ^ 32), false))]
      · refine ⟨_, (hin _).mpr ⟨l, hl, (.vec (vKey (vd.toNat + 1) l) (BitVec.ofNat 32 (X l / 2 ^ 32)), false), by
          simp [putVec, hw], rfl⟩, _, rfl, by simp only [outPend]; omega⟩
      · intro e he v hd hc
        obtain ⟨m, hm, d, hd', rfl⟩ := (hin e).mp he
        have hm96 : m < 96 := hm.1
        simp only [putVec, List.mem_cons, hw, if_true, List.mem_singleton, List.not_mem_nil, or_false] at hd'
        rcases hd' with rfl | rfl
        · simp only [PendDst.vec.injEq, vKey] at hd; omega
        · simp only [PendDst.vec.injEq, vKey] at hd
          obtain rfl : m = l := by omega
          rw [← hd.2]
    have hx := hX l hl
    unfold vOperand
    rw [lo]
    cases hw : t.wide with
    | false =>
      have : X l < 2 ^ 32 := by simpa [IntTy.span, hw] using hx
      simp only [BitVec.toNat_ofNat, Bool.false_eq_true, if_false, Nat.add_zero]
      exact Nat.mod_eq_of_lt this
    | true =>
      rw [hi hw]
      have : X l < 2 ^ 64 := by simpa [IntTy.span, hw] using hx
      simp only [BitVec.toNat_ofNat, if_true]
      omega

/-- The same for an instruction that reads the registers `srcs`, over a group without poison. -/
theorem fixedLane_spec {s : State} {g : Group} {p : Path} {h : LaneHdr} {cls : Nat} {srcs : List Nat} {vd : VReg} {t : IntTy}
    {f : Group → Path → List Nat → Nat → LaneOut} {fl : Nat → Byte} {val : Group → Prop} (X : Nat → Nat) (hat : s.At g p)
    (hc : g.Clean)
    (hf : ∀ l, ActsIn s g p h l → f g p (actingLanes g p h s.clock) l = { dst := putVec vd l t (X l), fl := fl l })
    (hX : ∀ l, ActsIn s g p h l → X l < 2 ^ (32 * t.span))
    (hval : ∀ g', (∀ l, ActsIn s g p h l → vOperand g' (s.clock + latOf cls) l t vd = X l) → val g') :
    LaneGoes s g p h (fixedLane s h cls srcs (vSpan vd t.span) f) (latOf cls) (vSpan vd t.span) [] fl val :=
  putVec_spec X hat (fun l => readsBad_clean hc _ _ l) hf hX hval

theorem vWord_lt (g : Group) (c v l : Nat) : (vWord g c v l).toNat < 2 ^ 32 := (vWord g c v l).isLt
theorem vOperand_lt (g : Group) (c l : Nat) (t : IntTy) (v : VReg) : vOperand g c l t v < 2 ^ (32 * t.span) := by
  have h1 := vWord_lt g c v.toNat l
  have h2 := vWord_lt g c (v.toNat + 1) l
  unfold vOperand
  cases hw : t.wide <;> simp only [IntTy.span, hw, if_true, Bool.false_eq_true, if_false] <;> omega
theorem immBits_lt (t : IntTy) (i : BitVec 17) : immBits t i < 2 ^ (32 * t.span) := by
  have h0 := i.isLt
  have h1 := (i.signExtend 32).isLt
  have h2 := (i.signExtend 64).isLt
  cases t with
  | s16 => exact byElem_lt .s16 _
  | z16 => exact byElem_lt .z16 _
  | s8 => exact byElem_lt .s8 _
  | z8 => exact byElem_lt .z8 _
  | s32 => simpa [immBits, IntTy.span, IntTy.wide] using h1
  | z32 => simp only [immBits, IntTy.span, IntTy.wide]; norm_num; omega
  | s64 => simpa [immBits, IntTy.span, IntTy.wide] using h2
  | z64 => simp only [immBits, IntTy.span, IntTy.wide]; norm_num; omega
theorem bOperand_lt (g : Group) (c l : Nat) (t : IntTy) (b : VSrc) : bOperand g c l t b < 2 ^ (32 * t.span) := by
  cases b with
  | reg v => exact vOperand_lt g c l t v
  | imm i => exact immBits_lt t i

/-! ### `Fit` -/

theorem elW_pos (t : IntTy) : 0 < elW t := by cases t <;> decide
theorem two_pow_half {w : Nat} (h : 0 < w) : 2 ^ w = 2 * 2 ^ (w - 1) := by
  obtain ⟨k, rfl⟩ := Nat.exists_eq_add_of_lt h
  simp [Nat.pow_succ]; ring

theorem intVal_cases (w : Nat) (sgn : Bool) (hw : 0 < w) (x : Nat) :
    ((sgn = true ∧ 2 ^ (w - 1) ≤ x % 2 ^ w ∧ intVal w sgn x = (x % 2 ^ w : Nat) - (2 ^ w : Nat)) ∨
      ((sgn = true → x % 2 ^ w < 2 ^ (w - 1)) ∧ intVal w sgn x = (x % 2 ^ w : Nat))) ∧ x % 2 ^ w < 2 ^ w ∧
      2 ^ w = 2 * 2 ^ (w - 1) := by
  refine ⟨?_, Nat.mod_lt _ (by positivity), two_pow_half hw⟩
  unfold intVal
  cases sgn with
  | false => right; simp
  | true =>
    by_cases h : 2 ^ (w - 1) ≤ x % 2 ^ w
    · left; refine ⟨rfl, h, ?_⟩; simp [h]
    · right; refine ⟨fun _ => by omega, ?_⟩; simp [h]

theorem intVal_range (t : IntTy) (x : Nat) : refMin t ≤ intVal (elW t) t.sgn x ∧ intVal (elW t) t.sgn x ≤ refMax t := by
  obtain ⟨h, h2, h3⟩ := intVal_cases (elW t) t.sgn (elW_pos t) x
  have e : (2 ^ elW t : Int) = ((2 ^ elW t : Nat) : Int) := by push_cast; rfl
  have e1 : (2 ^ (elW t - 1) : Int) = ((2 ^ (elW t - 1) : Nat) : Int) := by push_cast; rfl
  unfold refMin refMax
  rw [e, e1]
  rcases h with ⟨hs, h4, h5⟩ | ⟨hs, h5⟩
  · rw [h5, hs]; simp only [if_true]; omega
  · rw [h5]
    cases hh : t.sgn with
    | true => have := hs hh; simp only [if_true]; omega
    | false => simp only [Bool.false_eq_true, if_false]; omega

theorem intMod_cast (w : Nat) (y : Int) : ((intMod w y : Nat) : Int) = y % (2 ^ w : Nat) ∧ intMod w y < 2 ^ w := by
  have h1 := Int.emod_nonneg y (show ((2 ^ w : Nat) : Int) ≠ 0 by positivity)
  have h2 := Int.emod_lt_of_pos y (show (0 : Int) < ((2 ^ w : Nat) : Int) by positivity)
  unfold intMod
  push_cast at h1 h2 ⊢
  refine ⟨by omega, ?_⟩
  have : ((y % 2 ^ w).toNat : Int) < ((2 ^ w : Nat) : Int) := by push_cast; omega
  exact_mod_cast this

theorem intVal_intMod (t : IntTy) (y : Int) : (2 ^ elW t : Int) ∣ (y - intVal (elW t) t.sgn (intMod (elW t) y)) := by
  obtain ⟨h1, h2⟩ := intMod_cast (elW t) y
  obtain ⟨h, -, -⟩ := intVal_cases (elW t) t.sgn (elW_pos t) (intMod (elW t) y)
  rw [Nat.mod_eq_of_lt h2] at h
  have e : (2 ^ elW t : Int) = ((2 ^ elW t : Nat) : Int) := by push_cast; rfl
  have hd := Int.emod_add_mul_ediv y ((2 ^ elW t : Nat) : Int)
  rw [e]
  rcases h with ⟨-, -, h5⟩ | ⟨-, h5⟩
  · exact ⟨y / ((2 ^ elW t : Nat) : Int) + 1, by rw [h5, h1]; linarith⟩
  · exact ⟨y / ((2 ^ elW t : Nat) : Int), by rw [h5, h1]; linarith⟩

theorem intVal_mod (w : Nat) (sgn : Bool) (x : Nat) : intVal w sgn (x % 2 ^ w) = intVal w sgn x := by simp [intVal]

theorem intVal_exact (t : IntTy) {y : Int} (h1 : refMin t ≤ y) (h2 : y ≤ refMax t) :
    intVal (elW t) t.sgn (intMod (elW t) y) = y := by
  obtain ⟨k, hk⟩ := intVal_intMod t y
  obtain ⟨h3, h4⟩ := intVal_range t (intMod (elW t) y)
  have hN : (0 : Int) < 2 ^ elW t := by positivity
  have hw : refMax t - refMin t < 2 ^ elW t := by cases t <;> decide
  have : k = 0 := by
    by_contra h
    rcases lt_or_gt_of_ne h with h | h
    · have := mul_le_mul_of_nonneg_left (show k ≤ -1 by omega) hN.le; omega
    · have := mul_le_mul_of_nonneg_left (show 1 ≤ k by omega) hN.le; omega
  rw [this] at hk; omega

theorem refMin_le (t : IntTy) : refMin t ≤ refMax t := by cases t <;> decide

/-- What clamping does, in three cases. -/
theorem intClamp_cases (t : IntTy) (y : Int) :
    (y < refMin t ∧ intClamp (elW t) t.sgn y = (intMod (elW t) (refMin t), true)) ∨
      (refMax t < y ∧ intClamp (elW t) t.sgn y = (intMod (elW t) (refMax t), true)) ∨
      (refMin t ≤ y ∧ y ≤ refMax t ∧ intClamp (elW t) t.sgn y = (intMod (elW t) y, false)) := by
  have e : intClamp (elW t) t.sgn y = if y < refMin t then (intMod (elW t) (refMin t), true)
      else if refMax t < y then (intMod (elW t) (refMax t), true) else (intMod (elW t) y, false) := rfl
  by_cases h1 : y < refMin t
  · exact .inl ⟨h1, by rw [e, if_pos h1]⟩
  · by_cases h2 : refMax t < y
    · exact .inr (.inl ⟨h2, by rw [e, if_neg h1, if_pos h2]⟩)
    · exact .inr (.inr ⟨by omega, by omega, by rw [e, if_neg h1, if_neg h2]⟩)

theorem fitInt_sat (w : Nat) (sgn : Bool) (y : Int) :
    fitInt w sgn true y = ((intClamp w sgn y).1, if (intClamp w sgn y).2 then 0x40 else 0) := rfl
theorem fitInt_mod (w : Nat) (sgn : Bool) (y : Int) : fitInt w sgn false y = (intMod w y, 0) := rfl

theorem fitInt_fits (t : IntTy) (sat : Bool) (y : Int) :
    FitsAs t sat y (intVal (elW t) t.sgn (fitInt (elW t) t.sgn sat y).1) := by
  have hle := refMin_le t
  refine ⟨(intVal_range t _).1, (intVal_range t _).2, ?_⟩
  cases sat with
  | false => rw [fitInt_mod]; exact intVal_intMod t y
  | true =>
    rw [fitInt_sat]
    simp only [if_true]
    rcases intClamp_cases t y with ⟨h, e⟩ | ⟨h, e⟩ | ⟨h, h', e⟩
    · rw [e, intVal_exact t (le_refl _) hle]; omega
    · rw [e, intVal_exact t hle (le_refl _)]; omega
    · rw [e, intVal_exact t h h']; omega

theorem fitInt_flag (t : IntTy) (sat : Bool) (y : Int) :
    (fitInt (elW t) t.sgn sat y).2 = if refSat t sat y = true then 0x40 else 0 := by
  have hle := refMin_le t
  cases sat with
  | false => rw [fitInt_mod]; simp [refSat]
  | true =>
    rw [fitInt_sat]
    rcases intClamp_cases t y with ⟨h, e⟩ | ⟨h, e⟩ | ⟨h, h', e⟩
    · rw [e]; simp [refSat, h]
    · rw [e]; simp [refSat, h]
    · rw [e]; simp [refSat, not_lt.mpr h, not_lt.mpr h']

theorem unionFlags_one (bs : List Bool) (f : Byte) :
    unionFlags (bs.map (fun b => if b = true then f else 0)) = if (∃ b ∈ bs, b = true) then f else 0 := by
  have h : ∀ (bs : List Bool) (a : Byte), (bs.map (fun b => if b = true then f else 0)).foldl (fun a b => a ||| b) a =
      if (∃ b ∈ bs, b = true) then a ||| f else a := by
    intro bs
    induction bs with
    | nil => simp
    | cons b bs ih =>
      intro a
      rw [List.map_cons, List.foldl_cons, ih]
      cases b
      · simp
      · simp only [if_true, List.mem_cons, exists_eq_or_imp, true_or]
        split
        · rw [BitVec.or_assoc, BitVec.or_self]
        · rfl
  rw [unionFlags, h]; simp

theorem fitElems_flag (t : IntTy) (sat : Bool) (op : Nat → Int) :
    (fitElems t sat op).2 = if ∃ e < elN t, refSat t sat (op e) = true then 0x40 else 0 := by
  have h := unionFlags_one ((List.range (elN t)).map (fun e => refSat t sat (op e))) 0x40
  simp only [fitElems, fitInt_flag]
  rw [List.map_map] at h
  simpa [Function.comp_def] using h

theorem fitElems_elem (t : IntTy) (sat : Bool) (op : Nat → Int) {e : Nat} (he : e < elN t) :
    FitsAs t sat (op e) (elemVal t (fitElems t sat op).1 e) := by
  unfold elemVal fitElems
  rw [elemOf_byElem t _ he, intVal_mod]
  exact fitInt_fits t sat (op e)

end Sys2Proof.Machine
end

