-- ==== Sys2Proof/Laws/Mem.lean ====
section
/-! SUPPORT. Laws of memory: a byte written is read back, every other byte stays, and every operation that writes memory keeps its
canonical form (the whole model writes memory only through `homePut` and `copyBlock`). -/
namespace Sys2Proof.Machine

/-! ### Cells -/

theorem memWf_put {m : List Host.Cell} (a : Nat) (v : Byte) (h : memWf m = true) : memWf (memPut m a v) = true :=
  tabWf_set a v h

theorem memByte_put {m : List Host.Cell} (a b : Nat) (v : Byte) (h : memWf m = true) :
    memByte (memPut m a v) b = if b = a then v else memByte m b :=
  tabGet_set a b v h

theorem memByte_put_self {m : List Host.Cell} (a : Nat) (v : Byte) (h : memWf m = true) : memByte (memPut m a v) a = v :=
  tabGet_set_self a v h

theorem memByte_put_ne {m : List Host.Cell} {a b : Nat} (v : Byte) (h : memWf m = true) (hb : b ≠ a) :
    memByte (memPut m a v) b = memByte m b :=
  tabGet_set_ne v h hb

theorem memWf_write (n : Nat) {m : List Host.Cell} (a x : Nat) (h : memWf m = true) : memWf (memWrite n m a x) = true := by
  induction n generalizing m a x with
  | zero => exact h
  | succ n ih => exact ih _ _ (memWf_put _ _ h)

theorem memByte_write_out (n : Nat) {m : List Host.Cell} {a b : Nat} (x : Nat) (h : memWf m = true)
    (hb : b < a ∨ a + n ≤ b) : memByte (memWrite n m a x) b = memByte m b := by
  induction n generalizing m a x with
  | zero => rfl
  | succ n ih => rw [memWrite, ih _ (memWf_put _ _ h) (by omega), memByte_put_ne _ h (by omega)]

theorem byte_and_rest (n x : Nat) :
    (BitVec.ofNat 8 x).toNat + 256 * (x / 256 % 256 ^ n) = x % 256 ^ (n + 1) := by
  rw [BitVec.toNat_ofNat, show 256 ^ (n + 1) = 256 * 256 ^ n by rw [Nat.pow_succ, Nat.mul_comm], Nat.mod_mul]

/-- A little-endian number written is read back, modulo its width (R6). -/
theorem bytesNat_write (n : Nat) {m : List Host.Cell} (a x : Nat) (h : memWf m = true) :
    bytesNat (memByte (memWrite n m a x)) n a = x % 256 ^ n := by
  induction n generalizing m a x with
  | zero => simp [bytesNat, Nat.mod_one]
  | succ n ih =>
    rw [memWrite, bytesNat, memByte_write_out n _ (memWf_put _ _ h) (by omega), memByte_put_self _ _ h,
      ih _ _ (memWf_put _ _ h), byte_and_rest]

/-! ### A fold keeps what each of its steps keeps -/

theorem foldl_keeps {α β : Type} {P : β → Prop} {f : β → α → β} (l : List α) (h : ∀ b a, P b → P (f b a)) {b : β} (hb : P b) :
    P (l.foldl f b) := by
  induction l generalizing b with
  | nil => exact hb
  | cons a l ih => exact ih (h b a hb)

/-! ### Home slices -/

@[simp] theorem homePut_promoted (s : State) (a : Nat) (v : Byte) : (homePut s a v).promoted = s.promoted := by
  unfold homePut; split <;> rfl

@[simp] theorem homePut_redirect (s : State) (a b : Nat) (v : Byte) : redirect (homePut s a v) b = redirect s b := by
  simp [redirect]

theorem homePut_memOk {s : State} (a : Nat) (v : Byte) (h : s.MemOk) : (homePut s a v).MemOk := by
  unfold homePut; split
  · exact h
  · exact memWf_put _ _ h

/-- A byte at its home slice looks only at memory, the promoted blocks and the segments. -/
theorem homeByte_congr {s t : State} (hm : t.mem = s.mem) (hp : t.promoted = s.promoted) (hs : t.segments = s.segments) (a : Nat) :
    homeByte t a = homeByte s a := by
  have hr : redirect t a = redirect s a := by simp only [redirect, hp]
  have hg : segAt t a = segAt s a := by simp only [segAt, hs]
  simp only [homeByte, flashByte, hr, hg, hm]

/-- A byte of a scratchpad looks only at the cores. -/
theorem spadByte_congr {s t : State} (h : t.cores = s.cores) (c o : Nat) : spadByte t c o = spadByte s c o := by
  simp only [spadByte, coreOf, h]

theorem sameBytes_of {s t : State} (hm : t.mem = s.mem) (hp : t.promoted = s.promoted) (hs : t.segments = s.segments)
    (hc : t.cores = s.cores) : SameBytes s t :=
  ⟨homeByte_congr hm hp hs, spadByte_congr hc⟩

/-- Where no block is promoted, an HBM address names its own cell. -/
theorem homeByte_hbm {s : State} {a : Nat} (ha : a < Config.hbmBytes) (hp : s.promoted = []) : homeByte s a = memByte s.mem a := by
  have ht : tierOf a = .hbm := by simp [tierOf, ha]
  simp [homeByte, redirect, hp, privAlias, ht]

/-- A byte written behind a home slice of HBM is read back, and every other byte of HBM stays. -/
theorem homeByte_put {s : State} {a b : Nat} (v : Byte) (ha : a < Config.hbmBytes) (hb : b < Config.hbmBytes)
    (hp : s.promoted = []) (h : s.MemOk) : homeByte (homePut s a v) b = if b = a then v else homeByte s b := by
  have ht : tierOf a = .hbm := by simp [tierOf, ha]
  rw [homeByte_hbm hb (by simpa using hp), homeByte_hbm hb hp]
  simpa [homePut, ht, redirect, hp, privAlias] using memByte_put a b v h

theorem homeWrite_memOk (n : Nat) {s : State} (a x : Nat) (h : s.MemOk) : (homeWrite n s a x).MemOk := by
  induction n generalizing s a x with
  | zero => exact h
  | succ n ih => exact ih _ _ (homePut_memOk _ _ h)

@[simp] theorem homeWrite_promoted (n : Nat) (s : State) (a x : Nat) : (homeWrite n s a x).promoted = s.promoted := by
  induction n generalizing s a x with
  | zero => rfl
  | succ n ih => rw [homeWrite, ih, homePut_promoted]

theorem homeByte_write_out (n : Nat) {s : State} {a b : Nat} (x : Nat) (ha : a + n ≤ Config.hbmBytes)
    (hb : b < Config.hbmBytes) (hp : s.promoted = []) (h : s.MemOk) (ho : b < a ∨ a + n ≤ b) :
    homeByte (homeWrite n s a x) b = homeByte s b := by
  induction n generalizing s a x with
  | zero => rfl
  | succ n ih =>
    rw [homeWrite, ih _ (by omega) (by simpa using hp) (homePut_memOk _ _ h) (by omega),
      homeByte_put _ (by omega) hb hp h, if_neg (by omega)]

/-- A number written at home slices of HBM is read back, modulo its width (R6). -/
theorem homeNat_write (n : Nat) {s : State} (a x : Nat) (ha : a + n ≤ Config.hbmBytes) (hp : s.promoted = []) (h : s.MemOk) :
    homeNat (homeWrite n s a x) n a = x % 256 ^ n := by
  induction n generalizing s a x with
  | zero => simp [homeNat, bytesNat, Nat.mod_one]
  | succ n ih =>
    have hw := homePut_memOk a (BitVec.ofNat 8 x) h
    have hn := ih (a := a + 1) (x := x / 256) (by omega) (by simpa using hp) hw
    rw [homeNat] at hn ⊢
    rw [homeWrite, bytesNat, homeByte_write_out n _ (by omega) (by omega) (by simpa using hp) hw (by omega),
      homeByte_put _ (by omega) (by omega) hp h, if_pos rfl, hn, byte_and_rest]

theorem homeWordPut_memOk {s : State} (wa : Nat) (v : Word) (h : s.MemOk) : (homeWordPut s wa v).MemOk :=
  homePut_memOk _ _ (homePut_memOk _ _ (homePut_memOk _ _ (homePut_memOk _ _ h)))

/-! ### Caches, scratchpads, blocks -/

@[simp] theorem l1Update_mem (s : State) (c wa : Nat) (v : Word) (po : Bool) : (l1Update s c wa v po).mem = s.mem := by
  unfold l1Update; split <;> simp

theorem homeStoreWord_memOk {s : State} (c wa off n x : Nat) (h : s.MemOk) : (homeStoreWord s c wa off n x).MemOk := by
  simpa [homeStoreWord, State.MemOk] using homeWordPut_memOk wa (wordMerge (homeWord s wa) off n x) h

theorem writeBackLine_memOk {s : State} (c line : Nat) (h : s.MemOk) : (writeBackLine s c line).MemOk := by
  unfold writeBackLine
  refine foldl_keeps (P := State.MemOk) _ (fun t i ht => ?_) (foldl_keeps (P := State.MemOk) _ (fun t i ht => ?_) h)
  · dsimp only; split
    · split
      · rw [State.MemOk, modCore_mem]
        refine homeWordPut_memOk _ _ ?_
        split <;> exact ht
      · exact ht
    · exact ht
  · dsimp only; split
    · exact ht
    · exact ht

theorem cleanCore_memOk {s : State} (c : Nat) (h : s.MemOk) : (cleanCore s c).MemOk :=
  foldl_keeps (P := State.MemOk) _ (fun _ _ ht => writeBackLine_memOk _ _ ht) h

@[simp] theorem invalCore_mem (s : State) (c : Nat) : (invalCore s c).mem = s.mem := by simp [invalCore]

theorem evictLine_memOk {s : State} (c line : Nat) (h : s.MemOk) : (evictLine s c line).MemOk := by
  simpa [evictLine, State.MemOk] using writeBackLine_memOk c line h

@[simp] theorem noteRead_mem (s : State) (c pa : Nat) : (noteRead s c pa).mem = s.mem := by unfold noteRead; split <;> simp
theorem colRoom_memOk {s : State} (c line : Nat) (h : s.MemOk) : (colRoom s c line).MemOk := by
  unfold colRoom
  rw [State.MemOk, modCore_mem]
  split
  · exact h
  · split
    · exact evictLine_memOk _ _ h
    · exact h

theorem colFill_memOk {s : State} (c line : Nat) (h : s.MemOk) : (colFill s c line).MemOk := by
  unfold colFill; split
  · exact colRoom_memOk _ _ h
  · refine foldl_keeps (P := State.MemOk) _ (fun t i ht => ?_) (colRoom_memOk _ _ (by simpa [State.MemOk] using h))
    dsimp only; split
    · exact ht
    · simpa [State.MemOk] using ht

theorem colPut_memOk {s : State} (c wa : Nat) (v : Word) (po : Bool) (h : s.MemOk) : (colPut s c wa v po).MemOk := by
  have hr := colRoom_memOk c (wa / 32) h
  simp only [colPut, State.MemOk, l1Update_mem]
  split
  · exact homeWordPut_memOk _ _ hr
  · simpa [State.MemOk] using hr

@[simp] theorem spadPut_mem (s : State) (c off : Nat) (v : Byte) : (spadPut s c off v).mem = s.mem := by simp [spadPut]

@[simp] theorem spadBytes_mem (n : Nat) (s : State) (c off x : Nat) : (spadBytes n s c off x).mem = s.mem := by
  induction n generalizing s off x with
  | zero => rfl
  | succ n ih => rw [spadBytes, ih, spadPut_mem]
@[simp] theorem spadFresh_mem (s : State) (c off n : Nat) : (spadFresh s c off n).mem = s.mem := by simp [spadFresh]
@[simp] theorem spadWrite_mem (n : Nat) (s : State) (c off x : Nat) : (spadWrite n s c off x).mem = s.mem := by simp [spadWrite]

theorem copyBlock_memOk {s : State} (src dst : Nat) (rd : State → Nat → Byte) (h : s.MemOk) :
    (copyBlock s src dst rd).MemOk :=
  foldl_keeps (P := State.MemOk) _ (fun _ _ ht => memWf_put _ _ ht) h

theorem dropBlock_memOk {s : State} (blk : Nat) (h : s.MemOk) : (dropBlock s blk).MemOk := by
  unfold dropBlock
  refine foldl_keeps (P := State.MemOk) _ (fun t e ht => ?_) h
  simpa [State.MemOk] using foldl_keeps (P := State.MemOk) ((dirtyLines e.2).filter (fun l => l / 512 = blk))
    (fun _ _ hu => writeBackLine_memOk _ _ hu) ht

@[simp] theorem renameLines_mem (s : State) (a b : Nat) : (renameLines s a b).mem = s.mem := rfl
@[simp] theorem renameFrames_mem (s : State) (a b : Nat) : (renameFrames s a b).mem = s.mem := rfl
@[simp] theorem dropLeaves_mem (s : State) (f : TlbEnt → Bool) : (dropLeaves s f).mem = s.mem := rfl

theorem noCopies_memOk {s : State} (blk h : Nat) (hs : s.MemOk) : (noCopies s blk h).MemOk :=
  dropBlock_memOk _ (dropBlock_memOk _ hs)
@[simp] theorem notePromoted_mem (s : State) (blk h : Nat) : (notePromoted s blk h).mem = s.mem := by
  rw [notePromoted, renameLines_mem]
@[simp] theorem noteDemoted_mem (s : State) (blk h : Nat) : (noteDemoted s blk h).mem = s.mem := rfl

theorem promoteTo_memOk {s : State} (blk hb : Nat) (h : s.MemOk) : (promoteTo s blk hb).MemOk := by
  have hc := copyBlock_memOk blk hb (fun s a => homeByte s a) (noCopies_memOk blk hb h)
  rwa [State.MemOk, promoteTo, notePromoted_mem]

theorem demoteBlock_memOk {s : State} (blk : Nat) (h : s.MemOk) : (demoteBlock s blk).MemOk := by
  unfold demoteBlock; split
  · exact h
  · rename_i hb _
    have hd := noCopies_memOk blk hb h
    have hc := copyBlock_memOk hb blk (fun s a => memByte s.mem a) hd
    rw [State.MemOk, noteDemoted_mem]
    split
    · exact hc
    · exact hd

theorem reset_memOk : State.reset.MemOk := tabWf_nil _

end Sys2Proof.Machine
end

