-- ==== Sys2Proof/Laws/PerInstr.lean ====
section
/-! SUPPORT. Statements about every instruction, one lemma for each constructor. -/

/-- An instruction has a word in at most one of the three encodings. -/
def Sys2Proof.Laws.OneStream.atMostOne (i : Sys2Proof.Instr) : Bool :=
  match (Sys2Proof.encodeScalar i).isSome, (Sys2Proof.encodeLane i).isSome, (Sys2Proof.encodeDrain i).isSome with
  | true, false, false => true
  | false, true, false => true
  | false, false, true => true
  | false, false, false => true
  | _, _, _ => false
/-- The family: words of the three streams never stand for one instruction twice (R75, R80, R92). -/
def Sys2Proof.Laws.OneStream.Statement (i : Sys2Proof.Instr) : Prop := Sys2Proof.Laws.OneStream.atMostOne i = true

namespace Sys2Proof
theorem Laws.OneStream.add (d a b : SReg) : Laws.OneStream.Statement (.add d a b) := rfl
theorem Laws.OneStream.sub (d a b : SReg) : Laws.OneStream.Statement (.sub d a b) := rfl
theorem Laws.OneStream.mul (d a b : SReg) : Laws.OneStream.Statement (.mul d a b) := rfl
theorem Laws.OneStream.mulh (d a b : SReg) : Laws.OneStream.Statement (.mulh d a b) := rfl
theorem Laws.OneStream.mulhZ32 (d a b : SReg) : Laws.OneStream.Statement (.mulhZ32 d a b) := rfl
theorem Laws.OneStream.divs (d a b : SReg) : Laws.OneStream.Statement (.divs d a b) := rfl
theorem Laws.OneStream.and (d a b : SReg) : Laws.OneStream.Statement (.and d a b) := rfl
theorem Laws.OneStream.or (d a b : SReg) : Laws.OneStream.Statement (.or d a b) := rfl
theorem Laws.OneStream.xor (d a b : SReg) : Laws.OneStream.Statement (.xor d a b) := rfl
theorem Laws.OneStream.andn (d a b : SReg) : Laws.OneStream.Statement (.andn d a b) := rfl
theorem Laws.OneStream.shl (d a b : SReg) : Laws.OneStream.Statement (.shl d a b) := rfl
theorem Laws.OneStream.shr (d a b : SReg) : Laws.OneStream.Statement (.shr d a b) := rfl
theorem Laws.OneStream.sra (d a b : SReg) : Laws.OneStream.Statement (.sra d a b) := rfl
theorem Laws.OneStream.min (d a b : SReg) : Laws.OneStream.Statement (.min d a b) := rfl
theorem Laws.OneStream.max (d a b : SReg) : Laws.OneStream.Statement (.max d a b) := rfl
theorem Laws.OneStream.minZ32 (d a b : SReg) : Laws.OneStream.Statement (.minZ32 d a b) := rfl
theorem Laws.OneStream.maxZ32 (d a b : SReg) : Laws.OneStream.Statement (.maxZ32 d a b) := rfl
theorem Laws.OneStream.sel (d a b : SReg) : Laws.OneStream.Statement (.sel d a b) := rfl
theorem Laws.OneStream.cmp (cc : Cond) (d a b : SReg) : Laws.OneStream.Statement (.cmp cc d a b) := rfl
theorem Laws.OneStream.cmpZ32 (cc : UCond) (d a b : SReg) : Laws.OneStream.Statement (.cmpZ32 cc d a b) := rfl
theorem Laws.OneStream.addZ64 (d a b : SReg) : Laws.OneStream.Statement (.addZ64 d a b) := rfl
theorem Laws.OneStream.subZ64 (d a b : SReg) : Laws.OneStream.Statement (.subZ64 d a b) := rfl
theorem Laws.OneStream.addi (d a : SReg) (imm : BitVec 14) : Laws.OneStream.Statement (.addi d a imm) := rfl
theorem Laws.OneStream.andi (d a : SReg) (imm : BitVec 14) : Laws.OneStream.Statement (.andi d a imm) := rfl
theorem Laws.OneStream.ori (d a : SReg) (imm : BitVec 14) : Laws.OneStream.Statement (.ori d a imm) := rfl
theorem Laws.OneStream.xori (d a : SReg) (imm : BitVec 14) : Laws.OneStream.Statement (.xori d a imm) := rfl
theorem Laws.OneStream.shli (d a : SReg) (n : BitVec 5) : Laws.OneStream.Statement (.shli d a n) := rfl
theorem Laws.OneStream.shri (d a : SReg) (n : BitVec 5) : Laws.OneStream.Statement (.shri d a n) := rfl
theorem Laws.OneStream.srai (d a : SReg) (n : BitVec 5) : Laws.OneStream.Statement (.srai d a n) := rfl
theorem Laws.OneStream.movi (d : SReg) (imm : BitVec 20) : Laws.OneStream.Statement (.movi d imm) := rfl
theorem Laws.OneStream.movhi (d : SReg) (imm : BitVec 12) : Laws.OneStream.Statement (.movhi d imm) := rfl
theorem Laws.OneStream.brNz (a : SReg) (off : BitVec 14) : Laws.OneStream.Statement (.brNz a off) := rfl
theorem Laws.OneStream.brZ (a : SReg) (off : BitVec 14) : Laws.OneStream.Statement (.brZ a off) := rfl
theorem Laws.OneStream.brd (p : PReg) (neg : Bool) (tag : BitVec 2) (live : BitVec 6) (off : BitVec 14) : Laws.OneStream.Statement (.brd p neg tag live off) := rfl
theorem Laws.OneStream.jmp (off : BitVec 26) : Laws.OneStream.Statement (.jmp off) := rfl
theorem Laws.OneStream.call (off : BitVec 26) : Laws.OneStream.Statement (.call off) := rfl
theorem Laws.OneStream.jmpi (a : SReg) : Laws.OneStream.Statement (.jmpi a) := rfl
theorem Laws.OneStream.jmpv (tag : BitVec 2) (v : VReg) : Laws.OneStream.Statement (.jmpv tag v) := rfl
theorem Laws.OneStream.callv (tag : BitVec 2) (v : VReg) : Laws.OneStream.Statement (.callv tag v) := rfl
theorem Laws.OneStream.rjoin (tag : BitVec 2) : Laws.OneStream.Statement (.rjoin tag) := rfl
theorem Laws.OneStream.lrun (idx : BitVec 26) : Laws.OneStream.Statement (.lrun idx) := rfl
theorem Laws.OneStream.ljmp (idx : BitVec 26) : Laws.OneStream.Statement (.ljmp idx) := rfl
theorem Laws.OneStream.looph (off : BitVec 14) : Laws.OneStream.Statement (.looph off) := rfl
theorem Laws.OneStream.mand (d a b : SReg) : Laws.OneStream.Statement (.mand d a b) := rfl
theorem Laws.OneStream.mor (d a b : SReg) : Laws.OneStream.Statement (.mor d a b) := rfl
theorem Laws.OneStream.mxor (d a b : SReg) : Laws.OneStream.Statement (.mxor d a b) := rfl
theorem Laws.OneStream.mnot (d a : SReg) : Laws.OneStream.Statement (.mnot d a) := rfl
theorem Laws.OneStream.mpop (d a : SReg) : Laws.OneStream.Statement (.mpop d a) := rfl
theorem Laws.OneStream.mfirst (d a : SReg) : Laws.OneStream.Statement (.mfirst d a) := rfl
theorem Laws.OneStream.sld (d a : SReg) (off : BitVec 14) : Laws.OneStream.Statement (.sld d a off) := rfl
theorem Laws.OneStream.sldZ64 (d a : SReg) (off : BitVec 14) : Laws.OneStream.Statement (.sldZ64 d a off) := rfl
theorem Laws.OneStream.sst (d a : SReg) (off : BitVec 14) : Laws.OneStream.Statement (.sst d a off) := rfl
theorem Laws.OneStream.sstZ64 (d a : SReg) (off : BitVec 14) : Laws.OneStream.Statement (.sstZ64 d a off) := rfl
theorem Laws.OneStream.sarg (d : SReg) (off : BitVec 14) : Laws.OneStream.Statement (.sarg d off) := rfl
theorem Laws.OneStream.sargZ64 (d : SReg) (off : BitVec 14) : Laws.OneStream.Statement (.sargZ64 d off) := rfl
theorem Laws.OneStream.waitf (mask : BitVec 12) : Laws.OneStream.Statement (.waitf mask) := rfl
theorem Laws.OneStream.waitk (k : KPath) (s : SReg) : Laws.OneStream.Statement (.waitk k s) := rfl
theorem Laws.OneStream.srd (d : SReg) (r : SpecialReg) : Laws.OneStream.Statement (.srd d r) := rfl
theorem Laws.OneStream.srdCyclo (d : SReg) : Laws.OneStream.Statement (.srdCyclo d) := rfl
theorem Laws.OneStream.srdCychi (d : SReg) : Laws.OneStream.Statement (.srdCychi d) := rfl
theorem Laws.OneStream.swrEjth (a : SReg) : Laws.OneStream.Statement (.swrEjth a) := rfl
theorem Laws.OneStream.swrRjto (a : SReg) : Laws.OneStream.Statement (.swrRjto a) := rfl
theorem Laws.OneStream.swrFpflags (a : SReg) : Laws.OneStream.Statement (.swrFpflags a) := rfl
theorem Laws.OneStream.swrTrapState (r : TrapReg) (a : SReg) : Laws.OneStream.Statement (.swrTrapState r a) := rfl
theorem Laws.OneStream.sigchk (i : BitVec 14) : Laws.OneStream.Statement (.sigchk i) := rfl
theorem Laws.OneStream.trap (n : BitVec 14) : Laws.OneStream.Statement (.trap n) := rfl
theorem Laws.OneStream.svc (n : BitVec 14) : Laws.OneStream.Statement (.svc n) := rfl
theorem Laws.OneStream.bkpt (n : BitVec 14) : Laws.OneStream.Statement (.bkpt n) := rfl
theorem Laws.OneStream.nop (hint : BitVec 26) : Laws.OneStream.Statement (.nop hint) := rfl
theorem Laws.OneStream.iadd (h : LaneHdr) (t : IntTy) (sat : Bool) (vd va : VReg) (b : VSrc) : Laws.OneStream.Statement (.iadd h t sat vd va b) := rfl
theorem Laws.OneStream.isub (h : LaneHdr) (t : IntTy) (sat : Bool) (vd va : VReg) (b : VSrc) : Laws.OneStream.Statement (.isub h t sat vd va b) := rfl
theorem Laws.OneStream.imul (h : LaneHdr) (t : IntTy) (sat : Bool) (vd va : VReg) (b : VSrc) : Laws.OneStream.Statement (.imul h t sat vd va b) := rfl
theorem Laws.OneStream.imad (h : LaneHdr) (t : IntTy) (sat : Bool) (vd va : VReg) (b : VSrc) (vc : VReg) : Laws.OneStream.Statement (.imad h t sat vd va b vc) := rfl
theorem Laws.OneStream.imulh (h : LaneHdr) (t : IntTy) (vd va : VReg) (b : VSrc) : Laws.OneStream.Statement (.imulh h t vd va b) := rfl
theorem Laws.OneStream.iabs (h : LaneHdr) (t : IntTy) (sat : Bool) (vd va : VReg) : Laws.OneStream.Statement (.iabs h t sat vd va) := rfl
theorem Laws.OneStream.imin (h : LaneHdr) (t : IntTy) (vd va : VReg) (b : VSrc) : Laws.OneStream.Statement (.imin h t vd va b) := rfl
theorem Laws.OneStream.imax (h : LaneHdr) (t : IntTy) (vd va : VReg) (b : VSrc) : Laws.OneStream.Statement (.imax h t vd va b) := rfl
theorem Laws.OneStream.laneAnd (h : LaneHdr) (t : IntTy) (vd va : VReg) (b : VSrc) : Laws.OneStream.Statement (.laneAnd h t vd va b) := rfl
theorem Laws.OneStream.laneOr (h : LaneHdr) (t : IntTy) (vd va : VReg) (b : VSrc) : Laws.OneStream.Statement (.laneOr h t vd va b) := rfl
theorem Laws.OneStream.laneXor (h : LaneHdr) (t : IntTy) (vd va : VReg) (b : VSrc) : Laws.OneStream.Statement (.laneXor h t vd va b) := rfl
theorem Laws.OneStream.not (h : LaneHdr) (t : IntTy) (vd va : VReg) : Laws.OneStream.Statement (.not h t vd va) := rfl
theorem Laws.OneStream.laneShl (h : LaneHdr) (t : IntTy) (vd va : VReg) (b : VSrc) : Laws.OneStream.Statement (.laneShl h t vd va b) := rfl
theorem Laws.OneStream.laneShr (h : LaneHdr) (t : IntTy) (vd va : VReg) (b : VSrc) : Laws.OneStream.Statement (.laneShr h t vd va b) := rfl
theorem Laws.OneStream.laneSra (h : LaneHdr) (t : IntTy) (vd va : VReg) (b : VSrc) : Laws.OneStream.Statement (.laneSra h t vd va b) := rfl
theorem Laws.OneStream.rot (h : LaneHdr) (t : IntTy) (vd va : VReg) (b : VSrc) : Laws.OneStream.Statement (.rot h t vd va b) := rfl
theorem Laws.OneStream.popc (h : LaneHdr) (t : IntTy) (vd va : VReg) : Laws.OneStream.Statement (.popc h t vd va) := rfl
theorem Laws.OneStream.clz (h : LaneHdr) (t : IntTy) (vd va : VReg) : Laws.OneStream.Statement (.clz h t vd va) := rfl
theorem Laws.OneStream.brev (h : LaneHdr) (t : IntTy) (vd va : VReg) : Laws.OneStream.Statement (.brev h t vd va) := rfl
theorem Laws.OneStream.bfx (h : LaneHdr) (t : IntTy) (vd va : VReg) (pos width : BitVec 5) : Laws.OneStream.Statement (.bfx h t vd va pos width) := rfl
theorem Laws.OneStream.bfi (h : LaneHdr) (t : IntTy) (vd va : VReg) (pos width : BitVec 5) : Laws.OneStream.Statement (.bfi h t vd va pos width) := rfl
theorem Laws.OneStream.laneSel (h : LaneHdr) (t : IntTy) (vd va : VReg) (b : VSrc) (pk : PReg) : Laws.OneStream.Statement (.laneSel h t vd va b pk) := rfl
theorem Laws.OneStream.mov (h : LaneHdr) (t : IntTy) (vd : VReg) (a : VSrc) : Laws.OneStream.Statement (.mov h t vd a) := by cases a <;> rfl
theorem Laws.OneStream.movs (h : LaneHdr) (t : IntTy) (vd : VReg) (sn : SReg) : Laws.OneStream.Statement (.movs h t vd sn) := rfl
theorem Laws.OneStream.lea (h : LaneHdr) (vd : VReg) (base : MBase) (idx : MIdx) (off : BitVec 12) : Laws.OneStream.Statement (.lea h vd base idx off) := rfl
theorem Laws.OneStream.iset (h : LaneHdr) (cc : Cond) (t : IntTy) (pd : PReg) (va : VReg) (b : VSrc) : Laws.OneStream.Statement (.iset h cc t pd va b) := rfl
theorem Laws.OneStream.shfl (h : LaneHdr) (m : ShflMode) (t : IntTy) (vd va : VReg) (b : VSrc) : Laws.OneStream.Statement (.shfl h m t vd va b) := rfl
theorem Laws.OneStream.voteAny (h : LaneHdr) (pd pa : PReg) : Laws.OneStream.Statement (.voteAny h pd pa) := rfl
theorem Laws.OneStream.voteAll (h : LaneHdr) (pd pa : PReg) : Laws.OneStream.Statement (.voteAll h pd pa) := rfl
theorem Laws.OneStream.voteBallot (h : LaneHdr) (sn : SReg) (pa : PReg) : Laws.OneStream.Statement (.voteBallot h sn pa) := rfl
theorem Laws.OneStream.gred (h : LaneHdr) (op : GredOp) (t : IntTy) (vd va : VReg) : Laws.OneStream.Statement (.gred h op t vd va) := rfl
theorem Laws.OneStream.fadd (h : LaneHdr) (m : Rnd) (vd va : VReg) (b : VSrc) : Laws.OneStream.Statement (.fadd h m vd va b) := rfl
theorem Laws.OneStream.fsub (h : LaneHdr) (m : Rnd) (vd va : VReg) (b : VSrc) : Laws.OneStream.Statement (.fsub h m vd va b) := rfl
theorem Laws.OneStream.fmul (h : LaneHdr) (m : Rnd) (vd va : VReg) (b : VSrc) : Laws.OneStream.Statement (.fmul h m vd va b) := rfl
theorem Laws.OneStream.ffma (h : LaneHdr) (m : Rnd) (vd va : VReg) (b : VSrc) (vc : VReg) : Laws.OneStream.Statement (.ffma h m vd va b vc) := rfl
theorem Laws.OneStream.fmin (h : LaneHdr) (vd va : VReg) (b : VSrc) : Laws.OneStream.Statement (.fmin h vd va b) := rfl
theorem Laws.OneStream.fmax (h : LaneHdr) (vd va : VReg) (b : VSrc) : Laws.OneStream.Statement (.fmax h vd va b) := rfl
theorem Laws.OneStream.fabs (h : LaneHdr) (vd va : VReg) : Laws.OneStream.Statement (.fabs h vd va) := rfl
theorem Laws.OneStream.fneg (h : LaneHdr) (vd va : VReg) : Laws.OneStream.Statement (.fneg h vd va) := rfl
theorem Laws.OneStream.fclass (h : LaneHdr) (vd va : VReg) : Laws.OneStream.Statement (.fclass h vd va) := rfl
theorem Laws.OneStream.fscale (h : LaneHdr) (m : Rnd) (vd va : VReg) (b : VSrc) : Laws.OneStream.Statement (.fscale h m vd va b) := rfl
theorem Laws.OneStream.frnd (h : LaneHdr) (m : Rnd) (vd va : VReg) : Laws.OneStream.Statement (.frnd h m vd va) := rfl
theorem Laws.OneStream.fdiv (h : LaneHdr) (m : Rnd) (vd va : VReg) (b : VSrc) : Laws.OneStream.Statement (.fdiv h m vd va b) := rfl
theorem Laws.OneStream.fsqrt (h : LaneHdr) (m : Rnd) (vd va : VReg) : Laws.OneStream.Statement (.fsqrt h m vd va) := rfl
theorem Laws.OneStream.fset (h : LaneHdr) (cc : FCond) (pd : PReg) (va : VReg) (b : VSrc) : Laws.OneStream.Statement (.fset h cc pd va b) := rfl
theorem Laws.OneStream.rcp (h : LaneHdr) (vd va : VReg) : Laws.OneStream.Statement (.rcp h vd va) := rfl
theorem Laws.OneStream.rsq (h : LaneHdr) (vd va : VReg) : Laws.OneStream.Statement (.rsq h vd va) := rfl
theorem Laws.OneStream.ex2 (h : LaneHdr) (vd va : VReg) : Laws.OneStream.Statement (.ex2 h vd va) := rfl
theorem Laws.OneStream.lg2 (h : LaneHdr) (vd va : VReg) : Laws.OneStream.Statement (.lg2 h vd va) := rfl
theorem Laws.OneStream.sin (h : LaneHdr) (vd va : VReg) : Laws.OneStream.Statement (.sin h vd va) := rfl
theorem Laws.OneStream.cos (h : LaneHdr) (vd va : VReg) : Laws.OneStream.Statement (.cos h vd va) := rfl
theorem Laws.OneStream.tanh (h : LaneHdr) (vd va : VReg) : Laws.OneStream.Statement (.tanh h vd va) := rfl
theorem Laws.OneStream.erf (h : LaneHdr) (vd va : VReg) : Laws.OneStream.Statement (.erf h vd va) := rfl
theorem Laws.OneStream.specialFunctionComplete (g r : Nat) : Laws.OneStream.Statement (.specialFunctionComplete g r) := rfl
theorem Laws.OneStream.h2add (h : LaneHdr) (m : Rnd) (bf : Bool) (vd va : VReg) (b : VSrc) : Laws.OneStream.Statement (.h2add h m bf vd va b) := rfl
theorem Laws.OneStream.h2mul (h : LaneHdr) (m : Rnd) (bf : Bool) (vd va : VReg) (b : VSrc) : Laws.OneStream.Statement (.h2mul h m bf vd va b) := rfl
theorem Laws.OneStream.h2fma (h : LaneHdr) (m : Rnd) (bf : Bool) (vd va : VReg) (b : VSrc) (vc : VReg) : Laws.OneStream.Statement (.h2fma h m bf vd va b vc) := rfl
theorem Laws.OneStream.cvt (h : LaneHdr) (m : Rnd) (sat : Bool) (dt st : ElemTy) (vd va : VReg) : Laws.OneStream.Statement (.cvt h m sat dt st vd va) := rfl
theorem Laws.OneStream.ld (h : LaneHdr) (t : IntTy) (spa : Space) (acq : Bool) (sc : Scope) (w : Atomicity) (base : MBase) (idx : MIdx) (off : BitVec 12) (vd : VReg) : Laws.OneStream.Statement (.ld h t spa acq sc w base idx off vd) := rfl
theorem Laws.OneStream.st (h : LaneHdr) (t : IntTy) (spa : Space) (rel : Bool) (sc : Scope) (w : Atomicity) (base : MBase) (idx : MIdx) (off : BitVec 12) (vc : VReg) : Laws.OneStream.Statement (.st h t spa rel sc w base idx off vc) := rfl
theorem Laws.OneStream.atom (h : LaneHdr) (op : AtomOp) (t : AtomTy) (spa : Space) (ord : Ord4) (sc : Scope) (w : Atomicity) (base : MBase) (idx : MIdx) (off : BitVec 8) (vd vc : VReg) : Laws.OneStream.Statement (.atom h op t spa ord sc w base idx off vd vc) := rfl
theorem Laws.OneStream.red (h : LaneHdr) (op : AtomOp) (t : AtomTy) (spa : Space) (rel : Bool) (sc : Scope) (w : Atomicity) (base : MBase) (idx : MIdx) (off : BitVec 8) (vc : VReg) : Laws.OneStream.Statement (.red h op t spa rel sc w base idx off vc) := rfl
theorem Laws.OneStream.memoryRequestReturn (g r : Nat) : Laws.OneStream.Statement (.memoryRequestReturn g r) := rfl
theorem Laws.OneStream.fence (h : LaneHdr) (sc : Scope) : Laws.OneStream.Statement (.fence h sc) := rfl
theorem Laws.OneStream.cln (h : LaneHdr) (sc : Scope) : Laws.OneStream.Statement (.cln h sc) := rfl
theorem Laws.OneStream.inv (h : LaneHdr) (sc : Scope) : Laws.OneStream.Statement (.inv h sc) := rfl
theorem Laws.OneStream.pref (h : LaneHdr) (base : MBase) (idx : MIdx) (off : BitVec 12) : Laws.OneStream.Statement (.pref h base idx off) := rfl
theorem Laws.OneStream.lkln (h : LaneHdr) (base : MBase) (idx : MIdx) (off : BitVec 12) : Laws.OneStream.Statement (.lkln h base idx off) := rfl
theorem Laws.OneStream.ulln (h : LaneHdr) (base : MBase) (idx : MIdx) (off : BitVec 12) : Laws.OneStream.Statement (.ulln h base idx off) := rfl
theorem Laws.OneStream.cpyc (h : LaneHdr) (dst src : SReg) (dr sr : Byte) : Laws.OneStream.Statement (.cpyc h dst src dr sr) := rfl
theorem Laws.OneStream.cpyx (h : LaneHdr) (dst : SReg) (vx : VReg) (tab : SReg) (rc : Byte) : Laws.OneStream.Statement (.cpyx h dst vx tab rc) := rfl
theorem Laws.OneStream.job (h : LaneHdr) (card : SReg) : Laws.OneStream.Statement (.job h card) := rfl
theorem Laws.OneStream.taskdef (h : LaneHdr) (card cnt : SReg) (t : Byte) : Laws.OneStream.Statement (.taskdef h card cnt t) := rfl
theorem Laws.OneStream.taskwait (h : LaneHdr) (t : Byte) : Laws.OneStream.Statement (.taskwait h t) := rfl
theorem Laws.OneStream.submissionStart (st sub : Nat) : Laws.OneStream.Statement (.submissionStart st sub) := rfl
theorem Laws.OneStream.jobComplete (st sub : Nat) : Laws.OneStream.Statement (.jobComplete st sub) := rfl
theorem Laws.OneStream.tileArrival (st sub : Nat) : Laws.OneStream.Statement (.tileArrival st sub) := rfl
theorem Laws.OneStream.gangset (h : LaneHdr) (s : SReg) : Laws.OneStream.Statement (.gangset h s) := rfl
theorem Laws.OneStream.mma (h : LaneHdr) (fmt : MmaFmt) (td : TileDrain) (a b sc : SReg) (ra rb : Byte) : Laws.OneStream.Statement (.mma h fmt td a b sc ra rb) := rfl
theorem Laws.OneStream.mmaz (h : LaneHdr) (fmt : MmaFmt) (td : TileDrain) (a b sc : SReg) (ra rb : Byte) : Laws.OneStream.Statement (.mmaz h fmt td a b sc ra rb) := rfl
theorem Laws.OneStream.mdrain (h : LaneHdr) (slot : BitVec 4) (tile : Tile) (sc : SReg) : Laws.OneStream.Statement (.mdrain h slot tile sc) := rfl
theorem Laws.OneStream.matrixStep (c : Nat) : Laws.OneStream.Statement (.matrixStep c) := rfl
theorem Laws.OneStream.matrixComplete (c : Nat) : Laws.OneStream.Statement (.matrixComplete c) := rfl
theorem Laws.OneStream.scld (h : LaneHdr) (a cnt : SReg) (off : BitVec 14) : Laws.OneStream.Statement (.scld h a cnt off) := rfl
theorem Laws.OneStream.drld (h : LaneHdr) (a : SReg) (n : BitVec 7) (slot : BitVec 4) : Laws.OneStream.Statement (.drld h a n slot) := rfl
theorem Laws.OneStream.tkpass (h : LaneHdr) (t : Tile) : Laws.OneStream.Statement (.tkpass h t) := rfl
theorem Laws.OneStream.tktake (h : LaneHdr) (t : Tile) : Laws.OneStream.Statement (.tktake h t) := rfl
theorem Laws.OneStream.accrd (h : LaneHdr) (vd : VReg) (t : Tile) (vx : VReg) : Laws.OneStream.Statement (.accrd h vd t vx) := rfl
theorem Laws.OneStream.accwr (h : LaneHdr) (t : Tile) (vx vs : VReg) : Laws.OneStream.Statement (.accwr h t vx vs) := rfl
theorem Laws.OneStream.drainSegment (c : Nat) : Laws.OneStream.Statement (.drainSegment c) := rfl
theorem Laws.OneStream.drainComplete (c : Nat) : Laws.OneStream.Statement (.drainComplete c) := rfl
theorem Laws.OneStream.dadd (d a : EReg) (b : DSrc) : Laws.OneStream.Statement (.dadd d a b) := rfl
theorem Laws.OneStream.dmul (d a : EReg) (b : DSrc) : Laws.OneStream.Statement (.dmul d a b) := rfl
theorem Laws.OneStream.dfma (d a : EReg) (b : DSrc) (c : EReg) : Laws.OneStream.Statement (.dfma d a b c) := rfl
theorem Laws.OneStream.dmin (d a : EReg) (b : DSrc) : Laws.OneStream.Statement (.dmin d a b) := rfl
theorem Laws.OneStream.dmax (d a : EReg) (b : DSrc) : Laws.OneStream.Statement (.dmax d a b) := rfl
theorem Laws.OneStream.dclamp (d a : EReg) (b : DSrc) (c : EReg) : Laws.OneStream.Statement (.dclamp d a b c) := rfl
theorem Laws.OneStream.drow (t : DMemTy) (d : EReg) (p : SReg) : Laws.OneStream.Statement (.drow t d p) := rfl
theorem Laws.OneStream.dcol (t : DMemTy) (d : EReg) (p : SReg) : Laws.OneStream.Statement (.dcol t d p) := rfl
theorem Laws.OneStream.dscl (d a : EReg) (n : BitVec 9) : Laws.OneStream.Statement (.dscl d a n) := rfl
theorem Laws.OneStream.dgelu (d a : EReg) : Laws.OneStream.Statement (.dgelu d a) := rfl
theorem Laws.OneStream.dsilu (d a : EReg) : Laws.OneStream.Statement (.dsilu d a) := rfl
theorem Laws.OneStream.dtanh (d a : EReg) : Laws.OneStream.Statement (.dtanh d a) := rfl
theorem Laws.OneStream.dsig (d a : EReg) : Laws.OneStream.Statement (.dsig d a) := rfl
theorem Laws.OneStream.drelu (d a : EReg) : Laws.OneStream.Statement (.drelu d a) := rfl
theorem Laws.OneStream.damax (t : DMaxTy) (d a : EReg) : Laws.OneStream.Statement (.damax t d a) := rfl
theorem Laws.OneStream.dq8 (d a b : EReg) : Laws.OneStream.Statement (.dq8 d a b) := rfl
theorem Laws.OneStream.dq4 (d a b : EReg) : Laws.OneStream.Statement (.dq4 d a b) := rfl
theorem Laws.OneStream.dcvt (sat : Bool) (t : DCvtTy) (d a : EReg) : Laws.OneStream.Statement (.dcvt sat t d a) := rfl
theorem Laws.OneStream.dsel (cc : DSelCond) (d a b c : EReg) : Laws.OneStream.Statement (.dsel cc d a b c) := rfl
theorem Laws.OneStream.dst (t : DStTy) (a : EReg) (p m : SReg) : Laws.OneStream.Statement (.dst t a p m) := rfl
theorem Laws.OneStream.dsts (a : EReg) (p m : SReg) : Laws.OneStream.Statement (.dsts a p m) := rfl
theorem Laws.OneStream.dend (zero : Bool) : Laws.OneStream.Statement (.dend zero) := rfl
theorem Laws.OneStream.dmov (d : EReg) (a : DSrc) : Laws.OneStream.Statement (.dmov d a) := by cases a <;> rfl
theorem Laws.OneStream.dld (t : DMemTy) (d : EReg) (p m : SReg) : Laws.OneStream.Statement (.dld t d p m) := rfl
theorem Laws.OneStream.bari (h : LaneHdr) (o n : SReg) : Laws.OneStream.Statement (.bari h o n) := rfl
theorem Laws.OneStream.arrive (h : LaneHdr) (o : SReg) : Laws.OneStream.Statement (.arrive h o) := rfl
theorem Laws.OneStream.bwait (h : LaneHdr) (o : SReg) : Laws.OneStream.Statement (.bwait h o) := rfl
theorem Laws.OneStream.expect (h : LaneHdr) (o n : SReg) : Laws.OneStream.Statement (.expect h o n) := rfl
theorem Laws.OneStream.roleset (h : LaneHdr) (k : BitVec 2) : Laws.OneStream.Statement (.roleset h k) := rfl
theorem Laws.OneStream.xred (h : LaneHdr) (op : XOp) (s : SReg) (vb : VReg) : Laws.OneStream.Statement (.xred h op s vb) := rfl
theorem Laws.OneStream.xredRoundComplete (c : Nat) : Laws.OneStream.Statement (.xredRoundComplete c) := rfl
theorem Laws.OneStream.xwait (h : LaneHdr) (s : SReg) : Laws.OneStream.Statement (.xwait h s) := rfl
theorem Laws.OneStream.collectiveTimeout (c : Nat) : Laws.OneStream.Statement (.collectiveTimeout c) := rfl
theorem Laws.OneStream.append (h : LaneHdr) (g a n : SReg) : Laws.OneStream.Statement (.append h g a n) := rfl
theorem Laws.OneStream.apfence (h : LaneHdr) (d g : SReg) : Laws.OneStream.Statement (.apfence h d g) := rfl
theorem Laws.OneStream.seal (h : LaneHdr) (g : SReg) : Laws.OneStream.Statement (.seal h g) := rfl
theorem Laws.OneStream.recordDurable (seg : Nat) : Laws.OneStream.Statement (.recordDurable seg) := rfl
theorem Laws.OneStream.stallToken (g r : Nat) : Laws.OneStream.Statement (.stallToken g r) := rfl
theorem Laws.OneStream.stallRelease (g r : Nat) : Laws.OneStream.Statement (.stallRelease g r) := rfl
theorem Laws.OneStream.storageTimeout (g r : Nat) : Laws.OneStream.Statement (.storageTimeout g r) := rfl
theorem Laws.OneStream.launch (q : Nat) : Laws.OneStream.Statement (.launch q) := rfl
theorem Laws.OneStream.copy (q : Nat) : Laws.OneStream.Statement (.copy q) := rfl
theorem Laws.OneStream.task (q : Nat) : Laws.OneStream.Statement (.task q) := rfl
theorem Laws.OneStream.barrier (q : Nat) : Laws.OneStream.Statement (.barrier q) := rfl
theorem Laws.OneStream.invalidateTranslations (q : Nat) : Laws.OneStream.Statement (.invalidateTranslations q) := rfl
theorem Laws.OneStream.prefault (q : Nat) : Laws.OneStream.Statement (.prefault q) := rfl
theorem Laws.OneStream.demote (q : Nat) : Laws.OneStream.Statement (.demote q) := rfl
theorem Laws.OneStream.prefetchToHbm (q : Nat) : Laws.OneStream.Statement (.prefetchToHbm q) := rfl
theorem Laws.OneStream.conditionalSkip (q : Nat) : Laws.OneStream.Statement (.conditionalSkip q) := rfl
theorem Laws.OneStream.conditionalJump (q : Nat) : Laws.OneStream.Statement (.conditionalJump q) := rfl
theorem Laws.OneStream.conditionalRepeat (q : Nat) : Laws.OneStream.Statement (.conditionalRepeat q) := rfl
theorem Laws.OneStream.repeatTimeout (q : Nat) : Laws.OneStream.Statement (.repeatTimeout q) := rfl
theorem Laws.OneStream.lineWatchFire (line : Nat) : Laws.OneStream.Statement (.lineWatchFire line) := rfl
theorem Laws.OneStream.packetComplete (q idx : Nat) : Laws.OneStream.Statement (.packetComplete q idx) := rfl
theorem Laws.OneStream.itemFeed (l : Nat) : Laws.OneStream.Statement (.itemFeed l) := rfl
theorem Laws.OneStream.ejectionDecision (g p : Nat) : Laws.OneStream.Statement (.ejectionDecision g p) := rfl
theorem Laws.OneStream.laneRecall (g : Nat) : Laws.OneStream.Statement (.laneRecall g) := rfl
theorem Laws.OneStream.rejoinTimeout (g t : Nat) : Laws.OneStream.Statement (.rejoinTimeout g t) := rfl
theorem Laws.OneStream.registerLineFetch (g line : Nat) : Laws.OneStream.Statement (.registerLineFetch g line) := rfl
theorem Laws.OneStream.translationWalk (st : Nat) : Laws.OneStream.Statement (.translationWalk st) := rfl
theorem Laws.OneStream.promoteBlock (blk : Nat) : Laws.OneStream.Statement (.promoteBlock blk) := rfl
theorem Laws.OneStream.trapQueueDrain (st : Nat) : Laws.OneStream.Statement (.trapQueueDrain st) := rfl
theorem Laws.OneStream.trapRecordWrite (st : Nat) : Laws.OneStream.Statement (.trapRecordWrite st) := rfl
theorem Laws.OneStream.launchComplete (l : Nat) : Laws.OneStream.Statement (.launchComplete l) := rfl
theorem Laws.OneStream.stopNotice (cl : Nat) : Laws.OneStream.Statement (.stopNotice cl) := rfl
theorem Laws.OneStream.saveStart (cl : Nat) : Laws.OneStream.Statement (.saveStart cl) := rfl
theorem Laws.OneStream.saveComplete (cl : Nat) : Laws.OneStream.Statement (.saveComplete cl) := rfl
theorem Laws.OneStream.resumeRestore (cl : Nat) : Laws.OneStream.Statement (.resumeRestore cl) := rfl
theorem Laws.OneStream.framePoison (pa : Nat) : Laws.OneStream.Statement (.framePoison pa) := rfl
theorem Laws.OneStream.parityRetry (core grp lane pa tries : Nat) : Laws.OneStream.Statement (.parityRetry core grp lane pa tries) := rfl
theorem Laws.OneStream.stackDegrade (st : Nat) : Laws.OneStream.Statement (.stackDegrade st) := rfl
theorem Laws.OneStream.lifetimeRecord (st : Nat) : Laws.OneStream.Statement (.lifetimeRecord st) := rfl
theorem Laws.OneStream.powerGate (k : Nat) : Laws.OneStream.Statement (.powerGate k) := rfl
theorem Laws.OneStream.portFailure (port : Nat) : Laws.OneStream.Statement (.portFailure port) := rfl
theorem Laws.OneStream.hartAccess (req : HartReq) (addr : Nat) : Laws.OneStream.Statement (.hartAccess req addr) := rfl
theorem Laws.OneStream.pcieInboundRequest (via : PcieVia) (addr : Nat) (wr : Option (Nat × Dword)) : Laws.OneStream.Statement (.pcieInboundRequest via addr wr) := rfl
theorem Laws.OneStream.segmentFailure (seg : Nat) : Laws.OneStream.Statement (.segmentFailure seg) := rfl
theorem Laws.OneStream.uncorrectableStorageError (g kind idx : Nat) : Laws.OneStream.Statement (.uncorrectableStorageError g kind idx) := rfl
theorem Laws.OneStream.instructionFetchMiss (g p : Nat) (lane : Bool) : Laws.OneStream.Statement (.instructionFetchMiss g p lane) := rfl
theorem Laws.OneStream.connectionSetup (port : Nat) (peer : Peer) : Laws.OneStream.Statement (.connectionSetup port peer) := rfl
theorem Laws.OneStream.ret : Laws.OneStream.Statement (.ret) := rfl
theorem Laws.OneStream.exit : Laws.OneStream.Statement (.exit) := rfl
theorem Laws.OneStream.snap : Laws.OneStream.Statement (.snap) := rfl
theorem Laws.OneStream.eret : Laws.OneStream.Statement (.eret) := rfl
theorem Laws.OneStream.yield : Laws.OneStream.Statement (.yield) := rfl
theorem Laws.OneStream.lend : Laws.OneStream.Statement (.lend) := rfl
theorem Laws.OneStream.placementSearch : Laws.OneStream.Statement (.placementSearch) := rfl
theorem Laws.OneStream.placementRequest : Laws.OneStream.Statement (.placementRequest) := rfl
theorem Laws.OneStream.preemptDecision : Laws.OneStream.Statement (.preemptDecision) := rfl
theorem Laws.OneStream.thermalThrottle : Laws.OneStream.Statement (.thermalThrottle) := rfl
theorem Laws.OneStream.thermalShutdown : Laws.OneStream.Statement (.thermalShutdown) := rfl
theorem Laws.OneStream.powerLoss : Laws.OneStream.Statement (.powerLoss) := rfl
theorem Laws.OneStream.coldReset : Laws.OneStream.Statement (.coldReset) := rfl
theorem Laws.OneStream.warmReset : Laws.OneStream.Statement (.warmReset) := rfl
theorem Laws.OneStream.registerQueue : Laws.OneStream.Statement (.registerQueue) := rfl
theorem Laws.OneStream.freeQueue : Laws.OneStream.Statement (.freeQueue) := rfl
theorem Laws.OneStream.resetQueue : Laws.OneStream.Statement (.resetQueue) := rfl
theorem Laws.OneStream.recordReply : Laws.OneStream.Statement (.recordReply) := rfl
theorem Laws.OneStream.createSegment : Laws.OneStream.Statement (.createSegment) := rfl
theorem Laws.OneStream.attachSegment : Laws.OneStream.Statement (.attachSegment) := rfl
theorem Laws.OneStream.freeSegment : Laws.OneStream.Statement (.freeSegment) := rfl
theorem Laws.OneStream.hostAppend : Laws.OneStream.Statement (.hostAppend) := rfl
theorem Laws.OneStream.hostSeal : Laws.OneStream.Statement (.hostSeal) := rfl
theorem Laws.OneStream.createCollective : Laws.OneStream.Statement (.createCollective) := rfl
theorem Laws.OneStream.registerBlockTable : Laws.OneStream.Statement (.registerBlockTable) := rfl
theorem Laws.OneStream.unregisterBlockTable : Laws.OneStream.Statement (.unregisterBlockTable) := rfl
theorem Laws.OneStream.setStorageTimeout : Laws.OneStream.Statement (.setStorageTimeout) := rfl
theorem Laws.OneStream.setPromotionPool : Laws.OneStream.Statement (.setPromotionPool) := rfl
theorem Laws.OneStream.killLaunch : Laws.OneStream.Statement (.killLaunch) := rfl
theorem Laws.OneStream.teardownPasid : Laws.OneStream.Statement (.teardownPasid) := rfl
theorem Laws.OneStream.attestationReport : Laws.OneStream.Statement (.attestationReport) := rfl
theorem Laws.OneStream.openLifetimeSegment : Laws.OneStream.Statement (.openLifetimeSegment) := rfl
theorem Laws.OneStream.registerProcess : Laws.OneStream.Statement (.registerProcess) := rfl
theorem Laws.OneStream.listKeptSegments : Laws.OneStream.Statement (.listKeptSegments) := rfl
theorem Laws.OneStream.orderlyShutdown : Laws.OneStream.Statement (.orderlyShutdown) := rfl
end Sys2Proof
end

