-- ==== Sys2Proof/Tests/Slice0.lean ====
section
/-! SUPPORT. Tests: words written out from the spec's encodings, ill-formed terms, and witnesses that the statements'
hypotheses can be met. -/
namespace Sys2Proof.Tests
open Sys2Proof Sys2Proof.Machine
set_option Elab.async false

/-! ## Words written out from the encoding tables -/

/-- A scalar word of form R or I, from its fields (R73). -/
def sw (op d a b fn : Nat) : Word := BitVec.ofNat 32 (op * 2 ^ 26 + d * 2 ^ 20 + a * 2 ^ 14 + b * 2 ^ 8 + fn)
/-- A scalar word whose low 14 bits are an immediate (R73, form I). -/
def si (op d a imm : Nat) : Word := BitVec.ofNat 32 (op * 2 ^ 26 + d * 2 ^ 20 + a * 2 ^ 14 + imm)
/-- A scalar word whose low 26 bits are an offset (R73, form J). -/
def sj (op off : Nat) : Word := BitVec.ofNat 32 (op * 2 ^ 26 + off)
/-- A lane word from its fields, in the order of R80. -/
def lw (maj fn vd va vb vc pred neg ty dist wait flag imm : Nat) : BitVec 96 :=
  BitVec.ofNat 96 (maj * 2 ^ 88 + fn * 2 ^ 80 + vd * 2 ^ 71 + va * 2 ^ 62 + vb * 2 ^ 53 + vc * 2 ^ 44 + pred * 2 ^ 41 +
    neg * 2 ^ 40 + ty * 2 ^ 36 + dist * 2 ^ 33 + wait * 2 ^ 21 + flag * 2 ^ 17 + imm)
/-- A drain word from its fields (R92). -/
def dw (op d a b c ty ext : Nat) : Dword :=
  BitVec.ofNat 64 (op * 2 ^ 58 + d * 2 ^ 54 + a * 2 ^ 50 + b * 2 ^ 46 + c * 2 ^ 42 + ty * 2 ^ 37 + ext)

/-- A header of a class without a completion flag: `!p3`, distance 5, waiting on `f1`, `f4` and `f11`. -/
def hF : LaneHdr := { pred := 3, neg := true, dist := 5, wait := 0x812, setf := 15 }
/-- The same with completion flag `f7`. -/
def hA : LaneHdr := { pred := 3, neg := true, dist := 5, wait := 0x812, setf := 7 }
/-- A header of a whole-group class: distance 2, waiting on `f0` and `f10`, flag `f9`. -/
def hG : LaneHdr := { pred := 0, neg := false, dist := 2, wait := 0x401, setf := 9 }
/-- A lane word under `hF`. -/
def lF (maj fn vd va vb vc ty imm : Nat) : BitVec 96 := lw maj fn vd va vb vc 3 1 ty 5 0x812 15 imm
/-- A lane word under `hA`. -/
def lA (maj fn vd va vb vc ty imm : Nat) : BitVec 96 := lw maj fn vd va vb vc 3 1 ty 5 0x812 7 imm
/-- A lane word under `hG`. -/
def lG (maj fn vd va vb vc ty imm : Nat) : BitVec 96 := lw maj fn vd va vb vc 0 0 ty 2 0x401 9 imm

/-- Every word of the list decodes to its instruction, which is well-formed and encodes to it. -/
def allS (l : List (Word × Instr)) : Bool := l.all fun x => decodeScalar x.1 = some x.2 && x.2.wf && encodeScalar x.2 = some x.1
def allL (l : List (BitVec 96 × Instr)) : Bool := l.all fun x => decodeLane x.1 = some x.2 && x.2.wf && encodeLane x.2 = some x.1
def allD (l : List (Dword × Instr)) : Bool := l.all fun x => decodeDrain x.1 = some x.2 && x.2.wf && encodeDrain x.2 = some x.1
/-- Every word of the list is refused. -/
def noS (l : List Word) : Bool := l.all fun x => decodeScalar x = none
def noL (l : List (BitVec 96)) : Bool := l.all fun x => decodeLane x = none
def noD (l : List Dword) : Bool := l.all fun x => decodeDrain x = none

/-- R76: the functions of opcode `0x01`. -/
theorem test_words_scalar_arith : allS
    [(0x04304200, .add 3 1 2), (sw 1 63 62 61 1, .sub 63 62 61), (sw 1 5 6 7 2, .mul 5 6 7), (sw 1 5 6 7 3, .mulh 5 6 7),
     (sw 1 5 6 7 4, .mulhZ32 5 6 7), (sw 1 5 6 7 5, .divs 5 6 7), (sw 1 5 6 7 8, .and 5 6 7), (sw 1 5 6 7 9, .or 5 6 7),
     (sw 1 5 6 7 10, .xor 5 6 7), (sw 1 5 6 7 11, .andn 5 6 7), (sw 1 5 6 7 0x10, .shl 5 6 7),
     (sw 1 5 6 7 0x11, .shr 5 6 7), (sw 1 5 6 7 0x12, .sra 5 6 7), (sw 1 5 6 7 0x18, .min 5 6 7),
     (sw 1 5 6 7 0x19, .max 5 6 7), (sw 1 5 6 7 0x1A, .minZ32 5 6 7), (sw 1 5 6 7 0x1B, .maxZ32 5 6 7),
     (sw 1 5 6 7 0x1C, .sel 5 6 7), (sw 1 8 6 4 0x30, .addZ64 8 6 4), (sw 1 8 6 4 0x31, .subZ64 8 6 4)] = true := by
  decide +kernel

/-- R76: the comparison functions. -/
theorem test_words_scalar_compare : allS
    [(sw 1 5 6 7 0x20, .cmp .eq 5 6 7), (sw 1 5 6 7 0x21, .cmp .ne 5 6 7), (sw 1 5 6 7 0x22, .cmp .lt 5 6 7),
     (sw 1 5 6 7 0x23, .cmp .le 5 6 7), (sw 1 5 6 7 0x24, .cmp .gt 5 6 7), (sw 1 5 6 7 0x25, .cmp .ge 5 6 7),
     (sw 1 5 6 7 0x28, .cmpZ32 .lt 5 6 7), (sw 1 5 6 7 0x29, .cmpZ32 .le 5 6 7), (sw 1 5 6 7 0x2A, .cmpZ32 .gt 5 6 7),
     (sw 1 5 6 7 0x2B, .cmpZ32 .ge 5 6 7)] = true := by decide +kernel

/-- R75, R78: the immediate and control words. -/
theorem test_words_scalar_control : allS
    [(si 2 5 6 0x3FFF, .addi 5 6 0x3FFF), (si 3 5 6 0x2001, .andi 5 6 0x2001), (si 4 5 6 1, .ori 5 6 1),
     (si 5 5 6 2, .xori 5 6 2), (si 6 5 6 31, .shli 5 6 31), (si 7 5 6 1, .shri 5 6 1), (si 8 5 6 30, .srai 5 6 30),
     (0x247FFFFB, .movi 7 0xFFFFB), (0x28700123, .movhi 7 0x123), (0x40014003, .brNz 5 3), (si 0x11 0 5 0x3FFE, .brZ 5 0x3FFE),
     (BitVec.ofNat 32 (0x12 * 2 ^ 26 + 3 * 2 ^ 23 + 1 * 2 ^ 22 + 2 * 2 ^ 20 + 9 * 2 ^ 14 + 0x3FF0), .brd 3 true 2 9 0x3FF0),
     (sj 0x13 0x3FFFFFF, .jmp 0x3FFFFFF), (0x50000028, .call 0x28), (sw 0x15 0 9 0 0, .jmpi 9),
     (si 0x16 2 0 (383 * 32), .jmpv 2 383), (si 0x17 3 0 (4 * 32), .callv 3 4), (sw 0x18 0 0 0 0, .ret),
     (si 0x19 0 0 3, .rjoin 3), (0x6800000C, .lrun 12), (sj 0x1B 7, .ljmp 7), (si 0x1C 0 0 0x3FFD, .looph 0x3FFD),
     (0x74000000, .exit)] = true := by decide +kernel

/-- R75, R77, R79, R95: masks, memory, waits, special registers, traps and hints. -/
theorem test_words_scalar_system : allS
    [(sw 0x20 1 4 61 0, .mand 1 4 61), (sw 0x20 1 4 61 1, .mor 1 4 61), (sw 0x20 1 4 61 2, .mxor 1 4 61),
     (sw 0x20 1 4 0 3, .mnot 1 4), (0x805F4004, .mpop 5 61), (sw 0x20 2 7 0 5, .mfirst 2 7),
     (si 0x24 5 6 0x3FFC, .sld 5 6 0x3FFC), (si 0x25 4 6 8, .sldZ64 4 6 8), (si 0x26 5 6 4, .sst 5 6 4),
     (si 0x27 4 6 16, .sstZ64 4 6 16), (si 0x28 5 0 4092, .sarg 5 4092), (si 0x29 4 0 4088, .sargZ64 4 4088),
     (BitVec.ofNat 32 (0x2C * 2 ^ 26 + 0x803 * 2 ^ 14), .waitf 0x803),
     (BitVec.ofNat 32 (0x2D * 2 ^ 26 + 4 * 2 ^ 11 + 9 * 2 ^ 5), .waitk .flash 9),
     (si 0x34 0 0 0x123, .sigchk 0x123), (sw 0x35 0 0 0 0, .snap), (si 0x38 0 0 5, .trap 5),
     (si 0x39 0 0 0x3FFF, .svc 0x3FFF), (si 0x3A 0 0 1, .bkpt 1), (0xEC000000, .eret), (0xF0000000, .yield),
     (0xF8000000, .nop 0), (0xFBFFFFFF, .nop 0x3FFFFFF)] = true := by decide +kernel

/-- R95: the special numbers. -/
theorem test_words_special : allS
    [(si 0x30 5 0 0, .srd 5 .encrev), (si 0x30 5 0 1, .srd 5 .coreid), (si 0x30 5 0 2, .srd 5 .gpos),
     (si 0x30 5 0 3, .srd 5 .clusterid), (si 0x30 5 0 4, .srdCyclo 5), (si 0x30 5 0 5, .srdCychi 5),
     (si 0x30 5 0 0x10, .srd 5 .ejth), (si 0x30 5 0 0x11, .srd 5 .rjto), (si 0x30 5 0 0x12, .srd 5 .deadlanes),
     (si 0x30 5 0 0x13, .srd 5 .deadm0), (si 0x30 5 0 0x14, .srd 5 .deadm1), (si 0x30 5 0 0x15, .srd 5 .deadm2),
     (si 0x30 5 0 0x20, .srd 5 .role), (si 0x30 5 0 0x21, .srd 5 .gang), (si 0x30 5 0 0x22, .srd 5 .sigval),
     (si 0x30 5 0 0x30, .srd 5 .fpflags), (si 0x30 5 0 0x31, .srd 5 .fpmode), (si 0x30 5 0 0x100, .srd 5 .tcause),
     (si 0x30 5 0 0x101, .srd 5 .tval0), (si 0x30 5 0 0x102, .srd 5 .tval1), (si 0x30 5 0 0x103, .srd 5 .tspc),
     (si 0x30 5 0 0x104, .srd 5 .tlpc), (si 0x31 0 5 0x10, .swrEjth 5), (si 0x31 0 5 0x11, .swrRjto 5),
     (si 0x31 0 5 0x30, .swrFpflags 5), (si 0x31 0 5 0x100, .swrTrapState .tcause 5),
     (si 0x31 0 5 0x104, .swrTrapState .tlpc 5)] = true := by decide +kernel

/-- R94: scalar words that are no instruction. -/
theorem test_words_scalar_refused : noS
    [0, 0xFFFFFFFF, sw 1 0 0 0 6, sw 1 0 0 0 0x26, sw 1 1 2 4 0x30, sw 1 2 3 4 0x31, sw 0x20 0 1 1 0, sw 0x20 1 4 1 3,
     sw 0x20 0 0 0 6, si 6 1 1 32, si 0x0A 0 1 0, si 0x0A 0 0 0x1000, si 0x10 1 0 0, sw 0x15 1 0 0 0, si 0x16 4 0 0,
     si 0x16 0 0 (384 * 32), si 0x16 0 0 1, si 0x19 0 0 4, si 0x1C 1 0 0, sw 0x1D 0 0 0 1, si 0x24 0 1 0, si 0x25 1 2 0,
     si 0x28 0 0 2, si 0x28 0 0 4096, si 0x29 0 0 4092, BitVec.ofNat 32 (0x2D * 2 ^ 26 + 6 * 2 ^ 11),
     si 0x2C 0 0 1, si 0x30 0 0 6, si 0x30 0 0 0x105, si 0x31 0 0 0, si 0x31 1 0 0x10, si 0x38 1 0 0,
     sw 0x3B 0 0 0 1, si 0x3D 0 0 0] = true := by decide +kernel

/-- R86, R173: class `0x01`. -/
theorem test_words_lane_integer : allL
    [(0x01000502C18000A0001E0000, .iadd ⟨0, false, 0, 0, 15⟩ .s16 true 10 11 (.reg 12)),
     (lF 1 0 1 2 3 0 0 0, .iadd hF .s32 false 1 2 (.reg 3)), (lF 1 0x81 1 2 0 0 9 0x1FFFF, .isub hF .z32 true 1 2 (.imm 0x1FFFF)),
     (lF 1 2 1 2 3 0 5 0, .imul hF .z8 false 1 2 (.reg 3)), (lF 1 3 2 4 6 8 7 0, .imad hF .z64 false 2 4 (.reg 6) 8),
     (lF 1 4 1 2 3 0 1 0, .imulh hF .z32 1 2 (.reg 3)), (lF 1 5 2 4 0 0 14 0, .iabs hF .s64 true 2 4),
     (lF 1 6 1 2 3 0 4 0, .imin hF .s8 1 2 (.reg 3)), (lF 1 0x87 1 2 0 0 3 0xFFFF, .imax hF .z16 1 2 (.imm 0xFFFF)),
     (lF 1 8 1 2 3 0 1 0, .laneAnd hF .z32 1 2 (.reg 3)), (lF 1 9 1 2 3 0 1 0, .laneOr hF .z32 1 2 (.reg 3)),
     (lF 1 0xA 1 2 3 0 1 0, .laneXor hF .z32 1 2 (.reg 3)), (lF 1 0xB 1 2 0 0 1 0, .not hF .z32 1 2),
     (lF 1 0x90 1 2 0 0 0 5, .laneShl hF .s32 1 2 (.imm 5)), (lF 1 0x11 1 2 3 0 0 0, .laneShr hF .s32 1 2 (.reg 3)),
     (lF 1 0x12 1 2 3 0 0 0, .laneSra hF .s32 1 2 (.reg 3)), (lF 1 0x13 1 2 3 0 0 0, .rot hF .s32 1 2 (.reg 3)),
     (lF 1 0x18 1 2 0 0 0 0, .popc hF .s32 1 2), (lF 1 0x19 1 2 0 0 0 0, .clz hF .s32 1 2),
     (lF 1 0x1A 1 2 0 0 0 0, .brev hF .s32 1 2), (lF 1 0x1B 1 2 0 0 1 (7 * 32 + 9), .bfx hF .z32 1 2 7 9),
     (lF 1 0x1C 1 2 0 0 0 (31 * 32 + 31), .bfi hF .s32 1 2 31 31), (lF 1 0x20 1 2 3 6 0 0, .laneSel hF .s32 1 2 (.reg 3) 6),
     (lF 1 0x21 1 2 0 0 0 0, .mov hF .s32 1 (.reg 2)), (lF 1 0xA1 383 0 0 0 1 0x12345, .mov hF .z32 383 (.imm 0x12345)),
     (lF 1 0x22 1 9 0 0 0 0, .movs hF .s32 1 9), (lF 1 0x23 2 10 0x1FF 0 7 (2 * 2 ^ 12 + 0xFFC), .lea hF 2 (.scal 10) (.lane 2) 0xFFC),
     (lF 1 0x23 2 4 5 0 7 (2 ^ 15 + 4 * 2 ^ 12 + 8), .lea hF 2 (.vec 4) (.reg 5 4) 8),
     (lF 1 0x23 2 4 0 0 7 (7 * 2 ^ 12), .lea hF 2 (.scal 4) .none 0)] = true := by decide +kernel

/-- R157: the one word that ends a lane run. -/
theorem test_words_lend : allL [(lw 1 0x21 0 0 0 0 0 1 0 0 0 15 0, .lend)] = true := by decide +kernel

/-- R87: classes `0x02` and `0x04`. -/
theorem test_words_lane_exchange : allL
    [(0x0282018140000010001E0064, .iset ⟨0, false, 0, 0, 15⟩ .lt .z32 3 5 (.imm 100)),
     (lF 2 0 7 1 2 0 0 0, .iset hF .eq .s32 7 1 (.reg 2)), (lF 2 1 1 2 4 0 6 0, .iset hF .ne .s64 1 2 (.reg 4)),
     (lF 2 3 1 2 4 0 7 0, .iset hF .le .z64 1 2 (.reg 4)), (lF 2 4 1 1 2 0 0 0, .iset hF .gt .s32 1 1 (.reg 2)),
     (lF 2 5 1 1 2 0 0 0, .iset hF .ge .s32 1 1 (.reg 2)), (lF 4 0 1 2 3 0 0 0, .shfl hF .idx .s32 1 2 (.reg 3)),
     (lF 4 0x81 1 2 0 0 0 4, .shfl hF .up .s32 1 2 (.imm 4)), (lF 4 2 2 4 6 0 6 0, .shfl hF .down .s64 2 4 (.reg 6)),
     (0x04830A0500000000001E0001, .shfl ⟨0, false, 0, 0, 15⟩ .xor .s32 20 20 (.imm 1)), (lF 4 8 1 2 0 0 0 0, .voteAny hF 1 2),
     (lF 4 9 1 2 0 0 0 0, .voteAll hF 1 2), (0x040A008080000000001E0000, .voteBallot ⟨0, false, 0, 0, 15⟩ 1 2),
     (lF 4 0x10 1 2 0 0 0 0, .gred hF .add .s32 1 2), (lF 4 0x11 1 2 0 0 1 0, .gred hF .min .z32 1 2),
     (lF 4 0x12 2 4 0 0 6 0, .gred hF .max .s64 2 4), (lF 4 0x13 1 2 0 0 0 0, .gred hF .and .s32 1 2),
     (lF 4 0x14 1 2 0 0 0 0, .gred hF .or .s32 1 2), (lF 4 0x15 1 2 0 0 0 0, .gred hF .xor .s32 1 2)] = true := by
  decide +kernel

/-- R88: the floating classes. -/
theorem test_words_lane_float : allL
    [(lF 8 0 1 2 3 0 4 0, .fadd hF .rz 1 2 (.reg 3)), (lF 8 0x81 1 2 0 0 8 0x1FC00, .fsub hF .rp 1 2 (.imm 0x1FC00)),
     (lF 8 2 1 2 3 0 12 0, .fmul hF .rm 1 2 (.reg 3)),
     (0x08830F07C0020080001E8000, .ffma ⟨0, false, 0, 0, 15⟩ .rp 30 31 (.imm 0x8000) 32),
     (lF 8 4 1 2 3 0 0 0, .fmin hF 1 2 (.reg 3)), (lF 8 5 1 2 3 0 0 0, .fmax hF 1 2 (.reg 3)), (lF 8 6 1 2 0 0 0 0, .fabs hF 1 2),
     (lF 8 7 1 2 0 0 0 0, .fneg hF 1 2), (lF 8 8 1 2 0 0 0 0, .fclass hF 1 2), (lF 8 9 1 2 3 0 0 0, .fscale hF .rne 1 2 (.reg 3)),
     (lF 8 10 1 2 0 0 4 0, .frnd hF .rz 1 2), (lF 8 11 1 2 3 0 0 0, .fdiv hF .rne 1 2 (.reg 3)), (lF 8 12 1 2 0 0 12 0, .fsqrt hF .rm 1 2),
     (lF 9 0 1 2 3 0 0 0, .fset hF .eq 1 2 (.reg 3)), (lF 9 1 1 2 3 0 0 0, .fset hF .ne 1 2 (.reg 3)),
     (lF 9 2 1 2 3 0 0 0, .fset hF .lt 1 2 (.reg 3)), (lF 9 3 1 2 3 0 0 0, .fset hF .le 1 2 (.reg 3)),
     (lF 9 4 1 2 3 0 0 0, .fset hF .gt 1 2 (.reg 3)), (lF 9 5 1 2 3 0 0 0, .fset hF .ge 1 2 (.reg 3)),
     (lF 9 6 1 2 3 0 0 0, .fset hF .un 1 2 (.reg 3)), (lF 9 0x87 1 2 0 0 0 1, .fset hF .or 1 2 (.imm 1)),
     (0x0A0004024000000000040000, .rcp ⟨0, false, 0, 0, 2⟩ 8 9), (lA 10 1 1 2 0 0 0 0, .rsq hA 1 2), (lA 10 2 1 2 0 0 0 0, .ex2 hA 1 2),
     (lA 10 3 1 2 0 0 0 0, .lg2 hA 1 2), (lA 10 4 1 2 0 0 0 0, .sin hA 1 2), (lA 10 5 1 2 0 0 0 0, .cos hA 1 2),
     (lA 10 6 1 2 0 0 0 0, .tanh hA 1 2), (lA 10 7 1 2 0 0 0 0, .erf hA 1 2),
     (lF 11 0 1 2 3 0 0 0, .h2add hF .rne false 1 2 (.reg 3)), (lF 11 0x81 1 2 0 0 13 0x3F80, .h2mul hF .rm true 1 2 (.imm 0x3F80)),
     (0x0B02190CC6835010001E0000, .h2fma ⟨0, false, 0, 0, 15⟩ .rne true 50 51 (.reg 52) 53),
     (0x0CC9140A40000020001E0000, .cvt ⟨0, false, 0, 0, 15⟩ .rne true .e4m3 .f32 40 41),
     (lF 12 0x79 2 1 0 0 4 0, .cvt hF .rz false .s64 .f32 2 1)] = true := by decide +kernel

/-- R89, R90: the memory classes. -/
theorem test_words_lane_memory : allL
    [(lA 0x10 0x0C 1 4 0x1FF 0 0 (0 + 2 * 2 ^ 12 + 0xFFC), .ld hA .s32 .glob true .sys .four (.scal 4) (.lane 2) 0xFFC 1),
     (lA 0x10 0x60 4 6 5 0 1 (2 * 2 ^ 15 + 4 * 2 ^ 12 + 16), .ld hA .z32 .sp false .grp .w16 (.vec 6) (.reg 5 4) 16 4),
     (lA 0x11 0x93 0 4 0 8 7 (2 ^ 15 + 7 * 2 ^ 12 + 8), .st hA .z64 .cw true .dev .w8 (.scal 4) .none 8 8),
     (lA 0x12 0x1A 1 4 0 2 8 (7 * 2 ^ 12 + 0 * 2 ^ 8 + 4), .atom hA .add .f32 .glob .ar .clu .four (.scal 4) .none 4 1 2),
     (lA 0x12 0 1 4 0 2 1 (7 * 2 ^ 12 + 7 * 2 ^ 8 + 0xFC), .atom hA .cas (.int .z32) .glob .plain .grp .four (.scal 4) .none 0xFC 1 2),
     (lA 0x12 0x51 2 4 0 6 6 (2 ^ 15 + 7 * 2 ^ 12 + 6 * 2 ^ 8), .atom hA .exch (.int .s64) .sp .rel .team .w8 (.scal 4) .none 0 2 6),
     (lA 0x13 0x10 0 4 0 3 0 (7 * 2 ^ 12 + 5 * 2 ^ 8 + 8), .red hA .xor (.int .s32) .glob true .grp .four (.scal 4) .none 8 3),
     (lA 0x13 0 0 4 0 3 8 (7 * 2 ^ 12 + 1 * 2 ^ 8), .red hA .min .f32 .glob false .grp .four (.scal 4) .none 0 3),
     (lG 0x14 0 0 0 0 0 4 0, .fence hG .sys), (lG 0x14 1 0 0 0 0 3 0, .cln hG .dev), (lG 0x14 2 0 0 0 0 1 0, .inv hG .team),
     (lA 0x14 3 0 4 0x1FF 0 0 (0 * 2 ^ 12 + 0x800), .pref hA (.scal 4) (.lane 0) 0x800),
     (lA 0x14 4 0 4 0 0 0 (7 * 2 ^ 12), .lkln hA (.scal 4) .none 0),
     (lA 0x14 5 0 4 9 0 0 (2 ^ 15 + 3 * 2 ^ 12 + 1), .ulln hA (.vec 4) (.reg 9 3) 1)] = true := by decide +kernel

/-- R91: the whole-group classes. -/
theorem test_words_whole_group : allL
    [(0x180000050340000000060100, .cpyc ⟨0, false, 0, 0, 3⟩ 20 26 1 0), (lG 0x18 1 0 20 8 4 0 7, .cpyx hG 20 8 4 7),
     (lG 0x18 2 0 20 0 0 0 0, .job hG 20), (lG 0x18 3 0 20 7 0 0 255, .taskdef hG 20 7 255), (lG 0x18 4 0 0 0 0 0 3, .taskwait hG 3),
     (lG 0x19 0 0 7 0 0 0 0, .gangset hG 7), (lG 0x19 1 0x1F3 10 16 22 3 0x0201, .mma hG .bf16 ⟨true, 15, 3⟩ 10 16 22 2 1),
     (lG 0x19 2 3 10 16 22 5 0, .mmaz hG .s8 ⟨false, 0, 3⟩ 10 16 22 0 0), (lG 0x19 3 0x125 0 0 22 0 0, .mdrain hG 2 5 22),
     (lG 0x19 4 0 20 7 0 0 0x3FFF, .scld hG 20 7 0x3FFF), (lG 0x19 5 0 20 0 0 0 (64 * 16 + 3), .drld hG 20 64 3),
     (lG 0x19 6 15 0 0 0 0 0, .tkpass hG 15), (lG 0x19 7 1 0 0 0 0 0, .tktake hG 1), (lG 0x19 8 9 3 4 0 0 0, .accrd hG 9 3 4),
     (lG 0x19 9 0 3 4 9 0 0, .accwr hG 3 4 9), (lG 0x1A 0 0 5 6 0 0 0, .bari hG 5 6), (lG 0x1A 1 0 5 0 0 0 0, .arrive hG 5),
     (lG 0x1A 2 0 5 0 0 0 0, .bwait hG 5), (lG 0x1A 3 0 5 6 0 0 0, .expect hG 5 6), (lG 0x1A 4 0 0 0 0 0 3, .roleset hG 3),
     (lG 0x1A 5 0 9 6 0 0 2, .xred hG .pair 9 6), (lG 0x1A 5 0 9 7 0 0 0, .xred hG .max 9 7), (0x1A05000243C0000000060001, .xred ⟨0, false, 0, 0, 3⟩ .sum 9 30),
     (lG 0x1A 6 0 9 0 0 0 0, .xwait hG 9), (lG 0x1B 0 0 10 12 7 0 0, .append hG 10 12 7), (lG 0x1B 1 10 20 0 0 0 0, .apfence hG 10 20),
     (lG 0x1B 2 0 20 0 0 0 0, .seal hG 20)] = true := by decide +kernel

/-- The words that the chapters of the whole-group classes work out. -/
theorem test_words_whole_group_worked : allL
    [(0x19000001C0000000001E0000, .gangset ⟨0, false, 0, 0, 15⟩ 7), (0x190189050340A00000060102, .mma ⟨0, false, 0, 0, 3⟩ .e4m3 ⟨true, 1, 2⟩ 20 26 10 1 2),
     (0x1907010000000000000A0000, .tktake ⟨0, false, 0, 0, 5⟩ 2), (0x1904000382000000001E0400, .scld ⟨0, false, 0, 0, 15⟩ 14 16 0x400),
     (0x1B00000502C18000000A0000, .append ⟨0, false, 0, 0, 5⟩ 20 22 24), (0x1B010F0500000000000C0000, .apfence ⟨0, false, 0, 0, 6⟩ 30 20),
     (0x1B02000500000000000E0000, .seal ⟨0, false, 0, 0, 7⟩ 20), (0x1A00000100A00000001E0000, .bari ⟨0, false, 0, 0, 15⟩ 4 5),
     (0x1A0600024000000000080000, .xwait ⟨0, false, 0, 0, 4⟩ 9)] = true := by decide +kernel

/-- R82, R83, R84, R89, R91, R174: lane words that are no instruction. -/
theorem test_words_lane_refused : noL
    [0, lF 3 0 0 0 0 0 0 0, lF 1 0x24 0 0 0 0 0 0, lF 1 0 384 0 0 0 0 0, lF 1 0 1 0 0 0 6 0, lA 1 0 0 0 0 0 0 0,
     lF 1 0 0 0 0 1 0 0, lF 1 0 0 0 0 0 0 1, lF 1 0x80 0 0 1 0 0 0, lF 1 0x80 0 0 0 0 2 0x10000, lF 1 0x80 0 0 0 0 4 0x100,
     lF 1 4 0 0 0 0 8 0, lF 1 5 0 0 0 0 1 0, lF 1 0x85 0 0 0 0 0 0, lF 1 0x1B 0 0 0 0 2 0, lF 1 0x1B 0 0 0 0 0 0x400,
     lF 1 0x20 0 0 0 8 0 0, lF 1 0x22 0 64 0 0 0 0, lF 1 0x22 0 1 0 0 7 0, lF 1 0x23 0 0 0 0 6 0x7000, lF 1 0x23 0 0 1 0 7 0x7000,
     lF 1 0x23 0 0 0 0 7 0x5000, lF 1 0x23 0 0 0 0 7 0x17000, lF 2 0 0 0 0 0 0 0, lF 2 6 1 0 0 0 0 0, lF 2 0 1 0 0 0 2 0,
     lF 4 4 0 0 0 0 0 0, lF 4 0x0A 0 0 0 0 0 0, lF 4 0x88 1 0 0 0 0 0, lF 4 0x16 0 0 0 0 0 0, lF 8 4 0 0 0 0 4 0, lF 8 13 0 0 0 0 0 0,
     lF 8 0 0 0 0 0 1 0, lF 9 8 1 0 0 0 0 0, lA 10 8 0 0 0 0 0 0, lF 11 0 0 0 0 0 2 0, lF 12 0x99 0 0 0 0 0 0, lF 12 0x9F 0 0 0 0 0 0,
     lF 12 0x09 0 0 0 0 0 0, lA 0x10 5 0 0 0 0 0 0x7000, lA 0x10 1 0 0 0 0 0 0x7000, lA 0x10 0x10 0 0 0 0 0 0x7000, lA 0x10 0xC0 0 0 0 0 0 0x7000,
     lA 0x10 0 0 1 0 0 0 0x7000, lA 0x10 0 0 0 0 0 8 0x7000, lA 0x10 0 0 0 0 1 0 0x7000, lA 0x10 0 0 0 0 0 0 0x6000, lA 0x10 0 0 0 0 0 0 0xF000,
     lA 0x10 0 1 0 0 0 1 0x17000, lA 0x11 8 0 0 0 0 0 0x7000, lA 0x12 0 0 0 0 0 0 0x7800, lA 0x12 0 0 0 0 0 8 0x7300, lA 0x13 0 0 0 0 0 0 0x7600,
     lw 0x10 0 0 0 0 0 0 0 0 0 0 12 0x7000, lA 0x14 0 0 0 0 0 0 0, lG 0x14 0 0 0 0 0 5 0, lG 0x14 6 0 0 0 0 0 0, lA 0x18 2 0 0 0 0 0 0,
     lG 0x18 0 0 60 0 0 0 0, lG 0x18 0 0 1 0 0 0 0, lG 0x18 2 0 1 0 0 0 0, lG 0x18 5 0 0 0 0 0 0, lG 0x18 4 0 0 0 0 0 0x100, lG 0x19 1 0 0 0 0 6 0,
     lG 0x19 1 0x10 0 0 0 0 0, lG 0x19 3 0 0 0 0 0 0, lG 0x19 3 0x100 0 0 0 1 0, lG 0x19 3 0x100 0 0 1 0 0, lG 0x19 5 0 0 0 0 0 0, lG 0x19 5 0 0 0 0 0 (65 * 16),
     lG 0x19 6 16 0 0 0 0 0, lG 0x19 0x0A 0 0 0 0 0 0, lG 0x1A 5 0 0 1 0 0 2, lG 0x1A 5 0 0 0 0 0 3, lG 0x1A 4 0 0 0 0 0 4, lG 0x1A 7 0 0 0 0 0 0,
     lG 0x1B 0 0 1 0 0 0 0, lG 0x1B 1 1 0 0 0 0 0, lG 0x1B 3 0 0 0 0 0 0, lG 0x1C 0 0 0 0 0 0 0] = true := by decide +kernel

/-- R93, R266, R277: the drain operations. -/
theorem test_words_drain : allD
    [(0x04C0800000000000, .dadd 3 0 (.reg 2)), (dw 1 3 4 0 0 0x10 0x3F800000, .dadd 3 4 (.imm 0x3F800000)), (dw 2 3 4 5 0 0 0, .dmul 3 4 (.reg 5)),
     (0x0C408C0000000000, .dfma 1 0 (.reg 2) 3), (dw 4 3 4 5 0 0 0, .dmin 3 4 (.reg 5)), (dw 5 3 4 5 0 0 0, .dmax 3 4 (.reg 5)),
     (dw 6 3 4 0 15 0x10 0xFFFFFFFF, .dclamp 3 4 (.imm 0xFFFFFFFF) 15), (dw 7 3 0 0 0 10 (62 * 2 ^ 31), .drow .bf16 3 62),
     (0x2080012A00000000, .dcol .f32 2 20), (dw 8 3 0 0 0 11 (2 * 2 ^ 31), .dcol .f16 3 2), (dw 9 3 4 0 0 0 0x1FF, .dscl 3 4 0x1FF),
     (dw 10 3 4 0 0 0 0, .dgelu 3 4), (dw 11 3 4 0 0 0 0, .dsilu 3 4), (dw 12 3 4 0 0 0 0, .dtanh 3 4), (dw 13 3 4 0 0 0 0, .dsig 3 4),
     (0x38CC000000000000, .drelu 3 3), (0x3D0C000000000000, .damax .e4m3 4 3), (dw 15 3 4 0 0 1 0, .damax .e2m1 3 4), (dw 15 3 4 0 0 2 0, .damax .f32 3 4),
     (0x414D000000000000, .dq8 5 3 4), (dw 17 3 4 5 0 0 0, .dq4 3 4 5), (dw 18 3 4 0 0 (16 + 1) 0, .dcvt true .s8 3 4), (dw 18 3 4 0 0 5 0, .dcvt false .s32 3 4),
     (dw 18 3 4 0 0 14 0, .dcvt false .e2m1 3 4), (dw 19 3 4 5 6 0 0, .dsel .gt 3 4 5 6), (dw 19 3 4 5 6 1 0, .dsel .ge 3 4 5 6),
     (dw 19 3 4 5 6 2 0, .dsel .ne 3 4 5 6), (dw 19 3 4 5 6 3 0, .dsel .un 3 4 5 6), (0x5014018B30000000, .dst .e4m3 5 22 24),
     (dw 20 0 5 0 0 1 (4 * 2 ^ 31 + 5 * 2 ^ 25), .dst .s8 5 4 5), (0x5410000D32000000, .dsts 4 26 25), (0x5800000000000000, .dend false),
     (dw 22 0 0 0 0 1 0, .dend true), (dw 23 3 4 0 0 0 0, .dmov 3 (.reg 4)), (dw 23 3 0 0 0 0x10 7, .dmov 3 (.imm 7)),
     (dw 24 3 0 0 0 9 (4 * 2 ^ 31 + 5 * 2 ^ 25), .dld .f32 3 4 5)] = true := by decide +kernel

/-- R93, R277: drain words that `DRLD` refuses. -/
theorem test_words_drain_refused : noD
    [0, dw 0x19 0 0 0 0 0 0, dw 1 0 0 0 1 0 0, dw 1 0 0 1 0 0x10 0, dw 1 0 0 0 0 0x10 0x100000000, dw 1 0 0 0 0 1 0, dw 1 0 0 0 0 0 1,
     dw 7 0 0 0 0 9 (1 * 2 ^ 31), dw 7 0 0 0 0 5 0, dw 9 0 0 0 0 0 0x200, dw 10 0 0 1 0 0 0, dw 15 0 0 0 0 3 0, dw 18 0 0 0 0 9 0, dw 19 0 0 0 0 4 0,
     dw 20 0 0 0 0 9 (1 * 2 ^ 31), dw 20 1 0 0 0 9 0, dw 22 0 0 0 0 2 0, dw 22 1 0 0 0 0 0, dw 23 0 1 0 0 0x10 0, dw 23 0 0 1 0 0 0,
     dw 24 0 0 0 0 1 0] = true := by decide +kernel

/-! ## Ill-formed terms, one for each check of `Instr.wf` and `Instr.wfFor` -/

/-- Every instruction of the list is ill-formed. -/
def illFormed (l : List Instr) : Bool := l.all fun i => !i.wf

theorem test_illformed_scalar : illFormed
    [.addZ64 1 2 4, .addZ64 2 1 4, .subZ64 2 4 1, .mand 0 1 1, .mor 1 0 1, .mxor 1 1 0, .mnot 2 1, .mpop 0 0, .mfirst 0 2,
     .jmpv 0 384, .callv 0 511, .sld 0 1 0, .sst 0 1 0, .sldZ64 1 2 0, .sstZ64 2 1 0, .sarg 0 2, .sarg 0 4096, .sargZ64 1 0,
     .sargZ64 0 4, .sargZ64 0 4096] = true := by decide +kernel

theorem test_illformed_lane : illFormed
    [.iadd hA .s32 false 1 2 (.reg 3), .iadd hF .s32 false 384 2 (.reg 3), .isub hF .s64 false 1 2 (.reg 4),
     .imul hF .s64 false 2 4 (.reg 1), .imad hF .s64 false 2 4 (.reg 6) 1, .imulh hF .s16 1 2 (.imm 0x10000),
     .imin hF .z8 1 2 (.imm 0x100), .iabs hF .z32 false 1 2, .not hF .s64 2 1, .bfx hF .s16 1 2 0 0, .bfi hF .s64 2 4 0 0,
     .laneSel hA .s32 1 2 (.reg 3) 0, .mov lendHdr .s32 0 (.reg 0), .mov hF .z64 1 (.imm 0), .movs hF .s64 2 1,
     .lea hF 1 (.scal 2) .none 0, .lea hF 2 (.scal 1) .none 0, .lea hF 2 (.vec 1) .none 0, .lea hF 2 (.scal 2) (.lane 5) 0,
     .lea hF 2 (.scal 2) (.reg 384 0) 0, .iset hF .eq .s16 1 1 (.reg 1), .iset hF .eq .s32 0 1 (.reg 1), .shfl hF .idx .s8 1 1 (.reg 1),
     .voteAny hF 0 1, .voteAll hF 0 1, .voteBallot hF 0 1, .gred hF .add .z16 1 1, .fadd hA .rne 1 1 (.reg 1),
     .ffma hF .rne 1 1 (.reg 1) 384, .fset hF .eq 0 1 (.reg 1), .rcp { hA with setf := 12 } 1 1, .h2add hF .rne false 1 1 (.imm 0x10000),
     .cvt hF .rne false .f32 .f32 1 1, .cvt hF .rne false .s64 .f32 1 1] = true := by decide +kernel

theorem test_illformed_memory : illFormed
    [.ld hA .s32 .glob false .sys .four (.scal 4) .none 0 1, .ld hA .s32 .glob false .grp .w8 (.scal 4) .none 0 2,
     .ld hA .s32 .glob false .grp .w16 (.scal 4) .none 0 4, .ld hA .z32 .glob false .grp .w16 (.scal 4) .none 0 2,
     .ld hA .s64 .glob false .grp .four (.scal 4) .none 0 1, .ld hA .s32 .glob false .grp .four (.scal 5) .none 0 1,
     .st hA .s32 .glob false .dev .four (.scal 4) .none 0 1, .st { hA with setf := 14 } .s32 .glob false .grp .four (.scal 4) .none 0 1,
     .atom hA .and .f32 .glob .plain .grp .four (.scal 4) .none 0 1 2, .atom hA .add (.int .s16) .glob .plain .grp .four (.scal 4) .none 0 1 2,
     .atom hA .add (.int .z32) .glob .plain .grp .w16 (.scal 4) .none 0 4 8, .atom hA .cas (.int .z32) .glob .plain .grp .four (.scal 4) .none 0 1 383,
     .atom hA .add (.int .s64) .glob .plain .grp .four (.scal 4) .none 0 2 4, .red hA .exch (.int .s32) .glob false .grp .four (.scal 4) .none 0 1,
     .red hA .cas (.int .s32) .glob false .grp .four (.scal 4) .none 0 1, .fence hA .grp, .cln hA .grp, .inv { hG with setf := 13 } .grp,
     .pref hA (.scal 1) .none 0, .lkln hA (.scal 2) (.lane 7) 0, .ulln hA (.vec 3) .none 0] = true := by decide +kernel

theorem test_illformed_group : illFormed
    [.cpyc hA 20 26 0 0, .cpyc hG 60 26 0 0, .cpyc hG 20 1 0 0, .cpyx hG 20 384 4 0, .cpyx hG 20 0 5 0, .job hG 1, .taskdef hG 1 0 0,
     .taskwait hA 0, .gangset hA 0, .mma hG .bf16 ⟨false, 1, 0⟩ 10 16 22 0 0, .mmaz hG .bf16 ⟨true, 1, 0⟩ 10 16 23 0 0, .mdrain hG 0 0 1,
     .scld hG 1 0 0, .drld hG 20 0 0, .drld hG 20 65 0, .drld hG 1 1 0, .tkpass hA 0, .tktake hA 0, .accrd hG 384 0 0, .accwr hG 0 384 0,
     .bari hA 0 0, .arrive hA 0, .bwait hA 0, .expect hA 0 0, .roleset hA 0, .xred hG .pair 0 1, .xwait hA 0, .append hG 1 0 0, .append hG 0 1 0,
     .apfence hG 1 0, .apfence hG 0 1, .seal hG 1, .drow .f32 0 1, .dcol .f32 0 1, .dld .f32 0 1 0, .dst .f32 0 1 0, .dsts 0 1 0] = true := by
  decide +kernel

/-- R82, R214: a kernel of 8 vector registers has no `v8`, and a wide or 16-byte access needs room for all it names. -/
theorem test_illformed_count : ([.jmpv 0 8, .iadd hF .s32 false 8 0 (.reg 0), .iadd hF .s64 false 0 8 (.reg 0), .iadd hF .s32 false 0 0 (.reg 8),
     .ld hA .z32 .glob false .grp .w16 (.scal 4) .none 0 8, .atom hA .cas (.int .z32) .glob .plain .grp .four (.scal 4) .none 0 0 7,
     .xred hG .pair 0 8, .accrd hG 8 0 0, .lea hF 6 (.vec 8) .none 0] : List Instr).all (fun i => !i.wfFor 8) = true := by decide +kernel

/-- Well-formed neighbours of ill-formed terms are admitted. -/
theorem test_wellformed_count : ([.jmpv 0 7, .iadd hF .s64 false 6 0 (.reg 6), .ld hA .z32 .glob false .grp .w16 (.scal 4) .none 0 4,
     .xred hG .pair 0 6] : List Instr).all (fun i => i.wf && i.wfFor 8) = true := by decide +kernel

/-! ## States that meet the hypotheses of the statements

`world` is a module that has booted, with one process, launch, cluster and team, and one group on core 0 whose instruction is being
executed; each test varies what its statement speaks of. -/

/-- A leaf of process 1 that maps the first 2 MiB to themselves for every access. -/
def leafAll : TlbEnt := { pasid := 1, va := 0, lg := 21, pa := 0, r := true, w := true, x := true, u := true, dirty := true }
/-- A kernel with a partition, an argument block, a handler, a live set, a stored signature and 16 layout records. -/
def kA : Kernel :=
  { placedKernel with
    spad := 4096, args := 64, trapOff := some 0x40, liveBase := 0x20000, liveSize := 96, liveCount := 2, sigBase := 0x21000, sigSize := 64,
    layoutBase := 0x22000, layoutSize := 1024, snapBytes := 0x100000 }
/-- A group at its launch values, all its register lines resident. -/
def gA : Group := placedGroup 1 false
/-- Its path. -/
def pA : Path := pathNew 0 0 0 (BitVec.allOnes 96)
def coreA : Core := { coreZero with pasid := 1, lastPasid := 1, tlb := [leafAll] }
def stackA : Stack := { stackZero with tlb := [leafAll] }
def launchA (k : Kernel) : Launch := { placedLaunch with kern := k, argAddr := 0x23000, recAddr := 0x24000 }
/-- The module with group `g` of kernel `k`, at clock 100. -/
def world (g : Group) (k : Kernel) : State :=
  { placeGroup State.reset 0 0 false with
    clock := 100, fresh := 10, cur := 1, curPath := 0, groups := [(1, g)], launches := [(1, launchA k)], cores := [(0, coreA)],
    stks := [(0, stackA)] }
/-- The group with path `p` as its only one. -/
def withPath (p : Path) : Group := { gA with paths := [p] }
/-- A header that acts wherever the lane is active. -/
def hZ : LaneHdr := { pred := 0, neg := false, dist := 0, wait := 0, setf := 3 }
def wA : State := world gA kA

theorem test_at : wA.At gA pA ∧ gA.RegsOk ∧ gA.Clean ∧ (∀ p ∈ gA.paths, p = pA) := by decide +kernel

/-! ### Scalar stream -/

/-- `ScalarComputation`: written registers, the mask registers among them. -/
def gRegs : Group := { gA with sreg := [(0, 7), (1, 0xFFFFFFFF), (2, 0x80000000), (60, 5)] }
theorem test_scalarComputation_premises : (world gRegs kA).At gRegs pA ∧ gRegs.RegsOk ∧ sRead gRegs pA 2 = 0x80000000 ∧
    sRead gRegs pA 61 = 0xFFFFFFFF := by decide +kernel

/-- `SpecialRegisters`: a group, one in a handler, one that is a Garnet context. -/
def gHandler : Group := { gA with handler := some { path := 0, queue := [0], running := true, depth := 1, slot := 4 }, tcause := 0x30, tspc := 8 }
def garA : Garnet := { parent := 1, lane := 95, tag := 2, tags := 0, live := 3, written := 0, fp0 := 0x1F }
def gGarnet : Group := { gA with garnet := some garA }
theorem test_specialRegisters_premises : wA.At gA pA ∧ gA.garnet = none ∧ gA.handler = none ∧ (teamOf wA gA).isSome ∧ (clusterOf wA gA).isSome ∧
    (world gHandler kA).At gHandler pA ∧ gHandler.RegsOk ∧ gHandler.handler.isSome ∧ (world gGarnet kA).At gGarnet pA ∧ gGarnet.garnet = some garA ∧
    (60 : SReg).toNat < 61 := by decide +kernel

/-- `BranchesAndCalls` and `HintWords` ask only for a path that issues; the first and the last hint word. -/
theorem test_hintWords_premises : (0xF8000000 ≤ (0xF8000000 : Word).toNat) ∧ (0xFBFFFFFF : Word).toNat ≤ 0xFBFFFFFF ∧ wA.At gA pA := by
  decide +kernel

/-- `LaneRunQueue`: an idle lane stream, three runs held, four held. -/
def pQueue (n : Nat) (run : Bool) : Path := { pA with queue := List.replicate n 0, running := run }
theorem test_laneRunQueue_premises : (world (withPath (pQueue 3 false)) kA).At (withPath (pQueue 3 false)) (pQueue 3 false) ∧
    (pQueue 3 false).queue.length + (if (pQueue 3 false).running then 1 else 0) < 4 ∧
    (world (withPath (pQueue 3 true)) kA).At (withPath (pQueue 3 true)) (pQueue 3 true) ∧
    4 ≤ (pQueue 3 true).queue.length + (if (pQueue 3 true).running then 1 else 0) ∧
    pA.queue.length + (if pA.running then 1 else 0) = 0 ∧ 0 < (pQueue 0 true).queue.length + (if (pQueue 0 true).running then 1 else 0) ∧
    (world (withPath (pQueue 0 true)) kA).At (withPath (pQueue 0 true)) (pQueue 0 true) := by decide +kernel

/-- `WaitsAndYield`: flags set and not, a counter at the register's value and above it. -/
def gWait : Group := { gA with flags := 0x803, outq := [(4, .l1, false), (5, .l1, true)], sreg := [(1, 2), (2, 1)] }
theorem test_waits_premises : (world gWait kA).At gWait pA ∧ (∀ f < 12, (0x803 : BitVec 12).getLsbD f = true → gWait.flags.getLsbD f = true) ∧
    (0x804 : BitVec 12).getLsbD 2 = true ∧ gWait.flags.getLsbD 2 = false ∧ counter gWait .l1 ≤ (sRead gWait pA 1).toNat ∧
    (sRead gWait pA 2).toNat < counter gWait .l1 ∧ counter gWait .st ≤ (sRead gWait pA 0).toNat := by decide +kernel

/-- `ScalarMemory`: aligned and mapped addresses at the last place of the argument block, and the corners that trap. -/
def gAddr : Group := { gA with sreg := [(4, 0x20000), (6, 0x20006)] }
theorem test_scalarMemory_premises : (world gAddr kA).At gAddr pA ∧
    (((sRead gAddr pA 5).toNat * 2 ^ 32 + (sRead gAddr pA 4).toNat + ((8 : BitVec 14).signExtend 64).toNat) % 2 ^ 64) = 0x20008 ∧
    0x20008 % 8 = 0 ∧ (0x20008 < 2 ^ 56 ∨ 2 ^ 64 - 2 ^ 56 ≤ 0x20008) ∧ translate (world gAddr kA) gAddr 0x20008 .read = .ok 0x20008 ∧
    translate (world gAddr kA) gAddr 0x20008 .write = .ok 0x20008 ∧
    (((launchOf (world gAddr kA) gAddr).map (fun l => l.argAddr)).getD 0 + (56 : BitVec 14).toNat) % 2 ^ 64 = 0x23038 ∧
    translate (world gAddr kA) gAddr 0x23038 .read = .ok 0x23038 ∧ 0x23038 % 8 = 0 ∧ (56 : BitVec 14).toNat + 8 ≤ (kernOf (world gAddr kA) gAddr).args ∧
    (60 : BitVec 14).toNat + 4 ≤ (kernOf (world gAddr kA) gAddr).args ∧ (kernOf (world gAddr kA) gAddr).args < (64 : BitVec 14).toNat + 4 ∧
    (kernOf (world gAddr kA) gAddr).args < (60 : BitVec 14).toNat + 8 ∧
    (((sRead gAddr pA 7).toNat * 2 ^ 32 + (sRead gAddr pA 6).toNat + ((0x3FFF : BitVec 14).signExtend 64).toNat) % 2 ^ 64) % 4 = 1 ∧
    gAddr.handler = none ∧ gAddr.garnet = none ∧ (kernOf (world gAddr kA) gAddr).trapOff = some 0x40 := by decide +kernel

/-- The addresses that fault or miss: not canonical, unmapped, without the right to write, a store to flash, and a walk's outcome kept. -/
def gMiss (lo hi : Word) : Group := { gAddr with sreg := [(4, lo), (5, hi)], walked := some { pasid := 1, vpn := 0x300, code := 0x60 } }
def wLeaf (e : TlbEnt) : State := { world (gMiss 0x20000 0) kA with cores := [(0, { coreA with tlb := [e] })] }
theorem test_scalarMemory_faults : (world (gMiss 0 0x01000000) kA).At (gMiss 0 0x01000000) pA ∧ ¬(refCanonical (0x01000000 * 2 ^ 32)) ∧
    translate (world (gMiss 0x200000 0) kA) (gMiss 0x200000 0) 0x200000 .read = .miss ∧
    (stackOf (world (gMiss 0x200000 0) kA) 0).walks.length < 256 ∧
    translate (world (gMiss 0x300000 0) kA) (gMiss 0x300000 0) 0x300000 .write = .bad 0x60 ∧
    translate (wLeaf { leafAll with w := false }) (gMiss 0x20000 0) 0x20000 .write = .bad 0x63 ∧
    translate (wLeaf { leafAll with pa := Config.flashBase }) (gMiss 0x20000 0) 0x20000 .write = .bad 0x45 := by
  unfold refCanonical; decide +kernel

/-! ### Lane stream -/

/-- The statements of fixed latency ask for a group without poison; lanes act, and a dead lane and a masked one do not. -/
def gLane : Group := { gA with dead := 1#96 <<< 95, vreg := [(vKey 1 0, 5), (vKey 1 95, 9)], paths := [{ pA with mask := ~~~(2#96) }] }
def pLane : Path := { pA with mask := ~~~(2#96) }
theorem test_lane_premises : (world gLane kA).At gLane pLane ∧ gLane.Clean ∧ ActsIn (world gLane kA) gLane pLane hZ 0 ∧
    ActsIn (world gLane kA) gLane pLane hZ 94 ∧ ¬ActsIn (world gLane kA) gLane pLane hZ 1 ∧ ¬ActsIn (world gLane kA) gLane pLane hZ 95 ∧
    ¬ActsIn (world gLane kA) gLane pLane { hZ with neg := true } 0 ∧ gLane.RegsOk := by decide +kernel
/-- Type premises of `LaneBitOperations`, `LanePredicateWrites` and `LaneReduction`, and every reduction's code. -/
theorem test_lane_type_premises : ((IntTy.s32 = .s32 ∨ IntTy.s32 = .z32) ∧ (IntTy.z32 = .s32 ∨ IntTy.z32 = .z32)) ∧ (7 : PReg) ≠ 0 ∧
    IntTy.full .s64 = true ∧ ([.add, .min, .max, .and, .or, .xor] : List GredOp)[5]? = some .xor := by decide +kernel
/-- `FloatValues`: a finite sum and product of finite words; a quiet and a signalling operand. -/
theorem test_floatValues_premises : refFinite 0x3F800000 ∧ f32Add false .rne 0x3F800000 0x3F800000 = (0x40000000, 0) ∧
    f32Mul false .rne 0x40000000 0x40000000 = (0x40800000, 0) ∧ refFinite 0x40000000 ∧ refFinite 0x40800000 ∧
    0x7F800000 < (0x7FC00000 : Word).toNat % 2 ^ 31 ∧ (0x7F800000 < (0x7F800001 : Word).toNat % 2 ^ 31 ∧ (0x7F800001 : Word).toNat % 2 ^ 23 < 2 ^ 22) := by
  unfold refFinite; decide +kernel

/-- `LaneMemory`: words at the lane's own place in global memory, in the partition and in the cluster window. -/
def idxLane : MIdx := .lane 2
def gMem (b : Word) : Group := { gA with sreg := [(4, b)] }
theorem test_laneMemory_global : ∀ l < 96, ActsIn (world (gMem 0x20000) kA) (gMem 0x20000) pA hZ l ∧
    refAddr (gMem 0x20000) pA 100 l (.scal 4) idxLane ((8 : BitVec 12).signExtend 64) = 0x20008 + 4 * l ∧
    (0x20008 + 4 * l) % accBytes (.int .s32) .four = 0 ∧ 0x20008 + 4 * l < 2 ^ 56 ∧
    translate (world (gMem 0x20000) kA) (gMem 0x20000) (0x20008 + 4 * l) .write = .ok (0x20008 + 4 * l) ∧
    translate (world (gMem 0x20000) kA) (gMem 0x20000) (0x20008 + 4 * l) .read = .ok (0x20008 + 4 * l) := by decide +kernel
theorem test_laneMemory_placed : ∀ l < 96, PlaceOf (world (gMem 0x20000) kA) (gMem 0x20000) .glob .write (0x20008 + 4 * l) (.phys (0x20008 + 4 * l)) :=
  fun l h => ⟨.inl (test_laneMemory_global l h).2.2.2.1, _, (test_laneMemory_global l h).2.2.2.2.1, rfl⟩
theorem test_laneMemory_pads : ∀ l < 96, teamOf (world (gMem 8) kA) (gMem 8) = some (teamNew 1 0 0 0 0 [1]) ∧
    refAddr (gMem 8) pA 100 l (.scal 4) idxLane 0 = 8 + 4 * l ∧ 8 + 4 * l < (kernOf (world (gMem 8) kA) (gMem 8)).spad ∧
    winPlace (world (gMem 8) kA) (kernOf (world (gMem 8) kA) (gMem 8)) (teamNew 1 0 0 0 0 [1]) (8 + 4 * l) = some (0, 8 + 4 * l) := by decide +kernel
theorem test_laneMemory_spad_placed : ∀ l < 96, PlaceOf (world (gMem 8) kA) (gMem 8) .sp .read (8 + 4 * l) (.spad 0 (8 + 4 * l)) ∧
    PlaceOf (world (gMem 8) kA) (gMem 8) .cw .read (8 + 4 * l) (.spad 0 (8 + 4 * l)) := fun l h =>
  ⟨⟨_, (test_laneMemory_pads l h).1, (test_laneMemory_pads l h).2.2.1, by simp [teamNew]⟩,
   ⟨_, (0, 8 + 4 * l), (test_laneMemory_pads l h).1, (test_laneMemory_pads l h).2.2.2, rfl⟩⟩
theorem test_laneMemory_acting : refActing (world (gMem 8) kA) (gMem 8) pA hZ ≠ [] ∧ (gMem 8).Clean ∧ (world (gMem 8) kA).At (gMem 8) pA := by
  decide +kernel
/-- The first lane out of range: lane 95 at the end of the partition and of the window, with every earlier lane inside; the first
misaligned lane. -/
theorem test_laneMemory_traps : (world (gMem 0xE84) kA).At (gMem 0xE84) pA ∧
    ¬(kernOf (world (gMem 0xE84) kA) (gMem 0xE84)).spad ≤ refAddr (gMem 0xE84) pA 100 94 (.scal 4) idxLane 0 ∧
    (kernOf (world (gMem 0xE84) kA) (gMem 0xE84)).spad ≤ refAddr (gMem 0xE84) pA 100 95 (.scal 4) idxLane 0 ∧
    windowSize (kernOf (world (gMem 0xE84) kA) (gMem 0xE84)) ≤ refAddr (gMem 0xE84) pA 100 95 (.scal 4) idxLane 0 ∧
    (∀ k < 95, ActsIn (world (gMem 0xE84) kA) (gMem 0xE84) pA hZ k → refAddr (gMem 0xE84) pA 100 k (.scal 4) idxLane 0 < 4096) ∧
    refAddr (gMem 2) pA 100 0 (.scal 4) idxLane 0 % accBytes (.int .s32) .four ≠ 0 ∧
    (∀ k < 96, refAddr (gMem 2) pA 100 k (.scal 4) idxLane 0 < 4096) := by decide +kernel

/-- The conversions of `LanePackedAndConversions`: a NaN of each sort, an infinity, numbers in and out of range, a number between two
integers, integers inside and outside the target. -/
theorem test_conversion_premises : refNanCode .f32 true 0x7F800001 ∧ refNanCode .e4m3 false 0x7F ∧ refInf .f16 true 0xFC00 ∧
    refVal .f32 0x3F800000 = some 1 ∧ refFits .e4m3 .rne 1 ∧ refVal .f32 0x477FF100 = some 65521 ∧ refOver .f16 .rne 65521 ∧
    refFits .f16 .rz 65521 ∧ refVal .f32 0x40200000 = some (5 / 2) ∧ RoundsInt .rne (5 / 2) 2 ∧ elInt .s8 = some (8, true) ∧
    elInt .s64 = some (64, true) ∧ intVal 64 true 200 = 200 ∧ elInt .f32 = none ∧ (0xFF800001 : Nat) < 2 ^ elBits .f32 := by
  refine ⟨⟨(8, 23, 127), rfl, by decide +kernel, by decide, by decide⟩, ⟨(4, 3, 7), ?_⟩,
    ⟨by decide, (5, 10, 15), rfl, by decide +kernel, by decide, by decide⟩, ?_, ?_, ?_, ?_, ?_, ?_, ?_, ?_, ?_, ?_, ?_, ?_⟩ <;>
    norm_num [refFields, refVal, refFits, refOver, refMaxStep, RoundsInt, elInt, elBits, intVal, abs_of_pos]

/-! ### Cache control, divergence, rejoin -/

/-- `CacheControlIssues`: every lane names one line, which is canonical, mapped and unlocked. -/
def gLine : Group := { gA with sreg := [(4, 0x20080)] }
theorem test_cacheControl_premises : (world gLine kA).At gLine pA ∧ gLine.Clean ∧ refActing (world gLine kA) gLine pA hZ ≠ [] ∧
    (∀ l < 96, ActsIn (world gLine kA) gLine pA hZ l → refAddr gLine pA 100 l (.scal 4) .none 0 = 0x20080) ∧ 0x20080 < 2 ^ 56 ∧
    translateNow (world gLine kA) (gLine.core / 16) (pasidOf (world gLine kA) gLine) 0x20080 .read = .ok 0x20080 ∧
    translate (world gLine kA) gLine 0x20080 .read = .ok 0x20080 ∧
    (coreOf (world gLine kA) (serveCore (world gLine kA) gLine 0x20080)).locks.length < 8 ∧
    (coreOf (world gLine kA) (serveCore (world gLine kA) gLine 0x20080)).units < 32 ∧
    tabSorted (coreOf (world gLine kA) (serveCore (world gLine kA) gLine 0x20080)).locks = true := by decide +kernel

/-- `DivergentBranches`: no lane taken, all taken, a side of one lane that may eject, one that gets a path, one that is stacked. -/
def gSplit : Group := { gA with pred := [(1, 1)] }
theorem test_divergent_agree : wA.At gA pA ∧
    (∀ l < 96, (0 : Mask).getLsbD l = (pA.mask.getLsbD l && pA.owned.getLsbD l && !gA.dead.getLsbD l && (pRead gA 100 0 l != true))) ∧
    (∀ l < 96, (BitVec.allOnes 96).getLsbD l = (pA.mask.getLsbD l && pA.owned.getLsbD l && !gA.dead.getLsbD l && (pRead gA 100 0 l == true))) := by
  decide +kernel
theorem test_divergent_split : (world gSplit kA).At gSplit pA ∧
    (∀ l < 96, (1 : Mask).getLsbD l = (pA.mask.getLsbD l && pA.owned.getLsbD l && !gSplit.dead.getLsbD l && (pRead gSplit 100 1 l != false))) ∧
    (∀ l < 96, (~~~(1 : Mask)).getLsbD l = (pA.mask.getLsbD l && pA.owned.getLsbD l && !gSplit.dead.getLsbD l && (pRead gSplit 100 1 l == false))) ∧
    maskCount 1 ≤ maskCount (~~~(1 : Mask)) ∧ ejectAllowed (world gSplit kA) gSplit pA 3 1 1 = true ∧
    ejectAllowed (world gSplit kA) gSplit pA 3 1 2 = false ∧ slotFree gSplit 3 = true ∧ gSplit.handler = none ∧ freeEntry gSplit = some 1 ∧
    stackUsed gSplit + 2 ≤ 64 ∧ pA.stack = [] := by decide +kernel
/-- The slot in use, under a reconvergence entry of another tag or of its own, with room for just the push, and without. -/
def pStack (n : Nat) (u : BitVec 2) : Path := { pA with tags := 8, stack := List.replicate n (.reconv 0 u) }
def stacked (n : Nat) (u : BitVec 2) : Group := { gSplit with paths := [pStack n u] }
theorem test_divergent_stacked : (∀ e ∈ [(62, 0), (63, 3), (63, 0), (64, 3)], (world (stacked e.1 e.2) kA).At (stacked e.1 e.2) (pStack e.1 e.2) ∧
      ejectAllowed (world (stacked e.1 e.2) kA) (stacked e.1 e.2) (pStack e.1 e.2) 3 1 1 = false ∧ slotFree (stacked e.1 e.2) 3 = false ∧
      (pStack e.1 e.2).stack.head? = some (.reconv 0 e.2)) ∧
    stackUsed (stacked 62 0) + 2 = 64 ∧ stackUsed (stacked 63 3) + 1 = 64 ∧ 64 < stackUsed (stacked 63 0) + 2 ∧
    64 < stackUsed (stacked 64 3) + 1 ∧ (0 : BitVec 2) ≠ 3 := by decide +kernel
/-- `JMPV`, `CALLV`: every active lane names the same target; no lane is active; eight lanes of eight targets, while the slot is free,
while it is not, and with a stack that they overflow. -/
theorem test_vector_jump : wA.At gA pA ∧ gA.RegsOk ∧ gA.Clean ∧ (∃ l < 96, pA.mask.getLsbD l = true ∧ pA.owned.getLsbD l = true ∧ gA.dead.getLsbD l = false) ∧
    (∀ l < 96, pA.mask.getLsbD l = true → gA.dead.getLsbD l = false → (vRead gA 100 (vKey 7 l)).1 = 0) ∧
    (List.range 96).filter (fun l => decide ((0 : Mask).getLsbD l = true)) = [] := by
  refine ⟨?_, ?_, ?_, ⟨0, ?_⟩, ?_, ?_⟩ <;> decide +kernel
def gVec (p : Path) : Group := { gA with vreg := (List.range 7).map (fun l => (vKey 7 (l + 1), BitVec.ofNat 32 (4 * (7 - l)))), paths := [p] }
def pVec (n : Nat) (tags : BitVec 4) : Path := { pA with mask := 0xFF, owned := 0xFF, tags := tags, stack := List.replicate n (.reconv 0 0) }
theorem test_vector_split : (∀ e ∈ [(0, (0 : BitVec 4)), (56, 8), (57, 8)], (world (gVec (pVec e.1 e.2)) kA).At (gVec (pVec e.1 e.2)) (pVec e.1 e.2) ∧
      (gVec (pVec e.1 e.2)).RegsOk ∧ (gVec (pVec e.1 e.2)).Clean ∧ slotFree (gVec (pVec e.1 e.2)) 3 = decide (e.2 = 0)) ∧
    ((List.range 96).filter (fun l => decide ((pVec 0 0).mask.getLsbD l = true))).map (fun l => (vRead (gVec (pVec 0 0)) 100 (vKey 7 l)).1.toNat) =
      [0, 28, 24, 20, 16, 12, 8, 4] ∧
    ((gVec (pVec 0 0)).paths.map (fun q => q.id)).Nodup ∧ (∀ q ∈ (gVec (pVec 0 0)).paths, q.id < 8) ∧ (gVec (pVec 0 0)).paths.length + 8 ≤ 9 ∧
    stackUsed (gVec (pVec 56 8)) + 8 = 64 ∧ 64 < stackUsed (gVec (pVec 57 8)) + 8 := by decide +kernel

/-- `EjectionAndRecall`: a path held at a `BRD` of slot 3, and a context whose next word is to be done by its group. -/
def pEject : Path := { pA with hold := .eject 1 (~~~(1 : Mask)) 3 1 4 }
theorem test_ejection_premises : tabFind (world (withPath pEject) kA).groups 1 = some (withPath pEject) ∧
    findPath (withPath pEject) pEject.id = some pEject ∧ liveSet (world (withPath pEject) kA) (withPath pEject) 1 = some 0 ∧
    1 < (world (withPath pEject) kA).fresh ∧ (withPath pEject).slots.length = 4 ∧ (withPath pEject).RegsOk ∧
    askedBefore (world (withPath pEject) kA) (withPath pEject) pEject = false ∧
    poolUsed (world (withPath pEject) kA) ((withPath pEject).core / 16) + maskCount 1 ≤ 128 := by decide +kernel
def gParent : Group := { gA with paths := [{ pA with mask := ~~~(laneBit 95), owned := ~~~(laneBit 95), tags := 4 }],
                                 slots := [slotZero, slotZero, { slotZero with rjm := laneBit 95 }, slotZero] }
def gContext : Group := { gA with garnet := some garA, paths := [{ pA with mask := laneBit 95, owned := laneBit 95, tags := 4 }] }
def wContext : State := { world gParent kA with groups := [(1, gParent), (2, gContext)], mem := [(0x10003, 0x74)] }
theorem test_recall_premises : tabFind wContext.groups 2 = some gContext ∧ gContext.garnet = some garA ∧ gContext.paths.length = 1 ∧
    tabFind wContext.groups garA.parent = some gParent ∧ garA.parent ≠ 2 ∧ tabSorted wContext.groups = true ∧ gParent.slots.length = 4 ∧
    gContext.reqs = [] ∧ needsRecall wContext gContext garA = true ∧ gParent.RegsOk ∧ garA.lane < 96 ∧ gParent.due = [] ∧
    gParent.handler = none := by decide +kernel

/-- `Rejoining`: outside the slot; over a pending side; with the lanes all back; while another path is bound. -/
def gBack : Group := { gA with paths := [{ pA with tags := 4, mask := 1, owned := 1 }], slots := [slotZero, slotZero, { slotZero with returned := 2 }, slotZero] }
def pPending : Path := { pA with stack := [.pending 8 12 2 2 0] }
def gBound : Group := { gA with paths := [{ pA with tags := 4 }, { pathNew 1 0 0 2 with tags := 4 }] }
theorem test_rejoin_premises : wA.At gA pA ∧ gA.garnet = none ∧ gA.recalls = [] ∧ gA.slots.length = 4 ∧ pA.stack = [] ∧ pA.tags &&& (1#4 <<< 2) = 0 ∧
    (world (withPath pPending) kA).At (withPath pPending) pPending ∧ pPending.stack = .pending 8 12 2 2 0 :: [] ∧
    (world gBack kA).At gBack { pA with tags := 4, mask := 1, owned := 1 } ∧ (4#4) &&& (1#4 <<< 2) ≠ 0 ∧
    (∀ q ∈ gBack.paths, q.id ≠ 0 → q.tags &&& (1#4 <<< 2) = 0) ∧ (slotAt gBack 2).rjm = 0 ∧ gBack.due = [] ∧
    (∀ k < 4, k ≠ 2 → (slotAt gBack k).returned = 0) ∧
    (world gBound kA).At gBound { pA with tags := 4 } ∧ (∃ q ∈ gBound.paths, q.id ≠ 0 ∧ q.tags &&& (1#4 <<< 2) ≠ 0) ∧
    (∀ q ∈ gBound.paths, q.id ≠ 0 → q.hold ≠ .rjoin 2) ∧ (∀ k < 4, k ≠ 2 → (slotAt gBound k).returned = 0) := by decide +kernel
/-- A timer that has run out over a context, with a split table too full for it and with just room. -/
def pWaits : Path := { pA with id := 0, hold := .rjoin 2, tags := 4, spc := 0x20, mask := 1, owned := 1 }
def gOverdue (n : Nat) : Group := { gA with paths := pWaits :: (List.range n).map (fun i => pathNew (i + 1) 0 0 0), rjto := 10,
                                             slots := [slotZero, slotZero, { slotZero with rjm := laneBit 95, timer := 91, limit := 10 }, slotZero] }
def wOverdue (n : Nat) : State := { world (gOverdue n) kA with groups := [(1, gOverdue n), (2, gContext)] }
theorem test_rejoin_overdue_premises : (∀ n ∈ [6, 7], tabFind (wOverdue n).groups 1 = some (gOverdue n) ∧
      (gOverdue n).paths.find? (fun q => q.hold = .rjoin 2) = some pWaits ∧
      findPath (gOverdue n) pWaits.id = some pWaits ∧ (gOverdue n).handler = none ∧ (gOverdue n).garnet = none ∧ outOf (wOverdue n) (gOverdue n) = false ∧
      (gOverdue n).susp = .run ∧ (gOverdue n).due = [] ∧ timerRuns (gOverdue n) 2 = true ∧ (slotAt (gOverdue n) 2).timer ≠ 0 ∧
      (slotAt (gOverdue n) 2).timer - 1 + (slotAt (gOverdue n) 2).limit ≤ (wOverdue n).clock ∧ (gOverdue n).paths.length ≤ 8) ∧
    8 < (gOverdue 7).paths.length + placesNeeded (contextsOf (wOverdue 7) 1 2) ∧ waitsTurn (wOverdue 7) 1 (gOverdue 7) pWaits.id = false ∧
    (kernOf (wOverdue 7) (gOverdue 7)).trapOff = some 0x40 ∧ contextsOf (wOverdue 6) 1 2 = [(2, gContext)] ∧
    (gOverdue 6).paths.length + placesNeeded (contextsOf (wOverdue 6) 1 2) = 8 ∧ tabSorted (wOverdue 6).groups = true ∧
    (gOverdue 6).slots.length = 4 ∧ (gOverdue 6).RegsOk ∧ ((gOverdue 6).paths.map (fun q => q.id)).Nodup ∧ gContext.reqs = [] := by decide +kernel
/-- A context at an `RJOIN`: of another tag, of its own while the parent's path is bound to the slot, and of its own as the last lane
of a slot to which no path is bound. -/
def wReturn (g : Group) : State := { wContext with groups := [(1, g), (2, gContext)], cur := 2 }
def gAlone : Group := { gParent with paths := [{ pA with mask := ~~~(laneBit 95), owned := ~~~(laneBit 95) }] }
theorem test_context_rjoin_premises : (wReturn gParent).At gContext { pA with mask := laneBit 95, owned := laneBit 95, tags := 4 } ∧
    gContext.garnet = some garA ∧ tabFind (wReturn gParent).groups garA.parent = some gParent ∧ garA.parent ≠ (wReturn gParent).cur ∧
    gParent.garnet = none ∧ (1 : BitVec 2) ≠ garA.tag ∧ (∃ q ∈ gParent.paths, q.tags &&& (1#4 <<< garA.tag.toNat) ≠ 0) ∧
    (∀ q ∈ gAlone.paths, q.tags &&& (1#4 <<< garA.tag.toNat) = 0) ∧ gAlone.recalls = [] ∧
    (slotAt gAlone garA.tag.toNat).rjm = laneBit garA.lane ∧ freeEntry gAlone = some 1 ∧ gAlone.slots.length = 4 ∧ gAlone.RegsOk := by decide +kernel

/-! ### Items, exit, traps -/

/-- `ItemLoop`: two lanes want an item; the queue holds an expired item before one to take, only an expired one, or none, with the feed
exhausted or not; a kernel without items. -/
def kItem : Kernel := { kA with flags := 8, ib := 16 }
def pItem : Path := { pA with mask := 0x20, hungry := 0x40, owned := 0x60 }
def itemA (b : Word) : Item := { words := [b, 2, 3, 4, 5, 6, 7, 8], stamp := -901 }
def wItem (is : List Item) (ended : Bool) : State := { world (withPath pItem) kItem with
  cores := [(0, { coreA with items := is })], launches := [(1, { launchA kItem with feedEnded := ended, itemCount := 9 })] }
theorem test_itemLoop_premises : (wItem [itemA 1, itemA 2] false).At (withPath pItem) pItem ∧ (withPath pItem).handler = none ∧
    launchNo (wItem [itemA 1, itemA 2] false) (withPath pItem) = some 1 ∧ kItem.flags.getLsbD 3 = true ∧ (withPath pItem).pend = [] ∧
    tabWf 0 (withPath pItem).vreg = true ∧ (launchA kItem).tags.length ≤ 20 ∧
    (List.range 96).filter (fun l => (((pItem.mask ||| pItem.hungry) &&& pItem.owned) &&& ~~~ pItem.done).getLsbD l) = [5, 6] ∧
    [itemA 1, itemA 2].filter (fun i => !expired i 100) = [itemA 2] ∧ [itemA 1].filter (fun i => !expired i 100) = [] ∧
    (tabFind (wItem [itemA 1] false).launches 1).map (fun l => (l.feedEnded, decide (l.itemCount ≤ l.itemNext))) = some (false, false) ∧
    (tabFind (wItem [] true).launches 1).map (fun l => l.feedEnded) = some true ∧ kA.flags.getLsbD 3 = false := by decide +kernel

/-- `ExitEndsPath`: a group of two paths; the last path of a group of a team of two. -/
def gPair : Group := { gA with paths := [pA, pathNew 1 0 0 0] }
def wTeam : State := { world gA { kA with groups := 2 } with
  groups := [(1, gA), (2, { gA with idx := 1 })], teams := [(1, teamNew 1 0 0 0 0 [1, 2])] }
theorem test_exit_premises : (world gPair kA).At gPair pA ∧ gPair.handler = none ∧ gPair.due = [] ∧ gPair.recalls = [] ∧
    (∀ x ∈ gPair.slots, x.returned = 0 ∧ x.rjm = 0) ∧ gPair.slots.length = 4 ∧ (∃ q ∈ gPair.paths, q.id ≠ pA.id) ∧
    wTeam.At gA pA ∧ (∀ q ∈ gA.paths, q.id = pA.id) ∧ gA.outq = [] ∧ gA.reqs = [] ∧ gA.garnet = none ∧ gA.retired = false ∧
    teamRuns wTeam gA.team = true ∧ cardPending wTeam wTeam.cur = false ∧ teamOf wTeam gA = some (teamNew 1 0 0 0 0 [1, 2]) ∧
    (teamNew 1 0 0 0 0 [1, 2]).slices = [] ∧
    (coreOf wTeam gA.core).latch = [] ∧ 2 ≠ wTeam.cur ∧ tabFind wTeam.groups 2 = some { gA with idx := 1 } := by decide +kernel

/-- `SoftwareTraps`, `ExceptionReturn`: a group with a handler, one in it, and a kernel without one. -/
theorem test_trap_premises : wA.At gA pA ∧ gA.handler = none ∧ gA.garnet = none ∧ (kernOf wA gA).trapOff = some 0x40 ∧
    (kernOf (world gA placedKernel) gA).trapOff = none ∧ (world gA placedKernel).At gA pA ∧ teamOf (world gA placedKernel) gA = some (teamNew 1 0 0 0 0 [1]) ∧
    (teamNew 1 0 0 0 0 [1]).fatal = false ∧ (world gHandler kA).At gHandler pA ∧ gHandler.handler.isSome ∧ gHandler.due = [] ∧
    teamOf (world gHandler kA) gHandler = some (teamNew 1 0 0 0 0 [1]) ∧ contextsFor (world gHandler kA) 1 = [] ∧
    (∀ k < 4, (slotAt gHandler k).rjm = 0) := by decide +kernel

/-- `IllegalWords` and `ReservedTrapFields`: words that decode to nothing, fetched from each stream. -/
def wWord (n w : Nat) (lane : Bool) : State :=
  { world (withPath { pA with running := lane }) kA with mem := (homeWrite n (world gA kA) 0x10000 w).mem }
theorem test_illegal_scalar_premises : (wWord 4 0xE0004000 false).powered = true ∧ tabFind (wWord 4 0xE0004000 false).groups 1 = some gA ∧
    mayIssue (wWord 4 0xE0004000 false) 1 gA pA false = true ∧ fetchScalar (wWord 4 0xE0004000 false) gA pA = .word 0xE0004000 ∧
    decodeFor (kernOf (wWord 4 0xE0004000 false) gA) false 0xE0004000 = none ∧ (0xE0004000 / 2 ^ 26 = 0x38 ∧ 0xE0004000 / 2 ^ 14 % 2 ^ 12 ≠ 0) ∧
    (0xF0000001 / 2 ^ 26 = 0x3C ∧ 0xF0000001 % 2 ^ 26 ≠ 0) ∧ (kernOf (wWord 4 0xE0004000 false) gA).trapOff = some 0x40 := by decide +kernel
theorem test_illegal_lane_premises : mayIssue (wWord 12 (2 ^ 88) true) 1 (withPath { pA with running := true }) { pA with running := true } true = true ∧
    fetchLane (wWord 12 (3 * 2 ^ 88) true) (withPath { pA with running := true }) { pA with running := true } = .word (3 * 2 ^ 88) ∧
    decodeFor kA true (3 * 2 ^ 88) = none ∧ kernOf (wWord 12 (3 * 2 ^ 88) true) (withPath { pA with running := true }) = kA := by decide +kernel

/-- `StepRunsDecoded`: a scalar word that is ready and one that is not (it waits for its scalar port), a lane word, a drain word. -/
def iAdd : Instr := .add 3 1 2
def iIadd : Instr := .iadd ⟨0, false, 0, 0, 15⟩ .s16 true 10 11 (.reg 12)
theorem test_stepRuns_scalar_premises : findPath gA pA.id = some pA ∧ (gA.garnet.isSome && recallsFirst iAdd) = false ∧
    mayIssue (wWord 4 0x04304200 false) 1 gA pA false = true ∧ fetchScalar (wWord 4 0x04304200 false) gA pA = .word 0x04304200 ∧
    decodeFor (kernOf (wWord 4 0x04304200 false) gA) false 0x04304200 = some iAdd ∧
    issuePort wordIssues { wWord 4 0x04304200 false with ir := 0x04304200 } 1 gA pA false iAdd = some .scalar ∧ readsPoison gA iAdd = false ∧
    issuePort wordIssues { world (withPath { pA with queue := [0] }) kA with ir := 0x74000000 } 1 (withPath { pA with queue := [0] })
      { pA with queue := [0] } false .exit = none := by decide +kernel
theorem test_stepRuns_alone_premises : (wWord 4 0x04304200 false).groups = [(1, gA)] ∧ gA.paths = [pA] ∧ gA.garnet = none ∧
    scalarMay wordIssues { wWord 4 0x04304200 false with ir := 0x04304200 } 1 gA pA iAdd = true ∧
    unitFree (coreOf (wWord 4 0x04304200 false) gA.core) (portKey gA.part .scalar) 0 (wWord 4 0x04304200 false).clock = true := by decide +kernel
def gRun : Group := withPath { pA with running := true }
def gRunWait : Group := { gRun with paths := [{ pA with running := true }], owner := [(3, 5)] }
theorem test_stepRuns_lane_premises :
    mayIssue (wWord 12 0x01000502C18000A0001E0000 true) 1 gRun { pA with running := true } true = true ∧
    fetchLane (wWord 12 0x01000502C18000A0001E0000 true) gRun { pA with running := true } = .word 0x01000502C18000A0001E0000 ∧
    decodeFor (kernOf (wWord 12 0x01000502C18000A0001E0000 true) gRun) true 0x01000502C18000A0001E0000 = some iIadd ∧
    issuePort wordIssues { wWord 12 0x01000502C18000A0001E0000 true with ir := 0x01000502C18000A0001E0000 } 1 gRun { pA with running := true } true
      iIadd = some .laneA ∧
    issuePort wordIssues { world gRunWait kA with ir := 0x01000502C18000A0001E0000 } 1 gRunWait { pA with running := true } true
      (.iadd ⟨0, false, 0, 8, 15⟩ .s16 true 10 11 (.reg 12)) = none := by decide +kernel
theorem test_stepRuns_lane_alone_premises : (wWord 12 0x01000502C18000A0001E0000 true).groups = [(1, gRun)] ∧
    laneMay wordIssues { wWord 12 0x01000502C18000A0001E0000 true with ir := 0x01000502C18000A0001E0000 } 1 gRun { pA with running := true } iIadd = true ∧
    unitFree (coreOf (wWord 12 0x01000502C18000A0001E0000 true) gRun.core) (portKey gRun.part .laneA) 0 100 = true := by decide +kernel
def wDrain (w : Nat) : State := State.reset.withFetchWord 64 w
theorem test_stepRuns_drain_premises : (drainEnt (coreOf (wDrain 0x04C0800000000000) 0)).map (fun e => e.prog[0]?) = some (some 0x04C0800000000000) ∧
    (coreOf (wDrain 0x04C0800000000000) 0).drain.map (fun d => (d.inSeg, d.pc)) = some (true, 0) ∧
    decodeDrain 0x04C0800000000000 = some (.dadd 3 0 (.reg 2)) ∧ (wDrain 0x04C0800000000000).powered = true := by decide +kernel
/-- A word that reads a poisoned register. -/
def gPoison : Group := { gA with spoison := [1] }
def wPoison : State := { world gPoison kA with mem := (homeWrite 4 (world gA kA) 0x10000 0x04304200).mem }
theorem test_stepRuns_poison_premises : mayIssue wPoison 1 gPoison pA false = true ∧ fetchScalar wPoison gPoison pA = .word 0x04304200 ∧
    decodeFor (kernOf wPoison gPoison) false 0x04304200 = some iAdd ∧ readsPoison gPoison iAdd = true ∧
    (issuePort wordIssues { wPoison with ir := 0x04304200 } 1 gPoison pA false iAdd).isSome = true := by decide +kernel

/-- `SignatureAndSnapshot`: signatures off and on with the stored word, an area too small, one that cannot commit, one that can. -/
def kSig : Kernel := { kA with flags := 16, snapBytes := 2 * snapSize kA }
def pSig : Path := { pA with sig := 0x12345678 }
def wSig : State := { world (withPath pSig) kSig with mem := (homeWrite 4 (world gA kA) 0x21004 0x12345678).mem }
theorem test_signature_premises : wA.At gA pA ∧ (teamOf wA gA).isSome ∧ (launchOf wA gA).isSome ∧ (clusterOf wA gA).isSome ∧
    (kernOf wA gA).flags.getLsbD 4 = false ∧ wSig.At (withPath pSig) pSig ∧ (kernOf wSig (withPath pSig)).flags.getLsbD 4 = true ∧
    (teamNew 1 0 0 0 0 [1]).rolling = none ∧ kSig.sigOff + 4 * 1 + 4 ≤ kSig.sigSize ∧
    readVia wSig (withPath pSig) .readOrExec 4 (kSig.sigBase + kSig.sigOff + 4 * 1) = .ok [0x78, 0x56, 0x34, 0x12] ∧
    listNat [0x78, 0x56, 0x34, 0x12] 0 4 = pSig.sig.toNat := by decide +kernel
def wSnap2 : State := { wTeam with launches := [(1, launchA { kA with groups := 2 })] }
theorem test_snapshot_premises : { kA with snapBytes := 0x1000 }.snapBytes / 2 < snapSize { kA with snapBytes := 0x1000 } ∧
    (kernOf (world gA { kA with snapBytes := 0x1000 }) gA).trapOff = some 0x40 ∧ snapSize (kernOf wA gA) ≤ (kernOf wA gA).snapBytes / 2 ∧
    snapReady (keep wSnap2 gA { pA with hold := .snap }) 1 (teamNew 1 0 0 0 0 [1, 2]) = false ∧
    teamOf wSnap2 gA = some (teamNew 1 0 0 0 0 [1, 2]) ∧ snapSize (kernOf wSnap2 gA) ≤ (kernOf wSnap2 gA).snapBytes / 2 ∧
    snapReady (keep wA gA { pA with hold := .snap }) gA.team (teamNew 1 0 0 0 0 [1]) = true ∧ wA.cur ∈ (teamNew 1 0 0 0 0 [1]).groups ∧
    gA.pend = [] := by decide +kernel
theorem test_snapshot_place : snapFault (keep wA gA { pA with hold := .snap }) 0 1 0 0x100000 = none ∧
    (launchOf wA gA).map (fun l => (l.pasid, l.snapAddr)) = some (1, 0) ∧ (clusterOf wA gA).map (fun c => c.index) = some 0 := by decide +kernel
/-- Every byte of the leaf's 2 MiB may be written where it stands. -/
theorem leafAll_maps (i : Nat) (h : i < 2 ^ 21) : tlbFind [leafAll] 1 i = some leafAll ∧ leafUse leafAll .write i = .ok i := by
  have h1 : tierOf i = .hbm := if_pos (Nat.lt_of_lt_of_le h (by decide))
  constructor
  · simp [tlbFind, leafAll]
    omega
  · simp [leafUse, leafAll, h1]
/-- No word of a world that lists no poison is poisoned. -/
theorem world_sound (g : Group) (k : Kernel) (pa : Nat) : homePoison (world g k) pa = false := by
  have h : ∀ n, (stackOf (world g k) n).degraded = false := by
    intro n
    rcases Nat.eq_zero_or_pos n with rfl | hn
    · rfl
    · simp [stackOf, tabGet, world, tabFind, Nat.not_lt.2 (Nat.zero_le n), Nat.ne_of_gt hn, stackZero]
  have hp : (world g k).poison = [] := rfl
  simp [homePoison, h, hp]
/-- A team with a snapshot committed in half 0, one without, and one that has rolled back twice; the memory holds the generations. -/
def snapA : TeamSnap := { half := 0, groups := [{ grp := 1, paths := [pA], slots := gA.slots, recalls := [], target := none }], bars := [] }
def tmSnap (n : Nat) : Team := { teamNew 1 0 0 0 0 [1] with snaps := [snapA], rollbacks := n }
def wDiff (m : List Host.Cell) (n : Nat) : State := { world (withPath pSig) kSig with mem := m, teams := [(1, tmSnap n)] }
theorem test_mismatch_premises : (∀ e ∈ [(([] : List Host.Cell), 0), ([(0, 1)], 0), ([(0, 1)], 2)],
      (wDiff e.1 e.2).At (withPath pSig) pSig ∧ teamOf (wDiff e.1 e.2) (withPath pSig) = some (tmSnap e.2) ∧
      readVia (wDiff e.1 e.2) (withPath pSig) .readOrExec 4 (kSig.sigBase + kSig.sigOff + 4 * 1) = .ok [0, 0, 0, 0] ∧
      (wDiff e.1 e.2).KeysOk ∧ (wDiff e.1 e.2).MemOk ∧ (wDiff e.1 e.2).promoted = [] ∧ (wDiff e.1 e.2).poison = [] ∧
      (∀ k ∈ (wDiff e.1 e.2).cores, tabWf 0 k.2.spad = true ∧ k.2.col = []) ∧
      (∀ k ∈ (wDiff e.1 e.2).stks, k.2.subs = [])) ∧
    listNat [0, 0, 0, 0] 0 4 ≠ pSig.sig.toNat ∧ kSig.sigSize < kSig.sigOff + 4 * 63 + 4 ∧ (withPath pSig).garnet = none ∧
    (withPath pSig).reqs = [] ∧ (tmSnap 2).rolling = none ∧ (tmSnap 2).fatal = false ∧ (coreOf (wDiff [] 0) 0).drain = none ∧
    snapSize kSig ≤ kSig.snapBytes / 2 ∧ snapSize kSig = 4096 + 8192 + 384 * kSig.regs + 4096 ∧
    (∀ i < 8, homeByte (wDiff [] 0) i = 0 ∧ homeByte (wDiff [] 0) (kSig.snapBytes / 2 + i) = 0) ∧
    homeNat (wDiff [(0, 1)] 0) 8 0 = 1 ∧ homeNat (wDiff [(0, 1)] 0) 8 (kSig.snapBytes / 2) = 0 ∧
    (tmSnap 2).snaps.find? (fun z => z.half = 0) = some snapA ∧ (snapA.groups.map (fun z => z.grp)).Nodup ∧
    snapA.groups.length ≤ kSig.groups ∧ tabFind (wDiff [] 0).groups 1 = some (withPath pSig) ∧ kSig.snapBytes ≤ 2 ^ 21 ∧
    { kSig with snapBytes := 0 }.snapBytes = 0 ∧ (tmSnap 0).groups.length = kSig.groups ∧
    (stackOf (wDiff [] 0) 0).tlb = [leafAll] ∧ snapBase (launchA kSig) ((clusterOf (wDiff [] 0) gA).getD { launch := 0, index := 9, ox := 0, oy := 0, state := .gone, teams := [], placed := 0, since := 0 }) (tmSnap 0) = 0 := by
  decide +kernel

/-! ### Requests that return, misses, walks, promotion -/

/-- A request of kind `k` under number 5, to set flag `f3`, counted on a path. -/
def reqOf (k : ReqKind) (path : Option KPath) : Req :=
  { id := 5, path := path, flag := 3, kind := k, fp := 1, pc := 0, by_ := 0, stalled := false, stallAt := 0, addr := 0, late := false }
/-- A group with one request outstanding. -/
def gReq (k : ReqKind) (path : Option KPath) : Group :=
  { gA with reqs := [reqOf k path], outq := (path.map (fun c => (5, c, false))).toList, owner := [(3, 5)] }
/-- A load, store or atomic of lane 95 at the first word of core 0's scratchpad. -/
def kindMem (k : MemKind) (op : AtomOp) (ty : AtomTy) : ReqKind :=
  .mem k op ty .four .plain .grp 9 [{ lane := 95, reg := 0, n := 4, loc := .spad 0 0, va := 0, data := 0xFFFFFFFF, new := 7 }]

/-- `SpecialFunctionUnit`: a special function outstanding; one operand of each kind, at the ends of its range. -/
theorem test_special_premises : tabFind (world (gReq (.sfu 112 8) none) kA).groups 1 = some (gReq (.sfu 112 8) none) ∧
    findReq (gReq (.sfu 112 8) none) 5 = some (reqOf (.sfu 112 8) none) ∧ (reqOf (.sfu 112 8) none).kind = .sfu 112 8 ∧
    (gReq (.sfu 112 8) none).paths ≠ [] ∧ (gReq (.sfu 112 8) none).RegsOk := by decide +kernel
theorem test_special_operands : 0x7FC00000 ≤ (0xFFC00000 : Word).toNat % 2 ^ 31 ∧ 0x7F800000 < (0x7FBFFFFF : Word).toNat % 2 ^ 31 ∧
    (0x7FBFFFFF : Word).toNat % 2 ^ 31 < 0x7FC00000 ∧ (0x80000000 : Word).toNat % 2 ^ 31 = 0 ∧ 0x80800000 ≤ (0x80800000 : Word).toNat ∧
    (0xFF7FFFFF : Word).toNat < 0xFF800000 ∧ 0x49000000 ≤ (0xC9000000 : Word).toNat % 2 ^ 31 ∧ 0x43000000 ≤ (0x43000000 : Word).toNat ∧
    0xC3160000 ≤ (0xC3160000 : Word).toNat ∧ (0x3F800000 : Word) = BitVec.ofNat 32 (127 * 2 ^ 23) ∧ 127 % 2 = 1 ∧
    (0x7E800000 : Word) = BitVec.ofNat 32 (253 * 2 ^ 23) := by decide +kernel

/-- `MemoryReturns`: each kind of request at its return. -/
theorem test_returns_lane_premises : tabFind (world (gReq (kindMem .atom .add (.int .z32)) (some .col)) kA).groups 1 = some (gReq (kindMem .atom .add (.int .z32)) (some .col)) ∧
    (gReq (kindMem .atom .add (.int .z32)) (some .col)).reqs = [reqOf (kindMem .atom .add (.int .z32)) (some .col)] ∧
    (reqOf (kindMem .st .add (.int .s32)) (some .st)).stalled = false ∧
    imageSealed (world (gReq (kindMem .ld .add (.int .z32)) (some .l1)) kA) (gReq (kindMem .ld .add (.int .z32)) (some .l1)) = false ∧
    (gReq (kindMem .red .max .f32) (some .st)).paths ≠ [] ∧ (gReq (kindMem .red .max .f32) (some .st)).RegsOk ∧
    (∀ e ∈ (world gA kA).cores, ∀ w ∈ e.2.col, w.2.dirty = false) ∧
    ejectHeld (world (gReq (kindMem .ld .add (.int .z32)) (some .l1)) kA) (gReq (kindMem .ld .add (.int .z32)) (some .l1)) = false ∧
    (coreOf (world gA kA) 0).bars = [] ∧ (coreOf (world gA kA) 0).spadPoison = [] ∧ tabWf 0 (coreOf (world gA kA) 0).spad = true ∧
    (atomNew .add (.int .z32) 4 (spadNat (world gA kA) 0 4 0) 0xFFFFFFFF 7).1 < 2 ^ 32 ∧
    (atomNew .cas (.int .z32) 4 (spadNat (world gA kA) 0 4 0) 0xFFFFFFFF 7).1 < 2 ^ 32 ∧
    (atomNew .max .f32 4 (spadNat (world gA kA) 0 4 0) 0xFFFFFFFF 7).1 < 2 ^ 32 := by decide +kernel
/-- A column word that is dirty over the copy of an L1, and lines that no cache holds. -/
def wCol (g : Group) : State := { world g kA with cores := [(0, { coreA with
  col := [(0x8400, { val := 7, dirty := true, poison := false })], l1 := [(0x8400, { val := 6, dirty := false, poison := false })] })] }
theorem test_returns_global_premises : (∀ pa ∈ [0x21000, 0x21008, 0x21080], serveCore (wCol gA) gA pa = 0 ∧
      (setLines (coreOf (wCol gA) 0) (pa / 128)).length < 16 ∧ pa % 8 = 0 ∧ pa + 8 ≤ Config.hbmBytes) ∧ (wCol gA).promoted = [] ∧ (wCol gA).MemOk ∧
    tabSorted (coreOf (wCol gA) 0).col = true ∧ tabSorted (coreOf (wCol gA) 0).l1 = true ∧ isHome 0 0 = true ∧ isHome 0 0x21000 = false ∧
    (60 : SReg).toNat + 1 ≤ 61 ∧ (58 : SReg).toNat + 2 ≤ 61 ∧ (0xFFFFFFFFFFFFFFFF : Nat) < 2 ^ (32 * 2) ∧
    (reqOf (.sload 60 false (.phys 0)) none).kind = .sload 60 false (.phys 0) ∧
    (reqOf (.sload 58 true (.phys 0)) none).kind = .sload 58 true (.phys 0) ∧
    (reqOf (.sstore true (.phys 0) 0xFFFFFFFF) none).kind = .sstore true (.phys 0) 0xFFFFFFFF ∧
    (reqOf (.fence .grp) none).kind = .fence .grp := by decide +kernel
theorem test_returns_ordered_premises : meeting kA .team = .col ∧ meeting kA .dev = .home ∧ meeting kA .sys = .home ∧
    kernOf (wCol gA) gA = kA ∧ fusedK kA = false ∧ (∀ e ∈ (coreOf (wCol gA) 0).col, e.2.poison = false ∧ 4 * e.1 + 4 ≤ Config.hbmBytes) ∧
    hostStale (cleanScope (wCol gA) gA .sys) = false ∧ (atomNew .add (.int .z32) 4 7 0xFFFFFFFF 7).1 < 2 ^ 32 := by decide +kernel

/-- `MissesAndPromotion`: a line to bring in, a walk that finds a leaf and one that faults, a block to promote. -/
def gCold : Group := { gA with lines := 0 }
def segA : Segment := { z := 20, pa := Config.flashBase, state := 1, next := 5, durable := 3, tail := 256, sealedLen := 0, bytes := [], ends := [],
                        unread := [], sealing := false, attach := some (1, 0x40000000) }
def wWalk (va : Nat) : State := { world { gA with susp := .walk } kA with
  stks := [(0, { stackA with walks := [{ pasid := 1, vpn := va / 4096, core := 0, grp := 1 }] })], segments := [(9, segA)] }
def leafIs (r : WalkRes) (va : Nat) : Bool := match r with
  | .leaf e => decide (e.va = va)
  | .bad _ => false
def badIs (r : WalkRes) (c : Nat) : Bool := match r with
  | .leaf _ => false
  | .bad d => decide (d = c)
theorem test_misses_premises : findPath gA 0 = some pA ∧ gCold.garnet = none ∧ gCold.resident = true ∧ 1151 < 3 * (kernOf (world gCold kA) gCold).regs ∧
    gCold.lines.getLsbD 1151 = false ∧ (bankLines (world gCold kA) gCold.core (1151 % 12)).length < 2048 ∧
    tabFind (world gCold kA).groups 1 = some gCold ∧ fetchWalking wA 1 0 false = false := by decide +kernel
/-- A group with a result of lane 95 still to be written to every register of bank 11's lines, or none. -/
def gDue (due : Bool) : Group := { gA with
  image := some 4,
  pend := if due then (List.range 96).map (fun v => { at_ := 200, dst := .vec (vKey (3 + 4 * v) 95) 0, poison := false }) else [] }
/-- A bank that 22 other groups fill, every line of theirs used at clock 0. -/
def wFull (due : Bool) : State := { world gCold kA with groups := (1, gCold) :: (List.range 22).map (fun i => (2 + i, gDue due)) }
theorem test_full_bank_premises : 2048 ≤ (bankLines (wFull false) gCold.core (1151 % 12)).length ∧
    lineVictim (wFull false) gCold.core (1151 % 12) = some (2, 11) ∧ tabFind (wFull false).groups 2 = some (gDue false) ∧
    (gDue false).image = some 4 ∧ (wFull false).MemOk ∧ (wFull false).promoted = [] ∧ (wFull false).poison = [] ∧ (wFull false).stks = (world gA kA).stks ∧
    (∀ i < 128, columnFrame 0 (4 + (9600 + i) / 4096) + (9600 + i) % 4096 = columnFrame 0 (4 + 9600 / 4096) + 9600 % 4096 + i ∧
      tierOf (Config.privBase + (columnFrame 0 (4 + 9600 / 4096) + 9600 % 4096) + i) = .priv) ∧ 0x2000 + 384 * (11 / 3) + 128 * (11 % 3) = 9600 := by
  decide +kernel
/-- The lines of bank 11 that wait for a result. -/
theorem due_pending : ∀ j < 96, linePending 100 (gDue true) (11 + 12 * j) = true := by decide +kernel
/-- The groups of the full bank. -/
theorem full_groups : ∀ e ∈ (wFull true).groups, tabFind (wFull true).groups e.1 = some e.2 ∧ outOf (wFull true) e.2 = false ∧
    e.2.reqs = [] ∧ (e.2.lines = 0 ∨ e.2 = gDue true) := by decide +kernel
theorem test_full_bank_none : lineVictim (wFull true) gCold.core (1151 % 12) = none := by
  have h : ∀ x ∈ bankLines (wFull true) gCold.core (1151 % 12), ∃ e ∈ (wFull true).groups, e.1 = x.1 ∧ e.2 = gDue true ∧
      ∃ j < 96, x.2.1 = 11 + 12 * j := by
    intro x hx
    obtain ⟨e, he, hx⟩ := List.mem_flatMap.1 hx
    split at hx
    · obtain ⟨l, hl, rfl⟩ := List.mem_map.1 hx
      have hl := List.mem_filter.1 hl
      have hr := List.mem_range.1 hl.1
      simp only [Bool.and_eq_true, decide_eq_true_eq] at hl
      refine ⟨e, he, rfl, ((full_groups e he).2.2.2).resolve_left fun h0 => ?_, l / 12, by omega, by show l = _; omega⟩
      simp [h0] at hl
    · cases hx
  simp only [lineVictim]
  rw [List.filter_eq_nil_iff.2]
  · rfl
  intro x hx
  obtain ⟨e, he, h1, h2, j, hj, h3⟩ := h x hx
  obtain ⟨a, b, c, _⟩ := full_groups e he
  rw [h2] at b c
  rw [← h1, a]
  have ht : (wFull true).clock = 100 := rfl
  simp [b, c, h3, h2, ht, due_pending j hj]
/-- A word whose page's walk is outstanding. -/
def wFetching : State := { world gA kA with
  cores := [(0, { coreA with tlb := [] })], stks := [(0, { stackZero with walks := [{ pasid := 1, vpn := 0x10, core := 0, grp := 1 }] })] }
theorem test_fetchWalking_premises : fetchWalking wFetching 1 0 false = true ∧ tabFind wFetching.groups 1 = some gA := by decide +kernel
theorem test_walk_premises : (stackOf (wWalk 0x40001000) 0).walks = [{ pasid := 1, vpn := 0x40001, core := 0, grp := 1 }] ∧
    tabFind (wWalk 0x40001000).groups 1 = some { gA with susp := .walk } ∧ closingP (wWalk 0x40001000) 1 = false ∧
    leafIs (walkStack (wWalk 0x40001000) 0 1 (0x40001 * 4096)) 0x40001000 = true ∧ badIs (walkStack (wWalk 0) 0 1 0) 0x60 = true := by decide +kernel
/-- The capacity block that core 0's line reads have named `n` times in the last clock. -/
def wReads (n : Nat) : State := { wA with cores := [(0, { coreA with tierReads := List.replicate n (0x10000000, 100) })] }
theorem test_promote_premises : tierOf (0x10000000 * 65536) = .cap ∧ (wReads 65).promoted.all (fun e => decide (e.1 ≠ 0x10000000)) = true ∧
    blockQuiet (wReads 65) 0x10000000 = true ∧ (poolFree (wReads 65)).isSome ∧ (wReads 65).MemOk ∧ blockReads (wReads 65) 0x10000000 = 65 ∧
    blockReads (wReads 64) 0x10000000 = 64 ∧ (∀ e ∈ (wReads 65).cores, ∀ w ∈ e.2.col, w.2.dirty = false) := by decide +kernel

/-! ### Engines -/

/-- Layout records 0 (E4M3) and 1 (FP32), a card without and one with a flag, a block table of one block. -/
def memA : List Host.Cell :=
  [(0x22000, 2), (0x22001, 12), (0x22008, 1), (0x22010, 64), (0x22040, 2), (0x22041, 9), (0x22048, 4), (0x22050, 128),
   (0x25000, 4), (0x25001, 1), (0x25002, 255), (0x25003, 255), (0x25004, 15), (0x25011, 0x60), (0x25012, 2), (0x25018, 8),
   (0x25080, 4), (0x25081, 1), (0x25082, 255), (0x25083, 255), (0x25084, 3), (0x25091, 0x60), (0x25092, 2), (0x25098, 8),
   (0x27000, 1), (0x27004, 128), (0x27008, 1), (0x2700A, 128), (0x27040, 1), (0x27041, 0x80), (0x27042, 2)]
/-- Register blocks: `s10` and `s16` operands of 2 rows of 64 codes in the partition, `s22` scales, `s26` a tensor in it, `s32` one in memory. -/
def regsA : Tab Word :=
  [(4, 0x27000), (6, 0x25000), (8, 0x25080), (11, 0xFFFFFFFD), (12, 64), (13, 2), (16, 128), (17, 0xFFFFFFFD), (18, 64), (19, 2), (22, 0x3F800000),
   (23, 0x3F800000), (27, 0xFFFFFFFD), (28, 32), (29, 1), (32, 0x28000), (34, 32), (35, 1), (40, 0x02000010), (41, 1024)]
def pOne : Path := { pA with mask := 1, owned := 1 }
def gEng : Group := { gA with sreg := regsA, paths := [pOne], gang := 0x02000010 }
def kTwo : Kernel := { kA with groups := 2 }
/-- One group alone in its team, and two. -/
def wOne : State := { world gEng kA with mem := memA }
def wTwo : State := { world gEng kTwo with
  mem := memA, groups := [(1, gEng), (2, { gEng with idx := 1 })], teams := [(1, teamNew 1 0 0 0 0 [1, 2])] }
def recOk (r : RecRes) (f : View → Bool) : Bool := match r with
  | .ok v => f v
  | _ => false
def cardOk (r : CardRes) (f : Sub → Bool) : Bool := match r with
  | .ok x => f x
  | _ => false
theorem test_copies_cpyc_premises : wOne.At gEng pOne ∧ gEng.handler = none ∧ gEng.Clean ∧ gEng.retired = false ∧ (stackOf wOne 0).subs.length < 256 ∧
    teamOf wOne gEng = some (teamNew 1 0 0 0 0 [1]) ∧ gEng.ncpyc + 1 < (teamNew 1 0 0 0 0 [1]).formed + 4 ∧
    recOk (layoutRecord wOne gEng 1) (fun v => (copyViews wOne gEng pOne (blockView gEng pOne v 26) (blockView gEng pOne v 32) 1 1).isRight) = true ∧
    (teamNew 1 0 0 0 0 [1]).groups = [wOne.cur] ∧ (teamNew 1 0 0 0 0 [1]).slices = [] ∧ (teamNew 1 0 0 0 0 [1]).formed = gEng.ncpyc ∧
    stackNo (teamNew 1 0 0 0 0 [1]).core = 0 := by decide +kernel
theorem test_copies_waiting_premises : wTwo.At gEng pOne ∧ teamOf wTwo gEng = some (teamNew 1 0 0 0 0 [1, 2]) ∧
    recOk (layoutRecord wTwo gEng 1) (fun v => (copyViews wTwo gEng pOne (blockView gEng pOne v 26) (blockView gEng pOne v 32) 1 1).isRight) = true ∧
    tabFind wTwo.groups 2 = some { gEng with idx := 1 } ∧ 2 ∈ (teamNew 1 0 0 0 0 [1, 2]).groups ∧ 2 ≠ wTwo.cur ∧ gEng.ncpyc ≤ 0 := by decide +kernel
theorem test_copies_gather_premises : recOk (layoutRecord wOne gEng 1) (fun v =>
      decide (v.rank = 2) && !v.ragged && decide (extent (blockView gEng pOne v 26) 0 * tyBits v.ty = 8 * 128) &&
        decide (1 * 1 ≤ extent (blockView gEng pOne v 26) 1) && (rangeOf wOne pOne (kernOf wOne gEng) (blockView gEng pOne v 26)).isNone) = true ∧
    (sPair gEng pOne 4).toNat % 64 = 0 ∧
    (match readVia wOne gEng .read 64 (sPair gEng pOne 4).toNat with
      | .ok bs => decide ((tabHead bs).map (fun h => (h.count, h.rows, h.rowBytes)) = some (1, 1, 128))
      | _ => false) = true ∧
    (match readEntries wOne gEng (sPair gEng pOne 4).toNat 1 ((maskLanes (activeMask gEng pOne)).map (fun l => (l, (vWord gEng 100 7 l).toNat))) with
      | .ok es => decide (es = [(0, 0, some 0x28001)])
      | _ => false) = true ∧ entryBad (0, 0, some 0x28001) = false ∧ 0x28001 / 2 % 2 = 0 := by decide +kernel
theorem test_tasks_premises : cardOk (readCard wOne gEng (sPair gEng pOne 6).toNat) (fun x => x.cardFlag.isNone) = true ∧
    cardOk (readCard wOne gEng (sPair gEng pOne 8).toNat) (fun x => decide (x.cardFlag = some (0, 3, 0))) = true ∧
    findSlot wOne 0 (pasidOf wOne gEng) 255 = none ∧ (stackOf wOne 0).tasks.length < 256 ∧ (sRead gEng pOne 41).toNat ≤ 1024 ∧ sRead gEng pOne 41 ≠ 0 ∧
    sRead gEng pOne 0 = 0 ∧ (∀ e ∈ wOne.groups, e.2.paths ≠ []) ∧ (∀ q ∈ gEng.reqs, q.id < wOne.fresh) := by decide +kernel
def slotT (st : TaskState) : TaskSlot := { pasid := 1, num := 7, v := 0, c := 0, card := none, state := st, packet := none }
theorem test_taskwait_premises : findSlot { wOne with stks := [(0, { stackA with tasks := [slotT .open] })] } 0 1 7 = some (slotT .open) ∧
    (slotT .open).state ≠ .done ∧ findSlot { wOne with stks := [(0, { stackA with tasks := [slotT .done] })] } 0 1 7 = some (slotT .done) ∧
    (slotT .done).state = .done ∧ pasidOf wOne gEng = 1 := by decide +kernel

/-- `SubmissionsRun`: one that may start, a slice that moves words inside the partition, over a ragged source and a box beyond the
extents, a gathered block and a hole, a packet's tensor copy, and one that has nothing left to do. -/
def viewOf (base : Nat) : View :=
  { space := 2, base := base, team := 1, ty := 9, rank := 1, swz := 0, inter := 0, ragged := false, zfill := false, bdim := 0, ldim := 0,
    strides := [4, 0, 0, 0], extents := [4, 0, 0, 0], fill := 0, lens := [] }
def sliceA : Slice := { dst := viewOf 64, src := viewOf 0, grp := 1, ir := 0, target := none, arrived := false }
def subA (w : Work) (started : Bool) : Sub :=
  { id := 7, pasid := 1, work := w, foot := [], by_ := [(1, 5)], team := some 1, task := none, count := none, cardFlag := none, status := none, packet := none,
    started := started, error := 0, suspended := none, pins := [], ir := 0, regions := [] }
def wSub (x : Sub) : State := { world (gReq (.job 0 7) none) kA with stks := [(0, { stackA with subs := [x] })] }
theorem test_submission_start_premises : findSub (wSub (subA (.slices [sliceA]) false)) 0 7 = some (subA (.slices [sliceA]) false) ∧
    (stackOf (wSub (subA (.slices [sliceA]) false)) 0).degraded = false ∧ settledBefore (gReq (.job 0 7) none) 5 = true ∧
    subFree (stackOf (wSub (subA (.slices [sliceA]) false)) 0).subs (subA (.slices [sliceA]) false) = true := by decide +kernel
theorem test_submission_tile_premises : (moveSlice (wSub (subA (.slices [sliceA]) true)) 0 1 (teamKernel (wSub (subA (.slices [sliceA]) true)) 1)
      (covers (subA (.slices [sliceA]) true)) sliceA).stop = none ∧ sliceA.arrived = false ∧ sliceA.target = none ∧
    (subA (.slices [sliceA]) true).started = true ∧ (subA (.slices [sliceA]) true).suspended = none ∧ (subA (.slices [sliceA]) true).error = 0 ∧
    subStalled (wSub (subA (.slices [sliceA]) true)) (subA (.slices [sliceA]) true) = false := by decide +kernel
/-- Four by two words with room for a fifth in each row, from a source whose rows are three and four words long. -/
def sliceR (z : Bool) : Slice := { sliceA with
  dst := { viewOf 64 with rank := 2, strides := [4, 32, 0, 0], extents := [4, 2, 0, 0], box := [5, 0], zfill := z, fill := 0xAABBCCDD },
  src := { viewOf 0 with rank := 2, strides := [4, 16, 0, 0], extents := [4, 2, 0, 0], ragged := true, bdim := 1, ldim := 0, lens := [3, 4] } }
def subR (z : Bool) : Sub := subA (.slices [sliceR z]) true
theorem test_slice_positions : ∀ z : Bool, positions (boxView (sliceR z).dst) =
    [[0, 0, 0, 0], [1, 0, 0, 0], [2, 0, 0, 0], [3, 0, 0, 0], [4, 0, 0, 0], [0, 1, 0, 0], [1, 1, 0, 0], [2, 1, 0, 0], [3, 1, 0, 0], [4, 1, 0, 0]] ∧
    (wSub (subR z)).Calm ∧ tyBits (sliceR z).dst.ty = 8 * 4 ∧ subStalled (wSub (subR z)) (subR z) = false ∧
    teamKernel (wSub (subR z)) 1 = kA ∧ tabFind (wSub (subR z)).teams 1 = some (teamNew 1 0 0 0 0 [1]) := by
  unfold State.Calm; decide +kernel
theorem own_place (o : Nat) (h : o < 4096) : ownPlace kA (teamNew 1 0 0 0 0 [1]) o = some (0, o) := by
  simp [ownPlace, teamNew, show kA.spad = 4096 from rfl, h]
theorem test_slice_bytes : ∀ z : Bool, ∀ p ∈ positions (boxView (sliceR z).dst), ∀ j < 4, ∃ x y, p = [x, y, 0, 0] ∧ x < 5 ∧ y < 2 ∧
    EngineByte (wSub (subR z)) 0 1 kA (sliceR z).dst p j .write (.spad 0 (64 + 4 * x + 32 * y + j)) ∧
    EngineByte (wSub (subR z)) 0 1 kA (sliceR z).src p j .read (.spad 0 (4 * x + 16 * y + j)) := by
  intro z p hp j hj
  obtain ⟨h, -, -, -, -, ht⟩ := test_slice_positions z
  rw [h] at hp
  have hd : ∀ x < 5, ∀ y < 2, ∀ j < 4, ((refElem (sliceR z).dst [x, y, 0, 0]).toNat + j = 64 + 4 * x + 32 * y + j) ∧
      ((refElem (sliceR z).src [x, y, 0, 0]).toNat + j = 4 * x + 16 * y + j) := by revert z; decide +kernel
  have hp : ∃ x < 5, ∃ y < 2, p = [x, y, 0, 0] := by revert p; decide +kernel
  obtain ⟨x, hx, y, hy, rfl⟩ := hp
  obtain ⟨h1, h2⟩ := hd x hx y hy j hj
  refine ⟨x, y, rfl, hx, hy, ⟨by simp [sliceR, viewOf], by simp [sliceR, viewOf], by omega, ?_⟩, by simp [sliceR, viewOf], by simp [sliceR, viewOf], by omega, ?_⟩
  · rw [if_neg (by simp [sliceR, viewOf])]
    refine ⟨_, 0, 64 + 4 * x + 32 * y + j, ht, ?_, rfl⟩
    rw [if_neg (by simp [sliceR, viewOf]), h1, own_place _ (by omega)]
  · rw [if_neg (by simp [sliceR, viewOf])]
    refine ⟨_, 0, 4 * x + 16 * y + j, ht, ?_, rfl⟩
    rw [if_neg (by simp [sliceR, viewOf]), h2, own_place _ (by omega)]
/-- One block of a row of 128 bytes, and a hole, gathered into the partition. -/
def dstG (z : Bool) : View := { viewOf 64 with rank := 2, strides := [4, 128, 0, 0], extents := [32, 2, 0, 0], zfill := z }
def blkG (hole : Bool) : GBlock :=
  { k := 1, addr := if hole then none else some 0x28F80, cold := false, arrived := false, frames := if hole then [] else [some 0x29] }
def subG (z hole : Bool) : Sub := subA (.gather (dstG z) 1 128 none [blkG hole]) true
theorem test_gather_premises : (∀ z hole : Bool, (wSub (subG z hole)).Calm ∧ subStalled (wSub (subG z hole)) (subG z hole) = false ∧
      (∀ f ∈ (blkG hole).frames, f ≠ none) ∧ tyBits (dstG z).ty = 8 * 4 ∧ 4 * extent (dstG z) 0 ≤ 128 ∧
      teamKernel (wSub (subG z hole)) 1 = kA) ∧
    (∀ o < 128, (blkG false).frames[(0x28F80 + o) / 4096 - 0x28F80 / 4096]? = some (some 0x29) ∧
      4096 * 0x29 + (0x28F80 + o) % 4096 < Config.hbmBytes) := by unfold State.Calm; decide +kernel
theorem test_gather_bytes : ∀ z hole : Bool, ∀ e < 32, ∀ j < 4,
    EngineByte (wSub (subG z hole)) 0 1 kA (dstG z) [e, 1 * 1 + 0, 0, 0] j .write (.spad 0 (192 + 4 * e + j)) := by
  intro z hole e he j hj
  have hd : ∀ e < 32, (refElem (dstG z) [e, 1 * 1 + 0, 0, 0]).toNat = 192 + 4 * e := by revert z; decide +kernel
  refine ⟨by simp [dstG, viewOf], by simp [dstG, viewOf], by have := hd e he; omega, ?_⟩
  rw [if_neg (by simp [dstG, viewOf])]
  refine ⟨teamNew 1 0 0 0 0 [1], 0, 192 + 4 * e + j, rfl, ?_, rfl⟩
  rw [if_neg (by simp [dstG, viewOf]), hd e he, own_place _ (by omega)]
/-- A packet's copy of a view of record 1 from `0x28000` to `0x29000`, of equal extents and of others. -/
def subT (ext : List Nat) : Sub :=
  { subA (.tensor 0x22040 0x22040 0x28000 0x29000 [4, 2, 0, 0] ext) false with team := none, by_ := [], packet := some (7, 0) }
def wTen (ext : List Nat) : State := { wSub (subT ext) with mem := memA }
theorem test_tensor_premises : (∀ e ∈ [[4, 2, 0, 0], [4, 3, 0, 0]], findSub (wTen e) 0 7 = some (subT e) ∧ (subT e).started = false ∧
      (subT e).suspended = none ∧ (stackOf (wTen e) 0).degraded = false ∧ subFree (stackOf (wTen e) 0).subs (subT e) = true ∧
      recCovered (subT e) 0x22040 = true ∧ (match engineBytes (wTen e) 0 1 64 0x22040 with
        | .ok bs => (recordView (fun i => (bs[i]?).getD 0)).any (fun v => decide (v.rank = 2) && !v.ragged &&
            decide (extent (viewBlock v 0 0x29000 e) 1 = (e[1]?).getD 0))
        | .error _ => false) = true) := by decide +kernel
def subDone : Sub := { subA .none true with status := some 0x29000 }
theorem test_submission_done_premises : findSub (wSub subDone) 0 7 = some subDone ∧ 7 < (wSub subDone).fresh ∧ subDone.work = .none ∧ subDone.foot = [] ∧ subDone.by_ = [(1, 5)] ∧
    translateNow (wSub subDone) 0 1 0x29000 .write = .ok 0x29000 ∧ 0x29000 + 8 ≤ Config.hbmBytes ∧ (wSub subDone).promoted = [] ∧ (wSub subDone).MemOk ∧
    tabFind (wSub subDone).groups 1 = some (gReq (.job 0 7) none) ∧ findReq (gReq (.job 0 7) none) 5 = some (reqOf (.job 0 7) none) ∧
    (∀ e ∈ (wSub subDone).groups, e.2.paths ≠ []) ∧ (teamNew 1 0 0 0 0 [1]).exited = false ∧ subDone.error = 0 := by decide +kernel

/-! ### The matrix engine and the drain unit -/

def tdA (drain : Bool) : TileDrain := { drain := drain, slot := 0, tile := 2 }
/-- The team's tile 2 with `n` instructions on it, and the entries of the latch. -/
def wTile (n : Nat) (latch : List GangEnt) : State := { wTwo with
  cores := [(0, { coreA with tokens := [(2, .m 1 n)], latch := latch, progs := [(1, 0, [0x5800000000000000])] })] }
theorem test_gangset_premises : (wTile 0 []).At gEng pOne ∧ gEng.handler = none ∧ teamOf (wTile 0 []) gEng = some (teamNew 1 0 0 0 0 [1, 2]) ∧
    (∀ q ∈ gEng.reqs, q.id < (wTile 0 []).fresh) ∧ gangOk (sRead gEng pOne 40) (kernOf (wTile 0 []) gEng).groups gEng.idx = true ∧
    gangOk gEng.gang (kernOf (wTile 0 []) gEng).groups gEng.idx = true := by decide +kernel
theorem test_mma_premises : recOk (layoutRecord (wTile 0 []) gEng 0) (fun v =>
      let x := blockView gEng pOne v 10
      let y := blockView gEng pOne v 16
      !v.ragged && operandOk .e4m3 true x && operandOk .e4m3 false y && decide (kOf x = kOf y) &&
        (rangeOf (wTile 0 []) pOne (kernOf (wTile 0 []) gEng) x).isNone && (rangeOf (wTile 0 []) pOne (kernOf (wTile 0 []) gEng) y).isNone &&
        (scaleBad (sRead gEng pOne 15) (kBlocks x)).isNone && (scaleBad (sRead gEng pOne 21) (kBlocks x)).isNone) = true := by decide +kernel
theorem test_gang_opens_premises : openEntry (wTile 0 []) gEng = none ∧ (coreOf (wTile 0 []) gEng.core).latch.length < 8 ∧
    tokenOf (wTile 0 []) gEng.core 2 = some (.m gEng.team 0) ∧ gangIdxs gEng.gang = [0, 1] ∧
    groupAt (wTile 0 []) (teamNew 1 0 0 0 0 [1, 2]) 1 = some 2 ∧ 2 ≠ (wTile 0 []).cur ∧ tabFind (wTile 0 []).groups 2 = some { gEng with idx := 1 } ∧
    gEng.retired = false := by decide +kernel
/-- The entry that group 2 has opened with the same word and the same registers. -/
def entA (mul : Bool) (names : List SReg) (drain : Bool) : GangEnt :=
  { placedDrain 6 1 0 with
    id := 6, gang := 0x02000010, regs := gangRegs (wTile 1 []) { gEng with idx := 1 } pOne (tdA drain) names, members := [(2, 4)], td := tdA drain,
    a := if mul then some (viewOf 0) else none, fired := false, begun := false, prog := [] }
theorem test_gang_joins_premises : (coreOf (wTile 1 [entA true (sSpan 10 6 ++ sSpan 16 6 ++ sSpan 22 2) false]) 0).latch =
      [entA true (sSpan 10 6 ++ sSpan 16 6 ++ sSpan 22 2) false] ∧
    openEntry (wTile 1 [entA true (sSpan 10 6 ++ sSpan 16 6 ++ sSpan 22 2) false]) gEng = some (entA true (sSpan 10 6 ++ sSpan 16 6 ++ sSpan 22 2) false) ∧
    (coreOf (wTile 1 [entA true (sSpan 10 6 ++ sSpan 16 6 ++ sSpan 22 2) false]) 0).seq.length < 4 ∧
    sameWord (entA true (sSpan 10 6 ++ sSpan 16 6 ++ sSpan 22 2) false) (wTile 1 []).ir
      (gangRegs (wTile 1 [entA true (sSpan 10 6 ++ sSpan 16 6 ++ sSpan 22 2) false]) gEng pOne (tdA false) (sSpan 10 6 ++ sSpan 16 6 ++ sSpan 22 2))
      (sSpan 10 6 ++ sSpan 16 6 ++ sSpan 22 2) = true ∧
    teamRuns (wTile 1 []) gEng.team = true ∧ groupAt (wTile 1 []) (teamNew 1 0 0 0 0 [1, 2]) 0 = some 1 ∧
    (∃ m ∈ (entA true (sSpan 10 6 ++ sSpan 16 6 ++ sSpan 22 2) false).members, m.1 = 2) ∧
    (∀ e ∈ (coreOf (wTile 1 [entA true [] false]) 0).latch, e.id < (wTile 1 []).fresh) := by decide +kernel
theorem test_mdrain_premises : drainChecks (wTile 0 []) gEng pOne 0 (gangRegs (wTile 0 []) gEng pOne (tdA true) (sSpan 22 2)) 2 2 [] = none ∧
    sameWord (entA false (sSpan 22 2) true) (wTile 1 []).ir (gangRegs (wTile 1 [entA false (sSpan 22 2) true]) gEng pOne (tdA true) (sSpan 22 2)) (sSpan 22 2) = true ∧
    (entA false (sSpan 22 2) true).a.isSome = false := by decide +kernel

/-- `TilesAndScales`: sources in the partition, a program of one word, and each state of a tile's token. -/
def chk (r : Checked) (n : Nat) : Bool := match r with
  | .ok ls => decide (ls.length = n)
  | _ => false
def gTile : Group := { gEng with sreg := [(5, 0xFFFFFFFD), (9, 512)], owner := [] }
def wTok (t : List (Nat × Token)) : State := { world gTile kA with cores := [(0, { coreA with tokens := t, spad := [(7, 0x58)] })] }
theorem test_tiles_premises : (wTok []).At gTile pOne ∧ gTile.Clean ∧ 1 ≤ (sRead gTile pOne 9).toNat ∧ (15872 : BitVec 14).toNat + (sRead gTile pOne 9).toNat ≤ 16384 ∧
    (sPair gTile pOne 4).toNat % 8 = 0 ∧ (sRead gTile pOne 9).toNat % 4 = 0 ∧
    chk (sourcePlaces (wTok []) gTile pOne (sPair gTile pOne 4).toNat (sRead gTile pOne 9).toNat) 128 = true ∧
    slotBusy (coreOf (wTok []) 0) 1 15 = false ∧ chk (sourcePlaces (wTok []) gTile pOne (sPair gTile pOne 4).toNat (8 * 1)) 2 = true ∧
    (loadLoc (wTok []) gTile .col (.spad 0 4) 4).2.1 = 0x58000000 ∧ drainRefused [0x5800000000000000] = none ∧
    drainUsed (coreOf (wTok []) 0) + 1 ≤ 512 + (slotWords (coreOf (wTok []) 0) 1 15).length ∧
    readHeld (wTok []) gTile 10 [.spad 0 0, .spad 0 4] (sPair gTile pOne 4).toNat = false := by decide +kernel
theorem test_tokens_premises : tokenOf (wTok []) 0 15 = none ∧ tokenOf (wTok [(15, .m 1 0)]) 0 15 = some (.m 1 0) ∧ tokenOf (wTok [(15, .m 1 1)]) 0 15 = some (.m 1 1) ∧
    tokenOf (wTok [(15, .v 1 1)]) 0 15 = some (.v 1 (wTok []).cur) ∧ accPending gTile 15 10 = false ∧
    accPending (gReq (.accwr 15 []) (some .acc)) 15 10 = true ∧ accBusy gTile 15 = false ∧ accBusy (gReq (.accwr 15 []) (some .acc)) 15 = true ∧ (∀ l ∈ maskLanes (activeMask gTile pOne), (vWord gTile 100 4 l).toNat < 16384) := by decide +kernel

/-- `MatrixRuns`: one K-block of two rows and columns in the partition, and an entry whose steps are done. -/
def okIs (r : Except (Nat × Nat) (List Loc)) (l : List Loc) : Bool := match r with
  | .ok x => decide (x = l)
  | .error _ => false
def opView (base : Nat) : View :=
  { viewOf base with ty := 12, rank := 2, strides := [1, 64, 0, 0], extents := [64, 2, 0, 0] }
def entRun (done : Bool) : GangEnt :=
  { placedDrain 6 1 0 with
    id := 6, members := [(1, 5)], td := tdA false, a := some (opView 0), b := some (opView 128), begun := false, zero := true, stepsDone := done, m := 2, n := 2, prog := [] }
def wSeq (e : GangEnt) : State := { world (gReq (.gang 6 false) none) kA with cores := [(0, { coreA with seq := [e], tokens := [(2, .m 1 1)] })] }
theorem test_matrixStep_premises : (coreOf (wSeq (entRun false)) 0).seq = [entRun false] ∧ (entRun false).stop = none ∧ startHeld (wSeq (entRun false)) (entRun false) = false ∧
    teamRuns (wSeq (entRun false)) 1 = true ∧ entStalled (wSeq (entRun false)) (entRun false) = false ∧ (entRun false).kb < kBlocks (opView 0) ∧ tabWf 0 (coreOf (wSeq (entRun false)) 0).acc = true ∧
    (coreOf (wSeq (entRun false)) 0).accPoison = [] ∧
    (coreOf (wSeq (entRun false)) 0).scalePoison = [] ∧ (entRun false).m ≤ 128 ∧ (entRun false).n ≤ 128 := by decide +kernel
theorem test_matrixStep_places : (∀ i ∈ liveRows (entRun false) (opView 0) 0, ∀ k < 64,
      okIs (elemPlaces (wSeq (entRun false)) 0 1 kA (opView 0) (opIndex (opView 0) i k) .read) [.spad 0 (64 * i + k)] = true) ∧
    (∀ j < 2, ∀ k < 64, okIs (elemPlaces (wSeq (entRun false)) 0 1 kA (opView 128) (opIndex (opView 128) j k) .read) [.spad 0 (128 + 64 * j + k)] = true) ∧
    teamKernel (wSeq (entRun false)) 1 = kA ∧ teamPasid (wSeq (entRun false)) 1 = 1 ∧ liveRows (entRun false) (opView 0) 0 = [0, 1] ∧
    spadPoisoned (wSeq (entRun false)) 0 255 = false := by decide +kernel
theorem test_matrixComplete_premises : (coreOf (wSeq (entRun true)) 0).seq = [entRun true] ∧ (coreOf (wSeq (entRun true)) 0).latch = [] ∧ (entRun true).stepsDone = true ∧
    (entRun true).td.drain = false ∧ (entRun true).members = [(1, 5)] ∧ tokenOf (wSeq (entRun true)) 0 2 = some (.m (entRun true).team 1) ∧
    findReq (gReq (.gang 6 false) none) 5 = some (reqOf (.gang 6 false) none) ∧ (∀ x ∈ (wSeq (entRun true)).groups, x.2.paths ≠ []) ∧
    tabFind (wSeq (entRun true)).teams 1 = some (teamNew 1 0 0 0 0 [1]) ∧ (teamNew 1 0 0 0 0 [1]).exited = false := by decide +kernel
/-- Blocks of products of codes: finite ones whose sum fits and whose sum overflows, one with a NaN, scales of each kind. -/
theorem test_block_premises : (0x38 : Nat) < 2 ^ 16 ∧ (0x38 : Nat) < 256 ∧ refOperand .e4m3 0x38 = some 1 ∧ refOperand .bf16 0x7F7F = some (255 * 2 ^ 120) ∧
    refVal .e4m3 0x7E = some 448 ∧ (126 : Byte).toNat < 127 ∧ 127 ≤ (127 : Byte).toNat ∧ refFits .f32 .rne (1 * 448 * 448) ∧
    refOver .f32 .rne (255 * 2 ^ 120 * (255 * 2 ^ 120) * 448 * 448) ∧ 0xFF % 128 = 127 ∧ 0x7C < 0x7D % 128 ∧ 0x7F80 < 0x7F81 % 2 ^ 15 ∧
    0x7C00 < 0x7E00 % 2 ^ 15 ∧ refFinite 0x3F800000 ∧ 0x7F800000 < (0xFF800001 : Word).toNat % 2 ^ 31 := by
  refine ⟨?_, ?_, ?_, ?_, ?_, ?_, ?_, ?_, ?_, ?_, ?_, ?_, ?_, ?_, ?_⟩ <;>
    first | decide +kernel | exact (by decide : (0x3F800000 : Nat) < 0x7F800000) | norm_num [refFits, refOver, refMaxStep, abs_of_pos]

/-- The drain statements: a drain in its first segment, its registers in the partition. -/
def entDrain (n : Nat) : GangEnt :=
  { placedDrain 6 1 0x5800000000000000 with
    id := 6, members := [(1, 5)], td := tdA true, regs := [(5, 0xFFFFFFFD), (6, 512)], m := 1, n := n, stepsDone := true }
def runDrain (fin : Bool) : DrainRun :=
  { ent := 6, row := 0, seg := 0, inSeg := true, pc := 0, e := [(3, 0x3F800000)], zeroAfter := true, finished := fin, fp := 0, suspended := none }
def wRun (n : Nat) (d : Option DrainRun) : State := { world (gReq (.gang 6 false) none) kA with
  cores := [(0, { coreA with seq := [entDrain n], tokens := [(2, .m 1 1)], drain := d })] }
theorem test_drainOps_premises : InDrain (wRun 64 (some (runDrain false))) (entDrain 64) (runDrain false) := by decide +kernel
theorem test_drainMemory_places : (∀ x < 64, okIs (runPlaces (wRun 64 (some (runDrain false))) 1 (spaceNo (regPair (entDrain 64).regs 4), 0 * 512 + x * 4, 4, true))
      ((List.range 4).map (fun i => .spad 0 (4 * x + i))) = true) ∧
    (∀ x < 64, x % 2 = 0 → okIs (runPlaces (wRun 64 (some (runDrain false))) 1 (spaceNo (regPair (entDrain 64).regs 4), 0 * 512 + x / 2, 1, true)) [.spad 0 (x / 2)] = true) ∧
    spaceNo (regPair (entDrain 64).regs 4) ≠ 0 ∧ regPair (entDrain 64).regs 4 % 2 ^ 32 = 0 ∧ regWord (entDrain 64).regs 6 = 512 ∧
    (coreOf (wRun 64 (some (runDrain false))) 0).bars = [] ∧ tabWf 0 (coreOf (wRun 64 (some (runDrain false))) 0).spad = true := by decide +kernel
theorem test_drainMemory_apart : (∀ x y, x < 64 → y < 64 → x < y → 4 * x + 4 ≤ 4 * y) ∧
    (∀ x y, x % 2 = 0 → y % 2 = 0 → x < y → x / 2 < y / 2) := ⟨by omega, by omega⟩
theorem test_drainSegments_premises : (coreOf (wRun 64 none) 0).drain = none ∧ (coreOf (wRun 64 none) 0).accPoison = [] ∧
    tabFind (wRun 64 none).teams 1 = some (teamNew 1 0 0 0 0 [1]) ∧ (teamNew 1 0 0 0 0 [1]).rolling = none ∧ (coreOf (wRun 64 none) 0).seq = [entDrain 64] ∧ (entDrain 64).stepsDone = true ∧
    (entDrain 64).td.drain = true ∧ (entDrain 64).stop = none ∧ (entDrain 64).saved = none ∧ startHeld (wRun 64 none) (entDrain 64) = false ∧
    teamRuns (wRun 64 none) 1 = true ∧ entStalled (wRun 64 none) (entDrain 64) = false ∧ regionOf (entDrain 0) = [] ∧ regionOf (entDrain 64) = [(0, 0)] ∧ regionOf (entDrain 128) = [(0, 0)] ++ [(0, 1)] ∧
    segFault (wRun 64 none) (entDrain 64) 0 0 ((drainRunWords (entDrain 64).prog).mapIdx (fun n w => (n, w))) = none ∧
    (coreOf (wRun 64 (some (runDrain true))) 0).drain = some (runDrain true) ∧ tokenOf (wRun 64 (some (runDrain true))) 0 2 = some (.m 1 1) ∧
    findReq (gReq (.gang 6 false) none) 5 = some (reqOf (.gang 6 false) none) := by decide +kernel
/-- A magnitude at each end of the scale's range. -/
theorem test_scaleFor_premises : (1 ≤ 1 ∧ 1 < 0x7F800000) ∧ refRat (BitVec.ofNat 32 1) ≤ 448 * 6 ∧ refRat (BitVec.ofNat 32 0x45280000) ≤ 448 * 6 := by
  unfold refRat; norm_num

/-! ### Barriers, collectives, the flash tier -/

/-- A barrier object of 2 groups at window offset 16, with `rem` still to arrive, `tiles` expected, in phase 65,535. -/
def barBytes (rem tiles : Byte) : Tab Byte := [(16, 2), (20, rem), (24, tiles), (28, 0xFF), (29, 0xFF)].filter (fun e => decide (e.2 ≠ 0))
def wBar (rem tiles : Byte) (g : Group) : State := { world g kA with cores := [(0, { coreA with spad := barBytes rem tiles, bars := [(16, 1)] })] }
def gBar (as : List Arrival) : Group := { gA with sreg := [(4, 16), (5, 0xFFFFFFFF), (6, 384), (7, 65535)], arrivals := as }
def arr (off : Nat) (passed : Bool) : Arrival := { off := off, phase := 65535, passed := passed }
theorem test_barrier_premises : (wBar 1 0 (gBar [])).At (gBar []) pA ∧ (∀ q ∈ (gBar []).reqs, q.id < (wBar 1 0 (gBar [])).fresh) ∧
    teamOf (wBar 1 0 (gBar [])) (gBar []) = some (teamNew 1 0 0 0 0 [1]) ∧ tabWf 0 (coreOf (wBar 1 0 (gBar [])) 0).spad = true ∧
    tabWf 0 (coreOf (wBar 2 3 (gBar [])) 0).spad = true ∧ spread (kernOf (wBar 1 0 (gBar [])) (gBar [])) = false ∧ (sRead (gBar []) pA 4).toNat % 16 = 0 ∧
    (sRead (gBar []) pA 4).toNat + 16 ≤ windowSize (kernOf (wBar 1 0 (gBar [])) (gBar [])) ∧
    winPlace (wBar 1 0 (gBar [])) (kernOf (wBar 1 0 (gBar [])) (gBar [])) (teamNew 1 0 0 0 0 [1]) 16 = some (0, 16) ∧
    (sRead (gBar []) pA 5).toNat = 0xFFFFFFFF := by decide +kernel
theorem test_barrier_checks : bariCheck (world (gBar []) kA) 0 16 (sRead (gBar []) pA 6).toNat (readBar (world (gBar []) kA) 0 16) = none ∧
    allPerformed (gBar []) = true ∧ arriveCheck (wBar 1 0 (gBar [])) (gBar []) 0 16 16 (readBar (wBar 1 0 (gBar [])) 0 16) = none ∧
    (readBar (wBar 1 0 (gBar [])) 0 16).rem = 1 ∧ (readBar (wBar 1 0 (gBar [])) 0 16).tiles = 0 ∧
    arriveCheck (wBar 2 3 (gBar [])) (gBar []) 0 16 16 (readBar (wBar 2 3 (gBar [])) 0 16) = none ∧ (readBar (wBar 2 3 (gBar [])) 0 16).rem ≠ 1 ∧
    barUsable (wBar 2 3 (gBar [])) 0 16 (readBar (wBar 2 3 (gBar [])) 0 16) = none ∧ (sRead (gBar []) pA 4).toNat ≠ 0xFFFFFFFF ∧
    (sRead (gBar []) pA 7).toNat ≤ 65535 ∧ (readBar (wBar 2 3 (gBar [])) 0 16).tiles + (sRead (gBar []) pA 7).toNat ≤ 2 ^ 20 ∧
    tabFind (coreOf (wBar 2 3 (gBar [])) 0).barDue 16 = none ∧ (teamNew 1 0 0 0 0 [1]).idx < 32 := by decide +kernel
/-- A phase of which nothing remains, at the end of its clock, with an entry and a wait of it. -/
def gPhase : Group := { gReq (.bwait 0 16 16 65535 true false false) (some .spad) with arrivals := [arr 16 false] }
def coreP : Core := { coreA with spad := barBytes 0 0, bars := [(16, 1)], barDue := [(16, 100)] }
def wPhase : State := { world gPhase kA with cores := [(0, coreP)], agenda := [.elapse 1] }
theorem test_phase_premises : wPhase.powered = true ∧ wPhase.agenda = .elapse 1 :: [] ∧ mustIssue wordIssues { wPhase with agenda := [] } = false ∧
    tabFind wPhase.cores 0 = some coreP ∧ (wPhase.cores.map (fun e => e.1)).Nodup ∧ coreP.barDue = [(16, wPhase.clock)] ∧
    (∀ e ∈ wPhase.cores, e.1 ≠ 0 → e.2.barDue = []) ∧ barValid wPhase 0 16 = true ∧ tabWf 0 coreP.spad = true ∧ (readBar wPhase 0 16).broken = false ∧
    (readBar wPhase 0 16).rem = 0 ∧ (readBar wPhase 0 16).tiles = 0 ∧ (gPhase.reqs.map (fun r => r.id)).Nodup ∧ (readBar wPhase 0 16).phase = 65535 ∧
    arrivalAt wPhase gPhase (arr 16 false) = some (0, 16) := by decide +kernel
theorem test_bwait_premises : (∀ a ∈ (gBar []).arrivals, a.off ≠ 16) ∧ (gBar [arr 16 false]).arrivals.find? (fun a => decide (a.off = 16) && !a.passed) = some (arr 16 false) ∧
    (∀ a ∈ (gBar [arr 16 true]).arrivals, a.off = 16 → a.passed = true) ∧ (∃ a ∈ (gBar [arr 16 true]).arrivals, a.off = 16) := by decide +kernel
theorem test_bwait_return_premises : findReq (gReq (.bwait 0 16 16 65536 true false false) (some .spad)) 5 = some (reqOf (.bwait 0 16 16 65536 true false false) (some .spad)) ∧
    (gReq (.bwait 0 16 16 7 true false false) (some .spad)).paths ≠ [] ∧ 7 ≠ 65536 ∧
    spread (kernOf (world (gReq (.bwait 0 16 16 65536 true false false) (some .spad)) kA) gA) = false := by decide +kernel

/-- `Collectives`: a collective of 2 members without and with an incomplete round. -/
def collA (issued completed : Nat) (rs : List Round) : Collective :=
  { pasid := 1, members := 2, me := 1, tree := false, result := 0x1000, timeout := 50, key := 0, table := 0, failed := false, issued := issued, completed := completed,
    rounds := rs, port := some 0 }
def roundA (op2 : Nat) : Round := { k := 3, op := 1, left := some 40, grp := 1, req := 5, parts := [(0, 1, []), (1, op2, [])] }
def wColl (g : Group) (c : Collective) : State := { world g kA with collectives := [(4095, c)] }
def gColl : Group := { gA with sreg := [(9, 4095)] }
theorem test_collective_premises : (wColl gColl (collA 3 3 [])).At gColl pA ∧ gColl.Clean ∧ (∀ q ∈ gColl.reqs, q.id < 10) ∧
    tabFind (wColl gColl (collA 3 3 [])).collectives (sRead gColl pA 9).toNat = some (collA 3 3 []) ∧ (sRead gColl pA 9).toNat < 4096 ∧
    (collA 3 3 []).pasid = pasidOf (wColl gColl (collA 3 3 [])) gColl ∧ (collA 3 3 []).issued < (collA 3 3 []).completed + 2 ∧
    (collA 3 3 []).rounds.find? (fun r => r.k = 3) = none ∧ (collA 4 3 []).completed < (collA 4 3 []).issued ∧
    (collA 3 3 []).issued ≤ (collA 3 3 []).completed := by decide +kernel
theorem test_round_premises : tabFind (wColl (gReq (.xred 4095 3) none) (collA 4 3 [roundA 1])).collectives 4095 = some (collA 4 3 [roundA 1]) ∧
    (roundA 1).k = (collA 4 3 [roundA 1]).completed ∧ (roundA 1).left = some 40 ∧
    tabFind (wColl (gReq (.xred 4095 3) none) (collA 4 3 [roundA 1])).groups (roundA 1).grp = some (gReq (.xred 4095 3) none) ∧
    findReq (gReq (.xred 4095 3) none) (roundA 1).req = some (reqOf (.xred 4095 3) none) ∧ 0x1300 + 768 ≤ Config.hbmBytes ∧
    (∀ i < 192, tlbFind (stackOf (wColl gColl (collA 4 3 [roundA 1])) 0).tlb 1 (0x1000 + 768 * (3 % 2) + 4 * i) = some leafAll ∧
      leafUse leafAll .write (0x1000 + 768 * (3 % 2) + 4 * i) = .ok (0x1300 + 4 * i)) ∧
    (∀ m < 2, ∃ e ∈ (roundA 1).parts, e.1 = m) ∧ (collA 4 3 [roundA 1]).port.isSome = true ∧ (collA 4 3 [roundA 1]).issued = (collA 4 3 [roundA 1]).completed + 1 ∧
    (wColl gColl (collA 4 3 [roundA 1])).promoted = [] ∧ (wColl gColl (collA 4 3 [roundA 1])).MemOk ∧
    { wColl (gReq (.xred 4095 3) none) (collA 4 3 [roundA 1]) with clock := 89 }.clock < 40 + 50 ∧ 40 + 50 ≤ (wColl gColl (collA 4 3 [roundA 1])).clock ∧ 1 < (collA 4 3 []).members ∧
    (roundA 2).parts.find? (fun p => p.1 = 1) = some (1, 2, []) ∧ 2 ≠ (roundA 2).op := by decide +kernel

/-- `AppendsAndSeals`: the open segment with room for just the record, a group with and without an earlier append, a sealed one. -/
def segS (state : Nat) (tail : Nat) : Segment := { segA with state := state, tail := tail }
def wSeg (g : Group) (x : Segment) : State := { world g kA with segments := [(9, x)] }
def gSeg (ap : Tab Nat) : Group := { gA with sreg := [(20, 0x40000000), (23, 0xFFFFFFFD), (24, 4)], appends := ap }
theorem test_append_premises : (wSeg (gSeg []) (segS 1 (2 ^ 20 - 32))).At (gSeg []) pA ∧ (gSeg []).RegsOk ∧
    segBase (wSeg (gSeg []) (segS 1 (2 ^ 20 - 32))) (pasidOf (wSeg (gSeg []) (segS 1 (2 ^ 20 - 32))) (gSeg [])) (sPair (gSeg []) pA 20).toNat = some (9, segS 1 (2 ^ 20 - 32)) ∧
    tabFind (wSeg (gSeg []) (segS 1 (2 ^ 20 - 32))).segments 9 = some (segS 1 (2 ^ 20 - 32)) ∧ appendsHeld (wSeg (gSeg []) (segS 1 (2 ^ 20 - 32))) < 4096 ∧
    (sRead (gSeg []) pA 24).toNat % 4 = 0 ∧ (sPair (gSeg []) pA 22).toNat % 4 = 0 ∧
    chk (sourcePlaces (wSeg (gSeg []) (segS 1 256)) (gSeg []) pA (sPair (gSeg []) pA 22).toNat (sRead (gSeg []) pA 24).toNat) 1 = true ∧
    (segS 1 (2 ^ 20 - 32)).tail + (16 + 16 * (((sRead (gSeg []) pA 24).toNat + 15) / 16)) ≤ 2 ^ (segS 1 256).z ∧ tabGet 0 (gSeg []).appends 9 = 0 ∧
    (58 : SReg).toNat % 2 = 0 ∧ (58 : SReg).toNat < 60 ∧ tabGet 0 (gSeg [(9, 4)]).appends 9 ≠ 0 ∧ (segS 2 256).state = 2 := by decide +kernel

/-- `StorageEvents`: an append whose payload is to be read; records to become durable; a load that waits, and a word that waits for it. -/
def segSealing : Segment := { segA with sealing := true }
def gLoad (pa : Nat) (stalled : Bool) : Group :=
  { gA with reqs := [{ reqOf (.sload 5 false (.phys pa)) none with stalled := stalled, stallAt := if stalled then 101 else 0 }] }
def wStall : State := { world (gLoad Config.flashBase true) kA with
  clock := 100000100, mem := (homeWrite 4 (world gA kA) 0x10000 0x04314200).mem }
theorem test_storage_premises : (gReq (.append 9 4 [.spad 0 0]) (some .flash)).reqs = [reqOf (.append 9 4 [.spad 0 0]) (some .flash)] ∧
    tabWf 0 segA.bytes = true ∧ 32 ≤ endOf segA 4 ∧ segA.durable + 1 < segA.next ∧ segA.durable + 1 ∉ segA.unread ∧ segA.sealing = false ∧
    segSealing.sealing = true ∧ segSealing.durable + 2 = segSealing.next ∧ (wSeg gA segA).hostWait = [] ∧ mailRoom (wSeg gA segA) 4 8 = true ∧
    mailRoom { wSeg gA segA with mail := [(72, List.replicate 16 0)] } 4 8 = false ∧ tierOf Config.flashBase = .flash ∧
    (gLoad Config.flashBase false).reqs.length = 1 := by decide +kernel
theorem test_storageTimeout_premises : tabFind wStall.groups 1 = some (gLoad Config.flashBase true) ∧ 101 - 1 + wStall.storageTimeout ≤ wStall.clock ∧
    ((gLoad Config.flashBase true).reqs.head?.bind (waiterOf wStall (gLoad Config.flashBase true))).map (fun e => (e.1.id, e.2.1, e.2.2)) =
      some (0, 0x04314200, false) ∧ (gLoad Config.flashBase true).susp = .run ∧
    (gLoad Config.flashBase true).due = [] ∧ waitsTurn wStall 1 (gLoad Config.flashBase true) 0 = false ∧ (gLoad Config.flashBase true).handler = none ∧
    (gLoad Config.flashBase true).garnet = none ∧
    (clusterOf wStall (gLoad Config.flashBase true)).map (fun c => c.state) = some .resident ∧
    (kernOf wStall (gLoad Config.flashBase true)).trapOff = some 0x40 := by decide +kernel

/-! ### Queues, packets, placement -/

/-- Page tables at frames 1 to 3 that map the first GiB of process 1 to itself. -/
def ptA : List Host.Cell := [(0x1000, 0x01), (0x1001, 0x08), (0x2000, 0x01), (0x2001, 0x0C), (0x3000, 0xDF)]
/-- An object of one kernel: its header, three sections and descriptor. -/
def objA : List Host.Cell :=
  [(0x30000, 0x53), (0x30001, 0x4F), (0x30002, 0x5A), (0x30003, 0x4B), (0x30004, 1), (0x30006, 3), (0x30009, 4), (0x30010, 1),
   (0x30040, 1), (0x30042, 2), (0x30049, 2), (0x30050, 4),
   (0x30060, 2), (0x30062, 2), (0x30068, 0x80), (0x30069, 2), (0x30070, 12),
   (0x30080, 5), (0x30089, 3), (0x30090, 128), (0x30098, 0xFF), (0x30099, 0xFF), (0x3009A, 0xFF), (0x3009B, 0xFF)] ++
  (List.range 8).map (fun i => (0x30310 + i, 0xFF)) ++ [(0x30318, 8), (0x3031A, 1), (0x3031C, 1), (0x3031D, 1), (0x3031E, 1)]
/-- A queue whose head packet stands at `0x40000`. -/
def queueA : Queue :=
  { pasid := 1, ring := 0x40000, lg := 4, cls := 1, vector := 5, hart := 95, tailAddr := 0x42000, tailPa := 0x42000, statusAddr := 0x41000, tail := 1, head := 0,
    state := .active, skip := 0, running := [], watch := none, since := 0, served := 0 }
/-- A packet with the given non-zero bytes, and the module whose queue 7 holds it. -/
def pkt (bs : Tab Byte) : List Byte := (List.range 128).map (fun i => tabGet 0 bs i)
def wPktOver (more : List Host.Cell) (bs : Tab Byte) : State := { world gA kA with
  procs := [(1, { root := 1, asid := 0, closing := false })], queues := [(7, queueA)],
  mem := ptA ++ more ++ bs.map (fun e => (0x40000 + e.1, e.2)) }
def wPkt (bs : Tab Byte) : State := wPktOver [] bs
def cardCells : List Host.Cell := memA.filter (fun e => decide (0x25000 ≤ e.1 ∧ e.1 < 0x25080))
theorem test_packet_head_premises : fetcherAddr (wPkt []) 1 queueA.statusAddr .write = some 0x41000 ∧ 0x41000 + 4 ≤ Config.hbmBytes ∧
    (wPkt [(0, 4)]).promoted = [] ∧ (wPkt [(0, 4)]).MemOk ∧ queueA.skip = 0 := by decide +kernel
def bLaunch : Tab Byte := [(0, 1), (34, 3), (44, 2), (74, 2)]
theorem test_packet_launch_premises : Serves (wPktOver objA bLaunch) 7 queueA (pkt bLaunch) ∧ isKind 1 (pkt bLaunch) = true ∧
    (judgeLaunch (wPktOver objA bLaunch) 1 (pkt bLaunch)).isRight = true := by decide +kernel
def bCopy : Tab Byte := [(0, 2), (33, 0x50), (34, 2)]
theorem test_packet_copy_premises : Serves (wPktOver cardCells bCopy) 7 queueA (pkt bCopy) ∧ isKind 2 (pkt bCopy) = true ∧ listNat (pkt bCopy) 40 1 < 48 ∧
    zeroBytes (pkt bCopy) 41 87 = true ∧ (packetCard (wPktOver cardCells bCopy) (listNat (pkt bCopy) 40 1) 1 (listNat (pkt bCopy) 32 8)).isRight = true ∧
    stackFull (wPktOver cardCells bCopy) 0 = false ∧ (stackOf (wPktOver cardCells bCopy) 0).degraded = false := by decide +kernel
def bTask : Tab Byte := [(0, 3), (33, 0x50), (34, 2), (40, 47), (42, 255), (45, 4)]
theorem test_packet_task_premises : Serves (wPktOver cardCells bTask) 7 queueA (pkt bTask) ∧ isKind 3 (pkt bTask) = true ∧ listNat (pkt bTask) 40 1 < 48 ∧
    listNat (pkt bTask) 42 2 ≤ 255 ∧ zeroBytes (pkt bTask) 41 1 = true ∧ zeroBytes (pkt bTask) 46 82 = true ∧
    (packetCard (wPktOver cardCells bTask) 47 1 (listNat (pkt bTask) 32 8)).isRight = true ∧ 1 ≤ listNat (pkt bTask) 44 2 ∧ listNat (pkt bTask) 44 2 ≤ 1024 ∧
    findSlot (wPktOver cardCells bTask) 47 1 255 = none ∧ (stackOf (wPktOver cardCells bTask) 47).tasks.length < 256 ∧
    (stackOf (wPktOver cardCells bTask) 47).degraded = false := by decide +kernel
theorem test_packet_barrier_premises : Serves (wPkt [(0, 4)]) 7 queueA (pkt [(0, 4)]) ∧ isKind 4 (pkt [(0, 4)]) = true ∧ zeroBytes (pkt [(0, 4)]) 32 96 = true := by
  decide +kernel
/-- A translation request of operation `op` over one page at `0x50000000`, or at the segment's first page. -/
def bTrans (op b : Byte) : Tab Byte := [(0, 5), (32, op), (43, b), (49, 0x10)]
def leafAt (lg pa : Nat) (r : Bool) : TlbEnt := { leafAll with va := 0x50000000, lg := lg, pa := pa, r := r }
def wTrans (op b : Byte) (e : TlbEnt) : State := { wPkt (bTrans op b) with
  stks := [(0, { stackA with tlb := [e] })], segments := [(9, { segA with state := 2 })],
  promoted := if op = 3 then [(Config.flashBase / 65536, 5)] else [] }
theorem test_packet_translations_premises : Serves (wTrans 1 0x50 leafAll) 7 queueA (pkt (bTrans 1 0x50)) ∧ isKind 5 (pkt (bTrans 1 0x50)) = true ∧
    listNat (pkt (bTrans 1 0x50)) 40 8 % 4096 = 0 ∧ listNat (pkt (bTrans 1 0x50)) 48 8 = 4096 ∧ zeroBytes (pkt (bTrans 1 0x50)) 34 6 = true ∧
    zeroBytes (pkt (bTrans 1 0x50)) 56 72 = true ∧ rangeBad 0x50000000 4096 = false ∧ reqOp (pkt (bTrans 1 0x50)) = 1 ∧
    pasidQuiet (wTrans 1 0x50 leafAll) 1 (fun _ => true) = true ∧ (wTrans 1 0x50 leafAll).promoted = [] ∧ (∀ e ∈ (wTrans 1 0x50 leafAll).stks, ∀ x ∈ e.2.subs, x.pins = [] ∧ x.pasid ≠ 1) := by decide +kernel
/-- An invalidation that a load past its check puts off. -/
def wBusy : State := { wTrans 1 0x50 leafAll with groups := [(1, gReq (.sload 5 false (.phys 0x20000)) none)] }
theorem test_packet_deferred_premises : Serves wBusy 7 queueA (pkt (bTrans 1 0x50)) ∧ pasidQuiet wBusy 1 (fun _ => true) = false ∧ queueA.running = [] := by decide +kernel
theorem test_packet_prefault_premises : Serves (wTrans 2 0x50 (leafAt 12 0x60000 false)) 7 queueA (pkt (bTrans 2 0x50)) ∧ reqOp (pkt (bTrans 2 0x50)) = 2 ∧
    tlbFind (stackOf (wTrans 2 0x50 (leafAt 12 0x60000 false)) 0).tlb 1 0x50000000 = some (leafAt 12 0x60000 false) ∧
    leafUse (leafAt 12 0x60000 false) .read 0x50000000 = .bad 0x63 ∧ leafUse (leafAt 12 0x60000 true) .read 0x50000000 = .ok 0x60000 := by decide +kernel
theorem test_packet_demote_premises : Serves (wTrans 3 0x40 leafAll) 7 queueA (pkt (bTrans 3 0x40)) ∧ reqOp (pkt (bTrans 3 0x40)) = 3 ∧
    (wTrans 3 0x40 leafAll).promoted = [(Config.flashBase / 65536, 5)] ∧
    segWindow (wTrans 3 0x40 leafAll) 1 0x40000000 = some (9, { segA with state := 2 }) ∧ segA.attach = some (1, 0x40000000) ∧
    tierOf (Config.flashBase / 65536 * 65536) = .flash ∧ pairQuiet (wTrans 3 0x40 leafAll) (Config.flashBase / 65536, 5) = true ∧
    tlbFind (stackOf (wTrans 3 0x40 { leafAll with va := 0x40000000, pa := Config.flashBase }) 0).tlb 1 0x40000000 =
      some { leafAll with va := 0x40000000, pa := Config.flashBase } ∧
    leafUse { leafAll with va := 0x40000000, pa := Config.flashBase } .read 0x40000000 = .ok Config.flashBase ∧ (∀ e ∈ (wTrans 3 0x40 leafAll).promoted, Config.hbmBytes ≤ e.1 * 65536) := by decide +kernel
theorem test_packet_prefetch_premises : Serves (wTrans 4 0x50 (leafAt 12 Config.capBase true)) 7 queueA (pkt (bTrans 4 0x50)) ∧ reqOp (pkt (bTrans 4 0x50)) = 4 ∧
    leafUse (leafAt 12 Config.capBase true) .read 0x50000000 = .ok Config.capBase ∧
    mayPromote (wTrans 4 0x50 (leafAt 12 Config.capBase true)) (Config.capBase / 65536) = true ∧
    (poolFree (wTrans 4 0x50 (leafAt 12 Config.capBase true))).isSome := by decide +kernel

/-- `Conditionals`: a test of the word at `0x25000`, of each kind and outcome. -/
def bCond (kind v : Byte) : Tab Byte :=
  [(0, 6), (33, 0x50), (34, 2), (40, v), (48, 0xFF), (57, 8), (58, kind), (60, 3), (64, 1)].filter (fun e => decide (e.2 ≠ 0))
theorem test_conditional_premises : Serves (wPktOver [(0x25000, 4)] (bCond 2 4)) 7 queueA (pkt (bCond 2 4)) ∧ ∀ k ∈ [0, 1, 2],
    isKind 6 (pkt (bCond k 4)) = true ∧ condBad (pkt (bCond k 4)) = false ∧ listNat (pkt (bCond k 4)) 58 1 = k.toNat ∧
    testHolds (wPktOver [(0x25000, 4)] (bCond k 4)) queueA (pkt (bCond k 4)) = some true ∧
    testHolds (wPktOver [(0x25000, 4)] (bCond k 5)) queueA (pkt (bCond k 5)) = some false := by decide +kernel
def queueLate : Queue := { queueA with state := .waiting, since := 1 }
def wLate : State := { wPktOver [(0x25000, 4)] (bCond 1 5) with queues := [(7, queueLate)], clock := 1000 }
theorem test_repeat_timeout_premises : Serves wLate 7 queueLate (pkt (bCond 1 5)) ∧ listNat (pkt (bCond 1 5)) 64 4 = 1 ∧ queueLate.since ≠ 0 ∧
    queueLate.since - 1 + 1000 * 1 ≤ wLate.clock ∧ (fetcherAddr (putStatus wLate queueLate 0x06 0) 1 0x41000 .write).isSome ∧
    fetcherAddr wLate 1 0x41000 .write = some 0x41000 ∧ wLate.MemOk := by decide +kernel

/-- `QueueEvents`: the wait watch and the tail watch, a packet to complete, items to feed. -/
def queueWatch : Queue := { queueA with state := .waiting, watch := some 9 }
def pktDone (op : Nat) : Packet := { idx := 0, sigAddr := 0x43000, sigVal := 5, sigOp := op, intr := true, effectsDone := true, bar := false }
theorem test_queueEvents_premises : queueWatch.tailPa / 128 ≠ 9 ∧ queueWatch.state ≠ .closing ∧ closingP (wPkt []) 1 = false ∧
    queueA.tailPa / 128 = 0x840 ∧ fetcherNat (wPkt []) 1 .read 4 queueA.tailAddr = some 0 ∧
    fetcherAddr (wPkt []) 1 (pktDone 2).sigAddr .write = some 0x43000 ∧ (∀ e ∈ (wPkt []).cores, e.2.col = []) ∧ (pktDone 1).effectsDone = true ∧ (pktDone 1).inval = none ∧
    0x43000 + 8 ≤ Config.hbmBytes ∧ hostStale (wPkt []) = false ∧ hostStale { wPkt [] with hostCache := [(0, 1)] } = true ∧ (wPkt []).MemOk ∧
    (wPkt []).promoted = [] := by decide +kernel
def launchFeed (kept : List (List Word × Nat)) : Launch := { launchA kItem with itemAddr := 0x25000, itemCount := 1, kept := kept }
def wFeed (kept : List (List Word × Nat)) : State := { wPkt [] with launches := [(1, launchFeed kept)] }
theorem test_itemFeed_premises : tabFind (wFeed []).launches 1 = some (launchFeed []) ∧ (launchFeed []).feedEnded = false ∧ (launchFeed []).killed = false ∧
    feedCore (wFeed []) 1 64 = some 0 ∧ feedCore (wFeed [([1], 9)]) 1 64 = some 0 ∧ (launchFeed []).itemNext < (launchFeed []).itemCount ∧
    (fetcherBytes (wFeed []) 1 .read 32 0x25000).isSome := by decide +kernel

/-- `Placement`: a launch with one cluster to place, its grant, and a launch that is over. -/
def launchNew : Launch := { launchA kA with nextCluster := 0 }
def wEmpty : State := { State.reset with boot := 6, fresh := 10, launches := [(1, launchNew)] }
theorem test_search_premises : wEmpty.placeReqs = [] ∧ wEmpty.clusters = [] ∧ wEmpty.offers = [] ∧ launchNew.killed = false ∧ launchNew.cls < 4 ∧
    launchNew.grid = launchNew.nextCluster + 1 ∧ firstRect 1 1 (rectFits wEmpty 1 launchNew []) = some (0, 0) := by decide +kernel
def clNew : Cluster := { launch := 1, index := 0, ox := 0, oy := 0, state := .requested, teams := [], placed := 0, since := 0 }
def wAsk : State := { wEmpty with clusters := [(2, clNew)], placeReqs := [{ cluster := 2, ox := 31, oy := 23 }] }
theorem test_grant_premises : tabFind wAsk.clusters 2 = some clNew ∧ tabFind wAsk.launches clNew.launch = some launchNew ∧
    preloads wAsk launchNew.pasid launchNew.kern = some [] ∧ grantable { wAsk with placeReqs := [] } 2 clNew launchNew 31 23 0 = true := by decide +kernel
theorem test_launchComplete_premises : launchOver { wPkt [] with clusters := [] } 1 (launchA kA) = true ∧ (launchA kA).finished = false ∧ (launchA kA).silent = false ∧
    fetcherAddr (wPkt []) 1 (launchA kA).recAddr .write = some 0x24000 ∧ 0x24000 + 128 ≤ Config.hbmBytes ∧
    (∀ e ∈ (wPkt []).stks, ∀ r ∈ e.2.fatal, r.launch ≠ some 1) := by decide +kernel

/-! ### Pre-emption, trap records, reliability, the system -/

/-- A launch of class 0 that needs every core of the only stack left, and a cluster of class 3 on one of them. -/
def launchWide : Launch := { launchNew with cls := 0, pasid := 1, kern := { kA with width := 4, height := 4 } }
def wPre : State := { world gA kA with
  launches := [(1, { launchA kA with cls := 3, pasid := 2 }), (2, launchWide)], queues := [(0, queueA)],
  stks := (List.range 48).map (fun i => (i, { stackZero with degraded := decide (i ≠ 0) })) }
theorem test_preempt_premises : (waitOrder wPre).findSome? (decideFor wPre) = some (2, (0, 0), [1]) ∧ tabFind wPre.launches 2 = some launchWide := by decide +kernel
def clIs (st : ClState) : Cluster := { launch := 1, index := 0, ox := 0, oy := 0, state := st, teams := [1], placed := 1, since := 0 }
def wCl (st : ClState) : State := { wA with clusters := [(1, clIs st)] }
def savedA : SavedTeam :=
  { team := 1, tiles := [], tokens := [], extents := [], scale := [], progs := [], spad := [(4095, 7)], poison := [], bars := [], gangs := [] }
theorem test_save_premises : (wCl .stopping).KeysOk ∧ tabFind (wCl .stopping).clusters 1 = some (clIs .stopping) ∧ maySave (wCl .stopping) [1] = true ∧
    (giveSaves (wCl .stopping) [1]).isSome ∧ (wCl .stopping).promoted = [] ∧ (wCl .stopping).MemOk ∧
    (∀ e ∈ (wCl .saving).cores, e.2.bars = []) ∧ tabFind (wCl .restoring).teams 1 = some (teamNew 1 0 0 0 0 [1]) ∧ tabSorted savedA.spad = true ∧
    (∀ e ∈ savedA.spad, e.1 < (teamKernel (wCl .restoring) 1).spad) ∧ tabWf 0 (coreOf (wCl .restoring) 0).spad = true ∧
    (∀ e ∈ (wCl .restoring).groups, e.2.paths ≠ []) := by decide +kernel
/-- A cluster that may not be saved yet: a lane is on a context; and one whose team finds no frames left for its save area. -/
def wOnContext : State := { wCl .stopping with groups := [(1, gParent), (2, gContext)] }
def wNoFrames : State := { wCl .stopping with teams := [(1, teamNew 1 0 0 0 0 [1]), (2, { teamNew 2 0 0 1 0 [] with save := some (0, 0, privateFrames) })] }
theorem test_save_waits : maySave wOnContext [1] = false ∧ (giveSaves wNoFrames [1]).isNone := by decide +kernel
/-- A group with an image, and its team with a save area of nine frames. -/
def gImage : Group := { gA with image := some 5 }
def tmArea : Team := { teamNew 1 0 0 0 0 [1] with save := some (0, 7, 9) }
def wArea : State := { wCl .saving with teams := [(1, tmArea)], groups := [(1, gImage)] }
theorem test_image_premises : 5 + 1 < privateFrames ∧ tabFind wArea.groups 1 = some gImage ∧ gImage.team ∈ (clIs .saving).teams ∧ gImage.garnet = none ∧
    (∀ e ∈ wArea.groups, e.1 = 1) := by decide +kernel
theorem test_area_premises : tabFind wArea.teams 1 = some tmArea ∧ tmArea.cluster = 1 ∧ tmArea.exited = false ∧ 7 + 9 ≤ privateFrames ∧ (clIs .saving).teams = [1] ∧
    (coreOf wArea 0).tokens = [] ∧ (coreOf wArea 0).progs = [] ∧ tabWf 0 (coreOf wArea 0).spad = true ∧ (teamKernel wArea 1).spad + 32768 ≤ 4096 * 9 ∧
    wArea.promoted = [] ∧ wArea.MemOk := by decide +kernel

/-- A record of class `cls` of the group, under tag 3. -/
def recA (cls code : Nat) : TrapRec :=
  { info := { code := code, cls := cls, src := 0, val0 := 0, val1 := 0, tspc := 0, tlpc := 0, addr := 0x5000, lane := 0, aux := 0, ir := 0, path := 0 },
    pasid := 1, core := 0, slot := 0, teamIdx := 0, tag := 3, grp := 1, team := 1, launch := some 1 }
def wRec (x : Stack) : State := { wA with stks := [(0, x)] }
theorem test_trapQueue_premises : (stackOf (wRec { stackA with fatal := [recA 2 0x4F], trapQ := List.replicate 63 (recA 1 0x60) }) 0).trapQ.length < 64 ∧
    (stackOf (wRec { stackA with waitQ := [recA 1 0x60], trapQ := List.replicate 61 (recA 1 0x60) }) 0).trapQ.length ≤ 61 ∧
    (stackOf (wRec { stackA with trapQ := [recA 3 0x32] }) 0).trapQ = [recA 3 0x32] ∧ (recA 3 0x32).info.cls ≠ 2 ∧
    tabFind wA.teams (recA 2 0x4F).team = some (teamNew 1 0 0 0 0 [1]) ∧ (tabFind wA.clusters 1).map (fun c => c.launch) = some 1 ∧
    (tabFind wA.launches 1).map (fun l => (l.cause, l.finished)) = some (0, false) ∧
    (recA 2 0x4F).launch = some 1 ∧ segsDone wA 1 = true ∧ segsDone (wRun 64 (some (runDrain false))) 1 = false := by decide +kernel

/-- `Reliability`: the last lane of the last group of a bus, spares free and used, a team on the stack, rows of a remap table, storage. -/
def coreFull : Core := { coreA with swaps := [(1, 0), (2, 1)] }
theorem test_reliability_premises : Config.hbmBytes - 1 < Config.hbmBytes ∧ wA.blockTables = [] ∧ wA.promoted = [] ∧ groupLane 17 305 = true ∧ groupLane 17 287 = true ∧
    767 < 768 ∧ decide (2 ≤ (coreOf wA 0).swaps.length) = false ∧ decide (2 ≤ (coreOf { wA with cores := [(0, coreFull)] } 0).swaps.length) = true ∧ 287 < 288 ∧
    (stackOf wA 47).degraded = false ∧ (stackOf wA 0).degraded = false ∧ wA.KeysOk ∧
    tabFind wA.teams 1 = some (teamNew 1 0 0 0 0 [1]) ∧ (teamNew 1 0 0 0 0 [1]).groups = 1 :: [] ∧ (teamNew 1 0 0 0 0 [1]).core / 16 = 0 ∧
    teamOut wA (teamNew 1 0 0 0 0 [1]) = false ∧ (teamNew 1 0 0 0 0 [1]).exited = false ∧ tabFind wA.groups 1 = some gA ∧ gA.team = 1 := by decide +kernel
def wRow (x : RowCopies) : State := { wA with agenda := [.rowRead 47 5], stks := [(47, { stackA with remap := [(5, x)] })] }
theorem test_row_premises : ∀ x ∈ ([⟨7, 7, 0⟩, ⟨7, 0, 7⟩, ⟨0, 7, 7⟩, ⟨1, 2, 3⟩] : List RowCopies), (wRow x).powered = true ∧ (wRow x).agenda = [.rowRead 47 5] ∧
    tabWf ⟨0, 0, 0⟩ (stackOf (wRow x) 47).remap = true ∧ rowOf (wRow x) 47 5 = x := by decide +kernel
theorem test_storageError_premises : tabFind wA.groups 1 = some gA ∧ gA.retired = false ∧ 96 * 384 - 1 < 96 * (kernOf wA gA).regs ∧ gA.garnet = none ∧
    (teamNew 1 0 0 0 0 [1]).fatal = false ∧ tabFind wContext.groups 2 = some gContext ∧ gContext.retired = false ∧ gContext.garnet = some garA ∧ garA.parent ≠ 2 ∧
    tabFind wContext.groups garA.parent = some gParent ∧ wContext.KeysOk ∧ garA.lane < 96 ∧ gParent.dead.getLsbD garA.lane = false := by decide +kernel
def wLife : State := { wA with clock := 2 ^ 36, stks := [(0, { stackA with lifeSegs := [9] })], segments := [(9, { segA with attach := none })] }
theorem test_lifetime_premises : (stackOf wLife 0).lifeAt + 2 ^ 36 ≤ wLife.clock ∧ (stackOf wLife 0).lifeSegs.getLast? = some 9 ∧ tabFind wLife.segments 9 = some { segA with attach := none } ∧
    ∀ l : List Byte, lifeRoom wLife 0 (l.take 65536).length = true := by
  refine ⟨by decide, by decide, by decide, fun l => ?_⟩
  have h : (l.take 65536).length ≤ 65536 := by simp
  generalize (l.take 65536).length = n at h
  have hz : lifeRoom wLife 0 n = decide (256 + recordSize n ≤ 2 ^ 20) := rfl
  rw [hz, decide_eq_true_eq, recordSize]
  omega
/-- Five levels of tables from frame 1 that map page 0 to frame `0x30` under flags `fl`. -/
def ptHart (fl : Byte) : List Host.Cell :=
  [(0x1000, 0x01), (0x1001, 0x08), (0x2000, 0x01), (0x2001, 0x0C), (0x3000, 0x01), (0x3001, 0x10), (0x4000, 0x01), (0x4001, 0x14), (0x5000, fl), (0x5001, 0xC0)]
def wHart (fl : Byte) : State := { wA with mem := ptHart fl }
/-- Tables from frame 1 downwards that map an address, none of them where `named` holds. -/
theorem hart_maps (s : State) (va fl : Nat) (named : Nat → Prop) (hn : ∀ a, named a → 0x30000 ≤ a)
    (h : (∀ k < 4, homeNat s 8 ((5 - (k + 1)) * 4096 + va / 2 ^ (21 + 9 * k) % 512 * 8) = (5 - k) * 2 ^ 10 + 1) ∧
      homeNat s 8 (5 * 4096 + va / 4096 % 512 * 8) = 0x30 * 2 ^ 10 + fl ∧ fl < 256 ∧ fl % 2 = 1 ∧ fl / 2 % 8 ∉ [0, 2, 6] ∧ canonical va = true) :
    MapsOutside s 1 va 0x30 fl named := by
  refine ⟨fun k => 5 - k, rfl, fun k hk => ⟨?_, fun o ho x => ?_⟩, h.1, h.2.1, h.2.2.1, h.2.2.2.1, h.2.2.2.2.1, ?_, h.2.2.2.2.2⟩
  · have : Config.hbmBytes = 0x24000000000 := rfl
    dsimp only
    omega
  · have := hn _ x
    dsimp only at this
    omega
  · decide
/-- A hart in user mode at the page, whose leaf does and does not allow user accesses. -/
theorem test_hartMaps_premises : HartMaps (wHart 0xD7) 1 8 0x30 0xD7 ∧ HartMaps (wHart 0xC7) 1 8 0x30 0xC7 ∧ (0xD7 : Nat).testBit 4 = true ∧
    (0xC7 : Nat).testBit 4 = false ∧ (0xD7 : Nat).testBit 7 = true ∧ (wHart 0xD7).MemOk :=
  ⟨hart_maps _ 8 0xD7 _ (fun _ h => h.elim) (by decide +kernel), hart_maps _ 8 0xC7 _ (fun _ h => h.elim) (by decide +kernel), by decide, by decide, by decide, by decide +kernel⟩
/-- `SystemEvents` and `ResetState`. -/
theorem test_system_premises : wA.boot = 6 ∧ State.reset.boot ≠ 6 ∧ (Config.hbmBytes - 8) % 8 = 0 ∧ (Config.hbmBytes - 1) % 1 = 0 ∧
    intVal 32 true 0x80000000 ≤ intVal 32 true 1 ∧ wA.promoted = [] ∧ wA.MemOk ∧ Config.pcieBase ≤ Config.pcieBase + 8 ∧
    tierOf Config.privBase = .priv ∧ tierOf (Config.hbmBytes) = .none ∧ tierOf (Config.flashBase + 8) = .flash ∧ hartLoads (.storeN 8 0) = false ∧
    tabFind { wA with hartRes := [(95, 0x1000 / 64)] }.hartRes 95 = some (0x1000 / 64) ∧
    tabFind { wHart 0xD7 with iommu := [(2 ^ 20 * 3 + 7, 1)] }.iommu (2 ^ 20 * 3 + 7) = some 1 ∧ tabFind (wHart 0xD7).iommu (2 ^ 20 * 3 + 7) = none ∧
    31 ∉ wA.portsDown ∧ 31 ∈ { wA with portsDown := [31] }.portsDown := by decide +kernel
/-- A collective on the port that fails, with and without another port that reaches its peer. -/
def wPort (ps : List (Nat × Nat)) : State := { wA with peers := ps, collectives := [(4095, { collA 0 0 [] with port := some 31 })] }
theorem test_port_premises : tabFind (wPort [(31, 9)]).peers 31 = some 9 ∧ (tabFind (wPort []).collectives 4095).map (fun c => c.port) = some (some 31) ∧
    (5, 9) ∈ (wPort [(5, 9), (31, 9)]).peers ∧ 5 ∉ (wPort []).portsDown := by decide +kernel
theorem test_reset_premises : tabFind (wSeg gA segA).segments 9 = some segA ∧ tabSorted wA.cores = true ∧ tabSorted wLife.stks = true ∧
    (stackOf wLife 0).lifeSegs ≠ [] := by decide +kernel

/-! ### Host requests -/

/-- A message from its fields: offset and value. -/
def msg (fs : List (Nat × Nat)) : BitVec 512 := BitVec.ofNat 512 ((fs.map (fun f => f.2 * 256 ^ f.1)).sum)
/-- The module with one request waiting. -/
def wMsg (fs : List (Nat × Nat)) : State := { wPkt [] with hostIn := [msg fs] }
theorem test_host_register_premises : Asks (wMsg [(1, 0x11), (8, 2), (16, 1)]) (msg [(1, 0x11), (8, 2), (16, 1)]) [] 0x11 [(16, 8), (24, 2)] ∧
    0 < msgPasid (msg [(1, 0x11), (8, 2), (16, 1)]) ∧ msgPasid (msg [(1, 0x11), (8, 2), (16, 1)]) < 2 ^ 20 ∧ tabFind (wPkt []).procs 2 = none := by decide +kernel
/-- A queue descriptor at `0x43000`. -/
def wDesc (fs : List (Nat × Nat)) : State := { wMsg fs with
  queues := [], mem := (wPkt []).mem ++ [(0x43002, 4), (0x43008, 4), (0x43009, 1), (0x4300C, 5), (0x43011, 0x20), (0x43012, 4), (0x43019, 0x10), (0x4301A, 4)] }
theorem test_host_queue_premises : Asks (wDesc [(1, 1), (8, 1), (16, 0x43000), (24, 95)]) (msg [(1, 1), (8, 1), (16, 0x43000), (24, 95)]) [] 0x01 [(16, 8), (24, 2)] ∧
    OfProcess (wDesc []) (msg [(1, 1), (8, 1)]) ∧ (descBytes (wDesc []) 1 0x43000).any descOk = true ∧
    (descBytes (wDesc []) 1 0x43000).map (fun bs => (listNat bs 16 8, listNat bs 24 8)) = some (0x42000, 0x41000) ∧
    leafFits (wDesc []) 1 0x42000 false = some 0x42000 ∧ leafFits (wDesc []) 1 0x41000 true = some 0x41000 ∧
    lowestFree ((wDesc []).queues.map (fun e => e.1)) 65536 = some 0 ∧ (tailLines (wDesc [])).length < 4096 ∧ (∀ i < 4, corePa (wDesc []) 1 (0x43000 + 32 + i) = some (0x43020 + i)) ∧
    (wDesc []).MemOk ∧ (wDesc []).promoted = [] := by decide +kernel
theorem test_host_free_premises : Asks (wMsg [(1, 2), (8, 1), (12, 7)]) (msg [(1, 2), (8, 1), (12, 7)]) [] 0x02 [(12, 4)] ∧ tabFind (wMsg []).queues 7 = some queueA ∧
    queueA.pasid = msgPasid (msg [(1, 2), (8, 1), (12, 7)]) ∧ tabSorted (wMsg []).queues = true ∧
    Asks (wMsg [(1, 3), (8, 1), (12, 7)]) (msg [(1, 3), (8, 1), (12, 7)]) [] 0x03 [(12, 4)] ∧ fetcherAddr (wMsg []) 1 (queueA.statusAddr + 8) .write = some 0x41008 ∧
    tabFind { wMsg [] with queues := [(7, { queueA with state := .error })] }.queues 7 = some { queueA with state := .error } := by decide +kernel
/-- A reply to the record of a service request, and of a fault whose page is mapped. -/
def wReply (cls code : Nat) : State := { wMsg [(1, 4), (8, 1), (16, 3), (20, 0x1234)] with
  groups := [(1, { gA with susp := .record 3 })], stks := [(0, { stackA with pending := [recA cls code] })] }
theorem test_host_reply_premises : Asks (wReply 3 0x32) (msg [(1, 4), (8, 1), (16, 3), (20, 0x1234)]) [] 0x04 [(12, 1), (13, 1), (16, 4), (20, 4)] ∧
    (stackOf (wReply 3 0x32) 0).pending = [recA 3 0x32] ∧ (recA 3 0x32).tag = 3 ∧ (wReply 3 0x32).KeysOk ∧
    tabFind (wReply 3 0x32).groups 1 = some { gA with susp := .record 3 } ∧ findPath gA 0 = some pA ∧ (recA 1 0x60).info.cls = 1 ∧
    (∀ e ∈ (wReply 1 0x60).groups, e.2.susp = .record 3 → e.1 = 1) ∧ mayInval (wReply 1 0x60) 1 0x5000 4096 = true ∧ OfProcess (wReply 1 0x60) (msg [(1, 4), (8, 1)]) ∧ gA.due = [] ∧ gA.resident = true ∧ gA.RegsOk ∧
    pA.id = (recA 3 0x32).info.path ∧ (wReply 1 0x60).promoted = [] := by decide +kernel
/-- The same for a group that is out; and replies that are discarded: of no process, and with a tag that names no record. -/
theorem test_host_discard_premises : { gA with susp := Susp.record 3, resident := false }.resident = false ∧
    tabFind { wReply 3 0x32 with groups := [(1, { gA with susp := .record 3, resident := false })] }.groups (recA 3 0x32).grp =
      some { gA with susp := .record 3, resident := false } ∧
    Asks (wMsg [(1, 4), (8, 2), (16, 3)]) (msg [(1, 4), (8, 2), (16, 3)]) [] 0x04 [(12, 1), (13, 1), (16, 4), (20, 4)] ∧ tabFind (wMsg []).procs 2 = none ∧
    closingP (wReply 3 0x32) 1 = false ∧ (recA 3 0x32).tag ≠ msgNat (msg [(1, 4), (8, 1), (16, 4)]) 16 4 := by decide +kernel
theorem test_host_collective_premises :
    Asks (wMsg [(1, 9), (8, 1), (12, 64), (13, 63), (14, 1), (16, 0x44000), (24, 1000), (32, 0x45000)])
      (msg [(1, 9), (8, 1), (12, 64), (13, 63), (14, 1), (16, 0x44000), (24, 1000), (32, 0x45000)]) [] 0x09
      [(12, 1), (13, 1), (14, 1), (16, 8), (24, 4), (32, 8), (40, 8)] ∧ lowestFree ((wMsg []).collectives.map (fun e => e.1)) 4096 = some 0 ∧
    leafFits (wMsg []) 1 0x44000 true = some 0x44000 ∧ corePa (wMsg []) 1 0x45000 = some 0x45000 ∧ 0x44000 % 4096 = 0 := by decide +kernel
theorem test_host_settings_premises : Asks (wMsg [(1, 10), (8, 1), (16, 64), (24, 1)]) (msg [(1, 10), (8, 1), (16, 64), (24, 1)]) [] 0x0A [(16, 8), (24, 1)] ∧
    (1, 64) ∈ { wMsg [] with blockTables := [(1, 64)] }.blockTables ∧
    Asks (wMsg [(1, 11), (12, 10000000)]) (msg [(1, 11), (12, 10000000)]) [] 0x0B [(12, 4)] ∧ msgPasid (msg [(1, 11), (12, 10000000)]) = 0 ∧
    Asks (wMsg [(1, 12), (12, 255), (16, 16384)]) (msg [(1, 12), (12, 255), (16, 16384)]) [] 0x0C [(12, 1), (16, 4)] ∧
    Asks (wMsg [(1, 12), (12, 47), (16, 0)]) (msg [(1, 12), (12, 47), (16, 0)]) [] 0x0C [(12, 1), (16, 4)] := by decide +kernel
theorem test_host_launch_premises : Asks (wMsg [(1, 13), (8, 1)]) (msg [(1, 13), (8, 1)]) [] 0x0D [(12, 4), (16, 4)] ∧ tabSorted (wMsg []).launches = true ∧
    (tabFind (wMsg []).launches 1).map (fun l => (l.queue, l.pkt, l.pasid, l.finished)) = some (0, 0, 1, false) ∧
    (∀ e ∈ (wMsg []).launches, e.1 = 1) ∧ (wMsg []).promoted = [] ∧ Asks { wMsg [(1, 14), (8, 1)] with teams := [], launches := [], queues := [] } (msg [(1, 14), (8, 1)]) [] 0x0E [] ∧
    tabFind (wMsg []).procs 1 = some { root := 1, asid := 0, closing := false } ∧ tabSorted (wMsg []).procs = true ∧ (∀ e ∈ (wMsg []).stks, e.2.subs = []) ∧
    Asks (wMsg [(1, 15), (16, 5), (48, 0x46000)]) (msg [(1, 15), (16, 5), (48, 0x46000)]) [] 0x0F [(16, 32), (48, 8)] ∧ 0x46000 % 256 = 0 := by decide +kernel

/-- `HostRequests`, killing a launch: with a group that runs, and with none. -/
theorem test_kill_premises : launchNo (wMsg []) gA = some 1 ∧ gA.garnet = none ∧ gA.retired = false ∧ tabFind (wMsg []).teams gA.team = some (teamNew 1 0 0 0 0 [1]) ∧
    (teamNew 1 0 0 0 0 [1]).fatal = false ∧ (teamNew 1 0 0 0 0 [1]).exited = false ∧ teamOut (wMsg []) (teamNew 1 0 0 0 0 [1]) = false ∧
    (tabFind (wMsg []).launches 1).map (fun l => l.cause) = some 0 ∧ (∀ e ∈ (wMsg []).stks, ∀ r ∈ e.2.fatal, r.launch ≠ some 1) ∧
    (∀ e ∈ { wMsg [] with groups := [(1, { gA with retired := true })] }.groups, e.2.retired = true) ∧ segsDone (wMsg []) 1 = true ∧
    segsDone { wRun 64 (some (runDrain false)) with hostIn := (wMsg [(1, 13), (8, 1)]).hostIn } 1 = false := by decide +kernel

/-- `HostSegments`. -/
def wSegs (fs : List (Nat × Nat)) (x : Segment) : State := { wMsg fs with segments := [(9, x)] }
def mCreate (att name : Nat) : List (Nat × Nat) := [(1, 5), (8, 1), (16, 0x60000000), (24, 20), (25, att), (32, name)]
theorem test_segment_create_premises : Asks (wSegs (mCreate 0 3) segA) (msg (mCreate 0 3)) [] 0x05 [(16, 8), (24, 1), (25, 1), (32, 8)] ∧
    0x60000000 % 2 ^ 20 = 0 ∧ windowFree (wSegs [] segA) 1 0x60000000 20 = true ∧ tabFind (wSegs [] segA).segments 3 = none ∧ (segPlace (wSegs [] segA) 20).isSome ∧
    Asks (wSegs (mCreate 1 9) { segA with attach := none }) (msg (mCreate 1 9)) [] 0x05 [(16, 8), (24, 1), (25, 1), (32, 8)] ∧
    tabFind (wSegs [] { segA with attach := none }).segments 9 = some { segA with attach := none } ∧ segA.z = 20 ∧
    mailRoom (wSegs [] segA) 4 8 = true ∧ mailRoom { wSegs [] segA with mail := [(16 * 4 + 8, List.replicate 16 0)] } 4 8 = false := by decide +kernel
def mBase (code : Nat) : List (Nat × Nat) := [(1, code), (8, 1), (16, 0x40000000)]
def mAppend (flag : Nat) : List (Nat × Nat) := [(1, 7), (8, 1), (16, 0x40000000), (24, 0x25000), (32, 4), (36, flag)]
theorem test_segment_premises : OfProcess (wSegs [] segA) (msg (mBase 6)) ∧ segBase (wSegs [] segA) 1 0x40000000 = some (9, segA) ∧
    segsDone (wMsg []) 1 = true ∧ Asks (wSegs (mBase 6) segA) (msg (mBase 6)) [] 0x06 [(16, 8)] ∧ segPinned (wSegs [] segA) segA = false ∧ mayInvalBut (wSegs [] segA) 1 0x40000000 (2 ^ 20) (segNeeds (wSegs [] segA) segA) = true ∧ (wSegs [] segA).promoted = [] ∧
    (∀ e ∈ (wSegs [] segA).groups, ∀ r ∈ e.2.reqs, engineSeg r.kind ≠ some 9) ∧
    segPinned { wSegs [] segA with cores := [(0, { coreA with pins := [(Config.flashBase / 128, 6, 1)] })] } segA = true ∧
    mayInvalBut { wSegs [] segA with groups := [(1, gReq (.sload 5 false (.phys 0x20000)) none)] } 1 0x40000000 (2 ^ 20)
      (segNeeds { wSegs [] segA with groups := [(1, gReq (.sload 5 false (.phys 0x20000)) none)] } segA) = false ∧ tabSorted (wSegs [] segA).segments = true ∧
    Asks (wSegs (mAppend 1) segA) (msg (mAppend 1)) [] 0x07 [(16, 8), (24, 8), (32, 4), (36, 1)] ∧ msgNat (msg (mAppend 1)) 36 1 = 1 ∧
    (match hostSource (wSegs [] segA) 1 0x25000 4 with
      | .ok ls => decide (ls = [.phys 0x25000])
      | .error _ => false) = true ∧ segA.tail + 32 ≤ 2 ^ segA.z ∧ segA.durable < segA.next ∧ segA.state = 1 ∧ segA.sealing = false ∧ appendsHeld (wSegs [] segA) < 4096 ∧
    Asks (wSegs (mBase 8) segA) (msg (mBase 8)) [] 0x08 [(16, 8)] ∧ segA.durable + 1 ≠ segA.next ∧ { segA with durable := 4 }.durable + 1 = segA.next := by decide +kernel
def segLife : Segment := { segA with state := 2, attach := none }
def mOpen : List (Nat × Nat) := [(1, 16), (8, 1), (24, 0x60000000)]
def wOpen : State := { wSegs mOpen segLife with stks := [(0, { stackA with lifeSegs := [9] })] }
theorem test_segment_life_premises : Asks wOpen (msg mOpen) [] 0x10 [(12, 1), (16, 4), (24, 8)] ∧
    ((stackOf wOpen 0).lifeSegs.filter (fun k => (tabFind wOpen.segments k).any (fun g => g.state = 2)))[0]? = some 9 ∧ windowFree wOpen 1 0x60000000 20 = true ∧
    Asks (wSegs [(1, 18), (8, 1)] segA) (msg [(1, 18), (8, 1)]) [] 0x12 [(16, 8), (24, 4)] := by decide +kernel
/-- A buffer for one kept segment at address 32 of the page that `ptHart` maps. -/
def mList : List (Nat × Nat) := [(1, 18), (8, 1), (16, 32), (24, 32)]
def wList : State := { wSegs mList segA with mem := ptHart 0xD7 }
theorem test_list_premises : Asks wList (msg mList) [] 0x12 [(16, 8), (24, 4)] ∧ 32 * min (wList.segments.filter (fun e => decide (e.1 < 2 ^ 64))).length (32 / 32) = 32 ∧
    tabFind wList.procs 1 = some { root := 1, asid := 0, closing := false } ∧ (∀ i < 32, segWindow wList 1 (32 + i) = none) ∧ wList.promoted = [] ∧ wList.MemOk ∧
    (∀ e ∈ wList.segments, e.2.z < 2 ^ 32 ∧ e.2.state < 2 ^ 32) ∧ segA.attach = some (1, 0x40000000) ∧
    MapsOutside wList 1 32 0x30 0xD7 (fun a => 0x30020 ≤ a ∧ a < 0x30040) :=
  ⟨by decide +kernel, by decide +kernel, by decide +kernel, by decide +kernel, by decide +kernel, by decide +kernel, by decide +kernel, by decide,
    hart_maps _ 32 0xD7 _ (fun a h => by have := h.1; omega) (by decide +kernel)⟩

/-! ### Home slices -/

/-- R194: the two addresses of the chapter's worked case, and one frame of each other tier. -/
theorem test_homeSlice : homeSlice 0x3C00019080 = some (.column (5 * 16 + 9)) ∧ homeSlice 0x0C00002000 = some (.column (1 * 16 + 2)) ∧
    homeSlice (Config.capBase + 17 * 4096) = some (.controller 1) ∧ homeSlice (Config.flashBase + 15 * 4096) = some (.flashStack 7) := by decide +kernel

/-! ### Encodings and the whole module -/

/-- `ScalarEncodings`, `LaneEncodings`, `DrainEncodings`: well-formed instructions with a word. -/
theorem test_encodings_premises : (Instr.add 3 1 2).wf = true ∧ encodeScalar (.add 3 1 2) = some 0x04304200 ∧ iIadd.wf = true ∧
    encodeLane iIadd = some 0x01000502C18000A0001E0000 ∧ (Instr.dfma 1 0 (.reg 2) 3).wf = true ∧ encodeDrain (.dfma 1 0 (.reg 2) 3) = some 0x0C408C0000000000 := by
  decide +kernel
/-- `MemoryForm`: a step from a state whose memory has its canonical form. -/
theorem test_memoryForm_premises : (State.reset.withFetchWord 32 0xF8000000).MemOk ∧ (State.reset.withFetchWord 32 0xF8000000).RegsOk ∧
    (State.reset.withFetchWord 32 0xF8000000).KeysOk ∧ (match step (State.reset.withFetchWord 32 0xF8000000) with
    | .next t => decide (t.MemOk ∧ t.RegsOk ∧ t.KeysOk)
    | _ => false) = true := by decide +kernel
/-- A word placed in each format is what the very next step runs. -/
theorem test_placed_words : (match step (State.reset.withFetchWord 32 0x24700005) with
      | .next t => decide ((tabFind t.groups 1).map (fun g => tabGet 0 g.sreg 7) = some 5)
      | _ => false) = true ∧
    (match step (State.reset.withFetchWord 64 0x5800000000000000) with
      | .next t => decide ((coreOf t 0).drain.map (fun d => d.inSeg) = some false)
      | _ => false) = true := by decide +kernel
theorem test_placed_lane_word : (match step (State.reset.withFetchWord 96 0x010A000000000000001E0000) with
      | .next t => decide ((tabFind t.groups 1).map (fun g => g.paths.map (fun p => p.lpc)) = some [12])
      | _ => false) = true := by decide +kernel

end Sys2Proof.Tests
end

section
/-! # Every step keeps the canonical forms (O59)

The three canonical forms are carried through the model together: `State.Wf k` says that a state has the form `k`, and each
function of the model that returns a state has one lemma, named after it with `_wf`, saying that its result has the forms that its
argument has. A form looks at the memory, the groups, the cores, the teams and the queues only, so a function that writes other
fields keeps it by the hypothesis itself; only the few functions that write one of the five need an argument of their own, and the
rest is composition along the model's branches. -/
namespace Sys2Proof.Machine

/-- The three canonical forms that a step keeps: of memory, of register tables, of keyed records. -/
inductive Form where
  | memory | registers | keys

/-- The parts of the state that the canonical forms speak of have form `k`. -/
def PartsWf (k : Form) (mem : List Host.Cell) (groups : Tab Group) (cores : Tab Core) (teams : Tab Team) (queues : Tab Queue) : Prop :=
  match k with
  | .memory => memWf mem = true
  | .registers => ∀ e ∈ groups, e.2.RegsOk
  | .keys => tabSorted groups = true ∧ tabSorted cores = true ∧ tabSorted teams = true ∧ tabSorted queues = true

/-- A state has form `k`. It looks at five fields only, so an update of any other field leaves the statement what it was. -/
def State.Wf (k : Form) (s : State) : Prop := PartsWf k s.mem s.groups s.cores s.teams s.queues
/-- What form `k` asks of a group, so that storing it keeps the form. -/
def Group.Wf (k : Form) (g : Group) : Prop := match k with
  | .registers => g.RegsOk
  | _ => True
/-- An outcome's next state, if there is one, has form `k`. -/
def OutWf (k : Form) (r : Out) : Prop := match r with
  | .next s => s.Wf k
  | _ => True
/-- The state of an optional result has form `k`. -/
def OptWf (k : Form) (o : Option State) : Prop := match o with
  | some s => s.Wf k
  | none => True
/-- The state of a result that may be an error has form `k`. -/
def ExceptWf {ε : Type} (k : Form) (r : Except ε State) : Prop := match r with
  | .ok s => s.Wf k
  | .error _ => True
/-- The state of a result of two parts that may be an error has form `k`. -/
def ExceptFstWf {ε α : Type} (k : Form) (r : Except ε (State × α)) : Prop := match r with
  | .ok x => x.1.Wf k
  | .error _ => True
/-- The state that a turn of a stream leaves, or in which its instruction executes, has form `k`. -/
def ReadyWf (k : Form) (r : Ready) : Prop := match r with
  | .stay s => s.Wf k
  | .run _ s => s.Wf k

variable {k : Form} {s t : State} {g : Group}

/-! ### Branches, folds and matches -/

theorem ite_wf {c : Prop} [Decidable c] {a b : State} (ha : a.Wf k) (hb : b.Wf k) : (if c then a else b).Wf k := by
  split
  · exact ha
  · exact hb
theorem ite_groupWf {c : Prop} [Decidable c] {a b : Group} (ha : a.Wf k) (hb : b.Wf k) : (if c then a else b).Wf k := by
  split
  · exact ha
  · exact hb
theorem ite_outWf {c : Prop} [Decidable c] {a b : Out} (ha : OutWf k a) (hb : OutWf k b) : OutWf k (if c then a else b) := by
  split
  · exact ha
  · exact hb
theorem ite_optWf {c : Prop} [Decidable c] {a b : Option State} (ha : OptWf k a) (hb : OptWf k b) : OptWf k (if c then a else b) := by
  split
  · exact ha
  · exact hb
theorem ite_exceptWf {ε : Type} {c : Prop} [Decidable c] {a b : Except ε State} (ha : ExceptWf k a) (hb : ExceptWf k b) :
    ExceptWf k (if c then a else b) := by
  split
  · exact ha
  · exact hb
theorem ite_readyWf {c : Prop} [Decidable c] {a b : Ready} (ha : ReadyWf k a) (hb : ReadyWf k b) : ReadyWf k (if c then a else b) := by
  split
  · exact ha
  · exact hb
theorem foldl_wf {α : Type} {f : State → α → State} {l : List α} (hf : ∀ t a, t.Wf k → (f t a).Wf k) (h : s.Wf k) : (l.foldl f s).Wf k :=
  foldl_keeps (P := State.Wf k) l hf h
theorem foldl_mem_wf {α : Type} {f : State → α → State} {l : List α} (hf : ∀ t, ∀ a ∈ l, t.Wf k → (f t a).Wf k) (h : s.Wf k) :
    (l.foldl f s).Wf k := by
  induction l generalizing s with
  | nil => exact h
  | cons a l ih => exact ih (fun t b hb => hf t b (List.mem_cons_of_mem _ hb)) (hf s a List.mem_cons_self h)
theorem foldl_groupWf {α : Type} {f : Group → α → Group} {l : List α} (hf : ∀ g a, g.Wf k → (f g a).Wf k) (hg : g.Wf k) :
    (l.foldl f g).Wf k :=
  foldl_keeps (P := Group.Wf k) l hf hg

theorem OutWf.of_eq {r : Out} (h : OutWf k r) (e : r = .next s) : s.Wf k := by subst e; exact h
theorem OptWf.of_eq {o : Option State} (h : OptWf k o) (e : o = some s) : s.Wf k := by subst e; exact h
theorem ExceptWf.of_eq {ε : Type} {r : Except ε State} (h : ExceptWf k r) (e : r = .ok s) : s.Wf k := by subst e; exact h
theorem ExceptFstWf.of_eq {ε α : Type} {r : Except ε (State × α)} {x : α} (h : ExceptFstWf k r) (e : r = .ok (s, x)) : s.Wf k :=
  by subst e; exact h
theorem getD_wf {o : Option State} (ho : OptWf k o) (h : s.Wf k) : (o.getD s).Wf k := by
  cases o with
  | none => exact h
  | some t => exact ho
theorem map_wf {α : Type} {o : Option α} {f : α → State} (hf : ∀ a, (f a).Wf k) : OptWf k (o.map f) := by
  cases o with
  | none => trivial
  | some a => exact hf a
/-! ### Lookups -/

theorem tabFind_isMem {α : Type} {t : Tab α} {n : Nat} {v : α} (h : tabFind t n = some v) : (n, v) ∈ t := by
  induction t with
  | nil => cases h
  | cons e t ih =>
    obtain ⟨j, u⟩ := e
    simp only [tabFind] at h
    split at h
    · cases h
    · split at h
      · cases h; subst_vars; exact List.mem_cons_self
      · exact List.mem_cons_of_mem _ (ih h)

/-- Every group of a state of form `k` has it. -/
theorem State.Wf.mem (h : s.Wf k) {e : Nat × Group} (he : e ∈ s.groups) : e.2.Wf k := by
  cases k with
  | memory => trivial
  | registers => exact h e he
  | keys => trivial
theorem State.Wf.find (h : s.Wf k) {n : Nat} (hg : tabFind s.groups n = some g) : g.Wf k := h.mem (tabFind_isMem hg)

theorem State.Wf.findWith {β : Type} (h : s.Wf k) {n : Nat} {f : Group → Option β} {y : β}
    (hy : (tabFind s.groups n).bind (fun g => (f g).map (fun y => (g, y))) = some (g, y)) : g.Wf k := by
  obtain ⟨x, hx, hy⟩ := Option.bind_eq_some_iff.mp hy
  obtain ⟨z, -, hz⟩ := Option.map_eq_some_iff.mp hy
  cases hz
  exact h.find hx
theorem foldl_put_groupWf {l : List (Nat × Group)} {gs : Tab Group} (hl : ∀ e ∈ l, e.2.Wf k) (hg : ∀ e ∈ gs, e.2.Wf k) :
    ∀ e ∈ l.foldl (fun gs e => tabPut gs e.1 e.2) gs, e.2.Wf k := by
  induction l generalizing gs with
  | nil => exact hg
  | cons x l ih =>
    refine ih (fun e he => hl e (List.mem_cons_of_mem _ he)) (fun e he => ?_)
    rcases tabPut_mem he with rfl | he
    · exact hl _ List.mem_cons_self
    · exact hg e he
theorem foldl_put_sorted {l : List (Nat × Group)} {gs : Tab Group} (hg : tabSorted gs = true) :
    tabSorted (l.foldl (fun gs e => tabPut gs e.1 e.2) gs) = true := by
  induction l generalizing gs with
  | nil => exact hg
  | cons x l ih => exact ih (tabSorted_put _ _ hg)
theorem foldl_optWf {α : Type} {f : State → α → Option State} {l : List α} (hf : ∀ t a, t.Wf k → OptWf k (f t a)) {o : Option State}
    (ho : OptWf k o) :
    OptWf k (l.foldl (fun r a => r.bind (fun t => f t a)) o) := by
  induction l generalizing o with
  | nil => exact ho
  | cons a l ih =>
    refine ih ?_
    cases o with
    | none => trivial
    | some t => exact hf t a ho

theorem foldlM_exceptWf {ε α : Type} {f : State → α → Except ε State} {l : List α} (hf : ∀ t a, t.Wf k → ExceptWf k (f t a)) (h : s.Wf k) :
    ExceptWf k (l.foldlM f s) := by
  induction l generalizing s with
  | nil => exact h
  | cons a l ih =>
    rw [List.foldlM_cons]
    cases e : f s a with
    | error _ => trivial
    | ok t => exact ih ((hf s a h).of_eq e)

/-- A state with the same memory, groups, cores, teams and queues has the same forms. -/
theorem State.Wf.congr (h : s.Wf k) (hm : t.mem = s.mem) (hg : t.groups = s.groups) (hc : t.cores = s.cores) (ht : t.teams = s.teams)
    (hq : t.queues = s.queues) : t.Wf k := by
  unfold State.Wf at *; rw [hm, hg, hc, ht, hq]; exact h

/-! ### Writing one of the five parts -/

theorem State.Wf.withGroups (h : s.Wf k) {gs : Tab Group} (hg : ∀ e ∈ gs, e.2.Wf k) (hs : tabSorted s.groups = true → tabSorted gs = true) :
    State.Wf k { s with groups := gs } := by
  cases k with
  | memory => exact h
  | registers => exact hg
  | keys => obtain ⟨h1, h2, h3, h4⟩ := h; exact ⟨hs h1, h2, h3, h4⟩
theorem State.Wf.withCores (h : s.Wf k) {cs : Tab Core} (hs : tabSorted s.cores = true → tabSorted cs = true) :
    State.Wf k { s with cores := cs } := by
  cases k with
  | memory => exact h
  | registers => exact h
  | keys => obtain ⟨h1, h2, h3, h4⟩ := h; exact ⟨h1, hs h2, h3, h4⟩
theorem State.Wf.withTeams (h : s.Wf k) {ts : Tab Team} (hs : tabSorted s.teams = true → tabSorted ts = true) :
    State.Wf k { s with teams := ts } := by
  cases k with
  | memory => exact h
  | registers => exact h
  | keys => obtain ⟨h1, h2, h3, h4⟩ := h; exact ⟨h1, h2, hs h3, h4⟩
theorem State.Wf.withQueues (h : s.Wf k) {qs : Tab Queue} (hs : tabSorted s.queues = true → tabSorted qs = true) :
    State.Wf k { s with queues := qs } := by
  cases k with
  | memory => exact h
  | registers => exact h
  | keys => obtain ⟨h1, h2, h3, h4⟩ := h; exact ⟨h1, h2, h3, hs h4⟩
theorem State.Wf.withMem (h : s.Wf k) {m : List Host.Cell} (hm : memWf s.mem = true → memWf m = true) : State.Wf k { s with mem := m } := by
  cases k with
  | memory => exact hm h
  | registers => exact h
  | keys => exact h

/-- Keys that a map leaves stay sorted. -/
theorem tabSorted_map {α β : Type} {f : Nat × α → Nat × β} (hf : ∀ e, (f e).1 = e.1) {t : Tab α} (h : tabSorted t = true) :
    tabSorted (t.map f) = true := by
  induction t with
  | nil => rfl
  | cons e t ih =>
    obtain ⟨ha, hs⟩ := (tabSorted_cons (j := e.1) (u := e.2)).mp h
    refine (tabSorted_cons (j := (f e).1) (u := (f e).2)).mpr ⟨fun x hx => ?_, ih hs⟩
    obtain ⟨y, hy, rfl⟩ := List.mem_map.mp hx
    rw [hf, hf]; exact ha y hy

/-- A change of every group that keeps keys and forms. -/
theorem State.Wf.mapGroups (h : s.Wf k) {f : Nat × Group → Nat × Group} (hk : ∀ e, (f e).1 = e.1) (hg : ∀ e, e.2.Wf k → (f e).2.Wf k) :
    State.Wf k { s with groups := s.groups.map f } :=
  h.withGroups (fun e he => by obtain ⟨y, hy, rfl⟩ := List.mem_map.mp he; exact hg y (h.mem hy)) (tabSorted_map hk)
theorem State.Wf.filterGroups (h : s.Wf k) (f : Nat × Group → Bool) : State.Wf k { s with groups := s.groups.filter f } :=
  h.withGroups (fun _ he => h.mem (List.mem_of_mem_filter he)) (tabSorted_filter f)
theorem State.Wf.delGroup (h : s.Wf k) (n : Nat) : State.Wf k { s with groups := tabDel s.groups n } :=
  h.withGroups (fun _ he => h.mem (tabDel_subset he)) (tabSorted_del n)
theorem State.Wf.mapCores (h : s.Wf k) {f : Nat × Core → Nat × Core} (hk : ∀ e, (f e).1 = e.1) :
    State.Wf k { s with cores := s.cores.map f } :=
  h.withCores (tabSorted_map hk)

theorem setCore_wf {c : Nat} {x : Core} (h : s.Wf k) : (setCore s c x).Wf k := h.withCores (tabSorted_put _ _)
theorem modCore_wf {c : Nat} {f : Core → Core} (h : s.Wf k) : (modCore s c f).Wf k := setCore_wf h
theorem modTeam_wf {n : Nat} {f : Team → Team} (h : s.Wf k) : (modTeam s n f).Wf k := h.withTeams (tabSorted_mod _ _)
theorem modQueue_wf {q : Nat} {f : Queue → Queue} (h : s.Wf k) : (modQueue s q f).Wf k := h.withQueues (tabSorted_mod _ _)
theorem setGroup_wf {n : Nat} (h : s.Wf k) (hg : g.Wf k) : (setGroup s n g).Wf k :=
  h.withGroups (fun _ he => (tabPut_mem he).elim (fun hn => hn ▸ hg) h.mem) (tabSorted_put _ _)
theorem modGroup_wf {n : Nat} {f : Group → Group} (hf : ∀ x, x.Wf k → (f x).Wf k) (h : s.Wf k) : (modGroup s n f).Wf k := by
  unfold modGroup tabMod
  split
  · next x hg => exact setGroup_wf h (hf x (h.find hg))
  · exact h

/-! ### Writing a register -/

theorem Group.Wf.withSreg (hg : g.Wf k) {x : Tab Word} (hx : tabWf 0 g.sreg = true → tabWf 0 x = true) :
    Group.Wf k { g with sreg := x } := by
  cases k with
  | memory => trivial
  | registers => obtain ⟨h1, h2, h3⟩ := hg; exact ⟨hx h1, h2, h3⟩
  | keys => trivial
theorem Group.Wf.withVreg (hg : g.Wf k) {x : Tab Word} (hx : tabWf 0 g.vreg = true → tabWf 0 x = true) :
    Group.Wf k { g with vreg := x } := by
  cases k with
  | memory => trivial
  | registers => obtain ⟨h1, h2, h3⟩ := hg; exact ⟨h1, hx h2, h3⟩
  | keys => trivial
theorem Group.Wf.withPred (hg : g.Wf k) {x : Tab Mask} (hx : tabWf 0 g.pred = true → tabWf 0 x = true) :
    Group.Wf k { g with pred := x } := by
  cases k with
  | memory => trivial
  | registers => obtain ⟨h1, h2, h3⟩ := hg; exact ⟨h1, h2, hx h3⟩
  | keys => trivial

/-- A group that lists no register has every form. -/
theorem Group.wf_of_empty (hs : g.sreg = []) (hv : g.vreg = []) (hp : g.pred = []) : g.Wf k := by
  cases k with
  | memory => trivial
  | registers => unfold Group.Wf Group.RegsOk; rw [hs, hv, hp]; exact ⟨rfl, rfl, rfl⟩
  | keys => trivial
theorem sWrite_wf {gp : Group × Path} {r : SReg} {v : Word} (hg : gp.1.Wf k) : (sWrite gp r v).1.Wf k := by
  unfold sWrite
  split
  · exact hg.withSreg (tabWf_set _ _)
  · exact hg
theorem vWrite_wf {key : Nat} {v : Word} {po : Bool} (hg : g.Wf k) : (vWrite g key v po).Wf k := hg.withVreg (tabWf_set _ _)
theorem pWrite_wf {n lane : Nat} {v : Bool} (hg : g.Wf k) : (pWrite g n lane v).Wf k := hg.withPred (tabWf_set _ _)

/-! ### Outcomes -/

theorem onPath_wf {f : Group → Path → Out} (hf : ∀ g p, g.Wf k → OutWf k (f g p)) (h : s.Wf k) : OutWf k (onPath s f) := by
  unfold onPath
  split
  · exact h
  · split
    · exact h
    · next hg _ _ _ => exact hf _ _ (h.find hg)

theorem homePut_wf {a : Nat} {v : Byte} (h : s.Wf k) : (homePut s a v).Wf k := by
  unfold homePut
  split
  · exact h
  · exact h.withMem (memWf_put _ _)
theorem homeWrite_wf {n a x : Nat} (h : s.Wf k) : (homeWrite n s a x).Wf k := by
  induction n generalizing s a x with
  | zero => exact h
  | succ n ih => exact ih (homePut_wf h)
theorem spadPut_wf {c off : Nat} {v : Byte} (h : s.Wf k) : (spadPut s c off v).Wf k := modCore_wf h
theorem spadBytes_wf {n c off x : Nat} (h : s.Wf k) : (spadBytes n s c off x).Wf k := by
  induction n generalizing s off x with
  | zero => exact h
  | succ n ih => exact ih (spadPut_wf h)

/-! ### The operations of Machine/Mem -/

theorem homeWordPut_wf {s : State} {wa : ℕ} {v : Word} (h : s.Wf k) : (homeWordPut s wa v).Wf k :=
  homePut_wf (homePut_wf (homePut_wf (homePut_wf h)))
theorem freshCodewords_wf {s : State} {n : ℕ} {f : ℕ → Option ℕ} (h : s.Wf k) : (freshCodewords s n f).Wf k := by
  unfold freshCodewords
  refine foldl_wf (fun _ _ ht => ?_) h
  split
  · exact ite_wf ht ht
  · exact ht
theorem writeBackLine_wf {s : State} {c line : ℕ} (h : s.Wf k) : (writeBackLine s c line).Wf k := by
  unfold writeBackLine
  extract_lets dirty s1
  have hs1 : s1.Wf k := foldl_wf (fun _ _ ht => ite_wf ht ht) h
  refine foldl_wf (fun _ _ ht1 => ?_) hs1
  extract_lets wa
  split
  · exact ite_wf (modCore_wf (homeWordPut_wf (ite_wf ht1 ht1))) ht1
  · exact ht1
theorem evictLine_wf {s : State} {c line : ℕ} (h : s.Wf k) : (evictLine s c line).Wf k := modCore_wf (writeBackLine_wf h)
theorem colRoom_wf {s : State} {c line : ℕ} (h : s.Wf k) : (colRoom s c line).Wf k := by
  unfold colRoom
  extract_lets k1 s1
  have hs1 : s1.Wf k := by
    unfold s1
    refine ite_wf h ?_
    split
    · exact evictLine_wf h
    · exact h
  exact modCore_wf hs1
theorem colTouch_wf {s : State} {c line : ℕ} (h : s.Wf k) : (colTouch s c line).Wf k := ite_wf (colRoom_wf h) (modCore_wf h)
theorem colTrim_wf {s : State} {c : ℕ} (h : s.Wf k) : (colTrim s c).Wf k := by
  unfold colTrim
  refine foldl_wf (fun _ _ ht => ?_) h
  extract_lets k1
  refine ite_wf ?_ ht
  split
  · exact evictLine_wf ht
  · exact ht
theorem l1Room_wf {s : State} {c line : ℕ} (h : s.Wf k) : (l1Room s c line).Wf k := modCore_wf h
theorem noteRead_wf {s : State} {c pa : ℕ} (h : s.Wf k) : (noteRead s c pa).Wf k := ite_wf (modCore_wf h) h
theorem colFill_wf {s : State} {c line : ℕ} (h : s.Wf k) : (colFill s c line).Wf k := by
  unfold colFill
  refine ite_wf (colRoom_wf h) ?_
  refine foldl_wf (fun _ _ ht => ?_) (colRoom_wf (noteRead_wf h))
  extract_lets wa
  split
  · exact ht
  · exact modCore_wf ht
theorem l1Update_wf {s : State} {c wa : ℕ} {v : Word} {poison : Bool} (h : s.Wf k) : (l1Update s c wa v poison).Wf k :=
  ite_wf (modCore_wf h) h
theorem colPut_wf {s : State} {c wa : ℕ} {v : Word} {poison : Bool} (h : s.Wf k) : (colPut s c wa v poison).Wf k :=
  l1Update_wf (ite_wf (homeWordPut_wf (colRoom_wf h)) (modCore_wf (colRoom_wf h)))
theorem homeStoreWord_wf {s : State} {c wa off n x : ℕ} (h : s.Wf k) : (homeStoreWord s c wa off n x).Wf k := modCore_wf (homeWordPut_wf h)
theorem cleanCore_wf {s : State} {c : ℕ} (h : s.Wf k) : (cleanCore s c).Wf k := foldl_wf (fun _ _ ht => writeBackLine_wf ht) h
theorem invalCore_wf {s : State} {c : ℕ} (h : s.Wf k) : (invalCore s c).Wf k := modCore_wf h
theorem spadFresh_wf {s : State} {c off n : ℕ} (h : s.Wf k) : (spadFresh s c off n).Wf k := modCore_wf h
theorem spadWrite_wf {n : ℕ} {s : State} {c off x : ℕ} (h : s.Wf k) : (spadWrite n s c off x).Wf k := spadBytes_wf (spadFresh_wf h)

/-! ### The operations of Machine/Ops -/

theorem putPath_wf {g : Group} {p : Path} (hg : g.Wf k) : (putPath g p).Wf k := hg
theorem keep_wf {s : State} {g : Group} {p : Path} (h : s.Wf k) (hg : g.Wf k) : (keep s g p).Wf k := setGroup_wf h hg
theorem sWritePair_wf {gp : Group × Path} {r : SReg} {v : Dword} (hg : gp.1.Wf k) : (sWritePair gp r v).1.Wf k := sWrite_wf (sWrite_wf hg)
theorem sWriteTriple_wf {gp : Group × Path} {r : SReg} {m : Mask} (hg : gp.1.Wf k) : (sWriteTriple gp r m).1.Wf k :=
  sWrite_wf (sWrite_wf (sWrite_wf hg))
theorem landOne_wf {g : Group} {e : Pend} (hg : g.Wf k) : (landOne g e).Wf k := by
  unfold landOne
  split
  · exact vWrite_wf hg
  · exact pWrite_wf hg
  · split
    · exact sWrite_wf hg
    · split
      · exact hg.withSreg (tabWf_set _ _)
      · exact hg
theorem vReturn_wf {g : Group} {key : ℕ} {v : Word} {poison : Bool} (hg : g.Wf k) : (vReturn g key v poison).Wf k := vWrite_wf hg
theorem landAll_wf {g : Group} {t : ℕ} (hg : g.Wf k) : (landAll g t).Wf k := foldl_groupWf (fun _ _ hx => landOne_wf hx) hg
theorem addReq_wf {g : Group} {r : Req} (hg : g.Wf k) : (addReq g r).Wf k := by
  unfold addReq
  extract_lets g1 g2
  have hg2 : g2.Wf k := by
    unfold g2
    split <;> exact hg
  exact ite_groupWf hg2 hg2
theorem setFlag_wf {g : Group} {f id : ℕ} (hg : g.Wf k) : (setFlag g f id).Wf k := ite_groupWf hg hg
theorem finishReq_wf {g : Group} {id : ℕ} (hg : g.Wf k) : (finishReq g id).Wf k := by
  unfold finishReq
  split
  · exact hg
  · exact ite_groupWf (setFlag_wf hg) hg
theorem modReq_wf {g : Group} {id : ℕ} {f : Req → Req} (hg : g.Wf k) : (modReq g id f).Wf k := hg
theorem finishAt_wf {s : State} {g id : ℕ} (h : s.Wf k) : (finishAt s g id).Wf k := modGroup_wf (fun _ hx => finishReq_wf hx) h
theorem engineWalk_wf {s : State} {st pasid va : ℕ} (h : s.Wf k) : (engineWalk s st pasid va).Wf k := by
  unfold engineWalk
  refine ite_wf h ?_
  refine ite_wf h ?_
  split <;> exact h
theorem needWalk_wf {s : State} {gid : ℕ} {g : Group} {va : ℕ} (h : s.Wf k) (hg : g.Wf k) : (needWalk s gid g va).Wf k := setGroup_wf h hg
theorem haltTeam_wf {s : State} {team : ℕ} (h : s.Wf k) : (haltTeam s team).Wf k :=
  (modTeam_wf h).mapGroups (fun _ => by split <;> rfl) (fun _ he => by split <;> exact he)
theorem fatal_wf {s : State} {gid : ℕ} {g : Group} {t : TrapInfo} (h : s.Wf k) : (fatal s gid g t).Wf k := by
  unfold fatal
  extract_lets r s1
  split
  · exact haltTeam_wf h
  · refine ite_wf ?_ (modTeam_wf (haltTeam_wf h))
    split <;> exact haltTeam_wf h
theorem suspendOn_wf {s : State} {gid : ℕ} {g : Group} {t : TrapInfo} (h : s.Wf k) (hg : g.Wf k) : (suspendOn s gid g t).Wf k :=
  setGroup_wf h hg
theorem writeBackLane_wf {parent ctx : Group} {i : Garnet} (hg : parent.Wf k) : (writeBackLane parent ctx i).Wf k := by
  unfold writeBackLane
  extract_lets g1 g2
  have hg1 : g1.Wf k := foldl_groupWf (fun _ _ hx => ite_groupWf (vWrite_wf hx) hx) hg
  have hg2 : g2.Wf k := foldl_groupWf (fun _ _ hx => pWrite_wf hx) hg1
  clear_value g2
  exact hg2
theorem setSlot_wf {g : Group} {t : ℕ} {x : RjSlot} (hg : g.Wf k) : (setSlot g t x).Wf k := hg
theorem placeRecalled_wf {g : Group} {e : RecallEnt} (hg : g.Wf k) : (placeRecalled g e).Wf k := by
  unfold placeRecalled
  extract_lets g1
  split
  · exact hg
  · split
    · extract_lets g2
      split <;> exact hg
    · split <;> exact hg
theorem recallCtx_wf {s : State} {ctx : ℕ} (h : s.Wf k) : (recallCtx s ctx).Wf k := by
  unfold recallCtx
  split
  · exact h
  · split
    · extract_lets s1
      exact modGroup_wf (fun _ hx => placeRecalled_wf (setSlot_wf (writeBackLane_wf hx))) (h.delGroup _)
    · exact h
theorem drainRecalls_wf {g : Group} (hg : g.Wf k) : (drainRecalls g).Wf k := by
  unfold drainRecalls
  split
  · exact hg
  · split
    · exact placeRecalled_wf hg
    · exact hg
theorem takeTrap_wf {s : State} {gid : ℕ} {g : Group} {p : Path} {t : TrapInfo} (h : s.Wf k) (hg : g.Wf k) :
    (takeTrap s gid g p t).Wf k := by
  unfold takeTrap
  refine ite_wf (ite_wf (recallCtx_wf (setGroup_wf h hg)) (setGroup_wf h hg)) ?_
  refine ite_wf (fatal_wf (setGroup_wf h hg)) ?_
  refine ite_wf (suspendOn_wf h hg) ?_
  split
  · exact fatal_wf (setGroup_wf h hg)
  · split
    · exact setGroup_wf h hg
    · exact fatal_wf (setGroup_wf h hg)
theorem trapHere_wf {s : State} {g : Group} {p : Path} {t : TrapInfo} (h : s.Wf k) (hg : g.Wf k) : OutWf k (trapHere s g p t) :=
  takeTrap_wf h hg
theorem takeDue_wf {s : State} {gid : ℕ} (h : s.Wf k) : (takeDue s gid).Wf k := by
  unfold takeDue
  split
  · exact h
  · next g hg =>
      have hg := h.find hg
      split
      · exact h
      · refine ite_wf h ?_
        extract_lets g1
        split
        · exact takeTrap_wf h hg
        · exact setGroup_wf h hg
theorem leaveHandler_wf {s : State} {gid : ℕ} {g : Group} {p : Path} {h1 : HandlerCtx} (h : s.Wf k) (hg : g.Wf k) :
    (leaveHandler s gid g p h1).Wf k :=
  setGroup_wf h (ite_groupWf hg hg)
theorem queueTrap_wf {s : State} {gid : ℕ} {g : Group} {p : Path} {t : TrapInfo} (h : s.Wf k) (hg : g.Wf k) :
    (queueTrap s gid g p t).Wf k :=
  ite_wf (takeTrap_wf h hg) (setGroup_wf h hg)
theorem dueTrap_wf {s : State} {gid : ℕ} {g : Group} {p : Path} {t : TrapInfo} (h : s.Wf k) (hg : g.Wf k) : (dueTrap s gid g p t).Wf k :=
  takeDue_wf (queueTrap_wf h hg)

/-! ### The operations of Machine/Issue -/

theorem sfuDue_wf {g : Group} {t : ℕ} (hg : g.Wf k) : (sfuDue g t).Wf k := by
  unfold sfuDue
  refine foldl_groupWf (fun _ _ hx => ?_) hg
  split
  · exact ite_groupWf (finishReq_wf hx) hx
  · exact hx

/-! ### The operations of Machine/Barrier -/

theorem writeBar_wf {s : State} {c off : ℕ} {b : BarObj} (h : s.Wf k) : (writeBar s c off b).Wf k :=
  spadWrite_wf (spadWrite_wf (spadWrite_wf (spadWrite_wf h)))
theorem mapWaits_wf {s : State} {c off : ℕ} {f : Req → ℕ → Bool → Bool → ℕ × Bool × Bool} (h : s.Wf k) : (mapWaits s c off f).Wf k :=
  h.mapGroups (fun _ => rfl) (fun _ he => he)
theorem phaseComplete_wf {s : State} {c off : ℕ} {b : BarObj} (h : s.Wf k) : (phaseComplete s c off b).Wf k :=
  (mapWaits_wf (writeBar_wf h)).mapGroups (fun _ => rfl) (fun _ he => he)
theorem barSettle_wf {s : State} {c off : ℕ} {b : BarObj} {t : ℕ} (h : s.Wf k) : (barSettle s c off b t).Wf k := modCore_wf (writeBar_wf h)
theorem barClose_wf {s : State} {c off : ℕ} (h : s.Wf k) : (barClose s c off).Wf k :=
  ite_wf (phaseComplete_wf (modCore_wf h)) (modCore_wf h)
theorem barMeet_wf {s : State} {c off : ℕ} (h : s.Wf k) : (barMeet s c off).Wf k := by
  unfold barMeet
  split
  · exact ite_wf (barClose_wf h) h
  · exact h
theorem closeBars_wf {s : State} {t : ℕ} (h : s.Wf k) : (closeBars s t).Wf k :=
  foldl_wf (fun _ _ ht => foldl_wf (fun _ _ ht1 => barClose_wf ht1) ht) h
theorem markBroken_wf {s : State} {c off : ℕ} (h : s.Wf k) : (markBroken s c off).Wf k := mapWaits_wf (spadWrite_wf h)
theorem tileArrive_wf {s : State} {c off : ℕ} (h : s.Wf k) : (tileArrive s c off).Wf k :=
  ite_wf (ite_wf (markBroken_wf h) (barSettle_wf h)) h
theorem spadStore_wf {s : State} {c n off x : ℕ} (h : s.Wf k) : (spadStore s c n off x).Wf k :=
  foldl_wf (fun _ _ ht => markBroken_wf ht) (spadWrite_wf h)
theorem barInvalidate_wf {s : State} {c off : ℕ} (h : s.Wf k) : (barInvalidate s c off).Wf k := modCore_wf (mapWaits_wf (spadWrite_wf h))
theorem barsOfTeam_wf {s : State} {team : ℕ} (h : s.Wf k) : (barsOfTeam s team).Wf k :=
  foldl_wf (fun _ _ ht => foldl_wf (fun _ _ ht1 => barInvalidate_wf ht1) ht) h

/-! ### The operations of Machine/View -/

theorem locPut_wf {s : State} {l : Loc} {v : Byte} {poison : Bool} (h : s.Wf k) : (locPut s l v poison).Wf k := by
  unfold locPut
  split
  · exact ite_wf (homePut_wf h) (homePut_wf h)
  · exact ite_wf (modCore_wf (spadStore_wf h)) (spadStore_wf h)
theorem freshUnits_wf {s : State} {l : Loc} {n : ℕ} (h : s.Wf k) : (freshUnits s l n).Wf k := by
  unfold freshUnits
  split
  · exact ite_wf h h
  · exact ite_wf (spadFresh_wf h) h
theorem putBytes_wf {s : State} {ws : List (Loc × Byte × Bool)} (h : s.Wf k) : (putBytes s ws).Wf k := by
  unfold putBytes
  extract_lets s1
  have hs1 : s1.Wf k := by
    unfold s1
    split
    · exact freshUnits_wf h
    · exact h
  exact foldl_wf (fun _ _ ht => locPut_wf ht) hs1
theorem elemPut_wf {s : State} {v : View} {x : List ℕ} {ls : List Loc} {bits : ℕ} {poison : Bool} (h : s.Wf k) :
    (elemPut s v x ls bits poison).Wf k := by
  unfold elemPut
  refine ite_wf ?_ (putBytes_wf h)
  split
  · exact locPut_wf h
  · exact h

/-! ### The operations of Machine/Engine -/

theorem modSub_wf {s : State} {st id : ℕ} {f : Sub → Sub} (h : s.Wf k) : (modSub s st id f).Wf k := h
theorem cleanLines_wf {s : State} {cores lines : List ℕ} (h : s.Wf k) : (cleanLines s cores lines).Wf k :=
  foldl_wf (fun _ _ ht => foldl_wf (fun _ _ ht1 => writeBackLine_wf ht1) ht) h
theorem dropClean_wf {s : State} {cores lines : List ℕ} (h : s.Wf k) : (dropClean s cores lines).Wf k :=
  foldl_wf (fun _ _ ht => modCore_wf ht) h
theorem engineSee_wf {s : State} {st pasid : ℕ} {v : View} {x : List ℕ} (h : s.Wf k) : (engineSee s st pasid v x).Wf k :=
  ite_wf (engineWalk_wf h) h
theorem engineReads_wf {s : State} {st n : ℕ} {ls : List Loc} (h : s.Wf k) : (engineReads s st n ls).Wf k := by
  unfold engineReads
  split
  · exact ite_wf (noteRead_wf h) h
  · exact h
theorem engineIn_wf {s : State} {st team n : ℕ} {ls : List Loc} (h : s.Wf k) : (engineIn s st team n ls).Wf k := by
  unfold engineIn
  extract_lets s1
  have hs1 : s1.Wf k := by
    unfold s1
    refine foldl_wf (fun _ _ ht => ?_) h
    split
    · refine foldl_wf (fun _ _ ht1 => ?_) ht
      split
      · exact ite_wf (writeBackLine_wf ht1) ht1
      · exact ht1
    · exact ht
  exact engineReads_wf hs1
theorem engineOut_wf {s : State} {team : ℕ} {ls : List Loc} (h : s.Wf k) : (engineOut s team ls).Wf k := by
  unfold engineOut
  refine foldl_wf (fun _ _ ht => ?_) h
  split
  · exact foldl_wf (fun _ _ ht1 => modCore_wf ht1) ht
  · exact ht
theorem moveAll_wf {α : Type} {runs : List (List α)} {f : State → α → Except (ℕ × ℕ) State} {s : State}
    (hf : ∀ t a, t.Wf k → ExceptWf k (f t a)) (h : s.Wf k) : (moveAll runs f s).s.Wf k := by
  refine foldl_keeps (P := fun m : Moved => m.s.Wf k) _ (fun m r hm => ?_) h
  split
  · exact hm
  · split
    · next ht => exact (foldlM_exceptWf hf hm).of_eq ht
    · exact hm
theorem putElem_wf {s : State} {v : View} {x : List ℕ} {n : ℕ} {ls : List Loc} {bits : ℕ} {poison : Bool} (h : s.Wf k) :
    (putElem s v x n ls bits poison).Wf k := by
  unfold putElem
  extract_lets s1
  have hs1 : s1.Wf k := by
    unfold s1
    split
    · exact freshUnits_wf h
    · exact h
  exact engineOut_wf (elemPut_wf hs1)
theorem moveElem_wf {st pasid : ℕ} {κ : Kernel} {ok : ℕ → Bool} {sl : Slice} {s : State} {xn : List ℕ × ℕ} (h : s.Wf k) :
    ExceptWf k (moveElem st pasid κ ok sl s xn) := by
  unfold moveElem
  extract_lets x fill
  refine ite_exceptWf h ?_
  refine ite_exceptWf trivial ?_
  split
  · trivial
  · refine ite_exceptWf (putElem_wf (engineSee_wf h)) ?_
    split
    · trivial
    · exact putElem_wf (engineIn_wf (engineSee_wf (engineSee_wf h)))
theorem moveSlice_wf {s : State} {st pasid : ℕ} {κ : Kernel} {ok : ℕ → Bool} {sl : Slice} (h : s.Wf k) :
    (moveSlice s st pasid κ ok sl).s.Wf k :=
  moveAll_wf (fun _ _ ht => moveElem_wf ht) h
theorem moveCell_wf {st pasid : ℕ} {κ : Kernel} {dst : View} {rows rowBytes : ℕ} {b : GBlock} {s : State} {xn : List ℕ × ℕ} (h : s.Wf k) :
    ExceptWf k (moveCell st pasid κ dst rows rowBytes b s xn) := by
  unfold moveCell
  extract_lets x r
  split
  · refine ite_exceptWf ?_ h
    split
    · trivial
    · exact putElem_wf (engineSee_wf h)
  · extract_lets _
    split
    · trivial
    · split
      · trivial
      · exact putElem_wf (engineIn_wf (engineSee_wf h))
theorem moveBlock_wf {s : State} {st pasid : ℕ} {κ : Kernel} {dst : View} {rows rowBytes : ℕ} {b : GBlock} (h : s.Wf k) :
    (moveBlock s st pasid κ dst rows rowBytes b).s.Wf k :=
  moveAll_wf (fun _ _ ht => moveCell_wf ht) h
theorem moveRun_wf {s : State} {st pasid team : ℕ} {ok : ℕ → Bool} {dst n : ℕ} {rd : State → ℕ → Except (ℕ × ℕ) (State × Byte × Bool)}
    (hr : ∀ t i, t.Wf k → ExceptFstWf k (rd t i)) (h : s.Wf k) : (moveRun s st pasid team ok dst n rd).s.Wf k := by
  refine moveAll_wf (fun t e ht => ?_) h
  extract_lets raw sp
  refine ite_exceptWf trivial ?_
  split
  · trivial
  · next hx =>
    have hx := (hr _ _ ht).of_eq hx
    split
    · trivial
    · exact engineOut_wf (locPut_wf (freshUnits_wf (ite_wf (engineWalk_wf hx) hx)))
theorem runSource_wf {st pasid team : ℕ} {ok : ℕ → Bool} {src : ℕ} {s : State} {i : ℕ} (h : s.Wf k) :
    ExceptFstWf k (runSource st pasid team ok src s i) := by
  unfold runSource
  extract_lets raw sp
  split
  · trivial
  · split
    · trivial
    · exact engineIn_wf (ite_wf (engineWalk_wf h) h)
theorem arriveTarget_wf {s : State} {team : ℕ} {target : Option ℕ} (h : s.Wf k) : (arriveTarget s team target).Wf k := by
  unfold arriveTarget
  split
  · exact tileArrive_wf (modCore_wf h)
  · exact h
theorem dropTile_wf {s : State} {st : ℕ} {x : Sub} {target : Option ℕ} {dst : View} (h : s.Wf k) : (dropTile s st x target dst).Wf k := by
  unfold dropTile
  split
  · extract_lets k1
    split
    · exact dropClean_wf h
    · exact h
  · exact h
theorem addSub_wf {s : State} {st : ℕ} {x : Sub} (h : s.Wf k) : (addSub s st x).Wf k := h
theorem formOne_wf {s : State} {team : ℕ} (h : s.Wf k) : (formOne s team).Wf k := by
  unfold formOne
  split
  · exact h
  · exact ite_wf (addSub_wf (modTeam_wf h)) h
theorem formCopies_wf {s : State} {team : ℕ} (h : s.Wf k) : (formCopies s team).Wf k := formOne_wf (formOne_wf (formOne_wf (formOne_wf h)))
theorem writeStatus_wf {s : State} {st pasid : ℕ} {status : Option ℕ} {code : ℕ} (h : s.Wf k) :
    (writeStatus s st pasid status code).Wf k := by
  unfold writeStatus
  split
  · exact h
  · split
    · exact homeWrite_wf h
    · exact h
theorem wakeTask_wf {s : State} {st pasid num : ℕ} (h : s.Wf k) : (wakeTask s st pasid num).Wf k := by
  unfold wakeTask
  refine foldl_wf (fun _ _ ht => ?_) h
  refine foldl_wf (fun _ _ ht1 => ?_) ht
  split
  · exact ite_wf (finishAt_wf ht1) ht1
  · exact ht1
theorem subFlags_wf {s : State} {x : Sub} (h : s.Wf k) : (subFlags s x).Wf k := by
  unfold subFlags
  extract_lets s1
  have hs1 : s1.Wf k := foldl_wf (fun _ _ ht => finishAt_wf ht) h
  split
  · exact modGroup_wf (fun _ hx => setFlag_wf hx) hs1
  · exact hs1
theorem submitTask_wf {s : State} {st pasid num : ℕ} (h : s.Wf k) : (submitTask s st pasid num).Wf k := by
  unfold submitTask
  split
  · exact h
  · split
    · exact ite_wf h h
    · exact h
theorem taskSettle_wf {s : State} {st pasid num : ℕ} (h : s.Wf k) : (taskSettle s st pasid num).Wf k := by
  unfold taskSettle
  split
  · exact h
  · refine ite_wf (submitTask_wf h) ?_
    refine ite_wf ?_ h
    split
    · exact submitTask_wf h
    · extract_lets s1 s2
      have hs2 : s2.Wf k := by
        unfold s2
        split
        · exact subFlags_wf (writeStatus_wf h)
        · exact h
      exact wakeTask_wf hs2
theorem takeRoom_wf {s : State} {st : ℕ} (h : s.Wf k) : (takeRoom s st).Wf k := by
  unfold takeRoom
  extract_lets s1
  have hs1 : s1.Wf k := foldl_wf (fun _ _ ht => submitTask_wf ht) h
  exact foldl_wf (fun _ _ ht1 => ite_wf (formCopies_wf ht1) ht1) hs1
theorem countDown_wf {s : State} {st pasid num : ℕ} (h : s.Wf k) : (countDown s st pasid num).Wf k := by
  unfold countDown
  split
  · exact h
  · split
    · exact h
    · exact taskSettle_wf h
    · exact h
    · exact h
theorem taskDefine_wf {s : State} {st pasid num n : ℕ} {card : Sub} {pk : Option (ℕ × ℕ)} (h : s.Wf k) :
    (taskDefine s st pasid num n card pk).Wf k :=
  taskSettle_wf h

/-! ### The operations of Machine/Fetcher -/

theorem fetcherWrite_wf {s : State} {pasid n va x : ℕ} (h : s.Wf k) : OptWf k (fetcherWrite s pasid n va x) :=
  map_wf (fun _ => homeWrite_wf h)
theorem raiseIrq_wf {s : State} {q : Queue} (h : s.Wf k) : (raiseIrq s q).Wf k := ite_wf h h
theorem putStatus_wf {s : State} {q : Queue} {code idx : ℕ} (h : s.Wf k) : (putStatus s q code idx).Wf k := getD_wf (fetcherWrite_wf h) h
theorem queueFail_wf {s : State} {qn code idx : ℕ} (h : s.Wf k) : (queueFail s qn code idx).Wf k := by
  unfold queueFail
  split
  · exact h
  · exact ite_wf h (raiseIrq_wf (modQueue_wf (putStatus_wf h)))

/-! ### The operations of Machine/Seg -/

theorem modSeg_wf {s : State} {n : ℕ} {f : Segment → Segment} (h : s.Wf k) : (modSeg s n f).Wf k := h
theorem readRecord_wf {s : State} {name sq : ℕ} {src : List Loc} (h : s.Wf k) : (readRecord s name sq src).Wf k := ite_wf h h
theorem takeRecord_wf {s : State} {g : Group} {name sq : ℕ} {src : List Loc} (h : s.Wf k) : (takeRecord s g name sq src).Wf k :=
  readRecord_wf (cleanLines_wf h)
theorem sealNow_wf {s : State} {name : ℕ} (h : s.Wf k) : (sealNow s name).Wf k := h
theorem dropSegLines_wf {s : State} {cores : List ℕ} {g : Segment} (h : s.Wf k) : (dropSegLines s cores g).Wf k :=
  foldl_wf (fun _ _ ht => modCore_wf ht) h
theorem sendMail_wf {s : State} {src dst : ℕ} {m : BitVec 512} (h : s.Wf k) : (sendMail s src dst m).Wf k := ite_wf h h
theorem takeMail_wf {s : State} {src dst : ℕ} (h : s.Wf k) : (takeMail s src dst).Wf k := by
  unfold takeMail
  split <;> exact h
theorem flushReplies_wf {n : ℕ} {s : State} (h : s.Wf k) : (flushReplies s n).Wf k := by
  induction n generalizing s with
  | zero => exact h
  | succ n ih =>
    unfold flushReplies
    split
    · exact h
    · split
      · exact ite_wf (ih h) h
      · exact h
theorem owe_wf {s : State} {r : ReplyDue} (h : s.Wf k) : (owe s r).Wf k := flushReplies_wf h
theorem settleReplies_wf {s : State} (h : s.Wf k) : (settleReplies s).Wf k := flushReplies_wf h
theorem sealDue_wf {s : State} {name : ℕ} (h : s.Wf k) : (sealDue s name).Wf k := by
  unfold sealDue
  split
  · exact ite_wf (settleReplies_wf (sealNow_wf (sendMail_wf h))) h
  · exact h

/-! ### The operations of Machine/Tiers -/

theorem dropLeaves_wf {s : State} {hit : TlbEnt → Bool} (h : s.Wf k) : (dropLeaves s hit).Wf k := h.mapCores (fun _ => rfl)
theorem dropNonLeaves_wf {s : State} {hit : ℕ × ℕ × ℕ × ℕ → Bool} (h : s.Wf k) : (dropNonLeaves s hit).Wf k := h
theorem forgetWalked_wf {s : State} {pasid : ℕ} (h : s.Wf k) : (forgetWalked s pasid).Wf k := by
  refine h.mapGroups (fun e => ?_) (fun e he => ?_)
  · split
    · split <;> rfl
    · rfl
  · split
    · split <;> exact he
    · exact he
theorem dropRange_wf {s : State} {pasid base len : ℕ} (h : s.Wf k) : (dropRange s pasid base len).Wf k :=
  forgetWalked_wf (dropNonLeaves_wf (dropLeaves_wf h))
theorem dropBlock_wf {s : State} {blk : ℕ} (h : s.Wf k) : (dropBlock s blk).Wf k :=
  foldl_wf (fun _ _ ht => modCore_wf (foldl_wf (fun _ _ ht1 => writeBackLine_wf ht1) ht)) h
theorem copyBlock_wf {s : State} {src dst : ℕ} {rd : State → ℕ → Byte} (h : s.Wf k) : (copyBlock s src dst rd).Wf k :=
  foldl_wf (fun _ _ ht => ht.withMem (memWf_put _ _)) h
theorem renameLines_wf {s : State} {a b : ℕ} (h : s.Wf k) : (renameLines s a b).Wf k := h.mapCores (fun _ => rfl)
theorem renameFrames_wf {s : State} {a b : ℕ} (h : s.Wf k) : (renameFrames s a b).Wf k := h
theorem renameReqs_wf {s : State} {a b : ℕ} (h : s.Wf k) : (renameReqs s a b).Wf k :=
  h.mapGroups (fun _ => by split <;> rfl) (fun _ he => by split <;> exact he)
theorem noCopies_wf {s : State} {blk h1 : ℕ} (h : s.Wf k) : (noCopies s blk h1).Wf k := dropBlock_wf (dropBlock_wf (dropLeaves_wf h))
theorem notePromoted_wf {s : State} {blk hb : ℕ} (h : s.Wf k) : (notePromoted s blk hb).Wf k := by
  unfold notePromoted
  exact renameLines_wf (h.congr rfl rfl rfl rfl rfl)
theorem noteDemoted_wf {s : State} {blk h1 : ℕ} (h : s.Wf k) : (noteDemoted s blk h1).Wf k :=
  renameReqs_wf (renameFrames_wf (renameLines_wf h))
theorem demoteBlock_wf {s : State} {blk : ℕ} (h : s.Wf k) : (demoteBlock s blk).Wf k := by
  unfold demoteBlock
  split
  · exact h
  · exact noteDemoted_wf (ite_wf (copyBlock_wf (noCopies_wf h)) (noCopies_wf h))
theorem promoteTo_wf {s : State} {blk h1 : ℕ} (h : s.Wf k) : (promoteTo s blk h1).Wf k := notePromoted_wf (copyBlock_wf (noCopies_wf h))
theorem promoteHint_wf {s : State} {blk : ℕ} (h : s.Wf k) : (promoteHint s blk).Wf k := by
  unfold promoteHint
  refine ite_wf ?_ h
  split
  · exact promoteTo_wf h
  · exact h
theorem retireFrames_wf {s : State} {named : ℕ → Bool} (h : s.Wf k) : (retireFrames s named).Wf k := foldl_wf (fun _ _ ht => ht) h
theorem invalRange_wf {s : State} {pasid base len : ℕ} (h : s.Wf k) : (invalRange s pasid base len).Wf k :=
  dropRange_wf (foldl_wf (fun _ _ ht => demoteBlock_wf ht) (retireFrames_wf h))
theorem invalPasid_wf {s : State} {pasid : ℕ} (h : s.Wf k) : (invalPasid s pasid).Wf k := by
  unfold invalPasid
  extract_lets blocks s1 s2
  have hs1 : s1.Wf k := retireFrames_wf h
  have hs2 : s2.Wf k := foldl_wf (fun _ _ ht => demoteBlock_wf ht) hs1
  exact forgetWalked_wf (dropNonLeaves_wf (dropLeaves_wf hs2))

/-! ### The operations of Machine/Access -/

theorem colRead_wf {s : State} {c : ℕ} {was : List ℕ} (h : s.Wf k) : (colRead s c was).1.Wf k :=
  foldl_wf (fun _ _ ht => ite_wf (colFill_wf ht) (colTouch_wf ht)) h
theorem l1Fill_wf {s : State} {c line : ℕ} (h : s.Wf k) : (l1Fill s c line).Wf k :=
  foldl_wf (fun _ _ ht => ite_wf ht (ite_wf (modCore_wf ht) ht)) (l1Room_wf h)
theorem loadGlob_wf {s : State} {c : ℕ} {sp : Spot} {pa n : ℕ} (h : s.Wf k) : (loadGlob s c sp pa n).1.Wf k := by
  unfold loadGlob
  extract_lets was
  split
  · exact noteRead_wf h
  · exact colRead_wf h
  · split
    · exact foldl_wf (fun _ _ ht => l1Room_wf ht) h
    · exact foldl_wf (fun _ _ ht1 => l1Fill_wf ht1) (colRead_wf h)
theorem storeGlob_wf {s : State} {c : ℕ} {sp : Spot} {pa n x : ℕ} (h : s.Wf k) : (storeGlob s c sp pa n x).Wf k := by
  unfold storeGlob
  refine foldl_wf (fun _ _ ht => ?_) h
  extract_lets p
  split
  · exact homeStoreWord_wf ht
  · exact ite_wf (colPut_wf ht) (colPut_wf (colRead_wf ht))
theorem loadLoc_wf {s : State} {g : Group} {sp : Spot} {l : Loc} {n : ℕ} (h : s.Wf k) : (loadLoc s g sp l n).1.Wf k := by
  unfold loadLoc
  split
  · exact loadGlob_wf h
  · exact h
theorem storeLoc_wf {s : State} {g : Group} {sp : Spot} {l : Loc} {n x : ℕ} (h : s.Wf k) : (storeLoc s g sp l n x).Wf k := by
  unfold storeLoc
  split
  · exact storeGlob_wf h
  · exact spadStore_wf h
theorem writeUnit_wf {g : Group} {t : AtomTy} {dst : VReg} {a : LaneAcc} {x : ℕ} {poison : Bool} (hg : g.Wf k) :
    (writeUnit g t dst a x poison).Wf k :=
  foldl_groupWf (fun _ _ hx => vReturn_wf hx) hg
theorem noteWrite_wf {g : Group} {v n : ℕ} (hg : g.Wf k) : (noteWrite g v n).Wf k := by
  unfold noteWrite
  split <;> exact hg
theorem performUnit_wf {s : State} {gid id : ℕ} {κ : MemKind} {op : AtomOp} {t : AtomTy} {sp : Spot} {dst : VReg} {a : LaneAcc}
    (h : s.Wf k) : (performUnit s gid id κ op t sp dst a).Wf k := by
  unfold performUnit
  dsimp only
  split
  · exact h
  · split
    · exact modGroup_wf (fun _ hx => writeUnit_wf (noteWrite_wf hx)) (loadLoc_wf h)
    · exact storeLoc_wf h
    · exact modGroup_wf (fun _ hx1 => modReq_wf (ite_groupWf (writeUnit_wf (noteWrite_wf hx1)) hx1)) (storeLoc_wf (loadLoc_wf h))
theorem clearLine_wf {s : State} {accs : List LaneAcc} (h : s.Wf k) : (clearLine s accs).Wf k := by
  unfold clearLine
  split
  · exact foldl_wf (fun _ _ ht => ht) h
  · exact h
theorem cleanScope_wf {s : State} {g : Group} {sc : Scope} (h : s.Wf k) : (cleanScope s g sc).Wf k := by
  unfold cleanScope
  extract_lets k1
  refine ite_wf ?_ h
  split
  · exact foldl_wf (fun _ _ ht => cleanCore_wf ht) h
  · exact cleanCore_wf h
theorem invalScope_wf {s : State} {g : Group} {sc : Scope} (h : s.Wf k) : (invalScope s g sc).Wf k := by
  unfold invalScope
  extract_lets k1
  refine ite_wf ?_ h
  split
  · exact foldl_wf (fun _ _ ht => invalCore_wf ht) h
  · exact invalCore_wf h
theorem ownWords_wf {s : State} {g : Group} {l : Loc} {n : ℕ} (h : s.Wf k) : (ownWords s g l n).Wf k := by
  unfold ownWords
  split
  · extract_lets c
    refine foldl_wf (fun _ _ ht => ?_) h
    split
    · exact ite_wf (writeBackLine_wf ht) ht
    · exact ht
  · exact h
theorem beatFill_wf {s : State} {g : Group} {sp now : Spot} {a : LaneAcc} (h : s.Wf k) : (beatFill s g sp now a).Wf k := by
  unfold beatFill
  split
  · exact ite_wf (l1Fill_wf h) h
  · exact h
theorem performNth_wf {s : State} {gid id i : ℕ} (h : s.Wf k) : (performNth s gid id i).Wf k := by
  unfold performNth
  split
  · exact h
  · split
    · split
      · exact h
      · extract_lets _ _ _ _ _ s1 s2 s3 _ s4 s5
        have hs1 : s1.Wf k := ite_wf (cleanScope_wf h) h
        have hs2 : s2.Wf k := ite_wf (foldl_wf (fun _ _ ht => ownWords_wf ht) hs1) hs1
        have hs3 : s3.Wf k := ite_wf (clearLine_wf hs2) hs2
        have hs4 : s4.Wf k := foldl_wf (fun _ _ ht => performUnit_wf ht) hs3
        exact ite_wf h (ite_wf hs1 (modGroup_wf (fun _ hx => hx) (beatFill_wf hs4)))
    · exact h
theorem performRest_wf {n : ℕ} {s : State} {gid id : ℕ} (h : s.Wf k) : (performRest s gid id n).Wf k := by
  induction n generalizing s with
  | zero => exact h
  | succ n ih => exact ih (performNth_wf h)

/-! ### The operations of Machine/Gang -/

theorem setToken_wf {s : State} {c t : ℕ} {κ : Token} (h : s.Wf k) : (setToken s c t κ).Wf k := modCore_wf h
theorem tokenOpen_wf {s : State} {c t : ℕ} (h : s.Wf k) : (tokenOpen s c t).Wf k := by
  unfold tokenOpen
  split
  · exact setToken_wf h
  · exact setToken_wf h
  · exact h
theorem tokenDone_wf {s : State} {c t : ℕ} (h : s.Wf k) : (tokenDone s c t).Wf k := by
  unfold tokenDone
  split
  · exact setToken_wf h
  · refine ite_wf ?_ (setToken_wf h)
    extract_lets s1
    split
    · split
      · exact finishAt_wf (setToken_wf h)
      · exact setToken_wf h
    · exact setToken_wf h
  · exact h
theorem accWrite_wf {s : State} {c t e : ℕ} {v : Word} (h : s.Wf k) : (accWrite s c t e v).Wf k := modCore_wf h
theorem zeroTile_wf {s : State} {c t : ℕ} (h : s.Wf k) : (zeroTile s c t).Wf k := modCore_wf h
theorem fireEnt_wf {s : State} {c : ℕ} {e : GangEnt} (h : s.Wf k) : (fireEnt s c e).Wf k := modCore_wf h
theorem pump_wf {n : ℕ} {s : State} {c : ℕ} (h : s.Wf k) : (pump s c n).Wf k := by
  induction n generalizing s with
  | zero => exact h
  | succ n ih =>
    unfold pump
    dsimp only
    split
    · split
      · exact ih (modCore_wf h)
      · exact h
    · exact h
theorem fireAll_wf {s : State} {c : ℕ} (h : s.Wf k) : (fireAll s c).Wf k := pump_wf (foldl_wf (fun _ _ ht => ite_wf (fireEnt_wf ht) ht) h)
theorem unpin_wf {s : State} {id : ℕ} (h : s.Wf k) : (unpin s id).Wf k := h.mapCores (fun _ => rfl)

/-! ### The operations of Machine/Life -/

theorem setUnits_wf {s : State} {c u : ℕ} (h : s.Wf k) : (setUnits s c u).Wf k :=
  ite_wf h (colTrim_wf (modCore_wf (ite_wf (modCore_wf (cleanCore_wf h)) h)))
theorem releaseTasks_wf {s : State} {st pasid : ℕ} (h : s.Wf k) : (releaseTasks s st pasid).Wf k := ite_wf h (ite_wf h h)
theorem releaseLeft_wf {s : State} {st pasid : ℕ} (h : s.Wf k) : (releaseLeft s st pasid).Wf k := ite_wf (releaseTasks_wf h) h
theorem dropTeamLocks_wf {s : State} {team : ℕ} {tm : Team} (h : s.Wf k) : (dropTeamLocks s team tm).Wf k :=
  foldl_wf (fun _ _ ht => modCore_wf ht) h
theorem releaseTeam_wf {s : State} {team : ℕ} {keep : Bool} (h : s.Wf k) : (releaseTeam s team keep).Wf k := by
  unfold releaseTeam
  split
  · exact h
  · extract_lets mine kept ents free tiles s1 s2 s3
    have hs1 : s1.Wf k := foldl_wf (fun _ _ ht => zeroTile_wf ht) h
    have hs3 : s3.Wf k := foldl_wf (fun _ _ ht1 => unpin_wf ht1) (dropTeamLocks_wf (modCore_wf hs1))
    exact fireAll_wf (barsOfTeam_wf hs3)
theorem returnItems_wf {s : State} {core launch : ℕ} (h : s.Wf k) : (returnItems s core launch).Wf k := by
  unfold returnItems
  extract_lets left
  split
  · exact h
  · exact ite_wf h (modCore_wf h)
theorem leaveCluster_wf {s : State} {cl : ℕ} (h : s.Wf k) : (leaveCluster s cl).Wf k := by
  unfold leaveCluster
  split
  · exact h
  · split
    · exact h
    · split
      · exact h
      · extract_lets _ cores s1 s2
        have hs1 : s1.Wf k := ite_wf (foldl_wf (fun _ _ ht => modCore_wf ht) h) h
        have hs2 : s2.Wf k := (hs1.filterGroups _).withTeams (tabSorted_filter _)
        exact foldl_wf (fun _ _ ht => setUnits_wf ht) hs2
theorem leaveEnt_wf {s : State} {team : ℕ} (h : s.Wf k) : (leaveEnt s team).Wf k := by
  unfold leaveEnt
  split
  · exact ite_wf (leaveCluster_wf (releaseTeam_wf h)) h
  · exact h
theorem leaveSub_wf {s : State} {team : Option ℕ} (h : s.Wf k) : (leaveSub s team).Wf k := by
  unfold leaveSub
  split
  · exact ite_wf (leaveCluster_wf h) h
  · exact h
theorem teamExit_wf {s : State} {team : ℕ} (h : s.Wf k) : (teamExit s team).Wf k := by
  unfold teamExit
  split
  · exact h
  · exact ite_wf h (leaveCluster_wf (releaseTasks_wf (returnItems_wf (modTeam_wf (releaseTeam_wf h)))))
theorem tryRetire_wf {s : State} {gid : ℕ} (h : s.Wf k) : (tryRetire s gid).Wf k := by
  unfold tryRetire
  split
  · exact h
  · next g hg =>
      have hg := h.find hg
      refine ite_wf ?_ h
      extract_lets s1 s2 s3
      have hs1 : s1.Wf k := setGroup_wf h hg
      have hs2 : s2.Wf k := formCopies_wf hs1
      split
      · exact ite_wf (teamExit_wf (fireAll_wf hs2)) (fireAll_wf hs2)
      · exact fireAll_wf hs2
theorem complete_wf {s : State} {gid id : ℕ} (h : s.Wf k) : (complete s gid id).Wf k := tryRetire_wf (finishAt_wf h)
theorem settleAll_wf {s : State} (h : s.Wf k) : (settleAll s).Wf k := foldl_wf (fun _ _ ht => tryRetire_wf ht) h
theorem formReturned_wf {s : State} {g : Group} {t : ℕ} (hg : g.Wf k) : (formReturned s g t).Wf k := by
  unfold formReturned
  extract_lets x bit bound waiting
  refine ite_groupWf hg ?_
  split <;> exact hg
theorem formAll_wf {s : State} {g : Group} (hg : g.Wf k) : (formAll s g).Wf k := foldl_groupWf (fun _ _ hx => formReturned_wf hx) hg
theorem killLanes_wf {s : State} {gid : ℕ} {m : Mask} (h : s.Wf k) : (killLanes s gid m).Wf k := by
  unfold killLanes
  split
  · exact h
  · next g hg =>
      have hg := h.find hg
      refine ite_wf h ?_
      extract_lets n s1 s2 g1 g2 g3
      have hs1 : s1.Wf k := by
        unfold s1
        split <;> exact h
      have hg2 : g2.Wf k := ite_groupWf hg hg
      have hg3 : g3.Wf k := drainRecalls_wf (formAll_wf (drainRecalls_wf hg2))
      exact tryRetire_wf (takeDue_wf (setGroup_wf hs1 hg3))
theorem killContext_wf {s : State} {ctx : ℕ} (h : s.Wf k) : (killContext s ctx).Wf k := by
  unfold killContext
  split
  · exact h
  · split
    · exact h
    · exact killLanes_wf (h.delGroup _)
theorem drainAccesses_wf {s : State} {gid : ℕ} (h : s.Wf k) : (drainAccesses s gid).Wf k := by
  unfold drainAccesses
  split
  · exact h
  · refine foldl_wf (fun _ _ ht => ?_) h
    split
    · exact performRest_wf ht
    · exact storeLoc_wf ht
    · exact takeRecord_wf ht
    · exact ht
theorem cancelWork_wf {s : State} {st team : ℕ} {groups : List ℕ} (h : s.Wf k) : (cancelWork s st team groups).Wf k :=
  foldl_wf (fun _ _ ht => wakeTask_wf ht) h
theorem killTeam_wf {s : State} {team : ℕ} (h : s.Wf k) : (killTeam s team).Wf k := by
  unfold killTeam
  split
  · exact h
  · refine ite_wf h ?_
    extract_lets s1 s2 s3 st pasid s4 s5 launch away s6 s7 s8 s9
    have hs2 : s2.Wf k := foldl_wf (fun _ _ ht => drainAccesses_wf ht) (haltTeam_wf h)
    have hs4 : s4.Wf k := foldl_wf (fun _ _ ht => cancelWork_wf ht) (hs2.filterGroups _)
    have hs5 : s5.Wf k := hs4.mapGroups (fun _ => by split <;> rfl) (fun _ he => by split <;> exact he)
    have hs7 : s7.Wf k := modTeam_wf (ite_wf hs5 (releaseTeam_wf hs5))
    have hs8 : s8.Wf k := ite_wf hs7 (returnItems_wf hs7)
    exact leaveCluster_wf (releaseTasks_wf hs8)
theorem killLaunchNo_wf {s : State} {l : ℕ} {cause : Word} (h : s.Wf k) : (killLaunchNo s l cause).Wf k :=
  foldl_wf (fun _ _ ht => foldl_wf (fun _ _ ht1 => killTeam_wf ht1) ht) h

/-! ### The operations of Machine/ScalarControl -/

theorem jumpTo_wf {s : State} {f : Group → Path → Word} (h : s.Wf k) : OutWf k (jumpTo s f) := onPath_wf (fun _ _ hx => keep_wf h hx) h
theorem execBrNz_wf {a : SReg} {off : BitVec 14} {s : State} (h : s.Wf k) : OutWf k (execBrNz a off s) := jumpTo_wf h
theorem execBrZ_wf {a : SReg} {off : BitVec 14} {s : State} (h : s.Wf k) : OutWf k (execBrZ a off s) := jumpTo_wf h
theorem execJmp_wf {off : BitVec 26} {s : State} (h : s.Wf k) : OutWf k (execJmp off s) := jumpTo_wf h
theorem execCall_wf {off : BitVec 26} {s : State} (h : s.Wf k) : OutWf k (execCall off s) :=
  onPath_wf (fun _ _ hx => keep_wf h (sWrite_wf hx)) h
theorem execJmpi_wf {a : SReg} {s : State} (h : s.Wf k) : OutWf k (execJmpi a s) := jumpTo_wf h
theorem execRet_wf {s : State} (h : s.Wf k) : OutWf k (execRet s) := jumpTo_wf h
theorem execNop_wf {x : BitVec 26} {s : State} (h : s.Wf k) : OutWf k (execNop x s) := onPath_wf (fun _ _ hx => keep_wf h hx) h
theorem execLrun_wf {idx : BitVec 26} {s : State} (h : s.Wf k) : OutWf k (execLrun idx s) :=
  onPath_wf (fun _ _ hx => ite_outWf h (keep_wf h hx)) h
theorem execLjmp_wf {idx : BitVec 26} {s : State} (h : s.Wf k) : OutWf k (execLjmp idx s) :=
  onPath_wf (fun _ _ hx => ite_outWf (keep_wf h hx) h) h
theorem execWaitf_wf {m : BitVec 12} {s : State} (h : s.Wf k) : OutWf k (execWaitf m s) :=
  onPath_wf (fun _ _ hx => ite_outWf (keep_wf h hx) h) h
theorem execWaitk_wf {κ : KPath} {r : SReg} {s : State} (h : s.Wf k) : OutWf k (execWaitk κ r s) :=
  onPath_wf (fun _ _ hx => ite_outWf (keep_wf h hx) h) h
theorem loophLane_wf {t ib : ℕ} {useItems : Bool} {x : LoophPass} {l : ℕ} (hg : x.g.Wf k) : (loophLane t ib useItems x l).g.Wf k := by
  unfold loophLane
  split
  · exact hg
  · split
    · exact foldl_groupWf (fun _ _ hx => vWrite_wf hx) hg
    · exact hg
    · exact hg
theorem execLooph_wf {off : BitVec 14} {s : State} (h : s.Wf k) : OutWf k (execLooph off s) := by
  unfold execLooph
  refine onPath_wf (fun g p hx => ?_) h
  refine ite_outWf (trapHere_wf h hx) ?_
  split
  · extract_lets w x s1 s2 p1
    have hx : x.g.Wf k := foldl_keeps (P := fun y : LoophPass => y.g.Wf k) _ (fun _ _ hy => loophLane_wf hy) hx
    have hs1 : s1.Wf k := modCore_wf h
    exact ite_outWf (keep_wf hs1 hx) (ite_outWf (keep_wf hs1 hx) (keep_wf hs1 hx))
  · exact h

/-! ### The operations of Machine/Diverge -/

theorem splitOrStack_wf {s : State} {gid : ℕ} {g : Group} {p : Path} {tk nt : Mask} {t : BitVec 2} {off : BitVec 14} (h : s.Wf k)
    (hg : g.Wf k) : (splitOrStack s gid g p tk nt t off).Wf k := by
  unfold splitOrStack
  dsimp only
  split
  · exact setGroup_wf h hg
  · split
    · exact setGroup_wf h hg
    · exact takeTrap_wf h hg
theorem execBrd_wf {n : PReg} {neg : Bool} {t : BitVec 2} {live : BitVec 6} {off : BitVec 14} {s : State} (h : s.Wf k) :
    OutWf k (execBrd n neg t live off s) := by
  unfold execBrd
  refine onPath_wf (fun _ _ hx => ?_) h
  extract_lets a tk nt
  exact ite_outWf (keep_wf h hx) (ite_outWf (keep_wf h hx) (ite_outWf (keep_wf h hx) (splitOrStack_wf h hx)))
theorem makeContext_wf {gid : ℕ} {g : Group} {p : Path} {lane : ℕ} {pc : Word} {t : BitVec 2} {live : BitVec 384} {sig : Word}
    {place since : ℕ}
    (hg : g.Wf k) : (makeContext gid g p lane pc t live sig place since).Wf k := by
  refine (hg.withVreg (tabWf_filter _)).withPred (fun hp => tabWf_iff.mpr ⟨tabSorted_filter _ ?_, fun _ he => ?_⟩)
  · exact tabSorted_map (f := fun e => (e.1, e.2 &&& laneBit lane)) (fun _ => rfl) (tabWf_iff.mp hp).1
  · exact of_decide_eq_true (List.mem_filter.mp he).2
theorem execEjectionDecision_wf {gid pid : ℕ} {s : State} (h : s.Wf k) : OutWf k (execEjectionDecision gid pid s) := by
  unfold execEjectionDecision
  split
  · next g p hp =>
      have hg := h.findWith hp
      split
      · refine ite_outWf h ?_
        extract_lets s1 _ _ _ q x _ _ _ _ g1 s2
        split
        · refine ite_outWf ?_ (splitOrStack_wf h hg)
          have hs2 : s2.Wf k := setGroup_wf h hg
          refine hs2.withGroups (foldl_put_groupWf (fun e he => ?_) (fun _ he => hs2.mem he)) foldl_put_sorted
          obtain ⟨_, _, rfl⟩ := List.mem_mapIdx.mp he
          exact makeContext_wf hg
        · exact splitOrStack_wf h hg
      · exact h
  · exact h
theorem spawn_wf {g : Group} {lpc : Word} {tags : BitVec 4} {sig : Word} {l : List (ℕ × Mask)} (hg : g.Wf k) :
    (spawn g lpc tags sig l).1.Wf k := by
  induction l generalizing g with
  | nil => exact hg
  | cons e l ih =>
    unfold spawn
    split
    · exact ih hg
    · exact hg
theorem killMask_wf {s : State} {gid : ℕ} {g : Group} {m : Mask} (h : s.Wf k) : (killMask s gid g m).Wf k :=
  ite_wf h (ite_wf (killContext_wf h) (killLanes_wf h))
theorem vectorJump_wf {s : State} {t : BitVec 2} {v : VReg} {link : Bool} (h : s.Wf k) : OutWf k (vectorJump s t v link) := by
  unfold vectorJump
  refine onPath_wf (fun g p hg => ?_) h
  extract_lets die a done linked
  have hd : ∀ {x : Group} {q : Path}, x.Wf k → OutWf k (done x q) := fun hx => killMask_wf (keep_wf h hx)
  have hl : ∀ {x : Group}, x.Wf k → (linked x).Wf k := fun hx => ite_groupWf (hx.withSreg (tabWf_set _ _)) hx
  split
  · exact hd hg
  · exact hd (hl hg)
  · extract_lets q sp
    have hsp : sp.1.Wf k := by
      unfold sp
      split
      · exact spawn_wf hg
      · exact hg
    exact ite_outWf (trapHere_wf h hg) (hd (hl hsp))
theorem execJmpv_wf {t : BitVec 2} {v : VReg} {s : State} (h : s.Wf k) : OutWf k (execJmpv t v s) := vectorJump_wf h
theorem execCallv_wf {t : BitVec 2} {v : VReg} {s : State} (h : s.Wf k) : OutWf k (execCallv t v s) := vectorJump_wf h
theorem rejoinOrWait_wf {s : State} {g : Group} {p : Path} {t : BitVec 2} (hg : g.Wf k) : (rejoinOrWait s g p t).Wf k := ite_groupWf hg hg
theorem returnLane_wf {s : State} {c : Group} {p : Path} {i : Garnet} (h : s.Wf k) : (returnLane s c p i).Wf k := by
  unfold returnLane
  extract_lets s1 s2
  have hs2 : s2.Wf k := modGroup_wf (fun _ hx => formReturned_wf (setSlot_wf (writeBackLane_wf hx))) (h.delGroup _)
  exact tryRetire_wf hs2
theorem execRjoin_wf {t : BitVec 2} {s : State} (h : s.Wf k) : OutWf k (execRjoin t s) := by
  unfold execRjoin
  refine onPath_wf (fun g p hg => ?_) h
  split
  · exact ite_outWf (ite_outWf (returnLane_wf h) h) (keep_wf h hg)
  · split
    · exact keep_wf h hg
    · refine ite_outWf (keep_wf h hg) (ite_outWf (trapHere_wf h hg) ?_)
      extract_lets m
      have hm : m.1.Wf k := hg
      exact takeDue_wf (setGroup_wf h (drainRecalls_wf (formAll_wf (drainRecalls_wf (rejoinOrWait_wf hm)))))
theorem recallDue_wf {s : State} {c : ℕ} (h : s.Wf k) : (recallDue s c).Wf k := by
  unfold recallDue
  split
  · split
    · exact ite_wf (takeDue_wf (recallCtx_wf h)) h
    · exact h
  · exact h
theorem execLaneRecall_wf {c : ℕ} {s : State} (h : s.Wf k) : OutWf k (execLaneRecall c s) := recallDue_wf h
theorem timerActs_wf {s : State} {gid t : ℕ} (h : s.Wf k) : (timerActs s gid t).Wf k := by
  unfold timerActs
  split
  · next g hg =>
      have hg := h.find hg
      split
      · exact ite_wf (ite_wf (foldl_wf (fun _ _ ht => recallCtx_wf ht) h) h) (queueTrap_wf h hg)
      · exact h
  · exact h

/-! ### The operations of Machine/Flags -/

theorem dueSticky_wf {g : Group} {at_ : ℕ} {f : Byte} (hg : g.Wf k) : (dueSticky g at_ f).Wf k := hg

/-! ### The operations of Machine/Operands -/

theorem killActing_wf {s : State} {gid : ℕ} {g : Group} {ls : List ℕ} (h : s.Wf k) : (killActing s gid g ls).Wf k :=
  ite_wf h (ite_wf (killContext_wf h) (killLanes_wf h))
theorem addOut_wf {cls t l : ℕ} {g : Group} {o : LaneOut} (hg : g.Wf k) : (addOut cls t l g o).Wf k :=
  dueSticky_wf (foldl_groupWf (fun _ _ hx => hx) hg)
theorem frameLane_wf {s : State} {h1 : LaneHdr} {cls : ℕ} {bad : Group → ℕ → Bool} {dsts : List ℕ} {f : Group → Path → List ℕ → ℕ → LaneOut}
    (h : s.Wf k) : OutWf k (frameLane s h1 cls bad dsts f) := by
  unfold frameLane
  refine onPath_wf (fun _ _ hx => ?_) h
  extract_lets t all die live g1 g11
  have hg1 : g1.Wf k := ite_groupWf hx (foldl_groupWf (fun _ _ hx1 => noteWrite_wf hx1) hx)
  have hg11 : g11.Wf k := foldl_groupWf (fun _ _ hx2 => addOut_wf hx2) hg1
  exact killActing_wf (keep_wf h hg11)
theorem fixedLane_wf {s : State} {h1 : LaneHdr} {cls : ℕ} {srcs dsts : List ℕ} {f : Group → Path → List ℕ → ℕ → LaneOut} (h : s.Wf k) :
    OutWf k (fixedLane s h1 cls srcs dsts f) :=
  frameLane_wf h

/-! ### The operations of Machine/ScalarArith -/

theorem putScalar_wf {s : State} {d : SReg} {f : Group → Path → Word} (h : s.Wf k) : OutWf k (putScalar s d f) :=
  onPath_wf (fun _ _ hx => keep_wf h (sWrite_wf hx)) h
theorem putPair_wf {s : State} {d : SReg} {f : Group → Path → Dword} (h : s.Wf k) : OutWf k (putPair s d f) :=
  onPath_wf (fun _ _ hx => keep_wf h (sWritePair_wf hx)) h
theorem putTriple_wf {s : State} {d : SReg} {f : Group → Path → Mask} (h : s.Wf k) : OutWf k (putTriple s d f) :=
  onPath_wf (fun _ _ hx => keep_wf h (sWriteTriple_wf hx)) h
theorem scalar2_wf {s : State} {d a b : SReg} {f : Word → Word → Word} (h : s.Wf k) : OutWf k (scalar2 s d a b f) := putScalar_wf h
theorem scalarImm_wf {s : State} {d a : SReg} {i : Word} {f : Word → Word → Word} (h : s.Wf k) : OutWf k (scalarImm s d a i f) :=
  putScalar_wf h
theorem execAdd_wf {d a b : SReg} {s : State} (h : s.Wf k) : OutWf k (execAdd d a b s) := scalar2_wf h
theorem execSub_wf {d a b : SReg} {s : State} (h : s.Wf k) : OutWf k (execSub d a b s) := scalar2_wf h
theorem execMul_wf {d a b : SReg} {s : State} (h : s.Wf k) : OutWf k (execMul d a b s) := scalar2_wf h
theorem execMulh_wf {d a b : SReg} {s : State} (h : s.Wf k) : OutWf k (execMulh d a b s) := scalar2_wf h
theorem execMulhZ32_wf {d a b : SReg} {s : State} (h : s.Wf k) : OutWf k (execMulhZ32 d a b s) := scalar2_wf h
theorem execDivs_wf {d a b : SReg} {s : State} (h : s.Wf k) : OutWf k (execDivs d a b s) := scalar2_wf h
theorem execAnd_wf {d a b : SReg} {s : State} (h : s.Wf k) : OutWf k (execAnd d a b s) := scalar2_wf h
theorem execOr_wf {d a b : SReg} {s : State} (h : s.Wf k) : OutWf k (execOr d a b s) := scalar2_wf h
theorem execXor_wf {d a b : SReg} {s : State} (h : s.Wf k) : OutWf k (execXor d a b s) := scalar2_wf h
theorem execAndn_wf {d a b : SReg} {s : State} (h : s.Wf k) : OutWf k (execAndn d a b s) := scalar2_wf h
theorem execShl_wf {d a b : SReg} {s : State} (h : s.Wf k) : OutWf k (execShl d a b s) := scalar2_wf h
theorem execShr_wf {d a b : SReg} {s : State} (h : s.Wf k) : OutWf k (execShr d a b s) := scalar2_wf h
theorem execSra_wf {d a b : SReg} {s : State} (h : s.Wf k) : OutWf k (execSra d a b s) := scalar2_wf h
theorem execMin_wf {d a b : SReg} {s : State} (h : s.Wf k) : OutWf k (execMin d a b s) := scalar2_wf h
theorem execMax_wf {d a b : SReg} {s : State} (h : s.Wf k) : OutWf k (execMax d a b s) := scalar2_wf h
theorem execMinZ32_wf {d a b : SReg} {s : State} (h : s.Wf k) : OutWf k (execMinZ32 d a b s) := scalar2_wf h
theorem execMaxZ32_wf {d a b : SReg} {s : State} (h : s.Wf k) : OutWf k (execMaxZ32 d a b s) := scalar2_wf h
theorem execSel_wf {d a b : SReg} {s : State} (h : s.Wf k) : OutWf k (execSel d a b s) := putScalar_wf h
theorem execCmp_wf {cc : Cond} {d a b : SReg} {s : State} (h : s.Wf k) : OutWf k (execCmp cc d a b s) := scalar2_wf h
theorem execCmpZ32_wf {cc : UCond} {d a b : SReg} {s : State} (h : s.Wf k) : OutWf k (execCmpZ32 cc d a b s) := scalar2_wf h
theorem execAddZ64_wf {d a b : SReg} {s : State} (h : s.Wf k) : OutWf k (execAddZ64 d a b s) := putPair_wf h
theorem execSubZ64_wf {d a b : SReg} {s : State} (h : s.Wf k) : OutWf k (execSubZ64 d a b s) := putPair_wf h
theorem execAddi_wf {d a : SReg} {i : BitVec 14} {s : State} (h : s.Wf k) : OutWf k (execAddi d a i s) := scalarImm_wf h
theorem execAndi_wf {d a : SReg} {i : BitVec 14} {s : State} (h : s.Wf k) : OutWf k (execAndi d a i s) := scalarImm_wf h
theorem execOri_wf {d a : SReg} {i : BitVec 14} {s : State} (h : s.Wf k) : OutWf k (execOri d a i s) := scalarImm_wf h
theorem execXori_wf {d a : SReg} {i : BitVec 14} {s : State} (h : s.Wf k) : OutWf k (execXori d a i s) := scalarImm_wf h
theorem execShli_wf {d a : SReg} {n : BitVec 5} {s : State} (h : s.Wf k) : OutWf k (execShli d a n s) := scalarImm_wf h
theorem execShri_wf {d a : SReg} {n : BitVec 5} {s : State} (h : s.Wf k) : OutWf k (execShri d a n s) := scalarImm_wf h
theorem execSrai_wf {d a : SReg} {n : BitVec 5} {s : State} (h : s.Wf k) : OutWf k (execSrai d a n s) := scalarImm_wf h
theorem execMovi_wf {d : SReg} {i : BitVec 20} {s : State} (h : s.Wf k) : OutWf k (execMovi d i s) := putScalar_wf h
theorem execMovhi_wf {d : SReg} {i : BitVec 12} {s : State} (h : s.Wf k) : OutWf k (execMovhi d i s) := putScalar_wf h
theorem execMand_wf {d a b : SReg} {s : State} (h : s.Wf k) : OutWf k (execMand d a b s) := putTriple_wf h
theorem execMor_wf {d a b : SReg} {s : State} (h : s.Wf k) : OutWf k (execMor d a b s) := putTriple_wf h
theorem execMxor_wf {d a b : SReg} {s : State} (h : s.Wf k) : OutWf k (execMxor d a b s) := putTriple_wf h
theorem execMnot_wf {d a : SReg} {s : State} (h : s.Wf k) : OutWf k (execMnot d a s) := putTriple_wf h
theorem execMpop_wf {d a : SReg} {s : State} (h : s.Wf k) : OutWf k (execMpop d a s) := putScalar_wf h
theorem execMfirst_wf {d a : SReg} {s : State} (h : s.Wf k) : OutWf k (execMfirst d a s) := putScalar_wf h

/-! ### The operations of Machine/Special -/

theorem execSrd_wf {d : SReg} {r : SpecialReg} {s : State} (h : s.Wf k) : OutWf k (execSrd d r s) := putScalar_wf h
theorem execSrdCyclo_wf {d : SReg} {s : State} (h : s.Wf k) : OutWf k (execSrdCyclo d s) :=
  onPath_wf (fun _ _ hx => keep_wf h (sWrite_wf hx)) h
theorem execSrdCychi_wf {d : SReg} {s : State} (h : s.Wf k) : OutWf k (execSrdCychi d s) :=
  onPath_wf (fun _ _ hx => keep_wf h (sWrite_wf hx)) h
theorem putSpecial_wf {s : State} {a : SReg} {f : Group → Word → Group} (hf : ∀ g v, g.Wf k → (f g v).Wf k) (h : s.Wf k) :
    OutWf k (putSpecial s a f) :=
  onPath_wf (fun _ _ hx => keep_wf h (hf _ _ hx)) h
theorem execSwrEjth_wf {a : SReg} {s : State} (h : s.Wf k) : OutWf k (execSwrEjth a s) := putSpecial_wf (fun _ _ hx => ite_groupWf hx hx) h
theorem execSwrRjto_wf {a : SReg} {s : State} (h : s.Wf k) : OutWf k (execSwrRjto a s) := putSpecial_wf (fun _ _ hx => hx) h
theorem execSwrFpflags_wf {a : SReg} {s : State} (h : s.Wf k) : OutWf k (execSwrFpflags a s) := putSpecial_wf (fun _ _ hx => hx) h
theorem putTrapReg_wf {g : Group} {r : TrapReg} {v : Word} (hg : g.Wf k) : (putTrapReg g r v).Wf k := by
  unfold putTrapReg
  split <;> exact hg
theorem execSwrTrapState_wf {r : TrapReg} {a : SReg} {s : State} (h : s.Wf k) : OutWf k (execSwrTrapState r a s) :=
  putSpecial_wf (fun _ _ hx => ite_groupWf (putTrapReg_wf hx) hx) h

/-! ### The operations of Machine/ScalarMem -/

theorem scalarAccess_wf {s : State} {g : Group} {p : Path} {va n : ℕ} {a : Acc} {next : ℕ → Out} (hn : ∀ pa, OutWf k (next pa)) (h : s.Wf k)
    (hg : g.Wf k) :
    OutWf k (scalarAccess s g p va n a next) := by
  unfold scalarAccess
  split
  · exact trapHere_wf h hg
  · split
    · exact trapHere_wf h hg
    · split
      · exact trapHere_wf h hg
      · exact needWalk_wf h hg
      · exact hn _
theorem scalarIssue_wf {s : State} {g : Group} {p : Path} {va : ℕ} {κ : ReqKind} (h : s.Wf k) (hg : g.Wf k) :
    OutWf k (scalarIssue s g p va κ) :=
  keep_wf h (addReq_wf hg)
theorem scalarLoad_wf {s : State} {d a : SReg} {off : BitVec 14} {dbl : Bool} (h : s.Wf k) : OutWf k (scalarLoad s d a off dbl) :=
  onPath_wf (fun _ _ hx => scalarAccess_wf (fun _ => scalarIssue_wf h hx) h hx) h
theorem scalarStore_wf {s : State} {d a : SReg} {off : BitVec 14} {dbl : Bool} (h : s.Wf k) : OutWf k (scalarStore s d a off dbl) :=
  onPath_wf (fun _ _ hx => scalarAccess_wf (fun _ => scalarIssue_wf h hx) h hx) h
theorem argLoad_wf {s : State} {d : SReg} {off : BitVec 14} {dbl : Bool} (h : s.Wf k) : OutWf k (argLoad s d off dbl) :=
  onPath_wf (fun _ _ hx => ite_outWf (trapHere_wf h hx) (scalarAccess_wf (fun _ => scalarIssue_wf h hx) h hx)) h
theorem execSld_wf {d a : SReg} {off : BitVec 14} {s : State} (h : s.Wf k) : OutWf k (execSld d a off s) := scalarLoad_wf h
theorem execSldZ64_wf {d a : SReg} {off : BitVec 14} {s : State} (h : s.Wf k) : OutWf k (execSldZ64 d a off s) := scalarLoad_wf h
theorem execSst_wf {d a : SReg} {off : BitVec 14} {s : State} (h : s.Wf k) : OutWf k (execSst d a off s) := scalarStore_wf h
theorem execSstZ64_wf {d a : SReg} {off : BitVec 14} {s : State} (h : s.Wf k) : OutWf k (execSstZ64 d a off s) := scalarStore_wf h
theorem execSarg_wf {d : SReg} {off : BitVec 14} {s : State} (h : s.Wf k) : OutWf k (execSarg d off s) := argLoad_wf h
theorem execSargZ64_wf {d : SReg} {off : BitVec 14} {s : State} (h : s.Wf k) : OutWf k (execSargZ64 d off s) := argLoad_wf h
theorem poisonScalar_wf {g : Group} {rs : List SReg} (hg : g.Wf k) : (poisonScalar g rs).Wf k := hg
theorem returnScalar_wf {g : Group} {r : Req} {d : SReg} {dbl : Bool} {x : ℕ} {poison : Bool} (hg : g.Wf k) :
    (returnScalar g r d dbl x poison).Wf k := by
  unfold returnScalar
  dsimp only
  refine ite_groupWf ?_ ?_
  · refine poisonScalar_wf ?_
    refine putPath_wf ?_
    split
    · exact sWritePair_wf hg
    · exact sWrite_wf hg
  · refine putPath_wf ?_
    split
    · exact sWritePair_wf hg
    · exact sWrite_wf hg
theorem returnScalarReq_wf {s : State} {gid : ℕ} {g : Group} {r : Req} (h : s.Wf k) : (returnScalarReq s gid g r).Wf k := by
  unfold returnScalarReq
  split
  · exact ite_wf h (complete_wf (modGroup_wf (fun _ hx => returnScalar_wf hx) (loadLoc_wf h)))
  · exact ite_wf h (complete_wf (storeLoc_wf h))
  · exact h

/-! ### The operations of Machine/LaneMem -/

theorem laneIssueAt_wf {s : State} {g : Group} {p : Path} {h1 : LaneHdr} {path : Option KPath} {κ : ReqKind} {now : Bool} {die : List ℕ}
    {va : ℕ} (h : s.Wf k) (hg : g.Wf k) : OutWf k (laneIssueAt s g p h1 path κ now die va) :=
  killActing_wf (keep_wf h (ite_groupWf (finishReq_wf (addReq_wf hg)) (addReq_wf hg)))
theorem laneIssue_wf {s : State} {g : Group} {p : Path} {h1 : LaneHdr} {path : Option KPath} {κ : ReqKind} {now : Bool} {die : List ℕ}
    (h : s.Wf k) (hg : g.Wf k) : OutWf k (laneIssue s g p h1 path κ now die) :=
  laneIssueAt_wf h hg
theorem memLane_wf {s : State} {h1 : LaneHdr} {κ : MemKind} {op : AtomOp} {t : AtomTy} {w : Atomicity} {spa : Space} {ord : Ord4}
    {sc : Scope} {b : MBase} {i : MIdx} {off : Dword} {dst : VReg} {data : Option VReg} (h : s.Wf k) : OutWf k
      (memLane s h1 κ op t w spa ord sc b i off dst data) := by
  unfold memLane
  refine onPath_wf (fun _ _ hx => ?_) h
  extract_lets c n span all badA addrs
  split
  · exact trapHere_wf h hx
  · exact needWalk_wf h hx
  · exact laneIssue_wf h hx
theorem execLd_wf {h : LaneHdr} {t : IntTy} {spa : Space} {acq : Bool} {sc : Scope} {w : Atomicity} {b : MBase} {i : MIdx} {off : BitVec 12}
    {vd : VReg} {s : State} (h1 : s.Wf k) : OutWf k (execLd h t spa acq sc w b i off vd s) :=
  memLane_wf h1
theorem execSt_wf {h : LaneHdr} {t : IntTy} {spa : Space} {rel : Bool} {sc : Scope} {w : Atomicity} {b : MBase} {i : MIdx} {off : BitVec 12}
    {vc : VReg} {s : State} (h1 : s.Wf k) : OutWf k (execSt h t spa rel sc w b i off vc s) :=
  memLane_wf h1
theorem execAtom_wf {h : LaneHdr} {op : AtomOp} {t : AtomTy} {spa : Space} {ord : Ord4} {sc : Scope} {w : Atomicity} {b : MBase} {i : MIdx}
    {off : BitVec 8} {vd vc : VReg} {s : State} (h1 : s.Wf k) : OutWf k (execAtom h op t spa ord sc w b i off vd vc s) :=
  memLane_wf h1
theorem execRed_wf {h : LaneHdr} {op : AtomOp} {t : AtomTy} {spa : Space} {rel : Bool} {sc : Scope} {w : Atomicity} {b : MBase} {i : MIdx}
    {off : BitVec 8} {vc : VReg} {s : State} (h1 : s.Wf k) : OutWf k (execRed h op t spa rel sc w b i off vc s) :=
  memLane_wf h1
theorem returnMem_wf {s : State} {gid : ℕ} {r : Req} (h : s.Wf k) : (returnMem s gid r).Wf k := by
  unfold returnMem
  split
  · extract_lets s1
    have hs1 : s1.Wf k := performRest_wf h
    split
    · exact ite_wf hs1 (complete_wf (ite_wf (invalScope_wf hs1) hs1))
    · exact hs1
  · exact h
theorem execFence_wf {h : LaneHdr} {sc : Scope} {s : State} (h1 : s.Wf k) : OutWf k (execFence h sc s) :=
  onPath_wf (fun _ _ hx => laneIssue_wf h1 hx) h1
theorem execCln_wf {h : LaneHdr} {sc : Scope} {s : State} (h1 : s.Wf k) : OutWf k (execCln h sc s) :=
  onPath_wf (fun _ _ hx => laneIssue_wf h1 hx) h1
theorem execInv_wf {h : LaneHdr} {sc : Scope} {s : State} (h1 : s.Wf k) : OutWf k (execInv h sc s) :=
  onPath_wf (fun _ _ hx => laneIssue_wf (invalScope_wf h1) hx) h1
theorem returnFence_wf {s : State} {gid : ℕ} {g : Group} {r : Req} (h : s.Wf k) : (returnFence s gid g r).Wf k := by
  unfold returnFence
  split
  · exact ite_wf (ite_wf (cleanScope_wf h) (complete_wf (invalScope_wf (cleanScope_wf h)))) h
  · exact ite_wf (complete_wf (cleanScope_wf h)) h
  · exact complete_wf h
  · exact h
theorem execPref_wf {h : LaneHdr} {b : MBase} {i : MIdx} {off : BitVec 12} {s : State} (h1 : s.Wf k) : OutWf k (execPref h b i off s) :=
  onPath_wf (fun _ _ hx => laneIssue_wf h1 hx) h1
theorem fillLines_wf {s : State} {g : Group} {lines : List ℕ} (h : s.Wf k) : (fillLines s g lines).Wf k :=
  foldl_wf (fun _ _ ht => colFill_wf ht) h
theorem lockLane_wf {s : State} {h1 : LaneHdr} {on : Bool} {b : MBase} {i : MIdx} {off : BitVec 12} (h : s.Wf k) :
    OutWf k (lockLane s h1 on b i off) := by
  unfold lockLane
  refine onPath_wf (fun _ _ hx => ?_) h
  extract_lets all bad addrs
  split
  · exact trapHere_wf h hx
  · exact needWalk_wf h hx
  · refine ite_outWf (trapHere_wf h hx) ?_
    extract_lets s1
    have hs1 : s1.Wf k := foldl_wf (fun _ _ ht => modCore_wf (ite_wf (foldl_wf (fun _ _ ht1 => colRoom_wf ht1) ht) ht)) h
    exact laneIssueAt_wf hs1 hx
theorem execLkln_wf {h : LaneHdr} {b : MBase} {i : MIdx} {off : BitVec 12} {s : State} (h1 : s.Wf k) : OutWf k (execLkln h b i off s) :=
  lockLane_wf h1
theorem execUlln_wf {h : LaneHdr} {b : MBase} {i : MIdx} {off : BitVec 12} {s : State} (h1 : s.Wf k) : OutWf k (execUlln h b i off s) :=
  lockLane_wf h1
theorem returnLines_wf {s : State} {gid : ℕ} {g : Group} {r : Req} (h : s.Wf k) : (returnLines s gid g r).Wf k := by
  unfold returnLines
  split
  · exact complete_wf (fillLines_wf h)
  · exact complete_wf (ite_wf (fillLines_wf h) h)
  · exact h

/-! ### The operations of Machine/Copy -/

theorem rdFail_wf {s : State} {g : Group} {p : Path} {r : RdRes} (h : s.Wf k) (hg : g.Wf k) : OutWf k (rdFail s g p r) := by
  unfold rdFail
  split
  · exact needWalk_wf h hg
  · exact trapHere_wf h hg
  · exact h
theorem execCpyc_wf {h : LaneHdr} {dst src : SReg} {dr sr : Byte} {s : State} (h1 : s.Wf k) : OutWf k (execCpyc h dst src dr sr s) := by
  unfold execCpyc
  refine onPath_wf (fun _ _ hx => ?_) h1
  refine ite_outWf (trapHere_wf h1 hx) ?_
  split
  · exact h1
  · refine ite_outWf h1 ?_
    split
    · exact rdFail_wf h1 hx
    · exact trapHere_wf h1 hx
    · exact rdFail_wf h1 hx
    · exact trapHere_wf h1 hx
    · split
      · exact trapHere_wf h1 hx
      · exact formCopies_wf (modTeam_wf (keep_wf h1 (addReq_wf hx)))
theorem submitGather_wf {s : State} {g : Group} {p : Path} {h1 : LaneHdr} {tab : ℕ} {hd : TabHead} {dst : View}
    {es : List (ℕ × ℕ × Option ℕ)} {die : List ℕ} (h : s.Wf k) (hg : g.Wf k) : OutWf k (submitGather s g p h1 tab hd dst es die) :=
  killActing_wf (foldl_wf (fun _ _ ht => promoteHint_wf ht) (addSub_wf (keep_wf h (addReq_wf hg))))
theorem execCpyx_wf {h : LaneHdr} {dst : SReg} {vx : VReg} {tb : SReg} {rc : Byte} {s : State} (h1 : s.Wf k) :
    OutWf k (execCpyx h dst vx tb rc s) := by
  unfold execCpyx
  dsimp only
  refine onPath_wf (fun _ _ hx => ?_) h1
  refine ite_outWf h1 ?_
  split
  · exact rdFail_wf h1 hx
  · exact trapHere_wf h1 hx
  · refine ite_outWf (trapHere_wf h1 hx) ?_
    split
    · exact rdFail_wf h1 hx
    · exact rdFail_wf h1 hx
    · split
      · exact trapHere_wf h1 hx
      · split
        · exact trapHere_wf h1 hx
        · exact rdFail_wf h1 hx
        · split
          · exact trapHere_wf h1 hx
          · refine ite_outWf (trapHere_wf h1 hx) ?_
            split
            · exact trapHere_wf h1 hx
            · exact submitGather_wf h1 hx
theorem ownCard_wf {g : Group} {x : Sub} {id : ℕ} (hg : g.Wf k) : (ownCard g x id).Wf k := by
  unfold ownCard
  split <;> exact hg
theorem execJob_wf {h : LaneHdr} {c : SReg} {s : State} (h1 : s.Wf k) : OutWf k (execJob h c s) := by
  unfold execJob
  refine onPath_wf (fun _ _ hx => ?_) h1
  extract_lets card
  refine ite_outWf h1 ?_
  split
  · exact rdFail_wf h1 hx
  · exact trapHere_wf h1 hx
  · exact addSub_wf (keep_wf h1 (ownCard_wf (addReq_wf hx)))
theorem execTaskdef_wf {h : LaneHdr} {c n : SReg} {t : Byte} {s : State} (h1 : s.Wf k) : OutWf k (execTaskdef h c n t s) := by
  unfold execTaskdef
  refine onPath_wf (fun _ _ hx => ?_) h1
  extract_lets card st cnt
  refine ite_outWf h1 ?_
  split
  · exact rdFail_wf h1 hx
  · exact trapHere_wf h1 hx
  · refine ite_outWf (trapHere_wf h1 hx) ?_
    split
    · exact trapHere_wf h1 hx
    · exact settleAll_wf (taskDefine_wf (keep_wf h1 (ownCard_wf (finishReq_wf (addReq_wf hx)))))
theorem execTaskwait_wf {h : LaneHdr} {t : Byte} {s : State} (h1 : s.Wf k) : OutWf k (execTaskwait h t s) := by
  unfold execTaskwait
  dsimp only
  refine onPath_wf (fun _ _ hx => ?_) h1
  refine ite_outWf h1 ?_
  refine laneIssue_wf ?_ hx
  split <;> exact h1
theorem suspendSub_wf {s : State} {st : ℕ} {x : Sub} {code addr : ℕ} (h : s.Wf k) : (suspendSub s st x code addr).Wf k := ite_wf h h
theorem subFatal_wf {s : State} {st : ℕ} {r : TrapRec} (h : s.Wf k) : (subFatal s st r).Wf k := by
  unfold subFatal
  extract_lets s1
  refine ite_wf ?_ (modTeam_wf (haltTeam_wf h))
  split <;> exact haltTeam_wf h
theorem failSub_wf {s : State} {st : ℕ} {x : Sub} {addr : ℕ} (h : s.Wf k) : (failSub s st x addr).Wf k := by
  unfold failSub
  extract_lets s1
  refine ite_wf h ?_
  split
  · exact queueFail_wf h
  · split
    · exact fatal_wf h
    · exact ite_wf (subFatal_wf h) h
  · exact h
theorem stopSub_wf {s : State} {st : ℕ} {x : Sub} {stop : ℕ × ℕ} (h : s.Wf k) : (stopSub s st x stop).Wf k :=
  ite_wf h (ite_wf (suspendSub_wf h) (failSub_wf h))
theorem moveTile_wf {s : State} {st : ℕ} {x : Sub} (h : s.Wf k) : (moveTile s st x).Wf k := by
  unfold moveTile
  extract_lets team k1
  split
  · split
    · exact h
    · refine ite_wf h ?_
      extract_lets m put
      split
      · exact stopSub_wf (modSub_wf (moveSlice_wf h))
      · exact arriveTarget_wf (dropTile_wf (modSub_wf (moveSlice_wf h)))
  · split
    · exact h
    · refine ite_wf h ?_
      extract_lets old b1 new m1 put1
      split
      · exact stopSub_wf (modSub_wf (moveBlock_wf h))
      · exact arriveTarget_wf (dropTile_wf (modSub_wf (moveBlock_wf h)))
  · exact h
theorem moveJob_wf {s : State} {st : ℕ} {x : Sub} {n : ℕ} (h : s.Wf k) : (moveJob s st x n).Wf k := by
  unfold moveJob
  extract_lets team done
  have hd : ∀ {m : Moved} {w : Work}, m.s.Wf k → (done m w).Wf k := by
    intro m w hm
    show State.Wf k (match m.stop with | some e => _ | none => _)
    split
    · exact stopSub_wf hm
    · exact hm
  split
  · exact hd (moveRun_wf (fun _ _ ht => runSource_wf ht) h)
  · exact hd (moveRun_wf (fun _ _ ht => ht) h)
  · exact h
theorem startTensor_wf {s : State} {st : ℕ} {x : Sub} {sr dr sb db : ℕ} {se de : List ℕ} (h : s.Wf k) :
    (startTensor s st x sr dr sb db se de).Wf k := by
  unfold startTensor
  extract_lets put
  refine ite_wf h ?_
  split
  · split <;> exact h
  · exact ite_wf (suspendSub_wf h) (failSub_wf h)
  · exact ite_wf (suspendSub_wf h) (failSub_wf h)
theorem execSubmissionStart_wf {st id : ℕ} {s : State} (h : s.Wf k) : OutWf k (execSubmissionStart st id s) := by
  unfold execSubmissionStart
  split
  · exact h
  · extract_lets held
    refine ite_outWf h ?_
    split
    · exact ite_outWf h (startTensor_wf (cleanLines_wf h))
    · exact modSub_wf (cleanLines_wf h)
    · exact modSub_wf (cleanLines_wf h)
theorem execTileArrival_wf {st id : ℕ} {s : State} (h : s.Wf k) : OutWf k (execTileArrival st id s) := by
  unfold execTileArrival
  split
  · exact ite_outWf (moveTile_wf h) h
  · exact h
theorem moveTiles_wf {n : ℕ} {s : State} {st id : ℕ} (h : s.Wf k) : (moveTiles s st id n).Wf k := by
  induction n generalizing s with
  | zero => exact h
  | succ n ih =>
    unfold moveTiles
    split
    · exact ite_wf (ih (moveTile_wf h)) h
    · exact h
theorem finishMoves_wf {s : State} {st : ℕ} {x : Sub} (h : s.Wf k) : (finishMoves s st x).Wf k := ite_wf (moveTiles_wf (moveJob_wf h)) h
theorem packetDone_wf {s : State} {q idx : ℕ} (h : s.Wf k) : (packetDone s q idx).Wf k := modQueue_wf h
theorem completeSub_wf {s : State} {st : ℕ} {x : Sub} (h : s.Wf k) : (completeSub s st x).Wf k := by
  unfold completeSub
  extract_lets lines s1 s2 s3 s4 s5 s6 s7
  have hs2 : s2.Wf k := writeStatus_wf (dropClean_wf h)
  have hs5 : s5.Wf k := by
    unfold s5
    split
    · exact ite_wf (countDown_wf (subFlags_wf hs2)) (subFlags_wf hs2)
    · exact subFlags_wf hs2
  have hs6 : s6.Wf k := by
    unfold s6
    split
    · split
      · exact wakeTask_wf hs5
      · exact hs5
    · exact hs5
  have hs7 : s7.Wf k := by
    unfold s7
    split
    · exact ite_wf hs6 (packetDone_wf hs6)
    · exact hs6
  exact settleAll_wf (leaveSub_wf (releaseLeft_wf (takeRoom_wf hs7)))
theorem execJobComplete_wf {st id : ℕ} {s : State} (h : s.Wf k) : OutWf k (execJobComplete st id s) := by
  unfold execJobComplete
  split
  · exact h
  · refine ite_outWf h ?_
    extract_lets s1
    have hs1 : s1.Wf k := finishMoves_wf h
    split
    · exact hs1
    · extract_lets room
      refine ite_outWf hs1 ?_
      split
      · split
        · exact completeSub_wf hs1
        · exact ite_outWf (suspendSub_wf hs1) (ite_outWf (completeSub_wf hs1) (completeSub_wf (failSub_wf hs1)))
      · exact completeSub_wf hs1

/-! ### The operations of Machine/Matrix -/

theorem execGangset_wf {h : LaneHdr} {r : SReg} {s : State} (h1 : s.Wf k) : OutWf k (execGangset h r s) :=
  onPath_wf (fun _ _ hx => ite_outWf (trapHere_wf h1 hx) (ite_outWf (laneIssue_wf h1 hx) (trapHere_wf h1 hx))) h1
theorem fetchLines_wf {s : State} {team : ℕ} {ls : List Loc} (h : s.Wf k) : (fetchLines s team ls).Wf k :=
  foldl_wf (fun _ _ ht => colFill_wf ht) h
theorem joinGang_wf {s : State} {g : Group} {p : Path} {h1 : LaneHdr} {names : List SReg} {ent : GangEnt} (h : s.Wf k) (hg : g.Wf k) :
    OutWf k (joinGang s g p h1 names ent) := by
  unfold joinGang
  dsimp only
  refine ite_outWf (trapHere_wf h hg) ?_
  split
  · exact ite_outWf (trapHere_wf h hg) (fireAll_wf (modCore_wf (keep_wf h (addReq_wf hg))))
  · exact fireAll_wf (modCore_wf (tokenOpen_wf (keep_wf h (addReq_wf hg))))
theorem mmaLane_wf {h : LaneHdr} {zero : Bool} {fmt : MmaFmt} {td : TileDrain} {a b sc : SReg} {ra rb : Byte} {s : State} (h1 : s.Wf k) :
    OutWf k (mmaLane h zero fmt td a b sc ra rb s) := by
  unfold mmaLane
  dsimp only
  refine onPath_wf (fun _ _ hx => ?_) h1
  refine ite_outWf (trapHere_wf h1 hx) ?_
  refine ite_outWf h1 ?_
  refine ite_outWf (trapHere_wf h1 hx) ?_
  split
  · exact rdFail_wf h1 hx
  · exact trapHere_wf h1 hx
  · exact rdFail_wf h1 hx
  · exact trapHere_wf h1 hx
  · split
    · exact trapHere_wf h1 hx
    · exact trapHere_wf h1 hx
    · refine ite_outWf (trapHere_wf h1 hx) ?_
      refine ite_outWf (trapHere_wf h1 hx) ?_
      split
      · exact trapHere_wf h1 hx
      · exact trapHere_wf h1 hx
      · split
        · exact trapHere_wf h1 hx
        · exact trapHere_wf h1 hx
        · split
          · exact trapHere_wf h1 hx
          · exact joinGang_wf h1 hx
  · exact h1
theorem execMma_wf {h : LaneHdr} {fmt : MmaFmt} {td : TileDrain} {a b sc : SReg} {ra rb : Byte} {s : State} (h1 : s.Wf k) :
    OutWf k (execMma h fmt td a b sc ra rb s) :=
  mmaLane_wf h1
theorem execMmaz_wf {h : LaneHdr} {fmt : MmaFmt} {td : TileDrain} {a b sc : SReg} {ra rb : Byte} {s : State} (h1 : s.Wf k) :
    OutWf k (execMmaz h fmt td a b sc ra rb s) :=
  mmaLane_wf h1
theorem execMdrain_wf {h : LaneHdr} {slot : BitVec 4} {tile : Tile} {sc : SReg} {s : State} (h1 : s.Wf k) :
    OutWf k (execMdrain h slot tile sc s) := by
  unfold execMdrain
  refine onPath_wf (fun _ _ hx => ?_) h1
  refine ite_outWf (trapHere_wf h1 hx) ?_
  refine ite_outWf h1 ?_
  refine ite_outWf (trapHere_wf h1 hx) ?_
  extract_lets td names rs x
  split
  · exact trapHere_wf h1 hx
  · exact joinGang_wf h1 hx
theorem fetchPin_wf {s : State} {e : GangEnt} {limit last line : ℕ} (h : s.Wf k) : (fetchPin s e limit last line).Wf k :=
  ite_wf (colFill_wf h) (modCore_wf (colFill_wf h))
theorem unpinBlock_wf {s : State} {id kb : ℕ} (h : s.Wf k) : (unpinBlock s id kb).Wf k := h.mapCores (fun _ => rfl)
theorem modSeq_wf {s : State} {c id : ℕ} {f : GangEnt → GangEnt} (h : s.Wf k) : (modSeq s c id f).Wf k := modCore_wf h
theorem stopEnt_wf {s : State} {c : ℕ} {e : GangEnt} {code addr : ℕ} (h : s.Wf k) : (stopEnt s c e code addr).Wf k := modSeq_wf h
theorem abandonEnt_wf {s : State} {c : ℕ} {e : GangEnt} {code addr : ℕ} {aux : Dword} (h : s.Wf k) :
    (abandonEnt s c e code addr aux).Wf k := by
  unfold abandonEnt
  extract_lets t s1 s2 s3 s4
  have hs1 : s1.Wf k := modCore_wf h
  have hs2 : s2.Wf k := hs1
  have hs3 : s3.Wf k := pump_wf (unpin_wf hs2)
  have hs4 : s4.Wf k := by
    unfold s4
    split
    · split
      · exact fatal_wf hs3
      · exact hs3
    · exact hs3
  exact leaveEnt_wf hs4
theorem accumulate_wf {s : State} {c : ℕ} {e : GangEnt} {a b : View} {as bs : List (ℕ × ℕ × List Loc)} (h : s.Wf k) :
    (accumulate s c e a b as bs).1.Wf k := by
  unfold accumulate
  refine foldl_keeps (P := fun r : State × Byte => r.1.Wf k) _ (fun r _ hr => ?_) h
  exact foldl_keeps (P := fun r : State × Byte => r.1.Wf k) _ (fun _ _ hr => accWrite_wf hr) hr
theorem tileFetch_wf {s : State} {c ent kb : ℕ} (h : s.Wf k) : (tileFetch s c ent kb).Wf k := by
  unfold tileFetch
  split
  · exact h
  · extract_lets oldest limit
    refine ite_wf h ?_
    split
    · exact fetchPin_wf h
    · exact h
theorem runBlock_wf {s : State} {c : ℕ} {e : GangEnt} (h : s.Wf k) : (runBlock s c e).Wf k := by
  unfold runBlock
  split
  · extract_lets s1
    have hs1 : s1.Wf k := ite_wf (zeroTile_wf h) h
    refine ite_wf (modSeq_wf hs1) ?_
    split
    · exact ite_wf (stopEnt_wf (modSeq_wf hs1)) (abandonEnt_wf (modSeq_wf hs1))
    · extract_lets ls s2
      have hs2 : s2.Wf k := foldl_wf (fun _ _ ht => fetchPin_wf ht) hs1
      split
      · exact abandonEnt_wf hs2
      · split
        · exact abandonEnt_wf hs2
        · exact modSeq_wf (unpinBlock_wf (accumulate_wf hs2))
  · exact modSeq_wf h
theorem execMatrixStep_wf {c : ℕ} {s : State} (h : s.Wf k) : OutWf k (execMatrixStep c s) := by
  unfold execMatrixStep
  split
  · exact ite_outWf h (runBlock_wf h)
  · exact h
theorem completeEnt_wf {s : State} {c : ℕ} {e : GangEnt} {fp : Byte} (h : s.Wf k) : (completeEnt s c e fp).Wf k := by
  unfold completeEnt
  extract_lets s1 s2 s3
  have hs1 : s1.Wf k := unpin_wf (modCore_wf h)
  have hs2 : s2.Wf k := tokenDone_wf hs1
  have hs3 : s3.Wf k := foldl_wf (fun _ _ ht => complete_wf (modGroup_wf (fun _ hx => hx) ht)) hs2
  exact settleAll_wf (leaveEnt_wf (pump_wf hs3))
theorem execMatrixComplete_wf {c : ℕ} {s : State} (h : s.Wf k) : OutWf k (execMatrixComplete c s) := by
  unfold execMatrixComplete
  split
  · exact completeEnt_wf h
  · exact h
theorem execScld_wf {h : LaneHdr} {a n : SReg} {off : BitVec 14} {s : State} (h1 : s.Wf k) : OutWf k (execScld h a n off s) := by
  unfold execScld
  refine onPath_wf (fun _ _ hx => ?_) h1
  extract_lets cnt base
  refine ite_outWf (trapHere_wf h1 hx) ?_
  refine ite_outWf (trapHere_wf h1 hx) ?_
  split
  · exact trapHere_wf h1 hx
  · exact needWalk_wf h1 hx
  · exact laneIssueAt_wf h1 hx
theorem scldWords_wf {s : State} {g : Group} {l : List Loc} (h : s.Wf k) : (scldWords s g l).1.Wf k := by
  induction l generalizing s with
  | nil => exact h
  | cons l t ih => exact ih (loadLoc_wf h)
theorem writeScld_wf {s : State} {gid : ℕ} {g : Group} {id off : ℕ} {ws : List (ℕ × Bool)} (h : s.Wf k) :
    (writeScld s gid g id off ws).Wf k := by
  unfold writeScld
  split
  · exact ite_wf h (complete_wf (modCore_wf h))
  · exact h
theorem returnScld_wf {s : State} {gid : ℕ} {g : Group} {r : Req} (h : s.Wf k) : (returnScld s gid g r).Wf k := by
  unfold returnScld
  split
  · exact ite_wf h (writeScld_wf (modGroup_wf (fun _ hx => hx) (scldWords_wf h)))
  · exact writeScld_wf h
  · exact h
theorem execDrld_wf {h : LaneHdr} {a : SReg} {n : BitVec 7} {slot : BitVec 4} {s : State} (h1 : s.Wf k) :
    OutWf k (execDrld h a n slot s) := by
  unfold execDrld
  refine onPath_wf (fun _ _ hx => ?_) h1
  extract_lets base
  refine ite_outWf h1 ?_
  refine ite_outWf (trapHere_wf h1 hx) ?_
  split
  · exact trapHere_wf h1 hx
  · exact needWalk_wf h1 hx
  · refine ite_outWf h1 ?_
    extract_lets half ws
    split
    · exact trapHere_wf h1 hx
    · exact ite_outWf (trapHere_wf h1 hx) (laneIssue_wf (modCore_wf h1) hx)
theorem tokenTrap_wf {s : State} {g : Group} {p : Path} {t : ℕ} (h : s.Wf k) (hg : g.Wf k) : OutWf k (tokenTrap s g p t) := trapHere_wf h hg
theorem execTkpass_wf {h : LaneHdr} {tile : Tile} {s : State} (h1 : s.Wf k) : OutWf k (execTkpass h tile s) := by
  unfold execTkpass
  refine onPath_wf (fun _ _ hx => ?_) h1
  extract_lets t give
  split
  · exact laneIssue_wf (modCore_wf (setToken_wf h1)) hx
  · exact ite_outWf (laneIssue_wf h1 hx) (tokenTrap_wf h1 hx)
  · exact ite_outWf (laneIssue_wf h1 hx) (tokenTrap_wf h1 hx)
  · exact ite_outWf (ite_outWf (laneIssue_wf h1 hx) (laneIssue_wf (setToken_wf h1) hx)) (tokenTrap_wf h1 hx)
theorem execTktake_wf {h : LaneHdr} {tile : Tile} {s : State} (h1 : s.Wf k) : OutWf k (execTktake h tile s) := by
  unfold execTktake
  refine onPath_wf (fun _ _ hx => ?_) h1
  extract_lets t give
  split
  · exact laneIssue_wf (modCore_wf (setToken_wf h1)) hx
  · exact ite_outWf (tokenTrap_wf h1 hx) (ite_outWf (laneIssue_wf (setToken_wf h1) hx) (laneIssue_wf (setToken_wf h1) hx))
  · exact ite_outWf (laneIssue_wf h1 hx) (tokenTrap_wf h1 hx)
  · exact tokenTrap_wf h1 hx
theorem execAccrd_wf {h : LaneHdr} {vd : VReg} {tile : Tile} {vx : VReg} {s : State} (h1 : s.Wf k) :
    OutWf k (execAccrd h vd tile vx s) := by
  unfold execAccrd
  refine onPath_wf (fun _ _ hx => ?_) h1
  extract_lets bad
  split
  · exact trapHere_wf h1 hx
  · exact laneIssue_wf h1 hx
theorem execAccwr_wf {h : LaneHdr} {tile : Tile} {vx vs : VReg} {s : State} (h1 : s.Wf k) : OutWf k (execAccwr h tile vx vs s) := by
  unfold execAccwr
  refine onPath_wf (fun _ _ hx => ?_) h1
  extract_lets badX bad
  split
  · exact trapHere_wf h1 hx
  · exact laneIssue_wf h1 hx
theorem settlePass_wf {s : State} {gid t : ℕ} (h : s.Wf k) : (settlePass s gid t).Wf k := by
  unfold settlePass
  split
  · split
    · exact h
    · exact ite_wf h (foldl_wf (fun _ _ ht => complete_wf ht) (setToken_wf h))
  · exact h
theorem returnAcc_wf {s : State} {gid : ℕ} {g : Group} {r : Req} (h : s.Wf k) : (returnAcc s gid g r).Wf k := by
  unfold returnAcc
  split
  · refine ite_wf h ?_
    refine ite_wf (fatal_wf h) ?_
    extract_lets s1
    have hs1 : s1.Wf k := modGroup_wf (fun _ hx => foldl_groupWf (fun _ _ hx1 => vReturn_wf hx1) hx) h
    exact tryRetire_wf (settlePass_wf (finishAt_wf hs1))
  · exact ite_wf h (tryRetire_wf (settlePass_wf (finishAt_wf (foldl_wf (fun _ _ ht => accWrite_wf ht) h))))
  · exact h

/-! ### The operations of Machine/Drain -/

theorem setDrain_wf {s : State} {c : ℕ} {d : Option DrainRun} (h : s.Wf k) : (setDrain s c d).Wf k := modCore_wf h
theorem enterSegment_wf {s : State} {c : ℕ} {e : GangEnt} {d : DrainRun} (h : s.Wf k) : (enterSegment s c e d).Wf k := by
  unfold enterSegment
  extract_lets prog
  refine ite_wf (abandonEnt_wf h) ?_
  split
  · exact ite_wf (setDrain_wf h) (abandonEnt_wf h)
  · exact setDrain_wf h
theorem startDrain_wf {s : State} {c : ℕ} {e : GangEnt} (h : s.Wf k) : (startDrain s c e).Wf k := by
  unfold startDrain
  split
  · exact setDrain_wf h
  · extract_lets z d1
    split
    · exact setDrain_wf h
    · exact enterSegment_wf (setDrain_wf h)
theorem execDrainSegment_wf {c : ℕ} {s : State} (h : s.Wf k) : OutWf k (execDrainSegment c s) := by
  unfold execDrainSegment
  extract_lets k1
  split
  · split
    · exact ite_outWf (startDrain_wf h) h
    · exact h
  · split
    · exact ite_outWf (enterSegment_wf h) h
    · exact h
theorem onDrain_wf {s : State} {f : GangEnt → DrainRun → Out} (hf : ∀ e d, OutWf k (f e d)) (h : s.Wf k) : OutWf k (onDrain s f) := by
  unfold onDrain
  split
  · exact hf _ _
  · exact h
theorem putE_wf {s : State} {d : DrainRun} {r : EReg} {f : ℕ → Word × Byte} (h : s.Wf k) : OutWf k (putE s d r f) := setDrain_wf h
theorem drainOp_wf {s : State} {r : EReg} {f : DrainRun → ℕ → Word × Byte} (h : s.Wf k) : OutWf k (drainOp s r f) :=
  onDrain_wf (fun _ _ => putE_wf h) h
theorem execDadd_wf {d a : EReg} {b : DSrc} {s : State} (h : s.Wf k) : OutWf k (execDadd d a b s) := drainOp_wf h
theorem execDmul_wf {d a : EReg} {b : DSrc} {s : State} (h : s.Wf k) : OutWf k (execDmul d a b s) := drainOp_wf h
theorem execDfma_wf {d a : EReg} {b : DSrc} {c : EReg} {s : State} (h : s.Wf k) : OutWf k (execDfma d a b c s) := drainOp_wf h
theorem execDmin_wf {d a : EReg} {b : DSrc} {s : State} (h : s.Wf k) : OutWf k (execDmin d a b s) := drainOp_wf h
theorem execDmax_wf {d a : EReg} {b : DSrc} {s : State} (h : s.Wf k) : OutWf k (execDmax d a b s) := drainOp_wf h
theorem execDclamp_wf {d a : EReg} {b : DSrc} {c : EReg} {s : State} (h : s.Wf k) : OutWf k (execDclamp d a b c s) := drainOp_wf h
theorem execDscl_wf {d a : EReg} {n : BitVec 9} {s : State} (h : s.Wf k) : OutWf k (execDscl d a n s) := drainOp_wf h
theorem execDgelu_wf {d a : EReg} {s : State} (h : s.Wf k) : OutWf k (execDgelu d a s) := drainOp_wf h
theorem execDsilu_wf {d a : EReg} {s : State} (h : s.Wf k) : OutWf k (execDsilu d a s) := drainOp_wf h
theorem execDtanh_wf {d a : EReg} {s : State} (h : s.Wf k) : OutWf k (execDtanh d a s) := drainOp_wf h
theorem execDsig_wf {d a : EReg} {s : State} (h : s.Wf k) : OutWf k (execDsig d a s) := drainOp_wf h
theorem execDrelu_wf {d a : EReg} {s : State} (h : s.Wf k) : OutWf k (execDrelu d a s) := drainOp_wf h
theorem execDmov_wf {d : EReg} {a : DSrc} {s : State} (h : s.Wf k) : OutWf k (execDmov d a s) := drainOp_wf h
theorem execDamax_wf {t : DMaxTy} {d a : EReg} {s : State} (h : s.Wf k) : OutWf k (execDamax t d a s) := onDrain_wf (fun _ _ => putE_wf h) h
theorem execDq8_wf {d a b : EReg} {s : State} (h : s.Wf k) : OutWf k (execDq8 d a b s) := drainOp_wf h
theorem execDq4_wf {d a b : EReg} {s : State} (h : s.Wf k) : OutWf k (execDq4 d a b s) := drainOp_wf h
theorem execDcvt_wf {sat : Bool} {t : DCvtTy} {d a : EReg} {s : State} (h : s.Wf k) : OutWf k (execDcvt sat t d a s) := drainOp_wf h
theorem execDsel_wf {cc : DSelCond} {d a b c : EReg} {s : State} (h : s.Wf k) : OutWf k (execDsel cc d a b c s) := drainOp_wf h
theorem enterAgain_wf {s : State} {d : DrainRun} (h : s.Wf k) : OutWf k (enterAgain s d) := setDrain_wf h
theorem drainWrite_wf {s : State} {e : GangEnt} {r : ℕ × ℕ × ℕ × Bool} {v : ℕ} (h : s.Wf k) : (drainWrite s e r v).Wf k := by
  unfold drainWrite
  split
  · exact storeGlob_wf h
  · exact spadStore_wf h
  · exact h
theorem drainLoad_wf {s : State} {t : DMemTy} {d : EReg} {a : DAcc} {every : Bool} (h : s.Wf k) : OutWf k (drainLoad s t d a every) :=
  onDrain_wf (fun _ _ => ite_outWf (enterAgain_wf h) (putE_wf (fetchLines_wf h))) h
theorem execDrow_wf {t : DMemTy} {d : EReg} {p : SReg} {s : State} (h : s.Wf k) : OutWf k (execDrow t d p s) := drainLoad_wf h
theorem execDcol_wf {t : DMemTy} {d : EReg} {p : SReg} {s : State} (h : s.Wf k) : OutWf k (execDcol t d p s) := drainLoad_wf h
theorem execDld_wf {t : DMemTy} {d : EReg} {p m : SReg} {s : State} (h : s.Wf k) : OutWf k (execDld t d p m s) := drainLoad_wf h
theorem drainNext_wf {s : State} {d : DrainRun} (h : s.Wf k) : OutWf k (drainNext s d) := setDrain_wf h
theorem execDst_wf {t : DStTy} {a : EReg} {p m : SReg} {s : State} (h : s.Wf k) : OutWf k (execDst t a p m s) :=
  onDrain_wf (fun _ _ => ite_outWf (enterAgain_wf h) (drainNext_wf (foldl_wf (fun _ _ ht => drainWrite_wf ht) h))) h
theorem execDsts_wf {a : EReg} {p m : SReg} {s : State} (h : s.Wf k) : OutWf k (execDsts a p m s) :=
  onDrain_wf (fun _ _ => ite_outWf (enterAgain_wf h) (drainNext_wf (foldl_wf (fun _ _ ht => drainWrite_wf ht) h))) h
theorem execDend_wf {x : Bool} {s : State} (h : s.Wf k) : OutWf k (execDend x s) := by
  unfold execDend
  refine onDrain_wf ?_ h
  intro _ _
  split <;> exact setDrain_wf h
theorem execDrainComplete_wf {c : ℕ} {s : State} (h : s.Wf k) : OutWf k (execDrainComplete c s) := by
  unfold execDrainComplete
  extract_lets k1
  split
  · exact ite_outWf (completeEnt_wf (setDrain_wf (ite_wf (zeroTile_wf h) h))) h
  · exact h

/-! ### The operations of Machine/Sync -/

theorem syncDone_wf {s : State} {g : Group} {p : Path} {h1 : LaneHdr} (h : s.Wf k) (hg : g.Wf k) : OutWf k (syncDone s g p h1) :=
  laneIssue_wf h hg
theorem addBar_wf {s : State} {c o team : ℕ} (h : s.Wf k) : (addBar s c o team).Wf k := modCore_wf h
theorem execBari_wf {h : LaneHdr} {ro rn : SReg} {s : State} (h1 : s.Wf k) : OutWf k (execBari h ro rn s) := by
  unfold execBari
  refine onPath_wf (fun _ _ hx => ?_) h1
  extract_lets off n
  split
  · exact trapHere_wf h1 hx
  · split
    · exact trapHere_wf h1 hx
    · exact syncDone_wf (addBar_wf (writeBar_wf h1)) hx
theorem execArrive_wf {h : LaneHdr} {ro : SReg} {s : State} (h1 : s.Wf k) : OutWf k (execArrive h ro s) := by
  unfold execArrive
  refine onPath_wf (fun g p hg => ?_) h1
  extract_lets off s1
  split
  · exact trapHere_wf h1 hg
  · refine ite_outWf h1 ?_
    split
    · exact trapHere_wf h1 hg
    · extract_lets b g1 s2
      have hs2 : s2.Wf k := barSettle_wf (setGroup_wf (cleanScope_wf h1) hg)
      split
      · next g2 hg2 => exact syncDone_wf hs2 (hs2.find hg2)
      · exact hs2
theorem execBwait_wf {h : LaneHdr} {ro : SReg} {s : State} (h1 : s.Wf k) : OutWf k (execBwait h ro s) := by
  unfold execBwait
  refine onPath_wf (fun _ _ hx => ?_) h1
  extract_lets off
  split
  · exact trapHere_wf h1 hx
  · extract_lets b
    split
    · exact trapHere_wf h1 hx
    · exact laneIssue_wf (barMeet_wf h1) hx
theorem queueWait_wf {s : State} {gid : ℕ} {r : Req} {t : State → Path → TrapInfo} (h : s.Wf k) : (queueWait s gid r t).Wf k := by
  unfold queueWait
  split
  · exact h
  · next g hg =>
      have hg := h.find hg
      split
      · exact h
      · exact queueTrap_wf h hg
theorem waitTrap_wf {s : State} {gid : ℕ} {r : Req} {t : State → Path → TrapInfo} (h : s.Wf k) : (waitTrap s gid r t).Wf k :=
  takeDue_wf (queueWait_wf h)
theorem returnBwait_wf {s : State} {gid : ℕ} {g : Group} {r : Req} (h : s.Wf k) : (returnBwait s gid g r).Wf k := by
  unfold returnBwait
  split
  · extract_lets drop
    split
    · exact waitTrap_wf (finishAt_wf (ite_wf (modGroup_wf (fun _ hx => hx) h) h))
    · exact ite_wf (complete_wf (invalScope_wf (ite_wf (modGroup_wf (fun _ hx1 => hx1) h) h))) h
  · exact h
theorem execExpect_wf {h : LaneHdr} {ro rn : SReg} {s : State} (h1 : s.Wf k) : OutWf k (execExpect h ro rn s) := by
  unfold execExpect
  refine onPath_wf (fun g p hg => ?_) h1
  extract_lets off n
  refine ite_outWf (syncDone_wf h1 hg) ?_
  split
  · exact trapHere_wf h1 hg
  · extract_lets b s0 b1 as s1
    have hs1 : s1.Wf k := barSettle_wf (setGroup_wf (barMeet_wf h1) hg)
    split
    · exact trapHere_wf h1 hg
    · refine ite_outWf (trapHere_wf h1 hg) ?_
      split
      · next g1 hg1 => exact syncDone_wf hs1 (hs1.find hg1)
      · exact hs1
theorem execRoleset_wf {h : LaneHdr} {κ : BitVec 2} {s : State} (h1 : s.Wf k) : OutWf k (execRoleset h κ s) :=
  onPath_wf (fun _ _ hx => syncDone_wf h1 hx) h1
theorem modColl_wf {s : State} {c : ℕ} {f : Collective → Collective} (h : s.Wf k) : (modColl s c f).Wf k := h
theorem execXred_wf {h : LaneHdr} {op : XOp} {rh : SReg} {v : VReg} {s : State} (h1 : s.Wf k) : OutWf k (execXred h op rh v s) := by
  unfold execXred
  refine onPath_wf (fun _ _ hx => ?_) h1
  extract_lets hd
  split
  · exact trapHere_wf h1 hx
  · exact ite_outWf h1 (ite_outWf (trapHere_wf h1 hx) (laneIssue_wf h1 hx))
theorem leaveXred_wf {s : State} {c : ℕ} {r : Round} (h : s.Wf k) : (leaveXred s c r).Wf k := by
  unfold leaveXred
  refine ite_wf h ?_
  split
  · exact h
  · exact ite_wf (modColl_wf (cleanScope_wf h)) h
theorem writeWordsAt_wf {s : State} {pasid va : ℕ} {ws : List Word} (h : s.Wf k) : (writeWordsAt s pasid va ws).Wf k := by
  unfold writeWordsAt
  refine foldl_wf (fun _ _ ht => ?_) h
  split
  · exact homeWrite_wf ht
  · exact ht
theorem wakeXwait_wf {s : State} {c : ℕ} (h : s.Wf k) : (wakeXwait s c).Wf k := by
  unfold wakeXwait
  extract_lets done
  refine foldl_wf (fun _ _ ht => ?_) h
  refine foldl_wf (fun _ _ ht1 => ?_) ht
  split
  · exact ite_wf (complete_wf (invalScope_wf ht1)) ht1
  · exact ht1
theorem endRound_wf {s : State} {cn : ℕ} {c : Collective} {r : Round} {ws : List Word} {fl : Byte} (h : s.Wf k) :
    (endRound s cn c r ws fl).Wf k := by
  unfold endRound
  dsimp only
  refine wakeXwait_wf ?_
  split
  · exact complete_wf (invalScope_wf (modGroup_wf (fun _ hx => hx) (modColl_wf (writeWordsAt_wf h))))
  · exact modColl_wf (writeWordsAt_wf h)
theorem execXredRoundComplete_wf {cn : ℕ} {s : State} (h : s.Wf k) : OutWf k (execXredRoundComplete cn s) := by
  unfold execXredRoundComplete
  split
  · exact h
  · split
    · exact h
    · extract_lets s1
      split
      · exact leaveXred_wf h
      · split
        · exact leaveXred_wf h
        · exact ite_outWf (endRound_wf (leaveXred_wf h)) (leaveXred_wf h)
theorem execXwait_wf {h : LaneHdr} {rh : SReg} {s : State} (h1 : s.Wf k) : OutWf k (execXwait h rh s) := by
  unfold execXwait
  refine onPath_wf (fun _ _ hx => ?_) h1
  extract_lets hd
  split
  · exact trapHere_wf h1 hx
  · exact laneIssue_wf (ite_wf (invalScope_wf h1) h1) hx
theorem execCollectiveTimeout_wf {cn : ℕ} {s : State} (h : s.Wf k) : OutWf k (execCollectiveTimeout cn s) := by
  unfold execCollectiveTimeout
  split
  · exact h
  · split
    · exact h
    · split
      · exact ite_outWf (endRound_wf h) h
      · exact h

/-! ### The operations of Machine/Append -/

theorem execAppend_wf {h : LaneHdr} {rg ra rn : SReg} {s : State} (h1 : s.Wf k) : OutWf k (execAppend h rg ra rn s) := by
  unfold execAppend
  refine onPath_wf (fun _ _ hx => ?_) h1
  extract_lets base a n
  refine ite_outWf h1 ?_
  split
  · exact trapHere_wf h1 hx
  · refine ite_outWf (trapHere_wf h1 hx) ?_
    refine ite_outWf (trapHere_wf h1 hx) ?_
    refine ite_outWf (trapHere_wf h1 hx) ?_
    split
    · exact trapHere_wf h1 hx
    · exact needWalk_wf h1 hx
    · exact ite_outWf (trapHere_wf h1 hx) (laneIssueAt_wf h1 hx)
theorem returnAppend_wf {s : State} {gid : ℕ} {g : Group} {r : Req} (h : s.Wf k) : (returnAppend s gid g r).Wf k := by
  unfold returnAppend
  split
  · exact ite_wf (complete_wf (takeRecord_wf h)) h
  · exact h
theorem execApfence_wf {h : LaneHdr} {d rg : SReg} {s : State} (h1 : s.Wf k) : OutWf k (execApfence h d rg s) := by
  unfold execApfence
  refine onPath_wf (fun _ _ hx => ?_) h1
  extract_lets base
  split
  · exact trapHere_wf h1 hx
  · exact ite_outWf (laneIssue_wf h1 (sWritePair_wf hx)) (laneIssue_wf h1 hx)
theorem returnApfence_wf {s : State} {gid : ℕ} {g : Group} {r : Req} (h : s.Wf k) (hg : g.Wf k) : (returnApfence s gid g r).Wf k := by
  unfold returnApfence
  split
  · split
    · exact ite_wf (complete_wf (setGroup_wf h (putPath_wf (sWritePair_wf hg)))) h
    · exact h
  · exact h
theorem execSeal_wf {h : LaneHdr} {rg : SReg} {s : State} (h1 : s.Wf k) : OutWf k (execSeal h rg s) := by
  unfold execSeal
  refine onPath_wf (fun _ _ hx => ?_) h1
  extract_lets base
  split
  · exact trapHere_wf h1 hx
  · exact ite_outWf (laneIssue_wf h1 hx) (laneIssue_wf h1 hx)
theorem returnSeal_wf {s : State} {gid : ℕ} {g : Group} {r : Req} (h : s.Wf k) : (returnSeal s gid g r).Wf k := by
  unfold returnSeal
  split
  · extract_lets s1
    split
    · exact ite_wf (complete_wf (dropSegLines_wf (sealDue_wf h))) (sealDue_wf h)
    · exact sealDue_wf h
  · exact h
theorem execRecordDurable_wf {seg : ℕ} {s : State} (h : s.Wf k) : OutWf k (execRecordDurable seg s) := by
  unfold execRecordDurable
  split
  · exact ite_outWf (sealDue_wf (settleReplies_wf h)) h
  · exact h
theorem execSegmentFailure_wf {seg : ℕ} {s : State} (h : s.Wf k) : OutWf k (execSegmentFailure seg s) := h
theorem countWait_wf {s : State} {g : Group} {r : Req} (h : s.Wf k) : (countWait s g r).Wf k := ite_wf h h
theorem execStallToken_wf {gid id : ℕ} {s : State} (h : s.Wf k) : OutWf k (execStallToken gid id s) := by
  unfold execStallToken
  split
  · exact h
  · next g r hg =>
      have hg := h.findWith hg
      split
      · exact setGroup_wf h hg
      · split
        · exact foldl_wf (fun _ _ ht => modGroup_wf (fun _ hx => hx) ht) (countWait_wf h)
        · exact h
theorem execStallRelease_wf {gid id : ℕ} {s : State} (h : s.Wf k) : OutWf k (execStallRelease gid id s) := by
  unfold execStallRelease
  split
  · exact h
  · exact foldl_wf (fun _ _ ht => modGroup_wf (fun _ hx => hx) ht) h

/-! ### The operations of Machine/Wait -/

theorem recallStalled_wf {s : State} {ctx : ℕ} {c : Group} {i : Garnet} {id : ℕ} (h : s.Wf k) (hg : c.Wf k) :
    (recallStalled s ctx c i id).Wf k :=
  modGroup_wf (fun _ hx => hx) (recallCtx_wf (setGroup_wf h hg))
theorem execStorageTimeout_wf {gid id : ℕ} {s : State} (h : s.Wf k) : OutWf k (execStorageTimeout gid id s) := by
  unfold execStorageTimeout
  split
  · exact h
  · next g r hg =>
      have hg := h.findWith hg
      refine ite_outWf h ?_
      split
      · exact h
      · split
        · refine ite_outWf h ?_
          extract_lets s1
          have hs1 : s1.Wf k := recallStalled_wf h hg
          split
          · next x hg1 =>
              have hg1 := hs1.find hg1
              split
              · exact dueTrap_wf hs1 hg1
              · exact setGroup_wf hs1 hg1
          · exact hs1
        · exact ite_outWf h (dueTrap_wf h hg)
theorem execRejoinTimeout_wf {gid t : ℕ} {s : State} (h : s.Wf k) : OutWf k (execRejoinTimeout gid t s) := by
  unfold execRejoinTimeout
  split
  · split
    · exact ite_outWf h (takeDue_wf (timerActs_wf h))
    · exact h
  · exact h
theorem afterHandler_wf {s : State} {gid : ℕ} (h : s.Wf k) : (afterHandler s gid).Wf k :=
  takeDue_wf (foldl_wf (fun _ _ ht => timerActs_wf ht) (foldl_wf (fun _ _ ht1 => recallDue_wf ht1) h))
theorem execEret_wf {s : State} (h : s.Wf k) : OutWf k (execEret s) := by
  unfold execEret
  refine onPath_wf (fun _ _ hx => ?_) h
  split
  · exact trapHere_wf h hx
  · exact afterHandler_wf (leaveHandler_wf h hx)
theorem execExit_wf {s : State} (h : s.Wf k) : OutWf k (execExit s) := by
  unfold execExit
  refine onPath_wf (fun _ _ hx => ?_) h
  extract_lets g1 g11 s1 s2
  have hg11 : g11.Wf k := ite_groupWf hx hx
  have hs1 : s1.Wf k := setGroup_wf h (drainRecalls_wf (formAll_wf (drainRecalls_wf hg11)))
  have hs2 : s2.Wf k := ite_wf (afterHandler_wf hs1) (takeDue_wf hs1)
  exact tryRetire_wf hs2

/-! ### The operations of Machine/Requests -/

theorem execMemoryRequestReturn_wf {gid id : ℕ} {s : State} (h : s.Wf k) : OutWf k (execMemoryRequestReturn gid id s) := by
  unfold execMemoryRequestReturn
  split
  · exact h
  · next g r hg =>
      have hg := h.findWith hg
      refine ite_outWf h ?_
      split
      · exact returnMem_wf h
      · exact returnScalarReq_wf h
      · exact returnScalarReq_wf h
      · exact returnFence_wf h
      · exact returnFence_wf h
      · exact returnFence_wf h
      · exact returnLines_wf h
      · exact returnLines_wf h
      · exact returnScld_wf h
      · exact returnScld_wf h
      · exact returnAcc_wf h
      · exact returnAcc_wf h
      · exact ite_outWf h (returnBwait_wf h)
      · exact returnAppend_wf h
      · exact returnApfence_wf h hg
      · exact returnSeal_wf h
      · exact ite_outWf (complete_wf h) h
      · exact h
      · exact h
      · exact h
      · exact h
      · exact h
      · exact h
      · exact h
      · exact h

/-! ### The operations of Machine/Image -/

theorem imagePut_wf {g : Group} {s : State} {off : ℕ} {b : Byte} (h : s.Wf k) : (imagePut g s off b).Wf k := by
  unfold imagePut
  split
  · exact homePut_wf h
  · exact h
theorem writeFixed_wf {s : State} {gid n : ℕ} (h : s.Wf k) : (writeFixed s gid n).Wf k := by
  unfold writeFixed
  split
  · exact ite_wf h (freshCodewords_wf (foldl_wf (fun _ _ ht => imagePut_wf ht) h))
  · exact h
theorem syncImage_wf {s : State} {gid : ℕ} (h : s.Wf k) : (syncImage s gid).Wf k := by
  unfold syncImage
  split
  · exact ite_wf h (freshCodewords_wf (foldl_wf (fun _ _ ht => imagePut_wf ht) h))
  · exact h
theorem clearImage_wf {s : State} {gid : ℕ} (h : s.Wf k) : (clearImage s gid).Wf k := by
  unfold clearImage
  split
  · exact h.withMem (tabWf_filter _)
  · exact h
theorem copyImage_wf {s : State} {old new : Group} {bytes : ℕ} (h : s.Wf k) : (copyImage s old new bytes).Wf k := by
  unfold copyImage
  extract_lets t
  have ht1 : t.Wf k := foldl_wf (fun _ _ ht => imagePut_wf ht) h
  refine foldl_wf (fun _ _ ht2 => ?_) ht1
  split <;> exact ht2
theorem tabWf_foldl {α β : Type} [DecidableEq β] {d : β} {l : List α} {a : α → ℕ} {v : α → β} :
    tabWf d (l.foldl (fun t x => tabSet d t (a x) (v x)) []) = true :=
  foldl_keeps (P := fun t => tabWf d t = true) l (fun _ _ ht => tabWf_set _ _ ht) (tabWf_nil d)
theorem fixedFromImage_wf {rd : ℕ → ℕ → ℕ} {g : Group} (hg : g.Wf k) : (fixedFromImage rd g).Wf k := by
  cases k with
  | memory => trivial
  | registers =>
    obtain ⟨-, hv, -⟩ := hg
    exact ⟨tabWf_foldl, hv, tabWf_foldl⟩
  | keys => trivial
theorem readFixed_wf {s : State} {gid : ℕ} (h : s.Wf k) : (readFixed s gid).Wf k := by
  unfold readFixed
  split
  · next g hg =>
      have hg := h.find hg
      exact ite_wf h (ite_wf (fatal_wf h) (setGroup_wf h (fixedFromImage_wf hg)))
  · exact h
theorem writeLine_wf {s : State} {g : Group} {line : ℕ} (h : s.Wf k) : (writeLine s g line).Wf k := by
  unfold writeLine
  refine freshCodewords_wf ?_
  refine foldl_wf (fun _ _ ht => ?_) h
  split
  · exact homeWrite_wf ht
  · exact ht
theorem poisonLine_wf {s : State} {g : Group} {line : ℕ} (hg : g.Wf k) : (poisonLine s g line).Wf k :=
  foldl_groupWf (fun _ _ hx => ite_groupWf hx hx) hg
theorem dropLine_wf {s : State} {gid line : ℕ} (h : s.Wf k) : (dropLine s gid line).Wf k := by
  unfold dropLine
  split
  · next g hg =>
      have hg := h.find hg
      exact setGroup_wf (writeLine_wf h) hg
  · exact h
theorem dropLines_wf {s : State} {gid : ℕ} (h : s.Wf k) : (dropLines s gid).Wf k := by
  unfold dropLines
  split
  · exact foldl_wf (fun _ _ ht => dropLine_wf ht) h
  · exact h
theorem dropSealed_wf {s : State} {c : ℕ} (h : s.Wf k) : (dropSealed s c).Wf k := foldl_wf (fun _ _ ht => dropLines_wf ht) h

/-! ### The operations of Machine/Translate -/

theorem answerWalk_wf {s : State} {joined : List Walk} {w : Option Walked} (h : s.Wf k) : (answerWalk s joined w).Wf k :=
  foldl_wf (fun _ _ ht => modGroup_wf (fun _ hx => hx) ht) h
theorem retryMisses_wf {s : State} {st : ℕ} (h : s.Wf k) : (retryMisses s st).Wf k :=
  h.mapGroups (fun _ => by split <;> rfl) (fun _ he => by split <;> exact he)
theorem execTranslationWalk_wf {st : ℕ} {s : State} (h : s.Wf k) : OutWf k (execTranslationWalk st s) := by
  unfold execTranslationWalk
  extract_lets k1
  split
  · exact h
  · extract_lets same joined s1
    refine ite_outWf (retryMisses_wf h) ?_
    split
    · exact retryMisses_wf (answerWalk_wf (foldl_wf (fun _ _ ht => modCore_wf ht) h))
    · exact retryMisses_wf (answerWalk_wf h)
theorem execRegisterLineFetch_wf {gid line : ℕ} {s : State} (h : s.Wf k) : OutWf k (execRegisterLineFetch gid line s) := by
  unfold execRegisterLineFetch
  split
  · refine ite_outWf ?_ h
    extract_lets take
    refine ite_outWf (modGroup_wf (fun _ hx => poisonLine_wf hx) h) ?_
    split
    · exact modGroup_wf (fun _ hx1 => poisonLine_wf hx1) (dropLine_wf h)
    · exact h
  · exact h
theorem setMiss_wf {s : State} {gid pid : ℕ} {lane on : Bool} (h : s.Wf k) : (setMiss s gid pid lane on).Wf k :=
  modGroup_wf (fun _ hx => hx) h
theorem execInstructionFetchMiss_wf {gid pid : ℕ} {lane : Bool} {s : State} (h : s.Wf k) :
    OutWf k (execInstructionFetchMiss gid pid lane s) :=
  ite_outWf h (setMiss_wf h)
theorem execPromoteBlock_wf {blk : ℕ} {s : State} (h : s.Wf k) : OutWf k (execPromoteBlock blk s) := by
  unfold execPromoteBlock
  refine ite_outWf h ?_
  split
  · exact promoteTo_wf h
  · split
    · refine ite_outWf h ?_
      extract_lets s1
      have hs1 : s1.Wf k := demoteBlock_wf h
      split
      · exact promoteTo_wf hs1
      · exact hs1
    · exact h

/-! ### The operations of Machine/Queue -/

theorem advanceHead_wf {s : State} {qn : ℕ} {q : Queue} (h : s.Wf k) : (advanceHead s qn q).Wf k := by
  unfold advanceHead
  extract_lets _ s1 s2
  have hs2 : s2.Wf k := modQueue_wf h
  split
  · next hs => exact (fetcherWrite_wf hs2).of_eq hs
  · exact queueFail_wf hs2
theorem startPacket_wf {s : State} {qn : ℕ} {q : Queue} {bs : List Byte} {done bar : Bool} (h : s.Wf k) :
    (startPacket s qn q bs done bar).Wf k :=
  advanceHead_wf (modQueue_wf h)
theorem serve_wf {s : State} {qn : ℕ} {mine : List Byte → Bool} {f : Queue → List Byte → State} (hf : ∀ q bs, (f q bs).Wf k) (h : s.Wf k) :
    OutWf k (serve s qn mine f) := by
  unfold serve
  split
  · exact h
  · refine ite_outWf h ?_
    split
    · exact h
    · exact queueFail_wf h
    · exact modQueue_wf h
    · exact modQueue_wf (advanceHead_wf h)
    · exact ite_outWf (hf _ _) h
theorem reject_wf {s : State} {qn : ℕ} {q : Queue} {code : ℕ} (h : s.Wf k) : (reject s qn q code).Wf k := queueFail_wf h
theorem execLaunch_wf {qn : ℕ} {s : State} (h : s.Wf k) : OutWf k (execLaunch qn s) := by
  unfold execLaunch
  refine serve_wf ?_ h
  intro _ _
  split
  · exact reject_wf h
  · exact startPacket_wf h
theorem holdPacket_wf {s : State} {qn : ℕ} (h : s.Wf k) : (holdPacket s qn).Wf k := modQueue_wf h
theorem execCopy_wf {qn : ℕ} {s : State} (h : s.Wf k) : OutWf k (execCopy qn s) := by
  unfold execCopy
  refine serve_wf ?_ h
  intro _ _
  extract_lets n
  refine ite_wf (reject_wf h) ?_
  split
  · exact reject_wf h
  · exact ite_wf (holdPacket_wf h) (addSub_wf (startPacket_wf h))
theorem execTask_wf {qn : ℕ} {s : State} (h : s.Wf k) : OutWf k (execTask qn s) := by
  unfold execTask
  refine serve_wf ?_ h
  intro _ _
  extract_lets st t cnt
  refine ite_wf (reject_wf h) ?_
  split
  · exact reject_wf h
  · refine ite_wf (reject_wf h) ?_
    refine ite_wf (reject_wf h) ?_
    refine ite_wf (holdPacket_wf h) ?_
    extract_lets s1
    have hs1 : s1.Wf k := taskDefine_wf (startPacket_wf h)
    split
    · exact ite_wf (packetDone_wf hs1) hs1
    · exact hs1
theorem execBarrier_wf {qn : ℕ} {s : State} (h : s.Wf k) : OutWf k (execBarrier qn s) :=
  serve_wf (fun _ _ => ite_wf (startPacket_wf h) (reject_wf h)) h
theorem memReq_wf {s : State} {qn op : ℕ} {f : State → Queue → ℕ → ℕ → State × Bool} (hf : ∀ s q b l, s.Wf k → (f s q b l).1.Wf k)
    (h : s.Wf k) :
    OutWf k (memReq s qn op f) := by
  unfold memReq
  refine serve_wf (fun q bs => ?_) h
  extract_lets base len s1 r
  have hs1 : s1.Wf k := startPacket_wf h
  have hr : r.1.Wf k := hf _ _ _ _ hs1
  exact ite_wf (reject_wf h) (ite_wf (reject_wf h) (ite_wf (queueFail_wf hs1) (ite_wf (queueFail_wf hr) hr)))
theorem deferInval_wf {s : State} {qn idx base len : ℕ} (h : s.Wf k) : (deferInval s qn idx base len).Wf k := modQueue_wf h
theorem execInvalidateTranslations_wf {qn : ℕ} {s : State} (h : s.Wf k) : OutWf k (execInvalidateTranslations qn s) :=
  memReq_wf (fun _ _ _ _ ht => ite_wf (invalRange_wf ht) (deferInval_wf ht)) h
theorem prefaultRecord_wf {s : State} {pasid va code : ℕ} (h : s.Wf k) : (prefaultRecord s pasid va code).Wf k := h
theorem execPrefault_wf {qn : ℕ} {s : State} (h : s.Wf k) : OutWf k (execPrefault qn s) := by
  unfold execPrefault
  refine memReq_wf (fun s q b l hs => ?_) h
  refine foldl_keeps (P := fun r : State × Bool => r.1.Wf k) _ (fun r i hr => ?_) hs
  split
  · split
    · exact prefaultRecord_wf hr
    · exact hr
  · exact hr
theorem execDemote_wf {qn : ℕ} {s : State} (h : s.Wf k) : OutWf k (execDemote qn s) :=
  memReq_wf (fun _ _ _ _ ht => foldl_wf (fun _ _ ht1 => demoteBlock_wf ht1) ht) h
theorem execPrefetchToHbm_wf {qn : ℕ} {s : State} (h : s.Wf k) : OutWf k (execPrefetchToHbm qn s) := by
  unfold execPrefetchToHbm
  refine memReq_wf ?_ h
  intro _ _ _ _ ht
  refine foldl_wf (fun _ _ ht1 => ?_) ht
  split
  · exact promoteHint_wf ht1
  · exact ht1
theorem condDone_wf {s : State} {qn : ℕ} {q : Queue} {bs : List Byte} {skip : Bool} (h : s.Wf k) : (condDone s qn q bs skip).Wf k :=
  modQueue_wf (startPacket_wf h)
theorem condSkip_wf {s : State} {qn act : ℕ} {on : Bool} (h : s.Wf k) : OutWf k (condSkip s qn act on) := by
  unfold condSkip
  refine serve_wf ?_ h
  intro _ _
  refine ite_wf (reject_wf h) ?_
  split
  · exact reject_wf h
  · exact condDone_wf h
theorem execConditionalSkip_wf {qn : ℕ} {s : State} (h : s.Wf k) : OutWf k (execConditionalSkip qn s) := condSkip_wf h
theorem execConditionalJump_wf {qn : ℕ} {s : State} (h : s.Wf k) : OutWf k (execConditionalJump qn s) := condSkip_wf h
theorem execConditionalRepeat_wf {qn : ℕ} {s : State} (h : s.Wf k) : OutWf k (execConditionalRepeat qn s) := by
  unfold execConditionalRepeat
  refine serve_wf ?_ h
  intro _ _
  refine ite_wf (reject_wf h) ?_
  split
  · exact reject_wf h
  · exact condDone_wf h
  · exact modQueue_wf h
theorem execRepeatTimeout_wf {qn : ℕ} {s : State} (h : s.Wf k) : OutWf k (execRepeatTimeout qn s) := by
  unfold execRepeatTimeout
  refine serve_wf ?_ h
  intro _ _
  extract_lets lim
  refine ite_wf h ?_
  split
  · exact reject_wf h
  · exact condDone_wf h
  · exact condDone_wf (putStatus_wf h)
theorem execLineWatchFire_wf {line : ℕ} {s : State} (h : s.Wf k) : OutWf k (execLineWatchFire line s) := by
  unfold execLineWatchFire
  refine foldl_wf (fun t e ht => ?_) h
  extract_lets q s1
  have hs1 : s1.Wf k := by
    refine ite_wf ?_ ht
    split
    · exact modQueue_wf ht
    · exact queueFail_wf ht
  exact ite_wf ht (modQueue_wf hs1)
theorem cleanAll_wf {s : State} (h : s.Wf k) : (cleanAll s).Wf k := foldl_wf (fun _ _ ht => cleanCore_wf ht) h
theorem doSignal_wf {s : State} {pasid : ℕ} {p : Packet} (h : s.Wf k) : OptWf k (doSignal s pasid p) :=
  ite_optWf h (map_wf (fun _ => homeWrite_wf h))
theorem endPacket_wf {s : State} {qn : ℕ} {q : Queue} {p : Packet} (h : s.Wf k) : (endPacket s qn q p).Wf k := by
  unfold endPacket
  extract_lets s1 s2
  have hs2 : s2.Wf k := by
    unfold s2
    split
    · next s3 hs =>
        have hs := (doSignal_wf (modQueue_wf h)).of_eq hs
        exact hs
    · exact queueFail_wf (modQueue_wf h)
  exact ite_wf (raiseIrq_wf hs2) hs2
theorem execPacketComplete_wf {qn idx : ℕ} {s : State} (h : s.Wf k) : OutWf k (execPacketComplete qn idx s) := by
  unfold execPacketComplete
  split
  · exact h
  · split
    · exact h
    · refine ite_outWf h ?_
      extract_lets s1 s2
      have hs1 : s1.Wf k := by
        unfold s1
        split
        · exact ite_wf h (packetDone_wf (invalRange_wf h))
        · exact h
      exact ite_wf (cleanAll_wf hs1) (endPacket_wf (cleanAll_wf hs1))
theorem execItemFeed_wf {ln : ℕ} {s : State} (h : s.Wf k) : OutWf k (execItemFeed ln s) := by
  unfold execItemFeed
  split
  · exact h
  · refine ite_outWf h ?_
    split
    · exact h
    · extract_lets put
      split
      · exact modCore_wf h
      · refine ite_outWf h ?_
        split
        · exact h
        · exact modCore_wf h

/-! ### The operations of Machine/Place -/

theorem seatNew_wf {s : State} {cl : ℕ} {κ : Kernel} {core idx : ℕ} {x : Seat} (h : s.Wf k) : (seatNew s cl κ core idx x).Wf k := by
  unfold seatNew
  extract_lets team ids s1 s2
  have hs1 : s1.Wf k := h.withTeams (tabSorted_put _ _)
  have hs2 : s2.Wf k := foldl_wf (fun _ _ ht => setGroup_wf ht (Group.wf_of_empty rfl rfl rfl)) hs1
  exact hs2
theorem seatSaved_wf {s : State} {core team : ℕ} {x : Seat} (h : s.Wf k) : (seatSaved s core team x).Wf k := by
  unfold seatSaved
  split
  · exact h
  · extract_lets s1 s2
    have hs2 : s2.Wf k := ite_wf (modTeam_wf h) (foldl_wf (fun _ _ ht => modGroup_wf (fun _ hx => hx) (dropLines_wf ht)) (modTeam_wf h))
    exact foldl_wf (fun _ _ ht1 => modGroup_wf (fun _ hx1 => hx1) ht1) hs2
theorem seatCluster_wf {s : State} {cl ox oy : ℕ} (h : s.Wf k) : (seatCluster s cl ox oy).Wf k := by
  unfold seatCluster
  split
  · exact h
  · split
    · exact h
    · extract_lets k1 old s1
      refine foldl_wf (fun _ _ ht => ?_) h
      split
      · exact ht
      · refine foldl_wf (fun _ _ ht1 => ?_) ht
        split
        · exact seatSaved_wf ht1
        · exact seatNew_wf ht1
theorem postRequest_wf {s : State} {cl x y : ℕ} (h : s.Wf k) : (postRequest s cl x y).Wf k := h
theorem newCluster_wf {s : State} {ln : ℕ} {l : Launch} (h : s.Wf k) : (newCluster s ln l).Wf k := h
theorem tryLaunch_wf {ln n : ℕ} {r : State × State} (h : r.1.Wf k) : (tryLaunch ln n r).1.Wf k := by
  induction n generalizing r with
  | zero => exact h
  | succ n ih =>
    unfold tryLaunch
    split
    · exact h
    · split
      · exact h
      · split
        · exact h
        · exact ih (postRequest_wf (newCluster_wf h))
theorem tryOne_wf {r : (State × State) × List ℕ} {w : Waiting} (h : r.1.1.Wf k) : (tryOne r w).1.1.Wf k := by
  unfold tryOne
  split
  · exact h
  · split
    · split
      · split
        · exact postRequest_wf h
        · exact h
      · exact h
    · exact tryLaunch_wf h
    · exact h
theorem execPlacementSearch_wf {s : State} (h : s.Wf k) : OutWf k (execPlacementSearch s) := by
  unfold execPlacementSearch
  refine ite_outWf h ?_
  extract_lets r
  have hr : r.Wf k := foldl_keeps (P := fun r : (State × State) × List ℕ => r.1.1.Wf k) _ (fun _ _ hr => tryOne_wf hr) h
  exact hr
theorem scrub_wf {s : State} {c pasid : ℕ} (h : s.Wf k) : (scrub s c pasid).Wf k := ite_wf h (modCore_wf (cleanCore_wf (dropSealed_wf h)))
theorem bindCore_wf {s : State} {c pasid : ℕ} (h : s.Wf k) : (bindCore s c pasid).Wf k := modCore_wf (scrub_wf h)
theorem prepareTeam_wf {s : State} {team : ℕ} {ps : List (List Dword)} (h : s.Wf k) : (prepareTeam s team ps).Wf k := by
  unfold prepareTeam
  split
  · exact h
  · exact modCore_wf h
theorem giveSave_wf {s : State} {team : ℕ} (h : s.Wf k) : OptWf k (giveSave s team) := by
  unfold giveSave
  split
  · exact h
  · exact map_wf (fun _ => modTeam_wf h)
theorem giveSaves_wf {s : State} {cls : List ℕ} (h : s.Wf k) : OptWf k (giveSaves s cls) :=
  foldl_optWf (fun _ _ ht => giveSave_wf ht) (foldl_wf (fun _ _ ht => modTeam_wf ht) h)
theorem giveImage_wf {s : State} {gid : ℕ} (h : s.Wf k) : OptWf k (giveImage s gid) := by
  unfold giveImage
  split
  · exact h
  · next g hg =>
      have hg := h.find hg
      exact ite_optWf h (map_wf (fun _ => setGroup_wf h hg))
theorem giveImages_wf {s : State} {cl : ℕ} (h : s.Wf k) : OptWf k (giveImages s cl) :=
  foldl_optWf (fun _ _ ht => giveImage_wf ht) h
theorem newImage_wf {s : State} {gid : ℕ} (h : s.Wf k) : (newImage s gid).Wf k := writeFixed_wf (clearImage_wf h)
theorem moveImage_wf {s : State} {gid : ℕ} {old : Group} (h : s.Wf k) : (moveImage s gid old).Wf k := by
  unfold moveImage
  split
  · exact ite_wf h (copyImage_wf h)
  · exact h
theorem carryOut_wf {s : State} {cl : ℕ} {l : Launch} {x y : ℕ} {ps : List (List Dword)} (h : s.Wf k) : (carryOut s cl l x y ps).Wf k := by
  unfold carryOut
  extract_lets cores resumed s1 old s2 s3 s4 s5 s6
  have hs1 : s1.Wf k := foldl_wf (fun _ _ ht => bindCore_wf ht) h
  have hs2 : s2.Wf k := seatCluster_wf hs1
  have hs3 : s3.Wf k := getD_wf (giveImages_wf hs2) hs2
  have hs4 : s4.Wf k := ite_wf (foldl_wf (fun _ _ ht1 => moveImage_wf ht1) hs3) (foldl_wf (fun _ _ ht2 => newImage_wf ht2) hs3)
  have hs5 : s5.Wf k := foldl_wf (fun _ _ ht3 => setUnits_wf ht3) hs4
  have hs6 : s6.Wf k := ite_wf (foldl_wf (fun _ _ ht4 => modCore_wf ht4) hs5) hs5
  exact ite_wf hs6 (foldl_wf (fun _ _ ht5 => prepareTeam_wf ht5) hs6)
theorem refuseRequest_wf {s : State} {cl : ℕ} (h : s.Wf k) : (refuseRequest s cl).Wf k := by
  unfold refuseRequest
  split <;> exact h
theorem execPlacementRequest_wf {s : State} (h : s.Wf k) : OutWf k (execPlacementRequest s) := by
  unfold execPlacementRequest
  split
  · exact h
  · extract_lets s1
    split
    · exact h
    · split
      · exact h
      · split
        · exact refuseRequest_wf h
        · exact ite_outWf (carryOut_wf h) (refuseRequest_wf h)
theorem finishLaunch_wf {s : State} {ln : ℕ} (h : s.Wf k) : (finishLaunch s ln).Wf k := h
theorem execLaunchComplete_wf {ln : ℕ} {s : State} (h : s.Wf k) : OutWf k (execLaunchComplete ln s) := by
  unfold execLaunchComplete
  dsimp only
  split
  · exact h
  · refine ite_outWf h ?_
    refine ite_outWf h ?_
    refine ite_outWf h ?_
    refine ite_outWf (cleanAll_wf h) ?_
    refine packetDone_wf ?_
    split
    · next s1 hs =>
        have hs := (fetcherWrite_wf (finishLaunch_wf (cleanAll_wf h))).of_eq hs
        exact hs
    · exact queueFail_wf (finishLaunch_wf (cleanAll_wf h))

/-! ### The operations of Machine/Preempt -/

theorem execPreemptDecision_wf {s : State} (h : s.Wf k) : OutWf k (execPreemptDecision s) := by
  unfold execPreemptDecision
  split
  · exact h
  · exact foldl_wf (fun _ _ ht => ht) (getD_wf (giveSaves_wf h) h)
theorem stopCluster_wf {s : State} {teams : List ℕ} (h : s.Wf k) : (stopCluster s teams).Wf k := by
  unfold stopCluster
  extract_lets gs s1 s2
  have hs1 : s1.Wf k := foldl_wf (fun _ _ ht => modGroup_wf (fun _ hx => hx) ht) h
  have hs2 : s2.Wf k := foldl_wf (fun _ _ ht1 => modTeam_wf ht1) hs1
  exact hs2
theorem execStopNotice_wf {cl : ℕ} {s : State} (h : s.Wf k) : OutWf k (execStopNotice cl s) := by
  unfold execStopNotice
  split
  · exact ite_outWf (stopCluster_wf h) h
  · exact h
theorem sealGroup_wf {s : State} {gid : ℕ} (h : s.Wf k) : (sealGroup s gid).Wf k :=
  writeFixed_wf (modGroup_wf (fun _ hx => landAll_wf hx) h)
theorem execSaveStart_wf {cl : ℕ} {s : State} (h : s.Wf k) : OutWf k (execSaveStart cl s) := by
  unfold execSaveStart
  split
  · refine ite_outWf ?_ h
    split
    · exact h
    · next s1 hs =>
        have hs := (giveSaves_wf h).of_eq hs
        exact foldl_wf (fun _ _ ht => sealGroup_wf ht) (stopCluster_wf hs)
  · exact h
theorem writeArea_wf {s : State} {x : SavedTeam} (h : s.Wf k) : (writeArea s x).Wf k := by
  unfold writeArea
  split
  · split
    · exact freshCodewords_wf (foldl_wf (fun _ _ ht => homePut_wf ht) h)
    · exact h
  · exact h
theorem takeBackItems_wf {s : State} {core ln : ℕ} (h : s.Wf k) : (takeBackItems s core ln).Wf k := by
  unfold takeBackItems
  split
  · exact h
  · exact ite_wf h (modCore_wf h)
theorem evictAll_wf {s : State} {c : ℕ} (h : s.Wf k) : (evictAll s c).Wf k := modCore_wf (cleanCore_wf h)
theorem execSaveComplete_wf {cl : ℕ} {s : State} (h : s.Wf k) : OutWf k (execSaveComplete cl s) := by
  unfold execSaveComplete
  split
  · exact h
  · refine ite_outWf h ?_
    extract_lets cores s1 here areas s2 s3 s4 s5 s6 s7
    have hs1 : s1.Wf k := foldl_wf (fun _ _ ht => evictAll_wf ht) h
    have hs2 : s2.Wf k := foldl_wf (fun _ _ ht1 => writeArea_wf ht1) hs1
    have hs3 : s3.Wf k := foldl_wf (fun _ _ ht2 => modCore_wf ht2) hs2
    have hs4 : s4.Wf k := foldl_wf (fun _ _ ht3 => releaseTeam_wf ht3) hs3
    have hs5 : s5.Wf k := foldl_wf (fun _ _ ht4 => modGroup_wf (fun _ hx => hx) ht4) hs4
    have hs7 : s7.Wf k := foldl_wf (fun _ _ ht5 => takeBackItems_wf ht5) hs5
    exact foldl_wf (fun _ _ ht6 => setUnits_wf ht6) hs7
theorem restoreTeam_wf {s : State} {x : SavedTeam} (h : s.Wf k) : (restoreTeam s x).Wf k := by
  unfold restoreTeam
  split
  · exact h
  · exact modCore_wf h
theorem wakeGroup_wf {now : ℕ} {g : Group} (hg : g.Wf k) : (wakeGroup now g).Wf k := ite_groupWf hg hg
theorem releaseGroup_wf {s : State} {gid : ℕ} (h : s.Wf k) : (releaseGroup s gid).Wf k := by
  unfold releaseGroup
  extract_lets s1
  have hs1 : s1.Wf k := modGroup_wf (fun _ hx => ite_groupWf (ite_groupWf hx hx) (ite_groupWf hx hx)) h
  split
  · exact ite_wf hs1 (takeDue_wf hs1)
  · exact hs1
theorem answerGroup_wf {s : State} {gid : ℕ} {r : TrapRec} {v : Word} (h : s.Wf k) : (answerGroup s gid r v).Wf k := by
  unfold answerGroup
  dsimp only
  split
  · exact h
  · next g hg =>
      have hg := h.find hg
      refine ite_wf h ?_
      refine ite_wf (setGroup_wf h hg) ?_
      refine releaseGroup_wf ?_
      refine setGroup_wf h ?_
      refine ite_groupWf ?_ hg
      split
      · refine putPath_wf ?_
        split
        · exact sWrite_wf hg
        · exact hg
      · exact hg
theorem applyReply_wf {s : State} {gid : ℕ} (h : s.Wf k) : (applyReply s gid).Wf k := by
  unfold applyReply
  split
  · next g r v hg =>
      have hg := h.findWith hg
      exact answerGroup_wf (setGroup_wf h hg)
  · exact h
theorem execResumeRestore_wf {cl : ℕ} {s : State} (h : s.Wf k) : OutWf k (execResumeRestore cl s) := by
  unfold execResumeRestore
  split
  · exact h
  · refine ite_outWf h ?_
    extract_lets cores s1 s2 s3 s4 gs s5 s6 s7 s8 s9 s10 s11
    have hs1 : s1.Wf k := foldl_wf (fun _ _ ht => evictAll_wf ht) h
    have hs2 : s2.Wf k := foldl_wf (fun _ _ ht1 => restoreTeam_wf ht1) hs1
    have hs4 : s4.Wf k := foldl_wf (fun _ _ ht2 => modTeam_wf ht2) hs2
    have hs5 : s5.Wf k := foldl_wf (fun _ _ ht3 => readFixed_wf (syncImage_wf ht3)) hs4
    have hs6 : s6.Wf k := foldl_wf (fun _ _ ht4 => modGroup_wf (fun _ hx => hx) ht4) hs5
    have hs7 : s7.Wf k := foldl_wf (fun _ _ ht5 => modGroup_wf (fun _ hx1 => wakeGroup_wf hx1) ht5) hs6
    have hs9 : s9.Wf k := foldl_wf (fun _ _ ht6 => applyReply_wf ht6) hs7
    have hs10 : s10.Wf k := foldl_wf (fun _ _ ht7 => takeDue_wf ht7) hs9
    have hs11 : s11.Wf k := foldl_wf (fun _ _ ht8 => fireAll_wf ht8) hs10
    exact settleAll_wf hs11
theorem groupFromImage_wf {now regs : ℕ} {rd : ℕ → ℕ → ℕ} {pz : ℕ → Bool} {cur : ℕ → Option ℕ} {g : Group} {x : SnapGroup} (hg : g.Wf k) :
    (groupFromImage now regs rd pz cur g x).Wf k := by
  unfold groupFromImage
  refine (fixedFromImage_wf (rd := rd) hg).withVreg (fun _ => ?_)
  exact foldl_keeps (P := fun t => tabWf 0 t = true) _ (fun _ _ ht => tabWf_set _ _ ht) (tabWf_nil 0)
theorem snapPut_wf {s : State} {st pasid va : ℕ} {b : Byte} (h : s.Wf k) : (snapPut s st pasid va b).Wf k := by
  unfold snapPut
  split
  · exact homePut_wf h
  · exact h
theorem releaseSnap_wf {s : State} {g : Group} (hg : g.Wf k) : (releaseSnap s g).Wf k := landAll_wf hg
theorem commitSnap_wf {s : State} {team : ℕ} {tm : Team} {κ : Kernel} {pasid base : ℕ} (h : s.Wf k) :
    (commitSnap s team tm κ pasid base).Wf k := by
  unfold commitSnap
  extract_lets st s1 gens half at_ s2 gs old s3 gen s4 s5 snap s6
  have hs1 : s1.Wf k := foldl_wf (fun _ _ ht => evictAll_wf ht) h
  have hs2 : s2.Wf k := foldl_wf (fun _ _ ht1 => modGroup_wf (fun _ hx => releaseSnap_wf hx) ht1) hs1
  have hs3 : s3.Wf k := foldl_wf (fun _ _ ht2 => snapPut_wf ht2) hs2
  have hs4 : s4.Wf k := foldl_wf (fun _ _ ht3 => snapPut_wf ht3) hs3
  have hs5 : s5.Wf k := freshCodewords_wf hs4
  exact modTeam_wf hs5
theorem execSnap_wf {s : State} (h : s.Wf k) : OutWf k (execSnap s) := by
  unfold execSnap
  refine onPath_wf (fun _ _ hx => ?_) h
  extract_lets k1
  refine ite_outWf (trapHere_wf h hx) ?_
  refine ite_outWf (trapHere_wf h hx) ?_
  split
  · refine ite_outWf ?_ (keep_wf h hx)
    split
    · exact trapHere_wf h hx
    · exact commitSnap_wf (keep_wf h hx)
  · exact h
theorem dropEntries_wf {s : State} {core team : ℕ} (h : s.Wf k) : (dropEntries s core team).Wf k :=
  pump_wf (foldl_wf (fun _ _ ht => unpin_wf ht) (setCore_wf h))
theorem rollStart_wf {s : State} {team : ℕ} {tm : Team} {gid pid : ℕ} (h : s.Wf k) : (rollStart s team tm gid pid).Wf k := by
  unfold rollStart
  extract_lets s1 s2 cut keepRec s3 s4
  have hs1 : s1.Wf k := foldl_wf (fun _ _ ht => drainAccesses_wf ht) h
  have hs2 : s2.Wf k := hs1.filterGroups _
  have hs4 : s4.Wf k := foldl_wf (fun _ _ ht1 => modGroup_wf (fun _ hx => hx) ht1) hs2
  exact modTeam_wf (dropEntries_wf hs4)
theorem rollTokens_wf {s : State} {core team : ℕ} (h : s.Wf k) : (rollTokens s core team).Wf k :=
  modCore_wf (foldl_wf (fun _ _ ht => zeroTile_wf ht) h)
theorem rollBack_wf {s : State} {team : ℕ} {tm : Team} {κ : Kernel} {pasid at_ : ℕ} {x : TeamSnap} (h : s.Wf k) :
    (rollBack s team tm κ pasid at_ x).Wf k := by
  unfold rollBack
  extract_lets st img pz part old s1 bad s2 cur gs s3 s4 s5
  have hs1 : s1.Wf k := foldl_wf (fun _ _ ht => spadPut_wf ht) h
  have hs2 : s2.Wf k := modCore_wf hs1
  have hgs : ∀ e ∈ gs, e.2.Wf k := by
    intro e he
    obtain ⟨y, -, hy⟩ := List.mem_filterMap.mp he
    obtain ⟨g, hg, rfl⟩ := Option.map_eq_some_iff.mp hy
    exact groupFromImage_wf (hs2.find hg)
  have hs3 : s3.Wf k := foldl_mem_wf (fun _ e he ht => setGroup_wf ht (hgs e he)) hs2
  exact modTeam_wf (rollTokens_wf hs3)
theorem rollEnd_wf {s : State} {g : Group} {p : Path} {i : ℕ} (h : s.Wf k) (hg : g.Wf k) : OutWf k (rollEnd s g p i) := by
  unfold rollEnd
  dsimp only
  split
  · refine ite_outWf (dropEntries_wf h) ?_
    split
    · exact trapHere_wf (modTeam_wf (foldl_wf (fun _ _ ht => evictAll_wf ht) (dropEntries_wf h))) hg
    · split
      · exact trapHere_wf (modTeam_wf (foldl_wf (fun _ _ ht1 => evictAll_wf ht1) (dropEntries_wf h))) hg
      · refine ite_outWf (trapHere_wf (modTeam_wf (foldl_wf (fun _ _ ht2 => evictAll_wf ht2) (dropEntries_wf h))) hg) ?_
        split
        · exact trapHere_wf (modTeam_wf (foldl_wf (fun _ _ ht3 => evictAll_wf ht3) (dropEntries_wf h))) hg
        · exact rollBack_wf (foldl_wf (fun _ _ ht4 => evictAll_wf ht4) (dropEntries_wf h))
  · exact h
theorem mismatch_wf {s : State} {g : Group} {i : ℕ} (h : s.Wf k) : OutWf k (mismatch s g i) := by
  unfold mismatch
  split
  · exact h
  · exact onPath_wf (fun _ _ hx => rollEnd_wf (rollStart_wf h) hx) (rollStart_wf h)
theorem execSigchk_wf {i : BitVec 14} {s : State} (h : s.Wf k) : OutWf k (execSigchk i s) := by
  unfold execSigchk
  refine onPath_wf (fun _ _ hx => ?_) h
  extract_lets k1
  refine ite_outWf (keep_wf h hx) ?_
  refine ite_outWf (rollEnd_wf h hx) ?_
  split
  · exact mismatch_wf h
  · split
    · exact ite_outWf (keep_wf h hx) (mismatch_wf h)
    · exact needWalk_wf h hx
    · exact trapHere_wf h hx

/-! ### The operations of Machine/Reliab -/

theorem markEntry_wf {s : State} {t : ℕ × ℕ} {i : ℕ} (h : s.Wf k) : (markEntry s t i).Wf k := by
  unfold markEntry
  split
  · exact homePut_wf h
  · exact h
theorem correctByte_wf {s : State} {pa byte : ℕ} (h : s.Wf k) : (correctByte s pa byte).Wf k := by
  unfold correctByte
  refine ite_wf h ?_
  extract_lets s1
  split <;> exact h
theorem copyError_wf {s : State} {retired : Bool} {copy f : ℕ} (h : s.Wf k) : (copyError s retired copy f).Wf k := ite_wf h (ite_wf h h)
theorem poisonAt_wf {s : State} {pa : ℕ} (h : s.Wf k) : (poisonAt s pa).Wf k := by
  unfold poisonAt
  extract_lets frame s1 s2
  have hs2 : s2.Wf k := by
    unfold s2
    split <;> exact h
  exact foldl_wf (fun _ _ ht => foldl_wf (fun _ _ ht1 => markEntry_wf ht1) ht) hs2
theorem execFramePoison_wf {pa : ℕ} {s : State} (h : s.Wf k) : OutWf k (execFramePoison pa s) := ite_outWf h (poisonAt_wf h)
theorem eccAlone_wf {s : State} {lane pa x : ℕ} (h : s.Wf k) : (eccAlone s lane pa x).Wf k := by
  unfold eccAlone
  split
  · exact h
  · exact ite_wf h (correctByte_wf h)
  · exact ite_wf h (poisonAt_wf h)
theorem execParityRetry_wf {core grp lane pa tries : ℕ} {s : State} (h : s.Wf k) : OutWf k (execParityRetry core grp lane pa tries s) := by
  unfold execParityRetry
  extract_lets c ok swap alone retries s1 entry s2 s3
  have hs1 : s1.Wf k := modCore_wf h
  have hs3 : s3.Wf k := hs1
  exact ite_outWf h (ite_wf (eccAlone_wf hs3) hs3)
theorem deviceEvent_wf {s : State} {gid code : ℕ} (h : s.Wf k) : (deviceEvent s gid code).Wf k := by
  unfold deviceEvent
  split
  · exact fatal_wf h
  · exact h
theorem degrade_wf {s : State} {st : ℕ} (h : s.Wf k) : (degrade s st).Wf k := by
  unfold degrade
  refine ite_wf h ?_
  extract_lets s1 s2 hit
  refine foldl_wf (fun _ _ ht => ?_) h
  split
  · exact deviceEvent_wf ht
  · exact ht
theorem execStackDegrade_wf {st : ℕ} {s : State} (h : s.Wf k) : OutWf k (execStackDegrade st s) := degrade_wf h
theorem rowRead_wf {s : State} {st row : ℕ} (h : s.Wf k) : (rowRead s st row).Wf k := by
  unfold rowRead
  split
  · exact h
  · exact degrade_wf h
theorem rowRemap_wf {s : State} {st row : ℕ} {w : Word} (h : s.Wf k) : (rowRemap s st row w).Wf k := ite_wf h h
theorem rowError_wf {s : State} {st row copy : ℕ} {w : Word} (h : s.Wf k) : (rowError s st row copy w).Wf k := ite_wf h h
theorem rebuildRows_wf {s : State} (h : s.Wf k) : (rebuildRows s).Wf k := h
theorem execUncorrectableStorageError_wf {gid kind idx : ℕ} {s : State} (h : s.Wf k) :
    OutWf k (execUncorrectableStorageError gid kind idx s) := by
  unfold execUncorrectableStorageError
  split
  · exact h
  · next g hg =>
      have hg := h.find hg
      refine ite_outWf h ?_
      refine ite_outWf (ite_outWf (setGroup_wf h hg) h) ?_
      split
      · exact ite_wf (modCore_wf h) h
      · exact ite_outWf (ite_wf (modCore_wf h) h) (ite_outWf (killContext_wf h) (deviceEvent_wf h))
theorem beginLife_wf {s : State} {st : ℕ} (h : s.Wf k) : (beginLife s st).Wf k := by
  unfold beginLife
  extract_lets z key
  split <;> exact h
theorem endLife_wf {s : State} {st : ℕ} (h : s.Wf k) : (endLife s st).Wf k := by
  unfold endLife
  split
  · exact sealDue_wf h
  · exact h
theorem appendLife_wf {s : State} {st : ℕ} (h : s.Wf k) : (appendLife s st).Wf k := by
  unfold appendLife
  extract_lets bytes s1 s2
  have hs2 : s2.Wf k := ite_wf h (beginLife_wf (endLife_wf h))
  split
  · split
    · exact ite_wf hs2 hs2
    · exact hs2
  · exact hs2
theorem execLifetimeRecord_wf {st : ℕ} {s : State} (h : s.Wf k) : OutWf k (execLifetimeRecord st s) := ite_outWf (appendLife_wf h) h
theorem execOrderlyShutdown_wf {s : State} (h : s.Wf k) : OutWf k (execOrderlyShutdown s) := foldl_wf (fun _ _ ht => appendLife_wf ht) h

/-! ### The operations of Machine/HostIf -/

theorem answer_wf {s : State} {m : BitVec 512} {st : ℕ} (h : s.Wf k) : (answer s m st).Wf k := owe_wf h
theorem answerCause_wf {s : State} {m : BitVec 512} {code : ℕ} (h : s.Wf k) : (answerCause s m code).Wf k := owe_wf h
theorem moduleReq_wf {s : State} {code : ℕ} {fields : List (ℕ × ℕ)} {ok wait : BitVec 512 → Bool} {f : State → BitVec 512 → State}
    (hf : ∀ s m, s.Wf k → (f s m).Wf k) (h : s.Wf k) : OutWf k (moduleReq s code fields ok wait f) := by
  unfold moduleReq
  split
  · exact h
  · exact ite_outWf (answer_wf h) (ite_outWf h (hf _ _ h))
theorem pasidReq_wf {s : State} {code : ℕ} {mine ok wait : BitVec 512 → Bool} {fields : List (ℕ × ℕ)} {f : State → BitVec 512 → State}
    (hf : ∀ s m, s.Wf k → (f s m).Wf k) (h : s.Wf k) : OutWf k (pasidReq s code mine fields ok wait f) := by
  unfold pasidReq
  split
  · exact h
  · exact ite_outWf (answer_wf h) (ite_outWf (answer_wf h) (ite_outWf (answer_wf h) (ite_outWf h (hf _ _ h))))
theorem register_wf {s : State} {m : BitVec 512} {bs : List Byte} (h : s.Wf k) : (register s m bs).Wf k := by
  unfold register
  extract_lets pasid s1
  refine ite_wf (answer_wf h) ?_
  have hs1 : s1.Wf k := by
    refine foldl_wf (fun _ _ ht => ?_) h
    split
    · exact homePut_wf ht
    · exact ht
  split
  · exact ite_wf (answer_wf h) (owe_wf (hs1.withQueues (tabSorted_put _ _)))
  · exact answer_wf h
theorem execRegisterQueue_wf {s : State} (h : s.Wf k) : OutWf k (execRegisterQueue s) := by
  unfold execRegisterQueue
  refine pasidReq_wf ?_ h
  intro _ _ ht
  split
  · exact register_wf ht
  · exact answer_wf ht
theorem execFreeQueue_wf {s : State} (h : s.Wf k) : OutWf k (execFreeQueue s) := by
  unfold execFreeQueue
  refine pasidReq_wf (fun s m ht => ?_) h
  split
  · exact answer_wf (ht.withQueues (tabSorted_del _))
  · exact answer_wf ht
theorem execResetQueue_wf {s : State} (h : s.Wf k) : OutWf k (execResetQueue s) := by
  unfold execResetQueue
  refine pasidReq_wf ?_ h
  intro _ _ ht
  split
  · refine ite_wf (answer_wf ht) ?_
    split
    · next s1 hs =>
        have hs := (fetcherWrite_wf ht).of_eq hs
        exact answer_wf (modQueue_wf hs)
    · exact answer_wf (raiseIrq_wf ht)
  · exact answer_wf ht
theorem mapEntries_wf {s : State} {f : GangEnt → GangEnt} (h : s.Wf k) : (mapEntries s f).Wf k := h.mapCores (fun _ => rfl)
theorem resolveTag_wf {s : State} {r : TrapRec} (h : s.Wf k) : (resolveTag s r).Wf k :=
  foldl_wf (fun _ _ ht => answerGroup_wf ht) ((mapEntries_wf h).mapCores (fun _ => rfl))
theorem failEnt_wf {s : State} {c : ℕ} {r : TrapRec} {x : GangEnt} (h : s.Wf k) : (failEnt s c r x).Wf k := by
  unfold failEnt
  refine ite_wf (abandonEnt_wf h) ?_
  split
  · exact ite_wf (abandonEnt_wf h) h
  · exact h
theorem failTag_wf {s : State} {r : TrapRec} (h : s.Wf k) : (failTag s r).Wf k := by
  unfold failTag
  extract_lets addr s1 s2 s4
  have hs1 : s1.Wf k := foldl_wf (fun _ _ ht => foldl_wf (fun _ _ ht1 => failSub_wf ht1) ht) h
  have hs2 : s2.Wf k := by
    unfold s2
    refine foldl_wf (fun _ _ ht2 => ?_) hs1
    extract_lets s3
    have hs3 : s3.Wf k := foldl_wf (fun _ _ ht3 => failEnt_wf ht3) ht2
    split
    · exact ite_wf (abandonEnt_wf hs3) hs3
    · exact hs3
  have hs4 : s4.Wf k := foldl_wf (fun _ _ ht4 => foldl_wf (fun _ _ ht5 => failEnt_wf ht5) ht4) hs2
  exact foldl_wf (fun _ _ ht6 => fatal_wf ht6) hs4
theorem execRecordReply_wf {s : State} (h : s.Wf k) : OutWf k (execRecordReply s) := by
  unfold execRecordReply
  refine ite_outWf h ?_
  refine pasidReq_wf ?_ h
  intro _ _ ht
  extract_lets st
  split
  · exact ht
  · exact ite_wf (answerGroup_wf ht) (ite_wf (resolveTag_wf (invalRange_wf ht)) (failTag_wf ht))
theorem execCreateSegment_wf {s : State} (h : s.Wf k) : OutWf k (execCreateSegment s) := by
  unfold execCreateSegment
  refine pasidReq_wf ?_ h
  intro _ _ ht
  extract_lets name z
  split
  · exact ite_wf (owe_wf (sendMail_wf ht)) (answer_wf ht)
  · exact answer_wf ht
theorem execAttachSegment_wf {s : State} (h : s.Wf k) : OutWf k (execAttachSegment s) := by
  unfold execAttachSegment
  refine pasidReq_wf ?_ h
  intro _ _ ht
  extract_lets name
  split
  · exact ite_wf (owe_wf ht) (answer_wf ht)
  · exact answer_wf ht
theorem freeSeg_wf {s : State} {name : ℕ} {g : Segment} {pasid base : ℕ} (h : s.Wf k) : (freeSeg s name g pasid base).Wf k := by
  unfold freeSeg
  extract_lets s1 s2 s3 s4 s5
  have hs1 : s1.Wf k := foldl_wf (fun _ _ ht => demoteBlock_wf ht) h
  have hs2 : s2.Wf k := dropRange_wf hs1
  have hs3 : s3.Wf k := dropSegLines_wf hs2
  have hs5 : s5.Wf k := foldl_wf (fun _ _ ht1 => takeDue_wf (foldl_wf (fun _ _ ht2 => ite_wf (queueWait_wf (finishAt_wf ht2)) ht2) ht1)) hs3
  exact settleReplies_wf (hs5.mapGroups (fun _ => rfl) (fun _ he => he))
theorem execFreeSegment_wf {s : State} (h : s.Wf k) : OutWf k (execFreeSegment s) := by
  unfold execFreeSegment
  refine pasidReq_wf ?_ h
  intro _ _ ht
  split
  · exact ite_wf (answer_wf ht) (answer_wf (freeSeg_wf (sendMail_wf ht)))
  · exact answer_wf ht
theorem execHostAppend_wf {s : State} (h : s.Wf k) : OutWf k (execHostAppend s) := by
  unfold execHostAppend
  refine pasidReq_wf ?_ h
  intro _ _ ht
  extract_lets n
  split
  · exact answerCause_wf ht
  · refine ite_wf (answerCause_wf ht) ?_
    refine ite_wf (answerCause_wf ht) ?_
    split
    · exact answerCause_wf ht
    · exact ite_wf (answerCause_wf ht) (ite_wf (owe_wf (readRecord_wf ht)) (owe_wf (readRecord_wf ht)))
theorem execHostSeal_wf {s : State} (h : s.Wf k) : OutWf k (execHostSeal s) := by
  unfold execHostSeal
  refine pasidReq_wf ?_ h
  intro _ _ ht
  split
  · exact answerCause_wf ht
  · exact owe_wf (sealDue_wf (ite_wf (sealNow_wf (modSeg_wf (sendMail_wf ht))) ht))
theorem execOpenLifetimeSegment_wf {s : State} (h : s.Wf k) : OutWf k (execOpenLifetimeSegment s) := by
  unfold execOpenLifetimeSegment
  refine pasidReq_wf ?_ h
  intro _ _ ht
  extract_lets sealed
  split
  · exact ite_wf (answer_wf ht) (ite_wf (answer_wf ht) (owe_wf ht))
  · exact answer_wf ht
theorem driverWrite_wf {s : State} {pasid n va x : ℕ} (h : s.Wf k) : OptWf k (driverWrite s pasid n va x) :=
  foldl_optWf (fun _ _ ht => map_wf (fun _ => homePut_wf ht)) h
theorem execListKeptSegments_wf {s : State} (h : s.Wf k) : OutWf k (execListKeptSegments s) := by
  unfold execListKeptSegments
  refine pasidReq_wf (fun s m ht => ?_) h
  extract_lets kept es
  split
  · next hs => exact owe_wf ((foldl_optWf (o := some s) (fun _ _ ht => driverWrite_wf ht) ht).of_eq hs)
  · exact answer_wf ht
theorem execCreateCollective_wf {s : State} (h : s.Wf k) : OutWf k (execCreateCollective s) := by
  unfold execCreateCollective
  refine pasidReq_wf ?_ h
  intro _ _ ht
  split
  · exact owe_wf ht
  · exact answer_wf ht
theorem execRegisterBlockTable_wf {s : State} (h : s.Wf k) : OutWf k (execRegisterBlockTable s) :=
  pasidReq_wf (fun _ _ ht => answer_wf (ite_wf ht ht)) h
theorem execUnregisterBlockTable_wf {s : State} (h : s.Wf k) : OutWf k (execUnregisterBlockTable s) :=
  pasidReq_wf (fun _ _ ht => ite_wf (answer_wf ht) (answer_wf ht)) h
theorem execSetStorageTimeout_wf {s : State} (h : s.Wf k) : OutWf k (execSetStorageTimeout s) := moduleReq_wf (fun _ _ ht => answer_wf ht) h
theorem sizePool_wf {s : State} {st mib : ℕ} (h : s.Wf k) : (sizePool s st mib).Wf k := foldl_wf (fun _ _ ht => demoteBlock_wf ht) h
theorem execSetPromotionPool_wf {s : State} (h : s.Wf k) : OutWf k (execSetPromotionPool s) :=
  moduleReq_wf (fun _ _ ht => answer_wf (foldl_wf (fun _ _ ht1 => sizePool_wf ht1) ht)) h
theorem execRegisterProcess_wf {s : State} (h : s.Wf k) : OutWf k (execRegisterProcess s) := by
  unfold execRegisterProcess
  split
  · exact h
  · extract_lets p s1
    refine ite_outWf (answer_wf h) ?_
    split <;> exact answer_wf h
theorem killedEvent_wf {s : State} {ln : ℕ} (h : s.Wf k) : (killedEvent s ln).Wf k := by
  unfold killedEvent
  split
  · exact fatal_wf h
  · exact h
theorem killByHost_wf {s : State} {ln : ℕ} (h : s.Wf k) : (killByHost s ln).Wf k := killLaunchNo_wf (killedEvent_wf h)
theorem execKillLaunch_wf {s : State} (h : s.Wf k) : OutWf k (execKillLaunch s) := by
  unfold execKillLaunch
  refine pasidReq_wf ?_ h
  intro _ _ ht
  split
  · exact answer_wf (killByHost_wf ht)
  · exact answer_wf ht
theorem closeQueue_wf {s : State} {qn : ℕ} {q : Queue} (h : s.Wf k) : (closeQueue s qn q).Wf k := raiseIrq_wf (modQueue_wf (putStatus_wf h))
theorem beginTeardown_wf {s : State} {pasid : ℕ} (h : s.Wf k) : (beginTeardown s pasid).Wf k :=
  foldl_wf (fun _ _ ht => killByHost_wf ht) (foldl_wf (fun _ _ ht1 => closeQueue_wf ht1) h)
theorem endTeardown_wf {s : State} {pasid : ℕ} (h : s.Wf k) : (endTeardown s pasid).Wf k := by
  unfold endTeardown
  exact settleReplies_wf ((invalPasid_wf h).withQueues (tabSorted_filter _))
theorem endTeardowns_wf {s : State} (h : s.Wf k) : (endTeardowns s).Wf k := foldl_wf (fun _ _ ht => ite_wf (endTeardown_wf ht) ht) h
theorem execTeardownPasid_wf {s : State} (h : s.Wf k) : OutWf k (execTeardownPasid s) := by
  unfold execTeardownPasid
  split
  · exact endTeardowns_wf h
  · refine ite_outWf (endTeardowns_wf h) ?_
    extract_lets s1
    refine ite_outWf (answer_wf h) ?_
    split
    · exact answer_wf h
    · exact endTeardowns_wf (owe_wf (ite_wf h (beginTeardown_wf h)))
theorem otherRequest_wf {s : State} (h : s.Wf k) : (otherRequest s).Wf k := by
  unfold otherRequest
  split
  · exact ite_wf h (ite_wf (answer_wf h) h)
  · exact h

/-! ### The operations of Machine/LaneFloat -/

theorem float3_wf {h : LaneHdr} {cls : ℕ} {vd va : VReg} {b : VSrc} {vc : Option VReg} {f : Bool → Word → Word → Word → Word × Byte}
    {s : State} (h1 : s.Wf k) : OutWf k (float3 h cls vd va b vc f s) :=
  fixedLane_wf h1
theorem float2_wf {h : LaneHdr} {vd va : VReg} {b : VSrc} {f : Bool → Word → Word → Word × Byte} {s : State} (h1 : s.Wf k) :
    OutWf k (float2 h vd va b f s) :=
  float3_wf h1
theorem float1_wf {h : LaneHdr} {vd va : VReg} {f : Bool → Word → Word × Byte} {s : State} (h1 : s.Wf k) : OutWf k (float1 h vd va f s) :=
  float3_wf h1
theorem execFadd_wf {h : LaneHdr} {m : Rnd} {vd va : VReg} {b : VSrc} {s : State} (h1 : s.Wf k) : OutWf k (execFadd h m vd va b s) :=
  float2_wf h1
theorem execFsub_wf {h : LaneHdr} {m : Rnd} {vd va : VReg} {b : VSrc} {s : State} (h1 : s.Wf k) : OutWf k (execFsub h m vd va b s) :=
  float2_wf h1
theorem execFmul_wf {h : LaneHdr} {m : Rnd} {vd va : VReg} {b : VSrc} {s : State} (h1 : s.Wf k) : OutWf k (execFmul h m vd va b s) :=
  float2_wf h1
theorem execFfma_wf {h : LaneHdr} {m : Rnd} {vd va : VReg} {b : VSrc} {vc : VReg} {s : State} (h1 : s.Wf k) :
    OutWf k (execFfma h m vd va b vc s) :=
  float3_wf h1
theorem execFmin_wf {h : LaneHdr} {vd va : VReg} {b : VSrc} {s : State} (h1 : s.Wf k) : OutWf k (execFmin h vd va b s) := float2_wf h1
theorem execFmax_wf {h : LaneHdr} {vd va : VReg} {b : VSrc} {s : State} (h1 : s.Wf k) : OutWf k (execFmax h vd va b s) := float2_wf h1
theorem execFabs_wf {h : LaneHdr} {vd va : VReg} {s : State} (h1 : s.Wf k) : OutWf k (execFabs h vd va s) := float1_wf h1
theorem execFneg_wf {h : LaneHdr} {vd va : VReg} {s : State} (h1 : s.Wf k) : OutWf k (execFneg h vd va s) := float1_wf h1
theorem execFclass_wf {h : LaneHdr} {vd va : VReg} {s : State} (h1 : s.Wf k) : OutWf k (execFclass h vd va s) := float1_wf h1
theorem execFscale_wf {h : LaneHdr} {m : Rnd} {vd va : VReg} {b : VSrc} {s : State} (h1 : s.Wf k) : OutWf k (execFscale h m vd va b s) :=
  fixedLane_wf h1
theorem execFrnd_wf {h : LaneHdr} {m : Rnd} {vd va : VReg} {s : State} (h1 : s.Wf k) : OutWf k (execFrnd h m vd va s) := float1_wf h1
theorem execFdiv_wf {h : LaneHdr} {m : Rnd} {vd va : VReg} {b : VSrc} {s : State} (h1 : s.Wf k) : OutWf k (execFdiv h m vd va b s) :=
  float2_wf h1
theorem execFsqrt_wf {h : LaneHdr} {m : Rnd} {vd va : VReg} {s : State} (h1 : s.Wf k) : OutWf k (execFsqrt h m vd va s) := float1_wf h1
theorem execFset_wf {h : LaneHdr} {cc : FCond} {pd : PReg} {va : VReg} {b : VSrc} {s : State} (h1 : s.Wf k) :
    OutWf k (execFset h cc pd va b s) :=
  fixedLane_wf h1
theorem sfuLane_wf {h : LaneHdr} {op : SfuOp} {vd va : VReg} {s : State} (h1 : s.Wf k) : OutWf k (sfuLane h op vd va s) := by
  unfold sfuLane
  refine onPath_wf (fun _ _ hx => ?_) h1
  extract_lets t fl all die live rs g1 g11 g12
  have hg1 : g1.Wf k := ite_groupWf hx (noteWrite_wf hx)
  have hg11 : g11.Wf k := foldl_groupWf (fun _ _ hx1 => hx1) hg1
  exact killActing_wf (keep_wf h1 (addReq_wf hg11))
theorem execRcp_wf {h : LaneHdr} {vd va : VReg} {s : State} (h1 : s.Wf k) : OutWf k (execRcp h vd va s) := sfuLane_wf h1
theorem execRsq_wf {h : LaneHdr} {vd va : VReg} {s : State} (h1 : s.Wf k) : OutWf k (execRsq h vd va s) := sfuLane_wf h1
theorem execEx2_wf {h : LaneHdr} {vd va : VReg} {s : State} (h1 : s.Wf k) : OutWf k (execEx2 h vd va s) := sfuLane_wf h1
theorem execLg2_wf {h : LaneHdr} {vd va : VReg} {s : State} (h1 : s.Wf k) : OutWf k (execLg2 h vd va s) := sfuLane_wf h1
theorem execSin_wf {h : LaneHdr} {vd va : VReg} {s : State} (h1 : s.Wf k) : OutWf k (execSin h vd va s) := sfuLane_wf h1
theorem execCos_wf {h : LaneHdr} {vd va : VReg} {s : State} (h1 : s.Wf k) : OutWf k (execCos h vd va s) := sfuLane_wf h1
theorem execTanh_wf {h : LaneHdr} {vd va : VReg} {s : State} (h1 : s.Wf k) : OutWf k (execTanh h vd va s) := sfuLane_wf h1
theorem execErf_wf {h : LaneHdr} {vd va : VReg} {s : State} (h1 : s.Wf k) : OutWf k (execErf h vd va s) := sfuLane_wf h1
theorem execSpecialFunctionComplete_wf {gid r : ℕ} {s : State} (h : s.Wf k) : OutWf k (execSpecialFunctionComplete gid r s) := by
  unfold execSpecialFunctionComplete
  split
  · next g q hg =>
      have hg := h.findWith hg
      split
      · exact tryRetire_wf (setGroup_wf h (finishReq_wf (landAll_wf hg)))
      · exact h
  · exact h
theorem packed_wf {h : LaneHdr} {m : Rnd} {bf : Bool} {vd va : VReg} {b : VSrc} {vc : Option VReg} {op : Val → Val → Val → Val × Byte}
    {s : State} (h1 : s.Wf k) : OutWf k (packed h m bf vd va b vc op s) :=
  fixedLane_wf h1
theorem execH2add_wf {h : LaneHdr} {m : Rnd} {bf : Bool} {vd va : VReg} {b : VSrc} {s : State} (h1 : s.Wf k) :
    OutWf k (execH2add h m bf vd va b s) :=
  packed_wf h1
theorem execH2mul_wf {h : LaneHdr} {m : Rnd} {bf : Bool} {vd va : VReg} {b : VSrc} {s : State} (h1 : s.Wf k) :
    OutWf k (execH2mul h m bf vd va b s) :=
  packed_wf h1
theorem execH2fma_wf {h : LaneHdr} {m : Rnd} {bf : Bool} {vd va : VReg} {b : VSrc} {vc : VReg} {s : State} (h1 : s.Wf k) :
    OutWf k (execH2fma h m bf vd va b vc s) :=
  packed_wf h1
theorem execCvt_wf {h : LaneHdr} {m : Rnd} {sat : Bool} {dt sy : ElemTy} {vd va : VReg} {s : State} (h1 : s.Wf k) :
    OutWf k (execCvt h m sat dt sy vd va s) :=
  fixedLane_wf h1

/-! ### The operations of Machine/LaneInt -/

theorem int2_wf {h : LaneHdr} {t : IntTy} {vd va : VReg} {b : VSrc} {f : ℕ → ℕ → ℕ × Byte} {s : State} (h1 : s.Wf k) :
    OutWf k (int2 h t vd va b f s) :=
  fixedLane_wf h1
theorem int1_wf {h : LaneHdr} {t : IntTy} {vd va : VReg} {f : ℕ → ℕ × Byte} {s : State} (h1 : s.Wf k) : OutWf k (int1 h t vd va f s) :=
  fixedLane_wf h1
theorem execIadd_wf {h : LaneHdr} {t : IntTy} {sat : Bool} {vd va : VReg} {b : VSrc} {s : State} (h1 : s.Wf k) :
    OutWf k (execIadd h t sat vd va b s) :=
  int2_wf h1
theorem execIsub_wf {h : LaneHdr} {t : IntTy} {sat : Bool} {vd va : VReg} {b : VSrc} {s : State} (h1 : s.Wf k) :
    OutWf k (execIsub h t sat vd va b s) :=
  int2_wf h1
theorem execImul_wf {h : LaneHdr} {t : IntTy} {sat : Bool} {vd va : VReg} {b : VSrc} {s : State} (h1 : s.Wf k) :
    OutWf k (execImul h t sat vd va b s) :=
  int2_wf h1
theorem execImad_wf {h : LaneHdr} {t : IntTy} {sat : Bool} {vd va : VReg} {b : VSrc} {vc : VReg} {s : State} (h1 : s.Wf k) :
    OutWf k (execImad h t sat vd va b vc s) :=
  fixedLane_wf h1
theorem execImulh_wf {h : LaneHdr} {t : IntTy} {vd va : VReg} {b : VSrc} {s : State} (h1 : s.Wf k) : OutWf k (execImulh h t vd va b s) :=
  int2_wf h1
theorem execIabs_wf {h : LaneHdr} {t : IntTy} {sat : Bool} {vd va : VReg} {s : State} (h1 : s.Wf k) : OutWf k (execIabs h t sat vd va s) :=
  int1_wf h1
theorem execImin_wf {h : LaneHdr} {t : IntTy} {vd va : VReg} {b : VSrc} {s : State} (h1 : s.Wf k) : OutWf k (execImin h t vd va b s) :=
  int2_wf h1
theorem execImax_wf {h : LaneHdr} {t : IntTy} {vd va : VReg} {b : VSrc} {s : State} (h1 : s.Wf k) : OutWf k (execImax h t vd va b s) :=
  int2_wf h1
theorem execLaneAnd_wf {h : LaneHdr} {t : IntTy} {vd va : VReg} {b : VSrc} {s : State} (h1 : s.Wf k) :
    OutWf k (execLaneAnd h t vd va b s) :=
  int2_wf h1
theorem execLaneOr_wf {h : LaneHdr} {t : IntTy} {vd va : VReg} {b : VSrc} {s : State} (h1 : s.Wf k) : OutWf k (execLaneOr h t vd va b s) :=
  int2_wf h1
theorem execLaneXor_wf {h : LaneHdr} {t : IntTy} {vd va : VReg} {b : VSrc} {s : State} (h1 : s.Wf k) :
    OutWf k (execLaneXor h t vd va b s) :=
  int2_wf h1
theorem execNot_wf {h : LaneHdr} {t : IntTy} {vd va : VReg} {s : State} (h1 : s.Wf k) : OutWf k (execNot h t vd va s) := int1_wf h1
theorem execLaneShl_wf {h : LaneHdr} {t : IntTy} {vd va : VReg} {b : VSrc} {s : State} (h1 : s.Wf k) :
    OutWf k (execLaneShl h t vd va b s) :=
  int2_wf h1
theorem execLaneShr_wf {h : LaneHdr} {t : IntTy} {vd va : VReg} {b : VSrc} {s : State} (h1 : s.Wf k) :
    OutWf k (execLaneShr h t vd va b s) :=
  int2_wf h1
theorem execLaneSra_wf {h : LaneHdr} {t : IntTy} {vd va : VReg} {b : VSrc} {s : State} (h1 : s.Wf k) :
    OutWf k (execLaneSra h t vd va b s) :=
  int2_wf h1
theorem execRot_wf {h : LaneHdr} {t : IntTy} {vd va : VReg} {b : VSrc} {s : State} (h1 : s.Wf k) : OutWf k (execRot h t vd va b s) :=
  int2_wf h1
theorem execPopc_wf {h : LaneHdr} {t : IntTy} {vd va : VReg} {s : State} (h1 : s.Wf k) : OutWf k (execPopc h t vd va s) := int1_wf h1
theorem execClz_wf {h : LaneHdr} {t : IntTy} {vd va : VReg} {s : State} (h1 : s.Wf k) : OutWf k (execClz h t vd va s) := int1_wf h1
theorem execBrev_wf {h : LaneHdr} {t : IntTy} {vd va : VReg} {s : State} (h1 : s.Wf k) : OutWf k (execBrev h t vd va s) := int1_wf h1
theorem execBfx_wf {h : LaneHdr} {t : IntTy} {vd va : VReg} {pos width : BitVec 5} {s : State} (h1 : s.Wf k) :
    OutWf k (execBfx h t vd va pos width s) :=
  int1_wf h1
theorem execBfi_wf {h : LaneHdr} {t : IntTy} {vd va : VReg} {pos width : BitVec 5} {s : State} (h1 : s.Wf k) :
    OutWf k (execBfi h t vd va pos width s) :=
  fixedLane_wf h1
theorem execLaneSel_wf {h : LaneHdr} {t : IntTy} {vd va : VReg} {b : VSrc} {pk : PReg} {s : State} (h1 : s.Wf k) :
    OutWf k (execLaneSel h t vd va b pk s) :=
  fixedLane_wf h1
theorem execMov_wf {h : LaneHdr} {t : IntTy} {vd : VReg} {a : VSrc} {s : State} (h1 : s.Wf k) : OutWf k (execMov h t vd a s) :=
  fixedLane_wf h1
theorem execLend_wf {s : State} (h : s.Wf k) : OutWf k (execLend s) := fixedLane_wf h
theorem execMovs_wf {h : LaneHdr} {t : IntTy} {vd : VReg} {sn : SReg} {s : State} (h1 : s.Wf k) : OutWf k (execMovs h t vd sn s) :=
  fixedLane_wf h1
theorem execLea_wf {h : LaneHdr} {vd : VReg} {b : MBase} {i : MIdx} {off : BitVec 12} {s : State} (h1 : s.Wf k) :
    OutWf k (execLea h vd b i off s) :=
  fixedLane_wf h1
theorem execIset_wf {h : LaneHdr} {cc : Cond} {t : IntTy} {pd : PReg} {va : VReg} {b : VSrc} {s : State} (h1 : s.Wf k) :
    OutWf k (execIset h cc t pd va b s) :=
  fixedLane_wf h1
theorem execShfl_wf {h : LaneHdr} {m : ShflMode} {ty : IntTy} {vd va : VReg} {b : VSrc} {s : State} (h1 : s.Wf k) :
    OutWf k (execShfl h m ty vd va b s) :=
  frameLane_wf h1
theorem execVoteAny_wf {h : LaneHdr} {pd pa : PReg} {s : State} (h1 : s.Wf k) : OutWf k (execVoteAny h pd pa s) := fixedLane_wf h1
theorem execVoteAll_wf {h : LaneHdr} {pd pa : PReg} {s : State} (h1 : s.Wf k) : OutWf k (execVoteAll h pd pa s) := fixedLane_wf h1
theorem execVoteBallot_wf {h : LaneHdr} {sn : SReg} {pa : PReg} {s : State} (h1 : s.Wf k) : OutWf k (execVoteBallot h sn pa s) :=
  onPath_wf (fun _ _ hx => keep_wf h1 (foldl_groupWf (fun _ _ hx1 => hx1) hx)) h1
theorem execGred_wf {h : LaneHdr} {op : GredOp} {ty : IntTy} {vd va : VReg} {s : State} (h1 : s.Wf k) :
    OutWf k (execGred h op ty vd va s) :=
  frameLane_wf h1

/-! ### The operations of Machine/System -/

theorem hartWrite_wf {s : State} {n pa x : ℕ} (h : s.Wf k) : (hartWrite s n pa x).Wf k := homeWrite_wf h
theorem hartReserve_wf {s : State} {hart n pa : ℕ} (h : s.Wf k) : (hartReserve s hart n pa).Wf k := ite_wf h h
theorem hartConditional_wf {s : State} {hart n pa x : ℕ} (h : s.Wf k) : (hartConditional s hart n pa x).Wf k :=
  ite_wf (ite_wf (hartWrite_wf h) h) h
theorem hartDo_wf {s : State} {hart : ℕ} {op : HartOp} {pa : ℕ} (h : s.Wf k) : (hartDo s hart op pa).Wf k := by
  unfold hartDo
  split
  · exact hartReserve_wf h
  · exact hartConditional_wf h
  · split
    · exact h
    · exact ite_wf (hartWrite_wf h) h
theorem execHartAccess_wf {req : HartReq} {addr : ℕ} {s : State} (h : s.Wf k) : OutWf k (execHartAccess req addr s) := by
  unfold execHartAccess
  extract_lets via op
  refine ite_outWf h ?_
  split
  · exact h
  · exact ite_outWf h (ite_outWf h (hartDo_wf h))
theorem hostFill_wf {s : State} {via : HartVia} {addr : ℕ} (h : s.Wf k) : (hostFill s via addr).Wf k := by
  unfold hostFill
  split
  · exact ite_wf h h
  · exact h
theorem iommuContext_wf {s : State} {dev pasid root : ℕ} (h : s.Wf k) : (iommuContext s dev pasid root).Wf k := ite_wf h h
theorem execPcieInboundRequest_wf {via : PcieVia} {addr : ℕ} {wr : Option (ℕ × Dword)} {s : State} (h : s.Wf k) :
    OutWf k (execPcieInboundRequest via addr wr s) := by
  unfold execPcieInboundRequest
  refine ite_outWf h ?_
  split
  · exact h
  · split
    · exact ite_wf (hartWrite_wf h) h
    · exact h
theorem execConnectionSetup_wf {port : ℕ} {peer : Peer} {s : State} (h : s.Wf k) : OutWf k (execConnectionSetup port peer s) :=
  ite_outWf h h
theorem execPortFailure_wf {port : ℕ} {s : State} (h : s.Wf k) : OutWf k (execPortFailure port s) := ite_outWf h h
theorem execAttestationReport_wf {s : State} (h : s.Wf k) : OutWf k (execAttestationReport s) :=
  moduleReq_wf (fun _ _ ht => owe_wf (homeWrite_wf ht)) h
theorem execPowerGate_wf {κ : ℕ} {s : State} (h : s.Wf k) : OutWf k (execPowerGate κ s) := ite_outWf h h
theorem execThermalThrottle_wf {s : State} (h : s.Wf k) : OutWf k (execThermalThrottle s) := h
theorem execPowerLoss_wf {s : State} (h : s.Wf k) : OutWf k (execPowerLoss s) := h
theorem execThermalShutdown_wf {s : State} (h : s.Wf k) : OutWf k (execThermalShutdown s) := by
  unfold execThermalShutdown
  have hs : ((List.range Config.stackCount).foldl appendLife s).Wf k := foldl_wf (fun _ _ ht => appendLife_wf ht) h
  generalize (List.range Config.stackCount).foldl appendLife s = t at hs
  exact hs
/-- What a reset keeps of a core is its lane swaps (R396). -/
def coreKept (e : ℕ × Core) : ℕ × Core := (e.1, { coreZero with swaps := e.2.swaps })
theorem restart_cores {s : State} : (restart s).cores = (s.cores.filter (fun e => !e.2.swaps.isEmpty)).map coreKept := rfl
theorem restart_wf {s : State} (h : s.Wf k) : (restart s).Wf k := by
  cases k with
  | memory => exact reset_memOk
  | registers => exact fun _ he => nomatch he
  | keys =>
    obtain ⟨-, hc, -, -⟩ := h
    have hkept : tabSorted (restart s).cores = true := by
      rw [restart_cores]
      exact tabSorted_map (f := coreKept) (fun _ => rfl) (tabSorted_filter _ hc)
    exact ⟨rfl, hkept, rfl, rfl⟩
theorem execColdReset_wf {s : State} (h : s.Wf k) : OutWf k (execColdReset s) := restart_wf h
theorem execWarmReset_wf {s : State} (h : s.Wf k) : OutWf k (execWarmReset s) := restart_wf h
theorem bootStep_wf {s : State} (h : s.Wf k) : (bootStep s).Wf k :=
  ite_wf h (ite_wf (ite_wf h h) (ite_wf h (ite_wf (rebuildRows_wf (sendMail_wf h)) h)))

/-! ### The operations of Machine/Trap -/

theorem execTrap_wf {n : BitVec 14} {s : State} (h : s.Wf k) : OutWf k (execTrap n s) := onPath_wf (fun _ _ hx => trapHere_wf h hx) h
theorem execSvc_wf {n : BitVec 14} {s : State} (h : s.Wf k) : OutWf k (execSvc n s) := onPath_wf (fun _ _ hx => trapHere_wf h hx) h
theorem execBkpt_wf {n : BitVec 14} {s : State} (h : s.Wf k) : OutWf k (execBkpt n s) := onPath_wf (fun _ _ hx => trapHere_wf h hx) h
theorem execYield_wf {s : State} (h : s.Wf k) : OutWf k (execYield s) := onPath_wf (fun _ _ hx => keep_wf h hx) h
theorem landCause_wf {s : State} {r : TrapRec} (h : s.Wf k) : (landCause s r).Wf k := by
  unfold landCause
  split <;> exact h
theorem execTrapRecordWrite_wf {st : ℕ} {s : State} (h : s.Wf k) : OutWf k (execTrapRecordWrite st s) := by
  unfold execTrapRecordWrite
  extract_lets k1
  split
  · exact ite_outWf (landCause_wf h) h
  · split
    · exact ite_outWf h h
    · exact h
theorem execTrapQueueDrain_wf {st : ℕ} {s : State} (h : s.Wf k) : OutWf k (execTrapQueueDrain st s) := by
  unfold execTrapQueueDrain
  extract_lets k1
  split
  · exact h
  · refine ite_outWf h ?_
    extract_lets s1
    refine ite_outWf ?_ h
    split
    · exact killLaunchNo_wf h
    · exact h

/-! ### The operations of Machine/Dispatch -/

theorem exec_wf {i : Instr} {s : State} (h : s.Wf k) : OutWf k (exec i s) :=
  match i with
  | .add _ _ _ => execAdd_wf h
  | .sub _ _ _ => execSub_wf h
  | .mul _ _ _ => execMul_wf h
  | .mulh _ _ _ => execMulh_wf h
  | .mulhZ32 _ _ _ => execMulhZ32_wf h
  | .divs _ _ _ => execDivs_wf h
  | .and _ _ _ => execAnd_wf h
  | .or _ _ _ => execOr_wf h
  | .xor _ _ _ => execXor_wf h
  | .andn _ _ _ => execAndn_wf h
  | .shl _ _ _ => execShl_wf h
  | .shr _ _ _ => execShr_wf h
  | .sra _ _ _ => execSra_wf h
  | .min _ _ _ => execMin_wf h
  | .max _ _ _ => execMax_wf h
  | .minZ32 _ _ _ => execMinZ32_wf h
  | .maxZ32 _ _ _ => execMaxZ32_wf h
  | .sel _ _ _ => execSel_wf h
  | .cmp _ _ _ _ => execCmp_wf h
  | .cmpZ32 _ _ _ _ => execCmpZ32_wf h
  | .addZ64 _ _ _ => execAddZ64_wf h
  | .subZ64 _ _ _ => execSubZ64_wf h
  | .addi _ _ _ => execAddi_wf h
  | .andi _ _ _ => execAndi_wf h
  | .ori _ _ _ => execOri_wf h
  | .xori _ _ _ => execXori_wf h
  | .shli _ _ _ => execShli_wf h
  | .shri _ _ _ => execShri_wf h
  | .srai _ _ _ => execSrai_wf h
  | .movi _ _ => execMovi_wf h
  | .movhi _ _ => execMovhi_wf h
  | .brNz _ _ => execBrNz_wf h
  | .brZ _ _ => execBrZ_wf h
  | .brd _ _ _ _ _ => execBrd_wf h
  | .jmp _ => execJmp_wf h
  | .call _ => execCall_wf h
  | .jmpi _ => execJmpi_wf h
  | .jmpv _ _ => execJmpv_wf h
  | .callv _ _ => execCallv_wf h
  | .rjoin _ => execRjoin_wf h
  | .lrun _ => execLrun_wf h
  | .ljmp _ => execLjmp_wf h
  | .looph _ => execLooph_wf h
  | .mand _ _ _ => execMand_wf h
  | .mor _ _ _ => execMor_wf h
  | .mxor _ _ _ => execMxor_wf h
  | .mnot _ _ => execMnot_wf h
  | .mpop _ _ => execMpop_wf h
  | .mfirst _ _ => execMfirst_wf h
  | .sld _ _ _ => execSld_wf h
  | .sldZ64 _ _ _ => execSldZ64_wf h
  | .sst _ _ _ => execSst_wf h
  | .sstZ64 _ _ _ => execSstZ64_wf h
  | .sarg _ _ => execSarg_wf h
  | .sargZ64 _ _ => execSargZ64_wf h
  | .waitf _ => execWaitf_wf h
  | .waitk _ _ => execWaitk_wf h
  | .srd _ _ => execSrd_wf h
  | .srdCyclo _ => execSrdCyclo_wf h
  | .srdCychi _ => execSrdCychi_wf h
  | .swrEjth _ => execSwrEjth_wf h
  | .swrRjto _ => execSwrRjto_wf h
  | .swrFpflags _ => execSwrFpflags_wf h
  | .swrTrapState _ _ => execSwrTrapState_wf h
  | .sigchk _ => execSigchk_wf h
  | .trap _ => execTrap_wf h
  | .svc _ => execSvc_wf h
  | .bkpt _ => execBkpt_wf h
  | .nop x => execNop_wf (x := x) h
  | .iadd _ _ _ _ _ _ => execIadd_wf h
  | .isub _ _ _ _ _ _ => execIsub_wf h
  | .imul _ _ _ _ _ _ => execImul_wf h
  | .imad _ _ _ _ _ _ _ => execImad_wf h
  | .imulh _ _ _ _ _ => execImulh_wf h
  | .iabs _ _ _ _ _ => execIabs_wf h
  | .imin _ _ _ _ _ => execImin_wf h
  | .imax _ _ _ _ _ => execImax_wf h
  | .laneAnd _ _ _ _ _ => execLaneAnd_wf h
  | .laneOr _ _ _ _ _ => execLaneOr_wf h
  | .laneXor _ _ _ _ _ => execLaneXor_wf h
  | .not _ _ _ _ => execNot_wf h
  | .laneShl _ _ _ _ _ => execLaneShl_wf h
  | .laneShr _ _ _ _ _ => execLaneShr_wf h
  | .laneSra _ _ _ _ _ => execLaneSra_wf h
  | .rot _ _ _ _ _ => execRot_wf h
  | .popc _ _ _ _ => execPopc_wf h
  | .clz _ _ _ _ => execClz_wf h
  | .brev _ _ _ _ => execBrev_wf h
  | .bfx _ _ _ _ _ _ => execBfx_wf h
  | .bfi _ _ _ _ _ _ => execBfi_wf h
  | .laneSel _ _ _ _ _ _ => execLaneSel_wf h
  | .mov _ _ _ _ => execMov_wf h
  | .movs _ _ _ _ => execMovs_wf h
  | .lea _ _ _ _ _ => execLea_wf h
  | .iset _ _ _ _ _ _ => execIset_wf h
  | .shfl _ _ _ _ _ _ => execShfl_wf h
  | .voteAny _ _ _ => execVoteAny_wf h
  | .voteAll _ _ _ => execVoteAll_wf h
  | .voteBallot _ _ _ => execVoteBallot_wf h
  | .gred _ _ _ _ _ => execGred_wf h
  | .fadd _ _ _ _ _ => execFadd_wf h
  | .fsub _ _ _ _ _ => execFsub_wf h
  | .fmul _ _ _ _ _ => execFmul_wf h
  | .ffma _ _ _ _ _ _ => execFfma_wf h
  | .fmin _ _ _ _ => execFmin_wf h
  | .fmax _ _ _ _ => execFmax_wf h
  | .fabs _ _ _ => execFabs_wf h
  | .fneg _ _ _ => execFneg_wf h
  | .fclass _ _ _ => execFclass_wf h
  | .fscale _ _ _ _ _ => execFscale_wf h
  | .frnd _ _ _ _ => execFrnd_wf h
  | .fdiv _ _ _ _ _ => execFdiv_wf h
  | .fsqrt _ _ _ _ => execFsqrt_wf h
  | .fset _ _ _ _ _ => execFset_wf h
  | .rcp _ _ _ => execRcp_wf h
  | .rsq _ _ _ => execRsq_wf h
  | .ex2 _ _ _ => execEx2_wf h
  | .lg2 _ _ _ => execLg2_wf h
  | .sin _ _ _ => execSin_wf h
  | .cos _ _ _ => execCos_wf h
  | .tanh _ _ _ => execTanh_wf h
  | .erf _ _ _ => execErf_wf h
  | .specialFunctionComplete _ _ => execSpecialFunctionComplete_wf h
  | .h2add _ _ _ _ _ _ => execH2add_wf h
  | .h2mul _ _ _ _ _ _ => execH2mul_wf h
  | .h2fma _ _ _ _ _ _ _ => execH2fma_wf h
  | .cvt _ _ _ _ _ _ _ => execCvt_wf h
  | .ld _ _ _ _ _ _ _ _ _ _ => execLd_wf h
  | .st _ _ _ _ _ _ _ _ _ _ => execSt_wf h
  | .atom _ _ _ _ _ _ _ _ _ _ _ _ => execAtom_wf h
  | .red _ _ _ _ _ _ _ _ _ _ _ => execRed_wf h
  | .memoryRequestReturn _ _ => execMemoryRequestReturn_wf h
  | .fence _ _ => execFence_wf h
  | .cln _ _ => execCln_wf h
  | .inv _ _ => execInv_wf h
  | .pref _ _ _ _ => execPref_wf h
  | .lkln _ _ _ _ => execLkln_wf h
  | .ulln _ _ _ _ => execUlln_wf h
  | .cpyc _ _ _ _ _ => execCpyc_wf h
  | .cpyx _ _ _ _ _ => execCpyx_wf h
  | .job _ _ => execJob_wf h
  | .taskdef _ _ _ _ => execTaskdef_wf h
  | .taskwait _ _ => execTaskwait_wf h
  | .submissionStart _ _ => execSubmissionStart_wf h
  | .jobComplete _ _ => execJobComplete_wf h
  | .tileArrival _ _ => execTileArrival_wf h
  | .gangset _ _ => execGangset_wf h
  | .mma _ _ _ _ _ _ _ _ => execMma_wf h
  | .mmaz _ _ _ _ _ _ _ _ => execMmaz_wf h
  | .mdrain _ _ _ _ => execMdrain_wf h
  | .matrixStep _ => execMatrixStep_wf h
  | .matrixComplete _ => execMatrixComplete_wf h
  | .scld _ _ _ _ => execScld_wf h
  | .drld _ _ _ _ => execDrld_wf h
  | .tkpass _ _ => execTkpass_wf h
  | .tktake _ _ => execTktake_wf h
  | .accrd _ _ _ _ => execAccrd_wf h
  | .accwr _ _ _ _ => execAccwr_wf h
  | .drainSegment _ => execDrainSegment_wf h
  | .drainComplete _ => execDrainComplete_wf h
  | .dadd _ _ _ => execDadd_wf h
  | .dmul _ _ _ => execDmul_wf h
  | .dfma _ _ _ _ => execDfma_wf h
  | .dmin _ _ _ => execDmin_wf h
  | .dmax _ _ _ => execDmax_wf h
  | .dclamp _ _ _ _ => execDclamp_wf h
  | .drow _ _ _ => execDrow_wf h
  | .dcol _ _ _ => execDcol_wf h
  | .dscl _ _ _ => execDscl_wf h
  | .dgelu _ _ => execDgelu_wf h
  | .dsilu _ _ => execDsilu_wf h
  | .dtanh _ _ => execDtanh_wf h
  | .dsig _ _ => execDsig_wf h
  | .drelu _ _ => execDrelu_wf h
  | .damax _ _ _ => execDamax_wf h
  | .dq8 _ _ _ => execDq8_wf h
  | .dq4 _ _ _ => execDq4_wf h
  | .dcvt _ _ _ _ => execDcvt_wf h
  | .dsel _ _ _ _ _ => execDsel_wf h
  | .dst _ _ _ _ => execDst_wf h
  | .dsts _ _ _ => execDsts_wf h
  | .dend x => execDend_wf (x := x) h
  | .dmov _ _ => execDmov_wf h
  | .dld _ _ _ _ => execDld_wf h
  | .bari _ _ _ => execBari_wf h
  | .arrive _ _ => execArrive_wf h
  | .bwait _ _ => execBwait_wf h
  | .expect _ _ _ => execExpect_wf h
  | .roleset _ _ => execRoleset_wf h
  | .xred _ _ _ _ => execXred_wf h
  | .xredRoundComplete _ => execXredRoundComplete_wf h
  | .xwait _ _ => execXwait_wf h
  | .collectiveTimeout _ => execCollectiveTimeout_wf h
  | .append _ _ _ _ => execAppend_wf h
  | .apfence _ _ _ => execApfence_wf h
  | .seal _ _ => execSeal_wf h
  | .recordDurable _ => execRecordDurable_wf h
  | .stallToken _ _ => execStallToken_wf h
  | .stallRelease _ _ => execStallRelease_wf h
  | .storageTimeout _ _ => execStorageTimeout_wf h
  | .launch _ => execLaunch_wf h
  | .copy _ => execCopy_wf h
  | .task _ => execTask_wf h
  | .barrier _ => execBarrier_wf h
  | .invalidateTranslations _ => execInvalidateTranslations_wf h
  | .prefault _ => execPrefault_wf h
  | .demote _ => execDemote_wf h
  | .prefetchToHbm _ => execPrefetchToHbm_wf h
  | .conditionalSkip _ => execConditionalSkip_wf h
  | .conditionalJump _ => execConditionalJump_wf h
  | .conditionalRepeat _ => execConditionalRepeat_wf h
  | .repeatTimeout _ => execRepeatTimeout_wf h
  | .lineWatchFire _ => execLineWatchFire_wf h
  | .packetComplete _ _ => execPacketComplete_wf h
  | .itemFeed _ => execItemFeed_wf h
  | .ejectionDecision _ _ => execEjectionDecision_wf h
  | .laneRecall _ => execLaneRecall_wf h
  | .rejoinTimeout _ _ => execRejoinTimeout_wf h
  | .registerLineFetch _ _ => execRegisterLineFetch_wf h
  | .translationWalk _ => execTranslationWalk_wf h
  | .promoteBlock _ => execPromoteBlock_wf h
  | .trapQueueDrain _ => execTrapQueueDrain_wf h
  | .trapRecordWrite _ => execTrapRecordWrite_wf h
  | .launchComplete _ => execLaunchComplete_wf h
  | .stopNotice _ => execStopNotice_wf h
  | .saveStart _ => execSaveStart_wf h
  | .saveComplete _ => execSaveComplete_wf h
  | .resumeRestore _ => execResumeRestore_wf h
  | .framePoison _ => execFramePoison_wf h
  | .parityRetry _ _ _ _ _ => execParityRetry_wf h
  | .stackDegrade _ => execStackDegrade_wf h
  | .lifetimeRecord _ => execLifetimeRecord_wf h
  | .powerGate _ => execPowerGate_wf h
  | .portFailure _ => execPortFailure_wf h
  | .hartAccess _ _ => execHartAccess_wf h
  | .pcieInboundRequest _ _ _ => execPcieInboundRequest_wf h
  | .segmentFailure _ => execSegmentFailure_wf h
  | .uncorrectableStorageError _ _ _ => execUncorrectableStorageError_wf h
  | .instructionFetchMiss _ _ _ => execInstructionFetchMiss_wf h
  | .connectionSetup _ _ => execConnectionSetup_wf h
  | .ret => execRet_wf h
  | .exit => execExit_wf h
  | .snap => execSnap_wf h
  | .eret => execEret_wf h
  | .yield => execYield_wf h
  | .lend => execLend_wf h
  | .placementSearch => execPlacementSearch_wf h
  | .placementRequest => execPlacementRequest_wf h
  | .preemptDecision => execPreemptDecision_wf h
  | .thermalThrottle => execThermalThrottle_wf h
  | .thermalShutdown => execThermalShutdown_wf h
  | .powerLoss => execPowerLoss_wf h
  | .coldReset => execColdReset_wf h
  | .warmReset => execWarmReset_wf h
  | .registerQueue => execRegisterQueue_wf h
  | .freeQueue => execFreeQueue_wf h
  | .resetQueue => execResetQueue_wf h
  | .recordReply => execRecordReply_wf h
  | .createSegment => execCreateSegment_wf h
  | .attachSegment => execAttachSegment_wf h
  | .freeSegment => execFreeSegment_wf h
  | .hostAppend => execHostAppend_wf h
  | .hostSeal => execHostSeal_wf h
  | .createCollective => execCreateCollective_wf h
  | .registerBlockTable => execRegisterBlockTable_wf h
  | .unregisterBlockTable => execUnregisterBlockTable_wf h
  | .setStorageTimeout => execSetStorageTimeout_wf h
  | .setPromotionPool => execSetPromotionPool_wf h
  | .killLaunch => execKillLaunch_wf h
  | .teardownPasid => execTeardownPasid_wf h
  | .attestationReport => execAttestationReport_wf h
  | .openLifetimeSegment => execOpenLifetimeSegment_wf h
  | .registerProcess => execRegisterProcess_wf h
  | .listKeptSegments => execListKeptSegments_wf h
  | .orderlyShutdown => execOrderlyShutdown_wf h

/-! ### The operations of Machine/Ports -/

theorem setAge_wf {g : Group} {port : Port} {n : ℕ} (hg : g.Wf k) : (setAge g port n).Wf k := by
  unfold setAge
  split <;> exact hg
theorem fillCore_wf {s : State} {g : Group} {es : List TlbEnt} (h : s.Wf k) : (fillCore s g es).Wf k := ite_wf h (modCore_wf h)
theorem barNote_wf {s : State} {g : Group} {p : Path} {i : Instr} (h : s.Wf k) : (barNote s g p i).Wf k := by
  unfold barNote
  split
  · exact h
  · split
    · exact h
    · exact modCore_wf h
theorem garnetIssue_wf {s : State} {g : Group} (h : s.Wf k) : (garnetIssue s g).Wf k := h
theorem prepare_wf {s : State} {gid : ℕ} {g : Group} {p : Path} {port : Port} {i : Instr} (h : s.Wf k) (hg : g.Wf k) :
    (prepare s gid g p port i).Wf k := by
  unfold prepare
  extract_lets t lane vas hits added g1 p1 _ g2 _ s1 s2
  have hg2 : g2.Wf k := setAge_wf (sfuDue_wf (landAll_wf hg))
  have hs2 : s2.Wf k := modCore_wf (fillCore_wf (setGroup_wf h hg2))
  exact barNote_wf (ite_wf (garnetIssue_wf hs2) hs2)
theorem tick_wf {s : State} {n : ℕ} (h : s.Wf k) : (tick s n).Wf k :=
  ite_wf h ((closeBars_wf h).mapGroups (fun _ => rfl) (fun _ he => ite_groupWf he (sfuDue_wf he)))
theorem fetchAhead_wf {s : State} {gid pid : ℕ} {lane : Bool} (h : s.Wf k) : (fetchAhead s gid pid lane).Wf k := by
  unfold fetchAhead
  split
  · exact h
  · next g p hg =>
      have hg := h.findWith hg
      extract_lets held pc held1 next
      refine ite_wf h ?_
      split
      · exact setGroup_wf h hg
      · exact h

/-! ### The operations of Machine/Turns -/

theorem readyWord_wf {mv : MovesOn} {s w : State} {gid : ℕ} {g : Group} {p : Path} {lane : Bool} {i : Instr} (h : s.Wf k) (h1 : w.Wf k)
    (hg : g.Wf k) : ReadyWf k (readyWord mv s w gid g p lane i) := by
  unfold readyWord
  refine ite_readyWf (ite_wf (recallCtx_wf h) h) ?_
  split
  · exact h
  · exact ite_readyWf (ite_wf (killContext_wf h1) (takeTrap_wf h1 hg)) (prepare_wf h1 hg)
theorem readyIssue_wf {mv : MovesOn} {s : State} {gid pid : ℕ} {lane : Bool} (h : s.Wf k) : ReadyWf k (readyIssue mv s gid pid lane) := by
  unfold readyIssue
  split
  · exact h
  · next g hg =>
      have hg := h.find hg
      split
      · exact h
      · extract_lets p
        refine ite_readyWf h ?_
        split
        · exact takeTrap_wf h hg
        · exact setMiss_wf h
        · extract_lets t1
          split
          · exact takeTrap_wf h hg
          · exact readyWord_wf h h hg
theorem readyDrain_wf {s : State} {c : ℕ} (h : s.Wf k) : ReadyWf k (readyDrain s c) := by
  unfold readyDrain
  split
  · refine ite_readyWf ?_ h
    split
    · split <;> exact h
    · exact h
  · exact h
theorem landEarly_wf {g : Group} {κ : ℕ} (hg : g.Wf k) : (landEarly g κ).Wf k := by
  unfold landEarly
  split
  · exact hg
  · exact landOne_wf hg
  · exact hg
theorem performTurn_wf {s : State} {gid id κ : ℕ} (h : s.Wf k) : (performTurn s gid id κ).Wf k := by
  unfold performTurn
  split
  · split
    · split
      · exact leaveXred_wf h
      · exact h
    · exact ite_wf h (performNth_wf h)
    · exact h
  · exact h
theorem engineTurn_wf {s : State} {st id : ℕ} (h : s.Wf k) : (engineTurn s st id).Wf k := by
  unfold engineTurn
  split
  · refine ite_wf ?_ h
    split
    · exact moveJob_wf h
    · exact moveJob_wf h
    · exact moveTile_wf h
  · exact h
theorem mailTurn_wf {s : State} {src dst : ℕ} (h : s.Wf k) : (mailTurn s src dst).Wf k :=
  ite_wf (foldl_wf (fun _ _ ht => sealDue_wf ht) (takeMail_wf h)) (takeMail_wf h)
theorem filterAccess_wf {s : State} {agent pa : ℕ} (h : s.Wf k) : (filterAccess s agent pa).Wf k := ite_wf h h
theorem microTurn_wf {s : State} {t : Turn} (h : s.Wf k) : (microTurn s t).Wf k := by
  unfold microTurn
  split
  · exact performTurn_wf h
  · exact modGroup_wf (fun _ hx => landEarly_wf hx) h
  · exact ite_wf (evictLine_wf h) h
  · exact modCore_wf h
  · split
    · exact ite_wf (dropLine_wf h) h
    · exact h
  · exact setMiss_wf h
  · exact engineTurn_wf h
  · exact bootStep_wf h
  · exact ite_wf h h
  · exact otherRequest_wf h
  · exact settleReplies_wf h
  · exact h
  · exact filterAccess_wf h
  · exact fetchAhead_wf h
  · exact h
  · exact tileFetch_wf h
  · exact sendMail_wf h
  · exact mailTurn_wf h
  · exact hostFill_wf h
  · exact h
  · exact correctByte_wf h
  · exact copyError_wf h
  · exact syncImage_wf h
  · exact iommuContext_wf h
  · exact rowRemap_wf h
  · exact rowRead_wf h
  · exact rowError_wf h
  · exact h
  · exact h
  · exact h
  · exact h
theorem elapse_wf {mv : MovesOn} {n : ℕ} {s : State} (h : s.Wf k) : (elapse mv s n).Wf k := by
  induction n generalizing s with
  | zero => exact h
  | succ n ih => exact ite_wf h (ih (tick_wf h))

/-! ### The operations of Machine/Step -/

theorem runReady_wf {r : Ready} (hr : ReadyWf k r) : OutWf k (runReady r) := by
  cases r with
  | stay s => exact hr
  | run i s => exact exec_wf hr
theorem runTurn_wf {s : State} {t : Turn} (h : s.Wf k) : OutWf k (runTurn s t) := by
  unfold runTurn
  split
  · exact runReady_wf (readyIssue_wf h)
  · exact ite_outWf (exec_wf h) h
  · exact runReady_wf (readyDrain_wf h)
  · exact elapse_wf h
  · exact microTurn_wf h
theorem issueMoves_wf {s : State} {r : Ready} {o : Out} (hr : ReadyWf k r) (e : issueMoves s r = some o) : OutWf k o := by
  cases r with
  | stay t =>
    dsimp only [issueMoves] at e
    split at e
    · cases e
    · cases e; exact hr
  | run i t => cases e; exact exec_wf hr
theorem drainMoves_wf {s : State} {r : Ready} {o : Out} (hr : ReadyWf k r) (e : drainMoves s r = some o) : OutWf k o := by
  cases r with
  | stay t =>
    dsimp only [drainMoves] at e
    split at e
    · cases e
    · cases e; exact hr
  | run i t =>
    have hx : OutWf k (exec i t) := exec_wf hr
    dsimp only [drainMoves] at e
    split at e
    · next hu =>
      split at e
      · cases e
      · cases e; exact hx.of_eq hu
    · cases e; exact hx
theorem moves_wf {s : State} {t : Turn} {o : Out} (h : s.Wf k) (e : moves s t = some o) : OutWf k o := by
  unfold moves at e
  split at e
  · exact issueMoves_wf (readyIssue_wf h) e
  · exact drainMoves_wf (readyDrain_wf h) e
  · have hx : OutWf k (runTurn s t) := runTurn_wf h
    split at e
    · next hu =>
      split at e
      · cases e
      · cases e; exact hx.of_eq hu
    · cases e; exact hx
theorem step_wf {s : State} (h : s.Wf k) : OutWf k (step s) := by
  unfold step
  refine ite_outWf ?_ ?_
  · split
    · exact runTurn_wf h
    · cases e : (ownTurns s).findSome? (moves s) with
      | none => exact tick_wf h
      | some o =>
        obtain ⟨t, -, ht⟩ := List.exists_of_findSome?_eq_some e
        exact moves_wf h ht
  · split
    · exact exec_wf h
    · trivial

/-- Settles O59: the outcome of a step has each of the three forms that the state had. -/
theorem memoryForm : Obligations.MemoryForm := by
  unfold Obligations.MemoryForm
  intro s t ht
  exact ⟨fun h => (step_wf (k := .memory) h).of_eq ht, fun h => (step_wf (k := .registers) h).of_eq ht,
    fun h => (step_wf (k := .keys) h).of_eq ht⟩

end Sys2Proof.Machine
end

section
/-! # The special registers (O2) -/
namespace Sys2Proof.Machine

variable {s : State} {g : Group} {p : Path}

/-- `SRD` of a register that reads as `v` writes `v`. -/
theorem srd_computes {d : SReg} {r : SpecialReg} {v : Word} (h : s.At g p) (hr : g.RegsOk) (hv : specialValue s g p r = v) :
    ComputesTo s g p (exec (.srd d r) s) [(d, v)] := by
  rw [exec_srd, ← hv]
  exact putScalar_spec d (fun g p => specialValue s g p r) h hr

/-! ### What the registers that look beyond the group read -/

theorem specialValue_fpflags_of_garnet {c : Garnet} (hc : g.garnet = some c) : specialValue s g p .fpflags = c.fp0.setWidth 32 := by
  simp [specialValue, hc]
theorem specialValue_fpflags_of_none (hc : g.garnet = none) : specialValue s g p .fpflags = g.fpflags.setWidth 32 := by
  simp [specialValue, hc]
theorem specialValue_clusterid {cl : Cluster} (hcl : clusterOf s g = some cl) :
    specialValue s g p .clusterid = BitVec.ofNat 32 cl.index := by
  simp [specialValue, hcl]
theorem specialValue_gpos {tm : Team} (htm : teamOf s g = some tm) :
    specialValue s g p .gpos = gposWord (kernOf s g) tm.idx g.idx g.part := by
  simp [specialValue, htm]

/-- A half of the cycle counter: `SRD` writes a register below `s61`, and the path's latch becomes `c`. -/
theorem writes_and_latches {d : SReg} (hd : d.toNat < 61) (c : Option Word) (v : Word) (h : s.At g p) (hr : g.RegsOk) :
    let r := sWrite (g, { advScalar s g p with cychi := c }) d v
    ∃ t g' p', Host.Outcome.next (keep s r.1 r.2) = (.next t : Out) ∧ t.At g' p' ∧ sRead g' p' d = v ∧ p'.cychi = c ∧ NextWord p p' ∧
      OnlyGroup s t := by
  intro r
  have hcychi : r.2 = { advScalar s g p with cychi := c } := by
    simp only [r, sWrite, hd, if_true]
  have hid : r.2.id = p.id := by simp [hcychi]
  have hread : sRead (putPath r.1 r.2) r.2 d = v := by
    rw [sRead_putPath, sRead_sWrite_after d d v hr.1]
    simp [afterWrites, hd]
  exact ⟨_, _, _, rfl, keep_at h hid (sWrite_paths _ _ _ _), hread, by rw [hcychi], by simp [NextWord, hcychi], keep_onlyGroup _ _ _⟩

/-- `SWR` of a register of the group goes on to the next word with the group that `f` gives. -/
theorem putSpecial_goes {a : SReg} {f : Group → Word → Group} {G : Group} (h : s.At g p) (hf : f g (sRead g p a) = G)
    (hG : G.paths = g.paths) : GoesTo s g p (putSpecial s a f) G { p with spc := p.spc + 4 } := by
  unfold putSpecial
  rw [onPath_at _ h, hf]
  exact goes_next h hG

theorem putTrapReg_paths (r : TrapReg) (v : Word) : (putTrapReg g r v).paths = g.paths := by
  cases r <;> rfl

theorem swrEjth_goes {a : SReg} (h : s.At g p) :
    GoesTo s g p (exec (.swrEjth a) s)
      (if 1 ≤ (sRead g p a).toNat ∧ (sRead g p a).toNat ≤ 8 then { g with ejth := sRead g p a } else g) { p with spc := p.spc + 4 } := by
  rw [exec_swrEjth, execSwrEjth]
  exact putSpecial_goes h rfl (by split <;> rfl)
theorem swrTrapState_of_none {a : SReg} {r : TrapReg} (h : s.At g p) (hn : g.handler = none) :
    GoesTo s g p (exec (.swrTrapState r a) s) g { p with spc := p.spc + 4 } := by
  rw [exec_swrTrapState, execSwrTrapState]
  exact putSpecial_goes h (by simp [hn]) rfl
theorem swrTrapState_of_some {a : SReg} {r : TrapReg} {c : HandlerCtx} (h : s.At g p) (hc : g.handler = some c) :
    GoesTo s g p (exec (.swrTrapState r a) s) (putTrapReg g r (sRead g p a)) { p with spc := p.spc + 4 } := by
  rw [exec_swrTrapState, execSwrTrapState]
  exact putSpecial_goes h (by simp [hc]) (putTrapReg_paths r _)

/-- Settles O2, register by register: the value that `SRD` gives, or the group that `SWR` leaves. -/
theorem specialRegisters : Obligations.SpecialRegisters := by
  unfold Obligations.SpecialRegisters
  refine ⟨fun s g p d h hr => ?_, fun s g p d h hr hd => ?_, fun s g p a h => ?_⟩
  · have own (r : SpecialReg) (v : Word) (hv : specialValue s g p r = v) : ComputesTo s g p (exec (.srd d r) s) [(d, v)] :=
      srd_computes h hr hv
    exact ⟨own .encrev _ rfl, own .ejth _ rfl, own .rjto _ rfl, own .role _ rfl, own .gang _ rfl, own .deadlanes _ rfl,
      own .deadm0 _ rfl, own .deadm1 _ rfl, own .deadm2 _ rfl, own .tcause _ rfl, own .tval0 _ rfl, own .tval1 _ rfl,
      own .tspc _ rfl, own .tlpc _ rfl, own .fpmode _ rfl, own .sigval _ rfl,
      fun hc => own .fpflags _ (specialValue_fpflags_of_none hc), fun c hc => own .fpflags _ (specialValue_fpflags_of_garnet hc),
      own .coreid _ rfl,
      fun tm cl htm hcl => ⟨own .clusterid _ (specialValue_clusterid hcl), own .gpos _ (specialValue_gpos htm)⟩⟩
  · rw [exec_srdCyclo, execSrdCyclo, onPath_at _ h, exec_srdCychi, execSrdCychi, onPath_at _ h]
    exact ⟨writes_and_latches hd _ _ h hr, writes_and_latches hd _ _ h hr⟩
  · rw [exec_swrRjto, execSwrRjto, exec_swrFpflags, execSwrFpflags]
    exact ⟨swrEjth_goes h, putSpecial_goes h rfl rfl, putSpecial_goes h rfl rfl, fun hn r => swrTrapState_of_none h hn,
      fun c hc => ⟨swrTrapState_of_some (r := .tcause) h hc, swrTrapState_of_some (r := .tval0) h hc,
        swrTrapState_of_some (r := .tval1) h hc, swrTrapState_of_some (r := .tspc) h hc, swrTrapState_of_some (r := .tlpc) h hc⟩⟩

end Sys2Proof.Machine
end

section
/-! # A `JMPV` whose targets all become paths may still trap (O17)

The clause of `Obligations.DivergentBranches` for targets that each find an entry asks nothing of the reconvergence stack, while the model traps
wherever the stack of the group holds more than 64 entries after the instruction (R128), even if the instruction pushes none. The clause is
about every state, those with more entries than R128 has among them: in `overfull` the group's one path has 65. With `stackUsed g ≤ 64` as
a premise, which the clauses next to it imply, the trap could not occur. -/
namespace Sys2Proof.Machine

/-- A path at `spc` 8 with two lanes and 65 entries on its stack, one more than R128 has. -/
def overfullPath : Path := { pathNew 0 8 0 3 with stack := List.replicate 65 (.reconv 0 0) }
/-- The group of that path: in `v0` lane 0 holds the target 0 and lane 1 the target 4. -/
def overfullGroup : Group := { groupNew 0 0 0 0 0 0 0 4 with paths := [overfullPath], vreg := [(vKey 0 1, 4)] }
/-- A module whose one group is that one. -/
def overfull : State := { State.reset with groups := [(0, overfullGroup)], cur := 0, curPath := 0 }

/-- Where the current path's scalar stream stands after an outcome. -/
def spcAfter (r : Out) : Option Word := match r with
  | .next u => (tabFind u.groups u.cur).bind (fun g => (findPath g u.curPath).map (fun p => p.spc))
  | _ => none

theorem spcAfter_of_at {u : State} {g : Group} {p : Path} (h : u.At g p) : spcAfter (.next u) = some p.spc := by
  obtain ⟨hg, hp⟩ := h
  simp [spcAfter, hg, hp]

theorem overfull_at : overfull.At overfullGroup overfullPath := by decide +kernel
theorem overfullGroup_regsOk : overfullGroup.RegsOk := by decide +kernel
theorem overfullGroup_clean : overfullGroup.Clean := by decide +kernel
theorem overfullGroup_slotFree : slotFree overfullGroup 0 = true := by decide +kernel
/-- The `JMPV` traps at its own place, without a path of its own for lane 1. -/
theorem overfull_jmpv_stays : spcAfter (exec (.jmpv 0 0) overfull) = some 8 := by decide +kernel

/-- Refutes O17: with 65 entries on the stack a `JMPV` whose two targets both find an entry traps, where the clause has it jump. -/
theorem not_divergentBranches : ¬ Obligations.DivergentBranches := by
  unfold Obligations.DivergentBranches
  rintro ⟨-, hjmpv⟩
  obtain ⟨-, -, hsplit, -⟩ := hjmpv overfull overfullGroup overfullPath 0 0 overfull_at overfullGroup_regsOk overfullGroup_clean
  obtain ⟨u, g', p', hu, hat, -, -, hspc, -⟩ := hsplit false 0 ⟨⟨0, by decide +kernel⟩, fun l _ => Nat.zero_le _⟩ (by decide +kernel)
    overfullGroup_slotFree rfl (by decide +kernel) (by decide +kernel) (by decide +kernel)
  have hstays : spcAfter (.next u) = some 8 := hu ▸ overfull_jmpv_stays
  rw [spcAfter_of_at hat, hspc] at hstays
  exact absurd hstays (by decide)

end Sys2Proof.Machine
end

section
/-! # Further laws of tables and home slices

What a lookup finds in a table whose values a map has changed or a filter has dropped, what a write at home slices leaves alone, and what a
core, a stack or a mailbox reads as once it has been written. -/
namespace Sys2Proof.Machine

variable {α β : Type}

/-! ### Tables -/

/-- A map that keeps keys changes the value that a lookup finds, and nothing else. -/
theorem tabFind_map {f : Nat × α → Nat × β} (hf : ∀ e, (f e).1 = e.1) (t : Tab α) (k : Nat) :
    tabFind (t.map f) k = (tabFind t k).map (fun v => (f (k, v)).2) := by
  induction t with
  | nil => rfl
  | cons e t ih =>
    obtain ⟨j, v⟩ := e
    rw [List.map_cons, show f (j, v) = (j, (f (j, v)).2) from Prod.ext (hf (j, v)) rfl]
    rcases lt_trichotomy k j with h | h | h
    · simp [tabFind, h]
    · subst h; simp [tabFind]
    · simp [tabFind, show ¬ k < j by omega, show k ≠ j by omega, ih]
/-- The same for a map that looks at the position too. -/
theorem tabFind_mapIdx {f : Nat → Nat × α → Nat × β} (hf : ∀ i e, (f i e).1 = e.1) (t : Tab α) (k : Nat) :
    ∃ i, tabFind (t.mapIdx f) k = (tabFind t k).map (fun v => (f i (k, v)).2) := by
  induction t generalizing f with
  | nil => exact ⟨0, rfl⟩
  | cons e t ih =>
    obtain ⟨j, v⟩ := e
    obtain ⟨i, hi⟩ := ih (f := fun i => f (i + 1)) (fun i e => hf _ _)
    rw [List.mapIdx_cons, show f 0 (j, v) = (j, (f 0 (j, v)).2) from Prod.ext (hf 0 (j, v)) rfl]
    rcases lt_trichotomy k j with h | h | h
    · exact ⟨0, by simp [tabFind, h]⟩
    · subst h; exact ⟨0, by simp [tabFind]⟩
    · exact ⟨i + 1, by simp [tabFind, show ¬ k < j by omega, show k ≠ j by omega, hi]⟩
/-- A filter drops the value that a lookup finds, or leaves it. -/
theorem tabFind_filter {t : Tab α} (q : Nat × α → Bool) (k : Nat) (h : tabSorted t = true) :
    tabFind (t.filter q) k = (tabFind t k).filter (fun v => q (k, v)) := by
  induction t with
  | nil => rfl
  | cons e t ih =>
    obtain ⟨j, v⟩ := e
    obtain ⟨ha, hs⟩ := tabSorted_cons.mp h
    have habove (hk : k ≤ j) : tabFind (t.filter q) k = none :=
      tabFind_of_above fun e he => Nat.lt_of_le_of_lt hk (ha e (List.mem_of_mem_filter he))
    cases hq : q (j, v) with
    | true =>
      rw [List.filter_cons_of_pos hq]
      rcases lt_trichotomy k j with hk | hk | hk
      · simp [tabFind, hk]
      · subst hk; simp [tabFind, Option.filter, hq]
      · simp [tabFind, show ¬ k < j by omega, show k ≠ j by omega, ih hs]
    | false =>
      rw [List.filter_cons_of_neg (by simp [hq])]
      rcases lt_trichotomy k j with hk | hk | hk
      · simp [tabFind, hk, habove (by omega)]
      · subst hk; simp [tabFind, Option.filter, hq, habove]
      · simp [tabFind, show ¬ k < j by omega, show k ≠ j by omega, ih hs]
/-- An entry of a sorted table is what a lookup of its key finds. -/
theorem tabFind_of_mem {t : Tab α} {k : Nat} {v : α} (hs : tabSorted t = true) (h : (k, v) ∈ t) : tabFind t k = some v := by
  induction t with
  | nil => cases h
  | cons e t ih =>
    obtain ⟨j, u⟩ := e
    obtain ⟨ha, hs⟩ := tabSorted_cons.mp hs
    rcases List.mem_cons.mp h with h | h
    · cases h; simp [tabFind]
    · have hk : j < k := ha _ h
      simp [tabFind, show ¬ k < j by omega, show k ≠ j by omega, ih hs h]

theorem mem_setIns {l : List Nat} {k m : Nat} : m ∈ setIns l k ↔ m = k ∨ m ∈ l := by
  induction l with
  | nil => simp [setIns]
  | cons j l ih =>
    simp only [setIns]
    split
    · simp
    · split
      · subst_vars; simp
      · simp only [List.mem_cons, ih]; tauto

/-! ### Cores and stacks -/

theorem coreOf_modCore_self (s : State) (c : Nat) (f : Core → Core) : coreOf (modCore s c f) c = f (coreOf s c) := by
  simp [coreOf, modCore, setCore, tabGet]
theorem stackOf_modStack (s : State) (k j : Nat) (f : Stack → Stack) :
    stackOf (modStack s k f) j = if j = k then f (stackOf s k) else stackOf s j := by
  simp only [stackOf, modStack, setStack, tabGet, tabFind_put]
  split <;> rfl
theorem stackOf_modStack_self (s : State) (k : Nat) (f : Stack → Stack) : stackOf (modStack s k f) k = f (stackOf s k) := by
  rw [stackOf_modStack, if_pos rfl]

/-! ### Writes at home slices -/

/-- A write at home slices changes memory and the reservations of harts, and nothing else. -/
theorem homePut_apart (s : State) (a : Nat) (v : Byte) (m : List Host.Cell) (r : Tab Nat) :
    { homePut s a v with mem := m, hartRes := r } = { s with mem := m, hartRes := r } := by
  unfold homePut; split <;> rfl
theorem homeWrite_apart (n : Nat) (s : State) (a x : Nat) (m : List Host.Cell) (r : Tab Nat) :
    { homeWrite n s a x with mem := m, hartRes := r } = { s with mem := m, hartRes := r } := by
  induction n generalizing s a x with
  | zero => rfl
  | succ n ih => rw [homeWrite, ih, homePut_apart]

theorem homePut_hartRes {s : State} {a : Nat} {v : Byte} {e : Nat × Nat} (he : e ∈ (homePut s a v).hartRes) : e ∈ s.hartRes := by
  unfold homePut at he
  split at he
  · exact he
  · exact List.mem_of_mem_filter he
theorem homeWrite_hartRes (n : Nat) {s : State} {a x : Nat} {e : Nat × Nat} (he : e ∈ (homeWrite n s a x).hartRes) : e ∈ s.hartRes := by
  induction n generalizing s a x with
  | zero => exact he
  | succ n ih => exact homePut_hartRes (ih he)
/-- It ends the reservations on the granule of its first byte (R387). -/
theorem homeWrite_ends_reservations {n : Nat} {s : State} {a x : Nat} (hn : 0 < n) (ht : tierOf a ≠ .flash) :
    ∀ e ∈ (homeWrite n s a x).hartRes, e.2 ≠ a / 64 := by
  obtain ⟨n, rfl⟩ : ∃ k, n = k + 1 := ⟨n - 1, by omega⟩
  intro e he
  have he := homeWrite_hartRes n he
  rw [homePut, if_neg ht] at he
  simpa using (List.mem_filter.mp he).2

theorem tierOf_hbm {pa : Nat} (h : pa < Config.hbmBytes) : tierOf pa = .hbm := by simp [tierOf, h]

end Sys2Proof.Machine
end

section
/-! # The pass of `LOOPH` over the lanes that want an item (O20)

`LOOPH` folds over its lanes; each of them takes from the queue what is left of it. `Passed` says what a pass over any list of lanes leaves,
and holds by induction on the lanes: a lane either finds an item that has not expired, or discards all that is left. -/
namespace Sys2Proof.Machine

/-! ### Taking from the queue (R32, R71) -/

/-- The items of a queue that can still be taken, and those that have expired. -/
def freshItems (t : Nat) (is : List Item) : List Item := is.filter (fun i => !expired i t)
def staleItems (t : Nat) (is : List Item) : List Item := is.filter (fun i => expired i t)
/-- The tags of items. -/
def itemTags (is : List Item) : List Word := is.map (fun i => (i.words[1]?).getD 0)
/-- No item will come any more: the feed of a launch is exhausted. -/
def feedSpent (l : Launch) : Bool := l.feedEnded || (decide (l.itemCount ≤ l.itemNext) && l.kept.isEmpty)
/-- The launch once items have been discarded: they are counted, and of all tags it keeps the first 20. -/
def discardAll (l : Launch) (is : List Item) : Launch :=
  { l with discarded := l.discarded + is.length, tags := (l.tags ++ itemTags is).take 20 }

variable {t ib : Nat} {l : Launch} {is : List Item}

theorem take_take_append {α : Type} (n : Nat) (a b : List α) : (a.take n ++ b).take n = (a ++ b).take n := by
  rw [List.take_append, List.take_append, List.take_take, List.length_take, min_self, show n - min n a.length = n - a.length by omega]

theorem discardAll_append (a b : List Item) : discardAll (discardAll l a) b = discardAll l (a ++ b) := by
  simp [discardAll, itemTags, take_take_append, Nat.add_assoc]
theorem discardAll_tags_le : (discardAll l is).tags.length ≤ 20 := by simp [discardAll]
theorem discardAll_nil (h : l.tags.length ≤ 20) : discardAll l [] = l := by
  simp [discardAll, itemTags, List.take_of_length_le h]

theorem takeItem_stale {i : Item} (hi : expired i t = true) (h : l.tags.length ≤ 20) :
    takeItem t (i :: is) l = takeItem t is (discardAll l [i]) := by
  have htags : (if l.tags.length < 20 then l.tags ++ [(i.words[1]?).getD 0] else l.tags) = (l.tags ++ itemTags [i]).take 20 := by
    split
    · rw [List.take_of_length_le (by simp [itemTags]; omega)]; rfl
    · rw [List.take_append_of_le_length (by omega), List.take_of_length_le h]
  rw [takeItem, if_pos hi, htags]; rfl

theorem takeItem_append_stale {rest : List Item} (hs : ∀ i ∈ is, expired i t = true) (h : l.tags.length ≤ 20) :
    takeItem t (is ++ rest) l = takeItem t rest (discardAll l is) := by
  induction is generalizing l with
  | nil => rw [discardAll_nil h, List.nil_append]
  | cons i is ih =>
    rw [List.cons_append, takeItem_stale (hs i List.mem_cons_self) h,
      ih (fun j hj => hs j (List.mem_cons_of_mem _ hj)) discardAll_tags_le, discardAll_append, List.singleton_append]

/-- With nothing but expired items left, all of them are discarded and the queue reports that it has none. -/
theorem takeItem_of_no_fresh (hf : freshItems t is = []) (h : l.tags.length ≤ 20) :
    takeItem t is l = (if feedSpent l then .exhausted else .empty, [], discardAll l is) := by
  have hs : ∀ i ∈ is, expired i t = true := by simpa [freshItems] using hf
  have e := takeItem_append_stale (rest := []) hs h
  rw [List.append_nil] at e
  rw [e]; rfl

/-- Where an item is left to take, the oldest one is taken and the expired items before it are discarded. -/
theorem takeItem_of_fresh {i : Item} {gs : List Item} (hf : freshItems t is = i :: gs) (h : l.tags.length ≤ 20) :
    ∃ pre rest, is = pre ++ i :: rest ∧ (∀ j ∈ pre, expired j t = true) ∧ expired i t = false ∧ freshItems t rest = gs ∧
      takeItem t is l = (.item i, rest, { discardAll l pre with delivered := l.delivered + 1 }) := by
  obtain ⟨pre, rest, rfl, hpre, hi, hrest⟩ := List.filter_eq_cons_iff.mp hf
  have hpre : ∀ j ∈ pre, expired j t = true := by simpa using hpre
  have hi : expired i t = false := by simpa using hi
  refine ⟨pre, rest, rfl, hpre, hi, hrest, ?_⟩
  rw [takeItem_append_stale hpre h]
  simp [takeItem, hi, discardAll]

/-! ### The eight registers of an item -/

theorem vKey_inj {v v' m m' : Nat} (hm : m < 96) (hm' : m' < 96) : vKey v m = vKey v' m' ↔ v = v' ∧ m = m' := by
  unfold vKey; omega

/-- Registers `b` up to `b + n` of a lane written with the words that `f` gives. -/
def writeWords (b m : Nat) (f : Nat → Word) (g : Group) (n : Nat) : Group :=
  (List.range n).foldl (fun g k => vWrite g (vKey (b + k) m) (f k) false) g

variable {b m : Nat} {f : Nat → Word} {g : Group}

theorem writeWords_succ (n : Nat) : writeWords b m f g (n + 1) = vWrite (writeWords b m f g n) (vKey (b + n) m) (f n) false := by
  simp only [writeWords, List.range_succ, List.foldl_append, List.foldl_cons, List.foldl_nil]

theorem writeWords_wf (n : Nat) (hg : tabWf 0 g.vreg = true) : tabWf 0 (writeWords b m f g n).vreg = true := by
  induction n with
  | zero => exact hg
  | succ n ih => rw [writeWords_succ]; exact tabWf_set _ _ ih
theorem writeWords_onlyVectors (n : Nat) : { writeWords b m f g n with vreg := g.vreg, vpoison := g.vpoison } = g := by
  induction n with
  | zero => rfl
  | succ n ih => rw [writeWords_succ]; exact ih
theorem writeWords_get (n : Nat) (hg : tabWf 0 g.vreg = true) {v m' : Nat} (hm : m < 96) (hm' : m' < 96) :
    tabGet 0 (writeWords b m f g n).vreg (vKey v m') = if m' = m ∧ b ≤ v ∧ v < b + n then f (v - b) else tabGet 0 g.vreg (vKey v m') := by
  induction n with
  | zero => rw [if_neg (by omega)]; rfl
  | succ n ih =>
    have hwf := writeWords_wf (b := b) (m := m) (f := f) n hg
    rw [writeWords_succ, vWrite, tabGet_set _ _ _ hwf, ih]
    by_cases hv : v = b + n ∧ m' = m
    · obtain ⟨rfl, rfl⟩ := hv
      simp
    · rw [if_neg (by rwa [vKey_inj hm' hm])]
      refine if_congr ?_ rfl rfl
      omega

/-! ### One lane of the pass -/

/-- The group after an item has been taken in a lane. -/
def giveItem (ib m : Nat) (g : Group) (i : Item) : Group :=
  writeWords ib m (fun k => (i.words[k]?).getD 0) g 8

theorem giveItem_wf {i : Item} (hg : tabWf 0 g.vreg = true) : tabWf 0 (giveItem ib m g i).vreg = true := writeWords_wf 8 hg
theorem giveItem_onlyVectors {i : Item} : { giveItem ib m g i with vreg := g.vreg, vpoison := g.vpoison } = g := writeWords_onlyVectors 8
theorem giveItem_get {i : Item} {v m' : Nat} (hg : tabWf 0 g.vreg = true) (hm : m < 96) (hm' : m' < 96) :
    tabGet 0 (giveItem ib m g i).vreg (vKey v m') =
      if m' = m ∧ ib ≤ v ∧ v < ib + 8 then (i.words[v - ib]?).getD 0 else tabGet 0 g.vreg (vKey v m') :=
  writeWords_get 8 hg hm hm'

theorem loophLane_takes {x : LoophPass} {m : Nat} {i : Item} {gs : List Item} (hf : freshItems t x.items = i :: gs)
    (h : x.launch.tags.length ≤ 20) :
    ∃ pre rest, x.items = pre ++ i :: rest ∧ (∀ j ∈ pre, expired j t = true) ∧ expired i t = false ∧ freshItems t rest = gs ∧
      loophLane t ib true x m = { x with
        items := rest, launch := { discardAll x.launch pre with delivered := x.launch.delivered + 1 },
        got := x.got ||| laneBit m, g := giveItem ib m x.g i } := by
  obtain ⟨pre, rest, hx, hpre, hi, hrest, he⟩ := takeItem_of_fresh hf h
  refine ⟨pre, rest, hx, hpre, hi, hrest, ?_⟩
  simp [loophLane, he, giveItem, writeWords]

theorem loophLane_finds_none {x : LoophPass} {m : Nat} (hf : freshItems t x.items = []) (h : x.launch.tags.length ≤ 20) :
    loophLane t ib true x m = { x with
      items := [], launch := discardAll x.launch x.items,
      hungry := if feedSpent x.launch then x.hungry else x.hungry ||| laneBit m,
      ended := if feedSpent x.launch then x.ended ||| laneBit m else x.ended } := by
  rw [loophLane, takeItem_of_no_fresh hf h]
  cases feedSpent x.launch <;> rfl

theorem laneBit_getLsbD {a m : Nat} (hm : m < 96) : (laneBit a).getLsbD m = true ↔ m = a := by
  simp [laneBit, hm]
  omega

/-! ### The whole pass -/

/-- What a pass over lanes `ls` makes of `x`. -/
structure Passed (t ib : Nat) (ls : List Nat) (x y : LoophPass) : Prop where
  got : ∀ m < 96, y.got.getLsbD m = true ↔ x.got.getLsbD m = true ∨ ∃ k < (freshItems t x.items).length, ls[k]? = some m
  hungry : ∀ m < 96, y.hungry.getLsbD m = true ↔
    x.hungry.getLsbD m = true ∨ (feedSpent x.launch = false ∧ ∃ k, (freshItems t x.items).length ≤ k ∧ ls[k]? = some m)
  ended : ∀ m < 96, y.ended.getLsbD m = true ↔
    x.ended.getLsbD m = true ∨ (feedSpent x.launch = true ∧ ∃ k, (freshItems t x.items).length ≤ k ∧ ls[k]? = some m)
  delivered : y.launch.delivered = x.launch.delivered + min ls.length (freshItems t x.items).length
  count : y.launch.delivered + y.launch.discarded + y.items.length = x.launch.delivered + x.launch.discarded + x.items.length
  items : ∃ n, y.items = x.items.drop n
  fresh : freshItems t y.items = (freshItems t x.items).drop ls.length
  emptied : (freshItems t x.items).length < ls.length ∨ x.items = [] →
    y.items = [] ∧ y.launch.tags = (x.launch.tags ++ itemTags (staleItems t x.items)).take 20
  group : { y.g with vreg := x.g.vreg, vpoison := x.g.vpoison } = x.g
  words : ∀ (k m : Nat) (i : Item), ls[k]? = some m → (freshItems t x.items)[k]? = some i → ∀ j < 8,
    tabGet 0 y.g.vreg (vKey (ib + j) m) = (i.words[j]?).getD 0
  frame : ∀ v m, m < 96 → ¬((∃ k < (freshItems t x.items).length, ls[k]? = some m) ∧ ib ≤ v ∧ v < ib + 8) →
    tabGet 0 y.g.vreg (vKey v m) = tabGet 0 x.g.vreg (vKey v m)

theorem exists_cons_lt {a m n : Nat} {ls : List Nat} :
    (∃ k < n + 1, (a :: ls)[k]? = some m) ↔ m = a ∨ ∃ k < n, ls[k]? = some m := by
  constructor
  · rintro ⟨k, hk, he⟩
    cases k with
    | zero => left; simpa using he.symm
    | succ k => right; exact ⟨k, by omega, by simpa using he⟩
  · rintro (rfl | ⟨k, hk, he⟩)
    · exact ⟨0, by omega, rfl⟩
    · exact ⟨k + 1, by omega, by simpa using he⟩
theorem exists_cons_ge {a m n : Nat} {ls : List Nat} :
    (∃ k, n + 1 ≤ k ∧ (a :: ls)[k]? = some m) ↔ ∃ k, n ≤ k ∧ ls[k]? = some m := by
  constructor
  · rintro ⟨k, hk, he⟩
    obtain ⟨j, rfl⟩ : ∃ j, k = j + 1 := ⟨k - 1, by omega⟩
    exact ⟨j, by omega, by simpa using he⟩
  · rintro ⟨k, hk, he⟩
    exact ⟨k + 1, by omega, by simpa using he⟩
theorem exists_cons_any {a m : Nat} {ls : List Nat} : (∃ k, 0 ≤ k ∧ (a :: ls)[k]? = some m) ↔ m = a ∨ ∃ k, 0 ≤ k ∧ ls[k]? = some m := by
  simp only [Nat.zero_le, true_and, ← List.mem_iff_getElem?, List.mem_cons]

theorem staleItems_append_fresh {pre rest : List Item} {i : Item} (hpre : ∀ j ∈ pre, expired j t = true) (hi : expired i t = false) :
    staleItems t (pre ++ i :: rest) = pre ++ staleItems t rest := by
  simp [staleItems, List.filter_append, hi, List.filter_eq_self.mpr hpre]
theorem staleItems_of_no_fresh (hf : freshItems t is = []) : staleItems t is = is :=
  List.filter_eq_self.mpr (by simpa [freshItems] using hf)

/-- A lane that finds an item, and then the lanes after it. -/
theorem Passed.cons_takes {ls : List Nat} {x y : LoophPass} {m : Nat} {i : Item} {gs pre rest : List Item}
    (hf : freshItems t x.items = i :: gs) (hx : x.items = pre ++ i :: rest) (hpre : ∀ j ∈ pre, expired j t = true)
    (hi : expired i t = false) (hrest : freshItems t rest = gs) (hg : tabWf 0 x.g.vreg = true) (hm : m < 96) (hnot : m ∉ ls)
    (h : Passed t ib ls { x with items := rest, launch := { discardAll x.launch pre with delivered := x.launch.delivered + 1 },
                                 got := x.got ||| laneBit m, g := giveItem ib m x.g i } y) :
    Passed t ib (m :: ls) x y := by
  have hlen : (freshItems t x.items).length = gs.length + 1 := by rw [hf]; rfl
  have hspent : feedSpent { discardAll x.launch pre with delivered := x.launch.delivered + 1 } = feedSpent x.launch := rfl
  have hno : ∀ k : Nat, ls[k]? ≠ some m := fun k hk => hnot (List.mem_of_getElem? hk)
  constructor
  case got =>
    intro a ha
    rw [h.got a ha, hlen, exists_cons_lt, hrest]
    simp only [BitVec.getLsbD_or, Bool.or_eq_true, laneBit_getLsbD ha, or_assoc]
  case hungry =>
    intro a ha
    rw [h.hungry a ha, hlen, exists_cons_ge, hrest, hspent]
  case ended =>
    intro a ha
    rw [h.ended a ha, hlen, exists_cons_ge, hrest, hspent]
  case delivered =>
    rw [h.delivered, hlen, hrest, List.length_cons]
    dsimp only; omega
  case count =>
    rw [h.count, hx]
    simp only [discardAll, List.length_append, List.length_cons]; omega
  case items =>
    obtain ⟨n, hn⟩ := h.items
    refine ⟨n + (pre.length + 1), ?_⟩
    have hrest : x.items.drop (pre.length + 1) = rest := by
      rw [hx, ← List.drop_drop, List.drop_left]; rfl
    rw [hn, Nat.add_comm n, ← List.drop_drop, hrest]
  case fresh => rw [h.fresh, hf, hrest]; rfl
  case emptied =>
    intro hl
    have hl : (freshItems t rest).length < ls.length := by
      rcases hl with hl | hl
      · rw [hlen, List.length_cons] at hl; rw [hrest]; omega
      · simp [hx] at hl
    obtain ⟨he, htags⟩ := h.emptied (Or.inl hl)
    refine ⟨he, ?_⟩
    rw [htags, hx, staleItems_append_fresh hpre hi]
    simp [discardAll, itemTags, take_take_append]
  case group =>
    have e := h.group
    calc { y.g with vreg := x.g.vreg, vpoison := x.g.vpoison }
        = { ({ y.g with vreg := (giveItem ib m x.g i).vreg, vpoison := (giveItem ib m x.g i).vpoison } : Group) with
            vreg := x.g.vreg, vpoison := x.g.vpoison } := rfl
      _ = { giveItem ib m x.g i with vreg := x.g.vreg, vpoison := x.g.vpoison } := by rw [e]
      _ = x.g := giveItem_onlyVectors
  case words =>
    intro k a j hk hj n hn
    cases k with
    | zero =>
      obtain rfl : m = a := by simpa using hk
      obtain rfl : i = j := by simpa [hf] using hj
      rw [h.frame _ _ hm (fun hc => by obtain ⟨⟨k, -, hk⟩, -⟩ := hc; exact hno k hk)]
      refine (giveItem_get hg hm hm).trans ?_
      rw [if_pos ⟨rfl, by omega, by omega⟩, Nat.add_sub_cancel_left]
    | succ k => exact h.words k a j (by simpa using hk) (by rw [hf] at hj; simpa [hrest] using hj) n hn
  case frame =>
    intro v a ha hc
    rw [hlen, exists_cons_lt] at hc
    rw [h.frame v a ha (fun hh => hc ⟨Or.inr (by rw [hrest] at hh; exact hh.1), hh.2⟩)]
    refine (giveItem_get hg hm ha).trans (if_neg fun hh => hc ⟨Or.inl hh.1, hh.2⟩)

/-- A lane that finds none, and then the lanes after it. -/
theorem Passed.cons_finds_none {ls : List Nat} {x y : LoophPass} {m : Nat} (hf : freshItems t x.items = [])
    (h : Passed t ib ls { x with
      items := [], launch := discardAll x.launch x.items,
      hungry := if feedSpent x.launch then x.hungry else x.hungry ||| laneBit m,
      ended := if feedSpent x.launch then x.ended ||| laneBit m else x.ended } y) :
    Passed t ib (m :: ls) x y := by
  have hlen : (freshItems t x.items).length = 0 := by rw [hf]; rfl
  have hnil : (freshItems t ([] : List Item)).length = 0 := rfl
  have hspent : feedSpent (discardAll x.launch x.items) = feedSpent x.launch := rfl
  constructor
  case got =>
    intro a ha
    rw [h.got a ha, hlen, hnil]
    simp
  case hungry =>
    intro a ha
    rw [h.hungry a ha, hlen, hnil, exists_cons_any, hspent]
    cases feedSpent x.launch <;> simp [laneBit_getLsbD ha, or_assoc]
  case ended =>
    intro a ha
    rw [h.ended a ha, hlen, hnil, exists_cons_any, hspent]
    cases feedSpent x.launch <;> simp [laneBit_getLsbD ha, or_assoc]
  case delivered => rw [h.delivered, hlen, hnil]; simp [discardAll]
  case count => rw [h.count]; simp [discardAll]; omega
  case items =>
    obtain ⟨n, hn⟩ := h.items
    exact ⟨x.items.length, by rw [hn]; simp⟩
  case fresh => rw [h.fresh, hf]; simp [freshItems]
  case emptied =>
    intro _
    obtain ⟨he, htags⟩ := h.emptied (Or.inr rfl)
    refine ⟨he, ?_⟩
    rw [htags, staleItems_of_no_fresh hf]
    simp [staleItems, discardAll, itemTags]
  case group => exact h.group
  case words => intro k a j _ hj; simp [hf] at hj
  case frame =>
    intro v a ha _
    exact h.frame v a ha (by rw [hnil]; simp)
/-- A pass over lanes, each named once, makes of `x` what `Passed` says. -/
theorem passed_foldl {ls : List Nat} {x : LoophPass} (hls : ∀ a ∈ ls, a < 96) (hn : ls.Nodup) (hg : tabWf 0 x.g.vreg = true)
    (ht : x.launch.tags.length ≤ 20) : Passed t ib ls x (ls.foldl (loophLane t ib true) x) := by
  induction ls generalizing x with
  | nil =>
    constructor <;> try simp
    case emptied => intro hx; simp [hx, staleItems, itemTags, List.take_of_length_le ht]
    case items => exact ⟨0, rfl⟩
  | cons m ls ih =>
    obtain ⟨hnot, hn⟩ := List.nodup_cons.mp hn
    have hls' : ∀ a ∈ ls, a < 96 := fun a ha => hls a (List.mem_cons_of_mem _ ha)
    rw [List.foldl_cons]
    cases hf : freshItems t x.items with
    | nil =>
      rw [loophLane_finds_none hf ht]
      exact Passed.cons_finds_none hf (ih hls' hn hg discardAll_tags_le)
    | cons i gs =>
      obtain ⟨pre, rest, hx, hpre, hi, hrest, he⟩ := loophLane_takes (ib := ib) (m := m) hf ht
      have hm := hls m List.mem_cons_self
      rw [he]
      refine Passed.cons_takes hf hx hpre hi hrest hg hm hnot (ih hls' hn (giveItem_wf hg) ?_)
      exact discardAll_tags_le

/-- Without items in the kernel every lane is done. -/
theorem foldl_loophLane_without_items (ls : List Nat) (x : LoophPass) :
    ∃ m, ls.foldl (loophLane t ib false) x = { x with ended := m } ∧
      ∀ a < 96, m.getLsbD a = true ↔ x.ended.getLsbD a = true ∨ a ∈ ls := by
  induction ls generalizing x with
  | nil => exact ⟨x.ended, rfl, by simp⟩
  | cons b ls ih =>
    obtain ⟨m, he, hm⟩ := ih { x with ended := x.ended ||| laneBit b }
    have hb : loophLane t ib false x b = { x with ended := x.ended ||| laneBit b } := rfl
    refine ⟨m, by rw [List.foldl_cons, hb, he], fun a ha => ?_⟩
    rw [hm a ha]
    simp [laneBit_getLsbD ha, or_assoc]

/-! ### What the instruction leaves -/

theorem vRead_of_no_pend {g : Group} (h : g.pend = []) (c key : Nat) : (vRead g c key).1 = tabGet 0 g.vreg key := by
  rw [vRead_eq, h]; rfl

/-- The lanes of a path that want an item (R159). -/
def wanting (p : Path) : Mask := ((p.mask ||| p.hungry) &&& p.owned) &&& ~~~ p.done
/-- The pass that `LOOPH` makes. -/
def loophPass (s : State) (g : Group) (p : Path) (la : Launch) : LoophPass :=
  (maskLanes (wanting p)).foldl (loophLane s.clock la.kern.ib (la.kern.flags.getLsbD 3))
    { items := (coreOf s g.core).items, launch := la, g := g, got := 0, hungry := 0, ended := 0 }
/-- The module once a pass has taken from the queue of a core and counted in its launch. -/
def passedState (s : State) (c ln : Nat) (x : LoophPass) : State :=
  { modCore s c (fun k => { k with items := x.items }) with launches := tabPut s.launches ln x.launch }

section
variable {s : State} {g : Group} {p q : Path} {la : Launch} {ln : Nat} {off : BitVec 14} {x : LoophPass}

theorem exec_looph_eq (h : s.At g p) (hh : g.handler = none) (hn : launchNo s g = some ln) (hl : tabFind s.launches ln = some la) :
    exec (.looph off) s =
      let x := loophPass s g p la
      let t := passedState s g.core ln x
      let q := { p with done := p.done ||| x.ended }
      if x.got ≠ 0 then .next (keep t x.g { advScalar t g q with mask := x.got, hungry := x.hungry, hold := .free })
      else if x.hungry ≠ 0 then .next (keep t x.g { q with hold := .looph })
      else .next (keep t x.g { jumpScalar t g q (target14 p off) with
        mask := q.done &&& p.owned, hungry := 0, done := 0, hold := .free }) := by
  have hlo : launchOf s g = some la := by rw [launchOf, hn]; exact hl
  rw [exec_looph, execLooph, onPath_at _ h, hh, hlo, hn]
  rfl

theorem keep_passedState_items (x : LoophPass) (g' : Group) (q : Path) :
    (coreOf (keep (passedState s g.core ln x) g' q) g.core).items = x.items :=
  congrArg Core.items (coreOf_modCore_self s g.core (fun k => { k with items := x.items }))

/-- What holds whatever the pass has found. -/
theorem looph_leaves (f : State → Group → Path → Launch → Prop) (h : s.At g p) (hid : q.id = p.id)
    (hg : { x.g with vreg := g.vreg, vpoison := g.vpoison } = g)
    (hcount : x.launch.delivered + x.launch.discarded + x.items.length = la.delivered + la.discarded + (coreOf s g.core).items.length)
    (hf : ∀ t, (coreOf t g.core).items = x.items → f t (putPath x.g q) q x.launch) {o : Out}
    (ho : o = .next (keep (passedState s g.core ln x) x.g q)) :
    ∃ t g' p' la', o = .next t ∧ t.At g' p' ∧ OtherPaths p g g' ∧ tabFind t.launches ln = some la' ∧
      { g' with vreg := g.vreg, vpoison := g.vpoison, paths := g.paths } = g ∧ (∀ a, homeByte t a = homeByte s a) ∧
      la'.delivered + la'.discarded + (coreOf t g.core).items.length =
        la.delivered + la.discarded + (coreOf s g.core).items.length ∧ f t g' p' la' := by
  have hp : x.g.paths = g.paths := by rw [← hg]
  refine ⟨_, putPath x.g q, q, x.launch, ho, keep_at (s := passedState s g.core ln x) h hid hp, putPath_others hid hp,
    tabFind_put_self _ _ _, ?_, homeByte_congr rfl rfl rfl, ?_,
    hf _ (keep_passedState_items _ _ _)⟩
  · calc { putPath x.g q with vreg := g.vreg, vpoison := g.vpoison, paths := g.paths }
        = { ({ x.g with vreg := g.vreg, vpoison := g.vpoison } : Group) with paths := g.paths } := rfl
      _ = g := by rw [hg]
  · rw [keep_passedState_items]; exact hcount

/-! ### The lanes that the masks of a pass name -/

theorem maskLanes_lt {m : Mask} {a : Nat} (ha : a ∈ maskLanes m) : a < 96 := List.mem_range.mp (List.mem_of_mem_filter ha)
theorem mem_maskLanes {m : Mask} {a : Nat} (ha : a < 96) : a ∈ maskLanes m ↔ m.getLsbD a = true := by simp [maskLanes, ha]
theorem maskLanes_nodup (m : Mask) : (maskLanes m).Nodup := List.nodup_range.filter _

theorem mask_ext {a b : Mask} (hab : ∀ m < 96, a.getLsbD m = true ↔ b.getLsbD m = true) : a = b :=
  BitVec.eq_of_getLsbD_eq fun m hm => Bool.eq_iff_iff.mpr (hab m hm)

theorem wanting_ne_zero (h : maskLanes (wanting p) ≠ []) : wanting p ≠ 0 := fun e => h (by rw [e]; rfl)

/-- The pass of a kernel with items, over the lanes that want one. -/
theorem passed_loophPass (hi : la.kern.flags.getLsbD 3 = true) (hg : tabWf 0 g.vreg = true) (ht : la.tags.length ≤ 20) :
    Passed s.clock la.kern.ib (maskLanes (wanting p))
      { items := (coreOf s g.core).items, launch := la, g := g, got := 0, hungry := 0, ended := 0 } (loophPass s g p la) := by
  rw [loophPass, hi]
  exact passed_foldl (fun _ => maskLanes_lt) (maskLanes_nodup _) hg ht

/-- With no item left to take, every lane that wants one is hungry, or done where the feed is exhausted. -/
theorem loophPass_of_no_fresh (hi : la.kern.flags.getLsbD 3 = true) (hg : tabWf 0 g.vreg = true) (ht : la.tags.length ≤ 20)
    (hf : freshItems s.clock (coreOf s g.core).items = []) :
    (loophPass s g p la).got = 0 ∧ (loophPass s g p la).hungry = (if feedSpent la then 0 else wanting p) ∧
      (loophPass s g p la).ended = (if feedSpent la then wanting p else 0) := by
  have hp := passed_loophPass (p := p) (s := s) hi hg ht
  have hlanes {m : Nat} (hm : m < 96) : (∃ k : Nat, (freshItems s.clock (coreOf s g.core).items).length ≤ k ∧
      (maskLanes (wanting p))[k]? = some m) ↔ (wanting p).getLsbD m = true := by
    rw [hf, ← mem_maskLanes hm, List.mem_iff_getElem?]
    simp
  refine ⟨mask_ext fun m hm => ?_, mask_ext fun m hm => ?_, mask_ext fun m hm => ?_⟩
  · rw [hp.got m hm]
    simp [hf]
  · rw [hp.hungry m hm, hlanes hm]
    cases feedSpent la <;> simp
  · rw [hp.ended m hm, hlanes hm]
    cases feedSpent la <;> simp

/-- Without items in the kernel, or with no lane that wants one, the pass takes nothing and every lane that wants one is done. -/
theorem loophPass_without_items (h : la.kern.flags.getLsbD 3 = false ∨ maskLanes (wanting p) = []) :
    loophPass s g p la =
      { items := (coreOf s g.core).items, launch := la, g := g, got := 0, hungry := 0, ended := wanting p } := by
  unfold loophPass
  rcases h with h | h
  · rw [h]
    obtain ⟨m, he, hm⟩ := foldl_loophLane_without_items (t := s.clock) (ib := la.kern.ib) (maskLanes (wanting p))
      { items := (coreOf s g.core).items, launch := la, g := g, got := 0, hungry := 0, ended := 0 }
    have hm : m = wanting p := mask_ext fun a ha => by rw [hm a ha, mem_maskLanes ha]; simp
    rw [he, hm]
  · have hw : wanting p = 0 := mask_ext fun a ha => by rw [← mem_maskLanes ha, h]; simp
    rw [h, hw]; rfl

/-- The path that has branched, but for its signature. -/
theorem branched_path {t : State} {m : Mask} (hm : m = wanting p) :
    { ({ jumpScalar t g { p with done := p.done ||| m } (target14 p off) with
          mask := (p.done ||| m) &&& p.owned, hungry := 0, done := 0, hold := .free } : Path) with sig := p.sig } =
      { p with spc := p.spc + 4 * off.signExtend 32, mask := (p.done ||| wanting p) &&& p.owned, hungry := 0, done := 0,
               hold := .free } := by
  subst hm
  exact congrArg (fun (q : Path) => { q with mask := (p.done ||| wanting p) &&& p.owned, hungry := 0, done := 0, hold := .free })
    (jumpScalar_apart t g { p with done := p.done ||| wanting p } (target14 p off) p.sig)

/-! ### The four outcomes -/

section
variable (h : s.At g p) (hh : g.handler = none) (hn : launchNo s g = some ln) (hl : tabFind s.launches ln = some la)
include h hh hn hl

/-- Some lane has got an item: the path goes on. -/
theorem looph_goes_on (hx : (loophPass s g p la).got ≠ 0) :
    let x := loophPass s g p la
    let t := passedState s g.core ln x
    exec (.looph off) s = .next (keep t x.g
      { advScalar t g { p with done := p.done ||| x.ended } with mask := x.got, hungry := x.hungry, hold := .free }) := by
  rw [exec_looph_eq h hh hn hl]
  exact if_pos hx
/-- No lane has got one and one is hungry: the path waits. -/
theorem looph_waits (hx : (loophPass s g p la).got = 0) (hy : (loophPass s g p la).hungry ≠ 0) :
    let x := loophPass s g p la
    exec (.looph off) s = .next (keep (passedState s g.core ln x) x.g { p with done := p.done ||| x.ended, hold := .looph }) := by
  rw [exec_looph_eq h hh hn hl]
  exact (if_neg (not_not_intro hx)).trans (if_pos hy)
/-- Every lane is done: the path branches. -/
theorem looph_branches (hx : (loophPass s g p la).got = 0) (hy : (loophPass s g p la).hungry = 0) :
    let x := loophPass s g p la
    let t := passedState s g.core ln x
    exec (.looph off) s = .next (keep t x.g
      { jumpScalar t g { p with done := p.done ||| x.ended } (target14 p off) with
        mask := (p.done ||| x.ended) &&& p.owned, hungry := 0, done := 0, hold := .free }) := by
  rw [exec_looph_eq h hh hn hl]
  exact (if_neg (not_not_intro hx)).trans (if_neg (not_not_intro hy))
end
end

theorem advScalar_done (s : State) (g : Group) (p : Path) : (advScalar s g p).done = p.done := by
  simpa using congrArg Path.done (advScalar_apart s g p 0)

/-- A group whose vector registers alone have changed, stored back with a path, reads them as they stand where no result is in flight. -/
theorem vRead_putPath_of_no_pend {g g' : Group} {q : Path} {c key : Nat} (hg : { g' with vreg := g.vreg, vpoison := g.vpoison } = g)
    (hp : g.pend = []) : (vRead (putPath g' q) c key).1 = tabGet 0 g'.vreg key :=
  vRead_of_no_pend (g := putPath g' q) ((congrArg Group.pend hg).trans hp) c key

/-- Settles O20: the pass over the lanes that want an item (`Passed`), and the outcome by what it has found. -/
theorem itemLoop : Obligations.ItemLoop := by
  unfold Obligations.ItemLoop
  intro s g p off la ln h hh hn hl hpend hwf htags w want all good bad spent after keeps leaves
  have zero (m : Nat) : ¬ (0 : Mask).getLsbD m = true := by simp
  have first (hwant : want ≠ []) : ∃ m < 96, want[0]? = some m := by
    obtain ⟨m, ms, he⟩ := List.exists_cons_of_ne_nil hwant
    have hm : m ∈ maskLanes (wanting p) := (he ▸ List.mem_cons_self : m ∈ want)
    exact ⟨m, maskLanes_lt hm, by rw [he]; rfl⟩
  refine ⟨fun hi hwant hgood => ?_, fun hi hwant hgood hspent => ?_, fun hi hwant hgood hspent => ?_, fun hno => ?_⟩
  · have hp := passed_loophPass (p := p) (s := s) hi hwf htags
    have hgot : (loophPass s g p la).got ≠ 0 := by
      intro e
      obtain ⟨m, hm, hm0⟩ := first hwant
      have := (hp.got m hm).mpr (Or.inr ⟨0, List.length_pos_of_ne_nil hgood, hm0⟩)
      rw [e] at this
      exact zero m this
    refine looph_leaves _ h ?_ hp.group hp.count (fun t ht => ?_) (looph_goes_on h hh hn hl hgot)
    · exact advScalar_id _ _ _
    refine ⟨fun m hm => (hp.got m hm).trans (or_iff_right (zero m)), fun m hm => (hp.hungry m hm).trans (or_iff_right (zero m)),
      fun m hm => ?_, congrArg (fun (q : Path) => { q with mask := p.mask, hungry := p.hungry, done := p.done, hold := .free })
        (advScalar_apart _ g _ p.sig), fun k m i hm hi j hj => ?_, fun v m hm hc => ?_, hp.delivered, ?_, ?_,
      fun hlt => (hp.emptied (Or.inl hlt)).2⟩
    · dsimp only
      rw [advScalar_done, BitVec.getLsbD_or, Bool.or_eq_true]
      exact or_congr Iff.rfl ((hp.ended m hm).trans (or_iff_right (zero m)))
    · exact (vRead_putPath_of_no_pend hp.group hpend).trans (hp.words k m i hm hi j hj)
    · rw [vRead_putPath_of_no_pend hp.group hpend, vRead_of_no_pend hpend]
      exact hp.frame v m hm hc
    · rw [ht]; exact hp.items
    · rw [ht]; exact hp.fresh
  · have hp := passed_loophPass (p := p) (s := s) hi hwf htags
    obtain ⟨hgot, hhungry, hended⟩ := loophPass_of_no_fresh (p := p) hi hwf htags hgood
    have hnone : freshItems s.clock (coreOf s g.core).items = [] := hgood
    have hspent : feedSpent la = false := hspent
    rw [hspent] at hhungry hended
    have hlt : good.length < want.length := by rw [hgood]; exact List.length_pos_of_ne_nil hwant
    refine looph_leaves _ h ?_ hp.group hp.count (fun t ht => ?_) (looph_waits h hh hn hl hgot (hhungry ▸ wanting_ne_zero hwant))
    · rfl
    refine ⟨fun v m hm => ?_, ?_, ?_, ?_, (hp.emptied (Or.inl hlt)).2⟩
    · rw [vRead_putPath_of_no_pend hp.group hpend, vRead_of_no_pend hpend]
      exact hp.frame v m hm (by rw [hnone]; simp)
    · rw [hended]; simp
    · rw [ht]; exact (hp.emptied (Or.inl hlt)).1
    · rw [hp.delivered, hnone]; simp
  · have hp := passed_loophPass (p := p) (s := s) hi hwf htags
    obtain ⟨hgot, hhungry, hended⟩ := loophPass_of_no_fresh (p := p) hi hwf htags hgood
    have hnone : freshItems s.clock (coreOf s g.core).items = [] := hgood
    have hspent : feedSpent la = true := hspent
    rw [hspent] at hhungry hended
    have hlt : good.length < want.length := by rw [hgood]; exact List.length_pos_of_ne_nil hwant
    refine looph_leaves _ h ?_ hp.group hp.count (fun t ht => ?_) (looph_branches h hh hn hl hgot hhungry)
    · exact jumpScalar_id (passedState s g.core ln _) g _ (target14 p off)
    refine ⟨⟨fun v m hm => ?_, branched_path hended⟩, ?_, ?_⟩
    · rw [vRead_putPath_of_no_pend hp.group hpend, vRead_of_no_pend hpend]
      exact hp.frame v m hm (by rw [hnone]; simp)
    · rw [ht]; exact (hp.emptied (Or.inl hlt)).1
    · rw [hp.delivered, hnone]; simp
  · have hx := loophPass_without_items (s := s) (g := g) hno
    have hgo := looph_branches (off := off) h hh hn hl (by rw [hx]) (by rw [hx])
    rw [hx] at hgo
    refine looph_leaves _ h ?_ rfl rfl (fun t ht => ?_) hgo
    · exact jumpScalar_id (passedState s g.core ln _) g _ (target14 p off)
    exact ⟨⟨fun v m hm => rfl, branched_path rfl⟩, ht, rfl⟩
end Sys2Proof.Machine
end

section
/-! # The module in its system (O49)

A hart's access is a translation and then an effect at one place of HBM; both have a lemma of their own (`hartWalk_maps`,
`exec_hart_writes`), which the PCIe port shares. Ports, power and resets follow from what their operations do to the tables that they
change. -/
namespace Sys2Proof.Machine

/-! ### What a hart writes (R387) -/

/-- A hart's access at an HBM address answers a state in which the `n` bytes from there hold `x`: every other byte of HBM stays, the
reservations on the granule are gone, and nothing else has changed. -/
def HartWrites (s : State) (n pa : Nat) (o : Out) (x : Nat) : Prop :=
  ∃ t, o = .next t ∧ homeNat t n pa = x ∧ (∀ a, a < Config.hbmBytes → (a < pa ∨ pa + n ≤ a) → homeByte t a = homeByte s a) ∧
    (∀ e ∈ t.hartRes, e.2 ≠ pa / 64) ∧ { t with mem := s.mem, hartRes := s.hartRes } = s

theorem homeNat_lt (s : State) (n pa : Nat) : homeNat s n pa < 256 ^ n := by
  unfold homeNat
  induction n generalizing pa with
  | zero => simp [bytesNat]
  | succ n ih =>
    have hb := (homeByte s pa).isLt
    have := ih (pa + 1)
    rw [bytesNat, Nat.pow_succ]
    omega
theorem hbm_outside_pcie {pa : Nat} (h : pa < Config.hbmBytes) : inPcie pa = false := by
  have : Config.hbmBytes ≤ Config.pcieBase := by decide
  simp [inPcie, show ¬ Config.pcieBase ≤ pa by omega]
theorem hartMay_hbm (load : Bool) {pa : Nat} (h : pa < Config.hbmBytes) : hartMay load pa = true := by simp [hartMay, tierOf_hbm h]
theorem hartPlace_physical {via : HartVia} (s : State) (hr : via.root = none) (load : Bool) (addr : Nat) :
    hartPlace s via load addr = .ok (addr, 0) := by
  simp [hartPlace, hr]

section
variable {s : State} {via : HartVia} {op : HartOp} {n pa : Nat}

/-- A write of a hart, whatever becomes of the reservations before it. -/
theorem homeWrite_hartWrites (r : Tab Nat) {x y : Nat} (hn : 0 < n) (hpa : pa + n ≤ Config.hbmBytes) (hp : s.promoted = []) (hm : s.MemOk)
    (hy : y % 256 ^ n = x) : HartWrites s n pa (.next (homeWrite n { s with hartRes := r } pa y)) x := by
  have ht : tierOf pa ≠ .flash := by rw [tierOf_hbm (by omega)]; decide
  refine ⟨_, rfl, ?_, fun a ha ho => ?_, homeWrite_ends_reservations hn ht, homeWrite_apart _ _ _ _ _ _⟩
  · exact (homeNat_write n (s := { s with hartRes := r }) pa y hpa hp hm).trans hy
  · exact (homeByte_write_out n (s := { s with hartRes := r }) y hpa ha hp hm ho).trans (homeByte_congr rfl rfl rfl a)

/-- An access by a physical address of HBM is performed there. -/
theorem exec_hartAccess_hbm (op : HartOp) (hb : s.boot = 6) (hr : via.root = none) (h : pa < Config.hbmBytes) :
    exec (.hartAccess ⟨via, op⟩ pa) s = .next (hartDo s via.hart op pa) := by
  simp [execHartAccess, hb, hartPlace_physical s hr, hbm_outside_pcie h, hartMay_hbm _ h]
/-- The effect of an access that writes is a write of the value that its effect gives. -/
theorem hartDo_effect {hart : Nat} {ns : List Nat} {f : Nat → Nat} (he : hartEffect op = some (n, ns, f)) (hn : n ∈ ns)
    (hal : pa % n = 0) : hartDo s hart op pa = homeWrite n s pa (f (homeNat s n pa)) := by
  unfold hartDo
  split
  · cases he
  · cases he
  · rw [he]; exact if_pos ⟨hn, hal⟩
theorem exec_hart_writes (hb : s.boot = 6) (hr : via.root = none) (h0 : 0 < n) (hal : pa % n = 0) (hpa : pa + n ≤ Config.hbmBytes)
    (hp : s.promoted = []) (hm : s.MemOk) {ns : List Nat} {f : Nat → Nat} (he : hartEffect op = some (n, ns, f)) (hn : n ∈ ns) {x : Nat}
    (hx : f (homeNat s n pa) % 256 ^ n = x) : HartWrites s n pa (exec (.hartAccess ⟨via, op⟩ pa) s) x := by
  rw [exec_hartAccess_hbm op hb hr (by omega), hartDo_effect he hn hal]
  exact homeWrite_hartWrites s.hartRes h0 hpa hp hm hx

end

/-! ### The value of each atomic (R387) -/

/-- Numbers of a width with the same signed value are equal. -/
theorem intVal_signed_inj {w x y : Nat} (hw : 0 < w) (hx : x < 2 ^ w) (hy : y < 2 ^ w) (h : intVal w true x = intVal w true y) : x = y := by
  obtain ⟨k, rfl⟩ : ∃ k, w = k + 1 := ⟨w - 1, by omega⟩
  have hk : (2 : Int) ^ (k + 1) = 2 * (2 ^ k : Nat) := by push_cast; ring
  simp only [intVal, Nat.mod_eq_of_lt hx, Nat.mod_eq_of_lt hy, Bool.true_and, decide_eq_true_eq, Nat.add_sub_cancel, hk] at h
  split at h <;> split at h <;> omega
theorem intVal_unsigned {w x : Nat} (hx : x < 2 ^ w) : intVal w false x = x := by simp [intVal, Nat.mod_eq_of_lt hx]

section
variable {n old v : Nat}

theorem lt_two_pow_bits {n x : Nat} (h : x < 256 ^ n) : x < 2 ^ (8 * n) := by rwa [Nat.pow_mul]
theorem lt_bytes {n x : Nat} (h : x < 2 ^ (8 * n)) : x < 256 ^ n := by rwa [Nat.pow_mul] at h

theorem hartAmo_bits (ho : old < 256 ^ n) : hartAmo .and n old v % 256 ^ n = old &&& v % 256 ^ n ∧
    hartAmo .or n old v % 256 ^ n = old ||| v % 256 ^ n ∧ hartAmo .xor n old v % 256 ^ n = old ^^^ v % 256 ^ n := by
  have ho := lt_two_pow_bits ho
  have hx : v % 256 ^ n < 2 ^ (8 * n) := lt_two_pow_bits (Nat.mod_lt _ (by positivity))
  exact ⟨Nat.mod_eq_of_lt (lt_bytes (Nat.and_lt_two_pow _ hx)), Nat.mod_eq_of_lt (lt_bytes (Nat.or_lt_two_pow ho hx)),
    Nat.mod_eq_of_lt (lt_bytes (Nat.xor_lt_two_pow ho hx))⟩

theorem hartAmo_unsigned (ho : old < 256 ^ n) :
    hartAmo .minu n old v % 256 ^ n = min old (v % 256 ^ n) ∧ hartAmo .maxu n old v % 256 ^ n = max old (v % 256 ^ n) := by
  have hx : v % 256 ^ n < 256 ^ n := Nat.mod_lt _ (by positivity)
  have hio := intVal_unsigned (lt_two_pow_bits ho)
  have hix := intVal_unsigned (lt_two_pow_bits hx)
  simp only [hartAmo, hio, hix, Int.ofNat_le, decide_eq_true_eq]
  constructor <;> split <;> rw [Nat.mod_eq_of_lt (by assumption)] <;> omega

theorem hartAmo_signed (hn : 0 < n) (ho : old < 256 ^ n) :
    (intVal (8 * n) true old ≤ intVal (8 * n) true (v % 256 ^ n) →
      hartAmo .min n old v % 256 ^ n = old ∧ hartAmo .max n old v % 256 ^ n = v % 256 ^ n) ∧
    (intVal (8 * n) true (v % 256 ^ n) ≤ intVal (8 * n) true old →
      hartAmo .min n old v % 256 ^ n = v % 256 ^ n ∧ hartAmo .max n old v % 256 ^ n = old) := by
  have hx : v % 256 ^ n < 256 ^ n := Nat.mod_lt _ (by positivity)
  have hinj := intVal_signed_inj (by omega) (lt_two_pow_bits ho) (lt_two_pow_bits hx)
  simp only [hartAmo, decide_eq_true_eq]
  refine ⟨fun h => ?_, fun h => ?_⟩
  · simp only [if_pos h, Nat.mod_eq_of_lt ho, Nat.mod_mod, and_self]
  · split
    · next h' =>
      rw [← hinj (le_antisymm h' h), Nat.mod_eq_of_lt ho]
      exact ⟨rfl, rfl⟩
    · exact ⟨Nat.mod_mod _ _, Nat.mod_eq_of_lt ho⟩

end

/-! ### Harts at physical addresses -/

section
variable {s : State} {via : HartVia} {n pa : Nat} {v w : Dword}

theorem harts_store (hb : s.boot = 6) (hr : via.root = none) (hn : n ∈ [1, 2, 4, 8]) (hal : pa % n = 0) (hpa : pa + n ≤ Config.hbmBytes)
    (hp : s.promoted = []) (hm : s.MemOk) :
    let old := homeNat s n pa
    let v' := v.toNat % 256 ^ n
    let writes := fun (op : HartOp) (x : Nat) => HartWrites s n pa (exec (.hartAccess ⟨via, op⟩ pa) s) x
    writes (.storeN n v) v' ∧ (n = 8 → writes (.store v) v' ∧ writes (.swap v) v' ∧ writes (.add v) ((old + v') % 256 ^ n)) := by
  have h0 : 0 < n := by simp at hn; omega
  refine ⟨exec_hart_writes hb hr h0 hal hpa hp hm rfl hn (Nat.mod_mod _ _), fun h8 => ?_⟩
  subst h8
  refine ⟨?_, ?_, ?_⟩ <;> refine exec_hart_writes hb hr h0 hal hpa hp hm rfl (by simp) ?_
  · rfl
  · rfl
  · show (_ + _) % 2 ^ 64 % 2 ^ 64 = (_ + _ % 2 ^ 64) % 2 ^ 64
    omega

theorem harts_reserve (hb : s.boot = 6) (hr : via.root = none) (hn : n = 4 ∨ n = 8) (hal : pa % n = 0) (hpa : pa + n ≤ Config.hbmBytes)
    (hp : s.promoted = []) (hm : s.MemOk) :
    exec (.hartAccess ⟨via, .lr n⟩ pa) s = .next { s with hartRes := tabPut s.hartRes via.hart (pa / 64) } ∧
    (tabFind s.hartRes via.hart = some (pa / 64) →
      HartWrites s n pa (exec (.hartAccess ⟨via, .sc n v⟩ pa) s) (v.toNat % 256 ^ n)) ∧
    (tabFind s.hartRes via.hart ≠ some (pa / 64) →
      exec (.hartAccess ⟨via, .sc n v⟩ pa) s = .next { s with hartRes := tabDel s.hartRes via.hart }) := by
  have hmem : n ∈ [4, 8] := by simpa using hn
  have ex (op : HartOp) := exec_hartAccess_hbm (via := via) op hb hr (show pa < Config.hbmBytes by omega)
  refine ⟨?_, fun h => ?_, fun h => ?_⟩
  · rw [ex, hartDo, hartReserve, if_pos ⟨hmem, hal⟩]
  · rw [ex, hartDo, hartConditional, if_pos ⟨hmem, hal⟩, if_pos h]
    exact homeWrite_hartWrites _ (by omega) hpa hp hm (Nat.mod_mod _ _)
  · rw [ex, hartDo, hartConditional, if_pos ⟨hmem, hal⟩, if_neg h]

theorem harts_atomics (hb : s.boot = 6) (hr : via.root = none) (hn : n = 4 ∨ n = 8) (hal : pa % n = 0) (hpa : pa + n ≤ Config.hbmBytes)
    (hp : s.promoted = []) (hm : s.MemOk) :
    let old := homeNat s n pa
    let v' := v.toNat % 256 ^ n
    let less := fun (x y : Nat) => intVal (8 * n) true x ≤ intVal (8 * n) true y
    let writes := fun (op : HartOp) (x : Nat) => HartWrites s n pa (exec (.hartAccess ⟨via, op⟩ pa) s) x
    writes (.amo .swap n v) v' ∧ writes (.amo .add n v) ((old + v') % 256 ^ n) ∧
      writes (.amo .and n v) (old &&& v') ∧ writes (.amo .or n v) (old ||| v') ∧
      writes (.amo .xor n v) (old ^^^ v') ∧ writes (.amo .minu n v) (min old v') ∧
      writes (.amo .maxu n v) (max old v') ∧ (less old v' → writes (.amo .min n v) old ∧ writes (.amo .max n v) v') ∧
      (less v' old → writes (.amo .min n v) v' ∧ writes (.amo .max n v) old) ∧
      writes (.cas n w v) (if old = w.toNat % 256 ^ n then v' else old) ∧
      exec (.hartAccess ⟨via, .lr n⟩ pa) s = .next { s with hartRes := tabPut s.hartRes via.hart (pa / 64) } ∧
      (tabFind s.hartRes via.hart = some (pa / 64) → writes (.sc n v) v') ∧
      (tabFind s.hartRes via.hart ≠ some (pa / 64) →
        exec (.hartAccess ⟨via, .sc n v⟩ pa) s = .next { s with hartRes := tabDel s.hartRes via.hart }) := by
  intro old v' less writes
  have ho : old < 256 ^ n := homeNat_lt s n pa
  have hmem : n ∈ [4, 8] := by simpa using hn
  have amo (op : HartAmo) {x : Nat} (hx : hartAmo op n old v.toNat % 256 ^ n = x) : writes (.amo op n v) x :=
    exec_hart_writes hb hr (by omega) hal hpa hp hm rfl hmem hx
  obtain ⟨hand, hor, hxor⟩ := hartAmo_bits (v := v.toNat) ho
  obtain ⟨hmin, hmax⟩ := hartAmo_unsigned (v := v.toNat) ho
  obtain ⟨hle, hge⟩ := hartAmo_signed (v := v.toNat) (by omega) ho
  refine ⟨amo _ (Nat.mod_mod _ _), amo _ (Nat.mod_mod _ _), amo _ hand, amo _ hor, amo _ hxor, amo _ hmin, amo _ hmax,
    fun h => ⟨amo _ (hle h).1, amo _ (hle h).2⟩, fun h => ⟨amo _ (hge h).1, amo _ (hge h).2⟩, ?_, harts_reserve hb hr hn hal hpa hp hm⟩
  refine exec_hart_writes hb hr (by omega) hal hpa hp hm rfl hmem ?_
  show (if old = _ then _ else old) % _ = _
  split
  · exact Nat.mod_mod _ _
  · exact Nat.mod_eq_of_lt ho

end

/-! ### Harts through their tables (R387) -/

/-- The permissions that a page with flags `fl` asks of a hart's access. -/
def HartMayUse (via : HartVia) (load : Bool) (fl : Nat) : Prop :=
  (via.user = true → fl.testBit 4 = true) ∧ (via.user = false → via.sum = false → fl.testBit 4 = false) ∧
    (load = true → fl.testBit 1 = true ∨ via.mxr = true ∧ fl.testBit 3 = true) ∧ (load = false → fl.testBit 2 = true) ∧
    fl.testBit 6 = true ∧ (load = false → fl.testBit 7 = true)

/-- They hold where none of the leaf's three checks, of the user bit, of the permission and of A and D, refuses. -/
theorem hartMayUse_iff {via : HartVia} {load : Bool} {fl : Nat} : HartMayUse via load fl ↔
    (if via.user then !fl.testBit 4 else fl.testBit 4 && !via.sum) = false ∧
    (if load then !(fl.testBit 1 || (via.mxr && fl.testBit 3)) else !fl.testBit 2) = false ∧
    (!fl.testBit 6 || (!load && !fl.testBit 7)) = false := by
  unfold HartMayUse
  cases via.user <;> cases load <;> simp <;> grind

theorem bitN_eq_testBit (x i : Nat) : bitN x i = x.testBit i := by rw [bitN, Nat.testBit_eq_decide_div_mod_eq]
/-- An entry's flags are its own low bits. -/
theorem bitN_entry {ppn fl i : Nat} (hi : i < 10) (hf : fl < 256) : bitN (ppn * 2 ^ 10 + fl) i = fl.testBit i := by
  rw [bitN_eq_testBit, Nat.mul_comm, Nat.testBit_two_pow_mul_add _ (by omega), if_pos hi]

section
variable {s : State} {via : HartVia} {load : Bool} {va ppn fl : Nat}

theorem hartLeaf_page (hf : fl < 256) (hp : ppn < 2 ^ 44) :
    (HartMayUse via load fl → hartLeaf via load va (ppn * 2 ^ 10 + fl) 0 = some (4096 * ppn + va % 4096, 0)) ∧
    (¬ HartMayUse via load fl → hartLeaf via load va (ppn * 2 ^ 10 + fl) 0 = none) := by
  have h63 : bitN (ppn * 2 ^ 10 + fl) 63 = false := by simp only [bitN, decide_eq_false_iff_not]; omega
  have hppn : (ppn * 2 ^ 10 + fl) / 2 ^ 10 % 2 ^ 44 = ppn := by omega
  have hpb : (ppn * 2 ^ 10 + fl) / 2 ^ 61 % 4 = 0 := by omega
  have hleaf : hartLeaf via load va (ppn * 2 ^ 10 + fl) 0 =
      if (if via.user then !fl.testBit 4 else fl.testBit 4 && !via.sum) then none
      else if (if load then !(fl.testBit 1 || (via.mxr && fl.testBit 3)) else !fl.testBit 2) then none
      else if !fl.testBit 6 || (!load && !fl.testBit 7) then none else some (4096 * ppn + va % 4096, 0) := by
    have bit {i : Nat} (hi : i < 10) := bitN_entry (ppn := ppn) hi hf
    simp only [hartLeaf, hppn, hpb, h63, bit (i := 1) (by omega), bit (i := 2) (by omega), bit (i := 3) (by omega),
      bit (i := 4) (by omega), bit (i := 6) (by omega), bit (i := 7) (by omega)]
    simp [Nat.mul_comm]
  rw [hleaf, hartMayUse_iff]
  generalize (if via.user then !fl.testBit 4 else fl.testBit 4 && !via.sum) = u
  generalize (if load then !(fl.testBit 1 || (via.mxr && fl.testBit 3)) else !fl.testBit 2) = x
  generalize (!fl.testBit 6 || (!load && !fl.testBit 7)) = ad
  cases u <;> cases x <;> cases ad <;> simp

/-- A pointer entry leads the walk to the table that it names. -/
theorem hartWalk_pointer {lv q : Nat} (hm : ppn * 4096 + 4096 ≤ Config.hbmBytes) (hq : q < 2 ^ 44)
    (h : homeNat s 8 (ppn * 4096 + va / 2 ^ (12 + 9 * (lv + 1)) % 512 * 8) = q * 2 ^ 10 + 1) :
    hartWalk s via load va (lv + 1) ppn = hartWalk s via load va lv q := by
  have hmay := hartMay_hbm true (show ppn * 4096 + va / 2 ^ (12 + 9 * (lv + 1)) % 512 * 8 < Config.hbmBytes by omega)
  have bit {i : Nat} (hi : i < 10) := bitN_entry (ppn := q) hi (show 1 < 256 by omega)
  have hq' : (q * 2 ^ 10 + 1) / 2 ^ 10 % 2 ^ 44 = q := by omega
  rw [hartWalk]
  simp only [hmay, h, bit (i := 0) (by omega), bit (i := 1) (by omega), bit (i := 2) (by omega), bit (i := 3) (by omega), hq',
    show (q * 2 ^ 10 + 1) / 2 ^ 54 % 2 ^ 7 = 0 by omega, show (q * 2 ^ 10 + 1) / 2 ^ 61 = 0 by omega]
  simp [Nat.testBit]
/-- A leaf entry ends it. -/
theorem hartWalk_leaf (hm : ppn * 4096 + 4096 ≤ Config.hbmBytes) {q : Nat} (hq : q < 2 ^ 44) (hf : fl < 256) (h1 : fl % 2 = 1)
    (hrwx : fl / 2 % 8 ∉ [0, 2, 6]) (h : homeNat s 8 (ppn * 4096 + va / 4096 % 512 * 8) = q * 2 ^ 10 + fl) :
    (HartMayUse via load fl → hartWalk s via load va 0 ppn = .ok (4096 * q + va % 4096, 0)) ∧
    (¬ HartMayUse via load fl → hartWalk s via load va 0 ppn = .error (pageFault load)) := by
  have hmay := hartMay_hbm true (show ppn * 4096 + va / 4096 % 512 * 8 < Config.hbmBytes by omega)
  have hform : ¬ ((!bitN (q * 2 ^ 10 + fl) 0) = true ∨ (bitN (q * 2 ^ 10 + fl) 2 = true ∧ (!bitN (q * 2 ^ 10 + fl) 1) = true) ∨
      (q * 2 ^ 10 + fl) / 2 ^ 54 % 2 ^ 7 ≠ 0 ∨ (q * 2 ^ 10 + fl) / 2 ^ 61 % 4 = 3) := by
    simp only [bitN, List.mem_cons, List.not_mem_nil, Bool.not_eq_true', decide_eq_true_eq, decide_eq_false_iff_not] at hrwx ⊢
    omega
  have hleaf : bitN (q * 2 ^ 10 + fl) 1 = true ∨ bitN (q * 2 ^ 10 + fl) 3 = true := by
    simp only [bitN, List.mem_cons, List.not_mem_nil, decide_eq_true_eq] at hrwx ⊢
    omega
  have hw : hartWalk s via load va 0 ppn =
      match hartLeaf via load va (q * 2 ^ 10 + fl) 0 with | some x => .ok x | none => .error (pageFault load) := by
    rw [hartWalk]
    simp only [Nat.mul_zero, Nat.add_zero, show (2 : Nat) ^ 12 = 4096 from rfl, hmay, h, if_neg hform, if_pos hleaf]
    rfl
  obtain ⟨hyes, hno⟩ := hartLeaf_page (via := via) (load := load) (va := va) hf hq
  exact ⟨fun hu => by rw [hw, hyes hu], fun hu => by rw [hw, hno hu]⟩

/-- Five levels of tables that map a page take a hart's access to that page, or to a page fault. -/
theorem hartPlace_maps {r : Nat} (hr : via.root = some r) (h : HartMaps s r va ppn fl) :
    (HartMayUse via load fl → hartPlace s via load va = .ok (4096 * ppn + va % 4096, 0)) ∧
    (¬ HartMayUse via load fl → hartPlace s via load va = .error (pageFault load)) := by
  obtain ⟨tb, h4, htb, hptr, hleaf, hf, h1, hrwx, hppn, hcan⟩ := h
  have hbm : Config.hbmBytes ≤ 2 ^ 56 := by decide
  have hlt {k : Nat} (hk : k ≤ 4) : tb k < 2 ^ 44 := by have := (htb k hk).1; omega
  have down {k : Nat} (hk : k < 4) : hartWalk s via load va (k + 1) (tb (k + 1)) = hartWalk s via load va k (tb k) := by
    refine hartWalk_pointer (htb (k + 1) (by omega)).1 (hlt (by omega)) ?_
    rw [show 12 + 9 * (k + 1) = 21 + 9 * k by omega]
    exact hptr k hk
  have hplace : hartPlace s via load va = hartWalk s via load va 0 (tb 0) := by
    simp only [hartPlace, hr, hcan, if_true]
    rw [← h4, down (k := 3) (by omega), down (k := 2) (by omega), down (k := 1) (by omega), down (k := 0) (by omega)]
  rw [hplace]
  exact hartWalk_leaf (htb 0 (by omega)).1 (by omega) hf h1 hrwx hleaf

end

/-- What R387 says of a hart's access through its own tables. -/
theorem harts_translate {s : State} {via : HartVia} (op : HartOp) {r va ppn fl : Nat} (hb : s.boot = 6) (hr : via.root = some r)
    (h : HartMaps s r va ppn fl) :
    (HartMayUse via (hartLoads op) fl → exec (.hartAccess ⟨via, op⟩ va) s =
      exec (.hartAccess ⟨{ via with root := none }, op⟩ (4096 * ppn + va % 4096)) s) ∧
    (¬ HartMayUse via (hartLoads op) fl → exec (.hartAccess ⟨via, op⟩ va) s =
      .next { s with hartFaults := tabPut s.hartFaults via.hart (if hartLoads op then 13 else 15, va) }) := by
  obtain ⟨hyes, hno⟩ := hartPlace_maps (load := hartLoads op) hr h
  have hpa : 4096 * ppn + va % 4096 < Config.hbmBytes := by
    obtain ⟨_, _, _, _, _, _, _, _, hppn, _⟩ := h
    omega
  refine ⟨fun hu => ?_, fun hu => ?_⟩
  · rw [exec_hartAccess_hbm op hb rfl hpa]
    simp [execHartAccess, hb, hyes hu, hbm_outside_pcie hpa, hartMay_hbm _ hpa]
  · simp [execHartAccess, hb, hno hu, hartFault, pageFault]

/-! ### What the device refuses, and the PCIe port (R387, R391) -/

section
variable {s : State} {via : HartVia} {op : HartOp} {pa : Nat}

theorem harts_refused (hb : s.boot = 6) (hr : via.root = none) :
    (Config.pcieBase ≤ pa → pa < Config.pcieBase + Config.pcieBytes → exec (.hartAccess ⟨via, op⟩ pa) s = .next s) ∧
    (pa < Config.pcieBase ∨ Config.pcieBase + Config.pcieBytes ≤ pa →
      tierOf pa = .priv ∨ tierOf pa = .none ∨ tierOf pa = .flash ∧ hartLoads op = false → exec (.hartAccess ⟨via, op⟩ pa) s =
        .next { s with hartFaults := tabPut s.hartFaults via.hart (if hartLoads op then 5 else 7, pa) }) := by
  refine ⟨fun h1 h2 => by simp [execHartAccess, hb, hartPlace_physical s hr, inPcie, h1, h2], fun ho ht => ?_⟩
  have hin : inPcie pa = false := by simp only [inPcie, Bool.and_eq_false_iff, decide_eq_false_iff_not]; omega
  have hmay : hartMay (hartLoads op) pa = false := by
    obtain h | h | ⟨h, hl⟩ := ht <;> simp [hartMay, h]
    exact hl
  simp [execHartAccess, hb, hartPlace_physical s hr, hin, hmay, hartFault, accessFault]

end

section
variable {s : State} {dev pasid va : Nat}

theorem pcie_unsupported (hb : s.boot = 6) (h : tabFind s.iommu (2 ^ 20 * dev + pasid) = none) (wr : Option (Nat × Dword)) :
    exec (.pcieInboundRequest ⟨dev, pasid⟩ va wr) s = .next { s with pcieUr := s.pcieUr ++ [(dev, va)] } := by
  simp only [exec_pcieInboundRequest, execPcieInboundRequest, hb, ne_eq, not_true, if_false, iommuPlace, iommuRoot, h]

/-- A page of user mode, read and written, of the IOMMU's tables places an inbound request. -/
theorem iommuPlace_maps {r ppn : Nat} (h : tabFind s.iommu (2 ^ 20 * dev + pasid) = some r) (hmap : HartMaps s r va ppn 0xD7) (load : Bool) :
    iommuPlace s dev pasid load va = some (4096 * ppn + va % 4096) := by
  have hpa : 4096 * ppn + va % 4096 < Config.hbmBytes := by
    obtain ⟨_, _, _, _, _, _, _, _, hppn, _⟩ := hmap
    omega
  have huse : HartMayUse ⟨0, some r, true, false, false⟩ load 0xD7 := by cases load <;> simp [HartMayUse, Nat.testBit]
  have hplace := (hartPlace_maps (via := ⟨0, some r, true, false, false⟩) rfl hmap).1 huse
  simp only [iommuPlace, iommuRoot, h, hplace, hartMay_hbm load hpa, if_true]

theorem pcie_writes {n r ppn : Nat} {v : Dword} (hb : s.boot = 6) (h : tabFind s.iommu (2 ^ 20 * dev + pasid) = some r)
    (hmap : HartMaps s r va ppn 0xD7) (hn : n ∈ [1, 2, 4, 8]) (hal : va % n = 0) (hp : s.promoted = []) (hm : s.MemOk) :
    exec (.pcieInboundRequest ⟨dev, pasid⟩ va none) s = .next s ∧
    HartWrites s n (4096 * ppn + va % 4096) (exec (.pcieInboundRequest ⟨dev, pasid⟩ va (some (n, v))) s) (v.toNat % 256 ^ n) := by
  have hppn : ppn * 4096 + 4096 ≤ Config.hbmBytes := by
    obtain ⟨_, _, _, _, _, _, _, _, hppn, _⟩ := hmap
    exact hppn
  obtain ⟨hn0, hal', hend⟩ : 0 < n ∧ (4096 * ppn + va % 4096) % n = 0 ∧ va % 4096 + n ≤ 4096 := by
    simp only [List.mem_cons, List.not_mem_nil, or_false] at hn
    obtain rfl | rfl | rfl | rfl := hn <;> omega
  refine ⟨by simp [execPcieInboundRequest, hb, iommuPlace_maps h hmap], ?_⟩
  have hex : exec (.pcieInboundRequest ⟨dev, pasid⟩ va (some (n, v))) s =
      .next (homeWrite n s (4096 * ppn + va % 4096) (v.toNat % 256 ^ n)) := by
    simp only [exec_pcieInboundRequest, execPcieInboundRequest, hb, ne_eq, not_true, if_false, iommuPlace_maps h hmap, hn, hal', and_self,
      if_true, hartWrite]
  rw [hex]
  exact homeWrite_hartWrites s.hartRes hn0 (by omega) hp hm (Nat.mod_mod _ _)

end

/-! ### Ports (R392) -/

theorem connectionSetup_iff {s : State} {port peer : Nat} (h : port < 32) :
    (port ∉ s.portsDown → exec (.connectionSetup port ⟨peer, true⟩) s = .next { s with peers := tabPut s.peers port peer }) ∧
    (port ∈ s.portsDown → exec (.connectionSetup port ⟨peer, true⟩) s = .next s) ∧
    exec (.connectionSetup port ⟨peer, false⟩) s = .next s := by
  refine ⟨fun hd => ?_, fun hd => ?_, ?_⟩ <;> simp [execConnectionSetup, *]

/-- The other port that a failure moves to is a connected one that reaches the same peer; there is none only where no port does. -/
theorem otherPort_reaches {s : State} {port peer : Nat} (h : tabFind s.peers port = some peer) :
    let reach := fun (q : Nat) => (q, peer) ∈ s.peers ∧ q ≠ port ∧ q ∉ s.portsDown
    ((∃ q, reach q) → ∃ q, reach q ∧ otherPort s port = some q) ∧ ((∀ q, ¬ reach q) → otherPort s port = none) := by
  intro reach
  have hreach {e : Nat × Nat} (he : e ∈ s.peers) :
      (decide (e.1 ≠ port) && e.2 = peer && !(e.1 ∈ s.portsDown)) = true ↔ reach e.1 ∧ e.2 = peer := by
    obtain ⟨q, p⟩ := e
    simp only [reach, Bool.and_eq_true, decide_eq_true_eq, Bool.not_eq_true', decide_eq_false_iff_not]
    refine ⟨fun ⟨⟨hne, hpe⟩, hup⟩ => ?_, fun ⟨⟨_, hne, hup⟩, hpe⟩ => ⟨⟨hne, hpe⟩, hup⟩⟩
    subst hpe
    exact ⟨⟨he, hne, hup⟩, rfl⟩
  simp only [otherPort, h, Option.bind_some]
  cases hf : s.peers.find? (fun e => decide (e.1 ≠ port) && e.2 = peer && !(e.1 ∈ s.portsDown)) with
  | none =>
    refine ⟨fun ⟨q, hq⟩ => ?_, fun _ => rfl⟩
    exact absurd ((hreach hq.1).mpr ⟨hq, rfl⟩) (List.find?_eq_none.mp hf _ hq.1)
  | some e =>
    have hp := List.find?_some hf
    have he := (hreach (List.mem_of_find?_eq_some hf)).mp hp
    exact ⟨fun _ => ⟨e.1, he.1, rfl⟩, fun hno => absurd he.1 (hno _)⟩

/-- A collective after a port's failure. -/
def movedPort (s : State) (port : Nat) (c : Collective) : Collective :=
  if c.port = some port then { c with port := otherPort s port } else c
theorem movedPort_port (s : State) (port : Nat) (c : Collective) : { movedPort s port c with port := c.port } = c ∧
    (c.port ≠ some port → (movedPort s port c).port = c.port) ∧
    (c.port = some port → (movedPort s port c).port = otherPort s port) := by
  unfold movedPort
  refine ⟨by split <;> rfl, fun h => by rw [if_neg h], fun h => by rw [if_pos h]⟩
/-- A port's failure moves its collectives to that port, and leaves the others as they were. -/
theorem portFailure_moves (s : State) {port : Nat} (h : port < 32) : ∃ t, exec (.portFailure port) s = .next t ∧ port ∈ t.portsDown ∧
    t.collectives.map (fun e => e.1) = s.collectives.map (fun e => e.1) ∧ t.groups = s.groups ∧ t.mem = s.mem ∧
    ∀ n, tabFind t.collectives n = (tabFind s.collectives n).map (movedPort s port) := by
  simp only [exec_portFailure, execPortFailure, show ¬ 32 ≤ port by omega, if_false]
  refine ⟨_, rfl, mem_setIns.mpr (.inl rfl), ?_, rfl, rfl, fun n => ?_⟩
  · rw [List.map_map]
    refine List.map_congr_left fun e _ => ?_
    simp only [Function.comp_apply]
    split <;> rfl
  · dsimp only
    rw [tabFind_map (fun e => by split <;> rfl)]
    congr 1; funext c
    simp only [movedPort]
    split <;> rfl

/-! ### Power (R288, R394, R395) -/

/-- What lifetime records leave alone: memory, power, and the count of draws. -/
def shutView (s : State) : List Host.Cell × Bool × Nat := (s.mem, s.powered, s.draws)

theorem shutView_flushReplies (s : State) (n : Nat) : shutView (flushReplies s n) = shutView s := by
  induction n generalizing s with
  | zero => rfl
  | succ n ih =>
    rw [flushReplies]
    split
    · rfl
    · split
      · split
        · exact ih _
        · rfl
      · rfl
theorem shutView_sendMail (s : State) (src dst : Nat) (m : BitVec 512) : shutView (sendMail s src dst m) = shutView s := by
  rw [sendMail]; split <;> rfl
theorem shutView_sealDue (s : State) (name : Nat) : shutView (sealDue s name) = shutView s := by
  rw [sealDue]
  split
  · split
    · exact (shutView_flushReplies _ _).trans (shutView_sendMail _ _ _ _)
    · rfl
  · rfl
theorem shutView_endLife (s : State) (st : Nat) : shutView (endLife s st) = shutView s := by
  rw [endLife]
  split
  · exact shutView_sealDue _ _
  · rfl
theorem shutView_beginLife (s : State) (st : Nat) : shutView (beginLife s st) = shutView s := by
  rw [beginLife]; split <;> rfl
/-- A lifetime record takes one draw and writes nothing to memory. -/
theorem shutView_appendLife (s : State) (st : Nat) : shutView (appendLife s st) = (s.mem, s.powered, s.draws + 1) := by
  unfold appendLife
  extract_lets bytes s1 s2
  have hs2 : shutView s2 = (s.mem, s.powered, s.draws + 1) := by
    dsimp only [s2]
    split
    · rfl
    · exact (shutView_beginLife _ _).trans (shutView_endLife _ _)
  split
  · split
    · split
      · exact hs2
      · exact hs2
    · exact hs2
  · exact hs2
theorem shutView_appendLives (l : List Nat) (s : State) :
    shutView (l.foldl appendLife s) = (s.mem, s.powered, s.draws + l.length) := by
  induction l generalizing s with
  | nil => rfl
  | cons st l ih =>
    obtain ⟨hm, hp, hd⟩ : (appendLife s st).mem = s.mem ∧ (appendLife s st).powered = s.powered ∧ (appendLife s st).draws = s.draws + 1 := by
      simpa only [shutView, Prod.mk.injEq] using shutView_appendLife s st
    rw [List.foldl_cons, ih, hm, hp, hd, List.length_cons, Nat.add_assoc, Nat.add_comm 1]

theorem shutdowns_record (s : State) :
    (∃ t, exec .thermalShutdown s = .next t ∧ t.powered = false ∧ t.draws = s.draws + 48 ∧ t.mem = s.mem) ∧
    (∃ t, exec .orderlyShutdown s = .next t ∧ t.powered = s.powered ∧ t.draws = s.draws + 48 ∧ t.mem = s.mem) := by
  have h := shutView_appendLives (List.range Config.stackCount) s
  simp only [exec_thermalShutdown, execThermalShutdown, exec_orderlyShutdown, execOrderlyShutdown]
  generalize (List.range Config.stackCount).foldl appendLife s = t at h ⊢
  simp only [shutView, Prod.mk.injEq, List.length_range] at h
  obtain ⟨hm, hp, hd⟩ := h
  exact ⟨⟨_, rfl, rfl, hd, hm⟩, ⟨_, rfl, hp, hd, hm⟩⟩

/-! ### Resets (R396) -/

/-- What a reset keeps of a segment. -/
theorem survive_keeps (g : Segment) (draw : Nat) : (survive g draw).attach = none ∧ (survive g draw).state = g.state ∧
    (survive g draw).pa = g.pa ∧ (survive g draw).z = g.z ∧ g.durable ≤ (survive g draw).durable ∧
    (survive g draw).sealedLen = g.sealedLen :=
  ⟨rfl, rfl, rfl, rfl, Nat.le_add_right _ _, rfl⟩

theorem restart_segment {s : State} {name : Nat} {x : Segment} (h : tabFind s.segments name = some x) :
    ∃ draw, tabFind (restart s).segments name = some (survive x draw) := by
  obtain ⟨i, hi⟩ := tabFind_mapIdx (f := fun i e => (e.1, survive e.2 (s.draws + i))) (fun _ _ => rfl) s.segments name
  exact ⟨s.draws + i, hi.trans (by rw [h]; rfl)⟩
/-- The entry of a stack after a reset. -/
def stackKept (e : Nat × Stack) : Nat × Stack := (e.1, { stackZero with lifeSegs := e.2.lifeSegs, rowsKept := e.2.rowsKept })
theorem restart_stks (s : State) : (restart s).stks = (s.stks.filter (fun e => !e.2.lifeSegs.isEmpty)).map stackKept := rfl
theorem restart_stack {s : State} {k : Nat} (hs : tabSorted s.stks = true) (h : (stackOf s k).lifeSegs ≠ []) :
    (stackOf (restart s) k).lifeSegs = (stackOf s k).lifeSegs ∧ (stackOf (restart s) k).rowsKept = (stackOf s k).rowsKept := by
  have hf : tabFind (restart s).stks k = ((tabFind s.stks k).filter (fun v => !v.lifeSegs.isEmpty)).map (fun v =>
      { stackZero with lifeSegs := v.lifeSegs, rowsKept := v.rowsKept }) := by
    rw [restart_stks, tabFind_map (f := stackKept) (fun _ => rfl), tabFind_filter _ _ hs]
    rfl
  simp only [stackOf, tabGet, hf] at h ⊢
  cases hv : tabFind s.stks k with
  | none => simp [hv] at h; exact absurd rfl h
  | some v =>
    simp only [hv, Option.getD_some] at h
    simp [Option.filter, h]
theorem restart_core (s : State) (c : Nat) :
    (tabSorted s.cores = true → (coreOf (restart s) c).swaps = (coreOf s c).swaps) ∧ (coreOf (restart s) c).spad = [] := by
  constructor
  · intro hs
    have hf : tabFind (restart s).cores c = ((tabFind s.cores c).filter (fun v => !v.swaps.isEmpty)).map (fun v =>
        { coreZero with swaps := v.swaps }) := by
      rw [restart_cores, tabFind_map (f := coreKept) (fun _ => rfl), tabFind_filter _ _ hs]
      rfl
    simp only [coreOf, tabGet, hf]
    cases hv : tabFind s.cores c with
    | none => rfl
    | some v =>
      cases hw : v.swaps with
      | nil => simp [Option.filter, hw]; rfl
      | cons x xs => simp [Option.filter, hw]
  · rw [coreOf, tabGet, restart_cores, tabFind_map (f := coreKept) (fun _ => rfl)]
    cases tabFind (s.cores.filter (fun e => !e.2.swaps.isEmpty)) c <;> rfl

/-- What a reset clears and what it keeps. -/
theorem restart_keeps (s : State) {i : Instr} (hi : i = .coldReset ∨ i = .warmReset) : ∃ t, exec i s = .next t ∧ t.mem = [] ∧ t.procs = [] ∧
    t.queues = [] ∧ t.launches = [] ∧ t.clusters = [] ∧ t.teams = [] ∧ t.groups = [] ∧ t.collectives = [] ∧ t.poison = [] ∧ t.clock = 0 ∧
    t.boot = 0 ∧ t.powered = true ∧ t.bootFailed = false ∧ t.storageTimeout = 100000000 ∧ t.hartRes = [] ∧ t.iommu = [] ∧
    (∀ name x, tabFind s.segments name = some x → ∃ y, tabFind t.segments name = some y ∧ y.attach = none ∧ y.state = x.state ∧
      y.pa = x.pa ∧ y.z = x.z ∧ x.durable ≤ y.durable ∧ y.sealedLen = x.sealedLen) ∧
    (∀ k, tabSorted s.stks = true → (stackOf s k).lifeSegs ≠ [] →
      (stackOf t k).lifeSegs = (stackOf s k).lifeSegs ∧ (stackOf t k).rowsKept = (stackOf s k).rowsKept) ∧
    ∀ c, (tabSorted s.cores = true → (coreOf t c).swaps = (coreOf s c).swaps) ∧ (coreOf t c).spad = [] := by
  have hex : exec i s = .next (restart s) := by obtain rfl | rfl := hi <;> rfl
  refine ⟨_, hex, rfl, rfl, rfl, rfl, rfl, rfl, rfl, rfl, rfl, rfl, rfl, rfl, rfl, rfl, rfl, rfl, fun name x h => ?_,
    fun k => restart_stack, restart_core s⟩
  obtain ⟨draw, h⟩ := restart_segment h
  exact ⟨_, h, survive_keeps x draw⟩

/-- Settles O49: each clause is what one operation does; accesses of harts and of the PCIe port rest on `HartWrites` and `hartPlace_maps`. -/
theorem systemEvents : Obligations.SystemEvents := by
  unfold Obligations.SystemEvents
  refine ⟨fun s via n pa v w hb hr hn hal hpa hp hm => ?_, fun s via op r va ppn fl hb hr hmap => harts_translate op hb hr hmap,
    fun s via op pa hb hr => harts_refused hb hr, fun s dev pasid va n r ppn v hb _ =>
      ⟨fun h => pcie_unsupported hb h, fun h hmap hn hal hp hm => ?_⟩,
    fun s via op dev pasid a wr hb => by simp [execHartAccess, execPcieInboundRequest, hb], fun s port peer h => connectionSetup_iff h,
    fun s port h => ?_, fun s k hk => by simp [execPowerGate, hk], fun s => ⟨rfl, rfl, shutdowns_record s⟩, fun s i => restart_keeps s⟩
  · intro old v' less writes
    refine ⟨?_, (harts_store hb hr hn hal hpa hp hm).1, (harts_store hb hr hn hal hpa hp hm).2, fun h48 => ?_⟩
    · have h0 : 0 < n := by simp at hn; omega
      exact exec_hartAccess_hbm .load hb hr (by omega)
    · exact harts_atomics hb hr h48 hal hpa hp hm
  · obtain ⟨hload, t, ht, hval, hout, _, hrest⟩ := pcie_writes (v := v) hb h hmap hn hal hp hm
    exact ⟨hload, t, ht, hval, hout, hrest⟩
  · obtain ⟨t, ht, hdown, hkeys, hg, hm, hfind⟩ := portFailure_moves s h
    refine ⟨t, ht, hdown, hkeys, hg, hm, fun n c hc => ⟨movedPort s port c, (hfind n).trans (by rw [hc]; rfl), ?_⟩⟩
    obtain ⟨hsame, hstay, hmove⟩ := movedPort_port s port c
    refine ⟨hsame, hstay, fun peer hpo hpe => ?_⟩
    rw [hmove hpo]
    exact otherPort_reaches hpe

end Sys2Proof.Machine
end

section
/-! # Requests of the host driver (O50)

A request is a message of 64 bytes: what its fields read as once one is put (`msgNat_put_apart`, `msgNat_put_same`) gives every reply's
form. A request that is well formed comes down to its effect on the state without it (`pasidReq_serves`, `moduleReq_serves`), and a reply
that nothing holds up goes out at once (`owe_ready`). -/
namespace Sys2Proof.Machine

/-! ### Messages (R388) -/

theorem testBit_msgNat (m : BitVec 512) (off n i : Nat) :
    (msgNat m off n).testBit i = (decide (i < 8 * n) && m.getLsbD (8 * off + i)) := by
  rw [msgNat, show 256 ^ off = 2 ^ (8 * off) by rw [Nat.pow_mul], show 256 ^ n = 2 ^ (8 * n) by rw [Nat.pow_mul],
    Nat.testBit_mod_two_pow, Nat.testBit_div_two_pow, BitVec.testBit_toNat, Nat.add_comm i]
theorem getLsbD_msgPut (m : BitVec 512) (byte n x j : Nat) : (msgPut m byte n x).getLsbD j =
    (m.getLsbD j || (decide (j < 512) && !decide (j < 8 * byte) && (decide (j - 8 * byte < 8 * n) && x.testBit (j - 8 * byte)))) := by
  rw [msgPut, BitVec.getLsbD_or, BitVec.getLsbD_shiftLeft, BitVec.getLsbD_ofNat, show 256 ^ n = 2 ^ (8 * n) by rw [Nat.pow_mul],
    Nat.testBit_mod_two_pow]
  by_cases hj : j < 512
  · simp [hj, show j - 8 * byte < 512 by omega]
  · simp [hj]

/-- A field put elsewhere leaves a field as it was. -/
theorem msgNat_put_apart {m : BitVec 512} {byte n x off k : Nat} (h : off + k ≤ byte ∨ byte + n ≤ off) :
    msgNat (msgPut m byte n x) off k = msgNat m off k := by
  refine Nat.eq_of_testBit_eq fun i => ?_
  rw [testBit_msgNat, testBit_msgNat, getLsbD_msgPut]
  by_cases hi : i < 8 * k
  · have hout : (!decide (8 * off + i < 8 * byte) && decide (8 * off + i - 8 * byte < 8 * n)) = false := by
      simp only [Bool.and_eq_false_iff, Bool.not_eq_false', decide_eq_true_eq, decide_eq_false_iff_not]
      omega
    simp only [Bool.and_eq_false_iff] at hout
    obtain h | h := hout <;> simp [h]
  · simp [hi]
/-- A field put where there were zeros reads as its value, modulo its width. -/
theorem msgNat_put_same {m : BitVec 512} {byte n x : Nat} (hb : byte + n ≤ 64) (h : msgNat m byte n = 0) :
    msgNat (msgPut m byte n x) byte n = x % 256 ^ n := by
  refine Nat.eq_of_testBit_eq fun i => ?_
  have h0 := testBit_msgNat m byte n i
  rw [h, Nat.zero_testBit] at h0
  rw [testBit_msgNat, getLsbD_msgPut, show 256 ^ n = 2 ^ (8 * n) by rw [Nat.pow_mul], Nat.testBit_mod_two_pow]
  by_cases hi : i < 8 * n
  · simp only [hi, decide_true, Bool.true_and] at h0 ⊢
    rw [← h0]
    simp [hi, show 8 * byte + i < 512 by omega, show ¬ 8 * byte + i < 8 * byte by omega]
  · simp [hi]
theorem msgStatus_zero (m : BitVec 512) : msgStatus m 0 = m := by simp [msgStatus, msgPut]
theorem msgNat_zero (off n : Nat) : msgNat 0 off n = 0 := by
  simp only [msgNat, BitVec.ofNat_eq_ofNat, BitVec.toNat_ofNat, Nat.zero_mod, Nat.zero_div]
theorem msgNat_lt (m : BitVec 512) (off n : Nat) : msgNat m off n < 256 ^ n := Nat.mod_lt _ (by positivity)

/-! ### Replies (R388, R389) -/

section
variable (m : BitVec 512)

theorem replyTo_params {off k : Nat} (h : 12 ≤ off) : msgNat (replyTo m) off k = 0 := by
  simp only [replyTo]
  repeat rw [msgNat_put_apart (by omega)]
  exact msgNat_zero off k
theorem replyTo_header : msgNat (replyTo m) 0 1 = 2 ∧ msgCode (replyTo m) = msgCode m ∧ msgNat (replyTo m) 2 2 = 0 ∧
    msgNat (replyTo m) 4 4 = msgNat m 4 4 ∧ msgPasid (replyTo m) = msgPasid m := by
  have hcode : msgCode m % 256 ^ 1 = msgCode m := Nat.mod_eq_of_lt (msgNat_lt m 1 1)
  have htag : msgNat m 4 4 % 256 ^ 4 = msgNat m 4 4 := Nat.mod_eq_of_lt (msgNat_lt m 4 4)
  have hpasid : msgPasid m % 256 ^ 4 = msgPasid m := Nat.mod_eq_of_lt (msgNat_lt m 8 4)
  unfold replyTo
  refine ⟨?_, ?_, ?_, ?_, ?_⟩
  · rw [msgNat_put_apart (by omega), msgNat_put_apart (by omega), msgNat_put_apart (by omega), msgNat_put_same (by omega) (msgNat_zero _ _)]
    rfl
  · rw [msgCode, msgNat_put_apart (by omega), msgNat_put_apart (by omega), msgNat_put_same (by omega), hcode]
    rw [msgNat_put_apart (by omega), msgNat_zero]
  · rw [msgNat_put_apart (by omega), msgNat_put_apart (by omega), msgNat_put_apart (by omega), msgNat_put_apart (by omega), msgNat_zero]
  · rw [msgNat_put_apart (by omega), msgNat_put_same (by omega), htag]
    rw [msgNat_put_apart (by omega), msgNat_put_apart (by omega), msgNat_zero]
  · rw [msgPasid, msgNat_put_same (by omega), hpasid]
    rw [msgNat_put_apart (by omega), msgNat_put_apart (by omega), msgNat_put_apart (by omega), msgNat_zero]

variable {m} {s t : State} {rest : List (BitVec 512)}

theorem answered_done (hi : t.hostIn = rest) (ho : t.hostOut = s.hostOut ++ [replyTo m]) (hw : t.hostWait = []) :
    Answered s t m rest 0 [] := by
  obtain ⟨hby, hcode, hst, htag, hpasid⟩ := replyTo_header m
  exact ⟨_, hi, ho, hw, hby, hcode, hst, htag, hpasid, by simp, fun i hi _ _ => replyTo_params m hi⟩
/-- A reply with a number in bytes 12 to 15. -/
theorem answered_number {n : Nat} (hi : t.hostIn = rest) (ho : t.hostOut = s.hostOut ++ [msgPut (replyTo m) 12 4 n])
    (hw : t.hostWait = []) : Answered s t m rest 0 [(12, 4, n)] := by
  obtain ⟨hby, hcode, hst, htag, hpasid⟩ := replyTo_header m
  refine ⟨_, hi, ho, hw, ?_, ?_, ?_, ?_, ?_, fun f hf => ?_, fun i hi _ hout => ?_⟩
  · rw [msgNat_put_apart (by omega), hby]
  · rw [msgCode, msgNat_put_apart (by omega)]; exact hcode
  · rw [msgNat_put_apart (by omega), hst]
  · rw [msgNat_put_apart (by omega), htag]
  · rw [msgPasid, msgNat_put_apart (by omega)]; exact hpasid
  · obtain rfl := List.mem_singleton.mp hf
    exact msgNat_put_same (by omega) (replyTo_params m (by omega))
  · have hapart : i < 12 ∨ 12 + 4 ≤ i := hout _ (List.mem_singleton.mpr rfl)
    rw [msgNat_put_apart (by omega), replyTo_params m hi]

end

/-- With nothing owed and room in the channel an answer goes out at once. -/
theorem owe_ready {s : State} {r : BitVec 512} (hw : s.hostWait = []) (ho : s.hostOut.length < 16) :
    owe s (.ready r) = { s with hostOut := s.hostOut ++ [r] } := by
  simp only [owe, hw, List.nil_append, List.length_singleton, flushReplies, replyReady, if_pos ho]
theorem answer_done {s : State} {m : BitVec 512} (hw : s.hostWait = []) (ho : s.hostOut.length < 16) :
    answer s m 0 = { s with hostOut := s.hostOut ++ [replyTo m] } := by
  rw [answer, msgStatus_zero, owe_ready hw ho]

/-! ### Requests that are served (R388, R389) -/

section
variable {s : State} {m : BitVec 512} {rest : List (BitVec 512)} {code : Nat} {fields : List (Nat × Nat)}
variable {mine ok wait : BitVec 512 → Bool} {f : State → BitVec 512 → State}

theorem popMsg_asked (h : Asks s m rest code fields) : popMsg s = { s with hostIn := rest } := by
  obtain ⟨_, hin, _⟩ := h
  rw [popMsg, hin]; rfl
theorem headIs_asked (h : Asks s m rest code fields) : headIs s code mine = if mine m then some m else none := by
  obtain ⟨hb, hin, hc, _⟩ := h
  simp [headIs, hb, hin, hc]
theorem pasidReq_serves (h : Asks s m rest code fields) (hp : OfProcess s m) (hm : mine m = true) (hok : ok m = true)
    (hw : wait m = false) : pasidReq s code mine fields ok wait f = .next (f { s with hostIn := rest } m) := by
  obtain ⟨hopen, hsome⟩ := hp
  have hz : msgZero m fields = true := h.2.2.2.1
  rw [pasidReq, headIs_asked h, if_pos hm, popMsg_asked h]
  simp [hz, hok, hopen, hw, Option.isSome_iff_ne_none.mp hsome]
theorem pasidReq_waits (h : Asks s m rest code fields) (hp : OfProcess s m) (hm : mine m = true) (hok : ok m = true)
    (hw : wait m = true) : pasidReq s code mine fields ok wait f = .next s := by
  obtain ⟨hopen, hsome⟩ := hp
  have hz : msgZero m fields = true := h.2.2.2.1
  rw [pasidReq, headIs_asked h, if_pos hm]
  simp [hz, hok, hopen, hw, Option.isSome_iff_ne_none.mp hsome]
theorem moduleReq_serves (h : Asks s m rest code fields) (hp : msgPasid m = 0) (hok : ok m = true) (hw : wait m = false) :
    moduleReq s code fields ok wait f = .next (f { s with hostIn := rest } m) := by
  have hz : msgZero m fields = true := h.2.2.2.1
  rw [moduleReq, headIs_asked h, popMsg_asked h]
  simp [hz, hok, hp, hw]

end

/-! ### Walks look at memory, segments and processes alone -/

section
variable {s t : State} (hm : t.mem = s.mem) (hp : t.promoted = s.promoted) (hs : t.segments = s.segments) (hpr : t.procs = s.procs)
include hm hp hs

theorem homeNat_congr (n a : Nat) : homeNat t n a = homeNat s n a := by
  rw [homeNat, homeNat, show homeByte t = homeByte s from funext (homeByte_congr hm hp hs)]
theorem walkFrom_congr (pasid va lv ppn : Nat) : walkFrom t pasid va lv ppn = walkFrom s pasid va lv ppn := by
  induction lv generalizing ppn with
  | zero => rw [walkFrom, walkFrom, homeNat_congr hm hp hs]
  | succ lv ih => rw [walkFrom, walkFrom, homeNat_congr hm hp hs]; simp only [ih]
include hpr
theorem walkPage_congr (pasid va : Nat) : walkPage t pasid va = walkPage s pasid va := by
  simp only [walkPage, rootOf, hpr, walkAt, segWindow, hs, walkFrom_congr hm hp hs]
theorem corePa_congr (pasid va : Nat) : corePa t pasid va = corePa s pasid va := by rw [corePa, corePa, walkPage_congr hm hp hs hpr]
theorem leafFits_congr (pasid va : Nat) (w : Bool) : leafFits t pasid va w = leafFits s pasid va w := by
  rw [leafFits, leafFits, walkPage_congr hm hp hs hpr]
theorem fetcherAddr_congr (pasid va : Nat) (a : Acc) : fetcherAddr t pasid va a = fetcherAddr s pasid va a := by
  rw [fetcherAddr, fetcherAddr, walkPage_congr hm hp hs hpr]
theorem descBytes_congr (pasid va : Nat) : descBytes t pasid va = descBytes s pasid va := by
  simp only [descBytes, corePa_congr hm hp hs hpr, homeByte_congr hm hp hs]

end

section
variable {s : State} {m : BitVec 512} {rest : List (BitVec 512)}

/-! ### Processes and queues (R35, R38, R41, R42) -/

theorem registerProcess_serves (h : Asks s m rest 0x11 [(16, 8), (24, 2)]) (h0 : 0 < msgPasid m) (hp : msgPasid m < 2 ^ 20)
    (hr : msgNat m 16 8 < 2 ^ 44) (hn : tabFind s.procs (msgPasid m) = none) : ∃ t, exec .registerProcess s = .next t ∧
      Answered s t m rest 0 [] ∧
      t.procs = tabPut s.procs (msgPasid m) { root := msgNat m 16 8, asid := msgNat m 24 2, closing := false } ∧ t.mem = s.mem := by
  obtain ⟨_, _, _, hz, hw, ho⟩ := id h
  have hform : ¬ (!msgZero m [(16, 8), (24, 2)] || decide (msgPasid m = 0) || decide (2 ^ 20 ≤ msgPasid m) ||
      decide (2 ^ 44 ≤ msgNat m 16 8)) = true := by
    simp only [hz, Bool.not_true, Bool.false_or, Bool.or_eq_true, decide_eq_true_eq]
    omega
  refine ⟨_, ?_, answered_done (t := { s with hostIn := rest, procs := _, hostOut := _ }) rfl rfl hw, rfl, rfl⟩
  rw [exec_registerProcess, execRegisterProcess, headIs_asked h, popMsg_asked h]
  simp only [always, if_true, if_neg hform, hn]
  exact congrArg Host.Outcome.next (answer_done hw ho)

/-- Writes of bytes behind home slices, one for each index. -/
def homePuts (s : State) (l : List Nat) (pa : Nat → Nat) (v : Nat → Byte) : State := l.foldl (fun t i => homePut t (pa i) (v i)) s

theorem homePuts_apart (l : List Nat) (pa : Nat → Nat) (v : Nat → Byte) (s : State) (c : List Host.Cell) (r : Tab Nat) :
    { homePuts s l pa v with mem := c, hartRes := r } = { s with mem := c, hartRes := r } := by
  induction l generalizing s with
  | nil => rfl
  | cons i l ih => exact (ih _).trans (homePut_apart _ _ _ _ _)

section
variable {l : List Nat} {pa : Nat → Nat} (v : Nat → Byte)

theorem homeByte_puts_out {s : State} {a : Nat} (ha : a < Config.hbmBytes) (hpa : ∀ i ∈ l, pa i < Config.hbmBytes) (hp : s.promoted = [])
    (hm : s.MemOk) (ho : ∀ i ∈ l, a ≠ pa i) : homeByte (homePuts s l pa v) a = homeByte s a := by
  induction l generalizing s with
  | nil => rfl
  | cons i l ih =>
    obtain ⟨hi, hl⟩ := List.forall_mem_cons.mp hpa
    obtain ⟨hia, hla⟩ := List.forall_mem_cons.mp ho
    refine (ih hl ((homePut_promoted _ _ _).trans hp) (homePut_memOk _ _ hm) hla).trans ?_
    rw [homeByte_put _ hi ha hp hm, if_neg hia]
theorem homeByte_puts {s : State} (hpa : ∀ i ∈ l, pa i < Config.hbmBytes) (hp : s.promoted = [])
    (hm : s.MemOk) (hinj : ∀ i ∈ l, ∀ j ∈ l, pa i = pa j → i = j) {i : Nat} (hi : i ∈ l) : homeByte (homePuts s l pa v) (pa i) = v i := by
  induction l generalizing s with
  | nil => cases hi
  | cons j l ih =>
    obtain ⟨hj, hl⟩ := List.forall_mem_cons.mp hpa
    have hp' := (homePut_promoted s (pa j) (v j)).trans hp
    have hm' := homePut_memOk (pa j) (v j) hm
    by_cases hil : i ∈ l
    · exact ih hl hp' hm' (fun x hx y hy => hinj x (.tail _ hx) y (.tail _ hy)) hil
    · obtain rfl : i = j := (List.mem_cons.mp hi).resolve_right hil
      have hapart : ∀ k ∈ l, pa i ≠ pa k := fun k hk he => hil (hinj i hi k (.tail _ hk) he ▸ hk)
      refine (homeByte_puts_out v (hpa i hi) hl hp' hm' hapart).trans ?_
      rw [homeByte_put _ hj hj hp hm, if_pos rfl]

end

theorem exec_registerQueue_served {bs : List Byte} {tailPa statPa n : Nat} {pa : Nat → Nat} (h : Asks s m rest 0x01 [(16, 8), (24, 2)])
    (hof : OfProcess s m) (hh : msgNat m 24 2 ≤ 95) (hd : descBytes s (msgPasid m) (msgNat m 16 8) = some bs) (hok : descOk bs = true)
    (ht : leafFits s (msgPasid m) (listNat bs 16 8) false = some tailPa)
    (hs : leafFits s (msgPasid m) (listNat bs 24 8) true = some statPa) (hn : lowestFree (s.queues.map (fun e => e.1)) 65536 = some n)
    (hl : (tailLines s).length < 4096)
    (hpa : ∀ i, i < 4 → corePa s (msgPasid m) (msgNat m 16 8 + 32 + i) = some (pa i) ∧ pa i < Config.hbmBytes) :
    exec .registerQueue s = .next (
      let s := homePuts { s with hostIn := rest } (List.range 4) pa (fun i => BitVec.ofNat 8 (msgPasid m / 256 ^ i))
      { s with queues := tabPut s.queues n (queueOf (msgPasid m) (msgNat m 24 2) tailPa (homeNat s 4 tailPa) bs),
               hostOut := s.hostOut ++ [msgPut (replyTo m) 12 4 n] }) := by
  obtain ⟨_, _, _, _, hw, ho⟩ := id h
  have hputs (f : State → Nat → State) (hf : ∀ t i q, corePa s (msgPasid m) (msgNat m 16 8 + 32 + i) = some q →
      f t i = homePut t q (BitVec.ofNat 8 (msgPasid m / 256 ^ i))) : (List.range 4).foldl f { s with hostIn := rest } =
      homePuts { s with hostIn := rest } (List.range 4) pa (fun i => BitVec.ofNat 8 (msgPasid m / 256 ^ i)) :=
    List.foldl_ext _ _ _ (fun t i hi => hf t i _ (hpa i (List.mem_range.mp hi)).1)
  have hroom : ¬ (4096 ≤ (tailLines { s with hostIn := rest }).length ∧
      (!decide (tailPa / 128 ∈ tailLines { s with hostIn := rest })) = true) :=
    fun hc => absurd hc.1 (Nat.not_le.mpr hl)
  have hapart := homePuts_apart (List.range 4) pa (fun i => BitVec.ofNat 8 (msgPasid m / 256 ^ i)) { s with hostIn := rest } [] []
  rw [exec_registerQueue, execRegisterQueue, pasidReq_serves h hof rfl (decide_eq_true hh) rfl,
    descBytes_congr (t := { s with hostIn := rest }) (s := s) rfl rfl rfl rfl, hd]
  simp only [register, hok, Bool.not_true, Bool.false_eq_true, if_false,
    leafFits_congr (t := { s with hostIn := rest }) (s := s) rfl rfl rfl rfl, ht, hs, hn, hroom]
  rw [hputs _ (fun t i q hq => by rw [corePa_congr (t := { s with hostIn := rest }) (s := s) rfl rfl rfl rfl, hq])]
  rw [owe_ready]
  · exact (congrArg State.hostWait hapart).trans hw
  · exact (congrArg (fun t => t.hostOut.length) hapart).trans_lt ho

theorem registerQueue_serves {bs : List Byte} {tailPa statPa n : Nat} {pa : Nat → Nat} (h : Asks s m rest 0x01 [(16, 8), (24, 2)])
    (hof : OfProcess s m) (hh : msgNat m 24 2 ≤ 95) (hd : descBytes s (msgPasid m) (msgNat m 16 8) = some bs) (hok : descOk bs = true)
    (ht : leafFits s (msgPasid m) (listNat bs 16 8) false = some tailPa)
    (hs : leafFits s (msgPasid m) (listNat bs 24 8) true = some statPa) (hn : lowestFree (s.queues.map (fun e => e.1)) 65536 = some n)
    (hl : (tailLines s).length < 4096)
    (hpa : ∀ i, i < 4 → corePa s (msgPasid m) (msgNat m 16 8 + 32 + i) = some (pa i) ∧ pa i < Config.hbmBytes)
    (hinj : ∀ i j, i < 4 → j < 4 → pa i = pa j → i = j) (hp : s.promoted = []) (hm : s.MemOk) :
    ∃ t q, exec .registerQueue s = .next t ∧ Answered s t m rest 0 [(12, 4, n)] ∧ t.queues = tabPut s.queues n q ∧
      (q.pasid, q.ring, q.lg, q.cls) = (msgPasid m, listNat bs 0 8, listNat bs 8 1, listNat bs 9 1) ∧
      (q.vector, q.hart, q.tailAddr, q.tailPa) = (listNat bs 12 4, msgNat m 24 2, listNat bs 16 8, tailPa) ∧
      (q.statusAddr, q.head, q.state) = (listNat bs 24 8, 0, .active) ∧ q.running = [] ∧ q.skip = 0 ∧
      q.tail.toNat = homeNat t 4 tailPa ∧ (∀ i, i < 4 → (homeByte t (pa i)).toNat = msgPasid m / 256 ^ i % 256) ∧
      ∀ a, a < Config.hbmBytes → (∀ i, i < 4 → a ≠ pa i) → homeByte t a = homeByte s a := by
  obtain ⟨_, _, _, _, hw, _⟩ := id h
  have hex := exec_registerQueue_served h hof hh hd hok ht hs hn hl hpa
  have hapart := homePuts_apart (List.range 4) pa (fun i => BitVec.ofNat 8 (msgPasid m / 256 ^ i)) { s with hostIn := rest } [] []
  have hin := fun i hi => homeByte_puts (l := List.range 4) (pa := pa) (fun i => BitVec.ofNat 8 (msgPasid m / 256 ^ i))
    (s := { s with hostIn := rest }) (fun i hi => (hpa i (List.mem_range.mp hi)).2) hp hm
    (fun i hi j hj => hinj i j (List.mem_range.mp hi) (List.mem_range.mp hj)) (i := i) (List.mem_range.mpr hi)
  have hout := fun a ha ho => homeByte_puts_out (l := List.range 4) (pa := pa) (fun i => BitVec.ofNat 8 (msgPasid m / 256 ^ i))
    (s := { s with hostIn := rest }) (a := a) ha (fun i hi => (hpa i (List.mem_range.mp hi)).2) hp hm ho
  generalize homePuts { s with hostIn := rest } (List.range 4) pa (fun i => BitVec.ofNat 8 (msgPasid m / 256 ^ i)) = u at hex hapart hin hout
  refine ⟨_, queueOf (msgPasid m) (msgNat m 24 2) tailPa (homeNat u 4 tailPa) bs, hex,
    answered_number (congrArg State.hostIn hapart :) ?_ ((congrArg State.hostWait hapart :).trans hw), ?_, rfl, rfl, rfl, rfl, rfl,
    ?_, fun i hi => ?_, fun a ha ho => ?_⟩
  · exact congrArg (· ++ _) (congrArg State.hostOut hapart :)
  · exact congrArg (tabPut · n _) (congrArg State.queues hapart :)
  · exact (BitVec.toNat_ofNat _ _).trans (Nat.mod_eq_of_lt (homeNat_lt u 4 tailPa))
  · exact (congrArg BitVec.toNat (hin i hi)).trans (BitVec.toNat_ofNat _ _)
  · exact hout a ha (fun i hi => ho i (List.mem_range.mp hi))

theorem freeQueue_serves {q : Queue} (h : Asks s m rest 0x02 [(12, 4)]) (hof : OfProcess s m) (hn : msgNat m 12 4 < 65536)
    (hq : tabFind s.queues (msgNat m 12 4) = some q) (hp : q.pasid = msgPasid m) (hs : tabSorted s.queues = true) :
    ∃ t, exec .freeQueue s = .next t ∧ Answered s t m rest 0 [] ∧ tabFind t.queues (msgNat m 12 4) = none ∧
      (∀ k, k ≠ msgNat m 12 4 → tabFind t.queues k = tabFind s.queues k) ∧
      { t with queues := s.queues, hostIn := s.hostIn, hostOut := s.hostOut } = s := by
  obtain ⟨_, _, _, _, hw, ho⟩ := id h
  have hnamed : namedQueue { s with hostIn := rest } m = some q := by simp [namedQueue, hq, Option.filter, hp]
  refine ⟨_, ?_, answered_done (t := { s with hostIn := rest, queues := tabDel s.queues (msgNat m 12 4), hostOut := _ }) rfl rfl hw,
    tabFind_del_self _ hs, fun k hk => tabFind_del_ne hs hk, rfl⟩
  rw [exec_freeQueue, execFreeQueue, pasidReq_serves h hof rfl (decide_eq_true hn) rfl]
  simp only [hnamed]
  exact congrArg Host.Outcome.next (answer_done hw ho)

theorem resetQueue_serves {q : Queue} {pa : Nat} (h : Asks s m rest 0x03 [(12, 4)]) (hof : OfProcess s m) (hn : msgNat m 12 4 < 65536)
    (hq : tabFind s.queues (msgNat m 12 4) = some q) (hp : q.pasid = msgPasid m) (he : q.state = .error)
    (hf : fetcherAddr s (msgPasid m) (q.statusAddr + 8) .write = some pa) (hpa : pa + 8 ≤ Config.hbmBytes) (hpr : s.promoted = [])
    (hm : s.MemOk) : ∃ t, exec .resetQueue s = .next t ∧ Answered s t m rest 0 [] ∧ homeNat t 8 pa = 0 ∧
      tabFind t.queues (msgNat m 12 4) = some { q with state := .active, watch := none, since := 0 } ∧ t.msi = s.msi := by
  obtain ⟨_, _, _, _, hw, ho⟩ := id h
  have hnamed : namedQueue { s with hostIn := rest } m = some q := by simp [namedQueue, hq, Option.filter, hp]
  have hwrite : fetcherWrite { s with hostIn := rest } q.pasid 8 (q.statusAddr + 8) 0 = some (homeWrite 8 { s with hostIn := rest } pa 0) := by
    rw [fetcherWrite, fetcherAddr_congr (t := { s with hostIn := rest }) (s := s) rfl rfl rfl rfl, hp, hf]; rfl
  have hapart := homeWrite_apart 8 { s with hostIn := rest } pa 0 [] []
  have hzero := homeNat_write 8 (s := { s with hostIn := rest }) pa 0 hpa hpr hm
  rw [exec_resetQueue, execResetQueue, pasidReq_serves h hof rfl (decide_eq_true hn) rfl]
  simp only [hnamed, he, ne_eq, not_true, if_false, hwrite]
  generalize homeWrite 8 { s with hostIn := rest } pa 0 = u at hapart hzero ⊢
  have hqs : u.queues = s.queues := (congrArg State.queues hapart :)
  have hwu : u.hostWait = [] := (congrArg State.hostWait hapart :).trans hw
  have hou : u.hostOut = s.hostOut := (congrArg State.hostOut hapart :)
  refine ⟨_, congrArg Host.Outcome.next (answer_done hwu (hou ▸ ho)), answered_done (congrArg State.hostIn hapart :) ?_ hwu, hzero, ?_,
    (congrArg State.msi hapart :)⟩
  · exact congrArg (· ++ _) hou
  · show tabFind (tabMod u.queues _ _) _ = _
    rw [hqs, tabFind_mod, if_pos rfl, hq]; rfl

/-! ### Collectives, tables and settings (R210, R279, R319, R372) -/

theorem createCollective_serves {n pa pb : Nat}
    (h : Asks s m rest 0x09 [(12, 1), (13, 1), (14, 1), (16, 8), (24, 4), (32, 8), (40, 8)]) (hof : OfProcess s m)
    (h2 : 2 ≤ msgNat m 12 1) (h64 : msgNat m 12 1 ≤ 64) (hme : msgNat m 13 1 < msgNat m 12 1) (ht : msgNat m 14 1 < 2)
    (hal : msgNat m 16 8 % 4096 = 0) (hto : msgNat m 24 4 = 0 ∨ 1000 ≤ msgNat m 24 4 ∧ msgNat m 24 4 ≤ 10000000)
    (hn : lowestFree (s.collectives.map (fun e => e.1)) 4096 = some n) (hpa : leafFits s (msgPasid m) (msgNat m 16 8) true = some pa)
    (hpb : corePa s (msgPasid m) (msgNat m 32 8) = some pb) :
    ∃ t c, exec .createCollective s = .next t ∧ Answered s t m rest 0 [(12, 4, n)] ∧
      t.collectives = tabPut s.collectives n c ∧ (c.pasid, c.members, c.me) = (msgPasid m, msgNat m 12 1, msgNat m 13 1) ∧
      (c.result, c.table, c.key.toNat) = (msgNat m 16 8, msgNat m 32 8, msgNat m 40 8) ∧
      (c.tree = true ↔ msgNat m 14 1 = 1) ∧ (msgNat m 24 4 ≠ 0 → c.timeout = 1000 * msgNat m 24 4) ∧
      (msgNat m 24 4 = 0 → c.timeout = 1000000000) ∧ (c.failed, c.issued, c.completed) = (false, 0, 0) ∧ c.rounds = [] := by
  obtain ⟨_, _, _, _, hw, ho⟩ := id h
  have hlim : collLimits m = true := by simp [collLimits, h2, h64, hme, ht, hal, hto]
  have hkey : (BitVec.ofNat 64 (msgNat m 40 8)).toNat = msgNat m 40 8 :=
    (BitVec.toNat_ofNat _ _).trans (Nat.mod_eq_of_lt (msgNat_lt m 40 8))
  rw [exec_createCollective, execCreateCollective, pasidReq_serves h hof rfl hlim rfl]
  simp only [hn, leafFits_congr (t := { s with hostIn := rest }) (s := s) rfl rfl rfl rfl, hpa,
    corePa_congr (t := { s with hostIn := rest }) (s := s) rfl rfl rfl rfl, hpb]
  refine ⟨_, _, congrArg Host.Outcome.next (owe_ready hw ho), answered_number rfl rfl hw, rfl, rfl, ?_, decide_eq_true_iff, fun h0 => ?_,
    fun h0 => ?_, rfl, rfl⟩
  · rw [hkey]
  · simp [h0]
  · simp [h0]

theorem blockTables_serve (h : Asks s m rest 0x0A [(16, 8), (24, 1)]) (hof : OfProcess s m) (hal : msgNat m 16 8 % 64 = 0) :
    (msgNat m 24 1 = 0 → ∃ t, exec .registerBlockTable s = .next t ∧ Answered s t m rest 0 [] ∧
      ∀ x, x ∈ t.blockTables ↔ x ∈ s.blockTables ∨ x = (msgPasid m, msgNat m 16 8)) ∧
    (msgNat m 24 1 = 1 → (msgPasid m, msgNat m 16 8) ∈ s.blockTables → ∃ t, exec .unregisterBlockTable s = .next t ∧
      Answered s t m rest 0 [] ∧ ∀ x, x ∈ t.blockTables ↔ x ∈ s.blockTables ∧ x ≠ (msgPasid m, msgNat m 16 8)) := by
  obtain ⟨_, _, _, _, hw, ho⟩ := id h
  refine ⟨fun h0 => ?_, fun h1 hmem => ?_⟩
  · rw [exec_registerBlockTable, execRegisterBlockTable, pasidReq_serves h hof (by simp [h0]) (by simp [tableLimits, h0, hal]) rfl]
    dsimp only
    split
    · next hin =>
      refine ⟨_, congrArg Host.Outcome.next (answer_done hw ho), answered_done rfl rfl hw, fun x => ⟨.inl, fun hx => ?_⟩⟩
      obtain hx | rfl := hx
      · exact hx
      · exact hin
    · exact ⟨_, congrArg Host.Outcome.next (answer_done hw ho), answered_done rfl rfl hw, fun x => by simp⟩
  · rw [exec_unregisterBlockTable, execUnregisterBlockTable,
      pasidReq_serves h hof (by simp [h1]) (by simp [tableLimits, h1, hal]) rfl]
    simp only [hmem, if_true]
    exact ⟨_, congrArg Host.Outcome.next (answer_done hw ho), answered_done rfl rfl hw, fun x => by simp⟩

theorem setStorageTimeout_serves (h : Asks s m rest 0x0B [(12, 4)]) (hp : msgPasid m = 0) (hlo : 1000 ≤ msgNat m 12 4)
    (hhi : msgNat m 12 4 ≤ 10000000) : ∃ t, exec .setStorageTimeout s = .next t ∧ Answered s t m rest 0 [] ∧
      t.storageTimeout = 1000 * msgNat m 12 4 ∧
      { t with storageTimeout := s.storageTimeout, hostIn := s.hostIn, hostOut := s.hostOut } = s := by
  obtain ⟨_, _, _, _, hw, ho⟩ := id h
  rw [exec_setStorageTimeout, execSetStorageTimeout, moduleReq_serves h hp (by simp [hlo, hhi]) rfl]
  exact ⟨_, congrArg Host.Outcome.next (answer_done hw ho), answered_done rfl rfl hw, rfl, rfl⟩

/-- With nothing promoted a pool's size is all that changes. -/
theorem sizePool_unpromoted (hp : s.promoted = []) (st mib : Nat) : sizePool s st mib = modStack s st (fun k => { k with poolMib := mib }) := by
  have hout : poolOut s st mib = [] := by simp [poolOut, modStack, setStack, hp]
  rw [sizePool, hout]; rfl
/-- Only stacks change: what they read as once several pools have their size. -/
theorem sizePools_unpromoted (l : List Nat) (mib : Nat) {s : State} (hp : s.promoted = []) :
    let t := l.foldl (fun s st => sizePool s st mib) s
    { t with stks := s.stks } = s ∧ ∀ st, stackOf t st = if st ∈ l then { stackOf s st with poolMib := mib } else stackOf s st := by
  induction l generalizing s with
  | nil => exact ⟨rfl, fun st => rfl⟩
  | cons k l ih =>
    obtain ⟨hrest, hst⟩ := ih (s := modStack s k (fun x => { x with poolMib := mib })) hp
    simp only [List.foldl_cons, sizePool_unpromoted hp]
    refine ⟨(congrArg (fun t : State => { t with stks := s.stks }) hrest :), fun st => ?_⟩
    rw [hst, stackOf_modStack]
    by_cases h1 : st = k <;> by_cases h2 : st ∈ l <;> simp [h1, h2]

theorem setPromotionPool_serves (h : Asks s m rest 0x0C [(12, 1), (16, 4)]) (hp : msgPasid m = 0)
    (hst : msgNat m 12 1 < 48 ∨ msgNat m 12 1 = 255) (hmib : msgNat m 16 4 ≤ 16384) (hal : msgNat m 16 4 % 64 = 0)
    (hpr : s.promoted = []) : ∃ t, exec .setPromotionPool s = .next t ∧ Answered s t m rest 0 [] ∧
      ∀ st, st < 48 → stackOf t st = (if msgNat m 12 1 = st ∨ msgNat m 12 1 = 255 then
        { stackOf s st with poolMib := msgNat m 16 4 } else stackOf s st) := by
  obtain ⟨_, _, _, _, hw, ho⟩ := id h
  have hquiet : (poolStacks m).any (fun st => !(poolOut s st (msgNat m 16 4)).all (pairQuiet s)) = false := by
    simp [poolOut, modStack, setStack, hpr]
  obtain ⟨hrest, hstk⟩ := sizePools_unpromoted (poolStacks m) (msgNat m 16 4) (s := { s with hostIn := rest }) hpr
  rw [exec_setPromotionPool, execSetPromotionPool, moduleReq_serves h hp (by simp [hst, hmib, hal]) hquiet]
  dsimp only
  generalize (poolStacks m).foldl (fun s st => sizePool s st (msgNat m 16 4)) { s with hostIn := rest } = u at hrest hstk ⊢
  have hwu : u.hostWait = [] := (congrArg State.hostWait hrest :).trans hw
  have hou : u.hostOut = s.hostOut := (congrArg State.hostOut hrest :)
  refine ⟨_, congrArg Host.Outcome.next (answer_done hwu (hou ▸ ho)),
    answered_done (congrArg State.hostIn hrest :) (congrArg (· ++ _) hou) hwu, fun st h48 => ?_⟩
  refine (hstk st).trans ?_
  have hmem : st ∈ poolStacks m ↔ msgNat m 12 1 = st ∨ msgNat m 12 1 = 255 := by
    unfold poolStacks
    split
    · next h255 => simp [h255, h48]
    · next h255 => simp [h255, eq_comm]
  simp only [hmem]
  rfl

end

/-! ### Replies to records (R208, R342, R388) -/

/-- A group that goes on after its record. -/
def releasedGroup (s : State) (g : Group) : Group :=
  let g := { g with susp := .run }
  let g := if g.handler.isNone then resumeTimers g s.clock else g
  if outOf s g && g.handler.isNone then { g with pausedAt := s.clock } else g

/-- The group runs again, with the paths, registers and requests that it had. -/
def RunsAgain (g g' : Group) : Prop :=
  g'.susp = .run ∧ g'.due = g.due ∧ g'.paths = g.paths ∧ g'.sreg = g.sreg ∧ g'.vreg = g.vreg ∧ g'.reqs = g.reqs

theorem releasedGroup_runsAgain (s : State) (g : Group) : RunsAgain g (releasedGroup s g) := by
  unfold releasedGroup
  extract_lets g1 g2
  have h2 : RunsAgain g g2 := by
    dsimp only [g2]
    split <;> exact ⟨rfl, rfl, rfl, rfl, rfl, rfl⟩
  split <;> exact h2

/-- With no trap due nothing but the group changes. -/
theorem releaseGroup_undue {s : State} {gid : Nat} {G : Group} (h : tabFind s.groups gid = some G) (hd : G.due = []) :
    (∃ G', tabFind (releaseGroup s gid).groups gid = some G' ∧ RunsAgain G G') ∧
    { releaseGroup s gid with groups := s.groups } = s := by
  have hruns := releasedGroup_runsAgain s G
  have hfind : tabFind (modGroup s gid (releasedGroup s)).groups gid = some (releasedGroup s G) := by
    simp [modGroup, tabFind_mod, h]
  have hdue : takeDue (modGroup s gid (releasedGroup s)) gid = modGroup s gid (releasedGroup s) := by
    simp only [takeDue, hfind, hruns.2.1, hd]
  have hrel : releaseGroup s gid = modGroup s gid (releasedGroup s) := by
    show (match tabFind (modGroup s gid (releasedGroup s)).groups gid with
      | some g => if outOf (modGroup s gid (releasedGroup s)) g then modGroup s gid (releasedGroup s)
        else takeDue (modGroup s gid (releasedGroup s)) gid
      | none => modGroup s gid (releasedGroup s)) = _
    simp only [hfind, hdue, ite_self]
  rw [hrel]
  exact ⟨⟨_, hfind, hruns⟩, rfl⟩

section
variable {s : State} {m : BitVec 512} {rest : List (BitVec 512)} {r : TrapRec} {G : Group}

/-- What a reply comes to: the record is pending no more, and what it stopped is answered, goes on or fails. -/
theorem recordReply_reaches (h : Asks s m rest 0x04 [(12, 1), (13, 1), (16, 4), (20, 4)]) (hof : OfProcess s m) (h48 : msgNat m 12 1 < 48)
    (h2 : msgNat m 13 1 < 2) (hpend : (stackOf s (msgNat m 12 1)).pending = [r]) (ht : r.tag = msgNat m 16 4) (hp : r.pasid = msgPasid m)
    (hw : r.info.cls ≠ 3 → msgNat m 13 1 = 0 → mayInval s (msgPasid m) (r.info.addr.toNat / 4096 * 4096) 4096 = true) :
    exec .recordReply s = .next (
      let t := modStack { s with hostIn := rest } (msgNat m 12 1) (fun k => { k with pending := [] })
      if r.info.cls = 3 then answerGroup t r.grp r (BitVec.ofNat 32 (msgNat m 20 4))
      else if msgNat m 13 1 = 0 then resolveTag (invalRange t (msgPasid m) (r.info.addr.toNat / 4096 * 4096) 4096) r
      else failTag t r) := by
  have hfind : (stackOf s (msgNat m 12 1)).pending.find? (fun r => r.tag = msgNat m 16 4 && r.pasid = msgPasid m) = some r := by
    simp [hpend, ht, hp]
  have hproc : (tabFind s.procs (msgPasid m)).isNone = false := by
    rw [Option.isNone_eq_false_iff]; exact hof.2
  have hwait : (replyPage s m).any (fun p => !mayInval s p.1 p.2 4096) = false := by
    rw [replyPage, hfind, Option.bind_some]
    split
    · next hc => simp only [Option.any_some, hp, hw hc.1 hc.2, Bool.not_true]
    · rfl
  have hpop : modStack { s with hostIn := rest } (msgNat m 12 1) (fun k => { k with pending := k.pending.filter (fun x => x.tag ≠ r.tag) }) =
      modStack { s with hostIn := rest } (msgNat m 12 1) (fun k => { k with pending := [] }) := by
    have hk : stackOf { s with hostIn := rest } (msgNat m 12 1) = stackOf s (msgNat m 12 1) := rfl
    simp only [modStack, hk, hpend]
    simp
  rw [exec_recordReply, execRecordReply, headIs_asked h, if_neg (by simp [hproc]),
    pasidReq_serves h hof rfl (by simp [h48, h2]) hwait]
  simp only [show stackOf { s with hostIn := rest } (msgNat m 12 1) = stackOf s (msgNat m 12 1) from rfl, hfind, hpop, hp]

/-- The reply to a group that is out is kept in its image (R356). -/
theorem answerGroup_out {v : Word} (hG : tabFind s.groups r.grp = some G) (hs : G.susp = .record r.tag) (hr : G.resident = false) :
    answerGroup s r.grp r v = setGroup s r.grp { G with reply := some (r, v) } := by
  simp [answerGroup, hG, hs, hr]
/-- A fault that has been resolved lets its group go on as it was. -/
theorem answerGroup_resolved {gid : Nat} {v : Word} (hG : tabFind s.groups gid = some G) (hs : G.susp = .record r.tag)
    (hr : G.resident = true) (hc : r.info.cls ≠ 3) (hd : G.due = []) :
    (∃ G', tabFind (answerGroup s gid r v).groups gid = some G' ∧ RunsAgain G G') ∧
    { answerGroup s gid r v with groups := s.groups } = s := by
  simp only [answerGroup, hG, hs, ne_eq, not_true, if_false, hr, Bool.not_true, Bool.false_eq_true, hc]
  obtain ⟨hrun, hrest⟩ := releaseGroup_undue (s := setGroup s gid G) (tabFind_put_self _ _ _) hd
  exact ⟨hrun, congrArg (fun t => { t with groups := s.groups }) hrest⟩
/-- The answer to an `SVC` is in `s2`, and the path goes on after it (R208). -/
theorem answerGroup_svc {v : Word} (hG : tabFind s.groups r.grp = some G) (hs : G.susp = .record r.tag) (hr : G.resident = true)
    (hc : r.info.cls = 3) (h32 : r.info.code = 0x32) (hd : G.due = []) (hregs : G.RegsOk) {p : Path}
    (hp : findPath G r.info.path = some p) :
    (∃ G' p', tabFind (answerGroup s r.grp r v).groups r.grp = some G' ∧ G'.susp = .run ∧ findPath G' r.info.path = some p' ∧
      p'.spc = p.spc + 4 ∧ p'.lpc = p.lpc ∧ sRead G' p' 2 = v ∧ ∀ x, x ≠ 2 → sRead G' p' x = sRead G p x) ∧
    { answerGroup s r.grp r v with groups := s.groups } = s := by
  have hx : sWrite (G, p) 2 v = ({ G with sreg := tabSet 0 G.sreg 2 v, spoison := setDel G.spoison 2 }, p) := rfl
  have hread (x : SReg) := sRead_sWrite (g := G) (p := p) 2 x v hregs.1
  have hfound : findPath (sWrite (G, p) 2 v).1 r.info.path = some p := hp
  simp only [answerGroup, hG, hs, ne_eq, not_true, if_false, hr, Bool.not_true, Bool.false_eq_true, hc, if_true, hp, h32]
  rw [hx] at hread hfound ⊢
  obtain ⟨⟨G', hG', hsusp, -, hpaths, hsreg, -⟩, hrest⟩ := releaseGroup_undue
    (s := setGroup s r.grp (putPath { G with sreg := tabSet 0 G.sreg 2 v, spoison := setDel G.spoison 2 } { p with spc := p.spc + 4 }))
    (tabFind_put_self _ _ _) hd
  have hsame (x : SReg) : sRead G' { p with spc := p.spc + 4 } x =
      sRead { G with sreg := tabSet 0 G.sreg 2 v, spoison := setDel G.spoison 2 } p x := by
    simp only [sRead, hsreg, putPath_sreg]
  refine ⟨⟨G', { p with spc := p.spc + 4 }, hG', hsusp, ?_, rfl, rfl, ?_, fun x hx2 => ?_⟩,
    congrArg (fun t => { t with groups := s.groups }) hrest⟩
  · rw [findPath_paths hpaths]
    exact findPath_putPath_self hfound (findPath_id hp :)
  · rw [hsame, hread, if_pos rfl]; rfl
  · rw [hsame, hread, if_neg hx2]; rfl

/-- Answers to groups of one number: the first lets it go on, and the others find nothing that waits. -/
theorem answerGroups_resolved {gid : Nat} (l : List (Nat × Group)) (hl : ∀ e ∈ l, e.1 = gid) (hne : l ≠ [])
    (hG : tabFind s.groups gid = some G) (hs : G.susp = .record r.tag) (hr : G.resident = true) (hc : r.info.cls ≠ 3) (hd : G.due = []) :
    (∃ G', tabFind (l.foldl (fun s e => answerGroup s e.1 r 0) s).groups gid = some G' ∧ RunsAgain G G') ∧
    { l.foldl (fun s e => answerGroup s e.1 r 0) s with groups := s.groups } = s := by
  have idle (l : List (Nat × Group)) (hl : ∀ e ∈ l, e.1 = gid) (t : State) {g : Group} (hg : tabFind t.groups gid = some g)
      (hrun : g.susp = .run) : l.foldl (fun s e => answerGroup s e.1 r 0) t = t := by
    induction l with
    | nil => rfl
    | cons e l ih =>
      obtain ⟨he, hl⟩ := List.forall_mem_cons.mp hl
      have hnone : answerGroup t e.1 r 0 = t := by simp [answerGroup, he, hg, hrun]
      rw [List.foldl_cons, hnone, ih hl]
  obtain ⟨e, l, rfl⟩ := List.exists_cons_of_ne_nil hne
  obtain ⟨he, hl⟩ := List.forall_mem_cons.mp hl
  obtain ⟨⟨G', hG', hrun⟩, hrest⟩ := answerGroup_resolved (v := 0) hG hs hr hc hd
  rw [List.foldl_cons, he, idle l hl _ hG' hrun.1]
  exact ⟨⟨G', hG', hrun⟩, hrest⟩

end

/-! ### Translations that are dropped (R209) -/

/-- Retiring frames touches their records and the lives of stacks alone. -/
theorem retireFrames_apart (s : State) (named : Nat → Bool) :
    { retireFrames s named with stks := s.stks, poisonFrames := s.poisonFrames, retiredFrames := s.retiredFrames } = s := by
  have hfold (l : List Nat) (t : State) : { l.foldl (fun s f =>
      modStack { s with retiredFrames := listFrame s.retiredFrames f } (f * 4096 / Config.stackBytes)
        (fun k => { k with life := { k.life with retired := k.life.retired + 1 } })) t with
        stks := s.stks, poisonFrames := s.poisonFrames, retiredFrames := s.retiredFrames } =
      { t with stks := s.stks, poisonFrames := s.poisonFrames, retiredFrames := s.retiredFrames } := by
    induction l generalizing t with
    | nil => rfl
    | cons f l ih => exact ih _
  exact hfold _ _

/-- A group whose walk's outcome is of a PASID that loses its translations. -/
def forgotWalk (pasid : Nat) (g : Group) : Group :=
  match g.walked with
  | some w => if w.pasid = pasid then { g with walked := none } else g
  | none => g
theorem forgotWalk_keeps (pasid : Nat) (g : Group) : (forgotWalk pasid g).susp = g.susp ∧ (forgotWalk pasid g).due = g.due ∧
    (forgotWalk pasid g).paths = g.paths ∧ (forgotWalk pasid g).sreg = g.sreg ∧ (forgotWalk pasid g).vreg = g.vreg ∧
    (forgotWalk pasid g).reqs = g.reqs ∧ (forgotWalk pasid g).resident = g.resident := by
  unfold forgotWalk
  split
  · split <;> exact ⟨rfl, rfl, rfl, rfl, rfl, rfl, rfl⟩
  · exact ⟨rfl, rfl, rfl, rfl, rfl, rfl, rfl⟩
theorem forgetWalked_groups (s : State) (pasid : Nat) : (forgetWalked s pasid).groups = s.groups.map (fun e => (e.1, forgotWalk pasid e.2)) := by
  refine List.map_congr_left fun e _ => ?_
  unfold forgotWalk
  cases e.2.walked with
  | none => rfl
  | some w => by_cases hw : w.pasid = pasid <;> simp only [hw, if_true, if_false]

/-- A leaf that an invalidation drops is in no core's TLB afterwards. -/
theorem dropRange_tlb (s : State) (pasid base len : Nat) :
    ∀ e ∈ (dropRange s pasid base len).cores, ∀ x ∈ e.2.tlb, leafOver pasid base len x = false := by
  intro e he x hx
  obtain ⟨e', _, rfl⟩ := List.mem_map.mp he
  simpa using (List.mem_filter.mp hx).2
/-- What holds of every core's record holds of a core. -/
theorem coreOf_all {s : State} {p : Core → Prop} (h : ∀ e ∈ s.cores, p e.2) (h0 : p coreZero) (c : Nat) : p (coreOf s c) := by
  rw [coreOf, tabGet]
  cases hc : tabFind s.cores c with
  | none => exact h0
  | some v => exact h _ (tabFind_isMem hc)

/-- With nothing promoted an invalidation leaves the host's channels alone, forgets walks of the PASID, and drops its leaves. -/
theorem invalRange_unpromoted {s : State} (hp : s.promoted = []) (pasid base len : Nat) :
    let t := invalRange s pasid base len
    t.hostIn = s.hostIn ∧ t.hostOut = s.hostOut ∧ t.groups = s.groups.map (fun e => (e.1, forgotWalk pasid e.2)) ∧
    ∀ e ∈ t.cores, ∀ x ∈ e.2.tlb, leafOver pasid base len x = false := by
  have hblocks : rangeBlocks s pasid base len = [] := by simp [rangeBlocks, hp]
  have hret := retireFrames_apart s (frameNamed s pasid base len)
  simp only [invalRange, hblocks, List.map_nil, List.foldl_nil]
  refine ⟨(congrArg State.hostIn hret :), (congrArg State.hostOut hret :), ?_, dropRange_tlb _ _ _ _⟩
  rw [dropRange, forgetWalked_groups]
  exact congrArg _ (congrArg State.groups hret :)

/-- What a record has stopped outside its groups goes on: gang entries, drains and streams. -/
def resumedTag (s : State) (tag : Nat) : State :=
  let s := mapEntries s (fun e => { e with stop := e.stop.filter (fun x => x.2 ≠ tag), saved := e.saved.map (wakeDrain tag) })
  { s with
    cores := s.cores.map (fun e => (e.1, { e.2 with drain := e.2.drain.map (wakeDrain tag) })),
    stks := s.stks.map (fun e => (e.1, { e.2 with subs := e.2.subs.map (fun x =>
      if x.suspended = some tag then { x with suspended := none } else x) })) }
theorem resolveTag_eq (s : State) (r : TrapRec) : resolveTag s r =
    (s.groups.filter (fun e => e.2.susp = .record r.tag)).foldl (fun s e => answerGroup s e.1 r 0) (resumedTag s r.tag) := rfl
theorem resumedTag_tlb {s : State} (tag : Nat) {p : TlbEnt → Prop} (h : ∀ e ∈ s.cores, ∀ x ∈ e.2.tlb, p x) :
    ∀ e ∈ (resumedTag s tag).cores, ∀ x ∈ e.2.tlb, p x := by
  intro e he x hx
  obtain ⟨e1, he1, rfl⟩ := List.mem_map.mp he
  obtain ⟨e2, he2, rfl⟩ := List.mem_map.mp he1
  exact h e2 he2 x hx

/-- Once the fault of a group is resolved the group goes on, and no core's TLB has changed. -/
theorem resolveTag_goesOn {s : State} {r : TrapRec} {gid : Nat} {G : Group} (hG : tabFind s.groups gid = some G)
    (hs : G.susp = .record r.tag) (hr : G.resident = true) (hc : r.info.cls ≠ 3) (hd : G.due = [])
    (honly : ∀ e ∈ s.groups, e.2.susp = .record r.tag → e.1 = gid) {p : TlbEnt → Prop} (htlb : ∀ e ∈ s.cores, ∀ x ∈ e.2.tlb, p x) :
    let t := resolveTag s r
    t.hostIn = s.hostIn ∧ t.hostOut = s.hostOut ∧ (∃ G', tabFind t.groups gid = some G' ∧ RunsAgain G G') ∧
      ∀ c, ∀ x ∈ (coreOf t c).tlb, p x := by
  have hwaits : (gid, G) ∈ s.groups.filter (fun e => e.2.susp = .record r.tag) := by
    simpa [hs] using tabFind_isMem hG
  have hkeys : ∀ e ∈ s.groups.filter (fun e => e.2.susp = .record r.tag), e.1 = gid := fun e he => by
    obtain ⟨hmem, hrec⟩ := List.mem_filter.mp he
    exact honly e hmem (by simpa using hrec)
  obtain ⟨hruns, hrest⟩ := answerGroups_resolved (s := resumedTag s r.tag) (r := r) _ hkeys (List.ne_nil_of_mem hwaits) hG hs hr hc hd
  intro t
  have ht : t = _ := resolveTag_eq s r
  rw [← ht] at hruns hrest
  refine ⟨(congrArg State.hostIn hrest :), (congrArg State.hostOut hrest :), hruns,
    coreOf_all (p := fun k => ∀ x ∈ k.tlb, p x) (fun e he => ?_) (by simp [coreZero])⟩
  rw [show t.cores = (resumedTag s r.tag).cores from (congrArg State.cores hrest :)] at he
  exact resumedTag_tlb r.tag htlb e he

section
variable {s : State} {m : BitVec 512} {rest : List (BitVec 512)} {r : TrapRec} {G : Group}

/-- A request of a record that is not pending, or of no process, is taken and has no effect (R342, R388). -/
theorem recordReply_discarded (h : Asks s m rest 0x04 [(12, 1), (13, 1), (16, 4), (20, 4)]) (h48 : msgNat m 12 1 < 48)
    (h2 : msgNat m 13 1 < 2) (hno : tabFind s.procs (msgPasid m) = none ∨ closingP s (msgPasid m) = false ∧
      (∀ r ∈ (stackOf s (msgNat m 12 1)).pending, r.tag ≠ msgNat m 16 4 ∨ r.pasid ≠ msgPasid m)) :
    exec .recordReply s = .next { s with hostIn := rest } := by
  obtain ⟨_, _, _, hz, _⟩ := id h
  have hform : replyForm m = true := by simp [replyForm, hz, h48, h2]
  rw [exec_recordReply, execRecordReply, headIs_asked h, popMsg_asked h]
  cases hp : tabFind s.procs (msgPasid m) with
  | none => simp [hform]
  | some pr =>
    obtain ⟨hopen, hpend⟩ := hno.resolve_left (by simp [hp])
    have hfind : (stackOf s (msgNat m 12 1)).pending.find? (fun r => r.tag = msgNat m 16 4 && r.pasid = msgPasid m) = none := by
      refine List.find?_eq_none.mpr fun r hr => ?_
      have := hpend r hr
      simp only [Bool.and_eq_true, decide_eq_true_eq]
      tauto
    rw [if_neg (by simp), pasidReq_serves h ⟨hopen, by simp [hp]⟩ rfl (by simp [h48, h2]) (by rw [replyPage, hfind]; rfl)]
    simp only [show stackOf { s with hostIn := rest } (msgNat m 12 1) = stackOf s (msgNat m 12 1) from rfl, hfind]

/-- What R208, R342 and R356 say of a reply to the one record that is pending on a stack. -/
theorem recordReply_serves (h : Asks s m rest 0x04 [(12, 1), (13, 1), (16, 4), (20, 4)]) (hof : OfProcess s m) (h48 : msgNat m 12 1 < 48)
    (hpend : (stackOf s (msgNat m 12 1)).pending = [r]) (ht : r.tag = msgNat m 16 4) (hp : r.pasid = msgPasid m) (hd : G.due = []) :
    (tabFind s.groups r.grp = some G → r.info.cls = 3 → msgNat m 13 1 < 2 → G.susp = .record r.tag → G.resident = false →
      ∃ t, exec .recordReply s = .next t ∧ t.hostIn = rest ∧ t.hostOut = s.hostOut ∧
        tabFind t.groups r.grp = some { G with reply := some (r, BitVec.ofNat 32 (msgNat m 20 4)) }) ∧
    (r.info.cls = 3 → msgNat m 13 1 < 2 → r.info.code = 0x32 → tabFind s.groups r.grp = some G → G.susp = .record r.tag →
      G.resident = true → G.RegsOk → ∀ p, findPath G r.info.path = some p → p.id = r.info.path → ∃ t G' p', exec .recordReply s = .next t ∧
        t.hostIn = rest ∧ t.hostOut = s.hostOut ∧ (stackOf t (msgNat m 12 1)).pending = [] ∧ tabFind t.groups r.grp = some G' ∧
        G'.susp = .run ∧ findPath G' r.info.path = some p' ∧ p'.spc = p.spc + 4 ∧ p'.lpc = p.lpc ∧
        sRead G' p' 2 = BitVec.ofNat 32 (msgNat m 20 4) ∧ ∀ x, x ≠ 2 → sRead G' p' x = sRead G p x) ∧
    (∀ gid, r.info.cls = 1 → msgNat m 13 1 = 0 → tabFind s.groups gid = some G → G.susp = .record r.tag → G.resident = true →
      s.promoted = [] → (∀ e ∈ s.groups, e.2.susp = .record r.tag → e.1 = gid) →
      let page := r.info.addr.toNat / 4096 * 4096
      mayInval s (msgPasid m) page 4096 = true →
      ∃ t G', exec .recordReply s = .next t ∧ t.hostIn = rest ∧ t.hostOut = s.hostOut ∧ tabFind t.groups gid = some G' ∧
        G'.susp = .run ∧ G'.paths = G.paths ∧ G'.sreg = G.sreg ∧ G'.vreg = G.vreg ∧ G'.reqs = G.reqs ∧
        ∀ c, ∀ e ∈ (coreOf t c).tlb, ¬(e.pasid = msgPasid m ∧ e.va < page + 4096 ∧ page < e.va + 2 ^ e.lg)) := by
  refine ⟨fun hG hc h2 hs hr => ?_, fun hc h2 h32 hG hs hr hregs p hp' _ => ?_, fun gid hc h0 hG hs hr hpr honly => ?_⟩
  · rw [recordReply_reaches h hof h48 h2 hpend ht hp (fun hne => absurd hc hne)]
    dsimp only
    rw [if_pos hc]
    exact ⟨_, congrArg Host.Outcome.next (answerGroup_out (G := G) hG hs hr), rfl, rfl, tabFind_put_self _ _ _⟩
  · rw [recordReply_reaches h hof h48 h2 hpend ht hp (fun hne => absurd hc hne)]
    dsimp only
    rw [if_pos hc]
    obtain ⟨⟨G', p', hG', hsusp, hp2, hspc, hlpc, h2, hother⟩, hrest⟩ := answerGroup_svc
      (s := modStack { s with hostIn := rest } (msgNat m 12 1) (fun k => { k with pending := [] }))
      (v := BitVec.ofNat 32 (msgNat m 20 4)) (G := G) hG hs hr hc h32 hd hregs hp'
    refine ⟨_, G', p', rfl, (congrArg State.hostIn hrest :), (congrArg State.hostOut hrest :), ?_, hG', hsusp, hp2, hspc, hlpc, h2, hother⟩
    refine (congrArg (fun t => (stackOf t (msgNat m 12 1)).pending) hrest).trans ?_
    exact congrArg Stack.pending (stackOf_modStack_self _ _ _)
  · intro page hmay
    have hc3 : r.info.cls ≠ 3 := by omega
    rw [recordReply_reaches h hof h48 (by omega) hpend ht hp (fun _ _ => hmay)]
    dsimp only
    rw [if_neg hc3, if_pos h0]
    obtain ⟨hin, hout, hgroups, htlb⟩ := invalRange_unpromoted
      (s := modStack { s with hostIn := rest } (msgNat m 12 1) (fun k => { k with pending := [] })) hpr (msgPasid m) page 4096
    generalize invalRange (modStack { s with hostIn := rest } (msgNat m 12 1) (fun k => { k with pending := [] })) (msgPasid m) page 4096 = u
      at hin hout hgroups htlb ⊢
    obtain ⟨fs, fd, fp, fsr, fv, fr, fres⟩ := forgotWalk_keeps (msgPasid m) G
    have hGu : tabFind u.groups gid = some (forgotWalk (msgPasid m) G) := by
      rw [hgroups, tabFind_map (f := fun e => (e.1, forgotWalk (msgPasid m) e.2)) (fun _ => rfl)]
      exact congrArg (Option.map (forgotWalk (msgPasid m))) hG
    obtain ⟨hin', hout', ⟨G', hG', hsusp, -, hpaths, hsreg, hvreg, hreqs⟩, htlb'⟩ := resolveTag_goesOn hGu (fs.trans hs) (fres.trans hr) hc3
      (fd.trans hd) (fun e he hsu => by
        rw [hgroups] at he
        obtain ⟨e', he', rfl⟩ := List.mem_map.mp he
        exact honly e' he' ((forgotWalk_keeps _ _).1.symm.trans hsu)) htlb
    refine ⟨_, G', rfl, hin'.trans hin, hout'.trans hout, hG', hsusp, hpaths.trans fp, hsreg.trans fsr, hvreg.trans fv, hreqs.trans fr,
      fun c e he => ?_⟩
    have := htlb' c e he
    simp only [leafOver, Bool.and_eq_false_iff, decide_eq_false_iff_not] at this
    tauto

end

/-! ### Attestation (R393) -/

/-- Fields packed lowest first, each a number of bytes and a value. -/
def fieldsNat (l : List (Nat × Nat)) : Nat := l.foldr (fun f x => f.2 + 256 ^ f.1 * x) 0
/-- The bytes that they take. -/
def fieldsLen (l : List (Nat × Nat)) : Nat := (l.map Prod.fst).sum

theorem fieldsNat_cons (f : Nat × Nat) (l : List (Nat × Nat)) : fieldsNat (f :: l) = f.2 + 256 ^ f.1 * fieldsNat l := rfl
theorem fieldsLen_cons (f : Nat × Nat) (l : List (Nat × Nat)) : fieldsLen (f :: l) = f.1 + fieldsLen l := List.sum_cons
theorem fieldsNat_append (l r : List (Nat × Nat)) : fieldsNat (l ++ r) = fieldsNat l + 256 ^ fieldsLen l * fieldsNat r := by
  induction l with
  | nil => simp [fieldsNat, fieldsLen]
  | cons f l ih => rw [List.cons_append, fieldsNat_cons, fieldsNat_cons, fieldsLen_cons, ih, Nat.mul_add, Nat.pow_add, Nat.mul_assoc, Nat.add_assoc]

section
variable {l : List (Nat × Nat)} (hl : ∀ f ∈ l, f.2 < 256 ^ f.1)
include hl

theorem fieldsNat_lt : fieldsNat l < 256 ^ fieldsLen l := by
  induction l with
  | nil => simp [fieldsNat, fieldsLen]
  | cons f l ih =>
    obtain ⟨hf, hl⟩ := List.forall_mem_cons.mp hl
    rw [fieldsNat_cons, fieldsLen_cons, Nat.pow_add]
    calc f.2 + 256 ^ f.1 * fieldsNat l < 256 ^ f.1 * (fieldsNat l + 1) := by rw [Nat.mul_succ]; omega
      _ ≤ 256 ^ f.1 * 256 ^ fieldsLen l := Nat.mul_le_mul_left _ (ih hl)
/-- A field is read back at its place. -/
theorem fieldsNat_field {f : Nat × Nat} (r : List (Nat × Nat)) (hf : f.2 < 256 ^ f.1) :
    fieldsNat (l ++ f :: r) / 256 ^ fieldsLen l % 256 ^ f.1 = f.2 := by
  rw [fieldsNat_append, Nat.add_mul_div_left _ _ (by positivity), Nat.div_eq_of_lt (fieldsNat_lt hl), Nat.zero_add, fieldsNat_cons,
    Nat.add_mul_mod_self_left, Nat.mod_eq_of_lt hf]

end

/-- Bytes within a number of bytes are its digits there. -/
theorem homeNat_slice (s : State) {n j k : Nat} (h : j + k ≤ n) (a : Nat) : homeNat s k (a + j) = homeNat s n a / 256 ^ j % 256 ^ k := by
  induction j generalizing n a with
  | zero =>
    rw [Nat.add_zero, Nat.pow_zero, Nat.div_one]
    induction k generalizing n a with
    | zero => simp [homeNat, bytesNat, Nat.mod_one]
    | succ k ih =>
      obtain ⟨n, rfl⟩ : ∃ n', n = n' + 1 := ⟨n - 1, by omega⟩
      have hb : (homeByte s a).toNat < 256 := (homeByte s a).isLt
      have ih : homeNat s k (a + 1) = homeNat s n (a + 1) % 256 ^ k := ih (by omega) (a + 1)
      rw [homeNat, homeNat, bytesNat, bytesNat, ← homeNat, ← homeNat, ih, Nat.pow_succ, Nat.mul_comm (256 ^ k), Nat.mod_mul,
        Nat.add_mul_mod_self_left, Nat.mod_eq_of_lt hb, Nat.add_mul_div_left _ _ (by omega), Nat.div_eq_of_lt hb, Nat.zero_add]
  | succ j ih =>
    obtain ⟨n, rfl⟩ : ∃ n', n = n' + 1 := ⟨n - 1, by omega⟩
    have hb : (homeByte s a).toNat < 256 := (homeByte s a).isLt
    have ih : homeNat s k (a + 1 + j) = homeNat s n (a + 1) / 256 ^ j % 256 ^ k := ih (by omega) (a + 1)
    rw [show a + (j + 1) = a + 1 + j by omega, ih, show homeNat s (n + 1) a = (homeByte s a).toNat + 256 * homeNat s n (a + 1) from rfl,
      Nat.pow_succ, Nat.mul_comm (256 ^ j), ← Nat.div_div_eq_div_mul, Nat.add_mul_div_left _ _ (by omega), Nat.div_eq_of_lt hb, Nat.zero_add]

/-- The fields of a report before its signature. -/
def reportFields (s : State) (nonce : Nat) : List (Nat × Nat) :=
  [(32, nonce), (64, s.measure.toNat), (32, Config.identityKey.toNat), (4, 2), (4, Config.fuseVersion.toNat),
   (4, (if s.bootFailed then 0 else 1) + (if s.stks.any (fun e => e.2.degraded) then 2 else 0)), (52, 0)]
/-- The signature of its body. -/
def reportSign (s : State) (nonce : Nat) : Nat := (Config.identitySign (Config.sha512 (leBytes 192 (reportBody s nonce)))).toNat

theorem two_pow_bytes {k n : Nat} (h : k = 8 * n) : 2 ^ k = 256 ^ n := by rw [h, Nat.pow_mul]
theorem toNat_lt_bytes {n : Nat} (x : BitVec (8 * n)) : x.toNat < 256 ^ n := x.isLt.trans_eq (two_pow_bytes rfl)
theorem reportBody_fields (s : State) (nonce : Nat) : reportBody s nonce = fieldsNat (reportFields s nonce) := by
  have p32 : 2 ^ 256 = 256 ^ 32 := two_pow_bytes rfl
  have p96 : 2 ^ 768 = 256 ^ 96 := two_pow_bytes rfl
  have p128 : 2 ^ 1024 = 256 ^ 128 := two_pow_bytes rfl
  have p132 : 2 ^ 1056 = 256 ^ 132 := two_pow_bytes rfl
  have p136 : 2 ^ 1088 = 256 ^ 136 := two_pow_bytes rfl
  simp only [reportBody, reportFields, fieldsNat, List.foldr_cons, List.foldr_nil, p32, p96, p128, p132, p136, Nat.mul_add, ← Nat.mul_assoc,
    ← Nat.pow_add, Nat.mul_zero, Nat.add_zero, Nat.add_assoc, Nat.reduceAdd]
theorem report_fields (s : State) (nonce : Nat) : report s nonce = fieldsNat (reportFields s nonce ++ [(64, reportSign s nonce)]) := by
  have p192 : 2 ^ 1536 = 256 ^ 192 := two_pow_bytes rfl
  have hsign : fieldsNat [(64, reportSign s nonce)] = reportSign s nonce := rfl
  rw [fieldsNat_append, show fieldsLen (reportFields s nonce) = 192 from rfl, hsign, ← reportBody_fields, ← p192]
  rfl
theorem reportFields_fit {s : State} {nonce : Nat} (hn : nonce < 256 ^ 32) : ∀ f ∈ reportFields s nonce, f.2 < 256 ^ f.1 := by
  have hflags : (if s.bootFailed then 0 else 1) + (if s.stks.any (fun e => e.2.degraded) then 2 else 0) < 256 ^ 4 := by
    split <;> split <;> decide
  simp only [reportFields, List.forall_mem_cons]
  exact ⟨hn, toNat_lt_bytes (n := 64) s.measure, toNat_lt_bytes (n := 32) Config.identityKey, by decide,
    toNat_lt_bytes (n := 4) Config.fuseVersion, hflags, by positivity,
    fun _ h => nomatch h⟩


theorem mod_pow_div_mod {x j w n : Nat} (h : j + w ≤ n) : x % 256 ^ n / 256 ^ j % 256 ^ w = x / 256 ^ j % 256 ^ w := by
  obtain ⟨k, rfl⟩ := Nat.exists_eq_add_of_le h
  rw [Nat.add_assoc, Nat.pow_add, Nat.mod_mul_right_div_self, Nat.mod_mod_of_dvd _ (Nat.pow_dvd_pow _ (by omega))]
/-- Where memory holds a report, a field of it stands in its bytes. -/
theorem homeNat_report {s t : State} {a nonce : Nat} (h : homeNat t 256 a = report s nonce % 256 ^ 256) (hn : nonce < 256 ^ 32)
    {l r : List (Nat × Nat)} {w v off : Nat} (hl : reportFields s nonce = l ++ (w, v) :: r) (hoff : fieldsLen l = off) :
    homeNat t w (a + off) = v := by
  have hfit := reportFields_fit (s := s) hn
  have hlen : fieldsLen l + w ≤ 192 := by
    have h192 : fieldsLen (reportFields s nonce) = 192 := rfl
    rw [hl, fieldsLen, List.map_append, List.sum_append, List.map_cons, List.sum_cons] at h192
    exact (by unfold fieldsLen; omega)
  subst hoff
  rw [homeNat_slice t (show fieldsLen l + w ≤ 256 by omega), h, mod_pow_div_mod (by omega), report_fields, hl, List.append_assoc,
    List.cons_append]
  exact fieldsNat_field (f := (w, v)) (fun f hf => hfit f (hl ▸ List.mem_append_left _ hf)) _
    (hfit (w, v) (hl ▸ List.mem_append_right _ (List.mem_cons_self ..)))
/-- The signature is that of the bytes before it. -/
theorem homeNat_report_sign {s t : State} {a nonce : Nat} (h : homeNat t 256 a = report s nonce % 256 ^ 256) (hn : nonce < 256 ^ 32) :
    homeNat t 64 (a + 192) = (Config.identitySign (Config.sha512 (leBytes 192 (homeNat t 192 a)))).toNat := by
  have hfit := reportFields_fit (s := s) hn
  have hbody : homeNat t 192 a = reportBody s nonce := by
    have hlt : _ < 256 ^ 192 := fieldsNat_lt hfit
    have hslice := homeNat_slice t (show 0 + 192 ≤ 256 by omega) a
    rw [h, mod_pow_div_mod (by omega), report_fields, fieldsNat_append, Nat.pow_zero, Nat.div_one, Nat.add_zero] at hslice
    rw [hslice, show fieldsLen (reportFields s nonce) = 192 from rfl, Nat.add_mul_mod_self_left, Nat.mod_eq_of_lt hlt, reportBody_fields]
  have hsign : reportSign s nonce < 256 ^ 64 := toNat_lt_bytes (n := 64) _
  rw [hbody, homeNat_slice t (show 192 + 64 ≤ 256 by omega), h, mod_pow_div_mod (by omega), report_fields]
  exact fieldsNat_field (f := (64, reportSign s nonce)) hfit [] hsign

theorem attestationReport_serves {s : State} {m : BitVec 512} {rest : List (BitVec 512)} (h : Asks s m rest 0x0F [(16, 32), (48, 8)])
    (hp : msgPasid m = 0) (hal : msgNat m 48 8 % 256 = 0) (hb : msgNat m 48 8 + 256 ≤ Config.hbmBytes) (hpr : s.promoted = [])
    (hm : s.MemOk) :
    let a := msgNat m 48 8
    ∃ t, exec .attestationReport s = .next t ∧ Answered s t m rest 0 [(12, 4, 256)] ∧ homeNat t 32 a = msgNat m 16 32 ∧
      homeNat t 64 (a + 32) = s.measure.toNat ∧ homeNat t 32 (a + 96) = Config.identityKey.toNat ∧ homeNat t 4 (a + 128) = 2 ∧
      homeNat t 4 (a + 132) = Config.fuseVersion.toNat ∧
      homeNat t 4 (a + 136) = (if s.bootFailed then 0 else 1) + (if s.stks.any (fun e => e.2.degraded) then 2 else 0) ∧
      homeNat t 52 (a + 140) = 0 ∧
      homeNat t 64 (a + 192) = (Config.identitySign (Config.sha512 (leBytes 192 (homeNat t 192 a)))).toNat ∧
      ∀ x, x < Config.hbmBytes → (x < a ∨ a + 256 ≤ x) → homeByte t x = homeByte s x := by
  intro a
  obtain ⟨_, _, _, _, hw, ho⟩ := id h
  have hn : msgNat m 16 32 < 256 ^ 32 := msgNat_lt m 16 32
  have hsame : report { s with hostIn := rest } (msgNat m 16 32) = report s (msgNat m 16 32) := by simp only [report, reportBody]
  have hapart := homeWrite_apart 256 { s with hostIn := rest } a (report s (msgNat m 16 32)) s.mem s.hartRes
  have hread := homeNat_write 256 (s := { s with hostIn := rest }) a (report s (msgNat m 16 32)) hb hpr hm
  have hout := fun x hx ho => homeByte_write_out 256 (s := { s with hostIn := rest }) (a := a) (b := x) (report s (msgNat m 16 32)) hb hx hpr hm ho
  rw [exec_attestationReport, execAttestationReport, moduleReq_serves h hp (by simp [hal, hb]) rfl, hsame]
  generalize homeWrite 256 { s with hostIn := rest } a (report s (msgNat m 16 32)) = u at hapart hread hout ⊢
  have hwu : u.hostWait = [] := (congrArg State.hostWait hapart :).trans hw
  have hou : u.hostOut = s.hostOut := (congrArg State.hostOut hapart :)
  rw [owe_ready hwu (hou ▸ ho)]
  have hput : homeNat { u with hostOut := u.hostOut ++ [msgPut (replyTo m) 12 4 256] } 256 a = report s (msgNat m 16 32) % 256 ^ 256 :=
    (homeNat_congr rfl rfl rfl 256 a).trans hread
  have hnonce := homeNat_report hput hn (l := []) (off := 0) rfl rfl
  refine ⟨_, rfl, answered_number (congrArg State.hostIn hapart :) (congrArg (· ++ _) hou) hwu, hnonce,
    homeNat_report hput hn (l := [_]) rfl rfl, homeNat_report hput hn (l := [_, _]) rfl rfl, homeNat_report hput hn (l := [_, _, _]) rfl rfl,
    homeNat_report hput hn (l := [_, _, _, _]) rfl rfl, homeNat_report hput hn (l := [_, _, _, _, _]) rfl rfl,
    homeNat_report hput hn (l := [_, _, _, _, _, _]) rfl rfl, homeNat_report_sign hput hn, fun x hx ho => ?_⟩
  exact (homeByte_congr rfl rfl rfl x).trans ((hout x hx ho).trans (homeByte_congr rfl rfl rfl x))

/-! ### Teardown (R385) -/

/-- What holds of every stack's record, whatever its life, holds after frames are retired. -/
theorem retireFrames_stks {s : State} (named : Nat → Bool) {p : Stack → Prop} (h : ∀ e ∈ s.stks, p e.2) (h0 : p stackZero)
    (hl : ∀ k l, p k → p { k with life := l }) : ∀ e ∈ (retireFrames s named).stks, p e.2 := by
  have hput (t : State) (k : Nat) (f : Stack → Stack) (hf : ∀ x, p x → p (f x)) (ht : ∀ e ∈ t.stks, p e.2) :
      ∀ e ∈ (modStack t k f).stks, p e.2 := by
    intro e he
    have hk : p (stackOf t k) := by
      rw [stackOf, tabGet]
      cases hc : tabFind t.stks k with
      | none => exact h0
      | some v => exact ht _ (tabFind_isMem hc)
    obtain rfl | he := tabPut_mem he
    · exact hf _ hk
    · exact ht e he
  have hfold (l : List Nat) (t : State) (ht : ∀ e ∈ t.stks, p e.2) : ∀ e ∈ (l.foldl (fun s f =>
      modStack { s with retiredFrames := listFrame s.retiredFrames f } (f * 4096 / Config.stackBytes)
        (fun k => { k with life := { k.life with retired := k.life.retired + 1 } })) t).stks, p e.2 := by
    induction l generalizing t with
    | nil => exact ht
    | cons f l ih => exact ih _ (hput _ _ _ (fun x => hl x _) ht)
  exact hfold _ _ h

/-- Steps 4 and 5 of a teardown, before answers are given. -/
def tornDown (s : State) (pasid : Nat) : State :=
  let s := invalPasid s pasid
  { s with
    stks := s.stks.map (fun e => (e.1, { e.2 with tasks := e.2.tasks.filter (fun x => x.pasid ≠ pasid) })),
    collectives := s.collectives.filter (fun e => e.2.pasid ≠ pasid),
    segments := s.segments.map (fun e => (e.1,
      if (e.2.attach.map (fun a => a.1)) = some pasid then { e.2 with attach := none } else e.2)),
    blockTables := s.blockTables.filter (fun t => t.1 ≠ pasid),
    queues := s.queues.filter (fun e => e.2.pasid ≠ pasid),
    procs := tabDel s.procs pasid }
theorem endTeardown_eq (s : State) (pasid : Nat) : endTeardown s pasid = settleReplies (tornDown s pasid) := rfl

/-- No team, stream or promotion is left, processes stand in order, and the request is off the channel. -/
def Idle (rest : List (BitVec 512)) (s : State) : Prop :=
  s.teams = [] ∧ (∀ e ∈ s.stks, e.2.subs = []) ∧ s.promoted = [] ∧ tabSorted s.procs = true ∧ s.hostIn = rest
/-- Nothing names a PASID any more: no process, TLB, collective, table or attached segment. -/
def Unnamed (pasid : Nat) (s : State) : Prop :=
  tabFind s.procs pasid = none ∧ (∀ c ∈ s.cores, ∀ e ∈ c.2.tlb, e.pasid ≠ pasid) ∧ (∀ e ∈ s.collectives, e.2.pasid ≠ pasid) ∧
    (∀ x ∈ s.blockTables, x.1 ≠ pasid) ∧ ∀ e ∈ s.segments, e.2.attach.map (fun a => a.1) ≠ some pasid

section
variable {s : State} {rest : List (BitVec 512)}

theorem teardownReady_idle (h : Idle rest s) (pasid : Nat) : teardownReady s pasid = true := by
  obtain ⟨hteams, hsubs, hprom, -, -⟩ := h
  simp only [teardownReady, hteams, pasidBlocks, hprom, List.all_nil, List.filter_nil, Bool.true_and, Bool.and_true, List.all_eq_true]
  intro e he
  simp [hsubs e he]

/-- What a teardown's end drops and what it keeps, with nothing promoted. -/
theorem tornDown_fields (hp : s.promoted = []) (p : Nat) :
    let t := tornDown s p
    t.teams = s.teams ∧ t.promoted = [] ∧ t.procs = tabDel s.procs p ∧ t.hostIn = s.hostIn ∧ t.hostOut = s.hostOut ∧
      t.hostWait = s.hostWait ∧ t.collectives = s.collectives.filter (fun e => e.2.pasid ≠ p) ∧
      t.blockTables = s.blockTables.filter (fun t => t.1 ≠ p) ∧ t.segments = s.segments.map (fun e => (e.1,
        if (e.2.attach.map (fun a => a.1)) = some p then { e.2 with attach := none } else e.2)) ∧
      t.cores = s.cores.map (fun e => (e.1, { e.2 with tlb := e.2.tlb.filter (fun x => !decide (x.pasid = p)) })) ∧
      ((∀ e ∈ s.stks, e.2.subs = []) → ∀ e ∈ t.stks, e.2.subs = []) := by
  have hblocks : pasidBlocks s p = [] := by simp [pasidBlocks, hp]
  have hret := retireFrames_apart s (fun f => procMaps s p (4096 * f) (4096 * (f + 1)) ||
    someLeaf s (fun x => decide (x.pasid = p) && decide (x.pa < 4096 * (f + 1)) && decide (4096 * f < x.pa + 2 ^ x.lg)))
  have hstks (h : ∀ e ∈ s.stks, e.2.subs = []) := retireFrames_stks (fun f => procMaps s p (4096 * f) (4096 * (f + 1)) ||
    someLeaf s (fun x => decide (x.pasid = p) && decide (x.pa < 4096 * (f + 1)) && decide (4096 * f < x.pa + 2 ^ x.lg)))
    (p := fun k => k.subs = []) h rfl (fun k l hk => hk)
  simp only [tornDown, invalPasid, hblocks, List.map_nil, List.foldl_nil]
  generalize retireFrames s _ = u at hret hstks ⊢
  refine ⟨(congrArg State.teams hret :), (congrArg State.promoted hret :).trans hp, congrArg (tabDel · p) (congrArg State.procs hret :),
    (congrArg State.hostIn hret :), (congrArg State.hostOut hret :), (congrArg State.hostWait hret :),
    congrArg (List.filter _) (congrArg State.collectives hret :), congrArg (List.filter _) (congrArg State.blockTables hret :),
    congrArg (List.map _) (congrArg State.segments hret :), congrArg (List.map _) (congrArg State.cores hret :), fun h e he => ?_⟩
  obtain ⟨e1, he1, rfl⟩ := List.mem_map.mp he
  obtain ⟨e2, he2, rfl⟩ := List.mem_map.mp he1
  obtain ⟨e3, he3, rfl⟩ := List.mem_map.mp he2
  exact hstks h e3 he3

theorem tornDown_idle (h : Idle rest s) (p : Nat) : Idle rest (tornDown s p) := by
  obtain ⟨hteams, hsubs, hprom, hsorted, hin⟩ := h
  obtain ⟨fteams, fprom, fprocs, fin, -, -, -, -, -, -, fsubs⟩ := tornDown_fields hprom p
  exact ⟨fteams.trans hteams, fsubs hsubs, fprom, fprocs ▸ tabSorted_del p hsorted, fin.trans hin⟩
/-- A teardown leaves nothing that names its PASID. -/
theorem tornDown_unnamed (h : Idle rest s) (p : Nat) : Unnamed p (tornDown s p) := by
  obtain ⟨-, -, hprom, hsorted, -⟩ := h
  obtain ⟨-, -, fprocs, -, -, -, fcoll, ftab, fseg, fcores, -⟩ := tornDown_fields hprom p
  refine ⟨fprocs ▸ tabFind_del_self p hsorted, fun c hc e he => ?_, fun e he => ?_, fun x hx => ?_, fun e he => ?_⟩
  · rw [fcores] at hc
    obtain ⟨c', _, rfl⟩ := List.mem_map.mp hc
    simpa using (List.mem_filter.mp he).2
  · rw [fcoll] at he; simpa using (List.mem_filter.mp he).2
  · rw [ftab] at hx; simpa using (List.mem_filter.mp hx).2
  · rw [fseg] at he
    obtain ⟨e', _, rfl⟩ := List.mem_map.mp he
    dsimp only
    split
    · simp
    · assumption
/-- The teardown of another PASID brings no name back. -/
theorem tornDown_keeps_unnamed (h : Idle rest s) {pasid : Nat} (hu : Unnamed pasid s) (p : Nat) : Unnamed pasid (tornDown s p) := by
  by_cases hpp : pasid = p
  · subst hpp; exact tornDown_unnamed h pasid
  obtain ⟨-, -, hprom, hsorted, -⟩ := h
  obtain ⟨-, -, fprocs, -, -, -, fcoll, ftab, fseg, fcores, -⟩ := tornDown_fields hprom p
  obtain ⟨uprocs, ucores, ucoll, utab, useg⟩ := hu
  refine ⟨?_, fun c hc e he => ?_, fun e he => ?_, fun x hx => ?_, fun e he => ?_⟩
  · rw [fprocs, tabFind_del_ne hsorted hpp, uprocs]
  · rw [fcores] at hc
    obtain ⟨c', hc', rfl⟩ := List.mem_map.mp hc
    exact ucores c' hc' e (List.mem_of_mem_filter he)
  · rw [fcoll] at he; exact ucoll e (List.mem_of_mem_filter he)
  · rw [ftab] at hx; exact utab x (List.mem_of_mem_filter hx)
  · rw [fseg] at he
    obtain ⟨e', he', rfl⟩ := List.mem_map.mp he
    dsimp only
    split
    · simp
    · exact useg e' he'

end

section
variable {s : State} {rest out : List (BitVec 512)} {pasid : Nat} {r : BitVec 512}

/-- The teardown of a PASID is under way: its answer is owed, and its process is still there. -/
def Closing (rest out : List (BitVec 512)) (pasid : Nat) (r : BitVec 512) (s : State) : Prop :=
  Idle rest s ∧ s.hostWait = [.closed pasid r] ∧ s.hostOut = out ∧ (tabFind s.procs pasid).isSome = true
/-- The teardown is done and answered. -/
def Closed (rest out : List (BitVec 512)) (pasid : Nat) (r : BitVec 512) (s : State) : Prop :=
  Idle rest s ∧ s.hostWait = [] ∧ s.hostOut = out ++ [r] ∧ Unnamed pasid s

theorem endTeardown_other (h : Closing rest out pasid r s) {p : Nat} (hp : pasid ≠ p) : Closing rest out pasid r (endTeardown s p) := by
  obtain ⟨hidle, hwait, hout, hproc⟩ := h
  obtain ⟨-, -, fprocs, -, fout, fwait, -⟩ := tornDown_fields hidle.2.2.1 p
  have hproc' : (tabFind (tornDown s p).procs pasid).isSome = true := by
    rw [fprocs, tabFind_del_ne hidle.2.2.2.1 hp]; exact hproc
  have hset : endTeardown s p = tornDown s p := by
    rw [endTeardown_eq, settleReplies, fwait, hwait]
    simp only [List.length_singleton, flushReplies, fwait, hwait, replyReady, hproc', if_true]
  rw [hset]
  exact ⟨tornDown_idle hidle p, fwait.trans hwait, fout.trans hout, hproc'⟩
theorem endTeardown_self (h : Closing rest out pasid r s) (hroom : out.length < 16) : Closed rest out pasid r (endTeardown s pasid) := by
  obtain ⟨hidle, hwait, hout, -⟩ := h
  obtain ⟨-, -, -, -, fout, fwait, -⟩ := tornDown_fields hidle.2.2.1 pasid
  have hun := tornDown_unnamed hidle pasid
  have hset : endTeardown s pasid = { tornDown s pasid with hostWait := [], hostOut := out ++ [r] } := by
    rw [endTeardown_eq, settleReplies, fwait, hwait]
    simp only [List.length_singleton, flushReplies, fwait, hwait, replyReady, hun.1, Option.isSome_none, Bool.false_eq_true, if_false, fout,
      hout, if_pos hroom]
  rw [hset]
  exact ⟨tornDown_idle hidle pasid, rfl, rfl, hun⟩
theorem endTeardown_after (h : Closed rest out pasid r s) (p : Nat) : Closed rest out pasid r (endTeardown s p) := by
  obtain ⟨hidle, hwait, hout, hun⟩ := h
  obtain ⟨-, -, -, -, fout, fwait, -⟩ := tornDown_fields hidle.2.2.1 p
  have hset : endTeardown s p = tornDown s p := by
    rw [endTeardown_eq, settleReplies, fwait, hwait]; rfl
  rw [hset]
  exact ⟨tornDown_idle hidle p, fwait.trans hwait, fout.trans hout, tornDown_keeps_unnamed hidle hun p⟩

/-- Of all the teardowns that can end, the one that is owed an answer ends and is answered. -/
theorem endTeardowns_closed (hroom : out.length < 16) (l : List (Nat × Proc)) (hl : pasid ∈ l.map Prod.fst) (h : Closing rest out pasid r s) :
    Closed rest out pasid r (l.foldl (fun s e => if teardownReady s e.1 then endTeardown s e.1 else s) s) := by
  have hafter (l : List (Nat × Proc)) (s : State) (h : Closed rest out pasid r s) :
      Closed rest out pasid r (l.foldl (fun s e => if teardownReady s e.1 then endTeardown s e.1 else s) s) := by
    induction l generalizing s with
    | nil => exact h
    | cons e l ih =>
      rw [List.foldl_cons, if_pos (teardownReady_idle h.1 e.1)]
      exact ih _ (endTeardown_after h e.1)
  induction l generalizing s with
  | nil => cases hl
  | cons e l ih =>
    rw [List.foldl_cons, if_pos (teardownReady_idle h.1 e.1)]
    by_cases he : pasid = e.1
    · rw [← he]; exact hafter l _ (endTeardown_self h hroom)
    · exact ih ((List.mem_cons.mp hl).resolve_left he) (endTeardown_other h he)

end

/-- The module once a teardown has begun, with nothing of the PASID that runs or is queued: its answer is owed. -/
def begunTeardown (s : State) (m : BitVec 512) (rest : List (BitVec 512)) : State :=
  { s with
    hostIn := rest, hostWait := [.closed (msgPasid m) (replyTo m)],
    procs := tabMod s.procs (msgPasid m) (fun p => { p with closing := true }),
    stks := s.stks.map (fun e => (e.1, { e.2 with
      walks := e.2.walks.filter (fun w => w.pasid ≠ msgPasid m),
      waitQ := e.2.waitQ.filter (fun r => r.pasid ≠ msgPasid m), pending := e.2.pending.filter (fun r => r.pasid ≠ msgPasid m),
      subs := (e.2.subs.filter (fun x => x.pasid ≠ msgPasid m || x.started)).map (fun x =>
        if x.pasid = msgPasid m ∧ x.suspended.isSome then { x with suspended := none, error := 4 } else x) })) }

theorem teardownPasid_serves {s : State} {m : BitVec 512} {rest : List (BitVec 512)} {pr : Proc} (h : Asks s m rest 0x0E [])
    (hpr : tabFind s.procs (msgPasid m) = some pr) (hc : pr.closing = false) (hsorted : tabSorted s.procs = true) (hteams : s.teams = [])
    (hlaunches : s.launches = []) (hqueues : s.queues = []) (hsubs : ∀ e ∈ s.stks, e.2.subs = []) (hprom : s.promoted = []) :
    ∃ t, exec .teardownPasid s = .next t ∧ Answered s t m rest 0 [] ∧ tabFind t.procs (msgPasid m) = none ∧
      (∀ c, ∀ e ∈ (coreOf t c).tlb, e.pasid ≠ msgPasid m) ∧ (∀ e ∈ t.collectives, e.2.pasid ≠ msgPasid m) ∧
      (∀ x ∈ t.blockTables, x.1 ≠ msgPasid m) ∧ ∀ e ∈ t.segments, e.2.attach.map (fun a => a.1) ≠ some (msgPasid m) := by
  obtain ⟨_, _, _, hz, hw, ho⟩ := id h
  have hclosing : Closing rest s.hostOut (msgPasid m) (replyTo m) (begunTeardown s m rest) := by
    refine ⟨⟨hteams, fun e he => ?_, hprom, tabSorted_mod _ _ hsorted, rfl⟩, rfl, rfl, ?_⟩
    · obtain ⟨e', he', rfl⟩ := List.mem_map.mp he
      simp [hsubs e' he']
    · simp [begunTeardown, tabFind_mod, hpr]
  have hmem : msgPasid m ∈ ((begunTeardown s m rest).procs.filter (fun e => e.2.closing)).map Prod.fst := by
    refine List.mem_map.mpr ⟨(msgPasid m, { pr with closing := true }), List.mem_filter.mpr ⟨tabFind_isMem ?_, rfl⟩, rfl⟩
    simp [begunTeardown, tabFind_mod, hpr]
  obtain ⟨⟨-, -, -, -, hin⟩, hwait, hout, hprocs, htlb, hcoll, htab, hseg⟩ := endTeardowns_closed ho _ hmem hclosing
  refine ⟨endTeardowns (begunTeardown s m rest), ?_, answered_done hin hout hwait, hprocs,
    coreOf_all (p := fun k => ∀ e ∈ k.tlb, e.pasid ≠ msgPasid m) htlb (by simp [coreZero]), hcoll, htab, hseg⟩
  have howe : owe (beginTeardown { s with hostIn := rest } (msgPasid m)) (.closed (msgPasid m) (replyTo m)) = begunTeardown s m rest := by
    have hbegin : beginTeardown { s with hostIn := rest } (msgPasid m) = { begunTeardown s m rest with hostWait := [] } := by
      simp only [beginTeardown, hqueues, hlaunches, List.filter_nil, List.foldl_nil, begunTeardown, hw]
    have hthere : (tabFind (begunTeardown s m rest).procs (msgPasid m)).isSome = true := hclosing.2.2.2
    rw [hbegin]
    simp only [owe, List.nil_append, List.length_singleton, flushReplies, replyReady]
    rw [if_pos hthere]
    rfl
  rw [exec_teardownPasid, execTeardownPasid, headIs_asked h, popMsg_asked h]
  have hnone (f : Nat × Launch → Bool) : s.launches.any f = false := by rw [hlaunches]; rfl
  simp only [always, if_true, hnone, Bool.false_eq_true, if_false, hz, Bool.not_true, hpr, hc, howe]

/-! ### What the end of a team leaves alone (R343, R380, R381)

A kill ends accesses, submissions, tasks and clusters; what is said of it afterwards needs only that none of this touches the channels of the
host, the cause and the kill mark of a launch, or a record in a latch. `State.Told v` says that these are `v`, and each operation of a team's
end that returns a state has one lemma, named after it with `_told`. It looks at five fields, so an operation that writes others
keeps it by the hypothesis itself. -/

/-- The channels of the host, each launch's cause and kill mark, and each stack's latch. -/
abbrev Told : Type := List (BitVec 512) × List (BitVec 512) × List ReplyDue × (Nat → Option (Word × Bool)) × (Nat → List TrapRec)
def told (hostIn hostOut : List (BitVec 512)) (hostWait : List ReplyDue) (launches : Tab Launch) (stks : Tab Stack) : Told :=
  (hostIn, hostOut, hostWait, fun n => (tabFind launches n).map (fun l => (l.cause, l.killed)), fun k => (tabGet stackZero stks k).fatal)
def State.Told (v : Machine.Told) (s : State) : Prop := told s.hostIn s.hostOut s.hostWait s.launches s.stks = v

section
variable {v : Told} {s : State}

theorem ite_told {c : Prop} [Decidable c] {a b : State} (ha : a.Told v) (hb : b.Told v) : (if c then a else b).Told v := by
  split
  · exact ha
  · exact hb
theorem foldl_told {α : Type} {f : State → α → State} {l : List α} (hf : ∀ t a, t.Told v → (f t a).Told v) (h : s.Told v) :
    (l.foldl f s).Told v :=
  foldl_keeps (P := State.Told v) l hf h
theorem modCore_told {c : Nat} {f : Core → Core} (h : s.Told v) : (modCore s c f).Told v := h
/-- A change of a stack that leaves its latch alone. -/
theorem modStack_told {k : Nat} {f : Stack → Stack} (hf : ∀ x, (f x).fatal = x.fatal) (h : s.Told v) : (modStack s k f).Told v := by
  refine Eq.trans ?_ h
  have hk : ∀ j, (stackOf (modStack s k f) j).fatal = (stackOf s j).fatal := fun j => by
    rw [stackOf_modStack]
    split
    · subst_vars; exact hf _
    · rfl
  simp only [told, Prod.mk.injEq]
  exact ⟨rfl, rfl, rfl, rfl, funext hk⟩
/-- A change of a launch that leaves its cause and its mark alone. -/
theorem modLaunch_told {n : Nat} {f : Launch → Launch} (hf : ∀ x, ((f x).cause, (f x).killed) = (x.cause, x.killed)) (h : s.Told v) :
    (modLaunch s n f).Told v := by
  refine Eq.trans ?_ h
  have hn : ∀ j, (tabFind (modLaunch s n f).launches j).map (fun l => (l.cause, l.killed)) =
      (tabFind s.launches j).map (fun l => (l.cause, l.killed)) := fun j => by
    rw [modLaunch, tabFind_mod]
    split
    · subst_vars; rw [Option.map_map]; exact congrArg (Option.map · _) (funext hf)
    · rfl
  simp only [told, Prod.mk.injEq]
  exact ⟨rfl, rfl, rfl, funext hn, rfl⟩

/-! Words at home slices, in column caches and in scratchpads. -/

theorem homePut_told {a : Nat} {x : Byte} (h : s.Told v) : (homePut s a x).Told v := by
  unfold homePut
  exact ite_told h h
theorem homeWordPut_told {wa : Nat} {x : Word} (h : s.Told v) : (homeWordPut s wa x).Told v :=
  homePut_told (homePut_told (homePut_told (homePut_told h)))
theorem writeBackLine_told {c line : Nat} (h : s.Told v) : (writeBackLine s c line).Told v := by
  unfold writeBackLine
  extract_lets dirty s1
  have hs1 : s1.Told v := foldl_told (fun _ _ ht => ite_told ht ht) h
  refine foldl_told (fun _ _ ht => ?_) hs1
  extract_lets wa
  split
  · exact ite_told (homeWordPut_told (ite_told ht ht)) ht
  · exact ht
theorem evictLine_told {c line : Nat} (h : s.Told v) : (evictLine s c line).Told v := modCore_told (writeBackLine_told h)
theorem colRoom_told {c line : Nat} (h : s.Told v) : (colRoom s c line).Told v := by
  unfold colRoom
  extract_lets k s1
  have hs1 : s1.Told v := by
    unfold s1
    refine ite_told h ?_
    split
    · exact evictLine_told h
    · exact h
  exact modCore_told hs1
theorem colTrim_told {c : Nat} (h : s.Told v) : (colTrim s c).Told v := by
  unfold colTrim
  refine foldl_told (fun _ _ ht => ?_) h
  extract_lets k
  refine ite_told ?_ ht
  split
  · exact evictLine_told ht
  · exact ht
theorem colTouch_told {c line : Nat} (h : s.Told v) : (colTouch s c line).Told v := ite_told (colRoom_told h) h
theorem noteRead_told {c pa : Nat} (h : s.Told v) : (noteRead s c pa).Told v := ite_told h h
theorem colFill_told {c line : Nat} (h : s.Told v) : (colFill s c line).Told v := by
  unfold colFill
  refine ite_told (colRoom_told h) (foldl_told (fun _ _ ht => ?_) (colRoom_told (noteRead_told h)))
  extract_lets wa
  split <;> exact ht
theorem l1Update_told {c wa : Nat} {x : Word} {poison : Bool} (h : s.Told v) : (l1Update s c wa x poison).Told v :=
  ite_told (modCore_told h) h
theorem colPut_told {c wa : Nat} {x : Word} {poison : Bool} (h : s.Told v) : (colPut s c wa x poison).Told v :=
  l1Update_told (ite_told (homeWordPut_told (colRoom_told h)) (modCore_told (colRoom_told h)))
theorem cleanCore_told {c : Nat} (h : s.Told v) : (cleanCore s c).Told v := foldl_told (fun _ _ ht => writeBackLine_told ht) h
theorem spadBytes_told (n : Nat) {c off x : Nat} (h : s.Told v) : (spadBytes n s c off x).Told v := by
  induction n generalizing s off x with
  | zero => exact h
  | succ n ih => exact ih (s := spadPut s _ _ _) h
theorem spadWrite_told {n c off x : Nat} (h : s.Told v) : (spadWrite n s c off x).Told v := spadBytes_told n (modCore_told h)
theorem mapWaits_told {c off : Nat} {f : Req → Nat → Bool → Bool → Nat × Bool × Bool} (h : s.Told v) : (mapWaits s c off f).Told v := h
theorem markBroken_told {c off : Nat} (h : s.Told v) : (markBroken s c off).Told v := mapWaits_told (spadWrite_told h)
theorem spadStore_told {c n off x : Nat} (h : s.Told v) : (spadStore s c n off x).Told v :=
  foldl_told (fun _ _ ht => markBroken_told ht) (spadWrite_told h)
theorem barInvalidate_told {c off : Nat} (h : s.Told v) : (barInvalidate s c off).Told v := modCore_told (mapWaits_told (spadWrite_told h))
theorem barsOfTeam_told {team : Nat} (h : s.Told v) : (barsOfTeam s team).Told v :=
  foldl_told (fun _ _ ht => foldl_told (fun _ _ ht => barInvalidate_told ht) ht) h

/-! Accesses that a killed group still performs. -/

theorem colRead_told {c : Nat} {was : List Nat} (h : s.Told v) : (colRead s c was).1.Told v :=
  foldl_told (fun _ _ ht => ite_told (colFill_told ht) (colTouch_told ht)) h
theorem l1Fill_told {c line : Nat} (h : s.Told v) : (l1Fill s c line).Told v :=
  foldl_told (fun _ _ ht => ite_told ht (ite_told ht ht)) (s := l1Room s c line) h
theorem loadLoc_told {g : Group} {sp : Spot} {l : Loc} {n : Nat} (h : s.Told v) : (loadLoc s g sp l n).1.Told v := by
  cases l with
  | phys pa =>
    show (loadGlob s _ sp pa n).1.Told v
    unfold loadGlob
    extract_lets was
    split
    · exact noteRead_told h
    · exact colRead_told h
    · split
      · exact foldl_told (fun _ _ ht => ht) h
      · exact foldl_told (fun _ _ ht => l1Fill_told ht) (colRead_told h)
  | spad c off => exact h
theorem storeLoc_told {g : Group} {sp : Spot} {l : Loc} {n x : Nat} (h : s.Told v) : (storeLoc s g sp l n x).Told v := by
  cases l with
  | phys pa =>
    refine foldl_told (fun t _ ht => ?_) h
    extract_lets p
    split
    · exact homeWordPut_told ht
    · exact ite_told (colPut_told ht) (colPut_told (colRead_told ht))
  | spad c off => exact spadStore_told h
theorem performUnit_told {gid id : Nat} {κ : MemKind} {op : AtomOp} {t : AtomTy} {sp : Spot} {dst : VReg} {a : LaneAcc} (h : s.Told v) :
    (performUnit s gid id κ op t sp dst a).Told v := by
  unfold performUnit
  dsimp only
  split
  · exact h
  · split
    · exact loadLoc_told h
    · exact storeLoc_told h
    · exact storeLoc_told (loadLoc_told h)
theorem cleanScope_told {g : Group} {sc : Scope} (h : s.Told v) : (cleanScope s g sc).Told v := by
  refine ite_told ?_ h
  split
  · exact foldl_told (fun _ _ ht => cleanCore_told ht) h
  · exact cleanCore_told h
theorem ownWords_told {g : Group} {l : Loc} {n : Nat} (h : s.Told v) : (ownWords s g l n).Told v := by
  cases l with
  | phys pa =>
    refine foldl_told (fun _ _ ht => ?_) h
    split
    · exact ite_told (writeBackLine_told ht) ht
    · exact ht
  | spad c off => exact h
theorem clearLine_told {accs : List LaneAcc} (h : s.Told v) : (clearLine s accs).Told v := by
  unfold clearLine
  split
  · exact foldl_told (fun _ _ ht => ht) h
  · exact h
theorem beatFill_told {g : Group} {sp now : Spot} {a : LaneAcc} (h : s.Told v) : (beatFill s g sp now a).Told v := by
  unfold beatFill
  split
  · exact ite_told (l1Fill_told h) h
  · exact h
theorem performNth_told {gid id i : Nat} (h : s.Told v) : (performNth s gid id i).Told v := by
  unfold performNth
  split
  · exact h
  · split
    · split
      · exact h
      · extract_lets _ _ _ _ _ s1 s2 s3 _ s4 s5
        have hs1 : s1.Told v := ite_told (cleanScope_told h) h
        have hs2 : s2.Told v := ite_told (foldl_told (fun _ _ ht => ownWords_told ht) hs1) hs1
        have hs3 : s3.Told v := ite_told (clearLine_told hs2) hs2
        have hs4 : s4.Told v := foldl_told (fun _ _ ht => performUnit_told ht) hs3
        have hs5 : s5.Told v := beatFill_told hs4
        exact ite_told h (ite_told hs1 hs5)
    · exact h
theorem performRest_told (n : Nat) {gid id : Nat} (h : s.Told v) : (performRest s gid id n).Told v := by
  induction n generalizing s with
  | zero => exact h
  | succ n ih => exact ih (performNth_told h)
theorem takeRecord_told {g : Group} {name sq : Nat} {src : List Loc} (h : s.Told v) : (takeRecord s g name sq src).Told v := by
  have hclean (cores lines : List Nat) : (cleanLines s cores lines).Told v :=
    foldl_told (fun _ _ ht => foldl_told (fun _ _ ht => writeBackLine_told ht) ht) h
  exact ite_told (hclean _ _) (hclean _ _)
theorem drainAccesses_told {gid : Nat} (h : s.Told v) : (drainAccesses s gid).Told v := by
  unfold drainAccesses
  split
  · exact h
  · refine foldl_told (fun _ _ ht => ?_) h
    split
    · exact performRest_told _ ht
    · exact storeLoc_told ht
    · exact takeRecord_told ht
    · exact ht

/-! What a team held on its core and on its stack. -/

theorem wakeTask_told {st pasid num : Nat} (h : s.Told v) : (wakeTask s st pasid num).Told v := by
  refine foldl_told (fun _ _ ht => foldl_told (fun _ _ ht => ?_) ht) h
  split
  · exact ite_told ht ht
  · exact ht
theorem cancelWork_told {st team : Nat} {groups : List Nat} (h : s.Told v) : (cancelWork s st team groups).Told v :=
  foldl_told (fun _ _ ht => wakeTask_told (modStack_told (fun _ => rfl) ht)) (modStack_told (fun _ => rfl) h)
theorem fireAll_told {c : Nat} (h : s.Told v) : (fireAll s c).Told v := by
  have hpump (n : Nat) {t : State} (ht : t.Told v) : (pump t c n).Told v := by
    induction n generalizing t with
    | zero => exact ht
    | succ n ih =>
      unfold pump
      dsimp only
      split
      · split
        · exact ih (t := modCore t c _) ht
        · exact ht
      · exact ht
  exact hpump 8 (foldl_told (fun _ _ ht => ite_told ht ht) h)
theorem setUnits_told {c u : Nat} (h : s.Told v) : (setUnits s c u).Told v := by
  have hclean : (if (coreOf s c).units < u then modCore (cleanCore s c) c (fun k => { k with col := [], homes := [] }) else s).Told v :=
    ite_told (cleanCore_told h) h
  exact ite_told h (colTrim_told (s := modCore _ c _) hclean)
theorem releaseTasks_told {st pasid : Nat} (h : s.Told v) : (releaseTasks s st pasid).Told v :=
  ite_told h (ite_told (modStack_told (fun _ => rfl) h) (modStack_told (fun _ => rfl) h))
theorem releaseTeam_told {team : Nat} {keep : Bool} (h : s.Told v) : (releaseTeam s team keep).Told v := by
  unfold releaseTeam
  split
  · exact h
  · extract_lets mine kept ents free tiles s1 s2 s3
    have hs1 : s1.Told v := foldl_told (fun _ _ ht => ht) h
    have hlocks (tm : Team) : (dropTeamLocks s2 team tm).Told v := foldl_told (fun _ _ ht => ht) hs1
    exact fireAll_told (barsOfTeam_told (foldl_told (fun _ _ ht => ht) (hlocks _)))
theorem returnItems_told {core launch : Nat} (h : s.Told v) : (returnItems s core launch).Told v := by
  unfold returnItems
  extract_lets left
  split
  · exact h
  · exact ite_told h (modCore_told (modLaunch_told (fun _ => rfl) h))
theorem leaveCluster_told {cl : Nat} (h : s.Told v) : (leaveCluster s cl).Told v := by
  unfold leaveCluster
  split
  · exact h
  · refine ite_told h (ite_told h ?_)
    extract_lets _ cores s1 s2 s3
    have hs1 : s1.Told v := ite_told (foldl_told (fun _ _ ht => ht) h) h
    exact foldl_told (fun _ _ ht => setUnits_told ht) hs1

/-- A team that is killed leaves all of it alone. -/
theorem killTeam_told {team : Nat} (h : s.Told v) : (killTeam s team).Told v := by
  unfold killTeam
  split
  · exact h
  · refine ite_told h ?_
    extract_lets s1 s2 s3 st pasid s4 s5 launch away s6 s7 s8 s9
    have hs2 : s2.Told v := foldl_told (fun _ _ ht => drainAccesses_told ht) (s := haltTeam s team) h
    have hs4 : s4.Told v := foldl_told (fun _ _ ht => cancelWork_told ht) hs2
    have hs6 : s6.Told v := ite_told hs4 (releaseTeam_told hs4)
    have hs8 : s8.Told v := ite_told hs6 (returnItems_told hs6)
    exact leaveCluster_told (releaseTasks_told hs8)

end

/-! ### Killing a launch (R343, R385) -/

/-- What a kill leaves of the channels, of causes and marks, and of latches: the launch alone is marked, with its cause where it had none. -/
theorem killLaunchNo_told (s : State) (n : Nat) (cause : Word) : (killLaunchNo s n cause).Told (told s.hostIn s.hostOut s.hostWait
    (tabMod s.launches n (fun x => { x with killed := true, cause := if x.cause = 0 then cause else x.cause })) s.stks) := by
  have hmark : (modLaunch s n (fun x => { x with
      killed := true, cause := if x.cause = 0 then cause else x.cause,
      undelivered := x.undelivered + (x.itemCount - x.itemNext) + x.kept.length, itemNext := x.itemCount, kept := [],
      feedEnded := true, nextCluster := x.grid })).Told (told s.hostIn s.hostOut s.hostWait
        (tabMod s.launches n (fun x => { x with killed := true, cause := if x.cause = 0 then cause else x.cause })) s.stks) := by
    simp only [State.Told, told, Prod.mk.injEq, modLaunch, tabFind_mod]
    refine ⟨trivial, trivial, trivial, funext fun j => ?_, trivial⟩
    split
    · rw [Option.map_map, Option.map_map]; rfl
    · rfl
  exact foldl_told (fun _ _ ht => foldl_told (fun _ _ ht => killTeam_told ht) ht) hmark
theorem killLaunchNo_gone (s : State) (n : Nat) (cause : Word) :
    ∀ e ∈ (killLaunchNo s n cause).clusters, e.2.launch = n → e.2.state = .gone := by
  intro e he hn
  obtain ⟨e', _, rfl⟩ := List.mem_map.mp he
  by_cases h : e'.2.launch = n
  · rw [if_pos h]
  · rw [if_neg h] at hn; exact absurd hn h

/-- A fatal event of a team that has had none puts a record into its stack's latch. -/
theorem fatal_latches {s : State} {gid : Nat} {g : Group} {t : TrapInfo} {tm : Team} (h : tabFind s.teams g.team = some tm)
    (hf : tm.fatal = false) : ∃ r, (stackOf (fatal s gid g t) (stackNo g.core)).fatal = (stackOf s (stackNo g.core)).fatal ++ [r] ∧
      r.launch = launchNo s g ∧ r.info = { t with cls := 2 } ∧
      ∃ x, (stackNo g.core, x) ∈ (fatal s gid g t).stks ∧ r ∈ x.fatal := by
  have hteam : tabFind (haltTeam s g.team).teams g.team = some { tm with halted := true } := by
    simp [haltTeam, modTeam, tabFind_mod, h]
  simp only [fatal, hteam, hf, Bool.false_eq_true, if_false]
  refine ⟨_, congrArg Stack.fatal (stackOf_modStack_self _ _ _), rfl, rfl, _, tabFind_isMem (tabFind_put_self _ _ _), ?_⟩
  exact List.mem_append_right _ (List.mem_singleton.mpr rfl)
/-- Whatever it latches or counts, it leaves the channels, causes and marks alone. -/
theorem fatal_told (s : State) (gid : Nat) (g : Group) (t : TrapInfo) :
    told (fatal s gid g t).hostIn (fatal s gid g t).hostOut (fatal s gid g t).hostWait (fatal s gid g t).launches [] =
      told s.hostIn s.hostOut s.hostWait s.launches [] := by
  simp only [fatal]
  split
  · rfl
  · split
    · split
      · exact modLaunch_told (s := { haltTeam s g.team with stks := [] }) (v := told s.hostIn s.hostOut s.hostWait s.launches [])
          (fun _ => rfl) rfl
      · rfl
    · rfl
theorem killedEvent_told (s : State) (n : Nat) : told (killedEvent s n).hostIn (killedEvent s n).hostOut (killedEvent s n).hostWait
    (killedEvent s n).launches [] = told s.hostIn s.hostOut s.hostWait s.launches [] := by
  unfold killedEvent
  split
  · exact fatal_told _ _ _ _
  · rfl

section
variable {s : State} {n : Nat}

/-- A group whose record a kill writes: of the launch, no Garnet context, and not retired. -/
def LiveOf (s : State) (n : Nat) (g : Group) : Prop := launchNo s g = some n ∧ g.garnet = none ∧ g.retired = false

theorem killedEvent_none (h : ∀ e ∈ s.groups, ¬ LiveOf s n e.2) : killedEvent s n = s := by
  have hfind : s.groups.find? (fun e => e.2.garnet.isNone && !e.2.retired && decide (launchNo s e.2 = some n) &&
      ((teamOf s e.2).map (fun t => !t.exited && !teamOut s t)).getD false) = none := by
    refine List.find?_eq_none.mpr fun e he hc => h e he ?_
    simp only [Bool.and_eq_true, Option.isNone_iff_eq_none, Bool.not_eq_true', decide_eq_true_eq] at hc
    exact ⟨hc.1.2, hc.1.1.1, hc.1.1.2⟩
  unfold killedEvent
  rw [hfind]
/-- Where a group of the launch lives, and the teams of all of them run and have had no fatal event, a kill latches its record. -/
theorem killedEvent_latches (hlive : ∃ e ∈ s.groups, LiveOf s n e.2) (hteams : ∀ e ∈ s.groups, LiveOf s n e.2 →
      ∃ tm, tabFind s.teams e.2.team = some tm ∧ tm.fatal = false ∧ tm.exited = false ∧ teamOut s tm = false) :
    latched (killedEvent s n) n = true ∧ ∃ st, ∃ r ∈ (stackOf (killedEvent s n) st).fatal, r.launch = some n ∧ r.info.cls = 2 ∧
      r.info.src = 3 ∧ r.info.code = 0x50 := by
  unfold killedEvent
  cases hfind : s.groups.find? (fun e => e.2.garnet.isNone && !e.2.retired && decide (launchNo s e.2 = some n) &&
      ((teamOf s e.2).map (fun t => !t.exited && !teamOut s t)).getD false) with
  | none =>
    obtain ⟨e, he, hlive⟩ := hlive
    obtain ⟨tm, htm, -, hex, hout⟩ := hteams e he hlive
    obtain ⟨hl, hg, hr⟩ := hlive
    refine absurd ?_ (List.find?_eq_none.mp hfind e he)
    simp [hl, hg, hr, teamOf, htm, hex, hout]
  | some e =>
    obtain ⟨gid, g⟩ := e
    have hp := List.find?_some hfind
    simp only [Bool.and_eq_true, Option.isNone_iff_eq_none, Bool.not_eq_true', decide_eq_true_eq] at hp
    obtain ⟨⟨⟨hg, hr⟩, hl⟩, -⟩ := hp
    obtain ⟨tm, htm, hfatal, -⟩ := hteams _ (List.mem_of_find?_eq_some hfind) ⟨hl, hg, hr⟩
    dsimp only
    have latch (t : TrapInfo) (hsrc : t.src = 3) (hcode : t.code = 0x50) :
        latched (fatal s gid g t) n = true ∧ ∃ st, ∃ r ∈ (stackOf (fatal s gid g t) st).fatal, r.launch = some n ∧ r.info.cls = 2 ∧
          r.info.src = 3 ∧ r.info.code = 0x50 := by
      obtain ⟨r, hstack, hlaunch, hinfo, x, hx, hrx⟩ := fatal_latches (gid := gid) (t := t) htm hfatal
      refine ⟨?_, stackNo g.core, r, ?_, hlaunch.trans hl, by rw [hinfo], by rw [hinfo]; exact hsrc, by rw [hinfo]; exact hcode⟩
      · simp only [latched, List.any_eq_true, decide_eq_true_eq]
        exact ⟨_, hx, r, hrx, hlaunch.trans hl⟩
      · rw [hstack]; exact List.mem_append_right _ (List.mem_singleton.mpr rfl)
    split <;> exact latch _ rfl rfl

/-- What a kill by the host leaves: the channels as they were, the launch marked, its clusters gone, and what its event has latched. -/
theorem killByHost_marks {l : Launch} (h : tabFind s.launches n = some l) :
    let t := killByHost s n
    t.hostIn = s.hostIn ∧ t.hostOut = s.hostOut ∧ t.hostWait = s.hostWait ∧
    (∃ l', tabFind t.launches n = some l' ∧ l'.killed = true ∧
      l'.cause = if l.cause = 0 then (if latched (killedEvent s n) n then 0 else killedCause) else l.cause) ∧
    (∀ e ∈ t.clusters, e.2.launch = n → e.2.state = .gone) ∧
    ∀ k, (stackOf t k).fatal = (stackOf (killedEvent s n) k).fatal := by
  intro t
  have hevent := killedEvent_told s n
  have hkill := killLaunchNo_told (killedEvent s n) n (if latched (killedEvent s n) n then 0 else killedCause)
  simp only [told, Prod.mk.injEq, State.Told] at hevent hkill
  obtain ⟨ein, eout, ewait, elaunch, -⟩ := hevent
  obtain ⟨kin, kout, kwait, klaunch, kfatal⟩ := hkill
  refine ⟨kin.trans ein, kout.trans eout, kwait.trans ewait, ?_, killLaunchNo_gone _ _ _, fun k => congrFun kfatal k⟩
  have el := congrFun elaunch n
  have kl := congrFun klaunch n
  rw [tabFind_mod, if_pos rfl] at kl
  rw [h] at el
  obtain ⟨x, hx, hxl⟩ := Option.map_eq_some_iff.mp el
  rw [hx] at kl
  obtain ⟨l', hl', hll⟩ := Option.map_eq_some_iff.mp kl
  obtain ⟨hcause, -⟩ := Prod.mk.inj hxl
  obtain ⟨hc', hk'⟩ := Prod.mk.inj hll
  exact ⟨l', hl', hk', hc'.trans (by dsimp only; rw [hcause])⟩

end

section
variable {s : State} {m : BitVec 512} {rest : List (BitVec 512)}

/-- A kill finds the launch that it names. -/
theorem killNamed_unique {n : Nat} {l : Launch} (hs : tabSorted s.launches = true) (hn : tabFind s.launches n = some l)
    (hl : (l.queue, l.pkt, l.pasid, l.finished) = (msgNat m 12 4, msgNat m 16 4, msgPasid m, false))
    (hone : ∀ k x, tabFind s.launches k = some x → x.queue = l.queue → x.pkt = l.pkt → k = n) : killNamed s m = some (n, l) := by
  obtain ⟨hq, hpk, hpa, hfin⟩ : _ ∧ _ ∧ _ ∧ _ := by simpa only [Prod.mk.injEq] using hl
  unfold killNamed
  cases hfind : s.launches.find? (fun e => decide (e.2.queue = msgNat m 12 4) && decide (e.2.pkt = msgNat m 16 4) &&
      decide (e.2.pasid = msgPasid m) && !e.2.finished) with
  | none =>
    refine absurd ?_ (List.find?_eq_none.mp hfind _ (tabFind_isMem hn))
    simp [hq, hpk, hpa, hfin]
  | some e =>
    obtain ⟨k, x⟩ := e
    have hx := tabFind_of_mem hs (List.mem_of_find?_eq_some hfind)
    have hp := List.find?_some hfind
    simp only [Bool.and_eq_true, decide_eq_true_eq] at hp
    obtain ⟨⟨⟨hxq, hxpk⟩, -⟩, -⟩ := hp
    obtain rfl := hone k x hx (hxq.trans hq.symm) (hxpk.trans hpk.symm)
    rw [hn] at hx
    obtain rfl := Option.some.inj hx
    rfl

theorem killLaunch_serves {n : Nat} {l : Launch} (h : Asks s m rest 0x0D [(12, 4), (16, 4)]) (hof : OfProcess s m)
    (hqn : msgNat m 12 4 < 65536) (hs : tabSorted s.launches = true) (hn : tabFind s.launches n = some l)
    (hl : (l.queue, l.pkt, l.pasid, l.finished) = (msgNat m 12 4, msgNat m 16 4, msgPasid m, false))
    (hone : ∀ k x, tabFind s.launches k = some x → x.queue = l.queue → x.pkt = l.pkt → k = n) :
    (segsDone s n = false → exec .killLaunch s = .next s) ∧
    (segsDone s n = true → ∃ t l', exec .killLaunch s = .next t ∧ Answered s t m rest 0 [] ∧ tabFind t.launches n = some l' ∧
      l'.killed = true ∧ (∀ e ∈ t.clusters, e.2.launch = n → e.2.state = .gone) ∧
      let live := fun (G : Group) => launchNo s G = some n ∧ G.garnet = none ∧ G.retired = false
      (l.cause = 0 → (∀ e ∈ s.groups, ¬ live e.2) → (∀ e ∈ s.stks, ∀ r ∈ e.2.fatal, r.launch ≠ some n) →
        l'.cause = BitVec.ofNat 32 (2 * 1024 + 3 * 256 + 0x50)) ∧
      ((∃ e ∈ s.groups, live e.2) → (∀ e ∈ s.groups, live e.2 → ∃ tm, tabFind s.teams e.2.team = some tm ∧ tm.fatal = false ∧
          tm.exited = false ∧ teamOut s tm = false) →
        l'.cause = l.cause ∧ ∃ st, ∃ r ∈ (stackOf t st).fatal, r.launch = some n ∧ r.info.cls = 2 ∧ r.info.src = 3 ∧ r.info.code = 0x50)) := by
  obtain ⟨_, _, _, _, hw, ho⟩ := id h
  have hnamed := killNamed_unique hs hn hl hone
  rw [exec_killLaunch, execKillLaunch]
  refine ⟨fun hseg => pasidReq_waits h hof rfl (decide_eq_true hqn) (by simp [hnamed, hseg]), fun hseg => ?_⟩
  rw [pasidReq_serves h hof rfl (decide_eq_true hqn) (by simp [hnamed, hseg])]
  simp only [show killNamed { s with hostIn := rest } m = some (n, l) from hnamed]
  obtain ⟨kin, kout, kwait, ⟨l', hl', hkilled, hcause⟩, hgone, hfatal⟩ := killByHost_marks (s := { s with hostIn := rest }) hn
  refine ⟨_, l', congrArg Host.Outcome.next (answer_done (kwait.trans hw) ((congrArg List.length kout).trans_lt ho)),
    answered_done kin (congrArg (· ++ _) kout) (kwait.trans hw), hl', hkilled, hgone, fun h0 hnone hlatch => ?_, fun hlive hteams => ?_⟩
  · have hevent : killedEvent { s with hostIn := rest } n = { s with hostIn := rest } := killedEvent_none hnone
    have hnot : latched { s with hostIn := rest } n = false := by
      simp only [latched, List.any_eq_false]
      exact fun e he => by simpa using hlatch e he
    rw [hcause, if_pos h0, hevent, hnot]
    rfl
  · obtain ⟨hlatched, st, r, hr, hrest⟩ := killedEvent_latches (s := { s with hostIn := rest }) hlive hteams
    refine ⟨?_, st, r, ?_, hrest⟩
    · rw [hcause, hlatched]
      split
      · next h0 => exact h0.symm
      · rfl
    · exact (hfatal st).symm ▸ hr

end

/-- Settles O50: a request that is well formed is taken and comes down to its effect (`pasidReq_serves`, `moduleReq_serves`), and one theorem
above says what each of the effects is. -/
theorem hostRequests : Obligations.HostRequests := by
  unfold Obligations.HostRequests
  intro s m rest pasid
  refine ⟨registerProcess_serves, fun _ _ _ _ _ => registerQueue_serves, fun _ => freeQueue_serves, fun _ _ => resetQueue_serves,
    fun r G h hof h48 hpend ht hp hd _ => recordReply_serves h hof h48 hpend ht hp hd, recordReply_discarded, fun _ _ _ => createCollective_serves,
    blockTables_serve, setStorageTimeout_serves, setPromotionPool_serves,
    fun n l h hof hqn hs hn hl hone => killLaunch_serves h hof hqn hs hn hl hone,
    fun pr => teardownPasid_serves, attestationReport_serves⟩

end Sys2Proof.Machine
end

section
/-! # Conditional packets (O43)

Every packet that core 0 accepts is accepted by `startPacket`; `startPacket_queue` and `startPacket_head` say what that leaves of its queue and
of the head word. A conditional adds what it skips. -/
namespace Sys2Proof.Machine

/-! ### Writes at home slices of HBM, where blocks of other tiers may be promoted (R210) -/

/-- Only blocks of lower tiers are promoted. -/
abbrev OwnsHbm (s : State) : Prop := ∀ e ∈ s.promoted, Config.hbmBytes ≤ e.1 * 65536

section
variable {s : State} (hp : OwnsHbm s)
include hp

theorem redirect_of_ownsHbm {a : Nat} (ha : a < Config.hbmBytes) : redirect s a = a := by
  have hnone : s.promoted.find? (fun e => e.1 = a / 65536) = none := by
    rw [List.find?_eq_none]
    intro e he h
    have := hp e he
    have := of_decide_eq_true h
    omega
  rw [redirect, hnone]
theorem homeByte_of_ownsHbm {a : Nat} (ha : a < Config.hbmBytes) : homeByte s a = memByte s.mem a := by
  simp [homeByte, redirect_of_ownsHbm hp ha, privAlias, tierOf_hbm ha]
theorem homePut_mem_of_ownsHbm {a : Nat} (v : Byte) (ha : a < Config.hbmBytes) : (homePut s a v).mem = memPut s.mem a v := by
  simp [homePut, redirect_of_ownsHbm hp ha, privAlias, tierOf_hbm ha]
theorem homeWrite_mem_of_ownsHbm (n : Nat) {a : Nat} (x : Nat) (ha : a + n ≤ Config.hbmBytes) :
    (homeWrite n s a x).mem = memWrite n s.mem a x := by
  induction n generalizing s a x with
  | zero => rfl
  | succ n ih =>
    rw [homeWrite, ih (by simpa [OwnsHbm] using hp) _ (by omega), homePut_mem_of_ownsHbm hp _ (by omega), memWrite]
theorem homeNat_of_ownsHbm (n : Nat) {a : Nat} (ha : a + n ≤ Config.hbmBytes) : homeNat s n a = bytesNat (memByte s.mem) n a := by
  induction n generalizing a with
  | zero => rfl
  | succ n ih =>
    rw [bytesNat, ← ih (by omega), ← homeByte_of_ownsHbm hp (show a < Config.hbmBytes by omega)]
    rfl
/-- A number written is read back, modulo its width. -/
theorem homeNat_write_of_ownsHbm (n : Nat) {a : Nat} (x : Nat) (ha : a + n ≤ Config.hbmBytes) (h : s.MemOk) :
    homeNat (homeWrite n s a x) n a = x % 256 ^ n := by
  rw [homeNat_of_ownsHbm (by simpa [OwnsHbm] using hp) n ha, homeWrite_mem_of_ownsHbm hp n x ha, bytesNat_write n a x h]

end

/-! ### The head of a queue (R40, R45) -/

theorem modQueue_of_find {s : State} {qn : Nat} {q : Queue} (h : tabFind s.queues qn = some q) (f : Queue → Queue) :
    modQueue s qn f = { s with queues := tabPut s.queues qn (f q) } := by
  rw [modQueue, tabMod, h]
theorem tabPut_put {α : Type} (t : Tab α) (k : Nat) (u v : α) : tabPut (tabPut t k u) k v = tabPut t k v := by
  induction t with
  | nil => simp [tabPut]
  | cons e t ih =>
    obtain ⟨j, w⟩ := e
    rcases lt_trichotomy k j with h | h | h
    · simp [tabPut, h]
    · simp [tabPut, h]
    · simp [tabPut, show ¬ k < j by omega, show k ≠ j by omega, ih]

section
variable {s : State} {qn : Nat} {q : Queue} {bs : List Byte}

/-- A queue whose head holds a packet is active or waits, and skips nothing. -/
theorem parseHead_pkt (h : parseHead s q = .pkt bs) : (q.state = .active ∨ q.state = .waiting) ∧ q.skip = 0 := by
  unfold parseHead at h
  split at h
  · cases h
  · next hidle =>
    refine ⟨by tauto, ?_⟩
    split at h
    · cases h
    · split at h
      · cases h
      · split at h
        · cases h
        · split at h
          · cases h
          · omega

/-- Core 0 serves the packet at the head by what its own kind says. -/
theorem serve_of_serves (h : Serves s qn q bs) {mine : List Byte → Bool} (hm : mine bs = true) (f : Queue → List Byte → State) :
    serve s qn mine f = .next (f q bs) := by
  obtain ⟨hq, hb, hc, hs, hp⟩ := h
  simp [serve, hq, hb, hc, hs, hp, hm]

/-- The packet that starts. -/
def startedPacket (q : Queue) (bs : List Byte) (done bar : Bool) : Packet :=
  { idx := q.head.toNat, sigAddr := listNat bs 8 8, sigVal := BitVec.ofNat 64 (listNat bs 16 8),
    sigOp := listNat bs 24 1, intr := bitN (listNat bs 1 1) 2, effectsDone := done, bar := bar }
/-- The queue once it has started, at the count `n` of served packets. -/
def startedQueue (n : Nat) (q : Queue) (bs : List Byte) (done bar : Bool) : Queue :=
  { q with running := q.running ++ [startedPacket q bs done bar], head := q.head + 1,
           state := if q.state = .waiting then .active else q.state, watch := none, since := 0, served := n }

/-- The state in which the head word of the queue is then written. -/
def startedState (s : State) (qn : Nat) (q : Queue) (bs : List Byte) (done bar : Bool) : State :=
  { s with queues := tabPut s.queues qn (startedQueue s.fresh q bs done bar), fresh := s.fresh + 1 }

variable {pa : Nat} (hq : tabFind s.queues qn = some q) (done bar : Bool)
include hq

theorem startPacket_eq (hw : fetcherAddr s q.pasid q.statusAddr .write = some pa) :
    startPacket s qn q bs done bar = homeWrite 4 (startedState s qn q bs done bar) pa (q.head + 1).toNat := by
  have hw' : fetcherWrite (startedState s qn q bs done bar) q.pasid 4 q.statusAddr (q.head + 1).toNat =
      some (homeWrite 4 (startedState s qn q bs done bar) pa (q.head + 1).toNat) := by
    rw [fetcherWrite, fetcherAddr_congr (t := startedState s qn q bs done bar) (s := s) rfl rfl rfl rfl, hw]; rfl
  have hs : _ = startedState s qn q bs done bar := congrArg (fun t => ({ s with queues := t, fresh := s.fresh + 1 } : State)) (tabPut_put s.queues qn
    { q with running := q.running ++ [startedPacket q bs done bar] } (startedQueue s.fresh q bs done bar))
  rw [startPacket, advanceHead, modQueue_of_find hq, modQueue_of_find (tabFind_put_self _ _ _)]
  exact (congrArg (fun u => match fetcherWrite u q.pasid 4 q.statusAddr (q.head + 1).toNat with
    | some s => s
    | none => queueFail u qn 0x03 q.head.toNat) hs).trans (by rw [hw'])

theorem startPacket_queue (hw : fetcherAddr s q.pasid q.statusAddr .write = some pa) :
    tabFind (startPacket s qn q bs done bar).queues qn = some (startedQueue s.fresh q bs done bar) := by
  rw [startPacket_eq hq done bar hw]
  exact (congrArg (fun t => tabFind t.queues qn) (homeWrite_apart 4 (startedState s qn q bs done bar) pa (q.head + 1).toNat [] [])).trans
    (tabFind_put_self _ _ _)
/-- The head word of the queue has been written. -/
theorem startPacket_head (h : HeadAt s q pa) : homeNat (startPacket s qn q bs done bar) 4 pa = (q.head + 1).toNat := by
  obtain ⟨hw, hpa, hp, hm⟩ := h
  rw [startPacket_eq hq done bar hw]
  exact (homeNat_write_of_ownsHbm (s := startedState s qn q bs done bar) hp 4 _ hpa hm).trans (Nat.mod_eq_of_lt (q.head + 1).isLt)

end

/-- A queue that has started a packet, and since changed only in what the packet waits for and how many it skips, has accepted it. -/
theorem accepted_of_find {t : State} {qn : Nat} {q : Queue} {bs : List Byte} {n k : Nat} {done bar : Bool}
    (h : tabFind t.queues qn = some { startedQueue n q bs done bar with skip := k })
    (hs : q.state = .active ∨ q.state = .waiting) : Accepted t qn q bs done bar k := by
  refine ⟨_, _, h, rfl, rfl, ?_, rfl, rfl, rfl, rfl, rfl, rfl, rfl, rfl, rfl, rfl⟩
  rcases hs with hs | hs <;> simp [startedQueue, hs]

/-! ### Conditionals (O43; R49, R50) -/

section
variable {s : State} {qn pa : Nat} {q : Queue} {bs : List Byte} {v : Bool}

/-- A conditional that is accepted, whether the status has been written before or not, skips what it names or nothing. -/
theorem condDone_accepted {u : State} (hq : tabFind u.queues qn = some q) (hs : q.state = .active ∨ q.state = .waiting)
    (hw : fetcherAddr u q.pasid q.statusAddr .write = some pa) (skip : Bool) :
    Accepted (condDone u qn q bs skip) qn q bs true false (if skip then listNat bs 60 2 else 0) := by
  have h := startPacket_queue (bs := bs) hq true false hw
  refine accepted_of_find (n := u.fresh) ?_ hs
  rw [condDone, modQueue_of_find h]
  exact tabFind_put_self _ _ _
theorem condDone_head (hq : tabFind s.queues qn = some q) (h : HeadAt s q pa) (skip : Bool) :
    homeNat (condDone s qn q bs skip) 4 pa = (q.head + 1).toNat := startPacket_head hq true false h

theorem isCond_of_act {act : Nat} (hk : isKind 6 bs = true) (ha : listNat bs 58 1 = act) : isCond act bs = true := by
  simp [isCond, hk, ha]

/-- A queue whose repeat's test has failed: it waits on the test word's line. -/
def repeatWaits (s : State) (pasid : Nat) (bs : List Byte) (x : Queue) : Queue :=
  { x with state := .waiting, since := if x.since = 0 then s.clock + 1 else x.since,
           watch := (fetcherAddr s pasid (listNat bs 32 8) .read).map (fun a => a / 128) }

section
variable (h : Serves s qn q bs) (hk : isKind 6 bs = true) (hb : condBad bs = false) (hv : testHolds s q bs = some v)
include h hk hb hv

theorem condSkip_serves {act : Nat} (ha : listNat bs 58 1 = act) (on : Bool) :
    condSkip s qn act on = .next (condDone s qn q bs (v == on)) := by
  rw [condSkip, serve_of_serves h (isCond_of_act hk ha)]
  simp [hb, hv]
theorem conditionalRepeat_serves (ha : listNat bs 58 1 = 1) : exec (.conditionalRepeat qn) s =
    .next (if v then condDone s qn q bs false else modQueue s qn (repeatWaits s q.pasid bs)) := by
  rw [exec_conditionalRepeat, execConditionalRepeat, serve_of_serves h (isCond_of_act hk ha)]
  cases v <;> simp only [hb, hv] <;> rfl
theorem repeatTimeout_serves (ha : listNat bs 58 1 = 1) (hl : listNat bs 64 4 ≠ 0) (h0 : q.since ≠ 0)
    (hd : q.since - 1 + 1000 * listNat bs 64 4 ≤ s.clock) (hf : v = false) : exec (.repeatTimeout qn) s =
    .next (condDone (putStatus s q 0x06 q.head.toNat) qn q bs true) := by
  subst hf
  rw [exec_repeatTimeout, execRepeatTimeout, serve_of_serves h (isCond_of_act hk ha)]
  simp [hb, hv, hl, h0, hd]

end

/-- A status that is written, or that cannot be, leaves the queues. -/
theorem putStatus_queues (s : State) (q : Queue) (code idx : Nat) : (putStatus s q code idx).queues = s.queues := by
  rw [putStatus, fetcherWrite]
  cases fetcherAddr s q.pasid (q.statusAddr + 8) .write with
  | none => rfl
  | some pa => exact (congrArg State.queues (homeWrite_apart 8 s pa _ [] []) :)

end

theorem intVal_signed {x : Nat} (hx : x < 2 ^ 64) : intVal 64 true x = (BitVec.ofNat 64 x).toInt := by
  rw [intVal, BitVec.toInt_eq_toNat_cond, BitVec.toNat_ofNat, Nat.mod_eq_of_lt hx]
  simp only [Bool.true_and, decide_eq_true_eq]
  split <;> split <;> omega

/-- Settles O43: a conditional is accepted with what it skips (`condDone_accepted`), and the comparison is that of its width. -/
theorem conditionals : Obligations.Conditionals := by
  unfold Obligations.Conditionals
  refine ⟨fun s qn pa q bs v h hh hk hb hv => ?_, fun a b ha hb => ?_⟩
  · obtain ⟨hq, _, _, _, hp⟩ := id h
    obtain ⟨hs, -⟩ := parseHead_pkt hp
    have runs (skip : Bool) := And.intro (condDone_accepted (bs := bs) hq hs hh.1 skip) (condDone_head (bs := bs) hq hh skip)
    refine ⟨fun ha => ?_, fun ha => ?_, fun ha hv1 => ?_, fun ha hv0 => ?_, fun ha hv0 hl h0 hd hf => ?_⟩
    · refine ⟨_, condSkip_serves h hk hb hv ha false, ?_⟩
      cases v
      · exact runs true
      · exact runs false
    · refine ⟨_, condSkip_serves h hk hb hv ha true, ?_⟩
      cases v
      · exact runs false
      · exact runs true
    · subst hv1
      exact ⟨_, conditionalRepeat_serves h hk hb hv ha, runs false⟩
    · subst hv0
      refine ⟨_, repeatWaits s q.pasid bs q, conditionalRepeat_serves h hk hb hv ha, ?_, rfl, rfl, rfl, rfl, ?_⟩
      · rw [if_neg Bool.false_ne_true, modQueue_of_find hq]
        exact tabFind_put_self _ _ _
      · exact sameBytes_of rfl rfl rfl rfl
    · obtain ⟨pb, hpb⟩ := Option.isSome_iff_exists.mp hf
      refine ⟨_, repeatTimeout_serves h hk hb hv ha hl h0 hd hv0, condDone_accepted ?_ hs hpb true⟩
      rw [putStatus_queues, hq]
  · simp [condTest, intVal_signed ha, intVal_signed hb]

end Sys2Proof.Machine
end

section
/-! # A demotion may write the head word of the queue that asks for it (O42)

`DEMOTE` writes back the dirty lines of the pool block before the directory gives the block up (R210), and the clause of
`Obligations.Packets` for it asks nothing of the column caches. In `soiled` the pool block holds the head word of the queue, and a core's
column cache holds a dirty copy of that word, older than the packet: the demotion that follows the packet's acceptance writes it over the
new head. Every other clause leaves such copies alone; with the head word outside the pool block, or no dirty word there, this one would. -/
namespace Sys2Proof.Machine

/-- A process whose tables, at frames 1 to 3, map its first GiB to itself; its queue's head is a `DEMOTE` of the page at `0x40000000`. -/
def soiledMem : List Host.Cell :=
  [(0x1000, 0x01), (0x1001, 0x08), (0x2000, 0x01), (0x2001, 0x0C), (0x3000, 0xDF), (0x40000, 5), (0x40020, 3), (0x4002B, 0x40), (0x40031, 0x10)]
/-- The queue: its ring stands at `0x40000`, its head word at `0x41000`. -/
def soiledQueue : Queue :=
  { pasid := 1, ring := 0x40000, lg := 4, cls := 1, vector := 5, hart := 95, tailAddr := 0x42000, tailPa := 0x42000, statusAddr := 0x41000,
    tail := 1, head := 0, state := .active, skip := 0, running := [], watch := none, since := 0, served := 0 }
/-- The packet. -/
def soiledPacket : List Byte := (List.range 128).map (fun i => memByte soiledMem (0x40000 + i))
/-- A leaf for the page. -/
def soiledLeaf : TlbEnt :=
  { pasid := 1, va := 0x40000000, lg := 12, pa := Config.flashBase, r := true, w := false, x := false, u := true, dirty := false }
/-- A sealed segment is attached at `0x40000000`; its block is promoted to pool block 4, and core 0 holds 7 for the head word, dirty. -/
def soiled : State :=
  { State.reset with
    boot := 6, mem := soiledMem, procs := [(1, { root := 1, asid := 0, closing := false })], queues := [(7, soiledQueue)],
    segments := [(9, { segNew 16 Config.flashBase (some (1, 0x40000000)) with state := 2 })],
    promoted := [(Config.flashBase / 65536, 4)], stks := [(0, { stackZero with tlb := [soiledLeaf] })],
    cores := [(0, { coreZero with col := [(0x41000 / 4, { val := 7, dirty := true, poison := false })] })] }

/-- The head word after an outcome. -/
def headAfter (r : Out) : Option Nat := match r with
  | .next t => some (homeNat t 4 0x41000)
  | _ => none

theorem soiled_serves : Serves soiled 7 soiledQueue soiledPacket := by decide +kernel
theorem soiled_headAt : HeadAt soiled soiledQueue 0x41000 := by decide +kernel
theorem soiled_limits : isKind 5 soiledPacket = true ∧ listNat soiledPacket 40 8 % 4096 = 0 ∧ listNat soiledPacket 48 8 % 4096 = 0 ∧
    zeroBytes soiledPacket 34 6 = true ∧ zeroBytes soiledPacket 56 72 = true ∧
    rangeBad (listNat soiledPacket 40 8) (listNat soiledPacket 48 8) = false := by decide +kernel
theorem soiled_demotes : reqOp soiledPacket = 3 ∧ listNat soiledPacket 48 8 = 4096 ∧ listNat soiledPacket 40 8 = 0x40000000 := by decide +kernel
theorem soiled_segment : segWindow soiled 1 0x40000000 = some (9, { segNew 16 Config.flashBase (some (1, 0x40000000)) with state := 2 }) := by
  decide +kernel
theorem soiled_readsAs : ReadsAs soiled 1 0x40000000 (.ok Config.flashBase) := ⟨soiledLeaf, by decide +kernel, by decide +kernel⟩
theorem soiled_quiet : pairQuiet soiled (Config.flashBase / 65536, 4) = true := by decide +kernel
/-- The head word is the old copy's value. -/
theorem soiled_demote_head : headAfter (exec (.demote 7) soiled) = some 7 := by decide +kernel

/-- Refutes O42: a `DEMOTE` whose pool block holds the queue's head word, with a dirty copy of it in a column cache, leaves the copy's value
there, where the clause has the new head. -/
theorem not_packets : ¬ Obligations.Packets := by
  unfold Obligations.Packets
  intro h
  obtain ⟨hkind, hbase, hlen, hzero, hzero', hrange⟩ := soiled_limits
  obtain ⟨hop, h4096, hva⟩ := soiled_demotes
  obtain ⟨-, -, -, -, hreq⟩ := h soiled 7 0x41000 soiledQueue soiledPacket soiled_serves soiled_headAt rfl
  obtain ⟨-, -, -, -, hdemote, -⟩ := hreq hkind hbase hlen hzero hzero' hrange
  obtain ⟨t, ht, -, ⟨hhead, -⟩, -⟩ := hdemote (Config.flashBase / 65536) 4 9 0x40000000 _ hop h4096 rfl (hva ▸ soiled_segment) rfl
    (by rw [hva]; decide +kernel) (by decide +kernel) soiled_quiet ⟨_, hva ▸ soiled_readsAs⟩
  have hold : headAfter (.next t) = some 7 := ht ▸ soiled_demote_head
  exact absurd ((Option.some.inj hold).symm.trans hhead) (by decide)

end Sys2Proof.Machine
end

section
/-! # Storage events (O41)

What a record leaves in its segment follows from what a list of bytes put at an offset leaves (`segPut_get`); durability, failure and stalls
each change one record; and a storage timeout becomes due on a path and is taken there at once (`dueTrap_enters`). -/
namespace Sys2Proof.Machine

/-! ### The bytes of a record (R283, R285) -/

theorem segPut_keeps (bs : List Byte) (x : Segment) (off : Nat) : { segPut x off bs with bytes := x.bytes } = x := by
  induction bs generalizing x off with
  | nil => rfl
  | cons b bs ih => exact congrArg (fun y : Segment => { y with bytes := x.bytes }) (ih { x with bytes := tabSet 0 x.bytes off b } (off + 1))
/-- Bytes put at an offset of a log are read there, and every other byte stays. -/
theorem segPut_get (bs : List Byte) {x : Segment} (off : Nat) (h : tabWf 0 x.bytes = true) (i : Nat) :
    tabGet 0 (segPut x off bs).bytes i = if off ≤ i ∧ i < off + bs.length then bs.getD (i - off) 0 else tabGet 0 x.bytes i := by
  induction bs generalizing x off with
  | nil => rw [if_neg (by simp)]; rfl
  | cons b bs ih =>
    rw [segPut, ih (off + 1) (tabWf_set off b h), tabGet_set _ _ _ h, List.length_cons]
    rcases lt_trichotomy i off with hi | rfl | hi
    · rw [if_neg (by omega), if_neg (by omega), if_neg (by omega)]
    · rw [if_neg (by omega), if_pos rfl, if_pos (by omega), Nat.sub_self]; rfl
    · by_cases hn : i < off + (bs.length + 1)
      · rw [if_pos (by omega), if_pos (by omega), show i - off = i - (off + 1) + 1 by omega]; rfl
      · rw [if_neg (by omega), if_neg (by omega), if_neg (by omega)]

theorem leBytes_length (n x : Nat) : (leBytes n x).length = n := by
  induction n generalizing x with
  | zero => rfl
  | succ n ih => rw [leBytes, List.length_cons, ih]
/-- A number's bytes, read from an offset on, are that number (R6). -/
theorem bytesNat_of_leBytes {f : Nat → Byte} {n a x : Nat} (h : ∀ i < n, f (a + i) = (leBytes n x).getD i 0) :
    bytesNat f n a = x % 256 ^ n := by
  induction n generalizing a x with
  | zero => simp [bytesNat, Nat.mod_one]
  | succ n ih =>
    have hrest : bytesNat f n (a + 1) = x / 256 % 256 ^ n := ih fun i hi => by
      rw [show a + 1 + i = a + (i + 1) by omega, h (i + 1) (by omega)]; rfl
    have hfirst : f a = BitVec.ofNat 8 x := h 0 (by omega)
    rw [bytesNat, hfirst, hrest, byte_and_rest]
theorem leBytes_bytesNat (f : Nat → Byte) (n a : Nat) : leBytes n (bytesNat f n a) = (List.range n).map (fun i => f (a + i)) := by
  induction n generalizing a with
  | zero => rfl
  | succ n ih =>
    have hb : (f a).toNat < 256 := (f a).isLt
    have hlow : BitVec.ofNat 8 ((f a).toNat + 256 * bytesNat f n (a + 1)) = f a := by
      apply BitVec.eq_of_toNat_eq
      rw [BitVec.toNat_ofNat]
      omega
    have hhigh : ((f a).toNat + 256 * bytesNat f n (a + 1)) / 256 = bytesNat f n (a + 1) := by omega
    rw [bytesNat, leBytes, hlow, hhigh, ih, List.range_succ_eq_map, List.map_cons, List.map_map]
    congr 2
    funext i
    exact congrArg f (by omega)

/-- Where the bytes from `w` on are those of a record of one word: its sequence number, its length, its CRC, the word, and zeros. -/
theorem record_of_word {f : Nat → Byte} {w sq v : Nat} (hs : sq < 2 ^ 64)
    (h : ∀ i < 32, f (w + i) = (recordBytes sq (leBytes 4 v)).getD i 0) :
    bytesNat f 8 w = sq ∧ bytesNat f 4 (w + 8) = 4 ∧ bytesNat f 4 (w + 12) = (crcOf 4 v).toNat ∧
      (∀ i < 4, f (w + 16 + i) = (leBytes 4 v).getD i 0) ∧ ∀ i < 12, f (w + 20 + i) = 0 := by
  have hrec : recordBytes sq (leBytes 4 v) =
      leBytes 8 sq ++ (leBytes 4 4 ++ (leBytes 4 (crcOf 4 v).toNat ++ (leBytes 4 v ++ List.replicate 12 0))) := by
    simp [recordBytes, leBytes_length, recordSize, crcOf]
  rw [hrec] at h
  have skip {n x : Nat} (l : List Byte) (i : Nat) : (leBytes n x ++ l).getD (n + i) 0 = l.getD i 0 := by
    rw [List.getD_append_right _ _ _ _ (by rw [leBytes_length]; omega), leBytes_length, Nat.add_sub_cancel_left]
  have here {n x i : Nat} (l : List Byte) (hi : i < n) : (leBytes n x ++ l).getD i 0 = (leBytes n x).getD i 0 :=
    List.getD_append _ _ _ _ (by rwa [leBytes_length])
  refine ⟨?_, ?_, ?_, fun i hi => ?_, fun i hi => ?_⟩
  · rw [bytesNat_of_leBytes (fun i hi => (h i (by omega)).trans (here _ hi)), Nat.mod_eq_of_lt (hs.trans_eq (Nat.pow_mul 2 8 8))]
  · refine bytesNat_of_leBytes (x := 4) fun i hi => ?_
    rw [Nat.add_assoc, h (8 + i) (by omega), skip, here _ hi]
  · rw [bytesNat_of_leBytes (x := (crcOf 4 v).toNat), Nat.mod_eq_of_lt ((crcOf 4 v).isLt.trans_eq (Nat.pow_mul 2 8 4))]
    intro i hi
    rw [Nat.add_assoc, h (12 + i) (by omega), show 12 + i = 8 + (4 + i) by omega, skip, skip, here _ hi]
  · rw [Nat.add_assoc, h (16 + i) (by omega), show 16 + i = 8 + (4 + (4 + i)) by omega, skip, skip, skip, here _ hi]
  · rw [Nat.add_assoc, h (20 + i) (by omega), show 20 + i = 8 + (4 + (4 + (4 + i))) by omega, skip, skip, skip, skip,
      List.getD_replicate _ hi]

/-! ### The append engine reads the payload (R241, R285) -/

section
variable {s : State} {name sq c o : Nat} {x : Segment}

/-- A segment with the list of the records whose payload is still to be read. -/
def withUnread (x : Segment) (l : List Nat) : Segment := { x with unread := l }

theorem withUnread_bytes (x : Segment) (l : List Nat) : (withUnread x l).bytes = x.bytes := rfl
theorem withUnread_keeps (x : Segment) (l : List Nat) :
    (withUnread x l).next = x.next ∧ (withUnread x l).durable = x.durable ∧ (withUnread x l).unread = l := ⟨rfl, rfl, rfl⟩

/-- The segment once the record of a scratchpad word has been written. -/
def filledSegment (x : Segment) (sq v : Nat) : Segment :=
  withUnread (segPut x (endOf x sq - 32) (recordBytes sq (leBytes 4 v))) (x.unread.filter (fun k => k ≠ sq))

theorem filledSegment_get (sq v : Nat) (h : tabWf 0 x.bytes = true) (i : Nat) : tabGet 0 (filledSegment x sq v).bytes i =
    if endOf x sq - 32 ≤ i ∧ i < endOf x sq - 32 + 32 then (recordBytes sq (leBytes 4 v)).getD (i - (endOf x sq - 32)) 0
    else tabGet 0 x.bytes i := by
  have hlen : (recordBytes sq (leBytes 4 v)).length = 32 := by simp [recordBytes, leBytes_length, recordSize]
  rw [filledSegment, withUnread_bytes, segPut_get _ _ h, hlen]
theorem filledSegment_keeps (x : Segment) (sq v : Nat) :
    (filledSegment x sq v).next = x.next ∧ (filledSegment x sq v).durable = x.durable ∧ sq ∉ (filledSegment x sq v).unread := by
  have hkeep := segPut_keeps (recordBytes sq (leBytes 4 v)) x (endOf x sq - 32)
  obtain ⟨hnext, hdurable, hunread⟩ := withUnread_keeps (segPut x (endOf x sq - 32) (recordBytes sq (leBytes 4 v))) (x.unread.filter (fun k => k ≠ sq))
  rw [filledSegment, hnext, hdurable, hunread]
  exact ⟨(congrArg Segment.next hkeep :), (congrArg Segment.durable hkeep :), by simp⟩

theorem takeRecord_word (g : Group) (hx : tabFind s.segments name = some x) (hp : (coreOf s c).spadPoison = []) :
    takeRecord s g name sq [.spad c o] = { s with segments := tabPut s.segments name (filledSegment x sq (spadNat s c 4 o)) } := by
  have hclean (l : List Nat) : l.foldl (fun s _ => s) s = s := by
    induction l with
    | nil => rfl
    | cons a l ih => exact ih
  have hpayload : leBytes 4 (spadNat s c 4 o) = (List.range 4).map (fun i => spadByte s c (o + i)) := leBytes_bytesNat _ _ _
  have hread : readRecord s name sq [.spad c o] = fillRecord s name sq (leBytes 4 (spadNat s c 4 o)) := by
    rw [hpayload]
    simp [readRecord, locPoison, spadPoisoned, hp, locByte]
  have hsize : recordSize (leBytes 4 (spadNat s c 4 o)).length = 32 := by rw [leBytes_length]; rfl
  rw [takeRecord, cleanLines]
  simp only [List.foldl_cons, List.foldl_nil, hclean, hread]
  rw [fillRecord, modSeg, tabMod, hx]
  dsimp only
  rw [hsize, filledSegment, withUnread]

end

/-! ### Requests that complete (R110, R160) -/

theorem setFlag_reqs (g : Group) (f id : Nat) : (setFlag g f id).reqs = g.reqs := by unfold setFlag; split <;> rfl
theorem setFlag_paths (g : Group) (f id : Nat) : (setFlag g f id).paths = g.paths := by unfold setFlag; split <;> rfl
theorem finishReq_reqs (g : Group) (id : Nat) : (finishReq g id).reqs = g.reqs.filter (fun r => r.id ≠ id) := by
  unfold finishReq
  split
  · next h =>
    refine (List.filter_eq_self.mpr fun r hr => ?_).symm
    simpa using List.find?_eq_none.mp h r hr
  · extract_lets g1
    split
    · exact setFlag_reqs _ _ _
    · rfl
theorem finishReq_paths (g : Group) (id : Nat) : (finishReq g id).paths = g.paths := by
  unfold finishReq
  split
  · rfl
  · extract_lets g1
    split
    · exact setFlag_paths _ _ _
    · rfl
/-- A group with a path left does not retire as a request of it completes. -/
theorem complete_of_paths {s : State} {gid id : Nat} {g : Group} (hg : tabFind s.groups gid = some g) (hp : g.paths ≠ []) :
    complete s gid id = setGroup s gid (finishReq g id) := by
  have hf : finishAt s gid id = setGroup s gid (finishReq g id) := by rw [finishAt, modGroup, tabMod, hg]; rfl
  have hpaths : (finishReq g id).paths.isEmpty = false := by simpa [finishReq_paths] using hp
  have hfind : tabFind (setGroup s gid (finishReq g id)).groups gid = some (finishReq g id) := tabFind_put_self _ _ _
  rw [complete, hf, tryRetire, hfind]
  simp [mayRetire, hpaths]

/-- A group's only request, an append of a scratchpad word that may be read, is read and completes. -/
theorem memoryRequestReturn_append {s : State} {gid sq c o name : Nat} {g : Group} {r : Req} {x : Segment}
    (hg : tabFind s.groups gid = some g) (hr : g.reqs = [r]) (hs : r.stalled = false) (hp : g.paths ≠ [])
    (hk : r.kind = .append name sq [.spad c o]) (hx : tabFind s.segments name = some x) (hc : (coreOf s c).spadPoison = []) :
    exec (.memoryRequestReturn gid r.id) s = .next (setGroup
      { s with segments := tabPut s.segments name (filledSegment x sq (spadNat s c 4 o)) } gid (finishReq g r.id)) := by
  have hfind : findReq g r.id = some r := by simp [findReq, hr]
  have hbefore : performedBefore g r.id = true := by simp [performedBefore, hr]
  have hcomplete : complete { s with segments := tabPut s.segments name (filledSegment x sq (spadNat s c 4 o)) } gid r.id = _ :=
    complete_of_paths hg hp
  rw [exec_memoryRequestReturn, execMemoryRequestReturn, hg]
  simp only [Option.bind_some, hfind, Option.map_some, hs, hk, imageTakes, Bool.not_true, Bool.and_false, Bool.or_false, Bool.false_eq_true,
    if_false, returnAppend, hbefore, if_true, takeRecord_word g hx hc, hcomplete]

/-! ### Durability and failure (R282, R288, R289) -/

theorem settleReplies_of_none {s : State} (h : s.hostWait = []) : settleReplies s = s := by rw [settleReplies, h]; rfl

section
variable {s : State} {name : Nat} {x : Segment} (hx : tabFind s.segments name = some x)
include hx

theorem modSeg_of_find (f : Segment → Segment) : modSeg s name f = { s with segments := tabPut s.segments name (f x) } := by
  rw [modSeg, tabMod, hx]
theorem segmentFailure_fails (hs : x.state = 1) :
    exec (.segmentFailure name) s = .next { s with segments := tabPut s.segments name { x with state := 3 } } := by
  rw [exec_segmentFailure, execSegmentFailure, failSegment, modSeg_of_find hx, if_pos hs]

/-- A seal that is not asked for, or whose records are not all durable, stays due. -/
theorem sealDue_waits (h : x.sealing = false ∨ x.durable + 1 ≠ x.next) : sealDue s name = s := by
  have hno : ¬ (x.sealing && x.state = 1 && allDurable x && mailRoom s 4 8) = true := by
    rcases h with h | h <;> simp [allDurable, h]
  rw [sealDue, hx]
  exact if_neg hno
/-- A seal that is due takes effect where core 4's channel to Jasper has room. -/
theorem sealDue_seals (hw : s.hostWait = []) (hs : x.sealing = true) (h1 : x.state = 1) (hd : x.durable + 1 = x.next) :
    tabFind (sealDue s name).segments name =
      some (if mailRoom s 4 8 then { x with sealedLen := x.tail, state := 2, sealing := false } else x) := by
  rw [sealDue, hx]
  cases hm : mailRoom s 4 8 with
  | false => simp [hx]
  | true =>
    have hsent : tabFind (sendMail s 4 8 0).segments name = some x ∧ (sendMail s 4 8 0).hostWait = [] := by
      unfold sendMail
      dsimp only
      split <;> exact ⟨hx, hw⟩
    have hsealed : sealNow (sendMail s 4 8 0) name = _ := modSeg_of_find hsent.1 _
    have hwait : (sealNow (sendMail s 4 8 0) name).hostWait = [] := hsent.2
    simp only [hs, h1, allDurable, hd, decide_true, Bool.and_true, if_true]
    rw [settleReplies_of_none hwait, hsealed]
    exact tabFind_put_self _ _ _

/-- The next record in order becomes durable once its payload has been read, and a seal may be due. -/
theorem recordDurable_goes (hs : x.state = 1) (hw : s.hostWait = []) (hn : x.durable + 1 < x.next) (hu : x.durable + 1 ∉ x.unread) :
    exec (.recordDurable name) s =
      .next (sealDue { s with segments := tabPut s.segments name { x with durable := x.durable + 1 } } name) := by
  rw [exec_recordDurable, execRecordDurable, hx]
  simp only [hs, hn, hu, decide_true, decide_false, Bool.not_false, Bool.and_true, if_true, modSeg_of_find hx]
  exact congrArg (fun u => Host.Outcome.next (sealDue u name)) (settleReplies_of_none hw)

end

/-! ### Stall tokens (R279, R333) -/

theorem countWait_clock (s : State) (g : Group) (r : Req) : (countWait s g r).clock = s.clock := by unfold countWait; split <;> rfl
section
variable {s : State} {gid : Nat} {g : Group} {r : Req} (hg : tabFind s.groups gid = some g) (hr : g.reqs = [r])
include hg hr

theorem findReq_of_only : (tabFind s.groups gid).bind (fun g => (findReq g r.id).map (fun r => (g, r))) = some (g, r) := by
  simp [hg, findReq, hr]
omit hg in
theorem modReq_of_only (f : Req → Req) : modReq g r.id f = { g with reqs := [f r] } := by
  simp [modReq, hr]

theorem stallToken_holds {d : SReg} {dbl : Bool} {pa : Nat} (hk : r.kind = .sload d dbl (.phys pa)) (ht : tierOf pa = .flash)
    (hp : s.promoted = []) : exec (.stallToken gid r.id) s = .next (setGroup (countWait s g r) gid { g with reqs :=
      [{ r with stalled := true, stallAt := if r.stallAt = 0 then s.clock + 1 else r.stallAt }] }) := by
  have hflash : flashWait s g r = some r.addr := by simp [flashWait, hk, onFlash, ht, redirect, hp]
  have hgc : tabFind (countWait s g r).groups gid = some g := by unfold countWait; split <;> exact hg
  rw [← countWait_clock s g r, exec_stallToken, execStallToken, findReq_of_only hg hr]
  simp only [hk, hflash, tokenMates, List.foldl_cons, List.foldl_nil, modGroup, tabMod, hgc, modReq_of_only hr]
  rfl
theorem stallRelease_releases (hk : ∀ e d, r.kind ≠ .gang e d) :
    exec (.stallRelease gid r.id) s = .next (setGroup s gid { g with reqs := [{ r with stalled := false }] }) := by
  have hmates : tokenMates s gid g r = [(gid, r.id)] := by
    unfold tokenMates
    split
    · next e d hgang => exact absurd hgang (hk e d)
    · rfl
  rw [exec_stallRelease, execStallRelease, findReq_of_only hg hr]
  simp only [hmates, List.foldl_cons, List.foldl_nil, modGroup, tabMod, hg, modReq_of_only hr]
  rfl

end

/-! ### Storage timeouts (R115, R279, R337, R339) -/

/-- A trap that becomes due on a path of a resident group that runs, outside a handler and with no other due, is taken at once. -/
theorem dueTrap_enters {s : State} {gid : Nat} {g : Group} {p : Path} {t : TrapInfo} {cl : Cluster} {off : Nat} (hp : findPath g p.id = some p)
    (hh : g.handler = none) (hgar : g.garnet = none) (hd : g.due = []) (hs : g.susp = .run) (hcl : clusterOf s g = some cl)
    (hres : cl.state = .resident) (ht : t.cls = 0) (hoff : (kernOf s g).trapOff = some off) :
    dueTrap s gid g p t = setGroup (setGroup s gid (putDue g { path := p.id, info := t })) gid (enterHandler s.clock g p t off) := by
  have hdue : putDue g { path := p.id, info := t } = { g with due := [{ path := p.id, info := t }] } := by simp [putDue, hd]
  have hclear : { putDue g { path := p.id, info := t } with due := [] } = g := by rw [hdue, ← hd]
  have hout : outOf (setGroup s gid (putDue g { path := p.id, info := t })) (putDue g { path := p.id, info := t }) = false := by
    have hc : clusterOf (setGroup s gid (putDue g { path := p.id, info := t })) (putDue g { path := p.id, info := t }) = some cl := hcl
    simp [outOf, hc, hres]
  have hk : (kernOf (setGroup s gid (putDue g { path := p.id, info := t })) g).trapOff = some off := hoff
  have hrun : (putDue g { path := p.id, info := t }).susp = .run := by rw [hdue]; exact hs
  have hout' : ¬ ((putDue g { path := p.id, info := t }).handler.isSome || outOf (setGroup s gid (putDue g { path := p.id, info := t }))
      (putDue g { path := p.id, info := t }) || !((putDue g { path := p.id, info := t }).susp = .run ||
        (putDue g { path := p.id, info := t }).susp = .walk)) = true := by
    rw [hout, hrun, hdue]
    simp [hh]
  have hq : queueTrap s gid g p t = setGroup s gid (putDue g { path := p.id, info := t }) := by simp [queueTrap, hh]
  rw [dueTrap, hq, takeDue, show tabFind (setGroup s gid (putDue g { path := p.id, info := t })).groups gid = _ from tabFind_put_self _ _ _]
  dsimp only
  rw [show (putDue g { path := p.id, info := t }).due = [{ path := p.id, info := t }] by rw [hdue]]
  dsimp only
  rw [if_neg hout', hclear, hp]
  simp [takeTrap, hgar, ht, hh, hk]

section
variable {s : State} {gid : Nat} {g : Group} {r : Req} {p : Path} {w : BitVec 96} {lane : Bool} {cl : Cluster} {off : Nat}

theorem timeoutTrap_cause : causeWord 0 (timeoutTrap s p w lane r).src (timeoutTrap s p w lane r).code =
    BitVec.ofNat 32 ((if lane then 256 else 0) + 0x1A) := by
  cases lane <;> simp [causeWord, timeoutTrap, mkAddrTrap, mkTrap]
theorem timeoutTrap_values : (timeoutTrap s p w lane r).val0 = r.addr.extractLsb' 0 32 ∧
    (timeoutTrap s p w lane r).val1 = r.addr.extractLsb' 32 32 := by
  constructor <;> apply BitVec.eq_of_toNat_eq <;> simp [timeoutTrap, mkAddrTrap, mkTrap, BitVec.extractLsb'_toNat, Nat.shiftRight_eq_div_pow]

/-- The path that has entered a handler. -/
def handlerPath (p : Path) (off : Nat) : Path :=
  { p with spc := BitVec.ofNat 32 off, queue := [], running := false, hold := .free, recalled := false }

/-- The group whose request is late. -/
def lateGroup (g : Group) (r : Req) (p : Path) : Group := putPath { g with reqs := [{ r with late := true }] } p

theorem storageTimeout_enters (hg : tabFind s.groups gid = some g) (hr : g.reqs = [r]) (h0 : 0 < r.stallAt) (hl : r.late = false)
    (hs : g.susp = .run) (hd : g.due = []) (ht : r.stallAt - 1 + s.storageTimeout ≤ s.clock) (hturn : waitsTurn s gid g p.id = false)
    (hw : waiterOf s g r = some (p, w, lane)) (hp : ∃ q ∈ g.paths, q.id = p.id) (hh : g.handler = none) (hgar : g.garnet = none)
    (hcl : clusterOf s g = some cl) (hres : cl.state = .resident) (hoff : (kernOf s g).trapOff = some off) :
    exec (.storageTimeout gid r.id) s = .next (
      let t := timeoutTrap s p w lane r
      setGroup (setGroup s gid (putDue (lateGroup g r p) { path := p.id, info := t })) gid
        (enterHandler s.clock (lateGroup g r p) p t off)) ∧ findPath (lateGroup g r p) p.id = some p := by
  have hexp : waitExpired s g r = true := by simp [waitExpired, Nat.pos_iff_ne_zero.mp h0, hl, hs, ht]
  have hfound : findPath (lateGroup g r p) p.id = some p := by
    obtain ⟨q, hq, hid⟩ := hp
    have hsome : (findPath { g with reqs := [{ r with late := true }] } p.id).isSome := by
      rw [findPath, List.find?_isSome]
      exact ⟨q, hq, by simpa using hid⟩
    obtain ⟨q', hq'⟩ := Option.isSome_iff_exists.mp hsome
    exact findPath_putPath_self hq' rfl
  refine ⟨?_, hfound⟩
  rw [exec_storageTimeout, execStorageTimeout, findReq_of_only hg hr]
  simp only [hexp, Bool.not_true, Bool.false_eq_true, if_false, hw, hgar, hturn]
  rw [modReq_of_only hr]
  exact congrArg Host.Outcome.next (dueTrap_enters hfound hh hgar hd hs hcl hres rfl hoff)

end

/-- Settles O41: the record that an append's return writes, and what each event leaves. -/
theorem storageEvents : Obligations.StorageEvents := by
  unfold Obligations.StorageEvents
  refine ⟨fun s gid sq c o name G r x hg hr hs hp hk hx hwf hc hend hsq => ?_, fun s name x hx hs hw => ⟨fun hn hu => ?_, segmentFailure_fails hx hs⟩,
    fun s gid G r hg hr => ⟨fun d dbl pa hk ht hp => ?_, stallRelease_releases hg hr, ?_⟩⟩
  · refine ⟨_, filledSegment x sq (spadNat s c 4 o), finishReq G r.id, memoryRequestReturn_append hg hr hs hp hk hx hc, tabFind_put_self _ _ _, ?_⟩
    have hget := filledSegment_get sq (spadNat s c 4 o) hwf
    have hin : ∀ i < 32, tabGet 0 (filledSegment x sq (spadNat s c 4 o)).bytes (endOf x sq - 32 + i) =
        (recordBytes sq (leBytes 4 (spadNat s c 4 o))).getD i 0 := fun i hi => by
      rw [hget, if_pos (by omega), Nat.add_sub_cancel_left]
    obtain ⟨hseq, hlength, hcrc, hword, hzero⟩ := record_of_word (f := fun i => tabGet 0 (filledSegment x sq (spadNat s c 4 o)).bytes i) hsq hin
    obtain ⟨hnext, hdurable, hread⟩ := filledSegment_keeps x sq (spadNat s c 4 o)
    have hreqs : (finishReq G r.id).reqs = [] := by simp [finishReq_reqs, hr]
    refine ⟨hseq, hlength, hcrc, fun i hi => (hword i hi).trans ?_, hzero, fun i hi => by rw [hget, if_neg (by omega)], hread,
      hnext, hdurable, tabFind_put_self _ _ _, hreqs⟩
    rw [spadNat, leBytes_bytesNat]
    simp [hi]
  · refine ⟨fun h => ?_, fun hsl hlast => ⟨_, recordDurable_goes hx hs hw hn hu, ?_⟩⟩
    · rw [recordDurable_goes hx hs hw hn hu]
      exact congrArg Host.Outcome.next (sealDue_waits (tabFind_put_self _ _ _) (h.imp id fun hlt => by dsimp only; omega))
    · exact sealDue_seals (tabFind_put_self _ _ _) hw hsl hs hlast
  · rw [stallToken_holds hg hr hk ht hp, countWait]
    simp only [ne_eq, ite_not]
  · intro p w lane off cl h0 hl hs hd ht hturn hwait hp hh hgar hcl hres hoff
    obtain ⟨hex, hfound⟩ := storageTimeout_enters hg hr h0 hl hs hd ht hturn hwait hp hh hgar hcl hres hoff
    obtain ⟨hv0, hv1⟩ := timeoutTrap_values (s := s) (p := p) (w := w) (lane := lane) (r := r)
    exact ⟨_, _, handlerPath p off, hex, tabFind_put_self _ _ _, timeoutTrap_cause, hv0, hv1, rfl, rfl, rfl,
      findPath_putPath_self hfound rfl, rfl, rfl, rfl, sameBytes_of rfl rfl rfl rfl⟩

end Sys2Proof.Machine
end

section
/-! # Line watches, completion of packets, and the feed of items (O44)

Where no column cache holds a word there is nothing to clean, so a completion changes its queue, the signal's bytes and the MSIs raised.
-/
namespace Sys2Proof.Machine

/-! ### Caches without a word have nothing to clean (R45, R200) -/

theorem cleanCore_of_empty {s : State} {c : Nat} (h : (coreOf s c).col = []) : cleanCore s c = s := by simp [cleanCore, dirtyLines, h]
theorem coreOf_col_of_empty {s : State} (h : ∀ e ∈ s.cores, e.2.col = []) (c : Nat) : (coreOf s c).col = [] := by
  rw [coreOf, tabGet]
  cases hf : tabFind s.cores c with
  | none => rfl
  | some k => exact h _ (tabFind_isMem hf)
theorem cleanAll_of_empty {s : State} (h : ∀ e ∈ s.cores, e.2.col = []) : cleanAll s = s := by
  have hstay (l : Tab Core) : l.foldl (fun s e => cleanCore s e.1) s = s := by
    induction l with
    | nil => rfl
    | cons e l ih => rw [List.foldl_cons, cleanCore_of_empty (coreOf_col_of_empty h e.1), ih]
  exact hstay s.cores

/-! ### Line watches (R41, R42) -/

section
variable {s : State} {line qn w : Nat} {q : Queue} (hq : s.queues = [(qn, q)]) (hc : closingP s q.pasid = false)
include hq hc

/-- A line without the tail word wakes the queue that waits on it. -/
theorem lineWatchFire_wakes (hl : q.tailPa / 128 ≠ line) (hw : q.state = .waiting) (hline : q.watch = some line) :
    exec (.lineWatchFire line) s = .next { s with queues := [(qn, { q with state := .active, watch := none })] } := by
  simp [execLineWatchFire, hq, hc, hl, hw, hline, modQueue, tabMod, tabFind, tabPut]
/-- A line with the tail word reads it again. -/
theorem lineWatchFire_reads (hl : q.tailPa / 128 = line) (ha : q.state = .active) (hw : fetcherNat s q.pasid .read 4 q.tailAddr = some w) :
    exec (.lineWatchFire line) s = .next { s with queues := [(qn, { q with tail := BitVec.ofNat 32 w })] } := by
  simp [execLineWatchFire, hq, hc, hl, ha, hw, modQueue, tabMod, tabFind, tabPut]

end

/-! ### Completion of packets (R45, R390) -/

/-- What a signal adds to or stores at its word. -/
def signalValue (s : State) (pk : Packet) (pa : Nat) : Nat :=
  if pk.sigOp = 1 then pk.sigVal.toNat else (homeNat s 8 pa + pk.sigVal.toNat) % 2 ^ 64
/-- The state once a packet has signalled. -/
def signalledState (s : State) (pk : Packet) (pa : Nat) : State :=
  if pk.sigOp = 0 then s else homeWrite 8 s pa (signalValue s pk pa)

section
variable {s : State} {qn pa : Nat} {q : Queue} {pk : Packet}

theorem signalledState_apart : { signalledState s pk pa with mem := s.mem, hartRes := s.hartRes } = s := by
  rw [signalledState]
  split
  · rfl
  · exact homeWrite_apart 8 s pa _ s.mem s.hartRes
theorem doSignal_some {pasid : Nat} (ha : pk.sigAddr ≠ 0) (hw : fetcherAddr s pasid pk.sigAddr .write = some pa) :
    doSignal s pasid pk = some (signalledState s pk pa) := by
  rw [doSignal, signalledState, hw]
  by_cases h : pk.sigOp = 0
  · rw [if_pos (.inr h), if_pos h]
  · rw [if_neg (by tauto), if_neg h]
    rfl
theorem signalledState_bytes (hpa : pa + 8 ≤ Config.hbmBytes) (hp : s.promoted = []) (hm : s.MemOk) :
    (pk.sigOp = 1 → homeNat (signalledState s pk pa) 8 pa = pk.sigVal.toNat) ∧
      (pk.sigOp = 2 → homeNat (signalledState s pk pa) 8 pa = (homeNat s 8 pa + pk.sigVal.toNat) % 2 ^ 64) ∧
      ∀ a, a < Config.hbmBytes → (pk.sigOp = 0 ∨ a < pa ∨ pa + 8 ≤ a) → homeByte (signalledState s pk pa) a = homeByte s a := by
  refine ⟨fun h => ?_, fun h => ?_, fun a ha h => ?_⟩
  · rw [signalledState, if_neg (by omega), homeNat_write 8 _ _ hpa hp hm, signalValue, if_pos h]
    exact Nat.mod_eq_of_lt pk.sigVal.isLt
  · rw [signalledState, if_neg (by omega), homeNat_write 8 _ _ hpa hp hm, signalValue, if_neg (by omega)]
    exact Nat.mod_mod _ _
  · rw [signalledState]
    split
    · rfl
    · next h0 => exact homeByte_write_out 8 _ hpa ha hp hm (h.resolve_left h0)

/-- The queue without the packet that has completed. -/
def leftState (s : State) (qn : Nat) (q : Queue) : State := { s with queues := tabPut s.queues qn { q with running := [] } }
/-- The MSIs that a completion raises. -/
def completionMsi (q : Queue) (pk : Packet) : List (Nat × Nat) := if pk.intr ∧ q.vector ≠ 0 then [(q.hart, q.vector)] else []

theorem raiseIrq_eq (t : State) : (if pk.intr then raiseIrq t q else t) = { t with msi := t.msi ++ completionMsi q pk } := by
  rw [raiseIrq, completionMsi]
  by_cases hi : pk.intr = true <;> by_cases hv : q.vector = 0 <;> simp [hi, hv]

theorem endPacket_eq (hq : tabFind s.queues qn = some q) (hs : q.state = .active) (hr : q.running = [pk]) (ha : pk.sigAddr ≠ 0)
    (hw : fetcherAddr s q.pasid pk.sigAddr .write = some pa) : endPacket s qn q pk =
      { signalledState (leftState s qn q) pk pa with msi := (signalledState (leftState s qn q) pk pa).msi ++ completionMsi q pk } := by
  have hleft : modQueue s qn (fun x => { x with
      running := x.running.filter (fun y => y.idx ≠ pk.idx),
      state := if x.state = .waiting ∧ x.watch = none then .active else x.state }) = leftState s qn q := by
    rw [modQueue_of_find hq, leftState]
    simp [hr, hs]
  have hsig := doSignal_some ha ((fetcherAddr_congr (t := leftState s qn q) (s := s) rfl rfl rfl rfl _ _ _).trans hw)
  rw [endPacket, hleft]
  dsimp only
  rw [hsig]
  exact raiseIrq_eq _

theorem packetComplete_goes {idx : Nat} (hq : tabFind s.queues qn = some q) (hs : q.state = .active) (hr : q.running = [pk])
    (hi : pk.idx = idx) (hd : pk.effectsDone = true) (hv : pk.inval = none) (hc : ∀ e ∈ s.cores, e.2.col = []) :
    exec (.packetComplete qn idx) s = .next (if hostStale s then s else endPacket s qn q pk) := by
  simp [execPacketComplete, hq, hr, hi, hs, hd, hv, cleanAll_of_empty hc]

end

/-! ### Items (R48, R355) -/

/-- The state once a core has been given an item and the launch has gone on. -/
def fedState (s : State) (ln c : Nat) (l : Launch) (x : Item) : State :=
  modCore { s with launches := tabPut s.launches ln l } c (fun k => { k with items := k.items ++ [x] })

section
variable {s : State} {ln c : Nat} {l l' : Launch} {x : Item}

theorem fedState_items : (coreOf (fedState s ln c l x) c).items = (coreOf s c).items ++ [x] := by
  rw [fedState, coreOf_modCore_self]
  rfl
theorem fedState_launch : tabFind (fedState s ln c l x).launches ln = some l := tabFind_put_self _ _ _

variable (hl : tabFind s.launches ln = some l) (hf : l.kern.flags.getLsbD 3 = true) (he : l.feedEnded = false) (hk : l.killed = false)
  (hp : closingP s l.pasid = false) (hc : feedCore s ln l.feedDepth = some c)
include hl hf he hk hp hc

/-- An item that a pre-emption returned goes first, with its age. -/
theorem itemFeed_kept {ws : List Word} {age : Nat} {rest : List (List Word × Nat)} (h : l.kept = (ws, age) :: rest) :
    exec (.itemFeed ln) s = .next (fedState s ln c { l with kept := rest } { words := ws, stamp := (s.clock : Int) - (age : Nat) }) := by
  simp [execItemFeed, hl, hf, he, hk, hp, hc, h, modLaunch, tabMod, fedState]
theorem itemFeed_array {bs : List Byte} (h : l.kept = []) (hn : l.itemNext < l.itemCount)
    (hb : fetcherBytes s l.pasid .read 32 (l.itemAddr + 32 * l.itemNext) = some bs) :
    exec (.itemFeed ln) s = .next (fedState s ln c { l with itemNext := l.itemNext + 1 }
      { words := (List.range 8).map (fun i => BitVec.ofNat 32 (listNat bs (4 * i) 4)), stamp := s.clock }) := by
  simp [execItemFeed, hl, hf, he, hk, hp, hc, h, Nat.not_le.mpr hn, hb, modLaunch, tabMod, fedState]

end

/-- Settles O44: what a watched line, a completion and a feed leave. -/
theorem queueEvents : Obligations.QueueEvents := by
  unfold Obligations.QueueEvents
  refine ⟨fun s line qn w q hq hc _ => ⟨lineWatchFire_wakes hq hc, lineWatchFire_reads hq hc⟩,
    fun s qn idx pa q pk hq hs hr hi hd hv hc ha hw hpa hp hm => ?_,
    fun s ln c l hl hf he hk hp hc => ⟨fun ws age rest h => ⟨_, itemFeed_kept hl hf he hk hp hc h, fedState_items, fedState_launch⟩,
      fun bs h hn hb => ⟨_, itemFeed_array hl hf he hk hp hc h hn hb, fedState_items, fedState_launch⟩⟩⟩
  have hgoes := packetComplete_goes hq hs hr hi hd hv hc
  refine ⟨fun hstale => ⟨s, by rw [hgoes, if_pos hstale], rfl, rfl, sameBytes_of rfl rfl rfl rfl⟩, fun hstale => ?_⟩
  rw [if_neg (by simp [hstale]), endPacket_eq hq hs hr ha hw] at hgoes
  obtain ⟨hstore, hadd, hout⟩ := signalledState_bytes (s := leftState s qn q) (pk := pk) hpa hp hm
  have hapart := signalledState_apart (s := leftState s qn q) (pk := pk) (pa := pa)
  have hqueues : (signalledState (leftState s qn q) pk pa).queues = (leftState s qn q).queues := (congrArg State.queues hapart :)
  have hmsi : (signalledState (leftState s qn q) pk pa).msi = s.msi := (congrArg State.msi hapart :)
  refine ⟨_, hgoes, ?_, hstore, hadd, hout, ?_⟩
  · exact (congrArg (fun t => tabFind t qn) hqueues).trans (tabFind_put_self _ _ _)
  · exact congrArg (· ++ completionMsi q pk) hmsi

end Sys2Proof.Machine
end

section
/-! # Placement and the end of a launch (O45)

A grant runs over three stretches: the cores are bound, which changes neither clusters nor teams; the teams take their seats, each under
numbers never used before, so that no later seat overwrites an earlier one; and the seated groups get images, columns and programs, which
change of a group only where its image lies. `AllSeated` is what holds from the seats on.
-/
namespace Sys2Proof.Machine

/-! ### The search (R52, R62) -/

section
variable {s t : State} {ln x y : Nat} {l : Launch}

/-- A launch alone, with a cluster never placed, is all that is tried. -/
theorem tryOrder_of_only (hl : s.launches = [(ln, l)]) (hc : s.clusters = []) (ho : s.offers = []) (hk : l.killed = false) (hcls : l.cls < 4)
    (hg : l.nextCluster < l.grid) : tryOrder s = [{ cls := l.cls, fresh := true, launch := ln, cluster := none }] := by
  have hlist : waitList s = [{ cls := l.cls, fresh := true, launch := ln, cluster := none }] := by simp [waitList, hl, hc, hk, hg]
  have horder : waitOrder s = [{ cls := l.cls, fresh := true, launch := ln, cluster := none }] := by
    have hclass : l.cls = 0 ∨ l.cls = 1 ∨ l.cls = 2 ∨ l.cls = 3 := by omega
    rcases hclass with h | h | h | h <;> simp [waitOrder, hlist, List.range_succ, h]
  simp [tryOrder, horder, ho]

theorem newCluster_launches (hl : tabFind s.launches ln = some l) :
    tabFind (newCluster s ln l).launches ln = some { l with nextCluster := l.nextCluster + 1 } := by
  simp [newCluster, modLaunch, tabFind_mod, hl]
theorem newCluster_cluster : tabFind (newCluster s ln l).clusters s.fresh =
    some { launch := ln, index := l.nextCluster, ox := 0, oy := 0, state := .requested, teams := [], placed := 0, since := 0 } :=
  tabFind_put_self _ _ _

theorem tryLaunch_of_all (n : Nat) (hl : tabFind s.launches ln = some l) (hg : l.grid ≤ l.nextCluster) : tryLaunch ln n (s, t) = (s, t) := by
  cases n with
  | zero => rfl
  | succ n => simp [tryLaunch, hl, hg]
theorem tryLaunch_of_last (n : Nat) (hl : tabFind s.launches ln = some l) (hg : l.grid = l.nextCluster + 1)
    (hr : firstRect l.kern.width l.kern.height (rectFits s ln l []) = some (x, y)) :
    (tryLaunch ln (n + 1) (s, s)).1 = postRequest (newCluster s ln l) s.fresh x y := by
  have hnext : tabFind (postRequest (newCluster s ln l) s.fresh x y).launches ln = some { l with nextCluster := l.nextCluster + 1 } :=
    newCluster_launches hl
  have hrest := tryLaunch_of_all (t := seatCluster (newCluster s ln l) s.fresh x y) n hnext hg.le
  simp only [tryLaunch, hl, hr, Nat.max_self]
  rw [if_neg (by omega)]
  exact congrArg Prod.fst hrest

theorem placementSearch_requests (hp : s.placeReqs = []) (hl : s.launches = [(ln, l)]) (hc : s.clusters = []) (ho : s.offers = [])
    (hk : l.killed = false) (hcls : l.cls < 4) (hg : l.grid = l.nextCluster + 1)
    (hr : firstRect l.kern.width l.kern.height (rectFits s ln l []) = some (x, y)) :
    exec .placementSearch s = .next { postRequest (newCluster s ln l) s.fresh x y with offers := [] } := by
  have hfind : tabFind s.launches ln = some l := by simp [hl, tabFind]
  have hone : tryOne ((s, s), []) { cls := l.cls, fresh := true, launch := ln, cluster := none } = (tryLaunch ln 3072 (s, s), []) := by
    simp [tryOne, hfind]
  rw [exec_placementSearch, execPlacementSearch, tryOrder_of_only hl hc ho hk hcls (by omega), List.foldl_cons, List.foldl_nil, hone,
    tryLaunch_of_last 3071 hfind hg hr, ho, hp]
  rfl

end

/-! ### What a grant leaves alone (R55, R56, R66, R70) -/

/-- Clock, requests, clusters, launches, teams and the next number. -/
abbrev Roster : Type := Nat × List PlaceReq × Tab Cluster × Tab Launch × Tab Team × Nat
def State.roster (s : State) : Roster := (s.clock, s.placeReqs, s.clusters, s.launches, s.teams, s.fresh)
/-- A state has a roster and a table of groups. -/
abbrev State.Seats (s : State) (v : Roster × Tab Group) : Prop := (s.roster, s.groups) = v

section
variable {v : Roster × Tab Group} {s : State}

theorem foldl_seats {α : Type} {f : State → α → State} {l : List α} (hf : ∀ t a, t.Seats v → (f t a).Seats v) (h : s.Seats v) :
    (l.foldl f s).Seats v :=
  foldl_keeps (P := fun t : State => t.Seats v) l hf h
theorem ite_seats {c : Prop} [Decidable c] {a b : State} (ha : a.Seats v) (hb : b.Seats v) : (if c then a else b).Seats v := by
  split
  · exact ha
  · exact hb
theorem modCore_seats {c : Nat} {f : Core → Core} (h : s.Seats v) : (modCore s c f).Seats v := h
theorem clearPoison_seats {cw : Nat} (h : s.Seats v) : (clearPoison s cw).Seats v := h
theorem homePut_seats {a : Nat} {x : Byte} (h : s.Seats v) : (homePut s a x).Seats v := ite_seats h h
theorem homeWrite_seats (n : Nat) {a x : Nat} (h : s.Seats v) : (homeWrite n s a x).Seats v := by
  induction n generalizing s a x with
  | zero => exact h
  | succ n ih => exact ih (homePut_seats h)
theorem homeWordPut_seats {wa : Nat} {x : Word} (h : s.Seats v) : (homeWordPut s wa x).Seats v :=
  homePut_seats (homePut_seats (homePut_seats (homePut_seats h)))
theorem freshCodewords_seats {n : Nat} {f : Nat → Option Nat} (h : s.Seats v) : (freshCodewords s n f).Seats v := by
  refine foldl_seats (fun t i ht => ?_) h
  split
  · exact ite_seats ht ht
  · exact ht
theorem writeBackLine_seats {c line : Nat} (h : s.Seats v) : (writeBackLine s c line).Seats v := by
  unfold writeBackLine
  extract_lets dirty s1
  have hs1 : s1.Seats v := foldl_seats (fun _ _ ht => ite_seats (clearPoison_seats ht) ht) h
  refine foldl_seats (fun t _ ht => ?_) hs1
  extract_lets wa
  split
  · exact ite_seats (modCore_seats (homeWordPut_seats (ite_seats (show (markPoison t _).Seats v from ht) ht))) ht
  · exact ht
theorem cleanCore_seats {c : Nat} (h : s.Seats v) : (cleanCore s c).Seats v := foldl_seats (fun _ _ ht => writeBackLine_seats ht) h
theorem colTrim_seats {c : Nat} (h : s.Seats v) : (colTrim s c).Seats v := by
  refine foldl_seats (fun t _ ht => ?_) h
  extract_lets k
  refine ite_seats ?_ ht
  split
  · exact modCore_seats (writeBackLine_seats ht)
  · exact ht
theorem setUnits_seats {c u : Nat} (h : s.Seats v) : (setUnits s c u).Seats v := by
  have hclean : (if (coreOf s c).units < u then modCore (cleanCore s c) c (fun k => { k with col := [], homes := [] }) else s).Seats v :=
    ite_seats (cleanCore_seats h) h
  exact ite_seats h (colTrim_seats (s := modCore _ c _) hclean)

/-! Images -/

theorem imagePut_seats {g : Group} {off : Nat} {b : Byte} (h : s.Seats v) : (imagePut g s off b).Seats v := by
  unfold imagePut
  split
  · exact homePut_seats h
  · exact h
theorem clearImage_seats {gid : Nat} (h : s.Seats v) : (clearImage s gid).Seats v := by
  unfold clearImage
  split <;> exact h
theorem writeFixed_seats {gid n : Nat} (h : s.Seats v) : (writeFixed s gid n).Seats v := by
  unfold writeFixed
  split
  · next g _ =>
    have hfill : ((List.range n).foldl (fun t off => imagePut g t off (imageByte s g s.draws off)) s).Seats v :=
      foldl_seats (fun _ _ ht => imagePut_seats ht) h
    exact ite_seats h (freshCodewords_seats hfill)
  · exact h
theorem writeLine_seats {g : Group} {line : Nat} (h : s.Seats v) : (writeLine s g line).Seats v := by
  refine freshCodewords_seats (foldl_seats (fun t i ht => ?_) h)
  split
  · exact homeWrite_seats 4 ht
  · exact ht
theorem prepareTeam_seats {team : Nat} {ps : List (List Dword)} (h : s.Seats v) : (prepareTeam s team ps).Seats v := by
  unfold prepareTeam
  split <;> exact h

end

section
variable {r : Roster} {s : State}

/-- Dropping a line changes its group; the roster stays. -/
theorem dropLine_roster {gid line : Nat} (h : s.roster = r) : (dropLine s gid line).roster = r := by
  unfold dropLine
  split
  · next g _ => exact (congrArg Prod.fst (writeLine_seats (g := g) (line := line) (rfl : s.Seats _))).trans h
  · exact h
theorem dropSealed_roster {c : Nat} (h : s.roster = r) : (dropSealed s c).roster = r := by
  refine foldl_keeps (P := fun t : State => t.roster = r) _ (fun t e ht => ?_) h
  unfold dropLines
  split
  · exact foldl_keeps (P := fun t : State => t.roster = r) _ (fun _ _ hu => dropLine_roster hu) ht
  · exact ht
theorem bindCore_roster {c pasid : Nat} (h : s.roster = r) : (bindCore s c pasid).roster = r := by
  show (scrub s c pasid).roster = r
  unfold scrub
  split
  · exact h
  · exact (congrArg Prod.fst (cleanCore_seats (c := c) (rfl : (dropSealed s c).Seats _))).trans (dropSealed_roster h)

end

/-! ### Seats (R60, R61, R66) -/

theorem seatGroups_length {n : Nat} {held gs : List (Nat × Nat)} (h : seatGroups n held = some gs) : gs.length = n := by
  induction n generalizing held gs with
  | zero => cases h; rfl
  | succ n ih =>
    unfold seatGroups at h
    split at h
    · obtain ⟨r, hr, rfl⟩ := Option.map_eq_some_iff.mp h
      rw [List.length_cons, ih hr]
    · cases h
theorem seatTeams_groups {k : Kernel} {m : Nat} {ns slots : List Nat} {ranges held : List (Nat × Nat)} {xs : List Seat}
    (h : seatTeams k ns slots ranges held = some xs) (hn : ∀ n ∈ ns, n = m) : ∀ x ∈ xs, x.groups.length = m := by
  induction ns generalizing slots ranges held xs with
  | nil => cases h; simp
  | cons n ns ih =>
    obtain ⟨hm, hns⟩ := List.forall_mem_cons.mp hn
    unfold seatTeams at h
    split at h
    · next hgs =>
      obtain ⟨r, hr, rfl⟩ := Option.map_eq_some_iff.mp h
      exact List.forall_mem_cons.mpr ⟨(seatGroups_length hgs).trans hm, ih hr hns⟩
    · cases h
theorem seatCounts_of_new {s : State} {k : Kernel} {q : Nat} : ∀ n ∈ seatCounts s k [] q, n = k.groups := by simp [seatCounts]
theorem coreSeats_groups {s : State} {ln m c : Nat} {l : Launch} {ns : List Nat} {xs : List Seat} (h : coreSeats s ln l ns c = some xs)
    (hn : ∀ n ∈ ns, n = m) : ∀ x ∈ xs, x.groups.length = m := by
  rw [coreSeats] at h
  split at h
  · cases h
  · exact seatTeams_groups h hn

/-! ### Groups at their launch values (R70) -/

/-- A group of a team is as its launch leaves it. -/
abbrev AtLaunch (k : Kernel) (n : Nat) (G : Group) : Prop :=
  G.team = n ∧ G.sreg = [] ∧ G.vreg = [] ∧ G.pred = [] ∧ G.flags = 0 ∧ G.ejth = BitVec.ofNat 32 k.ejth ∧ G.rjto = 65536 ∧
    G.paths = [pathNew 0 (BitVec.ofNat 32 k.scalarEntry) (BitVec.ofNat 32 k.laneEntry) (BitVec.allOnes 96)]
/-- A team of a cluster is seated under numbers below `b`, with every group at its launch values. -/
def Seated (teams : Tab Team) (groups : Tab Group) (b cl : Nat) (k : Kernel) (n : Nat) : Prop :=
  n < b ∧ ∃ tm, tabFind teams n = some tm ∧ tm.cluster = cl ∧ tm.groups.length = k.groups ∧
    ∀ g ∈ tm.groups, g < b ∧ ∃ G, tabFind groups g = some G ∧ AtLaunch k n G
/-- The cluster is found, and each of its teams is seated. -/
def AllSeated (clk cl : Nat) (c : Cluster) (k : Kernel) (s : State) : Prop :=
  s.clock = clk ∧ s.placeReqs = [] ∧ ∃ ns, tabFind s.clusters cl = some { c with teams := ns } ∧
    ∀ n ∈ ns, Seated s.teams s.groups s.fresh cl k n

section
variable {teams : Tab Team} {groups : Tab Group} {b cl n : Nat} {k : Kernel}

/-- A seat stays where later numbers are put, and where a group's image alone changes. -/
theorem Seated.mono {teams' : Tab Team} {groups' : Tab Group} {b' : Nat} (h : Seated teams groups b cl k n) (hb : b ≤ b')
    (ht : ∀ j < b, tabFind teams' j = tabFind teams j)
    (hg : ∀ j < b, ∀ G, tabFind groups j = some G → AtLaunch k n G → ∃ G', tabFind groups' j = some G' ∧ AtLaunch k n G') :
    Seated teams' groups' b' cl k n := by
  obtain ⟨hn, tm, hfind, hcl, hlen, hgroups⟩ := h
  refine ⟨hn.trans_le hb, tm, (ht n hn).trans hfind, hcl, hlen, fun g hmem => ?_⟩
  obtain ⟨hlt, G, hG, hat⟩ := hgroups g hmem
  exact ⟨hlt.trans_le hb, hg g hlt G hG hat⟩

end

section
variable {s t : State} {clk cl : Nat} {c : Cluster} {k : Kernel}

theorem AllSeated.congr (h : AllSeated clk cl c k s) (ht : t.Seats (s.roster, s.groups)) : AllSeated clk cl c k t := by
  obtain ⟨hroster, hgroups⟩ := Prod.mk.inj ht
  have hclock : t.clock = s.clock := (congrArg (fun r => r.1) hroster :)
  have hreqs : t.placeReqs = s.placeReqs := (congrArg (fun r => r.2.1) hroster :)
  have hclusters : t.clusters = s.clusters := (congrArg (fun r => r.2.2.1) hroster :)
  have hteams : t.teams = s.teams := (congrArg (fun r => r.2.2.2.2.1) hroster :)
  have hfresh : t.fresh = s.fresh := (congrArg (fun r => r.2.2.2.2.2) hroster :)
  rwa [AllSeated, hclock, hreqs, hclusters, hteams, hfresh, hgroups]

/-- Where each key's last entry of a list is put. -/
theorem tabFind_puts {α β : Type} (l : List α) (f : α → Nat) (v : α → β) (t : Tab β) (j : Nat) :
    (tabFind (l.foldl (fun t e => tabPut t (f e) (v e)) t) j = tabFind t j ∧ ∀ e ∈ l, f e ≠ j) ∨
      ∃ e ∈ l, f e = j ∧ tabFind (l.foldl (fun t e => tabPut t (f e) (v e)) t) j = some (v e) := by
  induction l generalizing t with
  | nil => exact .inl ⟨rfl, by simp⟩
  | cons a l ih =>
    rw [List.foldl_cons]
    rcases ih (tabPut t (f a) (v a)) with ⟨hsame, hne⟩ | ⟨e, he, hj, hfind⟩
    · by_cases ha : j = f a
      · exact .inr ⟨a, List.mem_cons_self, ha.symm, hsame.trans (by rw [ha, tabFind_put_self])⟩
      · exact .inl ⟨hsame.trans (tabFind_put_ne _ _ ha), List.forall_mem_cons.mpr ⟨Ne.symm ha, hne⟩⟩
    · exact .inr ⟨e, List.mem_cons_of_mem _ he, hj, hfind⟩

/-- The numbers, indices, partitions and places of a new team's groups. -/
def seatIds (team : Nat) (x : Seat) : List (Nat × Nat × Nat × Nat) := x.groups.mapIdx (fun i e => (team + 1 + i, i, e))
/-- A group as it takes its place. -/
def seatGroup (k : Kernel) (team core : Nat) (e : Nat × Nat × Nat × Nat) : Group :=
  { groupNew team e.2.1 core e.2.2.1 e.2.2.2 (BitVec.ofNat 32 k.scalarEntry) (BitVec.ofNat 32 k.laneEntry) (BitVec.ofNat 32 k.ejth) with
    age := e.1, ageA := e.1, ageB := e.1 }
/-- The state once the groups of a new team have taken their places. -/
def seatedGroups (s : State) (cl : Nat) (k : Kernel) (core idx : Nat) (x : Seat) : State :=
  { s with fresh := s.fresh + 1 + x.groups.length,
           teams := tabPut s.teams s.fresh (teamNew cl idx core x.slot x.off ((seatIds s.fresh x).map (fun e => e.1))),
           groups := (seatIds s.fresh x).foldl (fun t e => tabPut t e.1 (seatGroup k s.fresh core e)) s.groups }

theorem foldl_setGroup {α : Type} (l : List α) (f : α → Nat) (v : α → Group) (s : State) :
    l.foldl (fun s e => setGroup s (f e) (v e)) s = { s with groups := l.foldl (fun t e => tabPut t (f e) (v e)) s.groups } := by
  induction l generalizing s with
  | nil => rfl
  | cons a l ih => rw [List.foldl_cons, ih, List.foldl_cons]; rfl
theorem seatNew_eq (s : State) (cl : Nat) (k : Kernel) (core idx : Nat) (x : Seat) : seatNew s cl k core idx x =
    modCluster (seatedGroups s cl k core idx x) cl (fun c => { c with teams := c.teams ++ [s.fresh] }) :=
  congrArg (fun t => modCluster t cl (fun c => { c with teams := c.teams ++ [s.fresh] }))
    (foldl_setGroup (seatIds s.fresh x) (fun e => e.1) (seatGroup k s.fresh core) _)
theorem seatIds_bounds {team : Nat} {x : Seat} {e : Nat × Nat × Nat × Nat} (h : e ∈ seatIds team x) :
    team < e.1 ∧ e.1 < team + 1 + x.groups.length := by
  obtain ⟨i, hi, rfl⟩ := List.mem_mapIdx.mp h
  constructor <;> dsimp only <;> omega
theorem seatGroup_atLaunch (k : Kernel) (team core : Nat) (e : Nat × Nat × Nat × Nat) : AtLaunch k team (seatGroup k team core e) :=
  ⟨rfl, rfl, rfl, rfl, rfl, rfl, rfl, rfl⟩

/-- A new team is seated. -/
theorem seatedGroups_seated {core idx : Nat} {x : Seat} (hx : x.groups.length = k.groups) :
    Seated (seatedGroups s cl k core idx x).teams (seatedGroups s cl k core idx x).groups (seatedGroups s cl k core idx x).fresh cl k s.fresh := by
  refine ⟨show s.fresh < s.fresh + 1 + x.groups.length by omega, _, tabFind_put_self _ _ _, rfl, ?_, fun g hg => ?_⟩
  · simp [teamNew, seatIds, hx]
  · obtain ⟨e, he, rfl⟩ := List.mem_map.mp hg
    refine ⟨(seatIds_bounds he).2, ?_⟩
    rcases tabFind_puts (seatIds s.fresh x) (fun e => e.1) (seatGroup k s.fresh core) s.groups e.1 with ⟨_, hne⟩ | ⟨e', _, _, hfind⟩
    · exact absurd rfl (hne e he)
    · exact ⟨_, hfind, seatGroup_atLaunch k s.fresh core e'⟩
/-- The teams seated before it stay: its numbers are new. -/
theorem seatedGroups_keeps {n core idx : Nat} {x : Seat} (h : Seated s.teams s.groups s.fresh cl k n) :
    Seated (seatedGroups s cl k core idx x).teams (seatedGroups s cl k core idx x).groups (seatedGroups s cl k core idx x).fresh cl k n := by
  refine h.mono (show s.fresh ≤ s.fresh + 1 + x.groups.length by omega) (fun j hj => tabFind_put_ne _ _ hj.ne) (fun j hj G hG hat => ?_)
  rcases tabFind_puts (seatIds s.fresh x) (fun e => e.1) (seatGroup k s.fresh core) s.groups j with ⟨hsame, _⟩ | ⟨e, he, rfl, _⟩
  · exact ⟨G, hsame.trans hG, hat⟩
  · exact absurd (seatIds_bounds he).1 hj.not_gt

theorem AllSeated.seatNew {core idx : Nat} {x : Seat} (h : AllSeated clk cl c k s) (hx : x.groups.length = k.groups) :
    AllSeated clk cl c k (seatNew s cl k core idx x) := by
  obtain ⟨hclk, hreqs, ns, hfind, hall⟩ := h
  rw [seatNew_eq]
  refine ⟨hclk, hreqs, ns ++ [s.fresh], ?_, fun n hn => ?_⟩
  · have hmod := tabFind_mod s.clusters cl cl (fun c => { c with teams := c.teams ++ [s.fresh] })
    rw [if_pos rfl, hfind] at hmod
    exact hmod
  · rcases List.mem_append.mp hn with hold | hnew
    · exact seatedGroups_keeps (hall n hold)
    · rw [List.mem_singleton.mp hnew]
      exact seatedGroups_seated hx


/-- Where a new cluster is about to run. -/
def seatedAt (c : Cluster) (ox oy : Nat) : Cluster := { c with ox := ox, oy := oy, state := .requested }

/-- The teams of a new cluster take their seats. -/
theorem seatCluster_seats {l : Launch} {ox oy : Nat} (hclk : s.clock = clk) (hreqs : s.placeReqs = []) (hc : tabFind s.clusters cl = some c)
    (hteams : c.teams = []) (hl : tabFind s.launches c.launch = some l) :
    AllSeated clk cl (seatedAt c ox oy) l.kern (seatCluster s cl ox oy) := by
  have hstart : AllSeated clk cl (seatedAt c ox oy) l.kern (modCluster s cl (fun x => { x with
      ox := ox, oy := oy, state := if c.teams.isEmpty then .requested else .restoring })) := by
    refine ⟨hclk, hreqs, [], ?_, by simp⟩
    simp [modCluster, tabFind_mod, hc, seatedAt, hteams]
  rw [seatCluster, hc]
  dsimp only
  rw [hl]
  refine foldl_keeps (P := AllSeated clk cl (seatedAt c ox oy) l.kern) _ (fun t e ht => ?_) hstart
  split
  · exact ht
  · next xs hxs =>
    rw [hteams] at hxs
    have hlen := coreSeats_groups hxs seatCounts_of_new
    refine List.foldlRecOn _ _ ht (fun u hu y hy => ?_)
    obtain ⟨i, hi, rfl⟩ := List.mem_mapIdx.mp hy
    rw [hteams]
    exact hu.seatNew (hlen _ (List.getElem_mem hi))

/-! ### Images and the grant (R64, R70) -/

theorem AllSeated.setImage {gid : Nat} {G : Group} {i : Option Nat} (h : AllSeated clk cl c k s) (hG : tabFind s.groups gid = some G) :
    AllSeated clk cl c k (setGroup s gid { G with image := i }) := by
  obtain ⟨hclk, hreqs, ns, hfind, hall⟩ := h
  refine ⟨hclk, hreqs, ns, hfind, fun n hn => (hall n hn).mono le_rfl (fun _ _ => rfl) (fun j _ G' hG' hat => ?_)⟩
  by_cases hj : j = gid
  · subst hj
    cases hG.symm.trans hG'
    exact ⟨_, tabFind_put_self _ _ _, hat⟩
  · exact ⟨G', (tabFind_put_ne _ _ hj).trans hG', hat⟩
theorem AllSeated.giveImage {gid : Nat} (h : AllSeated clk cl c k s) (ht : giveImage s gid = some t) : AllSeated clk cl c k t := by
  unfold Sys2Proof.Machine.giveImage at ht
  split at ht
  · cases ht; exact h
  · next G hG =>
    split at ht
    · cases ht; exact h
    · obtain ⟨i, _, rfl⟩ := Option.map_eq_some_iff.mp ht
      exact h.setImage hG
theorem AllSeated.giveImages (h : AllSeated clk cl c k s) : AllSeated clk cl c k ((giveImages s cl).getD s) := by
  have hsome : ∀ t ∈ Sys2Proof.Machine.giveImages s cl, AllSeated clk cl c k t := by
    refine foldl_keeps (P := fun r : Option State => ∀ t ∈ r, AllSeated clk cl c k t) _ (fun r g hr t ht => ?_) (by simpa using h)
    obtain ⟨u, hu, hgive⟩ := Option.bind_eq_some_iff.mp ht
    exact (hr u hu).giveImage hgive
  cases hg : Sys2Proof.Machine.giveImages s cl with
  | none => exact h
  | some t => exact hsome t hg

/-- A new cluster once it runs. -/
def runningAt (c : Cluster) (ox oy n clk : Nat) : Cluster := { c with ox := ox, oy := oy, state := .resident, placed := n, since := clk }
/-- A cluster whose teams are seated is given its number and runs. -/
theorem AllSeated.run {x y : Nat} (h : AllSeated clk cl (seatedAt c x y) k s) :
    AllSeated clk cl (runningAt c x y s.fresh clk) k
      (modCluster { s with fresh := s.fresh + 1 } cl (fun c => { c with state := .resident, placed := s.fresh, since := s.clock })) := by
  obtain ⟨hclk, hreqs, ns, hfind, hall⟩ := h
  refine ⟨hclk, hreqs, ns, ?_, fun n hn => (hall n hn).mono (Nat.le_succ _) (fun _ _ => rfl) (fun j _ G hG hat => ⟨G, hG, hat⟩)⟩
  simp [modCluster, tabFind_mod, hfind, seatedAt, runningAt, hclk]

/-- What a grant leaves of a new cluster. -/
theorem carryOut_seats {l : Launch} {x y : Nat} {ps : List (List Dword)} (hreqs : s.placeReqs = [])
    (hc : tabFind s.clusters cl = some c) (hteams : c.teams = []) (hl : tabFind s.launches c.launch = some l) :
    ∃ n, AllSeated s.clock cl (runningAt c x y n s.clock) l.kern (carryOut s cl l x y ps) := by
  unfold carryOut
  extract_lets cores resumed s1 old s2 s3 s4 s5 s6 s7
  have hresumed : resumed = false := by simp [resumed, hc, hteams]
  have h1 : s1.roster = s.roster := foldl_keeps (P := fun t : State => t.roster = s.roster) _ (fun _ _ ht => bindCore_roster ht) rfl
  have h2 : AllSeated s.clock cl (seatedAt c x y) l.kern s2 := seatCluster_seats (congrArg (fun r => r.1) h1 :)
    ((congrArg (fun r => r.2.1) h1 :).trans hreqs) ((congrArg (fun r => tabFind r.2.2.1 cl) h1 :).trans hc) hteams
    ((congrArg (fun r => tabFind r.2.2.2.1 c.launch) h1 :).trans hl)
  have h3 : AllSeated s.clock cl (seatedAt c x y) l.kern s3 := h2.giveImages
  have h4 : s4.Seats (s3.roster, s3.groups) := by
    simp only [s4, hresumed]
    exact foldl_seats (fun _ _ ht => writeFixed_seats (clearImage_seats ht)) rfl
  have h5 : s5.Seats (s3.roster, s3.groups) := foldl_seats (fun _ _ ht => setUnits_seats ht) h4
  have h6 : s6.Seats (s3.roster, s3.groups) := ite_seats (foldl_seats (fun _ _ ht => modCore_seats ht) h5) h5
  have h7 : s7.Seats (s3.roster, s3.groups) := foldl_seats (fun _ _ ht => prepareTeam_seats ht) h6
  rw [hresumed]
  exact ⟨_, (h3.congr h7).run⟩

end


/-! ### The request (R55, R64) -/

section
variable {s t : State} (hm : t.mem = s.mem) (hp : t.promoted = s.promoted) (hs : t.segments = s.segments) (hpr : t.procs = s.procs)
include hm hp hs hpr

theorem fetcherBytes_congr (pasid : Nat) (a : Acc) (n va : Nat) : fetcherBytes t pasid a n va = fetcherBytes s pasid a n va := by
  simp only [fetcherBytes, fetcherAddr_congr hm hp hs hpr, homeByte_congr hm hp hs]
theorem readPrograms_congr (pasid n p va : Nat) (acc : List Dword) : readPrograms t pasid n p va acc = readPrograms s pasid n p va acc := by
  have hread (va : Nat) : fetcherNat t pasid .readOrExec 8 va = fetcherNat s pasid .readOrExec 8 va := by
    rw [fetcherNat, fetcherNat, fetcherBytes_congr hm hp hs hpr]
  induction n generalizing p va acc with
  | zero => cases p <;> rfl
  | succ n ih =>
    cases p with
    | zero => rfl
    | succ p =>
      unfold readPrograms
      simp only [hread, ih]
theorem preloads_congr (pasid : Nat) (k : Kernel) : preloads t pasid k = preloads s pasid k := by
  simp only [preloads, readPreloads, readPrograms_congr hm hp hs hpr]

end

theorem placementRequest_grants {s : State} {r : PlaceReq} {c : Cluster} {l : Launch} {ps : List (List Dword)} (hreqs : s.placeReqs = [r])
    (hc : tabFind s.clusters r.cluster = some c) (hstate : c.state = .requested) (hl : tabFind s.launches c.launch = some l)
    (hps : preloads s l.pasid l.kern = some ps)
    (hg : grantable { s with placeReqs := [] } r.cluster c l r.ox r.oy ((ps.map List.length).sum) = true) :
    exec .placementRequest s = .next (carryOut { s with placeReqs := [] } r.cluster l r.ox r.oy ps) := by
  have hread : preloads { s with placeReqs := [] } l.pasid l.kern = some ps :=
    (preloads_congr (t := { s with placeReqs := [] }) (s := s) rfl rfl rfl rfl _ _).trans hps
  rw [exec_placementRequest, execPlacementRequest, hreqs]
  simp only [hc, hl, hstate, reduceCtorEq, if_false, hread, hg, if_true]

/-! ### The end of a launch (R383, R384) -/

/-- Words in order are fields of four bytes. -/
theorem wordsNat_eq_fieldsNat (ws : List Word) : wordsNat ws = fieldsNat (ws.map (fun w => (4, w.toNat))) := by
  induction ws with
  | nil => rfl
  | cons w ws ih =>
    rw [List.map_cons, fieldsNat_cons, ← ih]
    rfl
theorem fieldsLen_words (ws : List Word) : fieldsLen (ws.map (fun w => (4, w.toNat))) = 4 * ws.length := by
  induction ws with
  | nil => rfl
  | cons w ws ih => rw [List.map_cons, fieldsLen_cons, ih, List.length_cons]; omega
theorem words_fit (ws : List Word) : ∀ f ∈ ws.map (fun w => (4, w.toNat)), f.2 < 256 ^ f.1 := by
  intro f hf
  obtain ⟨w, _, rfl⟩ := List.mem_map.mp hf
  exact toNat_lt_bytes (n := 4) w
theorem wordsNat_lt (ws : List Word) : wordsNat ws < 256 ^ (4 * ws.length) := by
  rw [wordsNat_eq_fieldsNat, ← fieldsLen_words]
  exact fieldsNat_lt (words_fit ws)
theorem wordsNat_word {ws : List Word} {i : Nat} {w : Word} (h : ws[i]? = some w) : wordsNat ws / 256 ^ (4 * i) % 256 ^ 4 = w.toNat := by
  obtain ⟨hi, rfl⟩ := List.getElem?_eq_some_iff.mp h
  have hsplit : ws.map (fun w => (4, w.toNat)) = (ws.take i).map (fun w => (4, w.toNat)) ++ (4, ws[i].toNat) ::
      (ws.drop (i + 1)).map (fun w => (4, w.toNat)) := by
    conv_lhs => rw [← List.take_append_drop i ws, ← List.getElem_cons_drop hi, List.map_append, List.map_cons]
  have hlen : fieldsLen ((ws.take i).map (fun w => (4, w.toNat))) = 4 * i := by
    rw [fieldsLen_words, List.length_take, Nat.min_eq_left hi.le]
  rw [wordsNat_eq_fieldsNat, hsplit, ← hlen]
  exact fieldsNat_field (words_fit (ws.take i)) _ (toNat_lt_bytes (n := 4) ws[i])
theorem recordWords_length (l : Launch) : (recordWords l).length = 32 := by
  simp only [recordWords, List.length_append, List.length_cons, List.length_nil, List.length_replicate, List.length_take]
  omega

section
variable {s : State} {ln pa : Nat} {l : Launch} {q : Queue} {pk : Packet}

/-- The launch once it has ended. -/
def finishedLaunch (l : Launch) : Launch := { l with finished := true, undelivered := l.itemCount - l.delivered - l.discarded }
/-- The state once a launch has ended. -/
def finishedState (s : State) (ln : Nat) (l : Launch) : State := { s with launches := tabPut s.launches ln (finishedLaunch l) }
/-- The state once its record has been written. -/
def recordedState (s : State) (ln : Nat) (l : Launch) (pa : Nat) : State :=
  homeWrite 128 (finishedState s ln l) pa (wordsNat (recordWords l))

theorem recordedState_apart : { recordedState s ln l pa with mem := s.mem, hartRes := s.hartRes } = finishedState s ln l :=
  homeWrite_apart 128 (finishedState s ln l) pa _ s.mem s.hartRes
theorem recordedState_out (hpa : pa + 128 ≤ Config.hbmBytes) (hp : s.promoted = []) (hm : s.MemOk) {a : Nat} (ha : a < Config.hbmBytes)
    (hout : a < pa ∨ pa + 128 ≤ a) : homeByte (recordedState s ln l pa) a = homeByte s a :=
  (homeByte_write_out 128 (s := finishedState s ln l) _ hpa ha hp hm hout).trans (homeByte_congr (s := s) rfl rfl rfl a)
theorem recordedState_word (hpa : pa + 128 ≤ Config.hbmBytes) (hp : s.promoted = []) (hm : s.MemOk) {i : Nat} {w : Word}
    (h : (recordWords l)[i]? = some w) : homeNat (recordedState s ln l pa) 4 (pa + 4 * i) = w.toNat := by
  have hi := (List.getElem?_eq_some_iff.mp h).1
  have hlt := wordsNat_lt (recordWords l)
  rw [recordWords_length] at hi hlt
  rw [homeNat_slice (n := 128) _ (by omega), recordedState, homeNat_write 128 (s := finishedState s ln l) _ _ hpa hp hm, Nat.mod_eq_of_lt hlt, wordsNat_word h]

/-- A launch that is over, whose record its cause lets be written. -/
theorem launchComplete_goes (hl : tabFind s.launches ln = some l) (hf : l.finished = false) (ho : launchOver s ln l = true)
    (hs : l.silent = false) (hc : closingP s l.pasid = false) (hcol : ∀ e ∈ s.cores, e.2.col = [])
    (hw : fetcherAddr s l.pasid l.recAddr .write = some pa)
    (hcause : l.cause ≠ 0 ∨ ∀ e ∈ s.stks, ∀ r ∈ e.2.fatal, r.launch ≠ some ln) :
    exec (.launchComplete ln) s = .next (if hostStale s then s else packetDone (recordedState s ln l pa) l.queue l.pkt) := by
  have hlatched : (latched s ln && l.cause = 0) = false := by
    rcases hcause with h | h
    · rw [decide_eq_false h, Bool.and_false]
    · have hnone : latched s ln = false := by simpa [latched] using h
      rw [hnone, Bool.false_and]
  have hfinish : finishLaunch s ln = finishedState s ln l := by
    rw [finishLaunch, modLaunch, tabMod, hl]; rfl
  have hwrite : fetcherWrite (finishedState s ln l) l.pasid 128 l.recAddr (wordsNat (recordWords l)) = some (recordedState s ln l pa) := by
    rw [fetcherWrite, fetcherAddr_congr (t := finishedState s ln l) (s := s) rfl rfl rfl rfl, hw]
    rfl
  rw [exec_launchComplete, execLaunchComplete, hl]
  simp only [hf, ho, hs, hc, hlatched, cleanAll_of_empty hcol, Bool.not_true, Bool.or_false, Bool.false_eq_true, if_false, hfinish, hwrite]
  split <;> rfl

/-! A packet's effects change its queue alone. -/

theorem packetDone_homeByte (t : State) (qn i a : Nat) : homeByte (packetDone t qn i) a = homeByte t a := homeByte_congr rfl rfl rfl a
theorem packetDone_homeNat (t : State) (qn i n a : Nat) : homeNat (packetDone t qn i) n a = homeNat t n a := homeNat_congr rfl rfl rfl n a
theorem packetDone_launches (t : State) (qn i : Nat) : (packetDone t qn i).launches = t.launches := rfl
/-- The only packet of a queue. -/
theorem packetDone_queue {t : State} {qn i : Nat} (hq : tabFind t.queues qn = some q) (hr : q.running = [pk]) (hi : pk.idx = i) :
    tabFind (packetDone t qn i).queues qn = some { q with running := [{ pk with effectsDone := true }] } := by
  rw [packetDone, modQueue_of_find hq]
  simp [hr, hi]

end

/-- Settles O45: what the search requests, what a grant seats, and what the end of a launch writes. -/
theorem placement : Obligations.Placement := by
  unfold Obligations.Placement
  refine ⟨fun s ln x y l hp hl hc ho hk hcls hg hr => ?_, fun s r c l ps hreqs hc hstate hteams hl hps hg => ?_,
    fun s ln pa l q pk hl hf ho hs hc hcol hw hpa hp hm hq hr hi hcause => ?_⟩
  · have hfind : tabFind s.launches ln = some l := by simp [hl, tabFind]
    exact ⟨_, _, placementSearch_requests hp hl hc ho hk hcls hg hr, congrArg (· ++ _) hp, newCluster_cluster, rfl, rfl, rfl, rfl,
      newCluster_launches hfind, rfl, sameBytes_of rfl rfl rfl rfl⟩
  · obtain ⟨n, _, hdone, ns, hfind, hall⟩ := carryOut_seats (s := { s with placeReqs := [] }) (x := r.ox) (y := r.oy) (ps := ps) rfl hc hteams hl
    refine ⟨_, _, placementRequest_grants hreqs hc hstate hl hps hg, hdone, hfind, rfl, rfl, rfl, rfl, fun n hn => ?_⟩
    obtain ⟨_, tm, htm, hcl, hlen, hgroups⟩ := hall n hn
    exact ⟨tm, htm, hcl, hlen, fun g hg => (hgroups g hg).2⟩
  · have hgoes := launchComplete_goes hl hf ho hs hc hcol hw hcause
    refine ⟨fun hstale => ⟨s, by rw [hgoes, if_pos hstale], rfl, rfl, sameBytes_of rfl rfl rfl rfl⟩, fun hstale => ?_⟩
    have hapart := recordedState_apart (s := s) (ln := ln) (l := l) (pa := pa)
    have hqueue : tabFind (recordedState s ln l pa).queues l.queue = some q := (congrArg (fun t => tabFind t.queues l.queue) hapart :).trans hq
    have hlaunch : tabFind (recordedState s ln l pa).launches ln = some (finishedLaunch l) :=
      (congrArg (fun t => tabFind t.launches ln) hapart :).trans (tabFind_put_self _ _ _)
    rw [if_neg (by simp [hstale])] at hgoes
    refine ⟨_, hgoes, fun i w h => ?_, fun a ha hout => ?_, ⟨finishedLaunch l, ?_, rfl⟩, packetDone_queue hqueue hr hi⟩
    · rw [packetDone_homeNat, recordedState_word hpa hp hm h]
    · rw [packetDone_homeByte, recordedState_out hpa hp hm ha hout]
    · rw [packetDone_launches, hlaunch]

end Sys2Proof.Machine
end

section
/-! # Waits and `YIELD` (O5)

A wait passes or leaves the state as it is; `YIELD` changes the ages of its group and of all its paths (`findPath_map`), then the clock of its own path. -/
namespace Sys2Proof.Machine

section
variable {s : State} {g : Group} {p : Path}

/-- A map that keeps the numbers of paths changes the path that a lookup finds. -/
theorem findPath_map {f : Path → Path} (hf : ∀ q, (f q).id = q.id) (g : Group) (n : Nat) :
    findPath { g with paths := g.paths.map f } n = (findPath g n).map f := by
  simp [findPath, List.find?_map, hf]

/-- A wait for flags finds them all set (R163). -/
theorem flagsSet_iff {m f : BitVec 12} : m &&& ~~~ f = 0 ↔ ∀ i, i < 12 → m.getLsbD i = true → f.getLsbD i = true := by
  constructor
  · intro h i hi hm
    have hbit := congrArg (fun x : BitVec 12 => x.getLsbD i) h
    simpa [hi, hm] using hbit
  · intro h
    refine BitVec.eq_of_getLsbD_eq fun i hi => ?_
    cases hm : m.getLsbD i with
    | false => simp [hm]
    | true => simp [hm, h i hi hm]

theorem waitf_eq (h : s.At g p) (m : BitVec 12) :
    exec (.waitf m) s = if m &&& ~~~ g.flags = 0 then .next (keep s g (advScalar s g p)) else .next s := by
  rw [exec_waitf, execWaitf, onPath_at _ h]
theorem waitk_eq (h : s.At g p) (k : KPath) (r : SReg) :
    exec (.waitk k r) s = if counter g k ≤ (sRead g p r).toNat then .next (keep s g (advScalar s g p)) else .next s := by
  rw [exec_waitk, execWaitk, onPath_at _ h]

/-! ### `YIELD` (R348) -/

/-- The group whose paths have all become the youngest on the three ports. -/
def youngest (s : State) (g : Group) : Group :=
  { g with age := s.fresh, ageA := s.fresh, ageB := s.fresh, paths := g.paths.map (fun q => { q with age := s.fresh }) }
/-- The path that has yielded. -/
def yielded (s : State) (g : Group) (p : Path) : Path := { advScalar s g p with age := s.fresh, idle := s.clock + 16 }

theorem yield_eq (h : s.At g p) :
    exec .yield s = .next (keep { s with fresh := s.fresh + 1 } (youngest s g) (yielded s g p)) := by
  rw [exec_yield, execYield, onPath_at _ h]
  rfl
theorem yielded_at (h : s.At g p) : (keep { s with fresh := s.fresh + 1 } (youngest s g) (yielded s g p)).At
    (putPath (youngest s g) (yielded s g p)) (yielded s g p) := by
  have hfind : findPath (youngest s g) s.curPath = some { p with age := s.fresh } :=
    (findPath_map (f := fun q => { q with age := s.fresh }) (fun _ => rfl) g s.curPath).trans (congrArg _ h.2)
  have hid : (yielded s g p).id = s.curPath := (advScalar_id s g p).trans (findPath_id h.2)
  exact ⟨tabFind_put_self _ _ _, findPath_putPath_self hfind hid⟩
theorem yielded_ages : ∀ q ∈ (putPath (youngest s g) (yielded s g p)).paths, q.age = s.fresh := by
  intro q hq
  obtain ⟨q', hq', rfl⟩ := List.mem_map.mp hq
  obtain ⟨q'', -, rfl⟩ := List.mem_map.mp hq'
  split <;> rfl
theorem sRead_yielded (r : SReg) : sRead (putPath (youngest s g) (yielded s g p)) (yielded s g p) r = sRead g p r :=
  (sRead_path (g := g) (p := advScalar s g p) rfl rfl r).trans (sRead_adv s g p r)

end

/-- Settles O5: a wait passes or stays by what it finds, and `YIELD` makes every path of the group the last of its splits. -/
theorem waitsAndYield : Obligations.WaitsAndYield := by
  unfold Obligations.WaitsAndYield
  intro s g p h
  refine ⟨fun m hm => ?_, fun m f hf hm hg => ?_, fun k r hk => ?_, fun k r hk => ?_, ?_⟩
  · rw [waitf_eq h, if_pos (flagsSet_iff.mpr hm)]
    exact goes_next h rfl
  · rw [waitf_eq h, if_neg fun h0 => ?_]
    exact absurd (flagsSet_iff.mp h0 f hf hm) (by simp [hg])
  · rw [waitk_eq h, if_pos hk]
    exact goes_next h rfl
  · rw [waitk_eq h, if_neg (by omega)]
  · exact ⟨_, _, _, yield_eq h, yielded_at h, rfl, rfl, rfl, rfl, rfl, yielded_ages, sameBytes_of rfl rfl rfl rfl, sRead_yielded⟩

end Sys2Proof.Machine
end

section
/-! # A special function completes after the flags of other results (O27)

The clause of `Obligations.SpecialFunctionUnit` for the completion has the sticky flags become those of before and the request's own. The model
writes at completion every result that is visible then, and with it the flags that were to be set with such a result (R182): an earlier instruction
of fixed latency, whose result no one has read, adds its flags to the special function's. In `overdue` an inexact result is due in clock 5 and
the special function, without a flag of its own, in clock 12. The clause would have to read `stickyAt G (max s.clock d)` for `G.fpflags`, or ask
for `G.fpDue = []`, to account for such flags. -/
namespace Sys2Proof.Machine

/-- A special function that is outstanding, due in clock 12, and has raised no flag. -/
def overdueReq : Req :=
  { id := 1, path := none, flag := 15, kind := .sfu 12 0, fp := 0, pc := 0, by_ := 0, stalled := false, stallAt := 0, addr := 0, late := false }
/-- Its group, in which an inexact result is due in clock 5. -/
def overdueGroup : Group := { groupNew 0 0 0 0 0 0 0 4 with reqs := [overdueReq], fpDue := [(5, 0x10)] }
/-- A module whose one group is that one. -/
def overdue : State := { State.reset with groups := [(0, overdueGroup)] }

/-- The sticky flags of group 0 after an outcome. -/
def stickyAfter (r : Out) : Option Byte := match r with
  | .next t => (tabFind t.groups 0).map (fun g => g.fpflags)
  | _ => none

theorem overdueGroup_regsOk : overdueGroup.RegsOk := by decide +kernel
/-- The completion raises `inexact`. -/
theorem overdue_complete_inexact : stickyAfter (exec (.specialFunctionComplete 0 1) overdue) = some 0x10 := by decide +kernel

/-- Refutes O27: a special function without flags completes where an earlier result is due that raises `inexact`, and `inexact` is set, where the
clause keeps the flags of before. -/
theorem not_specialFunctionUnit : ¬ Obligations.SpecialFunctionUnit := by
  unfold Obligations.SpecialFunctionUnit
  rintro ⟨⟨-, hcomplete⟩, -⟩
  obtain ⟨t, G', ht, hG', -, -, -, -, hsticky, -⟩ :=
    hcomplete overdue 0 1 overdueGroup overdueReq 12 0 rfl rfl rfl (by decide) overdueGroup_regsOk
  have hafter : stickyAfter (.next t) = some 0x10 := ht ▸ overdue_complete_inexact
  have hflags : G'.fpflags = 0x10 := by simpa [stickyAfter, hG'] using hafter
  have hinexact := hsticky 4
  rw [hflags] at hinexact
  exact absurd hinexact (by decide)

end Sys2Proof.Machine
end

section
/-! # Misses, walks and promotion between tiers (O29)

A line of an image is 32 words at one place of the range from `privBase` on: `writeLine_mem` says what the victim's line leaves there. A walk looks at
memory, segments, processes and the non-leaf entries of its stack (`walkStack_congr`), none of which its own end changes before it is looked up.
A promotion without dirty words copies memory alone, from the capacity tier to a pool block in HBM (`poolFree_hbm`), so that no byte is read after
it has been overwritten. -/
namespace Sys2Proof.Machine

theorem modGroup_of_find {s : State} {gid : Nat} {G : Group} (h : tabFind s.groups gid = some G) (f : Group → Group) :
    modGroup s gid f = setGroup s gid (f G) := by
  rw [modGroup, tabMod, h]; rfl
theorem tabFind_setGroup_self (s : State) (gid : Nat) (G : Group) : tabFind (setGroup s gid G).groups gid = some G :=
  tabFind_put_self s.groups gid G

/-! ### Instruction-fetch misses (R103) -/

section
variable {s : State} {gid pid : Nat} {G : Group} {P : Path} {lane : Bool}

/-- A path of which one stream's miss has ended. -/
def fetched (lane : Bool) (p : Path) : Path := if lane then { p with missL := false } else { p with missS := false }
/-- The group in which a path's stream goes on. -/
def fetchedGroup (pid : Nat) (lane : Bool) (g : Group) : Group :=
  { g with paths := g.paths.map (fun p => if p.id = pid then fetched lane p else p) }

theorem fetchMiss_waits (h : fetchWalking s gid pid lane = true) : exec (.instructionFetchMiss gid pid lane) s = .next s := by
  rw [exec_instructionFetchMiss, execInstructionFetchMiss, if_pos h]
theorem fetchMiss_returns (hg : tabFind s.groups gid = some G) (h : fetchWalking s gid pid lane = false) :
    exec (.instructionFetchMiss gid pid lane) s = .next (setGroup s gid (fetchedGroup pid lane G)) := by
  rw [exec_instructionFetchMiss, execInstructionFetchMiss, if_neg (by simp [h]), setMiss, modGroup_of_find hg]
  rfl
theorem findPath_fetchedGroup (n : Nat) :
    findPath (fetchedGroup pid lane G) n = (findPath G n).map (fun p => if p.id = pid then fetched lane p else p) :=
  findPath_map (fun q => by unfold fetched; split <;> [split <;> rfl; rfl]) G n
theorem findPath_fetchedGroup_self (h : findPath G pid = some P) : findPath (fetchedGroup pid lane G) pid = some (fetched lane P) := by
  rw [findPath_fetchedGroup, h, Option.map_some, if_pos (findPath_id h)]
theorem findPath_fetchedGroup_ne {n : Nat} (hn : n ≠ pid) : findPath (fetchedGroup pid lane G) n = findPath G n := by
  rw [findPath_fetchedGroup]
  cases h : findPath G n with
  | none => rfl
  | some q => rw [Option.map_some, if_neg (by rw [findPath_id h]; exact hn)]

end

/-! ### Lines of the register cache (R112) -/

section
variable {s : State} {gid line : Nat} {G : Group}

theorem mem_poisonLine {key : Nat} : key ∈ (poisonLine s G line).vpoison ↔ key ∈ G.vpoison ∨
    ∃ i < 32, imagePoison s G (lineOffset line + 4 * i) = true ∧ key = vKey (line / 3) (32 * (line % 3) + i) := by
  have hfold (l : List Nat) (x : Group) : key ∈ (l.foldl (fun x i => if imagePoison s G (lineOffset line + 4 * i) then
      { x with vpoison := setIns x.vpoison (vKey (line / 3) (line % 3 * 32 + i)) } else x) x).vpoison ↔ key ∈ x.vpoison ∨
      ∃ i ∈ l, imagePoison s G (lineOffset line + 4 * i) = true ∧ key = vKey (line / 3) (32 * (line % 3) + i) := by
    induction l generalizing x with
    | nil => simp
    | cons i l ih =>
      rw [List.foldl_cons, ih]
      cases hi : imagePoison s G (lineOffset line + 4 * i) with
      | false => simp [hi]
      | true => simp [hi, mem_setIns, Nat.mul_comm (line % 3), or_assoc, or_comm]
  rw [poisonLine, hfold]
  simp only [List.mem_range]
theorem poisonLine_apart : { poisonLine s G line with vpoison := G.vpoison } = G :=
  foldl_keeps (P := fun x : Group => { x with vpoison := G.vpoison } = G) _ (fun x i hx => by split <;> exact hx) rfl
/-- A line of an image without poison brings none. -/
theorem poisonLine_clean (h : ∀ off, imagePoison s G off = false) : poisonLine s G line = G :=
  foldl_keeps (P := fun x : Group => x = G) _ (fun x i hx => by rw [h, if_neg (by simp)]; exact hx) rfl

/-- The group once a line has come from its image. -/
def lineIn (s : State) (line : Nat) (G : Group) : Group :=
  { poisonLine s G line with lines := G.lines ||| (1#1152 <<< line), lineUse := tabPut G.lineUse line s.fresh }
/-- The group once a line has left the register cache. -/
def lineOut (line : Nat) (G : Group) : Group :=
  { G with lines := G.lines &&& ~~~ (1#1152 <<< line), lineUse := tabDel G.lineUse line }

theorem lineIn_lines (hl : line < 1152) (k : Nat) : (lineIn s line G).lines.getLsbD k = (G.lines.getLsbD k || decide (k = line)) := by
  simp only [lineIn, BitVec.getLsbD_or, BitVec.getLsbD_shiftLeft, BitVec.getLsbD_one]
  by_cases hk : k = line
  · subst hk; simp [hl]
  · congr 1
    simp only [hk, decide_false]
    have hother : ¬ (k < 1152 ∧ ¬ k < line ∧ k - line = 0) := by omega
    simpa using hother
theorem lineOut_lines {k : Nat} (hk : k < 1152) : (lineOut line G).lines.getLsbD k = (G.lines.getLsbD k && decide (k ≠ line)) := by
  simp only [lineOut, BitVec.getLsbD_and, BitVec.getLsbD_not, BitVec.getLsbD_shiftLeft, BitVec.getLsbD_one, hk]
  by_cases h : k = line
  · subst h; simp [hk]
  · congr 1
    have hother : k < line ∨ k - line ≠ 0 := by omega
    simpa [h] using hother
/-- A line that comes in changes the lines of its group, their last uses, and the poison of words. -/
theorem lineIn_apart : { lineIn s line G with lines := G.lines, lineUse := G.lineUse, vpoison := G.vpoison } = G :=
  (congrArg (fun x : Group => { x with lines := G.lines, lineUse := G.lineUse }) (poisonLine_apart (s := s) (line := line)) :)

variable (hg : tabFind s.groups gid = some G) (hx : G.garnet = none) (hr : G.resident = true) (hk : line < 3 * (kernOf s G).regs)
  (ho : G.lines.getLsbD line = false)
include hg hx hr hk ho

theorem lineFetch_room (h : (bankLines s G.core (line % 12)).length < 2048) :
    exec (.registerLineFetch gid line) s = .next (setGroup s gid (lineIn s line G)) := by
  rw [exec_registerLineFetch, execRegisterLineFetch, hg]
  simp only [hx, hr, hk, ho, h, Option.isNone_none, decide_true, Bool.not_false, Bool.and_true, if_true, modGroup_of_find hg]
  rfl
theorem lineFetch_stuck (h : 2048 ≤ (bankLines s G.core (line % 12)).length) (hv : lineVictim s G.core (line % 12) = none) :
    exec (.registerLineFetch gid line) s = .next s := by
  rw [exec_registerLineFetch, execRegisterLineFetch, hg]
  simp [hx, hr, hk, ho, hv, show ¬ (bankLines s G.core (line % 12)).length < 2048 by omega]

end

/-! ### Writes in the range from `privBase` on (R194) -/

section
variable {s : State} (hp : s.promoted = [])
include hp

theorem homeByte_priv {b : Nat} (ht : tierOf (Config.privBase + b) = .priv) : homeByte s (Config.privBase + b) = memByte s.mem b := by
  simp [homeByte, redirect, hp, privAlias, ht]
theorem homePut_mem_priv {b : Nat} (v : Byte) (ht : tierOf (Config.privBase + b) = .priv) :
    (homePut s (Config.privBase + b) v).mem = memPut s.mem b v := by
  simp [homePut, redirect, hp, privAlias, ht]
theorem homeWrite_mem_priv (n : Nat) {b : Nat} (x : Nat) (ht : ∀ j < n, tierOf (Config.privBase + b + j) = .priv) :
    (homeWrite n s (Config.privBase + b) x).mem = memWrite n s.mem b x := by
  induction n generalizing s b x with
  | zero => rfl
  | succ n ih =>
    rw [homeWrite, Nat.add_assoc, ih (by simpa using hp) _ (fun j hj => (congrArg tierOf (by omega)).trans (ht (j + 1) (by omega))),
      homePut_mem_priv hp _ (ht 0 (by omega)), memWrite]
theorem homeNat_priv (n : Nat) {b : Nat} (ht : ∀ j < n, tierOf (Config.privBase + b + j) = .priv) :
    homeNat s n (Config.privBase + b) = bytesNat (memByte s.mem) n b := by
  induction n generalizing b with
  | zero => rfl
  | succ n ih =>
    have hrest := ih (b := b + 1) fun j hj => (congrArg tierOf (by omega)).trans (ht (j + 1) (by omega))
    rw [homeNat] at hrest ⊢
    rw [bytesNat, bytesNat, homeByte_priv hp (ht 0 (by omega)), Nat.add_assoc, hrest]

end

/-! ### A line written to its image (R70, R353) -/

/-- Memory with `n` words written one after the other. -/
def wordsWrite (m : List Host.Cell) (b : Nat) (w : Nat → Word) (n : Nat) : List Host.Cell :=
  (List.range n).foldl (fun m i => memWrite 4 m (b + 4 * i) (w i).toNat) m

section
variable {m : List Host.Cell} {b : Nat} {w : Nat → Word}

theorem wordsWrite_succ (n : Nat) : wordsWrite m b w (n + 1) = memWrite 4 (wordsWrite m b w n) (b + 4 * n) (w n).toNat := by
  rw [wordsWrite, List.range_succ, List.foldl_append]; rfl
theorem memWf_wordsWrite (h : memWf m = true) (n : Nat) : memWf (wordsWrite m b w n) = true := by
  induction n with
  | zero => exact h
  | succ n ih => rw [wordsWrite_succ]; exact memWf_write 4 _ _ ih
theorem wordsWrite_out (h : memWf m = true) (n : Nat) {a : Nat} (ha : a < b ∨ b + 4 * n ≤ a) :
    memByte (wordsWrite m b w n) a = memByte m a := by
  induction n with
  | zero => rfl
  | succ n ih => rw [wordsWrite_succ, memByte_write_out 4 _ (memWf_wordsWrite h n) (by omega), ih (by omega)]
theorem bytesNat_congr {f f' : Nat → Byte} (n : Nat) {a : Nat} (h : ∀ j < n, f (a + j) = f' (a + j)) : bytesNat f n a = bytesNat f' n a := by
  induction n generalizing a with
  | zero => rfl
  | succ n ih =>
    rw [bytesNat, bytesNat, show f a = f' a from h 0 (by omega), ih fun j hj => by rw [Nat.add_assoc, Nat.add_comm 1]; exact h (j + 1) (by omega)]
theorem wordsWrite_get (h : memWf m = true) {n i : Nat} (hi : i < n) : bytesNat (memByte (wordsWrite m b w n)) 4 (b + 4 * i) = (w i).toNat := by
  induction n with
  | zero => omega
  | succ n ih =>
    have hwf := memWf_wordsWrite (b := b) (w := w) h n
    rw [wordsWrite_succ]
    rcases Nat.lt_succ_iff_lt_or_eq.mp hi with hi | rfl
    · rw [bytesNat_congr 4 fun j hj => memByte_write_out 4 _ hwf (by omega), ih hi]
    · rw [bytesNat_write 4 _ _ hwf, Nat.mod_eq_of_lt (toNat_lt_bytes (n := 4) (w i))]

end

/-- Codewords written clean change the poisoned codewords alone, and add none. -/
theorem freshCodewords_poison (s : State) (n : Nat) (f : Nat → Option Nat) : { freshCodewords s n f with poison := s.poison } = s ∧
    ∀ x ∈ (freshCodewords s n f).poison, x ∈ s.poison := by
  refine foldl_keeps (P := fun t : State => { t with poison := s.poison } = s ∧ ∀ x ∈ t.poison, x ∈ s.poison) _ (fun t i ht => ?_)
    ⟨rfl, fun _ => id⟩
  split
  · split
    · exact ⟨ht.1, fun x hx => ht.2 x (List.mem_of_mem_filter hx)⟩
    · exact ht
  · exact ht

section
variable {s : State} {G : Group} {at_ : Nat}

/-- The place in HBM of a byte of a group's image. -/
def imagePlace (G : Group) (at_ off : Nat) : Nat := columnFrame G.core (at_ + off / 4096) + off % 4096

/-- The words of a line of the register cache. -/
def lineWord (G : Group) (line i : Nat) : Word := tabGet 0 G.vreg (vKey (line / 3) (32 * (line % 3) + i))
/-- A state once word `i` of a line stands in the image. -/
def wordWritten (G : Group) (line : Nat) (s : State) (i : Nat) : State :=
  match imagePa G (lineOffset line + 4 * i) with
  | some pa => homeWrite 4 s pa (tabGet 0 G.vreg (vKey (line / 3) (line % 3 * 32 + i))).toNat
  | none => s
/-- The state once the first `n` words of a line stand in the image. -/
def lineWritten (s : State) (G : Group) (line n : Nat) : State := (List.range n).foldl (wordWritten G line) s

theorem writeLine_eq (line : Nat) :
    writeLine s G line = freshCodewords (lineWritten s G line 32) 128 (fun off => imagePa G (lineOffset line + off)) := rfl
theorem lineWritten_succ (line n : Nat) : lineWritten s G line (n + 1) = wordWritten G line (lineWritten s G line n) n := by
  rw [lineWritten, List.range_succ, List.foldl_append]; rfl
theorem lineWritten_apart (line n : Nat) (m : List Host.Cell) (r : Tab Nat) :
    { lineWritten s G line n with mem := m, hartRes := r } = { s with mem := m, hartRes := r } := by
  refine foldl_keeps (P := fun t : State => { t with mem := m, hartRes := r } = { s with mem := m, hartRes := r }) _ (fun t i ht => ?_) rfl
  unfold wordWritten
  split
  · rw [homeWrite_apart, ht]
  · exact ht
/-- A line's write changes memory, the poison of its codewords, and the reservations of harts. -/
theorem writeLine_apart (line : Nat) (m : List Host.Cell) (ps : List Nat) (r : Tab Nat) :
    { writeLine s G line with mem := m, poison := ps, hartRes := r } = { s with mem := m, poison := ps, hartRes := r } := by
  have hcodewords := (freshCodewords_poison (lineWritten s G line 32) 128 (fun off => imagePa G (lineOffset line + off))).1
  rw [writeLine_eq]
  exact (congrArg (fun t : State => { t with mem := m, poison := ps, hartRes := r }) hcodewords).trans
    (congrArg (fun t : State => { t with poison := ps }) (lineWritten_apart line 32 m r))
theorem writeLine_poison (line : Nat) : ∀ x ∈ (writeLine s G line).poison, x ∈ s.poison := by
  intro x hx
  rw [writeLine_eq] at hx
  have hwritten := (freshCodewords_poison (lineWritten s G line 32) 128 (fun off => imagePa G (lineOffset line + off))).2 x hx
  have hsame : (lineWritten s G line 32).poison = s.poison := (congrArg State.poison (lineWritten_apart line 32 s.mem s.hartRes) :)
  rwa [hsame] at hwritten

section
variable {line : Nat} (ha : G.image = some at_) (hplace : ∀ i < 128, imagePlace G at_ (lineOffset line + i) =
  imagePlace G at_ (lineOffset line) + i ∧ tierOf (Config.privBase + imagePlace G at_ (lineOffset line) + i) = .priv)
include ha hplace

theorem imagePa_lineWord {i : Nat} (hi : i < 32) :
    imagePa G (lineOffset line + 4 * i) = some (Config.privBase + (imagePlace G at_ (lineOffset line) + 4 * i)) := by
  rw [← (hplace (4 * i) (by omega)).1, imagePa, ha]
  simp only [Option.map_some, imagePlace, Nat.add_assoc]
theorem lineWritten_mem (hp : s.promoted = []) {n : Nat} (hn : n ≤ 32) :
    (lineWritten s G line n).mem = wordsWrite s.mem (imagePlace G at_ (lineOffset line)) (lineWord G line) n := by
  induction n with
  | zero => rfl
  | succ n ih =>
    have hprom : (lineWritten s G line n).promoted = [] := (congrArg State.promoted (lineWritten_apart line n s.mem s.hartRes) :).trans hp
    have htier (j : Nat) (hj : j < 4) : tierOf (Config.privBase + (imagePlace G at_ (lineOffset line) + 4 * n) + j) = .priv :=
      (congrArg tierOf (by omega)).trans (hplace (4 * n + j) (by omega)).2
    rw [lineWritten_succ, wordWritten, imagePa_lineWord ha hplace (by omega), wordsWrite_succ, ← ih (by omega), lineWord, Nat.mul_comm 32]
    exact homeWrite_mem_priv hprom 4 _ htier
theorem writeLine_mem (hp : s.promoted = []) :
    (writeLine s G line).mem = wordsWrite s.mem (imagePlace G at_ (lineOffset line)) (lineWord G line) 32 := by
  have hcodewords := (freshCodewords_poison (lineWritten s G line 32) 128 (fun off => imagePa G (lineOffset line + off))).1
  rw [writeLine_eq]
  exact (congrArg State.mem hcodewords).trans (lineWritten_mem ha hplace hp le_rfl)

end

/-- Poison reads as before where the poisoned codewords are none but those of before. -/
theorem homePoison_of_subset {t : State} (hp : t.promoted = s.promoted) (hk : t.stks = s.stks) (hs : ∀ x ∈ t.poison, x ∈ s.poison)
    {pa : Nat} (h : homePoison s pa = false) : homePoison t pa = false := by
  have hr : redirect t pa = redirect s pa := by simp only [redirect, hp]
  simp only [homePoison, hr, stackOf, hk, Bool.or_eq_false_iff, decide_eq_false_iff_not] at h ⊢
  exact ⟨fun hmem => h.1 (hs _ hmem), h.2⟩
theorem imagePoison_of_homePoison (h : ∀ pa, homePoison s pa = false) (off : Nat) : imagePoison s G off = false := by
  rw [imagePoison]
  cases imagePa G off with
  | none => rfl
  | some pa => exact h pa

end

/-! ### A full bank (R112) -/

section
variable {s : State} {gid line at_ : Nat} {v : Nat × Nat} {G H : Group}

/-- The state once a bank's victim has left, and once the line has taken its place. -/
def victimOut (s : State) (v : Nat × Nat) (H : Group) : State := setGroup (writeLine s H v.2) v.1 (lineOut v.2 H)
def lineSwapped (s : State) (gid line : Nat) (G : Group) (v : Nat × Nat) (H : Group) : State :=
  setGroup (victimOut s v H) gid (lineIn (victimOut s v H) line G)

theorem writeLine_groups (l : Nat) : (writeLine s H l).groups = s.groups :=
  (congrArg State.groups (writeLine_apart l s.mem s.poison s.hartRes) :)
theorem lineSwapped_apart :
    { lineSwapped s gid line G v H with groups := s.groups, mem := s.mem, poison := s.poison, hartRes := s.hartRes } = s :=
  (congrArg (fun t : State => { t with groups := s.groups }) (writeLine_apart v.2 s.mem s.poison s.hartRes) :)
theorem lineSwapped_mem : (lineSwapped s gid line G v H).mem = (writeLine s H v.2).mem := rfl
theorem lineSwapped_promoted : (lineSwapped s gid line G v H).promoted = s.promoted :=
  (congrArg State.promoted (lineSwapped_apart (gid := gid) (line := line) (G := G)) :)
theorem lineSwapped_others {k : Nat} (hk : k ≠ gid) (hkv : k ≠ v.1) : tabFind (lineSwapped s gid line G v H).groups k = tabFind s.groups k := by
  rw [lineSwapped, setGroup, tabFind_put_ne _ _ hk, victimOut, setGroup, tabFind_put_ne _ _ hkv, writeLine_groups]
theorem lineSwapped_victim (hne : v.1 ≠ gid) : tabFind (lineSwapped s gid line G v H).groups v.1 = some (lineOut v.2 H) :=
  (tabFind_put_ne _ _ hne).trans (tabFind_setGroup_self _ _ _)
/-- Without poison the line comes in as it is. -/
theorem poisonLine_victimOut (hclean : ∀ pa, homePoison s pa = false) : poisonLine (victimOut s v H) G line = G := by
  have hstks : (victimOut s v H).stks = s.stks := (congrArg State.stks (writeLine_apart v.2 s.mem s.poison s.hartRes) :)
  have hprom : (victimOut s v H).promoted = s.promoted := (congrArg State.promoted (writeLine_apart v.2 s.mem s.poison s.hartRes) :)
  exact poisonLine_clean (imagePoison_of_homePoison fun pa => homePoison_of_subset hprom hstks (writeLine_poison v.2) (hclean pa))

/-- In a full bank the victim leaves and the line takes its place. -/
theorem lineFetch_swaps (hg : tabFind s.groups gid = some G) (hx : G.garnet = none) (hr : G.resident = true) (hk : line < 3 * (kernOf s G).regs)
    (ho : G.lines.getLsbD line = false) (h : 2048 ≤ (bankLines s G.core (line % 12)).length)
    (hv : lineVictim s G.core (line % 12) = some v) (hne : v.1 ≠ gid) (hH : tabFind s.groups v.1 = some H) :
    exec (.registerLineFetch gid line) s = .next (lineSwapped s gid line G v H) := by
  have hdrop : dropLine s v.1 v.2 = victimOut s v H := by rw [dropLine, hH]; rfl
  have hfind : tabFind (victimOut s v H).groups gid = some G := by
    rw [victimOut, setGroup, tabFind_put_ne _ _ hne.symm, writeLine_groups, hg]
  rw [exec_registerLineFetch, execRegisterLineFetch, hg]
  simp only [hx, hr, hk, ho, hv, hdrop, show ¬ (bankLines s G.core (line % 12)).length < 2048 by omega, Option.isNone_none, decide_true,
    Bool.not_false, Bool.and_true, if_true, if_false, modGroup_of_find hfind]
  rfl

variable (ha : H.image = some at_) (hm : s.MemOk) (hp : s.promoted = []) (hplace : ∀ i < 128, imagePlace H at_ (lineOffset v.2 + i) =
  imagePlace H at_ (lineOffset v.2) + i ∧ tierOf (Config.privBase + imagePlace H at_ (lineOffset v.2) + i) = .priv)
include ha hm hp hplace

theorem lineSwapped_words {i : Nat} (hi : i < 32) : homeNat (lineSwapped s gid line G v H) 4
    (Config.privBase + imagePlace H at_ (lineOffset v.2) + 4 * i) = (lineWord H v.2 i).toNat := by
  have htier (j : Nat) (hj : j < 4) : tierOf (Config.privBase + (imagePlace H at_ (lineOffset v.2) + 4 * i) + j) = .priv :=
    (congrArg tierOf (by omega)).trans (hplace (4 * i + j) (by omega)).2
  rw [Nat.add_assoc, homeNat_priv (lineSwapped_promoted.trans hp) 4 htier, lineSwapped_mem, writeLine_mem ha hplace hp,
    wordsWrite_get hm hi]
theorem lineSwapped_out {a : Nat} (hhbm : a < Config.hbmBytes)
    (hout : a < imagePlace H at_ (lineOffset v.2) ∨ imagePlace H at_ (lineOffset v.2) + 128 ≤ a) :
    homeByte (lineSwapped s gid line G v H) a = homeByte s a := by
  rw [homeByte_hbm hhbm (lineSwapped_promoted.trans hp), homeByte_hbm hhbm hp, lineSwapped_mem, writeLine_mem ha hplace hp,
    wordsWrite_out hm 32 hout]

end

/-! ### Walks (R206, R207) -/

section
variable {s : State} {st : Nat}

/-- What a walk finds looks at memory, the promoted blocks, segments, processes, and the non-leaf entries of its stack. -/
theorem walkStack_congr {t : State} (hm : t.mem = s.mem) (hp : t.promoted = s.promoted) (hs : t.segments = s.segments)
    (hpr : t.procs = s.procs) (hn : (stackOf t st).nonLeaf = (stackOf s st).nonLeaf) (pasid va : Nat) :
    walkStack t st pasid va = walkStack s st pasid va := by
  have hstart : walkStart t st pasid va = walkStart s st pasid va := by simp only [walkStart, hn, rootOf, hpr]
  have hat : walkAt t pasid va (walkStart s st pasid va) = walkAt s pasid va (walkStart s st pasid va) := by
    simp only [walkAt, segWindow, hs, walkFrom_congr hm hp hs]
  have hrefill (e : TlbEnt) : refillLeaf t e va = refillLeaf s e va := by simp only [refillLeaf, hp]
  simp only [walkStack, hstart, hat, hrefill]

theorem mem_tlbAdd (l : List TlbEnt) (cap : Nat) (e : TlbEnt) : e ∈ tlbAdd l cap e := by simp [tlbAdd]

/-- Of a stack the walk leaves its leaf in the second level, and the tables that it passed (R206). -/
theorem walkLeaves_tlb (pasid va : Nat) (e : TlbEnt) : e ∈ (stackOf (walkLeaves s st pasid va e) st).tlb := by
  rw [walkLeaves, stackOf_modStack_self]
  exact mem_tlbAdd _ _ _
theorem walkLeaves_walks (pasid va : Nat) (e : TlbEnt) : (stackOf (walkLeaves s st pasid va e) st).walks = (stackOf s st).walks := by
  rw [walkLeaves, stackOf_modStack_self]

/-- A group that waits for no walk is not among those that try again. -/
theorem retryMisses_find {k : Nat} {G : Group} (h : tabFind s.groups k = some G) (hs : G.susp ≠ .walk) :
    tabFind (retryMisses s st).groups k = some G := by
  rw [retryMisses, tabFind_map (fun e => by split <;> rfl), h]
  simp [hs]

/-- A leaf of a core's TLB changes no byte of its scratchpad. -/
theorem spadByte_modCore {c : Nat} {f : Core → Core} (hf : ∀ k, (f k).spad = k.spad) (d o : Nat) :
    spadByte (modCore s c f) d o = spadByte s d o := by
  rw [spadByte, spadByte]
  by_cases h : d = c
  · subst h; rw [coreOf_modCore_self, hf]
  · rw [show coreOf (modCore s c f) d = coreOf s d by rw [coreOf, modCore, setCore, tabGet, tabFind_put_ne _ _ h]; rfl]

/-- The state once the only walk of a stack has left it. -/
def walkGone (s : State) (st : Nat) : State := setStack s st { stackOf s st with walks := [] }
theorem walkGone_walks : (stackOf (walkGone s st) st).walks = [] := by simp [walkGone, stackOf, setStack, tabGet]
/-- Its leaf has been taken into the second level and into the TLB of the core that asked. -/
def leafTaken (s : State) (st : Nat) (w : Walk) (e : TlbEnt) : State :=
  modCore (walkLeaves (walkGone s st) st w.pasid (w.vpn * 4096) e) w.core (fun c => { c with tlb := tlbAdd c.tlb 1024 e })
/-- The state once a walk has found a leaf, and once it has ended in a fault. -/
def walkFound (s : State) (st : Nat) (w : Walk) (G : Group) (e : TlbEnt) : State :=
  retryMisses (setGroup (leafTaken s st w e) w.grp { G with susp := .run }) st
def walkFaulted (s : State) (st : Nat) (w : Walk) (G : Group) (c : Nat) : State :=
  retryMisses (setGroup (walkGone s st) w.grp { G with susp := .run, walked := some { pasid := w.pasid, vpn := w.vpn, code := c } }) st

@[simp] theorem retryMisses_mem (s : State) (st : Nat) : (retryMisses s st).mem = s.mem := rfl
@[simp] theorem retryMisses_promoted (s : State) (st : Nat) : (retryMisses s st).promoted = s.promoted := rfl
@[simp] theorem retryMisses_segments (s : State) (st : Nat) : (retryMisses s st).segments = s.segments := rfl
@[simp] theorem retryMisses_cores (s : State) (st : Nat) : (retryMisses s st).cores = s.cores := rfl
@[simp] theorem retryMisses_stks (s : State) (st : Nat) : (retryMisses s st).stks = s.stks := rfl
@[simp] theorem walkLeaves_mem (pasid va : Nat) (e : TlbEnt) : (walkLeaves s st pasid va e).mem = s.mem := rfl
@[simp] theorem walkLeaves_promoted (pasid va : Nat) (e : TlbEnt) : (walkLeaves s st pasid va e).promoted = s.promoted := rfl
@[simp] theorem walkLeaves_segments (pasid va : Nat) (e : TlbEnt) : (walkLeaves s st pasid va e).segments = s.segments := rfl
@[simp] theorem walkLeaves_cores (pasid va : Nat) (e : TlbEnt) : (walkLeaves s st pasid va e).cores = s.cores := rfl

theorem walkFound_cores (w : Walk) (G : Group) (e : TlbEnt) : (walkFound s st w G e).cores = (leafTaken s st w e).cores := by
  simp [walkFound]
theorem walkFound_stks (w : Walk) (G : Group) (e : TlbEnt) :
    (walkFound s st w G e).stks = (walkLeaves (walkGone s st) st w.pasid (w.vpn * 4096) e).stks := by
  simp [walkFound, leafTaken]
theorem walkFound_tlb (w : Walk) (G : Group) (e : TlbEnt) : e ∈ (coreOf (walkFound s st w G e) w.core).tlb := by
  rw [coreOf, walkFound_cores, ← coreOf, leafTaken, coreOf_modCore_self]
  exact mem_tlbAdd _ _ _
theorem walkFound_stack (w : Walk) (G : Group) (e : TlbEnt) : e ∈ (stackOf (walkFound s st w G e) st).tlb ∧
    (stackOf (walkFound s st w G e) st).walks = [] := by
  rw [stackOf, walkFound_stks, ← stackOf]
  exact ⟨walkLeaves_tlb _ _ _, (walkLeaves_walks _ _ _).trans walkGone_walks⟩
/-- A walk that finds a leaf changes no byte. -/
theorem walkFound_bytes (w : Walk) (G : Group) (e : TlbEnt) : SameBytes s (walkFound s st w G e) := by
  refine ⟨homeByte_congr ?_ ?_ ?_, fun c o => ?_⟩
  · simp [walkFound, leafTaken, walkGone]
  · simp [walkFound, leafTaken, walkGone]
  · simp [walkFound, leafTaken, walkGone]
  · rw [spadByte_congr (walkFound_cores w G e), leafTaken]
    exact (spadByte_modCore (by intro _; rfl) c o).trans (spadByte_congr (by simp [walkGone]) c o)

variable {w : Walk} {G : Group} (hw : (stackOf s st).walks = [w]) (hg : tabFind s.groups w.grp = some G) (hs : G.susp = .walk)
  (hc : closingP s w.pasid = false)
include hw hg hs hc

/-- A walk ends: its leaf goes into both TLBs and its group goes on, or the group keeps the cause of the fault. -/
theorem walk_ends : exec (.translationWalk st) s = .next (match walkStack s st w.pasid (w.vpn * 4096) with
    | .leaf e => walkFound s st w G e
    | .bad c => walkFaulted s st w G c) := by
  have hgone : setStack s st { stackOf s st with walks := [w].filter (fun x => !(decide (x.pasid = w.pasid) && decide (x.vpn = w.vpn))) } =
      walkGone s st := by simp [walkGone]
  have hnon : (stackOf (walkGone s st) st).nonLeaf = (stackOf s st).nonLeaf := by simp [walkGone, stackOf, setStack, tabGet]
  have hwalk := walkStack_congr (s := s) (t := walkGone s st) rfl rfl rfl rfl hnon w.pasid (w.vpn * 4096)
  have hclosing : closingP (walkGone s st) w.pasid = false := hc
  rw [exec_translationWalk, execTranslationWalk, hw]
  simp only [hgone, hclosing, hwalk, Bool.false_eq_true, if_false]
  cases walkStack s st w.pasid (w.vpn * 4096) with
  | leaf e =>
    simp [answerWalk, modGroup_of_find (s := modCore (walkLeaves (walkGone s st) st w.pasid (w.vpn * 4096) e) w.core _) hg, hs,
      walkFound, leafTaken]
  | bad c => simp [answerWalk, walkFaulted, modGroup_of_find (s := walkGone s st) hg, hs]
theorem walk_finds {e : TlbEnt} (h : walkStack s st w.pasid (w.vpn * 4096) = .leaf e) : ∃ t, exec (.translationWalk st) s = .next t ∧
    e ∈ (stackOf t st).tlb ∧ e ∈ (coreOf t w.core).tlb ∧ (stackOf t st).walks = [] ∧
    tabFind t.groups w.grp = some { G with susp := .run } ∧ SameBytes s t := by
  have hend : exec (.translationWalk st) s = .next (walkFound s st w G e) := by rw [walk_ends hw hg hs hc, h]
  obtain ⟨htlb, hwalks⟩ := walkFound_stack (s := s) (st := st) w G e
  exact ⟨_, hend, htlb, walkFound_tlb w G e, hwalks, retryMisses_find (tabFind_setGroup_self _ _ _) (by simp), walkFound_bytes w G e⟩
theorem walk_faults {c : Nat} (h : walkStack s st w.pasid (w.vpn * 4096) = .bad c) : ∃ t, exec (.translationWalk st) s = .next t ∧
    (stackOf t st).walks = [] ∧
    tabFind t.groups w.grp = some { G with susp := .run, walked := some { pasid := w.pasid, vpn := w.vpn, code := c } } ∧
    t.cores = s.cores ∧ SameBytes s t := by
  have hend : exec (.translationWalk st) s = .next (walkFaulted s st w G c) := by rw [walk_ends hw hg hs hc, h]
  exact ⟨_, hend, walkGone_walks, retryMisses_find (tabFind_setGroup_self _ _ _) (by simp), rfl, sameBytes_of rfl rfl rfl rfl⟩

end

/-! ### Promotion (R210) -/

theorem tierOf_cap_iff {pa : Nat} : tierOf pa = .cap ↔ Config.capBase ≤ pa ∧ pa < Config.capBase + Config.capBytes := by
  have hbelow : Config.hbmBytes < Config.capBase := by decide
  unfold tierOf
  constructor
  · intro h
    by_cases hh : pa < Config.hbmBytes
    · rw [if_pos hh] at h; cases h
    · by_cases hcap : Config.capBase ≤ pa ∧ pa < Config.capBase + Config.capBytes
      · exact hcap
      · rw [if_neg hh, if_neg hcap] at h
        split at h
        · cases h
        · split at h <;> cases h
  · intro h
    rw [if_neg (by omega), if_pos h]
/-- Every byte of a block of the capacity tier lies in it, above HBM. -/
theorem tierOf_cap_block {blk i : Nat} (h : tierOf (blk * 65536) = .cap) (hi : i < 65536) :
    tierOf (65536 * blk + i) = .cap ∧ Config.hbmBytes ≤ 65536 * blk := by
  have hsizes : Config.capBase = 65536 * 0x10000000 ∧ Config.capBytes = 65536 * 0x2000000 ∧ Config.hbmBytes = 65536 * 0x2400000 := by decide
  obtain ⟨hbase, hbytes, hhbm⟩ := hsizes
  rw [tierOf_cap_iff, hbase, hbytes] at h ⊢
  omega

/-- A search of the numbers from 0 up ends at the first with a result. -/
theorem findSome?_range_least {β : Type} {f : Nat → Option β} {n : Nat} {b : β} (h : (List.range n).findSome? f = some b) :
    ∃ i < n, f i = some b ∧ ∀ j < i, f j = none := by
  induction n with
  | zero => simp at h
  | succ n ih =>
    rw [List.range_succ, List.findSome?_append] at h
    cases hf : (List.range n).findSome? f with
    | some c =>
      obtain ⟨i, hi, hrest⟩ := ih (hf.trans (by rw [hf] at h; exact h))
      exact ⟨i, by omega, hrest⟩
    | none =>
      rw [hf] at h
      exact ⟨n, by omega, by simpa using h, fun j hj => List.findSome?_eq_none_iff.mp hf j (List.mem_range.mpr hj)⟩

/-- A free pool block lies in HBM. -/
theorem poolFree_hbm {s : State} {pool : Nat} (h : poolFree s = some pool) : 65536 * pool + 65536 ≤ Config.hbmBytes := by
  have hsizes : Config.stackBytes / 65536 = 0xC0000 ∧ Config.hbmBytes = 65536 * 0x2400000 := by decide
  obtain ⟨hblocks, hhbm⟩ := hsizes
  obtain ⟨st, hst, h⟩ := List.exists_of_findSome?_eq_some h
  have hst : st < 48 := List.mem_range.mp hst
  have htaken (x : Nat) (hx : x ∈ poolTaken s st) : x / 0xC0000 = st := by
    obtain ⟨e, he, rfl⟩ := List.mem_map.mp hx
    rw [← hblocks]
    exact of_decide_eq_true (List.mem_filter.mp he).2
  dsimp only at h
  split at h
  · cases h
  · next hroom =>
    have hroom : (poolTaken s st).length < poolBlocks s st := by simp at hroom; omega
    obtain ⟨i, hle, hi, hnone⟩ := findSome?_range_least h
    have htaken_below (j : Nat) (hj : j < i) : (poolFirst s st + j) / 0xC0000 = st := by
      refine htaken _ ?_
      by_contra hmem
      simpa [hmem] using hnone j hj
    split at hi
    · cases hi
    · cases hi
      have hfirst : poolFirst s st = (st + 1) * 0xC0000 - poolBlocks s st := by rw [poolFirst, hblocks]
      have hzero := htaken_below 0
      have hblock := htaken_below 0xC0000
      rw [hhbm]
      rw [hfirst] at hzero hblock ⊢
      rcases Nat.lt_or_ge ((st + 1) * 0xC0000) (poolBlocks s st) with hbig | hfits <;> omega

/-- No column cache holds a dirty word. -/
abbrev NoDirty (s : State) : Prop := ∀ e ∈ s.cores, ∀ w ∈ e.2.col, w.2.dirty = false

section
variable {s : State}

theorem dirtyLines_of_clean {k : Core} (h : ∀ w ∈ k.col, w.2.dirty = false) : dirtyLines k = [] := by
  have hnone : k.col.filter (fun e => e.2.dirty) = [] := List.filter_eq_nil_iff.mpr fun w hw => by simp [h w hw]
  rw [dirtyLines, hnone]; rfl
/-- Without dirty words a block's copies are dropped and nothing is written back. -/
theorem dropBlock_noDirty (h : NoDirty s) (blk : Nat) : NoDirty (dropBlock s blk) ∧
    ∀ c, { dropBlock s blk with cores := c } = { s with cores := c } := by
  have hfold (l : List (Nat × Core)) (hl : ∀ e ∈ l, ∀ w ∈ e.2.col, w.2.dirty = false) (t : State) (ht : NoDirty t) :
      let u := l.foldl (fun s e => modCore (((dirtyLines e.2).filter (fun l => l / 512 = blk)).foldl (fun s l => writeBackLine s e.1 l) s) e.1
        (fun k => { k with col := k.col.filter (fun x => x.1 / 16384 ≠ blk), l1 := k.l1.filter (fun x => x.1 / 16384 ≠ blk) })) t
      NoDirty u ∧ ∀ c, { u with cores := c } = { t with cores := c } := by
    induction l generalizing t with
    | nil => exact ⟨ht, fun _ => rfl⟩
    | cons e l ih =>
      obtain ⟨he, hl⟩ := List.forall_mem_cons.mp hl
      rw [List.foldl_cons, dirtyLines_of_clean he]
      refine ih hl _ fun x hx w hw => ?_
      rcases tabPut_mem hx with rfl | hx
      · exact coreOf_all (p := fun k => ∀ w ∈ k.col, w.2.dirty = false) ht (by simp [coreZero]) e.1 w (List.mem_of_mem_filter hw)
      · exact ht x hx w hw
  exact hfold s.cores h s h
theorem dropLeaves_noDirty (h : NoDirty s) (hit : TlbEnt → Bool) : NoDirty (dropLeaves s hit) := by
  intro e he
  obtain ⟨e', he', rfl⟩ := List.mem_map.mp he
  exact h e' he'
/-- Without dirty words the copies of a block drop out of caches and TLBs, and nothing else changes. -/
theorem noCopies_apart (h : NoDirty s) (blk pool : Nat) : { noCopies s blk pool with cores := s.cores, stks := s.stks } = s := by
  obtain ⟨hfirst, hfirst_apart⟩ := dropBlock_noDirty (dropLeaves_noDirty h (fun x => leafIn blk x || leafIn pool x)) blk
  obtain ⟨-, hsecond_apart⟩ := dropBlock_noDirty hfirst pool
  have hsecond := congrArg (fun t : State => { t with stks := s.stks }) (hsecond_apart s.cores)
  exact hsecond.trans (congrArg (fun t : State => { t with stks := s.stks }) (hfirst_apart s.cores))

/-! ### Copies of a block -/

/-- Memory with the first `n` bytes of a block copied. -/
def blockCopied (s : State) (src dst n : Nat) : State :=
  (List.range n).foldl (fun s i => { s with mem := memPut s.mem (65536 * dst + i) (homeByte s (65536 * src + i)) }) s
theorem blockCopied_succ (src dst n : Nat) : blockCopied s src dst (n + 1) =
    { blockCopied s src dst n with
      mem := memPut (blockCopied s src dst n).mem (65536 * dst + n) (homeByte (blockCopied s src dst n) (65536 * src + n)) } := by
  rw [blockCopied, List.range_succ, List.foldl_append]; rfl
theorem blockCopied_apart (src dst n : Nat) (m : List Host.Cell) : { blockCopied s src dst n with mem := m } = { s with mem := m } := by
  induction n with
  | zero => rfl
  | succ n ih => rw [blockCopied_succ]; exact ih

theorem blockCopied_promoted (src dst n : Nat) : (blockCopied s src dst n).promoted = s.promoted :=
  (congrArg State.promoted (blockCopied_apart src dst n s.mem) :)
theorem promoteTo_eq (blk pool : Nat) :
    promoteTo s blk pool = notePromoted (blockCopied (noCopies s blk pool) blk pool 65536) blk pool := rfl
theorem notePromoted_promoted (c : State) (blk pool : Nat) : (notePromoted c blk pool).promoted = c.promoted ++ [(blk, pool)] := rfl
/-- A promotion without dirty words changes memory, poison, the directory, and copies in caches and TLBs. -/
theorem notePromoted_apart {c u : State} (blk pool : Nat) (hc : { c with mem := s.mem } = { u with mem := s.mem })
    (hu : { u with cores := s.cores, stks := s.stks } = s) :
    { notePromoted c blk pool with mem := s.mem, poison := s.poison, promoted := s.promoted, stks := s.stks, cores := s.cores } = s :=
  (congrArg (fun t : State => { t with poison := s.poison, promoted := s.promoted, stks := s.stks, cores := s.cores }) hc).trans
    (congrArg (fun t : State => { t with mem := s.mem, poison := s.poison, promoted := s.promoted }) hu)

/-- A byte of the capacity tier whose block is not promoted lies in its own cell. -/
theorem homeByte_cap {a : Nat} (ht : tierOf a = .cap) (hp : s.promoted.find? (fun e => e.1 = a / 65536) = none) :
    homeByte s a = memByte s.mem a := by
  simp [homeByte, redirect, hp, privAlias, ht]

theorem promote_stays {blk : Nat} (h : blockReads s blk ≤ 64) : exec (.promoteBlock blk) s = .next s := by
  rw [exec_promoteBlock, execPromoteBlock, if_pos (by simp [h])]

variable {blk pool : Nat} (hp : s.promoted.all (fun e => decide (e.1 ≠ blk)) = true)
include hp

theorem unpromoted_find : s.promoted.find? (fun e => e.1 = blk) = none := by
  rw [List.find?_eq_none]
  intro e he h
  exact of_decide_eq_true (List.all_eq_true.mp hp e he) (of_decide_eq_true h)
variable (ht : tierOf (blk * 65536) = .cap)
include ht

theorem homeByte_cap_block {i : Nat} (hi : i < 65536) : homeByte s (65536 * blk + i) = memByte s.mem (65536 * blk + i) := by
  refine homeByte_cap (tierOf_cap_block ht hi).1 ?_
  rw [show (65536 * blk + i) / 65536 = blk by omega, unpromoted_find hp]
/-- The bytes of a block of the capacity tier that have been copied to HBM. -/
theorem blockCopied_bytes (hm : s.MemOk) (hpool : 65536 * pool + 65536 ≤ Config.hbmBytes) {n : Nat} (hn : n ≤ 65536) :
    (blockCopied s blk pool n).MemOk ∧ (∀ a, Config.hbmBytes ≤ a → memByte (blockCopied s blk pool n).mem a = memByte s.mem a) ∧
    ∀ i < n, memByte (blockCopied s blk pool n).mem (65536 * pool + i) = homeByte s (65536 * blk + i) := by
  induction n with
  | zero => exact ⟨hm, fun _ _ => rfl, fun i hi => absurd hi (by omega)⟩
  | succ n ih =>
    obtain ⟨hwf, hout, hin⟩ := ih (by omega)
    have habove := (tierOf_cap_block (i := 0) ht (by omega)).2
    have hprom := blockCopied_promoted (s := s) blk pool n
    have hread : homeByte (blockCopied s blk pool n) (65536 * blk + n) = homeByte s (65536 * blk + n) := by
      rw [homeByte_cap_block (hprom ▸ hp) ht (by omega), homeByte_cap_block hp ht (by omega), hout _ (by omega)]
    rw [blockCopied_succ, hread]
    refine ⟨memWf_put _ _ hwf, fun a ha => ?_, fun i hi => ?_⟩
    · exact (memByte_put_ne _ hwf (by omega)).trans (hout a ha)
    · rcases Nat.lt_succ_iff_lt_or_eq.mp hi with hi | rfl
      · exact (memByte_put_ne _ hwf (by omega)).trans (hin i hi)
      · exact memByte_put_self _ _ hwf

/-- A promoted block is read from its pool block. -/
theorem homeByte_promoted {t : State} (htp : t.promoted = s.promoted ++ [(blk, pool)]) (hpool : 65536 * pool + 65536 ≤ Config.hbmBytes)
    {i : Nat} (hi : i < 65536) : homeByte t (65536 * blk + i) = memByte t.mem (65536 * pool + i) := by
  have hredirect : redirect t (65536 * blk + i) = 65536 * pool + i := by
    rw [redirect, htp, show (65536 * blk + i) / 65536 = blk by omega, List.find?_append, unpromoted_find hp]
    simp only [List.find?_cons, decide_true, Option.none_or]
    omega
  have hcap := (tierOf_cap_block ht hi).1
  simp [homeByte, hredirect, hcap, privAlias, tierOf_hbm (show 65536 * pool + i < Config.hbmBytes by omega)]

variable (hq : blockQuiet s blk = true)
include hq

theorem mayPromote_cap : mayPromote s blk = true := by
  have hnone : s.promoted.any (fun e => decide (e.1 = blk)) = false :=
    List.any_eq_false.mpr fun e he => by simpa using List.all_eq_true.mp hp e he
  simp [mayPromote, ht, hnone, hq]
theorem promote_goes (hf : poolFree s = some pool) (h : 64 < blockReads s blk) :
    exec (.promoteBlock blk) s = .next (promoteTo s blk pool) := by
  rw [exec_promoteBlock, execPromoteBlock, if_neg (by simp [mayPromote_cap hp ht hq, h]), hf]
theorem promote_copies (hf : poolFree s = some pool) (hm : s.MemOk) (hd : NoDirty s) (h : 64 < blockReads s blk) :
    ∃ t, exec (.promoteBlock blk) s = .next t ∧ t.promoted = s.promoted ++ [(blk, pool)] ∧
      (∀ i < 65536, homeByte t (65536 * blk + i) = homeByte s (65536 * blk + i)) ∧
      (∀ i < 65536, memByte t.mem (65536 * pool + i) = homeByte s (65536 * blk + i)) ∧
      { t with mem := s.mem, poison := s.poison, promoted := s.promoted, stks := s.stks, cores := s.cores } = s := by
  have hpool := poolFree_hbm hf
  have hclear := noCopies_apart hd blk pool
  have hprom : (noCopies s blk pool).promoted = s.promoted := (congrArg State.promoted hclear :)
  have hsame (a : Nat) : homeByte (noCopies s blk pool) a = homeByte s a :=
    homeByte_congr (congrArg State.mem hclear :) hprom (congrArg State.segments hclear :) a
  have hcopied : (promoteTo s blk pool).mem = (blockCopied (noCopies s blk pool) blk pool 65536).mem := by
    rw [promoteTo_eq, notePromoted_mem]
  have hnoted : (promoteTo s blk pool).promoted = s.promoted ++ [(blk, pool)] := by
    rw [promoteTo_eq, notePromoted_promoted, blockCopied_promoted, hprom]
  obtain ⟨-, -, hbytes⟩ := blockCopied_bytes (hprom ▸ hp) ht (noCopies_memOk blk pool hm) hpool le_rfl
  have hpoolBytes (i : Nat) (hi : i < 65536) : memByte (promoteTo s blk pool).mem (65536 * pool + i) = homeByte s (65536 * blk + i) := by
    rw [hcopied, hbytes i hi, hsame]
  refine ⟨_, promote_goes hp ht hq hf h, hnoted, fun i hi => ?_, hpoolBytes, ?_⟩
  · rw [homeByte_promoted hp ht hnoted hpool hi, hpoolBytes i hi]
  · rw [promoteTo_eq]
    exact notePromoted_apart blk pool (blockCopied_apart blk pool 65536 s.mem) hclear

end

/-- Settles O29: a miss, a line, a walk and a promotion each come down to what they change. -/
theorem missesAndPromotion : Obligations.MissesAndPromotion := by
  unfold Obligations.MissesAndPromotion
  refine ⟨fun s gid pid G P lane hg hP => ⟨fetchMiss_waits, fun h => ?_⟩, fun s gid line G hg hx hr hk hl ho => ⟨fun h => ?_, ?_,
    fun h hv => lineFetch_stuck hg hx hr hk ho h hv⟩, fun s st w G hw hg hs hc => ⟨fun e h => walk_finds hw hg hs hc h,
    fun c h => walk_faults hw hg hs hc h⟩, fun s blk pool ht hp hq hf hm hd => ⟨promote_stays, promote_copies hp ht hq hf hm hd⟩⟩
  · exact ⟨_, _, fetchMiss_returns hg h, tabFind_setGroup_self _ _ _, findPath_fetchedGroup_self hP, fun q hq => findPath_fetchedGroup_ne hq, rfl, rfl⟩
  · exact ⟨_, _, lineFetch_room hg hx hr hk ho h, tabFind_setGroup_self _ _ _, lineIn_lines hl, lineIn_apart, fun key => mem_poisonLine, rfl,
      fun k hkg => tabFind_put_ne _ _ hkg⟩
  · intro v H at_ h hv hne hH ha hm hp hclean place o hplace
    have hG' : { lineIn (victimOut s v H) line G with lines := G.lines, lineUse := G.lineUse } = G :=
      congrArg (fun x : Group => { x with lines := G.lines, lineUse := G.lineUse }) (poisonLine_victimOut hclean)
    exact ⟨_, _, _, lineFetch_swaps hg hx hr hk ho h hv hne hH, tabFind_setGroup_self _ _ _, lineSwapped_victim hne, lineIn_lines hl, hG',
      fun k hk => lineOut_lines hk, rfl, fun i hi => lineSwapped_words ha hm hp hplace hi, fun a hhbm hout => lineSwapped_out ha hm hp hplace hhbm hout,
      lineSwapped_apart, fun k hkg hkv => lineSwapped_others hkg hkv⟩

end Sys2Proof.Machine
end

section
/-! # What a Garnet context gives back (R122, R124)

A context's lane goes back to its group with the registers of the live set that it wrote, its predicates and its sticky flags; a recalled lane
goes on in a path, or waits in a recall entry. -/
namespace Sys2Proof.Machine

/-! ### Rejoin slots -/

theorem slotAt_setSlot {g : Group} {t : Nat} (x : RjSlot) (ht : t < g.slots.length) (k : Nat) :
    slotAt (setSlot g t x) k = if k = t then x else slotAt g k := by
  simp only [slotAt, setSlot, List.getElem?_set]
  by_cases h : t = k
  · subst h; simp [ht]
  · simp [h, Ne.symm h]
theorem slotAt_setSlot_self {g : Group} {t : Nat} (x : RjSlot) (ht : t < g.slots.length) : slotAt (setSlot g t x) t = x := by
  rw [slotAt_setSlot x ht, if_pos rfl]
theorem tag_lt_slots {g : Group} (h : g.slots.length = 4) (t : BitVec 2) : t.toNat < g.slots.length := h ▸ t.isLt
theorem slotAt_congr {g g' : Group} (h : g'.slots = g.slots) (k : Nat) : slotAt g' k = slotAt g k := by rw [slotAt, slotAt, h]

/-- Stopping timers leaves the lanes of the slots alone. -/
theorem slotAt_stopTimers (g : Group) (tags : BitVec 4) (k : Nat) :
    { slotAt (stopTimers g tags) k with timer := (slotAt g k).timer } = slotAt g k := by
  simp only [slotAt, stopTimers, List.getElem?_mapIdx]
  cases g.slots[k]? with
  | none => rfl
  | some x => simp only [Option.map_some, Option.getD_some]; split <;> rfl

/-! ### The lane's registers, predicates and flags -/

section
variable {g x : Group} {i : Garnet}

/-- The group once the registers below `n` have been given back. -/
def wordsBack (g x : Group) (i : Garnet) (n : Nat) : Group :=
  (List.range n).foldl (fun (g : Group) v =>
    if i.live.getLsbD v && i.written.getLsbD v then
      vWrite g (vKey v i.lane) (tabGet 0 x.vreg (vKey v i.lane)) (decide (vKey v i.lane ∈ x.vpoison))
    else g) g
/-- The group once the predicates `p1` up to `p(n)` have been given back. -/
def predsBack (g x : Group) (i : Garnet) (n : Nat) : Group :=
  (List.range n).foldl (fun g n => pWrite g (n + 1) i.lane ((tabGet 0 x.pred (n + 1)).getLsbD i.lane)) g

theorem writeBackLane_eq : writeBackLane g x i =
    { predsBack (wordsBack g x i 384) x i 7 with fpflags := (predsBack (wordsBack g x i 384) x i 7).fpflags ||| x.fpflags } := rfl

theorem wordsBack_succ (n : Nat) : wordsBack g x i (n + 1) =
    if i.live.getLsbD n && i.written.getLsbD n then
      vWrite (wordsBack g x i n) (vKey n i.lane) (tabGet 0 x.vreg (vKey n i.lane)) (decide (vKey n i.lane ∈ x.vpoison))
    else wordsBack g x i n := by
  simp only [wordsBack, List.range_succ, List.foldl_append, List.foldl_cons, List.foldl_nil]
theorem predsBack_succ (n : Nat) : predsBack g x i (n + 1) =
    pWrite (predsBack g x i n) (n + 1) i.lane ((tabGet 0 x.pred (n + 1)).getLsbD i.lane) := by
  simp only [predsBack, List.range_succ, List.foldl_append, List.foldl_cons, List.foldl_nil]

theorem wordsBack_apart (n : Nat) : { wordsBack g x i n with vreg := g.vreg, vpoison := g.vpoison } = g := by
  induction n with
  | zero => rfl
  | succ n ih => rw [wordsBack_succ]; split <;> exact ih
theorem predsBack_apart (n : Nat) : { predsBack g x i n with pred := g.pred } = g := by
  induction n with
  | zero => rfl
  | succ n ih => rw [predsBack_succ]; exact ih

theorem wordsBack_fields (n : Nat) : (wordsBack g x i n).pred = g.pred ∧ (wordsBack g x i n).fpflags = g.fpflags := by
  have h := wordsBack_apart (g := g) (x := x) (i := i) n
  exact ⟨by simpa using congrArg Group.pred h, by simpa using congrArg Group.fpflags h⟩
theorem predsBack_fields (n : Nat) : (predsBack g x i n).vreg = g.vreg ∧ (predsBack g x i n).fpflags = g.fpflags := by
  have h := predsBack_apart (g := g) (x := x) (i := i) n
  exact ⟨by simpa using congrArg Group.vreg h, by simpa using congrArg Group.fpflags h⟩

theorem wordsBack_wf (n : Nat) (hg : tabWf 0 g.vreg = true) : tabWf 0 (wordsBack g x i n).vreg = true := by
  induction n with
  | zero => exact hg
  | succ n ih =>
    rw [wordsBack_succ]
    split
    · exact tabWf_set _ _ ih
    · exact ih
theorem predsBack_wf (n : Nat) (hg : tabWf 0 g.pred = true) : tabWf 0 (predsBack g x i n).pred = true := by
  induction n with
  | zero => exact hg
  | succ n ih => rw [predsBack_succ]; exact tabWf_set _ _ ih

theorem wordsBack_get (n : Nat) (hg : tabWf 0 g.vreg = true) (hlane : i.lane < 96) (v : Nat) {l : Nat} (hl : l < 96) :
    tabGet 0 (wordsBack g x i n).vreg (vKey v l) =
      if l = i.lane ∧ v < n ∧ i.live.getLsbD v = true ∧ i.written.getLsbD v = true then tabGet 0 x.vreg (vKey v l)
      else tabGet 0 g.vreg (vKey v l) := by
  induction n with
  | zero => simp [wordsBack]
  | succ n ih =>
    have hkey : vKey v l = vKey n i.lane ↔ v = n ∧ l = i.lane := vKey_inj hl hlane
    rw [wordsBack_succ]
    by_cases hn : i.live.getLsbD n && i.written.getLsbD n
    · rw [if_pos hn, vWrite, tabGet_set _ _ _ (wordsBack_wf n hg), ih]
      by_cases hv : v = n ∧ l = i.lane
      · obtain ⟨rfl, rfl⟩ := hv
        have hn := Bool.and_eq_true_iff.mp hn
        rw [if_pos rfl, if_pos ⟨rfl, Nat.lt_succ_self v, hn⟩]
      · rw [if_neg (fun h => hv (hkey.mp h))]
        refine if_congr ⟨fun ⟨h1, h2, h3⟩ => ⟨h1, by omega, h3⟩, fun ⟨h1, h2, h3⟩ => ⟨h1, ?_, h3⟩⟩ rfl rfl
        have : v ≠ n := fun e => hv ⟨e, h1⟩
        omega
    · rw [if_neg hn, ih]
      refine if_congr ⟨fun ⟨h1, h2, h3⟩ => ⟨h1, by omega, h3⟩, fun ⟨h1, h2, h3, h4⟩ => ⟨h1, ?_, h3, h4⟩⟩ rfl rfl
      have : v ≠ n := fun e => hn (by rw [← e, h3, h4]; rfl)
      omega

theorem getLsbD_setLane (m : Mask) {lane : Nat} (hlane : lane < 96) (v : Bool) (l : Nat) :
    (if v then m ||| laneBit lane else m &&& ~~~ laneBit lane).getLsbD l = if l = lane then v else m.getLsbD l := by
  by_cases hl : l < 96
  · have hbit : (laneBit lane).getLsbD l = decide (l = lane) := Bool.eq_iff_iff.mpr (by simpa using laneBit_getLsbD hl)
    cases v with
    | false =>
      rw [if_neg Bool.false_ne_true, BitVec.getLsbD_and, BitVec.getLsbD_not, hbit, decide_eq_true hl]
      by_cases h : l = lane <;> simp [h]
    | true =>
      rw [if_pos rfl, BitVec.getLsbD_or, hbit]
      by_cases h : l = lane <;> simp [h]
  · have h : l ≠ lane := fun e => hl (e ▸ hlane)
    have hge : 96 ≤ l := Nat.le_of_not_lt hl
    rw [if_neg h, BitVec.getLsbD_of_ge _ _ hge, BitVec.getLsbD_of_ge _ _ hge]
theorem getLsbD_pWrite (hg : tabWf 0 g.pred = true) (n : Nat) {lane : Nat} (hlane : lane < 96) (v : Bool) (k l : Nat) :
    (tabGet 0 (pWrite g n lane v).pred k).getLsbD l = if k = n ∧ l = lane then v else (tabGet 0 g.pred k).getLsbD l := by
  rw [pWrite, tabGet_set _ _ _ hg]
  by_cases hk : k = n
  · rw [if_pos hk, getLsbD_setLane _ hlane, hk]
    simp
  · rw [if_neg hk, if_neg (fun h => hk h.1)]

theorem predsBack_get (n : Nat) (hg : tabWf 0 g.pred = true) (hlane : i.lane < 96) (k l : Nat) :
    (tabGet 0 (predsBack g x i n).pred k).getLsbD l =
      if l = i.lane ∧ 1 ≤ k ∧ k ≤ n then (tabGet 0 x.pred k).getLsbD l else (tabGet 0 g.pred k).getLsbD l := by
  induction n with
  | zero => rw [if_neg (by omega)]; rfl
  | succ n ih =>
    rw [predsBack_succ, getLsbD_pWrite (predsBack_wf n hg) _ hlane, ih]
    by_cases hk : k = n + 1 ∧ l = i.lane
    · obtain ⟨rfl, rfl⟩ := hk
      simp
    · rw [if_neg hk]
      exact if_congr (by omega) rfl rfl

theorem writeBackLane_apart :
    { writeBackLane g x i with vreg := g.vreg, vpoison := g.vpoison, pred := g.pred, fpflags := g.fpflags } = g := by
  have hw := wordsBack_apart (g := g) (x := x) (i := i) 384
  have hp := predsBack_apart (g := wordsBack g x i 384) (x := x) (i := i) 7
  rw [writeBackLane_eq]
  generalize predsBack (wordsBack g x i 384) x i 7 = q at hp ⊢
  generalize wordsBack g x i 384 = w at hw hp
  calc { q with vreg := g.vreg, vpoison := g.vpoison, pred := g.pred, fpflags := g.fpflags }
      = { ({ q with pred := w.pred } : Group) with vreg := g.vreg, vpoison := g.vpoison, pred := g.pred, fpflags := g.fpflags } := rfl
    _ = { ({ w with vreg := g.vreg, vpoison := g.vpoison } : Group) with pred := g.pred, fpflags := g.fpflags } := by rw [hp]
    _ = g := by rw [hw]
theorem writeBackLane_paths : (writeBackLane g x i).paths = g.paths := by
  simpa using congrArg Group.paths (writeBackLane_apart (g := g) (x := x) (i := i))
theorem writeBackLane_slots : (writeBackLane g x i).slots = g.slots := by
  simpa using congrArg Group.slots (writeBackLane_apart (g := g) (x := x) (i := i))
theorem writeBackLane_recalls : (writeBackLane g x i).recalls = g.recalls := by
  simpa using congrArg Group.recalls (writeBackLane_apart (g := g) (x := x) (i := i))
theorem writeBackLane_fpflags : (writeBackLane g x i).fpflags = g.fpflags ||| x.fpflags := by
  rw [writeBackLane_eq, (predsBack_fields 7).2, (wordsBack_fields 384).2]
theorem writeBackLane_vreg (hg : g.RegsOk) (hlane : i.lane < 96) (v l : Nat) (hl : l < 96) :
    tabGet 0 (writeBackLane g x i).vreg (vKey v l) =
      if l = i.lane ∧ v < 384 ∧ i.live.getLsbD v = true ∧ i.written.getLsbD v = true then tabGet 0 x.vreg (vKey v l)
      else tabGet 0 g.vreg (vKey v l) := by
  rw [writeBackLane_eq, (predsBack_fields 7).1, wordsBack_get 384 hg.2.1 hlane v hl]
theorem writeBackLane_pred (hg : g.RegsOk) (hlane : i.lane < 96) (n l : Nat) :
    (tabGet 0 (writeBackLane g x i).pred n).getLsbD l =
      if l = i.lane ∧ 1 ≤ n ∧ n ≤ 7 then (tabGet 0 x.pred n).getLsbD l else (tabGet 0 g.pred n).getLsbD l := by
  have hw : (wordsBack g x i 384).pred = g.pred := (wordsBack_fields 384).1
  rw [writeBackLane_eq, predsBack_get 7 (hw ▸ hg.2.2) hlane, hw]

end

/-! ### Where a recalled lane goes on (R124) -/

/-- A path, or a recall entry, holds the lanes of a mask at a place. -/
def HoldsAt (g : Group) (m : Mask) (spc lpc : Word) : Prop :=
  (∃ q ∈ g.paths, q.mask &&& m = m ∧ q.spc = spc ∧ q.lpc = lpc) ∨ ∃ e ∈ g.recalls, e.mask &&& m = m ∧ e.spc = spc ∧ e.lpc = lpc

theorem or_and_keeps {a m : Mask} (b : Mask) (h : a &&& m = m) : (a ||| b) &&& m = m := by
  rw [BitVec.and_comm, BitVec.and_or_distrib_left, BitVec.and_comm m a, h]
  ext k hk
  simp only [BitVec.getElem_and, BitVec.getElem_or]
  cases m[k] <;> rfl
theorem or_and_right (a b : Mask) : (a ||| b) &&& b = b := by
  ext k hk
  simp only [BitVec.getElem_and, BitVec.getElem_or]
  cases a[k] <;> cases b[k] <;> rfl
theorem getLsbD_of_and_laneBit {m : Mask} {l : Nat} (hl : l < 96) (h : m &&& laneBit l = laneBit l) : m.getLsbD l = true := by
  have hbit : (laneBit l).getLsbD l = true := (laneBit_getLsbD hl).mpr rfl
  rw [← h, BitVec.getLsbD_and] at hbit
  exact (Bool.and_eq_true_iff.mp hbit).1

section
variable {g : Group} {e : RecallEnt}

/-- The path that a recall entry becomes in a free entry of the split table. -/
def recalledPath (n : Nat) (e : RecallEnt) : Path :=
  { pathNew n e.spc e.lpc e.mask with
    queue := e.queue, running := e.running, tags := e.tags, sig := e.sig, recalled := true, hold := if e.ljmp then .ljmp else .free }
/-- The path that has taken in a recalled lane. -/
def joinedPath (q : Path) (e : RecallEnt) : Path := { q with mask := q.mask ||| e.mask, owned := q.owned ||| e.mask }
/-- The recall entries once a lane has joined those that stand for its place. -/
def joinedEntries (g : Group) (e : RecallEnt) : List RecallEnt :=
  g.recalls.map (fun x => if sharesEntry x e then { x with mask := x.mask ||| e.mask } else x)

/-- A lane without a trap joins a path, becomes one, joins a recall entry, or becomes one. -/
theorem placeRecalled_cases (ht : e.trap = none) :
    (∃ q ∈ g.paths, sharesPath q e = true ∧ placeRecalled g e = putPath (stopTimers g e.tags) (joinedPath q e)) ∨
    (∃ n, freeEntry g = some n ∧ placeRecalled g e = { stopTimers g e.tags with paths := g.paths ++ [recalledPath n e] }) ∨
    (∃ x ∈ g.recalls, sharesEntry x e = true ∧ placeRecalled g e = { stopTimers g e.tags with recalls := joinedEntries g e }) ∨
    placeRecalled g e = { stopTimers g e.tags with recalls := g.recalls ++ [e] } := by
  unfold placeRecalled
  extract_lets g'
  cases hq : g'.paths.find? (fun q => sharesPath q e && !hasDue g' q.id) with
  | some q => exact .inl ⟨q, List.mem_of_find?_eq_some hq, (by simpa using List.find?_some hq : _ ∧ _).1, rfl⟩
  | none =>
    cases hn : freeEntry g' with
    | some n => exact .inr (.inl ⟨n, hn, by rw [ht]; rfl⟩)
    | none =>
      cases hx : g'.recalls.find? (fun x => sharesEntry x e) with
      | some x => exact .inr (.inr (.inl ⟨x, List.mem_of_find?_eq_some hx, by simpa using List.find?_some hx, rfl⟩))
      | none => exact .inr (.inr (.inr rfl))

theorem sharesPath_place {q : Path} (h : sharesPath q e = true) : q.hold = .free ∧ q.spc = e.spc ∧ q.lpc = e.lpc := by
  simp only [sharesPath, Bool.and_eq_true, decide_eq_true_eq] at h
  exact ⟨by tauto, by tauto, by tauto⟩

/-- Whatever becomes of the lane, only paths, slots and recall entries change. -/
theorem placeRecalled_apart (ht : e.trap = none) :
    { placeRecalled g e with paths := g.paths, slots := g.slots, recalls := g.recalls } = g := by
  rcases placeRecalled_cases (g := g) ht with ⟨_, _, _, h⟩ | ⟨_, _, h⟩ | ⟨_, _, _, h⟩ | h <;> (rw [h]; rfl)
theorem placeRecalled_slots (ht : e.trap = none) : (placeRecalled g e).slots = (stopTimers g e.tags).slots := by
  rcases placeRecalled_cases (g := g) ht with ⟨_, _, _, h⟩ | ⟨_, _, h⟩ | ⟨_, _, _, h⟩ | h <;> rw [h]
  rfl

theorem mem_putPath {p q : Path} (hp : p ∈ g.paths) : (if p.id = q.id then q else p) ∈ (putPath g q).paths :=
  List.mem_map.mpr ⟨p, hp, rfl⟩
theorem mem_joinedEntries {x : RecallEnt} (hx : x ∈ g.recalls) :
    (if sharesEntry x e then { x with mask := x.mask ||| e.mask } else x) ∈ joinedEntries g e := List.mem_map.mpr ⟨x, hx, rfl⟩

/-- The lane is held at its own place. -/
theorem placeRecalled_holds (ht : e.trap = none) : HoldsAt (placeRecalled g e) e.mask e.spc e.lpc := by
  rcases placeRecalled_cases (g := g) ht with ⟨q, hq, hs, h⟩ | ⟨n, -, h⟩ | ⟨x, hx, hs, h⟩ | h <;> rw [h]
  · obtain ⟨-, hspc, hlpc⟩ := sharesPath_place hs
    have hmem := mem_putPath (g := stopTimers g e.tags) (q := joinedPath q e) hq
    rw [if_pos (show q.id = (joinedPath q e).id from rfl)] at hmem
    exact .inl ⟨_, hmem, or_and_right _ _, hspc, hlpc⟩
  · exact .inl ⟨recalledPath n e, List.mem_append_right _ (List.mem_singleton.mpr rfl), BitVec.and_self, rfl, rfl⟩
  · have hmem := mem_joinedEntries (e := e) hx
    rw [if_pos hs] at hmem
    simp only [sharesEntry, Bool.and_eq_true, decide_eq_true_eq] at hs
    exact .inr ⟨_, hmem, or_and_right _ _, by tauto, by tauto⟩
  · exact .inr ⟨e, List.mem_append_right _ (List.mem_singleton.mpr rfl), BitVec.and_self, rfl, rfl⟩

theorem eq_of_id_eq {ps : List Path} (hn : (ps.map (fun q => q.id)).Nodup) {p q : Path} (hp : p ∈ ps) (hq : q ∈ ps) (h : p.id = q.id) : p = q :=
  List.inj_on_of_nodup_map hn hp hq h

/-- Lanes that are held stay held where each path has a number of its own. -/
theorem HoldsAt.placeRecalled {m : Mask} {spc lpc : Word} (h : HoldsAt g m spc lpc) (ht : e.trap = none)
    (hn : (g.paths.map (fun q => q.id)).Nodup) : HoldsAt (placeRecalled g e) m spc lpc := by
  rcases placeRecalled_cases (g := g) ht with ⟨q, hq, hs, he⟩ | ⟨n, -, he⟩ | ⟨x, hx, hs, he⟩ | he <;> rw [he] <;>
    rcases h with ⟨p, hp, hm, hspc, hlpc⟩ | ⟨y, hy, hm, hspc, hlpc⟩
  · have hmem := mem_putPath (g := stopTimers g e.tags) (q := joinedPath q e) hp
    split at hmem
    · next hid =>
      obtain rfl := eq_of_id_eq hn hp hq hid
      exact .inl ⟨_, hmem, or_and_keeps _ hm, hspc, hlpc⟩
    · exact .inl ⟨p, hmem, hm, hspc, hlpc⟩
  · exact .inr ⟨y, hy, hm, hspc, hlpc⟩
  · exact .inl ⟨p, List.mem_append_left _ hp, hm, hspc, hlpc⟩
  · exact .inr ⟨y, hy, hm, hspc, hlpc⟩
  · exact .inl ⟨p, hp, hm, hspc, hlpc⟩
  · have hmem := mem_joinedEntries (e := e) hy
    split at hmem
    · exact .inr ⟨_, hmem, or_and_keeps _ hm, hspc, hlpc⟩
    · exact .inr ⟨y, hmem, hm, hspc, hlpc⟩
  · exact .inl ⟨p, hp, hm, hspc, hlpc⟩
  · exact .inr ⟨y, List.mem_append_left _ hy, hm, hspc, hlpc⟩

theorem putPath_ids (q : Path) : (putPath g q).paths.map (fun p => p.id) = g.paths.map (fun p => p.id) := by
  rw [putPath, List.map_map]
  refine List.map_congr_left fun p _ => ?_
  show (if p.id = q.id then q else p).id = p.id
  split
  · next h => exact h.symm
  · rfl
theorem freeEntry_unused {n : Nat} (h : freeEntry g = some n) : ∀ q ∈ g.paths, q.id ≠ n := by
  have hn : findPath g n = none := by simpa using List.find?_some h
  simpa [findPath] using hn

theorem placeRecalled_ids (ht : e.trap = none) (hn : (g.paths.map (fun q => q.id)).Nodup) :
    ((placeRecalled g e).paths.map (fun q => q.id)).Nodup := by
  rcases placeRecalled_cases (g := g) ht with ⟨q, -, -, h⟩ | ⟨n, hf, h⟩ | ⟨_, _, _, h⟩ | h <;> rw [h]
  · exact (putPath_ids (g := stopTimers g e.tags) _).symm ▸ hn
  · rw [List.map_append]
    refine List.Nodup.append hn (List.nodup_singleton _) fun k hk hk' => ?_
    obtain ⟨q, hq, rfl⟩ := List.mem_map.mp hk
    exact freeEntry_unused hf q hq (List.mem_singleton.mp hk')
  · exact hn
  · exact hn
/-- A path that waits takes in no recalled lane. -/
theorem placeRecalled_findPath (ht : e.trap = none) (hn : (g.paths.map (fun q => q.id)).Nodup) {n : Nat} {p : Path}
    (hp : findPath g n = some p) (hh : p.hold ≠ .free) : findPath (placeRecalled g e) n = some p := by
  rcases placeRecalled_cases (g := g) ht with ⟨q, hq, hs, h⟩ | ⟨n, -, h⟩ | ⟨_, _, _, h⟩ | h <;> rw [h]
  · rw [findPath_putPath_ne (q := joinedPath q e)]
    · exact hp
    · rintro rfl
      obtain rfl := eq_of_id_eq hn (List.mem_of_find?_eq_some hp) hq (findPath_id hp)
      exact hh (sharesPath_place hs).1
  · exact (List.find?_append ..).trans (by rw [show g.paths.find? _ = some p from hp]; rfl)
  · exact hp
  · exact hp
end

/-! ### Recalling a context (R124) -/

/-- The recall entry of a context's lane. -/
def recalledEnt (i : Garnet) (p : Path) : RecallEnt :=
  { spc := p.spc, lpc := p.lpc, queue := p.queue, running := p.running, mask := laneBit i.lane, tag := i.tag, tags := i.tags,
    sig := p.sig, ljmp := decide (p.hold = .ljmp) }
/-- The group to which context `c` has returned its lane in clock `t`, but for the lane's place. -/
def backFrom (t : Nat) (c : Group) (i : Garnet) (g : Group) : Group :=
  let g := writeBackLane g (landAll c (t + 64)) i
  setSlot g i.tag.toNat { slotAt g i.tag.toNat with rjm := (slotAt g i.tag.toNat).rjm &&& ~~~ laneBit i.lane }
/-- The group into which context `c` has been recalled. -/
def recalledInto (t : Nat) (c : Group) (i : Garnet) (p : Path) (g : Group) : Group := placeRecalled (backFrom t c i g) (recalledEnt i p)

section
variable {s : State} {k : Nat} {c g : Group} {i : Garnet} {p : Path} {ps : List Path}

theorem recallCtx_eq (hc : tabFind s.groups k = some c) (hi : c.garnet = some i) (hp : c.paths = p :: ps)
    (hg : tabFind s.groups i.parent = some g) (hne : i.parent ≠ k) (hs : tabSorted s.groups = true) :
    recallCtx s k = { s with groups := tabPut (tabDel s.groups k) i.parent (recalledInto s.clock c i p g) } := by
  have hg' : tabFind (tabDel s.groups k) i.parent = some g := (tabFind_del_ne hs hne).trans hg
  simp only [recallCtx, hc, hi, hp]
  exact modGroup_of_find (s := { s with groups := tabDel s.groups k }) hg' _

theorem takeDue_of_no_due (hg : tabFind s.groups k = some g) (hd : g.due = []) : takeDue s k = s := by
  simp only [takeDue, hg, hd]

/-- What the group keeps. -/
theorem recalledInto_apart (t : Nat) : { recalledInto t c i p g with
    vreg := g.vreg, vpoison := g.vpoison, pred := g.pred, fpflags := g.fpflags, paths := g.paths, slots := g.slots, recalls := g.recalls } = g := by
  have h := placeRecalled_apart (g := backFrom t c i g) (e := recalledEnt i p) rfl
  have hw := writeBackLane_apart (g := g) (x := landAll c (t + 64)) (i := i)
  rw [recalledInto]
  generalize placeRecalled (backFrom t c i g) (recalledEnt i p) = r at h ⊢
  unfold backFrom at h
  generalize writeBackLane g (landAll c (t + 64)) i = w at h hw
  generalize hb : setSlot w i.tag.toNat _ = b at h
  calc { r with vreg := g.vreg, vpoison := g.vpoison, pred := g.pred, fpflags := g.fpflags, paths := g.paths, slots := g.slots, recalls := g.recalls }
      = { ({ r with paths := b.paths, slots := b.slots, recalls := b.recalls } : Group) with
          vreg := g.vreg, vpoison := g.vpoison, pred := g.pred, fpflags := g.fpflags, paths := g.paths, slots := g.slots, recalls := g.recalls } := rfl
    _ = { b with vreg := g.vreg, vpoison := g.vpoison, pred := g.pred, fpflags := g.fpflags, paths := g.paths, slots := g.slots, recalls := g.recalls } := by
        rw [h]
    _ = { ({ w with vreg := g.vreg, vpoison := g.vpoison, pred := g.pred, fpflags := g.fpflags } : Group) with
          paths := g.paths, slots := g.slots, recalls := g.recalls } := by rw [← hb]; rfl
    _ = g := by rw [hw]
theorem recalledInto_sreg {t : Nat} : (recalledInto t c i p g).sreg = g.sreg := by
  simpa using congrArg Group.sreg (recalledInto_apart (c := c) (i := i) (p := p) (g := g) t)
theorem recalledInto_pend {t : Nat} : (recalledInto t c i p g).pend = g.pend := by
  simpa using congrArg Group.pend (recalledInto_apart (c := c) (i := i) (p := p) (g := g) t)
theorem recalledInto_reqs {t : Nat} : (recalledInto t c i p g).reqs = g.reqs := by
  simpa using congrArg Group.reqs (recalledInto_apart (c := c) (i := i) (p := p) (g := g) t)
theorem recalledInto_flags {t : Nat} : (recalledInto t c i p g).flags = g.flags := by
  simpa using congrArg Group.flags (recalledInto_apart (c := c) (i := i) (p := p) (g := g) t)
theorem recalledInto_due {t : Nat} : (recalledInto t c i p g).due = g.due := by
  simpa using congrArg Group.due (recalledInto_apart (c := c) (i := i) (p := p) (g := g) t)
theorem recalledInto_handler {t : Nat} : (recalledInto t c i p g).handler = g.handler := by
  simpa using congrArg Group.handler (recalledInto_apart (c := c) (i := i) (p := p) (g := g) t)

/-! What the lane brings back. -/

theorem backFrom_paths_recalls {t : Nat} : (backFrom t c i g).paths = g.paths ∧ (backFrom t c i g).recalls = g.recalls := by
  have hp := writeBackLane_paths (g := g) (x := landAll c (t + 64)) (i := i)
  have hr := writeBackLane_recalls (g := g) (x := landAll c (t + 64)) (i := i)
  unfold backFrom
  generalize writeBackLane g (landAll c (t + 64)) i = w at hp hr ⊢
  exact ⟨hp, hr⟩
theorem recalledInto_regs {t : Nat} : (recalledInto t c i p g).vreg = (writeBackLane g (landAll c (t + 64)) i).vreg ∧
    (recalledInto t c i p g).pred = (writeBackLane g (landAll c (t + 64)) i).pred ∧
    (recalledInto t c i p g).fpflags = (writeBackLane g (landAll c (t + 64)) i).fpflags := by
  have h := placeRecalled_apart (g := backFrom t c i g) (e := recalledEnt i p) rfl
  rw [recalledInto]
  generalize placeRecalled (backFrom t c i g) (recalledEnt i p) = r at h ⊢
  unfold backFrom at h
  generalize writeBackLane g (landAll c (t + 64)) i = w at h ⊢
  exact ⟨by simpa [setSlot] using congrArg Group.vreg h, by simpa [setSlot] using congrArg Group.pred h, by simpa [setSlot] using congrArg Group.fpflags h⟩
theorem recalledInto_vreg {t : Nat} (hg : g.RegsOk) (hlane : i.lane < 96) (v l : Nat) (hl : l < 96) :
    tabGet 0 (recalledInto t c i p g).vreg (vKey v l) =
      if l = i.lane ∧ v < 384 ∧ i.live.getLsbD v = true ∧ i.written.getLsbD v = true then tabGet 0 (landAll c (t + 64)).vreg (vKey v l)
      else tabGet 0 g.vreg (vKey v l) := by
  rw [recalledInto_regs.1, writeBackLane_vreg hg hlane v l hl]
theorem recalledInto_pred {t : Nat} (hg : g.RegsOk) (hlane : i.lane < 96) (n l : Nat) :
    (tabGet 0 (recalledInto t c i p g).pred n).getLsbD l =
      if l = i.lane ∧ 1 ≤ n ∧ n ≤ 7 then (tabGet 0 (landAll c (t + 64)).pred n).getLsbD l else (tabGet 0 g.pred n).getLsbD l := by
  rw [recalledInto_regs.2.1, writeBackLane_pred hg hlane]
theorem recalledInto_fpflags {t : Nat} : (recalledInto t c i p g).fpflags = g.fpflags ||| (landAll c (t + 64)).fpflags :=
  recalledInto_regs.2.2.trans writeBackLane_fpflags

/-- Stopping timers keeps what a slot still waits for. -/
theorem slotAt_stopTimers_rjm (g : Group) (tags : BitVec 4) (k : Nat) : (slotAt (stopTimers g tags) k).rjm = (slotAt g k).rjm := by
  simpa using congrArg RjSlot.rjm (slotAt_stopTimers g tags k)
theorem recalledInto_rjm {t : Nat} (hlen : g.slots.length = 4) (k : Nat) : (slotAt (recalledInto t c i p g) k).rjm =
    if k = i.tag.toNat then (slotAt g k).rjm &&& ~~~ laneBit i.lane else (slotAt g k).rjm := by
  have hw : (writeBackLane g (landAll c (t + 64)) i).slots = g.slots := writeBackLane_slots
  rw [recalledInto, slotAt_congr (placeRecalled_slots rfl), slotAt_stopTimers_rjm, backFrom,
    slotAt_setSlot _ (tag_lt_slots (hw.symm ▸ hlen) _), slotAt_congr hw, slotAt_congr hw]
  split
  · next h => rw [h]
  · rfl
theorem stopTimers_length (g : Group) (tags : BitVec 4) : (stopTimers g tags).slots.length = g.slots.length := List.length_mapIdx ..
theorem recalledInto_length {t : Nat} : (recalledInto t c i p g).slots.length = g.slots.length := by
  rw [recalledInto, placeRecalled_slots rfl, stopTimers_length, backFrom, setSlot, List.length_set, writeBackLane_slots]

end

end Sys2Proof.Machine
end

section
/-! # Ejection into Garnet contexts, and recall (O18)

A granted ejection puts one context for each lane of the smaller side under a fresh number, at a free place of the pool of its own. -/
namespace Sys2Proof.Machine

/-! ### Places in the pool (R15, R121) -/

section
variable {s : State} {st n : Nat}

/-- The places that the contexts of a stack hold. -/
def usedPlaces (s : State) (st : Nat) : List Nat :=
  (s.groups.filter (fun e => e.2.garnet.isSome && decide (stackNo e.2.core = st))).map (fun e => e.2.place)

theorem length_usedPlaces : (usedPlaces s st).length = poolUsed s st := List.length_map ..
theorem mem_freeContexts : n ∈ freeContexts s st ↔ n < 128 ∧ n ∉ usedPlaces s st := by
  simp [freeContexts, usedPlaces, Config.poolContexts]
theorem freeContexts_nodup : (freeContexts s st).Nodup := List.nodup_range.filter _
/-- What the contexts of a stack leave of its pool of 128 is free. -/
theorem length_freeContexts : 128 ≤ poolUsed s st + (freeContexts s st).length := by
  have hused : ((List.range 128).filter (fun i => decide (i ∈ usedPlaces s st))).length ≤ poolUsed s st :=
    length_usedPlaces ▸ ((List.nodup_range.filter _).subperm (fun x hx => by simpa using (List.mem_filter.mp hx).2)).length_le
  have hsplit := List.length_eq_length_filter_add (l := List.range 128) (fun i => decide (i ∈ usedPlaces s st))
  rw [List.length_range] at hsplit
  have hfree : (freeContexts s st).length = ((List.range 128).filter (fun i => !decide (i ∈ usedPlaces s st))).length := rfl
  omega
end

/-! ### A context (R122) -/

section
variable {gid lane place since : Nat} {g : Group} {p : Path} {pc sig : Word} {t : BitVec 2} {live : BitVec 384}

theorem vKey_div {v l : Nat} (hl : l < 96) : vKey v l / 96 = v ∧ vKey v l % 96 = l := by unfold vKey; omega

/-- It holds the lane's registers of the live set. -/
theorem makeContext_vreg (hg : g.RegsOk) (hl : lane < 96) {v : Nat} (hv : live.getLsbD v = true) :
    tabFind (makeContext gid g p lane pc t live sig place since).vreg (vKey v lane) = tabFind g.vreg (vKey v lane) := by
  have hkey : (live.getLsbD (vKey v lane / 96) && decide (vKey v lane % 96 = lane)) = true := by
    rw [(vKey_div hl).1, (vKey_div hl).2, hv, decide_eq_true rfl]; rfl
  refine (tabFind_filter _ _ (tabWf_iff.mp hg.2.1).1).trans ?_
  simp only [hkey]
  cases tabFind g.vreg (vKey v lane) <;> rfl
/-- It holds the lane's predicates. -/
theorem makeContext_pred (hg : g.RegsOk) (hl : lane < 96) (n : Nat) :
    (tabGet 0 (makeContext gid g p lane pc t live sig place since).pred n).getLsbD lane = (tabGet 0 g.pred n).getLsbD lane := by
  have hsorted := tabSorted_map (f := fun e : Nat × Mask => (e.1, e.2 &&& laneBit lane)) (fun _ => rfl) (tabWf_iff.mp hg.2.2).1
  have hbit : (laneBit lane).getLsbD lane = true := (laneBit_getLsbD hl).mpr rfl
  have hmap : tabFind (g.pred.map (fun e => (e.1, e.2 &&& laneBit lane))) n = (tabFind g.pred n).map (fun m => m &&& laneBit lane) :=
    tabFind_map (f := fun e : Nat × Mask => (e.1, e.2 &&& laneBit lane)) (fun _ => rfl) _ _
  have hfind := (tabFind_filter (fun e => decide (e.2 ≠ 0)) n hsorted).trans (by rw [hmap])
  rw [tabGet, show tabFind (makeContext gid g p lane pc t live sig place since).pred n = _ from hfind, tabGet]
  cases tabFind g.pred n with
  | none => rfl
  | some m =>
    by_cases h0 : m &&& laneBit lane = 0#96
    · have hm := congrArg (fun x : Mask => x.getLsbD lane) h0
      simp only [BitVec.getLsbD_and, hbit, Bool.and_true] at hm
      simpa [Option.filter, h0] using hm.symm
    · have hm : (m &&& laneBit lane).getLsbD lane = m.getLsbD lane := by rw [BitVec.getLsbD_and, hbit, Bool.and_true]
      simpa [Option.filter, h0] using hm
end

/-! ### A granted ejection (R119, R121) -/

section
variable {s : State} {gid : Nat} {g : Group} {p : Path} {tk nt m : Mask} {t : BitVec 2} {live : BitVec 6} {off : BitVec 14} {l : BitVec 384}
  {pc sig : Word}

/-- The number of a lane's context, and the context. -/
def laneNum (s : State) (m : Mask) (lane : Nat) : Nat := s.fresh + (maskLanes m).idxOf lane
def laneContext (s : State) (gid : Nat) (g : Group) (p : Path) (pc : Word) (t : BitVec 2) (l : BitVec 384) (sig : Word) (m : Mask)
    (lane : Nat) : Group :=
  makeContext gid g p lane pc t l sig (((freeContexts s (stackNo g.core))[(maskLanes m).idxOf lane]?).getD 0) s.fresh
/-- The contexts of the lanes of a mask, each under its number. -/
def laneContexts (s : State) (gid : Nat) (g : Group) (p : Path) (pc : Word) (t : BitVec 2) (l : BitVec 384) (sig : Word) (m : Mask) :
    List (Nat × Group) :=
  (maskLanes m).mapIdx (fun i ln => (s.fresh + i, makeContext gid g p ln pc t l sig
    (((freeContexts s (stackNo g.core))[i]?).getD 0) s.fresh))

theorem idxOf_maskLanes {lane : Nat} (hl : lane < 96) (hm : m.getLsbD lane = true) : (maskLanes m).idxOf lane < maskCount m :=
  List.idxOf_lt_length_iff.mpr ((mem_maskLanes hl).mpr hm)
theorem laneNum_bounds {lane : Nat} (hl : lane < 96) (hm : m.getLsbD lane = true) :
    s.fresh ≤ laneNum s m lane ∧ laneNum s m lane < s.fresh + maskCount m :=
  ⟨Nat.le_add_right _ _, Nat.add_lt_add_left (idxOf_maskLanes hl hm) _⟩
theorem idxOf_maskLanes_ne {a b : Nat} (ha : a < 96) (hma : m.getLsbD a = true) (h : a ≠ b) :
    (maskLanes m).idxOf a ≠ (maskLanes m).idxOf b := fun e =>
  h ((List.idxOf_inj ((mem_maskLanes ha).mpr hma)).mp e)

theorem mem_laneContexts {e : Nat × Group} (he : e ∈ laneContexts s gid g p pc t l sig m) :
    s.fresh ≤ e.1 ∧ ∃ lane ∈ maskLanes m, e = (laneNum s m lane, laneContext s gid g p pc t l sig m lane) := by
  obtain ⟨i, hi, rfl⟩ := List.mem_mapIdx.mp he
  have hidx : (maskLanes m).idxOf (maskLanes m)[i] = i := (maskLanes_nodup m).idxOf_getElem i hi
  exact ⟨Nat.le_add_right _ _, _, List.getElem_mem hi, by simp only [laneNum, laneContext, hidx]⟩

theorem laneContexts_below (gs : Tab Group) {k : Nat} (hk : k < s.fresh) :
    tabFind ((laneContexts s gid g p pc t l sig m).foldl (fun gs e => tabPut gs e.1 e.2) gs) k = tabFind gs k := by
  rcases tabFind_puts (laneContexts s gid g p pc t l sig m) (fun e => e.1) (fun e => e.2) gs k with ⟨h, -⟩ | ⟨e, he, rfl, -⟩
  · exact h
  · exact absurd (mem_laneContexts he).1 hk.not_ge
theorem laneContexts_find (gs : Tab Group) {lane : Nat} (hl : lane < 96) (hm : m.getLsbD lane = true) :
    tabFind ((laneContexts s gid g p pc t l sig m).foldl (fun gs e => tabPut gs e.1 e.2) gs) (laneNum s m lane) =
      some (laneContext s gid g p pc t l sig m lane) := by
  have hlane := (mem_maskLanes hl).mpr hm
  rcases tabFind_puts (laneContexts s gid g p pc t l sig m) (fun e => e.1) (fun e => e.2) gs (laneNum s m lane) with ⟨-, h⟩ | ⟨e, he, hk, h⟩
  · have hi : (maskLanes m).idxOf lane < (maskLanes m).length := List.idxOf_lt_length_iff.mpr hlane
    exact absurd rfl (h _ (List.mem_mapIdx.mpr ⟨_, hi, rfl⟩))
  · rw [h]
    obtain ⟨-, lane', hlane', rfl⟩ := mem_laneContexts he
    have hidx : (maskLanes m).idxOf lane' = (maskLanes m).idxOf lane := Nat.add_left_cancel hk
    rw [(List.idxOf_inj hlane').mp hidx]

/-- The places of the contexts are free ones of the pool. -/
theorem laneContext_place (hroom : poolUsed s (g.core / 16) + maskCount m ≤ 128) {lane : Nat} (hl : lane < 96) (hm : m.getLsbD lane = true) :
    ∃ h : (maskLanes m).idxOf lane < (freeContexts s (stackNo g.core)).length,
      (laneContext s gid g p pc t l sig m lane).place = (freeContexts s (stackNo g.core))[(maskLanes m).idxOf lane] := by
  have hlen : 128 ≤ poolUsed s (g.core / 16) + (freeContexts s (g.core / 16)).length := length_freeContexts
  have hi := idxOf_maskLanes hl hm
  have h : (maskLanes m).idxOf lane < (freeContexts s (stackNo g.core)).length := by
    show _ < (freeContexts s (g.core / 16)).length
    omega
  exact ⟨h, by simp [laneContext, makeContext, List.getElem?_eq_getElem h]⟩

/-- The state after a granted ejection of the lanes of `m`, which go on at `pc`, while the path becomes `q`. -/
def ejected (s : State) (gid : Nat) (g : Group) (p q : Path) (t : BitVec 2) (l : BitVec 384) (m : Mask) (pc sig : Word) : State :=
  let g' := setSlot (putPath g q) t.toNat { slotAt g t.toNat with rjm := (slotAt g t.toNat).rjm ||| m }
  { s with groups := (laneContexts s gid g p pc t l sig m).foldl (fun gs e => tabPut gs e.1 e.2) (tabPut s.groups gid g'),
           fresh := s.fresh + maskCount m }

theorem translateNow_ir (w : BitVec 96) (st pasid va : Nat) (a : Acc) :
    translateNow { s with ir := w } st pasid va a = translateNow s st pasid va a := by
  simp only [translateNow, walkStack_congr (t := { s with ir := w }) (s := s) rfl rfl rfl rfl rfl]
  rfl
/-- What a live set holds does not depend on the word being executed. -/
theorem liveSet_ir (w : BitVec 96) : liveSet { s with ir := w } g live = liveSet s g live := by
  simp only [liveSet, translateNow_ir]
  rfl

/-- A group's signature is all that the contribution of a dividing word changes. -/
theorem divHash_apart (ms : List Mask) (a : Mask) (x : Word) : { divHash s g p ms a with sig := x } = { p with sig := x } := by
  rw [divHash, sigAdd_apart, sigWord, sigAdd_apart]

theorem ejection_granted (hg : tabFind s.groups gid = some g) (hp : findPath g p.id = some p) (hh : p.hold = .eject tk nt t live off)
    (hl : liveSet s g live = some l) (ha : askedBefore s g p = false) (hm : (if maskCount tk ≤ maskCount nt then tk else nt) = m)
    (hroom : poolUsed s (g.core / 16) + maskCount m ≤ 128) :
    ∃ q sig, exec (.ejectionDecision gid p.id) s = .next (ejected { s with ir := p.askWord } gid g p q t l m
        (if maskCount tk ≤ maskCount nt then p.spc + 4 * off.signExtend 32 else p.spc + 4) sig) ∧
      { q with sig := p.sig } = { p with
        mask := p.mask &&& ~~~ m, owned := p.owned &&& ~~~ m, tags := p.tags ||| (1#4 <<< t.toNat),
        spc := if maskCount tk ≤ maskCount nt then p.spc + 4 else p.spc + 4 * off.signExtend 32, hold := .free } := by
  have hl' := (liveSet_ir (s := s) (g := g) (live := live) p.askWord).trans hl
  have hroom' : poolUsed { s with ir := p.askWord } (stackNo g.core) + maskCount m ≤ Config.poolContexts := hroom
  rw [exec_ejectionDecision, execEjectionDecision]
  simp only [hg, Option.bind_some, hp, Option.map_some, hh, ha, Bool.false_eq_true, if_false, decide_eq_true_eq, hm]
  generalize hs : ({ s with ir := p.askWord } : State) = s' at hl' hroom' ⊢
  have hfresh : s.fresh = s'.fresh := by rw [← hs]
  simp only [hl', hroom', if_true, hfresh]
  have hsig (f : Unit → Word) : { sigAdd s' g (divHash s' g p [tk, nt] (tk ||| nt)) f with sig := p.sig } = p := by
    rw [sigAdd_apart, divHash_apart]
  replace hsig := hsig (fun _ => linMask m ^^^ linMask (m &&& ~~~ (slotAt g t.toNat).rjm))
  generalize sigAdd s' g (divHash s' g p [tk, nt] (tk ||| nt)) _ = q at hsig ⊢
  refine ⟨{ q with mask := p.mask &&& ~~~ m, owned := p.owned &&& ~~~ m, tags := p.tags ||| tagBit t,
                   spc := if maskCount tk ≤ maskCount nt then p.spc + 4 else target14 p off, hold := .free }, q.sig, rfl, ?_⟩
  exact congrArg (fun x : Path => { x with
    mask := p.mask &&& ~~~ m, owned := p.owned &&& ~~~ m, tags := p.tags ||| tagBit t,
    spc := if maskCount tk ≤ maskCount nt then p.spc + 4 else target14 p off, hold := .free }) hsig

/-! What the state after a granted ejection holds. -/

section
variable {q : Path}

theorem ejected_group (hgid : gid < s.fresh) : tabFind (ejected s gid g p q t l m pc sig).groups gid =
    some (setSlot (putPath g q) t.toNat { slotAt g t.toNat with rjm := (slotAt g t.toNat).rjm ||| m }) :=
  (laneContexts_below _ hgid).trans (tabFind_put_self _ _ _)
theorem ejected_others {k : Nat} (hk : k < s.fresh) (hne : k ≠ gid) :
    tabFind (ejected s gid g p q t l m pc sig).groups k = tabFind s.groups k :=
  (laneContexts_below _ hk).trans (tabFind_put_ne _ _ hne)
theorem ejected_lane {lane : Nat} (hl : lane < 96) (hm : m.getLsbD lane = true) :
    tabFind (ejected s gid g p q t l m pc sig).groups (laneNum s m lane) = some (laneContext s gid g p pc t l sig m lane) :=
  laneContexts_find _ hl hm
end

/-- The contexts of two lanes have numbers and places of their own. -/
theorem laneContexts_apart (hroom : poolUsed s (g.core / 16) + maskCount m ≤ 128) (a : Nat) (ha : a < 96) (b : Nat) (hb : b < 96)
    (hma : m.getLsbD a = true) (hmb : m.getLsbD b = true) (hne : a ≠ b) : laneNum s m a ≠ laneNum s m b ∧
      (laneContext s gid g p pc t l sig m a).place ≠ (laneContext s gid g p pc t l sig m b).place := by
  have hidx := idxOf_maskLanes_ne (m := m) ha hma hne
  obtain ⟨ha', hpa⟩ := laneContext_place (gid := gid) (p := p) (pc := pc) (t := t) (l := l) (sig := sig) hroom ha hma
  obtain ⟨hb', hpb⟩ := laneContext_place (gid := gid) (p := p) (pc := pc) (t := t) (l := l) (sig := sig) hroom hb hmb
  refine ⟨fun e => hidx (Nat.add_left_cancel e), fun e => hidx ?_⟩
  rw [hpa, hpb] at e
  exact (freeContexts_nodup.getElem_inj_iff).mp e
/-- The place of a context is one of the pool that no context of the stack holds. -/
theorem laneContext_free (hroom : poolUsed s (g.core / 16) + maskCount m ≤ 128) {lane : Nat} (hl : lane < 96) (hm : m.getLsbD lane = true) :
    (laneContext s gid g p pc t l sig m lane).place < 128 ∧
      ∀ e ∈ s.groups, e.2.garnet.isSome = true → e.2.core / 16 = g.core / 16 → e.2.place ≠ (laneContext s gid g p pc t l sig m lane).place := by
  obtain ⟨hi, hplace⟩ := laneContext_place (gid := gid) (p := p) (pc := pc) (t := t) (l := l) (sig := sig) hroom hl hm
  have hmem := mem_freeContexts.mp (List.getElem_mem hi)
  rw [hplace]
  refine ⟨hmem.1, fun e he hgar hcore heq => hmem.2 ?_⟩
  rw [← heq]
  exact List.mem_map.mpr ⟨e, List.mem_filter.mpr ⟨he, by rw [hgar, decide_eq_true (show stackNo e.2.core = stackNo g.core from hcore)]; rfl⟩, rfl⟩
end

/-! ### A recall (R122 to R124) -/

section
variable {s : State} {k : Nat} {c g : Group} {i : Garnet} {p : Path}

theorem laneRecall_recalls (hc : tabFind s.groups k = some c) (hi : c.garnet = some i) (hp : c.paths = [p])
    (hg : tabFind s.groups i.parent = some g) (hne : i.parent ≠ k) (hs : tabSorted s.groups = true) (hr : c.reqs = []) (hd : g.due = [])
    (hh : g.handler = none) (hn : needsRecall s c i = true) :
    exec (.laneRecall k) s =
      .next { s with groups := tabPut (tabDel s.groups k) i.parent (recalledInto s.clock c i p g) } := by
  have hfree : recallFree s c = true := by simp [recallFree, hr, hi, hg, hh]
  rw [exec_laneRecall, execLaneRecall, recallDue]
  simp only [hc, hi, hn, hfree, Bool.and_self, if_true, recallCtx_eq hc hi hp hg hne hs]
  exact congrArg Host.Outcome.next (takeDue_of_no_due (tabFind_put_self _ _ _) (recalledInto_due.trans hd))

end

/-- Settles O18: a granted ejection leaves `ejected`, and a recall `recalledInto`; what these hold stands above. -/
theorem ejectionAndRecall : Obligations.EjectionAndRecall := by
  unfold Obligations.EjectionAndRecall
  constructor
  · intro s gid g p tk nt t live off l hg hp hh hl hgid hlen hregs hask small m hroom
    obtain ⟨q, sig, he, hq⟩ := ejection_granted hg hp hh hl hask rfl hroom
    have hid : q.id = p.id := by simpa using congrArg Path.id hq
    refine ⟨_, _, q, laneNum s m, laneContext s gid g p (if small then p.spc + 4 * off.signExtend 32 else p.spc + 4) t l sig m, he,
      ejected_group hgid, findPath_putPath_self hp hid, hq, ?_, putPath_others hid rfl, rfl, rfl, fun k hk hk' => ejected_others hk hk',
      laneContexts_apart hroom, fun lane hlane hm => ?_⟩
    · exact congrArg RjSlot.rjm (slotAt_setSlot_self (g := putPath g q) _ (tag_lt_slots hlen t))
    · obtain ⟨hplace, hfree⟩ := laneContext_free hroom hlane hm
      obtain ⟨hlo, hhi⟩ := laneNum_bounds (s := s) hlane hm
      exact ⟨hlo, hhi, ejected_lane hlane hm, rfl, hplace, rfl, rfl, rfl, rfl, hfree, fun v hv => makeContext_vreg hregs hlane hv,
        makeContext_pred hregs hlane, _, rfl, rfl, rfl, rfl, rfl, rfl, rfl⟩
  · intro s k c i p g hc hi hp hg hne hs hlen hregs hlane hr hd hh hn x
    exact ⟨_, recalledInto s.clock c i p g, laneRecall_recalls hc hi hp hg hne hs hr hd hh hn,
      (tabFind_put_ne _ _ (Ne.symm hne)).trans (tabFind_del_self k hs), tabFind_put_self _ _ _,
      (recalledInto_rjm hlen _).trans (if_pos rfl), placeRecalled_holds rfl, recalledInto_vreg hregs hlane, recalledInto_pred hregs hlane,
      recalledInto_sreg, recalledInto_pend, recalledInto_reqs, recalledInto_flags, recalledInto_fpflags,
      fun j hj hj' => (tabFind_put_ne _ _ hj').trans (tabFind_del_ne hs hj), rfl⟩

end Sys2Proof.Machine
end

section
/-! # Rejoining (O19)

What `RJOIN` does in a group and in a Garnet context, and what a rejoin timer that has run out does. -/
namespace Sys2Proof.Machine

/-! ### `RJOIN` in a group (R126) -/

section
variable {s : State} {g : Group} {p : Path} {t : BitVec 2}

theorem drainRecalls_of_none (h : g.recalls = []) : drainRecalls g = g := by rw [drainRecalls, h]
theorem formReturned_of_none {k : Nat} (h : (slotAt g k).returned = 0) : formReturned s g k = g := if_pos (.inl h)
theorem formReturned_of_bound {k : Nat} (h : ∃ q ∈ g.paths, q.tags &&& (1#4 <<< k) ≠ 0) : formReturned s g k = g := by
  obtain ⟨q, hq, hb⟩ := h
  exact if_pos (.inr (.inr (.inl (List.any_eq_true.mpr ⟨q, hq, decide_eq_true hb⟩))))
theorem formAll_of_none (h : ∀ k, formReturned s g k = g) : formAll s g = g := List.foldl_fixed' h _

theorem putPath_putPath {q r : Path} (h : r.id = q.id) : putPath (putPath g q) r = putPath g r := by
  simp only [putPath, List.map_map]
  congr 1
  refine List.map_congr_left fun x _ => ?_
  show (if (if x.id = q.id then q else x).id = r.id then r else if x.id = q.id then q else x) = if x.id = r.id then r else x
  by_cases hx : x.id = q.id
  · rw [if_pos hx, if_pos h.symm, if_pos (hx.trans h.symm)]
  · rw [if_neg hx]

/-- The path as it waits at `RJOIN`, with no other path to merge with. -/
def waitingAt (p : Path) (t : BitVec 2) : Path := { p with mask := p.mask &&& p.owned, hold := .rjoin t }

theorem mergeWaiters_alone (h : ∀ q ∈ g.paths, q.id ≠ p.id → q.hold = .rjoin t → q.tags &&& tagBit t = 0) :
    mergeWaiters g p t = (putPath g (waitingAt p t), waitingAt p t) := by
  have hothers : g.paths.filter (fun q => decide (q.id ≠ p.id) && decide (q.hold = .rjoin t) && q.tags &&& tagBit t ≠ 0) = [] := by
    refine List.filter_eq_nil_iff.mpr fun q hq hc => ?_
    simp only [Bool.and_eq_true, decide_eq_true_eq] at hc
    obtain ⟨⟨hid, hhold⟩, htag⟩ := hc
    exact htag (h q hq hid hhold)
  have hkeep : g.paths.filter (fun q => decide (q.id = p.id) || !decide (p.id = q.id)) = g.paths := by
    refine List.filter_eq_self.mpr fun q _ => ?_
    by_cases hid : q.id = p.id
    · simp [hid]
    · simp [Ne.symm hid]
  simp only [mergeWaiters, hothers, List.foldl_cons, List.foldl_nil, List.any_cons, List.any_nil, Bool.or_false, hkeep]
  simp only [BitVec.ofNat_eq_ofNat, BitVec.zero_or]
  rfl

/-- A path of the group after its path `p` has changed. -/
theorem mem_of_mem_putPath {q r : Path} (h : q ∈ (putPath g r).paths) (hne : q.id ≠ r.id) : q ∈ g.paths := by
  obtain ⟨x, hx, he⟩ := List.mem_map.mp h
  split at he
  · exact absurd (congrArg Path.id he.symm) hne
  · exact he ▸ hx
theorem mem_putPath_of_ne {q r : Path} (h : q ∈ g.paths) (hne : q.id ≠ r.id) : q ∈ (putPath g r).paths := by
  have hm := mem_putPath (q := r) h
  rwa [if_neg hne] at hm

/-- With its own stack empty and no other path waiting, a path bound to the slot rejoins or waits by itself. -/
theorem rjoin_alone (h : s.At g p) (hgar : g.garnet = none) (hst : p.stack = []) (hb : p.tags &&& tagBit t ≠ 0)
    (hw : ∀ q ∈ g.paths, q.id ≠ p.id → q.hold = .rjoin t → q.tags &&& tagBit t = 0) {G : Group}
    (hG : rejoinOrWait s (putPath g (waitingAt p t)) (waitingAt p t) t = G) (hdue : G.due = []) (hrecs : G.recalls = [])
    (hform : ∀ k, formReturned s G k = G) : exec (.rjoin t) s = .next (setGroup s s.cur G) := by
  have hpop : popTag t p p.stack = .settled p := by
    have hp : ({ p with stack := [] } : Path) = p := by rw [← hst]
    rw [hst, popTag, hp]
  have hempty : p.stack.isEmpty = true := by rw [hst]; rfl
  have hmerge : mergeWaiters (putPath g p) p t = (putPath g (waitingAt p t), waitingAt p t) := by
    rw [mergeWaiters_alone (fun q hq hid => hw q (mem_of_mem_putPath hq hid) hid), putPath_putPath (show (waitingAt p t).id = p.id from rfl)]
  rw [exec_rjoin, execRjoin, onPath_at _ h]
  simp only [hgar, hpop, hb, if_false, hempty, Bool.not_true, Bool.false_eq_true, hmerge, hG, drainRecalls_of_none hrecs,
    formAll_of_none hform]
  rw [takeDue_of_no_due (tabFind_setGroup_self s s.cur G) hdue]

/-- The path once it has left its slot with the lanes that had returned. -/
theorem rejoinOrWait_leaves (hb : ∀ q ∈ g.paths, q.id ≠ p.id → q.tags &&& tagBit t = 0) (hr : g.recalls = []) (hx : (slotAt g t.toNat).rjm = 0) :
    ∃ q, { q with sig := p.sig } = { p with
        mask := p.mask ||| (slotAt g t.toNat).returned, owned := p.owned ||| (slotAt g t.toNat).returned, tags := p.tags &&& ~~~ tagBit t,
        spc := p.spc + 4, hold := .free } ∧
      rejoinOrWait s g p t = setSlot (putPath g q) t.toNat { slotAt g t.toNat with returned := 0, rtags := 0, timer := 0 } := by
  have hothers : g.paths.any (fun q => decide (q.id ≠ p.id) && q.tags &&& tagBit t ≠ 0) = false := by
    refine List.any_eq_false.mpr fun q hq hc => ?_
    simp only [Bool.and_eq_true, decide_eq_true_eq] at hc
    exact hc.2 (hb q hq hc.1)
  rw [rejoinOrWait]
  simp only [hothers, hr, hx, List.any_nil, Bool.or_false, ne_eq, not_true_eq_false, decide_false, Bool.false_eq_true, if_false]
  exact ⟨_, rfl, rfl⟩
theorem rejoinOrWait_waits (hb : ∃ q ∈ g.paths, q.id ≠ p.id ∧ q.tags &&& tagBit t ≠ 0) :
    ∃ x : RjSlot, x.returned = (slotAt g t.toNat).returned ∧
      rejoinOrWait s g p t = setSlot (putPath g { p with hold := .rjoin t }) t.toNat x := by
  obtain ⟨q, hq, hid, htag⟩ := hb
  have hothers : g.paths.any (fun q => decide (q.id ≠ p.id) && q.tags &&& tagBit t ≠ 0) = true :=
    List.any_eq_true.mpr ⟨q, hq, by rw [decide_eq_true hid, decide_eq_true htag]; rfl⟩
  rw [rejoinOrWait]
  simp only [hothers, Bool.true_or, if_true]
  refine ⟨_, ?_, rfl⟩
  rfl

theorem setGroup_onlyGroup (s : State) (G : Group) : OnlyGroup s (setGroup s s.cur G) :=
  ⟨rfl, fun _ hk => tabFind_put_ne _ _ hk, fun _ => rfl, fun _ _ => rfl⟩
/-- The current path has been replaced twice. -/
theorem putPath_twice_at {q r : Path} {x : RjSlot} {k : Nat} (h : s.At g p) (hr : r.id = p.id) (hq : q.id = p.id) :
    (setGroup s s.cur (setSlot (putPath (putPath g r) q) k x)).At (setSlot (putPath (putPath g r) q) k x) q ∧
      OtherPaths p g (setSlot (putPath (putPath g r) q) k x) := by
  rw [putPath_putPath (hq.trans hr.symm)]
  exact ⟨⟨tabFind_setGroup_self .., findPath_putPath_self h.2 (hq.trans (findPath_id h.2))⟩, putPath_others hq rfl⟩

end

/-! `RJOIN` in a group, case by case. -/

section
variable {s : State} {g : Group} {p : Path} {t : BitVec 2} (h : s.At g p) (hgar : g.garnet = none)
include h hgar

theorem rjoin_outside (hst : p.stack = []) (hb : p.tags &&& tagBit t = 0) :
    GoesTo s g p (exec (.rjoin t) s) g { p with spc := p.spc + 4, hold := .free } := by
  have hr : exec (.rjoin t) s =
      .next (keep s g { p with stack := [], spc := p.spc + 4, hold := .free, sig := if sigLive s g then rjoinCrc t else p.sig }) := by
    rw [exec_rjoin, execRjoin, onPath_at _ h]
    simp only [hgar, hst, popTag]
    exact if_pos hb
  rw [hr]
  exact goes_of_keep h rfl rfl (by rw [← hst])
theorem rjoin_pending {pc lpc sig : Word} {m : Mask} {rest : List StackEnt} (hst : p.stack = .pending pc lpc m t sig :: rest) :
    GoesTo s g p (exec (.rjoin t) s) g { p with mask := m, spc := pc, lpc := lpc, stack := rest, hold := .free } := by
  have hr : exec (.rjoin t) s = .next (keep s g { p with mask := m, spc := pc, lpc := lpc, sig := sig, stack := rest, hold := .free }) := by
    rw [exec_rjoin, execRjoin, onPath_at _ h]
    simp only [hgar, hst, popTag, if_true]
  rw [hr]
  exact goes_of_keep h rfl rfl rfl

variable (hrec : g.recalls = []) (hlen : g.slots.length = 4) (hst : p.stack = []) (hb : p.tags &&& tagBit t ≠ 0) (hdue : g.due = [])
  (hret : ∀ k, k ≠ t.toNat → (slotAt g k).returned = 0)
include hrec hlen hst hb hdue hret

theorem rjoin_leaves (hothers : ∀ q ∈ g.paths, q.id ≠ p.id → q.tags &&& tagBit t = 0) (hx : (slotAt g t.toNat).rjm = 0) :
    ∃ u g' p', exec (.rjoin t) s = .next u ∧ u.At g' p' ∧ OtherPaths p g g' ∧ OnlyGroup s u ∧ { g' with paths := g.paths, slots := g.slots } = g ∧
      { p' with sig := p.sig } = { p with
        mask := (p.mask &&& p.owned) ||| (slotAt g t.toNat).returned, owned := p.owned ||| (slotAt g t.toNat).returned, tags := p.tags &&& ~~~ tagBit t, spc := p.spc + 4, hold := .free } ∧
      (slotAt g' t.toNat).returned = 0 := by
  have hw : slotAt (putPath g (waitingAt p t)) t.toNat = slotAt g t.toNat := rfl
  obtain ⟨q, hq, hG⟩ := rejoinOrWait_leaves (s := s) (g := putPath g (waitingAt p t)) (p := waitingAt p t) (t := t)
    (fun q hq hid => hothers q (mem_of_mem_putPath hq hid) hid) hrec hx
  rw [hw] at hq hG
  have hqid : q.id = p.id := by simpa [waitingAt] using congrArg Path.id hq
  generalize hxs : ({ slotAt g t.toNat with returned := 0, rtags := 0, timer := 0 } : RjSlot) = x at hG
  have hnone : ∀ k, (slotAt (setSlot (putPath (putPath g (waitingAt p t)) q) t.toNat x) k).returned = 0 := fun k => by
    rw [slotAt_setSlot (g := putPath (putPath g (waitingAt p t)) q) x (tag_lt_slots hlen t)]
    split
    · rw [← hxs]
    · next hk => exact hret k hk
  obtain ⟨hat, hoth⟩ := putPath_twice_at (x := x) (k := t.toNat) h (show (waitingAt p t).id = p.id from rfl) hqid
  have hexec := rjoin_alone h hgar hst hb (fun q hq hid _ => hothers q hq hid) hG hdue hrec fun k => formReturned_of_none (hnone k)
  refine ⟨_, _, q, hexec, hat, hoth, setGroup_onlyGroup _ _, ?_, hq, hnone _⟩
  rfl
theorem rjoin_waits (hothers : ∃ q ∈ g.paths, q.id ≠ p.id ∧ q.tags &&& tagBit t ≠ 0) (hwait : ∀ q ∈ g.paths, q.id ≠ p.id → q.hold ≠ .rjoin t) :
    ∃ u g' p', exec (.rjoin t) s = .next u ∧ u.At g' p' ∧ OtherPaths p g g' ∧ OnlyGroup s u ∧ { g' with paths := g.paths, slots := g.slots } = g ∧
      p' = { p with mask := p.mask &&& p.owned, hold := .rjoin t } := by
  obtain ⟨q, hq, hid, htag⟩ := hothers
  obtain ⟨x, -, hG⟩ := rejoinOrWait_waits (s := s) (g := putPath g (waitingAt p t)) (p := waitingAt p t) (t := t)
    ⟨q, mem_putPath_of_ne hq hid, hid, htag⟩
  have hform : ∀ k, formReturned s (setSlot (putPath (putPath g (waitingAt p t)) (waitingAt p t)) t.toNat x) k =
      setSlot (putPath (putPath g (waitingAt p t)) (waitingAt p t)) t.toNat x := fun k => by
    by_cases hk : k = t.toNat
    · subst hk
      exact formReturned_of_bound ⟨q, mem_putPath_of_ne (g := putPath g (waitingAt p t)) (mem_putPath_of_ne hq hid) hid, htag⟩
    · refine formReturned_of_none ?_
      rw [slotAt_setSlot (g := putPath (putPath g (waitingAt p t)) (waitingAt p t)) x (tag_lt_slots hlen t), if_neg hk]
      exact hret k hk
  obtain ⟨hat, hoth⟩ := putPath_twice_at (q := waitingAt p t) (x := x) (k := t.toNat) h (show (waitingAt p t).id = p.id from rfl) rfl
  refine ⟨_, _, waitingAt p t, rjoin_alone h hgar hst hb (fun q hq hid hh => absurd hh (hwait q hq hid)) hG hdue hrec hform,
    hat, hoth, setGroup_onlyGroup _ _, ?_, ?_⟩
  · rfl
  · rfl

end

/-! ### The rejoin timer (R127) -/

/-- What a group keeps while contexts return their lanes to it: its paths that wait, the lanes that are held, and each lane no slot waits for. -/
structure TakesBack (g g' : Group) : Prop where
  sreg : g'.sreg = g.sreg
  handler : g'.handler = g.handler
  due : g'.due = g.due
  slots : g'.slots.length = g.slots.length
  ids : (g'.paths.map (fun q => q.id)).Nodup
  waiting : ∀ n p, findPath g n = some p → p.hold ≠ .free → findPath g' n = some p
  back : ∀ k l, (slotAt g k).rjm.getLsbD l = false → (slotAt g' k).rjm.getLsbD l = false
  holds : ∀ m spc lpc, HoldsAt g m spc lpc → HoldsAt g' m spc lpc

theorem TakesBack.refl {g : Group} (h : (g.paths.map (fun q => q.id)).Nodup) : TakesBack g g :=
  ⟨rfl, rfl, rfl, rfl, h, fun _ _ h _ => h, fun _ _ h => h, fun _ _ _ h => h⟩
theorem TakesBack.trans {a b c : Group} (h : TakesBack a b) (h' : TakesBack b c) : TakesBack a c :=
  ⟨h'.sreg.trans h.sreg, h'.handler.trans h.handler, h'.due.trans h.due, h'.slots.trans h.slots, h'.ids,
    fun n p hp hh => h'.waiting n p (h.waiting n p hp hh) hh, fun k l hb => h'.back k l (h.back k l hb),
    fun m a b hh => h'.holds m a b (h.holds m a b hh)⟩

section
variable {c g : Group} {i : Garnet} {p : Path} {t : Nat}

theorem recalledInto_takesBack (hlen : g.slots.length = 4) (hn : (g.paths.map (fun q => q.id)).Nodup) :
    TakesBack g (recalledInto t c i p g) := by
  obtain ⟨hpaths, hrecalls⟩ := backFrom_paths_recalls (c := c) (g := g) (i := i) (t := t)
  have hn' : ((backFrom t c i g).paths.map (fun q => q.id)).Nodup := hpaths.symm ▸ hn
  refine ⟨recalledInto_sreg, recalledInto_handler, recalledInto_due, recalledInto_length, placeRecalled_ids rfl hn',
    fun n q hq hh => placeRecalled_findPath rfl hn' ((findPath_paths hpaths n).trans hq) hh, fun k l hb => ?_,
    fun m a b hh => HoldsAt.placeRecalled (by rw [HoldsAt, hpaths, hrecalls]; exact hh) rfl hn'⟩
  rw [recalledInto_rjm hlen]
  split
  · rw [BitVec.getLsbD_and, hb, Bool.false_and]
  · exact hb
theorem recalledInto_back (hlen : g.slots.length = 4) (hlane : i.lane < 96) :
    (slotAt (recalledInto t c i p g) i.tag.toNat).rjm.getLsbD i.lane = false := by
  rw [recalledInto_rjm hlen, if_pos rfl, BitVec.getLsbD_and, BitVec.getLsbD_not, (laneBit_getLsbD hlane).mpr rfl, Bool.not_true, Bool.and_false,
    Bool.and_false]
end

theorem recallCtx_of_no_paths {s : State} {k : Nat} {c : Group} (hc : tabFind s.groups k = some c) (hp : c.paths = []) : recallCtx s k = s := by
  simp only [recallCtx, hc, hp]
  cases c.garnet <;> rfl

/-- What becomes of a context that has been recalled: it is freed, and its lane is back in the group, at its own place. -/
def Recalled (u : State) (g : Group) (e : Nat × Group) : Prop :=
  ∀ i q, e.2.garnet = some i → e.2.paths = [q] → i.lane < 96 →
    tabFind u.groups e.1 = none ∧ (slotAt g i.tag.toNat).rjm.getLsbD i.lane = false ∧ HoldsAt g (laneBit i.lane) q.spc q.lpc

/-- Contexts of one group are recalled one after the other. -/
theorem recall_all {gid : Nat} (cs : List (Nat × Group)) (hs : tabSorted cs = true) (hne : ∀ e ∈ cs, e.1 ≠ gid)
    (hpar : ∀ e ∈ cs, ∃ i, e.2.garnet = some i ∧ i.parent = gid) :
    ∀ (s : State) (g : Group), (∀ e ∈ cs, tabFind s.groups e.1 = some e.2) → tabSorted s.groups = true → tabFind s.groups gid = some g →
      g.slots.length = 4 → (g.paths.map (fun q => q.id)).Nodup →
      ∃ g', tabFind (cs.foldl (fun s e => recallCtx s e.1) s).groups gid = some g' ∧ TakesBack g g' ∧
        { cs.foldl (fun s e => recallCtx s e.1) s with groups := s.groups } = s ∧
        (∀ k, k ≠ gid → (∀ e ∈ cs, e.1 ≠ k) → tabFind (cs.foldl (fun s e => recallCtx s e.1) s).groups k = tabFind s.groups k) ∧
        ∀ e ∈ cs, Recalled (cs.foldl (fun s e => recallCtx s e.1) s) g' e := by
  induction cs with
  | nil => exact fun s g _ _ hg _ hn => ⟨g, hg, .refl hn, rfl, fun _ _ _ => rfl, fun e he => absurd he List.not_mem_nil⟩
  | cons e cs ih =>
    intro s g hfind hsort hg hlen hn
    obtain ⟨habove, hs'⟩ := tabSorted_cons.mp hs
    replace ih := ih hs' (fun x hx => hne x (List.mem_cons_of_mem _ hx)) (fun x hx => hpar x (List.mem_cons_of_mem _ hx))
    have he := hfind e List.mem_cons_self
    have hek := hne e List.mem_cons_self
    obtain ⟨i, hi, hip⟩ := hpar e List.mem_cons_self
    cases hp : e.2.paths with
    | nil =>
      obtain ⟨g', h1, h2, h3, h4, h5⟩ := ih s g (fun x hx => hfind x (List.mem_cons_of_mem _ hx)) hsort hg hlen hn
      rw [List.foldl_cons, recallCtx_of_no_paths he hp]
      refine ⟨g', h1, h2, h3, fun k hk hks => h4 k hk (fun x hx => hks x (List.mem_cons_of_mem _ hx)), fun x hx => ?_⟩
      rcases List.mem_cons.mp hx with rfl | hx
      · intro i q _ hq
        exact absurd (hp.symm.trans hq) (List.cons_ne_nil _ _).symm
      · exact h5 x hx
    | cons q qs =>
      subst hip
      have hrec := recallCtx_eq he hi hp hg (Ne.symm hek) hsort
      have hback := recalledInto_takesBack (c := e.2) (i := i) (p := q) (t := s.clock) hlen hn
      have hkeep : ∀ k, k ≠ i.parent → k ≠ e.1 →
          tabFind (tabPut (tabDel s.groups e.1) i.parent (recalledInto s.clock e.2 i q g)) k = tabFind s.groups k := fun k hk hke =>
        (tabFind_put_ne _ _ hk).trans (tabFind_del_ne hsort hke)
      rw [List.foldl_cons, hrec]
      obtain ⟨g', h1, h2, h3, h4, h5⟩ := ih { s with groups := tabPut (tabDel s.groups e.1) i.parent (recalledInto s.clock e.2 i q g) }
        (recalledInto s.clock e.2 i q g)
        (fun x hx => (hkeep x.1 (hne x (List.mem_cons_of_mem _ hx)) (Nat.ne_of_gt (habove x hx))).trans (hfind x (List.mem_cons_of_mem _ hx)))
        (tabSorted_put _ _ (tabSorted_del _ hsort)) (tabFind_put_self _ _ _) (hback.slots.trans hlen) hback.ids
      refine ⟨g', h1, hback.trans h2, ?_, fun k hk hks => ?_, fun x hx => ?_⟩
      · exact congrArg (fun u : State => { u with groups := s.groups }) h3
      · rw [h4 k hk (fun x hx => hks x (List.mem_cons_of_mem _ hx))]
        exact hkeep k hk (hks e List.mem_cons_self).symm
      · rcases List.mem_cons.mp hx with rfl | hx
        · intro i' q' hi' hq' hlane
          obtain rfl := Option.some.inj (hi.symm.trans hi')
          obtain ⟨rfl, -⟩ := List.cons.inj (hp.symm.trans hq')
          refine ⟨?_, h2.back _ _ (recalledInto_back hlen hlane), h2.holds _ _ _ (placeRecalled_holds rfl)⟩
          rw [h4 _ hek fun y hy => Nat.ne_of_gt (habove y hy)]
          exact (tabFind_put_ne _ _ hek).trans (tabFind_del_self _ hsort)
        · exact h5 x hx

section
variable {s : State} {gid : Nat} {g : Group} {p : Path} {t : BitVec 2}

theorem timerExpired_of (hp : g.paths.find? (fun q => q.hold = .rjoin t) = some p) (hh : g.handler = none) (ho : outOf s g = false)
    (hs : g.susp = .run) (hd : g.due = []) (hr : timerRuns g t.toNat = true) (ht : (slotAt g t.toNat).timer ≠ 0)
    (hl : (slotAt g t.toNat).timer - 1 + (slotAt g t.toNat).limit ≤ s.clock) : timerExpired s g t.toNat = some p := by
  have hle : (slotAt g t.toNat).limit ≤ s.clock - ((slotAt g t.toNat).timer - 1) := by omega
  simpa [timerExpired, hh, ho, hs, hr, ht, hle, hasDue, hd] using hp
theorem lateRoom_iff (h : g.paths.length ≤ 8) :
    lateRoom s gid g t.toNat = true ↔ g.paths.length + placesNeeded (contextsOf s gid t.toNat) ≤ 8 := by
  rw [lateRoom, decide_eq_true_iff]
  omega

theorem enterHandler_path {now off : Nat} {x : TrapInfo} (hp : findPath g p.id = some p) : findPath (enterHandler now g p x off) p.id =
    some { p with spc := BitVec.ofNat 32 off, queue := [], running := false, hold := .free, recalled := false } := by
  unfold enterHandler
  exact findPath_putPath_self hp rfl

/-- The one trap that is due on a running group is taken. -/
theorem takeDue_takes {d : DueTrap} (hg : tabFind s.groups gid = some g) (hd : g.due = [d]) (hh : g.handler = none) (ho : outOf s g = false)
    (hs : g.susp = .run) (hp : findPath g d.path = some p) : takeDue s gid = takeTrap s gid { g with due := [] } p d.info := by
  have hrun : (g.handler.isSome || outOf s g || !(g.susp = .run || g.susp = .walk)) = false := by rw [hh, ho, hs]; rfl
  have hp' : findPath { g with due := [] } d.path = some p := hp
  simp only [takeDue, hg, hd, hrun, Bool.false_eq_true, if_false, hp']
/-- A class 0 trap enters the handler of the kernel. -/
theorem takeTrap_enters {x : TrapInfo} {off : Nat} (hgar : g.garnet = none) (hcls : x.cls = 0) (hh : g.handler = none)
    (hoff : (kernOf s g).trapOff = some off) : takeTrap s gid g p x = setGroup s gid (enterHandler s.clock g p x off) := by
  simp [takeTrap, hgar, hcls, hh, hoff]

/-- The group in which the waiting path has taken `rejoin_overdue`. -/
theorem rejoinTimeout_overdue {off : Nat} (hg : tabFind s.groups gid = some g) (he : timerExpired s g t.toNat = some p)
    (hp : findPath g p.id = some p) (hh : g.handler = none) (hgar : g.garnet = none) (ho : outOf s g = false) (hsusp : g.susp = .run)
    (hd : g.due = []) (hw : waitsTurn s gid g p.id = false) (hroom : lateRoom s gid g t.toNat = false) (hoff : (kernOf s g).trapOff = some off) :
    ∃ u, exec (.rejoinTimeout gid t.toNat) s = .next u ∧
      tabFind u.groups gid = some (enterHandler s.clock { g with due := [] } p (overdueTrap s g p t.toNat) off) := by
  have hacts : timerActs s gid t.toNat = setGroup s gid (putDue g { path := p.id, info := overdueTrap s g p t.toNat }) := by
    simp [timerActs, hg, he, hroom, queueTrap, hh]
  have hdue : (putDue g { path := p.id, info := overdueTrap s g p t.toNat }).due = [{ path := p.id, info := overdueTrap s g p t.toNat }] := by
    rw [putDue, hd]; rfl
  have htake := takeDue_takes (tabFind_setGroup_self s gid (putDue g { path := p.id, info := overdueTrap s g p t.toNat })) hdue hh ho hsusp hp
  have henter : takeTrap (setGroup s gid (putDue g { path := p.id, info := overdueTrap s g p t.toNat })) gid { g with due := [] } p
      (overdueTrap s g p t.toNat) = _ := takeTrap_enters hgar rfl hh hoff
  replace htake := htake.trans henter
  refine ⟨setGroup (setGroup s gid (putDue g { path := p.id, info := overdueTrap s g p t.toNat })) gid _, ?_, tabFind_setGroup_self _ _ _⟩
  rw [exec_rejoinTimeout, execRejoinTimeout]
  simp only [hg, he, hw, Bool.and_false, Bool.false_eq_true, if_false, hacts, htake]
  rfl

theorem rejoinTimeout_room (hg : tabFind s.groups gid = some g) (he : timerExpired s g t.toNat = some p) (hroom : lateRoom s gid g t.toNat = true)
    (hr : ∀ e ∈ contextsOf s gid t.toNat, e.2.reqs = []) {g' : Group}
    (hg' : tabFind ((contextsOf s gid t.toNat).foldl (fun s e => recallCtx s e.1) s).groups gid = some g') (hd : g'.due = []) :
    exec (.rejoinTimeout gid t.toNat) s = .next ((contextsOf s gid t.toNat).foldl (fun s e => recallCtx s e.1) s) := by
  have hall : (contextsOf s gid t.toNat).all (fun e => e.2.reqs.isEmpty) = true :=
    List.all_eq_true.mpr fun e h => by rw [hr e h]; rfl
  rw [exec_rejoinTimeout, execRejoinTimeout]
  simp only [hg, he, hroom, Bool.not_true, Bool.false_and, Bool.false_eq_true, if_false, timerActs, if_true, hall]
  rw [takeDue_of_no_due hg' hd]

theorem mem_contextsOf {e : Nat × Group} {k : Nat} (h : e ∈ contextsOf s gid k) :
    e ∈ s.groups ∧ ∃ i, e.2.garnet = some i ∧ i.parent = gid ∧ i.tag.toNat = k := by
  obtain ⟨hm, hq⟩ := List.mem_filter.mp h
  refine ⟨hm, ?_⟩
  cases hi : e.2.garnet with
  | none => rw [hi] at hq; cases hq
  | some i => rw [hi] at hq; exact ⟨i, rfl, by simpa using hq⟩

end

/-- The two effects of a rejoin timer that has run out. -/
theorem rejoin_timer {s : State} {gid : Nat} {g : Group} {p : Path} {t : BitVec 2} (hg : tabFind s.groups gid = some g)
    (hfind : g.paths.find? (fun q => q.hold = .rjoin t) = some p) (hp : findPath g p.id = some p) (hh : g.handler = none)
    (hgar : g.garnet = none) (ho : outOf s g = false) (hsusp : g.susp = .run) (hd : g.due = []) (hr : timerRuns g t.toNat = true)
    (ht : (slotAt g t.toNat).timer ≠ 0) (hl : (slotAt g t.toNat).timer - 1 + (slotAt g t.toNat).limit ≤ s.clock) (h8 : g.paths.length ≤ 8) :
    (∀ off, waitsTurn s gid g p.id = false → 8 < g.paths.length + placesNeeded (contextsOf s gid t.toNat) →
      (kernOf s g).trapOff = some off →
      ∃ u g' p', exec (.rejoinTimeout gid t.toNat) s = .next u ∧ tabFind u.groups gid = some g' ∧ findPath g' p.id = some p' ∧
        g'.tcause = 0x19 ∧ g'.tval0 = t.setWidth 32 ∧ g'.tval1 = BitVec.ofNat 32 (maskCount (slotAt g t.toNat).rjm) ∧
        g'.tspc = p.spc ∧ g'.tlpc = p.lpc ∧ p'.spc = BitVec.ofNat 32 off ∧ p'.hold = .free ∧ g'.handler.isSome) ∧
    (g.paths.length + placesNeeded (contextsOf s gid t.toNat) ≤ 8 → tabSorted s.groups = true → g.slots.length = 4 → g.RegsOk →
      (g.paths.map (fun q => q.id)).Nodup → (∀ e ∈ contextsOf s gid t.toNat, e.2.reqs = []) →
      ∃ u g', exec (.rejoinTimeout gid t.toNat) s = .next u ∧ tabFind u.groups gid = some g' ∧ findPath g' p.id = some p ∧
        g'.sreg = g.sreg ∧ g'.handler = none ∧ { u with groups := s.groups } = s ∧
        (∀ k, k ≠ gid → (∀ e ∈ contextsOf s gid t.toNat, e.1 ≠ k) → tabFind u.groups k = tabFind s.groups k) ∧
        ∀ e ∈ contextsOf s gid t.toNat, ∀ i q, e.2.garnet = some i → e.2.paths = [q] → i.lane < 96 →
          tabFind u.groups e.1 = none ∧ (slotAt g' t.toNat).rjm.getLsbD i.lane = false ∧
          ((∃ x ∈ g'.paths, x.mask.getLsbD i.lane = true ∧ x.spc = q.spc ∧ x.lpc = q.lpc) ∨
            ∃ x ∈ g'.recalls, x.mask.getLsbD i.lane = true ∧ x.spc = q.spc ∧ x.lpc = q.lpc)) := by
  have he := timerExpired_of hfind hh ho hsusp hd hr ht hl
  refine ⟨fun off hw hfull hoff => ?_, fun hroom hsort hlen _ hn hreqs => ?_⟩
  · have hlate : lateRoom s gid g t.toNat = false :=
      Bool.eq_false_iff.mpr fun h => absurd ((lateRoom_iff h8).mp h) (by omega)
    obtain ⟨u, hu, hgu⟩ := rejoinTimeout_overdue hg he hp hh hgar ho hsusp hd hw hlate hoff
    refine ⟨u, _, _, hu, hgu, enterHandler_path hp, ?_, BitVec.ofNat_toNat .., rfl, rfl, rfl, rfl, rfl, rfl⟩
    exact show causeWord 0 0 0x19 = 0x19 by decide
  · have hmem := fun e (he : e ∈ contextsOf s gid t.toNat) => mem_contextsOf he
    obtain ⟨g', h1, h2, h3, h4, h5⟩ := recall_all (gid := gid) (contextsOf s gid t.toNat) (tabSorted_filter _ hsort)
      (fun e he hk => by
        obtain ⟨hm, i, hi, -, -⟩ := hmem e he
        have hfe := tabFind_of_mem hsort (k := e.1) (v := e.2) hm
        rw [hk, hg] at hfe
        obtain rfl := Option.some.inj hfe
        rw [hgar] at hi
        cases hi)
      (fun e he => by obtain ⟨-, i, hi, hip, -⟩ := hmem e he; exact ⟨i, hi, hip⟩) s g
      (fun e he => tabFind_of_mem hsort (hmem e he).1) hsort hg hlen hn
    have hhold : p.hold ≠ .free := by
      have := List.find?_some hfind
      simp only [decide_eq_true_eq] at this
      rw [this]
      nofun
    refine ⟨_, g', rejoinTimeout_room hg he ((lateRoom_iff h8).mpr hroom) hreqs h1 (h2.due.trans hd), h1, h2.waiting _ _ hp hhold, h2.sreg,
      h2.handler.trans hh, h3, h4, fun e he i q hi hq hlane => ?_⟩
    obtain ⟨-, i', hi', -, htag⟩ := hmem e he
    obtain rfl := Option.some.inj (hi'.symm.trans hi)
    obtain ⟨hgone, hback, hholds⟩ := h5 e he i' q hi hq hlane
    rw [htag] at hback
    refine ⟨hgone, hback, hholds.imp (fun ⟨x, hx, hm, hspc⟩ => ⟨x, hx, getLsbD_of_and_laneBit hlane hm, hspc⟩)
      (fun ⟨x, hx, hm, hspc⟩ => ⟨x, hx, getLsbD_of_and_laneBit hlane hm, hspc⟩)⟩

/-! ### `RJOIN` in a Garnet context (R122, R125, R160) -/

section
variable {s : State} {c g : Group} {p : Path} {i : Garnet}

/-- A context's slot once its lane has come back from `RJOIN`. -/
def returnedSlot (now : Nat) (g : Group) (p : Path) (i : Garnet) : RjSlot :=
  let x := slotAt g i.tag.toNat
  { x with
    rjm := x.rjm &&& ~~~ laneBit i.lane, returned := x.returned ||| laneBit i.lane, rtags := x.rtags ||| i.tags,
    rspc := p.spc + 4, rlpc := p.lpc, limit := g.rjto.toNat,
    timer := if x.timer = 0 then 0 else if g.pausedAt = 0 then now + 1 else g.pausedAt + 1 }
/-- The group once context `c` has returned its lane, before a path forms. -/
def laneBack (t : Nat) (c : Group) (p : Path) (i : Garnet) (g : Group) : Group :=
  setSlot (writeBackLane g (landAll c (t + 64)) i) i.tag.toNat (returnedSlot t g p i)

theorem writeBackLane_returnedSlot {x : Group} {t : Nat} : returnedSlot t (writeBackLane g x i) p i = returnedSlot t g p i := by
  have hs : (writeBackLane g x i).slots = g.slots := writeBackLane_slots
  have hr : (writeBackLane g x i).rjto = g.rjto := by simpa using congrArg Group.rjto (writeBackLane_apart (g := g) (x := x) (i := i))
  have hp : (writeBackLane g x i).pausedAt = g.pausedAt := by
    simpa using congrArg Group.pausedAt (writeBackLane_apart (g := g) (x := x) (i := i))
  simp only [returnedSlot, slotAt_congr hs, hr, hp]

theorem tryRetire_of_path {gid : Nat} (hg : tabFind s.groups gid = some g) (hp : g.paths ≠ []) : tryRetire s gid = s := by
  have hr : mayRetire s gid g = false := by
    rw [mayRetire, show g.paths.isEmpty = false from List.isEmpty_eq_false_iff.mpr hp]
    simp
  simp only [tryRetire, hg, hr, Bool.false_eq_true, if_false]

/-- The lane comes back to a group that still has a path. -/
theorem rjoin_returns (h : s.At c p) (hi : c.garnet = some i) (hr : c.reqs = []) (hg : tabFind s.groups i.parent = some g)
    (hne : i.parent ≠ s.cur) (hsort : tabSorted s.groups = true) {G : Group}
    (hG : formReturned { s with groups := tabDel s.groups s.cur } (laneBack s.clock c p i g) i.tag.toNat = G) (hp : G.paths ≠ []) :
    exec (.rjoin i.tag) s = .next { s with groups := tabPut (tabDel s.groups s.cur) i.parent G } := by
  have hg' : tabFind (tabDel s.groups s.cur) i.parent = some g := (tabFind_del_ne hsort hne).trans hg
  rw [exec_rjoin, execRjoin, onPath_at _ h]
  simp only [hi, hr, List.isEmpty_nil, if_true]
  refine congrArg Host.Outcome.next ?_
  rw [returnLane, modGroup_of_find (s := { s with groups := tabDel s.groups s.cur }) hg']
  have hform : formReturned { s with groups := tabDel s.groups s.cur } (setSlot (writeBackLane g (landAll c (s.clock + 64)) i) i.tag.toNat
      (returnedSlot s.clock (writeBackLane g (landAll c (s.clock + 64)) i) p i)) i.tag.toNat = G := by
    rw [writeBackLane_returnedSlot]
    exact hG
  exact (congrArg (fun x => tryRetire (setGroup { s with groups := tabDel s.groups s.cur } i.parent x) i.parent) hform).trans
    (tryRetire_of_path (tabFind_setGroup_self _ _ _) hp)

theorem rjoin_other_tag {t : BitVec 2} (h : s.At c p) (hi : c.garnet = some i) (ht : t ≠ i.tag) :
    GoesTo s c p (exec (.rjoin t) s) c { p with spc := p.spc + 4 } := by
  have hr : exec (.rjoin t) s = .next (keep s c { p with spc := p.spc + 4, sig := if sigLive s c then rjoinCrc t else p.sig }) := by
    rw [exec_rjoin, execRjoin, onPath_at _ h]
    simp only [hi]
    exact if_neg (Ne.symm ht)
  rw [hr]
  exact goes_of_keep h rfl rfl rfl

/-! What the group holds once the lane is back. -/

section
variable {t : Nat}

theorem laneBack_apart : { laneBack t c p i g with
    vreg := g.vreg, vpoison := g.vpoison, pred := g.pred, fpflags := g.fpflags, slots := g.slots } = g := by
  have hw := writeBackLane_apart (g := g) (x := landAll c (t + 64)) (i := i)
  unfold laneBack
  generalize writeBackLane g (landAll c (t + 64)) i = w at hw ⊢
  calc { setSlot w i.tag.toNat (returnedSlot t g p i) with
        vreg := g.vreg, vpoison := g.vpoison, pred := g.pred, fpflags := g.fpflags, slots := g.slots }
      = { ({ w with vreg := g.vreg, vpoison := g.vpoison, pred := g.pred, fpflags := g.fpflags } : Group) with slots := g.slots } := rfl
    _ = g := by rw [hw]
theorem laneBack_paths : (laneBack t c p i g).paths = g.paths := by
  simpa using congrArg Group.paths (laneBack_apart (c := c) (p := p) (i := i) (g := g) (t := t))
theorem laneBack_recalls : (laneBack t c p i g).recalls = g.recalls := by
  simpa using congrArg Group.recalls (laneBack_apart (c := c) (p := p) (i := i) (g := g) (t := t))
theorem laneBack_scalars : (laneBack t c p i g).sreg = g.sreg ∧ (laneBack t c p i g).reqs = g.reqs ∧ (laneBack t c p i g).flags = g.flags := by
  have h := laneBack_apart (c := c) (p := p) (i := i) (g := g) (t := t)
  exact ⟨by simpa using congrArg Group.sreg h, by simpa using congrArg Group.reqs h, by simpa using congrArg Group.flags h⟩
theorem laneBack_regs : (laneBack t c p i g).vreg = (writeBackLane g (landAll c (t + 64)) i).vreg ∧
    (laneBack t c p i g).pred = (writeBackLane g (landAll c (t + 64)) i).pred ∧
    (laneBack t c p i g).fpflags = (writeBackLane g (landAll c (t + 64)) i).fpflags := by
  unfold laneBack
  generalize writeBackLane g (landAll c (t + 64)) i = w
  exact ⟨rfl, rfl, rfl⟩
theorem laneBack_slot (hlen : g.slots.length = 4) : slotAt (laneBack t c p i g) i.tag.toNat = returnedSlot t g p i := by
  have hs : (writeBackLane g (landAll c (t + 64)) i).slots = g.slots := writeBackLane_slots
  exact slotAt_setSlot_self _ (tag_lt_slots (hs.symm ▸ hlen) _)
theorem laneBack_length : (laneBack t c p i g).slots.length = g.slots.length := by
  rw [laneBack, setSlot, List.length_set, writeBackLane_slots]
end

/-! The path that returned lanes form. -/

/-- The lanes of a slot that no path and no recall entry is bound to form a path in a free entry. -/
theorem formReturned_forms {t n : Nat} (hr : (slotAt g t).returned ≠ 0) (hx : (slotAt g t).rjm = 0)
    (hb : ∀ q ∈ g.paths, q.tags &&& (1#4 <<< t) = 0) (he : ∀ e ∈ g.recalls, e.tags &&& (1#4 <<< t) = 0) (hn : freeEntry g = some n) :
    ∃ q, { q with sig := 0 } = { pathNew n (slotAt g t).rspc (slotAt g t).rlpc (slotAt g t).returned with
        tags := (slotAt g t).rtags &&& ~~~ (1#4 <<< t) } ∧
      formReturned s g t = setSlot { g with paths := g.paths ++ [q] } t { slotAt g t with returned := 0, rtags := 0 } := by
  have hb' : g.paths.any (fun q => q.tags &&& (1#4 <<< t) ≠ 0) = false := List.any_eq_false.mpr fun q hq => by simpa using hb q hq
  have he' : g.recalls.any (fun e => e.tags &&& (1#4 <<< t) ≠ 0) = false := List.any_eq_false.mpr fun e hm => by simpa using he e hm
  have hform : formReturned s g t = setSlot { g with paths := g.paths ++ [sigAdd s g
      { pathNew n (slotAt g t).rspc (slotAt g t).rlpc (slotAt g t).returned with tags := (slotAt g t).rtags &&& ~~~ (1#4 <<< t) }
      (fun _ => crcOf 4 (0x64000000 + t))] } t { slotAt g t with returned := 0, rtags := 0 } := by
    refine (if_neg ?_).trans (by rw [hn])
    rw [hb', he']
    rintro (h | h | h | h)
    · exact hr h
    · exact h hx
    · cases h
    · cases h
  exact ⟨_, sigAdd_apart .., hform⟩

theorem findPath_append {q : Path} {y : Path} (hy : y ∈ g.paths) : findPath { g with paths := g.paths ++ [q] } y.id = findPath g y.id := by
  have hsome : (g.paths.find? (fun x => decide (x.id = y.id))).isSome = true := List.find?_isSome.mpr ⟨y, hy, decide_eq_true rfl⟩
  obtain ⟨x, hx⟩ := Option.isSome_iff_exists.mp hsome
  exact (List.find?_append ..).trans (by rw [hx]; exact hx.symm)

end

/-- The lane of a context returns to a slot that a path is still bound to. -/
theorem rjoin_to_bound_slot {s : State} {c g : Group} {p : Path} {i : Garnet} (h : s.At c p) (hi : c.garnet = some i) (hr : c.reqs = [])
    (hg : tabFind s.groups i.parent = some g) (hne : i.parent ≠ s.cur) (hsort : tabSorted s.groups = true)
    (hb : ∃ q ∈ g.paths, q.tags &&& (1#4 <<< i.tag.toNat) ≠ 0) :
    exec (.rjoin i.tag) s = .next { s with groups := tabPut (tabDel s.groups s.cur) i.parent (laneBack s.clock c p i g) } := by
  have hpaths : (laneBack s.clock c p i g).paths = g.paths := laneBack_paths
  refine rjoin_returns h hi hr hg hne hsort (formReturned_of_bound (by rw [hpaths]; exact hb)) ?_
  obtain ⟨q, hq, -⟩ := hb
  rw [hpaths]
  exact List.ne_nil_of_mem hq

/-- The last lane of a slot that nothing is bound to forms a path with the others that had returned. -/
theorem rjoin_forms_path {s : State} {c g : Group} {p : Path} {i : Garnet} {n : Nat} (h : s.At c p) (hi : c.garnet = some i) (hr : c.reqs = [])
    (hg : tabFind s.groups i.parent = some g) (hne : i.parent ≠ s.cur) (hsort : tabSorted s.groups = true) (hlen : g.slots.length = 4)
    (hlane : i.lane < 96) (hb : ∀ q ∈ g.paths, q.tags &&& (1#4 <<< i.tag.toNat) = 0)
    (he : ∀ e ∈ g.recalls, e.tags &&& (1#4 <<< i.tag.toNat) = 0) (hrjm : (slotAt g i.tag.toNat).rjm = laneBit i.lane)
    (hn : freeEntry g = some n) :
    ∃ q, { q with sig := 0 } = { pathNew n (p.spc + 4) p.lpc ((slotAt g i.tag.toNat).returned ||| laneBit i.lane) with
          tags := ((slotAt g i.tag.toNat).rtags ||| i.tags) &&& ~~~ (1#4 <<< i.tag.toNat) } ∧
      exec (.rjoin i.tag) s = .next { s with
        groups := tabPut (tabDel s.groups s.cur) i.parent
          (setSlot { laneBack s.clock c p i g with paths := g.paths ++ [q] } i.tag.toNat
            { returnedSlot s.clock g p i with returned := 0, rtags := 0 }) } := by
  have hpaths : (laneBack s.clock c p i g).paths = g.paths := laneBack_paths
  have hrecalls : (laneBack s.clock c p i g).recalls = g.recalls := laneBack_recalls
  have hslot : slotAt (laneBack s.clock c p i g) i.tag.toNat = returnedSlot s.clock g p i := laneBack_slot hlen
  have hlast : (returnedSlot s.clock g p i).rjm = 0 := by
    show (slotAt g i.tag.toNat).rjm &&& ~~~ laneBit i.lane = 0
    rw [hrjm]
    exact BitVec.and_not_self _
  have hset : (returnedSlot s.clock g p i).returned.getLsbD i.lane = true := by
    show ((slotAt g i.tag.toNat).returned ||| laneBit i.lane).getLsbD i.lane = true
    rw [BitVec.getLsbD_or, (laneBit_getLsbD hlane).mpr rfl, Bool.or_true]
  have hsome : (returnedSlot s.clock g p i).returned ≠ 0 := fun h0 => by
    rw [h0] at hset
    simp at hset
  have hfree : freeEntry (laneBack s.clock c p i g) = some n := by simpa only [freeEntry, findPath, hpaths] using hn
  obtain ⟨q, hq, hform⟩ := formReturned_forms (s := { s with groups := tabDel s.groups s.cur }) (g := laneBack s.clock c p i g) (t := i.tag.toNat)
    (hslot.symm ▸ hsome) (hslot.symm ▸ hlast) (hpaths.symm ▸ hb) (hrecalls.symm ▸ he) hfree
  rw [hslot] at hq hform
  rw [hpaths] at hform
  refine ⟨q, hq, rjoin_returns h hi hr hg hne hsort hform ?_⟩
  exact List.append_ne_nil_of_right_ne_nil _ (List.cons_ne_nil _ _)

/-- Settles O19: `RJOIN` in a group, the rejoin timer and `RJOIN` in a context stand above; the latter two rest on what a context gives back. -/
theorem rejoining : Obligations.Rejoining := by
  unfold Obligations.Rejoining
  refine ⟨fun s g p t h hgar hrec hlen => ?_, fun s gid g p t hg hfind hp hh hgar ho hsusp hd hr ht hl h8 =>
    rejoin_timer hg hfind hp hh hgar ho hsusp hd hr ht hl h8, fun s c p i g t h hi hr hg hne hsort hlen hregs hlane _ => ?_⟩
  · exact ⟨fun hst hb => rjoin_outside h hgar hst hb, fun _ _ _ _ _ hst => rjoin_pending h hgar hst,
      fun hst hb hothers hx hdue hret => rjoin_leaves h hgar hrec hlen hst hb hdue hret hothers hx,
      fun hst hb hothers hwait hdue hret => rjoin_waits h hgar hrec hlen hst hb hdue hret hothers hwait⟩
  · have hgone (G : Group) : tabFind (tabPut (tabDel s.groups s.cur) i.parent G) s.cur = none :=
      (tabFind_put_ne _ _ hne.symm).trans (tabFind_del_self _ hsort)
    have hslot : slotAt (laneBack s.clock c p i g) i.tag.toNat = returnedSlot s.clock g p i := laneBack_slot hlen
    obtain ⟨hv, hpr, hf⟩ := laneBack_regs (c := c) (p := p) (i := i) (g := g) (t := s.clock)
    obtain ⟨hsreg, hreqs, hflags⟩ := laneBack_scalars (c := c) (p := p) (i := i) (g := g) (t := s.clock)
    refine ⟨fun ht => rjoin_other_tag h hi ht, fun hb => ?_, fun hb he hrjm ⟨n, hn⟩ => ?_⟩
    · refine ⟨_, laneBack s.clock c p i g, rjoin_to_bound_slot h hi hr hg hne hsort hb, hgone _, tabFind_put_self _ _ _, laneBack_paths,
        ?_, ?_, fun htimer hpause => ?_, fun v l hl => by rw [hv, writeBackLane_vreg hregs hlane v l hl],
        fun k l => by rw [hpr, writeBackLane_pred hregs hlane], hsreg, hreqs, hflags, hf.trans writeBackLane_fpflags,
        fun k hk hk' => (tabFind_put_ne _ _ hk').trans (tabFind_del_ne hsort hk), rfl⟩
      · rw [hslot]; rfl
      · rw [hslot]; rfl
      · rw [hslot]; exact (if_neg htimer).trans (if_pos hpause)
    · obtain ⟨q, hq, hexec⟩ := rjoin_forms_path h hi hr hg hne hsort hlen hlane hb he hrjm hn
      have hlen' : (laneBack s.clock c p i g).slots.length = 4 := laneBack_length.trans hlen
      generalize laneBack s.clock c p i g = G at hexec hlen'
      have hlast := slotAt_setSlot_self (g := { G with paths := g.paths ++ [q] })
        { returnedSlot s.clock g p i with returned := 0, rtags := 0 } (tag_lt_slots (g := G) hlen' i.tag)
      refine ⟨_, _, q, hexec, hgone _, tabFind_put_self _ _ _, List.mem_append_right _ (List.mem_singleton.mpr rfl),
        by simpa [pathNew] using congrArg Path.spc hq, by simpa [pathNew] using congrArg Path.lpc hq, by simpa [pathNew] using congrArg Path.mask hq,
        by simpa [pathNew] using congrArg Path.owned hq, by simpa using congrArg Path.tags hq, fun y hy => findPath_append (q := q) hy, ?_, ?_⟩
      · rw [hlast]
      · rw [hlast]
        show (slotAt g i.tag.toNat).rjm &&& ~~~ laneBit i.lane = 0
        rw [hrjm]
        exact BitVec.and_not_self _

end Sys2Proof.Machine
end

section
/-! # Reliability (O48)

Poisoned frames, parity retries, degraded stacks, the vote of a remap table, storage errors and lifetime records. -/
namespace Sys2Proof.Machine

/-! ### Containment records (R377, R378) -/

theorem mem_foldl_setIns {l k : List Nat} {f : Nat} : f ∈ l.foldl setIns k ↔ f ∈ l ∨ f ∈ k := by
  induction l generalizing k with
  | nil => simp
  | cons x l ih => simp only [List.foldl_cons, ih, mem_setIns, List.mem_cons]; tauto
/-- Three equal copies are read as they stand. -/
theorem mem_votes_same {l w : List Nat} {f : Nat} : f ∈ votes { a := l, b := l, c := l, wholes := w } ↔ f ∈ l := by
  simp only [votes, List.mem_filter, mem_foldl_setIns, List.mem_append, true_or, if_true, decide_eq_true_iff]
  tauto
theorem lists_same {l w : List Nat} {f : Nat} :
    lists { a := l, b := l, c := l, wholes := w } f = (decide (f ∈ l) != decide (f / stackFrames ∈ w)) := by
  simp only [lists, mem_votes_same]

/-- A frame that has been entered is listed. -/
theorem lists_listFrame (c : Copies) (f : Nat) : lists (listFrame c f) f = true := by
  rw [listFrame, lists_same]
  by_cases h : f / stackFrames ∈ c.wholes
  · simp [h, setDel]
  · simp [h, mem_setIns]
/-- So is every frame of a stack that has been entered, and no other changes. -/
theorem lists_listStack (c : Copies) (st f : Nat) : lists (listStack c st) f = if f / stackFrames = st then true else lists c f := by
  rw [listStack, lists_same]
  by_cases h : f / stackFrames = st
  · simp [h, mem_setIns]
  · simp [h, mem_setIns, lists]

/-! ### Poisoned frames and the array log (R372, R374, R376) -/

theorem ringAdd_eq {α : Type} (l : List α) (x : α) : ringAdd l x = l.drop (l.length - Config.logEntries) ++ [x] :=
  List.drop_append_of_le_length (Nat.sub_le _ _)
theorem getLast?_ringAdd {α : Type} (l : List α) (x : α) : (ringAdd l x).getLast? = some x := by
  rw [ringAdd_eq, List.getLast?_concat]

section
variable {s : State} {pa : Nat}

theorem privAlias_hbm (h : pa < Config.hbmBytes) : privAlias pa = pa := by simp [privAlias, tierOf_hbm h]
theorem stackBehind_hbm (h : pa < Config.hbmBytes) : stackBehind pa = some (pa / Config.stackBytes) := by simp [stackBehind, privAlias_hbm h, h]
theorem codeword_hbm (h : pa < Config.hbmBytes) (hp : s.promoted = []) : codeword s pa = pa / 32 := by
  simp [codeword, redirect, hp, privAlias_hbm h]

/-- The entry of the array log for a codeword of HBM. -/
def arrayEntry (s : State) (pa : Nat) (byte : Option Nat) : ArrayEnt :=
  { stack := pa / Config.stackBytes, column := pa / 4096 % 16, pa := pa, codeword := pa / 32 % 4, clock := s.clock, byte := byte }
theorem noteArray_hbm (h : pa < Config.hbmBytes) (byte : Option Nat) :
    noteArray s pa byte = { s with arrayLog := ringAdd s.arrayLog (arrayEntry s pa byte) } := by
  have h1 : homeCore pa / 16 = pa / Config.stackBytes := by unfold homeCore; omega
  have h2 : homeCore pa % 16 = pa / 4096 % 16 := by unfold homeCore; omega
  simp only [noteArray, privAlias_hbm h, h1, h2]
  rfl

theorem poisonAt_hbm (h : pa < Config.hbmBytes) (hp : s.promoted = []) (hb : s.blockTables = []) :
    poisonAt s pa = modLife { s with
      poison := setIns s.poison (pa / 32), poisonFrames := listFrame s.poisonFrames (pa / 4096),
      arrayLog := ringAdd s.arrayLog (arrayEntry s pa none) } (pa / Config.stackBytes)
        (fun l => { l with uncorrectable := l.uncorrectable + 1 }) := by
  simp only [poisonAt, codeword_hbm h hp, privAlias_hbm h, noteArray_hbm h, stackBehind_hbm h]
  simp only [modLife, modStack, setStack, hb, List.foldl_nil]
  rfl
theorem correctByte_hbm {byte : Nat} (h : pa < Config.hbmBytes) (hb : byte < 36) : correctByte s pa byte =
    modLife { s with arrayLog := ringAdd s.arrayLog (arrayEntry s pa (some byte)) } (pa / Config.stackBytes)
      (fun l => { l with corrected := l.corrected + 1 }) := by
  have hc : ¬ (Tier.hbm = .none ∨ Tier.hbm = .flash ∨ 36 ≤ byte) := by
    rintro (h | h | h)
    · cases h
    · cases h
    · omega
  simp only [correctByte, tierOf_hbm h, if_neg hc, noteArray_hbm h, stackBehind_hbm h]

theorem stackOf_modLife (st j : Nat) (f : Life → Life) :
    (stackOf (modLife s st f) j).life = if j = st then f (stackOf s st).life else (stackOf s j).life := by
  rw [modLife, stackOf_modStack]
  split <;> rfl

theorem stackOf_modLife_self (st : Nat) (f : Life → Life) : (stackOf (modLife s st f) st).life = f (stackOf s st).life := by
  rw [stackOf_modLife, if_pos rfl]

/-- A poisoned frame. -/
theorem framePoison_poisons (h : pa < Config.hbmBytes) (hp : s.promoted = []) (hb : s.blockTables = []) :
    ∃ t n, exec (.framePoison pa) s = .next t ∧ pa / 32 ∈ t.poison ∧ (∀ w ∈ s.poison, w ∈ t.poison) ∧
      lists t.poisonFrames (pa / 4096) = true ∧ t.poisonFrames.a = t.poisonFrames.b ∧ t.poisonFrames.b = t.poisonFrames.c ∧
      t.arrayLog = s.arrayLog.drop n ++ [{ stack := pa / Config.stackBytes, column := pa / 4096 % 16, pa := pa, codeword := pa / 32 % 4,
                                           clock := s.clock, byte := none }] ∧
      t.busLog = s.busLog ∧ t.mem = s.mem ∧ t.groups = s.groups ∧
      (stackOf t (pa / Config.stackBytes)).life.uncorrectable = (stackOf s (pa / Config.stackBytes)).life.uncorrectable + 1 := by
  have hexec : exec (.framePoison pa) s = .next (poisonAt s pa) := by
    rw [exec_framePoison, execFramePoison, tierOf_hbm h]
    exact if_neg (by rintro (h | h) <;> cases h)
  rw [hexec, poisonAt_hbm h hp hb]
  refine ⟨_, _, rfl, mem_setIns.mpr (.inl rfl), fun w hw => mem_setIns.mpr (.inr hw), lists_listFrame _ _, rfl, rfl, ringAdd_eq _ _,
    rfl, rfl, rfl, ?_⟩
  rw [stackOf_modLife_self]
  rfl

end

/-! ### Parity retries (R375) -/

section
variable {s : State} {c grp lane pa n : Nat}

/-- The state once a beat's retries are counted and logged; `swap` is the lane that was steered to a spare, `alone` says that ECC is left. -/
def retried (s : State) (c grp pa retries : Nat) (swap : Option (Nat × Nat)) (alone : Bool) : State :=
  let t := modCore s c (fun k => { k with swaps := k.swaps ++ swap.toList, noSpare := k.noSpare || alone })
  let entry : BusEnt := { stack := c / 16, column := c % 16, pa := pa, beat := pa / 32 % 128, clock := s.clock, group := grp,
                          retries := retries, swap := swap }
  modLife { t with busLog := ringAdd s.busLog entry } (c / 16) (fun l => { l with
    retries := l.retries + retries, swaps := l.swaps + (if swap.isSome then 1 else 0) })

theorem retried_core (retries : Nat) (swap : Option (Nat × Nat)) (alone : Bool) : coreOf (retried s c grp pa retries swap alone) c =
    { coreOf s c with swaps := (coreOf s c).swaps ++ swap.toList, noSpare := (coreOf s c).noSpare || alone }  :=
  coreOf_modCore_self s c (fun k => { k with swaps := k.swaps ++ swap.toList, noSpare := k.noSpare || alone })
theorem retried_life (retries : Nat) (swap : Option (Nat × Nat)) (alone : Bool) (j : Nat) :
    (stackOf (retried s c grp pa retries swap alone) j).life = if j = c / 16 then { (stackOf s j).life with
        retries := (stackOf s j).life.retries + retries, swaps := (stackOf s j).life.swaps + (if swap.isSome then 1 else 0) }
      else (stackOf s j).life := by
  rw [retried, stackOf_modLife]
  split
  · next h => rw [h]; rfl
  · rfl
theorem retried_sameBytes (retries : Nat) (swap : Option (Nat × Nat)) (alone : Bool) :
    SameBytes s (retried s c grp pa retries swap alone) :=
  ⟨homeByte_congr rfl rfl rfl, fun d o => spadByte_modCore (f := fun k => { k with swaps := k.swaps ++ swap.toList, noSpare := k.noSpare || alone })
    (fun _ => rfl) d o⟩

/-- A retry that passes, or the third, after which the lane goes to a spare or to ECC. -/
theorem parityRetry_eq (hc : c < 768) (hg : groupLane grp lane = true) (hn : n ≠ 0) :
    exec (.parityRetry c grp lane pa n) s = .next (
      if n ≤ 3 then retried s c grp pa n none false
      else if 2 ≤ (coreOf s c).swaps.length then eccAlone (retried s c grp pa 3 none true) lane pa (n - 4)
      else retried s c grp pa 3 (some (lane, (coreOf s c).swaps.length)) false) := by
  have hcond : ¬ (Config.coreCount ≤ c ∨ !groupLane grp lane ∨ n = 0) := by
    rw [hg]
    rintro (h | h | h)
    · exact absurd hc h.not_gt
    · cases h
    · exact hn h
  rw [exec_parityRetry, execParityRetry, if_neg hcond]
  by_cases h3 : n ≤ 3
  · simp [h3, retried, modLife, modStack, setStack, stackNo, modCore, setCore]
  · have h4 : min n 3 = 3 := by omega
    by_cases hf : 2 ≤ (coreOf s c).swaps.length
    · simp [h3, h4, hf, retried, modLife, modStack, setStack, stackNo, modCore, setCore]
    · simp [h3, h4, hf, retried, modLife, modStack, setStack, stackNo, modCore, setCore]

/-- What the retries of a beat leave in a state that differs from `retried` only in what ECC poisons, logs and counts. -/
theorem retried_leaves {t : State} {retries : Nat} {swap : Option (Nat × Nat)} {alone : Bool}
    (hapart : { t with poison := s.poison, poisonFrames := s.poisonFrames, arrayLog := s.arrayLog, stks := s.stks } =
      { retried s c grp pa retries swap alone with stks := s.stks })
    (hlife : (stackOf t (c / 16)).life.retries = (stackOf (retried s c grp pa retries swap alone) (c / 16)).life.retries) :
    (coreOf t c).swaps = (coreOf s c).swaps ++ swap.toList ∧
      t.busLog = s.busLog.drop (s.busLog.length - Config.logEntries) ++ [{
        stack := c / 16, column := c % 16, pa := pa, beat := pa / 32 % 128, clock := s.clock, group := grp, retries := retries, swap := swap }] ∧
      (stackOf t (c / 16)).life.retries = (stackOf s (c / 16)).life.retries + retries ∧ SameBytes s t := by
  have hcores : t.cores = (retried s c grp pa retries swap alone).cores := by simpa using congrArg State.cores hapart
  have hbus : t.busLog = (retried s c grp pa retries swap alone).busLog := by simpa using congrArg State.busLog hapart
  have hmem : t.mem = (retried s c grp pa retries swap alone).mem := by simpa using congrArg State.mem hapart
  have hprom : t.promoted = (retried s c grp pa retries swap alone).promoted := by simpa using congrArg State.promoted hapart
  have hsegs : t.segments = (retried s c grp pa retries swap alone).segments := by simpa using congrArg State.segments hapart
  obtain ⟨hbytes, hspad⟩ := retried_sameBytes (s := s) (c := c) (grp := grp) (pa := pa) retries swap alone
  refine ⟨?_, hbus.trans (ringAdd_eq _ _), ?_, fun a => (homeByte_congr hmem hprom hsegs a).trans (hbytes a),
    fun d o => (spadByte_congr hcores d o).trans (hspad d o)⟩
  · have hcore : coreOf t c = coreOf (retried s c grp pa retries swap alone) c := by rw [coreOf, coreOf, hcores]
    rw [hcore, retried_core]
  · rw [hlife, retried_life, if_pos rfl]

/-- Retries move no other counter than their own and that of the steered lanes. -/
theorem retried_errors (retries : Nat) (swap : Option (Nat × Nat)) (alone : Bool) (j : Nat) :
    (stackOf (retried s c grp pa retries swap alone) j).life.corrected = (stackOf s j).life.corrected ∧
      (stackOf (retried s c grp pa retries swap alone) j).life.uncorrectable = (stackOf s j).life.uncorrectable := by
  rw [retried_life]
  split <;> exact ⟨rfl, rfl⟩


/-- The claims about a retry, for a state that its cases leave. -/
theorem parityRetry_cases (hc : c < 768) (hg : groupLane grp lane = true) :
    let full := decide (2 ≤ (coreOf s c).swaps.length)
    let runs := fun (tries retries : Nat) (swap : Option (Nat × Nat)) (f : State → Prop) => ∃ t k,
      exec (.parityRetry c grp lane pa tries) s = .next t ∧ (coreOf t c).swaps = (coreOf s c).swaps ++ swap.toList ∧
      t.busLog = s.busLog.drop k ++ [{ stack := c / 16, column := c % 16, pa := pa, beat := pa / 32 % 128, clock := s.clock, group := grp,
                                       retries := retries, swap := swap }] ∧
      (stackOf t (c / 16)).life.retries = (stackOf s (c / 16)).life.retries + retries ∧ SameBytes s t ∧ f t
    (n ∈ [1, 2, 3] → runs n n none (fun t => t.groups = s.groups ∧ t.arrayLog = s.arrayLog)) ∧
    (3 < n → full = false → runs n 3 (some (lane, (coreOf s c).swaps.length)) (fun t => t.arrayLog = s.arrayLog ∧
      (stackOf t (c / 16)).life.swaps = (stackOf s (c / 16)).life.swaps + 1)) ∧
    (full = true → pa < Config.hbmBytes → s.promoted = [] → s.blockTables = [] →
      let life := fun (t : State) => (stackOf t (pa / Config.stackBytes)).life
      runs 4 3 none (fun t => (coreOf t c).noSpare = true ∧ t.arrayLog = s.arrayLog ∧ t.poison = s.poison) ∧
      (lane < 288 → runs 5 3 none (fun t => (coreOf t c).noSpare = true ∧ (life t).corrected = (life s).corrected + 1 ∧ t.poison = s.poison ∧
        t.arrayLog.getLast?.map (fun e => (e.pa, e.byte)) = some (pa, some (lane / 8)))) ∧
      runs 6 3 none (fun t => (coreOf t c).noSpare = true ∧ (life t).uncorrectable = (life s).uncorrectable + 1 ∧ pa / 32 ∈ t.poison)) := by
  intro full runs
  have hruns {tries retries : Nat} {swap : Option (Nat × Nat)} {alone : Bool} {f : State → Prop} {t : State}
      (hexec : exec (.parityRetry c grp lane pa tries) s = .next t)
      (hapart : { t with poison := s.poison, poisonFrames := s.poisonFrames, arrayLog := s.arrayLog, stks := s.stks } =
        { retried s c grp pa retries swap alone with stks := s.stks })
      (hlife : (stackOf t (c / 16)).life.retries = (stackOf (retried s c grp pa retries swap alone) (c / 16)).life.retries) (hft : f t) :
      runs tries retries swap f := by
    obtain ⟨h1, h2, h3, h4⟩ := retried_leaves hapart hlife
    exact ⟨t, _, hexec, h1, h2, h3, h4, hft⟩
  refine ⟨fun hn => ?_, fun hn hfull => ?_, fun hfull hpa hp hb => ?_⟩
  · have hn : n ≠ 0 ∧ n ≤ 3 := by simp only [List.mem_cons, List.not_mem_nil, or_false] at hn; omega
    have hexec := parityRetry_eq (s := s) (pa := pa) hc hg hn.1
    rw [if_pos hn.2] at hexec
    exact hruns hexec rfl rfl ⟨rfl, rfl⟩
  · have hexec := parityRetry_eq (s := s) (pa := pa) hc hg (show n ≠ 0 by omega)
    rw [if_neg (by omega), if_neg (of_decide_eq_false hfull)] at hexec
    refine hruns hexec rfl rfl ⟨rfl, ?_⟩
    rw [retried_life, if_pos rfl]
    rfl
  · have hexec {m : Nat} (hm : 3 < m) : exec (.parityRetry c grp lane pa m) s =
        .next (eccAlone (retried s c grp pa 3 none true) lane pa (m - 4)) := by
      rw [parityRetry_eq hc hg (by omega), if_neg (by omega), if_pos (of_decide_eq_true hfull)]
    have hspare : (coreOf (retried s c grp pa 3 none true) c).noSpare = true := by
      rw [retried_core]
      exact Bool.or_true _
    obtain ⟨hcorr, hunc⟩ := retried_errors (s := s) (c := c) (grp := grp) (pa := pa) 3 none true (pa / Config.stackBytes)
    refine ⟨hruns (hexec (by omega)) rfl rfl ⟨hspare, rfl, rfl⟩, fun hlane => ?_, ?_⟩
    · have hecc : eccAlone (retried s c grp pa 3 none true) lane pa (5 - 4) = _ :=
        (if_neg (by omega)).trans (correctByte_hbm hpa (by omega : lane / 8 < 36))
      refine hruns ((hexec (by omega)).trans (congrArg _ hecc)) rfl ?_ ⟨hspare, ?_, rfl, ?_⟩
      · rw [stackOf_modLife]
        split
        · next h => rw [← h]; rfl
        · rfl
      · exact (congrArg Life.corrected (stackOf_modLife_self _ _)).trans (congrArg (· + 1) hcorr)
      · exact congrArg (Option.map _) (getLast?_ringAdd _ _)
    · have hhbm : ¬ (tierOf pa = .none ∨ tierOf pa = .flash) := by
        rw [tierOf_hbm hpa]
        rintro (h | h) <;> cases h
      have hecc : eccAlone (retried s c grp pa 3 none true) lane pa (6 - 4) = _ := (if_neg hhbm).trans (poisonAt_hbm hpa hp hb)
      refine hruns ((hexec (by omega)).trans (congrArg _ hecc)) rfl ?_ ⟨hspare, ?_, mem_setIns.mpr (.inl rfl)⟩
      · rw [stackOf_modLife]
        split
        · next h => rw [← h]; rfl
        · rfl
      · exact (congrArg Life.uncorrectable (stackOf_modLife_self _ _)).trans (congrArg (· + 1) hunc)

end

/-! ### Events of the device, and degraded stacks (R343, R378) -/

/-- What a class 2 event leaves as it is: the marks of stacks, the notices, the frames that are listed, every byte, and which team a group is
of; a team that has been halted stays halted. -/
structure EventKeeps (s t : State) : Prop where
  degraded : ∀ st, (stackOf t st).degraded = (stackOf s st).degraded
  rest : { t with teams := s.teams, groups := s.groups, launches := s.launches, stks := s.stks, fresh := s.fresh } = s
  teams : ∀ n x, tabFind s.teams n = some x → ∃ y, tabFind t.teams n = some y ∧ (x.halted = true → y.halted = true)
  groups : ∀ gid, (tabFind t.groups gid).map (fun g => g.team) = (tabFind s.groups gid).map (fun g => g.team)

theorem EventKeeps.refl (s : State) : EventKeeps s s := ⟨fun _ => rfl, rfl, fun _ x h => ⟨x, h, id⟩, fun _ => rfl⟩
theorem EventKeeps.trans {s t u : State} (h : EventKeeps s t) (h' : EventKeeps t u) : EventKeeps s u where
  degraded st := (h'.degraded st).trans (h.degraded st)
  rest := by
    have e := congrArg (fun x : State =>
      { x with teams := s.teams, groups := s.groups, launches := s.launches, stks := s.stks, fresh := s.fresh }) h'.rest
    exact e.trans h.rest
  teams n x hx := by
    obtain ⟨y, hy, hxy⟩ := h.teams n x hx
    obtain ⟨z, hz, hyz⟩ := h'.teams n y hy
    exact ⟨z, hz, fun hh => hyz (hxy hh)⟩
  groups gid := (h'.groups gid).trans (h.groups gid)
theorem EventKeeps.sameBytes {s t : State} (h : EventKeeps s t) : SameBytes s t :=
  sameBytes_of (by simpa using congrArg State.mem h.rest) (by simpa using congrArg State.promoted h.rest)
    (by simpa using congrArg State.segments h.rest) (by simpa using congrArg State.cores h.rest)

section
variable {s : State} {gid : Nat} {g : Group} {x : TrapInfo}

/-- A change of a team that does not let it go on. -/
theorem modTeam_eventKeeps {n : Nat} {f : Team → Team} (hf : ∀ y, y.halted = true → (f y).halted = true) : EventKeeps s (modTeam s n f) := by
  refine ⟨fun _ => rfl, rfl, fun k y hy => ?_, fun _ => rfl⟩
  rw [modTeam, tabFind_mod]
  split
  · next h => subst h; exact ⟨f y, by rw [hy]; rfl, hf y⟩
  · exact ⟨y, hy, id⟩
theorem modStack_eventKeeps {st : Nat} {f : Stack → Stack} (hf : ∀ k, (f k).degraded = k.degraded) : EventKeeps s (modStack s st f) := by
  refine ⟨fun j => ?_, rfl, fun _ y hy => ⟨y, hy, id⟩, fun _ => rfl⟩
  rw [stackOf_modStack]
  split
  · next h => rw [hf, h]
  · rfl
theorem haltTeam_eventKeeps {n : Nat} : EventKeeps s (haltTeam s n) := by
  refine (modTeam_eventKeeps (n := n) (f := fun y => { y with halted := true }) fun _ _ => rfl).trans
    ⟨fun _ => rfl, rfl, fun _ y hy => ⟨y, hy, id⟩, fun k => ?_⟩
  have hmap := tabFind_map (f := fun e : Nat × Group => if e.2.team = n then (e.1, { e.2 with susp := .halted }) else e)
    (fun e => by split <;> rfl) s.groups k
  refine (congrArg (Option.map fun g => g.team) hmap).trans ?_
  show _ = (tabFind s.groups k).map (fun g => g.team)
  cases tabFind s.groups k with
  | none => rfl
  | some g =>
    simp only [Option.map_some]
    split <;> rfl
theorem fresh_eventKeeps (n : Nat) : EventKeeps s { s with fresh := n } := ⟨fun _ => rfl, rfl, fun _ y hy => ⟨y, hy, id⟩, fun _ => rfl⟩
theorem fatal_eventKeeps : EventKeeps s (fatal s gid g x) := by
  have hhalt : EventKeeps s (haltTeam s g.team) := haltTeam_eventKeeps
  unfold fatal
  extract_lets r s1
  split
  · exact hhalt
  · split
    · split
      · exact hhalt.trans ⟨fun _ => rfl, rfl, fun _ y hy => ⟨y, hy, id⟩, fun _ => rfl⟩
      · exact hhalt
    · have hteam : EventKeeps s1 (modTeam s1 g.team (fun x => { x with fatal := true })) := modTeam_eventKeeps fun _ h => h
      exact hhalt.trans (hteam.trans ((fresh_eventKeeps _).trans (modStack_eventKeeps (f := fun k => { k with fatal := k.fatal ++ [r] }) fun _ => rfl)))
/-- The team of a fatal event is halted. -/
theorem fatal_halts {tm : Team} (h : tabFind s.teams g.team = some tm) :
    ∃ y, tabFind (fatal s gid g x).teams g.team = some y ∧ y.halted = true := by
  have hteam : tabFind (haltTeam s g.team).teams g.team = some { tm with halted := true } := by
    simp [haltTeam, modTeam, tabFind_mod, h]
  unfold fatal
  extract_lets r s1
  rw [show tabFind s1.teams g.team = _ from hteam]
  dsimp only
  split
  · split
    · exact ⟨_, hteam, rfl⟩
    · exact ⟨_, hteam, rfl⟩
  · exact (modTeam_eventKeeps (s := s1) (n := g.team) (f := fun x => { x with fatal := true }) fun _ h => h).teams g.team _ hteam |>.imp
      fun y ⟨hy, hh⟩ => ⟨hy, hh rfl⟩

theorem deviceEvent_eventKeeps {code : Nat} : EventKeeps s (deviceEvent s gid code) := by
  unfold deviceEvent
  split
  · exact fatal_eventKeeps
  · exact .refl s

/-- The event by which a stack that is degraded ends a team. -/
def degradeTeam (s : State) (e : Nat × Team) : State :=
  match e.2.groups with
  | g :: _ => deviceEvent s g 0x4F
  | [] => s
theorem degradeTeam_eventKeeps (e : Nat × Team) : EventKeeps s (degradeTeam s e) := by
  unfold degradeTeam
  split
  · exact deviceEvent_eventKeeps
  · exact .refl s

theorem degradeTeams_eventKeeps (l : List (Nat × Team)) : EventKeeps s (l.foldl degradeTeam s) :=
  foldl_keeps (P := EventKeeps s) l (fun _ e h => h.trans (degradeTeam_eventKeeps e)) (.refl s)

/-- Each team that is ended, by its first group, is halted. -/
theorem degradeTeams_halts {l : List (Nat × Team)} {n : Nat} {tm y : Team} {rest : List Nat} (hl : (n, tm) ∈ l) (hgs : tm.groups = gid :: rest)
    (hy : tabFind s.teams n = some y) (hg : tabFind s.groups gid = some g) (hn : g.team = n) :
    ∃ z, tabFind (l.foldl degradeTeam s).teams n = some z ∧ z.halted = true := by
  obtain ⟨l1, l2, rfl⟩ := List.append_of_mem hl
  rw [List.foldl_append, List.foldl_cons]
  have hbefore := degradeTeams_eventKeeps (s := s) l1
  generalize l1.foldl degradeTeam s = t at hbefore
  obtain ⟨y', hy', -⟩ := hbefore.teams n y hy
  have hteam := hbefore.groups gid
  rw [hg] at hteam
  obtain ⟨g', hg', hn'⟩ := Option.map_eq_some_iff.mp hteam
  replace hn' : g'.team = n := hn'.trans hn
  have hevent : ∃ z, tabFind (degradeTeam t (n, tm)).teams n = some z ∧ z.halted = true := by
    simp only [degradeTeam, hgs, deviceEvent, hg']
    rw [← hn']
    exact fatal_halts (by rw [hn']; exact hy')
  obtain ⟨z, hz, hh⟩ := hevent
  obtain ⟨z', hz', hh'⟩ := (degradeTeams_eventKeeps (s := degradeTeam t (n, tm)) l2).teams n z hz
  exact ⟨z', hz', hh' hh⟩

end

/-- The state in which a stack is marked, listed and notified, before its teams end. -/
def degradedMarks (s : State) (st : Nat) : State :=
  let t := modLife (modStack s st (fun k => { k with degraded := true })) st (fun l => { l with degraded := l.degraded + 1 })
  { t with poisonFrames := listStack t.poisonFrames st, notices := t.notices ++ [Notice.stack st] }
/-- The teams of a stack that still run. -/
def stackTeams (s : State) (st : Nat) : List (Nat × Team) :=
  s.teams.filter (fun e => decide (stackNo e.2.core = st) && !teamOut s e.2 && !e.2.exited)

section
variable {s : State} {st : Nat}

theorem degrade_eq (hst : st < 48) (hd : (stackOf s st).degraded = false) :
    degrade s st = (stackTeams s st).foldl degradeTeam (degradedMarks s st) := by
  have hcond : ¬ (Config.stackCount ≤ st ∨ (stackOf s st).degraded = true) := by
    rw [hd]
    rintro (h | h)
    · exact absurd hst h.not_gt
    · cases h
  exact if_neg hcond
theorem degradedMarks_degraded : (stackOf (degradedMarks s st) st).degraded = true := by
  have hlife : EventKeeps (modStack s st (fun k => { k with degraded := true })) (modLife (modStack s st (fun k => { k with degraded := true })) st
      (fun l => { l with degraded := l.degraded + 1 })) := modStack_eventKeeps fun _ => rfl
  exact (hlife.degraded st).trans (congrArg Stack.degraded (stackOf_modStack_self ..))
theorem degrade_degrades (hst : st < 48) : (stackOf (degrade s st) st).degraded = true := by
  cases hd : (stackOf s st).degraded with
  | true =>
    rw [degrade, if_pos (.inr hd)]
    exact hd
  | false =>
    rw [degrade_eq hst hd, (degradeTeams_eventKeeps _).degraded]
    exact degradedMarks_degraded

theorem stackDegrade_cases (hst : st < 48) (hd : (stackOf s st).degraded = false) :
    ∃ t, exec (.stackDegrade st) s = .next t ∧ (stackOf t st).degraded = true ∧ Notice.stack st ∈ t.notices ∧ SameBytes s t ∧
      (∀ f, f / stackFrames = st → lists t.poisonFrames f = true) ∧
      (∀ f, f / stackFrames ≠ st → lists t.poisonFrames f = lists s.poisonFrames f) ∧
      ∀ n tm gid rest G, tabFind s.teams n = some tm → tm.groups = gid :: rest → tm.core / 16 = st → teamOut s tm = false →
        tm.exited = false → tabFind s.groups gid = some G → G.team = n → (tabFind t.teams n).map (fun x => x.halted) = some true := by
  have hkeep := degradeTeams_eventKeeps (s := degradedMarks s st) (stackTeams s st)
  have hexec : exec (.stackDegrade st) s = .next ((stackTeams s st).foldl degradeTeam (degradedMarks s st)) := by
    rw [exec_stackDegrade, execStackDegrade, degrade_eq hst hd]
  have hframes : ((stackTeams s st).foldl degradeTeam (degradedMarks s st)).poisonFrames = (degradedMarks s st).poisonFrames := by
    simpa using congrArg State.poisonFrames hkeep.rest
  have hnotices : ((stackTeams s st).foldl degradeTeam (degradedMarks s st)).notices = (degradedMarks s st).notices := by
    simpa using congrArg State.notices hkeep.rest
  obtain ⟨hb, hs⟩ := hkeep.sameBytes
  refine ⟨_, hexec, (hkeep.degraded st).trans degradedMarks_degraded, ?_, ⟨fun a => (hb a).trans (homeByte_congr rfl rfl rfl a), hs⟩,
    fun f hf => ?_, fun f hf => ?_, fun n tm gid rest G htm hgs hcore hout hex hG hn => ?_⟩
  · rw [hnotices]
    exact List.mem_append_right _ (List.mem_singleton.mpr rfl)
  · rw [hframes]; exact (lists_listStack ..).trans (if_pos hf)
  · rw [hframes]; exact (lists_listStack ..).trans (if_neg hf)
  · have hmem : (n, tm) ∈ stackTeams s st :=
      List.mem_filter.mpr ⟨tabFind_isMem htm, by simp [stackNo, hcore, hout, hex]⟩
    obtain ⟨z, hz, hh⟩ := degradeTeams_halts (s := degradedMarks s st) hmem hgs htm hG hn
    rw [hz, Option.map_some, hh]

end

/-! ### The vote of a remap table (R377) -/

section
variable {s : State} {st row : Nat} {x : RowCopies} {w : Word}

theorem rowVote_of_two (h : (x.a = w ∧ x.b = w) ∨ (x.a = w ∧ x.c = w) ∨ (x.b = w ∧ x.c = w)) : rowVote x = some w := by
  rcases h with ⟨ha, hb⟩ | ⟨ha, hc⟩ | ⟨hb, hc⟩
  · simp [rowVote, ha, hb]
  · simp [rowVote, ha, hc]
  · by_cases ha : x.a = w <;> simp [rowVote, ha, hb, hc]
theorem rowVote_of_none (hab : x.a ≠ x.b) (hac : x.a ≠ x.c) (hbc : x.b ≠ x.c) : rowVote x = none := by simp [rowVote, hab, hac, hbc]

theorem rowOf_rowPut (hw : tabWf ⟨0, 0, 0⟩ (stackOf s st).remap = true) (r : RowCopies) : rowOf (rowPut s st row r) st row = r := by
  rw [rowOf, rowPut, stackOf_modStack_self]
  exact (tabGet_set _ _ _ hw).trans (if_pos rfl)

theorem rowPut_degraded (r : RowCopies) : (stackOf (rowPut s st row r) st).degraded = (stackOf s st).degraded := by
  rw [rowPut, stackOf_modStack_self]

theorem rowRead_cases {rest : List Turn} (hpow : s.powered = true) (hag : s.agenda = .rowRead st row :: rest) (hst : st < 48)
    (hw : tabWf ⟨0, 0, 0⟩ (stackOf s st).remap = true) (hx : rowOf s st row = x) :
    (∀ w, (x.a = w ∧ x.b = w) ∨ (x.a = w ∧ x.c = w) ∨ (x.b = w ∧ x.c = w) →
      ∃ t, step s = .next t ∧ rowOf t st row = ⟨w, w, w⟩ ∧ (stackOf t st).degraded = (stackOf s st).degraded) ∧
    (x.a ≠ x.b → x.a ≠ x.c → x.b ≠ x.c → ∃ t, step s = .next t ∧ (stackOf t st).degraded = true) := by
  have hstep : step s = .next (rowRead { s with agenda := rest } st row) := by
    rw [step, if_pos hpow, hag]
    rfl
  have hrow : rowOf { s with agenda := rest } st row = x := hx
  rw [hstep, rowRead, hrow]
  refine ⟨fun w hv => ?_, fun hab hac hbc => ?_⟩
  · rw [rowVote_of_two hv]
    exact ⟨_, rfl, rowOf_rowPut (s := { s with agenda := rest }) hw _, rowPut_degraded (s := { s with agenda := rest }) _⟩
  · rw [rowVote_of_none hab hac hbc]
    exact ⟨_, rfl, degrade_degrades hst⟩

end

/-! ### Lifetime records (R379) -/

section
variable {s : State} {st key n : Nat} {x : Segment} {f : Stack → Stack}

theorem lifeRoom_modStack (hf : (f (stackOf s st)).lifeSegs = (stackOf s st).lifeSegs) :
    lifeRoom (modStack { s with draws := n } st f) st = lifeRoom s st := by
  funext k
  rw [lifeRoom, lifeRoom, stackOf_modStack_self, show stackOf { s with draws := n } st = stackOf s st from rfl, hf]
  rfl

/-- A segment that takes a record and its bytes. -/
theorem fillRecord_accepted (hx : tabFind s.segments key = some x) (payload : List Byte) :
    ∃ y, tabFind (fillRecord (acceptRecord s key payload.length) key x.next payload).segments key = some y ∧ y.next = x.next + 1 ∧
      y.tail = x.tail + recordSize payload.length ∧ x.next ∉ y.unread := by
  have hacc : acceptRecord s key payload.length = { s with
      segments := tabPut s.segments key { x with
        next := x.next + 1, tail := x.tail + recordSize payload.length, ends := tabPut x.ends x.next (x.tail + recordSize payload.length),
        unread := x.unread ++ [x.next] } } := modSeg_of_find hx _
  rw [hacc, fillRecord, modSeg_of_find (tabFind_put_self _ _ _)]
  refine ⟨_, tabFind_put_self _ _ _, ?_, ?_, fun h => ?_⟩
  · simpa using congrArg Segment.next (segPut_keeps _ _ _)
  · simpa using congrArg Segment.tail (segPut_keeps _ _ _)
  · simpa using (List.mem_filter.mp h).2

theorem lifetimeRecord_appends (hst : st < 48) (hkey : (stackOf s st).lifeSegs.getLast? = some key) (hx : tabFind s.segments key = some x)
    {bytes : List Byte} (hb : (Config.lifePayload (lifeCounts (stackOf s st).life) (Config.histogram s.draws)).take 65536 = bytes)
    (hat : (stackOf s st).lifeAt + 2 ^ 36 ≤ s.clock) (hroom : lifeRoom s st bytes.length = true) :
    ∃ t y, exec (.lifetimeRecord st) s = .next t ∧ tabFind t.segments key = some y ∧ (stackOf t st).lifeAt = s.clock ∧ y.next = x.next + 1 ∧
      y.tail = x.tail + recordSize bytes.length ∧ x.next ∉ y.unread ∧ t.draws = s.draws + 1 := by
  generalize hs' : modStack { s with draws := s.draws + 1 } st (fun k => { k with lifeAt := s.clock, rowsKept := keptRows s st }) = s'
  have hself : stackOf s' st = { stackOf s st with lifeAt := s.clock, rowsKept := keptRows s st } := by
    rw [← hs', stackOf_modStack_self]
    rfl
  have hroom' : lifeRoom s' st bytes.length = true := by
    rw [← hs', lifeRoom_modStack rfl]
    exact hroom
  have hx' : tabFind s'.segments key = some x := by rw [← hs']; exact hx
  have hexec : exec (.lifetimeRecord st) s = .next (fillRecord (acceptRecord s' key bytes.length) key x.next bytes) := by
    rw [exec_lifetimeRecord, execLifetimeRecord, if_pos ⟨hst, hat⟩, appendLife]
    simp only [hb, hs', hroom', if_true, hself, hkey, hx']
  obtain ⟨y, hy, hnext, htail, hunread⟩ := fillRecord_accepted hx' bytes
  refine ⟨_, y, hexec, hy, ?_, hnext, htail, hunread, ?_⟩
  · exact congrArg Stack.lifeAt hself
  · show s'.draws = s.draws + 1
    rw [← hs']
    rfl

end

/-! ### Storage errors (R370, R371) -/

section
variable {s : State} {gid kind idx : Nat} {G : Group}

theorem storageError_vector (hg : tabFind s.groups gid = some G) (hr : G.retired = false) (hi : idx < 96 * (kernOf s G).regs) :
    exec (.uncorrectableStorageError gid 0 idx) s = .next (setGroup s gid { G with vpoison := setIns G.vpoison idx }) := by
  simp [execUncorrectableStorageError, hg, hr, hi]
theorem storageError_tile (hg : tabFind s.groups gid = some G) (hr : G.retired = false) (hi : idx < 262144) :
    exec (.uncorrectableStorageError gid 2 idx) s = .next (modCore s G.core (fun k => { k with accPoison := setIns k.accPoison idx })) := by
  simp [execUncorrectableStorageError, hg, hr, hi]
theorem storageError_scale (hg : tabFind s.groups gid = some G) (hr : G.retired = false) (hi : idx < 65536) :
    exec (.uncorrectableStorageError gid 3 idx) s = .next (modCore s G.core (fun k => { k with scalePoison := setIns k.scalePoison idx })) := by
  simp [execUncorrectableStorageError, hg, hr, hi]
theorem storageError_other (hg : tabFind s.groups gid = some G) (hr : G.retired = false) (hk : kind ∉ [0, 2, 3]) :
    exec (.uncorrectableStorageError gid kind idx) s = .next (if G.garnet.isSome then killContext s gid else deviceEvent s gid 0x4F) := by
  simp only [List.mem_cons, List.not_mem_nil, or_false, not_or] at hk
  obtain ⟨h0, h2, h3⟩ := hk
  rw [exec_uncorrectableStorageError, execUncorrectableStorageError]
  simp only [hg, hr, Bool.false_eq_true, if_false, h0, h2, h3]
  split <;> rfl

/-- The groups of the team of a fatal event halt. -/
theorem fatal_susp {g : Group} {x : TrapInfo} {e : Nat × Group} (he : e ∈ (fatal s gid g x).groups) (ht : e.2.team = g.team) :
    e.2.susp = .halted := by
  have hgroups : (fatal s gid g x).groups = (haltTeam s g.team).groups := by
    unfold fatal
    extract_lets r s1
    split
    · rfl
    · split
      · split <;> rfl
      · rfl
  rw [hgroups] at he
  obtain ⟨e', -, rfl⟩ := List.mem_map.mp he
  split at ht
  · next h => rw [if_pos h]
  · next h => exact absurd ht h

/-- The class 2 event of an error in a group's other storage. -/
theorem storageError_event {tm : Team} (hg : tabFind s.groups gid = some G) (hr : G.retired = false) (hk : kind ∉ [0, 2, 3])
    (hgar : G.garnet = none) (htm : tabFind s.teams G.team = some tm) (hf : tm.fatal = false) :
    ∃ t, exec (.uncorrectableStorageError gid kind idx) s = .next t ∧ ∃ r,
      (stackOf t (G.core / 16)).fatal = (stackOf s (G.core / 16)).fatal ++ [r] ∧ r.info.code = 0x4F ∧ r.info.cls = 2 ∧ r.info.src = 3 ∧
      (∀ e ∈ t.groups, e.2.team = G.team → e.2.susp = .halted) := by
  have hexec : exec (.uncorrectableStorageError gid kind idx) s = .next (deviceEvent s gid 0x4F) := by
    rw [storageError_other hg hr hk, hgar]
    rfl
  rw [deviceEvent, hg] at hexec
  obtain ⟨r, hlatch, -, hinfo, -⟩ := fatal_latches (gid := gid) (t := { deviceTrap 0x4F with
    tspc := (G.paths.head?.map (fun q => q.spc)).getD 0, tlpc := (G.paths.head?.map (fun q => q.lpc)).getD 0,
    path := (G.paths.head?.map (fun q => q.id)).getD 0 }) htm hf
  exact ⟨_, hexec, r, hlatch, by rw [hinfo]; rfl, by rw [hinfo], by rw [hinfo]; rfl, fun e he ht => fatal_susp he ht⟩

end

/-! ### What follows the death of a lane (R130, R160, R370, R380)

A lane's death may let a trap be taken, the group retire and its team exit. What the claim says afterwards needs only that none of this brings a
dead lane back or counts one: `State.Deaths v` says that every group's dead lanes meet the condition `v.1` of its number, and that the
lifetime counters of the stacks are `v.2`. Each operation has one lemma, named after it with `_deaths`; it looks at two fields, so an
operation that writes others keeps it by the hypothesis itself. -/

/-- A condition on the dead lanes of each group, by its number, and the lifetime counters of each stack. -/
abbrev DeathView : Type := (Nat → Mask → Prop) × (Nat → Life)
def deathsAre (v : DeathView) (groups : Tab Group) (stks : Tab Stack) : Prop :=
  (∀ e ∈ groups, v.1 e.1 e.2.dead) ∧ ∀ k, (tabGet stackZero stks k).life = v.2 k
def State.Deaths (v : DeathView) (s : State) : Prop := deathsAre v s.groups s.stks

section
variable {v : DeathView} {s : State} {gid : Nat} {g : Group}

theorem ite_deaths {c : Prop} [Decidable c] {a b : State} (ha : a.Deaths v) (hb : b.Deaths v) : (if c then a else b).Deaths v := by
  split
  · exact ha
  · exact hb
theorem foldl_deaths {α : Type} {f : State → α → State} {l : List α} (hf : ∀ t a, t.Deaths v → (f t a).Deaths v) (h : s.Deaths v) :
    (l.foldl f s).Deaths v :=
  foldl_keeps (P := State.Deaths v) l hf h
theorem State.Deaths.find (h : s.Deaths v) (hg : tabFind s.groups gid = some g) : v.1 gid g.dead := h.1 _ (tabFind_isMem hg)
theorem State.Deaths.withGroups (h : s.Deaths v) {gs : Tab Group} (hgs : ∀ e ∈ gs, ∃ e' ∈ s.groups, e.1 = e'.1 ∧ e.2.dead = e'.2.dead) :
    State.Deaths v { s with groups := gs } :=
  ⟨fun e he => by obtain ⟨e', he', hk, hd⟩ := hgs e he; rw [hk, hd]; exact h.1 e' he', h.2⟩
theorem State.Deaths.mapGroups (h : s.Deaths v) {f : Nat × Group → Nat × Group} (hf : ∀ e, (f e).1 = e.1 ∧ (f e).2.dead = e.2.dead) :
    State.Deaths v { s with groups := s.groups.map f } :=
  h.withGroups fun e he => by obtain ⟨e', he', rfl⟩ := List.mem_map.mp he; exact ⟨e', he', hf e'⟩
theorem State.Deaths.filterGroups (h : s.Deaths v) (f : Nat × Group → Bool) : State.Deaths v { s with groups := s.groups.filter f } :=
  h.withGroups fun e he => ⟨e, List.mem_of_mem_filter he, rfl, rfl⟩
theorem State.Deaths.delGroup (h : s.Deaths v) (n : Nat) : State.Deaths v { s with groups := tabDel s.groups n } :=
  h.withGroups fun e he => ⟨e, tabDel_subset he, rfl, rfl⟩

theorem setGroup_deaths (h : s.Deaths v) (hg : v.1 gid g.dead) : (setGroup s gid g).Deaths v :=
  ⟨fun e he => (tabPut_mem he).elim (fun hn => hn ▸ hg) (h.1 e), h.2⟩
theorem modGroup_deaths {f : Group → Group} (hf : ∀ x, (f x).dead = x.dead) (h : s.Deaths v) : (modGroup s gid f).Deaths v := by
  unfold modGroup tabMod
  split
  · next x hx => exact setGroup_deaths h ((hf x).symm ▸ h.find hx)
  · exact h
theorem modCore_deaths {c : Nat} {f : Core → Core} (h : s.Deaths v) : (modCore s c f).Deaths v := h
theorem modTeam_deaths {n : Nat} {f : Team → Team} (h : s.Deaths v) : (modTeam s n f).Deaths v := h
theorem modStack_deaths {st : Nat} {f : Stack → Stack} (hf : ∀ k, (f k).life = k.life) (h : s.Deaths v) : (modStack s st f).Deaths v := by
  refine ⟨h.1, fun j => Eq.trans (?_ : (stackOf (modStack s st f) j).life = (stackOf s j).life) (h.2 j)⟩
  rw [stackOf_modStack]
  split
  · next hj => rw [hf, hj]
  · rfl

/-! Words at home slices, in column caches and in scratchpads. -/

theorem homePut_deaths {a : Nat} {x : Byte} (h : s.Deaths v) : (homePut s a x).Deaths v := by
  unfold homePut
  exact ite_deaths h h
theorem homeWordPut_deaths {wa : Nat} {x : Word} (h : s.Deaths v) : (homeWordPut s wa x).Deaths v :=
  homePut_deaths (homePut_deaths (homePut_deaths (homePut_deaths h)))
theorem writeBackLine_deaths {c line : Nat} (h : s.Deaths v) : (writeBackLine s c line).Deaths v := by
  unfold writeBackLine
  extract_lets dirty s1
  have hs1 : s1.Deaths v := foldl_deaths (fun _ _ ht => ite_deaths ht ht) h
  refine foldl_deaths (fun _ _ ht => ?_) hs1
  extract_lets wa
  split
  · exact ite_deaths (homeWordPut_deaths (ite_deaths ht ht)) ht
  · exact ht
theorem cleanCore_deaths {c : Nat} (h : s.Deaths v) : (cleanCore s c).Deaths v := foldl_deaths (fun _ _ ht => writeBackLine_deaths ht) h
theorem colTrim_deaths {c : Nat} (h : s.Deaths v) : (colTrim s c).Deaths v := by
  refine foldl_deaths (fun t _ ht => ?_) h
  extract_lets k
  refine ite_deaths ?_ ht
  split
  · exact modCore_deaths (writeBackLine_deaths ht)
  · exact ht
theorem setUnits_deaths {c u : Nat} (h : s.Deaths v) : (setUnits s c u).Deaths v := by
  have hclean : (if (coreOf s c).units < u then modCore (cleanCore s c) c (fun k => { k with col := [], homes := [] }) else s).Deaths v :=
    ite_deaths (cleanCore_deaths h) h
  exact ite_deaths h (colTrim_deaths (s := modCore _ c _) hclean)
theorem spadBytes_deaths (n : Nat) {c off x : Nat} (h : s.Deaths v) : (spadBytes n s c off x).Deaths v := by
  induction n generalizing s off x with
  | zero => exact h
  | succ n ih => exact ih (s := spadPut s _ _ _) h
theorem barInvalidate_deaths {c off : Nat} (h : s.Deaths v) : (barInvalidate s c off).Deaths v :=
  modCore_deaths ((spadBytes_deaths 4 (modCore_deaths h)).mapGroups fun _ => ⟨rfl, rfl⟩)
theorem barsOfTeam_deaths {team : Nat} (h : s.Deaths v) : (barsOfTeam s team).Deaths v :=
  foldl_deaths (fun _ _ ht => foldl_deaths (fun _ _ ht => barInvalidate_deaths ht) ht) h

/-! The end of a group, its team and its cluster. -/

theorem fireAll_deaths {c : Nat} (h : s.Deaths v) : (fireAll s c).Deaths v := by
  have hpump (n : Nat) {t : State} (ht : t.Deaths v) : (pump t c n).Deaths v := by
    induction n generalizing t with
    | zero => exact ht
    | succ n ih =>
      unfold pump
      dsimp only
      split
      · split
        · exact ih (t := modCore t c _) ht
        · exact ht
      · exact ht
  exact hpump 8 (foldl_deaths (fun _ _ ht => ite_deaths ht ht) h)
theorem releaseTasks_deaths {st pasid : Nat} (h : s.Deaths v) : (releaseTasks s st pasid).Deaths v :=
  ite_deaths h (ite_deaths (modStack_deaths (fun _ => rfl) h) (modStack_deaths (fun _ => rfl) h))
theorem releaseTeam_deaths {team : Nat} {keep : Bool} (h : s.Deaths v) : (releaseTeam s team keep).Deaths v := by
  unfold releaseTeam
  split
  · exact h
  · extract_lets mine kept ents free tiles s1 s2 s3
    have hs1 : s1.Deaths v := foldl_deaths (fun _ _ ht => ht) h
    have hlocks (tm : Team) : (dropTeamLocks s2 team tm).Deaths v := foldl_deaths (fun _ _ ht => ht) hs1
    exact fireAll_deaths (barsOfTeam_deaths (foldl_deaths (fun _ _ ht => ht) (hlocks _)))
theorem returnItems_deaths {core launch : Nat} (h : s.Deaths v) : (returnItems s core launch).Deaths v := by
  unfold returnItems
  extract_lets left
  split
  · exact h
  · exact ite_deaths h h
theorem leaveCluster_deaths {cl : Nat} (h : s.Deaths v) : (leaveCluster s cl).Deaths v := by
  unfold leaveCluster
  split
  · exact h
  · refine ite_deaths h (ite_deaths h ?_)
    extract_lets _ cores s1 s2 s3
    have hs1 : s1.Deaths v := ite_deaths (foldl_deaths (fun _ _ ht => ht) h) h
    exact foldl_deaths (fun _ _ ht => setUnits_deaths ht) (hs1.filterGroups _)
theorem teamExit_deaths {team : Nat} (h : s.Deaths v) : (teamExit s team).Deaths v := by
  unfold teamExit
  split
  · exact h
  · exact ite_deaths h (leaveCluster_deaths (releaseTasks_deaths (returnItems_deaths (modTeam_deaths (releaseTeam_deaths h)))))
theorem addSub_deaths {st : Nat} {x : Sub} (h : s.Deaths v) : (addSub s st x).Deaths v :=
  modStack_deaths (st := st) (f := fun k => { k with subs := k.subs ++ [{ x with id := s.fresh, from_ := subFrom s x }] }) (fun _ => rfl) h
theorem formOne_deaths {team : Nat} (h : s.Deaths v) : (formOne s team).Deaths v := by
  unfold formOne
  split
  · exact h
  · exact ite_deaths (addSub_deaths (modTeam_deaths h)) h
theorem formCopies_deaths {team : Nat} (h : s.Deaths v) : (formCopies s team).Deaths v :=
  formOne_deaths (formOne_deaths (formOne_deaths (formOne_deaths h)))
theorem tryRetire_deaths (h : s.Deaths v) : (tryRetire s gid).Deaths v := by
  unfold tryRetire
  split
  · exact h
  · next g hg =>
    have hdead := h.find hg
    refine ite_deaths ?_ h
    extract_lets s1 s2 s3
    have hs1 : s1.Deaths v := setGroup_deaths h hdead
    have hs3 : s3.Deaths v := fireAll_deaths (formCopies_deaths hs1)
    split
    · exact ite_deaths (teamExit_deaths hs3) hs3
    · exact hs3

/-! Traps and recalls. -/

theorem placeRecalled_dead (g : Group) (e : RecallEnt) : (placeRecalled g e).dead = g.dead := by
  unfold placeRecalled
  extract_lets g1
  split
  · rfl
  · split
    · extract_lets g2
      split <;> rfl
    · split <;> rfl
theorem drainRecalls_dead (g : Group) : (drainRecalls g).dead = g.dead := by
  unfold drainRecalls
  split
  · rfl
  · split
    · exact placeRecalled_dead _ _
    · rfl
theorem formReturned_dead (s : State) (g : Group) (t : Nat) : (formReturned s g t).dead = g.dead := by
  unfold formReturned
  extract_lets x bit bound waiting
  split
  · rfl
  · split <;> rfl
theorem formAll_dead (s : State) (g : Group) : (formAll s g).dead = g.dead :=
  foldl_keeps (P := fun x : Group => x.dead = g.dead) _ (fun _ _ h => (formReturned_dead _ _ _).trans h) rfl
theorem writeBackLane_dead (g x : Group) (i : Garnet) : (writeBackLane g x i).dead = g.dead := by
  simpa using congrArg Group.dead (writeBackLane_apart (g := g) (x := x) (i := i))

theorem recallCtx_deaths (h : s.Deaths v) : (recallCtx s gid).Deaths v := by
  unfold recallCtx
  split
  · exact h
  · split
    · refine modGroup_deaths (fun x => ?_) (h.delGroup gid)
      simp only [placeRecalled_dead, setSlot, writeBackLane_dead]
    · exact h
theorem haltTeam_deaths {n : Nat} (h : s.Deaths v) : (haltTeam s n).Deaths v :=
  State.Deaths.mapGroups (s := modTeam s n _) h fun e => by split <;> exact ⟨rfl, rfl⟩
theorem fatal_deaths {x : TrapInfo} (h : s.Deaths v) : (fatal s gid g x).Deaths v := by
  have hhalt : (haltTeam s g.team).Deaths v := haltTeam_deaths h
  unfold fatal
  extract_lets r s1
  split
  · exact hhalt
  · refine ite_deaths ?_ (modStack_deaths (s := { modTeam s1 g.team _ with fresh := _ }) (fun _ => rfl) hhalt)
    split <;> exact hhalt
theorem suspendOn_deaths {x : TrapInfo} (h : s.Deaths v) (hg : v.1 gid g.dead) : (suspendOn s gid g x).Deaths v := by
  have hset : (setGroup s gid { g with
      susp := .record (recordOf s gid g x).tag, walked := none, pausedAt := if g.handler.isSome then g.pausedAt else s.clock }).Deaths v :=
    setGroup_deaths h hg
  exact modStack_deaths (s := { setGroup s gid _ with fresh := _ }) (fun _ => rfl) hset
theorem takeTrap_deaths {p : Path} {x : TrapInfo} (h : s.Deaths v) (hg : v.1 gid g.dead) : (takeTrap s gid g p x).Deaths v := by
  have hput : (setGroup s gid (putPath g p)).Deaths v := setGroup_deaths h hg
  unfold takeTrap
  refine ite_deaths (ite_deaths (recallCtx_deaths hput) hput) (ite_deaths (fatal_deaths hput) (ite_deaths (suspendOn_deaths h hg) ?_))
  split
  · exact fatal_deaths hput
  · split
    · exact setGroup_deaths h hg
    · exact fatal_deaths hput
theorem takeDue_deaths (h : s.Deaths v) : (takeDue s gid).Deaths v := by
  unfold takeDue
  split
  · exact h
  · next g hg =>
    have hdead := h.find hg
    split
    · exact h
    · refine ite_deaths h ?_
      extract_lets g1
      have hg1 : v.1 gid g1.dead := hdead
      split
      · exact takeTrap_deaths h hg1
      · exact setGroup_deaths h hg1

end

/-! ### The death of a context's lane (R130, R370) -/

theorem maskCount_laneBit {l : Nat} (hl : l < 96) : maskCount (laneBit l) = 1 := by
  have hperm : (maskLanes (laneBit l)).Perm [l] := (List.perm_ext_iff_of_nodup (maskLanes_nodup _) (List.nodup_singleton l)).mpr fun k => by
    rw [List.mem_singleton]
    constructor
    · intro hk
      have hk96 := maskLanes_lt hk
      exact (laneBit_getLsbD hk96).mp ((mem_maskLanes hk96).mp hk)
    · rintro rfl
      exact (mem_maskLanes hl).mpr ((laneBit_getLsbD hl).mpr rfl)
  exact hperm.length_eq

/-- A lane that has not died is all that dies. -/
theorem fresh_lane {d : Mask} {l : Nat} (hl : l < 96) (hd : d.getLsbD l = false) : laneBit l &&& ~~~ d = laneBit l := by
  refine mask_ext fun k hk => ?_
  rw [BitVec.getLsbD_and, BitVec.getLsbD_not, decide_eq_true hk, Bool.true_and]
  by_cases h : k = l
  · subst h
    rw [hd, Bool.not_false, Bool.and_true]
  · rw [Bool.eq_false_iff.mpr fun hb => h ((laneBit_getLsbD hk).mp hb), Bool.false_and]

section
variable {s : State} {gid : Nat} {g : Group} {m : Mask}

/-- The group as it stands once its lanes `m` have died, before a trap is taken. -/
def withDead (s : State) (g : Group) (m : Mask) : Group :=
  let g := dropLanes g m
  let g := if g.dead = BitVec.allOnes 96 then { g with paths := [], recalls := [], handler := none, due := [] } else g
  drainRecalls (formAll s (drainRecalls g))
theorem withDead_dead : (withDead s g m).dead = g.dead ||| m := by
  simp only [withDead, drainRecalls_dead, formAll_dead]
  split <;> rfl

/-- The deaths are counted for the launch and the stack. -/
def countDeaths (s : State) (g : Group) (n : Nat) : State :=
  let s := match launchNo s g with
    | some l => modLaunch s l (fun x => { x with deadLanes := x.deadLanes + n })
    | none => s
  modStack s (stackNo g.core) (fun k => { k with life := { k.life with deadLanes := k.life.deadLanes + n } })
theorem countDeaths_groups (n : Nat) : (countDeaths s g n).groups = s.groups := by
  unfold countDeaths
  cases launchNo s g <;> rfl
theorem countDeaths_life (n : Nat) : (stackOf (countDeaths s g n) (stackNo g.core)).life.deadLanes =
    (stackOf s (stackNo g.core)).life.deadLanes + n := by
  unfold countDeaths
  rw [stackOf_modStack_self]
  cases launchNo s g <;> rfl

theorem killLanes_eq (hg : tabFind s.groups gid = some g) (hm : m &&& ~~~ g.dead = m) (h0 : m ≠ 0) : killLanes s gid m =
    tryRetire (takeDue (setGroup (countDeaths s g (maskCount m)) gid (withDead (countDeaths s g (maskCount m)) g m)) gid) gid := by
  unfold killLanes
  simp only [hg, hm, h0, if_false]
  rfl
end

section
variable {s : State} {gid : Nat} {G P : Group} {i : Garnet}

/-- A context whose lane dies is gone, and so is the lane. -/
theorem killContext_kills (hg : tabFind s.groups gid = some G) (hgar : G.garnet = some i) (hne : i.parent ≠ gid)
    (hp : tabFind s.groups i.parent = some P) (hk : s.KeysOk) (hl : i.lane < 96) (hd : P.dead.getLsbD i.lane = false) :
    tabFind (killContext s gid).groups gid = none ∧
      (stackOf (killContext s gid) (P.core / 16)).life.deadLanes = (stackOf s (P.core / 16)).life.deadLanes + 1 ∧
      ∀ P', tabFind (killContext s gid).groups i.parent = some P' → P'.dead.getLsbD i.lane = true := by
  have hsort : tabSorted s.groups = true := hk.1
  have hp' : tabFind (tabDel s.groups gid) i.parent = some P := (tabFind_del_ne hsort hne).trans hp
  have hbit : (laneBit i.lane).getLsbD i.lane = true := (laneBit_getLsbD hl).mpr rfl
  have h0 : laneBit i.lane ≠ 0 := fun h => by
    rw [h] at hbit
    simp at hbit
  generalize hu : countDeaths { s with groups := tabDel s.groups gid } P (maskCount (laneBit i.lane)) = u
  have hgroups : u.groups = tabDel s.groups gid := by rw [← hu, countDeaths_groups]
  have hkill : killContext s gid = tryRetire (takeDue (setGroup u i.parent (withDead u P (laneBit i.lane))) i.parent) i.parent := by
    simp only [killContext, hg, hgar]
    rw [killLanes_eq (s := { s with groups := tabDel s.groups gid }) hp' (fresh_lane hl hd) h0, hu]
  have hstart : (setGroup u i.parent (withDead u P (laneBit i.lane))).Deaths
      (fun k d => k ≠ gid ∧ (k = i.parent → d.getLsbD i.lane = true), fun j => (stackOf u j).life) := by
    refine ⟨fun e he => ?_, fun _ => rfl⟩
    have hfind := tabFind_of_mem (k := e.1) (v := e.2) (tabSorted_put _ _ (hgroups ▸ tabSorted_del _ hsort)) he
    rw [tabFind_put] at hfind
    refine ⟨fun hek => ?_, fun hek => ?_⟩
    · rw [if_neg (hek.trans_ne hne.symm), hek, hgroups, tabFind_del_self gid hsort] at hfind
      cases hfind
    · rw [if_pos hek] at hfind
      rw [← Option.some.inj hfind, withDead_dead, BitVec.getLsbD_or, hbit, Bool.or_true]
  have hend := tryRetire_deaths (gid := i.parent) (takeDue_deaths (gid := i.parent) hstart)
  rw [← hkill] at hend
  refine ⟨?_, ?_, fun P' hP' => (hend.find hP').2 rfl⟩
  · cases hf : tabFind (killContext s gid).groups gid with
    | none => rfl
    | some g => exact absurd rfl (hend.find hf).1
  · have hcount := countDeaths_life (s := { s with groups := tabDel s.groups gid }) (g := P) (maskCount (laneBit i.lane))
    rw [hu, maskCount_laneBit hl] at hcount
    exact (congrArg Life.deadLanes (hend.2 (P.core / 16))).trans hcount

end

/-- Settles O48: clause by clause, each by the section above that bears its name; a context's death rests on `killContext_kills`. -/
theorem reliability : Obligations.Reliability := by
  unfold Obligations.Reliability
  refine ⟨fun s pa h hp hb => framePoison_poisons h hp hb, fun s c grp lane pa n hc hg => parityRetry_cases hc hg,
    fun s st hst hd _ => stackDegrade_cases hst hd, fun s st row rest x hpow hag hst hw hx => rowRead_cases hpow hag hst hw hx,
    fun s gid kind idx G hg hr => ?_, fun s st key x hst hkey hx hat hroom => lifetimeRecord_appends hst hkey hx rfl hat hroom⟩
  refine ⟨?_, ?_, ?_, fun tm hk hgar htm hf => storageError_event hg hr hk hgar htm hf, fun i P hk hgar hne hp hkeys hl hd => ?_⟩
  · rintro rfl hi
    exact ⟨_, storageError_vector hg hr hi, rfl, _, tabFind_setGroup_self _ _ _, mem_setIns.mpr (.inl rfl), rfl⟩
  · rintro rfl hi
    exact ⟨_, storageError_tile hg hr hi, by rw [coreOf_modCore_self]; exact mem_setIns.mpr (.inl rfl), rfl⟩
  · rintro rfl hi
    exact ⟨_, storageError_scale hg hr hi, by rw [coreOf_modCore_self]; exact mem_setIns.mpr (.inl rfl), rfl⟩
  · have hexec : exec (.uncorrectableStorageError gid kind idx) s = .next (killContext s gid) := by
      rw [storageError_other hg hr hk, hgar]
      rfl
    exact ⟨_, hexec, killContext_kills hg hgar hne hp hkeys hl hd⟩

end Sys2Proof.Machine
end
